-- ==== Sys2Proof/Word.lean ====
section
/-!
DEFINITION. The word types of the KT4096 model: what the manual treats as bits is a bit vector here, and
counts, addresses and stamps are natural numbers.
-/

namespace Sys2Proof

/-- A byte of memory or of an on-chip store. -/
abbrev Byte := BitVec 8

/-- A 32-bit word: a unit register, a core register, a descriptor word. -/
abbrev Word := BitVec 32

end Sys2Proof
end

