-- ==== Sys2Proof/Syntax.lean ====
section
/-!
DEFINITION. The commands of the KT4096 as a block: one constructor per row of the table of operations and
events, with its operands. `Elapsed` says how much time passes before the command: tempo-clock edges and
nanoseconds since the previous command. `Who` says which agent makes a bus access.
-/

namespace Sys2Proof

/-- Time since the previous command: tempo-clock edges (one per step) and nanoseconds. -/
structure Elapsed where
  edges : Nat
  ns : Nat
  deriving DecidableEq, Repr

/-- The maker of a bus access (R6, R51): its 8-bit stamp, its mode, and whether the access reached the device
after its decision step (R52). -/
structure Who where
  stamp : Nat
  prot : Bool
  late : Bool
  deriving DecidableEq, Repr

/-- Guard of a 32-bit instruction (R383): predicate number and inversion. -/
structure Guard where
  g : BitVec 3
  n : Bool
  deriving DecidableEq, Repr

/-- What the check bits of the word read by an access show (R401, R410). -/
inductive Ecc where
  | clean | single | double
  deriving DecidableEq, Repr

/-- A logical application core 0-3, or 4 and 5 for link cores 0 and 1 (Table CPU-1). -/
abbrev CoreId := Fin 6

/-- Number of a general register, w0-w31. -/
abbrev RegNum := BitVec 5

/-- Number of a predicate, p0-p7. -/
abbrev PredNum := BitVec 3

/-- Size code of LDX and STX (Table CPU-8), reserved codes included. -/
abbrev SizeCode := BitVec 3

/-- Address mode operand of LDX and STX (Table CPU-9): the mode code, reserved codes included, with the
fields it uses. -/
inductive AddrMode where
  | scaled (rb : RegNum)
  | postReg (rb : RegNum)
  | postImm (imm5 : BitVec 5)
  | modulo (k : BitVec 2) (inc3 : BitVec 3)
  | bitrev (k : BitVec 2)
  | reserved (code : Fin 3)
  deriving DecidableEq, Repr

/-- What the answer window of a DALI frame brought (R327). -/
inductive DaliAnswer where
  | none
  | byte (b : Byte)
  | corrupt
  deriving DecidableEq, Repr

/-- How a reader addresses a tag (ISO/IEC 15693-3): any tag not quiet, the selected one, or the one named by
its UID. -/
inductive TagAddr where
  | any
  | selected
  | uid (u : BitVec 64)
  deriving DecidableEq, Repr

/-- Address and option flag of a reader's request. -/
structure TagReq where
  addr : TagAddr
  option : Bool
  deriving DecidableEq, Repr

/-- A complex sample of the capture on the internal scale of R122, and whether it is blanked. -/
structure Sample where
  i : Int
  q : Int
  blank : Bool
  deriving DecidableEq, Repr

/-- Head of a received link packet (Table COH-1): the source member, its epoch [7:0], SEQ, whether the CRC holds, and
whether the packet arrived after its decision step (R419). -/
structure CohHead where
  src : Nat
  epoch : Nat
  seq : Nat
  crcOk : Bool
  late : Bool
  deriving DecidableEq, Repr

/-- A received frame in a link packet: its lane report, channel entry, mode, mark, PHY header word, generation, end of
sync (aligned or local stamp), step of its start of frame, and the time since its last chip. -/
structure CohFrame where
  report : List Byte
  chan : Nat
  bw : Nat
  order : Nat
  mark : Nat
  hdr : Nat
  gen : Nat
  sync : Nat
  syncAligned : Bool
  sofStep : Nat
  since : Elapsed
  deriving DecidableEq, Repr

/-- The lead's banks and the commit that names them (CFGPUSH): the tables' bytes, the boundary, the new generation, the
context updates and the key slots to release. -/
structure CohPush where
  tables : Nat
  boundary : Option Nat
  newGen : Nat
  interval : Nat
  rewrites : List (Nat × Bool × List Byte)
  releases : List Nat
  chan : List Byte
  watch : List Byte
  rules : List Byte
  ttb : List Byte
  power : List Byte
  sched : List Byte
  deriving DecidableEq, Repr

/-- Head of a homeroom frame (R445, R446): its path (0 UART, 1 SPI, 2 radio), SEQ, and whether its CRC holds. -/
structure HomeHead where
  path : Fin 3
  seq : Nat
  crcOk : Bool
  deriving DecidableEq, Repr


/-- What the settings store in force holds (R31, R400, R417, R443, Table UPD-8). The chapters give its records no
identifiers and no layouts, so its contents come with the command: owners as kind (0 page, 1 ring, 2 channel), target,
stamp and P; the short address; COUNT and INDEX; the epoch; the bank attributes; states of domains; the tables. -/
structure Settings where
  owners : List (Nat × Nat × Nat × Bool)
  short : Option Nat
  cohort : Option (Nat × Nat)
  epoch : Nat
  attrs : Option (Nat × Nat)
  domains : List (Nat × Nat)
  chan : Option (List Byte)
  watch : Option (List Byte)
  rules : Option (List Byte)
  ttb : Option (List Byte)
  power : Option (List Byte)
  sched : Option (List Byte)
  deriving DecidableEq, Repr

/-- What a start-up stage finds (R25): the level of BOOTSEL (stage 2); physical members that fail their self-test, by
array (0 lane, 1 decoder, 2 cipher engine, 3 core); failing SRAM rows (stage 3); the windows of the DRAM sweep and the
settings (stage 6); failing receive calibration items, channel entries that fail, and the power check's correction,
none for a failure (stage 7). -/
structure StageEnd where
  bootsel : Bool
  failed : List (Nat × Nat)
  rows : List (Nat × Nat)
  win0 : Nat
  win1 : Nat
  settings : Settings
  capFail : BitVec 6
  synFail : List Nat
  power : Option Nat
  deriving DecidableEq, Repr

/-- The commands of the block: one constructor per row of the table of operations and events. -/
inductive Instr where
  /-- POWER_ON (R25). VMAIN rises above 5.5 V and start-up begins at stage 1. -/
  | powerOn (t : Elapsed) (vmain : Nat)
  /-- START_UP_STAGE_END (R25). A start-up stage finishes its work and the next stage begins, subject to the joint ending of stages 3 and 4. -/
  | startUpStageEnd (t : Elapsed) (x : StageEnd)
  /-- START_UP_STAGE_BOUND_EXPIRY (R25). A start-up stage exceeds its bound and start-up ends in homeroom with the cause recorded. -/
  | startUpStageBoundExpiry (t : Elapsed)
  /-- RAIL_FALL (R28). The 3.3 V rail falls below 2.9 V, BKP switches to backup and every other domain is reset. -/
  | railFall (t : Elapsed) (vmain : Nat)
  /-- RAIL_RECOVERY (R28). The 3.3 V rail returns above 2.9 V during stages 2 to 8 and the running stage continues. -/
  | railRecovery (t : Elapsed)
  /-- NRST_ASSERT (R461). NRST is held low for 1 µs or more, every domain but BKP is reset and any frame on air ends. -/
  | nrstAssert (t : Elapsed) (low : Nat)
  /-- NRST_RELEASE (R461). NRST rises and start-up resumes at stage 2. -/
  | nrstRelease (t : Elapsed)
  /-- BKP_SWITCH_BACK (R366). 10 ms after the rail became stable, VBKP returns to main and the validity token is checked. -/
  | bkpSwitchBack (t : Elapsed)
  /-- TOKEN_CLEAR (R367). VBKP falls below the detector threshold and all three token copies are cleared. -/
  | tokenClear (t : Elapsed)
  /-- FORCED_COLD_START (R369). A protected write of BKP_CTL.COLD forces a cold start of BKP at once. -/
  | forcedColdStart (t : Elapsed) (who : Who)
  /-- REGISTER_WRITE (R2). A write to a register without a row of its own, applied by its access code and the ownership rules. -/
  | registerWrite (t : Elapsed) (who : Who) (addr value : Nat)
  /-- UNIT_DISABLE (R40). Writing UCTL.EN to 0 stops new work, completes or abandons started work and marks unstarted work NOT_RUN. -/
  | unitDisable (t : Elapsed) (who : Who) (unit value : Nat)
  /-- UNIT_ENABLE (R40). Writing UCTL.EN to 1 lets a disabled unit accept work again. -/
  | unitEnable (t : Elapsed) (who : Who) (unit value : Nat)
  /-- UNIT_DRAIN (R41). Setting UCTL.DRAIN stops new work while started work runs to completion. -/
  | unitDrain (t : Elapsed) (who : Who) (unit value : Nat)
  /-- UNIT_RESUME (R41). Clearing UCTL.DRAIN resumes work. -/
  | unitResume (t : Elapsed) (who : Who) (unit value : Nat)
  /-- UNIT_RESET_REQUEST (R43). Setting UCTL.RESET makes the parent drain and then reset the unit. -/
  | unitResetRequest (t : Elapsed) (who : Who) (unit value : Nat)
  /-- UNIT_POWER_ON_REQUEST (R23). An accepted UCTL write to a page whose domain is not on requests that domain on. -/
  | unitPowerOnRequest (t : Elapsed) (who : Who) (unit value : Nat)
  /-- UNIT_LAPSE (R37). A unit's lapse timer or drain bound passes its bound and the parent ends its work with LAPSED completions and clears it. -/
  | unitLapse (t : Elapsed) (unit : Nat)
  /-- UNIT_RETURN_TO_SERVICE (R37). After its return-to-service time the lapsed unit reads IDLE and the envelope is restored. -/
  | unitReturnToService (t : Elapsed) (unit : Nat)
  /-- DOORBELL (R89). A write of RNG_SQPRODn is stamped and at its decision step makes descriptors available or is ignored. -/
  | doorbell (t : Elapsed) (who : Who) (ring prod : Nat)
  /-- DESCRIPTOR_FETCH (R100). The ring engine fetches a descriptor from a ring that has credit, memory on and no held completion. -/
  | descriptorFetch (t : Elapsed) (ring : Nat)
  /-- TIMED_START (R93). A TIMED descriptor's start stamp is reached and its work starts, or completes LATE beyond SLIP. -/
  | timedStart (t : Elapsed) (ring idx : Nat)
  /-- FENCE_RELEASE (R94). Every earlier descriptor on the ring has been decided and a FENCE descriptor is handed to its unit. -/
  | fenceRelease (t : Elapsed) (ring idx : Nat)
  /-- COMPLETION_WRITE (R97). A decided completion is written into the completion ring in stamp or submission order, or held. -/
  | completionWrite (t : Elapsed) (ring : Nat)
  /-- CQCONS_WRITE (R91). The owner releases completion slots, letting held completions be written. -/
  | cqconsWrite (t : Elapsed) (who : Who) (ring cons : Nat)
  /-- RING_ENABLE (R88). Setting RNG_CFGn.EN resets the indices and enables the ring, or is refused. -/
  | ringEnable (t : Elapsed) (who : Who) (ring value : Nat)
  /-- RING_DISABLE (R103). Clearing RNG_CFGn.EN stops fetching and disables the ring's fetched work. -/
  | ringDisable (t : Elapsed) (who : Who) (ring value : Nat)
  /-- NOP (R94). The general NOP opcode completes DONE at its decision step or start stamp. -/
  | nop (t : Elapsed) (ring idx : Nat)
  /-- COMMIT (R45). A COMMIT on ring 0 is checked and fixes the boundary of a configuration change. -/
  | commit (t : Elapsed) (idx : Nat)
  /-- COMMIT_BOUNDARY (R47). At the boundary the named tables switch bank and the generation advances. -/
  | commitBoundary (t : Elapsed)
  /-- COMMIT_CONTEXT_REWRITE (R47). The link engine rewrites one CTXLIST context per microsecond after the boundary. -/
  | commitContextRewrite (t : Elapsed)
  /-- CHANGEOVER_END (R47). The changeover interval passes and old frames complete, so keys are erased and the commit completes. -/
  | changeoverEnd (t : Elapsed)
  /-- SET_OWNER (R105). Ring 0 changes the owner of a ring, channel or unit page. -/
  | setOwner (t : Elapsed) (idx : Nat)
  /-- COPY (R106). A copy engine job copies bytes between memory regions. -/
  | copy (t : Elapsed) (ring idx : Nat)
  /-- FILL (R106). A copy engine job fills a destination with a repeated pattern. -/
  | fill (t : Elapsed) (ring idx : Nat)
  /-- CRC (R106). A copy engine job computes CRC-32 over a source and optionally copies it. -/
  | crc (t : Elapsed) (ring idx : Nat)
  /-- COPY_JOB_END (R107). A copy job reaches its paced completion stamp and completes. -/
  | copyJobEnd (t : Elapsed) (ring idx : Nat)
  /-- SERVED_NOTICE (R108). A served descriptor's notice is sent to the server agent once the channel has room. -/
  | servedNotice (t : Elapsed) (ring idx : Nat)
  /-- SERVER_RETURN (R109). The server writes RNG_RETn and the served descriptor completes with its status and result. -/
  | serverReturn (t : Elapsed) (who : Who) (ring status idx : Nat)
  /-- MBX_SEND (R113). A write of MBX_SCTLa sends a notice, appended or refused at its decision step. -/
  | mbxSend (t : Elapsed) (who : Who) (win value : Nat)
  /-- MBX_LATCH_READ (R114). Reading MBX_RLOr latches the head notice and returns its pointer. -/
  | mbxLatchRead (t : Elapsed) (who : Who) (win : Nat)
  /-- MBX_REMOVE_READ (R114). Reading MBX_RHIr returns the latched notice's upper half and removes it. -/
  | mbxRemoveRead (t : Elapsed) (who : Who) (win : Nat)
  /-- COHORT_SEND_ANSWER (R115). The target member's answer to a cohort notice arrives and clears BUSY. -/
  | cohortSendAnswer (t : Elapsed) (win : Nat) (refused : Bool)
  /-- COHORT_SEND_TIMEOUT (R115). A cohort send has no answer within 8 µs and sets NOROUTE. -/
  | cohortSendTimeout (t : Elapsed) (win : Nat)
  /-- WINDOW_ACCESS_TIMEOUT (R24). A cohort window access to an absent or unlinked member completes with a bus error after 8 µs. -/
  | windowAccessTimeout (t : Elapsed) (c : CoreId)
  /-- MAINS_ZERO_CROSSING (R57). A positive zero crossing updates mains measurements, voltage-quality events and the lock stages. -/
  | mainsZeroCrossing (t : Elapsed) (rms thd mhz : Nat) (phase : Int)
  /-- CROSSING_TIMEOUT (R68). No crossing arrives within 1.5 periods and tempo leaves LOCKED for FLYWHEEL. -/
  | crossingTimeout (t : Elapsed) (rms : Nat)
  /-- LOCK_TIMEOUT (R67). Fine lock is not reached within 10 s and the lock stages restart. -/
  | lockTimeout (t : Elapsed)
  /-- TEMPO_CYCLE_START (R70). At step 0 of each cycle slews advance, flywheel uncertainty grows and per-cycle work runs. -/
  | tempoCycleStart (t : Elapsed)
  /-- FLYWHEEL_LIMIT (R71). Uncertainty reaches the flywheel limit and tempo enters INVALID. -/
  | flywheelLimit (t : Elapsed)
  /-- UNCERTAINTY_GUARD (R71). Uncertainty first passes TMP_GUARD and a record is posted. -/
  | uncertaintyGuard (t : Elapsed)
  /-- TEMPO_CORRECTION_APPLY (R78). A decided change D of aligned tempo is applied as a slew or a jump. -/
  | tempoCorrectionApply (t : Elapsed)
  /-- ROOT_CYCLE_SET (R76). A write of TMP_SETCYC_HI on a root sets the district cycle count and clears PROVISIONAL. -/
  | rootCycleSet (t : Elapsed) (who : Who) (value : Nat)
  /-- TEMPO_READ_LATCH (R62). Reading TMP_LOCAL_LO or TMP_ALIGN_LO latches the high word of the stamp. -/
  | tempoReadLatch (t : Elapsed) (aligned : Bool)
  /-- TEMPO_ALARM_ARM (R82). Writing TMP_ALMn_CTL with EN set arms the alarm with its compare and period. -/
  | tempoAlarmArm (t : Elapsed) (who : Who) (n value : Nat)
  /-- TEMPO_ALARM_DISARM (R82). Writing TMP_ALMn_CTL with EN clear disarms the alarm. -/
  | tempoAlarmDisarm (t : Elapsed) (who : Who) (n value : Nat)
  /-- TEMPO_ALARM_FIRE (R82). Aligned tempo reaches an alarm's stamp and it fires, advancing if periodic. -/
  | tempoAlarmFire (t : Elapsed) (n : Nat)
  /-- NOTE_BUF (R84). A notice-buffer descriptor on ring 8, 9 or 10 waits to be filled with a record. -/
  | noteBuf (t : Elapsed) (ring idx : Nat)
  /-- AGC_ATTACK (R123). A block peak above the attack threshold or a clip lowers the gain code. -/
  | agcAttack (t : Elapsed) (peak4 : Int) (clip : Bool)
  /-- AGC_RELEASE (R123). Peaks stay below the release threshold for RELMS and the gain rises 3 dB. -/
  | agcRelease (t : Elapsed)
  /-- CAP_CALIBRATION_REQUEST (R129). A write of CAP_CALREQ adds receive calibration items to the pending set. -/
  | capCalibrationRequest (t : Elapsed) (who : Who) (value : Nat)
  /-- CAP_CALIBRATION_FORCE (R131). CAP_CALREQ with FORCE makes every pending receive slice forced. -/
  | capCalibrationForce (t : Elapsed) (who : Who) (value : Nat)
  /-- CAP_CAL_SLICE_START (R130). A receive calibration slice starts in a quiet slot, after WAIT, or when forced, blanking the capture. -/
  | capCalSliceStart (t : Elapsed)
  /-- CAP_CAL_SLICE_END (R132). A receive calibration slice ends and sets its results or its failure. -/
  | capCalSliceEnd (t : Elapsed) (ok : Bool)
  /-- CAP_CALINV (R134). A write of CAP_CALINV clears RXVALID in one record or all. -/
  | capCalinv (t : Elapsed) (who : Who) (value : Nat)
  /-- DIE_TEMPERATURE_UPDATE (R134). The die temperature updates and may invalidate receive records for temperature. -/
  | dieTemperatureUpdate (t : Elapsed) (temp : Int)
  /-- RECORD (R137). A spectrum recorder descriptor records compensated samples into a buffer. -/
  | record (t : Elapsed) (idx : Nat)
  /-- RECORD_STOP (R139). Ends the recording in progress at the next 64-byte boundary. -/
  | recordStop (t : Elapsed) (idx : Nat)
  /-- RECORD_END (R137). A recording fills its buffer and writes its header and completion. -/
  | recordEnd (t : Elapsed) (phase : Nat) (samples : List Sample)
  /-- RECORD_OVERFLOW (R140). The recorder's in-flight buffer fills and the recording completes OVERFLOW. -/
  | recordOverflow (t : Elapsed) (phase : Nat) (samples : List Sample)
  /-- CHAN_WRITE (R161). Copies channel-table entries into the inactive bank, all or nothing. -/
  | chanWrite (t : Elapsed) (idx : Nat)
  /-- CHAN_READ (R162). Copies channel-table entries of a named bank to memory. -/
  | chanRead (t : Elapsed) (idx : Nat)
  /-- WATCH_WRITE (R169). Copies watch entries into the inactive bank, all or nothing. -/
  | watchWrite (t : Elapsed) (idx : Nat)
  /-- WATCH_READ (R169). Copies watch entries of a named bank to memory. -/
  | watchRead (t : Elapsed) (idx : Nat)
  /-- PREAMBLE_DETECTION (R171). The hunter completes a second consecutive turn on an entry or expectation and declares a detection. -/
  | preambleDetection (t : Elapsed) (exp : Bool) (entry sofChip : Nat) (bin : Int)
  /-- LANE_ASSIGN (R176). At the decision step releases apply and detections take free lanes, pre-empt or are dropped. -/
  | laneAssign (t : Elapsed)
  /-- LANE_DELIMITER_FOUND (R178). A lane finds the sync delimiter and enters SYNC. -/
  | laneDelimiterFound (t : Elapsed) (lane turns : Nat)
  /-- LANE_NO_DELIMITER (R178). A lane sees no delimiter in 16 turns or two weak turns and is released as NOSYNC. -/
  | laneNoDelimiter (t : Elapsed) (lane : Nat)
  /-- LANE_SYNC_DECIDED (R179). A lane decides the district mark, stamps the end of sync and accepts or rejects the frame. -/
  | laneSyncDecided (t : Elapsed) (lane v1 v2 : Nat) (blanked : Bool) (rssi foff desense : Nat)
  /-- LANE_HEADER_DECODED (R180). A lane decodes the PHY header and enters PAYLOAD or abandons the frame. -/
  | laneHeaderDecoded (t : Elapsed) (lane word : Nat)
  /-- LANE_PAYLOAD_END (R181). The last payload symbol is demodulated, the lane enters FLUSH and decode jobs become ready. -/
  | lanePayloadEnd (t : Elapsed) (lane : Nat) (soft : List Int) (erased snr : Nat)
  /-- LANE_FLUSH_DONE (R175). A lane hands over its values and report and returns to FREE. -/
  | laneFlushDone (t : Elapsed) (lane : Nat)
  /-- LANE_SELF_TEST (R185). A free physical lane runs its periodic self-test and is retired on failure. -/
  | laneSelfTest (t : Elapsed) (phys : Nat) (ok : Bool)
  /-- NO_ACK_OUTCOME (R244). The expectation window ends without a match and the send retries or completes NO_ACK. -/
  | noAckOutcome (t : Elapsed)
  /-- COMBINE_WAIT_END (R205). A cohort lead's COMBWAIT ends and the summed copies' decode becomes ready. -/
  | combineWaitEnd (t : Elapsed)
  /-- DECODE_JOB_START (R196). A block job starts on its engine at its model start with its iteration budget, or is shed. -/
  | decodeJobStart (t : Elapsed)
  /-- DECODE_JOB_END (R195). At a job's model end the block result is taken and a frame's decode succeeds or fails. -/
  | decodeJobEnd (t : Elapsed) (late : Bool)
  /-- BUFFER_EXPIRY (R204). A kept or decoded soft buffer's lifetime passes and it becomes FREE. -/
  | bufferExpiry (t : Elapsed) (buffer : Nat)
  /-- SOFT_BUFFERS_ENABLE (R199). Setting DEC_SBBASE.EN puts the soft-buffer area in use if it lies in DRAM. -/
  | softBuffersEnable (t : Elapsed) (who : Who) (value : Nat)
  /-- SOFT_BUFFERS_DISABLE (R199). Clearing DEC_SBBASE.EN frees every soft buffer. -/
  | softBuffersDisable (t : Elapsed) (who : Who) (value : Nat)
  /-- SYN_CALIBRATION_REQUEST (R212). A write of SYN_CALREQ adds transmit calibration items to the pending set. -/
  | synCalibrationRequest (t : Elapsed) (who : Who) (value : Nat)
  /-- SYN_CALIBRATION_FORCE (R213). SYN_CALREQ with FORCE makes every pending transmit slice forced. -/
  | synCalibrationForce (t : Elapsed) (who : Who) (value : Nat)
  /-- FORCED_SLICE_DECISION (R225). A forced slice is decided and uncommitted transmissions are placed again or complete LATE. -/
  | forcedSliceDecision (t : Elapsed) (capture : Bool)
  /-- SYN_CAL_SLICE_START (R212). A transmit calibration slice starts in a quiet slot, after WAIT, or when forced. -/
  | synCalSliceStart (t : Elapsed)
  /-- SYN_CAL_SLICE_END (R214). A transmit calibration slice ends and writes its record or its failure. -/
  | synCalSliceEnd (t : Elapsed) (ok : Bool) (meas : Nat)
  /-- SYN_CALINV (R214). A write of SYN_CALINV clears VALID in one record or all. -/
  | synCalinv (t : Elapsed) (who : Who) (value : Nat)
  /-- SYNTH_PARK (R208). The park delay after a use's last edge expires and the synthesiser parks. -/
  | synthPark (t : Elapsed)
  /-- TX_HOP_START (R223). A placed transmission's hop begins and the airtime ledger decides it. -/
  | txHopStart (t : Elapsed)
  /-- TX_FIRST_EDGE (R227). At the earliest edge lock is checked and the pins start, or the transmission completes NO_LOCK. -/
  | txFirstEdge (t : Elapsed) (lock : Bool) (meas : Nat)
  /-- TX_FIRST_CHIP (R221). The first chip of a frame leaves the antenna at its stamp. -/
  | txFirstChip (t : Elapsed)
  /-- TX_LAST_CHIP (R244). The last payload chip is sent and a frame without AR completes DONE. -/
  | txLastChip (t : Elapsed)
  /-- TX_LAST_EDGE (R230). The last pin edge of a transmission passes and the capture is released. -/
  | txLastEdge (t : Elapsed)
  /-- TX_LOCK_LOSS (R228). Lock is lost before or on air, the PA ramps down and the transmission completes NO_LOCK. -/
  | txLockLoss (t : Elapsed)
  /-- ACK_TRANSMIT (R221). An acknowledgement's first chip is sent 2.000 ms after the answered frame's last chip. -/
  | ackTransmit (t : Elapsed)
  /-- THERMAL_SHUTDOWN (R469). The junction passes 125 °C and TXA is switched off once no frame is on air. -/
  | thermalShutdown (t : Elapsed)
  /-- THERMAL_RECOVERY (R469). The die cools to 115 °C and transmission is allowed again. -/
  | thermalRecovery (t : Elapsed)
  /-- SEND (R241). A transmit descriptor seals a frame with the context counter and places its first transmission. -/
  | send (t : Elapsed) (ring idx : Nat)
  /-- RX_BUF (R255). A receive buffer descriptor on ring 3 or 4 waits for a delivery. -/
  | rxBuf (t : Elapsed) (ring idx : Nat)
  /-- CTX_READ (R240). Copies contexts as they stand at the decision step to memory. -/
  | ctxRead (t : Elapsed) (idx : Nat)
  /-- TTB_WRITE (R260). Copies timetable header, slot or airtime-rule records into the inactive bank. -/
  | ttbWrite (t : Elapsed) (idx : Nat)
  /-- TTB_READ (R260). Copies timetable or airtime-rule records of a named bank to memory. -/
  | ttbRead (t : Elapsed) (idx : Nat)
  /-- SLOT_OCCURRENCE_START (R259). A slot occurrence begins, opening its channels and applying its kind. -/
  | slotOccurrenceStart (t : Elapsed) (slot : Nat)
  /-- SLOT_OCCURRENCE_END (R259). A slot occurrence ends, and a quiet slot's floor is written. -/
  | slotOccurrenceEnd (t : Elapsed) (slot floor : Nat)
  /-- BELL_SEAL (R265). A relayed bell is sealed at S minus the hop lead and placed, or skipped. -/
  | bellSeal (t : Elapsed) (slot : Nat)
  /-- TRACK_SELECT (R267). A write of TTB_TRACK.SEL selects the tracked bell source. -/
  | trackSelect (t : Elapsed) (who : Who) (value : Nat)
  /-- PARTNER_ABSENT (R271). A partner's DUE passes at step 0 and it is declared absent. -/
  | partnerAbsent (t : Elapsed) (ctx : Nat)
  /-- WINDOW_EVALUATION (R268). A sleeper evaluates a WAKE occurrence's window width, or enters re-entry. -/
  | windowEvaluation (t : Elapsed) (slot : Nat)
  /-- WAKE_EVENT (R268). The wake event fires WAKELEAD steps before a listening window opens. -/
  | wakeEvent (t : Elapsed) (slot : Nat)
  /-- WINDOW_CLOSE (R268). A listening window ends and the window-close event fires. -/
  | windowClose (t : Elapsed) (slot : Nat)
  /-- BUCKET_ROLL (R276). A rule's bucket clock advances and the oldest bucket leaves the window. -/
  | bucketRoll (t : Elapsed) (rule : Nat)
  /-- DWELL_WINDOW_CLEAR (R276). A dwell window ends and dwell usage is cleared. -/
  | dwellWindowClear (t : Elapsed) (rule : Nat)
  /-- LG_ARM (R278). Arms the last gasp, reserving and sealing with counter TXCTR plus AHEAD. -/
  | lgArm (t : Elapsed) (idx : Nat)
  /-- LG_DISARM (R278). LG_ARM with DISARM clears the armed frame and its reserve. -/
  | lgDisarm (t : Elapsed) (idx : Nat)
  /-- MAIN_LOSS_TRIGGER (R280). The main-loss detector triggers and the armed last gasp takes the transmitter. -/
  | mainLossTrigger (t : Elapsed) (vmain : Nat)
  /-- LAST_GASP_SENT (R283). The last gasp has been sent, TXCTR advances and the frame disarms. -/
  | lastGaspSent (t : Elapsed)
  /-- KEY_LOAD (R287). CIP_KEYCMD LOAD writes the key data into the selected slot, or is refused. -/
  | keyLoad (t : Elapsed) (who : Who)
  /-- KEY_ERASE (R288). CIP_KEYCMD ERASE empties the selected slot unless it is in use. -/
  | keyErase (t : Elapsed) (who : Who)
  /-- KEY_DATA_CLEAR (R287). CIP_KEYCMD 0 or 3 only clears the key data registers. -/
  | keyDataClear (t : Elapsed) (who : Who)
  /-- CIPHER (R292). A ring 5 job runs an AES mode on data within a job context. -/
  | cipher (t : Elapsed) (idx : Nat)
  /-- CTX_SAVE (R300). Saves a job context in the clear to a protected bank or wrapped anywhere. -/
  | ctxSave (t : Elapsed) (idx : Nat)
  /-- CTX_LOAD (R300). Loads a saved job context after its check. -/
  | ctxLoad (t : Elapsed) (idx : Nat)
  /-- KEY_WRAP (R302). Writes the KW of an exportable key slot under the device-unique key. -/
  | keyWrap (t : Elapsed) (idx : Nat)
  /-- KEY_UNWRAP (R302). Loads a wrapped key into an empty slot after its integrity check. -/
  | keyUnwrap (t : Elapsed) (idx : Nat)
  /-- CIPHER_OPERATION_END (R296). A cipher operation reaches its model end and completes. -/
  | cipherOperationEnd (t : Elapsed) (idx : Nat)
  /-- EVENT_ROUTE (R304). An event reaches the router and activates the tasks of every enabled, gated channel. -/
  | eventRoute (t : Elapsed) (n : Nat)
  /-- GROUP_ENABLE (R306). A write of EVR_GRPSET enables event groups. -/
  | groupEnable (t : Elapsed) (who : Who) (groups : Nat)
  /-- GROUP_DISABLE (R306). A write of EVR_GRPCLR disables event groups. -/
  | groupDisable (t : Elapsed) (who : Who) (groups : Nat)
  /-- SOFTWARE_TRIGGER (R308). A write of EVR_SWTRIG raises software sources. -/
  | softwareTrigger (t : Elapsed) (who : Who) (sources : Nat)
  /-- EVENT_IRQ_CLEAR (R315). Writing 1 to EVR_IRQPEND clears a pending event interrupt line. -/
  | eventIrqClear (t : Elapsed) (who : Who) (lines : Nat)
  /-- GPIO_EDGE (R336). An edge on a GPIO pad is stamped and emitted as an event. -/
  | gpioEdge (t : Elapsed) (pin : Nat) (rising : Bool)
  /-- TIMER_PERIOD_EVENT (R316). A timer's count reaches PERIOD, wraps to 0 and emits its period event. -/
  | timerPeriodEvent (t : Elapsed) (n : Nat)
  /-- TIMER_COMPARE_EVENT (R316). A timer's count becomes CMP and it emits its compare event. -/
  | timerCompareEvent (t : Elapsed) (n : Nat)
  /-- TIMER_CAPTURE_EDGE (R319). An edge of the capture level copies the count into CAPR or CAPF. -/
  | timerCaptureEdge (t : Elapsed) (n : Nat) (rising : Bool)
  /-- TIMER_START (R313). TMR_CMD START starts the timer. -/
  | timerStart (t : Elapsed) (who : Who) (n : Nat)
  /-- TIMER_STOP (R313). TMR_CMD STOP stops the timer. -/
  | timerStop (t : Elapsed) (who : Who) (n : Nat)
  /-- TIMER_CLEAR (R313). TMR_CMD CLEAR sets the count to 0. -/
  | timerClear (t : Elapsed) (who : Who) (n : Nat)
  /-- TIMER_CAPTURE_RISE (R319). TMR_CMD CAPR captures the count into CAPR. -/
  | timerCaptureRise (t : Elapsed) (who : Who) (n : Nat)
  /-- TIMER_CAPTURE_FALL (R319). TMR_CMD CAPF captures the count into CAPF. -/
  | timerCaptureFall (t : Elapsed) (who : Who) (n : Nat)
  /-- TIMER_PERIOD_WRITE (R318). A write of TMR_PERIOD takes effect buffered or immediately. -/
  | timerPeriodWrite (t : Elapsed) (who : Who) (n value : Nat)
  /-- TIMER_CAPTURE_READ (R319). Reading CAPR or CAPF returns the value and clears its fresh flag. -/
  | timerCaptureRead (t : Elapsed) (n : Nat) (fall : Bool)
  /-- DALI_ENQUEUE (R325). A write of DAL_TXC queues a forward frame, or is refused when the queue is full. -/
  | daliEnqueue (t : Elapsed) (who : Who) (value : Nat)
  /-- DALI_FRAME_START (R325). After its settling time the head frame's start bit is sent. -/
  | daliFrameStart (t : Elapsed)
  /-- DALI_COLLISION (R326). The bus differs from the driven level, the engine backs off and retries. -/
  | daliCollision (t : Elapsed)
  /-- DALI_FRAME_END (R327). A forward frame ends and its result is written or an answer window opens. -/
  | daliFrameEnd (t : Elapsed)
  /-- DALI_ANSWER_END (R327). The answer window ends with a backward frame, none or a corrupt one. -/
  | daliAnswerEnd (t : Elapsed) (answer : DaliAnswer)
  /-- DALI_FRAME_RECEIVED (R328). A foreign forward frame is queued in the receive queue. -/
  | daliFrameReceived (t : Elapsed) (len data : Nat)
  /-- DALI_BUS_FAULT (R329). The bus stays low undriven for 500 ms and a fault is set. -/
  | daliBusFault (t : Elapsed)
  /-- DALI_FAULT_CLEAR (R329). The bus stays high for 10 ms and FAULT clears. -/
  | daliFaultClear (t : Elapsed)
  /-- DALI_RESULT_READ (R327). Reading DAL_RES returns and removes the oldest result. -/
  | daliResultRead (t : Elapsed)
  /-- DALI_RECEIVE_READ (R328). Reading DAL_RXF returns and removes the oldest received frame. -/
  | daliReceiveRead (t : Elapsed)
  /-- DALI_SUPPLY_SWITCH (R330). VMAIN crosses 17 V or 18 V and the bus supply switches off or on. -/
  | daliSupplySwitch (t : Elapsed) (millivolts : Nat)
  /-- DIM_LEVEL_WRITE (R332). A write of DIM_LEVEL sets a target and ramp and starts the ramp unless TRIG is set. -/
  | dimLevelWrite (t : Elapsed) (who : Who) (value : Nat)
  /-- DIM_RAMP_END (R332). A ramp reaches its target and emits the ramp-end event. -/
  | dimRampEnd (t : Elapsed)
  /-- GPIO_SET (R336). A write of GPI_SET sets output bits. -/
  | gpioSet (t : Elapsed) (who : Who) (pins : Nat)
  /-- GPIO_CLEAR (R336). A write of GPI_CLR clears output bits. -/
  | gpioClear (t : Elapsed) (who : Who) (pins : Nat)
  /-- GPIO_TOGGLE (R336). A write of GPI_TGL inverts output bits. -/
  | gpioToggle (t : Elapsed) (who : Who) (pins : Nat)
  /-- UART_DATA_WRITE (R337). A write of UART_DATA queues a byte for transmission. -/
  | uartDataWrite (t : Elapsed) (who : Who) (port : Nat) (data : Byte)
  /-- UART_DATA_READ (R337). A read of UART_DATA removes a received byte. -/
  | uartDataRead (t : Elapsed) (port : Nat)
  /-- UART_BYTE_RECEIVED (R337). A byte arrives on a UART and enters its receive FIFO. -/
  | uartByteReceived (t : Elapsed) (port : Nat) (data : Byte) (perr ferr : Bool)
  /-- SPI_GO (R337). A write of SPI_GO starts a master transfer. -/
  | spiGo (t : Elapsed) (who : Who) (port len : Nat)
  /-- SPI_TRANSFER_END (R337). An SPI transfer ends and its event fires. -/
  | spiTransferEnd (t : Elapsed) (port : Nat) (rx : List Byte)
  /-- IIC_GO (R337). A write of IIC_GO starts an I2C transfer. -/
  | iicGo (t : Elapsed) (who : Who) (port value : Nat)
  /-- IIC_TRANSFER_END (R337). An I2C transfer ends and its event fires. -/
  | iicTransferEnd (t : Elapsed) (port moved : Nat) (rx : List Byte) (nack lost : Bool)
  /-- INVENTORY (R341). The tag answers an ISO/IEC 15693 inventory. -/
  | inventory (t : Elapsed) (afi : Option Byte) (maskLen mask : Nat) (sixteen : Bool)
  /-- STAY_QUIET (R341). The tag enters the quiet state. -/
  | stayQuiet (t : Elapsed) (uid : BitVec 64)
  /-- READ_SINGLE_BLOCK (R341). The tag returns one block, standard or extended. -/
  | readSingleBlock (t : Elapsed) (req : TagReq) (extended : Bool) (block : Nat)
  /-- WRITE_SINGLE_BLOCK (R348). The tag writes one block through the journal. -/
  | writeSingleBlock (t : Elapsed) (req : TagReq) (extended : Bool) (block : Nat) (data : List Byte) (strong : Bool)
  /-- LOCK_BLOCK (R341). The tag permanently locks an open-area block. -/
  | lockBlock (t : Elapsed) (req : TagReq) (extended : Bool) (block : Nat) (strong : Bool)
  /-- READ_MULTIPLE_BLOCKS (R341). The tag returns up to 64 blocks. -/
  | readMultipleBlocks (t : Elapsed) (req : TagReq) (extended : Bool) (first count : Nat)
  /-- WRITE_MULTIPLE_BLOCKS (R348). The tag writes up to 8 blocks through the journal. -/
  | writeMultipleBlocks (t : Elapsed) (req : TagReq) (extended : Bool) (first : Nat) (data : List Byte) (strong : Bool)
  /-- SELECT (R341). The tag enters the selected state. -/
  | select (t : Elapsed) (uid : BitVec 64)
  /-- RESET_TO_READY (R341). The tag returns to the ready state. -/
  | resetToReady (t : Elapsed) (req : TagReq)
  /-- WRITE_AFI (R341). The tag writes its AFI in the secured state. -/
  | writeAfi (t : Elapsed) (req : TagReq) (afi : Byte) (strong : Bool)
  /-- LOCK_AFI (R341). The tag locks its AFI in the secured state. -/
  | lockAfi (t : Elapsed) (req : TagReq) (strong : Bool)
  /-- WRITE_DSFID (R341). The tag writes its DSFID in the secured state. -/
  | writeDsfid (t : Elapsed) (req : TagReq) (dsfid : Byte) (strong : Bool)
  /-- LOCK_DSFID (R341). The tag locks its DSFID in the secured state. -/
  | lockDsfid (t : Elapsed) (req : TagReq) (strong : Bool)
  /-- GET_SYSTEM_INFORMATION (R341). The tag reports its system information. -/
  | getSystemInformation (t : Elapsed) (req : TagReq) (extended : Bool)
  /-- GET_BLOCK_SECURITY_STATUS (R341). The tag reports the security status of several blocks. -/
  | getBlockSecurityStatus (t : Elapsed) (req : TagReq) (extended : Bool) (first count : Nat)
  /-- PASSWORD (R345). The tag enters the secured state on a matching password, or counts a failure. -/
  | password (t : Elapsed) (req : TagReq) (pw : List Byte) (strong : Bool)
  /-- AUTH_BEGIN (R345). The tag draws RB and replies with RB and TA for mutual authentication. -/
  | authBegin (t : Elapsed) (req : TagReq) (keyId : Nat) (ra : List Byte)
  /-- AUTH_END (R345). The tag checks TR and enters the secured state on a match. -/
  | authEnd (t : Elapsed) (req : TagReq) (tr : List Byte)
  /-- INV_ADAPT (R356). The tag replies with its UID in the slot derived from UID and nonce. -/
  | invAdapt (t : Elapsed) (q : Nat) (nonce : List Byte) (afi : Option Byte) (maskLen mask : Nat)
  /-- EXCH_READ (R354). The reader reads and clears the host-to-field message. -/
  | exchRead (t : Elapsed) (req : TagReq) (strong : Bool)
  /-- EXCH_WRITE (R354). The reader writes a field-to-host message and flags it. -/
  | exchWrite (t : Elapsed) (req : TagReq) (data : List Byte) (strong : Bool)
  /-- CTR_INC (R344). The reader increments counter 0 to 3 in the secured state. -/
  | ctrInc (t : Elapsed) (req : TagReq) (n : Nat) (strong : Bool)
  /-- HOMEROOM_REQ (R347). The reader sets the homeroom request bit by a journalled write. -/
  | homeroomReq (t : Elapsed) (req : TagReq) (strong : Bool)
  /-- TIMING (R355). The reader enters or leaves exact-timing mode. -/
  | timing (t : Elapsed) (req : TagReq) (enter : Bool)
  /-- LEAVE_SECURED (R345). The tag leaves the secured state. -/
  | leaveSecured (t : Elapsed) (req : TagReq)
  /-- TAG_WRITE_STEP_END (R348). A journalled write's programming step ends and the next step starts. -/
  | tagWriteStepEnd (t : Elapsed)
  /-- TAG_POWER_UP (R350). The tag domain powers up and repairs memory from the newest committed journal slot. -/
  | tagPowerUp (t : Elapsed) (byField : Bool)
  /-- TAG_FIELD_LOSS (R345). The reader field is lost and the secured state ends. -/
  | tagFieldLoss (t : Elapsed)
  /-- TAG_LOCKOUT_END (R346). The field has been absent 100 ms and authentication attempts are allowed again. -/
  | tagLockoutEnd (t : Elapsed)
  /-- TAG_EXACT_REPLY (R355). In exact-timing mode the reply begins 4,320 carrier cycles after the end of frame. -/
  | tagExactReply (t : Elapsed)
  /-- TAG_READ (R352). Ring 7 reads tag blocks to memory. -/
  | tagRead (t : Elapsed) (idx : Nat)
  /-- TAG_WRITE (R352). Ring 7 writes tag blocks through the journal. -/
  | tagWrite (t : Elapsed) (idx : Nat)
  /-- TAG_CTR (R344). Ring 7 reads or increments a tag counter. -/
  | tagCtr (t : Elapsed) (idx : Nat)
  /-- TAG_SECRET (R352). Ring 7 writes or erases the tag password or a tag key. -/
  | tagSecret (t : Elapsed) (idx : Nat)
  /-- TAG_EXCH_RX (R354). Ring 7 waits for and takes the field-to-host message. -/
  | tagExchRx (t : Elapsed) (idx : Nat)
  /-- TAG_EXCH_TX (R354). Ring 7 writes the host-to-field message. -/
  | tagExchTx (t : Elapsed) (idx : Nat)
  /-- FIELD_BUSY_TIMEOUT (R353). A host tag access has waited 20 ms on the field and completes FIELD_BUSY. -/
  | fieldBusyTimeout (t : Elapsed) (idx : Nat)
  /-- DOMAIN_STATE_REQUEST (R359). A write of PWR_DOMn.TARGET requests a domain state, accepted or refused whole. -/
  | domainStateRequest (t : Elapsed) (who : Who) (n target : Nat)
  /-- DOMAIN_TRANSITION_END (R361). A domain completes its transition and dependent transitions proceed. -/
  | domainTransitionEnd (t : Elapsed) (n : Nat)
  /-- BKP_WAKE (R363). An enabled wake source wakes SYS from retention or runs start-up from SYS off. -/
  | bkpWake (t : Elapsed)
  /-- CALENDAR_LATCH (R371). Reading BKP_CALSUB latches the date and time. -/
  | calendarLatch (t : Elapsed)
  /-- CALENDAR_SET (R371). BKP_CALCMD SET loads the set values at the next BK edge. -/
  | calendarSet (t : Elapsed) (who : Who)
  /-- CALENDAR_ADJUST (R371). BKP_CALCMD ADJ moves the calendar by a signed number of subseconds. -/
  | calendarAdjust (t : Elapsed) (who : Who) (adj : Nat)
  /-- BKP_WRITE_LANDED (R371). A write to BKP lands within two BK periods and WBUSY clears. -/
  | bkpWriteLanded (t : Elapsed)
  /-- TRIM_MEASUREMENT_END (R372). A 2^20-cycle window ends and the crystal error is written. -/
  | trimMeasurementEnd (t : Elapsed)
  /-- CALENDAR_ALARM_ARM (R373). Writing BKP_ALMn control with an action arms the alarm and clears LAST. -/
  | calendarAlarmArm (t : Elapsed) (who : Who) (n value : Nat)
  /-- CALENDAR_ALARM_DISARM (R373). Writing BKP_ALMn control with no action disarms the alarm. -/
  | calendarAlarmDisarm (t : Elapsed) (who : Who) (n value : Nat)
  /-- CALENDAR_ALARM_FIRE (R373). A calendar second matches an armed alarm and it performs its actions. -/
  | calendarAlarmFire (t : Elapsed) (n : Nat)
  /-- ADD (R382). rd = ra + rb. -/
  | add (c : CoreId) (g : Guard) (rd ra rb : RegNum)
  /-- SUB (R382). rd = ra - rb. -/
  | sub (c : CoreId) (g : Guard) (rd ra rb : RegNum)
  /-- AND (R382). Bitwise AND of ra and rb. -/
  | and (c : CoreId) (g : Guard) (rd ra rb : RegNum)
  /-- OR (R382). Bitwise OR of ra and rb. -/
  | or (c : CoreId) (g : Guard) (rd ra rb : RegNum)
  /-- XOR (R382). Bitwise XOR of ra and rb. -/
  | xor (c : CoreId) (g : Guard) (rd ra rb : RegNum)
  /-- ANDN (R382). ra AND NOT rb. -/
  | andn (c : CoreId) (g : Guard) (rd ra rb : RegNum)
  /-- SHL (R382). Shift ra left by rb[4:0]. -/
  | shl (c : CoreId) (g : Guard) (rd ra rb : RegNum)
  /-- SHR (R382). Logical shift ra right by rb[4:0]. -/
  | shr (c : CoreId) (g : Guard) (rd ra rb : RegNum)
  /-- SAR (R382). Arithmetic shift ra right by rb[4:0]. -/
  | sar (c : CoreId) (g : Guard) (rd ra rb : RegNum)
  /-- ROR (R382). Rotate ra right by rb[4:0]. -/
  | ror (c : CoreId) (g : Guard) (rd ra rb : RegNum)
  /-- MUL (R382). Low 32 bits of ra times rb. -/
  | mul (c : CoreId) (g : Guard) (rd ra rb : RegNum)
  /-- MULH (R382). High 32 bits of the signed product. -/
  | mulh (c : CoreId) (g : Guard) (rd ra rb : RegNum)
  /-- MULHU (R382). High 32 bits of the unsigned product. -/
  | mulhu (c : CoreId) (g : Guard) (rd ra rb : RegNum)
  /-- DIV (R382). Signed quotient with defined results for zero and overflow. -/
  | div (c : CoreId) (g : Guard) (rd ra rb : RegNum)
  /-- DIVU (R382). Unsigned quotient with a defined result for zero. -/
  | divu (c : CoreId) (g : Guard) (rd ra rb : RegNum)
  /-- REM (R382). Signed remainder with the sign of ra. -/
  | rem (c : CoreId) (g : Guard) (rd ra rb : RegNum)
  /-- REMU (R382). Unsigned remainder. -/
  | remu (c : CoreId) (g : Guard) (rd ra rb : RegNum)
  /-- MIN (R382). Signed minimum. -/
  | min (c : CoreId) (g : Guard) (rd ra rb : RegNum)
  /-- MAX (R382). Signed maximum. -/
  | max (c : CoreId) (g : Guard) (rd ra rb : RegNum)
  /-- MINU (R382). Unsigned minimum. -/
  | minu (c : CoreId) (g : Guard) (rd ra rb : RegNum)
  /-- MAXU (R382). Unsigned maximum. -/
  | maxu (c : CoreId) (g : Guard) (rd ra rb : RegNum)
  /-- CLZ (R382). Count leading zeros of ra. -/
  | clz (c : CoreId) (g : Guard) (rd ra : RegNum)
  /-- POPC (R382). Count set bits of ra. -/
  | popc (c : CoreId) (g : Guard) (rd ra : RegNum)
  /-- SEXTB (R382). Sign-extend ra[7:0]. -/
  | sextb (c : CoreId) (g : Guard) (rd ra : RegNum)
  /-- SEXTH (R382). Sign-extend ra[15:0]. -/
  | sexth (c : CoreId) (g : Guard) (rd ra : RegNum)
  /-- ZEXTH (R382). Zero-extend ra[15:0]. -/
  | zexth (c : CoreId) (g : Guard) (rd ra : RegNum)
  /-- ABS (R382). Absolute value of ra, wrapping at -2^31. -/
  | abs (c : CoreId) (g : Guard) (rd ra : RegNum)
  /-- BREV (R382). Reverse the bits of ra. -/
  | brev (c : CoreId) (g : Guard) (rd ra : RegNum)
  /-- ADDS (R382). Saturating 32-bit add. -/
  | adds (c : CoreId) (g : Guard) (rd ra rb : RegNum)
  /-- SUBS (R382). Saturating 32-bit subtract. -/
  | subs (c : CoreId) (g : Guard) (rd ra rb : RegNum)
  /-- SHLS (R382). Saturating left shift. -/
  | shls (c : CoreId) (g : Guard) (rd ra rb : RegNum)
  /-- ABSS (R382). Saturating absolute value. -/
  | abss (c : CoreId) (g : Guard) (rd ra : RegNum)
  /-- ADD2 (R382). Packed 16-bit add modulo 2^16. -/
  | add2 (c : CoreId) (g : Guard) (rd ra rb : RegNum)
  /-- SUB2 (R382). Packed 16-bit subtract modulo 2^16. -/
  | sub2 (c : CoreId) (g : Guard) (rd ra rb : RegNum)
  /-- ADDS2 (R382). Packed saturating 16-bit add. -/
  | adds2 (c : CoreId) (g : Guard) (rd ra rb : RegNum)
  /-- SUBS2 (R382). Packed saturating 16-bit subtract. -/
  | subs2 (c : CoreId) (g : Guard) (rd ra rb : RegNum)
  /-- MUL2 (R382). Packed Q15 multiply with rounding. -/
  | mul2 (c : CoreId) (g : Guard) (rd ra rb : RegNum)
  /-- DOT2 (R382). Saturating accumulate of the two half products into rd. -/
  | dot2 (c : CoreId) (g : Guard) (rd ra rb : RegNum)
  /-- CMUL (R382). Packed complex Q15 multiply. -/
  | cmul (c : CoreId) (g : Guard) (rd ra rb : RegNum)
  /-- CMULJ (R382). Packed complex multiply by the conjugate of rb. -/
  | cmulj (c : CoreId) (g : Guard) (rd ra rb : RegNum)
  /-- CMAC (R382). Complex multiply-accumulate into an even register pair. -/
  | cmac (c : CoreId) (g : Guard) (rd ra rb : RegNum)
  /-- CMACJ (R382). Complex conjugate multiply-accumulate into an even register pair. -/
  | cmacj (c : CoreId) (g : Guard) (rd ra rb : RegNum)
  /-- CRND (R382). Round an accumulator pair to a packed Q15 complex value. -/
  | crnd (c : CoreId) (g : Guard) (rd ra : RegNum)
  /-- PACK (R382). Pack the low halves of rb and ra. -/
  | pack (c : CoreId) (g : Guard) (rd ra rb : RegNum)
  /-- SWAPH (R382). Swap the halves of ra. -/
  | swaph (c : CoreId) (g : Guard) (rd ra : RegNum)
  /-- MULQ (R382). Q31 multiply with rounding and saturation. -/
  | mulq (c : CoreId) (g : Guard) (rd ra rb : RegNum)
  /-- CMP (R384). Compare two registers and write pt and pf. -/
  | cmp (c : CoreId) (g : Guard) (pt pf : PredNum) (ra rb : RegNum) (cond : BitVec 4)
  /-- CMPI (R384). Compare a register with an immediate and write pt and pf. -/
  | cmpi (c : CoreId) (g : Guard) (pt pf : PredNum) (ra : RegNum) (imm6 : BitVec 6) (cond : BitVec 4)
  /-- ADDI (R382). Add a signed 11-bit immediate. -/
  | addi (c : CoreId) (g : Guard) (rd ra : RegNum) (imm : BitVec 11)
  /-- ANDI (R382). AND with a zero-extended immediate. -/
  | andi (c : CoreId) (g : Guard) (rd ra : RegNum) (imm : BitVec 11)
  /-- ORI (R382). OR with a zero-extended immediate. -/
  | ori (c : CoreId) (g : Guard) (rd ra : RegNum) (imm : BitVec 11)
  /-- XORI (R382). XOR with a zero-extended immediate. -/
  | xori (c : CoreId) (g : Guard) (rd ra : RegNum) (imm : BitVec 11)
  /-- SHIFTI_SHL (R382). SHIFTI selecting a left shift by an immediate. -/
  | shiftiShl (c : CoreId) (g : Guard) (rd ra : RegNum) (top : BitVec 4) (sh : BitVec 5)
  /-- SHIFTI_SHR (R382). SHIFTI selecting a logical right shift by an immediate. -/
  | shiftiShr (c : CoreId) (g : Guard) (rd ra : RegNum) (top : BitVec 4) (sh : BitVec 5)
  /-- SHIFTI_SAR (R382). SHIFTI selecting an arithmetic right shift by an immediate. -/
  | shiftiSar (c : CoreId) (g : Guard) (rd ra : RegNum) (top : BitVec 4) (sh : BitVec 5)
  /-- SHIFTI_ROR (R382). SHIFTI selecting a rotate right by an immediate. -/
  | shiftiRor (c : CoreId) (g : Guard) (rd ra : RegNum) (top : BitVec 4) (sh : BitVec 5)
  /-- BFX (R382). Extract a bit field, zero- or sign-extended. -/
  | bfx (c : CoreId) (g : Guard) (rd ra : RegNum) (imm : BitVec 11)
  /-- BFI (R382). Insert a bit field into rd. -/
  | bfi (c : CoreId) (g : Guard) (rd ra : RegNum) (imm : BitVec 11)
  /-- LUI (R382). Load an immediate into the upper half. -/
  | lui (c : CoreId) (g : Guard) (rd : RegNum) (imm16 : BitVec 16)
  /-- LLI (R382). Load an immediate into the lower half, keeping the upper. -/
  | lli (c : CoreId) (g : Guard) (rd : RegNum) (imm16 : BitVec 16)
  /-- PAND (R382). Predicate AND. -/
  | pand (c : CoreId) (g : Guard) (pd pa pb : PredNum)
  /-- POR (R382). Predicate OR. -/
  | por (c : CoreId) (g : Guard) (pd pa pb : PredNum)
  /-- PXOR (R382). Predicate XOR. -/
  | pxor (c : CoreId) (g : Guard) (pd pa pb : PredNum)
  /-- PANDN (R382). Predicate pa AND NOT pb. -/
  | pandn (c : CoreId) (g : Guard) (pd pa pb : PredNum)
  /-- PNOT (R382). Predicate NOT pa. -/
  | pnot (c : CoreId) (g : Guard) (pd pa : PredNum)
  /-- LDB (R386). Load a sign-extended byte. -/
  | ldb (c : CoreId) (g : Guard) (rd ra : RegNum) (imm : BitVec 11) (ecc : Ecc)
  /-- LDBU (R386). Load a zero-extended byte. -/
  | ldbu (c : CoreId) (g : Guard) (rd ra : RegNum) (imm : BitVec 11) (ecc : Ecc)
  /-- LDH (R386). Load a sign-extended halfword. -/
  | ldh (c : CoreId) (g : Guard) (rd ra : RegNum) (imm : BitVec 11) (ecc : Ecc)
  /-- LDHU (R386). Load a zero-extended halfword. -/
  | ldhu (c : CoreId) (g : Guard) (rd ra : RegNum) (imm : BitVec 11) (ecc : Ecc)
  /-- LDW (R386). Load a word. -/
  | ldw (c : CoreId) (g : Guard) (rd ra : RegNum) (imm : BitVec 11) (ecc : Ecc)
  /-- STB (R386). Store a byte. -/
  | stb (c : CoreId) (g : Guard) (rs ra : RegNum) (imm : BitVec 11) (ecc : Ecc)
  /-- STH (R386). Store a halfword. -/
  | sth (c : CoreId) (g : Guard) (rs ra : RegNum) (imm : BitVec 11) (ecc : Ecc)
  /-- STW (R386). Store a word. -/
  | stw (c : CoreId) (g : Guard) (rs ra : RegNum) (imm : BitVec 11) (ecc : Ecc)
  /-- LDX (R385). Load with an indexed, post-modify, modulo or bit-reversed address mode. -/
  | ldx (c : CoreId) (g : Guard) (rd ra : RegNum) (am : AddrMode) (sz : SizeCode) (ecc : Ecc)
  /-- STX (R385). Store with an indexed, post-modify, modulo or bit-reversed address mode. -/
  | stx (c : CoreId) (g : Guard) (rs ra : RegNum) (am : AddrMode) (sz : SizeCode) (ecc : Ecc)
  /-- SWAP (R387). Atomic swap of a word in SRAM. -/
  | swap (c : CoreId) (g : Guard) (rd ra rb : RegNum) (ecc : Ecc)
  /-- CAS (R387). Atomic compare-and-swap of a word in SRAM. -/
  | cas (c : CoreId) (g : Guard) (rd ra rb : RegNum) (ecc : Ecc)
  /-- B (R382). Branch by a signed halfword offset. -/
  | b (c : CoreId) (g : Guard) (off : BitVec 21)
  /-- BL (R382). Branch and write the return address to w31. -/
  | bl (c : CoreId) (g : Guard) (off : BitVec 21)
  /-- BR (R382). Branch to the address in ra. -/
  | br (c : CoreId) (g : Guard) (ra : RegNum)
  /-- BLR (R382). Branch to ra and write the return address to w31. -/
  | blr (c : CoreId) (g : Guard) (ra : RegNum)
  /-- MFS (R381). Read a special register. -/
  | mfs (c : CoreId) (g : Guard) (rd : RegNum) (sp : BitVec 5)
  /-- MTS (R381). Write a special register, effective for the next instruction. -/
  | mts (c : CoreId) (g : Guard) (ra : RegNum) (sp : BitVec 5)
  /-- ERET (R394). Return from an exception, restoring P and IE. -/
  | eret (c : CoreId) (g : Guard)
  /-- SYSCALL (R393). Raise the system call exception with a code. -/
  | syscall (c : CoreId) (g : Guard) (code : BitVec 10)
  /-- WFE (R390). Stop the core until an enabled event interrupt line is pending. -/
  | wfe (c : CoreId) (g : Guard)
  /-- WFE_WAKE (R390). A pending enabled line resumes a core waiting in WFE. -/
  | wfeWake (c : CoreId)
  /-- FENCE (R388). Wait until every earlier access of the core is complete. -/
  | fence (c : CoreId) (g : Guard)
  /-- FENCEI (R389). Fence, then invalidate the instruction cache and refetch. -/
  | fencei (c : CoreId) (g : Guard)
  /-- DCCLEAN (R389). Write back the data-cache line holding ra. -/
  | dcclean (c : CoreId) (g : Guard) (ra : RegNum)
  /-- DCINV (R389). Discard the data-cache line holding ra. -/
  | dcinv (c : CoreId) (g : Guard) (ra : RegNum)
  /-- DCFLUSH (R389). Write back and discard the data-cache line holding ra. -/
  | dcflush (c : CoreId) (g : Guard) (ra : RegNum)
  /-- ICINV (R389). Discard the instruction-cache line holding ra. -/
  | icinv (c : CoreId) (g : Guard) (ra : RegNum)
  /-- MOV (R382). 16-bit register move. -/
  | mov (c : CoreId) (rd ra : RegNum)
  /-- ADD_16 (R382). 16-bit rd = rd + ra. -/
  | add16 (c : CoreId) (rd ra : RegNum)
  /-- SUB_16 (R382). 16-bit rd = rd - ra. -/
  | sub16 (c : CoreId) (rd ra : RegNum)
  /-- AND_16 (R382). 16-bit rd = rd AND ra. -/
  | and16 (c : CoreId) (rd ra : RegNum)
  /-- OR_16 (R382). 16-bit rd = rd OR ra. -/
  | or16 (c : CoreId) (rd ra : RegNum)
  /-- XOR_16 (R382). 16-bit rd = rd XOR ra. -/
  | xor16 (c : CoreId) (rd ra : RegNum)
  /-- SHL_16 (R382). 16-bit shift rd left by ra. -/
  | shl16 (c : CoreId) (rd ra : RegNum)
  /-- SHR_16 (R382). 16-bit logical shift rd right by ra. -/
  | shr16 (c : CoreId) (rd ra : RegNum)
  /-- SAR_16 (R382). 16-bit arithmetic shift rd right by ra. -/
  | sar16 (c : CoreId) (rd ra : RegNum)
  /-- LI (R382). Load a signed 5-bit immediate. -/
  | li (c : CoreId) (rd : RegNum) (imm5 : BitVec 5)
  /-- ADDI_16 (R382). 16-bit add of a signed 5-bit immediate. -/
  | addi16 (c : CoreId) (rd : RegNum) (imm5 : BitVec 5)
  /-- SHLI (R382). 16-bit shift left by an immediate. -/
  | shli (c : CoreId) (rd : RegNum) (imm5 : BitVec 5)
  /-- SHRI (R382). 16-bit logical shift right by an immediate. -/
  | shri (c : CoreId) (rd : RegNum) (imm5 : BitVec 5)
  /-- SARI (R382). 16-bit arithmetic shift right by an immediate. -/
  | sari (c : CoreId) (rd : RegNum) (imm5 : BitVec 5)
  /-- LDWSP (R382). Load a word relative to w30. -/
  | ldwsp (c : CoreId) (rd : RegNum) (imm5 : BitVec 5) (ecc : Ecc)
  /-- STWSP (R382). Store a word relative to w30. -/
  | stwsp (c : CoreId) (rs : RegNum) (imm5 : BitVec 5) (ecc : Ecc)
  /-- LDW_16 (R386). 16-bit load of a word at ra. -/
  | ldw16 (c : CoreId) (rd ra : RegNum) (ecc : Ecc)
  /-- STW_16 (R386). 16-bit store of a word at ra. -/
  | stw16 (c : CoreId) (rs ra : RegNum) (ecc : Ecc)
  /-- BR_16 (R382). 16-bit branch to the address in ra. -/
  | br16 (c : CoreId) (rd ra : RegNum)
  /-- BLR_16 (R382). 16-bit branch to ra with return address this address + 2. -/
  | blr16 (c : CoreId) (rd ra : RegNum)
  /-- B16 (R382). 16-bit branch by a 10-bit offset. -/
  | b16 (c : CoreId) (off : BitVec 10)
  /-- BT1 (R383). 16-bit branch taken when p1 is 1. -/
  | bt1 (c : CoreId) (off : BitVec 10)
  /-- BF1 (R383). 16-bit branch taken when p1 is 0. -/
  | bf1 (c : CoreId) (off : BitVec 10)
  /-- INTERRUPT_ENTRY (R396). At an instruction boundary with IE set the lowest pending enabled line is taken. -/
  | interruptEntry (c : CoreId)
  /-- IMPRECISE_BUS_ERROR (R395). A late store error is raised at the next instruction boundary with IMP set. -/
  | impreciseBusError (c : CoreId)
  /-- CORE_HEARTBEAT (R397). A core writes its heartbeat register, a progress event of its lapse timer. -/
  | coreHeartbeat (t : Elapsed) (who : Who) (c : Nat) (value : Nat)
  /-- SRAM_REMAP_SWITCH (R403). The row copy ends and the bank map switches to the spare row. -/
  | sramRemapSwitch (t : Elapsed)
  /-- NVM_PROGRAM (R406). NVM_CMD 1 programs one 256-byte page from SRAM. -/
  | nvmProgram (t : Elapsed) (who : Who)
  /-- NVM_ERASE_SECTOR (R406). NVM_CMD 2 erases a 4 KB sector. -/
  | nvmEraseSector (t : Elapsed) (who : Who)
  /-- NVM_ERASE_BLOCK (R406). NVM_CMD 3 erases a 64 KB block. -/
  | nvmEraseBlock (t : Elapsed) (who : Who)
  /-- NVM_ERASE_POLL (R406). Every 1 ms NVM polls a running erase. -/
  | nvmErasePoll (t : Elapsed)
  /-- NVM_RESUME (R407). After the read is served the suspended operation resumes. -/
  | nvmResume (t : Elapsed)
  /-- NVM_OPERATION_END (R406). A NOR program or erase ends and is verified. -/
  | nvmOperationEnd (t : Elapsed) (ok : Bool)
  /-- DRAM_REFRESH (R412). tREFI expires and a refresh is issued or postponed. -/
  | dramRefresh (t : Elapsed) (postpone : Bool)
  /-- DRAM_TRAINING_REQUEST (R414). Setting DMC_TRAIN.REQ starts a training sweep. -/
  | dramTrainingRequest (t : Elapsed) (who : Who)
  /-- DRAM_TRAINING_END (R414). A training sweep ends and sets the delays or a failure. -/
  | dramTrainingEnd (t : Elapsed) (win0 win1 : Nat)
  /-- HELLO_SEND (R418). Every 100 µs a member sends HELLO on each port. -/
  | helloSend (t : Elapsed)
  /-- COH_HELLO (R421). A HELLO is received, updating presence, epoch, version and configuration checks. -/
  | cohHello (t : Elapsed) (h : CohHead) (west : Bool) (state epoch digest gen echo : Nat)
  /-- COH_ELECT (R420). An ELECT packet is collected during an election. -/
  | cohElect (t : Elapsed) (h : CohHead) (epoch : Nat)
  /-- COH_LEADER (R420). A LEADER packet makes the receiver a follower at the new epoch. -/
  | cohLeader (t : Elapsed) (h : CohHead) (epoch map : Nat) (high : List (Nat × Nat))
  /-- COH_TEMPO (R423). A TEMPO packet sets the follower's aligned tempo and status. -/
  | cohTempo (t : Elapsed) (h : CohHead) (stamp status rate u : Nat)
  /-- COH_WREQ (R24). A window access request is served by the target member. -/
  | cohWreq (t : Elapsed) (h : CohHead) (off size : Nat) (data : Option (List Byte)) (agent : Nat) (prot : Bool)
  /-- COH_WRSP (R24). A window access response completes the requesting access. -/
  | cohWrsp (t : Elapsed) (h : CohHead) (off value : Nat) (error : Bool)
  /-- COH_NOTICE (R115). A cohort mailbox notice is decided and placed in its channel. -/
  | cohNotice (t : Elapsed) (h : CohHead) (dst tag ptr agent : Nat) (prot : Bool)
  /-- COH_SOFT (R205). A follower's soft values reach the lead for combining. -/
  | cohSoft (t : Elapsed) (h : CohHead) (f : CohFrame) (soft : List Int)
  /-- COH_DECODED (R427). A decoded frame reaches its owner, which runs acceptance. -/
  | cohDecoded (t : Elapsed) (h : CohHead) (f : CohFrame) (soft : Bool) (sets : Nat) (pay : List Byte)
  /-- COH_RXSYNC (R427). An owner's acceptance updates every member's context copy. -/
  | cohRxsync (t : Elapsed) (h : CohHead) (ctx : Nat) (rx d : List Byte)
  /-- COH_BLKREQ (R426). The lead grants a counter block and broadcasts the grant. -/
  | cohBlkreq (t : Elapsed) (h : CohHead) (ctx : Nat)
  /-- COH_BLKGNT (R426). A grant sets the owner's block and releases held sealings. -/
  | cohBlkgnt (t : Elapsed) (h : CohHead) (ctx block : Nat)
  /-- COH_CFGPUSH (R429). A follower takes the lead's banks and commit. -/
  | cohCfgpush (t : Elapsed) (h : CohHead) (c : CohPush)
  /-- COH_ACKREQ (R427). The lead directs the owner to send an acknowledgement. -/
  | cohAckreq (t : Elapsed) (h : CohHead) (f : CohFrame) (pay : List Byte) (keep : Bool)
  /-- LEAD_LOSS_TIMEOUT (R420). No HELLO from the lead for 1 ms starts an election. -/
  | leadLossTimeout (t : Elapsed)
  /-- ELECTION_WINDOW_END (R420). The 200 µs collection ends and the candidate becomes lead or all go quiet. -/
  | electionWindowEnd (t : Elapsed)
  /-- ELECTION_RETRY (R420). A quiet voter repeats the election every 10 ms. -/
  | electionRetry (t : Elapsed)
  /-- MAJORITY_LOSS (R421). A lead counting fewer than a majority announces the loss and goes quiet. -/
  | majorityLoss (t : Elapsed)
  /-- FOLLOWER_TEMPO_LOSS (R423). A follower misses TEMPO for two cycles and flywheels. -/
  | followerTempoLoss (t : Elapsed)
  /-- MEMBER_LOST (R428). The lead counts a member lost and reassigns its contexts by commit. -/
  | memberLost (t : Elapsed) (m : Nat)
  /-- COUNTER_BLOCK_TIMEOUT (R426). A sealing held 10 ms without a grant completes NO_BLOCK. -/
  | counterBlockTimeout (t : Elapsed) (ring idx : Nat)
  /-- COH_REJOIN (R424). Setting COH_CTL.REJOIN leaves STEPPED_OUT. -/
  | cohRejoin (t : Elapsed) (who : Who) (value : Nat)
  /-- UPD_OPEN (R435). Checks a package head, erases the staging slot and writes the head. -/
  | updOpen (t : Elapsed) (idx : Nat)
  /-- UPD_BLOCK (R436). Checks a block's CRC and programs it into the staging slot. -/
  | updBlock (t : Elapsed) (idx : Nat)
  /-- UPD_CLOSE (R436). Hashes and checks every staged part and marks the set STAGED. -/
  | updClose (t : Elapsed) (idx : Nat)
  /-- UPD_ACTIVATE (R440). Writes a TRIAL record for the staged slot and warm-restarts. -/
  | updActivate (t : Elapsed) (idx : Nat)
  /-- UPD_ACCEPT (R441). Settles the trial set and raises the floor. -/
  | updAccept (t : Elapsed) (idx : Nat)
  /-- UPD_REVERT (R441). Settles the fallback slot and warm-restarts. -/
  | updRevert (t : Elapsed) (idx : Nat)
  /-- TRIAL_EXPIRY (R441). The trial window runs out without an accept and the set reverts. -/
  | trialExpiry (t : Elapsed)
  /-- COHORT_PREPARE_TIMEOUT (R442). A member fails to answer the prepare phase within 10 ms and activation aborts. -/
  | cohortPrepareTimeout (t : Elapsed)
  /-- COHORT_ACTIVATION (R442). At the activation stamp every member writes its record and restarts. -/
  | cohortActivation (t : Elapsed)
  /-- HOMEROOM_HELLO (R445). Homeroom replies with identity, entry cause and slot state. -/
  | homeroomHello (t : Elapsed) (h : HomeHead)
  /-- HOMEROOM_HEAD (R445). Homeroom takes a package head as UPD_OPEN does. -/
  | homeroomHead (t : Elapsed) (h : HomeHead) (head : List Byte)
  /-- HOMEROOM_BLOCK (R445). Homeroom programs a data block as UPD_BLOCK does. -/
  | homeroomBlock (t : Elapsed) (h : HomeHead) (entry block check : Nat) (data : List Byte)
  /-- HOMEROOM_FINISH (R445). Homeroom closes the set and writes a TRIAL record. -/
  | homeroomFinish (t : Elapsed) (h : HomeHead)
  /-- HOMEROOM_RESTART (R445). Homeroom replies and restarts. -/
  | homeroomRestart (t : Elapsed) (h : HomeHead)
  /-- HOMEROOM_BAUD (R445). Homeroom changes the UART rate after its reply. -/
  | homeroomBaud (t : Elapsed) (h : HomeHead) (rate : Nat)
  /-- HOMEROOM_TIMEOUT (R444). 15 minutes without a valid frame end a tag-requested homeroom. -/
  | homeroomTimeout (t : Elapsed)
  /-- COUNTER_STREAM (R454). Every PERIOD cycles the inspector streams the masked counters. -/
  | counterStream (t : Elapsed)
  /-- COUNTER_CLEAR (R453). A write of INS_CCLR clears all 256 counters. -/
  | counterClear (t : Elapsed) (who : Who) (value : Nat)
  /-- COUNTER_LATCH (R454). Reading INS_CNTn low word latches its high word. -/
  | counterLatch (t : Elapsed) (n : Nat)
  /-- LEDGER_WRITE (R456). Link firmware writes a queued repair record to the ledger, carrying state at a full block. -/
  | ledgerWrite (t : Elapsed) (ok : Bool)
  /-- ILLEGAL_INSTRUCTION (R382). A core attempts the halfword 0x0000, a reserved opcode or function code, or a reserved field value and takes the illegal-instruction exception. -/
  | illegalInstruction (c : CoreId)
  /-- FETCH_FAULT (R393). A core's instruction fetch is refused by the regions, the map, an off memory or an uncorrectable error, and the core takes the fetch exception. -/
  | fetchFault (c : CoreId) (ecc : Ecc)
  /-- SCRUBBER_READ (R402). The SRAM scrubber reads the next word of a bank, correcting, counting and possibly bringing its row to the remap threshold. -/
  | scrubberRead (t : Elapsed) (ecc : Ecc)
  /-- PORT_LINK_CHANGE (R417). A cohort port gains or loses its link, changing EUP or WUP and the direction packets take. -/
  | portLinkChange (t : Elapsed) (west up : Bool)
  /-- CHARGE_CONSTANT_VOLTAGE (R365). The internal cell reaches 4.10 V and its charge moves from constant current to constant voltage. -/
  | chargeConstantVoltage (t : Elapsed)
  /-- DECODE_DEADLINE (R197). The decode deadline D passes with a block result still missing, and the block fails. -/
  | decodeDeadline (t : Elapsed)
  /-- REGISTER_READ (R2). A read of an RC register, or of a register whose reading has an effect such as COUNT of a running chained timer pair, clears or sets state. -/
  | registerRead (t : Elapsed) (who : Who) (addr : Nat)
  /-- ESCALATION_WINDOW_END (R38). An ensemble's escalation window of DEV_ESCWIN seconds runs out and its WINDOW count of child lapses restarts. -/
  | escalationWindowEnd (t : Elapsed) (unit : Nat)
  /-- TAG_UNKNOWN_COMMAND (R341). The tag receives a command that is in neither Table TAG-1 nor Table TAG-2 and answers error 0x01. -/
  | tagUnknownCommand (t : Elapsed) (req : TagReq)
  deriving DecidableEq, Repr

end Sys2Proof
end

