-- ==== Sys2Proof/Decode.lean ====
section
/-!
DEFINITION. The word decoder. The manual gives its commands no instruction words: no row of the opcode table has
bits, so no word spells a command.
-/

namespace Sys2Proof

/-- The command a word of `nbits` bits spells: none, since no row of the table gives bits. -/
def decodeTableWord (_nbits _w : Nat) : Option Instr := none

end Sys2Proof
end

