-- ==== Sys2Proof/Config.lean ====
section
/-!
DEFINITION. What one part fixes and no rule states: constants without a body. Nothing can be proved about
their values, so every claim holds whatever they are.
-/

namespace Sys2Proof.Config

/-- A value the manual leaves open, drawn afresh for each argument (the free-value counter of the state). -/
opaque freeValue : Nat → Nat

/-- Is a fraction, given by numerator and denominator, rounded up where the manual states a linear course and no
rounding (R332)? -/
opaque roundUp : Nat → Nat → Bool

/-- The device-unique key in the fuses (R285). -/
opaque uniqueKey : BitVec 256

/-- The device's 64-bit long address (LNK_LONG). -/
opaque longAddress : BitVec 64

/-- Farsum's IC manufacturer code under ISO/IEC 7816-6 (R340). -/
opaque tagMaker : BitVec 8

/-- Shipped bytes 0-7 of the tag: the capability container (R343). -/
opaque capability : Nat → BitVec 8

/-- The band variant: true for KT4096-A, false for KT4096-E (R1, Table CAP-1). -/
opaque bandA : Bool

/-- The byte another cohort member holds at a window address at a tempo-clock edge (R24). -/
opaque remoteByte : Nat → Nat → BitVec 8

/-- Bank and row of the in-package DRAM die that hold an address: the row map only the controller knows (R413). -/
opaque dramRow : Nat → Nat × Nat

/-- Successor of the neighbour-refresh LFSR, whose taps the manual does not give (R413). -/
opaque lfsrNext : BitVec 32 → BitVec 32

/-- Place of the child table of an ensemble without a page of its own, in words from DEV offset 0x400 (R33). -/
opaque childTable : Nat → BitVec 8

/-- SHA-256 of the public key in fuse slot `k`, big-endian (R432). -/
opaque fuseDigest : Nat → BitVec 256

/-- Fuse slots programmed, and revoked, bit `k` for slot `k` (R432). -/
opaque fuseProg : BitVec 4
opaque fuseRevoked : BitVec 4

/-- Farsum's public key of slot 0, X then Y, big-endian (R432). -/
opaque farsumKey : BitVec 512

/-- Contents of the boot ROM, by address (R20). -/
opaque romByte : Nat → BitVec 8

/-- Version of the boot ROM (R445). -/
opaque bootVersion : BitVec 16

end Sys2Proof.Config
end

