-- ==== Sys2Proof/Machine/Sparse.lean ====
section
/-!
DEFINITION. Sparse stores: a list of (key, value) pairs with rising keys, in which no listed value equals
what an unlisted key reads as. Memory, the register file and every on-chip table of the model are kept in
this one canonical form, so equal contents are equal data.
-/

namespace Sys2Proof.Machine

/-- The value at key `k`: the listed one, or the default `d k`. -/
def sget {α : Type} (d : Nat → α) : List (Nat × α) → Nat → α
  | [], k => d k
  | (a, v) :: m, k => if k = a then v else if k < a then d k else sget d m k

/-- Puts `v` at key `k`, keeping the keys rising and listing no default value. -/
def sput {α : Type} [DecidableEq α] (d : Nat → α) : List (Nat × α) → Nat → α → List (Nat × α)
  | [], k, v => if v = d k then [] else [(k, v)]
  | (a, w) :: m, k, v =>
    if k = a then (if v = d k then m else (k, v) :: m)
    else if k < a then (if v = d k then (a, w) :: m else (k, v) :: (a, w) :: m)
    else (a, w) :: sput d m k v

/-- The keys listed in `m` that satisfy `p` go back to their default. -/
def sdrop {α : Type} (p : Nat → Bool) (m : List (Nat × α)) : List (Nat × α) :=
  m.filter fun c => !p c.1

/-- The canonical form: keys strictly rising from `lo`, no listed value equal to the default. -/
def swfFrom {α : Type} [DecidableEq α] (d : Nat → α) : Nat → List (Nat × α) → Bool
  | _, [] => true
  | lo, (a, v) :: m => decide (lo ≤ a) && decide (v ≠ d a) && swfFrom d (a + 1) m

/-- A sparse store is in canonical form. -/
def swf {α : Type} [DecidableEq α] (d : Nat → α) (m : List (Nat × α)) : Bool := swfFrom d 0 m

/-- A byte store whose unlisted bytes read as zero. -/
abbrev Store := List Host.Cell

/-- What an unlisted byte of a `Store` reads as. -/
def zeroByte (_ : Nat) : Byte := 0

/-- One byte of a store. -/
def Store.byte (m : Store) (a : Nat) : Byte := sget zeroByte m a

/-- Writes one byte of a store. -/
def Store.setByte (m : Store) (a : Nat) (b : Byte) : Store := sput zeroByte m a b

/-- The little-endian number of the `n` bytes from `a` (all memory of the part is little-endian, R20). -/
def Store.num (m : Store) (a : Nat) : Nat → Nat
  | 0 => 0
  | n + 1 => (m.byte a).toNat + 256 * Store.num m (a + 1) n

/-- Writes the low `n` bytes of `v`, least significant first, from `a`. -/
def Store.setNum (m : Store) (a : Nat) : Nat → Nat → Store
  | 0, _ => m
  | n + 1, v => Store.setNum (m.setByte a (BitVec.ofNat 8 v)) (a + 1) n (v / 256)

/-- The `n` bytes from `a`. -/
def Store.bytes (m : Store) (a : Nat) : Nat → List Byte
  | 0 => []
  | n + 1 => m.byte a :: Store.bytes m (a + 1) n

/-- Writes a list of bytes from `a`. -/
def Store.setBytes (m : Store) (a : Nat) : List Byte → Store
  | [] => m
  | b :: bs => Store.setBytes (m.setByte a b) (a + 1) bs

/-- The bytes from `a`, below `a + n`, go back to zero. -/
def Store.clear (m : Store) (a n : Nat) : Store := sdrop (fun k => decide (a ≤ k ∧ k < a + n)) m

/-- The store is in canonical form. -/
def Store.wf (m : Store) : Bool := swf zeroByte m

/-- Bits `[lo + w - 1 : lo]` of a number. -/
def bitsOf (v lo w : Nat) : Nat := v / 2 ^ lo % 2 ^ w

/-- Bit `i` of a number. -/
def bitOf (v i : Nat) : Bool := v.testBit i

/-- `v` with bits `[lo + w - 1 : lo]` replaced by the low `w` bits of `x`. -/
def setBitsOf (v lo w x : Nat) : Nat :=
  v - bitsOf v lo w * 2 ^ lo + x % 2 ^ w * 2 ^ lo

/-- 0 or 1. -/
def b2n (b : Bool) : Nat := if b then 1 else 0

/-- The little-endian number of a list of bytes. -/
def leNum : List Byte → Nat
  | [] => 0
  | b :: bs => b.toNat + 256 * leNum bs

/-- The low `n` bytes of a number, least significant first. -/
def leBytes : Nat → Nat → List Byte
  | 0, _ => []
  | n + 1, v => BitVec.ofNat 8 v :: leBytes n (v / 256)

/-- The big-endian number of a list of bytes. -/
def beNum (bs : List Byte) : Nat := leNum bs.reverse

/-- The low `n` bytes of a number, most significant first. -/
def beBytes (n v : Nat) : List Byte := (leBytes n v).reverse

/-- A number as a two's-complement integer of `w` bits. -/
def signed (w v : Nat) : Int :=
  if v % 2 ^ w < 2 ^ (w - 1) then (v % 2 ^ w : Nat) else (v % 2 ^ w : Nat) - (2 ^ w : Nat)

/-- An integer as its two's-complement number of `w` bits. -/
def unsigned (w : Nat) (v : Int) : Nat := (v % (2 ^ w : Nat)).toNat

/-- `v` held within `lo` and `hi`: "other values act as the nearer limit". -/
def clamp (lo hi v : Nat) : Nat := if v < lo then lo else if hi < v then hi else v

/-- A counter of `w` bits stepped by `n` without wrapping ("saturating"). -/
def satAdd (w v n : Nat) : Nat := if v + n < 2 ^ w then v + n else 2 ^ w - 1

/-- Division rounding up. -/
def ceilDiv (a b : Nat) : Nat := (a + b - 1) / b

/-- Replaces element `i` of a list, if it has one. -/
def listSet {α : Type} (l : List α) (i : Nat) (v : α) : List α := l.set i v

end Sys2Proof.Machine
end

