-- ==== Sys2Proof/Machine/State.lean ====
section
/-!
DEFINITION. The state of the block as plain data: everything the manual gives the KT4096, the queue of waiting
commands, and the state right after reset. Register fields live in the sparse register file `regs`; what a
register only shows (unit states, counts in flight, clock values) is computed when it is read.
-/

namespace Sys2Proof.Machine

/-! ### Stops -/

/-- Reasons to stop with a fault. No rule of the manual stops the part: a bad access raises an exception in a
core, completes a descriptor or answers a bus error, so the type has no constructor. -/
inductive Fault where
  deriving DecidableEq, Repr

/-- Reasons to refuse a command. -/
inductive Refusal where
  /-- Raised by `exec` alone, for a command that has no meaning yet. Safe: nothing is claimed of it. -/
  | notModelled (mnemonic : String)
  deriving DecidableEq, Repr

/-! ### Time -/

/-- The two clocks events are measured in: tempo-clock edges (one per step, R59, R316) and nanoseconds. -/
structure Clock where
  edges : Nat := 0
  ns : Nat := 0
  deriving DecidableEq, Repr

/-! ### Units (R30-R44, R54) -/

/-- What a unit holds beside its header registers. -/
structure UnitRec where
  /-- being reset: reads `LAPSED` until its return to service (R37) -/
  lapsed : Bool := false
  /-- time of the lapse or reset, ns, and the cause of its envelope record; 0 where its ensemble has the record -/
  lapsedAt : Nat := 0
  cause : Nat := 0
  /-- a drain, disable or reset waits for the unit's work; reads `DRAINING` (R40, R41, R43) -/
  draining : Bool := false
  drainAt : Nat := 0
  /-- `airNs` of the transmitter when the drain began (R42) -/
  drainPaused : Nat := 0
  /-- a reset asked by UCTL.RESET, not yet carried out (R43) -/
  resetPend : Bool := false
  /-- UCTL written while a reset was pending, to take effect after it (R44) -/
  afterReset : Option Nat := none
  /-- retired: reads `SUBSTITUTED` (R39) -/
  retired : Bool := false
  /-- no logical member can serve, or a start-up check failed: reads `FAULTED` -/
  faulted : Bool := false
  /-- the lapse timer's last restart, ns (R36) -/
  progressAt : Nat := 0
  /-- the bound in force, in microseconds (R36: a new ULAPSE counts from the next progress event) -/
  boundUs : Option Nat := none
  /-- a CPU core's timer runs from its first heartbeat (R397) -/
  beaten : Bool := false
  /-- times of its lapses in the last 24 h, ns (R39) -/
  lapseTimes : List Nat := []
  /-- start of the escalation window of an ensemble, ns (R38) -/
  windowAt : Nat := 0
  deriving DecidableEq, Repr

/-! ### Rings (R85-R109) -/

/-- Where a fetched descriptor stands. -/
inductive Stage where
  /-- fetched, held behind earlier descriptors by FENCE (R94) -/
  | fenced
  /-- waits for its start stamp (R93) -/
  | timed
  /-- handed to its unit at its decision step, not started -/
  | accepted
  /-- waits for another party or for time inside its unit (R36) -/
  | waiting
  /-- started, not past its commit point (Table UNT-5) -/
  | started
  /-- past its commit point -/
  | committed
  /-- served work; `false` while its notice waits for channel room (R108) -/
  | served (sent : Bool)
  deriving DecidableEq, Repr

/-- A descriptor in flight whose completion is not decided. -/
structure Work where
  ring : Nat
  /-- 16-bit submission index -/
  idx : Nat
  /-- the descriptor's address (R108) -/
  addr : Nat := 0
  /-- its eight words (R92) -/
  w : List Nat := []
  /-- the ring owner's stamp and P when it was fetched -/
  owner : Nat := 0
  prot : Bool := false
  stage : Stage := .accepted
  /-- header address of the unit that holds it -/
  unit : Nat := 0
  /-- generation the work was accepted under (R49) -/
  gen : Nat := 0
  /-- expanded start stamp of a TIMED descriptor (R61) -/
  start : Nat := 0
  /-- tempo-clock edge of its decision step -/
  at_ : Nat := 0
  /-- tempo-clock edge, or nanosecond, at which its unit ends it -/
  due : Nat := 0
  /-- unit-specific numbers -/
  a : Nat := 0
  b : Nat := 0
  c : Nat := 0
  deriving DecidableEq, Repr

/-- A decided completion not yet written to memory (R95-R97). -/
structure Done where
  ring : Nat
  idx : Nat
  tag : Nat
  status : Nat
  /-- bits [5:4] of byte 3: NOSTAMP, LOCAL -/
  flags : Nat
  /-- completion stamp, 56 bits -/
  stamp : Nat
  gen : Nat
  result : Nat
  /-- the descriptor had EVENT set (R99) -/
  event : Bool
  /-- tempo-clock edge of the decision, which orders completions -/
  at_ : Nat
  deriving DecidableEq, Repr

/-- The ring engine beyond its registers. -/
structure RingState where
  work : List Work := []
  done : List Done := []
  /-- result word for the next RNG_RET write, by ring (R109) -/
  retRes : List (Nat × Nat) := []
  deriving DecidableEq, Repr

/-- A commit in progress (R45-R47). The lists are those checked at its decision step. -/
structure Commit where
  idx : Nat
  /-- aligned stamp of the boundary; `none` for a plain next-frame boundary -/
  boundary : Option Nat
  /-- the TABLES field -/
  tables : Nat
  /-- key slots of RELLIST -/
  releases : List Nat
  /-- changeover interval in cycles -/
  interval : Nat
  newGen : Nat
  /-- true once the boundary has passed -/
  switched : Bool := false
  /-- tempo-clock edge of the boundary -/
  switchedAt : Nat := 0
  /-- CTXLIST entries still to be rewritten, in order: (context, delete, image); groups are 512 + g -/
  rewrites : List (Nat × Bool × List Byte) := []
  /-- frames completed GEN_MISMATCH during the changeover -/
  mismatches : Nat := 0
  /-- it came from the cohort lead, not from ring 0 (R429) -/
  fromLead : Bool := false
  deriving DecidableEq, Repr

/-! ### Mailboxes (R110-R115) -/

/-- A notice in a channel. -/
structure Notice where
  dst : Nat
  /-- sender ID 0x0-0x6, or 0x8 + m for cohort member m -/
  src : Nat
  ptr : Nat
  tag : Nat
  stamp : Nat
  prot : Bool
  /-- edge of the decided send -/
  at_ : Nat
  deriving DecidableEq, Repr

/-- The mailboxes beyond their registers. -/
structure MailState where
  notices : List Notice := []
  /-- latched notice of each receive window: (receiver, notice) (R114) -/
  latched : List (Nat × Notice) := []
  /-- cohort sends that await their answer: (send window, tag of the packet, issue time ns) (R115) -/
  pendingSends : List (Nat × Nat × Nat) := []
  deriving DecidableEq, Repr

/-! ### Events and timers (R304-R322) -/

/-- An event on its way to the router: source code of Table EVR-1, chain depth (R309), the writer of a
software source. -/
structure Event where
  src : Nat
  depth : Nat := 0
  stamp : Nat := 0
  prot : Bool := false
  deriving DecidableEq, Repr

/-- A timer beyond its registers (R316-R322). A chained pair keeps its record at the even timer (R320). -/
structure TimerRec where
  /-- the count up to the present time; 64 bits when chained -/
  count : Nat := 0
  /-- PER clocks counted by the prescaler since its last tick -/
  pre : Nat := 0
  /-- buffered period (R318) -/
  perNext : Nat := 0
  /-- count at which an immediate period at or below it was written: the next tick is a period event (R318) -/
  force : Option Nat := none
  /-- last level seen of an external tick input -/
  ext : Bool := false
  /-- the compare event of the present run was emitted, or the count did not reach CMP by a tick -/
  cmpDone : Bool := false
  /-- depth of the events of the present tick, and the PER cycle it holds for (R309) -/
  depth : Nat := 0
  depthAt : Option Nat := none
  /-- low halves a chained pair holds until the high half is written (R320) -/
  holdPer : Nat := 0
  holdCmp : Nat := 0
  holdCount : Nat := 0
  /-- PER cycle of the last capture into CAPR and CAPF, the value before it and OVR before it (R319) -/
  capR : Option (Nat × Nat × Bool) := none
  capF : Option (Nat × Nat × Bool) := none
  deriving DecidableEq, Repr

/-- The event router and the timers beyond their registers. -/
structure EventState where
  /-- events emitted and not yet routed, oldest first -/
  queue : List Event := []
  timers : List (Nat × TimerRec) := []
  /-- last activation of each PER-domain task input: (task code, PER cycle) (R312) -/
  taskAt : List (Nat × Nat) := []
  /-- group enables before the first change of a SYS cycle, and the groups disabled in it (R306) -/
  grpWas : Option (Nat × Nat × Nat) := none
  /-- BK period at which PER entered retention (R322) -/
  sleptAt : Option Nat := none
  deriving DecidableEq, Repr

/-! ### Tempo and mains (R55-R84) -/

/-- A voltage-quality event in progress (R58). -/
structure VqEvent where
  kind : Nat
  stamp : Nat
  aligned : Bool
  duration : Nat
  /-- rms and frequency of the extreme cycle, and the quantity that made it so -/
  extreme : Nat
  freqMilli : Nat
  own : Nat
  deriving DecidableEq, Repr

/-- A change of tempo waiting for its cycle start (R78), in sixteenths of a step. -/
structure Correction where
  /-- local stamp of the cause -/
  cause : Int
  /-- change of aligned tempo and of local tempo -/
  dAlign : Int
  dLocal : Int
  /-- a TMP_SETCYC value, which clears PROVISIONAL (R76) -/
  confirms : Bool := false
  deriving DecidableEq, Repr

/-- Tempo beyond its registers. Local tempo is `edges + localBase16 / 16`, aligned tempo
`edges + alignBase16 / 16`, both in steps. -/
structure TempoState where
  localBase16 : Int := 0
  alignBase16 : Int := 0
  /-- the last local cycle whose start was processed -/
  lastCycle : Int := 0
  corrections : List Correction := []
  /-- slew not yet used up, in sixteenths (R78) -/
  remAlign16 : Int := 0
  remLocal16 : Int := 0
  /-- fraction of U below one step, in 2^-16 (R70) -/
  uFrac : Nat := 0
  guardPassed : Bool := false
  /-- where TMP_RATE comes from: 0 nominal, 1 own measurement, 2 a bell (R70) -/
  rateFrom : Nat := 0
  /-- 0 no offset, 1 learning, 2 tracking (R74); samples collected and outliers set aside, oldest first -/
  phase : Nat := 0
  samples : List Int := []
  outliers : List Int := []
  /-- time stage 1 of Table TMP-2 began, ns; stage 2: 1 once the counter was set, stage 3: good cycles in a row -/
  stageAt : Nat := 0
  goodCycles : Nat := 0
  /-- time of the last crossing and the last period, ns -/
  crossedAt : Option Nat := none
  period : Nat := 0
  events : List VqEvent := []
  /-- cycles in a row with THD above 8 % -/
  thdRun : Nat := 0
  /-- last one-cycle frequencies in mHz, newest first, at most 256 (R76) -/
  freqs : List Nat := []
  /-- armed alarms: (alarm, compare stamp, period in steps) (R82) -/
  armed : List (Nat × Nat × Nat) := []
  /-- last local cycle in which a correction or a part of a slew was applied (R78) -/
  slewCycle : Int := 0
  deriving DecidableEq, Repr

/-! ### Power and backup (R357-R377) -/

/-- A domain transition in progress. -/
structure Trans where
  dest : Nat
  startedAt : Nat
  /-- work is being drained before the domain leaves on (R17) -/
  draining : Bool := false
  deriving DecidableEq, Repr

/-- A power domain (Table PWR-1): 0 off, 1 retention, 2 on. -/
structure DomRec where
  state : Nat := 0
  target : Nat := 0
  trans : Option Trans := none
  /-- the plan that started the transition (Table PWR-2) -/
  plan : Option Nat := none
  deriving DecidableEq, Repr

/-- The tempo keeper of BKP (R72, R375). -/
structure Keeper where
  valid : Bool := false
  /-- local tempo stamp, rate (2^-24 Hz), offset16, U in 2^-16 steps, flags PROVISIONAL and ALIGNED -/
  localStamp : Int := 0
  rate : Nat := 0
  offset16 : Int := 0
  align16 : Int := 0
  u16 : Nat := 0
  provisional : Bool := true
  aligned : Bool := false
  kppm : Nat := 0
  ppm : Nat := 0
  lim : Nat := 0
  since : Nat := 0
  rateFrom : Nat := 0
  deriving DecidableEq, Repr

/-- An armed calendar alarm: its number, the date, time and mask it was armed with, the last instant served in
seconds since 0000-01-01 (R373). -/
structure CalAlarm where
  n : Nat
  date : Nat
  time : Nat
  mask : Nat
  last : Nat
  deriving DecidableEq, Repr

/-- BKP beyond its registers. -/
structure BackupState where
  /-- calendar: 1/32,768 s since 0000-01-01 00:00:00 at BK period `calAt`, and the part of a period the trim has
  gathered, in 1/32,000,000 -/
  cal : Nat := 0
  calAt : Nat := 0
  trimAcc : Int := 0
  /-- latched date and time, seconds since 0000-01-01 (R371) -/
  calLatch : Nat := 0
  /-- a write that lands within two BK periods: address and value (R371) -/
  landing : Option (Nat × Nat) := none
  /-- the three copies of the validity token hold (R367) -/
  token : Bool := false
  keeper : Keeper := {}
  alarms : List CalAlarm := []
  satchel : Store := []
  /-- measurement window: BK period and tempo-clock edge at its start (R372) -/
  trimAt : Option (Nat × Nat) := none
  /-- a wake seen while SYS was not on and not yet taken: source and index (R363) -/
  wake : Option (Nat × Nat) := none
  deriving DecidableEq, Repr


/-! ### Cores (R378-R398) -/

/-- A line of a data cache (R389): its address, its 32 bytes, whether it was written. -/
structure CacheLine where
  addr : Nat
  bytes : List Byte
  dirty : Bool
  deriving DecidableEq, Repr

/-- A load that waits for the answer of another cohort member (R24, R395). -/
structure RemoteLoad where
  addr : Nat
  size : Nat
  signExt : Bool
  rd : Nat
  /-- base register and its value after the access (Table CPU-9) -/
  base : Option (Nat × Word)
  nextPc : Word
  issued : Nat
  deriving DecidableEq, Repr

/-- One physical core (R380, Table CPU-2). -/
structure CoreState where
  /-- w1-w31 by number; w0 is never listed -/
  regs : List (Nat × Word) := []
  /-- p7-p0; bit 0 is kept 1 -/
  preds : BitVec 8 := 1#8
  cbBase : List (Nat × Word) := []
  cbLen : List (Nat × Word) := []
  pc : Word := 0#32
  status : Word := 1#32
  epc : Word := 0#32
  ecause : Word := 0#32
  eaddr : Word := 0#32
  vbase : Word := 0#32
  scratch : Word := 0#32
  prBase : List (Nat × Word) := []
  prCtl : List (Nat × Word) := []
  dcache : List CacheLine := []
  /-- addresses of the lines held by the instruction cache -/
  icache : List Nat := []
  /-- stopped in WFE (R390) -/
  waiting : Bool := false
  /-- executing; clear before its start, after a double fault and while drained or disabled -/
  running : Bool := false
  remote : Option RemoteLoad := none
  /-- stores to other cohort members that were not answered yet, oldest first: address, issue time in ns (R24) -/
  stores : List (Nat × Nat) := []
  /-- address of a store whose late error was not raised yet (R395) -/
  lateStore : List Nat := []
  deriving DecidableEq, Repr

/-! ### Memories (R399-R416) -/

/-- A tracked SRAM row (R403): bank, row, times of its corrected errors, ns, newest first. -/
structure RowRec where
  bank : Nat
  row : Nat
  firstAt : Nat
  errors : List Nat
  /-- it passed the threshold with no spare left and was counted -/
  reported : Bool := false
  deriving DecidableEq, Repr

/-- A NOR operation in progress (R406, R407). -/
structure NvmOp where
  cmd : Nat
  addr : Nat
  /-- bytes to program -/
  data : List Byte
  startedAt : Nat
  suspendedAt : Option Nat := none
  /-- end of the time in which suspension is refused -/
  noSuspendUntil : Nat := 0
  /-- serves an update operation (R406) -/
  update : Bool := false
  deriving DecidableEq, Repr

/-- The memory units beyond their registers. -/
structure MemState where
  /-- contents of SRAM, NOR, DRAM and boot ROM by address (Table ARC-5) -/
  cells : List Host.Cell := []
  /-- poisoned words by word address (R401, R410) -/
  poison : List (Nat × Bool) := []
  /-- tracked SRAM rows, oldest first -/
  rows : List RowRec := []
  /-- SRAM remaps: (bank, row, spare); of a row remapped twice the later entry is in force -/
  remaps : List (Nat × Nat × Nat) := []
  /-- row copies, the first one running: (bank, row, spare, cause) (R403) -/
  copying : List (Nat × Nat × Nat × Nat) := []
  /-- next word the scrubber reads (R402) -/
  scrubAt : Nat := 0
  /-- the NOR operation and the retired blocks: (block, spare) (R408) -/
  nvmOp : Option NvmOp := none
  nvmRemaps : List (Nat × Nat) := []
  /-- ECC in force since the last change of DRAM to on (R410) -/
  dramEcc : Bool := false
  dramRows : List RowRec := []
  /-- rows listed for post-package repair: (bank, row) (R416) -/
  pprList : List (Nat × Nat) := []
  /-- die temperature at the last sweep, in °C + 128 -/
  sweepTemp : Nat := 0
  /-- neighbour-refresh LFSR (R413) -/
  lfsr : Word := 0#32
  /-- time of the last refresh or postponement, ns (R412) -/
  refreshAt : Nat := 0
  deriving DecidableEq, Repr
/-! ### Lighting, pads and serial ports (R323-R338) -/

/-- An entry of the DALI send queue (R325). -/
structure DaliEntry where
  data : Nat
  len : Nat
  tag : Nat
  prio : Nat
  trig : Bool
  expect : Bool
  twice : Bool
  /-- attempts lost to collisions -/
  tries : Nat := 0
  /-- the first frame of a send-twice pair was sent -/
  second : Bool := false
  /-- it reached the head with no fault on the bus -/
  atHead : Bool := false
  /-- it is not to run and waits for room in the result queue -/
  gone : Bool := false
  /-- depth of the result event (Table GPI-2) -/
  depth : Nat := 0
  deriving DecidableEq, Repr

/-- The DALI engine beyond its registers. -/
structure DaliState where
  queue : List DaliEntry := []
  /-- DAL_RES words, oldest first (R327) -/
  results : List Nat := []
  /-- received frames: (length, data) (R328) -/
  rx : List (Nat × Nat) := []
  /-- the random settling part in 0.1 ms for the next frame (R324) -/
  delta : Option Nat := none
  /-- start of the frame on the bus, ns -/
  sending : Option Nat := none
  /-- start of the answer window, ns -/
  answering : Option Nat := none
  /-- the bus is idle since, ns -/
  idleSince : Nat := 0
  deriving DecidableEq, Repr

/-- A running ramp (R332). -/
structure Ramp where
  start : Nat
  target : Nat
  /-- time it began, ns, and its length in ms -/
  at_ : Nat
  ms : Nat
  /-- depth of its ramp-end event -/
  depth : Nat
  deriving DecidableEq, Repr

/-- The 1-10 V output beyond its registers. -/
structure DimState where
  level : Nat := 4095
  ramp : Option Ramp := none
  /-- a ramp waits for APPLY -/
  armed : Bool := false
  deriving DecidableEq, Repr

/-- A serial port: UART 0 and 1, SPI 2 and 3, I2C 4 and 5. -/
structure PortRec where
  tx : List Nat := []
  /-- received bytes; a UART keeps PERR and FERR in bits 9 and 10 -/
  rx : List Nat := []
  /-- time the transmission of the head byte, or the transfer, began, ns -/
  startedAt : Nat := 0
  len : Nat := 0
  read : Bool := false
  deriving DecidableEq, Repr

/-- The PER domain beyond its registers and timers. -/
structure PerState where
  dali : DaliState := {}
  dim : DimState := {}
  ports : List (Nat × PortRec) := []
  /-- levels driven on GPIO0-15 from outside -/
  gpioExt : Nat := 0
  /-- time PER entered retention, ns -/
  sleptNs : Option Nat := none
  deriving DecidableEq, Repr

/-! ### Cipher (R284-R303) -/

/-- A loaded key slot (R286). -/
structure KeySlot where
  uses : Nat
  key : List Byte
  deriving DecidableEq, Repr

/-- A job context (Table CIP-7). -/
structure JobCtx where
  chain : List Byte := []
  /-- GHASH accumulator (16 bytes) or CMAC partial block -/
  acc : List Byte := []
  slot : Nat := 0
  mode : Nat := 0
  open_ : Bool := false
  seeded : Bool := false
  /-- the counter field of a CTR chain has been used up (R297) -/
  spent : Bool := false
  ctrw : Nat := 0
  invoc : Nat := 0
  fixed : Nat := 0
  dlen : Nat := 0
  alen : Nat := 0
  deriving DecidableEq, Repr

/-- The cipher unit beyond its registers. -/
structure CipherState where
  slots : List (Nat × KeySlot) := []
  jctx : List (Nat × JobCtx) := []
  /-- model free time of the logical engines, tempo-clock edges -/
  free0 : Nat := 0
  free1 : Nat := 0
  deriving DecidableEq, Repr

/-! ### Contexts (R238-R239) -/

/-- The context store (R10): 128 bytes at 128 * context; group g is context 512 + g. -/
structure CtxState where
  ctx : Store := []
  /-- old images of a changeover (R47) -/
  old : List (Nat × List Byte) := []
  deriving DecidableEq, Repr

/-! ### Tag (R339-R356) -/

/-- What a journalled write changes (R348). Block 4096 + b is the lock of block b. -/
inductive TagOp where
  | data (first : Nat) (bytes : List Byte)
  /-- bits of blocks 610 and 611 taken together: mask and value -/
  | flags (mask value : Nat)
  /-- increment of a counter (R344) -/
  | counter (n : Nat)
  deriving DecidableEq, Repr

/-- Who asked for a journalled write. -/
inductive TagAsker where
  /-- a field command and its reply data -/
  | field (reply : List Byte)
  /-- a ring-7 descriptor and its result word (`none`: the sequence) -/
  | host (idx : Nat) (result : Option Nat)
  | tag
  deriving DecidableEq, Repr

/-- A journalled write that waits or runs. -/
structure TagWrite where
  op : TagOp
  asker : TagAsker
  deriving DecidableEq, Repr

/-- A journal slot (Table TAG-6). -/
structure JournalSlot where
  slot : Nat
  seq : Nat
  first : Nat
  data : List Byte
  /-- its CRC-32 holds; its commit marker holds -/
  whole : Bool
  marked : Bool
  deriving DecidableEq, Repr

/-- The write being programmed: its journal slot and the step of Table TAG-6, 3 to 5, with its start in ns. -/
structure TagRun where
  write : TagWrite
  slot : JournalSlot
  step : Nat
  at_ : Nat
  deriving DecidableEq, Repr

/-- A reply of the tag. -/
inductive TagReply where
  | silent
  | ok (data : List Byte)
  | error (code : Nat)
  deriving DecidableEq, Repr

/-- Selection state of ISO/IEC 15693-3. -/
inductive TagMode where
  | ready | quiet | selected
  deriving DecidableEq, Repr

/-- The tag beyond its registers. -/
structure TagState where
  /-- 4,096 blocks of 4 bytes, then one lock word for each block -/
  eeprom : Store := []
  journal : List JournalSlot := []
  run : Option TagRun := none
  waiting : List TagWrite := []
  /-- supply: the reader field is above threshold -/
  field : Bool := false
  fieldLostAt : Nat := 0
  mode : TagMode := .ready
  secured : Bool := false
  failures : Nat := 0
  locked : Bool := false
  /-- AUTH_BEGIN in progress: key number, RA, RB -/
  auth : Option (Nat × List Byte × List Byte) := none
  /-- exact-timing mode entered by TIMING -/
  exact : Bool := false
  /-- the reply given last, and its slot in an inventory round -/
  reply : TagReply := .silent
  replySlot : Nat := 0
  /-- the collapse met the programming of the primary blocks (step 5) -/
  torn : Bool := false
  /-- exact-timing mode: a reply due (silent for a write that has not ended), the time of the end of frame or of the
  write's end, and whether a write waits -/
  due : Option (TagReply × Nat × Bool) := none
  deriving DecidableEq, Repr


/-! ### Double-buffered tables and calibration records (R45, R133, R159, R167, R216, R219, R257, R275) -/

/-- One bank of every double-buffered table. -/
structure Bank where
  /-- 256 channel entries of 16 bytes -/
  chan : Store := []
  /-- 512 watch entries of 8 bytes -/
  watch : Store := []
  /-- 16 airtime rules of 16 bytes -/
  rules : Store := []
  /-- timetable header, then 256 slot entries, 32 bytes each -/
  ttb : Store := []
  /-- 64 power entries of 4 bytes -/
  power : Store := []
  /-- four edge schedules of 32 bytes -/
  sched : Store := []
  deriving DecidableEq, Repr

/-- Active and inactive bank, and the calibration store. -/
structure TableState where
  act : Bank := {}
  ina : Bank := {}
  /-- the 256 records of 64 bits -/
  cal : List (Nat × Nat) := []
  /-- records calibrated for the inactive bank, and the entries it changes (R215) -/
  calNext : List (Nat × Nat) := []
  changed : List Nat := []
  deriving DecidableEq, Repr

/-! ### Capture (R116-R140) -/

/-- A recording (R135-R140). -/
structure Recording where
  idx : Nat
  /-- it follows its predecessor without a gap; CONT was asked and could not be met -/
  cont : Bool
  gap : Bool
  /-- stamp of its start, header flag bits, gain code and gain changes so far -/
  stamp : Nat
  flags : Nat
  gain : Nat
  gainChg : Nat := 0
  deriving DecidableEq, Repr

/-- A calibration slice that runs. -/
structure SliceRun where
  /-- capture: the item's number. Synthesiser: mask of the items it serves -/
  item : Nat
  /-- synthesiser: 0 full calibration, 2 TPG, 3 PWR -/
  kind : Nat := 0
  entry : Nat := 0
  next : Bool := false
  forced : Bool
  start : Nat
  due : Nat
  deriving DecidableEq, Repr

/-- The capture beyond its registers. -/
structure CapState where
  /-- pending items with their slices left, in the order of Table CAP-4 -/
  pend : List (Nat × Nat) := []
  run : Option SliceRun := none
  forced : Bool := false
  /-- tempo-clock edge of the request or of the end of the slice before -/
  readyAt : Nat := 0
  /-- die temperature, °C + 128, and at the last flatness calibration (R134) -/
  temp : Nat := 128
  flatTemp : Nat := 128
  /-- time RXA came on or CAP lapsed, until which samples are blanked, ns -/
  settledAt : Nat := 0
  record : Option Recording := none
  /-- the recording ends at the next 64-byte boundary of its buffer (R139) -/
  stopping : Bool := false
  /-- time of the last change of the gain, ns (R123) -/
  gainAt : Nat := 0
  deriving DecidableEq, Repr

/-! ### Synthesiser and transmitter (R206-R231) -/

/-- A pending calibration slice of the synthesiser (Table SYN-2). -/
structure SynSlice where
  items : Nat
  kind : Nat
  entry : Nat := 0
  next : Bool := false
  forced : Bool := false
  /-- edge from which WAIT counts -/
  since : Nat := 0
  deriving DecidableEq, Repr

/-- What a transmission is. -/
inductive TxKind where
  /-- a `SEND` on ring 1 or 2 -/
  | frame (ring idx : Nat)
  | bell (slot start : Nat)
  | ack
  | gasp
  deriving DecidableEq, Repr

/-- Where a transmission stands. -/
inductive TxStage where
  /-- accepted, its hop not begun -/
  | queued
  | hopping
  /-- pins driven, first chip not sent -/
  | ramping
  | air
  /-- last chip sent, pins not all idle -/
  | tail
  /-- its outcome waits for an acknowledgement (R244) -/
  | await
  deriving DecidableEq, Repr

/-- A transmission from its sealing to its outcome. Times are tempo-clock edges. -/
structure Tx where
  id : Nat
  kind : TxKind
  entry : Nat
  order : Nat
  rate : Nat
  pset : Nat := 0
  robust : Bool
  power : Nat
  mark : Nat
  gen : Nat
  /-- PHY payload without its CRC -/
  pay : List Byte
  turns : Nat
  /-- start stamp S, and the slip tolerance of a timed one -/
  stamp : Nat
  slip : Option Nat := none
  /-- edge of its decision step -/
  decided : Nat
  stage : TxStage := .queued
  /-- placement: first chip, hop, earliest edge, commit point, last chip, latest edge -/
  placed : Bool := false
  start : Nat := 0
  hop : Nat := 0
  first : Nat := 0
  commit : Nat := 0
  chipEnd : Nat := 0
  last : Nat := 0
  /-- a first-use calibration stands in for its hop; the synthesiser is tuned on its entry -/
  cal : Bool := false
  tuned : Bool := false
  held : Bool := false
  /-- moved by a QUIET occurrence and counted (R262) -/
  quiet : Bool := false
  charged : Bool := false
  /-- context of the frame (512 + g for a group), counter, destination -/
  ctx : Nat := 0
  ctr : Nat := 0
  dest : Nat := 0
  ar : Bool := false
  micpfx : Nat := 0
  retries : Nat := 0
  rgap : Nat := 0
  /-- aligned step of the last transmission's first chip, and TXSTEP -/
  chipStep : Nat := 0
  txstep : Nat := 0
  /-- the last answer was a keep -/
  kept : Bool := false
  deriving DecidableEq, Repr

/-- An acknowledgement expectation in the hunter (R174). -/
structure Expect where
  tx : Nat
  entry : Nat
  order : Nat
  mark : Nat
  from_ : Nat
  till : Nat
  /-- generation whose channel entry it names -/
  gen : Nat
  deriving DecidableEq, Repr

/-- The transmit side beyond its registers. -/
structure TxState where
  list : List Tx := []
  nextId : Nat := 0
  /-- model free time of uses that have ended, edges -/
  free : Nat := 0
  /-- entry tuned or last tuned; `false` while parked; edge of the last use's latest edge -/
  entry : Nat := 0
  tuned : Bool := false
  usedAt : Nat := 0
  pend : List SynSlice := []
  run : Option SliceRun := none
  /-- windows of forced slices decided, in which they run back to back; true for those of the capture -/
  blocks : List (Nat × Nat × Bool) := []
  /-- edge of the end of the slice before -/
  sliceAt : Nat := 0
  /-- items with a failed slice in their present run -/
  sliceFail : Nat := 0
  expects : List Expect := []
  /-- PWR asked to leave TXA on for heat, once no frame is on air (R469) -/
  hot : Bool := false
  /-- nanoseconds any transmission was past its commit point and before its last edge (R42) -/
  airNs : Nat := 0
  deriving DecidableEq, Repr

/-! ### Airtime and timetable (R257-R283) -/

/-- Usage of one sub-band rule: buckets (frame units, acknowledgement units), newest first, and the edge at
which the current one began; edge at which its dwell window began. -/
structure RuleUse where
  buckets : List (Nat × Nat) := []
  since : Nat := 0
  dwellAt : Nat := 0
  deriving DecidableEq, Repr

/-- An occurrence in progress. -/
structure Occ where
  slot : Nat
  start : Nat
  stop : Nat
  /-- a blanked sample fell into it (R127) -/
  blanked : Bool := false
  deriving DecidableEq, Repr

/-- A listening window evaluated (R268): stamps of the wake event, its opening and its end. -/
structure Window where
  slot : Nat
  wake : Nat
  opens : Nat
  stop : Nat
  woken : Bool := false
  deriving DecidableEq, Repr

/-- The armed last gasp (R278): its context, counter, settings and plaintext payload. -/
structure Gasp where
  ctx : Nat
  ctr : Nat
  micsz : Nat
  ls : Bool
  payload : List Byte
  entry : Nat
  order : Nat
  robust : Bool
  rate : Nat
  power : Nat
  gen : Nat
  /-- the sealed frame -/
  frame : List Byte
  /-- its charge in ledger units -/
  charge : Nat
  deriving DecidableEq, Repr

/-- The timetable unit beyond its registers. -/
structure TtbState where
  occ : List Occ := []
  /-- start stamp of the last occurrence begun, by slot, plus one -/
  ran : List (Nat × Nat) := []
  /-- start stamp of the last occurrence whose bell was sealed, by slot, plus one -/
  bells : List (Nat × Nat) := []
  /-- start stamp of the last WAKE occurrence evaluated, by slot, plus one -/
  seen : List (Nat × Nat) := []
  /-- occurrences that begin before this stamp are not run (R79) -/
  skipTo : Nat := 0
  windows : List Window := []
  /-- a bell was taken from the tracked source since tempo last lost its basis (R265) -/
  bellSince : Bool := false
  /-- TTGEN values already reported -/
  ttgens : List Nat := []
  /-- aligned cycle at which re-entry began -/
  reentryAt : Nat := 0
  rules : List (Nat × RuleUse) := []
  /-- dwell usage by channel entry -/
  dwell : List (Nat × Nat) := []
  gasp : Option Gasp := none
  /-- last cycle whose absences were declared -/
  rollCycle : Nat := 0
  /-- main loss was seen while SYS was in retention (R281) -/
  lossPending : Bool := false
  deriving DecidableEq, Repr

/-! ### Hunter, lanes and decoder (R165-R205) -/

/-- A detection that waits for its decision step (R173). -/
structure Det where
  /-- watch entry, or 0x1FF with the transmission whose acknowledgement is expected -/
  entry : Nat
  tx : Option Nat
  prio : Nat
  sofChip : Nat
  bin : Int
  /-- local stamp and edge -/
  stamp : Nat
  at_ : Nat
  deriving DecidableEq, Repr

/-- A frame in a logical lane (Table LNS-1). -/
structure LaneRec where
  /-- 1 PREAMBLE, 2 SYNC, 3 HEADER, 4 PAYLOAD, 5 FLUSH -/
  phase : Nat := 1
  entry : Nat
  tx : Option Nat
  prio : Nat
  sofChip : Nat
  bin : Int
  stamp : Nat
  at_ : Nat
  winner : Bool
  /-- channel entry, frequency, bandwidth code, order, ANYMARK and MARK of what found it -/
  chan : Nat
  freq : Nat
  bw : Nat
  order : Nat
  anymark : Bool
  wmark : Nat
  turns : Nat := 0
  mark : Nat := 0
  gen : Nat := 0
  /-- end of the sync field: stamp, aligned flag; local stamp; start of frame, same kind of stamp -/
  sync : Nat := 0
  syncAligned : Bool := false
  syncLocal : Nat := 0
  sof : Nat := 0
  /-- the 24 header bits -/
  hdr : Nat := 0
  rssi : Nat := 0
  foff : Nat := 0
  desense : Nat := 0
  erased : Nat := 0
  done : Nat := 0
  /-- frame record of the decoder it feeds -/
  frame : Nat := 0
  deriving DecidableEq, Repr

/-- A frame handed to the decoders (R195-R205). -/
structure RxFrame where
  id : Nat
  lane : Nat
  report : List Byte
  /-- transmission whose acknowledgement is expected -/
  tx : Option Nat
  chan : Nat
  bw : Nat
  order : Nat
  mark : Nat
  hdr : Nat
  gen : Nat
  sync : Nat
  syncAligned : Bool
  /-- local stamp of its end of sync -/
  syncLocal : Nat
  /-- step of its start of frame in aligned tempo -/
  sofStep : Nat
  /-- last payload chip, edges and ns -/
  endEdge : Nat
  endNs : Nat
  soft : List Int
  /-- copies of cohort members were added -/
  combined : Bool := false
  /-- a cohort lead waits for copies until this time, ns -/
  waitTill : Option Nat := none
  /-- copies of this frame by ascending member: member, lane report, soft values (R205) -/
  copies : List (Nat × List Byte × List Int) := []
  /-- cohort member whose hop serves its acknowledgement, if not this one -/
  member : Option Nat := none
  /-- attempt in progress: 0 alone, then combined ones; its buffer; its channel values; the rate code and parity sets
  that cover them -/
  attempt : Nat := 0
  buffer : Option Nat := none
  values : List Int := []
  covRate : Nat := 0
  covSets : List Nat := []
  /-- candidates still to try, and all of them (R202) -/
  cands : List Nat := []
  allCands : List Nat := []
  /-- provisional bytes of the set-0 attempt that named its buffer (R200) -/
  attr : List Byte := []
  deriving DecidableEq, Repr

/-- A block job on the model (R196). Times are cycles of the 307.2 MHz clock. -/
structure Job where
  frame : Nat
  attempt : Nat
  block : Nat
  ready : Nat
  deadline : Nat
  placed : Bool := false
  /-- logical engine, or none in service -/
  engine : Option Nat := none
  start : Nat := 0
  stop : Nat := 0
  budget : Nat := 0
  shed : Bool := false
  started : Bool := false
  ended : Bool := false
  ok : Bool := false
  iters : Nat := 0
  /-- decided information bits, and the least magnitude over bits 0-79 -/
  bits : List Bool := []
  least : Nat := 0
  deriving DecidableEq, Repr

/-- The receive side beyond its registers. -/
structure RxState where
  dets : List Det := []
  lanes : List (Nat × LaneRec) := []
  frames : List RxFrame := []
  /-- decoded frames whose MIC check waits for a context rewrite (R47): frame, payload, soft buffer, sets -/
  held : List (RxFrame × List Byte × Option Nat × Nat) := []
  nextId : Nat := 0
  jobs : List Job := []
  /-- model free time of the logical engines -/
  decFree : List (Nat × Nat) := []
  /-- active watch entries, decided at the last boundary (R168) -/
  active : List Nat := []
  /-- time of each physical lane's last self-test, ns -/
  tested : List (Nat × Nat) := []
  /-- channel entry, order, mark, header word and end of sync of the last frames a lead combined, newest first, at
  most 64 (R205) -/
  combined : List (Nat × Nat × Nat × Nat × Nat) := []
  deriving DecidableEq, Repr
/-! ### Cohort (R417-R430) -/

/-- A link packet issued by this member (Table COH-1): destination, TYPE, SEQ, EPOCH, STAMP, and the payload's fields
in the order of Table COH-2, numbers first. -/
structure CohPacket where
  dst : Nat
  type : Nat
  seq : Nat
  epoch : Nat
  stamp : Nat
  fields : List Nat
  bytes : List Byte := []
  deriving DecidableEq, Repr

/-- What the last HELLO of a member told. -/
structure CohMember where
  index : Nat
  /-- time it arrived, ns -/
  at_ : Nat
  state : Nat
  epoch : Nat
  digest : Nat
  gen : Nat
  deriving DecidableEq, Repr

/-- The cohort unit beyond its registers. -/
structure CohState where
  /-- packets issued in the latest step in which any were, and that step's edge -/
  out : List CohPacket := []
  outAt : Nat := 0
  seq : Nat := 0
  /-- time of the last HELLO sent, ns -/
  helloAt : Nat := 0
  /-- last HELLO SEQ received on the east and the west port -/
  echoEast : Nat := 0
  echoWest : Nat := 0
  /-- HELLOs sent and not echoed: (SEQ, time in ns), newest first, at most 16 -/
  sentAt : List (Nat × Nat) := []
  /-- HELLO round trips on the path in use, 1/16 step, newest first, at most 8 -/
  rtts : List Nat := []
  members : List CohMember := []
  /-- ELECTs collected: (member, epoch); start of the collection, ns -/
  votes : List (Nat × Nat) := []
  electAt : Nat := 0
  /-- time the lead was last heard, ns -/
  leadAt : Nat := 0
  /-- high-water mark of each context's counter blocks (R426) -/
  high : List (Nat × Nat) := []
  /-- contexts whose block request is outstanding -/
  requested : List Nat := []
  /-- edge of the last TEMPO -/
  tempoAt : Nat := 0
  flywheels : Bool := false
  /-- contexts of lost members the lead has still to reassign: the lost members (R428) -/
  reassign : List Nat := []
  /-- banks discarded, the lead's awaited (R429) -/
  resync : Bool := false
  /-- learned offset between mains step 0 and the lead's tempo, samples collected, cycles off it (R424) -/
  offset : Option Int := none
  samples : List Int := []
  offRun : Nat := 0
  /-- QUIET was entered and neither a lead nor a follower since (R422); the lead changed and no LEADER came (R421) -/
  quiet : Bool := false
  lost : Bool := false
  /-- members whose generation differs and to which the lead sent its banks (R429) -/
  pushed : List Nat := []
  deriving DecidableEq, Repr


/-! ### Update, homeroom and start-up (R25-R29, R431-R447) -/

/-- What the NOR operations of an update task bring about when the last one has ended. -/
inductive UpdGoal where
  /-- UPD_OPEN: the staging slot is erased and holds the head; the result word -/
  | opened (result : Nat)
  /-- UPD_BLOCK: entry and block -/
  | block (entry n : Nat)
  /-- the TRIAL record of UPD_ACTIVATE stands -/
  | activated
  /-- UPD_ACCEPT's SETTLED record stands: the new floor -/
  | accepted (floor : Nat)
  /-- the SETTLED record of a revert stands -/
  | reverted
  /-- homeroom's FINISH has written its TRIAL record -/
  | finished
  deriving DecidableEq, Repr

/-- Update work on the NOR: its operations still to issue, the ring 11 descriptor or the homeroom SEQ it answers. -/
structure UpdTask where
  goal : UpdGoal
  idx : Option Nat := none
  seq : Option Nat := none
  ops : List NvmOp
  deriving DecidableEq, Repr

/-- Homeroom (R444-R446). -/
structure HomeState where
  /-- 1 BOOTSEL, 2 no slot, 3 tag; any value after a stage that passed its bound -/
  cause : Nat := 0
  /-- a tag request began it -/
  byTag : Bool := false
  /-- SEQ of the last frame taken, and its reply once it is known -/
  last : Option (Nat × Option (List Byte)) := none
  /-- time of the last valid frame, ns -/
  at_ : Nat := 0
  baud : Nat := 115200
  /-- slots A and B passed their checks -/
  passA : Bool := false
  passB : Bool := false
  finished : Bool := false
  deriving DecidableEq, Repr

/-- UPD beyond its registers. -/
structure UpdState where
  /-- the staged package's head, empty for none; the slot it is staged into -/
  head : List Byte := []
  slot : Nat := 1
  /-- blocks programmed completely: (entry, block) -/
  marks : List (Nat × Nat) := []
  tasks : List UpdTask := []
  /-- end of the trial window, ns -/
  trialEnd : Option Nat := none
  /-- cohort activation: the descriptor and the time of the question; members that answered (R442) -/
  preparing : Option (Nat × Nat) := none
  prepared : List Nat := []
  /-- aligned stamp of the activation -/
  activateAt : Option Nat := none
  /-- an accept of the lead that waits for the members' digests -/
  accepting : Option Nat := none
  /-- an activation's record is written and the rings drain before the restart: since when, and the air time then
  (R440) -/
  leaving : Option (Nat × Nat) := none
  /-- the next start follows a revert -/
  reverted : Bool := false
  home : HomeState := {}
  deriving DecidableEq, Repr

/-- Start-up in progress. -/
structure BootState where
  /-- time the running stage began, ns; stage 4 has a time of its own -/
  at_ : Nat := 0
  /-- the 3.3 V rail became stable: start of stage 4's wait, ns -/
  railAt : Option Nat := none
  /-- stage 3 has ended; stage 4 has ended or is not part of this path (R28) -/
  three : Bool := false
  four : Bool := false
  deriving DecidableEq, Repr

/-! ### Envelope, generations, bus, pins, start-up -/

/-- The determinism envelope beyond DEV's registers (R54). -/
structure EnvState where
  seq : Nat := 0
  /-- the 16 records of 16 bytes -/
  log : Store := []
  /-- slots written and not read since -/
  unread : Nat := 0
  /-- causes of condition 2 recorded in this tempo cycle: (cause, unit) -/
  broken2 : List (Nat × Nat) := []
  /-- domains that left on and are not back (condition 5) -/
  dark : List Nat := []
  deriving DecidableEq, Repr

/-- Configuration generations (R45-R49): UGEN of every header, and the commit in progress. -/
structure GenState where
  active : Nat := 0
  pending : Nat := 0
  commit : Option Commit := none
  deriving DecidableEq, Repr

/-- What the last bus access answered. -/
structure BusReply where
  value : Nat := 0
  error : Bool := false
  deriving DecidableEq, Repr

/-- Pads and analogue levels the block reads (R357, R336, R461). -/
structure Pins where
  /-- VMAIN in millivolts -/
  vmain : Nat := 0
  /-- the 3.3 V rail stands above 2.9 V -/
  rail : Bool := false
  nrstLow : Bool := false
  bootsel : Bool := false
  nstat : Bool := true
  deriving DecidableEq, Repr

/-- Start-up (R25-R29): the running stages. -/
inductive Phase where
  /-- no supply, or NRST held -/
  | off
  /-- stage 1, 2 and so on, of Table ARC-8 -/
  | stage (n : Nat)
  | running
  | homeroom
  deriving DecidableEq, Repr

/-- The trace FIFOs of the inspector (R449-R451). -/
structure TraceState where
  /-- packets that wait: (source, kind, payload, local stamp) -/
  fifo : List (Nat × Nat × List Byte × Nat) := []
  /-- packets lost by each source since its last GAP packet, and the step of the first loss -/
  lost : List (Nat × Nat × Nat) := []
  /-- bytes of the packet at the port already sent -/
  sent : Nat := 0
  /-- local stamp of the last packet served -/
  lastStamp : Nat := 0
  /-- the 256 counters, modulo 2^48 (R453), and the high word latched with each low word read -/
  counters : List (Nat × Nat) := []
  latched : List (Nat × Nat) := []
  /-- local cycle of the last counter stream (R454) -/
  streamed : Nat := 0
  deriving DecidableEq, Repr

/-- A record waiting for link firmware to write it to the repair ledger (R456, Table INS-4). -/
structure LedgerRec where
  kind : Nat
  type : Nat
  logical : Nat
  old : Nat
  new : Nat
  cause : Nat
  stamp : Nat
  cal : Nat
  flags : Nat := 0
  deriving DecidableEq, Repr

/-- The repair ledger beyond the NOR bytes (R455-R458). -/
structure LedgerState where
  queue : List LedgerRec := []
  /-- next SEQ, and the next slot: block 0-3 and record within it -/
  seq : Nat := 1
  block : Nat := 0
  slot : Nat := 0
  /-- what is in force: the last record for each TYPE and LOGICAL (SRAM rows by bank and row) -/
  inForce : List LedgerRec := []
  deriving DecidableEq, Repr

/-! ### The state -/

/-- The whole state of the block. -/
structure State where
  clk : Clock := {}
  /-- register words that differ from their reset value, by byte address -/
  regs : List (Nat × Word) := []
  units : List (Nat × UnitRec) := []
  env : EnvState := {}
  gen : GenState := {}
  ring : RingState := {}
  mail : MailState := {}
  ev : EventState := {}
  per : PerState := {}
  cip : CipherState := {}
  ctx : CtxState := {}
  tag : TagState := {}
  tmp : TempoState := {}
  tab : TableState := {}
  cap : CapState := {}
  tx : TxState := {}
  ttb : TtbState := {}
  rx : RxState := {}
  coh : CohState := {}
  upd : UpdState := {}
  boot : BootState := {}
  doms : List (Nat × DomRec) := []
  bkp : BackupState := {}
  cores : List (Nat × CoreState) := []
  mem : MemState := {}
  bus : BusReply := {}
  pins : Pins := {}
  phase : Phase := .off
  trace : TraceState := {}
  ledger : LedgerState := {}
  /-- number of free values drawn so far; indexes `Config.freeValue` -/
  freeCount : Nat := 0
  /-- commands that wait, first in first out -/
  pending : List Instr := []
  deriving DecidableEq, Repr

/-- The state right after reset: unpowered, before start-up. -/
def State.reset : State := {}

end Sys2Proof.Machine
end

