-- ==== Sys2Proof/Machine/RegMap.lean ====
section
/-!
DEFINITION. The register map: every field of every unit register the manual defines, by address and bits,
with its access code (Table DEV-4, R2) and its reset value. `R.<REGISTER>_<FIELD>` names a field. `regRows`
holds the same fields with access codes, page by page. A reset value the manual words as "per part" or
"per domain" is the model's choice (assumption log, entry 5).
-/

namespace Sys2Proof.Machine

/-- Access codes (Table DEV-4). -/
inductive Access where
  | rw | ro | wo | w1c | w1s | rc
  deriving DecidableEq, Repr

/-- One field of a register word: byte address of the word, lowest bit, width. -/
structure Fld where
  addr : Nat
  lsb : Nat
  width : Nat
  deriving DecidableEq, Repr

/-- A field of the map: registers `addr + stride * i`, `i < count`; `reset + inc * i` is its reset value. -/
structure FieldRow where
  addr : Nat
  stride : Nat
  count : Nat
  lsb : Nat
  width : Nat
  acc : Access
  reset : Nat
  inc : Nat
  deriving DecidableEq, Repr


/-! ### HDR -/

def R.UID_TYPE (hdr : Nat) : Fld := ⟨hdr + 0x0, 16, 16⟩
def R.UID_INST (hdr : Nat) : Fld := ⟨hdr + 0x0, 8, 8⟩
def R.UID_HVER (hdr : Nat) : Fld := ⟨hdr + 0x0, 0, 8⟩
def R.USTATE_INFLIGHT (hdr : Nat) : Fld := ⟨hdr + 0x4, 16, 9⟩
def R.USTATE_STATE (hdr : Nat) : Fld := ⟨hdr + 0x4, 0, 3⟩
def R.UCTL_RESET (hdr : Nat) : Fld := ⟨hdr + 0x8, 2, 1⟩
def R.UCTL_DRAIN (hdr : Nat) : Fld := ⟨hdr + 0x8, 1, 1⟩
def R.UCTL_EN (hdr : Nat) : Fld := ⟨hdr + 0x8, 0, 1⟩
def R.ULAPSE_BOUND (hdr : Nat) : Fld := ⟨hdr + 0xC, 0, 32⟩
def R.ULAPCNT_WINDOW (hdr : Nat) : Fld := ⟨hdr + 0x10, 16, 4⟩
def R.ULAPCNT_TOTAL (hdr : Nat) : Fld := ⟨hdr + 0x10, 0, 16⟩
def R.UGEN_PENDING (hdr : Nat) : Fld := ⟨hdr + 0x14, 16, 16⟩
def R.UGEN_ACTIVE (hdr : Nat) : Fld := ⟨hdr + 0x14, 0, 16⟩
def R.UFAULT_DETAIL (hdr : Nat) : Fld := ⟨hdr + 0x18, 16, 16⟩
def R.UFAULT_DEGRADED (hdr : Nat) : Fld := ⟨hdr + 0x18, 8, 1⟩
def R.UFAULT_CODE (hdr : Nat) : Fld := ⟨hdr + 0x18, 0, 8⟩
def R.UPARENT_PARENT (hdr : Nat) : Fld := ⟨hdr + 0x1C, 0, 32⟩
def R.UCHILD_COUNT (hdr : Nat) : Fld := ⟨hdr + 0x20, 16, 8⟩
def R.UCHILD_TABLE (hdr : Nat) : Fld := ⟨hdr + 0x20, 0, 12⟩
def R.UOWNER_P (hdr : Nat) : Fld := ⟨hdr + 0x24, 8, 1⟩
def R.UOWNER_OWNER (hdr : Nat) : Fld := ⟨hdr + 0x24, 0, 8⟩

/-! ### DEV -/

def R.DEV_STATUS_BROKEN : Fld := ⟨0x40000040, 8, 5⟩
def R.DEV_STATUS_READY : Fld := ⟨0x40000040, 0, 1⟩
def R.DEV_ESCWIN_SECONDS : Fld := ⟨0x40000044, 0, 12⟩
def R.DEV_RESTART_ESCTYPE : Fld := ⟨0x40000048, 16, 16⟩
def R.DEV_RESTART_WARM : Fld := ⟨0x40000048, 8, 8⟩
def R.DEV_RESTART_CAUSE : Fld := ⟨0x40000048, 0, 4⟩
def R.DEV_ACCESS_LAST : Fld := ⟨0x4000004C, 16, 8⟩
def R.DEV_ACCESS_COUNT : Fld := ⟨0x4000004C, 0, 16⟩
def R.DEV_ENVLOG_LOST : Fld := ⟨0x40000050, 8, 8⟩
def R.DEV_ENVLOG_NEXT : Fld := ⟨0x40000050, 0, 4⟩
def R.DEV_NOTIFY_EN : Fld := ⟨0x40000054, 4, 1⟩
def R.DEV_NOTIFY_AGENT : Fld := ⟨0x40000054, 0, 4⟩
def R.DEV_RETIRE_LAPSES : Fld := ⟨0x40000058, 0, 4⟩

/-! ### TMP -/

def R.TMP_STATUS_LSTAGE : Fld := ⟨0x40003040, 8, 2⟩
def R.TMP_STATUS_ACQ : Fld := ⟨0x40003040, 6, 1⟩
def R.TMP_STATUS_PROVISIONAL : Fld := ⟨0x40003040, 5, 1⟩
def R.TMP_STATUS_ALIGNED : Fld := ⟨0x40003040, 4, 1⟩
def R.TMP_STATUS_VALID : Fld := ⟨0x40003040, 3, 1⟩
def R.TMP_STATUS_STATE : Fld := ⟨0x40003040, 0, 3⟩
def R.TMP_LOCAL_LO_CYCLE_L : Fld := ⟨0x40003044, 16, 16⟩
def R.TMP_LOCAL_LO_STEP : Fld := ⟨0x40003044, 0, 16⟩
def R.TMP_LOCAL_HI_CYCLE_H : Fld := ⟨0x40003048, 0, 24⟩
def R.TMP_OFFSET_LEARNED : Fld := ⟨0x40003054, 31, 1⟩
def R.TMP_OFFSET_FRAC : Fld := ⟨0x40003054, 16, 4⟩
def R.TMP_OFFSET_STEPS : Fld := ⟨0x40003054, 0, 16⟩
def R.TMP_OFFCTL_HOLD : Fld := ⟨0x40003058, 31, 1⟩
def R.TMP_OFFCTL_JUMPTOL : Fld := ⟨0x40003058, 16, 12⟩
def R.TMP_OFFCTL_TRACK : Fld := ⟨0x40003058, 8, 4⟩
def R.TMP_OFFCTL_SPREAD : Fld := ⟨0x40003058, 0, 8⟩
def R.TMP_RATE_RATE : Fld := ⟨0x4000305C, 0, 32⟩
def R.TMP_CFG_ROOT : Fld := ⟨0x40003060, 1, 1⟩
def R.TMP_CFG_NOM60 : Fld := ⟨0x40003060, 0, 1⟩
def R.TMP_UNCERT_U : Fld := ⟨0x40003064, 0, 32⟩
def R.TMP_FLYCFG_KPPM : Fld := ⟨0x40003068, 16, 12⟩
def R.TMP_FLYCFG_PPM : Fld := ⟨0x40003068, 0, 12⟩
def R.TMP_FLYLIM_CYCLES : Fld := ⟨0x4000306C, 0, 16⟩
def R.TMP_SLEW_RATE : Fld := ⟨0x40003070, 16, 8⟩
def R.TMP_SLEW_LIMIT : Fld := ⟨0x40003070, 0, 16⟩
def R.TMP_GUARD_STEPS : Fld := ⟨0x40003074, 0, 16⟩
def R.TMP_SETCYC_LO_CYC_L : Fld := ⟨0x40003078, 0, 32⟩
def R.TMP_SETCYC_HI_CYC_H : Fld := ⟨0x4000307C, 0, 8⟩
def R.TMP_LASTJUMP_D : Fld := ⟨0x40003080, 0, 32⟩
def R.TMP_COUNTS_NOTELOST : Fld := ⟨0x40003084, 24, 8⟩
def R.TMP_COUNTS_ACKIGN : Fld := ⟨0x40003084, 16, 8⟩
def R.TMP_COUNTS_OUTLIER : Fld := ⟨0x40003084, 0, 16⟩
def R.TMP_ALM_0_CMP_L (n : Nat) : Fld := ⟨0x40003100 + 0x10 * n, 0, 32⟩
def R.TMP_ALM_4_CMP_H (n : Nat) : Fld := ⟨0x40003104 + 0x10 * n, 0, 24⟩
def R.TMP_ALM_8_PER_C (n : Nat) : Fld := ⟨0x40003108 + 0x10 * n, 16, 16⟩
def R.TMP_ALM_8_PER_S (n : Nat) : Fld := ⟨0x40003108 + 0x10 * n, 0, 16⟩
def R.TMP_ALM_C_MISSED (n : Nat) : Fld := ⟨0x4000310C + 0x10 * n, 10, 1⟩
def R.TMP_ALM_C_SKIPPED (n : Nat) : Fld := ⟨0x4000310C + 0x10 * n, 9, 1⟩
def R.TMP_ALM_C_FIRED (n : Nat) : Fld := ⟨0x4000310C + 0x10 * n, 8, 1⟩
def R.TMP_ALM_C_NOTE (n : Nat) : Fld := ⟨0x4000310C + 0x10 * n, 1, 1⟩
def R.TMP_ALM_C_EN (n : Nat) : Fld := ⟨0x4000310C + 0x10 * n, 0, 1⟩

/-! ### MSN -/

def R.MSN_CTL_NOMV : Fld := ⟨0x40004040, 16, 10⟩
def R.MSN_CTL_EN : Fld := ⟨0x40004040, 0, 1⟩
def R.MSN_THR_HYST : Fld := ⟨0x40004044, 24, 4⟩
def R.MSN_THR_INTR : Fld := ⟨0x40004044, 16, 8⟩
def R.MSN_THR_SWELL : Fld := ⟨0x40004044, 8, 8⟩
def R.MSN_THR_SAG : Fld := ⟨0x40004044, 0, 8⟩
def R.MSN_VRMS_CYCLE : Fld := ⟨0x40004048, 16, 16⟩
def R.MSN_VRMS_RMS : Fld := ⟨0x40004048, 0, 16⟩
def R.MSN_FREQ_MHZ : Fld := ⟨0x4000404C, 0, 17⟩
def R.MSN_THD_THD : Fld := ⟨0x40004050, 0, 10⟩
def R.MSN_STATUS_DISTORT : Fld := ⟨0x40004054, 2, 1⟩
def R.MSN_STATUS_RANGE : Fld := ⟨0x40004054, 1, 1⟩
def R.MSN_STATUS_PRESENT : Fld := ⟨0x40004054, 0, 1⟩

/-! ### RNG -/

def R.RNG_STATUS_INFLIGHT : Fld := ⟨0x40005040, 16, 9⟩
def R.RNG_STATUS_CREDSUM : Fld := ⟨0x40005040, 0, 9⟩
def R.RNG_EARLY_COUNT : Fld := ⟨0x40005044, 0, 16⟩
def R.RNG_SETERR_COUNT : Fld := ⟨0x40005048, 8, 8⟩
def R.RNG_SETERR_CAUSE : Fld := ⟨0x40005048, 4, 4⟩
def R.RNG_SETERR_RING : Fld := ⟨0x40005048, 0, 4⟩
def R.RNG_SQBASE_ADDR (n : Nat) : Fld := ⟨0x40005100 + 0x40 * n, 5, 27⟩
def R.RNG_CQBASE_ADDR (n : Nat) : Fld := ⟨0x40005104 + 0x40 * n, 4, 28⟩
def R.RNG_CFG_CREDIT (n : Nat) : Fld := ⟨0x40005108 + 0x40 * n, 8, 7⟩
def R.RNG_CFG_LOG2 (n : Nat) : Fld := ⟨0x40005108 + 0x40 * n, 4, 4⟩
def R.RNG_CFG_CEV (n : Nat) : Fld := ⟨0x40005108 + 0x40 * n, 2, 2⟩
def R.RNG_CFG_ORDER (n : Nat) : Fld := ⟨0x40005108 + 0x40 * n, 1, 1⟩
def R.RNG_CFG_EN (n : Nat) : Fld := ⟨0x40005108 + 0x40 * n, 0, 1⟩
def R.RNG_OWN_P (n : Nat) : Fld := ⟨0x4000510C + 0x40 * n, 8, 1⟩
def R.RNG_OWN_OWNER (n : Nat) : Fld := ⟨0x4000510C + 0x40 * n, 0, 8⟩
def R.RNG_SQPROD_PROD (n : Nat) : Fld := ⟨0x40005110 + 0x40 * n, 0, 16⟩
def R.RNG_SQCONS_CONS (n : Nat) : Fld := ⟨0x40005114 + 0x40 * n, 0, 16⟩
def R.RNG_CQPROD_PROD (n : Nat) : Fld := ⟨0x40005118 + 0x40 * n, 0, 16⟩
def R.RNG_CQCONS_CONS (n : Nat) : Fld := ⟨0x4000511C + 0x40 * n, 0, 16⟩
def R.RNG_STAT_DRAIN_DONE (n : Nat) : Fld := ⟨0x40005120 + 0x40 * n, 20, 1⟩
def R.RNG_STAT_RETERR (n : Nat) : Fld := ⟨0x40005120 + 0x40 * n, 19, 1⟩
def R.RNG_STAT_OVERCREDIT (n : Nat) : Fld := ⟨0x40005120 + 0x40 * n, 18, 1⟩
def R.RNG_STAT_CQFULL (n : Nat) : Fld := ⟨0x40005120 + 0x40 * n, 17, 1⟩
def R.RNG_STAT_DBERR (n : Nat) : Fld := ⟨0x40005120 + 0x40 * n, 16, 1⟩
def R.RNG_STAT_HELD (n : Nat) : Fld := ⟨0x40005120 + 0x40 * n, 8, 8⟩
def R.RNG_STAT_MEMOFF (n : Nat) : Fld := ⟨0x40005120 + 0x40 * n, 7, 1⟩
def R.RNG_STAT_INFLIGHT (n : Nat) : Fld := ⟨0x40005120 + 0x40 * n, 0, 7⟩
def R.RNG_SRV_EN (n : Nat) : Fld := ⟨0x40005124 + 0x40 * n, 8, 1⟩
def R.RNG_SRV_AGENT (n : Nat) : Fld := ⟨0x40005124 + 0x40 * n, 0, 4⟩
def R.RNG_RET_STATUS (n : Nat) : Fld := ⟨0x40005128 + 0x40 * n, 24, 8⟩
def R.RNG_RET_INDEX (n : Nat) : Fld := ⟨0x40005128 + 0x40 * n, 0, 16⟩
def R.RNG_RETRES_RESULT (n : Nat) : Fld := ⟨0x4000512C + 0x40 * n, 0, 32⟩

/-! ### MBX -/

def R.MBX_COUNTS_NOROUTE : Fld := ⟨0x40006040, 24, 8⟩
def R.MBX_COUNTS_BADDEST : Fld := ⟨0x40006040, 16, 8⟩
def R.MBX_COUNTS_REFUSED : Fld := ⟨0x40006040, 0, 16⟩
def R.MBX_SPTR_PTR (n : Nat) : Fld := ⟨0x40006100 + 0x20 * n, 0, 32⟩
def R.MBX_SCTL_DEVICE (n : Nat) : Fld := ⟨0x40006104 + 0x20 * n, 20, 4⟩
def R.MBX_SCTL_DEST (n : Nat) : Fld := ⟨0x40006104 + 0x20 * n, 16, 4⟩
def R.MBX_SCTL_TAG (n : Nat) : Fld := ⟨0x40006104 + 0x20 * n, 0, 16⟩
def R.MBX_SSTAT_BADDEST (n : Nat) : Fld := ⟨0x40006108 + 0x20 * n, 3, 1⟩
def R.MBX_SSTAT_NOROUTE (n : Nat) : Fld := ⟨0x40006108 + 0x20 * n, 2, 1⟩
def R.MBX_SSTAT_REFUSED (n : Nat) : Fld := ⟨0x40006108 + 0x20 * n, 1, 1⟩
def R.MBX_SSTAT_BUSY (n : Nat) : Fld := ⟨0x40006108 + 0x20 * n, 0, 1⟩
def R.MBX_RLO_PTR (n : Nat) : Fld := ⟨0x40006400 + 0x40 * n, 0, 32⟩
def R.MBX_RHI_NOTICE_H (n : Nat) : Fld := ⟨0x40006404 + 0x40 * n, 0, 32⟩
def R.MBX_RPEND_PEND (n : Nat) : Fld := ⟨0x40006408 + 0x40 * n, 0, 16⟩
def R.MBX_RLOST_LOST (n : Nat) : Fld := ⟨0x4000640C + 0x40 * n, 0, 16⟩

/-! ### CAP -/

def R.CAP_STATUS_DESENSE : Fld := ⟨0x40020040, 24, 8⟩
def R.CAP_STATUS_GAIN : Fld := ⟨0x40020040, 16, 6⟩
def R.CAP_STATUS_RECAL : Fld := ⟨0x40020040, 5, 1⟩
def R.CAP_STATUS_REC : Fld := ⟨0x40020040, 4, 1⟩
def R.CAP_STATUS_CLIP : Fld := ⟨0x40020040, 3, 1⟩
def R.CAP_STATUS_BLANK : Fld := ⟨0x40020040, 2, 1⟩
def R.CAP_STATUS_CALRUN : Fld := ⟨0x40020040, 1, 1⟩
def R.CAP_STATUS_READY : Fld := ⟨0x40020040, 0, 1⟩
def R.CAP_CTL_FIXGAIN : Fld := ⟨0x40020044, 8, 6⟩
def R.CAP_CTL_FIXED : Fld := ⟨0x40020044, 0, 1⟩
def R.CAP_AGC_RELMS : Fld := ⟨0x40020048, 16, 8⟩
def R.CAP_AGC_LOW : Fld := ⟨0x40020048, 8, 8⟩
def R.CAP_AGC_HIGH : Fld := ⟨0x40020048, 0, 8⟩
def R.CAP_PEAK_CYCLE : Fld := ⟨0x4002004C, 16, 16⟩
def R.CAP_PEAK_LEVEL : Fld := ⟨0x4002004C, 0, 16⟩
def R.CAP_FLOOR_CYCLE : Fld := ⟨0x40020050, 16, 16⟩
def R.CAP_FLOOR_FLOOR : Fld := ⟨0x40020050, 0, 16⟩
def R.CAP_CALREQ_FORCE : Fld := ⟨0x40020054, 8, 1⟩
def R.CAP_CALREQ_ITEMS : Fld := ⟨0x40020054, 0, 6⟩
def R.CAP_CALSTAT_FAIL : Fld := ⟨0x40020058, 24, 6⟩
def R.CAP_CALSTAT_DONE : Fld := ⟨0x40020058, 16, 6⟩
def R.CAP_CALSTAT_PEND : Fld := ⟨0x40020058, 8, 6⟩
def R.CAP_CALSTAT_FORCED : Fld := ⟨0x40020058, 4, 1⟩
def R.CAP_CALSTAT_SLICES : Fld := ⟨0x40020058, 0, 4⟩
def R.CAP_CALCTL_RECALT : Fld := ⟨0x4002005C, 16, 8⟩
def R.CAP_CALCTL_WAIT : Fld := ⟨0x4002005C, 0, 16⟩
def R.CAP_TEMP_TEMP : Fld := ⟨0x40020060, 0, 8⟩
def R.CAP_COUNTS_CLIPBLK : Fld := ⟨0x40020064, 16, 16⟩
def R.CAP_COUNTS_SLICES : Fld := ⟨0x40020064, 8, 8⟩
def R.CAP_COUNTS_CALFAIL : Fld := ⟨0x40020064, 0, 8⟩
def R.CAP_WINDOW_VARIANT : Fld := ⟨0x40020068, 31, 1⟩
def R.CAP_WINDOW_CENTRE : Fld := ⟨0x40020068, 0, 20⟩
def R.CAP_CALINV_ALL : Fld := ⟨0x4002006C, 31, 1⟩
def R.CAP_CALINV_INDEX : Fld := ⟨0x4002006C, 0, 8⟩

/-! ### HNT -/

def R.HNT_STATUS_ACTIVE : Fld := ⟨0x40021040, 16, 10⟩
def R.HNT_STATUS_INACTIVE : Fld := ⟨0x40021040, 0, 10⟩
def R.HNT_THR_DEFAULT : Fld := ⟨0x40021044, 0, 8⟩
def R.HNT_LOSTA_P1 : Fld := ⟨0x40021048, 16, 16⟩
def R.HNT_LOSTA_P0 : Fld := ⟨0x40021048, 0, 16⟩
def R.HNT_LOSTB_P3 : Fld := ⟨0x4002104C, 16, 16⟩
def R.HNT_LOSTB_P2 : Fld := ⟨0x4002104C, 0, 16⟩
def R.HNT_PREEMPT_DUPSUP : Fld := ⟨0x40021050, 16, 16⟩
def R.HNT_PREEMPT_PREEMPT : Fld := ⟨0x40021050, 0, 16⟩
def R.HNT_REJ_MARKREJ : Fld := ⟨0x40021054, 16, 16⟩
def R.HNT_REJ_NOSYNC : Fld := ⟨0x40021054, 0, 16⟩
def R.HNT_HDR_HDRFAIL : Fld := ⟨0x40021058, 16, 16⟩
def R.HNT_HDR_WATCHCHG : Fld := ⟨0x40021058, 0, 16⟩
def R.HNT_DETS_COUNT : Fld := ⟨0x4002105C, 0, 32⟩
def R.HNT_ACK_ACTIVE : Fld := ⟨0x40021060, 16, 4⟩
def R.HNT_ACK_ACKLOST : Fld := ⟨0x40021060, 0, 16⟩

/-! ### LNS -/

def R.LNS_STATUS_SPARES : Fld := ⟨0x40022040, 16, 4⟩
def R.LNS_STATUS_INSERVICE : Fld := ⟨0x40022040, 8, 7⟩
def R.LNS_STATUS_BUSY : Fld := ⟨0x40022040, 0, 7⟩
def R.LNS_BUSY0_BUSY : Fld := ⟨0x40022044, 0, 32⟩
def R.LNS_BUSY1_BUSY : Fld := ⟨0x40022048, 0, 32⟩
def R.LNS_PAY0_PAY : Fld := ⟨0x4002204C, 0, 32⟩
def R.LNS_PAY1_PAY : Fld := ⟨0x40022050, 0, 32⟩
def R.LNS_BIST_FAILS : Fld := ⟨0x40022054, 24, 8⟩
def R.LNS_BIST_PERIOD : Fld := ⟨0x40022054, 0, 16⟩
def R.LNS_COUNTS_ERASED : Fld := ⟨0x40022058, 16, 16⟩
def R.LNS_COUNTS_FRAMES : Fld := ⟨0x40022058, 0, 16⟩
def R.LNS_MAP_INSERVICE (n : Nat) : Fld := ⟨0x40022100 + 0x4 * n, 31, 1⟩
def R.LNS_MAP_PHYS (n : Nat) : Fld := ⟨0x40022100 + 0x4 * n, 0, 7⟩

/-! ### LANE -/

def R.LANE_STATE_PRIO (n : Nat) : Fld := ⟨0x40100040 + 0x100 * n, 27, 3⟩
def R.LANE_STATE_ENTRY (n : Nat) : Fld := ⟨0x40100040 + 0x100 * n, 16, 9⟩
def R.LANE_STATE_LOGICAL (n : Nat) : Fld := ⟨0x40100040 + 0x100 * n, 8, 7⟩
def R.LANE_STATE_PHASE (n : Nat) : Fld := ⟨0x40100040 + 0x100 * n, 0, 3⟩
def R.LANE_DET_CYCLE (n : Nat) : Fld := ⟨0x40100044 + 0x100 * n, 16, 16⟩
def R.LANE_DET_STEP (n : Nat) : Fld := ⟨0x40100044 + 0x100 * n, 0, 16⟩
def R.LANE_SYMS_ERASED (n : Nat) : Fld := ⟨0x40100048 + 0x100 * n, 16, 16⟩
def R.LANE_SYMS_DONE (n : Nat) : Fld := ⟨0x40100048 + 0x100 * n, 0, 16⟩
def R.LANE_TOTAL_FRAMES (n : Nat) : Fld := ⟨0x4010004C + 0x100 * n, 0, 32⟩

/-! ### DEC -/

def R.DEC_STATUS_SPARES : Fld := ⟨0x40023040, 16, 4⟩
def R.DEC_STATUS_INSERVICE : Fld := ⟨0x40023040, 8, 3⟩
def R.DEC_STATUS_QUEUE : Fld := ⟨0x40023040, 0, 8⟩
def R.DEC_ITER_MIN : Fld := ⟨0x40023044, 8, 5⟩
def R.DEC_ITER_MAX : Fld := ⟨0x40023044, 0, 5⟩
def R.DEC_DEADLINE_US : Fld := ⟨0x40023048, 0, 11⟩
def R.DEC_CFG_COMBWAIT : Fld := ⟨0x4002304C, 16, 8⟩
def R.DEC_CFG_MAXCAND : Fld := ⟨0x4002304C, 8, 3⟩
def R.DEC_CFG_ATTR : Fld := ⟨0x4002304C, 0, 8⟩
def R.DEC_SBBASE_ADDR : Fld := ⟨0x40023050, 6, 26⟩
def R.DEC_SBBASE_EN : Fld := ⟨0x40023050, 0, 1⟩
def R.DEC_SBLIFE_CYCLES : Fld := ⟨0x40023054, 0, 16⟩
def R.DEC_BLOCKS_COUNT : Fld := ⟨0x40023058, 0, 32⟩
def R.DEC_FAILS_CRCFAIL : Fld := ⟨0x4002305C, 16, 16⟩
def R.DEC_FAILS_BLKFAIL : Fld := ⟨0x4002305C, 0, 16⟩
def R.DEC_SHED_LATE : Fld := ⟨0x40023060, 16, 16⟩
def R.DEC_SHED_SHED : Fld := ⟨0x40023060, 0, 16⟩
def R.DEC_IRCNT_AMBIG : Fld := ⟨0x40023064, 24, 8⟩
def R.DEC_IRCNT_ORPHAN : Fld := ⟨0x40023064, 16, 8⟩
def R.DEC_IRCNT_COMBLATE : Fld := ⟨0x40023064, 8, 8⟩
def R.DEC_IRCNT_EXPIRED : Fld := ⟨0x40023064, 0, 8⟩
def R.DEC_SBSTAT_DECODED : Fld := ⟨0x40023068, 16, 10⟩
def R.DEC_SBSTAT_KEPT : Fld := ⟨0x40023068, 0, 10⟩
def R.DEC_ITERSUM_COUNT : Fld := ⟨0x4002306C, 0, 32⟩
def R.DEC_MAP_INSERVICE (n : Nat) : Fld := ⟨0x40023100 + 0x4 * n, 31, 1⟩
def R.DEC_MAP_PHYS (n : Nat) : Fld := ⟨0x40023100 + 0x4 * n, 0, 3⟩

/-! ### TXU -/

def R.TXU_STATUS_QUEUE : Fld := ⟨0x40024040, 16, 8⟩
def R.TXU_STATUS_ENTRY : Fld := ⟨0x40024040, 8, 8⟩
def R.TXU_STATUS_EXPECT : Fld := ⟨0x40024040, 3, 1⟩
def R.TXU_STATUS_PHASE : Fld := ⟨0x40024040, 0, 3⟩
def R.TXU_LEAD_STEPS : Fld := ⟨0x40024044, 0, 13⟩
def R.TXU_ACKCFG_PASCHED : Fld := ⟨0x40024048, 1, 2⟩
def R.TXU_ACKCFG_EXTPA : Fld := ⟨0x40024048, 0, 1⟩
def R.TXU_FRAMES_COUNT : Fld := ⟨0x4002404C, 0, 32⟩
def R.TXU_LATE_FORCED : Fld := ⟨0x40024050, 16, 16⟩
def R.TXU_LATE_SLIP : Fld := ⟨0x40024050, 0, 16⟩
def R.TXU_ACKS_SUPCAL : Fld := ⟨0x40024054, 24, 8⟩
def R.TXU_ACKS_CLASH : Fld := ⟨0x40024054, 16, 8⟩
def R.TXU_ACKS_SENT : Fld := ⟨0x40024054, 0, 16⟩
def R.TXU_LASTSOF_CYCLE : Fld := ⟨0x40024058, 16, 16⟩
def R.TXU_LASTSOF_STEP : Fld := ⟨0x40024058, 0, 16⟩
def R.TXU_PINS_TRSW : Fld := ⟨0x4002405C, 3, 1⟩
def R.TXU_PINS_LNAEN : Fld := ⟨0x4002405C, 2, 1⟩
def R.TXU_PINS_PABYP : Fld := ⟨0x4002405C, 1, 1⟩
def R.TXU_PINS_PAEN : Fld := ⟨0x4002405C, 0, 1⟩

/-! ### SYN -/

def R.SYN_STATUS_ENTRY : Fld := ⟨0x40025040, 16, 8⟩
def R.SYN_STATUS_FORCED : Fld := ⟨0x40025040, 4, 1⟩
def R.SYN_STATUS_CALRUN : Fld := ⟨0x40025040, 3, 1⟩
def R.SYN_STATUS_READY : Fld := ⟨0x40025040, 2, 1⟩
def R.SYN_STATUS_TUNED : Fld := ⟨0x40025040, 1, 1⟩
def R.SYN_STATUS_LOCK : Fld := ⟨0x40025040, 0, 1⟩
def R.SYN_CALREQ_FORCE : Fld := ⟨0x40025044, 8, 1⟩
def R.SYN_CALREQ_ITEMS : Fld := ⟨0x40025044, 0, 4⟩
def R.SYN_CALSTAT_FAIL : Fld := ⟨0x40025048, 24, 4⟩
def R.SYN_CALSTAT_DONE : Fld := ⟨0x40025048, 16, 4⟩
def R.SYN_CALSTAT_PEND : Fld := ⟨0x40025048, 12, 4⟩
def R.SYN_CALSTAT_SLICES : Fld := ⟨0x40025048, 0, 9⟩
def R.SYN_CALCTL_RECALT : Fld := ⟨0x4002504C, 16, 8⟩
def R.SYN_CALCTL_WAIT : Fld := ⟨0x4002504C, 0, 16⟩
def R.SYN_CALINV_ALL : Fld := ⟨0x40025050, 31, 1⟩
def R.SYN_CALINV_INDEX : Fld := ⟨0x40025050, 0, 8⟩
def R.SYN_PWRCHK_TEMP : Fld := ⟨0x40025054, 24, 8⟩
def R.SYN_PWRCHK_VALID : Fld := ⟨0x40025054, 16, 1⟩
def R.SYN_PWRCHK_CORR : Fld := ⟨0x40025054, 0, 16⟩
def R.SYN_PARK_STEPS : Fld := ⟨0x40025058, 0, 16⟩
def R.SYN_FREQ_HZ : Fld := ⟨0x4002505C, 0, 32⟩
def R.SYN_COUNTS_UNLOCK : Fld := ⟨0x40025060, 24, 8⟩
def R.SYN_COUNTS_NOLOCK : Fld := ⟨0x40025060, 16, 8⟩
def R.SYN_COUNTS_ABANDON : Fld := ⟨0x40025060, 8, 8⟩
def R.SYN_COUNTS_CALFAIL : Fld := ⟨0x40025060, 0, 8⟩

/-! ### LNK -/

def R.LNK_STATUS_PARTNERS : Fld := ⟨0x40026040, 16, 10⟩
def R.LNK_STATUS_GROUPS : Fld := ⟨0x40026040, 8, 5⟩
def R.LNK_STATUS_EXHAUST : Fld := ⟨0x40026040, 0, 1⟩
def R.LNK_ADDR_VALID : Fld := ⟨0x40026044, 16, 1⟩
def R.LNK_ADDR_SHORT : Fld := ⟨0x40026044, 0, 16⟩
def R.LNK_LONG_LO_LONG : Fld := ⟨0x40026048, 0, 32⟩
def R.LNK_LONG_HI_LONG : Fld := ⟨0x4002604C, 0, 32⟩
def R.LNK_CFG_ACKPWR : Fld := ⟨0x40026050, 24, 6⟩
def R.LNK_CFG_RPTREJ : Fld := ⟨0x40026050, 16, 3⟩
def R.LNK_CFG_UNKKEEP : Fld := ⟨0x40026050, 3, 1⟩
def R.LNK_CFG_JOINACK : Fld := ⟨0x40026050, 2, 1⟩
def R.LNK_CFG_JOINOPEN : Fld := ⟨0x40026050, 1, 1⟩
def R.LNK_CFG_ACKEN : Fld := ⟨0x40026050, 0, 1⟩
def R.LNK_RETRY_GAP : Fld := ⟨0x40026054, 0, 16⟩
def R.LNK_CORR_MARGIN : Fld := ⟨0x40026058, 0, 16⟩
def R.LNK_RXOK_COUNT : Fld := ⟨0x4002605C, 0, 32⟩
def R.LNK_REJ_GENMIS : Fld := ⟨0x40026060, 24, 8⟩
def R.LNK_REJ_MICFAIL : Fld := ⟨0x40026060, 16, 8⟩
def R.LNK_REJ_DUP : Fld := ⟨0x40026060, 8, 8⟩
def R.LNK_REJ_REPLAY : Fld := ⟨0x40026060, 0, 8⟩
def R.LNK_DROP_MALF : Fld := ⟨0x40026064, 24, 8⟩
def R.LNK_DROP_NOBUF : Fld := ⟨0x40026064, 16, 8⟩
def R.LNK_DROP_UNKNOWN : Fld := ⟨0x40026064, 8, 8⟩
def R.LNK_DROP_NOTME : Fld := ⟨0x40026064, 0, 8⟩
def R.LNK_DSN_GAP : Fld := ⟨0x40026068, 16, 16⟩
def R.LNK_DSN_DUP : Fld := ⟨0x40026068, 0, 16⟩
def R.LNK_TX_KEEPRX : Fld := ⟨0x4002606C, 16, 16⟩
def R.LNK_TX_NOACK : Fld := ⟨0x4002606C, 0, 16⟩
def R.LNK_ACK_CORRIGN : Fld := ⟨0x40026070, 24, 8⟩
def R.LNK_ACK_KEEPDEC : Fld := ⟨0x40026070, 16, 8⟩
def R.LNK_ACK_KEEPSENT : Fld := ⟨0x40026070, 8, 8⟩
def R.LNK_ACK_ACKBAD : Fld := ⟨0x40026070, 0, 8⟩
def R.LNK_CTXSEL_GROUP : Fld := ⟨0x40026080, 10, 1⟩
def R.LNK_CTXSEL_CTX : Fld := ⟨0x40026080, 0, 10⟩

/-! ### TTB -/

def R.TTB_STATUS_BELLSRC : Fld := ⟨0x40027040, 8, 2⟩
def R.TTB_STATUS_REENTRY : Fld := ⟨0x40027040, 4, 1⟩
def R.TTB_STATUS_WINDOW : Fld := ⟨0x40027040, 3, 1⟩
def R.TTB_STATUS_LGARMED : Fld := ⟨0x40027040, 2, 1⟩
def R.TTB_STATUS_ENFORCE : Fld := ⟨0x40027040, 1, 1⟩
def R.TTB_STATUS_RUNNING : Fld := ⟨0x40027040, 0, 1⟩
def R.TTB_LASTBELL_TTGEN : Fld := ⟨0x40027044, 8, 16⟩
def R.TTB_LASTBELL_DEPTH : Fld := ⟨0x40027044, 0, 8⟩
def R.TTB_BELLCYC_CYCLE : Fld := ⟨0x40027048, 0, 32⟩
def R.TTB_TRACK_SEL : Fld := ⟨0x4002704C, 0, 2⟩
def R.TTB_WIDTH_W : Fld := ⟨0x40027050, 0, 32⟩
def R.TTB_RC_MISSES : Fld := ⟨0x40027054, 0, 4⟩
def R.TTB_LG_AHEAD : Fld := ⟨0x40027058, 0, 16⟩
def R.TTB_LGSTAT_AIR : Fld := ⟨0x4002705C, 16, 16⟩
def R.TTB_LGSTAT_TRIGGERED : Fld := ⟨0x4002705C, 3, 1⟩
def R.TTB_LGSTAT_SENT : Fld := ⟨0x4002705C, 2, 1⟩
def R.TTB_LGSTAT_GUAR : Fld := ⟨0x4002705C, 1, 1⟩
def R.TTB_LGSTAT_ARMED : Fld := ⟨0x4002705C, 0, 1⟩
def R.TTB_LGCTR_CTR : Fld := ⟨0x40027060, 0, 32⟩
def R.TTB_BELLS_TAKEN : Fld := ⟨0x40027064, 16, 16⟩
def R.TTB_BELLS_SKIP : Fld := ⟨0x40027064, 8, 8⟩
def R.TTB_BELLS_MISMATCH : Fld := ⟨0x40027064, 0, 8⟩
def R.TTB_BELLSENT_COUNT : Fld := ⟨0x40027068, 0, 32⟩
def R.TTB_COUNTS_NOTELOST : Fld := ⟨0x4002706C, 24, 8⟩
def R.TTB_COUNTS_QUIETACK : Fld := ⟨0x4002706C, 16, 8⟩
def R.TTB_COUNTS_ACKSUP : Fld := ⟨0x4002706C, 8, 8⟩
def R.TTB_COUNTS_BUDGET : Fld := ⟨0x4002706C, 0, 8⟩
def R.TTB_TXCOUNTS_NOSLOT : Fld := ⟨0x40027070, 16, 16⟩
def R.TTB_TXCOUNTS_QUIETHOLD : Fld := ⟨0x40027070, 0, 16⟩
def R.TTB_AIR_0_FRAME (n : Nat) : Fld := ⟨0x40027100 + 0x8 * n, 0, 32⟩
def R.TTB_AIR_4_ACK (n : Nat) : Fld := ⟨0x40027104 + 0x8 * n, 0, 32⟩

/-! ### CIP -/

def R.CIP_STATUS_SPARES : Fld := ⟨0x40028040, 24, 4⟩
def R.CIP_STATUS_INSERVICE : Fld := ⟨0x40028040, 16, 2⟩
def R.CIP_STATUS_LOADED : Fld := ⟨0x40028040, 0, 11⟩
def R.CIP_KEYSEL_USES : Fld := ⟨0x40028044, 16, 5⟩
def R.CIP_KEYSEL_SIZE : Fld := ⟨0x40028044, 12, 1⟩
def R.CIP_KEYSEL_SLOT : Fld := ⟨0x40028044, 0, 10⟩
def R.CIP_KEYCMD_CMD : Fld := ⟨0x40028048, 0, 2⟩
def R.CIP_KEYSTAT_CAUSE : Fld := ⟨0x4002804C, 20, 4⟩
def R.CIP_KEYSTAT_REFUSED : Fld := ⟨0x4002804C, 8, 8⟩
def R.CIP_KEYSTAT_OK : Fld := ⟨0x4002804C, 0, 1⟩
def R.CIP_KEYINFO_LOADED : Fld := ⟨0x40028050, 31, 1⟩
def R.CIP_KEYINFO_SIZE : Fld := ⟨0x40028050, 30, 1⟩
def R.CIP_KEYINFO_USES : Fld := ⟨0x40028050, 24, 5⟩
def R.CIP_KEYINFO_KCV : Fld := ⟨0x40028050, 0, 24⟩
def R.CIP_JOBS_COUNT : Fld := ⟨0x40028054, 0, 32⟩
def R.CIP_FAILS_UNWRAP : Fld := ⟨0x40028058, 24, 8⟩
def R.CIP_FAILS_IVEXH : Fld := ⟨0x40028058, 16, 8⟩
def R.CIP_FAILS_MICFAIL : Fld := ⟨0x40028058, 8, 8⟩
def R.CIP_FAILS_LATE : Fld := ⟨0x40028058, 0, 8⟩
def R.CIP_KEYDATA_DATA (n : Nat) : Fld := ⟨0x40028060 + 0x4 * n, 0, 32⟩
def R.CIP_JCTX0_OPEN : Fld := ⟨0x40028080, 0, 32⟩
def R.CIP_JCTX1_OPEN : Fld := ⟨0x40028084, 0, 32⟩
def R.CIP_MAP_INSERVICE (n : Nat) : Fld := ⟨0x40028100 + 0x4 * n, 31, 1⟩
def R.CIP_MAP_PHYS (n : Nat) : Fld := ⟨0x40028100 + 0x4 * n, 0, 2⟩

/-! ### EVR -/

def R.EVR_STATUS_CHAINLIM : Fld := ⟨0x40007040, 31, 1⟩
def R.EVR_STATUS_CFGERR : Fld := ⟨0x40007040, 30, 1⟩
def R.EVR_STATUS_LASTCH : Fld := ⟨0x40007040, 16, 7⟩
def R.EVR_GRP_EN : Fld := ⟨0x40007044, 0, 12⟩
def R.EVR_GRPSET_SET : Fld := ⟨0x40007048, 0, 12⟩
def R.EVR_GRPCLR_CLR : Fld := ⟨0x4000704C, 0, 12⟩
def R.EVR_SWTRIG_RAISE : Fld := ⟨0x40007050, 0, 16⟩
def R.EVR_COUNTS_CHAINDROP : Fld := ⟨0x40007054, 16, 16⟩
def R.EVR_COUNTS_LOST : Fld := ⟨0x40007054, 0, 16⟩
def R.EVR_IRQPEND_PEND : Fld := ⟨0x40007058, 0, 16⟩
def R.EVR_IRQEN_EN : Fld := ⟨0x4000705C, 0, 16⟩
def R.EVR_IRQROUTE_ROUTE : Fld := ⟨0x40007060, 0, 32⟩
def R.EVR_CHSRC_GATEINV (n : Nat) : Fld := ⟨0x40007100 + 0x10 * n, 17, 1⟩
def R.EVR_CHSRC_GATEEN (n : Nat) : Fld := ⟨0x40007100 + 0x10 * n, 16, 1⟩
def R.EVR_CHSRC_GATE (n : Nat) : Fld := ⟨0x40007100 + 0x10 * n, 8, 8⟩
def R.EVR_CHSRC_SRC (n : Nat) : Fld := ⟨0x40007100 + 0x10 * n, 0, 8⟩
def R.EVR_CHTSK_TASKS (n : Nat) : Fld := ⟨0x40007104 + 0x10 * n, 0, 32⟩
def R.EVR_CHOWN_P (n : Nat) : Fld := ⟨0x40007108 + 0x10 * n, 8, 1⟩
def R.EVR_CHOWN_OWNER (n : Nat) : Fld := ⟨0x40007108 + 0x10 * n, 0, 8⟩
def R.EVR_CHCNT_GATED (n : Nat) : Fld := ⟨0x4000710C + 0x10 * n, 16, 16⟩
def R.EVR_CHCNT_EVENTS (n : Nat) : Fld := ⟨0x4000710C + 0x10 * n, 0, 16⟩

/-! ### TMR -/

def R.TMR_CTL_CAPLVL (n : Nat) : Fld := ⟨0x40010040 + 0x1000 * n, 24, 8⟩
def R.TMR_CTL_GATELVL (n : Nat) : Fld := ⟨0x40010040 + 0x1000 * n, 16, 8⟩
def R.TMR_CTL_CAPEN (n : Nat) : Fld := ⟨0x40010040 + 0x1000 * n, 15, 1⟩
def R.TMR_CTL_GATEINV (n : Nat) : Fld := ⟨0x40010040 + 0x1000 * n, 14, 1⟩
def R.TMR_CTL_GATEEN (n : Nat) : Fld := ⟨0x40010040 + 0x1000 * n, 13, 1⟩
def R.TMR_CTL_CHAIN (n : Nat) : Fld := ⟨0x40010040 + 0x1000 * n, 12, 1⟩
def R.TMR_CTL_ONESHOT (n : Nat) : Fld := ⟨0x40010040 + 0x1000 * n, 11, 1⟩
def R.TMR_CTL_IMMED (n : Nat) : Fld := ⟨0x40010040 + 0x1000 * n, 10, 1⟩
def R.TMR_CTL_PRESC (n : Nat) : Fld := ⟨0x40010040 + 0x1000 * n, 4, 4⟩
def R.TMR_CTL_CLKSRC (n : Nat) : Fld := ⟨0x40010040 + 0x1000 * n, 0, 3⟩
def R.TMR_COUNT_COUNT (n : Nat) : Fld := ⟨0x40010044 + 0x1000 * n, 0, 32⟩
def R.TMR_PERIOD_PERIOD (n : Nat) : Fld := ⟨0x40010048 + 0x1000 * n, 0, 32⟩
def R.TMR_CMP_CMP (n : Nat) : Fld := ⟨0x4001004C + 0x1000 * n, 0, 32⟩
def R.TMR_CAPR_VALUE (n : Nat) : Fld := ⟨0x40010050 + 0x1000 * n, 0, 32⟩
def R.TMR_CAPF_VALUE (n : Nat) : Fld := ⟨0x40010054 + 0x1000 * n, 0, 32⟩
def R.TMR_STAT_PERPEND (n : Nat) : Fld := ⟨0x40010058 + 0x1000 * n, 8, 1⟩
def R.TMR_STAT_RUNRD (n : Nat) : Fld := ⟨0x40010058 + 0x1000 * n, 7, 1⟩
def R.TMR_STAT_MISSED (n : Nat) : Fld := ⟨0x40010058 + 0x1000 * n, 6, 1⟩
def R.TMR_STAT_SLEPTWRAP (n : Nat) : Fld := ⟨0x40010058 + 0x1000 * n, 5, 1⟩
def R.TMR_STAT_CFGERR (n : Nat) : Fld := ⟨0x40010058 + 0x1000 * n, 4, 1⟩
def R.TMR_STAT_OVR (n : Nat) : Fld := ⟨0x40010058 + 0x1000 * n, 3, 1⟩
def R.TMR_STAT_FRESHF (n : Nat) : Fld := ⟨0x40010058 + 0x1000 * n, 2, 1⟩
def R.TMR_STAT_FRESHR (n : Nat) : Fld := ⟨0x40010058 + 0x1000 * n, 1, 1⟩
def R.TMR_STAT_RUNNING (n : Nat) : Fld := ⟨0x40010058 + 0x1000 * n, 0, 1⟩
def R.TMR_FRAC_FRAC (n : Nat) : Fld := ⟨0x4001005C + 0x1000 * n, 0, 24⟩
def R.TMR_CMD_CAPF (n : Nat) : Fld := ⟨0x40010060 + 0x1000 * n, 4, 1⟩
def R.TMR_CMD_CAPR (n : Nat) : Fld := ⟨0x40010060 + 0x1000 * n, 3, 1⟩
def R.TMR_CMD_CLEAR (n : Nat) : Fld := ⟨0x40010060 + 0x1000 * n, 2, 1⟩
def R.TMR_CMD_STOP (n : Nat) : Fld := ⟨0x40010060 + 0x1000 * n, 1, 1⟩
def R.TMR_CMD_START (n : Nat) : Fld := ⟨0x40010060 + 0x1000 * n, 0, 1⟩
def R.TMR_EXT_EDGE (n : Nat) : Fld := ⟨0x40010064 + 0x1000 * n, 8, 2⟩
def R.TMR_EXT_LEVEL (n : Nat) : Fld := ⟨0x40010064 + 0x1000 * n, 0, 8⟩

/-! ### DAL -/

def R.DAL_CFG_RETRY : Fld := ⟨0x4002A040, 8, 4⟩
def R.DAL_CFG_PRIO : Fld := ⟨0x4002A040, 4, 3⟩
def R.DAL_CFG_PSU : Fld := ⟨0x4002A040, 0, 1⟩
def R.DAL_STATUS_QUEUE : Fld := ⟨0x4002A044, 5, 3⟩
def R.DAL_STATUS_QFULL : Fld := ⟨0x4002A044, 4, 1⟩
def R.DAL_STATUS_PSULIM : Fld := ⟨0x4002A044, 3, 1⟩
def R.DAL_STATUS_PSUON : Fld := ⟨0x4002A044, 2, 1⟩
def R.DAL_STATUS_FAULT : Fld := ⟨0x4002A044, 1, 1⟩
def R.DAL_STATUS_BUSY : Fld := ⟨0x4002A044, 0, 1⟩
def R.DAL_TXD_DATA : Fld := ⟨0x4002A048, 0, 32⟩
def R.DAL_TXC_TAG : Fld := ⟨0x4002A04C, 16, 16⟩
def R.DAL_TXC_PRIO : Fld := ⟨0x4002A04C, 11, 3⟩
def R.DAL_TXC_TRIG : Fld := ⟨0x4002A04C, 10, 1⟩
def R.DAL_TXC_EXPECT : Fld := ⟨0x4002A04C, 9, 1⟩
def R.DAL_TXC_TWICE : Fld := ⟨0x4002A04C, 8, 1⟩
def R.DAL_TXC_LEN : Fld := ⟨0x4002A04C, 0, 6⟩
def R.DAL_RES_TAG : Fld := ⟨0x4002A050, 16, 16⟩
def R.DAL_RES_BACK : Fld := ⟨0x4002A050, 8, 8⟩
def R.DAL_RES_BACKV : Fld := ⟨0x4002A050, 7, 1⟩
def R.DAL_RES_VALID : Fld := ⟨0x4002A050, 6, 1⟩
def R.DAL_RES_STATUS : Fld := ⟨0x4002A050, 0, 6⟩
def R.DAL_RXF_DATA : Fld := ⟨0x4002A054, 0, 32⟩
def R.DAL_RXS_LOST : Fld := ⟨0x4002A058, 9, 1⟩
def R.DAL_RXS_COUNT : Fld := ⟨0x4002A058, 6, 2⟩
def R.DAL_RXS_LEN : Fld := ⟨0x4002A058, 0, 6⟩
def R.DAL_COUNTS_COLL : Fld := ⟨0x4002A05C, 24, 8⟩
def R.DAL_COUNTS_ANSERR : Fld := ⟨0x4002A05C, 16, 8⟩
def R.DAL_COUNTS_SENT : Fld := ⟨0x4002A05C, 0, 16⟩

/-! ### DIM -/

def R.DIM_CTL_TRIG : Fld := ⟨0x4002B040, 2, 1⟩
def R.DIM_CTL_MODE : Fld := ⟨0x4002B040, 0, 2⟩
def R.DIM_LEVEL_RAMP : Fld := ⟨0x4002B044, 16, 16⟩
def R.DIM_LEVEL_TARGET : Fld := ⟨0x4002B044, 0, 12⟩
def R.DIM_OUT_RAMPING : Fld := ⟨0x4002B048, 16, 1⟩
def R.DIM_OUT_LEVEL : Fld := ⟨0x4002B048, 0, 12⟩
def R.DIM_MEAS_OPEN : Fld := ⟨0x4002B04C, 31, 1⟩
def R.DIM_MEAS_CURR : Fld := ⟨0x4002B04C, 16, 10⟩
def R.DIM_MEAS_VOLT : Fld := ⟨0x4002B04C, 0, 12⟩

/-! ### GPI -/

def R.GPI_IN_IN : Fld := ⟨0x40047040, 0, 16⟩
def R.GPI_OUT_OUT : Fld := ⟨0x40047044, 0, 16⟩
def R.GPI_SET_SET : Fld := ⟨0x40047048, 0, 16⟩
def R.GPI_CLR_CLR : Fld := ⟨0x4004704C, 0, 16⟩
def R.GPI_TGL_TGL : Fld := ⟨0x40047050, 0, 16⟩
def R.GPI_CFG_DRIVE (n : Nat) : Fld := ⟨0x40047100 + 0x4 * n, 5, 1⟩
def R.GPI_CFG_OD (n : Nat) : Fld := ⟨0x40047100 + 0x4 * n, 4, 1⟩
def R.GPI_CFG_PULL (n : Nat) : Fld := ⟨0x40047100 + 0x4 * n, 2, 2⟩
def R.GPI_CFG_FUNC (n : Nat) : Fld := ⟨0x40047100 + 0x4 * n, 0, 2⟩

/-! ### UART -/

def R.UART_CFG_RXTHR (n : Nat) : Fld := ⟨0x4002C100 + 0x700 * n, 8, 4⟩
def R.UART_CFG_STOP2 (n : Nat) : Fld := ⟨0x4002C100 + 0x700 * n, 3, 1⟩
def R.UART_CFG_ODD (n : Nat) : Fld := ⟨0x4002C100 + 0x700 * n, 2, 1⟩
def R.UART_CFG_PAR (n : Nat) : Fld := ⟨0x4002C100 + 0x700 * n, 1, 1⟩
def R.UART_CFG_EN (n : Nat) : Fld := ⟨0x4002C100 + 0x700 * n, 0, 1⟩
def R.UART_BAUD_DIV (n : Nat) : Fld := ⟨0x4002C104 + 0x700 * n, 0, 24⟩
def R.UART_DATA_FERR (n : Nat) : Fld := ⟨0x4002C108 + 0x700 * n, 10, 1⟩
def R.UART_DATA_PERR (n : Nat) : Fld := ⟨0x4002C108 + 0x700 * n, 9, 1⟩
def R.UART_DATA_VALID (n : Nat) : Fld := ⟨0x4002C108 + 0x700 * n, 8, 1⟩
def R.UART_DATA_DATA (n : Nat) : Fld := ⟨0x4002C108 + 0x700 * n, 0, 8⟩
def R.UART_STAT_OVR (n : Nat) : Fld := ⟨0x4002C10C + 0x700 * n, 16, 1⟩
def R.UART_STAT_TXN (n : Nat) : Fld := ⟨0x4002C10C + 0x700 * n, 8, 5⟩
def R.UART_STAT_RXN (n : Nat) : Fld := ⟨0x4002C10C + 0x700 * n, 0, 5⟩

/-! ### SPI -/

def R.SPI_CFG_DIV (n : Nat) : Fld := ⟨0x4002D100 + 0x700 * n, 8, 8⟩
def R.SPI_CFG_LSB (n : Nat) : Fld := ⟨0x4002D100 + 0x700 * n, 4, 1⟩
def R.SPI_CFG_MODE (n : Nat) : Fld := ⟨0x4002D100 + 0x700 * n, 2, 2⟩
def R.SPI_CFG_SLAVE (n : Nat) : Fld := ⟨0x4002D100 + 0x700 * n, 1, 1⟩
def R.SPI_CFG_EN (n : Nat) : Fld := ⟨0x4002D100 + 0x700 * n, 0, 1⟩
def R.SPI_GO_LEN (n : Nat) : Fld := ⟨0x4002D104 + 0x700 * n, 0, 16⟩
def R.SPI_DATA_DATA (n : Nat) : Fld := ⟨0x4002D108 + 0x700 * n, 0, 8⟩
def R.SPI_STAT_UNDER (n : Nat) : Fld := ⟨0x4002D10C + 0x700 * n, 17, 1⟩
def R.SPI_STAT_OVR (n : Nat) : Fld := ⟨0x4002D10C + 0x700 * n, 16, 1⟩
def R.SPI_STAT_BUSY (n : Nat) : Fld := ⟨0x4002D10C + 0x700 * n, 15, 1⟩

/-! ### IIC -/

def R.IIC_CFG_ADDR (n : Nat) : Fld := ⟨0x4002E100 + 0x700 * n, 16, 7⟩
def R.IIC_CFG_SPEED (n : Nat) : Fld := ⟨0x4002E100 + 0x700 * n, 8, 2⟩
def R.IIC_CFG_TARGET (n : Nat) : Fld := ⟨0x4002E100 + 0x700 * n, 1, 1⟩
def R.IIC_CFG_EN (n : Nat) : Fld := ⟨0x4002E100 + 0x700 * n, 0, 1⟩
def R.IIC_GO_LEN (n : Nat) : Fld := ⟨0x4002E104 + 0x700 * n, 8, 8⟩
def R.IIC_GO_READ (n : Nat) : Fld := ⟨0x4002E104 + 0x700 * n, 7, 1⟩
def R.IIC_GO_ADDR (n : Nat) : Fld := ⟨0x4002E104 + 0x700 * n, 0, 7⟩
def R.IIC_DATA_DATA (n : Nat) : Fld := ⟨0x4002E108 + 0x700 * n, 0, 8⟩
def R.IIC_STAT_ARBLOST (n : Nat) : Fld := ⟨0x4002E10C + 0x700 * n, 17, 1⟩
def R.IIC_STAT_NACK (n : Nat) : Fld := ⟨0x4002E10C + 0x700 * n, 16, 1⟩
def R.IIC_STAT_BUSY (n : Nat) : Fld := ⟨0x4002E10C + 0x700 * n, 15, 1⟩

/-! ### TAG -/

def R.TAG_STATUS_SUPPLY : Fld := ⟨0x40029040, 8, 2⟩
def R.TAG_STATUS_AUTHLOCK : Fld := ⟨0x40029040, 6, 1⟩
def R.TAG_STATUS_HOMEREQ : Fld := ⟨0x40029040, 5, 1⟩
def R.TAG_STATUS_REPAIR : Fld := ⟨0x40029040, 4, 1⟩
def R.TAG_STATUS_HELD : Fld := ⟨0x40029040, 3, 1⟩
def R.TAG_STATUS_EXACT : Fld := ⟨0x40029040, 2, 1⟩
def R.TAG_STATUS_SECURED : Fld := ⟨0x40029040, 1, 1⟩
def R.TAG_STATUS_FIELD : Fld := ⟨0x40029040, 0, 1⟩
def R.TAG_CFG_EXOPEN : Fld := ⟨0x40029044, 4, 1⟩
def R.TAG_CFG_AUTHEN : Fld := ⟨0x40029044, 3, 1⟩
def R.TAG_CFG_PWDEN : Fld := ⟨0x40029044, 2, 1⟩
def R.TAG_CFG_EXACT : Fld := ⟨0x40029044, 1, 1⟩
def R.TAG_CFG_RFEN : Fld := ⟨0x40029044, 0, 1⟩
def R.TAG_UID_LO_UID : Fld := ⟨0x40029048, 0, 32⟩
def R.TAG_UID_HI_UID : Fld := ⟨0x4002904C, 0, 32⟩
def R.TAG_COUNTS_TORN : Fld := ⟨0x40029050, 24, 8⟩
def R.TAG_COUNTS_BUSY : Fld := ⟨0x40029050, 16, 8⟩
def R.TAG_COUNTS_CMDS : Fld := ⟨0x40029050, 0, 16⟩
def R.TAG_SEQ_SEQ : Fld := ⟨0x40029054, 0, 24⟩
def R.TAG_EXCH_H2FLEN : Fld := ⟨0x40029058, 16, 8⟩
def R.TAG_EXCH_F2HLEN : Fld := ⟨0x40029058, 8, 8⟩
def R.TAG_EXCH_H2F : Fld := ⟨0x40029058, 1, 1⟩
def R.TAG_EXCH_F2H : Fld := ⟨0x40029058, 0, 1⟩

/-! ### PWR -/

def R.PWR_STATUS_DRAMOK : Fld := ⟨0x40001040, 2, 1⟩
def R.PWR_STATUS_RAIL : Fld := ⟨0x40001040, 1, 1⟩
def R.PWR_STATUS_BUSY : Fld := ⟨0x40001040, 0, 1⟩
def R.PWR_VMAIN_AVG : Fld := ⟨0x40001044, 16, 16⟩
def R.PWR_VMAIN_NOW : Fld := ⟨0x40001044, 0, 16⟩
def R.PWR_REFUSE_STAMP : Fld := ⟨0x40001048, 24, 8⟩
def R.PWR_REFUSE_DOMAIN : Fld := ⟨0x40001048, 18, 6⟩
def R.PWR_REFUSE_CAUSE : Fld := ⟨0x40001048, 16, 2⟩
def R.PWR_REFUSE_COUNT : Fld := ⟨0x40001048, 0, 16⟩
def R.PWR_DOM_BUSY (n : Nat) : Fld := ⟨0x40001100 + 0x4 * n, 8, 1⟩
def R.PWR_DOM_STATE (n : Nat) : Fld := ⟨0x40001100 + 0x4 * n, 4, 2⟩
def R.PWR_DOM_TARGET (n : Nat) : Fld := ⟨0x40001100 + 0x4 * n, 0, 2⟩
def R.PWR_PLAN_0_DOMS (n : Nat) : Fld := ⟨0x40001200 + 0x10 * n, 0, 32⟩
def R.PWR_PLAN_4_BANKLO (n : Nat) : Fld := ⟨0x40001204 + 0x10 * n, 0, 32⟩
def R.PWR_PLAN_8_BANKHI (n : Nat) : Fld := ⟨0x40001208 + 0x10 * n, 0, 32⟩

/-! ### BKP -/

def R.BKP_STATUS_WBUSY : Fld := ⟨0x40002040, 7, 1⟩
def R.BKP_STATUS_SETERR : Fld := ⟨0x40002040, 6, 1⟩
def R.BKP_STATUS_ONMAIN : Fld := ⟨0x40002040, 5, 1⟩
def R.BKP_STATUS_CHGCV : Fld := ⟨0x40002040, 4, 1⟩
def R.BKP_STATUS_CHGCC : Fld := ⟨0x40002040, 3, 1⟩
def R.BKP_STATUS_KEEPVALID : Fld := ⟨0x40002040, 2, 1⟩
def R.BKP_STATUS_CALVALID : Fld := ⟨0x40002040, 1, 1⟩
def R.BKP_STATUS_COLD : Fld := ⟨0x40002040, 0, 1⟩
def R.BKP_CTL_COLD : Fld := ⟨0x40002044, 0, 1⟩
def R.BKP_CHG_VTGT : Fld := ⟨0x40002048, 24, 8⟩
def R.BKP_CHG_IREF : Fld := ⟨0x40002048, 8, 10⟩
def R.BKP_CHG_MODE : Fld := ⟨0x40002048, 0, 2⟩
def R.BKP_CALDATE_YEAR : Fld := ⟨0x4000204C, 16, 12⟩
def R.BKP_CALDATE_MONTH : Fld := ⟨0x4000204C, 8, 4⟩
def R.BKP_CALDATE_DAY : Fld := ⟨0x4000204C, 0, 5⟩
def R.BKP_CALTIME_HOUR : Fld := ⟨0x40002050, 16, 5⟩
def R.BKP_CALTIME_MIN : Fld := ⟨0x40002050, 8, 6⟩
def R.BKP_CALTIME_SEC : Fld := ⟨0x40002050, 0, 6⟩
def R.BKP_CALSUB_SUB : Fld := ⟨0x40002054, 0, 15⟩
def R.BKP_CALCMD_CMD : Fld := ⟨0x40002060, 30, 2⟩
def R.BKP_CALCMD_ADJ : Fld := ⟨0x40002060, 0, 24⟩
def R.BKP_TRIM_AUTO : Fld := ⟨0x40002064, 31, 1⟩
def R.BKP_TRIM_PPM : Fld := ⟨0x40002064, 0, 15⟩
def R.BKP_TRIMMEAS_VALID : Fld := ⟨0x40002068, 31, 1⟩
def R.BKP_TRIMMEAS_ERR : Fld := ⟨0x40002068, 0, 15⟩
def R.BKP_SYSON_POL : Fld := ⟨0x4000206C, 1, 1⟩
def R.BKP_SYSON_LEVEL : Fld := ⟨0x4000206C, 0, 1⟩
def R.BKP_WAKE_SRC : Fld := ⟨0x40002070, 28, 4⟩
def R.BKP_WAKE_PLAN : Fld := ⟨0x40002070, 25, 3⟩
def R.BKP_WAKE_TAGEN : Fld := ⟨0x40002070, 24, 1⟩
def R.BKP_WAKE_INDEX : Fld := ⟨0x40002070, 20, 4⟩
def R.BKP_WAKE_TMPALM : Fld := ⟨0x40002070, 0, 16⟩
def R.BKP_GPWAKE_FALL : Fld := ⟨0x40002074, 16, 16⟩
def R.BKP_GPWAKE_RISE : Fld := ⟨0x40002074, 0, 16⟩
def R.BKP_ALM_0_DATE (n : Nat) : Fld := ⟨0x40002100 + 0x10 * n, 0, 32⟩
def R.BKP_ALM_4_TIME (n : Nat) : Fld := ⟨0x40002104 + 0x10 * n, 0, 32⟩
def R.BKP_ALM_8_LAST (n : Nat) : Fld := ⟨0x40002108 + 0x10 * n, 0, 32⟩
def R.BKP_ALM_C_SKIPPED (n : Nat) : Fld := ⟨0x4000210C + 0x10 * n, 13, 1⟩
def R.BKP_ALM_C_FIRED (n : Nat) : Fld := ⟨0x4000210C + 0x10 * n, 12, 1⟩
def R.BKP_ALM_C_SYSCLR (n : Nat) : Fld := ⟨0x4000210C + 0x10 * n, 11, 1⟩
def R.BKP_ALM_C_SYSSET (n : Nat) : Fld := ⟨0x4000210C + 0x10 * n, 10, 1⟩
def R.BKP_ALM_C_WAKE (n : Nat) : Fld := ⟨0x4000210C + 0x10 * n, 9, 1⟩
def R.BKP_ALM_C_EVT (n : Nat) : Fld := ⟨0x4000210C + 0x10 * n, 8, 1⟩
def R.BKP_ALM_C_MASK (n : Nat) : Fld := ⟨0x4000210C + 0x10 * n, 0, 6⟩

/-! ### CPU -/

def R.CPU_STATUS_SPARES : Fld := ⟨0x40046040, 24, 4⟩
def R.CPU_STATUS_INSERVICE : Fld := ⟨0x40046040, 16, 3⟩
def R.CPU_STATUS_WAIT : Fld := ⟨0x40046040, 8, 4⟩
def R.CPU_STATUS_ON : Fld := ⟨0x40046040, 0, 4⟩
def R.CPU_RESETVEC_ADDR : Fld := ⟨0x40046044, 1, 31⟩
def R.CPU_COUNTS_DBLFLT : Fld := ⟨0x40046048, 24, 8⟩
def R.CPU_COUNTS_IMPBUS : Fld := ⟨0x40046048, 16, 8⟩
def R.CPU_COUNTS_PARITY : Fld := ⟨0x40046048, 0, 16⟩
def R.CPU_HB_BEAT (n : Nat) : Fld := ⟨0x40046080 + 0x4 * n, 0, 32⟩
def R.CPU_MAP_INSERVICE (n : Nat) : Fld := ⟨0x40046100 + 0x4 * n, 31, 1⟩
def R.CPU_MAP_PHYS (n : Nat) : Fld := ⟨0x40046100 + 0x4 * n, 0, 3⟩

/-! ### SRM -/

def R.SRM_STATUS_REMAPS : Fld := ⟨0x40041040, 16, 8⟩
def R.SRM_STATUS_SPARESMIN : Fld := ⟨0x40041040, 0, 4⟩
def R.SRM_ERRS_CORR : Fld := ⟨0x4004104C, 16, 16⟩
def R.SRM_ERRS_UNCORR : Fld := ⟨0x4004104C, 0, 16⟩
def R.SRM_LASTERR_ADDR : Fld := ⟨0x40041050, 2, 30⟩
def R.SRM_SCRUB_HOURS : Fld := ⟨0x40041054, 0, 8⟩
def R.SRM_BANK_MAPPED (n : Nat) : Fld := ⟨0x40041100 + 0x4 * n, 31, 1⟩
def R.SRM_BANK_OVER (n : Nat) : Fld := ⟨0x40041100 + 0x4 * n, 8, 8⟩
def R.SRM_BANK_TRACKED (n : Nat) : Fld := ⟨0x40041100 + 0x4 * n, 4, 4⟩
def R.SRM_BANK_SPARES (n : Nat) : Fld := ⟨0x40041100 + 0x4 * n, 0, 4⟩

/-! ### NVM -/

def R.NVM_STATUS_CAUSE : Fld := ⟨0x40042040, 4, 4⟩
def R.NVM_STATUS_ERR : Fld := ⟨0x40042040, 3, 1⟩
def R.NVM_STATUS_SUSP : Fld := ⟨0x40042040, 2, 1⟩
def R.NVM_STATUS_DONE : Fld := ⟨0x40042040, 1, 1⟩
def R.NVM_STATUS_BUSY : Fld := ⟨0x40042040, 0, 1⟩
def R.NVM_ADDR_ADDR : Fld := ⟨0x40042044, 0, 32⟩
def R.NVM_SRC_SRC : Fld := ⟨0x40042048, 0, 32⟩
def R.NVM_CMD_CMD : Fld := ⟨0x4004204C, 0, 2⟩
def R.NVM_SPARES_ERASES : Fld := ⟨0x40042050, 16, 16⟩
def R.NVM_SPARES_FREE : Fld := ⟨0x40042050, 0, 7⟩

/-! ### DMC -/

def R.DMC_STATUS_WRQ : Fld := ⟨0x40040040, 16, 6⟩
def R.DMC_STATUS_RDQ : Fld := ⟨0x40040040, 10, 6⟩
def R.DMC_STATUS_POSTPONED : Fld := ⟨0x40040040, 6, 4⟩
def R.DMC_STATUS_HOT : Fld := ⟨0x40040040, 5, 1⟩
def R.DMC_STATUS_RETRAIN : Fld := ⟨0x40040040, 4, 1⟩
def R.DMC_STATUS_TRAINING : Fld := ⟨0x40040040, 3, 1⟩
def R.DMC_STATUS_ECC : Fld := ⟨0x40040040, 2, 1⟩
def R.DMC_STATUS_SELFREF : Fld := ⟨0x40040040, 1, 1⟩
def R.DMC_STATUS_READY : Fld := ⟨0x40040040, 0, 1⟩
def R.DMC_CFG_ECCEN : Fld := ⟨0x40040044, 0, 1⟩
def R.DMC_TRAIN_REQ : Fld := ⟨0x40040048, 31, 1⟩
def R.DMC_TRAIN_WIN1 : Fld := ⟨0x40040048, 18, 6⟩
def R.DMC_TRAIN_WIN0 : Fld := ⟨0x40040048, 12, 6⟩
def R.DMC_NRR_COUNT : Fld := ⟨0x4004004C, 16, 16⟩
def R.DMC_NRR_K : Fld := ⟨0x4004004C, 0, 5⟩
def R.DMC_ERRS_CORR : Fld := ⟨0x40040050, 16, 16⟩
def R.DMC_ERRS_UNCORR : Fld := ⟨0x40040050, 0, 16⟩
def R.DMC_LASTERR_ADDR : Fld := ⟨0x40040054, 3, 29⟩
def R.DMC_PPR_UNREP : Fld := ⟨0x40040058, 16, 8⟩
def R.DMC_PPR_PENDING : Fld := ⟨0x40040058, 8, 8⟩
def R.DMC_PPR_SPENT : Fld := ⟨0x40040058, 0, 8⟩

/-! ### COH -/

def R.COH_STATUS_LEAD : Fld := ⟨0x40043040, 16, 4⟩
def R.COH_STATUS_PRESENT : Fld := ⟨0x40043040, 8, 8⟩
def R.COH_STATUS_STATE : Fld := ⟨0x40043040, 0, 3⟩
def R.COH_CFG_COUNT : Fld := ⟨0x40043044, 4, 4⟩
def R.COH_CFG_INDEX : Fld := ⟨0x40043044, 0, 4⟩
def R.COH_CTL_REJOIN : Fld := ⟨0x40043048, 0, 1⟩
def R.COH_EPOCH_EPOCH : Fld := ⟨0x4004304C, 0, 32⟩
def R.COH_DRAMAP_BASE : Fld := ⟨0x40043050, 25, 7⟩
def R.COH_LINK_RTT : Fld := ⟨0x40043054, 16, 16⟩
def R.COH_LINK_WUP : Fld := ⟨0x40043054, 1, 1⟩
def R.COH_LINK_EUP : Fld := ⟨0x40043054, 0, 1⟩
def R.COH_COUNTS_NOTELOST : Fld := ⟨0x40043058, 24, 8⟩
def R.COH_COUNTS_ELECTS : Fld := ⟨0x40043058, 16, 8⟩
def R.COH_COUNTS_STALE : Fld := ⟨0x40043058, 8, 8⟩
def R.COH_COUNTS_CRCERR : Fld := ⟨0x40043058, 0, 8⟩

/-! ### UPD -/

def R.UPD_STATUS_SAMEVER : Fld := ⟨0x40044040, 11, 1⟩
def R.UPD_STATUS_REVERTED : Fld := ⟨0x40044040, 10, 1⟩
def R.UPD_STATUS_FBVALID : Fld := ⟨0x40044040, 9, 1⟩
def R.UPD_STATUS_ACTIVE : Fld := ⟨0x40044040, 8, 1⟩
def R.UPD_STATUS_STAGE : Fld := ⟨0x40044040, 0, 3⟩
def R.UPD_VERSION_VERSION : Fld := ⟨0x40044044, 0, 32⟩
def R.UPD_FLOOR_FLOOR : Fld := ⟨0x40044048, 0, 32⟩
def R.UPD_TRIAL_BOOTS : Fld := ⟨0x4004404C, 16, 2⟩
def R.UPD_TRIAL_LEFT : Fld := ⟨0x4004404C, 0, 16⟩
def R.UPD_DIGEST_LO_DIGEST : Fld := ⟨0x40044050, 0, 32⟩
def R.UPD_DIGEST_HI_DIGEST : Fld := ⟨0x40044054, 0, 32⟩
def R.UPD_KEYS_REVOKED : Fld := ⟨0x40044058, 4, 4⟩
def R.UPD_KEYS_PROG : Fld := ⟨0x40044058, 0, 4⟩
def R.UPD_COUNTS_REVERTS : Fld := ⟨0x4004405C, 24, 8⟩
def R.UPD_COUNTS_SIGFAIL : Fld := ⟨0x4004405C, 16, 8⟩
def R.UPD_COUNTS_CRCFAIL : Fld := ⟨0x4004405C, 0, 16⟩

/-! ### INS -/

def R.INS_STATUS_GAPPED : Fld := ⟨0x40045040, 0, 8⟩
def R.INS_CTL_PORTEN : Fld := ⟨0x40045044, 8, 1⟩
def R.INS_CTL_SRCEN : Fld := ⟨0x40045044, 0, 8⟩
def R.INS_GAPS_COUNT : Fld := ⟨0x40045048, 0, 32⟩
def R.INS_CSTREAM_PERIOD : Fld := ⟨0x4004504C, 0, 16⟩
def R.INS_CCLR_CLR : Fld := ⟨0x40045050, 0, 1⟩
def R.INS_LEDGER_LAST : Fld := ⟨0x40045054, 16, 16⟩
def R.INS_LEDGER_BADREC : Fld := ⟨0x40045054, 8, 8⟩
def R.INS_LEDGER_LOST : Fld := ⟨0x40045054, 0, 6⟩
def R.INS_CMASK_MASK (n : Nat) : Fld := ⟨0x40045060 + 0x4 * n, 0, 32⟩
def R.INS_CSEL_LEVEL (n : Nat) : Fld := ⟨0x40045200 + 0x4 * n, 8, 8⟩
def R.INS_CSEL_SRC (n : Nat) : Fld := ⟨0x40045200 + 0x4 * n, 0, 8⟩
def R.INS_CNT_0_LO (n : Nat) : Fld := ⟨0x40045800 + 0x8 * n, 0, 32⟩
def R.INS_CNT_4_HI (n : Nat) : Fld := ⟨0x40045804 + 0x8 * n, 0, 16⟩

/-! ### BKP -/

def R.BKP_SETDATE_YEAR : Fld := ⟨0x40002058, 16, 12⟩
def R.BKP_SETDATE_MONTH : Fld := ⟨0x40002058, 8, 4⟩
def R.BKP_SETDATE_DAY : Fld := ⟨0x40002058, 0, 5⟩
def R.BKP_SETTIME_HOUR : Fld := ⟨0x4000205C, 16, 5⟩
def R.BKP_SETTIME_MIN : Fld := ⟨0x4000205C, 8, 6⟩
def R.BKP_SETTIME_SEC : Fld := ⟨0x4000205C, 0, 6⟩

/-! ### TMP -/

def R.TMP_ALIGN_LO_CYCLE_L : Fld := ⟨0x4000304C, 16, 16⟩
def R.TMP_ALIGN_LO_STEP : Fld := ⟨0x4000304C, 0, 16⟩
def R.TMP_ALIGN_HI_CYCLE_H : Fld := ⟨0x40003050, 0, 24⟩

/-! ### LNK -/

def R.LNK_CTXWIN_CONTEXT (n : Nat) : Fld := ⟨0x40026100 + 0x4 * n, 0, 32⟩

/-! ### EVR -/

def R.EVR_TASKFLAG_FLAGS (n : Nat) : Fld := ⟨0x40007800 + 0x4 * n, 0, 32⟩

/-! ### SPI -/

def R.SPI_STAT_TXN (n : Nat) : Fld := ⟨0x4002D10C + 0x700 * n, 8, 5⟩
def R.SPI_STAT_RXN (n : Nat) : Fld := ⟨0x4002D10C + 0x700 * n, 0, 5⟩

/-! ### IIC -/

def R.IIC_STAT_TXN (n : Nat) : Fld := ⟨0x4002E10C + 0x700 * n, 8, 5⟩
def R.IIC_STAT_RXN (n : Nat) : Fld := ⟨0x4002E10C + 0x700 * n, 0, 5⟩

/-! ### SRM -/

def R.SRM_PROT0_ATTR : Fld := ⟨0x40041044, 0, 32⟩
def R.SRM_PROT1_ATTR : Fld := ⟨0x40041048, 0, 32⟩

/-! ### SYN -/

def R.SYN_PWR_ACTIVE_ENTRY (n : Nat) : Fld := ⟨0x40025200 + 0x4 * n, 0, 32⟩
def R.SYN_PWR_INACTIVE_ENTRY (n : Nat) : Fld := ⟨0x40025300 + 0x4 * n, 0, 32⟩
def R.SYN_EDGE_ACTIVE_WORD (n : Nat) : Fld := ⟨0x40025400 + 0x4 * n, 0, 32⟩
def R.SYN_EDGE_INACTIVE_WORD (n : Nat) : Fld := ⟨0x40025480 + 0x4 * n, 0, 32⟩
def R.SYN_CALREC_WORD (n : Nat) : Fld := ⟨0x40025800 + 0x4 * n, 0, 32⟩

/-! ### DEV -/

def R.DEV_ENVREC_WORD (n : Nat) : Fld := ⟨0x40000800 + 0x4 * n, 0, 32⟩

/-- Fields of the DEV page. -/
def regRowsDEV : List FieldRow :=
  [ ⟨0x40000040, 0x0, 1, 8, 5, .ro, 0, 0⟩,
    ⟨0x40000040, 0x0, 1, 0, 1, .ro, 0, 0⟩,
    ⟨0x40000044, 0x0, 1, 0, 12, .rw, 60, 0⟩,
    ⟨0x40000048, 0x0, 1, 16, 16, .ro, 0, 0⟩,
    ⟨0x40000048, 0x0, 1, 8, 8, .ro, 0, 0⟩,
    ⟨0x40000048, 0x0, 1, 0, 4, .ro, 0, 0⟩,
    ⟨0x4000004C, 0x0, 1, 16, 8, .rc, 0, 0⟩,
    ⟨0x4000004C, 0x0, 1, 0, 16, .rc, 0, 0⟩,
    ⟨0x40000050, 0x0, 1, 8, 8, .rc, 0, 0⟩,
    ⟨0x40000050, 0x0, 1, 0, 4, .ro, 0, 0⟩,
    ⟨0x40000054, 0x0, 1, 4, 1, .rw, 0, 0⟩,
    ⟨0x40000054, 0x0, 1, 0, 4, .rw, 2, 0⟩,
    ⟨0x40000058, 0x0, 1, 0, 4, .rw, 4, 0⟩,
    ⟨0x40000800, 0x4, 64, 0, 32, .ro, 0, 0⟩ ]

/-- Fields of the TMP page, part 1. -/
def regRowsTMP0 : List FieldRow :=
  [ ⟨0x40003040, 0x0, 1, 8, 2, .ro, 0, 0⟩,
    ⟨0x40003040, 0x0, 1, 6, 1, .ro, 0, 0⟩,
    ⟨0x40003040, 0x0, 1, 5, 1, .ro, 1, 0⟩,
    ⟨0x40003040, 0x0, 1, 4, 1, .ro, 0, 0⟩,
    ⟨0x40003040, 0x0, 1, 3, 1, .ro, 0, 0⟩,
    ⟨0x40003040, 0x0, 1, 0, 3, .ro, 0, 0⟩,
    ⟨0x40003044, 0x0, 1, 16, 16, .ro, 0, 0⟩,
    ⟨0x40003044, 0x0, 1, 0, 16, .ro, 0, 0⟩,
    ⟨0x40003048, 0x0, 1, 0, 24, .ro, 0, 0⟩,
    ⟨0x40003054, 0x0, 1, 31, 1, .ro, 0, 0⟩,
    ⟨0x40003054, 0x0, 1, 16, 4, .ro, 0, 0⟩,
    ⟨0x40003054, 0x0, 1, 0, 16, .ro, 0, 0⟩,
    ⟨0x40003058, 0x0, 1, 31, 1, .rw, 0, 0⟩,
    ⟨0x40003058, 0x0, 1, 16, 12, .rw, 64, 0⟩,
    ⟨0x40003058, 0x0, 1, 8, 4, .rw, 3, 0⟩,
    ⟨0x40003058, 0x0, 1, 0, 8, .rw, 32, 0⟩,
    ⟨0x4000305C, 0x0, 1, 0, 32, .ro, 0x32000000, 0⟩,
    ⟨0x40003060, 0x0, 1, 1, 1, .rw, 0, 0⟩,
    ⟨0x40003060, 0x0, 1, 0, 1, .rw, 0, 0⟩,
    ⟨0x40003064, 0x0, 1, 0, 32, .ro, 0xffffffff, 0⟩,
    ⟨0x40003068, 0x0, 1, 16, 12, .rw, 1500, 0⟩,
    ⟨0x40003068, 0x0, 1, 0, 12, .rw, 1000, 0⟩,
    ⟨0x4000306C, 0x0, 1, 0, 16, .rw, 1024, 0⟩,
    ⟨0x40003070, 0x0, 1, 16, 8, .rw, 32, 0⟩,
    ⟨0x40003070, 0x0, 1, 0, 16, .rw, 1024, 0⟩,
    ⟨0x40003074, 0x0, 1, 0, 16, .rw, 4096, 0⟩,
    ⟨0x40003078, 0x0, 1, 0, 32, .wo, 0, 0⟩,
    ⟨0x4000307C, 0x0, 1, 0, 8, .wo, 0, 0⟩,
    ⟨0x40003080, 0x0, 1, 0, 32, .ro, 0, 0⟩,
    ⟨0x40003084, 0x0, 1, 24, 8, .rc, 0, 0⟩,
    ⟨0x40003084, 0x0, 1, 16, 8, .rc, 0, 0⟩,
    ⟨0x40003084, 0x0, 1, 0, 16, .rc, 0, 0⟩,
    ⟨0x40003100, 0x10, 16, 0, 32, .rw, 0, 0⟩,
    ⟨0x40003104, 0x10, 16, 0, 24, .rw, 0, 0⟩,
    ⟨0x40003108, 0x10, 16, 16, 16, .rw, 0, 0⟩,
    ⟨0x40003108, 0x10, 16, 0, 16, .rw, 0, 0⟩,
    ⟨0x4000310C, 0x10, 16, 10, 1, .w1c, 0, 0⟩,
    ⟨0x4000310C, 0x10, 16, 9, 1, .w1c, 0, 0⟩,
    ⟨0x4000310C, 0x10, 16, 8, 1, .w1c, 0, 0⟩,
    ⟨0x4000310C, 0x10, 16, 1, 1, .rw, 0, 0⟩ ]

/-- Fields of the TMP page, part 2. -/
def regRowsTMP1 : List FieldRow :=
  [ ⟨0x4000310C, 0x10, 16, 0, 1, .rw, 0, 0⟩,
    ⟨0x4000304C, 0x0, 1, 16, 16, .ro, 0, 0⟩,
    ⟨0x4000304C, 0x0, 1, 0, 16, .ro, 0, 0⟩,
    ⟨0x40003050, 0x0, 1, 0, 24, .ro, 0, 0⟩ ]

/-- Fields of the TMP page. -/
def regRowsTMP : List FieldRow := regRowsTMP0 ++ regRowsTMP1

/-- Fields of the MSN page. -/
def regRowsMSN : List FieldRow :=
  [ ⟨0x40004040, 0x0, 1, 16, 10, .rw, 230, 0⟩,
    ⟨0x40004040, 0x0, 1, 0, 1, .rw, 1, 0⟩,
    ⟨0x40004044, 0x0, 1, 24, 4, .rw, 2, 0⟩,
    ⟨0x40004044, 0x0, 1, 16, 8, .rw, 10, 0⟩,
    ⟨0x40004044, 0x0, 1, 8, 8, .rw, 110, 0⟩,
    ⟨0x40004044, 0x0, 1, 0, 8, .rw, 90, 0⟩,
    ⟨0x40004048, 0x0, 1, 16, 16, .ro, 0, 0⟩,
    ⟨0x40004048, 0x0, 1, 0, 16, .ro, 0, 0⟩,
    ⟨0x4000404C, 0x0, 1, 0, 17, .ro, 0, 0⟩,
    ⟨0x40004050, 0x0, 1, 0, 10, .ro, 0, 0⟩,
    ⟨0x40004054, 0x0, 1, 2, 1, .ro, 0, 0⟩,
    ⟨0x40004054, 0x0, 1, 1, 1, .ro, 0, 0⟩,
    ⟨0x40004054, 0x0, 1, 0, 1, .ro, 0, 0⟩ ]

/-- Fields of the RNG page. -/
def regRowsRNG : List FieldRow :=
  [ ⟨0x40005040, 0x0, 1, 16, 9, .ro, 0, 0⟩,
    ⟨0x40005040, 0x0, 1, 0, 9, .ro, 0, 0⟩,
    ⟨0x40005044, 0x0, 1, 0, 16, .rc, 0, 0⟩,
    ⟨0x40005048, 0x0, 1, 8, 8, .rc, 0, 0⟩,
    ⟨0x40005048, 0x0, 1, 4, 4, .ro, 0, 0⟩,
    ⟨0x40005048, 0x0, 1, 0, 4, .ro, 0, 0⟩,
    ⟨0x40005100, 0x40, 16, 5, 27, .rw, 0, 0⟩,
    ⟨0x40005104, 0x40, 16, 4, 28, .rw, 0, 0⟩,
    ⟨0x40005108, 0x40, 16, 8, 7, .rw, 16, 0⟩,
    ⟨0x40005108, 0x40, 16, 4, 4, .rw, 6, 0⟩,
    ⟨0x40005108, 0x40, 16, 2, 2, .rw, 0, 0⟩,
    ⟨0x40005108, 0x40, 16, 1, 1, .rw, 0, 0⟩,
    ⟨0x40005108, 0x40, 16, 0, 1, .rw, 0, 0⟩,
    ⟨0x4000510C, 0x40, 16, 8, 1, .ro, 1, 0⟩,
    ⟨0x4000510C, 0x40, 16, 0, 8, .ro, 1, 0⟩,
    ⟨0x40005110, 0x40, 16, 0, 16, .rw, 0, 0⟩,
    ⟨0x40005114, 0x40, 16, 0, 16, .ro, 0, 0⟩,
    ⟨0x40005118, 0x40, 16, 0, 16, .ro, 0, 0⟩,
    ⟨0x4000511C, 0x40, 16, 0, 16, .rw, 0, 0⟩,
    ⟨0x40005120, 0x40, 16, 20, 1, .ro, 1, 0⟩,
    ⟨0x40005120, 0x40, 16, 19, 1, .w1c, 0, 0⟩,
    ⟨0x40005120, 0x40, 16, 18, 1, .ro, 0, 0⟩,
    ⟨0x40005120, 0x40, 16, 17, 1, .ro, 0, 0⟩,
    ⟨0x40005120, 0x40, 16, 16, 1, .w1c, 0, 0⟩,
    ⟨0x40005120, 0x40, 16, 8, 8, .ro, 0, 0⟩,
    ⟨0x40005120, 0x40, 16, 7, 1, .ro, 0, 0⟩,
    ⟨0x40005120, 0x40, 16, 0, 7, .ro, 0, 0⟩,
    ⟨0x40005424, 0x40, 4, 8, 1, .rw, 0, 0⟩,
    ⟨0x40005424, 0x40, 4, 0, 4, .rw, 2, 0⟩,
    ⟨0x40005128, 0x40, 16, 24, 8, .wo, 0, 0⟩,
    ⟨0x40005128, 0x40, 16, 0, 16, .wo, 0, 0⟩,
    ⟨0x4000512C, 0x40, 16, 0, 32, .wo, 0, 0⟩ ]

/-- Fields of the MBX page. -/
def regRowsMBX : List FieldRow :=
  [ ⟨0x40006040, 0x0, 1, 24, 8, .rc, 0, 0⟩,
    ⟨0x40006040, 0x0, 1, 16, 8, .rc, 0, 0⟩,
    ⟨0x40006040, 0x0, 1, 0, 16, .rc, 0, 0⟩,
    ⟨0x40006100, 0x20, 7, 0, 32, .rw, 0, 0⟩,
    ⟨0x40006104, 0x20, 7, 20, 4, .wo, 0, 0⟩,
    ⟨0x40006104, 0x20, 7, 16, 4, .wo, 0, 0⟩,
    ⟨0x40006104, 0x20, 7, 0, 16, .wo, 0, 0⟩,
    ⟨0x40006108, 0x20, 7, 3, 1, .w1c, 0, 0⟩,
    ⟨0x40006108, 0x20, 7, 2, 1, .w1c, 0, 0⟩,
    ⟨0x40006108, 0x20, 7, 1, 1, .w1c, 0, 0⟩,
    ⟨0x40006108, 0x20, 7, 0, 1, .ro, 0, 0⟩,
    ⟨0x40006400, 0x40, 7, 0, 32, .ro, 0, 0⟩,
    ⟨0x40006404, 0x40, 7, 0, 32, .rc, 0, 0⟩,
    ⟨0x40006408, 0x40, 7, 0, 16, .ro, 0, 0⟩,
    ⟨0x4000640C, 0x40, 7, 0, 16, .w1c, 0, 0⟩ ]

/-- Fields of the CAP page. -/
def regRowsCAP : List FieldRow :=
  [ ⟨0x40020040, 0x0, 1, 24, 8, .ro, 0, 0⟩,
    ⟨0x40020040, 0x0, 1, 16, 6, .ro, 47, 0⟩,
    ⟨0x40020040, 0x0, 1, 5, 1, .ro, 0, 0⟩,
    ⟨0x40020040, 0x0, 1, 4, 1, .ro, 0, 0⟩,
    ⟨0x40020040, 0x0, 1, 3, 1, .ro, 0, 0⟩,
    ⟨0x40020040, 0x0, 1, 2, 1, .ro, 1, 0⟩,
    ⟨0x40020040, 0x0, 1, 1, 1, .ro, 0, 0⟩,
    ⟨0x40020040, 0x0, 1, 0, 1, .ro, 0, 0⟩,
    ⟨0x40020044, 0x0, 1, 8, 6, .rw, 47, 0⟩,
    ⟨0x40020044, 0x0, 1, 0, 1, .rw, 0, 0⟩,
    ⟨0x40020048, 0x0, 1, 16, 8, .rw, 8, 0⟩,
    ⟨0x40020048, 0x0, 1, 8, 8, .rw, 15, 0⟩,
    ⟨0x40020048, 0x0, 1, 0, 8, .rw, 3, 0⟩,
    ⟨0x4002004C, 0x0, 1, 16, 16, .rc, 0, 0⟩,
    ⟨0x4002004C, 0x0, 1, 0, 16, .rc, 0x8000, 0⟩,
    ⟨0x40020050, 0x0, 1, 16, 16, .ro, 0, 0⟩,
    ⟨0x40020050, 0x0, 1, 0, 16, .ro, 0x8000, 0⟩,
    ⟨0x40020054, 0x0, 1, 8, 1, .wo, 0, 0⟩,
    ⟨0x40020054, 0x0, 1, 0, 6, .wo, 0, 0⟩,
    ⟨0x40020058, 0x0, 1, 24, 6, .w1c, 0, 0⟩,
    ⟨0x40020058, 0x0, 1, 16, 6, .w1c, 0, 0⟩,
    ⟨0x40020058, 0x0, 1, 8, 6, .ro, 0, 0⟩,
    ⟨0x40020058, 0x0, 1, 4, 1, .ro, 0, 0⟩,
    ⟨0x40020058, 0x0, 1, 0, 4, .ro, 0, 0⟩,
    ⟨0x4002005C, 0x0, 1, 16, 8, .rw, 20, 0⟩,
    ⟨0x4002005C, 0x0, 1, 0, 16, .rw, 256, 0⟩,
    ⟨0x40020060, 0x0, 1, 0, 8, .ro, 0, 0⟩,
    ⟨0x40020064, 0x0, 1, 16, 16, .rc, 0, 0⟩,
    ⟨0x40020064, 0x0, 1, 8, 8, .rc, 0, 0⟩,
    ⟨0x40020064, 0x0, 1, 0, 8, .rc, 0, 0⟩,
    ⟨0x40020068, 0x0, 1, 31, 1, .ro, 0, 0⟩,
    ⟨0x40020068, 0x0, 1, 0, 20, .ro, 0xd447c, 0⟩,
    ⟨0x4002006C, 0x0, 1, 31, 1, .wo, 0, 0⟩,
    ⟨0x4002006C, 0x0, 1, 0, 8, .wo, 0, 0⟩ ]

/-- Fields of the HNT page. -/
def regRowsHNT : List FieldRow :=
  [ ⟨0x40021040, 0x0, 1, 16, 10, .ro, 0, 0⟩,
    ⟨0x40021040, 0x0, 1, 0, 10, .ro, 0, 0⟩,
    ⟨0x40021044, 0x0, 1, 0, 8, .rw, 44, 0⟩,
    ⟨0x40021048, 0x0, 1, 16, 16, .rc, 0, 0⟩,
    ⟨0x40021048, 0x0, 1, 0, 16, .rc, 0, 0⟩,
    ⟨0x4002104C, 0x0, 1, 16, 16, .rc, 0, 0⟩,
    ⟨0x4002104C, 0x0, 1, 0, 16, .rc, 0, 0⟩,
    ⟨0x40021050, 0x0, 1, 16, 16, .rc, 0, 0⟩,
    ⟨0x40021050, 0x0, 1, 0, 16, .rc, 0, 0⟩,
    ⟨0x40021054, 0x0, 1, 16, 16, .rc, 0, 0⟩,
    ⟨0x40021054, 0x0, 1, 0, 16, .rc, 0, 0⟩,
    ⟨0x40021058, 0x0, 1, 16, 16, .rc, 0, 0⟩,
    ⟨0x40021058, 0x0, 1, 0, 16, .rc, 0, 0⟩,
    ⟨0x4002105C, 0x0, 1, 0, 32, .rc, 0, 0⟩,
    ⟨0x40021060, 0x0, 1, 16, 4, .ro, 0, 0⟩,
    ⟨0x40021060, 0x0, 1, 0, 16, .rc, 0, 0⟩ ]

/-- Fields of the LNS page. -/
def regRowsLNS : List FieldRow :=
  [ ⟨0x40022040, 0x0, 1, 16, 4, .ro, 8, 0⟩,
    ⟨0x40022040, 0x0, 1, 8, 7, .ro, 64, 0⟩,
    ⟨0x40022040, 0x0, 1, 0, 7, .ro, 0, 0⟩,
    ⟨0x40022044, 0x0, 1, 0, 32, .ro, 0, 0⟩,
    ⟨0x40022048, 0x0, 1, 0, 32, .ro, 0, 0⟩,
    ⟨0x4002204C, 0x0, 1, 0, 32, .ro, 0, 0⟩,
    ⟨0x40022050, 0x0, 1, 0, 32, .ro, 0, 0⟩,
    ⟨0x40022054, 0x0, 1, 24, 8, .rc, 0, 0⟩,
    ⟨0x40022054, 0x0, 1, 0, 16, .rw, 60, 0⟩,
    ⟨0x40022058, 0x0, 1, 16, 16, .rc, 0, 0⟩,
    ⟨0x40022058, 0x0, 1, 0, 16, .rc, 0, 0⟩,
    ⟨0x40022100, 0x4, 64, 31, 1, .ro, 1, 0⟩,
    ⟨0x40022100, 0x4, 64, 0, 7, .ro, 0, 1⟩ ]

/-- Fields of the LANE page. -/
def regRowsLANE : List FieldRow :=
  [ ⟨0x40100040, 0x100, 72, 27, 3, .ro, 0, 0⟩,
    ⟨0x40100040, 0x100, 72, 16, 9, .ro, 0, 0⟩,
    ⟨0x40100040, 0x100, 72, 8, 7, .ro, 0, 0⟩,
    ⟨0x40100040, 0x100, 72, 0, 3, .ro, 0, 0⟩,
    ⟨0x40100044, 0x100, 72, 16, 16, .ro, 0, 0⟩,
    ⟨0x40100044, 0x100, 72, 0, 16, .ro, 0, 0⟩,
    ⟨0x40100048, 0x100, 72, 16, 16, .ro, 0, 0⟩,
    ⟨0x40100048, 0x100, 72, 0, 16, .ro, 0, 0⟩,
    ⟨0x4010004C, 0x100, 72, 0, 32, .ro, 0, 0⟩ ]

/-- Fields of the DEC page. -/
def regRowsDEC : List FieldRow :=
  [ ⟨0x40023040, 0x0, 1, 16, 4, .ro, 1, 0⟩,
    ⟨0x40023040, 0x0, 1, 8, 3, .ro, 4, 0⟩,
    ⟨0x40023040, 0x0, 1, 0, 8, .ro, 0, 0⟩,
    ⟨0x40023044, 0x0, 1, 8, 5, .rw, 4, 0⟩,
    ⟨0x40023044, 0x0, 1, 0, 5, .rw, 24, 0⟩,
    ⟨0x40023048, 0x0, 1, 0, 11, .rw, 1600, 0⟩,
    ⟨0x4002304C, 0x0, 1, 16, 8, .rw, 150, 0⟩,
    ⟨0x4002304C, 0x0, 1, 8, 3, .rw, 2, 0⟩,
    ⟨0x4002304C, 0x0, 1, 0, 8, .rw, 16, 0⟩,
    ⟨0x40023050, 0x0, 1, 6, 26, .rw, 0, 0⟩,
    ⟨0x40023050, 0x0, 1, 0, 1, .rw, 0, 0⟩,
    ⟨0x40023054, 0x0, 1, 0, 16, .rw, 1024, 0⟩,
    ⟨0x40023058, 0x0, 1, 0, 32, .rc, 0, 0⟩,
    ⟨0x4002305C, 0x0, 1, 16, 16, .rc, 0, 0⟩,
    ⟨0x4002305C, 0x0, 1, 0, 16, .rc, 0, 0⟩,
    ⟨0x40023060, 0x0, 1, 16, 16, .rc, 0, 0⟩,
    ⟨0x40023060, 0x0, 1, 0, 16, .rc, 0, 0⟩,
    ⟨0x40023064, 0x0, 1, 24, 8, .rc, 0, 0⟩,
    ⟨0x40023064, 0x0, 1, 16, 8, .rc, 0, 0⟩,
    ⟨0x40023064, 0x0, 1, 8, 8, .rc, 0, 0⟩,
    ⟨0x40023064, 0x0, 1, 0, 8, .rc, 0, 0⟩,
    ⟨0x40023068, 0x0, 1, 16, 10, .ro, 0, 0⟩,
    ⟨0x40023068, 0x0, 1, 0, 10, .ro, 0, 0⟩,
    ⟨0x4002306C, 0x0, 1, 0, 32, .rc, 0, 0⟩,
    ⟨0x40023100, 0x4, 4, 31, 1, .ro, 1, 0⟩,
    ⟨0x40023100, 0x4, 4, 0, 3, .ro, 0, 1⟩ ]

/-- Fields of the TXU page. -/
def regRowsTXU : List FieldRow :=
  [ ⟨0x40024040, 0x0, 1, 16, 8, .ro, 0, 0⟩,
    ⟨0x40024040, 0x0, 1, 8, 8, .ro, 0, 0⟩,
    ⟨0x40024040, 0x0, 1, 3, 1, .ro, 0, 0⟩,
    ⟨0x40024040, 0x0, 1, 0, 3, .ro, 0, 0⟩,
    ⟨0x40024044, 0x0, 1, 0, 13, .rw, 1024, 0⟩,
    ⟨0x40024048, 0x0, 1, 1, 2, .rw, 0, 0⟩,
    ⟨0x40024048, 0x0, 1, 0, 1, .rw, 0, 0⟩,
    ⟨0x4002404C, 0x0, 1, 0, 32, .rc, 0, 0⟩,
    ⟨0x40024050, 0x0, 1, 16, 16, .rc, 0, 0⟩,
    ⟨0x40024050, 0x0, 1, 0, 16, .rc, 0, 0⟩,
    ⟨0x40024054, 0x0, 1, 24, 8, .rc, 0, 0⟩,
    ⟨0x40024054, 0x0, 1, 16, 8, .rc, 0, 0⟩,
    ⟨0x40024054, 0x0, 1, 0, 16, .rc, 0, 0⟩,
    ⟨0x40024058, 0x0, 1, 16, 16, .ro, 0, 0⟩,
    ⟨0x40024058, 0x0, 1, 0, 16, .ro, 0, 0⟩,
    ⟨0x4002405C, 0x0, 1, 3, 1, .ro, 0, 0⟩,
    ⟨0x4002405C, 0x0, 1, 2, 1, .ro, 1, 0⟩,
    ⟨0x4002405C, 0x0, 1, 1, 1, .ro, 0, 0⟩,
    ⟨0x4002405C, 0x0, 1, 0, 1, .ro, 0, 0⟩ ]

/-- Fields of the SYN page. -/
def regRowsSYN : List FieldRow :=
  [ ⟨0x40025040, 0x0, 1, 16, 8, .ro, 0, 0⟩,
    ⟨0x40025040, 0x0, 1, 4, 1, .ro, 0, 0⟩,
    ⟨0x40025040, 0x0, 1, 3, 1, .ro, 0, 0⟩,
    ⟨0x40025040, 0x0, 1, 2, 1, .ro, 0, 0⟩,
    ⟨0x40025040, 0x0, 1, 1, 1, .ro, 0, 0⟩,
    ⟨0x40025040, 0x0, 1, 0, 1, .ro, 0, 0⟩,
    ⟨0x40025044, 0x0, 1, 8, 1, .wo, 0, 0⟩,
    ⟨0x40025044, 0x0, 1, 0, 4, .wo, 0, 0⟩,
    ⟨0x40025048, 0x0, 1, 24, 4, .w1c, 0, 0⟩,
    ⟨0x40025048, 0x0, 1, 16, 4, .w1c, 0, 0⟩,
    ⟨0x40025048, 0x0, 1, 12, 4, .ro, 0, 0⟩,
    ⟨0x40025048, 0x0, 1, 0, 9, .ro, 0, 0⟩,
    ⟨0x4002504C, 0x0, 1, 16, 8, .rw, 25, 0⟩,
    ⟨0x4002504C, 0x0, 1, 0, 16, .rw, 256, 0⟩,
    ⟨0x40025050, 0x0, 1, 31, 1, .wo, 0, 0⟩,
    ⟨0x40025050, 0x0, 1, 0, 8, .wo, 0, 0⟩,
    ⟨0x40025054, 0x0, 1, 24, 8, .ro, 0, 0⟩,
    ⟨0x40025054, 0x0, 1, 16, 1, .ro, 0, 0⟩,
    ⟨0x40025054, 0x0, 1, 0, 16, .ro, 0, 0⟩,
    ⟨0x40025058, 0x0, 1, 0, 16, .rw, 8192, 0⟩,
    ⟨0x4002505C, 0x0, 1, 0, 32, .ro, 0, 0⟩,
    ⟨0x40025060, 0x0, 1, 24, 8, .rc, 0, 0⟩,
    ⟨0x40025060, 0x0, 1, 16, 8, .rc, 0, 0⟩,
    ⟨0x40025060, 0x0, 1, 8, 8, .rc, 0, 0⟩,
    ⟨0x40025060, 0x0, 1, 0, 8, .rc, 0, 0⟩,
    ⟨0x40025200, 0x4, 64, 0, 32, .ro, 0, 0⟩,
    ⟨0x40025300, 0x4, 64, 0, 32, .rw, 0, 0⟩,
    ⟨0x40025400, 0x4, 32, 0, 32, .ro, 0, 0⟩,
    ⟨0x40025480, 0x4, 32, 0, 32, .rw, 0, 0⟩,
    ⟨0x40025800, 0x4, 512, 0, 32, .ro, 0, 0⟩ ]

/-- Fields of the LNK page. -/
def regRowsLNK : List FieldRow :=
  [ ⟨0x40026040, 0x0, 1, 16, 10, .ro, 0, 0⟩,
    ⟨0x40026040, 0x0, 1, 8, 5, .ro, 0, 0⟩,
    ⟨0x40026040, 0x0, 1, 0, 1, .ro, 0, 0⟩,
    ⟨0x40026044, 0x0, 1, 16, 1, .rw, 0, 0⟩,
    ⟨0x40026044, 0x0, 1, 0, 16, .rw, 0, 0⟩,
    ⟨0x40026048, 0x0, 1, 0, 32, .ro, 0, 0⟩,
    ⟨0x4002604C, 0x0, 1, 0, 32, .ro, 0, 0⟩,
    ⟨0x40026050, 0x0, 1, 24, 6, .rw, 20, 0⟩,
    ⟨0x40026050, 0x0, 1, 16, 3, .rw, 2, 0⟩,
    ⟨0x40026050, 0x0, 1, 3, 1, .rw, 0, 0⟩,
    ⟨0x40026050, 0x0, 1, 2, 1, .rw, 0, 0⟩,
    ⟨0x40026050, 0x0, 1, 1, 1, .rw, 0, 0⟩,
    ⟨0x40026050, 0x0, 1, 0, 1, .rw, 1, 0⟩,
    ⟨0x40026054, 0x0, 1, 0, 16, .rw, 64, 0⟩,
    ⟨0x40026058, 0x0, 1, 0, 16, .rw, 64, 0⟩,
    ⟨0x4002605C, 0x0, 1, 0, 32, .rc, 0, 0⟩,
    ⟨0x40026060, 0x0, 1, 24, 8, .rc, 0, 0⟩,
    ⟨0x40026060, 0x0, 1, 16, 8, .rc, 0, 0⟩,
    ⟨0x40026060, 0x0, 1, 8, 8, .rc, 0, 0⟩,
    ⟨0x40026060, 0x0, 1, 0, 8, .rc, 0, 0⟩,
    ⟨0x40026064, 0x0, 1, 24, 8, .rc, 0, 0⟩,
    ⟨0x40026064, 0x0, 1, 16, 8, .rc, 0, 0⟩,
    ⟨0x40026064, 0x0, 1, 8, 8, .rc, 0, 0⟩,
    ⟨0x40026064, 0x0, 1, 0, 8, .rc, 0, 0⟩,
    ⟨0x40026068, 0x0, 1, 16, 16, .rc, 0, 0⟩,
    ⟨0x40026068, 0x0, 1, 0, 16, .rc, 0, 0⟩,
    ⟨0x4002606C, 0x0, 1, 16, 16, .rc, 0, 0⟩,
    ⟨0x4002606C, 0x0, 1, 0, 16, .rc, 0, 0⟩,
    ⟨0x40026070, 0x0, 1, 24, 8, .rc, 0, 0⟩,
    ⟨0x40026070, 0x0, 1, 16, 8, .rc, 0, 0⟩,
    ⟨0x40026070, 0x0, 1, 8, 8, .rc, 0, 0⟩,
    ⟨0x40026070, 0x0, 1, 0, 8, .rc, 0, 0⟩,
    ⟨0x40026080, 0x0, 1, 10, 1, .rw, 0, 0⟩,
    ⟨0x40026080, 0x0, 1, 0, 10, .rw, 0, 0⟩,
    ⟨0x40026100, 0x4, 32, 0, 32, .ro, 0, 0⟩ ]

/-- Fields of the TTB page. -/
def regRowsTTB : List FieldRow :=
  [ ⟨0x40027040, 0x0, 1, 8, 2, .ro, 0, 0⟩,
    ⟨0x40027040, 0x0, 1, 4, 1, .ro, 0, 0⟩,
    ⟨0x40027040, 0x0, 1, 3, 1, .ro, 0, 0⟩,
    ⟨0x40027040, 0x0, 1, 2, 1, .ro, 0, 0⟩,
    ⟨0x40027040, 0x0, 1, 1, 1, .ro, 0, 0⟩,
    ⟨0x40027040, 0x0, 1, 0, 1, .ro, 0, 0⟩,
    ⟨0x40027044, 0x0, 1, 8, 16, .ro, 0, 0⟩,
    ⟨0x40027044, 0x0, 1, 0, 8, .ro, 0, 0⟩,
    ⟨0x40027048, 0x0, 1, 0, 32, .ro, 0, 0⟩,
    ⟨0x4002704C, 0x0, 1, 0, 2, .rw, 0, 0⟩,
    ⟨0x40027050, 0x0, 1, 0, 32, .ro, 0, 0⟩,
    ⟨0x40027054, 0x0, 1, 0, 4, .rw, 3, 0⟩,
    ⟨0x40027058, 0x0, 1, 0, 16, .rw, 4096, 0⟩,
    ⟨0x4002705C, 0x0, 1, 16, 16, .ro, 0, 0⟩,
    ⟨0x4002705C, 0x0, 1, 3, 1, .w1c, 0, 0⟩,
    ⟨0x4002705C, 0x0, 1, 2, 1, .w1c, 0, 0⟩,
    ⟨0x4002705C, 0x0, 1, 1, 1, .ro, 0, 0⟩,
    ⟨0x4002705C, 0x0, 1, 0, 1, .ro, 0, 0⟩,
    ⟨0x40027060, 0x0, 1, 0, 32, .ro, 0, 0⟩,
    ⟨0x40027064, 0x0, 1, 16, 16, .rc, 0, 0⟩,
    ⟨0x40027064, 0x0, 1, 8, 8, .rc, 0, 0⟩,
    ⟨0x40027064, 0x0, 1, 0, 8, .rc, 0, 0⟩,
    ⟨0x40027068, 0x0, 1, 0, 32, .rc, 0, 0⟩,
    ⟨0x4002706C, 0x0, 1, 24, 8, .rc, 0, 0⟩,
    ⟨0x4002706C, 0x0, 1, 16, 8, .rc, 0, 0⟩,
    ⟨0x4002706C, 0x0, 1, 8, 8, .rc, 0, 0⟩,
    ⟨0x4002706C, 0x0, 1, 0, 8, .rc, 0, 0⟩,
    ⟨0x40027070, 0x0, 1, 16, 16, .rc, 0, 0⟩,
    ⟨0x40027070, 0x0, 1, 0, 16, .rc, 0, 0⟩,
    ⟨0x40027100, 0x8, 16, 0, 32, .ro, 0, 0⟩,
    ⟨0x40027104, 0x8, 16, 0, 32, .ro, 0, 0⟩ ]

/-- Fields of the CIP page. -/
def regRowsCIP : List FieldRow :=
  [ ⟨0x40028040, 0x0, 1, 24, 4, .ro, 1, 0⟩,
    ⟨0x40028040, 0x0, 1, 16, 2, .ro, 2, 0⟩,
    ⟨0x40028040, 0x0, 1, 0, 11, .ro, 0, 0⟩,
    ⟨0x40028044, 0x0, 1, 16, 5, .rw, 0, 0⟩,
    ⟨0x40028044, 0x0, 1, 12, 1, .rw, 0, 0⟩,
    ⟨0x40028044, 0x0, 1, 0, 10, .rw, 0, 0⟩,
    ⟨0x40028048, 0x0, 1, 0, 2, .wo, 0, 0⟩,
    ⟨0x4002804C, 0x0, 1, 20, 4, .ro, 0, 0⟩,
    ⟨0x4002804C, 0x0, 1, 8, 8, .rc, 0, 0⟩,
    ⟨0x4002804C, 0x0, 1, 0, 1, .ro, 0, 0⟩,
    ⟨0x40028050, 0x0, 1, 31, 1, .ro, 0, 0⟩,
    ⟨0x40028050, 0x0, 1, 30, 1, .ro, 0, 0⟩,
    ⟨0x40028050, 0x0, 1, 24, 5, .ro, 0, 0⟩,
    ⟨0x40028050, 0x0, 1, 0, 24, .ro, 0, 0⟩,
    ⟨0x40028054, 0x0, 1, 0, 32, .rc, 0, 0⟩,
    ⟨0x40028058, 0x0, 1, 24, 8, .rc, 0, 0⟩,
    ⟨0x40028058, 0x0, 1, 16, 8, .rc, 0, 0⟩,
    ⟨0x40028058, 0x0, 1, 8, 8, .rc, 0, 0⟩,
    ⟨0x40028058, 0x0, 1, 0, 8, .rc, 0, 0⟩,
    ⟨0x40028060, 0x4, 8, 0, 32, .wo, 0, 0⟩,
    ⟨0x40028080, 0x0, 1, 0, 32, .ro, 0, 0⟩,
    ⟨0x40028084, 0x0, 1, 0, 32, .ro, 0, 0⟩,
    ⟨0x40028100, 0x4, 2, 31, 1, .ro, 1, 0⟩,
    ⟨0x40028100, 0x4, 2, 0, 2, .ro, 0, 1⟩ ]

/-- Fields of the EVR page. -/
def regRowsEVR : List FieldRow :=
  [ ⟨0x40007040, 0x0, 1, 31, 1, .w1c, 0, 0⟩,
    ⟨0x40007040, 0x0, 1, 30, 1, .w1c, 0, 0⟩,
    ⟨0x40007040, 0x0, 1, 16, 7, .ro, 0, 0⟩,
    ⟨0x40007044, 0x0, 1, 0, 12, .ro, 0, 0⟩,
    ⟨0x40007048, 0x0, 1, 0, 12, .wo, 0, 0⟩,
    ⟨0x4000704C, 0x0, 1, 0, 12, .wo, 0, 0⟩,
    ⟨0x40007050, 0x0, 1, 0, 16, .wo, 0, 0⟩,
    ⟨0x40007054, 0x0, 1, 16, 16, .rc, 0, 0⟩,
    ⟨0x40007054, 0x0, 1, 0, 16, .rc, 0, 0⟩,
    ⟨0x40007058, 0x0, 1, 0, 16, .w1c, 0, 0⟩,
    ⟨0x4000705C, 0x0, 1, 0, 16, .rw, 0, 0⟩,
    ⟨0x40007060, 0x0, 1, 0, 32, .rw, 0, 0⟩,
    ⟨0x40007100, 0x10, 96, 17, 1, .rw, 0, 0⟩,
    ⟨0x40007100, 0x10, 96, 16, 1, .rw, 0, 0⟩,
    ⟨0x40007100, 0x10, 96, 8, 8, .rw, 0, 0⟩,
    ⟨0x40007100, 0x10, 96, 0, 8, .rw, 0, 0⟩,
    ⟨0x40007104, 0x10, 96, 0, 32, .rw, 0, 0⟩,
    ⟨0x40007108, 0x10, 96, 8, 1, .ro, 1, 0⟩,
    ⟨0x40007108, 0x10, 96, 0, 8, .ro, 1, 0⟩,
    ⟨0x4000710C, 0x10, 96, 16, 16, .rc, 0, 0⟩,
    ⟨0x4000710C, 0x10, 96, 0, 16, .rc, 0, 0⟩,
    ⟨0x40007800, 0x4, 64, 0, 32, .rc, 0, 0⟩ ]

/-- Fields of the TMR page. -/
def regRowsTMR : List FieldRow :=
  [ ⟨0x40010040, 0x1000, 8, 24, 8, .rw, 0, 0⟩,
    ⟨0x40010040, 0x1000, 8, 16, 8, .rw, 0, 0⟩,
    ⟨0x40010040, 0x1000, 8, 15, 1, .rw, 0, 0⟩,
    ⟨0x40010040, 0x1000, 8, 14, 1, .rw, 0, 0⟩,
    ⟨0x40010040, 0x1000, 8, 13, 1, .rw, 0, 0⟩,
    ⟨0x40010040, 0x1000, 8, 12, 1, .rw, 0, 0⟩,
    ⟨0x40010040, 0x1000, 8, 11, 1, .rw, 0, 0⟩,
    ⟨0x40010040, 0x1000, 8, 10, 1, .rw, 0, 0⟩,
    ⟨0x40010040, 0x1000, 8, 4, 4, .rw, 0, 0⟩,
    ⟨0x40010040, 0x1000, 8, 0, 3, .rw, 0, 0⟩,
    ⟨0x40010044, 0x1000, 8, 0, 32, .rw, 0, 0⟩,
    ⟨0x40010048, 0x1000, 8, 0, 32, .rw, 0, 0⟩,
    ⟨0x4001004C, 0x1000, 8, 0, 32, .rw, 0xffffffff, 0⟩,
    ⟨0x40010050, 0x1000, 8, 0, 32, .ro, 0, 0⟩,
    ⟨0x40010054, 0x1000, 8, 0, 32, .ro, 0, 0⟩,
    ⟨0x40010058, 0x1000, 8, 8, 1, .ro, 0, 0⟩,
    ⟨0x40010058, 0x1000, 8, 7, 1, .w1c, 0, 0⟩,
    ⟨0x40010058, 0x1000, 8, 6, 1, .w1c, 0, 0⟩,
    ⟨0x40010058, 0x1000, 8, 5, 1, .w1c, 0, 0⟩,
    ⟨0x40010058, 0x1000, 8, 4, 1, .w1c, 0, 0⟩,
    ⟨0x40010058, 0x1000, 8, 3, 1, .w1c, 0, 0⟩,
    ⟨0x40010058, 0x1000, 8, 2, 1, .ro, 0, 0⟩,
    ⟨0x40010058, 0x1000, 8, 1, 1, .ro, 0, 0⟩,
    ⟨0x40010058, 0x1000, 8, 0, 1, .ro, 0, 0⟩,
    ⟨0x4001005C, 0x1000, 8, 0, 24, .ro, 0, 0⟩,
    ⟨0x40010060, 0x1000, 8, 4, 1, .wo, 0, 0⟩,
    ⟨0x40010060, 0x1000, 8, 3, 1, .wo, 0, 0⟩,
    ⟨0x40010060, 0x1000, 8, 2, 1, .wo, 0, 0⟩,
    ⟨0x40010060, 0x1000, 8, 1, 1, .wo, 0, 0⟩,
    ⟨0x40010060, 0x1000, 8, 0, 1, .wo, 0, 0⟩,
    ⟨0x40010064, 0x1000, 8, 8, 2, .rw, 0, 0⟩,
    ⟨0x40010064, 0x1000, 8, 0, 8, .rw, 0, 0⟩ ]

/-- Fields of the DAL page. -/
def regRowsDAL : List FieldRow :=
  [ ⟨0x4002A040, 0x0, 1, 8, 4, .rw, 3, 0⟩,
    ⟨0x4002A040, 0x0, 1, 4, 3, .rw, 4, 0⟩,
    ⟨0x4002A040, 0x0, 1, 0, 1, .rw, 0, 0⟩,
    ⟨0x4002A044, 0x0, 1, 5, 3, .ro, 0, 0⟩,
    ⟨0x4002A044, 0x0, 1, 4, 1, .w1c, 0, 0⟩,
    ⟨0x4002A044, 0x0, 1, 3, 1, .ro, 0, 0⟩,
    ⟨0x4002A044, 0x0, 1, 2, 1, .ro, 0, 0⟩,
    ⟨0x4002A044, 0x0, 1, 1, 1, .ro, 0, 0⟩,
    ⟨0x4002A044, 0x0, 1, 0, 1, .ro, 0, 0⟩,
    ⟨0x4002A048, 0x0, 1, 0, 32, .rw, 0, 0⟩,
    ⟨0x4002A04C, 0x0, 1, 16, 16, .wo, 0, 0⟩,
    ⟨0x4002A04C, 0x0, 1, 11, 3, .wo, 0, 0⟩,
    ⟨0x4002A04C, 0x0, 1, 10, 1, .wo, 0, 0⟩,
    ⟨0x4002A04C, 0x0, 1, 9, 1, .wo, 0, 0⟩,
    ⟨0x4002A04C, 0x0, 1, 8, 1, .wo, 0, 0⟩,
    ⟨0x4002A04C, 0x0, 1, 0, 6, .wo, 0, 0⟩,
    ⟨0x4002A050, 0x0, 1, 16, 16, .rc, 0, 0⟩,
    ⟨0x4002A050, 0x0, 1, 8, 8, .rc, 0, 0⟩,
    ⟨0x4002A050, 0x0, 1, 7, 1, .rc, 0, 0⟩,
    ⟨0x4002A050, 0x0, 1, 6, 1, .rc, 0, 0⟩,
    ⟨0x4002A050, 0x0, 1, 0, 6, .rc, 0, 0⟩,
    ⟨0x4002A054, 0x0, 1, 0, 32, .rc, 0, 0⟩,
    ⟨0x4002A058, 0x0, 1, 9, 1, .w1c, 0, 0⟩,
    ⟨0x4002A058, 0x0, 1, 6, 2, .ro, 0, 0⟩,
    ⟨0x4002A058, 0x0, 1, 0, 6, .ro, 0, 0⟩,
    ⟨0x4002A05C, 0x0, 1, 24, 8, .rc, 0, 0⟩,
    ⟨0x4002A05C, 0x0, 1, 16, 8, .rc, 0, 0⟩,
    ⟨0x4002A05C, 0x0, 1, 0, 16, .rc, 0, 0⟩ ]

/-- Fields of the DIM page. -/
def regRowsDIM : List FieldRow :=
  [ ⟨0x4002B040, 0x0, 1, 2, 1, .rw, 0, 0⟩,
    ⟨0x4002B040, 0x0, 1, 0, 2, .rw, 0, 0⟩,
    ⟨0x4002B044, 0x0, 1, 16, 16, .rw, 0, 0⟩,
    ⟨0x4002B044, 0x0, 1, 0, 12, .rw, 4095, 0⟩,
    ⟨0x4002B048, 0x0, 1, 16, 1, .ro, 0, 0⟩,
    ⟨0x4002B048, 0x0, 1, 0, 12, .ro, 4095, 0⟩,
    ⟨0x4002B04C, 0x0, 1, 31, 1, .ro, 0, 0⟩,
    ⟨0x4002B04C, 0x0, 1, 16, 10, .ro, 0, 0⟩,
    ⟨0x4002B04C, 0x0, 1, 0, 12, .ro, 0, 0⟩ ]

/-- Fields of the GPI page. -/
def regRowsGPI : List FieldRow :=
  [ ⟨0x40047040, 0x0, 1, 0, 16, .ro, 0, 0⟩,
    ⟨0x40047044, 0x0, 1, 0, 16, .rw, 0, 0⟩,
    ⟨0x40047048, 0x0, 1, 0, 16, .wo, 0, 0⟩,
    ⟨0x4004704C, 0x0, 1, 0, 16, .wo, 0, 0⟩,
    ⟨0x40047050, 0x0, 1, 0, 16, .wo, 0, 0⟩,
    ⟨0x40047100, 0x4, 16, 5, 1, .rw, 0, 0⟩,
    ⟨0x40047100, 0x4, 16, 4, 1, .rw, 0, 0⟩,
    ⟨0x40047100, 0x4, 16, 2, 2, .rw, 0, 0⟩,
    ⟨0x40047100, 0x4, 16, 0, 2, .rw, 0, 0⟩ ]

/-- Fields of the UART page. -/
def regRowsUART : List FieldRow :=
  [ ⟨0x4002C100, 0x700, 2, 8, 4, .rw, 1, 0⟩,
    ⟨0x4002C100, 0x700, 2, 3, 1, .rw, 0, 0⟩,
    ⟨0x4002C100, 0x700, 2, 2, 1, .rw, 0, 0⟩,
    ⟨0x4002C100, 0x700, 2, 1, 1, .rw, 0, 0⟩,
    ⟨0x4002C100, 0x700, 2, 0, 1, .rw, 0, 0⟩,
    ⟨0x4002C104, 0x700, 2, 0, 24, .rw, 5000, 0⟩,
    ⟨0x4002C108, 0x700, 2, 10, 1, .ro, 0, 0⟩,
    ⟨0x4002C108, 0x700, 2, 9, 1, .ro, 0, 0⟩,
    ⟨0x4002C108, 0x700, 2, 8, 1, .ro, 0, 0⟩,
    ⟨0x4002C108, 0x700, 2, 0, 8, .rw, 0, 0⟩,
    ⟨0x4002C10C, 0x700, 2, 16, 1, .w1c, 0, 0⟩,
    ⟨0x4002C10C, 0x700, 2, 8, 5, .ro, 0, 0⟩,
    ⟨0x4002C10C, 0x700, 2, 0, 5, .ro, 0, 0⟩ ]

/-- Fields of the SPI page. -/
def regRowsSPI : List FieldRow :=
  [ ⟨0x4002D100, 0x700, 2, 8, 8, .rw, 0, 0⟩,
    ⟨0x4002D100, 0x700, 2, 4, 1, .rw, 0, 0⟩,
    ⟨0x4002D100, 0x700, 2, 2, 2, .rw, 0, 0⟩,
    ⟨0x4002D100, 0x700, 2, 1, 1, .rw, 0, 0⟩,
    ⟨0x4002D100, 0x700, 2, 0, 1, .rw, 0, 0⟩,
    ⟨0x4002D104, 0x700, 2, 0, 16, .wo, 0, 0⟩,
    ⟨0x4002D108, 0x700, 2, 0, 8, .rw, 0, 0⟩,
    ⟨0x4002D10C, 0x700, 2, 17, 1, .w1c, 0, 0⟩,
    ⟨0x4002D10C, 0x700, 2, 16, 1, .w1c, 0, 0⟩,
    ⟨0x4002D10C, 0x700, 2, 15, 1, .ro, 0, 0⟩,
    ⟨0x4002D10C, 0x700, 2, 8, 5, .ro, 0, 0⟩,
    ⟨0x4002D10C, 0x700, 2, 0, 5, .ro, 0, 0⟩ ]

/-- Fields of the IIC page. -/
def regRowsIIC : List FieldRow :=
  [ ⟨0x4002E100, 0x700, 2, 16, 7, .rw, 0, 0⟩,
    ⟨0x4002E100, 0x700, 2, 8, 2, .rw, 0, 0⟩,
    ⟨0x4002E100, 0x700, 2, 1, 1, .rw, 0, 0⟩,
    ⟨0x4002E100, 0x700, 2, 0, 1, .rw, 0, 0⟩,
    ⟨0x4002E104, 0x700, 2, 8, 8, .wo, 0, 0⟩,
    ⟨0x4002E104, 0x700, 2, 7, 1, .wo, 0, 0⟩,
    ⟨0x4002E104, 0x700, 2, 0, 7, .wo, 0, 0⟩,
    ⟨0x4002E108, 0x700, 2, 0, 8, .rw, 0, 0⟩,
    ⟨0x4002E10C, 0x700, 2, 17, 1, .w1c, 0, 0⟩,
    ⟨0x4002E10C, 0x700, 2, 16, 1, .w1c, 0, 0⟩,
    ⟨0x4002E10C, 0x700, 2, 15, 1, .ro, 0, 0⟩,
    ⟨0x4002E10C, 0x700, 2, 8, 5, .ro, 0, 0⟩,
    ⟨0x4002E10C, 0x700, 2, 0, 5, .ro, 0, 0⟩ ]

/-- Fields of the TAG page. -/
def regRowsTAG : List FieldRow :=
  [ ⟨0x40029040, 0x0, 1, 8, 2, .ro, 0, 0⟩,
    ⟨0x40029040, 0x0, 1, 6, 1, .ro, 0, 0⟩,
    ⟨0x40029040, 0x0, 1, 5, 1, .ro, 0, 0⟩,
    ⟨0x40029040, 0x0, 1, 4, 1, .ro, 0, 0⟩,
    ⟨0x40029040, 0x0, 1, 3, 1, .ro, 0, 0⟩,
    ⟨0x40029040, 0x0, 1, 2, 1, .ro, 0, 0⟩,
    ⟨0x40029040, 0x0, 1, 1, 1, .ro, 0, 0⟩,
    ⟨0x40029040, 0x0, 1, 0, 1, .ro, 0, 0⟩,
    ⟨0x40029044, 0x0, 1, 4, 1, .rw, 0, 0⟩,
    ⟨0x40029044, 0x0, 1, 3, 1, .rw, 1, 0⟩,
    ⟨0x40029044, 0x0, 1, 2, 1, .rw, 1, 0⟩,
    ⟨0x40029044, 0x0, 1, 1, 1, .rw, 0, 0⟩,
    ⟨0x40029044, 0x0, 1, 0, 1, .rw, 1, 0⟩,
    ⟨0x40029048, 0x0, 1, 0, 32, .ro, 0, 0⟩,
    ⟨0x4002904C, 0x0, 1, 0, 32, .ro, 0, 0⟩,
    ⟨0x40029050, 0x0, 1, 24, 8, .rc, 0, 0⟩,
    ⟨0x40029050, 0x0, 1, 16, 8, .rc, 0, 0⟩,
    ⟨0x40029050, 0x0, 1, 0, 16, .rc, 0, 0⟩,
    ⟨0x40029054, 0x0, 1, 0, 24, .ro, 0, 0⟩,
    ⟨0x40029058, 0x0, 1, 16, 8, .ro, 0, 0⟩,
    ⟨0x40029058, 0x0, 1, 8, 8, .ro, 0, 0⟩,
    ⟨0x40029058, 0x0, 1, 1, 1, .ro, 0, 0⟩,
    ⟨0x40029058, 0x0, 1, 0, 1, .ro, 0, 0⟩ ]

/-- Fields of the PWR page. -/
def regRowsPWR : List FieldRow :=
  [ ⟨0x40001040, 0x0, 1, 2, 1, .ro, 0, 0⟩,
    ⟨0x40001040, 0x0, 1, 1, 1, .ro, 1, 0⟩,
    ⟨0x40001040, 0x0, 1, 0, 1, .ro, 0, 0⟩,
    ⟨0x40001044, 0x0, 1, 16, 16, .ro, 0, 0⟩,
    ⟨0x40001044, 0x0, 1, 0, 16, .ro, 0, 0⟩,
    ⟨0x40001048, 0x0, 1, 24, 8, .ro, 0, 0⟩,
    ⟨0x40001048, 0x0, 1, 18, 6, .ro, 0, 0⟩,
    ⟨0x40001048, 0x0, 1, 16, 2, .ro, 0, 0⟩,
    ⟨0x40001048, 0x0, 1, 0, 16, .rc, 0, 0⟩,
    ⟨0x40001100, 0x4, 64, 8, 1, .ro, 0, 0⟩,
    ⟨0x40001100, 0x4, 64, 4, 2, .ro, 0, 0⟩,
    ⟨0x40001100, 0x4, 64, 0, 2, .rw, 0, 0⟩,
    ⟨0x40001200, 0x10, 8, 0, 32, .rw, 0xffffffff, 0⟩,
    ⟨0x40001204, 0x10, 8, 0, 32, .rw, 0xffffffff, 0⟩,
    ⟨0x40001208, 0x10, 8, 0, 32, .rw, 0xffffffff, 0⟩ ]

/-- Fields of the BKP page, part 1. -/
def regRowsBKP0 : List FieldRow :=
  [ ⟨0x40002040, 0x0, 1, 7, 1, .ro, 0, 0⟩,
    ⟨0x40002040, 0x0, 1, 6, 1, .w1c, 0, 0⟩,
    ⟨0x40002040, 0x0, 1, 5, 1, .ro, 0, 0⟩,
    ⟨0x40002040, 0x0, 1, 4, 1, .ro, 0, 0⟩,
    ⟨0x40002040, 0x0, 1, 3, 1, .ro, 0, 0⟩,
    ⟨0x40002040, 0x0, 1, 2, 1, .ro, 0, 0⟩,
    ⟨0x40002040, 0x0, 1, 1, 1, .ro, 0, 0⟩,
    ⟨0x40002040, 0x0, 1, 0, 1, .w1c, 1, 0⟩,
    ⟨0x40002044, 0x0, 1, 0, 1, .w1s, 0, 0⟩,
    ⟨0x40002048, 0x0, 1, 24, 8, .rw, 25, 0⟩,
    ⟨0x40002048, 0x0, 1, 8, 10, .rw, 5, 0⟩,
    ⟨0x40002048, 0x0, 1, 0, 2, .rw, 0, 0⟩,
    ⟨0x4000204C, 0x0, 1, 16, 12, .ro, 0, 0⟩,
    ⟨0x4000204C, 0x0, 1, 8, 4, .ro, 1, 0⟩,
    ⟨0x4000204C, 0x0, 1, 0, 5, .ro, 1, 0⟩,
    ⟨0x40002050, 0x0, 1, 16, 5, .ro, 0, 0⟩,
    ⟨0x40002050, 0x0, 1, 8, 6, .ro, 0, 0⟩,
    ⟨0x40002050, 0x0, 1, 0, 6, .ro, 0, 0⟩,
    ⟨0x40002054, 0x0, 1, 0, 15, .ro, 0, 0⟩,
    ⟨0x40002060, 0x0, 1, 30, 2, .wo, 0, 0⟩,
    ⟨0x40002060, 0x0, 1, 0, 24, .wo, 0, 0⟩,
    ⟨0x40002064, 0x0, 1, 31, 1, .rw, 0, 0⟩,
    ⟨0x40002064, 0x0, 1, 0, 15, .rw, 0, 0⟩,
    ⟨0x40002068, 0x0, 1, 31, 1, .ro, 0, 0⟩,
    ⟨0x40002068, 0x0, 1, 0, 15, .ro, 0, 0⟩,
    ⟨0x4000206C, 0x0, 1, 1, 1, .rw, 1, 0⟩,
    ⟨0x4000206C, 0x0, 1, 0, 1, .rw, 1, 0⟩,
    ⟨0x40002070, 0x0, 1, 28, 4, .ro, 0, 0⟩,
    ⟨0x40002070, 0x0, 1, 25, 3, .rw, 0, 0⟩,
    ⟨0x40002070, 0x0, 1, 24, 1, .rw, 0, 0⟩,
    ⟨0x40002070, 0x0, 1, 20, 4, .ro, 0, 0⟩,
    ⟨0x40002070, 0x0, 1, 0, 16, .rw, 0, 0⟩,
    ⟨0x40002074, 0x0, 1, 16, 16, .rw, 0, 0⟩,
    ⟨0x40002074, 0x0, 1, 0, 16, .rw, 0, 0⟩,
    ⟨0x40002100, 0x10, 4, 0, 32, .rw, 0, 0⟩,
    ⟨0x40002104, 0x10, 4, 0, 32, .rw, 0, 0⟩,
    ⟨0x40002108, 0x10, 4, 0, 32, .ro, 0, 0⟩,
    ⟨0x4000210C, 0x10, 4, 13, 1, .w1c, 0, 0⟩,
    ⟨0x4000210C, 0x10, 4, 12, 1, .w1c, 0, 0⟩,
    ⟨0x4000210C, 0x10, 4, 11, 1, .rw, 0, 0⟩ ]

/-- Fields of the BKP page, part 2. -/
def regRowsBKP1 : List FieldRow :=
  [ ⟨0x4000210C, 0x10, 4, 10, 1, .rw, 0, 0⟩,
    ⟨0x4000210C, 0x10, 4, 9, 1, .rw, 0, 0⟩,
    ⟨0x4000210C, 0x10, 4, 8, 1, .rw, 0, 0⟩,
    ⟨0x4000210C, 0x10, 4, 0, 6, .rw, 0, 0⟩,
    ⟨0x40002058, 0x0, 1, 16, 12, .rw, 0, 0⟩,
    ⟨0x40002058, 0x0, 1, 8, 4, .rw, 0, 0⟩,
    ⟨0x40002058, 0x0, 1, 0, 5, .rw, 0, 0⟩,
    ⟨0x4000205C, 0x0, 1, 16, 5, .rw, 0, 0⟩,
    ⟨0x4000205C, 0x0, 1, 8, 6, .rw, 0, 0⟩,
    ⟨0x4000205C, 0x0, 1, 0, 6, .rw, 0, 0⟩ ]

/-- Fields of the BKP page. -/
def regRowsBKP : List FieldRow := regRowsBKP0 ++ regRowsBKP1

/-- Fields of the CPU page. -/
def regRowsCPU : List FieldRow :=
  [ ⟨0x40046040, 0x0, 1, 24, 4, .ro, 1, 0⟩,
    ⟨0x40046040, 0x0, 1, 16, 3, .ro, 4, 0⟩,
    ⟨0x40046040, 0x0, 1, 8, 4, .ro, 0, 0⟩,
    ⟨0x40046040, 0x0, 1, 0, 4, .ro, 0, 0⟩,
    ⟨0x40046044, 0x0, 1, 1, 31, .ro, 0, 0⟩,
    ⟨0x40046048, 0x0, 1, 24, 8, .rc, 0, 0⟩,
    ⟨0x40046048, 0x0, 1, 16, 8, .rc, 0, 0⟩,
    ⟨0x40046048, 0x0, 1, 0, 16, .rc, 0, 0⟩,
    ⟨0x40046080, 0x4, 4, 0, 32, .wo, 0, 0⟩,
    ⟨0x40046100, 0x4, 4, 31, 1, .ro, 1, 0⟩,
    ⟨0x40046100, 0x4, 4, 0, 3, .ro, 0, 1⟩ ]

/-- Fields of the SRM page. -/
def regRowsSRM : List FieldRow :=
  [ ⟨0x40041040, 0x0, 1, 16, 8, .ro, 0, 0⟩,
    ⟨0x40041040, 0x0, 1, 0, 4, .ro, 8, 0⟩,
    ⟨0x4004104C, 0x0, 1, 16, 16, .rc, 0, 0⟩,
    ⟨0x4004104C, 0x0, 1, 0, 16, .rc, 0, 0⟩,
    ⟨0x40041050, 0x0, 1, 2, 30, .ro, 0, 0⟩,
    ⟨0x40041054, 0x0, 1, 0, 8, .rw, 24, 0⟩,
    ⟨0x40041100, 0x4, 32, 31, 1, .ro, 1, 0⟩,
    ⟨0x40041100, 0x4, 32, 8, 8, .ro, 0, 0⟩,
    ⟨0x40041100, 0x4, 32, 4, 4, .ro, 0, 0⟩,
    ⟨0x40041100, 0x4, 32, 0, 4, .ro, 8, 0⟩,
    ⟨0x40041044, 0x0, 1, 0, 32, .rw, 0, 0⟩,
    ⟨0x40041048, 0x0, 1, 0, 32, .rw, 0xaa000000, 0⟩ ]

/-- Fields of the NVM page. -/
def regRowsNVM : List FieldRow :=
  [ ⟨0x40042040, 0x0, 1, 4, 4, .ro, 0, 0⟩,
    ⟨0x40042040, 0x0, 1, 3, 1, .w1c, 0, 0⟩,
    ⟨0x40042040, 0x0, 1, 2, 1, .ro, 0, 0⟩,
    ⟨0x40042040, 0x0, 1, 1, 1, .w1c, 0, 0⟩,
    ⟨0x40042040, 0x0, 1, 0, 1, .ro, 0, 0⟩,
    ⟨0x40042044, 0x0, 1, 0, 32, .rw, 0, 0⟩,
    ⟨0x40042048, 0x0, 1, 0, 32, .rw, 0, 0⟩,
    ⟨0x4004204C, 0x0, 1, 0, 2, .wo, 0, 0⟩,
    ⟨0x40042050, 0x0, 1, 16, 16, .rc, 0, 0⟩,
    ⟨0x40042050, 0x0, 1, 0, 7, .ro, 64, 0⟩ ]

/-- Fields of the DMC page. -/
def regRowsDMC : List FieldRow :=
  [ ⟨0x40040040, 0x0, 1, 16, 6, .ro, 0, 0⟩,
    ⟨0x40040040, 0x0, 1, 10, 6, .ro, 0, 0⟩,
    ⟨0x40040040, 0x0, 1, 6, 4, .ro, 0, 0⟩,
    ⟨0x40040040, 0x0, 1, 5, 1, .ro, 0, 0⟩,
    ⟨0x40040040, 0x0, 1, 4, 1, .ro, 0, 0⟩,
    ⟨0x40040040, 0x0, 1, 3, 1, .ro, 0, 0⟩,
    ⟨0x40040040, 0x0, 1, 2, 1, .ro, 0, 0⟩,
    ⟨0x40040040, 0x0, 1, 1, 1, .ro, 0, 0⟩,
    ⟨0x40040040, 0x0, 1, 0, 1, .ro, 0, 0⟩,
    ⟨0x40040044, 0x0, 1, 0, 1, .rw, 0, 0⟩,
    ⟨0x40040048, 0x0, 1, 31, 1, .w1s, 0, 0⟩,
    ⟨0x40040048, 0x0, 1, 18, 6, .ro, 0, 0⟩,
    ⟨0x40040048, 0x0, 1, 12, 6, .ro, 0, 0⟩,
    ⟨0x4004004C, 0x0, 1, 16, 16, .rc, 0, 0⟩,
    ⟨0x4004004C, 0x0, 1, 0, 5, .rw, 11, 0⟩,
    ⟨0x40040050, 0x0, 1, 16, 16, .rc, 0, 0⟩,
    ⟨0x40040050, 0x0, 1, 0, 16, .rc, 0, 0⟩,
    ⟨0x40040054, 0x0, 1, 3, 29, .ro, 0, 0⟩,
    ⟨0x40040058, 0x0, 1, 16, 8, .ro, 0, 0⟩,
    ⟨0x40040058, 0x0, 1, 8, 8, .ro, 0, 0⟩,
    ⟨0x40040058, 0x0, 1, 0, 8, .ro, 0, 0⟩ ]

/-- Fields of the COH page. -/
def regRowsCOH : List FieldRow :=
  [ ⟨0x40043040, 0x0, 1, 16, 4, .ro, 15, 0⟩,
    ⟨0x40043040, 0x0, 1, 8, 8, .ro, 0, 0⟩,
    ⟨0x40043040, 0x0, 1, 0, 3, .ro, 0, 0⟩,
    ⟨0x40043044, 0x0, 1, 4, 4, .ro, 0, 0⟩,
    ⟨0x40043044, 0x0, 1, 0, 4, .ro, 0, 0⟩,
    ⟨0x40043048, 0x0, 1, 0, 1, .w1s, 0, 0⟩,
    ⟨0x4004304C, 0x0, 1, 0, 32, .ro, 0, 0⟩,
    ⟨0x40043050, 0x0, 1, 25, 7, .rw, 64, 0⟩,
    ⟨0x40043054, 0x0, 1, 16, 16, .ro, 0, 0⟩,
    ⟨0x40043054, 0x0, 1, 1, 1, .ro, 0, 0⟩,
    ⟨0x40043054, 0x0, 1, 0, 1, .ro, 0, 0⟩,
    ⟨0x40043058, 0x0, 1, 24, 8, .rc, 0, 0⟩,
    ⟨0x40043058, 0x0, 1, 16, 8, .rc, 0, 0⟩,
    ⟨0x40043058, 0x0, 1, 8, 8, .rc, 0, 0⟩,
    ⟨0x40043058, 0x0, 1, 0, 8, .rc, 0, 0⟩ ]

/-- Fields of the UPD page. -/
def regRowsUPD : List FieldRow :=
  [ ⟨0x40044040, 0x0, 1, 11, 1, .w1c, 0, 0⟩,
    ⟨0x40044040, 0x0, 1, 10, 1, .w1c, 0, 0⟩,
    ⟨0x40044040, 0x0, 1, 9, 1, .ro, 0, 0⟩,
    ⟨0x40044040, 0x0, 1, 8, 1, .ro, 0, 0⟩,
    ⟨0x40044040, 0x0, 1, 0, 3, .ro, 0, 0⟩,
    ⟨0x40044044, 0x0, 1, 0, 32, .ro, 0, 0⟩,
    ⟨0x40044048, 0x0, 1, 0, 32, .ro, 0, 0⟩,
    ⟨0x4004404C, 0x0, 1, 16, 2, .ro, 0, 0⟩,
    ⟨0x4004404C, 0x0, 1, 0, 16, .ro, 0, 0⟩,
    ⟨0x40044050, 0x0, 1, 0, 32, .ro, 0, 0⟩,
    ⟨0x40044054, 0x0, 1, 0, 32, .ro, 0, 0⟩,
    ⟨0x40044058, 0x0, 1, 4, 4, .ro, 0, 0⟩,
    ⟨0x40044058, 0x0, 1, 0, 4, .ro, 0, 0⟩,
    ⟨0x4004405C, 0x0, 1, 24, 8, .rc, 0, 0⟩,
    ⟨0x4004405C, 0x0, 1, 16, 8, .rc, 0, 0⟩,
    ⟨0x4004405C, 0x0, 1, 0, 16, .rc, 0, 0⟩ ]

/-- Fields of the INS page. -/
def regRowsINS : List FieldRow :=
  [ ⟨0x40045040, 0x0, 1, 0, 8, .w1c, 0, 0⟩,
    ⟨0x40045044, 0x0, 1, 8, 1, .rw, 0, 0⟩,
    ⟨0x40045044, 0x0, 1, 0, 8, .rw, 128, 0⟩,
    ⟨0x40045048, 0x0, 1, 0, 32, .rc, 0, 0⟩,
    ⟨0x4004504C, 0x0, 1, 0, 16, .rw, 0, 0⟩,
    ⟨0x40045050, 0x0, 1, 0, 1, .w1s, 0, 0⟩,
    ⟨0x40045054, 0x0, 1, 16, 16, .ro, 0, 0⟩,
    ⟨0x40045054, 0x0, 1, 8, 8, .ro, 0, 0⟩,
    ⟨0x40045054, 0x0, 1, 0, 6, .rc, 0, 0⟩,
    ⟨0x40045060, 0x4, 8, 0, 32, .rw, 0, 0⟩,
    ⟨0x40045200, 0x4, 128, 8, 8, .rw, 0, 0⟩,
    ⟨0x40045200, 0x4, 128, 0, 8, .rw, 0, 0⟩,
    ⟨0x40045800, 0x8, 256, 0, 32, .ro, 0, 0⟩,
    ⟨0x40045804, 0x8, 256, 0, 16, .ro, 0, 0⟩ ]

/-- The fields defined in the page that holds address `a` (Table ARC-6). -/
def pageRows (a : Nat) : List FieldRow :=
  if 0x40100000 ≤ a then regRowsLANE
  else if 0x40010000 ≤ a ∧ a < 0x40018000 then regRowsTMR
  else match a / 0x1000 with
  | 0x40000 => regRowsDEV
  | 0x40003 => regRowsTMP
  | 0x40004 => regRowsMSN
  | 0x40005 => regRowsRNG
  | 0x40006 => regRowsMBX
  | 0x40020 => regRowsCAP
  | 0x40021 => regRowsHNT
  | 0x40022 => regRowsLNS
  | 0x40023 => regRowsDEC
  | 0x40024 => regRowsTXU
  | 0x40025 => regRowsSYN
  | 0x40026 => regRowsLNK
  | 0x40027 => regRowsTTB
  | 0x40028 => regRowsCIP
  | 0x40007 => regRowsEVR
  | 0x4002A => regRowsDAL
  | 0x4002B => regRowsDIM
  | 0x40047 => regRowsGPI
  | 0x4002C => regRowsUART
  | 0x4002D => regRowsSPI
  | 0x4002E => regRowsIIC
  | 0x40029 => regRowsTAG
  | 0x40001 => regRowsPWR
  | 0x40002 => regRowsBKP
  | 0x40046 => regRowsCPU
  | 0x40041 => regRowsSRM
  | 0x40042 => regRowsNVM
  | 0x40040 => regRowsDMC
  | 0x40043 => regRowsCOH
  | 0x40044 => regRowsUPD
  | 0x40045 => regRowsINS
  | _ => []

/-- Does the row name a register at byte address `a`? -/
def FieldRow.at (r : FieldRow) (a : Nat) : Bool :=
  if r.stride = 0 then r.addr = a
  else decide (r.addr ≤ a) && decide ((a - r.addr) % r.stride = 0) && decide ((a - r.addr) / r.stride < r.count)

/-- The fields of the register at byte address `a`. -/
def fieldsAt (a : Nat) : List FieldRow := (pageRows a).filter (·.at a)

/-- Index of address `a` among the row's registers. -/
def FieldRow.idx (r : FieldRow) (a : Nat) : Nat := if r.stride = 0 then 0 else (a - r.addr) / r.stride

/-- The reset value of the register word at byte address `a`, header words apart. -/
def bodyReset (a : Nat) : Word :=
  (fieldsAt a).foldl (fun w r => w + BitVec.ofNat 32 ((r.reset + r.inc * r.idx a) * 2 ^ r.lsb)) 0#32

end Sys2Proof.Machine
end

