-- ==== Sys2Proof/Machine/Units.lean ====
section
/-!
DEFINITION. The unit tree: header addresses, types, parents, lapse bounds and return-to-service times of
Table UNT-4, and the power domain of each unit page (Table ARC-6).
-/

namespace Sys2Proof.Machine

/-- One row of Table UNT-4 with its header address and its domain number (Table PWR-1; 0 is BKP). -/
structure UnitInfo where
  hdr : Nat
  type : Nat
  inst : Nat
  parent : Nat
  /-- default lapse bound and its floor in microseconds; 0 where the unit has no lapse timer -/
  boundUs : Nat
  floorUs : Nat
  /-- return-to-service time in nanoseconds -/
  backNs : Nat
  dom : Nat
  deriving DecidableEq, Repr

namespace Hdr
def dev : Nat := 0x40000000
def pwr : Nat := 0x40001000
def bkp : Nat := 0x40002000
def tmp : Nat := 0x40003000
def msn : Nat := 0x40004000
def rng : Nat := 0x40005000
def mbx : Nat := 0x40006000
def evr : Nat := 0x40007000
def tmr (n : Nat) : Nat := 0x40010000 + 0x1000 * n
def cap : Nat := 0x40020000
def hnt : Nat := 0x40021000
def lns : Nat := 0x40022000
def dec : Nat := 0x40023000
def txu : Nat := 0x40024000
def syn : Nat := 0x40025000
def lnk : Nat := 0x40026000
def ttb : Nat := 0x40027000
def cip : Nat := 0x40028000
def tag : Nat := 0x40029000
def dal : Nat := 0x4002A000
def dim : Nat := 0x4002B000
def uar : Nat := 0x4002C000
def spi : Nat := 0x4002D000
def iic : Nat := 0x4002E000
def ser : Nat := 0x4002F000
def dmc : Nat := 0x40040000
def srm : Nat := 0x40041000
def nvm : Nat := 0x40042000
def coh : Nat := 0x40043000
def upd : Nat := 0x40044000
def ins : Nat := 0x40045000
def cpu : Nat := 0x40046000
def gpi : Nat := 0x40047000
/-- ensemble headers in the DEV page (R33) -/
def rad : Nat := 0x40000100
def lke : Nat := 0x40000140
def ctl : Nat := 0x40000180
def tme : Nat := 0x400001C0
def mem : Nat := 0x40000200
def pre : Nat := 0x40000240
def svc : Nat := 0x40000280
/-- the cohort ensemble's header (R33) -/
def cohort : Nat := 0x40043100
def lane (n : Nat) : Nat := 0x40100000 + 0x100 * n
def decEng (p : Nat) : Nat := 0x40023200 + 0x40 * p
def cipEng (p : Nat) : Nat := 0x40028200 + 0x40 * p
def core (p : Nat) : Nat := 0x40046200 + 0x40 * p
end Hdr

/-! Domain numbers of Table PWR-1. -/

namespace Dom
def bkp : Nat := 0
def msn : Nat := 1
def sys : Nat := 2
def app (p : Nat) : Nat := 3 + p
def dram : Nat := 8
def nvm : Nat := 9
def rxa : Nat := 10
def dsp : Nat := 11
def txa : Nat := 12
def per : Nat := 13
def tag : Nat := 14
def coh : Nat := 15
def ins : Nat := 16
def bank (b : Nat) : Nat := 32 + b
end Dom

/-- The single units and the ensembles of Table UNT-4. -/
def unitTable : List UnitInfo :=
  [ ⟨Hdr.dev, 0x0001, 0, Hdr.cohort, 0, 0, 0, Dom.sys⟩,
    ⟨Hdr.pwr, 0x0002, 0, Hdr.dev, 0, 0, 0, Dom.sys⟩,
    ⟨Hdr.bkp, 0x0003, 0, Hdr.dev, 0, 0, 0, Dom.bkp⟩,
    ⟨Hdr.ins, 0x0025, 0, Hdr.dev, 0, 0, 0, Dom.ins⟩,
    ⟨Hdr.cpu, 0x0049, 0, Hdr.dev, 0, 0, 5000, Dom.sys⟩,
    ⟨Hdr.rad, 0x0040, 0, Hdr.dev, 0, 0, 200000, Dom.sys⟩,
    ⟨Hdr.cap, 0x0010, 0, Hdr.rad, 10000, 1000, 200000, Dom.rxa⟩,
    ⟨Hdr.hnt, 0x0011, 0, Hdr.rad, 500000, 200000, 20000, Dom.dsp⟩,
    ⟨Hdr.lns, 0x0012, 0, Hdr.rad, 0, 0, 20000, Dom.dsp⟩,
    ⟨Hdr.dec, 0x0047, 0, Hdr.rad, 0, 0, 20000, Dom.dsp⟩,
    ⟨Hdr.txu, 0x0014, 0, Hdr.rad, 100000, 90000, 20000, Dom.txa⟩,
    ⟨Hdr.syn, 0x0015, 0, Hdr.rad, 10000, 1000, 200000, Dom.txa⟩,
    ⟨Hdr.lke, 0x0041, 0, Hdr.dev, 0, 0, 20000, Dom.sys⟩,
    ⟨Hdr.lnk, 0x0016, 0, Hdr.lke, 50000, 10000, 20000, Dom.sys⟩,
    ⟨Hdr.ttb, 0x0017, 0, Hdr.lke, 100000, 50000, 20000, Dom.sys⟩,
    ⟨Hdr.cip, 0x0048, 0, Hdr.lke, 0, 0, 20000, Dom.sys⟩,
    ⟨Hdr.ctl, 0x0042, 0, Hdr.dev, 0, 0, 20000, Dom.sys⟩,
    ⟨Hdr.rng, 0x0006, 0, Hdr.ctl, 10000, 1000, 20000, Dom.sys⟩,
    ⟨Hdr.mbx, 0x0007, 0, Hdr.ctl, 10000, 1000, 20000, Dom.sys⟩,
    ⟨Hdr.evr, 0x0008, 0, Hdr.ctl, 1000, 100, 20000, Dom.sys⟩,
    ⟨Hdr.tme, 0x0043, 0, Hdr.dev, 0, 0, 20000, Dom.sys⟩,
    ⟨Hdr.tmp, 0x0004, 0, Hdr.tme, 100000, 50000, 20000, Dom.msn⟩,
    ⟨Hdr.msn, 0x0005, 0, Hdr.tme, 10000, 5000, 20000, Dom.msn⟩,
    ⟨Hdr.mem, 0x0044, 0, Hdr.dev, 0, 0, 6000000, Dom.sys⟩,
    ⟨Hdr.dmc, 0x0020, 0, Hdr.mem, 5000, 1000, 6000000, Dom.dram⟩,
    ⟨Hdr.srm, 0x0021, 0, Hdr.mem, 10000, 1000, 20000, Dom.sys⟩,
    ⟨Hdr.nvm, 0x0022, 0, Hdr.mem, 2000000, 500000, 1000000, Dom.nvm⟩,
    ⟨Hdr.pre, 0x0045, 0, Hdr.dev, 0, 0, 20000, Dom.sys⟩,
    ⟨Hdr.dim, 0x001B, 0, Hdr.pre, 0, 0, 0, Dom.per⟩,
    ⟨Hdr.gpi, 0x0027, 0, Hdr.pre, 0, 0, 0, Dom.per⟩,
    ⟨Hdr.dal, 0x001A, 0, Hdr.pre, 10000, 2000, 20000, Dom.per⟩,
    ⟨Hdr.ser, 0x001F, 0, Hdr.pre, 0, 0, 20000, Dom.per⟩,
    ⟨Hdr.uar, 0x001C, 0, Hdr.ser, 10000, 1000, 20000, Dom.per⟩,
    ⟨Hdr.spi, 0x001D, 0, Hdr.ser, 10000, 1000, 20000, Dom.per⟩,
    ⟨Hdr.iic, 0x001E, 0, Hdr.ser, 10000, 1000, 20000, Dom.per⟩,
    ⟨Hdr.svc, 0x0046, 0, Hdr.dev, 0, 0, 20000, Dom.sys⟩,
    ⟨Hdr.upd, 0x0024, 0, Hdr.svc, 10000, 2000, 20000, Dom.sys⟩,
    ⟨Hdr.tag, 0x0019, 0, Hdr.svc, 50000, 20000, 20000, Dom.tag⟩,
    ⟨Hdr.coh, 0x0023, 0, Hdr.svc, 10000, 1000, 20000, Dom.coh⟩,
    ⟨Hdr.cohort, 0x0050, 0, 0, 0, 0, 0, Dom.coh⟩ ]

/-- The unit whose common header begins at `h`, members of arrays included (R33). -/
def unitInfo (h : Nat) : Option UnitInfo :=
  if 0x40100000 ≤ h ∧ h < 0x40100000 + 0x100 * 72 ∧ h % 0x100 = 0 then
    some ⟨h, 0x0030, (h - 0x40100000) / 0x100, Hdr.lns, 100000, 90000, 20000, Dom.dsp⟩
  else if 0x40010000 ≤ h ∧ h < 0x40018000 ∧ h % 0x1000 = 0 then
    some ⟨h, 0x0009, (h - 0x40010000) / 0x1000, Hdr.pre, 0, 0, 0, Dom.per⟩
  else if Hdr.decEng 0 ≤ h ∧ h < Hdr.decEng 5 ∧ h % 0x40 = 0 then
    some ⟨h, 0x0013, (h - Hdr.decEng 0) / 0x40, Hdr.dec, 2000, 1000, 20000, Dom.dsp⟩
  else if Hdr.cipEng 0 ≤ h ∧ h < Hdr.cipEng 3 ∧ h % 0x40 = 0 then
    some ⟨h, 0x0018, (h - Hdr.cipEng 0) / 0x40, Hdr.cip, 1000, 100, 20000, Dom.sys⟩
  else if Hdr.core 0 ≤ h ∧ h < Hdr.core 5 ∧ h % 0x40 = 0 then
    some ⟨h, 0x0026, (h - Hdr.core 0) / 0x40, Hdr.cpu, 1000000, 10000, 5000, Dom.app ((h - Hdr.core 0) / 0x40)⟩
  else unitTable.find? (·.hdr == h)

/-- The header addresses of the direct children of `h`, physical members in ascending order. -/
def childrenOf (h : Nat) : List Nat :=
  if h = Hdr.lns then (List.range 72).map Hdr.lane
  else if h = Hdr.dec then (List.range 5).map Hdr.decEng
  else if h = Hdr.cip then (List.range 3).map Hdr.cipEng
  else if h = Hdr.cpu then (List.range 5).map Hdr.core
  else if h = Hdr.pre then (List.range 8).map Hdr.tmr ++ [Hdr.dim, Hdr.gpi, Hdr.dal, Hdr.ser]
  else (unitTable.filter (·.parent == h)).map (·.hdr)

/-- `h` and its descendants; the tree is four levels deep below DEV. -/
def subtree : Nat → Nat → List Nat
  | 0, h => [h]
  | fuel + 1, h => h :: (childrenOf h).flatMap (subtree fuel)

/-- Every descendant of `h`, itself first. -/
def descendants (h : Nat) : List Nat := subtree 4 h

/-- Ensembles report and act through their children (R34, R35). -/
def isEnsemble (h : Nat) : Bool := !(childrenOf h).isEmpty

/-- The header that holds byte address `a`, and the offset in it; headers are 64 bytes (R30). -/
def headerAt (a : Nat) : Option (UnitInfo × Nat) :=
  match unitInfo (a / 0x40 * 0x40) with
  | some u => some (u, a % 0x40)
  | none => none

/-- Base of the page that holds a unit register (physical lanes occupy 256 bytes, R23). -/
def pageBase (a : Nat) : Nat := if 0x40100000 ≤ a then a / 0x100 * 0x100 else a / 0x1000 * 0x1000

/-- Does an assigned unit page hold address `a` (Table ARC-6)? -/
def pageAssigned (a : Nat) : Bool := (unitInfo (pageBase a)).isSome

/-- The power domain of the page that holds `a`. -/
def pageDom (a : Nat) : Nat := ((unitInfo (pageBase a)).map (·.dom)).getD Dom.sys

/-- The header whose owner governs a write at `a`: an ensemble header in DEV has its own, headers of engines,
cores and the cohort ensemble take their page's (R105). -/
def ownerHeader (a : Nat) : Nat :=
  if Hdr.rad ≤ a ∧ a < Hdr.svc + 0x40 then a / 0x40 * 0x40 else pageBase a

/-- Reset value of the register word at `a`, header words included (Tables UNT-1 to UNT-3, UOWNER). -/
def resetWord (a : Nat) : Word :=
  match headerAt a with
  | some (_, 0x08) => 1#32
  | some (_, 0x24) => 0x101#32
  | some _ => 0#32
  | none => bodyReset a

end Sys2Proof.Machine
end

