-- ==== Sys2Proof/Machine/Ops.lean ====
section
/-!
DEFINITION. The named operations every command uses: the clocks, register fields, memory, regions, power
domains, notices, events, envelope records, trace packets and completions.
-/

namespace Sys2Proof.Machine

/-! ### Registers -/

/-- The register word at byte address `a`. -/
def State.word (s : State) (a : Nat) : Word := sget resetWord s.regs a

/-- Writes the register word at byte address `a`. -/
def State.setWord (s : State) (a : Nat) (v : Word) : State := { s with regs := sput resetWord s.regs a v }

/-- A register field as a number. -/
def State.rd (s : State) (f : Fld) : Nat := bitsOf (s.word f.addr).toNat f.lsb f.width

/-- Sets a register field to the low bits of `v`. -/
def State.wr (s : State) (f : Fld) (v : Nat) : State :=
  s.setWord f.addr (BitVec.ofNat 32 (setBitsOf (s.word f.addr).toNat f.lsb f.width v))

/-- A one-bit field. -/
def State.flag (s : State) (f : Fld) : Bool := decide (s.rd f ≠ 0)

/-- Sets a one-bit field. -/
def State.put (s : State) (f : Fld) (b : Bool) : State := s.wr f (b2n b)

/-- Steps a saturating counter field by `n`. -/
def State.bump (s : State) (f : Fld) (n : Nat := 1) : State := s.wr f (satAdd f.width (s.rd f) n)

/-- The registers of every page that `p` picks go back to their reset values. -/
def State.dropRegs (s : State) (p : Nat → Bool) : State := { s with regs := sdrop p s.regs }

/-- A write of the word at `a` by its access codes: `v` on the bits of `mask` (Table DEV-4). -/
def State.writeFields (s : State) (a v mask : Nat) : State :=
  (fieldsAt a).foldl (fun s r =>
    let f : Fld := ⟨a, r.lsb, r.width⟩
    let m := bitsOf mask r.lsb r.width
    let x := bitsOf v r.lsb r.width &&& m
    let old := s.rd f
    match r.acc with
    | .rw => s.wr f (old - (old &&& m) + x)
    | .w1c => s.wr f (old - (old &&& x))
    | .w1s => s.wr f (old ||| x)
    | _ => s) s

/-! ### Clocks -/

/-- PER clocks (48 MHz) since power-on of the model's clock (Table ARC-3). -/
def State.perNow (s : State) : Nat := s.clk.ns * 48 / 1000

/-- BK periods (32.768 kHz). -/
def State.bkNow (s : State) : Nat := s.clk.ns * 32768 / 1000000000

/-- Modulus of the tempo stamp (R59). -/
def stampMod : Nat := 2 ^ 56

/-- Local tempo in sixteenths of a step, not reduced (R62). -/
def State.local16 (s : State) : Int := 16 * (s.clk.edges : Int) + s.tmp.localBase16

/-- Aligned tempo in sixteenths of a step, not reduced (R62). -/
def State.align16 (s : State) : Int := 16 * (s.clk.edges : Int) + s.tmp.alignBase16

/-- The 56-bit stamp of a count in sixteenths. -/
def stampOf16 (x : Int) : Nat := (x / 16 % (stampMod : Int)).toNat

/-- Local tempo, a 56-bit stamp. -/
def State.localStamp (s : State) : Nat := stampOf16 s.local16

/-- Aligned tempo, a 56-bit stamp. -/
def State.alignedStamp (s : State) : Nat := stampOf16 s.align16

def State.tempoValid (s : State) : Bool := s.flag R.TMP_STATUS_VALID
def State.tempoAligned (s : State) : Bool := s.flag R.TMP_STATUS_ALIGNED

/-- Aligned stamps may be acted on (R81, R83). -/
def State.tempoUsable (s : State) : Bool := s.tempoValid && s.tempoAligned

/-- A 56-bit stamp from a cycle count and a step. -/
def mkStamp (cycle step : Nat) : Nat := (cycle * 65536 + step) % stampMod

def stampCycle (x : Nat) : Nat := x / 65536
def stampStep (x : Nat) : Nat := x % 65536

/-- Expands the low 32 bits of a cycle count to the cycle count within -2^31 to +2^31 - 1 of the present aligned
cycle (R61). -/
def State.expandCycle (s : State) (low : Nat) : Nat :=
  let now := stampCycle s.alignedStamp
  let d := (low + 2 ^ 32 - now % 2 ^ 32) % 2 ^ 32
  if d < 2 ^ 31 then now + d else if 2 ^ 32 ≤ now + d then now + d - 2 ^ 32 else now + d

/-- Expands a descriptor's 48-bit stamp. -/
def State.expandStamp (s : State) (low step : Nat) : Nat := mkStamp (s.expandCycle low) (step % 65536)

/-- Completion stamp and flag bits [5:4]: NOSTAMP or LOCAL (Table RNG-4). -/
def State.complStamp (s : State) : Nat × Nat :=
  if !s.tempoValid then (2, s.localStamp)
  else if !s.tempoAligned then (1, s.localStamp)
  else (0, s.alignedStamp)

/-- A duration in nanoseconds as steps: the product with 65,536 and TMP_RATE, rounded up (R222). -/
def State.stepsOf (s : State) (ns : Nat) : Nat := ceilDiv (ns * 65536 * s.rd R.TMP_RATE_RATE) (2 ^ 24 * 1000000000)

/-! ### Power domains -/

/-- The record of domain `n`; BKP (0) is always on. -/
def State.dom (s : State) (n : Nat) : DomRec :=
  if n = Dom.bkp then { state := 2, target := 2 } else sget (fun _ => ({} : DomRec)) s.doms n

def State.setDom (s : State) (n : Nat) (d : DomRec) : State :=
  { s with doms := sput (fun _ => ({} : DomRec)) s.doms n d }

/-- Is domain `n` on? -/
def State.domOn (s : State) (n : Nat) : Bool := (s.dom n).state == 2

/-- Is the domain of the page that holds header `h` on? -/
def State.unitOn (s : State) (h : Nat) : Bool :=
  match unitInfo h with
  | some u => s.domOn u.dom
  | none => false

/-! ### Units -/

def State.unit (s : State) (h : Nat) : UnitRec := sget (fun _ => ({} : UnitRec)) s.units h

def State.setUnit (s : State) (h : Nat) (f : UnitRec → UnitRec) : State :=
  { s with units := sput (fun _ => ({} : UnitRec)) s.units h (f (s.unit h)) }

/-- A progress event of Table UNT-4 restarts the unit's lapse timer and takes a new ULAPSE value (R36). -/
def State.progress (s : State) (h : Nat) : State :=
  match unitInfo h with
  | none => s
  | some u =>
    let w := s.rd (R.ULAPSE_BOUND h)
    let b := if w = 0 then u.boundUs else max w u.floorUs
    s.setUnit h fun r => { r with progressAt := s.clk.ns, boundUs := some b }

/-- The lapse bound in force, microseconds (R36). -/
def State.boundOf (s : State) (h : Nat) : Nat :=
  match (s.unit h).boundUs with
  | some b => b
  | none =>
    let u := (unitInfo h).getD ⟨h, 0, 0, 0, 0, 0, 0, 0⟩
    let w := s.rd (R.ULAPSE_BOUND h)
    if w = 0 then u.boundUs else max w u.floorUs

/-- UCTL.EN of the unit. -/
def State.enabled (s : State) (h : Nat) : Bool := s.flag (R.UCTL_EN h)

/-- The unit accepts work: on, enabled, not draining, not being reset (R40, R41). -/
def State.accepts (s : State) (h : Nat) : Bool :=
  s.unitOn h && s.enabled h && !s.flag (R.UCTL_DRAIN h) && !(s.unit h).lapsed && !(s.unit h).draining

/-! ### Level signals (Table EVR-3) -/

/-- The level on pad GPIO`n`: an output drives it, an open-drain output that is high releases it (R335). -/
def State.pad (s : State) (n : Nat) : Bool :=
  if s.rd (R.GPI_CFG_FUNC n) = 1 ∧ (s.dom Dom.per).state ≠ 0 ∧
      ¬(s.flag (R.GPI_CFG_OD n) ∧ bitOf (s.rd R.GPI_OUT_OUT) n) then bitOf (s.rd R.GPI_OUT_OUT) n
  else bitOf s.per.gpioExt n

def State.timer (s : State) (n : Nat) : TimerRec := sget (fun _ => ({} : TimerRec)) s.ev.timers n

def State.setTimer (s : State) (n : Nat) (f : TimerRec → TimerRec) : State :=
  { s with ev := { s.ev with timers := sput (fun _ => ({} : TimerRec)) s.ev.timers n (f (s.timer n)) } }

/-- Timer `n` is the low timer of a chained pair (R320). -/
def State.chained (s : State) (n : Nat) : Bool := n % 2 == 0 && s.flag (R.TMR_CTL_CHAIN n)

/-- The compare value of timer `n`, 64 bits for a pair. -/
def State.timerCmp (s : State) (n : Nat) : Nat :=
  s.rd (R.TMR_CMP_CMP n) + if s.chained n then 2 ^ 32 * s.rd (R.TMR_CMP_CMP (n + 1)) else 0

def State.port (s : State) (n : Nat) : PortRec := sget (fun _ => ({} : PortRec)) s.per.ports n

def State.setPort (s : State) (n : Nat) (f : PortRec → PortRec) : State :=
  { s with per := { s.per with ports := sput (fun _ => ({} : PortRec)) s.per.ports n (f (s.port n)) } }

/-- The level of code `c` (Table EVR-3, Table GPI-2); reserved codes read 0. -/
def State.level (s : State) (c : Nat) : Bool :=
  if c = 0 then true
  else if c ≤ 0x10 then s.pad (c - 1)
  else if c ≤ 0x18 then s.flag (R.TMR_STAT_RUNNING (c - 0x11))
  else if c ≤ 0x20 then decide (s.timerCmp (c - 0x19) ≤ (s.timer (c - 0x19)).count)
  else if c = 0x21 then s.tempoValid
  else if c = 0x22 then s.tempoAligned
  else if c = 0x23 then s.flag R.MSN_STATUS_PRESENT
  else if c = 0x24 then s.ttb.windows.any fun w => decide (w.opens ≤ s.alignedStamp ∧ s.alignedStamp < w.stop)
  else if c = 0x25 then s.flag R.TTB_STATUS_REENTRY
  else if c ≤ 0x2C then s.mail.notices.any (·.dst == c - 0x26)
  else if c = 0x30 then !s.flag R.DAL_STATUS_FAULT && s.per.dali.sending.isNone
  else if c = 0x31 then s.flag R.DAL_STATUS_PSUON
  else if c = 0x32 then s.per.dim.ramp.isSome
  else if c = 0x33 ∨ c = 0x34 then !(s.port (c - 0x33)).rx.isEmpty
  else false

/-! ### Inspector counters -/

/-- Adds `k` to inspector counter `n`, modulo 2^48, while INS is on (R453). -/
def State.count (s : State) (n : Nat) (k : Nat := 1) : State :=
  if s.domOn Dom.ins then
    { s with trace := { s.trace with
        counters := sput (fun _ => 0) s.trace.counters n
          ((sget (fun _ => 0) s.trace.counters n + k) % 2 ^ 48) } }
  else s

/-- The programmable counters count an event while their level is 1 (Table INS-3). -/
def State.countEvent (s : State) (src : Nat) : State :=
  if s.domOn Dom.ins then
    (List.range 128).foldl (fun s k =>
      if s.rd (R.INS_CSEL_SRC k) = src ∧ s.level (s.rd (R.INS_CSEL_LEVEL k)) then s.count (128 + k) else s) s
  else s

/-! ### Events and trace -/

/-- An event leaves its block for the router (R304, R309). The router takes none while SYS is not on or while it
is disabled, and loses it while it lapses (R307). -/
def State.emitFrom (s : State) (e : Event) : State :=
  if !s.domOn Dom.sys then s
  else
    let s := s.countEvent e.src
    if (s.unit Hdr.evr).lapsed then s.bump R.EVR_COUNTS_LOST
    else if !s.enabled Hdr.evr then s
    else { s with ev := { s.ev with queue := s.ev.queue ++ [e] } }

def State.emit (s : State) (src : Nat) (depth : Nat := 0) : State := s.emitFrom { src := src, depth := depth }

/-- Bytes a source's packets occupy in its FIFO (Table INS-1). -/
def traceFill (src : Nat) (q : List (Nat × Nat × List Byte × Nat)) : Nat :=
  q.foldl (fun n p => if p.1 = src then n + 3 + p.2.2.1.length else n) 0

/-- A source that lost packets emits its GAP packet once its FIFO has room beyond the reserved 8 bytes: the
number lost and the step of the first loss (R451). -/
def State.traceGap (s : State) (src : Nat) : State :=
  match s.trace.lost.find? (·.1 == src) with
  | some (_, n, step) =>
    if traceFill src s.trace.fifo + 9 ≤ 2048 then
      let gap := (src, 0x1E, leBytes 4 n ++ leBytes 2 step, s.localStamp)
      ({ s with trace := { s.trace with fifo := s.trace.fifo ++ [gap]
                                        lost := s.trace.lost.filter fun p => p.1 ≠ src } }).wr
        R.INS_STATUS_GAPPED (s.rd R.INS_STATUS_GAPPED ||| 2 ^ src)
    else s
  | none => s

/-- A trace packet enters its source's 2 KB FIFO, 8 bytes of it reserved for a GAP packet, or is lost (R451). -/
def State.tracePacket (s : State) (src kind : Nat) (payload : List Byte) : State :=
  if !s.domOn Dom.ins || (src ≠ 7 && !bitOf (s.rd R.INS_CTL_SRCEN) src) then s
  else
    let s := if traceFill src s.trace.fifo + 9 + 3 + payload.length ≤ 2048 - 8 then s.traceGap src else s
    if traceFill src s.trace.fifo + 3 + payload.length ≤ 2048 - 8 ∧ !s.trace.lost.any (·.1 == src) then
      { s with trace := { s.trace with fifo := s.trace.fifo ++ [(src, kind, payload, s.localStamp)] } }
    else
      let l := s.trace.lost
      let l' := if l.any (·.1 == src)
        then l.map fun p => if p.1 = src then (src, p.2.1 + 1, p.2.2) else p
        else l ++ [(src, 1, stampStep s.localStamp)]
      ({ s with trace := { s.trace with lost := l' } }).bump R.INS_GAPS_COUNT

/-! ### Mailbox notices -/

/-- Notices waiting in the channel from `src` to `dst`. -/
def State.channelFill (s : State) (dst src : Nat) : Nat :=
  (s.mail.notices.filter fun n => n.dst == dst && n.src == src).length

/-- Appends a notice to its channel, or refuses it when the channel holds four (R113). Answers whether it was
appended. A receiver's first notice raises its not-empty event (R114). -/
def State.deliverNotice (s : State) (dst src stamp tag ptr : Nat) (prot : Bool) : State × Bool :=
  if s.channelFill dst src < 4 && !(s.unit Hdr.mbx).lapsed then
    let first := !s.mail.notices.any (·.dst == dst)
    let n : Notice := { dst := dst, src := src, ptr := ptr, tag := tag, stamp := stamp, prot := prot,
                        at_ := s.clk.edges }
    let s := { s with mail := { s.mail with notices := s.mail.notices ++ [n] } }
    let s := s.progress Hdr.mbx
    (if first then s.emit (0x21 + dst) else s, true)
  else
    let full := decide (4 ≤ s.channelFill dst src)
    let s := s.wr (R.MBX_RLOST_LOST dst) (s.rd (R.MBX_RLOST_LOST dst) ||| 2 ^ src)
    (if full then s.bump R.MBX_COUNTS_REFUSED else s, false)

/-! ### The determinism envelope -/

/-- Address of envelope record slot `i` in the DEV page. -/
def envAddr (i : Nat) : Nat := 0x40000800 + 16 * i

/-- A record goes into slot NEXT of the log; one that was not read is lost and counted (R54). -/
def State.envPut (s : State) (rec16 : List Byte) : State :=
  let i := s.rd R.DEV_ENVLOG_NEXT
  let s' : State := { s with env := { s.env with log := s.env.log.setBytes (16 * i) rec16, seq := (s.env.seq + 1) % 256,
                                                 unread := s.env.unread ||| 2 ^ i } }
  (if bitOf s.env.unread i then s'.bump R.DEV_ENVLOG_LOST else s').wr R.DEV_ENVLOG_NEXT ((i + 1) % 16)

/-- The 16 bytes of an envelope record (Table UNT-9). -/
def State.envBytes (s : State) (cause cond unit : Nat) (restore : Bool) : List Byte :=
  leBytes 7 s.localStamp ++
    [BitVec.ofNat 8 (b2n s.tempoValid + 2 * b2n restore), BitVec.ofNat 8 cause, BitVec.ofNat 8 cond,
     BitVec.ofNat 8 s.env.seq, 0#8] ++ leBytes 4 unit

/-- Writes an envelope record and sends the notice DEV_NOTIFY asks for (R54). -/
def State.envWrite (s : State) (cause cond unit : Nat) (restore : Bool) : State :=
  let rec16 := s.envBytes cause cond unit restore
  let i := s.rd R.DEV_ENVLOG_NEXT
  let seq := s.env.seq
  let s := ((s.envPut rec16).put ⟨0x40000040, 8 + (cond - 1), 1⟩ (!restore)).tracePacket 5 0x01 rec16
  if s.flag R.DEV_NOTIFY_EN then
    (s.deliverNotice (s.rd R.DEV_NOTIFY_AGENT) 1 0x01 (0xE000 + seq) (envAddr i) true).1
  else s

/-- Is envelope condition `c` broken? -/
def State.envBroken (s : State) (c : Nat) : Bool := bitOf (s.rd R.DEV_STATUS_BROKEN) (c - 1)

/-- An envelope condition breaks. Condition 2 lasts to the end of the tempo cycle; a cause recorded for a unit
in that cycle is not recorded again (Table UNT-8). -/
def State.envBreak (s : State) (cause cond : Nat) (unit : Nat := 0) : State :=
  if cond = 2 then
    if s.env.broken2.contains (cause, unit) then s
    else
      let s := s.envWrite cause cond unit false
      { s with env := { s.env with broken2 := s.env.broken2 ++ [(cause, unit)] } }
  else s.envWrite cause cond unit false

/-- Something else still breaks the condition: another unit that is being reset, a row being copied or a lost cohort
lead (3), another domain that is not on (5). -/
def State.envHeld (s : State) (cond : Nat) : Bool :=
  if cond = 3 then s.units.any (fun u => u.2.lapsed && u.2.cause != 0) || !s.mem.copying.isEmpty || s.coh.lost
  else cond == 5 && !s.env.dark.isEmpty

/-- What broke an envelope condition is over: its record, and the bit while nothing else breaks it. -/
def State.envRestore (s : State) (cause cond : Nat) (unit : Nat := 0) : State :=
  if s.envBroken cond then
    let s := s.envWrite cause cond unit true
    if s.envHeld cond then s.put ⟨0x40000040, 8 + (cond - 1), 1⟩ true else s
  else s

/-! ### Memory and regions -/

/-- What an unlisted byte of memory reads as: boot ROM its fixed contents, erased NOR ones, everything else zero (log
entry 7). -/
def memDefault (a : Nat) : Byte :=
  if a < 0x10000 then Config.romByte a else if 0x20000000 ≤ a ∧ a < 0x22000000 then 0xFF#8 else 0#8

/-- Regions of the address map (Table ARC-5). -/
inductive Region where
  | rom | sram (bank : Nat) | nor | alias_ | page | satchel
  | window (member off : Nat)
  | dram | unmapped
  deriving DecidableEq, Repr

/-- End of DRAM: 448 MB with inline ECC in force, else 512 MB (R21). -/
def State.dramEnd (s : State) : Nat := if s.mem.dramEcc then 0x9C000000 else 0xA0000000

/-- The region that holds address `a` (Table ARC-5, R21, R22). -/
def State.region (s : State) (a : Nat) : Region :=
  if a < 0x10000 then .rom
  else if 0x10000000 ≤ a ∧ a < 0x10400000 then .sram ((a - 0x10000000) / 0x20000)
  else if 0x20000000 ≤ a ∧ a < 0x22000000 then .nor
  else if 0x24000000 ≤ a ∧ a < 0x24C00000 then .alias_
  else if 0x40000000 ≤ a ∧ a < 0x40200000 then .page
  else if 0x50000000 ≤ a ∧ a < 0x50002000 then .satchel
  else if 0x60000000 ≤ a ∧ a < 0x80000000 then .window ((a - 0x60000000) / 0x4000000) ((a - 0x60000000) % 0x4000000)
  else if 0x80000000 ≤ a ∧ a < s.dramEnd then .dram
  else .unmapped

/-- What a cohort window offset maps to in the target member (Table ARC-7). -/
def State.windowTarget (s : State) (off : Nat) : Option Nat :=
  if off < 0x400000 then some (0x10000000 + off)
  else if 0x1000000 ≤ off ∧ off < 0x1200000 then some (0x40000000 + (off - 0x1000000))
  else if 0x2000000 ≤ off then some (s.rd R.COH_DRAMAP_BASE * 0x2000000 + (off - 0x2000000))
  else none

/-- The local address an access reaches: the alias gives the active slot, the window of the local member its
local resource; `none` for another member's window and unmapped places (R20, R22, R24). -/
def State.resolve (s : State) (a : Nat) : Option Nat :=
  match s.region a with
  | .alias_ =>
    if s.phase = .running ∨ s.phase = .stage 6 ∨ s.phase = .stage 7 ∨ s.phase = .stage 8 then
      some (0x20000000 + 0xC00000 * s.rd R.UPD_STATUS_ACTIVE + (a - 0x24000000))
    else none
  | .window m off =>
    if m = s.rd R.COH_CFG_INDEX then s.windowTarget off else none
  | .unmapped => none
  | _ => some a

/-- Is the memory behind local address `a` on and in the map (R362, R404)? -/
def State.memOn (s : State) (a : Nat) : Bool :=
  match s.region a with
  | .sram b => s.domOn (Dom.bank b) && s.flag (R.SRM_BANK_MAPPED b)
  | .nor | .alias_ => s.domOn Dom.nvm
  | .dram => s.domOn Dom.dram
  | .rom | .page | .satchel => true
  | _ => false

/-- The member and offset behind an address in another member's window; unmapped offsets apart (Table ARC-7). -/
def State.remote (s : State) (a : Nat) : Option (Nat × Nat) :=
  match s.region a with
  | .window m off => if m ≠ s.rd R.COH_CFG_INDEX ∧ (s.windowTarget off).isSome then some (m, off) else none
  | _ => none

/-- Member `m` is present and linked, so that its window answers (R24). -/
def State.memberUp (s : State) (m : Nat) : Bool :=
  s.domOn Dom.coh && bitOf (s.rd R.COH_STATUS_PRESENT) m && (s.flag R.COH_LINK_EUP || s.flag R.COH_LINK_WUP)

def State.setCoh (s : State) (f : CohState → CohState) : State := { s with coh := f s.coh }

/-- A packet is issued to member `dst`, or to all (0xF), stamped with the lead's aligned tempo. -/
def State.issue (s : State) (dst type : Nat) (fields : List Nat) (bytes : List Byte := []) : State :=
  if !s.domOn Dom.coh then s
  else
    let p : CohPacket := { dst := dst, type := type, seq := s.coh.seq, epoch := s.rd R.COH_EPOCH_EPOCH % 256,
                           stamp := s.alignedStamp, fields := fields, bytes := bytes }
    (s.setCoh fun c => { c with out := if c.outAt = s.clk.edges then c.out ++ [p] else [p]
                                outAt := s.clk.edges, seq := (c.seq + 1) % 65536 }).progress Hdr.coh

/-- Addresses of the cohort windows. -/
def inWindows (a : Nat) : Bool := decide (0x60000000 ≤ a ∧ a < 0x80000000)

/-- One byte at a resolved local address. The satchel is kept in BKP (R376); a byte of another member is what that
member holds now. -/
def State.byte (s : State) (a : Nat) : Byte :=
  if inWindows a then Config.remoteByte s.clk.edges a
  else if 0x50000000 ≤ a ∧ a < 0x50002000 then s.bkp.satchel.byte (a - 0x50000000)
  else sget memDefault s.mem.cells a

/-- Writes one byte at a resolved local address; bytes of another member are not kept here. -/
def State.setByte (s : State) (a : Nat) (b : Byte) : State :=
  if inWindows a then s
  else if 0x50000000 ≤ a ∧ a < 0x50002000 then
    { s with bkp := { s.bkp with satchel := s.bkp.satchel.setByte (a - 0x50000000) b } }
  else { s with mem := { s.mem with cells := sput memDefault s.mem.cells a b } }

/-- The local address behind `a`, or `a` itself. -/
def State.phys (s : State) (a : Nat) : Nat := (s.resolve a).getD a

/-- The `n` bytes from address `a`. -/
def State.bytes (s : State) (a : Nat) : Nat → List Byte
  | 0 => []
  | n + 1 => s.byte (s.phys a) :: State.bytes s (a + 1) n

/-- Writes bytes from address `a` of local memory. -/
def State.putBytes (s : State) (a : Nat) : List Byte → State
  | [] => s
  | b :: bs => State.putBytes (s.setByte (s.phys a) b) (a + 1) bs

/-- Writes bytes from address `a`; a write through another member's window goes out as a link packet (R24). -/
def State.setBytes (s : State) (a : Nat) (bs : List Byte) : State :=
  match s.remote a with
  | some (m, off) => s.issue m 0x05 [1, off, bs.length] bs
  | none => s.putBytes a bs

/-- The little-endian number of the `n` bytes from `a` (R20). -/
def State.num (s : State) (a n : Nat) : Nat := leNum (s.bytes a n)

/-- Writes the low `n` bytes of `v` from `a`. -/
def State.setNum (s : State) (a n v : Nat) : State := s.setBytes a (leBytes n v)

/-- The memory's canonical form: addresses strictly rising, no byte equal to what an unlisted one reads as. -/
def Memory.wf (m : List Host.Cell) : Bool := swf memDefault m

/-- The bytes of memory from `a`, below `a + n`, go back to what an unlisted byte reads as. -/
def State.forget (s : State) (a n : Nat) : State :=
  { s with mem := { s.mem with
      cells := sdrop (fun k => decide (a ≤ k ∧ k < a + n)) s.mem.cells
      poison := sdrop (fun k => decide (a ≤ k ∧ k < a + n)) s.mem.poison } }

/-- Width of a poisoned unit at `a`: 4 bytes in SRAM, 8 in DRAM (R401, R410). -/
def poisonWord (a : Nat) : Nat := if 0x80000000 ≤ a then a / 8 * 8 else a / 4 * 4

def State.poisoned (s : State) (a : Nat) : Bool := sget (fun _ => false) s.mem.poison (poisonWord a)

def State.setPoison (s : State) (a : Nat) (b : Bool) : State :=
  { s with mem := { s.mem with poison := sput (fun _ => false) s.mem.poison (poisonWord a) b } }

/-- Is any word of `[a, a + n)` poisoned? -/
def State.anyPoison (s : State) (a n : Nat) : Bool :=
  s.mem.poison.any fun c => decide (poisonWord a ≤ c.1 ∧ c.1 < a + n)

/-- A whole-word write replaces a poisoned word (R401, R410). -/
def State.healRange (s : State) (a n : Nat) : State :=
  { s with mem := { s.mem with
      poison := sdrop (fun k => decide (a ≤ k ∧ k + (if 0x80000000 ≤ k then 8 else 4) ≤ a + n)) s.mem.poison } }

/-- Every address of `[a, a + n)` lies in one of the regions `p` allows and one region's end is not passed. -/
def State.rangeIn (s : State) (p : Region → Bool) (a n : Nat) : Bool :=
  n == 0 || (p (s.region a) && p (s.region (a + n - 1)) &&
    match s.region a, s.region (a + n - 1) with
    | .sram _, .sram _ => true
    | .window m _, .window m' _ => m == m'
    | x, y => x == y)

/-- Regions device-side masters read (R11). The alias is readable once a slot is selected (R22). -/
def State.devReadable (s : State) (a n : Nat) : Bool :=
  s.rangeIn (fun
    | .sram _ | .nor | .dram | .window _ _ => true
    | .alias_ => (s.resolve 0x24000000).isSome
    | _ => false) a n

/-- Regions device-side masters write (R11). -/
def State.devWritable (s : State) (a n : Nat) : Bool :=
  s.rangeIn (fun
    | .sram _ | .dram | .window _ _ => true
    | _ => false) a n

/-- Is every byte of the range in memory that is on (R362)? A range spans at most two neighbouring banks per
256 KB, so each bank it meets is asked. -/
def State.rangeOn (s : State) (a n : Nat) : Bool :=
  match s.resolve a with
  | none => match s.remote a with
    | some (m, _) => s.memberUp m
    | none => false
  | some p =>
    match s.region p with
    | .sram b => (List.range ((p + n - 1 - 0x10000000) / 0x20000 + 1 - b)).all fun k =>
        s.domOn (Dom.bank (b + k)) && s.flag (R.SRM_BANK_MAPPED (b + k))
    | _ => s.memOn p

/-- Attribute of SRAM bank `b`: 0 open, 1 protected, 2 link; a written 3 acts as 1 (Table SRM-1). -/
def State.bankAttr (s : State) (b : Nat) : Nat :=
  let f : Fld := if b < 16 then ⟨0x40041044, 2 * b, 2⟩ else ⟨0x40041048, 2 * (b - 16), 2⟩
  let v := s.rd f
  if v = 3 then 1 else v

/-- May device-side work of a ring with attribute P touch the range (R400, Table SRM-1)? -/
def State.bankAllows (s : State) (prot : Bool) (a n : Nat) : Bool :=
  n == 0 || match s.region (s.phys a) with
  | .sram b => (List.range ((s.phys a + n - 1 - 0x10000000) / 0x20000 + 1 - b)).all fun k =>
      match s.bankAttr (b + k) with
      | 0 => true
      | 1 => prot
      | _ => false
  | _ => true

/-! ### Free values -/

/-- Draws a value the manual leaves open (log entry 3). -/
def State.free (s : State) : Nat × State :=
  (Config.freeValue s.freeCount, { s with freeCount := s.freeCount + 1 })

/-! ### Work and completions -/

/-- Submission index `j` comes before `i` on its ring: indices run freely over 16 bits (R88). -/
def idxBefore (j i : Nat) : Bool := decide (j ≠ i ∧ (i + 65536 - j) % 65536 < 32768)

/-- The work in flight with the given ring and index. -/
def State.findWork (s : State) (ring idx : Nat) : Option Work :=
  s.ring.work.find? fun w => w.ring == ring && w.idx == idx

def State.updWork (s : State) (ring idx : Nat) (f : Work → Work) : State :=
  { s with ring := { s.ring with
      work := s.ring.work.map fun w => if w.ring == ring && w.idx == idx then f w else w } }

/-- Word `k` of a descriptor. -/
def Work.word (w : Work) (k : Nat) : Nat := w.w.getD k 0

def Work.opcode (w : Work) : Nat := bitsOf (w.word 0) 24 8
def Work.tag (w : Work) : Nat := bitsOf (w.word 0) 0 16
def Work.isTimed (w : Work) : Bool := bitOf (w.word 0) 16
def Work.isFence (w : Work) : Bool := bitOf (w.word 0) 17
def Work.wantsEvent (w : Work) : Bool := bitOf (w.word 0) 18
/-- Slip tolerance in steps; 0 selects 64 (Table RNG-2). -/
def Work.slip (w : Work) : Nat := if bitsOf (w.word 2) 16 16 = 0 then 64 else bitsOf (w.word 2) 16 16

/-- Decides a descriptor's outcome: it leaves the work in flight and becomes a completion to write (R95, R96). -/
def State.decideGen (s : State) (w : Work) (status result gen : Nat) : State :=
  let (flags, stamp) := s.complStamp
  let d : Done := { ring := w.ring, idx := w.idx, tag := w.tag, status := status, flags := flags, stamp := stamp,
                    gen := gen, result := result % 2 ^ 32, event := w.wantsEvent, at_ := s.clk.edges }
  { s with ring := { s.ring with
      work := s.ring.work.filter fun x => !(x.ring == w.ring && x.idx == w.idx)
      done := s.ring.done ++ [d] } }

/-- As `decideGen`, under the generation the work was accepted under (R49). -/
def State.decide_ (s : State) (w : Work) (status : Nat) (result : Nat := 0) : State :=
  s.decideGen w status result w.gen

/-! Shared status codes (R4, Table DEV-5) and the codes of the units' chapters. -/

namespace St
def done : Nat := 0x00
def notRun : Nat := 0x02
def abandoned : Nat := 0x03
def lapsed : Nat := 0x04
def late : Nat := 0x05
def genMismatch : Nat := 0x06
def budget : Nat := 0x07
def noLock : Nat := 0x08
def ctxExhausted : Nat := 0x09
def keyAbsent : Nat := 0x0A
def malformed : Nat := 0x0B
def access : Nat := 0x0C
def noAck : Nat := 0x0D
def tempoInvalid : Nat := 0x0E
def fieldBusy : Nat := 0x0F
def replay : Nat := 0x10
def duplicate : Nat := 0x11
def commitPending : Nat := 0x20
def bankHeld : Nat := 0x21
def targetActive : Nat := 0x22
def overflow : Nat := 0x23
def captureOff : Nat := 0x24
def micFail : Nat := 0x25
def noSlot : Nat := 0x26
def ivExhausted : Nat := 0x27
def unwrapFail : Nat := 0x28
def noEngine : Nat := 0x29
def slotBusy : Nat := 0x2A
def noAnswer : Nat := 0x2B
def answerCorrupt : Nat := 0x2C
def busLost : Nat := 0x2D
def busFault : Nat := 0x2E
def counterLimit : Nat := 0x2F
def blockLocked : Nat := 0x30
def exchFull : Nat := 0x31
def memError : Nat := 0x32
def cohortQuiet : Nat := 0x33
def noBlock : Nat := 0x34
def sigFail : Nat := 0x35
def hashFail : Nat := 0x36
def crcFail : Nat := 0x37
def wrongState : Nat := 0x38
def rollback : Nat := 0x39
def cohortAbort : Nat := 0x3A
def notForPart : Nat := 0x3B
end St

/-! ### Buffers of device-side work -/

/-- A range in SRAM or DRAM (R292). -/
def State.inRam (s : State) (a n : Nat) : Bool :=
  s.rangeIn (fun
    | .sram _ | .dram => true
    | _ => false) a n

/-- The check of one buffer: `MALFORMED` outside `ok`, `ACCESS` in a bank the ring may not touch, `MALFORMED`
where the memory is not on (R11, R362, R400). -/
def State.bufferRefusal (s : State) (prot ok : Bool) (a n : Nat) : Option Nat :=
  if !ok then some St.malformed
  else if !s.bankAllows prot a n then some St.access
  else if n ≠ 0 ∧ !s.rangeOn a n then some St.malformed
  else none

def firstSome (a b : Option Nat) : Option Nat := match a with
  | some x => some x
  | none => b

/-- The oldest outstanding NOTE_BUF of a ring (R84, R430). -/
def State.oldestNoteBuf (s : State) (ring : Nat) : Option Work :=
  s.ring.work.find? fun w => w.ring == ring && w.opcode == 0x30 && w.stage == .waiting

/-- A 32-byte record goes to the oldest outstanding buffer of its ring, whose descriptor completes `DONE` with
the record kind, or is lost and counted in `lost` (R84, R273, R430). -/
def State.postRecord (s : State) (ring kind : Nat) (rec : List Byte) (lost : Fld) : State :=
  match s.oldestNoteBuf ring with
  | some w => (s.setBytes (w.word 3) rec).decide_ w St.done kind
  | none => s.bump lost

/-- Bytes 0-11 of a record in the layout of Table TMP-3: stamp, flags, kind. -/
def recHead (stamp kind flags : Nat) (aligned : Bool) : List Byte :=
  leBytes 7 stamp ++ [BitVec.ofNat 8 (flags / 2 * 2 + b2n aligned), BitVec.ofNat 8 kind, 0#8, 0#8, 0#8]

/-- The stamp a record carries now: aligned tempo, or local tempo while ALIGNED is clear (Table TMP-3). -/
def State.recStamp (s : State) : Nat × Bool :=
  if s.tempoAligned then (s.alignedStamp, true) else (s.localStamp, false)

/-- A ring 8 record (Table TMP-3); `c` is a signed 64-bit number in sixteen-byte places 20-27. -/
def State.tempoRecord (s : State) (kind flags a b : Nat) (c : Int) (d : Nat) : State :=
  let (st, al) := s.recStamp
  s.postRecord 8 kind (recHead st kind flags al ++ leBytes 4 a ++ leBytes 4 b ++
    leBytes 8 (unsigned 64 c) ++ leBytes 4 d) R.TMP_COUNTS_NOTELOST

/-! ### Contexts -/

/-- The number in bytes `[off, off + n)` of context `k`; groups are 512 + g. -/
def State.ctxNum (s : State) (k off n : Nat) : Nat := s.ctx.ctx.num (128 * k + off) n

def State.setCtxNum (s : State) (k off n v : Nat) : State :=
  { s with ctx := { s.ctx with ctx := s.ctx.ctx.setNum (128 * k + off) n v } }

/-- The 128 bytes of context `k`. -/
def State.ctxImage (s : State) (k : Nat) : List Byte := s.ctx.ctx.bytes (128 * k) 128

def State.setCtxImage (s : State) (k : Nat) (bs : List Byte) : State :=
  { s with ctx := { s.ctx with ctx := s.ctx.ctx.setBytes (128 * k) bs } }

/-- FLAGS.VALID of a context. -/
def State.ctxValid (s : State) (k : Nat) : Bool := bitOf (s.ctxNum k 12 2) 0

/-- A field of an image. -/
def imgNum (img : List Byte) (off n : Nat) : Nat := leNum ((img.drop off).take n)

/-! ### Ledger -/

/-- The calendar in 1/32,768 s: BK periods corrected by BKP_TRIM.PPM, a positive value removing periods (R372). -/
def State.calNow (s : State) : Nat :=
  let n := s.bkNow - s.bkp.calAt
  ((s.bkp.cal : Int) + n - (s.bkp.trimAcc + n * signed 15 (s.rd R.BKP_TRIM_PPM)) / 32000000).toNat

/-- Calendar seconds now, or 0 while CALVALID is clear (Table INS-4). -/
def State.calSeconds (s : State) : Nat := if s.flag R.BKP_STATUS_CALVALID then s.calNow / 32768 else 0

/-! ### Wakes -/

/-- BKP sees a wake source while SYS is in retention or off and main is present (R363). -/
def State.wakeSeen (s : State) (src index : Nat) : State :=
  if s.domOn Dom.sys || !s.pins.rail || s.bkp.wake.isSome then s
  else ({ s with bkp := { s.bkp with wake := some (src, index) } }.wr R.BKP_WAKE_SRC src).wr R.BKP_WAKE_INDEX index

/-! ### Ownership of register writes (R30, R86) -/

/-- Counts an ignored write (R30). -/
def State.denied (s : State) (who : Who) : State := (s.bump R.DEV_ACCESS_COUNT).wr R.DEV_ACCESS_LAST who.stamp

/-- The page's owner and mode rule (R30). -/
def State.owns (s : State) (who : Who) (a : Nat) : Bool :=
  let h := ownerHeader a
  s.rd (R.UOWNER_OWNER h) == who.stamp && (who.prot || !s.flag (R.UOWNER_P h))

/-- Ring `n`'s owner rule (R86). -/
def State.ownsRing (s : State) (who : Who) (n : Nat) : Bool :=
  s.rd (R.RNG_OWN_OWNER n) == who.stamp && (who.prot || !s.flag (R.RNG_OWN_P n))

/-- Channel `c`'s owner rule (R305). -/
def State.ownsChannel (s : State) (who : Who) (c : Nat) : Bool :=
  s.rd (R.EVR_CHOWN_OWNER c) == who.stamp && (who.prot || !s.flag (R.EVR_CHOWN_P c))

/-- An access that reached the device after its decision step breaks condition 2 (R52, R54). -/
def State.noteLate (s : State) (who : Who) (unit : Nat) : State :=
  if who.late then s.envBreak 0x05 2 unit else s

/-- A write guarded by a rule: performed, or ignored and counted. -/
def State.guarded (s : State) (who : Who) (ok : Bool) (unit : Nat) (f : State → State) : State :=
  if ok then f (s.noteLate who unit) else s.denied who

/-- A write to a unit page under its owner's rule, while its domain is on. -/
def State.pageWrite (s : State) (who : Who) (h : Nat) (f : State → State) : State :=
  s.guarded who (s.owns who h) h fun s => if s.unitOn h then f s else s

end Sys2Proof.Machine
end

