-- ==== Sys2Proof/Machine/Clock.lean ====
section
/-!
DEFINITION. The passing of time: the clocks, the counting of the timers between commands and the draining of
the trace port.
-/

namespace Sys2Proof.Machine

/-! ### The trace port -/

/-- Order in which the trace port serves packets: TIME, then GAP, then others by ascending source (R451). -/
def traceRank (p : Nat × Nat × List Byte × Nat) : Nat :=
  if p.1 = 7 ∧ p.2.1 = 0 then 0 else if p.2.1 = 0x1E then 1 + p.1 else 16 + p.1

/-- The packet the port serves next, and the rest. -/
def traceNext : List (Nat × Nat × List Byte × Nat) →
    Option ((Nat × Nat × List Byte × Nat) × List (Nat × Nat × List Byte × Nat))
  | [] => none
  | p :: q =>
    match traceNext q with
    | none => some (p, [])
    | some (r, rest) => if traceRank p ≤ traceRank r then some (p, q) else some (r, p :: rest)

/-- Sends `n` bytes of waiting packets; the first packet may be partly sent. -/
def traceDrain : Nat → Nat → TraceState → TraceState
  | 0, _, t => t
  | fuel + 1, n, t =>
    match traceNext t.fifo with
    | none => { t with sent := 0 }
    | some (p, rest) =>
      let left := 3 + p.2.2.1.length - t.sent
      if n < left then { t with sent := t.sent + n }
      else traceDrain fuel (n - left) { t with fifo := rest, sent := 0, lastStamp := p.2.2.2 }

/-! ### Counting timers -/

/-- The timer's gate lets it tick (R317). -/
def State.gateOpen (s : State) (n : Nat) : Bool :=
  !s.flag (R.TMR_CTL_GATEEN n) || (s.level (s.rd (R.TMR_CTL_GATELVL n)) != s.flag (R.TMR_CTL_GATEINV n))

/-- A high timer of a chained pair does not count by itself (R320). -/
def State.isHigh (s : State) (n : Nat) : Bool := n % 2 == 1 && s.flag (R.TMR_CTL_CHAIN (n - 1))

/-- Does a change of the external tick input from `was` to `now` count? EDGE 0 rising, 1 falling, 2 and 3 both. -/
def edgeCounts (edge : Nat) (was now : Bool) : Bool :=
  was != now && match edge with
    | 0 => now
    | 1 => was
    | _ => true

/-- An edge of the level in TMR_EXT is a tick of a timer with CLKSRC 2 (R316). -/
def State.timerExt (s : State) (n : Nat) : State :=
  let now := s.level (s.rd (R.TMR_EXT_LEVEL n))
  let tick := s.flag (R.TMR_STAT_RUNNING n) && s.gateOpen n && edgeCounts (s.rd (R.TMR_EXT_EDGE n)) (s.timer n).ext now
  s.setTimer n fun r => { r with ext := now, count := r.count + b2n tick }

/-- Timer `n` counts `per` PER clocks and `edges` tempo edges of time in which its gate did not change (R316,
R322). The period and compare events are commands of their own. -/
def State.timerRun (s : State) (per edges : Nat) (n : Nat) : State :=
  if s.rd (R.TMR_CTL_CLKSRC n) = 2 && !s.isHigh n then s.timerExt n
  else if !s.flag (R.TMR_STAT_RUNNING n) || s.isHigh n then s
  else match s.rd (R.TMR_CTL_CLKSRC n) with
  | 0 =>
    if s.gateOpen n then
      let d := 2 ^ s.rd (R.TMR_CTL_PRESC n)
      s.setTimer n fun r => { r with count := r.count + (r.pre + per) / d, pre := (r.pre + per) % d }
    else s
  | 1 =>
    if !s.domOn Dom.msn then (if edges = 0 then s else s.put (R.TMR_STAT_MISSED n) true)
    else if s.gateOpen n then s.setTimer n fun r => { r with count := r.count + edges }
    else s
  | _ => s

/-- The running timers count while PER is on. -/
def State.timersRun (s : State) (per edges : Nat) : State :=
  if s.domOn Dom.per then (List.range 8).foldl (fun s n => s.timerRun per edges n) s else s

/-- A frame, acknowledgement or last gasp is past its commit point and has not reached its last edge (R42). -/
def State.txHolds (s : State) : Bool :=
  s.tx.list.any fun x => (x.stage == .hopping || x.stage == .ramping || x.stage == .air || x.stage == .tail) &&
    decide (x.commit ≤ s.clk.edges)

/-- Time passes: the clocks advance, the timers count, and the trace port, when it is driven, sends 800 Mbit/s
(R449). -/
def State.advance (s : State) (t : Elapsed) : State :=
  let per := (s.clk.ns + t.ns) * 48 / 1000 - s.perNow
  let s := s.timersRun per t.edges
  let s := if s.txHolds then { s with tx := { s.tx with airNs := s.tx.airNs + t.ns } } else s
  let s := { s with clk := { edges := s.clk.edges + t.edges, ns := s.clk.ns + t.ns } }
  if s.flag R.INS_CTL_PORTEN then
    { s with trace := traceDrain (s.trace.fifo.length + 1) (t.ns / 10) s.trace }
  else s

end Sys2Proof.Machine
end

