-- ==== Sys2Proof/Machine/Packets.lean ====
section
/-!
DEFINITION. Link packets that a cohort member issues (R418, R419), and the requests for counter blocks (R426).
-/

namespace Sys2Proof.Machine

/-- A cohort member (R417). -/
def State.inCohort (s : State) : Bool := decide (2 ≤ s.rd R.COH_CFG_COUNT)

def State.cohIndex (s : State) : Nat := s.rd R.COH_CFG_INDEX

/-- A member of a cohort that is not its lead commits nothing itself (R429). -/
def State.cohortFollows (s : State) : Bool := s.inCohort && s.rd R.COH_STATUS_STATE != 2

/-- A ring 10 record about member `m` (R430). -/
def State.cohRecord (s : State) (kind m : Nat) : State :=
  let (st, al) := s.recStamp
  s.postRecord 10 kind (recHead st kind 0 al ++ leBytes 4 m ++ leBytes 4 (s.rd R.COH_EPOCH_EPOCH) ++ List.replicate 12 0#8)
    R.COH_COUNTS_NOTELOST

/-- This member is its cohort's lead. -/
def State.leads (s : State) : Bool := s.inCohort && s.rd R.COH_STATUS_STATE == 2

/-- This member follows its cohort's lead. -/
def State.follows (s : State) : Bool := s.inCohort && s.rd R.COH_STATUS_STATE == 3

/-- The cohort states in which a member is silent; a voter that has been quiet stays so through its elections (R422,
R424). -/
def State.cohortSilent (s : State) : Bool := s.inCohort && (decide (4 ≤ s.rd R.COH_STATUS_STATE) || s.coh.quiet)

/-- A member asks the lead for a block of context `k`; the lead grants its own. -/
def State.requestBlock (s : State) (k : Nat) : State :=
  if s.coh.requested.contains k then s
  else (s.setCoh fun c => { c with requested := c.requested ++ [k] }).issue (s.rd R.COH_STATUS_LEAD) 0x0B [k]

end Sys2Proof.Machine
end

