-- ==== Sys2Proof/Machine/Mailbox.lean ====
section
/-!
DEFINITION. Mailboxes: sends, the two receive reads and the sends to other cohort members, R110-R115 of the
chapter "Rings, doorbells and mailboxes".
-/

namespace Sys2Proof.Machine

/-- The boot ROM or homeroom runs: receiver 0x0 accepts notices (R110). -/
def State.bootRuns (s : State) : Bool :=
  match s.phase with
  | .stage n => decide (n ≤ 5)
  | .homeroom => true
  | _ => false

/-- A destination the device refuses with BADDEST: the sender itself, no receiver, or agent 0x0 outside boot
ROM and homeroom (R110, R113). -/
def State.badDest (s : State) (win dest : Nat) : Bool :=
  decide (7 ≤ dest) || dest == win || (dest == 0 && !s.bootRuns)

/-- A send of agent `win` to a local receiver (R113). -/
def State.sendLocal (s : State) (who : Who) (win dest tag ptr : Nat) : State :=
  if s.badDest win dest then
    ((s.put (R.MBX_SSTAT_BADDEST win) true).put (R.MBX_SSTAT_REFUSED win) true).bump R.MBX_COUNTS_BADDEST
  else
    let (s, ok) := s.deliverNotice dest win who.stamp tag ptr who.prot
    if ok then s else s.put (R.MBX_SSTAT_REFUSED win) true

/-- A send to another cohort member: BUSY until the target answers (R115). -/
def State.sendCohort (s : State) (who : Who) (win dev dest tag : Nat) : State :=
  let s := s.put (R.MBX_SSTAT_BUSY win) true
  let s := s.issue (dev - 1) 0x07 [dest, tag, s.rd (R.MBX_SPTR_PTR win), who.stamp % 16, b2n who.prot]
  ({ s with mail := { s.mail with pendingSends := s.mail.pendingSends ++ [(win, tag, s.clk.ns)] } }).progress Hdr.coh

/-- A write of MBX_SCTLa: the low 24 bits are DEVICE, DEST and TAG (R113, R115). -/
def State.mbxSend (s : State) (who : Who) (win v : Nat) : State :=
  s.guarded who (who.stamp == win) Hdr.mbx fun s =>
    let dev := bitsOf v 20 4
    let dest := bitsOf v 16 4
    let tag := bitsOf v 0 16
    if s.flag (R.MBX_SSTAT_BUSY win) then s.put (R.MBX_SSTAT_REFUSED win) true
    else if dev = 0 ∨ dev = s.rd R.COH_CFG_INDEX + 1 then
      s.sendLocal who win dest tag (s.rd (R.MBX_SPTR_PTR win))
    else s.sendCohort who win dev dest tag

def execMbxSend (t : Elapsed) (who : Who) (win value : Nat) (s : State) : Host.Outcome State Fault Refusal :=
  .next ((s.advance t).mbxSend who win value)

/-- The head notice of receiver `r`: the earliest send stamp, then the lowest sender ID; a channel keeps its
order (R114). -/
def State.headNotice (s : State) (r : Nat) : Option Notice :=
  (s.mail.notices.filter (·.dst == r)).foldl (fun best n =>
    match best with
    | none => some n
    | some b => if n.at_ < b.at_ ∨ (n.at_ = b.at_ ∧ n.src < b.src) then some n else some b) none

/-- Removes the first copy of a notice. -/
def dropNotice (n : Notice) (l : List Notice) : List Notice := l.erase n

/-- Reading MBX_RLOr latches the head notice and returns its pointer (R114). -/
def State.mbxLatch (s : State) (who : Who) (r : Nat) : State × Nat :=
  if who.stamp ≠ r then (s, 0)
  else
    let rest := s.mail.latched.filter (·.1 != r)
    match s.headNotice r with
    | none => ({ s with mail := { s.mail with latched := rest } }, 0)
    | some n => ({ s with mail := { s.mail with latched := rest ++ [(r, n)] } }, n.ptr)

/-- Bits [63:32] of a notice (Table MBX-1). -/
def noticeHigh (n : Notice) (lost : Bool) : Nat :=
  2 ^ 31 + b2n lost * 2 ^ 25 + b2n n.prot * 2 ^ 24 + n.stamp % 256 * 2 ^ 16 + n.tag % 65536

/-- Reading MBX_RHIr returns the upper half of the latched notice and removes it from its channel (R114). -/
def State.mbxRemove (s : State) (who : Who) (r : Nat) : State × Nat :=
  if who.stamp ≠ r then (s, 0)
  else match s.mail.latched.find? (·.1 == r) with
  | none => (s, 0)
  | some (_, n) =>
    let v := noticeHigh n (bitOf (s.rd (R.MBX_RLOST_LOST r)) n.src)
    let s := s.wr (R.MBX_RLOST_LOST r) (setBitsOf (s.rd (R.MBX_RLOST_LOST r)) n.src 1 0)
    ({ s with mail := { s.mail with notices := dropNotice n s.mail.notices
                                    latched := s.mail.latched.filter (·.1 != r) } }, v)

/-- A read's answer goes to the bus reply. -/
def State.reply (r : State × Nat) : State := { r.1 with bus := { value := r.2 % 2 ^ 32, error := false } }

def execMbxLatchRead (t : Elapsed) (who : Who) (win : Nat) (s : State) : Host.Outcome State Fault Refusal :=
  .next (State.reply ((s.advance t).mbxLatch who win))

def execMbxRemoveRead (t : Elapsed) (who : Who) (win : Nat) (s : State) : Host.Outcome State Fault Refusal :=
  .next (State.reply ((s.advance t).mbxRemove who win))

/-- Which channels of receiver `r` hold a notice (MBX_RPENDr). -/
def State.mbxPend (s : State) (r : Nat) : Nat :=
  (List.range 16).foldl (fun v k => if s.mail.notices.any (fun n => n.dst == r && n.src == k) then v + 2 ^ k else v) 0

/-- The cohort send of window `win` ends: BUSY clears (R115). -/
def State.endCohortSend (s : State) (win : Nat) : State :=
  { s.put (R.MBX_SSTAT_BUSY win) false with
    mail := { s.mail with pendingSends := s.mail.pendingSends.filter (·.1 != win) } }

/-- The target's answer arrives (R115). -/
def State.cohortAnswer (s : State) (win : Nat) (refused : Bool) : State :=
  if s.mail.pendingSends.any (·.1 == win) then
    let s := (s.endCohortSend win).progress Hdr.coh
    if refused then s.put (R.MBX_SSTAT_REFUSED win) true else s
  else s

def execCohortSendAnswer (t : Elapsed) (win : Nat) (refused : Bool) (s : State) : Host.Outcome State Fault Refusal :=
  .next ((s.advance t).cohortAnswer win refused)

/-- No answer came within 8 µs (R115). -/
def State.cohortSendTimeout (s : State) (win : Nat) : State :=
  if s.mail.pendingSends.any (fun p => p.1 == win && decide (p.2.2 + 8000 ≤ s.clk.ns)) then
    ((s.endCohortSend win).put (R.MBX_SSTAT_NOROUTE win) true).bump R.MBX_COUNTS_NOROUTE
  else s

def execCohortSendTimeout (t : Elapsed) (win : Nat) (s : State) : Host.Outcome State Fault Refusal :=
  .next ((s.advance t).cohortSendTimeout win)

end Sys2Proof.Machine
end

