-- ==== Sys2Proof/Machine/Aes.lean ====
section
/-!
DEFINITION. AES and the modes the manual names (FIPS 197 and NIST SP 800-38A to 800-38F, as R284 lists them),
and the check codes CRC-8 (R148) and CRC-16 (R356). A block is a list of 16 bytes, the first byte first.
-/

namespace Sys2Proof.Machine

/-! ### The block cipher -/

/-- The S-box of FIPS 197. Row `k` holds bytes 16k to 16k + 15, lowest first. -/
def aesSboxRows : List Nat :=
  [ 0x76ABD7FE2B670130C56F6BF27B777C63,
    0xC072A49CAFA2D4ADF04759FA7DC982CA,
    0x1531D871F1E5A534CCF73F362693FDB7,
    0x75B227EBE28012079A059618C323C704,
    0x842FE329B3D63B52A05A6E1B1A2C8309,
    0xCF584C4A39BECB6A5BB1FC20ED00D153,
    0xA89F3C507F02F94585334D43FBAAEFD0,
    0xD2F3FF1021DAB6BCF5389D928F40A351,
    0x73195D643D7EA7C41744975FEC130CCD,
    0xDB0B5EDE14B8EE4688902A22DC4F8160,
    0x79E4959162ACD3C25C2406490A3A32E0,
    0x08AE7A65EAF4566CA94ED58D6D37C8E7,
    0x8A8BBD4B1F74DDE8C6B4A61C2E2578BA,
    0x9E1DC186B95735610EF6034866B53E70,
    0xDF2855CEE9871E9B948ED9691198F8E1,
    0x16BB54B00F2D99416842E6BF0D89A18C ]

/-- The inverse S-box. Row `k` holds bytes 16k to 16k + 15, lowest first. -/
def aesInvRows : List Nat :=
  [ 0xFBD7F3819EA340BF38A53630D56A0952,
    0xCBE9DEC444438E3487FF2F9B8239E37C,
    0x4EC3FA420B954CEE3D23C2A632947B54,
    0x25D18B6D49A25B76B224D92866A12E08,
    0x92B6655DCC5CA4D41698688664F6F872,
    0x849D8DA75746155EDAB9EDFD5048706C,
    0x0645B3B80558E4F70AD3BC8C00ABD890,
    0x6B8A130103BDAFC1020F3FCA8F1E2CD0,
    0x73E6B4F0CECFF297EADC674F4111913A,
    0x6EDF751CE837F9E28535ADE72274AC96,
    0x1BBE18AA0E62B76F89C5291D711AF147,
    0xF45ACD78FEC0DB9A2079D2C64B3E56FC,
    0x5FEC8027591012B131C7078833A8DD1F,
    0xEF9CC9939F7AE52D0D4AB519A97F5160,
    0x619953833CBBEBC8B0F52AAE4D3BE0A0,
    0x7D0C2155631469E126D677BA7E042B17 ]

def tableByte (rows : List Nat) (b : Byte) : Byte :=
  BitVec.ofNat 8 (rows.getD (b.toNat / 16) 0 / 2 ^ (8 * (b.toNat % 16)))

def subByte (b : Byte) : Byte := tableByte aesSboxRows b
def invSubByte (b : Byte) : Byte := tableByte aesInvRows b

/-- Multiplication by x in GF(2^8) modulo x^8 + x^4 + x^3 + x + 1. -/
def xtime (b : Byte) : Byte := (b <<< 1) ^^^ (if b.getLsbD 7 then 0x1B#8 else 0#8)

/-- `b` times a small constant of the mix-column matrices. -/
def gfMul (c : Nat) (b : Byte) : Byte :=
  let b2 := xtime b
  let b4 := xtime b2
  let b8 := xtime b4
  (if c.testBit 0 then b else 0#8) ^^^ (if c.testBit 1 then b2 else 0#8) ^^^
  (if c.testBit 2 then b4 else 0#8) ^^^ (if c.testBit 3 then b8 else 0#8)

def xorBytes (a b : List Byte) : List Byte := List.zipWith (· ^^^ ·) a b

/-- Permutes the bytes of a block: byte `r + 4c` comes from column `c + k * r`. -/
def shiftRows (k : Nat) (s : List Byte) : List Byte :=
  (List.range 16).map fun i => s.getD (i % 4 + 4 * ((i / 4 + k * (i % 4)) % 4)) 0#8

/-- Mixes the columns with the circulant of `m`. -/
def mixColumns (m : List Nat) (s : List Byte) : List Byte :=
  (List.range 16).map fun i =>
    (List.range 4).foldl (fun x j =>
      x ^^^ gfMul (m.getD ((j + 4 - i % 4) % 4) 0) (s.getD (j + 4 * (i / 4)) 0#8)) 0#8

/-- The next key-schedule word after `ws` (newest first) for a key of `nk` words. -/
def nextKeyWord (nk : Nat) (ws : List (List Byte)) (rcon : Byte) : List Byte :=
  let t := ws.headD []
  let i := ws.length
  let t := if i % nk = 0 then
      match (t.drop 1 ++ t.take 1).map subByte with
      | x :: xs => (x ^^^ rcon) :: xs
      | [] => []
    else if 6 < nk ∧ i % nk = 4 then t.map subByte
    else t
  xorBytes t (ws.getD (nk - 1) [])

/-- Extends the key schedule by `n` words. -/
def growKey (nk : Nat) : Nat → List (List Byte) → Byte → List (List Byte)
  | 0, ws, _ => ws
  | n + 1, ws, rcon =>
    growKey nk n (nextKeyWord nk ws rcon :: ws) (if ws.length % nk = 0 then xtime rcon else rcon)

/-- Groups bytes in fours. -/
def inFours : Nat → List Byte → List (List Byte)
  | 0, _ => []
  | n + 1, bs => bs.take 4 :: inFours n (bs.drop 4)

/-- The round keys of a 16-byte or 32-byte key, 16 bytes each. -/
def roundKeys (key : List Byte) : List (List Byte) :=
  let nk := key.length / 4
  let words := (growKey nk (4 * (nk + 7) - nk) (inFours nk key).reverse 1#8).reverse
  (List.range (nk + 7)).map fun r => (words.drop (4 * r)).take 4 |>.flatten

/-- One AES block encryption under given round keys. -/
def aesWith (rks : List (List Byte)) (blk : List Byte) : List Byte :=
  match rks with
  | [] => blk
  | k0 :: rest =>
    let n := rest.length
    (rest.foldl (fun (p : List Byte × Nat) k =>
      let s := shiftRows 1 (p.1.map subByte)
      (xorBytes (if p.2 + 1 = n then s else mixColumns [2, 3, 1, 1] s) k, p.2 + 1)) (xorBytes blk k0, 0)).1

/-- AES of one block (FIPS 197). -/
def aesBlock (key blk : List Byte) : List Byte := aesWith (roundKeys key) blk

/-- Inverse AES of one block. -/
def aesInvBlock (key blk : List Byte) : List Byte :=
  match (roundKeys key).reverse with
  | [] => blk
  | kn :: rest =>
    let n := rest.length
    (rest.foldl (fun (p : List Byte × Nat) k =>
      let s := xorBytes ((shiftRows 3 p.1).map invSubByte) k
      (if p.2 + 1 = n then s else mixColumns [14, 11, 13, 9] s, p.2 + 1)) (xorBytes blk kn, 0)).1

/-! ### Modes -/

/-- Number of 16-byte blocks of `n` bytes. -/
def blocks16 (n : Nat) : Nat := ceilDiv n 16

/-- Cuts bytes into `n` blocks of 16, the last one perhaps shorter. -/
def inBlocks : Nat → List Byte → List (List Byte)
  | 0, _ => []
  | n + 1, bs => bs.take 16 :: inBlocks n (bs.drop 16)

def cut16 (bs : List Byte) : List (List Byte) := inBlocks (blocks16 bs.length) bs

def zeros (n : Nat) : List Byte := List.replicate n 0#8

/-- Pads with zeros to a whole block. -/
def pad16 (bs : List Byte) : List Byte := bs ++ zeros (16 * blocks16 bs.length - bs.length)

/-- A 128-bit counter block whose low `w` bits count. -/
def incBlock (w : Nat) (c : List Byte) : List Byte :=
  let v := beNum c
  beBytes 16 (v / 2 ^ w * 2 ^ w + (v % 2 ^ w + 1) % 2 ^ w)

/-- The counter mode over blocks: output and next counter block. -/
def ctrBlocks (key : List Byte) (w : Nat) : List (List Byte) → List Byte → List Byte × List Byte
  | [], c => ([], c)
  | b :: bs, c =>
    let (o, c') := ctrBlocks key w bs (incBlock w c)
    (xorBytes b (aesBlock key c) ++ o, c')

def ctrMode (key : List Byte) (w : Nat) (c data : List Byte) : List Byte × List Byte := ctrBlocks key w (cut16 data) c

/-- CBC encryption: output and last ciphertext block. -/
def cbcEnc (key : List Byte) : List (List Byte) → List Byte → List Byte × List Byte
  | [], v => ([], v)
  | b :: bs, v =>
    let c := aesBlock key (xorBytes b v)
    let (o, l) := cbcEnc key bs c
    (c ++ o, l)

def cbcDec (key : List Byte) : List (List Byte) → List Byte → List Byte × List Byte
  | [], v => ([], v)
  | b :: bs, v =>
    let (o, l) := cbcDec key bs b
    (xorBytes (aesInvBlock key b) v ++ o, l)

/-- CBC-MAC over whole blocks. -/
def cbcMac (key : List Byte) (v : List Byte) (bs : List (List Byte)) : List Byte :=
  bs.foldl (fun x b => aesBlock key (xorBytes x b)) v

/-! ### CCM (SP 800-38C) -/

/-- The CBC-MAC of CCM before encryption, for AAD shorter than 65,280 bytes. -/
def ccmMac (key nonce aad data : List Byte) (tagLen : Nat) : List Byte :=
  let l := 15 - nonce.length
  let b0 := BitVec.ofNat 8 ((if aad.isEmpty then 0 else 64) + 8 * ((tagLen - 2) / 2) + (l - 1)) :: nonce ++
    beBytes l data.length
  let a := if aad.isEmpty then [] else pad16 (beBytes 2 aad.length ++ aad)
  cbcMac key (zeros 16) (cut16 (b0 ++ a ++ pad16 data))

/-- Counter block `i` of CCM. -/
def ccmCtr (nonce : List Byte) (i : Nat) : List Byte :=
  BitVec.ofNat 8 (14 - nonce.length) :: nonce ++ beBytes (15 - nonce.length) i

/-- CCM: ciphertext and tag. -/
def ccmSeal (key nonce aad data : List Byte) (tagLen : Nat) : List Byte × List Byte :=
  ((ctrMode key 128 (ccmCtr nonce 1) data).1,
   (xorBytes (ccmMac key nonce aad data tagLen) (aesBlock key (ccmCtr nonce 0))).take tagLen)

/-- CCM: the plaintext, if the tag holds. -/
def ccmOpen (key nonce aad data tag : List Byte) : Option (List Byte) :=
  let p := (ctrMode key 128 (ccmCtr nonce 1) data).1
  let want := (xorBytes (ccmMac key nonce aad p tag.length) (aesBlock key (ccmCtr nonce 0))).take tag.length
  if want == tag then some p else none

/-! ### GCM (SP 800-38D) -/

/-- The product of two blocks in GF(2^128) of GCM, most significant bit first. -/
def gfMul128 (x y : Nat) : Nat :=
  ((List.range 128).foldl (fun (p : Nat × Nat) i =>
    let z := if x.testBit (127 - i) then p.1 ^^^ p.2 else p.1
    let v := if p.2.testBit 0 then p.2 / 2 ^^^ 0xE1000000000000000000000000000000 else p.2 / 2
    (z, v)) (0, y)).1

/-- GHASH over whole blocks from accumulator `acc`. -/
def ghash (h acc : Nat) (bs : List (List Byte)) : Nat := bs.foldl (fun a b => gfMul128 (a ^^^ beNum b) h) acc

/-! ### CMAC (SP 800-38B) -/

/-- Doubling in GF(2^128) of CMAC. -/
def dbl128 (v : Nat) : Nat := (2 * v % 2 ^ 128) ^^^ (if v.testBit 127 then 0x87 else 0)

/-- The last step of CMAC from the chaining value and the last, perhaps partial, block. -/
def cmacLast (key chain last : List Byte) : List Byte :=
  let k1 := dbl128 (beNum (aesBlock key (zeros 16)))
  let k := if last.length = 16 then k1 else dbl128 k1
  let b := if last.length = 16 then last else pad16 (last ++ [0x80#8])
  aesBlock key (xorBytes (xorBytes b (beBytes 16 k)) chain)

/-! ### KW (SP 800-38F) -/

/-- The wrapping steps `t` of KW on A and the semiblocks. -/
def kwSteps (key : List Byte) : List Nat → List Byte → List (List Byte) → List Byte × List (List Byte)
  | [], a, r => (a, r)
  | t :: ts, a, r =>
    let i := (t - 1) % r.length
    let b := aesBlock key (a ++ r.getD i [])
    kwSteps key ts (beBytes 8 (beNum (b.take 8) ^^^ t)) (r.set i (b.drop 8))

def kwInvSteps (key : List Byte) : List Nat → List Byte → List (List Byte) → List Byte × List (List Byte)
  | [], a, r => (a, r)
  | t :: ts, a, r =>
    let i := (t - 1) % r.length
    let b := aesInvBlock key (beBytes 8 (beNum a ^^^ t) ++ r.getD i [])
    kwInvSteps key ts (b.take 8) (r.set i (b.drop 8))

/-- Groups bytes in eights. -/
def inEights : Nat → List Byte → List (List Byte)
  | 0, _ => []
  | n + 1, bs => bs.take 8 :: inEights n (bs.drop 8)

/-- KW of whole semiblocks: 8 bytes longer than the data. -/
def kwWrap (key data : List Byte) : List Byte :=
  let n := data.length / 8
  let (a, r) := kwSteps key ((List.range (6 * n)).map (· + 1)) (List.replicate 8 0xA6#8) (inEights n data)
  a ++ r.flatten

/-- Inverse of KW: the data, if the integrity check holds. -/
def kwUnwrap (key blob : List Byte) : Option (List Byte) :=
  let n := blob.length / 8 - 1
  let (a, r) := kwInvSteps key ((List.range (6 * n)).map (· + 1)).reverse (blob.take 8) (inEights n (blob.drop 8))
  if a == List.replicate 8 0xA6#8 then some r.flatten else none

/-! ### Check codes -/

/-- One bit through the CRC-8 with polynomial x^8 + x^2 + x + 1 (R148). -/
def crc8Bit (r : Nat) (b : Bool) : Nat :=
  let top := r.testBit 7
  let r := 2 * r % 256
  if top != b then r ^^^ 0x07 else r

/-- The CRC-8 of a list of bits, first bit first. -/
def crc8Bits (bits : List Bool) : Nat := bits.foldl crc8Bit 0

/-- The CRC-8 of bytes, each most significant bit first. -/
def crc8 (bs : List Byte) : Nat := crc8Bits (bs.flatMap fun b => (List.range 8).map fun i => b.getLsbD (7 - i))

/-- The CRC-16 of ISO/IEC 15693-3 (PRESUMED, the standard's: reflected 0x1021, initial and final inversion). -/
def crc16 (bs : List Byte) : Nat :=
  (bs.foldl (fun c b => (List.range 8).foldl (fun c _ => if c % 2 = 1 then c / 2 ^^^ 0x8408 else c / 2)
    (c ^^^ b.toNat)) 0xFFFF) ^^^ 0xFFFF

/-- One byte through the reflected CRC-32 of R106, polynomial 0x04C1_1DB7. -/
def crcStep (c : Word) (b : Byte) : Word :=
  (List.range 8).foldl (fun c _ => if c.getLsbD 0 then (c >>> 1) ^^^ 0xEDB88320#32 else c >>> 1)
    (c ^^^ b.setWidth 32)

/-- The CRC-32 of R106. -/
def crc32 (bs : List Byte) : Nat := (bs.foldl crcStep 0xFFFFFFFF#32 ^^^ 0xFFFFFFFF#32).toNat

end Sys2Proof.Machine
end

