-- ==== Sys2Proof/Machine/Sweep.lean ====
section
/-!
DEFINITION. The on-air frame of the chapter "Sweep modulation": symbol counts and airtime (R141-R157), the PHY
header with its check bits, convolutional code and interleaver (R147-R151), district marks (R146), whitening
and mapping of the payload (R153-R155). Frequencies within a symbol are left to the symbol value (R142).
-/

namespace Sys2Proof.Machine

/-! ### Counts -/

/-- Bits per payload symbol: the order, or two fewer in robust mapping (R155). -/
def symBits (order : Nat) (robust : Bool) : Nat := if robust then order - 2 else order

/-- Information lengths K of the code blocks of a payload of `len` bytes (R152). -/
def blockLens (len : Nat) : List Nat :=
  let b := 8 * (len + 4)
  let c := ceilDiv b 1024
  (List.range c).map fun i => b / c + b2n (decide (i < b % c))

/-- Parity target T of a block at a rate code (Table DEC-2). -/
def parityTarget (k rate : Nat) : Nat :=
  match rate with
  | 0 => ceilDiv k 4
  | 1 => ceilDiv k 2
  | 2 => k
  | _ => 2 * k

/-- Coded bits one block sends (R191, R192). -/
def blockBits (k rate pset : Nat) : Nat := if pset = 0 then k + parityTarget k rate else ceilDiv k 2

/-- Coded bits Nc of a transmission (R152, R192). -/
def codedBits (len rate pset : Nat) : Nat := ((blockLens len).map fun k => blockBits k rate pset).sum

/-- Payload symbols Np (R154) and header symbols Nh (R150). -/
def payloadSymbols (len rate pset order : Nat) (robust : Bool) : Nat :=
  ceilDiv (codedBits len rate pset) (symBits order robust)

def headerSymbols (order : Nat) : Nat := ceilDiv 96 (order - 2)

/-- Symbols of a frame (R157). -/
def frameSymbols (turns len rate pset order : Nat) (robust : Bool) : Nat :=
  2 * turns + 2 + headerSymbols order + payloadSymbols len rate pset order robust

/-- Length of `n` symbols in ledger units of 2/3 µs, one chip at 1,500 kHz (R274). -/
def symUnits (n order bw : Nat) : Nat := n * 2 ^ order * 2 ^ (3 - bw)

/-- A length in ledger units as nanoseconds, rounded down. -/
def unitNs (u : Nat) : Nat := u * 2000 / 3

/-! ### PHY header -/

/-- Bits of a number, least significant first. -/
def natBits (n v : Nat) : List Bool := (List.range n).map fun i => v.testBit i

/-- The number of a list of bits, least significant first. -/
def bitsNat : List Bool → Nat
  | [] => 0
  | b :: bs => b2n b + 2 * bitsNat bs

/-- The PHY header word h0-h23 (Table SWP-2). -/
def headerWord (len rate pset : Nat) (robust : Bool) (kind : Nat) : Nat :=
  len % 512 + 512 * rate + 2048 * pset + 8192 * b2n robust + 16384 * kind

def hdrLen (h : Nat) : Nat := bitsOf h 0 9
def hdrRate (h : Nat) : Nat := bitsOf h 9 2
def hdrPset (h : Nat) : Nat := bitsOf h 11 2
def hdrRobust (h : Nat) : Bool := bitOf h 13
def hdrKind (h : Nat) : Nat := bitsOf h 14 2
def hdrVer (h : Nat) : Nat := bitsOf h 16 2

/-- The 32 header bits with their CRC-8, most significant check bit first (R148). -/
def headerBits (h : Nat) : List Bool :=
  let hs := natBits 24 h
  let r := crc8Bits hs
  hs ++ (List.range 8).map fun k => r.testBit (7 - k)

/-- Is a decoded header word of 32 bits kept (R151)? -/
def headerValid (w : Nat) : Bool :=
  natBits 32 w == headerBits (w % 2 ^ 24) && decide (0 < hdrLen w ∧ hdrLen w ≤ 288) && decide (hdrKind w < 2) &&
    hdrVer w == 0

/-- One output of a generator (octal 133, 171, 165) over the register, newest bit first (R149). -/
def convOut (gen : List Bool) (reg : List Bool) : Bool :=
  (List.zipWith (· && ·) gen reg).foldl (· != ·) false

/-- The tail-biting convolutional code: the register starts with h26-h31 (R149). -/
def convCode (bits : List Bool) : List Bool :=
  let gens : List (List Bool) :=
    [[true, false, true, true, false, true, true], [true, true, true, true, false, false, true],
     [true, true, true, false, true, false, true]]
  let start := (bits.drop 26).reverse
  (bits.foldl (fun (p : List Bool × List Bool) b =>
    let reg := b :: p.1
    (reg.take 6, p.2 ++ gens.map fun g => convOut g reg)) (start, [])).2

/-- Groups of `b` bits for `np` symbols: bit j of symbol s, the first the most significant, is coded bit
j × np + s; padding is 0 (R154). -/
def interleave (np b : Nat) (coded : List Bool) : List Nat :=
  let a := coded.toArray
  (List.range np).map fun s => (List.range b).foldl (fun g j => 2 * g + b2n (a.getD (j * np + s) false)) 0

/-- A group as its code word, the running exclusive-or from the top bit (R155). -/
def grayCode : Nat → Nat → Nat
  | 0, _ => 0
  | b + 1, g => let hi := grayCode b (g / 2)
                2 * hi + (hi + g) % 2

/-- Symbol value of a group (R155). -/
def symValue (order : Nat) (robust : Bool) (g : Nat) : Nat :=
  if robust then 4 * grayCode (order - 2) g + 2 else grayCode order g

/-- Group of an estimated symbol value (R155). -/
def symGroup (order : Nat) (robust : Bool) (v : Nat) : Nat :=
  let c := if robust then v / 4 % 2 ^ (order - 2) else v % 2 ^ order
  c ^^^ (c / 2)

/-! ### District mark -/

/-- Values of the two sync symbols (R146). -/
def syncValues (order mark : Nat) : Nat × Nat :=
  ((2 * bitsOf mark 0 5 + 1) * 2 ^ order / 64, (2 * bitsOf mark 5 5 + 1) * 2 ^ order / 64)

/-- Half of the mark read from an estimated sync value: round((64 v/N − 1)/2) mod 32 (R146). An estimate midway
between two halves is rounded as the part does. -/
def syncHalf (order v : Nat) : Nat :=
  let q := 32 * v / 2 ^ order
  (if 32 * v % 2 ^ order = 0 ∧ !Config.roundUp (32 * v) (2 ^ order) then q + 31 else q) % 32

def markOf (order v1 v2 : Nat) : Nat := syncHalf order v1 + 32 * syncHalf order v2

/-! ### Whitening -/

/-- The next `n` whitening bits from register `s` (R153). -/
def whitenFrom : Nat → Nat → List Bool
  | 0, _ => []
  | n + 1, s => s.testBit 0 :: whitenFrom n (s / 2 + (if s.testBit 0 != s.testBit 2 then 1024 else 0))

/-- Whitening of `n` bits under a district mark. -/
def whitening (mark n : Nat) : List Bool := whitenFrom n (0x400 ||| mark % 1024)

/-- Soft values of a payload in code-bit order: whitening undone by sign, interleaving undone, padding dropped
(R181). `soft` holds the values symbol by symbol, most significant bit first. -/
def softBits (np b nc mark : Nat) (soft : List Int) : List Int :=
  let a := soft.toArray
  (List.zipWith (fun i (w : Bool) =>
      let v := a.getD (i % np * b + i / np) 0
      let v := if v < -31 then -31 else if 31 < v then 31 else v
      if w then -v else v)
    (List.range nc) (whitening mark nc))

end Sys2Proof.Machine
end

