-- ==== Sys2Proof/Machine/Rings.lean ====
section
/-!
DEFINITION. Rings, doorbells, completions and the copy engine: R85-R109 of the chapter "Rings, doorbells and
mailboxes". A command is taken at the decision step of R52.
-/

namespace Sys2Proof.Machine

/-! ### Ring geometry -/

/-- Entries of ring `n` (R87). -/
def State.ringSize (s : State) (n : Nat) : Nat := 2 ^ s.rd (R.RNG_CFG_LOG2 n)
def State.sqBase (s : State) (n : Nat) : Nat := s.rd (R.RNG_SQBASE_ADDR n) * 32
def State.cqBase (s : State) (n : Nat) : Nat := s.rd (R.RNG_CQBASE_ADDR n) * 16

/-- Difference of two free-running 16-bit indices (R88). -/
def idxDiff (a b : Nat) : Nat := (a + 65536 - b) % 65536

/-- Descriptors of ring `n` in flight: fetched, completion not written (R100). -/
def State.inFlight (s : State) (n : Nat) : Nat :=
  (s.ring.work.filter (·.ring == n)).length + (s.ring.done.filter (·.ring == n)).length

/-- The completion ring is full (R91). -/
def State.cqFull (s : State) (n : Nat) : Bool :=
  idxDiff (s.rd (R.RNG_CQPROD_PROD n)) (s.rd (R.RNG_CQCONS_CONS n)) == s.ringSize n

/-- The memory of the ring's submission or completion ring is not on (R100). -/
def State.ringMemOff (s : State) (n : Nat) : Bool := !s.memOn (s.sqBase n) || !s.memOn (s.cqBase n)

/-- Completions of ring `n` are held: its completion ring is full or its memory is not on (R91, R100). -/
def State.held (s : State) (n : Nat) : Nat :=
  if s.cqFull n || !s.memOn (s.cqBase n) then (s.ring.done.filter (·.ring == n)).length else 0

/-- Descriptors submitted on ring `n` and not yet completed (R102). -/
def State.outstanding (s : State) (n : Nat) : Nat :=
  idxDiff (s.rd (R.RNG_SQPROD_PROD n)) (s.rd (R.RNG_SQCONS_CONS n)) + s.inFlight n

/-- The ring is disabled and every completion is written (R88, R103). -/
def State.ringDrained (s : State) (n : Nat) : Bool := !s.flag (R.RNG_CFG_EN n) && s.inFlight n == 0

/-! ### Opcodes -/

/-- The unit that works an opcode on a ring, and whether it is schedulable (R85, R93). -/
def opInfo (ring op : Nat) : Option (Nat × Bool) :=
  if op = 0x00 then some (Hdr.rng, true)
  else match ring, op with
  | 0, 0x03 | 0, 0x04 | 0, 0x10 | 0, 0x11 | 0, 0x12 | 0, 0x13 => some (Hdr.rng, false)
  | 0, 0x14 => some (Hdr.lnk, false)
  | 0, 0x15 | 0, 0x16 => some (Hdr.ttb, false)
  | 1, 0x20 | 2, 0x20 => some (Hdr.lnk, true)
  | 2, 0x22 => some (Hdr.ttb, false)
  | 3, 0x28 | 4, 0x28 => some (Hdr.lnk, false)
  | 5, 0x60 | 5, 0x61 | 5, 0x62 | 5, 0x63 | 5, 0x64 => some (Hdr.cip, false)
  | 6, 0x50 | 6, 0x51 => some (Hdr.cap, true)
  | 7, 0x70 | 7, 0x71 | 7, 0x72 | 7, 0x73 | 7, 0x74 | 7, 0x75 => some (Hdr.tag, false)
  | 8, 0x30 => some (Hdr.tmp, false)
  | 9, 0x30 => some (Hdr.ttb, false)
  | 10, 0x30 => some (Hdr.coh, false)
  | 11, 0x93 => some (Hdr.upd, true)
  | 11, 0x90 | 11, 0x91 | 11, 0x92 | 11, 0x94 | 11, 0x95 => some (Hdr.upd, false)
  | n, 0x40 | n, 0x41 | n, 0x42 => if 12 ≤ n ∧ n < 16 then some (Hdr.rng, false) else none
  | _, _ => none

/-- Is the opcode served work of the ring (R108)? -/
def State.isServed (s : State) (ring op : Nat) : Bool :=
  decide (12 ≤ ring ∧ 0xE0 ≤ op) && s.flag (R.RNG_SRV_EN ring)

/-- `SEND` seals at its decision step and applies its start stamp to the first transmission (R241); every other
schedulable opcode waits at the ring engine. -/
def waitsForStamp (op : Nat) : Bool := op != 0x20

/-- Hands a descriptor on: it waits for its start stamp, for its server, or is accepted by its unit; a unit that
is disabled or off gives `NOT_RUN` (R40). -/
def State.handOn (s : State) (w : Work) : State :=
  let w := { w with at_ := s.clk.edges, gen := s.gen.active }
  let put := fun (x : Work) => s.updWork w.ring w.idx fun _ => x
  if s.isServed w.ring w.opcode then put { w with stage := .served false }
  else if w.isTimed && !s.tempoUsable then s.decide_ w St.tempoInvalid
  else if w.isTimed && waitsForStamp w.opcode then put { w with stage := .timed }
  else if w.opcode != 0 && !s.enabled w.unit then s.decide_ w St.notRun
  else put { w with stage := .accepted }

/-- A descriptor just fetched is checked by the ring engine (R85, R93, R94). -/
def State.enter (s : State) (w : Work) : State :=
  if s.isServed w.ring w.opcode then
    if w.isTimed then s.decide_ w St.malformed
    else if w.isFence && s.ring.work.any (fun x => x.ring == w.ring && idxBefore x.idx w.idx) then
      s.updWork w.ring w.idx fun x => { x with stage := .fenced }
    else s.handOn w
  else match opInfo w.ring w.opcode with
  | none => s.decide_ w St.malformed
  | some (u, sched) =>
    let w := { w with unit := u, start := s.expandStamp (w.word 1) (bitsOf (w.word 2) 0 16) }
    let s := s.updWork w.ring w.idx fun _ => w
    if w.isTimed && !sched then s.decide_ w St.malformed
    else if w.isFence && s.ring.work.any (fun x => x.ring == w.ring && idxBefore x.idx w.idx) then
      s.updWork w.ring w.idx fun x => { x with stage := .fenced }
    else s.handOn w

/-! ### Doorbells and fetching -/

/-- A doorbell at its decision step (R26, R86, R89, R102). -/
def State.doorbell (s : State) (who : Who) (n prod : Nat) : State :=
  s.guarded who (s.ownsRing who n) Hdr.rng fun s =>
    if s.phase ≠ .running then s.bump R.RNG_EARLY_COUNT
    else
      let old := s.rd (R.RNG_SQPROD_PROD n)
      let cons := s.rd (R.RNG_SQCONS_CONS n)
      if !s.flag (R.RNG_CFG_EN n) || decide (s.ringSize n < idxDiff prod cons) ||
          decide (32768 ≤ idxDiff prod old) then s.put (R.RNG_STAT_DBERR n) true
      else
        let s := ((s.wr (R.RNG_SQPROD_PROD n) prod).count (16 + n)).tracePacket 2 0x01
          (BitVec.ofNat 8 n :: leBytes 7 s.localStamp ++ leBytes 2 prod)
        if s.rd (R.RNG_CFG_CREDIT n) < s.outstanding n && !s.flag (R.RNG_STAT_OVERCREDIT n) then
          (s.put (R.RNG_STAT_OVERCREDIT n) true).envBreak 0x09 4 Hdr.rng
        else s

def execDoorbell (t : Elapsed) (who : Who) (ring prod : Nat) (s : State) :
    Host.Outcome State Fault Refusal := .next ((s.advance t).doorbell who ring prod)

/-- May the ring engine fetch from ring `n` now (R100)? -/
def State.mayFetch (s : State) (n : Nat) : Bool :=
  s.flag (R.RNG_CFG_EN n) && s.rd (R.RNG_SQPROD_PROD n) != s.rd (R.RNG_SQCONS_CONS n) &&
  decide (s.inFlight n < s.rd (R.RNG_CFG_CREDIT n)) && s.held n == 0 && !s.cqFull n &&
  s.memOn (s.sqBase n) && s.accepts Hdr.rng

/-- Fetches one descriptor from ring `n` (R90, R92, R100). -/
def State.fetchDescriptor (s : State) (n : Nat) : State :=
  if !s.mayFetch n then s
  else
    let idx := s.rd (R.RNG_SQCONS_CONS n)
    let a := s.sqBase n + 32 * (idx % s.ringSize n)
    let w : Work := { ring := n, idx := idx, addr := a, w := (List.range 8).map fun k => s.num (a + 4 * k) 4,
                      owner := s.rd (R.RNG_OWN_OWNER n), prot := s.flag (R.RNG_OWN_P n), unit := Hdr.rng,
                      at_ := s.clk.edges, gen := s.gen.active }
    let s := (s.wr (R.RNG_SQCONS_CONS n) ((idx + 1) % 65536)).progress Hdr.rng
    ({ s with ring := { s.ring with work := s.ring.work ++ [w] } }).enter w

def execDescriptorFetch (t : Elapsed) (ring : Nat) (s : State) : Host.Outcome State Fault Refusal :=
  .next ((s.advance t).fetchDescriptor ring)

/-- A descriptor's start stamp is reached: its work is handed to its unit, or completes `LATE` beyond its slip
tolerance (R80, R93). -/
def State.timedStart (s : State) (n idx : Nat) : State :=
  match s.findWork n idx with
  | some w =>
    if w.stage == .timed && s.tempoUsable && decide (w.start ≤ s.alignedStamp) then
      if w.slip < s.alignedStamp - w.start then s.decide_ w St.late
      else if w.opcode != 0 && !s.enabled w.unit then s.decide_ w St.notRun
      else s.updWork n idx fun w => { w with stage := .accepted, at_ := s.clk.edges, gen := s.gen.active }
    else s
  | none => s

def execTimedStart (t : Elapsed) (ring idx : Nat) (s : State) : Host.Outcome State Fault Refusal :=
  .next ((s.advance t).timedStart ring idx)

/-- Every earlier descriptor of the ring has been decided: a fenced one is handed on (R94). -/
def State.fenceRelease (s : State) (n idx : Nat) : State :=
  match s.findWork n idx with
  | some w =>
    if w.stage == .fenced && !s.ring.work.any (fun x => x.ring == n && idxBefore x.idx idx) then s.handOn w else s
  | none => s

def execFenceRelease (t : Elapsed) (ring idx : Nat) (s : State) : Host.Outcome State Fault Refusal :=
  .next ((s.advance t).fenceRelease ring idx)

/-! ### Completions -/

/-- Earlier of two decided completions: by stamp, equal stamps in submission order (R97). -/
def Done.before (a b : Done) : Bool :=
  decide (a.at_ < b.at_) || (a.at_ == b.at_ && idxBefore a.idx b.idx)

/-- The completion ring `n` writes next (R97); with ORDER set it waits for every earlier descriptor. A
completion decided ahead of its stamp waits for it (R226). -/
def State.nextDone (s : State) (n : Nat) : Option Done :=
  let ds := s.ring.done.filter fun d => d.ring == n && decide (d.at_ ≤ s.clk.edges)
  if s.flag (R.RNG_CFG_ORDER n) then
    ds.find? fun d => !(s.ring.done.any fun e => e.ring == n && idxBefore e.idx d.idx) &&
      !(s.ring.work.any fun w => w.ring == n && idxBefore w.idx d.idx)
  else ds.find? fun d => !(ds.any fun e => e.before d)

/-- The 16 bytes of a completion written at index `prod` of a ring of `size` entries (R91, Table RNG-4). -/
def doneBytes (d : Done) (prod size : Nat) : List Byte :=
  let phase := if prod / size % 2 = 0 then 1 else 0
  leBytes 2 d.tag ++ [BitVec.ofNat 8 d.status, BitVec.ofNat 8 (phase * 128 + d.flags * 16 + d.ring)] ++
  leBytes 4 (stampCycle d.stamp) ++ leBytes 2 (stampStep d.stamp) ++ leBytes 2 d.gen ++ leBytes 4 d.result

/-- Does this completion fire the ring's event (R99)? -/
def State.firesEvent (s : State) (d : Done) : Bool :=
  d.event || match s.rd (R.RNG_CFG_CEV d.ring) with
    | 0 => false
    | 2 => d.status != St.done
    | _ => true

/-- The count of submitted descriptors fell back to the ring's credit: condition 4 holds again (R102). -/
def State.creditRestore (s : State) (n : Nat) : State :=
  if s.flag (R.RNG_STAT_OVERCREDIT n) && decide (s.outstanding n ≤ s.rd (R.RNG_CFG_CREDIT n)) then
    let s := s.put (R.RNG_STAT_OVERCREDIT n) false
    if (List.range 16).any fun k => s.flag (R.RNG_STAT_OVERCREDIT k) then s else s.envRestore 0x09 4 Hdr.rng
  else s

/-- Writes the next completion of ring `n`, unless it is held (R91, R97-R99). -/
def State.writeCompletion (s : State) (n : Nat) : State :=
  if s.cqFull n || !s.memOn (s.cqBase n) then s
  else match s.nextDone n with
  | none => s
  | some d =>
    let prod := s.rd (R.RNG_CQPROD_PROD n)
    let s := s.setBytes (s.cqBase n + 16 * (prod % s.ringSize n)) (doneBytes d prod (s.ringSize n))
    let s := (s.wr (R.RNG_CQPROD_PROD n) ((prod + 1) % 65536)).progress Hdr.rng
    let s := { s with ring := { s.ring with
        done := s.ring.done.filter fun e => !(e.ring == n && e.idx == d.idx) } }
    let s := (s.count n).tracePacket 2 0x02
      (BitVec.ofNat 8 n :: leBytes 2 d.tag ++ [BitVec.ofNat 8 d.status] ++ leBytes 2 ((prod + 1) % 65536))
    let s := if s.firesEvent d then s.emit (0x11 + n) else s
    s.creditRestore n

/-- The owner releases completion slots (R91). -/
def State.writeCqCons (s : State) (who : Who) (n cons : Nat) : State :=
  s.guarded who (s.ownsRing who n) Hdr.rng fun s => s.wr (R.RNG_CQCONS_CONS n) cons

def execCqconsWrite (t : Elapsed) (who : Who) (ring cons : Nat) (s : State) : Host.Outcome State Fault Refusal :=
  .next ((s.advance t).writeCqCons who ring cons)

/-! ### Enabling and disabling -/

/-- Records a refused set-up write (R87, R88, R101, RNG_SETERR). -/
def State.setupError (s : State) (n cause : Nat) : State :=
  ((s.wr R.RNG_SETERR_CAUSE cause).wr R.RNG_SETERR_RING n).bump R.RNG_SETERR_COUNT

/-- A ring base of `bytes` bytes is aligned to the ring and the ring lies wholly in SRAM or wholly in DRAM
(R87). -/
def State.ringPlaced (s : State) (base bytes : Nat) : Bool :=
  base % bytes == 0 && match s.region base, s.region (base + bytes - 1) with
    | .sram _, .sram _ => true
    | .dram, .dram => true
    | _, _ => false

/-- Sum of the credits of enabled rings (R101). -/
def State.creditSum (s : State) : Nat :=
  ((List.range 16).filter fun n => s.flag (R.RNG_CFG_EN n)).foldl (fun k n => k + s.rd (R.RNG_CFG_CREDIT n)) 0

/-- A commit of ring 0 that has not reached its boundary is given up. -/
def State.dropCommit (s : State) (idx : Nat) : State :=
  match s.gen.commit with
  | some c =>
    if !c.switched && !c.fromLead && c.idx == idx then
      { s with gen := { s.gen with commit := none, pending := s.gen.active } }
    else s
  | none => s

/-- Update work of a ring 11 descriptor is given up; an operation already issued to the flash completes by itself
(R437). -/
def State.dropUpdate (s : State) (idx : Nat) : State :=
  { s with upd := { s.upd with tasks := s.upd.tasks.filter (·.idx != some idx)
                               preparing := s.upd.preparing.filter (·.1 != idx)
                               accepting := s.upd.accepting.filter (· != idx) } }

/-- What a disabled ring does with a fetched descriptor: work past its commit point goes on, work started
completes `ABANDONED`, work not started `NOT_RUN`; a recording ends as R139 says (R40, R103). Served work waits for
its server: `c` marks it, `due` and `b` keep the time and the air time of the disable (R109). -/
def State.stopWork (s : State) (w : Work) : State :=
  let s := if w.stage == .committed then s
    else { s with tx := { s.tx with list := s.tx.list.filter fun x => x.kind != .frame w.ring w.idx } }
  let s := if w.ring = 0 ∧ w.opcode = 0x03 ∧ w.stage = .waiting then s.dropCommit w.idx else s
  let s := if w.ring = 11 then s.dropUpdate w.idx else s
  match w.stage with
  | .committed => s
  | .served _ => s.updWork w.ring w.idx fun w => if w.c = 1 then w else { w with c := 1, due := s.clk.ns, b := s.tx.airNs }
  | .started =>
    if w.ring = 5 then
      if s.clk.edges < w.b then s.decide_ w St.notRun
      else if s.clk.edges < w.b + s.stepsOf 1920 then s.decide_ w St.abandoned else s
    else s.decide_ w St.abandoned
  | _ => s.decide_ w St.notRun

/-- Clears RNG_CFG.EN of ring `n` (R103). -/
def State.disableRing (s : State) (n : Nat) : State :=
  if !s.flag (R.RNG_CFG_EN n) then s
  else
    let s := s.put (R.RNG_CFG_EN n) false
    let s := if n = 6 ∧ s.cap.record.isSome then { s with cap := { s.cap with stopping := true } } else s
    (s.ring.work.filter (·.ring == n)).foldl State.stopWork s

/-- A write of RNG_CFGn (R87, R88, R101, R103). Bit 0 is EN, [3:2] CEV, [1] ORDER, [7:4] LOG2, [14:8] CREDIT. -/
def State.writeRingCfg (s : State) (n v : Nat) : State :=
  let credit := bitsOf v 8 7
  let log2 := bitsOf v 4 4
  let setup := fun (x : Nat) => (bitsOf x 8 7, bitsOf x 4 4, bitsOf x 1 1)
  let old := (s.word (R.RNG_CFG_EN n).addr).toNat
  let store := fun (s : State) (en : Bool) =>
    ((((s.wr (R.RNG_CFG_CREDIT n) credit).wr (R.RNG_CFG_LOG2 n) log2).wr (R.RNG_CFG_CEV n) (bitsOf v 2 2)).wr
      (R.RNG_CFG_ORDER n) (bitsOf v 1 1)).put (R.RNG_CFG_EN n) en
  if s.flag (R.RNG_CFG_EN n) then
    let s := if setup v == setup old then s else s.setupError n 4
    let s := s.wr (R.RNG_CFG_CEV n) (bitsOf v 2 2)
    if v % 2 = 1 then s else s.disableRing n
  else if log2 < 3 ∨ 12 < log2 ∨ credit < 1 ∨ 64 < credit ∨ 2 ^ log2 < credit then s.setupError n 2
  else if v % 2 = 0 then store s false
  else if !s.ringPlaced (s.sqBase n) (32 * 2 ^ log2) || !s.ringPlaced (s.cqBase n) (16 * 2 ^ log2) then
    s.setupError n 3
  else if 256 < s.creditSum + credit then s.setupError n 1
  else if !s.ringDrained n || !s.enabled Hdr.rng then s.setupError n 5
  else
    ((((store s true).wr (R.RNG_SQPROD_PROD n) 0).wr (R.RNG_SQCONS_CONS n) 0).wr (R.RNG_CQPROD_PROD n) 0).wr
      (R.RNG_CQCONS_CONS n) 0

/-- A write of RNG_CFGn under the ring owner's rule (R86). -/
def State.ringCfg (s : State) (who : Who) (n v : Nat) : State :=
  s.guarded who (s.ownsRing who n) Hdr.rng fun s => s.writeRingCfg n v

def execRingEnable (t : Elapsed) (who : Who) (ring value : Nat) (s : State) : Host.Outcome State Fault Refusal :=
  .next ((s.advance t).ringCfg who ring (value / 2 * 2 + 1))

def execRingDisable (t : Elapsed) (who : Who) (ring value : Nat) (s : State) : Host.Outcome State Fault Refusal :=
  .next ((s.advance t).ringCfg who ring (value / 2 * 2))

/-- A write of a ring base: refused while the ring is enabled (R88). -/
def State.writeRingBase (s : State) (n : Nat) (f : Fld) (v : Nat) : State :=
  if s.flag (R.RNG_CFG_EN n) then s.setupError n 4 else s.wr f (v / 2 ^ f.lsb)

/-! ### Running a descriptor -/

/-- Runs `k` on an accepted descriptor with one of the opcodes, when its unit accepts work; a draining unit
leaves it waiting (R41), a disabled one completes it `NOT_RUN` (R40). -/
def State.runWork (s : State) (ring idx : Nat) (ops : List Nat) (k : Work → State → State) : State :=
  match s.findWork ring idx with
  | some w =>
    if w.stage == .accepted && ops.contains w.opcode then
      if !s.enabled w.unit then s.decide_ w St.notRun
      else if s.flag (R.UCTL_DRAIN w.unit) || (s.unit w.unit).draining || (s.unit w.unit).lapsed then s
      else k w s
    else s
  | none => s

/-- NOP completes `DONE` at its decision step or start stamp, result 0 (Table RNG-3). -/
def execNop (t : Elapsed) (ring idx : Nat) (s : State) : Host.Outcome State Fault Refusal :=
  .next ((s.advance t).runWork ring idx [0x00] fun w s => s.decide_ w St.done)

/-! ### The ownership command -/

/-- Is an agent stamp one a target may be given to (R105)? -/
def State.ownerNamed (s : State) (stamp : Nat) : Bool :=
  stamp % 16 != 7 && (stamp / 16 == 0 || (decide (stamp / 16 ≤ 8) &&
    (stamp / 16 == s.rd R.COH_CFG_INDEX + 1 || bitOf (s.rd R.COH_STATUS_PRESENT) (stamp / 16 - 1))))

/-- The owner field and P field of a SET_OWNER target (Table RNG-5). -/
def ownerFields (kind target : Nat) : Option (Fld × Fld) :=
  match kind with
  | 0 =>
    let page := (unitInfo target).isSome && pageBase target == target && target != Hdr.cohort
    let ens := decide (Hdr.rad ≤ target ∧ target ≤ Hdr.svc ∧ target % 0x40 = 0)
    if page || ens then some (R.UOWNER_OWNER target, R.UOWNER_P target) else none
  | 1 => if target < 16 then some (R.RNG_OWN_OWNER target, R.RNG_OWN_P target) else none
  | 2 => if target < 96 then some (R.EVR_CHOWN_OWNER target, R.EVR_CHOWN_P target) else none
  | _ => none

/-- The target is a ring that is enabled or a channel whose group is enabled (R105). -/
def State.ownerTargetActive (s : State) (kind target : Nat) : Bool :=
  (kind == 1 && s.flag (R.RNG_CFG_EN target)) || (kind == 2 && bitOf (s.rd R.EVR_GRP_EN) (target / 8))

/-- SET_OWNER (R105). -/
def State.setOwner (s : State) (w : Work) : State :=
  let kind := bitsOf (w.word 3) 0 2
  let target := w.word 4
  let owner := bitsOf (w.word 5) 0 8
  let p := bitsOf (w.word 5) 8 1
  if !w.prot then s.decide_ w St.access
  else match ownerFields kind target with
  | none => s.decide_ w St.malformed
  | some (fo, fp) =>
    if s.rd fo % 16 = 1 ∧ s.flag fp then s.decide_ w St.access
    else if !s.ownerNamed owner then s.decide_ w St.malformed
    else if s.ownerTargetActive kind target then s.decide_ w St.targetActive
    else
      let old := s.rd fo + 256 * s.rd fp
      ((s.wr fo owner).wr fp p).decide_ w St.done old

def execSetOwner (t : Elapsed) (idx : Nat) (s : State) : Host.Outcome State Fault Refusal :=
  .next ((s.advance t).runWork 0 idx [0x04] fun w s => s.setOwner w)

/-! ### The copy engine -/

/-- Does an address lie in a cohort window (R107)? -/
def State.inWindow (s : State) (a : Nat) : Bool :=
  match s.region a with
  | .window _ _ => true
  | _ => false

/-- Source, destination and length of a copy job: `none` where the opcode has none (Table RNG-6). -/
def copyRanges (w : Work) : Option Nat × Option Nat × Nat :=
  let n := bitsOf (w.word 5) 0 24
  match w.opcode with
  | 0x40 => (some (w.word 3), some (w.word 4), n)
  | 0x41 => (none, some (w.word 4), n)
  | _ => (some (w.word 3), if w.word 4 = 0 then none else some (w.word 4), n)

/-- The checks made before any transfer: the status that refuses the job, if one does (R106, R362, R400). -/
def State.copyRefusal (s : State) (w : Work) : Option Nat :=
  let (src, dst, n) := copyRanges w
  let bad := fun (a : Option Nat) (ok : Nat → Bool) => match a with
    | some a => !ok a
    | none => false
  if bitsOf (w.word 5) 24 8 ≠ 0 then some St.malformed
  else if bad src (s.devReadable · n) || bad dst (s.devWritable · n) then some St.malformed
  else if bad src (s.bankAllows w.prot · n) || bad dst (s.bankAllows w.prot · n) then some St.access
  else if n ≠ 0 ∧ (bad src (s.rangeOn · n) || bad dst (s.rangeOn · n)) then some St.malformed
  else none

/-- Paced length of a copy job in steps (R107). -/
def State.copySteps (s : State) (w : Work) : Nat :=
  let (src, dst, n) := copyRanges w
  let win := fun (a : Option Nat) => match a with
    | some a => s.inWindow a
    | none => false
  if win src || win dst then 64 + ceilDiv n 4 else 16 + ceilDiv n 64

/-- Another copy job of the ring is running: jobs run one at a time, in submission order (R106). -/
def State.copyBusy (s : State) (w : Work) : Bool :=
  s.ring.work.any fun x => x.ring == w.ring && idxBefore x.idx w.idx &&
    (x.opcode == 0x40 || x.opcode == 0x41 || x.opcode == 0x42)

/-- A copy job is decided: refused, done at once at length 0, or started on its paced course (R106, R107).
`t0` is the later of the decision step and the end of the ring's previous job; the command is taken at `t0`. -/
def State.startCopy (s : State) (w : Work) : State :=
  match s.copyRefusal w with
  | some st => s.decide_ w st
  | none =>
    let n := bitsOf (w.word 5) 0 24
    if n = 0 then s.decide_ w St.done (if w.opcode = 0x42 then crc32 [] else 0)
    else if s.copyBusy w then s
    else s.updWork w.ring w.idx fun w => { w with stage := .committed, due := s.clk.edges + s.copySteps w }

def State.copyOp (s : State) (ring idx op : Nat) : State := s.runWork ring idx [op] fun w s => s.startCopy w

def execCopy (t : Elapsed) (ring idx : Nat) (s : State) : Host.Outcome State Fault Refusal :=
  .next ((s.advance t).copyOp ring idx 0x40)

def execFill (t : Elapsed) (ring idx : Nat) (s : State) : Host.Outcome State Fault Refusal :=
  .next ((s.advance t).copyOp ring idx 0x41)

def execCrc (t : Elapsed) (ring idx : Nat) (s : State) : Host.Outcome State Fault Refusal :=
  .next ((s.advance t).copyOp ring idx 0x42)

/-- The bytes a copy job writes and its result word (Table RNG-6). -/
def State.copyData (s : State) (w : Work) : List Byte × Nat :=
  let (src, _, n) := copyRanges w
  match w.opcode with
  | 0x40 => (s.bytes (w.word 3) n, n)
  | 0x41 => ((List.range n).map fun i => BitVec.ofNat 8 (w.word 3 / 256 ^ (i % 4)), n)
  | _ => let d := s.bytes (src.getD 0) n; (d, crc32 d)

/-- A copy job reaches its completion stamp: its data is in place (R107); a poisoned source word ends it
`MEM_ERROR` (R401); a job the memory delayed carries the actual step and breaks condition 2. -/
def State.endCopy (s : State) (w : Work) : State :=
  let (src, dst, n) := copyRanges w
  let poisoned := match src with
    | some a => s.anyPoison (s.phys a) n
    | none => false
  let late := w.due < s.clk.edges
  let s := if late then s.envBreak 0x05 2 Hdr.rng else s
  if poisoned then
    let s := (s.bump R.SRM_ERRS_UNCORR)
    s.decide_ w St.memError
  else
    let (data, res) := s.copyData w
    let s := match dst with
      | some a => (s.setBytes a data).healRange (s.phys a) n
      | none => s
    s.decide_ w St.done res

def State.copyJobEnd (s : State) (ring idx : Nat) : State :=
  match s.findWork ring idx with
  | some w =>
    if w.stage == .committed && (w.opcode == 0x40 || w.opcode == 0x41 || w.opcode == 0x42) &&
        decide (w.due ≤ s.clk.edges) then s.endCopy w
    else s
  | none => s

def execCopyJobEnd (t : Elapsed) (ring idx : Nat) (s : State) : Host.Outcome State Fault Refusal :=
  .next ((s.advance t).copyJobEnd ring idx)

/-! ### Served rings -/

/-- The notice of a served descriptor is sent once the channel from the ring's owner has room (R108). -/
def State.servedNotice (s : State) (ring idx : Nat) : State :=
  match s.findWork ring idx with
  | some w =>
    let server := s.rd (R.RNG_SRV_AGENT ring)
    if w.stage == .served false && decide (s.channelFill server (w.owner % 16) < 4) then
      let s := (s.deliverNotice server (w.owner % 16) w.owner (0xC000 + ring * 256 + idx % 256) w.addr w.prot).1
      s.updWork ring idx fun w => { w with stage := .served true }
    else s
  | none => s

def execServedNotice (t : Elapsed) (ring idx : Nat) (s : State) : Host.Outcome State Fault Refusal :=
  .next ((s.advance t).servedNotice ring idx)

/-- Is the writer the ring's server (R109)? -/
def State.isServer (s : State) (who : Who) (ring : Nat) : Bool :=
  decide (12 ≤ ring) && s.flag (R.RNG_SRV_EN ring) && s.rd (R.RNG_SRV_AGENT ring) == who.stamp

/-- The server writes RNG_RETRESn (R109). -/
def State.serverResult (s : State) (who : Who) (ring v : Nat) : State :=
  s.guarded who (s.isServer who ring) Hdr.rng fun s =>
    { s with ring := { s.ring with retRes := sput (fun _ => 0) s.ring.retRes ring v } }

/-- The server writes RNG_RETn: the served descriptor it names completes (R109). -/
def State.serverReturn (s : State) (who : Who) (ring status idx : Nat) : State :=
  s.guarded who (s.isServer who ring) Hdr.rng fun s =>
    match s.findWork ring idx with
    | some w =>
      if w.stage == .served true then
        s.decideGen w status (sget (fun _ => 0) s.ring.retRes ring) s.gen.active
      else s.put (R.RNG_STAT_RETERR ring) true
    | none => s.put (R.RNG_STAT_RETERR ring) true

def execServerReturn (t : Elapsed) (who : Who) (ring status idx : Nat) (s : State) :
    Host.Outcome State Fault Refusal := .next ((s.advance t).serverReturn who ring status idx)

/-- A notice buffer on ring 8, 9 or 10 waits for a record; its buffer must lie in SRAM or DRAM (R84, R273,
R430). -/
def State.noteBuf (s : State) (ring idx : Nat) : State :=
  s.runWork ring idx [0x30] fun w s =>
    let ok := s.rangeIn (fun
      | .sram _ | .dram => true
      | _ => false) (w.word 3) 32
    if !ok || !s.rangeOn (w.word 3) 32 then s.decide_ w St.malformed
    else s.updWork ring idx fun w => { w with stage := .waiting }

def execNoteBuf (t : Elapsed) (ring idx : Nat) (s : State) : Host.Outcome State Fault Refusal :=
  .next ((s.advance t).noteBuf ring idx)

end Sys2Proof.Machine
end

