-- ==== Sys2Proof/Machine/Tables.lean ====
section
/-!
DEFINITION. The double-buffered tables: channel entries, watch entries, airtime rules, the timetable, the power
table and the edge schedules, as numbers read from their banks (Tables SWP-8, HNT-1, TTB-1, TTB-2, TTB-7, SYN-3,
SYN-4), the calibration records (Table CAP-5), when slots occur (R259), and the ring-0 commands that write and
read tables (R161, R162, R169, R260).
-/

namespace Sys2Proof.Machine

/-! ### Banks and generations (R45-R49) -/

/-- Bits of TABLES that name double-buffered tables (Table UNT-6). -/
def tabChan : Nat := 0
def tabWatch : Nat := 1
def tabRules : Nat := 2
def tabTtb : Nat := 3
def tabSettings : Nat := 4

/-- A changeover is under way: the boundary has passed and the old generation is held. -/
def State.changeover (s : State) : Bool :=
  match s.gen.commit with
  | some c => c.switched
  | none => false

/-- Does the device hold generation `g` (R49)? -/
def State.holdsGen (s : State) (g : Nat) : Bool :=
  g == s.gen.active || (s.changeover && g == s.gen.pending)

/-- The bank of generation `g` of the table named by bit `t` of TABLES: the active bank, or the old one of a
table that the running changeover switched. -/
def State.bank (s : State) (g t : Nat) : Bank :=
  match s.gen.commit with
  | some c => if g != s.gen.active && c.switched && bitOf c.tables t then s.tab.ina else s.tab.act
  | none => s.tab.act

/-- Generation of a bank: ACTIVE, or PENDING for the inactive one. -/
def State.bankGen (s : State) (inactive : Bool) : Nat := if inactive then s.gen.pending else s.gen.active

def State.bankBy (s : State) (inactive : Bool) : Bank := if inactive then s.tab.ina else s.tab.act

/-! ### Channel entries (Table SWP-8) -/

/-- A channel table entry. -/
structure Chan where
  freq : Nat
  valid : Bool
  txen : Bool
  bw : Nat
  extpa : Bool
  turns : Nat
  orders : Nat
  subband : Nat
  maxpwr : Nat
  pasched : Nat
  deriving DecidableEq, Repr

/-- The entry read from its 16 bytes at `a`. -/
def chanAt (m : Store) (a : Nat) : Chan :=
  let w1 := m.num (a + 4) 4
  let w2 := m.num (a + 8) 4
  { freq := m.num a 4, valid := bitOf w1 0, txen := bitOf w1 1, bw := bitsOf w1 2 2, extpa := bitOf w1 4,
    turns := bitsOf w1 8 5, orders := bitsOf w1 16 8, subband := bitsOf w1 24 4, maxpwr := bitsOf w2 0 6,
    pasched := bitsOf w2 6 2 }

/-- Channel entry `i` of generation `g`. -/
def State.chan (s : State) (g i : Nat) : Chan := chanAt (s.bank g tabChan).chan (16 * i)

/-- Bandwidth in Hz of a BW code. -/
def bwHz (bw : Nat) : Nat := 187500 * 2 ^ bw

/-- Window centre in Hz (Table CAP-1). -/
def windowCentre : Nat := if Config.bandA then 915000000 else 869500000

/-- Distance of two numbers. -/
def dist (a b : Nat) : Nat := if a ≤ b then b - a else a - b

/-- The channel can be received: |fc − centre| + 0.7 × BW ≤ 14 MHz (R118). -/
def Chan.receivable (c : Chan) : Bool := decide (10 * dist c.freq windowCentre + 7 * bwHz c.bw ≤ 140000000)

/-- A transmitting entry stays in its band (R161 reason 4). -/
def Chan.inBand (c : Chan) : Bool :=
  let lo := if Config.bandA then 902000000 else 863000000
  let hi := if Config.bandA then 928000000 else 876000000
  decide (2 * lo + bwHz c.bw ≤ 2 * c.freq ∧ 2 * c.freq + bwHz c.bw ≤ 2 * hi)

/-! ### Watch entries (Table HNT-1) -/

/-- A watch entry. -/
structure WatchEntry where
  chan : Nat
  order : Nat
  prio : Nat
  anymark : Bool
  gated : Bool
  valid : Bool
  mark : Nat
  thr : Nat
  deriving DecidableEq, Repr

def watchAt (m : Store) (a : Nat) : WatchEntry :=
  let w := m.num a 4
  { chan := bitsOf w 0 8, order := bitsOf w 8 3 + 6, prio := bitsOf w 11 2, anymark := bitOf w 13,
    gated := bitOf w 14, valid := bitOf w 15, mark := bitsOf w 16 10, thr := bitsOf (m.num (a + 4) 4) 0 8 }

/-- Watch entry `i` of generation `g`. -/
def State.watch (s : State) (g i : Nat) : WatchEntry := watchAt (s.bank g tabWatch).watch (8 * i)

/-- What tells two entries apart for the hunter: frequency, bandwidth and order (R168). -/
def State.watchKey (s : State) (w : WatchEntry) : Nat × Nat × Nat :=
  let c := s.chan s.gen.active w.chan
  (c.freq, c.bw, w.order)

/-- The VALID entries that are active (R168), in ascending index. -/
def State.activeEntries (s : State) : List Nat :=
  ((List.range 512).foldl (fun (p : List Nat × List (Nat × Nat × Nat)) i =>
    let w := s.watch s.gen.active i
    if !w.valid then p
    else
      let c := s.chan s.gen.active w.chan
      let k := s.watchKey w
      if !c.valid then p
      else if c.receivable && !p.2.contains k then (i :: p.1, k :: p.2) else (p.1, k :: p.2)) ([], [])).1.reverse

/-- The VALID entries of the watch list. -/
def State.validEntries (s : State) : Nat :=
  ((List.range 512).filter fun i => (s.watch s.gen.active i).valid).length

/-! ### Timetable (Tables TTB-1, TTB-2) -/

/-- The timetable header. -/
structure TtHeader where
  roundlen : Nat
  valid : Bool
  enforce : Bool
  sleeper : Bool
  dttgen : Nat
  parent : Nat
  pvalid : Bool
  alt : Nat
  avalid : Bool
  bellctx : Nat
  bellpwr : Nat
  mark : Nat
  headlong : Nat
  widenms : Nat
  wakelead : Nat
  deriving DecidableEq, Repr

def headerAt32 (m : Store) (a : Nat) : TtHeader :=
  let w0 := m.num a 4
  let w2 := m.num (a + 8) 4
  let w3 := m.num (a + 12) 4
  let w6 := m.num (a + 24) 4
  { roundlen := bitsOf w0 0 17, valid := bitOf w0 24, enforce := bitOf w0 25, sleeper := bitOf w0 26,
    dttgen := m.num (a + 4) 2, parent := bitsOf w2 0 10, pvalid := bitOf w2 15, alt := bitsOf w2 16 10,
    avalid := bitOf w2 31, bellctx := bitsOf w3 0 4, bellpwr := bitsOf w3 8 6, mark := bitsOf w3 16 10,
    headlong := m.num (a + 16) 8, widenms := bitsOf w6 0 16, wakelead := bitsOf w6 16 16 }

/-- The timetable header of generation `g`. -/
def State.ttHeader (s : State) (g : Nat) : TtHeader := headerAt32 (s.bank g tabTtb).ttb 0

/-- The header in force. -/
def State.header (s : State) : TtHeader := s.ttHeader s.gen.active

/-- A slot entry; `kind`: 0 BELL, 1 SHARED, 2 DEDICATED, 3 QUIET. -/
structure Slot where
  cyc : Nat
  step : Nat
  len : Nat
  kind : Nat
  valid : Bool
  relay : Bool
  wake : Bool
  txdir : Bool
  evt : Bool
  period : Nat
  ctx : Nat
  chbase : Nat
  orders : Nat
  mask : Nat
  deriving DecidableEq, Repr

def slotAt (m : Store) (a : Nat) : Slot :=
  let w1 := m.num (a + 4) 4
  let w2 := m.num (a + 8) 4
  let w3 := m.num (a + 12) 4
  { cyc := m.num a 2, step := m.num (a + 2) 2, len := bitsOf w1 0 24, kind := bitsOf w1 24 2, valid := bitOf w1 26,
    relay := bitOf w1 27, wake := bitOf w1 28, txdir := bitOf w1 29, evt := bitOf w1 30, period := bitsOf w2 0 16,
    ctx := bitsOf w2 16 10, chbase := bitsOf w3 0 8, orders := bitsOf w3 8 8, mask := m.num (a + 16) 8 }

/-- Slot entry `i` of the timetable in force. -/
def State.slot (s : State) (i : Nat) : Slot := slotAt (s.bank s.gen.active tabTtb).ttb (32 + 32 * i)

/-- Does the slot's MASK name channel entry `c` (Table TTB-2)? -/
def Slot.opens (t : Slot) (c : Nat) : Bool := decide (t.chbase ≤ c ∧ c < t.chbase + 64) && bitOf t.mask (c - t.chbase)

/-- Does the slot permit `order`? -/
def Slot.permits (t : Slot) (order : Nat) : Bool := decide (6 ≤ order) && bitOf t.orders (order - 6)

/-- The lowest channel entry MASK names. -/
def Slot.firstChan (t : Slot) : Option Nat := ((List.range 64).map (t.chbase + ·)).find? fun c => decide (c < 256) && t.opens c

/-- The lowest order in ORDERS. -/
def Slot.firstOrder (t : Slot) : Option Nat := ((List.range 8).map (6 + ·)).find? fun k => t.permits k

/-! ### Occurrences (R259) -/

/-- Offset within its round of the slot's last occurrence at or before offset `r`. -/
def Slot.offsetAt (t : Slot) (r : Nat) : Option Nat :=
  if r < t.cyc then none
  else if t.period = 0 then some t.cyc
  else some (t.cyc + (r - t.cyc) / t.period * t.period)

/-- Cycle of the slot's last occurrence in or before cycle `c`, rounds being `len` cycles long. -/
def Slot.cycleAtOrBefore (t : Slot) (len c : Nat) : Option Nat :=
  if len ≤ t.cyc then none
  else match t.offsetAt (c % len) with
  | some o => some (c - c % len + o)
  | none =>
    if c < len then none
    else (t.offsetAt (len - 1)).map fun o => c - c % len - len + o

/-- Cycle of the slot's first occurrence in or after cycle `c`. -/
def Slot.cycleAtOrAfter (t : Slot) (len c : Nat) : Option Nat :=
  if len ≤ t.cyc then none
  else
    let r := c % len
    let base := c - r
    let n := if t.period = 0 then 0 else ceilDiv (r - t.cyc) t.period
    let o := t.cyc + n * t.period
    some (if r ≤ t.cyc then base + t.cyc
          else if t.period ≠ 0 ∧ o < len then base + o
          else base + len + t.cyc)

/-- Start of the slot's last occurrence at or before the stamp `x`. -/
def Slot.lastStart (t : Slot) (len x : Nat) : Option Nat :=
  if stampStep x < t.step ∧ stampCycle x = 0 then none
  else
    let c := if t.step ≤ stampStep x then stampCycle x else stampCycle x - 1
    (t.cycleAtOrBefore len c).map fun c => 65536 * c + t.step

/-- Start of the slot's first occurrence at or after the stamp `x`. -/
def Slot.nextStart (t : Slot) (len x : Nat) : Option Nat :=
  let c := if stampStep x ≤ t.step then stampCycle x else stampCycle x + 1
  (t.cycleAtOrAfter len c).map fun c => 65536 * c + t.step

/-- Does the slot occur at start stamp `x`? -/
def Slot.occursAt (t : Slot) (len x : Nat) : Bool := t.valid && t.lastStart len x == some x

/-- The VALID slots of the timetable in force, with their numbers; none without a VALID header (R257). -/
def State.slots (s : State) : List (Nat × Slot) :=
  if s.header.valid then ((List.range 256).map fun i => (i, s.slot i)).filter (·.2.valid) else []

/-- The first slot boundary at or after the aligned stamp `x`: the start of an occurrence of a VALID slot, or of
a cycle where no slot ever occurs (R46). -/
def State.slotBoundary (s : State) (x : Nat) : Nat :=
  let starts := s.slots.filterMap fun p => p.2.nextStart s.header.roundlen x
  match starts with
  | [] => 65536 * ceilDiv x 65536
  | a :: l => l.foldl min a

/-! ### Airtime rules (Table TTB-7) -/

/-- An airtime rule. -/
structure Rule where
  limit : Nat
  ackshare : Nat
  valid : Bool
  bucket : Nat
  dwell : Nat
  dwellwin : Nat
  deriving DecidableEq, Repr

def ruleAt (m : Store) (a : Nat) : Rule :=
  let w0 := m.num a 4
  { limit := bitsOf w0 0 10, ackshare := bitsOf w0 16 10, valid := bitOf w0 31, bucket := m.num (a + 4) 2,
    dwell := m.num (a + 8) 4, dwellwin := m.num (a + 12) 2 }

/-- Rule `i` in force. -/
def State.rule (s : State) (i : Nat) : Rule := ruleAt (s.bank s.gen.active tabRules).rules (16 * i)

/-! ### Power table and edge schedules (Tables SYN-3, SYN-4) -/

/-- LEVEL of power entry `i` of generation `g`; values above 60 act as 60. -/
def State.powerLevel (s : State) (g i : Nat) : Nat := min (bitsOf ((s.bank g tabSettings).power.num (4 * i) 4) 0 7) 60

/-- ON and OFF in µs of pin `p` of schedule `k`: 0 PAEN, 1 PABYP, 2 LNAEN, 3 TRSW; values above 160 act as 160. -/
def schedPin (m : Store) (k p : Nat) : Nat × Nat :=
  let w := m.num (32 * k + 4 * p) 4
  (min (bitsOf w 0 8) 160, min (bitsOf w 8 8) 160)

/-- RAMP of schedule `k` in µs, 2-20. -/
def schedRamp (m : Store) (k : Nat) : Nat := clamp 2 20 (bitsOf (m.num (32 * k + 16) 4) 0 5)

/-- The schedules of generation `g`. -/
def State.schedules (s : State) (g : Nat) : Store := (s.bank g tabSettings).sched

/-- Both banks as they are before the settings store is read (R216, R219). -/
def defaultBank : Bank :=
  { power := (List.range 64).foldl (fun m i => m.setNum (4 * i) 4 (min i 60)) []
    sched := (List.range 4).foldl (fun m k =>
      (((((m.setNum (32 * k) 4 0x10A0A).setNum (32 * k + 4) 4 0x10A0A).setNum (32 * k + 8) 4 0x11414).setNum
        (32 * k + 12) 4 0x10F0F).setNum (32 * k + 16) 4 8)) [] }

/-! ### Calibration records (Table CAP-5) -/

def State.calRec (s : State) (i : Nat) : Nat := sget (fun _ => 0) s.tab.cal i

def State.setCalRec (s : State) (i v : Nat) : State :=
  { s with tab := { s.tab with cal := sput (fun _ => 0) s.tab.cal i v } }

/-- The synthesiser part of record `i` is VALID. -/
def State.calValid (s : State) (i : Nat) : Bool := bitOf (s.calRec i) 63

/-- Sets or clears VALID (bit 63) or RXVALID (bit 62). -/
def State.setCalBit (s : State) (i bit : Nat) (b : Bool) : State := s.setCalRec i (setBitsOf (s.calRec i) bit 1 (b2n b))

/-- Die temperature in °C. -/
def State.dieTemp (s : State) : Int := (s.cap.temp : Int) - 128

/-- The record is temperature-stale (R214). -/
def State.calStale (s : State) (i : Nat) : Bool :=
  decide (clamp 5 60 (s.rd R.SYN_CALCTL_RECALT) ≤ (s.dieTemp - signed 8 (bitsOf (s.calRec i) 54 8)).natAbs)

/-- Place of a pending slice: calibrations that joined by R215 or R227, then the items of Table SYN-2 in its order,
entries in ascending index. -/
def SynSlice.rank (p : SynSlice) : Nat :=
  256 * (if p.items = 0 then 0 else if bitOf p.items 0 then 1 else if bitOf p.items 1 then 2
         else if bitOf p.items 2 then 3 else 4) + p.entry

/-- Puts a slice into the pending set in its order. -/
def insertSlice (p : SynSlice) : List SynSlice → List SynSlice
  | [] => [p]
  | q :: l => if p.rank < q.rank then p :: q :: l else q :: insertSlice p l

/-- A slice of `items` joins the pending set of SYN; one that is pending for the same work serves both (R212,
R215). The set exists while TXA is on (R212). -/
def State.joinSlice (s : State) (items kind entry : Nat) (next : Bool) : State :=
  if !s.domOn Dom.txa then s
  else if s.tx.pend.any (fun p => p.kind == kind && p.entry == entry && p.next == next) then
    { s with tx := { s.tx with pend := s.tx.pend.map fun p =>
        if p.kind == kind && p.entry == entry && p.next == next then { p with items := p.items ||| items } else p } }
  else { s with tx := { s.tx with
      pend := insertSlice { items := items, kind := kind, entry := entry, next := next, since := s.clk.edges }
        s.tx.pend } }

/-- A full calibration of an entry joins as a non-forced slice (R215, R227). -/
def State.joinCal (s : State) (entry : Nat) (next : Bool) : State := s.joinSlice 0 0 entry next

/-! ### Writing and reading tables -/

/-- The result word of a failed table command: index and reason. -/
def tableFault (w : Work) (s : State) (shift index reason : Nat) : State :=
  s.decide_ w St.malformed (index % 2 ^ shift + reason * 2 ^ shift)

/-- The first of `count` records from `first` for which `check` answers a reason. -/
def firstBad (check : Nat → Nat) (first count : Nat) : Option (Nat × Nat) :=
  (List.range count).findSome? fun k => if check k = 0 then none else some (first + k, check k)

/-- The common course of a table write: a cohort follower (R429), bank held, bounds, source, entry checks, then `k` with the source bytes
(R45, R161, R169, R260). Records are `size` bytes; the index takes `shift` bits of a failure's result word. -/
def State.tableWrite (s : State) (w : Work) (size limit align shift first count : Nat) (badSel : Bool)
    (check : Store → Nat → Nat) (k : List Byte → State → State) : State :=
  let addr := w.word 4
  if s.cohortFollows then s.decide_ w St.access
  else if s.gen.pending != s.gen.active then s.decide_ w St.bankHeld
  else if badSel || count == 0 || decide (limit < first + count) then tableFault w s shift first 1
  else if addr % align ≠ 0 ∨ !s.devReadable addr (size * count) then tableFault w s shift first 2
  else match s.bufferRefusal w.prot true addr (size * count) with
  | some st => s.decide_ w st
  | none =>
    let bs := s.bytes addr (size * count)
    let src : Store := Store.setBytes [] 0 bs
    match firstBad (check src) first count with
    | some (i, r) => tableFault w s shift i r
    | none => (k bs s).decide_ w St.done count

/-- The common course of a table read (R162, R169, R260). -/
def State.tableRead (s : State) (w : Work) (size limit align shift first count : Nat) (badSel inactive : Bool)
    (data : List Byte) : State :=
  let addr := w.word 4
  if badSel || count == 0 || decide (limit < first + count) then tableFault w s shift first 1
  else if addr % align ≠ 0 ∨ !s.devWritable addr (size * count) then tableFault w s shift first 2
  else match s.bufferRefusal w.prot true addr (size * count) with
  | some st => s.decide_ w st
  | none => ((s.setBytes addr data).healRange (s.phys addr) (size * count)).decideGen w St.done count
      (s.bankGen inactive)

/-- Reason a channel entry is refused (R161). -/
def chanReason (c : Chan) : Nat :=
  if !c.valid then 0
  else if c.turns < 4 ∨ 16 < c.turns ∨ c.orders = 0 then 3
  else if c.txen && !c.inBand then 4
  else 0

/-- Does a write make the entry VALID or change its FREQ, BW or EXTPA (R215)? -/
def chanChanged (old new : Chan) : Bool :=
  new.valid && (!old.valid || old.freq != new.freq || old.bw != new.bw || old.extpa != new.extpa)

/-- CHAN_WRITE (R161, R215). -/
def State.chanWrite (s : State) (w : Work) : State :=
  let first := bitsOf (w.word 3) 0 8
  let count := bitsOf (w.word 3) 8 9
  s.tableWrite w 16 256 16 8 first count false (fun m k => chanReason (chanAt m (16 * k))) fun bs s =>
    let old := s.tab.ina.chan
    let s := { s with tab := { s.tab with ina := { s.tab.ina with chan := old.setBytes (16 * first) bs } } }
    ((List.range count).map (first + ·)).foldl (fun s i =>
      if chanChanged (chanAt old (16 * i)) (chanAt s.tab.ina.chan (16 * i)) then
        let s := { s with tab := { s.tab with
            calNext := s.tab.calNext.filter (·.1 != i)
            changed := if s.tab.changed.contains i then s.tab.changed else s.tab.changed ++ [i] } }
        s.joinCal i true
      else s) s

def execChanWrite (t : Elapsed) (idx : Nat) (s : State) : Host.Outcome State Fault Refusal :=
  .next ((s.advance t).runWork 0 idx [0x10] fun w s => s.chanWrite w)

/-- CHAN_READ (R162). -/
def State.chanRead (s : State) (w : Work) : State :=
  let first := bitsOf (w.word 3) 0 8
  let count := bitsOf (w.word 3) 8 9
  let ina := bitOf (w.word 3) 24
  s.tableRead w 16 256 16 8 first count false ina ((s.bankBy ina).chan.bytes (16 * first) (16 * count))

def execChanRead (t : Elapsed) (idx : Nat) (s : State) : Host.Outcome State Fault Refusal :=
  .next ((s.advance t).runWork 0 idx [0x11] fun w s => s.chanRead w)

/-- WATCH_WRITE (R169). -/
def State.watchWrite (s : State) (w : Work) : State :=
  let first := bitsOf (w.word 3) 0 9
  let count := bitsOf (w.word 3) 16 10
  let check := fun (m : Store) (k : Nat) =>
    let e := watchAt m (8 * k)
    if e.valid && e.thr != 0 && decide (e.thr < 24 ∨ 160 < e.thr) then 3 else 0
  s.tableWrite w 8 512 8 9 first count false check fun bs s =>
    { s with tab := { s.tab with ina := { s.tab.ina with watch := s.tab.ina.watch.setBytes (8 * first) bs } } }

def execWatchWrite (t : Elapsed) (idx : Nat) (s : State) : Host.Outcome State Fault Refusal :=
  .next ((s.advance t).runWork 0 idx [0x12] fun w s => s.watchWrite w)

/-- WATCH_READ (R169). -/
def State.watchRead (s : State) (w : Work) : State :=
  let first := bitsOf (w.word 3) 0 9
  let count := bitsOf (w.word 3) 16 10
  let ina := bitOf (w.word 3) 28
  s.tableRead w 8 512 8 9 first count false ina ((s.bankBy ina).watch.bytes (8 * first) (8 * count))

def execWatchRead (t : Elapsed) (idx : Nat) (s : State) : Host.Outcome State Fault Refusal :=
  .next ((s.advance t).runWork 0 idx [0x13] fun w s => s.watchRead w)

/-- Size, number and place of the records SEL names: header, slots, rules (R260). -/
def ttSel (sel : Nat) : Nat × Nat × Nat :=
  match sel with
  | 0 => (32, 1, 0)
  | 1 => (32, 256, 32)
  | _ => (16, 16, 0)

/-- The check of a timetable record (R260). -/
def ttReason (sel : Nat) (m : Store) (k : Nat) : Nat :=
  match sel with
  | 0 => let h := headerAt32 m 0
         if h.valid && decide (h.roundlen = 0 ∨ 65536 < h.roundlen) then 4 else 0
  | 1 => let t := slotAt m (32 * k)
         if t.valid && decide (t.orders = 0 ∨ t.mask = 0) then 3 else 0
  | _ => let r := ruleAt m (16 * k)
         if r.valid && decide (1000 < r.limit ∨ 1000 < r.ackshare ∨ r.bucket = 0) then 5 else 0

/-- SEL 3, and a header with FIRST not 0 or COUNT not 1 (R260 reason 1). -/
def ttBadSel (sel first count : Nat) : Bool := sel == 3 || (sel == 0 && (first != 0 || count != 1))

/-- TTB_WRITE (R260). -/
def State.ttbWrite (s : State) (w : Work) : State :=
  let sel := bitsOf (w.word 3) 0 2
  let first := bitsOf (w.word 3) 8 8
  let count := bitsOf (w.word 3) 16 9
  let (size, limit, off) := ttSel sel
  s.tableWrite w size limit 16 8 first count (ttBadSel sel first count) (ttReason sel) fun bs s =>
    if sel = 2 then
      { s with tab := { s.tab with ina := { s.tab.ina with rules := s.tab.ina.rules.setBytes (16 * first) bs } } }
    else
      { s with tab := { s.tab with ina := { s.tab.ina with ttb := s.tab.ina.ttb.setBytes (off + 32 * first) bs } } }

def execTtbWrite (t : Elapsed) (idx : Nat) (s : State) : Host.Outcome State Fault Refusal :=
  .next ((s.advance t).runWork 0 idx [0x15] fun w s => s.ttbWrite w)

/-- TTB_READ (R260). -/
def State.ttbRead (s : State) (w : Work) : State :=
  let sel := bitsOf (w.word 3) 0 2
  let first := bitsOf (w.word 3) 8 8
  let count := bitsOf (w.word 3) 16 9
  let ina := bitOf (w.word 3) 28
  let (size, limit, off) := ttSel sel
  let b := s.bankBy ina
  let data := if sel = 2 then b.rules.bytes (16 * first) (16 * count) else b.ttb.bytes (off + 32 * first) (32 * count)
  s.tableRead w size limit 16 8 first count (ttBadSel sel first count) ina data

def execTtbRead (t : Elapsed) (idx : Nat) (s : State) : Host.Outcome State Fault Refusal :=
  .next ((s.advance t).runWork 0 idx [0x16] fun w s => s.ttbRead w)

end Sys2Proof.Machine
end

