-- ==== Sys2Proof/Machine/Airtime.lean ====
section
/-!
DEFINITION. What the timetable and the airtime ledger allow: QUIET and permitting occurrences met by a window
(R259-R263), conversion between aligned stamps and tempo-clock edges, and the ledger of R274-R277.
-/

namespace Sys2Proof.Machine

/-! ### Aligned stamps and edges -/

/-- A difference of stamps as a signed number (R60). -/
def stampDiff (a b : Nat) : Int := signed 56 (a + stampMod - b % stampMod)

/-- The edge at which aligned tempo reaches the stamp `x`, if nothing moves it. -/
def State.edgeOf (s : State) (x : Nat) : Nat :=
  let d := 16 * stampDiff x s.alignedStamp - s.align16 % 16
  ((s.clk.edges : Int) + (d + 15) / 16).toNat

/-- Aligned stamp of the edge `e`, if nothing moves tempo. -/
def State.stampOfEdge (s : State) (e : Nat) : Nat := stampOf16 (16 * (e : Int) + s.tmp.alignBase16)

/-- A duration given in thirds of a nanosecond as steps, rounded up (R222). -/
def State.stepsOf3 (s : State) (n3 : Nat) : Nat :=
  ceilDiv (n3 * 65536 * s.rd R.TMP_RATE_RATE) (3 * 2 ^ 24 * 1000000000)

/-! ### Occurrences met by a window (R262, R263) -/

/-- Occurrences run: a VALID header, tempo VALID and ALIGNED (R257, R259). -/
def State.occurrencesRun (s : State) : Bool := s.header.valid && s.tempoUsable

/-- Start of the last occurrence of a slot before the stamp `b`, leaving out those a jump moved over (R79). -/
def State.startBefore (s : State) (t : Slot) (b : Nat) : Option Nat :=
  if b = 0 then none
  else match t.lastStart s.header.roundlen (b - 1) with
  | some x => if s.ttb.skipTo ≤ x then some x else none
  | none => none

/-- End of the latest QUIET occurrence that the window of stamps `[a, b)` meets (R262). -/
def State.quietEnd (s : State) (a b : Nat) : Option Nat :=
  if !s.occurrencesRun then none
  else (s.slots.filterMap fun p =>
      if p.2.kind = 3 then
        match s.startBefore p.2 b with
        | some x => if a < x + p.2.len then some (x + p.2.len) else none
        | none => none
      else none).foldl (fun r e => match r with
        | some m => some (max m e)
        | none => some e) none

/-- Does a slot permit a frame on channel entry `c` at `order` to partner `ctx` (Table TTB-3)? -/
def Slot.permitsFrame (t : Slot) (c order ctx : Nat) : Bool :=
  t.opens c && t.permits order && (t.kind == 1 || (t.kind == 2 && t.txdir && t.ctx == ctx))

/-- A blanked sample falls into the occurrences in progress (R127). -/
def State.markBlank (s : State) : State :=
  { s with ttb := { s.ttb with occ := s.ttb.occ.map fun o => { o with blanked := true } } }

/-- ENFORCE is in force (R263). -/
def State.enforced (s : State) : Bool := s.header.enforce && s.occurrencesRun

/-- The window `[a, b)` lies within one permitting occurrence. -/
def State.insidePermit (s : State) (c order ctx a b : Nat) : Bool :=
  s.slots.any fun p => p.2.permitsFrame c order ctx && match s.startBefore p.2 (a + 1) with
    | some x => decide (b ≤ x + p.2.len)
    | none => false

/-- Start of the next permitting occurrence at or after `a` that is long enough for `n` steps. -/
def State.nextPermit (s : State) (c order ctx a n : Nat) : Option Nat :=
  (s.slots.filterMap fun p =>
      if p.2.permitsFrame c order ctx && decide (n ≤ p.2.len) then p.2.nextStart s.header.roundlen a else none).foldl
    (fun r e => match r with
      | some m => some (min m e)
      | none => some e) none

/-- No permitting occurrence can hold `n` steps, or none begins within ROUNDLEN cycles of the stamp (R263). -/
def State.noPermit (s : State) (c order ctx stamp n : Nat) : Bool :=
  match s.nextPermit c order ctx stamp n with
  | some x => decide (65536 * s.header.roundlen < x - stamp)
  | none => true

/-! ### The ledger (R274-R277) -/

def State.ruleUse (s : State) (i : Nat) : RuleUse := sget (fun _ => ({} : RuleUse)) s.ttb.rules i

def State.setRuleUse (s : State) (i : Nat) (u : RuleUse) : State :=
  { s with ttb := { s.ttb with rules := sput (fun _ => ({} : RuleUse)) s.ttb.rules i u } }

def State.dwellUse (s : State) (entry : Nat) : Nat := sget (fun _ => 0) s.ttb.dwell entry

/-- Frame usage Uf and acknowledgement usage Ua: the current bucket and the 59 before it (R276). -/
def RuleUse.frames (u : RuleUse) : Nat := ((u.buckets.take 60).map (·.1)).sum
def RuleUse.acks (u : RuleUse) : Nat := ((u.buckets.take 60).map (·.2)).sum

/-- Ledger units per cycle: 30,000 at 50 Hz, 25,000 at 60 Hz (R276). -/
def State.cycleUnits (s : State) : Nat := if s.flag R.TMP_CFG_NOM60 then 25000 else 30000

/-- Allowance A, acknowledgement portion K and frame portion F of a rule (R276). -/
def State.allowance (s : State) (r : Rule) : Nat := 60 * r.bucket * s.cycleUnits * r.limit / 1000
def State.ackPortion (s : State) (r : Rule) : Nat := s.allowance r * r.ackshare / 1000
def State.framePortion (s : State) (r : Rule) : Nat := s.allowance r - s.ackPortion r

/-- The armed last gasp's charge reserved in rule `i` (R276). -/
def State.gaspReserve (s : State) (i : Nat) : Nat :=
  match s.ttb.gasp with
  | some g => if (s.chan s.gen.active g.entry).subband = i then g.charge else 0
  | none => 0

/-- Its charge reserved in the dwell of a channel entry (R276). -/
def State.gaspDwell (s : State) (entry : Nat) : Nat :=
  match s.ttb.gasp with
  | some g => if g.entry = entry then g.charge else 0
  | none => 0

/-- May a frame or bell, or an acknowledgement, of `units` go on channel entry `entry` (R277)? `sub` is the
rule its entry names. -/
def State.ledgerAllows (s : State) (sub entry units : Nat) (ack : Bool) : Bool :=
  let r := s.rule sub
  let u := s.ruleUse sub
  let duty := if ack then decide (u.acks + units ≤ s.ackPortion r)
    else decide (u.frames + units + s.gaspReserve sub ≤ s.framePortion r)
  let dwell := r.dwell == 0 || decide (s.dwellUse entry + units + s.gaspDwell entry ≤ r.dwell)
  !r.valid || (duty && dwell)

/-- Charges the current bucket and the entry's dwell usage (R277). -/
def State.ledgerCharge (s : State) (sub entry units : Nat) (ack : Bool) : State :=
  let u := s.ruleUse sub
  let (f, a) := u.buckets.headD (0, 0)
  let cur := if ack then (f, a + units) else (f + units, a)
  let s := s.setRuleUse sub { u with buckets := cur :: u.buckets.drop 1 }
  { s with ttb := { s.ttb with dwell := sput (fun _ => 0) s.ttb.dwell entry (s.dwellUse entry + units) } }

/-- A rule's bucket clock advances by one bucket: a new bucket opens and the oldest leaves the window (R276). -/
def State.bucketRoll (s : State) (i : Nat) : State :=
  let len := 65536 * (s.rule i).bucket
  let u := s.ruleUse i
  if len ≠ 0 ∧ u.since + len ≤ s.clk.edges then
    s.setRuleUse i { u with buckets := (0, 0) :: (if u.buckets.isEmpty then [(0, 0)] else u.buckets).take 59
                            since := u.since + len }
  else s

def execBucketRoll (t : Elapsed) (rule : Nat) (s : State) : Host.Outcome State Fault Refusal :=
  .next ((s.advance t).bucketRoll rule)

/-- A rule's dwell window ends: the dwell usage of its channel entries is cleared (R276). -/
def State.dwellClear (s : State) (i : Nat) : State :=
  let len := 65536 * (s.rule i).dwellwin
  let u := s.ruleUse i
  if len ≠ 0 ∧ u.dwellAt + len ≤ s.clk.edges then
    let s := s.setRuleUse i { u with dwellAt := u.dwellAt + len }
    { s with ttb := { s.ttb with
        dwell := sdrop (fun e => (s.chan s.gen.active e).subband == i) s.ttb.dwell } }
  else s

def execDwellWindowClear (t : Elapsed) (rule : Nat) (s : State) : Host.Outcome State Fault Refusal :=
  .next ((s.advance t).dwellClear rule)

/-- At a boundary that changes a rule's BUCKET its clock restarts with empty buckets (R276). -/
def State.rulesSwitched (s : State) (old : Nat → Rule) : State :=
  (List.range 16).foldl (fun s i =>
    if (s.rule i).bucket = (old i).bucket then s
    else s.setRuleUse i { s.ruleUse i with buckets := [], since := s.clk.edges }) s

/-- The ledger starts empty at start-up (R277). -/
def State.ledgerStart (s : State) : State :=
  let s := { s with ttb := { s.ttb with rules := [], dwell := [] } }
  (List.range 16).foldl (fun s i => s.setRuleUse i { since := s.clk.edges, dwellAt := s.clk.edges }) s

end Sys2Proof.Machine
end

