-- ==== Sys2Proof/Machine/Cipher.lean ====
section
/-!
DEFINITION. The cipher engines, the key slots and the jobs of ring 5: the chapter "Cipher engine and key slots",
R284-R303.
-/

namespace Sys2Proof.Machine

/-! ### Key slots -/

def State.keySlot (s : State) (n : Nat) : Option KeySlot := (s.cip.slots.find? (·.1 == n)).map (·.2)

/-- Puts a key into a slot, or empties it; the list stays in ascending slot order. -/
def State.setKeySlot (s : State) (n : Nat) (k : Option KeySlot) : State :=
  let rest := s.cip.slots.filter (·.1 != n)
  { s with cip := { s.cip with slots := match k with
      | some k => (rest.filter fun p => decide (p.1 < n)) ++ (n, k) :: rest.filter fun p => decide (n < p.1)
      | none => rest } }

/-- The first three bytes of AES(key, 0), byte 0 in [23:16] (R290). -/
def keyCheck (k : KeySlot) : Nat := beNum ((aesBlock k.key (zeros 16)).take 3)

/-- The slot's key for the link engine: AES-128 with the LINK use (R289). -/
def State.linkKey (s : State) (n : Nat) : Option (List Byte) :=
  match s.keySlot n with
  | some k => if bitOf k.uses 0 && k.key.length == 16 then some k.key else none
  | none => none

/-- CIP_KEYINFO of the selected slot. -/
def State.keyInfo (s : State) : Nat :=
  match s.keySlot (s.rd R.CIP_KEYSEL_SLOT) with
  | some k => 2 ^ 31 + b2n (k.key.length == 32) * 2 ^ 30 + k.uses % 32 * 2 ^ 24 + keyCheck k
  | none => 0

/-- The eight data registers go to zero (R287). -/
def State.clearKeyData (s : State) : State :=
  (List.range 8).foldl (fun s k => s.wr (R.CIP_KEYDATA_DATA k) 0) s

/-- Only the CIP page's owner in protected mode writes the key registers (R287). -/
def State.keyWrite (s : State) (who : Who) (f : State → State) : State :=
  s.guarded who (s.owns who Hdr.cip && who.prot) Hdr.cip fun s => (f s).clearKeyData

def State.keyRefused (s : State) (cause : Nat) : State :=
  ((s.wr R.CIP_KEYSTAT_CAUSE cause).bump R.CIP_KEYSTAT_REFUSED).put R.CIP_KEYSTAT_OK false

/-- LOAD into an empty slot, or refusal with cause 1 (R287). -/
def State.keyLoad (s : State) : State :=
  let n := s.rd R.CIP_KEYSEL_SLOT
  if (s.keySlot n).isSome then s.keyRefused 1
  else
    let bytes := (List.range 8).flatMap fun k => leBytes 4 (s.rd (R.CIP_KEYDATA_DATA k))
    let key := if s.flag R.CIP_KEYSEL_SIZE then bytes else bytes.take 16
    (s.setKeySlot n (some { uses := s.rd R.CIP_KEYSEL_USES, key := key })).put R.CIP_KEYSTAT_OK true

/-- A VALID live context or old image names the slot (R288). -/
def State.slotInContext (s : State) (n : Nat) : Bool :=
  ((List.range 528).any fun k => s.ctxValid k && s.ctxNum k 10 2 % 1024 == n) ||
  s.ctx.old.any fun p => bitOf (imgNum p.2 12 2) 0 && imgNum p.2 10 2 % 1024 == n

/-- An outstanding commit lists or names the slot (R288). -/
def State.slotInCommit (s : State) (n : Nat) : Bool :=
  match s.gen.commit with
  | some c => c.releases.contains n ||
      c.rewrites.any fun r => !r.2.1 && bitOf (imgNum r.2.2 12 2) 0 && imgNum r.2.2 10 2 % 1024 == n
  | none => false

def State.jctx (s : State) (k : Nat) : JobCtx := sget (fun _ => ({} : JobCtx)) s.cip.jctx k

def State.setJctx (s : State) (k : Nat) (c : JobCtx) : State :=
  { s with cip := { s.cip with jctx := sput (fun _ => ({} : JobCtx)) s.cip.jctx k c } }

/-- The job context a ring-5 descriptor names. -/
def Work.jctx (w : Work) : Nat := if w.opcode = 0x60 then bitsOf (w.word 3) 16 6 else bitsOf (w.word 3) 0 6

/-- Does the descriptor work on a job context? -/
def Work.usesJctx (w : Work) : Bool := w.opcode == 0x60 || w.opcode == 0x61 || w.opcode == 0x62

/-- The slot a fetched ring-5 descriptor names. -/
def State.workSlot (s : State) (w : Work) : Option Nat :=
  if w.opcode = 0x60 then
    some (if bitOf (w.word 3) 4 then bitsOf (w.word 3) 22 10 else (s.jctx w.jctx).slot)
  else if w.opcode = 0x63 ∨ w.opcode = 0x64 then some (bitsOf (w.word 3) 0 10)
  else none

/-- ERASE, or its refusal (R288). -/
def State.keyErase (s : State) : State :=
  let n := s.rd R.CIP_KEYSEL_SLOT
  if s.slotInContext n then s.keyRefused 2
  else if s.slotInCommit n then s.keyRefused 3
  else if s.ring.work.any fun w => w.ring == 5 && s.workSlot w == some n then s.keyRefused 4
  else (s.setKeySlot n none).put R.CIP_KEYSTAT_OK true

/-- A write of CIP_KEYCMD: 1 LOAD, 2 ERASE, 0 and 3 only clear the data registers. -/
def State.keyCommand (s : State) (who : Who) (v : Nat) : State :=
  s.keyWrite who fun s => match v % 4 with
    | 1 => s.keyLoad
    | 2 => s.keyErase
    | _ => s

def execKeyLoad (t : Elapsed) (who : Who) (s : State) : Host.Outcome State Fault Refusal :=
  .next ((s.advance t).keyCommand who 1)

def execKeyErase (t : Elapsed) (who : Who) (s : State) : Host.Outcome State Fault Refusal :=
  .next ((s.advance t).keyCommand who 2)

def execKeyDataClear (t : Elapsed) (who : Who) (s : State) : Host.Outcome State Fault Refusal :=
  .next ((s.advance t).keyCommand who 0)

/-! ### The cost model -/

/-- Cost in nanoseconds of `n` block operations (R295). -/
def cipherNs (n : Nat) (aes256 : Bool) : Nat := 1600 + n * (if aes256 then 448 else 320)

def State.engineFree (s : State) (e : Nat) : Nat := if e = 0 then s.cip.free0 else s.cip.free1

def State.setEngineFree (s : State) (e t : Nat) : State :=
  { s with cip := if e = 0 then { s.cip with free0 := t } else { s.cip with free1 := t } }

/-- The in-service logical engine with the earliest model free time, ties to the lower (R296). -/
def State.chooseEngine (s : State) : Option Nat :=
  match s.flag (R.CIP_MAP_INSERVICE 0), s.flag (R.CIP_MAP_INSERVICE 1) with
  | true, true => some (if s.cip.free1 < s.cip.free0 then 1 else 0)
  | true, false => some 0
  | false, true => some 1
  | false, false => none

/-- A logical engine is in service. -/
def State.cipherServes (s : State) : Bool := s.flag (R.CIP_MAP_INSERVICE 0) || s.flag (R.CIP_MAP_INSERVICE 1)

/-- A link-engine operation runs on engine 0, or on 1 while 0 is out of service, and extends the model end of
the ring-5 operations on it (R296). -/
def State.linkCipher (s : State) (blocks : Nat) : State :=
  if !s.cipherServes then s
  else
    let e := if s.flag (R.CIP_MAP_INSERVICE 0) then 0 else 1
    let c := s.stepsOf (cipherNs blocks false)
    let s := { s with ring := { s.ring with work := s.ring.work.map fun (w : Work) =>
      if w.ring == 5 && w.stage == Stage.started && w.a == e then { w with due := w.due + c } else w } }
    (s.setEngineFree e (max (s.engineFree e) s.clk.edges + c)).count (100 + e)

/-- The latest model end of earlier operations on the same job context (R294). -/
def State.ctxBusyUntil (s : State) (w : Work) : Nat :=
  (s.ring.work.filter fun x => x.ring == 5 && x.usesJctx && x.jctx == w.jctx && idxBefore x.idx w.idx).foldl
    (fun t x => max t x.due) 0

/-- Another operation on the same job context is still to end. -/
def State.ctxBusy (s : State) (w : Work) : Bool :=
  s.ring.work.any fun x => x.ring == 5 && x.usesJctx && x.jctx == w.jctx && idxBefore x.idx w.idx

/-! ### Job checks -/

/-- The parts of a CIPHER descriptor and its parameter block. -/
structure CipherJob where
  mode : Nat
  dec : Bool
  init : Bool
  final : Bool
  autoIv : Bool
  tagLen : Nat
  len : Nat
  src : Nat
  dst : Nat
  param : Nat
  aadLen : Nat
  ctrw : Nat
  nonceLen : Nat
  deriving DecidableEq, Repr

/-- Reads the operands (Tables CIP-3 and CIP-4); AADLEN is taken in CCM and in GCM. -/
def State.cipherJob (s : State) (w : Work) : CipherJob :=
  let x := w.word 3
  let p := w.word 7
  let mode := bitsOf x 0 3
  { mode := mode, dec := bitOf x 3, init := bitOf x 4, final := bitOf x 5, autoIv := bitOf x 6
    tagLen := if bitsOf x 8 5 = 0 then 16 else bitsOf x 8 5
    len := bitsOf (w.word 4) 0 24, src := w.word 5, dst := w.word 6, param := p
    aadLen := if p ≠ 0 ∧ (mode = 3 ∨ mode = 4) then s.num (p + 32) 4 else 0
    ctrw := if p = 0 then 0 else s.num (p + 36) 1, nonceLen := if p = 0 then 0 else s.num (p + 37) 1 }

/-- Does the job need its parameter block? -/
def CipherJob.needsParam (j : CipherJob) : Bool :=
  match j.mode with
  | 0 => false
  | 1 | 2 => j.init
  | 3 => true
  | 4 => j.init || j.final
  | _ => j.final

/-- The rules of Table CIP-5 that concern the job alone. -/
def CipherJob.wellFormed (j : CipherJob) : Bool :=
  let tagOk := decide (4 ≤ j.tagLen ∧ j.tagLen ≤ 16)
  (j.param % 16 == 0) && (!j.needsParam || j.param != 0) &&
  match j.mode with
  | 0 | 1 => j.len % 16 == 0
  | 2 => (j.len % 16 == 0 || j.final) && decide (j.ctrw ≤ 2)
  | 3 => j.init && j.final && tagOk && j.tagLen % 2 == 0 && decide (j.aadLen < 65280) &&
      decide (7 ≤ j.nonceLen ∧ j.nonceLen ≤ 13) && decide (j.len < 256 ^ (15 - j.nonceLen))
  | 4 => (j.len % 16 == 0 || j.final) && (j.init || j.aadLen == 0) && (!j.final || tagOk)
  | 5 => !j.final || tagOk
  | _ => false

/-- The job fits the chain its context holds (R292). -/
def State.chainFits (s : State) (w : Work) (j : CipherJob) : Bool :=
  j.init || ((s.jctx w.jctx).open_ && (s.jctx w.jctx).mode == j.mode)

/-- The use bit a mode needs (Table CIP-1). -/
def CipherJob.useBit (j : CipherJob) : Nat := if j.mode = 5 then 3 else if j.dec then 2 else 1

/-- The key of the job's slot, if it is loaded with the needed use (R289). -/
def State.jobKey (s : State) (w : Work) (j : CipherJob) : Option (List Byte) :=
  match s.workSlot w with
  | some n =>
    match s.keySlot n with
    | some k => if bitOf k.uses j.useBit then some k.key else none
    | none => none
  | none => none

/-- Width of the counter field of a CTR chain (CTRW). -/
def ctrWidth (c : Nat) : Nat := if c = 1 then 64 else if c = 2 then 32 else 128

/-- Would the job wrap a counter or an IV (R297, R298)? -/
def State.ivExhausted (s : State) (w : Work) (j : CipherJob) : Bool :=
  let c := s.jctx w.jctx
  let n := blocks16 j.len
  match j.mode with
  | 2 =>
    let width := ctrWidth (if j.init then j.ctrw else c.ctrw)
    let start := if j.init then beNum (s.bytes j.param 16) else beNum c.chain
    n != 0 && ((!j.init && c.spent) || decide (2 ^ width < start % 2 ^ width + n))
  | 4 =>
    (j.init && j.autoIv && (!c.seeded || c.invoc == 2 ^ 64 - 1)) ||
    decide (2 ^ 32 - 2 < blocks16 (if j.init then 0 else c.dlen) + n)
  | _ => false

/-- What refuses the job before any output, if anything does. Checks on a context whose earlier operation has
not ended are made when that operation has (R294). -/
def State.cipherRefusal (s : State) (w : Work) (ctxKnown : Bool) : Option Nat :=
  let j := s.cipherJob w
  let srcLen := j.aadLen + j.len
  if !j.wellFormed then some St.malformed
  else
    firstSome (s.bufferRefusal w.prot (s.inRam j.src srcLen) j.src srcLen) <|
    firstSome (if j.mode = 5 then none else s.bufferRefusal w.prot (s.inRam j.dst j.len) j.dst j.len) <|
    firstSome (if j.param = 0 then none else s.bufferRefusal w.prot (s.inRam j.param 48) j.param 48) <|
    firstSome (if ctxKnown && !s.chainFits w j then some St.malformed else none) <|
    firstSome (if (ctxKnown || j.init) && (s.jobKey w j).isNone then some St.keyAbsent else none) <|
    if ctxKnown && s.ivExhausted w j then some St.ivExhausted else none

/-- Block operations of a job (Table CIP-6). -/
def CipherJob.blockOps (j : CipherJob) : Nat :=
  match j.mode with
  | 3 => 2 * blocks16 j.len + blocks16 (j.aadLen + 2) + 2
  | 4 => blocks16 j.len + blocks16 j.aadLen + 2
  | 5 => blocks16 j.len + 1
  | _ => blocks16 j.len

/-! ### Planning and starting -/

/-- A refused ring-5 operation counts its failure. -/
def State.cipherFail (s : State) (w : Work) (st : Nat) : State :=
  let s := if st = St.ivExhausted then s.bump R.CIP_FAILS_IVEXH
    else if st = St.unwrapFail then s.bump R.CIP_FAILS_UNWRAP
    else if st = St.micFail then s.bump R.CIP_FAILS_MICFAIL else s
  s.decide_ w st

/-- Plans an operation on an engine: it starts at the latest of now, the engine's free time and the end of the
operation before it on its context (R296). -/
def State.planCipher (s : State) (w : Work) (ns : Nat) : State :=
  match s.chooseEngine with
  | none => s.decide_ w St.noEngine
  | some e =>
    let t0 := max s.clk.edges (max (s.engineFree e) (if w.usesJctx then s.ctxBusyUntil w else 0))
    let fin := t0 + s.stepsOf ns
    ((s.setEngineFree e fin).count (100 + e)).updWork w.ring w.idx fun x =>
      { x with stage := .started, a := e, b := t0, due := fin }

/-- At its start a job reserves the counter range or the INVOC value it uses (R298, R299). The counter it starts
from is kept as word 8 of its descriptor. -/
def State.reserve (s : State) (w : Work) : State :=
  let j := s.cipherJob w
  let c := s.jctx w.jctx
  let note := fun (s : State) (v : Nat) => s.updWork w.ring w.idx fun x => { x with w := x.w.take 8 ++ [v] }
  match j.mode with
  | 2 =>
    if j.init then note s (beNum (s.bytes j.param 16))
    else
      let width := ctrWidth c.ctrw
      let n := blocks16 j.len
      let v := beNum c.chain
      let next := v / 2 ^ width * 2 ^ width + (v % 2 ^ width + n) % 2 ^ width
      note (s.setJctx w.jctx { c with chain := beBytes 16 next
                                      spent := c.spent || decide (2 ^ width ≤ v % 2 ^ width + n) }) (beNum c.chain)
  | 4 =>
    if j.init then
      if j.autoIv then
        let iv := beBytes 4 c.fixed ++ beBytes 8 c.invoc
        note ((s.setBytes j.param iv).setJctx w.jctx { c with invoc := c.invoc + 1 }) (beNum iv * 2 ^ 32 + 2)
      else
        let iv := s.bytes j.param 12
        note (s.setJctx w.jctx { c with fixed := beNum (iv.take 4), invoc := (beNum (iv.drop 4) + 1) % 2 ^ 64
                                        seeded := true }) (beNum iv * 2 ^ 32 + 2)
    else
      let v := beNum c.chain
      note (s.setJctx w.jctx { c with chain := beBytes 16 (v / 2 ^ 32 * 2 ^ 32 + (v % 2 ^ 32 + blocks16 j.len) % 2 ^ 32) })
        v
  | _ => s

/-- CIPHER at its decision step (R292-R299). -/
def State.startCipher (s : State) (w : Work) : State :=
  let known := !s.ctxBusy w
  match s.cipherRefusal w known with
  | some st => s.cipherFail w st
  | none =>
    let j := s.cipherJob w
    let big := match s.jobKey w j with
      | some k => k.length == 32
      | none => false
    let s := s.planCipher w (cipherNs j.blockOps big)
    if known then
      match s.findWork w.ring w.idx with
      | some w => s.reserve w
      | none => s
    else s

def execCipher (t : Elapsed) (idx : Nat) (s : State) : Host.Outcome State Fault Refusal :=
  .next ((s.advance t).runWork 5 idx [0x60] fun w s => s.startCipher w)

/-! ### Ending a CIPHER job -/

/-- The data of a job after its mode: output, new context, and the tag or expected tag of a FINAL job. -/
structure CipherResult where
  out : List Byte
  ctx : JobCtx
  tag : List Byte
  deriving DecidableEq, Repr

/-- Runs CMAC: the last whole or partial block is held until FINAL (Table CIP-5). -/
def cmacRun (key : List Byte) (c : JobCtx) (data : List Byte) (final : Bool) : JobCtx × List Byte :=
  let buf := c.acc ++ data
  let keep := if buf.isEmpty then 0 else (buf.length - 1) / 16
  let chain := cbcMac key c.chain (inBlocks keep buf)
  let last := buf.drop (16 * keep)
  if final then (c, cmacLast key chain last) else ({ c with chain := chain, acc := last, dlen := c.dlen + data.length }, [])

/-- Runs GCM from counter block `ctr`. -/
def gcmRun (key : List Byte) (c : JobCtx) (ctr : List Byte) (j : CipherJob) (aad data : List Byte) : CipherResult :=
  let h := beNum (aesBlock key (zeros 16))
  let acc0 := if j.init then ghash h 0 (cut16 (pad16 aad)) else beNum c.acc
  let (out, next) := ctrMode key 32 ctr data
  let ct := if j.dec then data else out
  let acc := ghash h acc0 (cut16 (pad16 ct))
  let alen := if j.init then aad.length else c.alen
  let dlen := (if j.init then 0 else c.dlen) + data.length
  let tag := xorBytes (beBytes 16 (gfMul128 (acc ^^^ (alen * 8 * 2 ^ 64 + dlen * 8)) h))
    (aesBlock key (ctr.take 12 ++ beBytes 4 1))
  ⟨out, { c with chain := next, acc := beBytes 16 acc, alen := alen, dlen := dlen }, tag⟩

/-- A finished chain is dropped; FIXED, INVOC and the seeding persist (R292). -/
def closeChain (c : JobCtx) : JobCtx :=
  { slot := c.slot, mode := c.mode, seeded := c.seeded, invoc := c.invoc, fixed := c.fixed }

/-- Runs the job's mode on its data (Table CIP-5). `start` is the counter reserved at its start. -/
def State.cipherRun (s : State) (w : Work) (j : CipherJob) (key : List Byte) (start : Nat) : CipherResult :=
  let c0 := if j.init then closeChain (s.jctx w.jctx) else s.jctx w.jctx
  let slot := if j.init then bitsOf (w.word 3) 22 10 else c0.slot
  let c : JobCtx := { c0 with slot := slot, mode := j.mode, open_ := !j.final }
  let aad := s.bytes j.src j.aadLen
  let data := s.bytes (j.src + j.aadLen) j.len
  let iv := s.bytes j.param 16
  match j.mode with
  | 0 => ⟨(cut16 data).flatMap fun b => if j.dec then aesInvBlock key b else aesBlock key b, c, []⟩
  | 1 =>
    let v := if j.init then iv else c.chain
    let (o, l) := if j.dec then cbcDec key (cut16 data) v else cbcEnc key (cut16 data) v
    ⟨o, { c with chain := l, dlen := (if j.init then 0 else c.dlen) + j.len }, []⟩
  | 2 =>
    let cw := if j.init then j.ctrw else c.ctrw
    let width := ctrWidth cw
    let (o, next) := ctrMode key width (beBytes 16 start) data
    let spent := decide (2 ^ width ≤ start % 2 ^ width + blocks16 j.len)
    ⟨o, { c with chain := next, ctrw := cw, spent := spent || (!j.init && c.spent)
                 dlen := (if j.init then 0 else c.dlen) + j.len }, []⟩
  | 3 =>
    let nonce := iv.take j.nonceLen
    if j.dec then
      let p := (ctrMode key 128 (ccmCtr nonce 1) data).1
      ⟨p, c, (ccmSeal key nonce aad p j.tagLen).2⟩
    else
      let (o, tag) := ccmSeal key nonce aad data j.tagLen
      ⟨o, c, tag⟩
  | 4 => gcmRun key c (beBytes 16 start) j aad data
  | _ =>
    let c1 := if j.init then { c with chain := zeros 16, acc := [], dlen := 0 } else c
    let (c2, tag) := cmacRun key c1 data j.final
    ⟨[], c2, tag⟩

/-- A CIPHER job reaches its model end: output, tag, context and completion (R292-R294, R299). -/
def State.endCipher (s : State) (w : Work) : State :=
  let j := s.cipherJob w
  match s.jobKey w j with
  | none => s.cipherFail w St.keyAbsent
  | some key =>
    if s.anyPoison (s.phys j.src) (j.aadLen + j.len) then (s.bump R.SRM_ERRS_UNCORR).decide_ w St.memError
    else
      let r := s.cipherRun w j key (w.w.getD 8 0)
      let tagged := j.final && decide (3 ≤ j.mode)
      let bad := tagged && j.dec && (s.bytes (j.param + 16) j.tagLen != r.tag.take j.tagLen)
      if bad then
        let s := if j.mode = 5 then s else (s.setBytes j.dst (zeros j.len)).healRange (s.phys j.dst) j.len
        s.cipherFail w St.micFail
      else
        let s := if j.mode = 5 then s else (s.setBytes j.dst r.out).healRange (s.phys j.dst) j.len
        let s := if tagged && !j.dec then s.setBytes (j.param + 16) (r.tag.take j.tagLen) else s
        let s := s.setJctx w.jctx (if j.final then closeChain r.ctx else r.ctx)
        (s.bump R.CIP_JOBS_COUNT).decide_ w St.done (if j.mode = 5 then 0 else j.len)

/-! ### Saving, loading and wrapping -/

/-- The 64-byte state of Table CIP-7. -/
def jctxBytes (c : JobCtx) : List Byte :=
  let body := (pad16 c.chain ++ zeros 16).take 16 ++ (pad16 c.acc ++ zeros 16).take 16 ++ leBytes 2 c.slot ++
    leBytes 1 (c.mode + 8 * b2n c.open_ + 16 * b2n c.seeded) ++ leBytes 1 c.ctrw ++ leBytes 8 c.invoc ++
    leBytes 4 c.fixed ++ leBytes 8 c.dlen ++ leBytes 4 c.alen
  body ++ leBytes 4 (crc32 body)

/-- A job context from its saved state; the CMAC partial block has the length DLEN leaves. -/
def jctxOf (b : List Byte) : JobCtx :=
  let m := imgNum b 34 1
  let dlen := imgNum b 48 8
  let acc := (b.drop 16).take 16
  { chain := b.take 16, slot := imgNum b 32 2 % 1024, mode := m % 8, open_ := bitOf m 3, seeded := bitOf m 4
    ctrw := imgNum b 35 1, invoc := imgNum b 36 8, fixed := imgNum b 44 4, dlen := dlen, alen := imgNum b 56 4
    acc := if m % 8 = 5 then (if dlen = 0 then [] else acc.take ((dlen - 1) % 16 + 1)) else acc }

/-- The device-unique key (R285), 32 bytes. -/
def uniqueKey : List Byte := (List.range 32).map fun i => BitVec.ofNat 8 (Config.uniqueKey.toNat / 256 ^ i)

/-- A range wholly in SRAM banks marked protected (R300, R352). -/
def State.protectedRange (s : State) (a n : Nat) : Bool :=
  match s.region a, s.region (a + n - 1) with
  | .sram b, .sram b' => s.bankAttr b == 1 && s.bankAttr b' == 1
  | _, _ => false

/-- The checks of CTX_SAVE, CTX_LOAD, KEY_WRAP and KEY_UNWRAP at their decision step (R291, R300, R302). -/
def State.keyOpRefusal (s : State) (w : Work) : Option Nat :=
  let a := w.word 4
  let wrap := bitOf (w.word 3) 8
  let n := if w.opcode = 0x63 ∨ w.opcode = 0x64 then 48 else if wrap then 72 else 64
  let read := w.opcode == 0x62 || w.opcode == 0x64
  let ctxOp := w.opcode == 0x61 || w.opcode == 0x62
  if (!ctxOp || !wrap) && !w.prot then some St.access
  else if ctxOp && a % 16 ≠ 0 then some St.malformed
  else firstSome (s.bufferRefusal w.prot (if read then s.devReadable a n else s.devWritable a n) a n) <|
    if w.opcode = 0x61 ∧ !wrap ∧ !s.protectedRange a n then some St.access
    else if w.opcode = 0x63 then
      match s.keySlot (bitsOf (w.word 3) 0 10) with
      | none => some St.keyAbsent
      | some k => if bitOf k.uses 4 then none else some St.access
    else if w.opcode = 0x64 ∧ (s.keySlot (bitsOf (w.word 3) 0 10)).isSome then some St.slotBusy
    else none

/-- Cost of the operation (Table CIP-6). -/
def keyOpNs (w : Work) : Nat :=
  if w.opcode = 0x63 ∨ w.opcode = 0x64 then cipherNs 30 true
  else if bitOf (w.word 3) 8 then cipherNs 48 true else cipherNs 0 false

def State.startKeyOp (s : State) (w : Work) : State :=
  match s.keyOpRefusal w with
  | some st => s.cipherFail w st
  | none => s.planCipher w (keyOpNs w)

def execCtxSave (t : Elapsed) (idx : Nat) (s : State) : Host.Outcome State Fault Refusal :=
  .next ((s.advance t).runWork 5 idx [0x61] fun w s => s.startKeyOp w)

def execCtxLoad (t : Elapsed) (idx : Nat) (s : State) : Host.Outcome State Fault Refusal :=
  .next ((s.advance t).runWork 5 idx [0x62] fun w s => s.startKeyOp w)

def execKeyWrap (t : Elapsed) (idx : Nat) (s : State) : Host.Outcome State Fault Refusal :=
  .next ((s.advance t).runWork 5 idx [0x63] fun w s => s.startKeyOp w)

def execKeyUnwrap (t : Elapsed) (idx : Nat) (s : State) : Host.Outcome State Fault Refusal :=
  .next ((s.advance t).runWork 5 idx [0x64] fun w s => s.startKeyOp w)

/-- A completed ring-5 operation. -/
def State.cipherDone (s : State) (w : Work) (result : Nat) : State :=
  (s.bump R.CIP_JOBS_COUNT).decide_ w St.done result

/-- The end of CTX_SAVE, CTX_LOAD, KEY_WRAP and KEY_UNWRAP (R300, R302). -/
def State.endKeyOp (s : State) (w : Work) : State :=
  let a := w.word 4
  let wrap := bitOf (w.word 3) 8
  let slot := bitsOf (w.word 3) 0 10
  match w.opcode with
  | 0x61 =>
    let b := jctxBytes (s.jctx w.jctx)
    let out := if wrap then kwWrap uniqueKey b else b
    ((s.setBytes a out).healRange (s.phys a) out.length).cipherDone w out.length
  | 0x62 =>
    if wrap then
      match kwUnwrap uniqueKey (s.bytes a 72) with
      | none => s.cipherFail w St.unwrapFail
      | some b => (s.setJctx w.jctx (jctxOf b)).cipherDone w 0
    else
      let b := s.bytes a 64
      if crc32 (b.take 60) ≠ imgNum b 60 4 then s.cipherFail w St.malformed
      else (s.setJctx w.jctx (jctxOf b)).cipherDone w 0
  | 0x63 =>
    match s.keySlot slot with
    | none => s.cipherFail w St.keyAbsent
    | some k =>
      let b := (k.key ++ zeros 32).take 32 ++ [BitVec.ofNat 8 k.uses, BitVec.ofNat 8 (b2n (k.key.length == 32))] ++ zeros 6
      let out := kwWrap uniqueKey b
      ((s.setBytes a out).healRange (s.phys a) 48).cipherDone w 48
  | _ =>
    if (s.keySlot slot).isSome then s.cipherFail w St.slotBusy
    else match kwUnwrap uniqueKey (s.bytes a 48) with
    | none => s.cipherFail w St.unwrapFail
    | some b =>
      if b.drop 34 ≠ zeros 6 then s.cipherFail w St.unwrapFail
      else
        let k : KeySlot := { uses := imgNum b 32 1 % 32, key := if bitOf (imgNum b 33 1) 0 then b.take 32 else b.take 16 }
        (s.setKeySlot slot (some k)).cipherDone w (keyCheck k)

/-- An operation reaches its model end. An operation that waited for an earlier one on its context has its
context checks and its reservation now; one that the engine finishes late breaks condition 2 (R296). -/
def State.cipherOperationEnd (s : State) (idx : Nat) : State :=
  match s.findWork 5 idx with
  | none => s
  | some w =>
    if w.stage != .started || decide (s.clk.edges < w.due) || (w.usesJctx && s.ctxBusy w) then s
    else
      let s := if w.due < s.clk.edges then (s.bump R.CIP_FAILS_LATE).envBreak 0x05 2 Hdr.cip else s
      let s := s.progress (Hdr.cipEng (s.rd (R.CIP_MAP_PHYS w.a)))
      if w.opcode != 0x60 then s.endKeyOp w
      else if w.w.length ≤ 8 && decide (w.b ≠ w.at_) then
        match s.cipherRefusal w true with
        | some st => s.cipherFail w st
        | none =>
          let s := s.reserve w
          match s.findWork 5 idx with
          | some w => s.endCipher w
          | none => s
      else s.endCipher w

def execCipherOperationEnd (t : Elapsed) (idx : Nat) (s : State) : Host.Outcome State Fault Refusal :=
  .next ((s.advance t).cipherOperationEnd idx)

end Sys2Proof.Machine
end

