-- ==== Sys2Proof/Machine/Frames.lean ====
section
/-!
DEFINITION. Link frames: context images of each generation (R238, R239), the frame's bytes, sealing and opening
(R233-R237), counters and the last gasp that follows them (R241, R246, R279).
-/

namespace Sys2Proof.Machine

/-! ### Contexts by generation (R47, R239) -/

/-- Old image of context `k`, when generation `g` is the old one of a changeover. -/
def State.ctxOld (s : State) (g k : Nat) : Option (List Byte) :=
  if g = s.gen.active then none else (s.ctx.old.find? (·.1 == k)).map (·.2)

/-- Bytes the device keeps: those marked R239 or D (Table LNK-5, Table TTB-5). -/
def ctxKept (off : Nat) : Bool := decide ((16 ≤ off ∧ off < 68) ∨ (77 ≤ off ∧ off < 88))

/-- An old image and the present one share the device-kept fields: LONG and KEYSLOT unchanged (R239). -/
def State.ctxShared (s : State) (k : Nat) (img : List Byte) : Bool :=
  imgNum img 0 8 == s.ctxNum k 0 8 && imgNum img 10 2 % 1024 == s.ctxNum k 10 2 % 1024

/-- A field of context `k` as generation `g` sees it. -/
def State.ctxGet (s : State) (g k off n : Nat) : Nat :=
  match s.ctxOld g k with
  | none => s.ctxNum k off n
  | some img => if ctxKept off && s.ctxShared k img then s.ctxNum k off n else imgNum img off n

/-- Writes a field of an image. -/
def imgPut (img : List Byte) (off n v : Nat) : List Byte := img.take off ++ leBytes n v ++ img.drop (off + n)

/-- Writes a device-kept field of context `k` as generation `g` sees it. -/
def State.ctxPut (s : State) (g k off n v : Nat) : State :=
  match s.ctxOld g k with
  | none => s.setCtxNum k off n v
  | some img =>
    if s.ctxShared k img then s.setCtxNum k off n v
    else { s with ctx := { s.ctx with
        old := s.ctx.old.map fun p => if p.1 = k then (k, imgPut p.2 off n v) else p } }

/-- Bits of FLAGS: VALID 0, KEEPOK 1, TSRC 2, RXFRESH 3, EXHAUSTED 4, WARNED 5; the last three are kept by the
device. -/
def State.ctxFlag (s : State) (g k bit : Nat) : Bool :=
  match s.ctxOld g k with
  | none => bitOf (s.ctxNum k 12 2) bit
  | some img =>
    if decide (3 ≤ bit) && s.ctxShared k img then bitOf (s.ctxNum k 12 2) bit else bitOf (imgNum img 12 2) bit

def State.setCtxFlag (s : State) (g k bit : Nat) (b : Bool) : State :=
  match s.ctxOld g k with
  | none => s.setCtxNum k 12 2 (setBitsOf (s.ctxNum k 12 2) bit 1 (b2n b))
  | some img =>
    if decide (3 ≤ bit) && s.ctxShared k img then s.setCtxNum k 12 2 (setBitsOf (s.ctxNum k 12 2) bit 1 (b2n b))
    else { s with ctx := { s.ctx with
        old := s.ctx.old.map fun p => if p.1 = k then (k, imgPut p.2 12 2 (setBitsOf (imgNum p.2 12 2) bit 1 (b2n b)))
                                      else p } }

/-- The AES-128 key of a context, if its slot holds one and a cipher engine is in service (R296). -/
def State.ctxKey (s : State) (g k : Nat) : Option (List Byte) :=
  if s.cipherServes then s.linkKey (s.ctxGet g k 10 2 % 1024) else none

/-- The link engine seals or checks a MIC of code MICSZ over a header and a payload of `hdr` and `pay` bytes: a CCM
operation on a cipher engine, or none without a MIC (R295, R296, Table CIP-6). -/
def State.linkCcm (s : State) (micsz hdr pay : Nat) (enc : Bool) : State :=
  if micsz = 0 then s
  else s.linkCipher (if enc then 2 * blocks16 pay + blocks16 (hdr + 2) + 2 else blocks16 (hdr + pay + 2) + 2)

/-- Entries of CTXLIST still to be rewritten name context `k` (R47): work of the new generation waits for it. -/
def State.ctxPending (s : State) (k : Nat) : Bool :=
  match s.gen.commit with
  | some c => c.switched && c.rewrites.any (·.1 == k)
  | none => false

/-- Is context `k` an active VALID partner or group context of generation `g`? -/
def State.ctxLive (s : State) (g k : Nat) : Bool := s.ctxFlag g k 0

/-! ### The frame's bytes (Tables LNK-2 to LNK-4) -/

/-- Bytes of a MIC of code MICSZ. -/
def micLen (micsz : Nat) : Nat :=
  match micsz with
  | 0 => 0
  | 1 => 4
  | 2 => 8
  | _ => 16

/-- Frame control. -/
def frameControl (type : Nat) (ar : Bool) (micsz : Nat) (enc ts ls : Bool) : Nat :=
  type + 8 * b2n ar + 16 * micsz + 64 * b2n enc + 128 * b2n ts + 256 * b2n ls

/-- A link header. -/
def linkHeader (fc dest src ctr txstep long : Nat) : List Byte :=
  leBytes 2 fc ++ leBytes 2 dest ++ leBytes 2 src ++ leBytes 4 ctr ++
    (if bitOf fc 7 then leBytes 2 txstep else []) ++ (if bitOf fc 8 then leBytes 8 long else [])

/-- The CCM nonce (Table LNK-4). -/
def linkNonce (long ctr micsz : Nat) (enc : Bool) : List Byte :=
  beBytes 8 long ++ beBytes 4 ctr ++ [BitVec.ofNat 8 (micsz + 4 * b2n enc)]

/-- Header, payload and MIC of a sealed frame (R236). -/
def sealFrame (key hdr payload : List Byte) (long ctr micsz : Nat) (enc : Bool) : List Byte :=
  if micsz = 0 then hdr ++ payload
  else
    let n := linkNonce long ctr micsz enc
    if enc then
      let (c, tag) := ccmSeal key n hdr payload (micLen micsz)
      hdr ++ c ++ tag
    else hdr ++ payload ++ (ccmSeal key n (hdr ++ payload) [] (micLen micsz)).2

/-- A received link frame, its header read. -/
structure LinkFrame where
  type : Nat
  ar : Bool
  micsz : Nat
  enc : Bool
  ts : Bool
  ls : Bool
  ver : Nat
  dest : Nat
  src : Nat
  ctr : Nat
  txstep : Nat
  long : Nat
  hdr : List Byte
  body : List Byte
  mic : List Byte
  /-- LEN is at least header and MIC -/
  fits : Bool
  deriving DecidableEq, Repr

/-- Reads the header of a PHY payload. -/
def parseFrame (bs : List Byte) : LinkFrame :=
  let fc := imgNum bs 0 2
  let ts := bitOf fc 7
  let ls := bitOf fc 8
  let hl := 10 + 2 * b2n ts + 8 * b2n ls
  let m := micLen (bitsOf fc 4 2)
  { type := bitsOf fc 0 3, ar := bitOf fc 3, micsz := bitsOf fc 4 2, enc := bitOf fc 6, ts := ts, ls := ls,
    ver := bitsOf fc 12 4, dest := imgNum bs 2 2, src := imgNum bs 4 2, ctr := imgNum bs 6 4,
    txstep := if ts then imgNum bs 10 2 else 0, long := if ls then imgNum bs (10 + 2 * b2n ts) 8 else 0,
    hdr := bs.take hl, body := (bs.drop hl).take (bs.length - hl - m), mic := bs.drop (bs.length - m),
    fits := decide (hl + m ≤ bs.length) }

/-- Is the destination a group or broadcast address (Table LNK-1)? -/
def groupDest (d : Nat) : Bool := decide ((0xF000 ≤ d ∧ d ≤ 0xF00F) ∨ d = 0xFFFF)

/-- The header breaks R234. -/
def LinkFrame.malformed (f : LinkFrame) : Bool :=
  f.ver != 0 || decide (4 ≤ f.type) || (f.micsz == 0 && f.type != 2) || (f.enc && f.micsz == 0) ||
  (f.ar && groupDest f.dest) || !f.fits

/-- The payload if the MIC holds under `key` and the sender's long address (R236). -/
def LinkFrame.open_ (f : LinkFrame) (key : List Byte) (long : Nat) : Option (List Byte) :=
  if f.micsz = 0 then some f.body
  else
    let n := linkNonce long f.ctr f.micsz f.enc
    if f.enc then ccmOpen key n f.hdr f.body f.mic
    else (ccmOpen key n (f.hdr ++ f.body) [] f.mic).map fun _ => f.body

/-! ### Addresses and records -/

def State.shortValid (s : State) : Bool := s.flag R.LNK_ADDR_VALID
/-- The own short address, or 0xFFFE while none is assigned (R232). -/
def State.ownShort (s : State) : Nat := if s.shortValid then s.rd R.LNK_ADDR_SHORT else 0xFFFE
/-- The own long address (LNK_LONG). -/
def ownLong : Nat := Config.longAddress.toNat

/-- A ring-9 record (Table TTB-6); `ctx` is a context number, groups from 512. -/
def State.ttbRecord (s : State) (kind ctx a : Nat) (data : List Byte := []) : State :=
  let (st, al) := s.recStamp
  let c := if ctx < 512 then ctx else ctx - 512 + 2 ^ 15
  let rec32 := leBytes 7 st ++ [BitVec.ofNat 8 (b2n al), BitVec.ofNat 8 kind,
      BitVec.ofNat 8 (if kind = 3 then data.length else 0)] ++ leBytes 2 c ++ leBytes 4 a ++
    (data ++ zeros 16).take 16
  s.postRecord 9 kind rec32 R.TTB_COUNTS_NOTELOST

/-- ACKST of a context: last parity set sent, transmissions of the current frame, awaiting, kept (Table LNK-5). -/
def State.putAckst (s : State) (g k pset n : Nat) (await kept : Bool) : State :=
  s.ctxPut g k 44 4 (pset % 4 + 4 * min n 15 + 64 * b2n await + 128 * b2n kept)

/-! ### Counters and the last gasp (R246, R279) -/

/-- TTB_LG.AHEAD; smaller values act as 16. -/
def State.gaspAhead (s : State) : Nat := max 16 (s.rd R.TTB_LG_AHEAD)

/-- Ledger units of a frame of `len` bytes on channel entry `c` (R274). -/
def frameUnits (c : Chan) (turns len rate pset order : Nat) (robust : Bool) : Nat :=
  symUnits (frameSymbols turns len rate pset order robust) order c.bw

/-- Disarms the last gasp and releases its reserve (R278). -/
def State.gaspDisarm (s : State) : State := { s with ttb := { s.ttb with gasp := none } }

/-- Seals the armed frame with counter `r` (R278, R279). -/
def State.gaspSeal (s : State) (g : Gasp) (r : Nat) : Gasp :=
  let dest := s.ctxGet s.gen.active g.ctx 8 2
  let ls := g.ls || !s.shortValid
  let hdr := linkHeader (frameControl 3 false g.micsz false false ls) dest s.ownShort r 0 ownLong
  let key := (s.linkKey (s.ctxGet s.gen.active g.ctx 10 2 % 1024)).getD []
  let frame := sealFrame key hdr g.payload ownLong r g.micsz false
  let c := s.chan s.gen.active g.entry
  { g with ctr := r, frame := frame, gen := s.gen.active,
           charge := frameUnits c c.turns frame.length g.rate 0 g.order g.robust }

/-- The cost of sealing the armed frame on a cipher engine. -/
def State.gaspCost (s : State) (g : Gasp) : State :=
  s.linkCcm g.micsz (10 + 8 * b2n (g.ls || !s.shortValid)) g.payload.length false

/-- Reseals the armed last gasp with counter `r`, or disarms it when the counter space ends (R279). -/
def State.gaspReseal (s : State) (r : Nat) : State :=
  match s.ttb.gasp with
  | none => s
  | some g =>
    if 0xFFFFFFFF ≤ r then s.gaspDisarm.ttbRecord 0x21 g.ctx g.ctr
    else ({ s with ttb := { s.ttb with gasp := some (s.gaspSeal g r) } } : State).gaspCost g

/-- The owning member of a partner context (Table COH-3). -/
def State.ctxOwned (s : State) (g k : Nat) : Bool :=
  !s.inCohort || decide (512 ≤ k) || s.ctxGet g k 68 4 % 16 == s.rd R.COH_CFG_INDEX

/-- A counter can be taken: outside a cohort and on a group context always, else from a valid block (R425, R426). -/
def State.blockReady (s : State) (g k : Nat) : Bool :=
  let b := s.ctxGet g k 68 4
  !s.inCohort || decide (512 ≤ k) || (bitOf b 4 && s.ctxGet g k 16 4 / 4096 == b / 4096)

/-- Takes the context's TXCTR and increments it, with the notices of R246, the reseal of R279 and, in a cohort, the
request for the next block when 256 counters remain (R426). -/
def State.takeCounter (s : State) (g k : Nat) : State × Nat :=
  let c := s.ctxGet g k 16 4
  let s := s.ctxPut g k 16 4 (c + 1)
  let s := if c = 0xFFFF0000 then (s.setCtxFlag g k 5 true).ttbRecord 0x20 k c else s
  let s := if c + 1 = 0xFFFFFFFF then (s.setCtxFlag g k 4 true).ttbRecord 0x21 k (c + 1) else s
  let s := if s.inCohort ∧ k < 512 ∧ (c + 1) % 4096 = 3840 then s.requestBlock k else s
  let s := match s.ttb.gasp with
    | some gp => if gp.ctx = k ∧ gp.ctr = c then s.gaspReseal (c + s.gaspAhead) else s
    | none => s
  (s, c)

end Sys2Proof.Machine
end

