-- ==== Sys2Proof/Machine/Transmit.lean ====
section
/-!
DEFINITION. The synthesiser and the transmitter: placement of transmissions on the model of R222-R231, their hops,
edges and chips, acknowledgement outcomes (R226), and the transmit calibrations (R206-R217). Times are tempo-clock
edges; a start stamp is an aligned stamp.
-/

namespace Sys2Proof.Machine

/-! ### The list of transmissions -/

def State.updTx (s : State) (id : Nat) (f : Tx → Tx) : State :=
  { s with tx := { s.tx with list := s.tx.list.map fun x => if x.id = id then f x else x } }

def State.dropTx (s : State) (id : Nat) : State :=
  { s with tx := { s.tx with list := s.tx.list.filter (·.id != id) } }

def State.findTx (s : State) (id : Nat) : Option Tx := s.tx.list.find? (·.id == id)

/-- It holds the synthesiser or the pins: its hop has begun and its last edge has not passed. -/
def Tx.begun (x : Tx) : Bool :=
  match x.stage with
  | .hopping | .ramping | .air | .tail => true
  | _ => false

/-- It is past its commit point (Table UNT-5); an acknowledgement is decided for good (R226). -/
def Tx.isCommitted (x : Tx) (now : Nat) : Bool :=
  match x.stage with
  | .air | .tail => true
  | .ramping => x.kind == .ack || decide (x.commit ≤ now)
  | .hopping => x.kind == .ack
  | _ => false

/-- TXU takes transmissions: TXA is on, TXU enabled, the die not too hot (R231, R469). -/
def State.txuOpen (s : State) : Bool := s.domOn Dom.txa && s.enabled Hdr.txu && !s.tx.hot

/-- A chip is on air. -/
def State.onAir (s : State) : Bool := s.tx.list.any (·.stage == .air)

/-- Unit fault codes: CODE and a bit of DETAIL. -/
def State.unitFault (s : State) (h code bit : Nat) : State :=
  (s.wr (R.UFAULT_CODE h) code).wr (R.UFAULT_DETAIL h) (s.rd (R.UFAULT_DETAIL h) ||| 2 ^ bit)

/-! ### Outcomes -/

/-- Decides a descriptor with a given completion stamp, which may lie ahead (R223). -/
def State.decideAt (s : State) (w : Work) (status result gen stamp at_ : Nat) : State :=
  let d : Done := { ring := w.ring, idx := w.idx, tag := w.tag, status := status, flags := 0, stamp := stamp,
                    gen := gen, result := result % 2 ^ 32, event := w.wantsEvent, at_ := at_ }
  { s with ring := { s.ring with
      work := s.ring.work.filter fun x => !(x.ring == w.ring && x.idx == w.idx)
      done := s.ring.done ++ [d] } }

/-- Frames that complete `GEN_MISMATCH` are counted in the commit's result (R47). -/
def State.countMismatch (s : State) : State :=
  match s.gen.commit with
  | some c => { s with gen := { s.gen with commit := some { c with mismatches := c.mismatches + 1 } } }
  | none => s

/-- A transmission ends with a status: its descriptor completes under its own generation with the frame counter
(R244, R49); a bell not sent is counted (R265). -/
def State.finishTx (s : State) (x : Tx) (status : Nat) : State :=
  let s := s.dropTx x.id
  let s := if status = St.genMismatch then s.countMismatch else s
  match x.kind with
  | .frame ring idx =>
    match s.findWork ring idx with
    | some w => (s.decideGen w status x.ctr x.gen).progress Hdr.lnk
    | none => s
  | .bell _ _ => s.bump R.TTB_BELLS_SKIP
  | _ => s

/-- As `finishTx`, stamped S + SLIP (R223). -/
def State.finishLate (s : State) (x : Tx) (slip : Nat) : State :=
  let stamp := (x.stamp + slip) % stampMod
  match x.kind with
  | .frame ring idx =>
    match s.findWork ring idx with
    | some w => ((s.dropTx x.id).decideAt w St.late x.ctr x.gen stamp (s.edgeOf stamp)).progress Hdr.lnk
    | none => s.dropTx x.id
  | _ => s.finishTx x St.late

/-! ### Edges of a use (R218, R219) -/

/-- Earliest edge, latest edge, commit point in µs before the first and after the last chip, and the ramp. -/
structure EdgePlan where
  on : Nat
  off : Nat
  commit : Nat
  ramp : Nat
  deriving DecidableEq, Repr

/-- Edges of schedule `k` in external or table mode: PAEN or PABYP, TRSW, LNAEN and the ramp. -/
def edgePlan (m : Store) (k : Nat) (ext : Bool) : EdgePlan :=
  let ramp := schedRamp m k
  let pins := [if ext then 0 else 1, 2, 3].map (schedPin m k)
  { on := pins.foldl (fun r p => max r p.1) ramp, off := pins.foldl (fun r p => max r p.2) ramp,
    commit := if ext then (schedPin m k 0).1 else ramp, ramp := ramp }

/-- Steps of `us` microseconds (R222). -/
def State.usSteps (s : State) (us : Nat) : Nat := s.stepsOf (1000 * us)

/-- Airtime of a transmission in ledger units (R157, R274). -/
def State.txUnits (s : State) (x : Tx) : Nat :=
  frameUnits (s.chan x.gen x.entry) x.turns x.pay.length x.rate x.pset x.order x.robust

/-- Amplifier mode and schedule of a use: the entry's, or TXU_ACKCFG's for an acknowledgement (R218). -/
def State.txMode (s : State) (x : Tx) : Bool × Nat :=
  if x.kind == .ack then (s.flag R.TXU_ACKCFG_EXTPA, s.rd R.TXU_ACKCFG_PASCHED)
  else let c := s.chan x.gen x.entry; (c.extpa, c.pasched)

def State.txEdges (s : State) (x : Tx) : EdgePlan :=
  let (ext, k) := s.txMode x
  edgePlan (s.schedules x.gen) k ext

/-- TXU_LEAD.STEPS; values below 512 act as 512 (R223). -/
def State.hopLead (s : State) : Nat := max 512 (s.rd R.TXU_LEAD_STEPS)

/-! ### The model (R222) -/

/-- Model free time: the end of the latest use decided. -/
def State.synFree (s : State) : Nat :=
  let f := s.tx.blocks.foldl (fun m b => max m b.2.1) s.tx.free
  s.tx.list.foldl (fun m x => if x.placed && x.stage != .await then max m x.last else m) f

/-- Entry and end of the latest use; no entry after a calibration slice. -/
def State.lastUse (s : State) : Option Nat × Nat :=
  let r0 : Option Nat × Nat := (if s.tx.tuned then some s.tx.entry else none, s.tx.usedAt)
  let r1 := s.tx.list.foldl (fun r x =>
    if x.placed && x.stage != .await && decide (r.2 ≤ x.last) then (some x.entry, x.last) else r) r0
  s.tx.blocks.foldl (fun r b => if r.2 ≤ b.2.1 then (none, b.2.1) else r) r1

/-- Length of an acknowledgement expectation after the last payload chip: 2 ms and six turns (R174). -/
def State.expectSteps (s : State) (c : Chan) (order : Nat) : Nat :=
  s.stepsOf3 (3 * 2000000 + 2000 * symUnits 12 order c.bw)

/-- Windows of expectations open or to be opened by other placed transmissions (R223). -/
def State.expectWindows (s : State) (id : Nat) : List (Nat × Nat) :=
  (s.tx.expects.filter (·.tx != id)).map (fun e => (e.from_, e.till)) ++
  (s.tx.list.filter fun x => x.id != id && x.placed && x.ar && x.stage != .await && x.stage != .tail).map fun x =>
    (x.chipEnd, x.chipEnd + s.expectSteps (s.chan x.gen x.entry) x.order)

/-- What placement of one transmission needs to know. -/
structure PlaceEnv where
  start : Nat
  lead : Nat
  hop : Nat
  on : Nat
  use : Nat
  cal : Bool
  bell : Bool
  entry : Nat
  order : Nat
  ctx : Nat
  windows : List (Nat × Nat)
  deriving DecidableEq, Repr

/-- Where a placement ends. -/
inductive Place where
  | at_ (start hop : Nat) (held quiet : Bool)
  | noSlot
  deriving DecidableEq, Repr

/-- Moves a start to the first step that the model, the expectations, the QUIET occurrences and the permitting
occurrences allow (R223, R262, R263). `sp` is the present trial, `base` the earliest hop. -/
def State.placeFrom (s : State) (e : PlaceEnv) : Nat → Nat → Nat → Bool → Bool → Place
  | 0, sp, base, held, quiet => .at_ sp (if e.cal then base else max (sp - e.lead) base) held quiet
  | fuel + 1, sp, base, held, quiet =>
    let hop := if e.cal then base else max (sp - e.lead) base
    let fe := sp - e.on
    let le := sp + e.use
    let hits := e.windows.filter fun w => decide (w.1 < le ∧ hop < w.2)
    let base' := hits.foldl (fun m w => max m w.2) base
    let held' := held || !hits.isEmpty
    let sp1 := max sp (base' + e.hop + e.on)
    match s.quietEnd (s.stampOfEdge fe) (s.stampOfEdge le) with
    | some q => s.placeFrom e fuel (max sp1 (s.edgeOf q + e.on)) base' held' true
    | none =>
      if s.enforced && !e.bell && !s.insidePermit e.entry e.order e.ctx (s.stampOfEdge fe) (s.stampOfEdge le) then
        match s.nextPermit e.entry e.order e.ctx (s.stampOfEdge fe) (le - fe) with
        | some p => s.placeFrom e fuel (max sp1 (s.edgeOf p + e.on)) base' held' quiet
        | none => .noSlot
      else if sp1 = sp then .at_ sp hop held' quiet
      else s.placeFrom e fuel sp1 base' held' quiet

/-- How a late transmission is stamped and counted: by its slip, at a forced slice's decision, at a jump. -/
inductive LateMode where
  | slip | forced | jump
  deriving DecidableEq, Repr

/-- Places one transmission of the list that is not placed (R223, R224). -/
def State.placeOne (s : State) (mode : LateMode) (id : Nat) : State :=
  match s.findTx id with
  | none => s
  | some x =>
    if x.placed || x.stage != .queued then s
    else if !s.txuOpen then s.finishTx x St.notRun
    else if x.slip.isSome && !s.tempoUsable then s.finishTx x St.tempoInvalid
    else
      let ep := s.txEdges x
      let air := s.txUnits x
      let start := s.edgeOf x.stamp
      let on := s.usSteps ep.on
      let use := s.stepsOf3 (2000 * air + 3000 * ep.off)
      let base := max s.clk.edges s.synFree
      let lead := s.hopLead
      let cal := !s.calValid x.entry
      let (pe, pl) := s.lastUse
      let tuned := !cal && pe == some x.entry && decide (max (start - lead) base ≤ pl + s.rd R.SYN_PARK_STEPS)
      let hop := if cal then s.usSteps 400 else if tuned then 0 else s.usSteps 60
      let env : PlaceEnv := { start := start, lead := lead, hop := hop, on := on, use := use, cal := cal,
                              bell := match x.kind with
                                | .bell _ _ => true
                                | _ => false,
                              entry := x.entry, order := x.order, ctx := x.ctx, windows := s.expectWindows id }
      let refused := s.enforced && !env.bell && s.noPermit x.entry x.order x.ctx x.stamp (on + use)
      match if refused then .noSlot else s.placeFrom env 4096 (max start (base + hop + on)) base false false with
      | .noSlot => (s.bump R.TTB_TXCOUNTS_NOSLOT).finishTx x St.noSlot
      | .at_ sp hopAt held quiet =>
        let s := if quiet && !x.quiet then s.bump R.TTB_TXCOUNTS_QUIETHOLD else s
        let late := match x.slip with
          | some k => decide (start + k < sp)
          | none => false
        if late then
          match mode with
          | .forced => (s.bump R.TXU_LATE_FORCED).finishTx x St.late
          | .jump => (s.bump R.TXU_LATE_SLIP).finishTx x St.late
          | .slip => (s.bump R.TXU_LATE_SLIP).finishLate x (x.slip.getD 0)
        else
          s.updTx id fun x => { x with
            placed := true, start := sp, hop := hopAt, first := sp - on, commit := sp - s.usSteps ep.commit,
            chipEnd := sp + s.stepsOf3 (2000 * air), last := sp + use, cal := cal, tuned := tuned, held := held,
            quiet := x.quiet || quiet }

/-- Order of contenders: ascending S, bells first, then ring, then submission (R53, R223, R265). -/
def State.txBefore (s : State) (a b : Tx) : Bool :=
  let rank := fun (x : Tx) => match x.kind with
    | .frame ring _ => ring
    | _ => 0
  let (sa, sb) := (s.edgeOf a.stamp, s.edgeOf b.stamp)
  decide (sa < sb) || (sa == sb && (decide (rank a < rank b) || (rank a == rank b && decide (a.id < b.id))))

/-- Inserts in the order of contenders. -/
def State.insertTx (s : State) (x : Tx) : List Tx → List Tx
  | [] => [x]
  | y :: l => if s.txBefore x y then x :: y :: l else y :: s.insertTx x l

/-- Places the transmissions that are not placed and that `p` picks, in the order of contenders. -/
def State.placeAll (s : State) (mode : LateMode) (p : Tx → Bool) : State :=
  let todo := (s.tx.list.filter fun x => !x.placed && x.stage == .queued && p x).foldl (fun l x => s.insertTx x l) []
  todo.foldl (fun s x => s.placeOne mode x.id) s

/-- Takes back the placement of the transmissions not yet begun that `p` picks. -/
def State.unplace (s : State) (p : Tx → Bool) : State :=
  { s with tx := { s.tx with
      list := s.tx.list.map fun x => if x.stage == .queued && x.placed && p x then { x with placed := false } else x } }

/-- Places every transmission not yet begun again (R222, R225, R229). -/
def State.replaceAll (s : State) (mode : LateMode) : State := (s.unplace fun _ => true).placeAll mode fun _ => true

/-- A frame of ring 1. -/
def Tx.ringOne (x : Tx) : Bool :=
  match x.kind with
  | .frame 1 _ => true
  | _ => false

/-- A ring-2 transmission without a stamp goes ahead of ring 1 (R243). -/
def Tx.urgent (x : Tx) : Bool :=
  x.slip.isNone && match x.kind with
    | .frame 2 _ => true
    | _ => false

/-- A transmission joins and is placed together with those decided in the same step (R223, R243). -/
def State.submitTx (s : State) (x : Tx) : State :=
  let same := fun (y : Tx) => y.decided == s.clk.edges || (x.urgent && y.ringOne)
  let s := s.unplace same
  let s := { s with tx := { s.tx with list := s.tx.list ++ [x] } }
  let s := if x.urgent then s.placeAll .slip fun y => !y.ringOne else s
  s.placeAll .slip fun _ => true

/-! ### Calibration slices (R209-R215) -/

/-- Length of a slice of a kind: full 400 µs, TPG 1 ms, PWR 1.5 ms (Tables SYN-1, SYN-2). -/
def sliceUs (kind : Nat) : Nat :=
  match kind with
  | 0 => 400
  | 2 => 1000
  | _ => 1500

/-- A running non-forced slice is abandoned: it writes nothing and returns to the head of the set (R212). -/
def State.abandonSlice (s : State) (count : Bool := true) : State :=
  match s.tx.run with
  | some r =>
    if r.forced then s
    else
      let p : SynSlice := { items := r.item, kind := r.kind, entry := r.entry, next := r.next, since := r.start }
      let s := { s with tx := { s.tx with run := none, pend := p :: s.tx.pend, tuned := false, usedAt := s.clk.edges } }
      if count then s.bump R.SYN_COUNTS_ABANDON else s
  | none => s

/-- Items of SYN pending or running, as a mask. -/
def State.synItems (s : State) : Nat :=
  let m := s.tx.pend.foldl (fun m p => m ||| p.items) 0
  match s.tx.run with
  | some r => m ||| r.item
  | none => m

/-- An item of SYN_CALREQ joins the pending set unless it is pending (R210, R212). STALE or ALL with no entry to
calibrate is done at once. -/
def State.synItem (s : State) (i : Nat) : State :=
  if bitOf s.synItems i || !s.domOn Dom.txa then s
  else if i < 2 then
    let es := (List.range 256).filter fun e =>
      (s.chan s.gen.active e).valid && (i == 1 || !s.calValid e || s.calStale e)
    if es.isEmpty then s.wr R.SYN_CALSTAT_DONE (s.rd R.SYN_CALSTAT_DONE ||| 2 ^ i)
    else es.foldl (fun s e => s.joinSlice (2 ^ i) 0 e false) s
  else s.joinSlice (2 ^ i) i 0 false

/-- A write of SYN_CALREQ (R212, R213). -/
def State.synRequest (s : State) (v : Nat) : State :=
  let s := (List.range 4).foldl (fun s i => if bitOf v i then s.synItem i else s) s
  if bitOf v 8 then { s with tx := { s.tx with pend := s.tx.pend.map fun p => { p with forced := true } } } else s

def execSynCalibrationRequest (t : Elapsed) (who : Who) (value : Nat) (s : State) : Host.Outcome State Fault Refusal :=
  .next ((s.advance t).pageWrite who Hdr.syn fun s => s.synRequest (setBitsOf value 8 1 0))

def execSynCalibrationForce (t : Elapsed) (who : Who) (value : Nat) (s : State) : Host.Outcome State Fault Refusal :=
  .next ((s.advance t).pageWrite who Hdr.syn fun s => s.synRequest (setBitsOf value 8 1 1))

/-- End of committed uses: a forced slice never cuts them (R213). -/
def State.committedEnd (s : State) : Nat :=
  let now := s.clk.edges
  let m := s.tx.list.foldl (fun m x => if x.isCommitted now then max m x.last else m) now
  match s.tx.run with
  | some r => max m r.due
  | none => m

/-- A forced block of `us` microseconds from the end of committed uses: every uncommitted transmission is placed
again with it as a use (R213, R225, R131). A hop that has begun for an uncommitted transmission ends. -/
def State.forceBlock (s : State) (us : List Nat) (capture : Bool) : State :=
  let start := s.tx.blocks.foldl (fun m b => max m b.2.1) s.committedEnd
  let stop := us.foldl (fun e d => e + s.usSteps d) start
  let now := s.clk.edges
  let back := fun (x : Tx) => if x.begun && !x.isCommitted now then { x with stage := .queued, placed := false } else x
  let s := { s with tx := { s.tx with blocks := s.tx.blocks ++ [(start, stop, capture)], list := s.tx.list.map back } }
  s.replaceAll .forced

/-- The decision of forced slices of SYN, or of the capture, that are pending and not yet decided (R213, R225). -/
def State.forcedDecision (s : State) (capture : Bool) : State :=
  if s.tx.blocks.any (·.2.2 == capture) then s
  else if capture then
    let n := (s.cap.pend.flatMap fun p => List.replicate p.2 p.1).map fun i => capSliceUs i
    if s.cap.forced && !n.isEmpty then s.forceBlock n true else s
  else
    let ps := s.tx.pend.filter (·.forced)
    if ps.isEmpty then s else s.forceBlock (ps.map fun p => sliceUs p.kind) false
where
  /-- Slice lengths of the capture's items (Table CAP-4). -/
  capSliceUs (i : Nat) : Nat :=
    match i with
    | 0 => 1000
    | 3 => 3000
    | 4 => 4000
    | 5 => 2500
    | _ => 2000

def execForcedSliceDecision (t : Elapsed) (capture : Bool) (s : State) : Host.Outcome State Fault Refusal :=
  .next ((s.advance t).forcedDecision capture)

/-- A transmission is due to begin within 8 ms or is under way (R130, R212). -/
def State.txNear (s : State) : Bool :=
  s.tx.list.any fun x => x.placed && x.stage != .await && decide (x.first ≤ s.clk.edges + s.usSteps 8000) &&
    decide (s.clk.edges ≤ x.last)

/-- A QUIET occurrence is under way whose rest covers `n` steps (R130, R212). -/
def State.quietCovers (s : State) (n : Nat) : Bool :=
  let now := s.alignedStamp
  s.occurrencesRun && s.slots.any fun p => p.2.kind == 3 && match s.startBefore p.2 (now + 1) with
    | some x => decide (now + n ≤ x + p.2.len)
    | none => false

/-- The slice SYN runs next, and the rest of the set: forced ones first. -/
def State.nextSlice (s : State) : Option (SynSlice × List SynSlice) :=
  match s.tx.pend.find? (·.forced) with
  | some p => some (p, s.tx.pend.erase p)
  | none => match s.tx.pend with
    | p :: l => some (p, l)
    | [] => none

/-- May the slice start now (R212, R213)? -/
def State.sliceMayStart (s : State) (p : SynSlice) : Bool :=
  let now := s.clk.edges
  if p.forced then s.tx.blocks.any fun b => !b.2.2 && decide (b.1 ≤ now)
  else
    let wait := s.rd R.SYN_CALCTL_WAIT
    (wait == 0 || decide (max p.since s.tx.sliceAt + 65536 * wait ≤ now) || s.quietCovers (s.usSteps (sliceUs p.kind)))
      && !s.txNear

/-- A transmit calibration slice starts (R212, R213). -/
def State.synSliceStart (s : State) : State :=
  match s.nextSlice with
  | some (p, rest) =>
    if s.tx.run.isNone && s.accepts Hdr.syn && s.sliceMayStart p then
      let s := if p.kind = 3 then s.markBlank else s
      { s with tx := { s.tx with pend := rest, tuned := false,
                                 run := some { item := p.items, kind := p.kind, entry := p.entry, next := p.next,
                                               forced := p.forced, start := s.clk.edges,
                                               due := s.clk.edges + s.usSteps (sliceUs p.kind) } } }
    else s
  | none => s

def execSynCalSliceStart (t : Elapsed) (s : State) : Host.Outcome State Fault Refusal :=
  .next ((s.advance t).synSliceStart)

/-- A record after a successful full calibration: VCOBAND, CAPCODE, TPGAIN and MATCH as measured (bits [53:22] of
`meas`), TEMP, VALID (Table SYN-1, Table CAP-5). -/
def State.fullRecord (s : State) (old meas : Nat) : Nat :=
  let r := setBitsOf old 22 32 (bitsOf meas 22 32)
  setBitsOf (setBitsOf r 54 8 (unsigned 8 s.dieTemp)) 63 1 1

/-- TPGAIN of every VALID record is rescaled by the measurement, to values the part finds (R210). -/
def State.rescaleGains (s : State) : State :=
  (List.range 256).foldl (fun s i =>
    if s.calValid i then
      let (v, s) := s.free
      s.setCalRec i (setBitsOf (s.calRec i) 28 12 v)
    else s) s

/-- The results of a slice that ended well. `meas` is what it measured: bits [53:22] of a record, or the power
correction in 0.1 dB. -/
def State.sliceResult (s : State) (r : SliceRun) (meas : Nat) : State :=
  match r.kind with
  | 0 =>
    if r.next then
      let v := s.fullRecord (s.calRec r.entry) meas
      { s with tab := { s.tab with calNext := s.tab.calNext.filter (·.1 != r.entry) ++ [(r.entry, v)] } }
    else s.setCalRec r.entry (s.fullRecord (s.calRec r.entry) meas)
  | 2 => s.rescaleGains
  | _ => ((s.wr R.SYN_PWRCHK_TEMP (unsigned 8 s.dieTemp)).put R.SYN_PWRCHK_VALID true).wr R.SYN_PWRCHK_CORR meas

/-- A failed full calibration keeps the values of its record and leaves VALID clear (R214); a changed entry has no
record then. -/
def State.sliceFailed (s : State) (r : SliceRun) : State :=
  if r.kind = 0 ∧ r.next = false then s.setCalBit r.entry 63 false else s

/-- The item a slice's failure is shown on: full calibrations that no item asked for show on STALE. -/
def SliceRun.failBits (r : SliceRun) : Nat := if r.item = 0 then 1 else r.item

/-- SYN_CALSTAT after a slice: a failure shows at once; with its last slice an item is DONE, and FAIL tells whether a
slice of this run failed. -/
def State.synItemsDone (s : State) (r : SliceRun) (good : Bool) : State :=
  let failed := s.tx.sliceFail ||| if good then 0 else r.item
  let done := r.item - (r.item &&& s.synItems)
  let s := { s with tx := { s.tx with sliceFail := failed - (failed &&& done) } }
  let shown := s.rd R.SYN_CALSTAT_FAIL ||| if good then 0 else r.failBits
  let s := s.wr R.SYN_CALSTAT_FAIL (shown - (shown &&& (done - (done &&& failed))))
  s.wr R.SYN_CALSTAT_DONE (s.rd R.SYN_CALSTAT_DONE ||| done)

/-- A transmit calibration slice ends (R209, R214). PWR fails beyond ±3 dB. -/
def State.synSliceEnd (s : State) (ok : Bool) (meas : Nat) : State :=
  match s.tx.run with
  | none => s
  | some r =>
    if s.clk.edges < r.due then s
    else
      let now := s.clk.edges
      -- the two-point gain is measured without blanking (Table SYN-2)
      let s := if r.kind = 2 then s else s.markBlank
      let good := ok && (r.kind != 3 || decide ((signed 16 meas).natAbs ≤ 30))
      let s := { s with tx := { s.tx with run := none, sliceAt := now, usedAt := now, free := max s.tx.free now } }
      let s := s.progress Hdr.syn
      let s := if good then s.sliceResult r meas
        else
          let s := s.sliceFailed r
          ((List.range 4).foldl (fun s i => if bitOf r.failBits i then s.unitFault Hdr.syn 6 i else s) s).bump
            R.SYN_COUNTS_CALFAIL
      let s := s.synItemsDone r good
      if s.tx.pend.any (·.forced) then s
      else { s with tx := { s.tx with blocks := s.tx.blocks.filter (·.2.2) } }

def execSynCalSliceEnd (t : Elapsed) (ok : Bool) (meas : Nat) (s : State) : Host.Outcome State Fault Refusal :=
  .next ((s.advance t).synSliceEnd ok meas)

/-- Clears a bit of one calibration record or of all (R134, R214). -/
def State.calClear (s : State) (bit v : Nat) : State :=
  if bitOf v 31 then (List.range 256).foldl (fun s i => s.setCalBit i bit false) s
  else s.setCalBit (bitsOf v 0 8) bit false

def execSynCalinv (t : Elapsed) (who : Who) (value : Nat) (s : State) : Host.Outcome State Fault Refusal :=
  .next ((s.advance t).pageWrite who Hdr.syn fun s => s.calClear 63 value)

/-- The park delay after the last use has passed: the loop turns off (R208). -/
def State.synthPark (s : State) : State :=
  if s.tx.tuned && !s.tx.list.any (·.begun) && decide (s.tx.usedAt + s.rd R.SYN_PARK_STEPS ≤ s.clk.edges) then
    { s with tx := { s.tx with tuned := false } }
  else s

def execSynthPark (t : Elapsed) (s : State) : Host.Outcome State Fault Refusal := .next ((s.advance t).synthPark)

/-! ### Hop, edges and chips -/

/-- The transmission of the list for which `due` holds that comes first by `key`. -/
def State.dueTx (s : State) (due : Tx → Bool) (key : Tx → Nat) : Option Tx :=
  (s.tx.list.filter due).foldl (fun r x => match r with
    | some y => if key x < key y then some x else some y
    | none => some x) none

/-- Rule its entry names, in the transmission's generation. -/
def State.txRule (s : State) (x : Tx) : Nat := (s.chan x.gen x.entry).subband

/-- Stage of the descriptor a transmission serves: its first ramp-up edge is its commit point (Table UNT-5). -/
def State.txWorkStage (s : State) (x : Tx) (st : Stage) : State :=
  match x.kind with
  | .frame ring idx => s.updWork ring idx fun w => if w.stage == .committed then w else { w with stage := st }
  | _ => s

/-- A placed transmission's hop begins and the ledger decides it (R223, R277). While TXU drains it waits (R41). -/
def State.hopStart (s : State) (x : Tx) : State :=
  let units := s.txUnits x
  if !s.txuOpen then s.finishTx x St.notRun
  else if s.flag (R.UCTL_DRAIN Hdr.txu) || (s.unit Hdr.txu).draining || (s.unit Hdr.txu).lapsed then
    s.unplace fun y => y.id == x.id
  else if x.kind != .gasp && !x.charged && !s.ledgerAllows (s.txRule x) x.entry units false then
    (s.bump R.TTB_COUNTS_BUDGET).finishTx x St.budget
  else
    let s := s.abandonSlice
    let s := if x.charged then s else s.ledgerCharge (s.txRule x) x.entry units false
    let s := s.txWorkStage x .started
    (s.updTx x.id fun x => { x with stage := .hopping, charged := true }).progress Hdr.txu

def execTxHopStart (t : Elapsed) (s : State) : Host.Outcome State Fault Refusal :=
  let s := s.advance t
  match s.dueTx (fun x => x.stage == .queued && x.placed && decide (x.hop ≤ s.clk.edges)) (·.hop) with
  | some x => .next (s.hopStart x)
  | none => .next s

/-- Gives back what an acknowledgement that is not sent was charged (R226). -/
def State.refundAck (s : State) (x : Tx) : State :=
  let i := s.txRule x
  let units := s.txUnits x
  let u := s.ruleUse i
  let cut := fun (l : List (Nat × Nat)) => match l with
    | (f, a) :: rest => if units ≤ a then (f, a - units) :: rest
                        else match rest with
                          | (f', a') :: rest' => (f, a) :: (f', a' - units) :: rest'
                          | [] => [(f, a)]
    | [] => []
  let s := s.setRuleUse i { u with buckets := cut u.buckets }
  { s with ttb := { s.ttb with dwell := sput (fun _ => 0) s.ttb.dwell x.entry (s.dwellUse x.entry - units) } }

/-- Lock is missing at the earliest edge: nothing is driven (R227). -/
def State.noLock (s : State) (x : Tx) : State :=
  let s := (s.setCalBit x.entry 63 false).joinCal x.entry false
  let s := s.bump R.SYN_COUNTS_NOLOCK
  let s := { s with tx := { s.tx with free := max s.tx.free s.clk.edges, tuned := false } }
  if x.kind == .ack then (s.refundAck x).dropTx x.id else s.finishTx x St.noLock

/-- The earliest edge: with lock, the pins begin; a first-use calibration has written its record (R215, R227). -/
def State.firstEdge (s : State) (x : Tx) (lock : Bool) (meas : Nat) : State :=
  if !lock then s.noLock x
  else
    let s := if x.cal then s.setCalRec x.entry (s.fullRecord (s.calRec x.entry) meas) else s
    let s := { s with tx := { s.tx with entry := x.entry, tuned := true, usedAt := x.last } }
    let s := s.txWorkStage x .committed
    (s.markBlank.updTx x.id fun x => { x with stage := .ramping }).progress Hdr.syn

def execTxFirstEdge (t : Elapsed) (lock : Bool) (meas : Nat) (s : State) : Host.Outcome State Fault Refusal :=
  let s := s.advance t
  match s.dueTx (fun x => x.stage == .hopping && decide (x.first ≤ s.clk.edges)) (·.first) with
  | some x => .next (s.firstEdge x lock meas)
  | none => .next s

/-- The first chip leaves the antenna: counters, its stamp, and the inspector's frame log (R221, Table INS-2). -/
def State.firstChip (s : State) (x : Tx) : State :=
  let st := s.alignedStamp
  let s := s.bump R.TXU_FRAMES_COUNT
  let s := (s.wr R.TXU_LASTSOF_CYCLE (stampCycle st % 65536)).wr R.TXU_LASTSOF_STEP (stampStep st)
  let s := if x.kind == .ack then s.bump R.TXU_ACKS_SENT else s
  let gain := bitsOf ((s.bank x.gen tabSettings).power.num (4 * x.power) 4) 8 8
  let s := s.tracePacket 3 0x02 ([BitVec.ofNat 8 x.entry, BitVec.ofNat 8 x.order, BitVec.ofNat 8 x.power,
    BitVec.ofNat 8 gain] ++ leBytes 7 st)
  let s := match x.kind with
    | .frame _ _ => s.putAckst x.gen x.ctx x.pset (bitsOf (s.ctxGet x.gen x.ctx 44 1) 2 4 + 1) x.ar false
    | _ => s
  (s.updTx x.id fun x => { x with stage := .air, chipStep := stampStep st }).progress Hdr.txu

def State.chipDue (s : State) (ack : Bool) : Option Tx :=
  s.dueTx (fun x => x.stage == .ramping && decide (x.start ≤ s.clk.edges) && (x.kind == .ack) == ack) (·.start)

def execTxFirstChip (t : Elapsed) (s : State) : Host.Outcome State Fault Refusal :=
  let s := s.advance t
  match s.chipDue false with
  | some x => .next (s.firstChip x)
  | none => .next s

def execAckTransmit (t : Elapsed) (s : State) : Host.Outcome State Fault Refusal :=
  let s := s.advance t
  match s.chipDue true with
  | some x => .next (s.firstChip x)
  | none => .next s

/-- An expectation joins the hunter; a ninth replaces the oldest (R174). -/
def State.addExpect (s : State) (e : Expect) : State :=
  if s.tx.expects.length < 8 then { s with tx := { s.tx with expects := s.tx.expects ++ [e] } }
  else ({ s with tx := { s.tx with expects := s.tx.expects.drop 1 ++ [e] } }).bump R.HNT_ACK_ACKLOST

/-- The last payload chip is sent: a frame without AR completes `DONE`; one with AR opens its expectation
(R174, R244). -/
def State.lastChip (s : State) (x : Tx) : State :=
  let s := (s.updTx x.id fun x => { x with stage := .tail }).progress Hdr.txu
  match x.kind with
  | .bell _ _ => s.bump R.TTB_BELLSENT_COUNT
  | .frame ring idx =>
    if x.ar then
      s.addExpect { tx := x.id, entry := x.entry, order := x.order, mark := x.mark, from_ := s.clk.edges,
                    till := s.clk.edges + s.expectSteps (s.chan x.gen x.entry) x.order, gen := x.gen }
    else match s.findWork ring idx with
      | some w => (s.decideGen w St.done x.ctr x.gen).progress Hdr.lnk
      | none => s
  | _ => s

def execTxLastChip (t : Elapsed) (s : State) : Host.Outcome State Fault Refusal :=
  let s := s.advance t
  match s.dueTx (fun x => x.stage == .air && decide (x.chipEnd ≤ s.clk.edges)) (·.chipEnd) with
  | some x => .next (s.lastChip x)
  | none => .next s

/-- The last pin edge passes: the synthesiser stays tuned, the capture is released (R208, R230). A frame that
waits for its acknowledgement stays; an armed gasp stays until LAST_GASP_SENT. -/
def State.lastEdge (s : State) (x : Tx) : State :=
  let now := s.clk.edges
  let s := { s with tx := { s.tx with free := max s.tx.free x.last, usedAt := now } }
  if x.ar || x.kind == .gasp then s.updTx x.id fun x => { x with stage := .await } else s.dropTx x.id

/-- A transmission that drives pins or is on air ends at once (R227, R228): the later uses are placed again only as
their own rules say. -/
def State.cutTx (s : State) (x : Tx) (status : Nat) : State :=
  let s := { s with tx := { s.tx with free := max s.tx.free s.clk.edges, usedAt := s.clk.edges,
                                      expects := s.tx.expects.filter (·.tx != x.id) } }
  match x.kind with
  | .bell _ _ => if x.stage == .air then s.dropTx x.id else s.finishTx x status
  | _ => s.finishTx x status

/-- Lock is lost between the earliest edge and the last chip (R227, R228). -/
def State.lockLoss (s : State) (x : Tx) : State :=
  let s := (s.setCalBit x.entry 63 false).bump R.SYN_COUNTS_UNLOCK
  ({ s with tx := { s.tx with tuned := false } }).cutTx x St.noLock

/-! ### Acknowledgements (R226) -/

/-- What the link engine asks the transmitter to send. -/
structure AckOrder where
  gen : Nat
  entry : Nat
  order : Nat
  mark : Nat
  power : Nat
  /-- edge of the answered frame's last payload chip -/
  endEdge : Nat
  pay : List Byte
  deriving DecidableEq, Repr

/-- The acknowledgement as a use of the transmitter: 4 turns, robust, rate 1/2, 2 ms after the last chip (R164,
R221). -/
def State.ackTx (s : State) (o : AckOrder) : Tx :=
  let c := s.chan o.gen o.entry
  let ep := edgePlan (s.schedules o.gen) (s.rd R.TXU_ACKCFG_PASCHED) (s.flag R.TXU_ACKCFG_EXTPA)
  let air := frameUnits c 4 o.pay.length 2 0 o.order true
  let start := o.endEdge + s.usSteps 2000
  { id := s.tx.nextId, kind := .ack, entry := o.entry, order := o.order, rate := 2, robust := true,
    power := min o.power c.maxpwr, mark := o.mark, gen := o.gen, pay := o.pay, turns := 4,
    stamp := s.stampOfEdge start, decided := s.clk.edges, stage := .hopping, placed := true, start := start,
    hop := s.clk.edges, first := start - s.usSteps ep.on, commit := start - s.usSteps ep.commit,
    chipEnd := start + s.stepsOf3 (2000 * air), last := start + s.stepsOf3 (2000 * air + 3000 * ep.off) }

/-- Decides an acknowledgement: sent, or suppressed with its counter (R226, R231, R262, R277). Answers whether it
is sent. -/
def State.ackDecide (s : State) (o : AckOrder) : State × Bool :=
  let x := s.ackTx o
  let now := s.clk.edges
  let meets := fun (a b : Nat) => decide (a < x.last ∧ now < b)
  if !(s.chan o.gen o.entry).valid || !s.holdsGen o.gen || !s.txuOpen then
    (s.bump R.TXU_ACKS_CLASH, false)
  else if s.tx.list.any (fun y => y.isCommitted now && meets y.hop y.last) || s.tx.list.any (fun y =>
      y.kind == .gasp && y.placed && y.stage != .await && meets y.hop y.last) then (s.bump R.TXU_ACKS_CLASH, false)
  else if s.tx.blocks.any (fun b => meets b.1 b.2.1) || s.tx.run.any (fun r => r.forced && meets r.start r.due) then
    (s.bump R.TXU_ACKS_SUPCAL, false)
  else if (s.quietEnd (s.stampOfEdge x.first) (s.stampOfEdge x.last)).isSome then
    (s.bump R.TTB_COUNTS_QUIETACK, false)
  else if !s.ledgerAllows (s.txRule x) o.entry (s.txUnits x) true then (s.bump R.TTB_COUNTS_ACKSUP, false)
  else
    let s := s.ledgerCharge (s.txRule x) o.entry (s.txUnits x) true
    let s := s.abandonSlice
    let hit := fun (y : Tx) => !y.isCommitted now && y.placed && y.stage != .await && meets y.hop y.last
    let list := s.tx.list.map fun y => if hit y then { y with stage := .queued, placed := false } else y
    let s := { s with tx := { s.tx with list := list ++ [{ x with charged := true }], nextId := s.tx.nextId + 1 } }
    (s.placeAll .slip fun _ => true, true)

/-! ### What the registers show -/

/-- Levels of PAEN, PABYP, LNAEN and TRSW in the layout of TXU_PINS (R218). -/
def State.txPins (s : State) : Nat :=
  let now := s.clk.edges
  s.tx.list.foldl (fun v x =>
    if x.stage == .ramping || x.stage == .air || x.stage == .tail then
      let (ext, k) := s.txMode x
      let m := s.schedules x.gen
      let on := fun (p : Nat) => decide (x.start ≤ now + s.usSteps (schedPin m k p).1 ∧
        now < x.chipEnd + s.usSteps (schedPin m k p).2)
      b2n (ext && on 0) + 2 * b2n (!ext && on 1) + 4 * b2n (!on 2) + 8 * b2n (on 3)
    else v) 4

/-- TXU_STATUS (Table of the chapter): queue, entry, expectation hold and phase. -/
def State.txuStatus (s : State) : Nat :=
  let now := s.clk.edges
  let q := (s.tx.list.filter fun x => x.kind != .ack && !x.isCommitted now && x.stage != .await).length
  let busy := s.tx.list.find? (·.begun)
  let phase := match busy with
    | some x => if x.kind == .ack then 6 else match x.stage with
        | .hopping => 2
        | .ramping => 3
        | .air => 4
        | _ => 5
    | none => if s.tx.list.any (fun x => x.stage == .queued) then 1 else 0
  min q 255 * 65536 + (busy.map (·.entry)).getD 0 * 256 + 8 * b2n (s.tx.list.any (fun x => x.stage == .queued && x.held))
    + phase

/-- SYN_STATUS. -/
def State.synStatus (s : State) : Nat :=
  let lock := s.tx.tuned
  s.tx.entry % 256 * 65536 + 16 * b2n (s.tx.pend.any (·.forced)) + 8 * b2n (!s.tx.pend.isEmpty || s.tx.run.isSome) +
    4 * s.rd R.SYN_STATUS_READY + 2 * b2n s.tx.tuned + b2n lock

/-- PEND and SLICES of SYN_CALSTAT. -/
def State.synPend (s : State) : Nat :=
  s.synItems % 16 * 4096 + (s.tx.pend.length + b2n s.tx.run.isSome) % 512

/-- SYN_FREQ: the tuned entry's carrier, 0 while parked. -/
def State.synFreq (s : State) : Nat := if s.tx.tuned then (s.chan s.gen.active s.tx.entry).freq else 0

/-- TXU and SYN have work that keeps the capture blanked (R230, Tables SYN-1, SYN-2). -/
def State.txBlanks (s : State) : Bool :=
  let now := s.clk.edges
  s.tx.list.any (fun x => x.stage == .ramping || x.stage == .air || x.stage == .tail ||
    (x.stage == .hopping && x.cal && decide (x.hop + s.usSteps 360 ≤ now ∧ now < x.hop + s.usSteps 400))) ||
  s.tx.run.any fun r => r.kind == 3 || (r.kind == 0 && decide (r.due ≤ now + s.usSteps 40))

/-- The capture delivers blanked samples (R120). -/
def State.blankNow (s : State) : Bool :=
  s.txBlanks || s.cap.run.isSome || !s.domOn Dom.rxa || (s.unit Hdr.cap).lapsed || decide (s.clk.ns < s.cap.settledAt)

end Sys2Proof.Machine
end

