-- ==== Sys2Proof/Machine/Tempo.lean ====
section
/-!
DEFINITION. Tempo: mains crossings and voltage-quality events (R55-R58), the tempo states and lock stages
(R64-R72), learning of the phase offset and bell samples (R73-R77), corrections, slews and jumps (R78-R79), tempo
alarms (R82-R83). What a crossing measures is an operand of its command.
-/

namespace Sys2Proof.Machine

def State.setTmp (s : State) (f : TempoState → TempoState) : State := { s with tmp := f s.tmp }

/-! ### Losing and regaining usable tempo (R81, R83, R229, R259, R269) -/

/-- Re-entry begins (R269): the wake event, REENTRY, a record of kind 0x06; windows close. -/
def State.enterReentry (s : State) (w : Nat) : State :=
  if !s.header.sleeper || !s.header.valid || s.flag R.TTB_STATUS_REENTRY || !s.domOn Dom.sys then s
  else
    let cycle := stampCycle s.recStamp.1
    let s := s.put R.TTB_STATUS_REENTRY true
    let s := { s with ttb := { s.ttb with windows := [], reentryAt := cycle } }
    (s.emit 0x29).ttbRecord 0x06 0 (min w (2 ^ 32 - 1))

/-- A commit that waits for an aligned boundary completes `TEMPO_INVALID` (R81). -/
def State.commitNoTempo (s : State) : State :=
  match s.gen.commit with
  | some c =>
    if c.switched || c.boundary.isNone then s
    else
      let s := { s with gen := { s.gen with commit := none, pending := s.gen.active } }
      if c.fromLead then s
      else match s.findWork 0 c.idx with
      | some w => s.decide_ w St.tempoInvalid
      | none => s
  | none => s

/-- VALID or ALIGNED is lost: waiting work completes `TEMPO_INVALID` by ring and submission order, timed
transmissions not committed do, occurrences end, a sleeper enters re-entry. -/
def State.tempoUnusable (s : State) : State :=
  let s := s.commitNoTempo
  let s := (List.range 16).foldl (fun s n =>
    (s.ring.work.filter fun w => w.ring == n && w.stage == .timed).foldl (fun s w => s.decide_ w St.tempoInvalid) s) s
  let now := s.clk.edges
  let s := (s.tx.list.filter fun x => x.slip.isSome && !x.isCommitted now && x.stage != .await).foldl
    (fun s x => s.finishTx x St.tempoInvalid) s
  let s := { s with ttb := { s.ttb with occ := [], windows := [] } }
  s.enterReentry (s.rd R.TTB_WIDTH_W)

/-- The alarm register fields after a firing (R82). -/
def State.tempoAlarmFired (s : State) (n : Nat) (skipped : Bool) : State :=
  match s.tmp.armed.find? (·.1 == n) with
  | none => s
  | some (_, cmp, per) =>
    let s := (s.put (R.TMP_ALM_C_FIRED n) true)
    let s := if skipped then s.put (R.TMP_ALM_C_SKIPPED n) true else s
    let rest := s.tmp.armed.filter (·.1 != n)
    let behind := (stampDiff s.alignedStamp cmp).toNat
    let k := if per = 0 then 0 else behind / per + 1
    let missed := decide (1 < k)
    let s := if per = 0 then (s.setTmp fun r => { r with armed := rest }).put (R.TMP_ALM_C_EN n) false
      else s.setTmp fun r => { r with armed := rest ++ [(n, (cmp + k * per) % stampMod, per)] }
    let s := if missed then s.put (R.TMP_ALM_C_MISSED n) true else s
    let s := s.emit (0x01 + n)
    if s.flag (R.TMP_ALM_C_NOTE n) then s.tempoRecord 0x14 (2 * b2n skipped + 8 * b2n missed) n 0 0 0 else s

/-- Aligned tempo has reached the stamp (R80). -/
def State.reached (s : State) (x : Nat) : Bool := decide (0 ≤ stampDiff s.alignedStamp x)

/-- Every armed alarm whose stamp is passed fires at once with SKIPPED (R79, R83). -/
def State.alarmsSkipped (s : State) : State :=
  (List.range 16).foldl (fun s n =>
    match s.tmp.armed.find? (·.1 == n) with
    | some (_, cmp, _) => if s.reached cmp then s.tempoAlarmFired n true else s
    | none => s) s

/-- VALID and ALIGNED are both set again. -/
def State.tempoBack (s : State) : State :=
  ({ s with ttb := { s.ttb with skipTo := s.alignedStamp } }).alarmsSkipped

/-- Sets ALIGNED; on its rise with VALID set tempo is usable again (R64). -/
def State.setAligned (s : State) (b : Bool) : State :=
  let was := s.tempoUsable
  let s := s.put R.TMP_STATUS_ALIGNED b
  if was && !s.tempoUsable then s.tempoUnusable else if !was && s.tempoUsable then s.tempoBack else s

/-! ### States (R64-R68) -/

def State.isRoot (s : State) : Bool := s.flag R.TMP_CFG_ROOT

/-- U in 2^-16 steps. -/
def State.uncert16 (s : State) : Nat := 65536 * s.rd R.TMP_UNCERT_U + s.tmp.uFrac

/-- Sets U in 2^-16 steps, saturating. -/
def State.setUncert (s : State) (u16 : Nat) : State :=
  (s.wr R.TMP_UNCERT_U (min (u16 / 65536) (2 ^ 32 - 1))).setTmp fun r => { r with uFrac := u16 % 65536 }

/-- The phase offset in sixteenths of a step (R63). -/
def State.offset16 (s : State) : Int := 16 * signed 16 (s.rd R.TMP_OFFSET_STEPS) + s.rd R.TMP_OFFSET_FRAC

def State.setOffset16 (s : State) (x : Int) : State :=
  (s.wr R.TMP_OFFSET_STEPS (unsigned 16 (x / 16))).wr R.TMP_OFFSET_FRAC (x % 16).toNat

/-- The word TMP_OFFSET, as records carry it. -/
def State.offsetWord (s : State) : Nat := (s.word 0x40003054).toNat

/-- What a state entered does to VALID, PROVISIONAL, U, the offset and the lock stages (R64, R65, R70, R76). -/
def State.tempoFlags (s : State) (old new : Nat) : State :=
  let s := (s.wr R.TMP_STATUS_STATE new).put R.TMP_STATUS_VALID (new == 2 || new == 3)
  let s := if new = 0 ∨ new = 1 ∨ new = 4 then
      ((s.put R.TMP_STATUS_ALIGNED false).put R.TMP_OFFSET_LEARNED false).setTmp fun r =>
        { r with phase := 0, samples := [], outliers := [] }
    else if s.isRoot then s.put R.TMP_STATUS_ALIGNED true else s
  let s := if (new == 0 || new == 1 || (new == 3 && !s.isRoot) || (new == 4 && s.isRoot)) then
      s.put R.TMP_STATUS_PROVISIONAL true else s
  match new with
  | 2 => ((s.setUncert (32 * 65536)).wr R.TMP_STATUS_LSTAGE 0).put R.TMP_STATUS_ACQ false
  | 3 => (if old = 2 then s.setUncert (32 * 65536) else s).setTmp fun r => { r with guardPassed := false }
  | 1 => s
  | _ => s.setUncert ((2 ^ 32 - 1) * 65536)

/-- Tempo enters a state: 0 ABSENT, 1 ACQUIRING, 2 LOCKED, 3 FLYWHEEL, 4 INVALID (Table TMP-1), with the record,
the trace, the events, envelope condition 1 and what depends on usable tempo. -/
def State.tempoGo (s : State) (new : Nat) : State :=
  let old := s.rd R.TMP_STATUS_STATE
  if old = new then s
  else
    let usable := s.tempoUsable
    let valid := s.tempoValid
    let s := s.tempoFlags old new
    let s := s.tempoRecord 0x10 0 (old + 256 * new) 0 0 s.offsetWord
    let s := s.tracePacket 4 0x01 [BitVec.ofNat 8 old, BitVec.ofNat 8 new]
    let s := if valid == s.tempoValid then s
      else if valid then
        ({ s with ttb := { s.ttb with bellSince := false } }.emit 0x31).envBreak 0x01 1 Hdr.tmp
      else (s.emit 0x30).envRestore 0x01 1 Hdr.tmp
    let s := if new = 2 then { s with bkp := { s.bkp with trimAt := some (s.bkNow, s.clk.edges) } }
      else { s with bkp := { s.bkp with trimAt := none } }
    if usable && !s.tempoUsable then s.tempoUnusable else if !usable && s.tempoUsable then s.tempoBack else s

/-- TMP_RATE from a frequency in mHz, in units of 2^-24 Hz. -/
def rateOfMilli (mhz : Nat) : Nat :=
  mhz * 2 ^ 24 / 1000 + b2n (decide (mhz * 2 ^ 24 % 1000 ≠ 0) && Config.roundUp (mhz * 2 ^ 24) 1000)

/-- The nominal rate (TMP_CFG.NOM60). -/
def State.nominalRate (s : State) : Nat := if s.flag R.TMP_CFG_NOM60 then 0x3C000000 else 0x32000000

/-- Tempo loses the lock: FLYWHEEL at the last good phase and rate (R68). -/
def State.loseLock (s : State) : State := if s.rd R.TMP_STATUS_STATE = 2 then s.tempoGo 3 else s

/-- The lock stages end, in the foreground or in the background (R66). -/
def State.stopStages (s : State) : State :=
  (s.wr R.TMP_STATUS_LSTAGE 0).put R.TMP_STATUS_ACQ false

/-! ### Voltage quality (R58) -/

/-- Has a cycle crossed the threshold of a kind, and is it back past it by the hysteresis (Table MSN-1)? Rms in
0.1 V, THD in 0.1 %. -/
def State.vqLimits (s : State) (kind rms thd mhz run : Nat) : Bool × Bool :=
  let nom := s.rd R.MSN_CTL_NOMV
  let h := s.rd R.MSN_THR_HYST
  match kind with
  | 1 => (decide (10 * rms < nom * s.rd R.MSN_THR_SAG), decide (nom * (s.rd R.MSN_THR_SAG + h) ≤ 10 * rms))
  | 2 => (decide (nom * s.rd R.MSN_THR_SWELL < 10 * rms), decide (10 * rms ≤ nom * (s.rd R.MSN_THR_SWELL - h)))
  | 3 => (decide (10 * rms < nom * s.rd R.MSN_THR_INTR), decide (nom * (s.rd R.MSN_THR_INTR + h) ≤ 10 * rms))
  | 4 => let out := decide (700 ≤ rms ∧ (mhz < 45000 ∨ 65000 < mhz)); (out, !out)
  | _ => (decide (50 ≤ run), decide (thd ≤ 80))

/-- The quantity whose largest value is a kind's extreme. -/
def vqOwn (kind rms thd mhz : Nat) : Nat :=
  match kind with
  | 1 | 3 => 2 ^ 16 - min rms (2 ^ 16)
  | 2 => rms
  | 4 => if mhz < 45000 then 45000 - mhz else mhz - 65000
  | _ => thd

/-- Posts the record of an event (Table TMP-3). -/
def State.vqPost (s : State) (e : VqEvent) : State :=
  s.postRecord 8 e.kind (recHead e.stamp e.kind 0 e.aligned ++ leBytes 4 e.duration ++ leBytes 2 e.extreme ++
    leBytes 2 (s.rd R.MSN_CTL_NOMV) ++ leBytes 4 e.freqMilli ++ leBytes 8 0) R.TMP_COUNTS_NOTELOST

/-- One measured cycle meets the events of one kind: begins, continues or ends one (R58). -/
def State.vqKind (s : State) (rms thd mhz kind : Nat) : State :=
  let (beyond, back) := s.vqLimits kind rms thd mhz s.tmp.thdRun
  let own := vqOwn kind rms thd mhz
  let others := s.tmp.events.filter (·.kind != kind)
  match s.tmp.events.find? (·.kind == kind) with
  | some e =>
    if back then (s.setTmp fun r => { r with events := others }).vqPost e
    else
      let full := decide (2 ^ 32 - 1 ≤ e.duration)
      let s := if full then s.vqPost e else s
      let e := { e with duration := if full then 1 else e.duration + 1 }
      let e := if e.own < own then { e with own := own, extreme := rms, freqMilli := mhz } else e
      s.setTmp fun r => { r with events := others ++ [e] }
  | none =>
    if !beyond || (kind == 1 && s.tmp.events.any (·.kind == 3)) then s
    else
      let (st, al) := s.recStamp
      let e : VqEvent := { kind := kind, stamp := (st + stampMod - 65536) % stampMod, aligned := al, duration := 1,
                           extreme := rms, freqMilli := mhz, own := own }
      -- an interruption suppresses the sag record of the same interval
      let others := if kind = 3 then others.filter (·.kind != 1) else others
      s.setTmp fun r => { r with events := others ++ [e] }

/-- One measured cycle: interruption first, then the other kinds. -/
def State.vqCycle (s : State) (rms thd mhz : Nat) : State :=
  let s := s.setTmp fun r => { r with thdRun := if 80 < thd then r.thdRun + 1 else 0 }
  [3, 1, 2, 4, 5].foldl (fun s k => s.vqKind rms thd mhz k) s

/-- A cycle without a crossing: events in progress grow longer. -/
def State.vqSilent (s : State) : State :=
  s.setTmp fun r => { r with events := r.events.map fun e => { e with duration := min (e.duration + 1) (2 ^ 32 - 1) } }

/-! ### Crossings and lock stages (R56, R57, R66-R69) -/

/-- MSN_STATUS.PRESENT changes with its event (Table EVR-1). -/
def State.setPresent (s : State) (b : Bool) : State :=
  if s.flag R.MSN_STATUS_PRESENT = b then s
  else (s.put R.MSN_STATUS_PRESENT b).emit (if b then 0x2E else 0x2F)

/-- The local count is set to step 0 of cycle 0 at the coarse crossing (Table TMP-2). -/
def State.coarseCount (s : State) : State :=
  s.setTmp fun r => { r with localBase16 := -(16 * (s.clk.edges : Int)), lastCycle := 0, slewCycle := 0,
                             alignBase16 := -(16 * (s.clk.edges : Int)) - s.offset16, corrections := [],
                             remAlign16 := 0, remLocal16 := 0 }

/-- Nearest move of a count in sixteenths to a multiple of a cycle. -/
def toCycle16 (x : Int) : Int :=
  let c : Int := 65536 * 16
  let p := x % c
  if 2 * p < c then -p else c - p

/-- Fine lock (R69): after FLYWHEEL the local step moves to the mains phase and the offset takes the same move, so
that aligned tempo is continuous; on a root, whose offset is 0, aligned tempo moves with it. -/
def State.fineLock (s : State) : State :=
  if s.rd R.TMP_STATUS_STATE ≠ 3 then s.tempoGo 2
  else
    let m := toCycle16 s.local16
    if s.isRoot then
      let s := s.setTmp fun r => { r with localBase16 := r.localBase16 + m, alignBase16 := r.alignBase16 + m }
      (s.tempoGo 2).replaceAll .jump
    else
      let o := s.offset16 + m
      let c : Int := 65536 * 16
      let k : Int := if o < -(c / 2) then 1 else if c / 2 ≤ o then -1 else 0
      let s := (s.setOffset16 (o + k * c)).put R.TMP_OFFSET_LEARNED false
      let s := s.setTmp fun r => { r with localBase16 := r.localBase16 + m + k * c, phase := 0, samples := [],
                                          outliers := [] }
      s.tempoGo 2

/-- The lock stages at a crossing (Table TMP-2). `phase` is the loop's phase error in ns. -/
def State.lockStage (s : State) (present : Bool) (phase : Int) : State :=
  let st := s.rd R.TMP_STATUS_STATE
  match s.rd R.TMP_STATUS_LSTAGE with
  | 0 =>
    (s.setTmp fun r => { r with stageAt := s.clk.ns, goodCycles := 0 }).wr R.TMP_STATUS_LSTAGE 1
  | 1 =>
    if !present then s
    else
      let s := if st = 0 ∨ st = 4 then s.tempoGo 1 else if st = 3 then s.put R.TMP_STATUS_ACQ true else s
      (s.wr R.TMP_STATUS_LSTAGE 2).setTmp fun r => { r with goodCycles := 0 }
  | 2 =>
    if !present then s.wr R.TMP_STATUS_LSTAGE 1
    else
      let s := if s.tmp.goodCycles = 0 ∧ st = 1 then s.coarseCount else s
      let s := s.setTmp fun r => { r with goodCycles := 1 }
      if phase.natAbs ≤ 200000 then
        (s.wr R.TMP_STATUS_LSTAGE 3).setTmp fun r => { r with goodCycles := 0 }
      else s
  | _ =>
    if !present then s.wr R.TMP_STATUS_LSTAGE 1
    else
      let n := if phase.natAbs ≤ 8000 then s.tmp.goodCycles + 1 else 0
      let s := s.setTmp fun r => { r with goodCycles := n }
      if 32 ≤ n then (s.stopStages).fineLock else s

/-- MSN measures: its domain on, enabled, converter running (R56). -/
def State.senses (s : State) : Bool :=
  s.domOn Dom.msn && s.flag R.MSN_CTL_EN && s.enabled Hdr.msn && !(s.unit Hdr.msn).lapsed

/-- Division rounded to the nearest, halves away from zero. -/
def roundAway (a : Int) (b : Nat) : Int :=
  if 0 ≤ a then (2 * a + b) / (2 * b) else -((2 * (-a) + b) / (2 * b))

/-- Three samples lie within `spread` of their median. -/
def withinMedian (l : List Int) (spread : Nat) : Bool :=
  match l with
  | [a, b, c] =>
    let m := max (min a b) (min (max a b) c)
    l.all fun x => decide ((x - m).natAbs ≤ spread)
  | _ => false

/-- The mean of three samples in sixteenths of a step (R74). -/
def meanOf3 (l : List Int) : Int := roundAway (16 * l.sum) 3

/-- A follower with mains of its own learns, as R74 does, where its crossings fall in the lead's tempo, and steps out
when 8 cycles in a row differ by more than 16 steps (R424). -/
def State.stepCheck (s : State) (present : Bool) : State :=
  if !s.follows || !present || !s.tempoUsable then s
  else
    let x := signed 16 (stampStep s.alignedStamp)
    match s.coh.offset with
    | none =>
      let l := (s.coh.samples ++ [x]).drop (s.coh.samples.length + 1 - 3)
      if withinMedian l (max 4 (s.rd R.TMP_OFFCTL_SPREAD)) then
        s.setCoh fun c => { c with offset := some (meanOf3 l), samples := [], offRun := 0 }
      else s.setCoh fun c => { c with samples := l }
    | some o =>
      let n := if 256 < (signed 20 (unsigned 20 (16 * x - o))).natAbs then s.coh.offRun + 1 else 0
      let s := s.setCoh fun c => { c with offRun := n }
      if 8 ≤ n then (s.wr R.COH_STATUS_STATE 6).cohRecord 0x06 s.cohIndex else s

/-- A positive-going zero crossing (R56-R58, R67, R68). -/
def State.crossing (s : State) (rms thd mhz : Nat) (phase : Int) : State :=
  if !s.senses then s
  else
    let period := match s.tmp.crossedAt with
      | some a => s.clk.ns - a
      | none => 0
    let present := decide (700 ≤ rms ∧ 15380000 ≤ period ∧ period ≤ 22220000)
    let s := s.setTmp fun r => { r with crossedAt := some s.clk.ns, period := period,
                                        freqs := (mhz :: r.freqs).take 256 }
    let s := (s.progress Hdr.msn).setPresent present
    let s := (s.put R.MSN_STATUS_RANGE (decide (mhz < 45000 ∨ 65000 < mhz))).put R.MSN_STATUS_DISTORT
      (decide (80 < thd))
    let cyc := unsigned 16 (s.local16 / (16 * 65536) - 1)
    let s := if present then
        ((((s.wr R.MSN_VRMS_RMS (min rms 65535)).wr R.MSN_VRMS_CYCLE cyc).wr R.MSN_FREQ_MHZ mhz).wr R.MSN_THD_THD
          (min thd 1023))
      else s
    let s := if present && s.tmp.rateFrom != 2 then
        (s.wr R.TMP_RATE_RATE (rateOfMilli mhz)).setTmp fun r => { r with rateFrom := 1 }
      else s
    let s := (s.vqCycle rms thd mhz).stepCheck present
    if s.rd R.TMP_STATUS_STATE = 2 then
      if !present || decide (1000000 < phase.natAbs) then s.loseLock else s
    else if (s.unit Hdr.tmp).lapsed || !s.enabled Hdr.tmp then s
    else
      let s := s.lockStage present phase
      -- mains lost while ACQUIRING
      if s.rd R.TMP_STATUS_STATE = 1 ∧ !present then s.tempoGo 0 else s

def execMainsZeroCrossing (t : Elapsed) (rms thd mhz : Nat) (phase : Int) (s : State) :
    Host.Outcome State Fault Refusal := .next ((s.advance t).crossing rms thd mhz phase)

/-- No crossing within 1.5 periods at the current rate (R68). `rms` is the value over the last cycle. -/
def State.crossingTimeout (s : State) (rms : Nat) : State :=
  match s.tmp.crossedAt with
  | none => s
  | some a =>
    if !s.senses || decide (2 * (s.clk.ns - a) * s.rd R.TMP_RATE_RATE < 3 * 2 ^ 24 * 1000000000) then s
    else
      let s := (s.setTmp fun r => { r with crossedAt := none }).setPresent false
      let s := s.vqCycle rms 0 55000
      let s := if s.rd R.TMP_STATUS_STATE = 1 then s.tempoGo 0 else s
      s.loseLock.stopStages

def execCrossingTimeout (t : Elapsed) (rms : Nat) (s : State) : Host.Outcome State Fault Refusal :=
  .next ((s.advance t).crossingTimeout rms)

/-- 10 s of lock stages without fine lock: a record of the condition that holds, and stage 1 again (R67). -/
def State.lockTimeout (s : State) : State :=
  if s.rd R.TMP_STATUS_LSTAGE ≠ 0 ∧ s.tmp.stageAt + 10000000000 ≤ s.clk.ns then
    let (st, al) := s.recStamp
    let e : VqEvent := { kind := if s.flag R.MSN_STATUS_RANGE then 4 else 5, stamp := st, aligned := al,
                         duration := 0, extreme := s.rd R.MSN_VRMS_RMS, freqMilli := s.rd R.MSN_FREQ_MHZ, own := 0 }
    let s := if s.flag R.MSN_STATUS_RANGE || s.flag R.MSN_STATUS_DISTORT then s.vqPost e else s
    (s.wr R.TMP_STATUS_LSTAGE 1).setTmp fun r => { r with stageAt := s.clk.ns, goodCycles := 0 }
  else s

def execLockTimeout (t : Elapsed) (s : State) : Host.Outcome State Fault Refusal := .next ((s.advance t).lockTimeout)

/-! ### Cycle starts, uncertainty (R70, R71) -/

/-- The current local cycle, not reduced. -/
def State.localCycle (s : State) : Int := s.local16 / (16 * 65536)

/-- U after one cycle of FLYWHEEL: it grows by 65,536 × (PPM + 15)/10^7 steps, kept to 16 fractional bits. -/
def State.growUncert (s : State) : State :=
  if s.rd R.TMP_STATUS_STATE = 3 then
    s.setUncert (s.uncert16 + 65536 * 65536 * (s.rd R.TMP_FLYCFG_PPM + 15) / 10000000)
  else s

/-- Condition 2 holds again at the end of a tempo cycle (Table UNT-8). -/
def State.envCycle (s : State) : State :=
  let s := s.env.broken2.foldl (fun s p => s.envWrite p.1 2 p.2 true) s
  { s with env := { s.env with broken2 := [] } }

/-- Step 0 of a local cycle: envelope condition 2 is restored, U grows, the trace carries TIME (R450), events in
progress grow while no crossing comes. -/
def State.cycleStart (s : State) : State :=
  if !s.domOn Dom.msn || decide (s.localCycle ≤ s.tmp.lastCycle) then s
  else
    let s := s.setTmp fun r => { r with lastCycle := s.localCycle }
    let s := if s.env.broken2.isEmpty then s else s.envCycle
    let s := s.growUncert
    let s := if s.tmp.crossedAt.isNone then s.vqSilent else s
    let s := (s.progress Hdr.tmp).progress Hdr.ttb
    let s := if s.leads then
        s.issue 0xF 0x04 [s.alignedStamp, (s.word 0x40003040).toNat, s.rd R.TMP_RATE_RATE, s.rd R.TMP_UNCERT_U]
      else s
    s.tracePacket 7 0x00 (leBytes 7 s.localStamp ++ [BitVec.ofNat 8 (s.word 0x40003040).toNat])

def execTempoCycleStart (t : Elapsed) (s : State) : Host.Outcome State Fault Refusal :=
  .next ((s.advance t).cycleStart)

/-- U reaches TMP_FLYLIM: the basis is lost (R71). -/
def State.flywheelLimit (s : State) : State :=
  if s.rd R.TMP_STATUS_STATE = 3 ∧ max 1 (s.rd R.TMP_FLYLIM_CYCLES) * 65536 * 65536 ≤ s.uncert16 then
    (s.stopStages).tempoGo 4
  else s

def execFlywheelLimit (t : Elapsed) (s : State) : Host.Outcome State Fault Refusal := .next ((s.advance t).flywheelLimit)

/-- U first passes TMP_GUARD: a record of kind 0x15 (R71). -/
def State.uncertGuard (s : State) : State :=
  if s.rd R.TMP_STATUS_STATE = 3 ∧ !s.tmp.guardPassed ∧ s.rd R.TMP_GUARD_STEPS * 65536 < s.uncert16 then
    (s.setTmp fun r => { r with guardPassed := true }).tempoRecord 0x15 0 0 0 0 (s.rd R.TMP_UNCERT_U)
  else s

def execUncertaintyGuard (t : Elapsed) (s : State) : Host.Outcome State Fault Refusal :=
  .next ((s.advance t).uncertGuard)

/-! ### Samples, bells, corrections (R73-R78) -/

/-- A change of tempo decided now, in sixteenths of a step (R78). -/
def State.correct (s : State) (dAlign dLocal : Int) (confirms : Bool := false) : State :=
  if dAlign = 0 ∧ dLocal = 0 ∧ !confirms then s
  else s.setTmp fun r => { r with
    corrections := r.corrections ++ [{ cause := s.local16 / 16, dAlign := dAlign, dLocal := dLocal,
                                       confirms := confirms }] }

/-- The offset takes a new value; aligned tempo changes by the opposite (R62, R78). -/
def State.newOffset (s : State) (x : Int) : State := (s.setOffset16 x).correct (s.offset16 - x) 0

/-- One offset sample in LOCKED (R74). -/
def State.learn (s : State) (x : Int) : State :=
  let hold := s.flag R.TMP_OFFCTL_HOLD
  let spread := max 4 (s.rd R.TMP_OFFCTL_SPREAD)
  let tol := max 16 (s.rd R.TMP_OFFCTL_JUMPTOL)
  let track := min 7 (s.rd R.TMP_OFFCTL_TRACK)
  if s.tmp.phase = 2 then
    if 16 * tol < (16 * x - s.offset16).natAbs then
      let l := (s.tmp.outliers ++ [x]).drop (s.tmp.outliers.length + 1 - 3)
      let s := (s.bump R.TMP_COUNTS_OUTLIER).setTmp fun r => { r with outliers := l }
      if withinMedian l spread && !hold then
        let s := (s.newOffset (meanOf3 l)).setTmp fun r => { r with outliers := [] }
        s.tempoRecord 0x12 4 0 0 0 s.offsetWord
      else s
    else
      let s := s.setTmp fun r => { r with outliers := [] }
      if hold then s else s.newOffset (s.offset16 + roundAway (16 * x - s.offset16) (2 ^ track))
  else
    let l := (s.tmp.samples ++ [x]).drop (s.tmp.samples.length + 1 - 3)
    let s := s.setTmp fun r => { r with samples := l }
    if hold then s
    else
      let s := if s.tmp.phase = 0 then
          ((s.newOffset (16 * x)).setTmp fun r => { r with phase := 1 }).setAligned true
        else s
      if withinMedian l spread then
        let s := (s.newOffset (meanOf3 l)).setTmp fun r => { r with phase := 2, samples := [], outliers := [] }
        let s := s.put R.TMP_OFFSET_LEARNED true
        s.tempoRecord 0x12 0 0 0 0 s.offsetWord
      else s

/-- U and ALIGNED after a bell or an acknowledgement correction in FLYWHEEL (R70, R75). -/
def State.takenInFlywheel (s : State) : State :=
  ((s.setUncert (32 * 65536)).setTmp fun r => { r with guardPassed := false }).setAligned true

/-- A bell from the tracked source: end of its sync field in local tempo `l`, the parent's aligned stamp `b` of
that point, its rate (R73-R77). A root takes no samples (R76); a cohort follower takes none (R423). -/
def State.takeBell (s : State) (l b rate : Nat) : State :=
  if s.isRoot || !s.domOn Dom.msn || s.cohortFollows then s
  else
    let d := stampDiff l b
    let x := signed 16 (unsigned 16 d)
    let s := s.tracePacket 4 0x02 (leBytes 2 (unsigned 16 x))
    let s := (s.wr R.TMP_RATE_RATE rate).setTmp fun r => { r with rateFrom := 2 }
    let was := s.offset16
    let st := s.rd R.TMP_STATUS_STATE
    let s := if st = 2 then s.learn x
      else
        let s := if st = 3 then s else if st = 1 then (s.tempoGo 3).put R.TMP_STATUS_ACQ true else s.tempoGo 3
        let m := -(16 * x - was)
        (s.correct m m).takenInFlywheel
    let dl : Int := if st = 2 then 0 else -(16 * x - was)
    let c : Int := 65536 * 16
    let w := (16 * d + dl - s.offset16 + c / 2) / c
    if s.flag R.TMP_STATUS_PROVISIONAL ∨ w ≠ 0 then
      let s := (s.correct (-(w * c)) (-(w * c))).put R.TMP_STATUS_PROVISIONAL false
      s.tempoRecord 0x13 0 0 0 (-(w * 65536)) s.offsetWord
    else s

/-- A tempo correction of an acknowledgement (R75, R252). -/
def State.takeAckCorrection (s : State) (c : Int) : State :=
  if s.rd R.TMP_STATUS_STATE = 2 then s.bump R.TMP_COUNTS_ACKIGN
  else if s.rd R.TMP_STATUS_STATE = 3 then (s.correct (16 * c) (16 * c)).takenInFlywheel
  else s

/-- A write of TMP_SETCYC_HI on a root sets the cycle count at the next cycle start that is 4 steps away (R76,
R78). -/
def State.setCycle (s : State) (hi : Nat) : State :=
  if !s.isRoot then s
  else
    let v : Int := (s.rd R.TMP_SETCYC_LO_CYC_L + 2 ^ 32 * (hi % 256) : Nat)
    let at_ : Int := (s.local16 / 16 + 4 + 65535) / 65536
    -- an earlier write that still waits is replaced
    let waits := (s.tmp.corrections.filter (·.confirms)).foldl (fun (n : Int) c => n + c.dLocal) 0
    let d := (v - at_) * 65536 * 16 - waits
    s.correct d d true

def execRootCycleSet (t : Elapsed) (who : Who) (value : Nat) (s : State) : Host.Outcome State Fault Refusal :=
  .next ((s.advance t).pageWrite who Hdr.tmp fun s => s.setCycle value)

/-- Aligned and local tempo move by a part of a correction; what is placed and waits follows (R79, R222, R229). -/
def State.moveTempo (s : State) (da dl : Int) (jump : Bool) : State :=
  let s := s.setTmp fun r => { r with alignBase16 := r.alignBase16 + da, localBase16 := r.localBase16 + dl }
  let c := s.localCycle
  let s := s.setTmp fun r => { r with slewCycle := c, lastCycle := if dl = 0 then r.lastCycle else c }
  let s := if jump then s.tracePacket 4 0x03 (leBytes 8 (unsigned 64 (da / 16))) else s
  let s := if jump && decide (0 < da) && s.tempoUsable then
      ({ s with ttb := { s.ttb with skipTo := s.alignedStamp } }).alarmsSkipped
    else s
  s.replaceAll (if jump then .jump else .slip)

/-- At step 0 of a cycle the changes decided at least 4 steps before it and what is left of a slew are applied:
slewed within TMP_SLEW.LIMIT, else in one jump (R78). -/
def State.applyCorrections (s : State) : State :=
  let start := s.localCycle * 65536
  if decide (s.localCycle ≤ s.tmp.slewCycle) then s
  else
    let due := s.tmp.corrections.filter fun c => decide (c.cause + 4 ≤ start)
    let da := due.foldl (fun n c => n + c.dAlign) s.tmp.remAlign16
    let dl := due.foldl (fun n c => n + c.dLocal) s.tmp.remLocal16
    if due.isEmpty && da == 0 && dl == 0 then s
    else
      let s := if due.any (·.confirms) then s.put R.TMP_STATUS_PROVISIONAL false else s
      let s := s.setTmp fun r => { r with corrections := r.corrections.filter fun c => decide (start < c.cause + 4) }
      let rate : Int := 16 * max 1 (s.rd R.TMP_SLEW_RATE)
      if da.natAbs ≤ 16 * s.rd R.TMP_SLEW_LIMIT then
        let x : Int := if da.natAbs ≤ rate.toNat then da else if 0 ≤ da then rate else -rate
        let y : Int := if x = da then dl else dl * x / da
        (s.setTmp fun r => { r with remAlign16 := da - x, remLocal16 := dl - y }).moveTempo x y false
      else
        let s := (s.setTmp fun r => { r with remAlign16 := 0, remLocal16 := 0 }).moveTempo da dl true
        let d := da / 16
        let lim : Int := 2 ^ 31 - 1
        let s := s.wr R.TMP_LASTJUMP_D (unsigned 32 (if d < -lim then -lim else if lim < d then lim else d))
        s.tempoRecord 0x11 0 0 0 d s.offsetWord

def execTempoCorrectionApply (t : Elapsed) (s : State) : Host.Outcome State Fault Refusal :=
  .next ((s.advance t).applyCorrections)

/-! ### Alarms and reads (R82) -/

/-- A write of TMP_ALMn_CTL: NOTE, the write-one-to-clear bits, and EN, which arms or disarms (R82). -/
def State.tempoAlarmCtl (s : State) (n v : Nat) : State :=
  let s := s.put (R.TMP_ALM_C_NOTE n) (bitOf v 1)
  let s := if bitOf v 8 then s.put (R.TMP_ALM_C_FIRED n) false else s
  let s := if bitOf v 9 then s.put (R.TMP_ALM_C_SKIPPED n) false else s
  let s := if bitOf v 10 then s.put (R.TMP_ALM_C_MISSED n) false else s
  let rest := s.tmp.armed.filter (·.1 != n)
  if !bitOf v 0 then (s.setTmp fun r => { r with armed := rest }).put (R.TMP_ALM_C_EN n) false
  else
    let cmp := s.rd (R.TMP_ALM_0_CMP_L n) + 2 ^ 32 * s.rd (R.TMP_ALM_4_CMP_H n)
    let per := 65536 * s.rd (R.TMP_ALM_8_PER_C n) + s.rd (R.TMP_ALM_8_PER_S n)
    let s := (s.setTmp fun r => { r with armed := rest ++ [(n, cmp, per)] }).put (R.TMP_ALM_C_EN n) true
    if s.tempoUsable && s.reached cmp then s.tempoAlarmFired n true else s

def execTempoAlarmArm (t : Elapsed) (who : Who) (n value : Nat) (s : State) : Host.Outcome State Fault Refusal :=
  .next ((s.advance t).pageWrite who Hdr.tmp fun s => s.tempoAlarmCtl n value)

def execTempoAlarmDisarm (t : Elapsed) (who : Who) (n value : Nat) (s : State) : Host.Outcome State Fault Refusal :=
  .next ((s.advance t).pageWrite who Hdr.tmp fun s => s.tempoAlarmCtl n value)

/-- Aligned tempo reaches the compare stamp of an armed alarm (R80, R82). While SYS is not on, an alarm of
BKP_WAKE.TMPALM wakes the device and fires once SYS is on (R363). -/
def State.tempoAlarmReach (s : State) (n : Nat) : State :=
  match s.tmp.armed.find? (·.1 == n) with
  | some (_, cmp, _) =>
    if !(s.tempoUsable && s.reached cmp) then s
    else if !s.domOn Dom.sys && bitOf (s.rd R.BKP_WAKE_TMPALM) n then s.wakeSeen 2 n
    else s.tempoAlarmFired n false
  | none => s

def execTempoAlarmFire (t : Elapsed) (n : Nat) (s : State) : Host.Outcome State Fault Refusal :=
  .next ((s.advance t).tempoAlarmReach n)

/-- Reading TMP_LOCAL_LO or TMP_ALIGN_LO latches HI; aligned tempo reads zero while ALIGNED is clear. -/
def State.tempoLatch (s : State) (aligned : Bool) : State × Nat :=
  let v := if aligned then (if s.tempoAligned then s.alignedStamp else 0) else s.localStamp
  let hi := stampCycle v / 65536
  let s := if aligned then s.wr R.TMP_ALIGN_HI_CYCLE_H hi else s.wr R.TMP_LOCAL_HI_CYCLE_H hi
  (s, v % 2 ^ 32)

def execTempoReadLatch (t : Elapsed) (aligned : Bool) (s : State) : Host.Outcome State Fault Refusal :=
  .next (State.reply ((s.advance t).tempoLatch aligned))

/-! ### Register writes with an effect -/

/-- TMP_CFG: the nominal rate follows NOM60 while no rate is known; a root's offset is 0 and it is ALIGNED whenever
VALID (R76). -/
def State.tempoCfg (s : State) (v : Nat) : State :=
  let s := (s.put R.TMP_CFG_NOM60 (bitOf v 0)).put R.TMP_CFG_ROOT (bitOf v 1)
  let s := if s.tmp.rateFrom = 0 then s.wr R.TMP_RATE_RATE s.nominalRate else s
  if bitOf v 1 then
    let s := (s.setOffset16 0).setTmp fun r => { r with alignBase16 := r.localBase16 }
    s.setAligned s.tempoValid
  else s

/-- MSN_CTL: with EN clear the mains is treated as absent (R56). -/
def State.msnCtl (s : State) (v : Nat) : State :=
  let s := (s.wr R.MSN_CTL_NOMV (bitsOf v 16 10)).put R.MSN_CTL_EN (bitOf v 0)
  if bitOf v 0 then s
  else
    let s := (s.setTmp fun r => { r with crossedAt := none }).setPresent false
    let s := if s.rd R.TMP_STATUS_STATE = 1 then s.tempoGo 0 else s
    s.loseLock.stopStages

/-! ### The tempo keeper (R72, R375) -/

/-- MSN or the 3.3 V rail goes down: the keeper takes over count, rate, offset, U and flags. -/
def State.keeperTake (s : State) : State :=
  let k : Keeper := { valid := s.tempoValid, localStamp := s.local16 / 16, rate := s.rd R.TMP_RATE_RATE,
                      offset16 := s.offset16, align16 := s.align16 - s.local16, u16 := s.uncert16,
                      provisional := s.flag R.TMP_STATUS_PROVISIONAL, aligned := s.tempoAligned,
                      kppm := s.rd R.TMP_FLYCFG_KPPM, ppm := s.rd R.TMP_FLYCFG_PPM,
                      lim := s.rd R.TMP_FLYLIM_CYCLES, since := s.bkNow, rateFrom := s.tmp.rateFrom }
  { s with bkp := { s.bkp with keeper := k } }

/-- Steps the keeper has counted since it took over, at 32.768 kHz (R72). -/
def Keeper.steps (k : Keeper) (bk : Nat) : Nat := (bk - k.since) * 2 * k.rate / 2 ^ 24

/-- U of the keeper now, in 2^-16 steps: (PPM + KPPM)/10^7 of a cycle per cycle (R72). -/
def Keeper.uncert16 (k : Keeper) (bk : Nat) : Nat :=
  k.u16 + k.steps bk / 65536 * (65536 * 65536 * (k.ppm + k.kppm) / 10000000)

/-- TMP starts: from the keeper in FLYWHEEL when the validity token holds and U is below the limit, otherwise in
ABSENT, which envelope condition 1 reports (R72, R375). -/
def State.tempoStart (s : State) : State :=
  let k := s.bkp.keeper
  let u := k.uncert16 s.bkNow
  let e : Int := 16 * (s.clk.edges : Int)
  if s.bkp.token && k.valid && decide (u < max 1 k.lim * 65536 * 65536) then
    let now := k.localStamp + k.steps s.bkNow
    let s := (s.setOffset16 k.offset16).wr R.TMP_RATE_RATE k.rate
    let s := s.setTmp fun _ => { localBase16 := 16 * now - e, alignBase16 := 16 * now + k.align16 - e,
                                 lastCycle := now / 65536, slewCycle := now / 65536, rateFrom := k.rateFrom }
    let s := (s.tempoGo 3).setUncert u
    (s.put R.TMP_STATUS_PROVISIONAL k.provisional).setAligned k.aligned
  else
    let s := s.setTmp fun _ => { localBase16 := -e, alignBase16 := -e }
    let s := (s.put R.TMP_STATUS_PROVISIONAL true).wr R.TMP_RATE_RATE s.nominalRate
    if s.envBroken 1 then s else s.envBreak 0x01 1 Hdr.tmp

end Sys2Proof.Machine
end

