-- ==== Sys2Proof/Machine/Timetable.lean ====
section
/-!
DEFINITION. The timetable unit: slot occurrences (R259-R264), bells sent and taken (R265-R267), the listening
windows of a sleeper and re-entry (R268, R269), roll call (R270-R272), and the last gasp from its arming to its end
(R278-R283).
-/

namespace Sys2Proof.Machine

def State.setTtb (s : State) (f : TtbState → TtbState) : State := { s with ttb := f s.ttb }

/-! ### Slot occurrences (R259-R261) -/

/-- A slot's occurrence begins: its channels open, its event fires; a bell to be sent at it and not sealed counts
as skipped (R259, R264, R265). -/
def State.slotStart (s : State) (i : Nat) : State :=
  let t := s.slot i
  if !s.occurrencesRun || !t.valid || !s.enabled Hdr.ttb then s
  else match t.lastStart s.header.roundlen s.alignedStamp with
  | none => s
  | some x =>
    if x < s.ttb.skipTo ∨ x + 1 ≤ sget (fun _ => 0) s.ttb.ran i then s
    else
      let o : Occ := { slot := i, start := x, stop := x + t.len, blanked := s.blankNow }
      let s := s.setTtb fun r => { r with occ := r.occ ++ [o], ran := sput (fun _ => 0) r.ran i (x + 1) }
      let s := if t.evt then s.emit 0x28 else s
      if t.kind = 0 ∧ t.relay ∧ sget (fun _ => 0) s.ttb.bells i ≠ x + 1 then s.bump R.TTB_BELLS_SKIP else s

def execSlotOccurrenceStart (t : Elapsed) (slot : Nat) (s : State) : Host.Outcome State Fault Refusal :=
  .next ((s.advance t).slotStart slot)

/-- The oldest occurrence in progress of a slot ends. An unblanked `QUIET` one writes the floor measured in it
(R127). -/
def State.slotEnd (s : State) (i floor : Nat) : State :=
  match s.ttb.occ.find? fun o => o.slot == i && decide (o.stop ≤ s.alignedStamp) with
  | none => s
  | some o =>
    let quiet := (s.slot i).kind == 3 && !o.blanked && !s.blankNow
    let s := s.setTtb fun r => { r with occ := r.occ.erase o }
    if quiet then (s.wr R.CAP_FLOOR_CYCLE (stampCycle o.start)).wr R.CAP_FLOOR_FLOOR floor else s

def execSlotOccurrenceEnd (t : Elapsed) (slot floor : Nat) (s : State) : Host.Outcome State Fault Refusal :=
  .next ((s.advance t).slotEnd slot floor)

/-- Channel entry `c` is open for GATED watch entries (R168, R261, R269). -/
def State.gateOpens (s : State) (c : Nat) : Bool :=
  s.flag R.TTB_STATUS_REENTRY || s.ttb.occ.any fun o => (s.slot o.slot).opens c

/-! ### Checks of a transmission against its channel entry (R163, R49) -/

/-- The status that refuses a transmission on channel entry `entry` in generation `g`, if one does. -/
def State.entryRefusal (s : State) (g entry order power : Nat) : Option Nat :=
  let c := s.chan g entry
  let other := if g = s.gen.active then s.gen.pending else s.gen.active
  if !c.valid then
    some (if s.changeover && (s.chan other entry).valid then St.genMismatch else St.malformed)
  else if !c.txen || !decide (6 ≤ order) || !bitOf c.orders (order - 6) || decide (c.maxpwr < power) then
    some St.malformed
  else none

/-- The mark that frames of generation `g` carry (R258). -/
def State.districtMark (s : State) (g : Nat) : Nat :=
  let h := s.ttHeader g
  if h.valid then h.mark else 0

/-! ### Bells sent (R265) -/

/-- The district rate a bell announces: a root's average over its window, else TMP_RATE (R70, R76). -/
def State.bellRate (s : State) : Nat :=
  if s.isRoot ∧ !s.tmp.freqs.isEmpty then rateOfMilli (s.tmp.freqs.sum / s.tmp.freqs.length) else s.rd R.TMP_RATE_RATE

/-- Steps from a frame's start to the end of its sync field: 2 × TURNS + 2 symbols, rounded to the nearest. -/
def State.syncSteps (s : State) (turns order bw : Nat) : Nat :=
  let n := 2 * symUnits (2 * turns + 2) order bw * 65536 * s.rd R.TMP_RATE_RATE
  let d := 3000000 * 2 ^ 24
  (2 * n + d) / (2 * d)

/-- Context number of the bells' group. -/
def State.bellGroup (s : State) : Nat := 512 + s.header.bellctx

/-- DEPTH of a bell this node sends. -/
def State.bellDepth (s : State) : Nat := if s.isRoot then 0 else s.rd R.TTB_LASTBELL_DEPTH + 1

/-- Table TTB-4. -/
def State.bellPayload (s : State) (stamp : Nat) : List Byte :=
  let h := s.header
  leBytes 7 stamp ++ [BitVec.ofNat 8 (b2n s.isRoot + 2 * b2n (s.rd R.TMP_STATUS_STATE == 3))] ++
    leBytes 4 s.bellRate ++ leBytes 2 h.dttgen ++ [BitVec.ofNat 8 s.bellDepth, 0#8] ++ leBytes 8 h.headlong ++
    leBytes 2 h.mark ++ zeros 6

/-- The node may send bells (R265); in a cohort only its lead does (R423). -/
def State.bellAllowed (s : State) : Bool :=
  let g := s.gen.active
  let k := s.bellGroup
  (s.isRoot || (s.ttb.bellSince && decide (s.rd R.TTB_LASTBELL_DEPTH < 254))) && s.tempoUsable &&
  !s.flag R.TMP_STATUS_PROVISIONAL && s.ctxLive g k && s.ctxGet g k 8 2 == 0xFFFF && s.shortValid &&
  (s.ctxKey g k).isSome && !s.ctxFlag g k 4 && (!s.inCohort || (s.rd R.COH_STATUS_STATE == 2 && s.blockReady g k))

/-- A bell is sealed at S − TXU_LEAD and placed, or counted as skipped (R265). -/
def State.bellSeal (s : State) (i : Nat) : State :=
  let t := s.slot i
  let now := s.alignedStamp
  if !s.occurrencesRun || !t.valid || t.kind != 0 || !t.relay || !s.enabled Hdr.ttb then s
  else match t.nextStart s.header.roundlen now with
  | none => s
  | some x =>
    if now + s.hopLead < x ∨ x + 1 ≤ sget (fun _ => 0) s.ttb.bells i then s
    else
      let s := s.setTtb fun r => { r with bells := sput (fun _ => 0) r.bells i (x + 1) }
      let g := s.gen.active
      let k := s.bellGroup
      let pwr := s.header.bellpwr
      match t.firstChan, t.firstOrder, s.ctxKey g k with
      | some entry, some order, some key =>
        if !s.bellAllowed || (s.entryRefusal g entry order pwr).isSome then s.bump R.TTB_BELLS_SKIP
        else
          let c := s.chan g entry
          let (s, ctr) := s.takeCounter g k
          let s := s.linkCcm 2 10 32 false
          let hdr := linkHeader (frameControl 1 false 2 false false false) 0xFFFF s.ownShort ctr 0 0
          let pay := sealFrame key hdr (s.bellPayload ((x + s.syncSteps c.turns order c.bw) % stampMod)) ownLong ctr 2 false
          let id := s.tx.nextId
          ({ s with tx := { s.tx with nextId := id + 1 } }).submitTx
            { id := id, kind := .bell i x, entry := entry, order := order, rate := 3, robust := true, power := pwr,
              mark := s.districtMark g, gen := g, pay := pay, turns := c.turns, stamp := x, slip := some 0,
              decided := s.clk.edges, ctx := k, ctr := ctr, dest := 0xFFFF }
      | _, _, _ => s.bump R.TTB_BELLS_SKIP

def execBellSeal (t : Elapsed) (slot : Nat) (s : State) : Host.Outcome State Fault Refusal :=
  .next ((s.advance t).bellSeal slot)

/-! ### The tracked source and roll call (R267, R270-R272) -/

/-- Context of a bell source, if it is named. -/
def State.bellSource (s : State) (src : Nat) : Option Nat :=
  match src with
  | 0 => if s.header.pvalid then some s.header.parent else none
  | 1 => if s.header.avalid then some s.header.alt else none
  | _ => none

/-- ABSENT of a partner context (RCFLAGS bit 0). -/
def State.ctxAbsent (s : State) (k : Nat) : Bool := bitOf (s.ctxNum k 77 1) 0

/-- Tracking moves, with its record; a sleeper that tracks none enters re-entry (R267, R269). -/
def State.moveTrack (s : State) (src : Nat) : State :=
  if s.rd R.TTB_STATUS_BELLSRC = src then s
  else
    let s := (s.wr R.TTB_STATUS_BELLSRC src).ttbRecord 0x04 ((s.bellSource src).getD 0) src
    if src = 2 then s.enterReentry (s.rd R.TTB_WIDTH_W) else s

/-- A write of TTB_TRACK.SEL; 3 is ignored. -/
def State.trackSelect (s : State) (v : Nat) : State := if v % 4 = 3 then s else s.moveTrack (v % 4)

def execTrackSelect (t : Elapsed) (who : Who) (value : Nat) (s : State) : Host.Outcome State Fault Refusal :=
  .next ((s.advance t).pageWrite who Hdr.ttb fun s => s.trackSelect value)

/-- The tracked source was declared absent or gone: the other one, if it is named and not absent, or none. -/
def State.sourceLost (s : State) (k : Nat) : State :=
  let cur := s.rd R.TTB_STATUS_BELLSRC
  if cur = 2 ∨ s.bellSource cur ≠ some k then s
  else match s.bellSource (1 - cur) with
  | some o => if s.ctxAbsent o then s.moveTrack 2 else s.moveTrack (1 - cur)
  | none => s.moveTrack 2

/-- The low 32 bits of the aligned cycle. -/
def State.cycle32 (s : State) : Nat := stampCycle s.alignedStamp % 2 ^ 32

/-- DUE after a presence in cycle `c` (R271). -/
def State.dueOf (s : State) (c interval misses : Nat) : Nat :=
  let m := if misses = 0 then max 1 (s.rd R.TTB_RC_MISSES) else misses
  min (c + interval * m) (2 ^ 32 - 1)

/-- A presence of partner context `k` of generation `g` (R271); a sleeper or listener that tracks none tracks it if
it is a named source (R267). -/
def State.presence (s : State) (g k : Nat) : State :=
  let c := s.cycle32
  let heard := s.ctxGet g k 80 4
  let was := bitsOf (s.ctxGet g k 77 1) 0 2
  let s := (s.ctxPut g k 80 4 c).ctxPut g k 84 4 (s.dueOf c (s.ctxGet g k 72 4) (s.ctxGet g k 76 1))
  let s := if was = 0 then s
    else (s.ctxPut g k 77 1 0).ttbRecord 0x02 k ((c + 2 ^ 32 - heard) % 2 ^ 32)
  if s.rd R.TTB_STATUS_BELLSRC ≠ 2 then s
  else if s.bellSource 0 = some k then s.moveTrack 0
  else if s.bellSource 1 = some k then s.moveTrack 1
  else s

/-- ABSENTS steps, saturating. -/
def State.bumpAbsents (s : State) (g k : Nat) : State := s.ctxPut g k 78 2 (satAdd 16 (s.ctxGet g k 78 2) 1)

/-- A partner's last gasp was accepted (R272). -/
def State.gaspReceived (s : State) (g k ctr : Nat) (payload : List Byte) : State :=
  let s := ((s.presence g k).ctxPut g k 77 1 3).bumpAbsents g k
  (s.ttbRecord 0x03 k ctr payload).sourceLost k

/-- Step 0 of an aligned cycle finds a partner's DUE passed: it is declared absent (R271). -/
def State.partnerAbsent (s : State) (k : Nat) : State :=
  let g := s.gen.active
  if !s.tempoAligned || !s.enabled Hdr.ttb || decide (512 ≤ k) || !s.ctxLive g k || s.ctxNum k 72 4 == 0 || s.ctxAbsent k ||
      decide (s.cycle32 < s.ctxNum k 84 4) then s
  else
    let s := (s.ctxPut g k 77 1 (s.ctxNum k 77 1 ||| 1)).bumpAbsents g k
    ((s.emit 0x2C).ttbRecord 0x01 k (s.ctxNum k 80 4)).sourceLost k

def execPartnerAbsent (t : Elapsed) (ctx : Nat) (s : State) : Host.Outcome State Fault Refusal :=
  .next ((s.advance t).partnerAbsent ctx)

/-! ### Bells received (R266, R269) -/

/-- A listening window's or re-entry's end: re-entry ends with its record (R269). -/
def State.endReentry (s : State) (k : Nat) : State :=
  if s.flag R.TTB_STATUS_REENTRY then
    (s.put R.TTB_STATUS_REENTRY false).ttbRecord 0x07 k
      (min (stampCycle s.recStamp.1 - s.ttb.reentryAt) (2 ^ 32 - 1))
  else s

/-- A bell of partner context `k` passed its checks: `p` is its payload, `l` the local stamp of the end of its
sync field. -/
def State.bellReceived (s : State) (g k l : Nat) (p : List Byte) : State :=
  let h := s.header
  if imgNum p 16 8 ≠ h.headlong ∨ imgNum p 24 2 % 1024 ≠ h.mark then s.bump R.TTB_BELLS_MISMATCH
  else
    let s := s.presence g k
    let cur := s.rd R.TTB_STATUS_BELLSRC
    let named := s.bellSource 0 == some k || s.bellSource 1 == some k
    if s.bellSource cur ≠ some k ∧ !(s.flag R.TTB_STATUS_REENTRY && named) then s
    else
      let ttgen := imgNum p 12 2
      let s := s.bump R.TTB_BELLS_TAKEN
      let s := (s.wr R.TTB_LASTBELL_TTGEN ttgen).wr R.TTB_LASTBELL_DEPTH (imgNum p 14 1)
      let s := (s.wr R.TTB_BELLCYC_CYCLE s.cycle32).emit 0x2B
      let s := s.takeBell l (imgNum p 0 7) (imgNum p 8 4)
      let s := s.setTtb fun r => { r with bellSince := true }
      let s := if ttgen = h.dttgen ∨ s.ttb.ttgens.contains ttgen then s
        else (s.setTtb fun r => { r with ttgens := r.ttgens ++ [ttgen] }).ttbRecord 0x05 k ttgen
      s.endReentry k

/-! ### Listening windows (R268) -/

/-- Growth of U in one cycle, in 2^-16 steps (R70); 0 while tempo is locked. -/
def State.uncertGrowth (s : State) : Nat :=
  if s.rd R.TMP_STATUS_STATE = 3 then 65536 * 65536 * (s.rd R.TMP_FLYCFG_PPM + 15) / 10000000 else 0

/-- WIDENMS in steps at TMP_RATE; 0 acts as 1. -/
def State.widenLimit (s : State) : Nat := s.stepsOf (1000000 * max 1 s.header.widenms)

/-- A sleeper evaluates the next occurrence of a WAKE slot at the cycle that contains start − Lw − WAKELEAD: a
window, or re-entry where W exceeds Lw. -/
def State.windowEvaluation (s : State) (i : Nat) : State :=
  let t := s.slot i
  let h := s.header
  if !s.occurrencesRun || !h.sleeper || !t.valid || !t.wake || !s.enabled Hdr.ttb ||
      s.flag R.TTB_STATUS_REENTRY then s
  else
    let now := s.alignedStamp
    match t.nextStart h.roundlen (max now (sget (fun _ => 0) s.ttb.seen i)) with
    | none => s
    | some x =>
      let lw := s.widenLimit
      if stampCycle now < stampCycle (x - lw - h.wakelead) then s
      else
        let n := ceilDiv (x + t.len - now) 65536
        let w := s.rd R.TMP_GUARD_STEPS + ceilDiv (s.uncert16 + n * s.uncertGrowth) 65536
        let s := s.setTtb fun r => { r with seen := sput (fun _ => 0) r.seen i (x + 1) }
        let s := s.wr R.TTB_WIDTH_W (min w (2 ^ 32 - 1))
        if lw < w then s.enterReentry w
        else s.setTtb fun r => { r with windows := r.windows ++
          [{ slot := i, wake := x - w - h.wakelead, opens := x - w, stop := x + t.len + w }] }

def execWindowEvaluation (t : Elapsed) (slot : Nat) (s : State) : Host.Outcome State Fault Refusal :=
  .next ((s.advance t).windowEvaluation slot)

/-- The wake event of a window (R268). -/
def State.wakeEvent (s : State) (i : Nat) : State :=
  match s.ttb.windows.find? fun w => w.slot == i && !w.woken && decide (w.wake ≤ s.alignedStamp) with
  | none => s
  | some w => (s.setTtb fun r => { r with
      windows := r.windows.map fun v => if v = w then { v with woken := true } else v }).emit 0x29

def execWakeEvent (t : Elapsed) (slot : Nat) (s : State) : Host.Outcome State Fault Refusal :=
  .next ((s.advance t).wakeEvent slot)

/-- A window ends (R268). -/
def State.windowClose (s : State) (i : Nat) : State :=
  match s.ttb.windows.find? fun w => w.slot == i && decide (w.stop ≤ s.alignedStamp) with
  | none => s
  | some w => (s.setTtb fun r => { r with windows := r.windows.erase w }).emit 0x2A

def execWindowClose (t : Elapsed) (slot : Nat) (s : State) : Host.Outcome State Fault Refusal :=
  .next ((s.advance t).windowClose slot)

/-- A boundary at which the timetable switches: occurrences and windows of the old one end, PARENT is tracked
(R259, R267). -/
def State.timetableSwitched (s : State) : State :=
  let now := s.alignedStamp
  (s.setTtb fun r => { r with occ := [], windows := [], ran := [], bells := [], seen := [], skipTo := now }).moveTrack 0

/-! ### The last gasp (R278-R283) -/

/-- The checks of LG_ARM and the frame it arms (R242, R278). -/
def State.gaspOf (s : State) (w : Work) : Except Nat Gasp :=
  let g := s.gen.active
  let w3 := w.word 3
  let w5 := w.word 5
  let k := if bitOf w3 10 then 512 + bitsOf w3 0 4 else bitsOf w3 0 10
  let len := bitsOf w5 0 5
  let micsz := bitsOf w3 12 2
  let entry := bitsOf w5 8 8
  let order := bitsOf w5 16 3 + 6
  let power := bitsOf (w.word 6) 0 6
  let buf := w.word 4
  if (!bitOf w3 10 && decide (512 ≤ k)) || !s.ctxLive g k || micsz == 0 || decide (16 < len) || !s.shortValid then
    .error St.malformed
  else match s.bufferRefusal w.prot (s.inRam buf len) buf len with
  | some st => .error st
  | none => match s.entryRefusal g entry order power with
  | some st => .error st
  | none =>
    if !s.ctxOwned g k then .error St.access
    else if (s.ctxKey g k).isNone then .error St.keyAbsent
    else
      let r := s.ctxGet g k 16 4 + s.gaspAhead
      if s.ctxFlag g k 4 || decide (0xFFFFFFFF ≤ r) then .error St.ctxExhausted
      else .ok (s.gaspSeal { ctx := k, ctr := r, micsz := micsz, ls := bitOf w3 14, payload := s.bytes buf len,
                             entry := entry, order := order, robust := bitOf w5 19, rate := bitsOf w5 20 2,
                             power := power, gen := g, frame := [], charge := 0 } r)

/-- LG_ARM: a new frame replaces the armed one (R278). -/
def State.lgArm (s : State) (w : Work) : State :=
  match s.gaspOf w with
  | .error st => s.decide_ w st
  | .ok g => ((s.gaspCost g).setTtb fun r => { r with gasp := some g }).decide_ w St.done g.ctr

/-- Is the descriptor an LG_ARM with DISARM as `b` says? -/
def State.lgWork (s : State) (idx : Nat) (b : Bool) (k : Work → State → State) : State :=
  s.runWork 2 idx [0x22] fun w s => if bitOf (w.word 3) 11 = b then k w s else s

def execLgArm (t : Elapsed) (idx : Nat) (s : State) : Host.Outcome State Fault Refusal :=
  .next ((s.advance t).lgWork idx false fun w s => s.lgArm w)

def execLgDisarm (t : Elapsed) (idx : Nat) (s : State) : Host.Outcome State Fault Refusal :=
  .next ((s.advance t).lgWork idx true fun w s => s.gaspDisarm.decide_ w St.done)

/-- Airtime at most 40 ms and LEVEL at most 48 (R282). -/
def State.gaspGuaranteed (s : State) (g : Gasp) : Bool :=
  decide (g.charge ≤ 60000 ∧ s.powerLevel g.gen g.power ≤ 48)

/-- TTB_LGSTAT's RO fields: AIR in 0.1 ms, GUAR, ARMED. -/
def State.gaspStatus (s : State) : Nat :=
  match s.ttb.gasp with
  | none => 0
  | some g =>
    let n := 2 * g.charge
    let air := n / 300 + b2n (decide (n % 300 ≠ 0) && Config.roundUp n 300)
    min air 65535 * 65536 + 2 * b2n (s.gaspGuaranteed g) + 1

/-- Forced slices decided and not begun follow the last gasp (R280). -/
def shiftBlocks (now : Nat) : Nat → List (Nat × Nat × Bool) → List (Nat × Nat × Bool)
  | _, [] => []
  | free, (a, b, c) :: l =>
    if a ≤ now then (a, b, c) :: shiftBlocks now free l
    else (max a free, max a free + (b - a), c) :: shiftBlocks now (max a free + (b - a)) l

/-- The last gasp takes the transmitter once every committed use has ended, after one hop; what is not committed is
placed again behind it (R280). Without TXA it waits for it. -/
def State.gaspDecide (s : State) : State :=
  match s.ttb.gasp with
  | none => s
  | some g =>
    if s.tx.list.any (·.kind == .gasp) then s
    else if !s.domOn Dom.txa || s.tx.hot then s.setTtb fun r => { r with lossPending := true }
    else
      let s := (s.setTtb fun r => { r with lossPending := false }).abandonSlice
      let c := s.chan g.gen g.entry
      let ep := edgePlan (s.schedules g.gen) c.pasched c.extpa
      let now := s.clk.edges
      let hop := s.committedEnd
      let cal := !s.calValid g.entry
      let first := hop + s.usSteps (if cal then 400 else 60)
      let start := first + s.usSteps ep.on
      let air := g.charge
      let last := start + s.stepsOf3 (2000 * air + 3000 * ep.off)
      let x : Tx := { id := s.tx.nextId, kind := .gasp, entry := g.entry, order := g.order, rate := g.rate,
                      robust := g.robust, power := g.power, mark := s.districtMark g.gen, gen := g.gen, pay := g.frame,
                      turns := c.turns, stamp := s.stampOfEdge start, decided := now, placed := true, start := start,
                      hop := hop, first := first, commit := start - s.usSteps ep.commit,
                      chipEnd := start + s.stepsOf3 (2000 * air), last := last, cal := cal, ctx := g.ctx, ctr := g.ctr }
      let back := fun (y : Tx) =>
        if y.isCommitted now || y.stage == .await then y else { y with stage := .queued, placed := false }
      let s := { s with tx := { s.tx with list := s.tx.list.map back ++ [x], nextId := s.tx.nextId + 1,
                                          blocks := shiftBlocks now last s.tx.blocks } }
      s.placeAll .slip fun _ => true

/-- The last gasp has been sent (R283). -/
def State.gaspSent (s : State) : State :=
  match s.tx.list.find? fun x => x.kind == .gasp && x.stage == .await with
  | none => s
  | some x =>
    let g := s.gen.active
    let old := s.ctxGet g x.ctx 16 4
    let new := max old (x.ctr + 1)
    let s := (s.dropTx x.id).ctxPut g x.ctx 16 4 new
    let s := if old ≤ 0xFFFF0000 ∧ 0xFFFF0000 < new then (s.setCtxFlag g x.ctx 5 true).ttbRecord 0x20 x.ctx x.ctr else s
    let s := if old < 0xFFFFFFFF ∧ new = 0xFFFFFFFF then (s.setCtxFlag g x.ctx 4 true).ttbRecord 0x21 x.ctx new else s
    (s.gaspDisarm.put R.TTB_LGSTAT_SENT true).ttbRecord 0x10 x.ctx x.ctr

def execLastGaspSent (t : Elapsed) (s : State) : Host.Outcome State Fault Refusal := .next ((s.advance t).gaspSent)

/-! ### What the registers show -/

/-- TTB_STATUS. -/
def State.ttbStatus (s : State) : Nat :=
  256 * s.rd R.TTB_STATUS_BELLSRC + 16 * s.rd R.TTB_STATUS_REENTRY + 8 * b2n (s.level 0x24) +
    4 * b2n s.ttb.gasp.isSome + 2 * b2n s.enforced + b2n s.occurrencesRun

end Sys2Proof.Machine
end

