-- ==== Sys2Proof/Machine/Link.lean ====
section
/-!
DEFINITION. The link engine: `SEND` and its outcomes (R241-R246), acceptance of received frames (R247-R249),
acknowledgements and keeps (R250-R253), delivery (R254-R256) and `CTX_READ` (R240).
-/

namespace Sys2Proof.Machine

/-! ### Cohort states that bind the link engine (R422, R425) -/


/-! ### SEND (R241, R242) -/

/-- The operands of a SEND (Table LNK-6). -/
structure SendOp where
  ctx : Nat
  group : Bool
  type : Nat
  ar : Bool
  micsz : Nat
  enc : Bool
  ts : Bool
  ls : Bool
  buf : Nat
  len : Nat
  entry : Nat
  order : Nat
  robust : Bool
  rate : Nat
  power : Nat
  retries : Nat
  rgap : Nat
  dest : Nat
  deriving DecidableEq, Repr

def State.sendOp (s : State) (w : Work) : SendOp :=
  let w3 := w.word 3
  let w5 := w.word 5
  let w6 := w.word 6
  let g := s.gen.active
  let k := if bitOf w3 10 then 512 + bitsOf w3 0 4 else bitsOf w3 0 10
  { ctx := k, group := bitOf w3 10, type := bitsOf w3 16 3, ar := bitOf w3 19, micsz := bitsOf w3 20 2,
    enc := bitOf w3 22, ts := bitOf w3 23, ls := bitOf w3 24 || !s.shortValid, buf := w.word 4, len := bitsOf w5 0 8,
    entry := bitsOf w5 8 8, order := bitsOf w5 16 3 + 6, robust := bitOf w5 19, rate := bitsOf w5 20 2,
    power := if bitOf w5 22 then bitsOf w6 0 6 else s.ctxGet g k 14 1 % 64, retries := bitsOf w5 24 3,
    rgap := bitsOf w6 16 16, dest := s.ctxGet g k 8 2 }

/-- A delivery sequence number begins the payload (R235). -/
def SendOp.hasDsn (o : SendOp) : Bool := o.type == 0 && !groupDest o.dest

/-- Bytes of the frame's header and its payload. -/
def SendOp.hdrLen (o : SendOp) : Nat := 10 + 2 * b2n o.ts + 8 * b2n o.ls
def SendOp.payLen (o : SendOp) : Nat := o.len + b2n o.hasDsn

/-- The SEND breaks R242. -/
def State.sendMalformed (s : State) (w : Work) (o : SendOp) : Bool :=
  (!o.group && decide (512 ≤ o.ctx)) || !s.ctxLive s.gen.active o.ctx || (o.type != 0 && o.type != 2) ||
  (o.type == 0 && !s.shortValid) || (o.micsz == 0 && o.type != 2) || (o.enc && o.micsz == 0) ||
  (o.ar && groupDest o.dest) || decide (255 < o.payLen) || decide (288 < o.hdrLen + o.payLen + micLen o.micsz) ||
  s.bufferRefusal w.prot (s.inRam o.buf o.len) o.buf o.len == some St.malformed

/-- The status that refuses a SEND before it is sealed. -/
def State.sendRefusal (s : State) (w : Work) (o : SendOp) : Option Nat :=
  let g := s.gen.active
  if s.sendMalformed w o then some St.malformed
  else if (s.bufferRefusal w.prot true o.buf o.len).isSome || !s.ctxOwned g o.ctx then some St.access
  else if s.cohortSilent then some St.cohortQuiet
  else if o.micsz ≠ 0 ∧ (s.ctxKey g o.ctx).isNone then some St.keyAbsent
  else if s.ctxFlag g o.ctx 4 then some St.ctxExhausted
  else s.entryRefusal g o.entry o.order o.power

/-- Seals the frame: its counter, its delivery sequence number, its bytes; the transmission is submitted (R241,
R254). Its start stamp is the descriptor's, or the sealing instant plus TXU_LEAD (R224). -/
def State.sealSend (s : State) (w : Work) (o : SendOp) : State :=
  let g := s.gen.active
  let host := s.bytes o.buf o.len
  let stamp := if w.isTimed then w.start else (s.alignedStamp + s.hopLead) % stampMod
  let (s, ctr) := s.takeCounter g o.ctx
  let s := s.linkCcm o.micsz o.hdrLen o.payLen o.enc
  let dsn := s.ctxGet g o.ctx 67 1
  let body := if o.hasDsn then BitVec.ofNat 8 dsn :: host else host
  let s := if o.hasDsn then s.ctxPut g o.ctx 67 1 (dsn + 1) else s
  let hdr := linkHeader (frameControl o.type o.ar o.micsz o.enc o.ts o.ls) o.dest s.ownShort ctr (stampStep stamp) ownLong
  let pay := sealFrame ((s.ctxKey g o.ctx).getD []) hdr body ownLong ctr o.micsz o.enc
  let mic := pay.drop (pay.length - micLen o.micsz)
  let s := s.putAckst g o.ctx 0 0 false false
  let s := (s.updWork w.ring w.idx fun w => { w with stage := .accepted, a := 1, gen := g }).progress Hdr.lnk
  let id := s.tx.nextId
  let c := s.chan g o.entry
  ({ s with tx := { s.tx with nextId := id + 1 } }).submitTx
    { id := id, kind := .frame w.ring w.idx, entry := o.entry, order := o.order, rate := o.rate, robust := o.robust,
      power := o.power, mark := s.districtMark g, gen := g, pay := pay, turns := c.turns, stamp := stamp,
      slip := if w.isTimed then some w.slip else none, decided := s.clk.edges, ctx := o.ctx, ctr := ctr, dest := o.dest,
      ar := o.ar, micpfx := leNum (mic.take 4), retries := o.retries, rgap := o.rgap,
      txstep := stampStep stamp }

/-- SEND at its decision step: refused, held for a counter block (R426) or for its context's rewrite (R47), or
sealed. -/
def State.send (s : State) (w : Work) : State :=
  if w.a = 1 then s
  else
    let o := s.sendOp w
    if s.ctxPending o.ctx then s
    else match s.sendRefusal w o with
    | some st => s.decide_ w st
    | none =>
      if s.blockReady s.gen.active o.ctx then s.sealSend w o
      else s.updWork w.ring w.idx fun w => { w with stage := .waiting, due := s.clk.ns + 10000000 }

def execSend (t : Elapsed) (ring idx : Nat) (s : State) : Host.Outcome State Fault Refusal :=
  .next ((s.advance t).runWork ring idx [0x20] fun w s => s.send w)

/-- Sends held for a counter block of context `k` seal at the decision step of the grant (R426). -/
def State.resumeSends (s : State) (k : Nat) : State :=
  (s.ring.work.filter fun w => (w.ring == 1 || w.ring == 2) && w.opcode == 0x20 && w.stage == .waiting &&
      (s.sendOp w).ctx == k).foldl (fun s w =>
    if s.blockReady s.gen.active k then s.send { w with stage := .accepted } else s) s

/-- A sealing held for 10 ms without a grant completes `NO_BLOCK` (R426). -/
def State.blockTimeout (s : State) (ring idx : Nat) : State :=
  match s.findWork ring idx with
  | some w => if w.opcode == 0x20 && w.stage == .waiting && decide (w.due ≤ s.clk.ns) then s.decide_ w St.noBlock else s
  | none => s

def execCounterBlockTimeout (t : Elapsed) (ring idx : Nat) (s : State) : Host.Outcome State Fault Refusal :=
  .next ((s.advance t).blockTimeout ring idx)

/-! ### Outcomes of frames that ask for acknowledgement (R193, R244, R245) -/

/-- Retry gap in steps; 0 selects LNK_RETRY.GAP, which acts as 1 when 0. -/
def State.retryGap (s : State) (x : Tx) : Nat :=
  4096 * (if x.rgap = 0 then max 1 (s.rd R.LNK_RETRY_GAP) else x.rgap)

/-- The outcome of a transmission without a plain acknowledgement: the next transmission, `GEN_MISMATCH`, or
`NO_ACK`. After a keep the successor of the set is sent, after silence set 0. -/
def State.retryTx (s : State) (x : Tx) (keep : Bool) : State :=
  let s := s.putAckst x.gen x.ctx x.pset (bitsOf (s.ctxGet x.gen x.ctx 44 1) 2 4) false keep
  let s := { s with tx := { s.tx with expects := s.tx.expects.filter (·.tx != x.id) } }
  if x.retries = 0 then
    let s := (s.bump R.LNK_TX_NOACK).ctxPut x.gen x.ctx 62 2 (satAdd 16 (s.ctxGet x.gen x.ctx 62 2) 1)
    s.finishTx x St.noAck
  else if !s.holdsGen x.gen then s.finishTx x St.genMismatch
  else
    let s := s.updTx x.id fun x => { x with
      pset := if keep then (x.pset + 1) % 4 else 0, retries := x.retries - 1, kept := keep, slip := none,
      stamp := (s.alignedStamp + s.retryGap x) % stampMod, decided := s.clk.edges, stage := .queued, placed := false,
      charged := false, held := false, quiet := false }
    s.placeAll .slip fun _ => true

/-- A detection made on the transmission's expectation is still being worked on. -/
def State.answerPending (s : State) (id : Nat) : Bool :=
  s.rx.dets.any (·.tx == some id) || s.rx.lanes.any (·.2.tx == some id) || s.rx.frames.any (·.tx == some id)

/-- End of a transmission's expectation window (R174). -/
def State.expectEnd (s : State) (x : Tx) : Nat :=
  match s.tx.expects.find? (·.tx == x.id) with
  | some e => e.till
  | none => x.chipEnd + s.expectSteps (s.chan x.gen x.entry) x.order

/-- The first transmission whose window has ended with no detection left: no acknowledgement (R244). -/
def State.noAckOutcome (s : State) : State :=
  match s.tx.list.find? fun x => x.ar && x.stage == .await && decide (s.expectEnd x ≤ s.clk.edges) &&
      !s.answerPending x.id with
  | some x => (s.retryTx x false).progress Hdr.lnk
  | none => s

def execNoAckOutcome (t : Elapsed) (s : State) : Host.Outcome State Fault Refusal :=
  .next ((s.advance t).noAckOutcome)

/-! ### Acknowledgements received (R252) -/

/-- The 16 bytes of an acknowledgement's payload (Table LNK-7). -/
structure AckPay where
  keep : Bool
  corrv : Bool
  dest : Nat
  src : Nat
  ctr : Nat
  micpfx : Nat
  corr : Int
  deriving DecidableEq, Repr

def ackPay (p : List Byte) : AckPay :=
  { keep := bitOf (imgNum p 0 2) 0, corrv := bitOf (imgNum p 0 2) 1, dest := imgNum p 2 2, src := imgNum p 4 2,
    ctr := imgNum p 6 4, micpfx := imgNum p 10 4, corr := signed 16 (imgNum p 14 2) }

/-- The correction of a matching acknowledgement goes to tempo, or is counted as ignored. -/
def State.ackCorrection (s : State) (x : Tx) (a : AckPay) : State :=
  let d := signed 16 (x.chipStep + 65536 - x.txstep % 65536)
  let c := a.corr - d
  let u := s.rd R.TMP_UNCERT_U
  if s.rd R.TMP_STATUS_STATE = 2 then s.takeAckCorrection c
  else if s.ctxFlag x.gen x.ctx 2 && s.rd R.TMP_STATUS_STATE == 3 && decide (u < 32768) &&
      decide (c.natAbs ≤ u + s.rd R.LNK_CORR_MARGIN) then s.takeAckCorrection c
  else s.bump R.LNK_ACK_CORRIGN

/-- An acknowledgement decoded on the expectation of transmission `id` (R252, R271). -/
def State.ackReceived (s : State) (id : Nat) (p : List Byte) : State :=
  let a := ackPay p
  match s.findTx id with
  | none => s.bump R.LNK_ACK_ACKBAD
  | some x =>
    let good := a.dest == s.ownShort && a.src == x.dest && a.ctr == x.ctr &&
      ((a.keep && a.micpfx == 0) || a.micpfx == x.micpfx) && p.length == 16
    if !good then s.bump R.LNK_ACK_ACKBAD
    else
      let s := { s with tx := { s.tx with expects := s.tx.expects.filter (·.tx != id) } }
      let s := if a.corrv then s.ackCorrection x a else s
      let s := if x.ctx < 512 then s.presence x.gen x.ctx else s
      if a.keep then (s.bump R.LNK_TX_KEEPRX).retryTx x true
      else
        let s := s.putAckst x.gen x.ctx x.pset (bitsOf (s.ctxGet x.gen x.ctx 44 1) 2 4) false false
        s.finishTx x St.done

/-! ### Acknowledgements sent (R250, R251) -/

/-- Step difference of a frame's start here and its TXSTEP, −32,768 to +32,767 (R251). -/
def stepDiff (f : RxFrame) (txstep : Nat) : Int := signed 16 (f.sofStep + 65536 - txstep % 65536)

/-- The acknowledgement of a frame whose header is `h`, at `power` (R250). -/
def State.sendAck (s : State) (f : RxFrame) (h : LinkFrame) (gen power : Nat) (keep reack : Bool) : State :=
  if !s.flag R.LNK_CFG_ACKEN || s.cohortSilent then s
  else
    let corrv := h.ts && s.rd R.TMP_STATUS_STATE == 2 && s.tempoAligned
    let pay := leBytes 2 (b2n keep + 2 * b2n corrv + 4 * b2n reack) ++ leBytes 2 h.src ++ leBytes 2 s.ownShort ++
      leBytes 4 h.ctr ++ (if keep then zeros 4 else (h.mic ++ zeros 4).take 4) ++
      leBytes 2 (if corrv then unsigned 16 (stepDiff f h.txstep) else 0)
    (s.ackDecide { gen := gen, entry := f.chan, order := f.order, mark := f.mark, power := power, endEdge := f.endEdge,
                   pay := pay }).1

/-! ### Frames and acknowledgements handed to other cohort members (R427) -/

/-- A frame's fields in a link packet: mode, header, generation, end of sync, and the time since its last chip. -/
def State.cohFields (s : State) (f : RxFrame) : List Nat :=
  [f.chan, f.bw, f.order, f.mark, f.hdr, f.gen, f.sync, b2n f.syncAligned, f.sofStep, s.clk.edges - f.endEdge,
    s.clk.ns - f.endNs]

/-- The owner of partner context `k`. -/
def State.ctxOwner (s : State) (g k : Nat) : Nat := s.ctxGet g k 68 4 % 16

/-- The lead sends a decoded frame to the owner of its sender's context. -/
def State.handOver (s : State) (g k : Nat) (f : RxFrame) (pay : List Byte) (buffer : Option Nat) (sets : Nat) : State :=
  if s.leads then
    s.issue (s.ctxOwner g k) 0x09 (s.cohFields f ++ [b2n buffer.isSome, sets + 16 * b2n f.combined]) (f.report ++ pay)
  else s

/-- The acknowledgement to an unknown sender goes out at the member that heard it best. -/
def State.ackUnknown (s : State) (f : RxFrame) (h : LinkFrame) (keep : Bool) : State :=
  match f.member with
  | some m =>
    if m ≠ s.cohIndex then s.issue m 0x0D (s.cohFields f ++ [b2n keep]) (f.report ++ h.hdr ++ h.body ++ h.mic)
    else s.sendAck f h f.gen (s.rd R.LNK_CFG_ACKPWR) keep false
  | none => s.sendAck f h f.gen (s.rd R.LNK_CFG_ACKPWR) keep false

/-- After an acceptance the owner tells every member the context's D fields, RXCTR and RXMIC. -/
def State.rxSync (s : State) (g k : Nat) : State :=
  if s.inCohort ∧ k < 512 then
    s.issue 0xF 0x0A [k] (leBytes 4 (s.ctxGet g k 20 4) ++ leBytes 16 (s.ctxGet g k 24 16) ++ leBytes 18 (s.ctxGet g k 44 18))
  else s

/-! ### Deliveries (R248, R255, R256) -/

/-- RX_BUF: a buffer of at least 320 bytes waits for a frame (R255). -/
def State.rxBuf (s : State) (w : Work) : State :=
  let a := w.word 3
  let n := bitsOf (w.word 4) 0 16
  if a % 32 ≠ 0 ∨ n < 320 then s.decide_ w St.malformed
  else match s.bufferRefusal w.prot (s.inRam a n) a n with
  | some st => s.decide_ w st
  | none => s.updWork w.ring w.idx fun w => { w with stage := .waiting }

def execRxBuf (t : Elapsed) (ring idx : Nat) (s : State) : Host.Outcome State Fault Refusal :=
  .next ((s.advance t).runWork ring idx [0x28] fun w s => s.rxBuf w)

/-- The oldest outstanding RX_BUF of a ring. -/
def State.oldestRxBuf (s : State) (ring : Nat) : Option Work :=
  s.ring.work.find? fun w => w.ring == ring && w.opcode == 0x28 && w.stage == .waiting

/-- Writes a delivery record (Table LNK-8) into the oldest buffer of a ring and completes it. -/
def State.deliver (s : State) (ring status : Nat) (f : RxFrame) (h : LinkFrame) (gen ctx dflags sets : Nat)
    (payload : List Byte) : State :=
  match s.oldestRxBuf ring with
  | none => s
  | some w =>
    let rec_ := f.report ++ leBytes 2 ctx ++ [BitVec.ofNat 8 (dflags + 16 * b2n f.combined), BitVec.ofNat 8 sets] ++
      zeros 4 ++ h.hdr ++ payload
    ((s.setBytes (w.word 3) rec_).healRange (s.phys (w.word 3)) rec_.length).decideGen w status
      (rec_.length % 512 + 65536 * h.src) gen

/-- A frame rejected with a status of R248: counted, and reported with its header alone when it is to be. -/
def State.rejectFrame (s : State) (ring status : Nat) (f : RxFrame) (h : LinkFrame) (gen ctx dflags sets : Nat) :
    State :=
  let rpt := s.rd R.LNK_CFG_RPTREJ
  let (s, report) := if status = St.replay then (s.bump R.LNK_REJ_REPLAY, bitOf rpt 0)
    else if status = St.duplicate then (s.bump R.LNK_REJ_DUP, bitOf rpt 1)
    else if status = St.micFail then (s.bump R.LNK_REJ_MICFAIL, bitOf rpt 2)
    else (s.countMismatch.bump R.LNK_REJ_GENMIS, true)
  if report then s.deliver ring status f h gen ctx dflags sets [] else s

/-! ### Acceptance (R247, R249) -/

/-- VALID partner contexts of generation `g` with a short address. -/
def State.partnerBy (s : State) (g short : Nat) : Option Nat :=
  (List.range 512).find? fun k => s.ctxLive g k && s.ctxGet g k 8 2 == short

/-- The sender's partner context, subject to R237. -/
def State.senderOf (s : State) (g : Nat) (h : LinkFrame) : Option Nat :=
  match s.partnerBy g h.src with
  | some k => if h.ls && h.long != s.ctxGet g k 0 8 then none else some k
  | none => none

/-- VALID group contexts whose SHORT is `dest`. -/
def State.groupsBy (s : State) (g dest : Nat) : List Nat :=
  ((List.range 16).map (512 + ·)).filter fun k => s.ctxLive g k && s.ctxGet g k 8 2 == dest

/-- The destination is the node's own address; 0xFFFE while none is assigned (R232). -/
def State.isOwn (s : State) (dest : Nat) : Bool := dest == s.ownShort

/-- The frame is addressed to the node (R232, R247). -/
def State.isForMe (s : State) (g dest : Nat) : Bool :=
  s.isOwn dest || dest == 0xFFFF || (s.shortValid && !(s.groupsBy g dest).isEmpty)

/-- Key slots' keys a frame's MIC may be checked with in generation `g`: BELLCTX's for a bell, the groups' for a
group or broadcast destination, the partner's otherwise (R236, R266). -/
def State.micKeys (s : State) (g : Nat) (h : LinkFrame) (k : Nat) : List (List Byte) :=
  let cs := if h.type = 1 then [512 + (s.ttHeader g).bellctx] else if groupDest h.dest then s.groupsBy g h.dest else [k]
  (cs.filter fun c => s.ctxLive g c).filterMap fun c => s.ctxKey g c

/-- The payload if the MIC holds under generation `g`. -/
def State.openAs (s : State) (g : Nat) (h : LinkFrame) (k long : Nat) : Option (List Byte) :=
  if h.micsz = 0 then some h.body else (s.micKeys g h k).findSome? fun key => h.open_ key long

/-- The checks of a MIC under generation `g`, each a cipher operation: keys are tried until one holds. -/
def State.micChecks (s : State) (g : Nat) (h : LinkFrame) (k long : Nat) : State :=
  let keys := s.micKeys g h k
  let failed := (keys.takeWhile fun key => (h.open_ key long).isNone).length
  (List.range (min keys.length (failed + 1))).foldl (fun s _ => s.linkCcm h.micsz h.hdr.length h.body.length h.enc) s

/-- The other generation the device holds. -/
def State.otherGen (s : State) (g : Nat) : Nat := if g = s.gen.active then s.gen.pending else s.gen.active

/-- A MIC of `n` bytes zero-padded to 16. -/
def micPad (h : LinkFrame) : Nat := leNum h.mic

/-- What the replay rules say before the MIC is checked (R247): a status, or nothing. -/
def State.replayCheck (s : State) (g k : Nat) (h : LinkFrame) : Option Nat :=
  if s.ctxFlag g k 3 then (if h.ctr = 0xFFFFFFFF then some St.replay else none)
  else if s.isOwn h.dest then
    let rx := s.ctxGet g k 20 4
    if h.ctr = 0xFFFFFFFF ∨ h.ctr < rx then some St.replay
    else if h.ctr = rx then some (if micPad h = s.ctxGet g k 24 16 then St.duplicate else St.replay)
    else none
  else if h.ctr ≤ s.ctxGet g k 40 4 then some St.replay else none

/-- A moving average of weight 1/8; the first value of a context is left open. -/
def State.average (s : State) (g k off n : Nat) (x : Int) : State :=
  if s.ctxGet g k 60 2 = 0 then
    let (v, s) := s.free
    s.ctxPut g k off n v
  else
    let old := signed (8 * n) (s.ctxGet g k off n)
    let d := x - old
    let up : Int := b2n (decide (d % 8 ≠ 0) && Config.roundUp (d % 8).toNat 8)
    s.ctxPut g k off n (unsigned (8 * n) (old + d / 8 + up))

/-- Acceptance from partner `k`: counters, RXFRESH and the D fields (R247, R251), and the frame counter. -/
def State.acceptFrom (s : State) (g k : Nat) (f : RxFrame) (h : LinkFrame) : State :=
  let s := if groupDest h.dest then s.ctxPut g k 40 4 h.ctr
    else (s.ctxPut g k 20 4 h.ctr).ctxPut g k 24 16 (micPad h)
  let s := s.setCtxFlag g k 3 false
  let s := s.average g k 52 2 (signed 16 (imgNum f.report 12 2))
  let s := s.average g k 54 1 (signed 8 (imgNum f.report 14 1))
  let s := (s.ctxPut g k 55 1 (imgNum f.report 15 1)).ctxPut g k 56 4 s.cycle32
  let s := s.ctxPut g k 60 2 (satAdd 16 (s.ctxGet g k 60 2) 1)
  let s := if h.ts then s.ctxPut g k 48 4 (unsigned 32 (-(16 * stepDiff f h.txstep))) else s
  (s.bump R.LNK_RXOK_COUNT).rxSync g k

/-- What the link engine did with a decoded frame, for the soft buffers (R201). -/
inductive Taken where
  /-- not accepted, or accepted without AR or to a group, or a duplicate -/
  | other
  /-- accepted with AR and the own destination: partner context, or an unknown sender -/
  | partner (k : Nat)
  | unknown
  /-- its MIC check waits for a context rewrite (R47) -/
  | wait
  deriving DecidableEq, Repr

/-- Flags [0] of DFLAGS. -/
def softFlag (buffer : Option Nat) : Nat := b2n buffer.isSome

/-- Context word of a delivery record. -/
def ctxWord (k : Nat) (h : LinkFrame) (unknown : Bool) : Nat :=
  k % 512 + 16384 * b2n (groupDest h.dest) + 32768 * b2n unknown

/-- Frames of senders without a partner context (R249). -/
def State.takeUnknown (s : State) (f : RxFrame) (h : LinkFrame) (buffer : Option Nat) (sets : Nat) : State × Taken :=
  let drop := (s.bump R.LNK_DROP_UNKNOWN, Taken.other)
  if h.type = 2 ∧ h.micsz = 0 ∧ s.flag R.LNK_CFG_JOINOPEN then
    if (s.oldestRxBuf 4).isNone then (s.bump R.LNK_DROP_NOBUF, .other)
    else
      let s := (s.bump R.LNK_RXOK_COUNT).deliver 4 St.done f h f.gen (ctxWord 0 h true) (softFlag buffer + 8) sets h.body
      if h.ar && s.flag R.LNK_CFG_JOINACK then
        (s.ackUnknown f h false, .unknown)
      else (s, .other)
  else match s.groupsBy f.gen h.dest with
  | [] => drop
  | grp :: _ =>
    if !h.ls || h.type == 1 || h.type == 3 || !groupDest h.dest then drop
    else
      let og := s.otherGen f.gen
      let own := (s.openAs f.gen h grp h.long).map fun p => (p, f.gen)
      let other := (s.openAs og h grp h.long).map fun p => (p, og)
      let s := s.micChecks f.gen h grp h.long
      let s := if own.isNone && s.changeover then s.micChecks og h grp h.long else s
      match own, s.changeover, other with
      | some (p, g), _, _ | none, true, some (p, g) =>
        if (s.oldestRxBuf 4).isNone then (s.bump R.LNK_DROP_NOBUF, .other)
        else ((s.bump R.LNK_RXOK_COUNT).deliver 4 St.done f h g (ctxWord (grp - 512) h true) (softFlag buffer + 4) sets p,
          .other)
      | none, co, _ =>
        (s.rejectFrame 4 (if co then St.genMismatch else St.micFail) f h f.gen (ctxWord (grp - 512) h true)
          (softFlag buffer) sets, .other)

/-- An accepted TYPE 0 or 2 frame from partner `k`: its delivery sequence number and its delivery (R254, R256). -/
def State.deliverFrom (s : State) (ring g k : Nat) (f : RxFrame) (h : LinkFrame) (buffer : Option Nat) (sets : Nat)
    (p : List Byte) : State :=
  let cw := ctxWord k h false
  let fl := softFlag buffer
  if h.type = 0 ∧ !groupDest h.dest then
    let d := imgNum p 0 1
    let next := s.ctxGet g k 66 1
    if (d + 1) % 256 = next then
      let s := s.bump R.LNK_DSN_DUP
      if bitOf (s.rd R.LNK_CFG_RPTREJ) 1 then s.deliver ring St.duplicate f h g cw (fl + 32) sets [] else s
    else
      let s := s.ctxPut g k 66 1 (d + 1)
      if d = next then s.deliver ring St.done f h g cw fl sets p
      else (s.bump R.LNK_DSN_GAP).deliver ring St.done f h g cw (fl + 2) sets p
  else s.deliver ring St.done f h g cw fl sets p

/-- A frame from partner `k` whose MIC held under generation `g` (R247). -/
def State.takePartner (s : State) (g k : Nat) (f : RxFrame) (h : LinkFrame) (buffer : Option Nat) (sets : Nat)
    (p : List Byte) : State × Taken :=
  let ring := if h.dest = 0xFFFE then 4 else 3
  if h.type = 1 then
    ((s.acceptFrom g k f h).bellReceived g k f.syncLocal p, .other)
  else if h.type = 3 then ((s.acceptFrom g k f h).gaspReceived g k h.ctr p, .other)
  else if (s.oldestRxBuf ring).isNone then (s.bump R.LNK_DROP_NOBUF, .other)
  else
    let s := (s.acceptFrom g k f h).presence g k
    let s := s.deliverFrom ring g k f h buffer sets p
    if h.ar && s.isOwn h.dest then
      (s.sendAck f h g (s.ctxGet g k 14 1 % 64) false false, .partner k)
    else (s, .other)

/-- A context update still to be written concerns the sender of a frame of the new generation (R47). -/
def State.senderPending (s : State) (g src : Nat) (k : Option Nat) : Bool :=
  match s.gen.commit with
  | some c => g == s.gen.active && c.switched && c.rewrites.any fun r => some r.1 == k || imgNum r.2.2 8 2 == src
  | none => false

/-- The decision on a decoded frame at the decision step of its decode's model end (R247). `buffer` is the soft
buffer it was decoded from. -/
def State.takeFrame (s : State) (f : RxFrame) (pay : List Byte) (buffer : Option Nat) (sets : Nat) : State × Taken :=
  let h := parseFrame pay
  let g := f.gen
  let s := s.progress Hdr.lnk
  if s.cohortSilent || !s.enabled Hdr.lnk || (s.unit Hdr.lnk).lapsed then (s, .other)
  else if h.malformed then (s.bump R.LNK_DROP_MALF, .other)
  else if !s.isForMe g h.dest then (s.bump R.LNK_DROP_NOTME, .other)
  else
    let c := s.senderOf g h
    if s.senderPending g h.src c then (s, .wait)
    else match c with
    | none => s.takeUnknown f h buffer sets
    | some k =>
      if !s.ctxOwned g k then
        -- the lead keeps the soft buffer as its own copy of the context lets it judge
        let ok := (h.type == 0 || h.type == 2) && h.ar && s.isOwn h.dest && (s.replayCheck g k h).isNone &&
          (s.openAs g h k (if h.ls then h.long else s.ctxGet g k 0 8)).isSome
        (s.handOver g k f pay buffer sets, if ok && s.leads then .partner k else .other)
      else
        let ring := if h.dest = 0xFFFE then 4 else 3
        let reject := fun (s : State) st => s.rejectFrame ring st f h g (ctxWord k h false) (softFlag buffer) sets
        match s.replayCheck g k h with
        | some st =>
          let s := reject s st
          if st = St.duplicate then ((s.presence g k).sendAck f h g (s.ctxGet g k 14 1 % 64) false true, .other)
          else (s, .other)
        | none =>
          let long := fun g => if h.ls then h.long else s.ctxGet g k 0 8
          let og := s.otherGen g
          let own := s.openAs g h k (long g)
          let other := s.openAs og h k (long og)
          let s := s.micChecks g h k (long g)
          match own with
          | some p => s.takePartner g k f h buffer sets p
          | none =>
            if !s.changeover then (reject s St.micFail, .other)
            else
              let s := s.micChecks og h k (long og)
              match other with
              | some p => s.takePartner og k f h buffer sets p
              | none => (reject s St.genMismatch, .other)

/-! ### Keeps (R253) -/

/-- Decides the proposal to keep a failed frame in a soft buffer; `bits` are the bytes of its provisional header.
An accepted proposal is answered with the keep flag. -/
def State.keepDecide (s : State) (f : RxFrame) (bits : List Byte) (buffer : Nat) : State × Bool :=
  let h := parseFrame bits
  let g := f.gen
  let frame := (h.type == 0 || h.type == 2) && h.ar && s.isOwn h.dest && s.flag R.LNK_CFG_ACKEN && !s.cohortSilent
  let partner := s.ctxLive g buffer && s.ctxFlag g buffer 1 &&
    (s.ctxFlag g buffer 3 || (decide (s.ctxGet g buffer 20 4 < h.ctr) && h.ctr != 0xFFFFFFFF))
  if frame && (if buffer < 512 then partner else s.flag R.LNK_CFG_UNKKEEP) then
    let s := s.bump R.LNK_ACK_KEEPSENT
    if 512 ≤ buffer then (s.ackUnknown f h true, true)
    -- in a cohort the owner sends it, directed by ACKREQ (R427)
    else if s.ctxOwned g buffer then (s.sendAck f h g (s.ctxGet g buffer 14 1 % 64) true false, true)
    else (s.issue (s.ctxOwner g buffer) 0x0D (s.cohFields f ++ [1]) (f.report ++ bits), true)
  else (s.bump R.LNK_ACK_KEEPDEC, false)

/-! ### CTX_READ (R240) -/

/-- Copies contexts as they stand to memory. -/
def State.ctxRead (s : State) (w : Work) : State :=
  let first := bitsOf (w.word 3) 0 10
  let group := bitOf (w.word 3) 10
  let count := bitsOf (w.word 3) 16 10
  let a := w.word 4
  let n := 128 * count
  if count = 0 ∨ (if group then 16 else 512) < first + count ∨ a % 8 ≠ 0 ∨ !s.devWritable a n then s.decide_ w St.malformed
  else match s.bufferRefusal w.prot true a n with
  | some st => s.decide_ w st
  | none =>
    let base := if group then 512 + first else first
    let data := (List.range count).flatMap fun i => s.ctxImage (base + i)
    ((s.setBytes a data).healRange (s.phys a) n).decide_ w St.done count

def execCtxRead (t : Elapsed) (idx : Nat) (s : State) : Host.Outcome State Fault Refusal :=
  .next ((s.advance t).runWork 0 idx [0x14] fun w s => s.ctxRead w)

/-- LNK_STATUS: VALID partners and groups, and whether a context is exhausted. -/
def State.lnkStatus (s : State) : Nat :=
  let n := ((List.range 512).filter fun k => s.ctxValid k).length
  let m := ((List.range 16).filter fun k => s.ctxValid (512 + k)).length
  65536 * n + 256 * m + b2n ((List.range 528).any fun k => bitOf (s.ctxNum k 12 2) 4)

end Sys2Proof.Machine
end

