-- ==== Sys2Proof/Machine/Capture.lean ====
section
/-!
DEFINITION. The band capture: gain control (R122-R124), the receive calibrations (R128-R134), the die temperature
and the spectrum recorder (R135-R140).
-/

namespace Sys2Proof.Machine

def State.setCap (s : State) (f : CapState → CapState) : State := { s with cap := f s.cap }

/-! ### Gain (R122-R124) -/

/-- The gain code changes at a block boundary. -/
def State.setGain (s : State) (g : Nat) : State :=
  if g = s.rd R.CAP_STATUS_GAIN then s
  else (s.wr R.CAP_STATUS_GAIN g).setCap fun c => { c with
    gainAt := s.clk.ns, record := c.record.map fun r => { r with gainChg := r.gainChg + 1 } }

/-- CAP_AGC.HIGH; other values act as the nearer limit. -/
def State.agcHigh (s : State) : Nat := clamp 1 12 (s.rd R.CAP_AGC_HIGH)

/-- A block's peak (0.25 dBFS) is judged: one that exceeds the attack threshold, or a block that clips, makes the gain fall by the whole number of
dB that brings the peak to 6 dB below the threshold, at least 3 dB (R123). -/
def State.agcAttack (s : State) (peak4 : Int) (clip : Bool) : State :=
  if !s.domOn Dom.rxa then s
  else
    let s := if clip then s.bump R.CAP_COUNTS_CLIPBLK else s
    let s := s.put R.CAP_STATUS_CLIP clip
    -- a block above −LOW dBFS starts the release interval again
    let s := if clip || decide (-(4 * (s.rd R.CAP_AGC_LOW : Int)) < peak4) then
        s.setCap fun c => { c with gainAt := s.clk.ns } else s
    let excess := peak4 + 4 * (s.agcHigh : Int)
    if s.flag R.CAP_CTL_FIXED || (!clip && decide (excess ≤ 0)) then s
    else s.setGain (s.rd R.CAP_STATUS_GAIN - max 3 ((excess + 24 + 3) / 4).toNat)

def execAgcAttack (t : Elapsed) (peak4 : Int) (clip : Bool) (s : State) : Host.Outcome State Fault Refusal :=
  .next ((s.advance t).agcAttack peak4 clip)

/-- The blocks have stayed at or below −LOW dBFS for the release interval: the gain rises by 3 dB (R123). -/
def State.agcRelease (s : State) : State :=
  if !s.domOn Dom.rxa || s.flag R.CAP_CTL_FIXED ||
      decide (s.clk.ns < s.cap.gainAt + 1000000 * max 1 (s.rd R.CAP_AGC_RELMS)) then s
  else ((s.put R.CAP_STATUS_CLIP false).setGain (min 47 (s.rd R.CAP_STATUS_GAIN + 3))).setCap fun c =>
    { c with gainAt := s.clk.ns }

def execAgcRelease (t : Elapsed) (s : State) : Host.Outcome State Fault Refusal := .next ((s.advance t).agcRelease)

/-- A write of CAP_CTL: with FIXED set the gain is held at FIXGAIN (R124). -/
def State.capCtl (s : State) (v : Nat) : State :=
  let s := (s.wr R.CAP_CTL_FIXGAIN (bitsOf v 8 6)).put R.CAP_CTL_FIXED (bitOf v 0)
  if bitOf v 0 then s.setGain (min 47 (bitsOf v 8 6)) else s

/-! ### Calibration (R128-R134) -/

/-- On-request slices of an item and their length in µs (Table CAP-4). -/
def capSlices (i : Nat) : Nat :=
  match i with
  | 3 => 2
  | 5 => 4
  | _ => 1

/-- Puts an item's slices into the pending set in the order of the table. -/
def insertItem (i n : Nat) : List (Nat × Nat) → List (Nat × Nat)
  | [] => [(i, n)]
  | p :: l => if i < p.1 then (i, n) :: p :: l else p :: insertItem i n l

/-- An item is pending or running. -/
def State.capItem (s : State) (i : Nat) : Bool := s.cap.pend.any (·.1 == i) || s.cap.run.any (·.item == i)

/-- A write of CAP_CALREQ: items join the pending set; FORCE makes every pending slice forced (R129). -/
def State.capRequest (s : State) (v : Nat) : State :=
  if !s.domOn Dom.rxa then s
  else
    let idle := s.cap.pend.isEmpty && s.cap.run.isNone
    let s := if idle then s.setCap fun c => { c with readyAt := s.clk.edges } else s
    let s := (List.range 6).foldl (fun s i =>
      if bitOf v i && !s.capItem i then s.setCap fun c => { c with pend := insertItem i (capSlices i) c.pend } else s) s
    if bitOf v 8 then s.setCap fun c => { c with forced := c.forced || !c.pend.isEmpty } else s

def execCapCalibrationRequest (t : Elapsed) (who : Who) (value : Nat) (s : State) : Host.Outcome State Fault Refusal :=
  .next ((s.advance t).pageWrite who Hdr.cap fun s => s.capRequest (setBitsOf value 8 1 0))

def execCapCalibrationForce (t : Elapsed) (who : Who) (value : Nat) (s : State) : Host.Outcome State Fault Refusal :=
  .next ((s.advance t).pageWrite who Hdr.cap fun s => s.capRequest (setBitsOf value 8 1 1))

/-- May the next slice start (R130, R131)? -/
def State.capSliceMay (s : State) (us : Nat) : Bool :=
  let now := s.clk.edges
  if s.cap.forced then s.tx.blocks.any fun b => b.2.2 && decide (b.1 ≤ now)
  else
    let wait := s.rd R.CAP_CALCTL_WAIT
    (wait == 0 || decide (s.cap.readyAt + 65536 * wait ≤ now) || s.quietCovers (s.usSteps us)) && !s.txNear

/-- A receive calibration slice starts and blinds the capture. -/
def State.capSliceStart (s : State) : State :=
  match s.cap.pend with
  | [] => s
  | (i, n) :: rest =>
    let us := State.forcedDecision.capSliceUs i
    if s.cap.run.isSome || !s.accepts Hdr.cap || !s.capSliceMay us then s
    else
      let r : SliceRun := { item := i, forced := s.cap.forced, start := s.clk.edges, due := s.clk.edges + s.usSteps us }
      (s.markBlank.setCap fun c => { c with pend := if n ≤ 1 then rest else (i, n - 1) :: rest, run := some r }).bump
        R.CAP_COUNTS_SLICES

def execCapCalSliceStart (t : Elapsed) (s : State) : Host.Outcome State Fault Refusal :=
  .next ((s.advance t).capSliceStart)

/-- The receive part of a record is filled from the flatness grid, whose values the part measures (R134). -/
def State.fillReceive (s : State) (i : Nat) : State :=
  let (g, s) := s.free
  let (p, s) := s.free
  s.setCalRec i (setBitsOf (setBitsOf (setBitsOf (s.calRec i) 14 8 g) 6 8 p) 62 1 1)

/-- The flatness item completed: the receive part of every VALID channel entry's record (R134). -/
def State.flatnessDone (s : State) : State :=
  let s := (s.setCap fun c => { c with flatTemp := c.temp }).put R.CAP_STATUS_RECAL false
  (List.range 256).foldl (fun s i => if (s.chan s.gen.active i).valid then s.fillReceive i else s) s

/-- The result of a receive calibration item (R132, R134). -/
def State.capItemDone (s : State) (i : Nat) (ok : Bool) : State :=
  let s := s.wr R.CAP_CALSTAT_DONE (s.rd R.CAP_CALSTAT_DONE ||| 2 ^ i)
  if ok then
    let s := s.wr R.CAP_CALSTAT_FAIL (setBitsOf (s.rd R.CAP_CALSTAT_FAIL) i 1 0)
    if i = 5 then s.flatnessDone else s
  else ((s.wr R.CAP_CALSTAT_FAIL (s.rd R.CAP_CALSTAT_FAIL ||| 2 ^ i)).unitFault Hdr.cap 6 i).bump R.CAP_COUNTS_CALFAIL

/-- A slice ends; with the last one the done event fires (R129). -/
def State.capSliceEnd (s : State) (ok : Bool) : State :=
  match s.cap.run with
  | none => s
  | some r =>
    if s.clk.edges < r.due then s
    else
      let s := (s.setCap fun c => { c with run := none, readyAt := s.clk.edges }).progress Hdr.cap
      let s := if s.cap.pend.any (·.1 == r.item) then s else s.capItemDone r.item ok
      if s.cap.pend.isEmpty then
        ({ s with cap := { s.cap with forced := false },
                  tx := { s.tx with blocks := s.tx.blocks.filter (!·.2.2) } }).emit 0x2D
      else s

def execCapCalSliceEnd (t : Elapsed) (ok : Bool) (s : State) : Host.Outcome State Fault Refusal :=
  .next ((s.advance t).capSliceEnd ok)

def execCapCalinv (t : Elapsed) (who : Who) (value : Nat) (s : State) : Host.Outcome State Fault Refusal :=
  .next ((s.advance t).pageWrite who Hdr.cap fun s => s.calClear 62 value)

/-- A slice that a lapse, reset or disable ends writes nothing and returns to the pending set (R129, R212). -/
def State.capSliceBack (s : State) : State :=
  match s.cap.run with
  | none => s
  | some r => s.setCap fun c => { c with
      run := none
      pend := match c.pend with
        | (i, n) :: rest => if i = r.item then (i, n + 1) :: rest else insertItem r.item 1 c.pend
        | [] => [(r.item, 1)] }

/-- The measured die temperature (R134): CAP_TEMP while RXA is on; a move of RECALT degrees since the last flatness
calibration clears every RXVALID. -/
def State.dieTemperature (s : State) (temp : Int) : State :=
  let t := (clamp 0 255 (temp + 128).toNat)
  let s := s.setCap fun c => { c with temp := t }
  if !s.domOn Dom.rxa then s
  else
    let s := s.wr R.CAP_TEMP_TEMP (unsigned 8 s.dieTemp)
    let lim := clamp 5 60 (s.rd R.CAP_CALCTL_RECALT)
    if dist t s.cap.flatTemp < lim ∨ s.flag R.CAP_STATUS_RECAL then s
    else ((List.range 256).foldl (fun s i => s.setCalBit i 62 false) s).put R.CAP_STATUS_RECAL true

/-! ### The spectrum recorder (R135-R140) -/

/-- Operands of RECORD (Table CAP-6). -/
def recFormat (w : Work) : Nat := bitsOf (w.word 5) 0 2
def recShift (w : Work) : Nat := bitsOf (w.word 5) 4 4
def recCont (w : Work) : Bool := bitOf (w.word 5) 8
def recNco (w : Work) : Nat := bitsOf (w.word 6) 0 9
def recLen (w : Work) : Nat := bitsOf (w.word 4) 0 28

/-- Bytes of a sample (Table CAP-7). -/
def sampleBytes (format : Nat) : Nat := if format = 1 then 3 else 4

/-- The descriptor breaks a rule of Table CAP-6. -/
def State.recordMalformed (s : State) (w : Work) : Bool :=
  let nco := (signed 9 (recNco w)).natAbs
  let a := w.word 3
  a % 64 != 0 || recLen w % 64 != 0 || decide (recLen w < 64) || !s.inRam a (recLen w) || decide (8 < recShift w) ||
  (w.isTimed && recCont w) || (recFormat w == 2 && decide (93 < nco)) || (recFormat w == 3 && decide (175 < nco))

/-- Stamp and header flags of the first sample's step (Table CAP-8). -/
def State.recordStamp (s : State) : Nat × Nat :=
  if !s.tempoValid then (s.localStamp, 4) else if s.tempoAligned then (s.alignedStamp, 1) else (s.localStamp, 0)

/-- A recording begins with the next sample of its format (R137, R138). -/
def State.recordStart (s : State) (w : Work) (gapless gap : Bool) : State :=
  let (stamp, flags) := s.recordStamp
  let r : Recording := { idx := w.idx, cont := gapless, gap := gap, stamp := stamp, flags := flags + 2 * b2n gapless,
                         gain := s.rd R.CAP_STATUS_GAIN }
  let s := s.setCap fun c => { c with record := some r, stopping := false }
  s.updWork w.ring w.idx fun w => { w with stage := .committed }

/-- A RECORD reaches its start (R137, R140). `gapless` says that it follows its predecessor without a gap. -/
def State.recordBegin (s : State) (w : Work) (gapless : Bool) : State :=
  if !s.domOn Dom.rxa then s.decide_ w St.captureOff
  else if w.isTimed && decide (w.slip < s.alignedStamp - w.start) then s.decide_ w St.late
  else s.recordStart w gapless (recCont w && !gapless)

/-- The RECORDs submitted before `w` that have not completed. -/
def State.recordsBefore (s : State) (w : Work) : List Work :=
  s.ring.work.filter fun x => x.ring == 6 && x.opcode == 0x50 && idxBefore x.idx w.idx

/-- RECORD at its decision step or start stamp: refused, started, or queued behind those submitted before it (R137).
`a` marks a queued one, `b` one that will follow without a gap (R138). -/
def State.record (s : State) (w : Work) : State :=
  let free := s.cap.record.isNone && (s.recordsBefore w).isEmpty
  if w.a = 1 then (if free then s.recordBegin w false else s)
  else if s.recordMalformed w then s.decide_ w St.malformed
  else match s.bufferRefusal w.prot true (w.word 3) (recLen w) with
  | some st => s.decide_ w st
  | none =>
    if free then s.recordBegin w false
    else
      let same := match (s.recordsBefore w).getLast? with
        | some x => recFormat x == recFormat w && recShift x == recShift w && recNco x == recNco w
        | none => false
      s.updWork w.ring w.idx fun w => { w with a := 1, b := b2n (recCont w && same && s.cap.record.isSome) }

def execRecord (t : Elapsed) (idx : Nat) (s : State) : Host.Outcome State Fault Refusal :=
  .next ((s.advance t).runWork 6 idx [0x50] fun w s => s.record w)

/-- RECORD_STOP: the recording in progress is asked to end; the descriptor completes after it (R139). -/
def State.recordStop (s : State) (w : Work) : State :=
  if s.cap.record.isNone then s.decide_ w St.done 0
  else (s.setCap fun c => { c with stopping := true }).updWork w.ring w.idx fun w => { w with stage := .waiting }

def execRecordStop (t : Elapsed) (idx : Nat) (s : State) : Host.Outcome State Fault Refusal :=
  .next ((s.advance t).runWork 6 idx [0x51] fun w s => s.recordStop w)

/-- A component as recorded: shifted right, saturated to the field; and whether it saturated. -/
def recValue (format shift : Nat) (v : Int) : Int × Bool :=
  let w := if format = 1 then 12 else 16
  let x := v / (2 ^ (shift + if format = 1 then 4 else 0) : Nat)
  let hi : Int := 2 ^ (w - 1) - 1
  let lo : Int := -(2 ^ (w - 1))
  if x < lo then (lo, true) else if hi < x then (hi, true) else (x, false)

/-- The bytes of one sample and whether it saturated; a blanked sample is zero. -/
def sampleOut (format shift : Nat) (p : Sample) : List Byte × Bool :=
  let (i, ci) := recValue format shift (if p.blank then 0 else p.i)
  let (q, cq) := recValue format shift (if p.blank then 0 else p.q)
  if format = 1 then (leBytes 3 (unsigned 12 i + 4096 * unsigned 12 q), ci || cq)
  else (leBytes 2 (unsigned 16 i) ++ leBytes 2 (unsigned 16 q), ci || cq)

/-- The 32-byte header (Table CAP-8). -/
def recHeader (w : Work) (r : Recording) (phase samples clips blanks : Nat) : List Byte :=
  leBytes 7 r.stamp ++ [BitVec.ofNat 8 r.flags] ++ leBytes 2 phase ++
    [BitVec.ofNat 8 (recFormat w + 16 * recShift w), BitVec.ofNat 8 r.gain] ++ leBytes 2 (recNco w) ++ zeros 2 ++
    leBytes 4 samples ++ leBytes 4 clips ++ leBytes 4 blanks ++ leBytes 4 r.gainChg

/-- The recording in progress ends with the samples `l`; `early` when it was ended before its buffer was full, at a
64-byte line. The next recording in order begins, and RECORD_STOPs that waited complete (R136-R140). -/
def State.recordFinish (s : State) (phase : Nat) (l : List Sample) (status : Nat) (early : Bool) : State :=
  match s.cap.record with
  | none => s
  | some r =>
    let s := s.setCap fun c => { c with record := none, stopping := false }
    match s.findWork 6 r.idx with
    | none => s
    | some w =>
      let bps := sampleBytes (recFormat w)
      let room := if early then min (recLen w) (max 64 ((32 + bps * l.length) / 64 * 64)) else recLen w
      let used := l.take ((room - 32) / bps)
      let outs := used.map (sampleOut (recFormat w) (recShift w))
      let clips := (outs.filter (·.2)).length
      let blanks := (used.filter (·.blank)).length
      let data := recHeader w r phase used.length clips blanks ++ outs.flatMap (·.1)
      let s := (s.setBytes (w.word 3) data).healRange (s.phys (w.word 3)) data.length
      let s := s.decide_ w status (data.length + 2 ^ 28 * b2n (decide (0 < clips)) + 2 ^ 29 * b2n (decide (0 < blanks)) +
        2 ^ 30 * b2n r.gap + 2 ^ 31 * b2n early)
      let s := (s.ring.work.filter fun x => x.ring == 6 && x.opcode == 0x51 && x.stage == .waiting).foldl
        (fun s x => s.decide_ x St.done 1) s
      match s.ring.work.find? fun x => x.ring == 6 && x.opcode == 0x50 with
      | some x => if x.a = 1 then s.recordBegin x (x.b == 1 && status == St.done) else s
      | none => s

/-- The recording's buffer is full, or it was asked to end and a line is complete (R137, R139). -/
def State.recordEnd (s : State) (phase : Nat) (l : List Sample) : State :=
  match s.cap.record with
  | none => s
  | some r =>
    match s.findWork 6 r.idx with
    | none => s
    | some w =>
      let full := decide ((recLen w - 32) / sampleBytes (recFormat w) ≤ l.length)
      if full then s.recordFinish phase l St.done false
      else if s.cap.stopping then s.recordFinish phase l St.done true else s

def execRecordEnd (t : Elapsed) (phase : Nat) (samples : List Sample) (s : State) : Host.Outcome State Fault Refusal :=
  .next ((s.advance t).recordEnd phase samples)

/-- The 64 KB in flight are full: the recording ends at its last complete line (R140). -/
def execRecordOverflow (t : Elapsed) (phase : Nat) (samples : List Sample) (s : State) :
    Host.Outcome State Fault Refusal := .next ((s.advance t).recordFinish phase samples St.overflow true)

/-! ### What the registers show -/

/-- PEND, FORCED and SLICES of CAP_CALSTAT. -/
def State.capPend (s : State) : Nat :=
  let items := (List.range 6).foldl (fun m i => m + if s.capItem i then 2 ^ i else 0) 0
  256 * items + 16 * b2n s.cap.forced + (s.cap.pend.foldl (fun n p => n + p.2) 0 + b2n s.cap.run.isSome)

end Sys2Proof.Machine
end

