-- ==== Sys2Proof/Machine/Ldpc.lean ====
section
/-!
DEFINITION. The LDPC code of R186-R195: segmentation, the base graph of Table DEC-1, the encoder, what each
parity set sends, and the layered scaled min-sum decoder in fixed point.
-/

namespace Sys2Proof.Machine

/-- The base graph (Table DEC-1): for each row its entries as (column, shift). -/
def baseGraph : List (List (Nat × Nat)) :=
  [ [(0, 0), (1, 81), (2, 17), (3, 102), (4, 45), (5, 3), (6, 120), (7, 66), (8, 0)],
    [(0, 94), (1, 7), (2, 59), (3, 113), (4, 28), (5, 70), (6, 11), (7, 37), (8, 1), (9, 0)],
    [(0, 33), (3, 98), (6, 14), (9, 71), (10, 0)],
    [(1, 52), (4, 109), (7, 23), (8, 90), (11, 0)],
    [(0, 76), (2, 125), (5, 40), (12, 0)],
    [(1, 117), (3, 8), (6, 61), (9, 29), (13, 0)],
    [(2, 19), (4, 84), (7, 46), (14, 0)],
    [(0, 12), (3, 65), (5, 100), (8, 38), (15, 0)],
    [(1, 4), (4, 57), (6, 91), (16, 0)],
    [(2, 73), (5, 26), (7, 110), (9, 119), (17, 0)],
    [(0, 49), (4, 9), (6, 122), (18, 0)],
    [(1, 86), (5, 64), (7, 31), (8, 105), (19, 0)],
    [(2, 15), (3, 97), (6, 42), (20, 0)],
    [(0, 111), (5, 20), (7, 78), (9, 6), (21, 0)],
    [(1, 35), (3, 127), (4, 60), (22, 0)],
    [(2, 88), (4, 2), (7, 55), (8, 67), (23, 0)] ]

/-- Lifting size Z of a block of K information bits (R187). -/
def lifting (k : Nat) : Nat := if k ≤ 128 then 16 else if k ≤ 256 then 32 else if k ≤ 512 then 64 else 128

/-- The B bits of a PHY payload: its bytes and CRC-32, each byte least significant bit first (R186). -/
def payloadBits (pay : List Byte) : List Bool :=
  (pay ++ leBytes 4 (crc32 pay)).flatMap fun b => natBits 8 b.toNat

/-- Cuts a list into pieces of the given lengths. -/
def cutLens {α : Type} : List Nat → List α → List (List α)
  | [], _ => []
  | n :: ns, l => l.take n :: cutLens ns (l.drop n)

/-! ### Encoder -/

/-- A column of Z bits rotated so that bit i is bit (i + s) mod Z of it (R188). -/
def rotCol (z s v : Nat) : Nat :=
  let s := s % z
  v / 2 ^ s + v % 2 ^ s * 2 ^ (z - s)

/-- Sum of the rotated columns a row's entries pick (R189). -/
def rowSum (z : Nat) (cols : List Nat) (entries : List (Nat × Nat)) : Nat :=
  entries.foldl (fun x e => x ^^^ rotCol z e.2 (cols.getD e.1 0)) 0

/-- The 24 columns of the codeword with information columns `u` (R189). -/
def ldpcColumns (z : Nat) (u : List Nat) : List Nat :=
  (List.range 16).foldl (fun cols r =>
    let row := (baseGraph.getD r []).filter fun e => e.1 < cols.length
    cols ++ [rowSum z cols row]) u

/-- Information columns of a block, filler bits 0 (R187). -/
def infoColumns (z : Nat) (info : List Bool) : List Nat :=
  (List.range 8).map fun j => bitsNat ((info.drop (j * z)).take z)

/-- The parity sequence of a block, its first 2K positions (R190). -/
def paritySeq (info : List Bool) : List Bool :=
  let k := info.length
  let z := lifting k
  (((ldpcColumns z (infoColumns z info)).drop 8).flatMap fun c => natBits z c).take (2 * k)

/-- First position of parity set `pset` and its length (R191, R192). -/
def parityWindow (k rate pset : Nat) : Nat × Nat :=
  if pset = 0 then (0, parityTarget k rate)
  else ((parityTarget k rate + (pset - 1) * ceilDiv k 2) % (2 * k), ceilDiv k 2)

/-- The coded bits one block sends in a parity set (R191, R192). -/
def blockCode (info : List Bool) (rate pset : Nat) : List Bool :=
  let k := info.length
  let p := paritySeq info
  let (from_, n) := parityWindow k rate pset
  let par := ((p ++ p).drop from_).take n
  if pset = 0 then info ++ par else par

/-- Payload symbol values of a transmission: encoded, whitened, interleaved and mapped (R152-R155). -/
def payloadValues (pay : List Byte) (rate pset order : Nat) (robust : Bool) (mark : Nat) : List Nat :=
  let blocks := cutLens (blockLens pay.length) (payloadBits pay)
  let coded := blocks.flatMap fun b => blockCode b rate pset
  let b := symBits order robust
  let np := ceilDiv coded.length b
  let padded := coded ++ List.replicate (np * b - coded.length) false
  (interleave np b (List.zipWith (· != ·) padded (whitening mark (np * b)))).map (symValue order robust)

/-- The symbols of a frame as (down-chirp, value): preamble, sync field, header, payload (R143). -/
def frameChirps (turns order mark hdr : Nat) (pay : List Byte) : List (Bool × Nat) :=
  let sv := syncValues order mark
  let nh := headerSymbols order
  (List.range (2 * turns)).map (fun i => (i % 2 == 1, 0)) ++ [(true, sv.1), (false, sv.2)] ++
  ((interleave nh (order - 2) (convCode (headerBits hdr))).mapIdx fun i g => (i % 2 == 1, symValue order true g)) ++
  (payloadValues pay (hdrRate hdr) (hdrPset hdr) order (hdrRobust hdr) mark).map fun v => (false, v)

/-! ### Soft values of a block -/

/-- Channel values of a frame: for each block K information values, then 2K parity values (R199). -/
def valueCount (len : Nat) : Nat := ((blockLens len).map (3 * ·)).sum

/-- Saturation to ±`m`. -/
def satTo (m : Int) (v : Int) : Int := if v < -m then -m else if m < v then m else v

/-- Sums of two lists of channel values, saturating at ±127 (R201). -/
def addValues (a b : List Int) : List Int := List.zipWith (fun x y => satTo 127 (x + y)) a b

/-- Spreads the soft values of one block's transmission over its 3K places. -/
def blockValues (k rate pset : Nat) (soft : List Int) : List Int :=
  let (from_, n) := parityWindow k rate pset
  let info := if pset = 0 then soft.take k else List.replicate k 0
  let par := (if pset = 0 then soft.drop k else soft).toArray
  info ++ (List.range (2 * k)).map fun i =>
    let d := (i + 2 * k - from_) % (2 * k)
    if d < n then par.getD d 0 else 0

/-- Spreads a transmission's soft values over the channel values of its frame. -/
def frameValues (len rate pset : Nat) (soft : List Int) : List Int :=
  let ks := blockLens len
  (List.zipWith (fun k s => blockValues k rate pset s) ks
    (cutLens (ks.map fun k => blockBits k rate pset) soft)).flatten

/-- Positions of a block covered by the sets a transmission or buffer combines: a parity column is scheduled when
one of its positions is covered. `sets` holds the parity sets. -/
def coveredParity (k rate : Nat) (sets : List Nat) (i : Nat) : Bool :=
  sets.any fun p =>
    let (from_, n) := parityWindow k rate p
    decide ((i + 2 * k - from_) % (2 * k) < n)

/-- Scheduled rows of a block: rows 0 and 1, and extension rows whose column holds a covered position (R194). -/
def scheduledRows (k rate : Nat) (sets : List Nat) : List Nat :=
  let z := lifting k
  (List.range 16).filter fun r => decide (r < 2) ||
    (List.range z).any fun i => decide (r * z + i < 2 * k) && coveredParity k rate sets (r * z + i)

/-! ### Decoder -/

/-- Least magnitude and next least of a list of values, and the index of the least. -/
def twoLeast (q : List Int) : Nat × Nat × Nat :=
  (q.foldl (fun (p : Nat × (Nat × Nat × Nat)) v =>
    let m := v.natAbs
    let (i, (a, b, at_)) := p
    (i + 1, if m < a then (m, a, i) else if m < b then (a, m, at_) else (a, b, at_))) (0, (1000, 1000, 0))).2

/-- One check of a row (R194): the a-posteriori values and messages after it. `vars` gives the positions of its
variables, `base` the place of its first message. -/
def checkUpdate (fixed : Nat → Bool) (vars : List Nat) (base : Nat) (st : Array Int × Array Int) :
    Array Int × Array Int :=
  let (A, M) := st
  let q := vars.mapIdx fun e p => satTo 511 (A.getD p 0 - M.getD (base + e) 0)
  let neg := (q.filter (· < 0)).length % 2
  let (m1, m2, at_) := twoLeast q
  (List.zip vars q).foldl (fun (acc : Nat × (Array Int × Array Int)) pv =>
    let (e, (A, M)) := acc
    let (p, v) := pv
    let m := if e = at_ then m2 else m1
    let mag : Int := (min 63 (3 * m / 4) : Nat)
    let r := if (neg + b2n (decide (v < 0))) % 2 = 1 then -mag else mag
    let A := if fixed p then A else A.setIfInBounds p (satTo 511 (v + r))
    (e + 1, (A, M.setIfInBounds (base + e) r))) (0, (A, M)) |>.2

/-- Positions of the variables of check `i` of a row. -/
def checkVars (z i : Nat) (row : List (Nat × Nat)) : List Nat := row.map fun e => e.1 * z + (i + e.2 % z) % z

/-- One iteration over the scheduled rows; rows hold at most 10 entries, so check i of row r keeps its messages
from place (r × Z + i) × 10 on. -/
def minSumPass (z : Nat) (rows : List Nat) (fixed : Nat → Bool) (st : Array Int × Array Int) :
    Array Int × Array Int :=
  rows.foldl (fun st r =>
    let row := baseGraph.getD r []
    (List.range z).foldl (fun st i => checkUpdate fixed (checkVars z i row) ((r * z + i) * 10) st) st) st

/-- Every check of the scheduled rows is satisfied by the hard decisions (R195). -/
def checksHold (z : Nat) (rows : List Nat) (A : Array Int) : Bool :=
  rows.all fun r =>
    let row := baseGraph.getD r []
    (List.range z).all fun i => ((checkVars z i row).filter fun p => A.getD p 0 < 0).length % 2 == 0

/-- Iterations until convergence or the end of the budget: iterations run, convergence, a-posteriori values. -/
def minSumRun (z : Nat) (rows : List Nat) (fixed : Nat → Bool) :
    Nat → Nat → Array Int × Array Int → Nat × Bool × Array Int
  | 0, n, st => (n, false, st.1)
  | fuel + 1, n, st =>
    let st := minSumPass z rows fixed st
    if checksHold z rows st.1 then (n + 1, true, st.1) else minSumRun z rows fixed fuel (n + 1) st

/-- Outcome of a block job: iterations, convergence, decided information bits, least |A| over bits 0-79. -/
structure BlockResult where
  iters : Nat
  ok : Bool
  bits : List Bool
  least : Nat
  deriving DecidableEq, Repr

/-- Decodes a block from its 3K channel values within a budget of iterations (R194, R195). -/
def decodeBlock (k rate : Nat) (sets : List Nat) (values : List Int) (budget : Nat) : BlockResult :=
  let z := lifting k
  let v := values.toArray
  let fixed := fun p => decide (k ≤ p ∧ p < 8 * z)
  let A : Array Int := ((List.range (24 * z)).map fun p =>
    if p < k then v.getD p 0
    else if p < 8 * z then 511
    else if p - 8 * z < 2 * k then v.getD (k + (p - 8 * z)) 0 else 0).toArray
  let (n, ok, A) := minSumRun z (scheduledRows k rate sets) fixed budget 0 (A, (List.replicate (160 * z) (0 : Int)).toArray)
  { iters := n, ok := ok, bits := (List.range k).map fun p => decide (A.getD p 0 < 0),
    least := (List.range 80).foldl (fun m p => min m (A.getD p 0).natAbs) 1000 }

/-- Model cost of a block job in cycles of 307.2 MHz (R196). -/
def jobCost (k rate : Nat) (sets : List Nat) (iters : Nat) : Nat :=
  64 + iters * (scheduledRows k rate sets).length * (lifting k + 8)

/-- The decided payload of a frame from the bits of its blocks, if its CRC-32 matches (R195). -/
def framePayload (len : Nat) (blocks : List (List Bool)) : Option (List Byte) :=
  let bits := blocks.flatten
  let bytes := (List.range (len + 4)).map fun i => BitVec.ofNat 8 (bitsNat ((bits.drop (8 * i)).take 8))
  let pay := bytes.take len
  if leNum (bytes.drop len) = crc32 pay then some pay else none

end Sys2Proof.Machine
end

