-- ==== Sys2Proof/Machine/Repair.lean ====
section
/-!
DEFINITION. Logical and physical members of the lane, decoder, cipher and core arrays (R184, R198, R303, R398),
retirement and substitution, and the records of the repair ledger (R455, R456).
-/

namespace Sys2Proof.Machine

/-! ### Ledger records (Tables INS-4, INS-5) -/

/-- The 32 bytes of a record with its sequence number. -/
def ledgerBytes (seq : Nat) (r : LedgerRec) : List Byte :=
  let b := leBytes 4 seq ++ [BitVec.ofNat 8 r.kind, BitVec.ofNat 8 r.flags] ++ leBytes 2 r.type ++ leBytes 2 r.logical ++
    leBytes 2 r.old ++ leBytes 2 r.new ++ [BitVec.ofNat 8 r.cause, 0#8] ++ leBytes 7 r.stamp ++ [0#8] ++ leBytes 4 r.cal
  b ++ leBytes 4 (crc32 b)

/-- Two records speak of the same unit: TYPE and LOGICAL, for memory rows also the row (R457). -/
def LedgerRec.same (a b : LedgerRec) : Bool :=
  a.type == b.type && a.logical == b.logical &&
  (if a.kind = 0x05 ∨ a.kind = 0x07 ∨ a.kind = 0x08 ∨ a.kind = 0x09 ∨ a.kind = 0x0B then a.old == b.old else true)

/-- A substitution, remap or retirement joins the queue of 32 entries, or is counted lost (R456). -/
def State.ledgerPost (s : State) (kind type logical old new cause : Nat) : State :=
  let r : LedgerRec := { kind := kind, type := type, logical := logical, old := old, new := new, cause := cause,
                         stamp := s.localStamp, cal := s.calSeconds % 2 ^ 32 }
  let s := { s with ledger := { s.ledger with inForce := s.ledger.inForce.filter (!r.same ·) ++ [r] } }
  if s.ledger.queue.length < 32 then
    let seq := s.ledger.seq + s.ledger.queue.length
    ({ s with ledger := { s.ledger with queue := s.ledger.queue ++ [r] } }).tracePacket 5 0x02 (ledgerBytes seq r)
  else s.bump R.INS_LEDGER_LOST

/-! ### The arrays -/

/-- An array of logical members served by physical ones. -/
inductive Arr where
  | lane | dec | cip | core
  deriving DecidableEq, Repr

namespace Arr

def logical : Arr → Nat
  | lane => 64 | dec => 4 | cip => 2 | core => 4

def physical : Arr → Nat
  | lane => 72 | dec => 5 | cip => 3 | core => 5

def type : Arr → Nat
  | lane => 0x0030 | dec => 0x0013 | cip => 0x0018 | core => 0x0026

/-- Ledger kind of a substitution (Table INS-5). -/
def kind : Arr → Nat
  | lane => 1 | dec => 2 | cip => 3 | core => 4

def ens : Arr → Nat
  | lane => Hdr.lns | dec => Hdr.dec | cip => Hdr.cip | core => Hdr.cpu

def hdr (a : Arr) (p : Nat) : Nat :=
  match a with
  | lane => Hdr.lane p
  | dec => Hdr.decEng p
  | cip => Hdr.cipEng p
  | core => Hdr.core p

/-- The map register of logical member `n`: IN SERVICE and PHYS. -/
def mapInService (a : Arr) (n : Nat) : Fld :=
  match a with
  | lane => R.LNS_MAP_INSERVICE n
  | dec => R.DEC_MAP_INSERVICE n
  | cip => R.CIP_MAP_INSERVICE n
  | core => R.CPU_MAP_INSERVICE n

def mapPhys (a : Arr) (n : Nat) : Fld :=
  match a with
  | lane => R.LNS_MAP_PHYS n
  | dec => R.DEC_MAP_PHYS n
  | cip => R.CIP_MAP_PHYS n
  | core => R.CPU_MAP_PHYS n

end Arr

/-- Logical member `n` is in service. -/
def State.inService (s : State) (a : Arr) (n : Nat) : Bool := s.flag (a.mapInService n)

/-- Physical member that serves logical member `n`. -/
def State.physOf (s : State) (a : Arr) (n : Nat) : Nat := s.rd (a.mapPhys n)

/-- Logical member that physical member `p` serves. -/
def State.logicalOf (s : State) (a : Arr) (p : Nat) : Option Nat :=
  (List.range a.logical).find? fun n => s.inService a n && s.physOf a n == p

/-- Spare members: not retired, serving none, ascending. -/
def State.spares (s : State) (a : Arr) : List Nat :=
  (List.range a.physical).filter fun p => !(s.unit (a.hdr p)).retired && (s.logicalOf a p).isNone

/-- Logical members in service. -/
def State.servedCount (s : State) (a : Arr) : Nat := ((List.range a.logical).filter (s.inService a)).length

/-- A physical member is retired: the lowest spare takes its logical number, or that number goes out of service; the
ledger records it, and envelope condition 3 breaks until the substitute serves (R39, R184, R198, R303, R398). -/
def State.retire (s : State) (a : Arr) (p code : Nat) : State :=
  let h := a.hdr p
  let n := s.logicalOf a p
  let s := (s.setUnit h fun u => { u with retired := true }).wr (R.UFAULT_CODE h) code
  match n with
  | none => s
  | some n =>
    match s.spares a with
    | q :: _ =>
      let s := (s.wr (a.mapPhys n) q).envBreak 0x07 3 h
      (s.ledgerPost a.kind a.type n p q code).envRestore 0x07 3 h
    | [] =>
      let s := (s.put (a.mapInService n) false).envBreak 0x07 3 h
      (s.ledgerPost 0x0A a.type n p 0xFFFF code).put (R.UFAULT_DEGRADED a.ens) true

/-- The fourth lapse within 24 h (R39): retirement, or code 0x05 where no substitute remains. -/
def State.retireForLapses (s : State) (a : Arr) (p : Nat) : State :=
  let h := a.hdr p
  let day := 86400000000000
  let recent := (s.unit h).lapseTimes.filter fun t => decide (s.clk.ns < t + day)
  if recent.length < max 2 (s.rd R.DEV_RETIRE_LAPSES) ∨ (s.unit h).retired then s
  else if (s.spares a).isEmpty then s.wr (R.UFAULT_CODE h) 5
  else s.retire a p 4

/-- SPARES and INSERVICE of an array's status register, with BUSY left out. -/
def State.arrayCounts (s : State) (a : Arr) : Nat × Nat := ((s.spares a).length, s.servedCount a)

end Sys2Proof.Machine
end

