-- ==== Sys2Proof/Machine/Hunter.lean ====
section
/-!
DEFINITION. The preamble hunter and the demodulation lanes: detections and their lanes (R171-R178), the sync field,
header and payload of a frame in a lane (R179-R182), the watch list's boundary (R168, R170) and the self-test of the
physical lanes (R185). What the radio measures is an operand of each command.
-/

namespace Sys2Proof.Machine

def State.setRx (s : State) (f : RxState → RxState) : State := { s with rx := f s.rx }

/-! ### Lanes -/

/-- The frame in logical lane `n`, if the lane is not FREE. -/
def State.lane (s : State) (n : Nat) : Option LaneRec := (s.rx.lanes.find? (·.1 == n)).map (·.2)

/-- Puts a frame into a logical lane; lanes are kept in ascending number. -/
def putLane (n : Nat) (r : LaneRec) : List (Nat × LaneRec) → List (Nat × LaneRec)
  | [] => [(n, r)]
  | (m, x) :: l => if n = m then (n, r) :: l else if n < m then (n, r) :: (m, x) :: l else (m, x) :: putLane n r l

def State.setLane (s : State) (n : Nat) (r : LaneRec) : State := s.setRx fun x => { x with lanes := putLane n r x.lanes }

/-- The lane becomes FREE: a progress event of its physical lane. -/
def State.freeLane (s : State) (n : Nat) : State :=
  (s.setRx fun x => { x with lanes := x.lanes.filter (·.1 != n) }).progress (Hdr.lane (s.physOf .lane n))

/-- A logical lane that may be given a frame (R176, R177). -/
def State.laneFree (s : State) (n : Nat) : Bool :=
  s.inService .lane n && (s.lane n).isNone && s.accepts (Hdr.lane (s.physOf .lane n))

/-! ### Detections (R171-R176) -/

/-- A detection is declared on watch entry `entry`, or, with `exp`, on the expectation of that place in the hunter's
list (R171, R174). -/
def State.detect (s : State) (exp : Bool) (entry sofChip : Nat) (bin : Int) : State :=
  let now := s.clk.edges
  if !s.accepts Hdr.hnt || !s.domOn Dom.rxa then s
  else
    let add := fun (d : Det) => s.setRx fun x => { x with dets := x.dets ++ [d] }
    let d : Det := { entry := entry, tx := none, prio := 0, sofChip := sofChip, bin := bin, stamp := s.localStamp,
                     at_ := now }
    if exp then
      match s.tx.expects[entry]? with
      | some e => if e.from_ ≤ now ∧ now ≤ e.till then add { d with entry := 0x1FF, tx := some e.tx, prio := 4 } else s
      | none => s
    else
      let w := s.watch s.gen.active entry
      if s.rx.active.contains entry && (!w.gated || s.gateOpens w.chan) then add { d with prio := w.prio } else s

def execPreambleDetection (t : Elapsed) (exp : Bool) (entry sofChip : Nat) (bin : Int) (s : State) :
    Host.Outcome State Fault Refusal := .next ((s.advance t).detect exp entry sofChip bin)

/-- A detection is the frame already in a lane of the same entry: within 2 chips and 1 bin (R173). -/
def Det.same (d : Det) (r : LaneRec) : Bool :=
  d.entry == r.entry && d.tx == r.tx && decide (dist d.sofChip r.sofChip ≤ 2 ∧ (d.bin - r.bin).natAbs ≤ 1)

/-- Channel entry, generation, order and mark that a detection searches: of its watch entry, or of the transmission
whose acknowledgement is expected. -/
def State.detTarget (s : State) (d : Det) : Option (Nat × Nat × Nat × Bool × Nat) :=
  match d.tx with
  | some id => (s.findTx id).map fun x => (x.entry, x.gen, x.order, false, x.mark)
  | none =>
    if s.rx.active.contains d.entry then
      let w := s.watch s.gen.active d.entry
      some (w.chan, s.gen.active, w.order, w.anymark, w.mark)
    else none

/-- Takes a lane for a detection. -/
def State.takeLane (s : State) (n : Nat) (d : Det) (winner : Bool) : State :=
  match s.detTarget d with
  | none => s
  | some (chan, gen, order, anymark, mark) =>
    let c := s.chan gen chan
    s.setLane n { phase := 1, entry := d.entry, tx := d.tx, prio := d.prio, sofChip := d.sofChip, bin := d.bin,
                  stamp := d.stamp, at_ := d.at_, winner := winner, chan := chan, freq := c.freq, bw := c.bw,
                  order := order, anymark := anymark, wmark := mark, gen := gen }

/-- The pre-emptible lane of lower priority that a detection takes: lowest priority, then latest detection stamp,
then highest number (R176). -/
def State.victim (s : State) (prio : Nat) : Option Nat :=
  let ok := s.rx.lanes.filter fun p => decide (p.2.phase ≤ 3 ∧ p.2.prio < prio)
  (ok.foldl (fun (r : Option (Nat × LaneRec)) p => match r with
    | none => some p
    | some q =>
      if p.2.prio < q.2.prio ∨ (p.2.prio = q.2.prio ∧ (q.2.at_ < p.2.at_ ∨ (q.2.at_ = p.2.at_ ∧ q.1 < p.1))) then some p
      else some q) none).map (·.1)

/-- A detection without a lane is counted by its priority (R176). -/
def State.loseDet (s : State) (prio : Nat) : State :=
  match prio with
  | 0 => s.bump R.HNT_LOSTA_P0
  | 1 => s.bump R.HNT_LOSTA_P1
  | 2 => s.bump R.HNT_LOSTB_P2
  | 3 => s.bump R.HNT_LOSTB_P3
  | _ => s.bump R.HNT_ACK_ACKLOST

/-- One detection of the decision step. -/
def State.assignDet (s : State) (d : Det) : State :=
  if s.rx.lanes.any fun p => d.same p.2 then s.bump R.HNT_PREEMPT_DUPSUP
  else if (s.detTarget d).isNone then s
  else
    let s := s.bump R.HNT_DETS_COUNT
    match (List.range 64).find? s.laneFree with
    | some n => s.takeLane n d false
    | none => match s.victim d.prio with
      | some n => ((s.bump R.HNT_PREEMPT_PREEMPT).freeLane n).takeLane n d true
      | none => s.loseDet d.prio

/-- Order of detections of one step: priority descending, entry ascending, expectations first. -/
def insertDet (d : Det) : List Det → List Det
  | [] => [d]
  | e :: l => if e.prio < d.prio ∨ (e.prio = d.prio ∧ d.entry < e.entry) then d :: e :: l else e :: insertDet d l

/-- The detections whose decision step has come take lanes (R173, R176). -/
def State.assignLanes (s : State) : State :=
  let due := s.rx.dets.filter fun d => decide (d.at_ + 4 ≤ s.clk.edges)
  match due with
  | [] => s
  | d :: _ =>
    let step := due.filter (·.at_ == d.at_)
    let s := s.setRx fun x => { x with dets := x.dets.filter fun e => !step.contains e }
    ((step.foldl (fun l e => insertDet e l) []).foldl State.assignDet s).progress Hdr.hnt

def execLaneAssign (t : Elapsed) (s : State) : Host.Outcome State Fault Refusal := .next ((s.advance t).assignLanes)

/-! ### Inside a lane (R178-R182) -/

/-- Runs `k` on the frame in logical lane `n` when it is in phase `ph`. -/
def State.inLane (s : State) (n ph : Nat) (k : LaneRec → State → State) : State :=
  match s.lane n with
  | some r => if r.phase = ph then k r (s.progress (Hdr.lane (s.physOf .lane n))) else s
  | none => s

def execLaneDelimiterFound (t : Elapsed) (lane turns : Nat) (s : State) : Host.Outcome State Fault Refusal :=
  .next ((s.advance t).inLane lane 1 fun r s => s.setLane lane { r with phase := 2, turns := turns })

def execLaneNoDelimiter (t : Elapsed) (lane : Nat) (s : State) : Host.Outcome State Fault Refusal :=
  .next ((s.advance t).inLane lane 1 fun _ s => (s.bump R.HNT_REJ_NOSYNC).freeLane lane)

/-- The sync field: released without a mark, rejected for its mark, or stamped and kept; the stamp fixes the frame's
generation (R179, R49). `v1` and `v2` are the estimated sync values. -/
def State.laneSync (s : State) (n : Nat) (r : LaneRec) (v1 v2 : Nat) (blanked : Bool) (rssi foff desense : Nat) : State :=
  let mark := markOf r.order v1 v2
  if blanked then (s.bump R.HNT_REJ_NOSYNC).freeLane n
  else if !r.anymark && mark != r.wmark then (s.bump R.HNT_REJ_MARKREJ).freeLane n
  else
    let (st, al) := s.recStamp
    let back := s.syncSteps r.turns r.order r.bw
    s.setLane n { r with phase := 3, mark := mark, gen := s.gen.active, sync := st, syncAligned := al,
                         syncLocal := s.localStamp, sof := (st + stampMod - back % stampMod) % stampMod,
                         rssi := rssi, foff := foff, desense := desense }

def execLaneSyncDecided (t : Elapsed) (lane v1 v2 : Nat) (blanked : Bool) (rssi foff desense : Nat) (s : State) :
    Host.Outcome State Fault Refusal :=
  .next ((s.advance t).inLane lane 2 fun r s => s.laneSync lane r v1 v2 blanked rssi foff desense)

/-- The decoded header word: abandoned, or the payload begins (R151, R180). -/
def State.laneHeader (s : State) (n : Nat) (r : LaneRec) (word : Nat) : State :=
  if !headerValid word then (s.bump R.HNT_HDR_HDRFAIL).freeLane n
  else
    (s.setLane n { r with phase := 4, hdr := word % 2 ^ 24, done := headerSymbols r.order }).bump
      (R.LANE_TOTAL_FRAMES (s.physOf .lane n))

def execLaneHeaderDecoded (t : Elapsed) (lane word : Nat) (s : State) : Host.Outcome State Fault Refusal :=
  .next ((s.advance t).inLane lane 3 fun r s => s.laneHeader lane r word)

/-- The lane report (Table LNS-2). -/
def laneReport (n phys snr erased : Nat) (r : LaneRec) : List Byte :=
  let flags := b2n r.syncAligned + 2 * b2n (decide (0 < erased)) + 4 * b2n r.anymark + 8 * b2n r.tx.isSome +
    16 * b2n r.winner
  leBytes 7 r.sof ++ [BitVec.ofNat 8 flags] ++ leBytes 2 r.entry ++ [BitVec.ofNat 8 n, BitVec.ofNat 8 phys] ++
    leBytes 2 r.rssi ++ [BitVec.ofNat 8 snr, BitVec.ofNat 8 r.desense] ++ leBytes 4 r.foff ++
    leBytes 2 (r.mark + 1024 * (r.order - 6) + 8192 * r.bw + 32768 * b2n (hdrRobust r.hdr)) ++
    [BitVec.ofNat 8 (min erased 255), BitVec.ofNat 8 (min r.turns 255)]

/-- Soft values of a frame in code-bit order (R181). -/
def LaneRec.softValues (r : LaneRec) (soft : List Int) : List Int :=
  let nc := codedBits (hdrLen r.hdr) (hdrRate r.hdr) (hdrPset r.hdr)
  let b := symBits r.order (hdrRobust r.hdr)
  softBits (ceilDiv nc b) b nc r.mark soft

/-- The decoders of this member take the frame: not at a follower, not in a silent cohort state (R205, R422). -/
def State.decodesHere (s : State) : Bool := !s.inCohort || s.rd R.COH_STATUS_STATE == 2

/-- The frame handed to the decoders at its last payload chip (R196). -/
def State.laneFrame (s : State) (n : Nat) (r : LaneRec) (soft : List Int) (erased snr : Nat) : RxFrame :=
  { id := s.rx.nextId, lane := n, report := laneReport n (s.physOf .lane n) snr erased r, tx := r.tx, chan := r.chan,
    bw := r.bw, order := r.order, mark := r.mark, hdr := r.hdr, gen := r.gen, sync := r.sync,
    syncAligned := r.syncAligned, syncLocal := r.syncLocal, sofStep := stampStep r.sof, endEdge := s.clk.edges,
    endNs := s.clk.ns, soft := r.softValues soft }

/-! ### The watch list's boundary (R168, R170) -/

/-- The hunter decides which entries are active. -/
def State.decideActive (s : State) : State := s.setRx fun x => { x with active := s.activeEntries }

/-- A lane in PREAMBLE or SYNC meets a new watch list (R170). -/
def State.laneSwitch (s : State) (n : Nat) (r : LaneRec) : State :=
  if r.phase > 2 || r.tx.isSome then s
  else
    match s.rx.active.find? fun i =>
        let w := s.watch s.gen.active i
        let c := s.chan s.gen.active w.chan
        c.freq == r.freq && c.bw == r.bw && w.order == r.order && w.anymark == r.anymark && w.mark == r.wmark with
    | some i =>
      let w := s.watch s.gen.active i
      s.setLane n { r with entry := i, prio := w.prio, chan := w.chan }
    | none => (s.bump R.HNT_HDR_WATCHCHG).freeLane n

/-- A boundary that switches the watch list or the channel table. -/
def State.watchSwitched (s : State) (watch : Bool) : State :=
  let s := s.decideActive
  if watch then s.rx.lanes.foldl (fun s p => s.laneSwitch p.1 p.2) s else s

/-! ### Self-test (R185) -/

/-- The periodic self-test of physical lane `p` runs while it is free and at least four lanes in service are free. -/
def State.laneSelfTest (s : State) (p : Nat) (ok : Bool) : State :=
  let period := s.rd R.LNS_BIST_PERIOD
  let last := sget (fun _ => 0) s.rx.tested p
  let idle := match s.logicalOf .lane p with
    | some n => (s.lane n).isNone
    | none => true
  let free := ((List.range 64).filter fun n => s.inService .lane n && (s.lane n).isNone &&
    s.physOf .lane n != p).length
  if period = 0 ∨ !s.domOn Dom.dsp ∨ (s.unit (Hdr.lane p)).retired ∨ !idle ∨ free < 4 ∨
      s.clk.ns < last + period * 60000000000 then s
  else
    let s := s.setRx fun x => { x with tested := sput (fun _ => 0) x.tested p s.clk.ns }
    if ok then s
    else ((s.bump R.LNS_BIST_FAILS).unitFault (Hdr.lane p) 1 0).retire .lane p 1

def execLaneSelfTest (t : Elapsed) (phys : Nat) (ok : Bool) (s : State) : Host.Outcome State Fault Refusal :=
  .next ((s.advance t).laneSelfTest phys ok)

/-! ### What the registers show -/

/-- HNT_STATUS: active and inactive entries. -/
def State.hntStatus (s : State) : Nat :=
  65536 * s.rx.active.length + (s.validEntries - s.rx.active.length)

/-- LNS_STATUS. -/
def State.lnsStatus (s : State) : Nat :=
  let (sp, n) := s.arrayCounts .lane
  65536 * sp + 256 * n + s.rx.lanes.length

/-- LNS_BUSYk, and LNS_PAYk with `pay`. -/
def State.lnsBusy (s : State) (k : Nat) (pay : Bool) : Nat :=
  s.rx.lanes.foldl (fun v p => if p.1 / 32 = k ∧ (!pay ∨ 4 ≤ p.2.phase) then v + 2 ^ (p.1 % 32) else v) 0

/-- LANE_STATE, LANE_DET and LANE_SYMS of physical lane `p`. -/
def State.laneState (s : State) (p : Nat) : Nat × Nat × Nat :=
  match s.logicalOf .lane p with
  | none => (256 * 0x7F, 0, 0)
  | some n => match s.lane n with
    | none => (256 * n, 0, 0)
    | some r => (2 ^ 27 * r.prio + 65536 * r.entry + 256 * n + r.phase, r.stamp % 2 ^ 32, 65536 * r.erased + r.done)

end Sys2Proof.Machine
end

