-- ==== Sys2Proof/Machine/Decoder.lean ====
section
/-!
DEFINITION. The decoders: block jobs on the model of R196 with their budget, shedding and deadline, the outcome of a
frame (R195), and the soft buffers with attribution, combining and release (R199-R204). Job times are cycles of the
307.2 MHz clock.
-/

namespace Sys2Proof.Machine

/-! ### Soft buffers (Table DEC-4) -/

/-- Soft buffers are in use: DEC_SBBASE.EN set and DRAM on (R19, R199). -/
def State.softInUse (s : State) : Bool := s.flag R.DEC_SBBASE_EN && s.domOn Dom.dsp && s.domOn Dom.dram

/-- The buffers exist, though DRAM may be in retention: they are not used then, but expire and are freed (R19). -/
def State.softHeld (s : State) : Bool := s.flag R.DEC_SBBASE_EN && s.domOn Dom.dsp && (s.dom Dom.dram).state != 0

/-- Address of buffer `b`. -/
def State.sbAddr (s : State) (b : Nat) : Nat := 64 * s.rd R.DEC_SBBASE_ADDR + 7040 * b

def State.sbNum (s : State) (b off n : Nat) : Nat := s.num (s.sbAddr b + off) n

def State.setSbNum (s : State) (b off n v : Nat) : State := s.setNum (s.sbAddr b + off) n v

/-- STATE of a buffer: 0 FREE, 1 KEPT, 2 DECODED. -/
def State.sbState (s : State) (b : Nat) : Nat := s.sbNum b 0 1

/-- Sets STATE, and shows it in the partner context's SBUF field (Table LNK-5). -/
def State.setSbState (s : State) (b st : Nat) : State :=
  let s := s.setSbNum b 0 1 st
  if b < 512 then s.setCtxNum b 64 2 (b + 32768 * b2n (st != 0)) else s

/-- The MODE field of a frame. -/
def RxFrame.mode (f : RxFrame) : Nat := f.mark + 1024 * (f.order - 6) + 8192 * f.bw

/-- The channel values of a buffer for a payload of `len` bytes. -/
def State.sbValues (s : State) (b len : Nat) : List Int :=
  (s.bytes (s.sbAddr b + 32) (valueCount len)).map fun x => signed 8 x.toNat

/-- Writes channel values. -/
def State.setSbValues (s : State) (b : Nat) (v : List Int) : State :=
  s.setBytes (s.sbAddr b + 32) (v.map fun x => BitVec.ofNat 8 (unsigned 8 (satTo 127 x)))

/-- The cycle count LAST is kept in: aligned, or local while ALIGNED is clear (R204). -/
def State.sbClock (s : State) : Nat := stampCycle s.recStamp.1 % 2 ^ 32

/-- The channel values of a decoded frame: its codeword, positive for 0 (R203). -/
def codewordValues (pay : List Byte) : List Int :=
  ((cutLens (blockLens pay.length) (payloadBits pay)).flatMap fun b => b ++ paritySeq b).map fun x => if x then -127 else 127

/-- Successor of a parity set. -/
def nextSet (p : Nat) : Nat := (p + 1) % 4

/-- A buffer is overwritten with a first transmission: KEPT, NEXT 1 (R201). -/
def State.sbFresh (s : State) (b : Nat) (f : RxFrame) (src ctr : Nat) (v : List Int) : State :=
  let hdr := leBytes 1 1 ++ [BitVec.ofNat 8 (1 + 16)] ++ leBytes 3 f.hdr ++ leBytes 1 f.chan ++ leBytes 2 f.mode ++
    leBytes 2 src ++ leBytes 2 f.gen ++ leBytes 4 ctr ++ leBytes 7 f.sync ++ [BitVec.ofNat 8 (b2n f.syncAligned)] ++
    leBytes 4 s.sbClock ++ [1#8] ++ zeros 3
  ((s.setBytes (s.sbAddr b) hdr).setSbValues b v).setSbState b 1

/-- A buffer keeps summed values: NEXT follows set `p`, SETS gains it (R201, R202). -/
def State.sbKeep (s : State) (b p : Nat) (v : List Int) : State :=
  let n := bitsOf (s.sbNum b 1 1) 4 4
  let s := (s.setSbNum b 1 1 (nextSet p + 16 * min (n + 1) 15)).setSbNum b 28 1 (s.sbNum b 28 1 ||| 2 ^ p)
  ((s.setSbNum b 24 4 s.sbClock).setSbValues b v).setSbState b 1

/-- A buffer becomes DECODED with a decoded frame (R203). -/
def State.sbDecoded (s : State) (b p ctr : Nat) (pay : List Byte) : State :=
  let n := bitsOf (s.sbNum b 1 1) 4 4
  let s := (s.setSbNum b 1 1 (nextSet p + 16 * min (n + 1) 15)).setSbNum b 28 1 (s.sbNum b 28 1 ||| 2 ^ p)
  (((s.setSbNum b 12 4 ctr).setSbNum b 24 4 s.sbClock).setSbValues b (codewordValues pay)).setSbState b 2

/-- The buffer of an unknown sender: the one that holds its SOURCE, the lowest FREE one, or the one updated longest
ago (R204). -/
def State.unknownBuffer (s : State) (src : Nat) : Nat :=
  let all := (List.range 32).map (512 + ·)
  match all.find? fun b => s.sbState b != 0 && s.sbNum b 8 2 == src with
  | some b => b
  | none => match all.find? fun b => s.sbState b == 0 with
    | some b => b
    | none =>
      let age := fun b => (s.sbClock + 2 ^ 32 - s.sbNum b 24 4) % 2 ^ 32
      all.foldl (fun m b => if age m < age b then b else m) 512

/-- A buffer's lifetime has passed (R204). -/
def State.bufferExpiry (s : State) (b : Nat) : State :=
  let age := (s.sbClock + 2 ^ 32 - s.sbNum b 24 4) % 2 ^ 32
  if s.softHeld && s.sbState b != 0 && decide (max 1 (s.rd R.DEC_SBLIFE_CYCLES) ≤ age) then
    (s.setSbState b 0).bump R.DEC_IRCNT_EXPIRED
  else s

def execBufferExpiry (t : Elapsed) (buffer : Nat) (s : State) : Host.Outcome State Fault Refusal :=
  .next ((s.advance t).bufferExpiry buffer)

/-- Frees the buffers `p` picks. -/
def State.freeBuffers (s : State) (p : State → Nat → Bool) : State :=
  if s.softHeld then
    (List.range 544).foldl (fun s b => if s.sbState b != 0 && p s b then s.setSbState b 0 else s) s
  else s

/-- A write of DEC_SBBASE: ADDR only while EN is 0; EN is set only where the area lies wholly in DRAM, with every
buffer FREE; clearing it frees every buffer (R199). -/
def State.writeSbBase (s : State) (v : Nat) : State :=
  let en := s.flag R.DEC_SBBASE_EN
  let s := if en then s else s.wr R.DEC_SBBASE_ADDR (bitsOf v 6 26)
  if bitOf v 0 then
    let a := 64 * s.rd R.DEC_SBBASE_ADDR
    if en then s
    else if s.rangeIn (fun r => r == .dram) a 3829760 then (s.put R.DEC_SBBASE_EN true).freeBuffers fun _ _ => true
    else s
  else if en then (s.freeBuffers fun _ _ => true).put R.DEC_SBBASE_EN false
  else s

def execSoftBuffersEnable (t : Elapsed) (who : Who) (value : Nat) (s : State) : Host.Outcome State Fault Refusal :=
  .next ((s.advance t).pageWrite who Hdr.dec fun s => s.writeSbBase value)

def execSoftBuffersDisable (t : Elapsed) (who : Who) (value : Nat) (s : State) : Host.Outcome State Fault Refusal :=
  .next ((s.advance t).pageWrite who Hdr.dec fun s => s.writeSbBase value)

/-! ### Frames and jobs -/

def State.rxFrame (s : State) (id : Nat) : Option RxFrame := s.rx.frames.find? (·.id == id)

def State.updFrame (s : State) (id : Nat) (g : RxFrame → RxFrame) : State :=
  s.setRx fun x => { x with frames := x.frames.map fun f => if f.id = id then g f else f }

/-- The model's clock: cycles of 307.2 MHz. -/
def cyclesOfNs (ns : Nat) : Nat := ns * 3072 / 10000

/-- DEC_DEADLINE.US, 200-1,700. -/
def State.deadlineUs (s : State) : Nat := clamp 200 1700 (s.rd R.DEC_DEADLINE_US)

/-- Puts the jobs of a frame's attempt into the queue, one for each block, ready at cycle `ready`. -/
def State.queueJobs (s : State) (f : RxFrame) (ready : Nat) : State :=
  let n := (blockLens (hdrLen f.hdr)).length
  let dl := cyclesOfNs (f.endNs + 1000 * s.deadlineUs)
  s.setRx fun x => { x with jobs := x.jobs ++ (List.range n).map fun b =>
    { frame := f.id, attempt := f.attempt, block := b, ready := ready, deadline := dl } }

/-- Begins a frame's attempt: its buffer, its channel values and their cover. -/
def State.startAttempt (s : State) (f : RxFrame) (attempt : Nat) (buffer : Option Nat) (values : List Int) (covRate : Nat)
    (covSets : List Nat) (ready : Nat) : State :=
  let f := { f with attempt := attempt, buffer := buffer, values := values, covRate := covRate, covSets := covSets }
  (s.updFrame f.id fun _ => f).queueJobs f ready

/-- Values of block `b` of a list of channel values. -/
def blockOf (len b : Nat) (v : List Int) : Nat × List Int :=
  let ks := blockLens len
  let k := ks.getD b 0
  (k, (v.drop (((ks.take b).map (3 * ·)).sum)).take (3 * k))

/-- Cover of a combination with buffer `b`: a DECODED one covers every position, a KEPT one its SETS (R203). -/
def State.coverWith (s : State) (f : RxFrame) (b : Nat) : Nat × List Nat :=
  if s.sbState b = 2 then (3, [0])
  else (hdrRate f.hdr, hdrPset f.hdr :: (List.range 4).filter fun p => bitOf (s.sbNum b 28 1) p)

/-- The transmission's own channel values. -/
def RxFrame.ownValues (f : RxFrame) : List Int := frameValues (hdrLen f.hdr) (hdrRate f.hdr) (hdrPset f.hdr) f.soft

/-- Starts the combined attempt with buffer `b`. -/
def State.combine (s : State) (f : RxFrame) (attempt b ready : Nat) : State :=
  let (r, sets) := s.coverWith f b
  s.startAttempt f attempt (some b) (addValues f.ownValues (s.sbValues b (hdrLen f.hdr))) r sets ready

/-- Candidates of a parity set: buffers with the same CHAN, MODE, LEN and RATE, KEPT and expecting it, or DECODED
(R202). At most MAXCAND of them are tried. -/
def State.candidates (s : State) (f : RxFrame) : List Nat :=
  if !s.softInUse then []
  else
    let same := fun b => s.sbNum b 5 1 == f.chan && s.sbNum b 6 2 == f.mode && s.sbNum b 2 3 % 2048 == f.hdr % 2048
    (List.range 544).filter fun b => same b && (s.sbState b == 2 ||
      (s.sbState b == 1 && s.sbNum b 1 1 % 4 == hdrPset f.hdr))

/-- A frame's outcome joins the radio log (Table INS-2), whose outcome code the manual leaves open; the frame and its
jobs leave. -/
def State.dropFrame (s : State) (id : Nat) : State :=
  match s.rxFrame id with
  | none => s
  | some f =>
    let (v, s) := s.free
    let s := s.tracePacket 3 0x01 (f.report ++ leBytes 3 f.hdr ++ leBytes 1 v)
    s.setRx fun x => { x with frames := x.frames.filter (·.id != id), jobs := x.jobs.filter (·.frame != id) }

/-- A frame enters the decoders: alone for set 0, with its first candidate for the parity sets (R201, R202). -/
def State.beginDecode (s : State) (f : RxFrame) (ready : Nat) : State :=
  if hdrPset f.hdr = 0 then s.startAttempt f 0 none f.ownValues (hdrRate f.hdr) [0] ready
  else match s.candidates f with
  | [] => (s.bump R.DEC_IRCNT_ORPHAN).dropFrame f.id
  | b :: rest =>
    let n := clamp 1 4 (s.rd R.DEC_CFG_MAXCAND)
    s.combine { f with cands := rest.take (n - 1), allCands := b :: rest } 0 b ready

/-! ### The model of R196 -/

/-- Model-free time of logical engine `e`. -/
def State.decFree (s : State) (e : Nat) : Nat :=
  (s.rx.jobs.filter fun j => j.engine == some e && j.placed).foldl (fun m j => max m j.stop)
    (sget (fun _ => 0) s.rx.decFree e)

/-- Logical engine `e` is in service and accepts work. -/
def State.engineOpen (s : State) (e : Nat) : Bool :=
  s.inService .dec e && s.accepts Hdr.dec && s.accepts (Hdr.decEng (s.physOf .dec e))

/-- Queue order: ready instant, logical lane, attempt, block. -/
def State.jobBefore (s : State) (a b : Job) : Bool :=
  let lane := fun (j : Job) => ((s.rxFrame j.frame).map (·.lane)).getD 0
  let ka := [a.ready, lane a, a.attempt, a.block]
  let kb := [b.ready, lane b, b.attempt, b.block]
  decide (List.lex ka kb (fun x y => decide (x < y)))

/-- The same job. -/
def Job.is (a b : Job) : Bool := a.frame == b.frame && a.attempt == b.attempt && a.block == b.block

def State.updJob (s : State) (j : Job) : State :=
  s.setRx fun x => { x with jobs := x.jobs.map fun k => if k.is j then j else k }

/-- Least by a strict order. -/
def leastBy {α : Type} (lt : α → α → Bool) : List α → Option α
  | [] => none
  | a :: l => match leastBy lt l with
    | none => some a
    | some b => if lt b a then some b else some a

/-- Places one job: engine, start, budget, and the outcome its values give (R194-R196). -/
def State.placeJob (s : State) (j : Job) : State :=
  match s.rxFrame j.frame with
  | none => s
  | some f =>
    let (k, v) := blockOf (hdrLen f.hdr) j.block f.values
    let cost := jobCost k f.covRate f.covSets
    let engines := (List.range 4).filter s.engineOpen
    match leastBy (fun a b => decide (s.decFree a < s.decFree b)) engines with
    | none => s.updJob { j with placed := true, shed := true, start := j.ready, stop := j.ready }
    | some e =>
      let start := max j.ready (s.decFree e)
      let limit := clamp 1 24 (s.rd R.DEC_ITER_MAX)
      let budget := if j.deadline < start + 64 then 0 else min limit ((j.deadline - start - 64) / (cost 1 - 64))
      if budget < clamp 1 24 (s.rd R.DEC_ITER_MIN) then
        s.updJob { j with placed := true, shed := true, start := j.ready, stop := j.ready }
      else
        let r := decodeBlock k f.covRate f.covSets v budget
        s.updJob { j with placed := true, engine := some e, start := start, stop := start + cost r.iters, budget := budget,
                          ok := r.ok, iters := r.iters, bits := r.bits, least := r.least }

/-- Places the jobs that are ready, in queue order. -/
def State.placeJobs : Nat → State → State
  | 0, s => s
  | fuel + 1, s =>
    match leastBy s.jobBefore (s.rx.jobs.filter fun j => !j.placed && decide (j.ready ≤ cyclesOfNs s.clk.ns)) with
    | none => s
    | some j => State.placeJobs fuel (s.placeJob j)

/-- Places every ready job. -/
def State.plan (s : State) : State := State.placeJobs s.rx.jobs.length s

/-- Jobs not started on engines that stopped accepting work are placed again (R196). -/
def State.replanJobs (s : State) : State :=
  (s.setRx fun x => { x with jobs := x.jobs.map fun j => match j.engine with
    | some e => if j.placed && !j.started && !s.engineOpen e then
        { frame := j.frame, attempt := j.attempt, block := j.block, ready := j.ready, deadline := j.deadline } else j
    | none => j }).plan

/-! ### Outcome of a frame (R195, R200-R203) -/

/-- The bytes of the decided information bits of a frame. -/
def decidedBytes (bits : List Bool) : List Byte :=
  (List.range (bits.length / 8)).map fun i => BitVec.ofNat 8 (bitsNat ((bits.drop (8 * i)).take 8))

/-- What the link engine's answer does to the soft buffers after a success alone (R201). -/
def State.afterTaken (s : State) (f : RxFrame) (pay : List Byte) (t : Taken) : State :=
  let h := parseFrame pay
  let put := fun (s : State) b =>
    ((s.sbFresh b f h.src h.ctr f.ownValues).sbDecoded b 0 h.ctr pay).setSbNum b 1 1 (1 + 16)
  match t with
  | .partner k => if s.softInUse then put s k else s
  | .unknown => if s.softInUse then put s (s.unknownBuffer h.src) else s
  | _ => s

/-- A decoded link frame goes to the link engine; one whose context is being rewritten waits (R47, R247). -/
def State.linkFrame (s : State) (f : RxFrame) (pay : List Byte) (buffer : Option Nat) (sets : Nat) : State :=
  let (s, t) := s.takeFrame f pay buffer sets
  match t with
  | .wait => s.setRx fun x => { x with held := x.held ++ [(f, pay, buffer, sets)] }
  | t => if buffer.isNone then s.afterTaken f pay t else s

/-- An acknowledgement no expectation of this member found, in a cohort: it goes to the transmission to its sender that
awaits one, here or at the owner of the sender's context (R205, R427). -/
def State.cohortAck (s : State) (f : RxFrame) (pay : List Byte) : State :=
  if !s.inCohort then s
  else match s.partnerBy f.gen (imgNum pay 4 2) with
  | none => s
  | some k =>
    if !s.ctxOwned f.gen k then s.handOver f.gen k f pay none 0
    else match s.tx.list.find? fun x => x.ar && x.stage == .await && x.ctx == k && x.ctr == imgNum pay 6 4 with
    | some x => s.ackReceived x.id pay
    | none => s

/-- A frame decoded: an acknowledgement on an expectation, or a link frame (R195). An acknowledgement found by a
watch entry concerns no one here. -/
def State.frameDecoded (s : State) (f : RxFrame) (pay : List Byte) : State :=
  let s := s.dropFrame f.id
  if hdrKind f.hdr = 1 then
    match f.tx with
    | some id => s.ackReceived id pay
    | none => s.cohortAck f pay
  else
    let h := parseFrame pay
    match f.buffer with
    | none => s.linkFrame f pay none 1
    | some b =>
      let f' := { f with gen := s.sbNum b 10 2, sync := s.sbNum b 16 7, syncAligned := bitOf (s.sbNum b 23 1) 0 }
      let s := s.sbDecoded b (hdrPset f.hdr) h.ctr pay
      s.linkFrame f' pay (some b) (s.sbNum b 28 1 % 16)

/-- Attribution of a failed set-0 attempt (R200): the provisional header's bytes and the proposed buffer. -/
def State.attribute (s : State) (f : RxFrame) (j : Job) : Option (List Byte × Nat) :=
  let bs := decidedBytes j.bits
  let h := parseFrame bs
  if !s.softInUse || hdrKind f.hdr == 1 || decide (j.bits.length < 80) || decide (j.least < max 4 (s.rd R.DEC_CFG_ATTR)) ||
      h.dest != s.ownShort then none
  else some (bs, (s.partnerBy f.gen h.src).getD (s.unknownBuffer h.src))

/-- A proposal to keep a set-0 attempt in the buffer it was attributed to (R200, R201). -/
def State.proposeFirst (s : State) (f : RxFrame) (bs : List Byte) (b : Nat) : State :=
  let h := parseFrame bs
  let (s, yes) := s.keepDecide f bs b
  let s := if !yes then s
    else match f.buffer with
      | some c => s.sbKeep c 0 f.values
      | none => s.sbFresh b f h.src h.ctr f.values
  s.dropFrame f.id

/-- A set-0 attempt failed: a combined attempt with the attributed buffer, a proposal, or nothing; a combined attempt
that fails too is proposed to the buffer that was attributed (R201). -/
def State.firstFailed (s : State) (f : RxFrame) (j : Job) (ready : Nat) : State :=
  match f.buffer with
  | some b => if s.softInUse then s.proposeFirst f f.attr b else s.dropFrame f.id
  | none =>
    match s.attribute f j with
    | none => s.dropFrame f.id
    | some (bs, b) =>
      let h := parseFrame bs
      if s.sbState b != 0 && s.sbNum b 5 1 == f.chan && s.sbNum b 6 2 == f.mode && s.sbNum b 2 3 == f.hdr &&
          s.sbNum b 12 4 == h.ctr then s.combine { f with attr := bs } 1 b ready
      else s.proposeFirst f bs b

/-- A parity set's candidate failed: the next one, or the keep of the only one, under its SOURCE and COUNTER; a job
that did not run leaves the signs of its channel values (R202). -/
def State.parityFailed (s : State) (f : RxFrame) (j : Job) (ready : Nat) : State :=
  match f.cands, f.allCands with
  | b :: rest, _ => s.combine { f with cands := rest } (f.attempt + 1) b ready
  | [], [b] =>
    let bs := decidedBytes (if j.bits.isEmpty then (f.values.take 80).map fun v => decide (v < 0) else j.bits)
    let hdr := bs.take 4 ++ leBytes 2 (s.sbNum b 8 2) ++ leBytes 4 (s.sbNum b 12 4) ++ bs.drop 10
    let (s, yes) := if (blockLens (hdrLen f.hdr)).headD 0 < 80 || !s.softInUse then (s.bump R.LNK_ACK_KEEPDEC, false)
      else s.keepDecide f hdr b
    let s := if yes then s.sbKeep b (hdrPset f.hdr) f.values else s
    s.dropFrame f.id
  | [], _ => (s.bump R.DEC_IRCNT_AMBIG).dropFrame f.id

/-- Every block of a frame's attempt has ended (R195). `ready` is the attempt's model end. -/
def State.attemptEnd (s : State) (f : RxFrame) (js : List Job) (ready : Nat) : State :=
  let s := s.setRx fun x => { x with jobs := x.jobs.filter (·.frame != f.id) }
  let blocks := (List.range js.length).map fun b => ((js.find? (·.block == b)).map (·.bits)).getD []
  let all := js.all (·.ok)
  let first := (js.find? (·.block == 0)).getD { frame := f.id, attempt := 0, block := 0, ready := 0, deadline := 0 }
  let pay := if all then framePayload (hdrLen f.hdr) blocks else none
  let s := if all && pay.isNone then s.bump R.DEC_FAILS_CRCFAIL else s
  let source := match pay, f.buffer with
    | some p, some b => hdrPset f.hdr == 0 || imgNum p 4 2 == s.sbNum b 8 2
    | _, _ => true
  match pay with
  | some p => if source then s.frameDecoded f p else s.parityFailed f first ready
  | none =>
    if hdrKind f.hdr = 1 then s.dropFrame f.id
    else if hdrPset f.hdr = 0 then s.firstFailed f first ready
    else s.parityFailed f first ready

/-- A job has ended; with the last one of the attempt the attempt's outcome is taken. -/
def State.jobEnded (s : State) (j : Job) : State :=
  let s := s.updJob { j with ended := true }
  let s := match j.engine with
    | some e => s.setRx fun x => { x with decFree := sput (fun _ => 0) x.decFree e (max j.stop
        (sget (fun _ => 0) x.decFree e)) }
    | none => s
  match s.rxFrame j.frame with
  | none => s
  | some f =>
    let js := s.rx.jobs.filter fun k => k.frame == j.frame && k.attempt == j.attempt
    if js.all (·.ended) then s.attemptEnd f js (js.foldl (fun m k => max m k.stop) 0) else s

/-- A job reaches its start: it runs, or is shed at its ready instant (R196). -/
def State.jobStart (s : State) : State :=
  let s := s.plan
  match leastBy (fun (a b : Job) => decide (a.start < b.start) || (a.start == b.start && s.jobBefore a b))
      (s.rx.jobs.filter fun j => j.placed && !j.started && decide (j.start ≤ cyclesOfNs s.clk.ns)) with
  | none => s
  | some j =>
    let s := s.updJob { j with started := true }
    if j.shed then (s.bump R.DEC_SHED_SHED).jobEnded { j with started := true, ok := false } else s

def execDecodeJobStart (t : Elapsed) (s : State) : Host.Outcome State Fault Refusal := .next ((s.advance t).jobStart)

/-- A job's model end: its result is taken; a real finish after it counts as late (R195, R197). -/
def State.jobEnd (s : State) (late : Bool) : State :=
  match leastBy (fun (a b : Job) => decide (a.stop < b.stop) || (a.stop == b.stop && s.jobBefore a b))
      (s.rx.jobs.filter fun j => j.started && !j.ended && decide (j.stop ≤ cyclesOfNs s.clk.ns)) with
  | none => s
  | some j =>
    let e := j.engine.getD 0
    let s := if late then (s.bump R.DEC_SHED_LATE).envBreak 0x05 2 Hdr.dec else s
    let s := (s.bump R.DEC_ITERSUM_COUNT j.iters).count (96 + e)
    let s := if j.ok then s.bump R.DEC_BLOCKS_COUNT else s.bump R.DEC_FAILS_BLKFAIL
    (s.progress (Hdr.decEng (s.physOf .dec e))).jobEnded j

def execDecodeJobEnd (t : Elapsed) (late : Bool) (s : State) : Host.Outcome State Fault Refusal :=
  .next ((s.advance t).jobEnd late)

/-- A result still missing at the deadline is a failure (R197). -/
def State.jobDeadline (s : State) : State :=
  match s.rx.jobs.find? fun j => j.started && !j.ended && decide (j.deadline ≤ cyclesOfNs s.clk.ns) with
  | none => s
  | some j => ((s.bump R.DEC_SHED_LATE).envBreak 0x05 2 Hdr.dec).jobEnded { j with ok := false, bits := [], least := 0 }

def execDecodeDeadline (t : Elapsed) (s : State) : Host.Outcome State Fault Refusal := .next ((s.advance t).jobDeadline)

/-! ### From the lanes to the decoders (R181, R196, R205) -/

/-- A copy's values for combining. -/
def copyKey (f : RxFrame) : Nat × Nat × Nat × Nat × Nat := (f.chan, f.order, f.mark, f.hdr, f.sync)

/-- Two copies are of one frame: the same channel entry, order, mark and header word, ends of sync within 2 chips
(R205). -/
def State.sameFrame (s : State) (f g : RxFrame) (sync : Nat) : Bool :=
  f.chan == g.chan && f.order == g.order && f.mark == g.mark && f.hdr == g.hdr &&
    decide ((stampDiff sync g.sync).natAbs ≤ s.stepsOf3 (32000 / 2 ^ g.bw))

/-- Puts a copy in its place, ascending by member. -/
def insertCopy (c : Nat × List Byte × List Int) : List (Nat × List Byte × List Int) → List (Nat × List Byte × List Int)
  | [] => [c]
  | x :: l => if c.1 < x.1 then c :: x :: l else x :: insertCopy c l

/-- The lead takes member `m`'s copy of a frame: it joins the copies that wait, opens a wait of its own, or is late. -/
def State.addCopy (s : State) (m : Nat) (f : RxFrame) : State :=
  let c := (m, f.report, f.soft)
  match s.rx.frames.find? fun g => g.waitTill.isSome && s.sameFrame f g f.sync with
  | some g => s.updFrame g.id fun g => { g with copies := insertCopy c g.copies, tx := g.tx <|> f.tx }
  | none =>
    if s.rx.combined.any fun k => s.sameFrame f { f with chan := k.1, order := k.2.1, mark := k.2.2.1, hdr := k.2.2.2.1,
                                                         sync := k.2.2.2.2 } f.sync then
      (s.bump R.DEC_IRCNT_COMBLATE).envBreak 0x05 2 Hdr.dec
    else
      let f := { f with waitTill := some (s.clk.ns + 1000 * s.rd R.DEC_CFG_COMBWAIT), copies := [c] }
      s.setRx fun x => { x with frames := x.frames ++ [f] }

/-- A follower hands its soft values to the lead, and keeps what it must remember of an awaited acknowledgement; a
silent member shows its frame to the inspector only (R205, R422). -/
def State.forwardSoft (s : State) (f : RxFrame) : State :=
  if s.cohortSilent then
    let (v, s) := s.free
    s.tracePacket 3 0x01 (f.report ++ leBytes 3 f.hdr ++ leBytes 1 v)
  else if s.follows then
    let s := s.issue (s.rd R.COH_STATUS_LEAD) 0x08 (s.cohFields f)
      (f.report ++ f.soft.map fun x => BitVec.ofNat 8 (unsigned 8 x))
    if f.tx.isSome then
      s.setRx fun x => { x with frames := x.frames ++ [{ f with waitTill := some (s.clk.ns + 2000000) }] }
    else s
  else s

/-- Sum of two copies, saturating at ±127 (R205). -/
def addSoft (a b : List Int) : List Int := a.zipWith (fun x y => satTo 127 (x + y)) b

/-- The combined frame: values summed by ascending member; its report is the lead's own, or that of the lowest member;
the member that heard it best sends an acknowledgement to an unknown sender (R205, R427). -/
def State.combined (s : State) (f : RxFrame) : RxFrame :=
  match f.copies with
  | [] => f
  | c :: rest =>
    let rssi := fun (x : Nat × List Byte × List Int) => signed 16 (imgNum x.2.1 12 2)
    let best := rest.foldl (fun m x => if rssi m < rssi x then x else m) c
    let own := (f.copies.find? (·.1 == s.cohIndex)).getD c
    { f with report := own.2.1, soft := rest.foldl (fun v x => addSoft v x.2.2) c.2.2, combined := !rest.isEmpty,
             member := some best.1, waitTill := none, copies := [] }

/-- The last payload symbol: the lane enters FLUSH, its frame becomes ready; a cohort lead waits for copies. -/
def State.lanePayload (s : State) (n : Nat) (r : LaneRec) (soft : List Int) (erased snr : Nat) : State :=
  let f := s.laneFrame n r soft erased snr
  let s := s.setLane n { r with phase := 5, erased := erased, frame := f.id,
                                done := r.done + payloadSymbols (hdrLen r.hdr) (hdrRate r.hdr) (hdrPset r.hdr) r.order
                                  (hdrRobust r.hdr) }
  let s := s.setRx fun x => { x with nextId := x.nextId + 1 }
  if !s.decodesHere then s.forwardSoft f
  else if s.inCohort then s.addCopy s.cohIndex f
  else (s.setRx fun x => { x with frames := x.frames ++ [f] }).beginDecode f (cyclesOfNs s.clk.ns)

def execLanePayloadEnd (t : Elapsed) (lane : Nat) (soft : List Int) (erased snr : Nat) (s : State) :
    Host.Outcome State Fault Refusal :=
  .next ((s.advance t).inLane lane 4 fun r s => s.lanePayload lane r soft erased snr)

/-- The lane has handed over its values and its report (Table LNS-1). -/
def execLaneFlushDone (t : Elapsed) (lane : Nat) (s : State) : Host.Outcome State Fault Refusal :=
  .next ((s.advance t).inLane lane 5 fun r s =>
    let s := s.bump R.LNS_COUNTS_FRAMES
    let s := if 0 < r.erased then s.bump R.LNS_COUNTS_ERASED else s
    (s.count (32 + lane)).freeLane lane)

/-- COMBWAIT of the frame that has waited longest ends: its summed copies become ready (R205). -/
def State.combineWaitEnd (s : State) : State :=
  match s.rx.frames.find? fun f => match f.waitTill with
      | some t => decide (t ≤ s.clk.ns)
      | none => false with
  | none => s
  | some f =>
    if !s.decodesHere then s.setRx fun x => { x with frames := x.frames.filter (·.id != f.id) }
    else
      let g := s.combined f
      let s := s.setRx fun x => { x with combined := (copyKey g :: x.combined).take 64 }
      (s.updFrame f.id fun _ => g).beginDecode g (cyclesOfNs s.clk.ns)

def execCombineWaitEnd (t : Elapsed) (s : State) : Host.Outcome State Fault Refusal :=
  .next ((s.advance t).combineWaitEnd)

/-- Frames whose context has been rewritten are decided (R47). -/
def State.retryHeld (s : State) : State :=
  let l := s.rx.held
  l.foldl (fun s p => s.linkFrame p.1 p.2.1 p.2.2.1 p.2.2.2) (s.setRx fun x => { x with held := [] })

/-! ### What the registers show -/

/-- DEC_STATUS: SPARES, INSERVICE, QUEUE. -/
def State.decStatus (s : State) : Nat :=
  let (sp, n) := s.arrayCounts .dec
  65536 * sp + 256 * n + min 255 (s.rx.jobs.filter fun j => !j.started).length

/-- DEC_SBSTAT. -/
def State.sbStat (s : State) : Nat :=
  if s.softInUse then
    65536 * ((List.range 544).filter fun b => s.sbState b == 2).length +
      ((List.range 544).filter fun b => s.sbState b == 1).length
  else 0

end Sys2Proof.Machine
end

