-- ==== Sys2Proof/Machine/Commit.lean ====
section
/-!
DEFINITION. Configuration commits: their checks and boundary (R45, R46), the switch of the tables, the rewriting of
contexts and the end of the changeover (R47, R204, R215, R239, R270, R279).
-/

namespace Sys2Proof.Machine

/-! ### COMMIT (R45, R46) -/

/-- A changeover interval of 0 selects 256 cycles (Table UNT-6). -/
def commitInterval (w : Work) : Nat := if bitsOf (w.word 3) 16 16 = 0 then 256 else bitsOf (w.word 3) 16 16

/-- Entry `i` of the CTXLIST at `a`: its word and its image. -/
def State.ctxEntry (s : State) (a i : Nat) : Nat × List Byte := (s.num (a + 132 * i) 4, s.bytes (a + 132 * i + 4) 128)

/-- A CTXLIST word that names no context, or has reserved bits set (R45). -/
def ctxEntryBad (v : Nat) : Bool :=
  bitsOf v 10 5 != 0 || bitsOf v 17 15 != 0 || decide ((if bitOf v 15 then 15 else 511) < bitsOf v 0 10)

/-- Puts a rewrite into its place: ascending, partners before groups. -/
def insertRewrite (r : Nat × Bool × List Byte) : List (Nat × Bool × List Byte) → List (Nat × Bool × List Byte)
  | [] => [r]
  | x :: l => if r.1 < x.1 then r :: x :: l else x :: insertRewrite r l

/-- The context updates of a commit, in the order of R47. -/
def State.commitRewrites (s : State) (w : Work) : List (Nat × Bool × List Byte) :=
  ((List.range (bitsOf (w.word 6) 0 10)).map (s.ctxEntry (w.word 5))).foldl (fun l e =>
    insertRewrite (bitsOf e.1 0 10 + (if bitOf e.1 15 then 512 else 0), bitOf e.1 16, e.2) l) []

/-- The key slots of RELLIST. -/
def State.commitReleases (s : State) (w : Work) : List Nat :=
  (List.range (bitsOf (w.word 6) 16 10)).map fun i => s.num (w.word 7 + 2 * i) 2

/-- The status that refuses a commit's operands (R45, R400). -/
def State.commitRefusal (s : State) (w : Work) : Option Nat :=
  let n := bitsOf (w.word 6) 0 10
  let m := bitsOf (w.word 6) 16 10
  let list := fun (a len : Nat) => if len = 0 then none else s.bufferRefusal w.prot (s.devReadable a len) a len
  if bitsOf (w.word 3) 0 2 = 3 ∨ 528 < n then some St.malformed
  else match firstSome (list (w.word 5) (132 * n)) (list (w.word 7) (2 * m)) with
  | some st => some st
  | none =>
    if (List.range n).any fun i => ctxEntryBad (s.num (w.word 5 + 132 * i) 4) then some St.malformed
    else if (s.commitReleases w).any fun k => decide (1023 < k) then some St.malformed
    else none

/-- The boundary (R46): `none` for a plain next-frame boundary, else its aligned stamp; or the refusing status. -/
def State.commitBoundary (s : State) (w : Work) : Except Nat (Option Nat) :=
  let tables := bitsOf (w.word 4) 0 7
  let mixed := decide (tables / 32 ≠ 0 ∧ tables % 32 ≠ 0)
  let kind := bitsOf (w.word 3) 0 2
  let stamp := s.expandStamp (w.word 1) (w.word 2)
  if kind = 0 ∧ !mixed then .ok none
  else if !s.tempoUsable then .error St.tempoInvalid
  else if kind = 2 then
    if 0 < stampDiff s.alignedStamp stamp then .error St.late
    else .ok (some (if mixed then s.slotBoundary stamp else stamp))
  else .ok (some (s.slotBoundary (s.alignedStamp + 1)))

/-- The generation after `g`, skipping 0. -/
def nextGen (g : Nat) : Nat := if g = 65535 then 1 else g + 1

/-- The lead sends its inactive bank's named tables, or with `now` its active bank, and the commit that names them to
every member (R429). -/
def State.pushCommit (s : State) (dst : Nat) (b : Bank) (tables newGen interval : Nat) (boundary : Option Nat)
    (rewrites : List (Nat × Bool × List Byte)) (releases : List Nat) : State :=
  let part := fun k (m : Store) n => if bitOf tables k then m.bytes 0 n else []
  s.issue dst 0x0C ([tables, newGen, interval, boundary.getD (2 ^ 56)] ++ rewrites.map (fun r => r.1 + 1024 * b2n r.2.1) ++
      releases)
    (part tabChan b.chan 4096 ++ part tabWatch b.watch 4096 ++ part tabRules b.rules 256 ++ part tabTtb b.ttb 8224 ++
      part tabSettings b.power 256 ++ part tabSettings b.sched 128 ++ rewrites.flatMap fun r => r.2.2)

/-- COMMIT at its decision step. -/
def State.commitOp (s : State) (w : Work) : State :=
  if s.cohortFollows then s.decide_ w St.access
  else if s.gen.commit.isSome then s.decide_ w St.commitPending
  else match s.commitRefusal w with
  | some st => s.decide_ w st
  | none => match s.commitBoundary w with
    | .error st => s.decide_ w st
    | .ok b =>
      let tables := bitsOf (w.word 4) 0 7
      let c : Commit :=
        { idx := w.idx, boundary := b, tables := tables, interval := commitInterval w, newGen := nextGen s.gen.active
          releases := if bitOf tables 6 then s.commitReleases w else []
          rewrites := if bitOf tables 5 then s.commitRewrites w else [] }
      let s := s.updWork 0 w.idx fun w => { w with stage := .waiting }
      let s := if s.leads then
          s.pushCommit 0xF s.tab.ina c.tables c.newGen c.interval c.boundary c.rewrites c.releases
        else s
      { s with gen := { s.gen with pending := c.newGen, commit := some c } }

def execCommit (t : Elapsed) (idx : Nat) (s : State) : Host.Outcome State Fault Refusal :=
  .next ((s.advance t).runWork 0 idx [0x03] fun w s => s.commitOp w)

/-! ### The boundary (R47 step 1) -/

/-- Bank `x` with the named tables of `y`. -/
def takeTables (tables : Nat) (x y : Bank) : Bank :=
  { chan := if bitOf tables tabChan then y.chan else x.chan
    watch := if bitOf tables tabWatch then y.watch else x.watch
    rules := if bitOf tables tabRules then y.rules else x.rules
    ttb := if bitOf tables tabTtb then y.ttb else x.ttb
    power := if bitOf tables tabSettings then y.power else x.power
    sched := if bitOf tables tabSettings then y.sched else x.sched }

/-- The named tables of two banks change places. -/
def swapBanks (tables : Nat) (a b : Bank) : Bank × Bank := (takeTables tables a b, takeTables tables b a)

/-- The changed channel entries take the records calibrated for them, or calibrate at their first use; slices still
pending for them are dropped, and the capture fills the receive part while RXA is on (R134, R215). -/
def State.calSwitched (s : State) : State :=
  let changed := s.tab.changed
  let calNext := s.tab.calNext
  let s := if s.tx.run.any (·.next) then s.abandonSlice false else s
  let s := { s with tx := { s.tx with pend := s.tx.pend.filter (!·.next) }
                    tab := { s.tab with changed := [], calNext := [] } }
  changed.foldl (fun s i =>
    let rec_ := ((calNext.find? (·.1 == i)).map (·.2)).getD (setBitsOf (s.calRec i) 63 1 0)
    let s := s.setCalRec i (setBitsOf rec_ 62 1 0)
    if s.domOn Dom.rxa then s.fillReceive i else s) s

/-- The image that an update leaves in the place of the current one (R238, R239, R270, R425). `cycle` is the aligned
cycle of the boundary. -/
def State.mergedImage (s : State) (k cycle : Nat) (img : List Byte) : List Byte :=
  let cur := s.ctxImage k
  let old := fun off n => imgNum cur off n
  let new := fun off n => imgNum img off n
  let same := old 0 8 == new 0 8
  let keyed := old 10 2 % 1024 == new 10 2 % 1024
  let from_ := fun (keep : Bool) (off n : Nat) (x : List Byte) =>
    x.take off ++ (if keep then cur.drop off else img.drop off).take n ++ x.drop (off + n)
  let keepD := fun (off n : Nat) (x : List Byte) =>
    x.take off ++ (if same then (cur.drop off).take n else zeros n) ++ x.drop (off + n)
  let x := keepD 77 11 (keepD 44 22 img)
  let due := s.dueOf cycle (new 72 4) (new 76 1)
  let x := if 512 ≤ k ∨ (same ∧ old 72 4 = new 72 4 ∧ old 76 1 = new 76 1) then x else imgPut x 84 4 due
  let x := if same then from_ true 66 2 x else x
  let rx := old 20 4 < new 20 4
  let x := if same && keyed then
      imgPut (imgPut (from_ (!rx) 20 20 x) 16 4 (max (old 16 4) (new 16 4))) 40 4 (max (old 40 4) (new 40 4))
    else x
  let flags := new 12 2
  let kept := if same && keyed then old 12 2 else setBitsOf flags 4 2 0
  let x := imgPut x 12 2 (setBitsOf flags 3 3 (bitsOf kept 3 3))
  let blk := old 68 4
  let valid := same && keyed && old 68 4 % 16 == new 68 4 % 16 && bitOf blk 4
  imgPut x 68 4 (new 68 4 % 16 + 16 * b2n valid + (if same then blk / 4096 * 4096 else 0))

/-- A rewrite in the context store; a deletion leaves it empty. -/
def State.putRewrite (s : State) (k cycle : Nat) (delete : Bool) (img : List Byte) : State :=
  s.setCtxImage k (if delete then zeros 128 else s.mergedImage k cycle img)

/-- An update that deletes the last gasp's context disarms it, one that changes its key reseals it from the new
TXCTR (R279). -/
def State.gaspCommitted (s : State) (cycle : Nat) (r : Nat × Bool × List Byte) : State :=
  match s.ttb.gasp with
  | none => s
  | some g =>
    if g.ctx ≠ r.1 then s
    else if r.2.1 then s.gaspDisarm
    else if imgNum r.2.2 10 2 % 1024 = s.ctxNum r.1 10 2 % 1024 then s
    else
      let s' := s.putRewrite r.1 cycle false r.2.2
      let ctr := s'.ctxNum r.1 16 4 + s.gaspAhead
      if 0xFFFFFFFF ≤ ctr then s.gaspDisarm.ttbRecord 0x21 g.ctx g.ctr
      else ({ s with ttb := { s.ttb with gasp := some (s'.gaspSeal g ctr) } } : State).gaspCost g

/-- Aligned cycle of the boundary of the commit in progress. -/
def State.boundaryCycle (s : State) (c : Commit) : Nat := stampCycle (s.stampOfEdge c.switchedAt) % 2 ^ 32

/-- The boundary of the commit that waits for it. -/
def State.switchTables (s : State) (c : Commit) : State :=
  let oldRule := s.rule
  let (a, b) := swapBanks c.tables s.tab.act s.tab.ina
  let c := { c with switched := true, switchedAt := s.clk.edges }
  let s := { s with gen := { active := c.newGen, pending := s.gen.active, commit := some c }
                    tab := { s.tab with act := a, ina := b } }
  let s := s.updWork 0 c.idx fun w => if c.fromLead then w else { w with stage := .committed }
  let s := if bitOf c.tables tabChan then s.calSwitched else s
  let s := if bitOf c.tables tabWatch || bitOf c.tables tabChan then s.watchSwitched (bitOf c.tables tabWatch) else s
  let s := if bitOf c.tables tabRules then s.rulesSwitched oldRule else s
  let s := if bitOf c.tables tabTtb then s.timetableSwitched else s
  -- a member that took the lead's configuration resumes (R429)
  let s := if c.fromLead && s.coh.resync && s.inCohort && s.rd R.COH_STATUS_STATE == 5 then
      ((s.wr R.COH_STATUS_STATE 3).setCoh fun h => { h with resync := false }).cohRecord 0x08 s.cohIndex
    else s
  c.rewrites.foldl (fun s r => s.gaspCommitted (s.boundaryCycle c) r) s

/-- Has the boundary come? -/
def State.boundaryDue (s : State) (c : Commit) : Bool :=
  !c.switched && match c.boundary with
    | none => true
    | some b => s.tempoUsable && s.reached b

def State.commitBoundaryStep (s : State) : State :=
  match s.gen.commit with
  | some c => if s.boundaryDue c then s.switchTables c else s
  | none => s

def execCommitBoundary (t : Elapsed) (s : State) : Host.Outcome State Fault Refusal :=
  .next ((s.advance t).commitBoundaryStep)

/-! ### Context rewriting (R47 step 2) -/

/-- An owned context without a valid block asks for one (R426). -/
def State.requestMissing (s : State) (k : Nat) : State :=
  if s.inCohort && decide (k < 512) && s.ctxValid k && s.ctxOwned s.gen.active k && !bitOf (s.ctxNum k 68 1) 4 then
    s.requestBlock k
  else s

/-- The link engine rewrites the next context of the list, keeping its old image; work that waited for it goes on. -/
def State.contextRewrite (s : State) : State :=
  match s.gen.commit with
  | some c =>
    match c.switched, c.rewrites with
    | true, (k, delete, img) :: rest =>
      let cycle := s.boundaryCycle c
      let old := if s.ctx.old.any (·.1 == k) then s.ctx.old else s.ctx.old ++ [(k, s.ctxImage k)]
      let keyed := imgNum img 10 2 % 1024 == s.ctxNum k 10 2 % 1024
      let s := { s with ctx := { s.ctx with old := old }, gen := { s.gen with commit := some { c with rewrites := rest } } }
      let s := s.putRewrite k cycle delete img
      let s := if !delete && s.ctxNum k 16 4 == 0xFFFFFFFF && !s.ctxFlag s.gen.active k 4 then
          (s.setCtxFlag s.gen.active k 4 true).ttbRecord 0x21 k 0xFFFFFFFF
        else s
      let s := if delete ∧ k < 512 then s.freeBuffers fun _ b => b == k else s
      let s := if !delete && !keyed && s.inCohort && k < 512 then
          s.setCoh fun h => { h with high := sput (fun _ => 0) h.high k (ceilDiv (imgNum img 16 4) 4096) }
        else s
      (s.requestMissing k).retryHeld
    | _, _ => s
  | none => s

def execCommitContextRewrite (t : Elapsed) (s : State) : Host.Outcome State Fault Refusal :=
  .next ((s.advance t).contextRewrite)

/-! ### The end of the changeover (R47 step 3) -/

/-- Every frame of the old generation has completed. -/
def State.oldFramesDone (s : State) : Bool :=
  let g := s.gen.active
  s.tx.list.all (·.gen == g) && s.rx.lanes.all (fun p => p.2.phase < 3 || p.2.gen == g) &&
    s.rx.frames.all (·.gen == g) && s.rx.held.all (·.1.gen == g)

/-- The changeover ends: listed key slots are erased, old images and the old bank go, the commit completes. -/
def State.changeoverEnd (s : State) : State :=
  match s.gen.commit with
  | some c =>
    if c.switched && c.rewrites.isEmpty && decide (c.switchedAt + 65536 * c.interval ≤ s.clk.edges) && s.oldFramesDone then
      let g := s.gen.pending
      let s := c.releases.foldl (fun s n => s.setKeySlot n none) s
      let s := s.freeBuffers fun s b => s.sbNum b 10 2 == g
      let s := { s with ctx := { s.ctx with old := [] }
                        gen := { s.gen with pending := s.gen.active, commit := none }
                        tab := { s.tab with ina := s.tab.act, changed := [], calNext := [] }
                        tx := { s.tx with pend := s.tx.pend.filter (!·.next) } }
      if c.fromLead then s
      else match s.findWork 0 c.idx with
      | some w => s.decide_ w St.done (c.newGen + 65536 * min c.mismatches 65535)
      | none => s
    else s
  | none => s

def execChangeoverEnd (t : Elapsed) (s : State) : Host.Outcome State Fault Refusal := .next ((s.advance t).changeoverEnd)

end Sys2Proof.Machine
end

