-- ==== Sys2Proof/Machine/Digest.lean ====
section
/-!
DEFINITION. SHA-256 (FIPS 180-4) and the verification of an ECDSA signature on P-256 (FIPS 186-4, SEC 1): what the
hasher and the signature checks of R432 and R434 compute.
-/

namespace Sys2Proof.Machine

/-! ### SHA-256 -/

/-- The 64 round constants. -/
def shaK : List Nat :=
  [0x428a2f98, 0x71374491, 0xb5c0fbcf, 0xe9b5dba5, 0x3956c25b, 0x59f111f1, 0x923f82a4, 0xab1c5ed5,
   0xd807aa98, 0x12835b01, 0x243185be, 0x550c7dc3, 0x72be5d74, 0x80deb1fe, 0x9bdc06a7, 0xc19bf174] ++
  [0xe49b69c1, 0xefbe4786, 0x0fc19dc6, 0x240ca1cc, 0x2de92c6f, 0x4a7484aa, 0x5cb0a9dc, 0x76f988da,
   0x983e5152, 0xa831c66d, 0xb00327c8, 0xbf597fc7, 0xc6e00bf3, 0xd5a79147, 0x06ca6351, 0x14292967] ++
  [0x27b70a85, 0x2e1b2138, 0x4d2c6dfc, 0x53380d13, 0x650a7354, 0x766a0abb, 0x81c2c92e, 0x92722c85,
   0xa2bfe8a1, 0xa81a664b, 0xc24b8b70, 0xc76c51a3, 0xd192e819, 0xd6990624, 0xf40e3585, 0x106aa070] ++
  [0x19a4c116, 0x1e376c08, 0x2748774c, 0x34b0bcb5, 0x391c0cb3, 0x4ed8aa4a, 0x5b9cca4f, 0x682e6ff3,
   0x748f82ee, 0x78a5636f, 0x84c87814, 0x8cc70208, 0x90befffa, 0xa4506ceb, 0xbef9a3f7, 0xc67178f2]

/-- The working variables a to h. -/
structure Sha where
  a : Word
  b : Word
  c : Word
  d : Word
  e : Word
  f : Word
  g : Word
  h : Word
  deriving DecidableEq, Repr

/-- The initial hash value. -/
def shaInit : Sha :=
  ⟨0x6a09e667#32, 0xbb67ae85#32, 0x3c6ef372#32, 0xa54ff53a#32, 0x510e527f#32, 0x9b05688c#32, 0x1f83d9ab#32,
    0x5be0cd19#32⟩

/-- The next word of the message schedule from the last sixteen, newest first. -/
def shaNext (w : List Word) : Word :=
  let s0 := fun (x : Word) => x.rotateRight 7 ^^^ x.rotateRight 18 ^^^ (x >>> 3)
  let s1 := fun (x : Word) => x.rotateRight 17 ^^^ x.rotateRight 19 ^^^ (x >>> 10)
  s1 (w.getD 1 0) + w.getD 6 0 + s0 (w.getD 14 0) + w.getD 15 0

/-- One round with schedule word `w` and constant `k`. -/
def shaRound (v : Sha) (w : Word) (k : Nat) : Sha :=
  let s1 := v.e.rotateRight 6 ^^^ v.e.rotateRight 11 ^^^ v.e.rotateRight 25
  let s0 := v.a.rotateRight 2 ^^^ v.a.rotateRight 13 ^^^ v.a.rotateRight 22
  let t1 := v.h + s1 + ((v.e &&& v.f) ^^^ (~~~v.e &&& v.g)) + BitVec.ofNat 32 k + w
  let t2 := s0 + ((v.a &&& v.b) ^^^ (v.a &&& v.c) ^^^ (v.b &&& v.c))
  ⟨t1 + t2, v.a, v.b, v.c, v.d + t1, v.e, v.f, v.g⟩

/-- The rounds of one block; `w` holds the last sixteen schedule words, newest first, `i` the round. -/
def shaRounds (i : Nat) (w : List Word) (v : Sha) : List Nat → Sha
  | [] => v
  | k :: ks =>
    if i < 16 then shaRounds (i + 1) w (shaRound v (w.getD (15 - i) 0) k) ks
    else
      let x := shaNext w
      shaRounds (i + 1) (x :: w.take 15) (shaRound v x k) ks

/-- One block of 64 bytes. -/
def shaBlock (v : Sha) (blk : List Byte) : Sha :=
  let w := ((List.range 16).map fun i => BitVec.ofNat 32 (beNum ((blk.drop (4 * i)).take 4))).reverse
  let r := shaRounds 0 w v shaK
  ⟨v.a + r.a, v.b + r.b, v.c + r.c, v.d + r.d, v.e + r.e, v.f + r.f, v.g + r.g, v.h + r.h⟩

/-- Blocks in order; the list of lengths bounds the recursion. -/
def shaBlocks : Nat → Sha → List Byte → Sha
  | 0, v, _ => v
  | n + 1, v, bs => shaBlocks n (shaBlock v (bs.take 64)) (bs.drop 64)

/-- SHA-256 of a byte string, 32 bytes. -/
def sha256 (bs : List Byte) : List Byte :=
  let n := bs.length
  let pad := bs ++ 0x80#8 :: List.replicate ((119 - n % 64) % 64) 0#8 ++ beBytes 8 (8 * n)
  let v := shaBlocks (pad.length / 64) shaInit pad
  [v.a, v.b, v.c, v.d, v.e, v.f, v.g, v.h].flatMap fun x => beBytes 4 x.toNat

/-! ### ECDSA on P-256 -/

namespace P256

/-- Field prime, group order, coefficient b, base point. -/
def p : Nat := 0xffffffff00000001000000000000000000000000ffffffffffffffffffffffff
def n : Nat := 0xffffffff00000000ffffffffffffffffbce6faada7179e84f3b9cac2fc632551
def b : Nat := 0x5ac635d8aa3a93e7b3ebbd55769886bc651d06b0cc53b0f63bce3c3e27d2604b
def gx : Nat := 0x6b17d1f2e12c4247f8bce6e563a440f277037d812deb33a0f4a13945d898c296
def gy : Nat := 0x4fe342e2fe1a7f9b8ee7eb4a7c0f9e162bce33576b315ececbb6406837bf51f5

/-- `x^e` modulo `m`, the low `fuel` bits of `e`. -/
def powMod (m : Nat) : Nat → Nat → Nat → Nat
  | 0, _, _ => 1
  | fuel + 1, x, e =>
    let r := powMod m fuel (x * x % m) (e / 2)
    if e % 2 = 1 then r * x % m else r

/-- Inverse modulo a prime. -/
def inv (m x : Nat) : Nat := powMod m 256 (x % m) (m - 2)

/-- A point; `none` is the point at infinity. -/
abbrev Point := Option (Nat × Nat)

/-- Sum of two points. -/
def add (x y : Point) : Point :=
  match x, y with
  | none, y => y
  | x, none => x
  | some (x1, y1), some (x2, y2) =>
    if x1 = x2 ∧ (y1 + y2) % p = 0 then none
    else
      let l := if x1 = x2 then (3 * x1 * x1 + p - 3) * inv p (2 * y1) % p
        else (y2 + p - y1) * inv p (x2 + p - x1) % p
      let x3 := (l * l + 2 * p - x1 - x2) % p
      some (x3, (l * (x1 + p - x3) + p - y1) % p)

/-- `k` times a point, the low `fuel` bits of `k`. -/
def mul : Nat → Nat → Point → Point
  | 0, _, _ => none
  | fuel + 1, k, q =>
    let r := mul fuel (k / 2) (add q q)
    if k % 2 = 1 then add q r else r

/-- The signature `r`, `s` over a hash `e` verifies under the public key `x`, `y`. -/
def verify (x y e r s : Nat) : Bool :=
  decide (x < p ∧ y < p ∧ y * y % p = (x * x % p * x + (p - 3) * x + b) % p ∧ 0 < r ∧ r < n ∧ 0 < s ∧ s < n) &&
    match add (mul 256 (e * inv n s % n) (some (gx, gy))) (mul 256 (r * inv n s % n) (some (x, y))) with
    | none => false
    | some (x1, _) => x1 % n == r

end P256

/-- A 64-byte signature verifies over a 32-byte digest under a 64-byte public key, all big-endian (R431). -/
def ecdsaVerify (key digest sig : List Byte) : Bool :=
  P256.verify (beNum (key.take 32)) (beNum ((key.drop 32).take 32)) (beNum digest) (beNum (sig.take 32))
    (beNum ((sig.drop 32).take 32))

end Sys2Proof.Machine
end

