-- ==== Sys2Proof/Machine/Backup.lean ====
section
/-!
DEFINITION. The backup domain: calendar, alarms, trim, charger, validity token and cold start, R365-R377 of the
chapter "Supplies, power domains, backup and calendar".
-/

namespace Sys2Proof.Machine

def State.setBkp (s : State) (b : BackupState) : State := { s with bkp := b }

/-! ### Dates -/

/-- Is `y` a leap year of the Gregorian calendar (R370)? -/
def leapYear (y : Nat) : Bool := (y % 4 == 0 && y % 100 != 0) || y % 400 == 0

/-- Days from 0000-01-01 to the first day of year `y`. -/
def daysToYear (y : Nat) : Nat :=
  if y = 0 then 0 else 365 * y + (y - 1) / 4 - (y - 1) / 100 + (y - 1) / 400 + 1

def monthLength (y m : Nat) : Nat :=
  if m = 2 then (if leapYear y then 29 else 28)
  else if m = 4 ∨ m = 6 ∨ m = 9 ∨ m = 11 then 30 else 31

/-- Days from the first day of year `y` to the first day of month `m`. -/
def daysToMonth (y m : Nat) : Nat := (List.range (m - 1)).foldl (fun d k => d + monthLength y (k + 1)) 0

/-- Days from 0000-01-01 to a date. -/
def dayNumber (y m d : Nat) : Nat := daysToYear y + daysToMonth y m + (d - 1)

/-- Year, month and day of a day number. -/
def dateOf (n : Nat) : Nat × Nat × Nat :=
  let y0 := n * 400 / 146097
  let y := if daysToYear (y0 + 1) ≤ n then y0 + 1 else if n < daysToYear y0 then y0 - 1 else y0
  let r := n - daysToYear y
  let m := ((List.range 12).filter fun k => daysToMonth y (k + 1) ≤ r).length
  (y, m, r - daysToMonth y m + 1)

/-- A word in the layout of BKP_CALDATE. -/
def dateWord (secs : Nat) : Nat :=
  let (y, m, d) := dateOf (secs / 86400)
  y % 4096 * 65536 + m * 256 + d

/-- A word in the layout of BKP_CALTIME. -/
def timeWord (secs : Nat) : Nat :=
  secs % 86400 / 3600 * 65536 + secs % 3600 / 60 * 256 + secs % 60

/-- Seconds since 0000-01-01 of a date word and a time word, if they name a real date and time (R371). -/
def secondsOf (date time : Nat) : Option Nat :=
  let y := bitsOf date 16 12
  let m := bitsOf date 8 4
  let d := bitsOf date 0 5
  let h := bitsOf time 16 5
  let mi := bitsOf time 8 6
  let se := bitsOf time 0 6
  if 1 ≤ m ∧ m ≤ 12 ∧ 1 ≤ d ∧ d ≤ monthLength y m ∧ h < 24 ∧ mi < 60 ∧ se < 60 then
    some (dayNumber y m d * 86400 + h * 3600 + mi * 60 + se)
  else none

/-! ### Alarms -/

/-- Does the day match the unmasked date fields of the alarm? -/
def CalAlarm.dayMatches (a : CalAlarm) (day : Nat) : Bool :=
  let (y, m, d) := dateOf day
  (bitOf a.mask 5 || y == bitsOf a.date 16 12) && (bitOf a.mask 4 || m == bitsOf a.date 8 4) &&
  (bitOf a.mask 3 || d == bitsOf a.date 0 5)

/-- Does second-of-day `t` match the unmasked time fields of the alarm? -/
def CalAlarm.timeMatches (a : CalAlarm) (t : Nat) : Bool :=
  (bitOf a.mask 2 || t / 3600 == bitsOf a.time 16 5) && (bitOf a.mask 1 || t % 3600 / 60 == bitsOf a.time 8 6) &&
  (bitOf a.mask 0 || t % 60 == bitsOf a.time 0 6)

/-- Does the whole-second instant match? -/
def CalAlarm.hits (a : CalAlarm) (secs : Nat) : Bool := a.dayMatches (secs / 86400) && a.timeMatches (secs % 86400)

/-- Values of a field below `n` in descending order: the given one, or all when it is masked. -/
def downFrom (masked : Bool) (v n : Nat) : List Nat := if masked then (List.range n).reverse else if v < n then [v] else []

/-- The latest matching second of day at or below `limit`. -/
def CalAlarm.lastTime (a : CalAlarm) (limit : Nat) : Option Nat :=
  (downFrom (bitOf a.mask 2) (bitsOf a.time 16 5) 24).findSome? fun h =>
    (downFrom (bitOf a.mask 1) (bitsOf a.time 8 6) 60).findSome? fun m =>
      let base := h * 3600 + m * 60
      if limit < base then none
      else if bitOf a.mask 0 then some (min (base + 59) limit)
      else if bitsOf a.time 0 6 < 60 ∧ base + bitsOf a.time 0 6 ≤ limit then some (base + bitsOf a.time 0 6)
      else none

/-- The latest matching instant at or below `secs`, looking back `fuel` days. -/
def CalAlarm.lastInstant (a : CalAlarm) : Nat → Nat → Option Nat
  | 0, _ => none
  | fuel + 1, secs =>
    let day := secs / 86400
    match (if a.dayMatches day then a.lastTime (secs % 86400) else none) with
    | some t => some (day * 86400 + t)
    | none => if day = 0 then none else a.lastInstant fuel (day * 86400 - 1)

/-- Sets SYSON's level; set and clear in one alarm leave it to a free value. -/
def State.alarmSyson (s : State) (set clr : Bool) : State :=
  match set, clr with
  | true, true => let (v, s) := s.free; s.wr R.BKP_SYSON_LEVEL (v % 2)
  | true, false => s.wr R.BKP_SYSON_LEVEL 1
  | false, true => s.wr R.BKP_SYSON_LEVEL 0
  | false, false => s

/-- An armed alarm fires for the instant `t`: FIRED, its actions, LAST; a one-shot disarms (R373). -/
def State.alarmFire (s : State) (a : CalAlarm) (t : Nat) (skipped : Bool) : State :=
  let n := a.n
  let s := (s.put (R.BKP_ALM_C_FIRED n) true).wr (R.BKP_ALM_8_LAST n) t
  let s := if skipped then s.put (R.BKP_ALM_C_SKIPPED n) true else s
  let rest := s.bkp.alarms.filter (·.n != n)
  let s := s.setBkp { s.bkp with
    alarms := if a.mask = 0 then rest else s.bkp.alarms.map fun b => if b.n = n then { b with last := t } else b }
  let s := s.alarmSyson (s.flag (R.BKP_ALM_C_SYSSET n)) (s.flag (R.BKP_ALM_C_SYSCLR n))
  let s := if s.flag (R.BKP_ALM_C_EVT n) then s.emit (0x32 + n) else s
  if s.flag (R.BKP_ALM_C_WAKE n) then s.wakeSeen 1 n else s

/-- A calendar second matches an armed alarm (R373). -/
def State.calendarAlarmFire (s : State) (n : Nat) : State :=
  let t := s.calNow / 32768
  match s.bkp.alarms.find? (·.n == n) with
  | some a =>
    if s.flag R.BKP_STATUS_CALVALID && a.hits t && decide (a.last < t) then s.alarmFire a t false else s
  | none => s

def execCalendarAlarmFire (t : Elapsed) (n : Nat) (s : State) : Host.Outcome State Fault Refusal :=
  .next ((s.advance t).calendarAlarmFire n)

/-- The adjustment from `old` to `new` (1/32,768 s) passes over matching instants: each armed alarm fires once,
with SKIPPED, in ascending number (R374). -/
def State.adjustAlarms (s : State) (old new : Nat) : State :=
  (List.range 4).foldl (fun s n =>
    match s.bkp.alarms.find? (·.n == n) with
    | some a =>
      if new ≤ old then s
      else match a.lastInstant (new / 32768 / 86400 - old / 32768 / 86400 + 2) ((new - 1) / 32768) with
      | some t => if old < t * 32768 ∧ a.last < t then s.alarmFire a t true else s
      | none => s
    | none => s) s

/-! ### Writes to BKP -/

/-- BKP writes need SYS on, the page's owner, and no write still landing (R371). -/
def State.bkpWrite (s : State) (who : Who) (addr value : Nat) (f : State → State) : State :=
  s.guarded who (s.owns who Hdr.bkp) Hdr.bkp fun s =>
    if !s.domOn Dom.sys || s.bkp.landing.isSome then s
    else
      let s := f s
      (s.setBkp { s.bkp with landing := some (addr, value) }).put R.BKP_STATUS_WBUSY true

/-- The calendar takes a value at the next BK edge. -/
def State.setCalendar (s : State) (v : Nat) : State :=
  s.setBkp { s.bkp with cal := v, calAt := s.bkNow + 1, trimAcc := 0 }

/-- BKP_CALCMD SET (R371, R374). -/
def State.calendarSet (s : State) : State :=
  match secondsOf (s.word 0x40002058).toNat (s.word 0x4000205C).toNat with
  | none => s.put R.BKP_STATUS_SETERR true
  | some v =>
    let old := s.calNow
    let valid := s.flag R.BKP_STATUS_CALVALID
    let s := (s.setCalendar (v * 32768)).put R.BKP_STATUS_CALVALID true
    if valid then s.adjustAlarms old (v * 32768) else s

/-- BKP_CALCMD ADJ by a signed number of subseconds; refused while CALVALID is clear (R371, R374). -/
def State.calendarAdjust (s : State) (adj : Nat) : State :=
  if !s.flag R.BKP_STATUS_CALVALID then s
  else
    let old := s.calNow
    let new := ((old : Int) + signed 24 adj).toNat
    (s.setCalendar new).adjustAlarms old new

def execCalendarSet (t : Elapsed) (who : Who) (s : State) : Host.Outcome State Fault Refusal :=
  .next ((s.advance t).bkpWrite who 0 0 State.calendarSet)

def execCalendarAdjust (t : Elapsed) (who : Who) (adj : Nat) (s : State) : Host.Outcome State Fault Refusal :=
  .next ((s.advance t).bkpWrite who 0 0 fun s => s.calendarAdjust adj)

/-- A write of an alarm's control word: any action arms it with its date, time and mask and clears LAST, none
disarms it. -/
def State.alarmCtl (s : State) (n v : Nat) : State :=
  let s := s.writeFields (0x4000210C + 0x10 * n) v 0xFFFFFFFF
  let rest := s.bkp.alarms.filter (·.n != n)
  if bitsOf v 8 4 = 0 then s.setBkp { s.bkp with alarms := rest }
  else
    let a : CalAlarm := { n := n, date := s.rd (R.BKP_ALM_0_DATE n), time := s.rd (R.BKP_ALM_4_TIME n)
                          mask := bitsOf v 0 6, last := 0 }
    (s.wr (R.BKP_ALM_8_LAST n) 0).setBkp { s.bkp with alarms := rest ++ [a] }

def execCalendarAlarmArm (t : Elapsed) (who : Who) (n value : Nat) (s : State) : Host.Outcome State Fault Refusal :=
  .next ((s.advance t).bkpWrite who 0 0 fun s => s.alarmCtl n value)

def execCalendarAlarmDisarm (t : Elapsed) (who : Who) (n value : Nat) (s : State) :
    Host.Outcome State Fault Refusal := .next ((s.advance t).bkpWrite who 0 0 fun s => s.alarmCtl n value)

/-- The present calendar becomes the base of the count, so that a new trim acts from now on. -/
def State.rebaseCalendar (s : State) : State :=
  let n := s.bkNow - s.bkp.calAt
  let acc := s.bkp.trimAcc + n * signed 15 (s.rd R.BKP_TRIM_PPM)
  s.setBkp { s.bkp with cal := s.calNow, calAt := s.bkNow, trimAcc := acc % 32000000 }

/-- What a landed write changes: the plain registers of BKP by their access codes. -/
def State.bkpLand (s : State) (a v : Nat) : State :=
  (if a = 0x40002064 then s.rebaseCalendar else s).writeFields a v 0xFFFFFFFF

/-- A write to BKP has landed (R371). -/
def State.bkpLanded (s : State) : State :=
  match s.bkp.landing with
  | some (a, v) =>
    let s := if a = 0 then s else s.bkpLand a v
    (s.setBkp { s.bkp with landing := none }).put R.BKP_STATUS_WBUSY false
  | none => s

def execBkpWriteLanded (t : Elapsed) (s : State) : Host.Outcome State Fault Refusal :=
  .next (s.advance t).bkpLanded

/-- Reading BKP_CALSUB latches the date and time (R371). -/
def State.calendarLatch (s : State) : State × Nat :=
  (s.setBkp { s.bkp with calLatch := s.calNow / 32768 }, s.calNow % 32768)

def execCalendarLatch (t : Elapsed) (s : State) : Host.Outcome State Fault Refusal :=
  let r := (s.advance t).calendarLatch
  .next { r.1 with bus := { value := r.2, error := false } }

/-! ### Trim -/

/-- Nominal mains frequency in Hz by TMP_CFG.NOM60. -/
def State.nominalHz (s : State) : Nat := if s.flag R.TMP_CFG_NOM60 then 60 else 50

/-- A measurement window of 2^20 mains cycles ends: the crystal's error in 1/32 ppm (R372). -/
def State.trimEnd (s : State) : State :=
  match s.bkp.trimAt with
  | some (bk0, e0) =>
    if s.clk.edges < e0 + 2 ^ 20 * 65536 then s
    else
      let num : Int := (((s.bkNow - bk0) * s.nominalHz : Nat) : Int) - (2 ^ 35 : Nat)
      let x := num.natAbs * 32000000
      let q := x / 2 ^ 35 + (if x % 2 ^ 35 = 0 then 0 else b2n (Config.roundUp x (2 ^ 35)))
      let err := unsigned 15 (if num < 0 then -(min q 16384 : Nat) else (min q 16383 : Nat))
      let s := (s.wr R.BKP_TRIMMEAS_ERR err).put R.BKP_TRIMMEAS_VALID true
      let s := if s.flag R.BKP_TRIM_AUTO then s.rebaseCalendar.wr R.BKP_TRIM_PPM err else s
      s.setBkp { s.bkp with trimAt := some (s.bkNow, s.clk.edges) }
  | none => s

def execTrimMeasurementEnd (t : Elapsed) (s : State) : Host.Outcome State Fault Refusal := .next (s.advance t).trimEnd

/-! ### Supply and token -/

/-- VBKP falls below the detector's threshold: the three token copies are cleared (R367). -/
def execTokenClear (t : Elapsed) (s : State) : Host.Outcome State Fault Refusal :=
  let s := s.advance t
  .next (s.setBkp { s.bkp with token := false })

/-- The internal cell reaches 4.10 V while it is charged (R365). -/
def State.chargeCv (s : State) : State :=
  if s.flag R.BKP_STATUS_CHGCC then (s.put R.BKP_STATUS_CHGCC false).put R.BKP_STATUS_CHGCV true else s

def execChargeConstantVoltage (t : Elapsed) (s : State) : Host.Outcome State Fault Refusal :=
  .next (s.advance t).chargeCv

/-- VBKP is fed from main and the cell charges at constant current (R365). -/
def State.onMain (s : State) (on : Bool) : State :=
  ((s.put R.BKP_STATUS_ONMAIN on).put R.BKP_STATUS_CHGCC on).put R.BKP_STATUS_CHGCV false

/-- Registers of the BKP page but its owner word. -/
def inBkp (a : Nat) : Bool := decide (0x40002000 ≤ a ∧ a < 0x40003000 ∧ a ≠ 0x40002024)

/-- The cold start of BKP: every register at its reset value, calendar, keeper, alarms, trim and satchel cleared,
SYSON asserted, DEV_RESTART cleared, the token rewritten and COLD set (R368). -/
def State.bkpCold (s : State) : State :=
  let main := s.flag R.BKP_STATUS_ONMAIN
  let s := s.dropRegs fun a => inBkp a || a == 0x40000048
  let s := s.setBkp { token := true, calAt := s.bkNow }
  let s := s.put R.BKP_STATUS_COLD true
  if main then s.onMain true else s

/-- A write of BKP_CTL.COLD, in protected mode only (R369). -/
def State.forceCold (s : State) (who : Who) : State :=
  s.guarded who (s.owns who Hdr.bkp && who.prot) Hdr.bkp fun s =>
    if !s.domOn Dom.sys || s.bkp.landing.isSome then s else s.bkpCold

def execForcedColdStart (t : Elapsed) (who : Who) (s : State) : Host.Outcome State Fault Refusal :=
  .next ((s.advance t).forceCold who)

end Sys2Proof.Machine
end

