-- ==== Sys2Proof/Machine/Memories.lean ====
section
/-!
DEFINITION. SRAM errors, scrubbing and row remaps (R401-R404), NOR operations (R405-R408), and the DRAM controller:
errors, refresh, neighbour refresh, training and row repair (R410-R416).
-/

namespace Sys2Proof.Machine

def dayNs : Nat := 86400000000000

def State.setMem (s : State) (f : MemState → MemState) : State := { s with mem := f s.mem }

/-! ### SRAM rows (R401-R403) -/

def sramBank (a : Nat) : Nat := (a - 0x10000000) / 0x20000
def sramRow (a : Nat) : Nat := a / 256 % 512

/-- Spare rows of bank `b` that no remap uses, ascending (R399). -/
def State.freeSpares (s : State) (b : Nat) : List Nat :=
  (List.range 8).filter fun k => !s.mem.remaps.any (fun r => r.1 == b && r.2.2 == k) &&
    !s.mem.copying.any fun r => r.1 == b && r.2.2.1 == k

/-- Rows tracked in bank `b`. -/
def State.trackedRows (s : State) (b : Nat) : List RowRec := s.mem.rows.filter (·.bank == b)

/-- SPARES and TRACKED of bank `b`, and the fewest spares of a mapped bank. -/
def State.srmShow (s : State) (b : Nat) : State :=
  let spares := fun (s : State) (k : Nat) => 8 - (s.mem.remaps.filter (·.1 == k)).length
  let s := (s.wr (R.SRM_BANK_SPARES b) (spares s b)).wr (R.SRM_BANK_TRACKED b) (min 15 (s.trackedRows b).length)
  s.wr R.SRM_STATUS_SPARESMIN (((List.range 32).filter fun k => s.flag (R.SRM_BANK_MAPPED k)).foldl (fun m k =>
    min m (spares s k)) 8)

/-- The bank's map switches to the spare row (R403 step 3). -/
def State.remapSwitch (s : State) (r : Nat × Nat × Nat) (cause : Nat) : State :=
  let s := s.setMem fun m => { m with remaps := m.remaps ++ [r], copying := m.copying.filter fun c => !(c.1 == r.1 && c.2.1 == r.2.1) }
  let s := ((s.srmShow r.1).bump R.SRM_STATUS_REMAPS).ledgerPost 0x05 0x0021 r.1 r.2.1 r.2.2 cause
  (s.progress Hdr.srm).envRestore 0x07 3 Hdr.srm

/-- A row at its threshold moves to the lowest free spare of its bank, or stays in use (R403). -/
def State.remapRow (s : State) (b row cause : Nat) : State :=
  match s.freeSpares b with
  | k :: _ =>
    let s := s.setMem fun m => { m with rows := m.rows.filter fun r => !(r.bank == b && r.row == row) }
    let s := s.envBreak 0x07 3 Hdr.srm
    if (s.dom (Dom.bank b)).state = 0 then s.remapSwitch (b, row, k) cause
    else (s.setMem fun m => { m with copying := m.copying ++ [(b, row, k, cause)] }).srmShow b
  | [] =>
    if (s.trackedRows b).any fun r => r.row == row && r.reported then s
    else
      let s := s.setMem fun m => { m with rows := m.rows.map fun r =>
        if r.bank = b ∧ r.row = row then { r with reported := true } else r }
      let s := ((s.wr (R.UFAULT_CODE Hdr.srm) 5).put (R.UFAULT_DEGRADED Hdr.srm) true).bump (R.SRM_BANK_OVER b)
      s.ledgerPost 0x0B 0x0021 b row 0xFFFF 5

/-- A row gains an error in its record; a seventeenth row of a bank replaces the one whose first error is oldest. -/
def trackRow (limit now : Nat) (b row : Nat) (rows : List RowRec) : List RowRec :=
  if rows.any fun r => r.bank == b && r.row == row then
    rows.map fun r => if r.bank = b ∧ r.row = row then
      { r with errors := now :: r.errors.filter fun t => decide (now < t + dayNs) } else r
  else
    let mine := rows.filter (·.bank == b)
    let oldest := mine.foldl (fun (m : Option RowRec) r => match m with
      | none => some r
      | some x => if r.firstAt < x.firstAt then some r else some x) none
    let rows := if limit ≤ mine.length then rows.filter fun r => some r != oldest else rows
    rows ++ [{ bank := b, row := row, firstAt := now, errors := [now] }]

/-- Corrected errors of a row within 24 h. -/
def rowErrors (b row : Nat) (rows : List RowRec) : Nat :=
  match rows.find? fun r => r.bank == b && r.row == row with
  | some r => r.errors.length
  | none => 0

/-- A copy of the row is under way or it is being remapped now. -/
def State.rowCopying (s : State) (b row : Nat) : Bool := s.mem.copying.any fun r => r.1 == b && r.2.1 == row

/-- A read of SRAM finds its word's check bits as `ecc` says; a poisoned word always reads as an uncorrectable error
(R401). Answers whether it did. -/
def State.sramRead (s : State) (a : Nat) (ecc : Ecc) : State × Bool :=
  let b := sramBank a
  let row := sramRow a
  if s.poisoned a then
    (((s.bump R.SRM_ERRS_UNCORR).wr R.SRM_LASTERR_ADDR (a / 4)).wr (R.UFAULT_CODE Hdr.srm) 2 |>.wr
      (R.UFAULT_DETAIL Hdr.srm) b, true)
  else match ecc with
  | .clean => (s, false)
  | .single =>
    let s := (s.bump R.SRM_ERRS_CORR).setMem fun m => { m with rows := trackRow 16 s.clk.ns b row m.rows }
    let s := s.srmShow b
    (if 4 ≤ rowErrors b row s.mem.rows ∧ !s.rowCopying b row then s.remapRow b row 3 else s, false)
  | .double =>
    let s := (((s.setPoison a true).bump R.SRM_ERRS_UNCORR).wr R.SRM_LASTERR_ADDR (a / 4)).wr (R.UFAULT_CODE Hdr.srm) 2
    let s := s.wr (R.UFAULT_DETAIL Hdr.srm) b
    (if s.rowCopying b row then s else s.remapRow b row 2, true)

/-- The row copy ends while its bank is on (R403). -/
def State.remapSwitchStep (s : State) : State :=
  match s.mem.copying with
  | (b, row, k, cause) :: _ =>
    if s.domOn (Dom.bank b) && !(s.unit Hdr.srm).lapsed then s.remapSwitch (b, row, k) cause else s
  | [] => s

def execSramRemapSwitch (t : Elapsed) (s : State) : Host.Outcome State Fault Refusal :=
  .next ((s.advance t).remapSwitchStep)

/-- The first word at or after word `w` of a bank that is on and mapped, one pass over all banks at most. -/
def State.scrubNext (s : State) (w : Nat) : Option Nat :=
  let on := fun b => s.domOn (Dom.bank b) && s.flag (R.SRM_BANK_MAPPED b)
  let b := w / 32768 % 32
  if on b then some (w % 1048576)
  else ((List.range 32).map fun k => (b + 1 + k) % 32).find? on |>.map (32768 * ·)

/-- The scrubber reads its next word (R402). -/
def State.scrub (s : State) (ecc : Ecc) : State :=
  if s.rd R.SRM_SCRUB_HOURS = 0 || !s.accepts Hdr.srm then s
  else match s.scrubNext s.mem.scrubAt with
  | none => s
  | some w => (s.setMem fun m => { m with scrubAt := (w + 1) % 1048576 }).sramRead (0x10000000 + 4 * w) ecc |>.1

def execScrubberRead (t : Elapsed) (ecc : Ecc) (s : State) : Host.Outcome State Fault Refusal :=
  .next ((s.advance t).scrub ecc)

/-! ### NOR (R405-R408) -/

/-- The three partitions: slot A, slot B, and the rest (Table NVM-1, log entry 60). -/
def norPartition (a : Nat) : Nat := if a < 0x20C00000 then 0 else if a < 0x21800000 then 1 else 2

/-- The NOR address a core names: the alias stands for the active slot. -/
def State.norTarget (s : State) (a : Nat) : Nat :=
  if 0x24000000 ≤ a ∧ a < 0x24C00000 then 0x20000000 + 0xC00000 * s.rd R.UPD_STATUS_ACTIVE + (a - 0x24000000) else a

/-- The active slot holds NOR address `a`. -/
def State.inActiveSlot (s : State) (a : Nat) : Bool :=
  decide (0x20000000 ≤ a ∧ a < 0x21800000) && norPartition a == s.rd R.UPD_STATUS_ACTIVE

/-- May the writer change the region (Table NVM-1)? -/
def State.norWritable (s : State) (who : Who) (a : Nat) : Bool :=
  if 0x21800000 ≤ a ∧ a < 0x21A50000 then who.stamp == 1
  else if 0x21A50000 ≤ a ∧ a < 0x21A90000 then who.prot
  else decide (0x21A90000 ≤ a ∧ a < 0x22000000) && who.stamp == s.rd (R.UOWNER_OWNER Hdr.nvm)

/-- A 256-byte source page wholly in SRAM that the writer may read (R406). -/
def State.norSource (s : State) (who : Who) (a : Nat) : Bool :=
  let isSram := fun r => match r with
    | Region.sram _ => true
    | _ => false
  a % 4 == 0 && s.rangeIn isSram a 256 && s.rangeOn a 256 &&
    (List.range (sramBank (a + 255) + 1 - sramBank a)).all fun k => match s.bankAttr (sramBank a + k) with
      | 0 => true
      | 1 => who.prot
      | _ => decide (who.stamp < 2)

def State.norRefuse (s : State) (cause : Nat) : State := (s.wr R.NVM_STATUS_CAUSE cause).put R.NVM_STATUS_ERR true

/-- The bytes an operation changes: first address and length (Table NVM-3). -/
def NvmOp.range (o : NvmOp) : Nat × Nat :=
  match o.cmd with
  | 1 => (o.addr / 256 * 256, 256)
  | 2 => (o.addr / 4096 * 4096, 4096)
  | _ => (o.addr / 65536 * 65536, 65536)

/-- A NOR operation begins. -/
def State.norBegin (s : State) (o : NvmOp) : State :=
  ((s.setMem fun m => { m with nvmOp := some o }).put R.NVM_STATUS_BUSY true).progress Hdr.nvm

/-- NVM_CMD is written (R406). -/
def State.norCommand (s : State) (who : Who) (cmd : Nat) : State :=
  let addr := s.rd R.NVM_ADDR_ADDR
  let src := s.rd R.NVM_SRC_SRC
  if cmd = 0 then s
  else if s.flag R.NVM_STATUS_BUSY then s.norRefuse 1
  else if s.inActiveSlot (s.norTarget addr) || decide (0x24000000 ≤ addr ∧ addr < 0x24C00000) then s.norRefuse 3
  else if !s.norWritable who addr || (cmd == 1 && addr % 256 != 0) then s.norRefuse 2
  else if cmd = 1 ∧ !s.norSource who src then s.norRefuse 4
  else s.norBegin { cmd := cmd, addr := addr, data := if cmd = 1 then s.bytes src 256 else [], startedAt := s.clk.ns }

def State.norWrite (s : State) (who : Who) (cmd : Nat) : State :=
  s.pageWrite who Hdr.nvm fun s => if s.accepts Hdr.nvm then s.norCommand who cmd else s

def execNvmProgram (t : Elapsed) (who : Who) (s : State) : Host.Outcome State Fault Refusal :=
  .next ((s.advance t).norWrite who 1)

def execNvmEraseSector (t : Elapsed) (who : Who) (s : State) : Host.Outcome State Fault Refusal :=
  .next ((s.advance t).norWrite who 2)

def execNvmEraseBlock (t : Elapsed) (who : Who) (s : State) : Host.Outcome State Fault Refusal :=
  .next ((s.advance t).norWrite who 3)

/-- The flash is polled during an erase: a progress event of NVM, and of UPD for update work (R406). -/
def State.norPoll (s : State) : State :=
  match s.mem.nvmOp with
  | some o =>
    if o.cmd = 1 ∨ o.suspendedAt.isSome then s
    else
      let s := s.progress Hdr.nvm
      if o.update then s.progress Hdr.upd else s
  | none => s

def execNvmErasePoll (t : Elapsed) (s : State) : Host.Outcome State Fault Refusal := .next ((s.advance t).norPoll)

/-- A read of the partition under operation suspends it, except within 1 ms of a resumption (R407). -/
def State.norRead (s : State) (a : Nat) : State :=
  match s.mem.nvmOp with
  | some o =>
    if norPartition o.addr = norPartition a ∧ o.suspendedAt.isNone ∧ o.noSuspendUntil ≤ s.clk.ns then
      (s.setMem fun m => { m with nvmOp := some { o with suspendedAt := some s.clk.ns } }).put R.NVM_STATUS_SUSP true
    else s
  | none => s

/-- The operation resumes; its suspended time counts for no bound (R407). -/
def State.norResume (s : State) : State :=
  match s.mem.nvmOp with
  | some o =>
    match o.suspendedAt with
    | some t =>
      let d := s.clk.ns - t
      let o := { o with suspendedAt := none, startedAt := o.startedAt + d, noSuspendUntil := s.clk.ns + 1000000 }
      ((s.setMem fun m => { m with nvmOp := some o }).put R.NVM_STATUS_SUSP false).setUnit Hdr.nvm fun u =>
        { u with progressAt := u.progressAt + d }
    | none => s
  | none => s

def execNvmResume (t : Elapsed) (s : State) : Host.Outcome State Fault Refusal := .next ((s.advance t).norResume)

/-- Programming changes bits from 1 to 0 only. -/
def State.norProgram (s : State) (a : Nat) (data : List Byte) : State :=
  s.setBytes a (List.zipWith (· &&& ·) (s.bytes a data.length) data)

/-- The bytes of an erased range read ones. -/
def State.norErase (s : State) (a n : Nat) : State := s.forget a n

/-- Number of the lowest spare block not in use. -/
def State.spareBlock (s : State) : Nat := s.mem.nvmRemaps.foldl (fun m r => max m (r.2 + 1)) 0

/-- A verify failure retires the block to a spare, or leaves it in use (R408). Answers whether a spare took over. -/
def State.norRetire (s : State) (block : Nat) : State × Bool :=
  if s.rd R.NVM_SPARES_FREE = 0 then
    let s := ((s.norRefuse 5).wr (R.UFAULT_CODE Hdr.nvm) 5).ledgerPost 0x0B 0x0022 block block 0xFFFF 5
    (s, false)
  else
    let k := s.spareBlock
    let s := (s.setMem fun m => { m with nvmRemaps := m.nvmRemaps ++ [(block, k)] }).wr R.NVM_SPARES_FREE
      (s.rd R.NVM_SPARES_FREE - 1)
    let s := s.envBreak 0x07 3 Hdr.nvm
    ((s.ledgerPost 0x07 0x0022 block block k 0).envRestore 0x07 3 Hdr.nvm, true)

/-- The flash finishes the operation; `ok` says that it verified. -/
def State.norDone (s : State) (o : NvmOp) (ok : Bool) : State × Bool :=
  let (a, n) := o.range
  let s := if o.cmd = 1 then s else s.bump R.NVM_SPARES_ERASES
  if ok then (if o.cmd = 1 then s.norProgram a o.data else s.norErase a n, true)
  else
    let block := (a - 0x20000000) / 65536
    match s.norRetire block with
    | (s, true) =>
      (if o.cmd = 1 then s.setBytes a o.data else s.norErase (0x20000000 + 65536 * block) 65536, true)
    | (s, false) => (s, false)

/-- A NOR operation of NVM_CMD ends. -/
def State.norEnd (s : State) (ok : Bool) : State :=
  match s.mem.nvmOp with
  | some o =>
    if o.suspendedAt.isSome || o.update then s
    else
      let s := (s.setMem fun m => { m with nvmOp := none }).put R.NVM_STATUS_BUSY false
      let (s, _) := s.norDone o ok
      (s.put R.NVM_STATUS_DONE true).progress Hdr.nvm
  | none => s

/-- A lapse of NVM leaves the bytes under operation undefined (R408). -/
def State.norLapse (s : State) : State :=
  match s.mem.nvmOp with
  | some o =>
    let (a, n) := o.range
    let k := s.freeCount
    let s := { s with freeCount := k + n }
    let s := s.setBytes a ((List.range n).map fun i => BitVec.ofNat 8 (Config.freeValue (k + i)))
    (s.setMem fun m => { m with nvmOp := none }).put R.NVM_STATUS_BUSY false |>.put R.NVM_STATUS_SUSP false
  | none => s

/-! ### DRAM (R410-R416) -/

/-- A DRAM row is listed for post-package repair (R416). -/
def State.dramList (s : State) (b row cause : Nat) : State :=
  if s.mem.pprList.contains (b, row) then s
  else
    let s := s.setMem fun m => { m with pprList := m.pprList ++ [(b, row)] }
    let s := s.wr R.DMC_PPR_PENDING (min 255 s.mem.pprList.length)
    s.ledgerPost 0x08 0x0020 b row 0xFFFF cause

/-- A read of DRAM finds its word's check bits as `ecc` says, with ECC in force (R410). -/
def State.dramRead (s : State) (a : Nat) (ecc : Ecc) : State × Bool :=
  let (b, row) := Config.dramRow (a / 8 * 8)
  let bad := fun (s : State) => ((s.bump R.DMC_ERRS_UNCORR).wr R.DMC_LASTERR_ADDR (a / 8)).wr (R.UFAULT_CODE Hdr.dmc) 2
  if !s.mem.dramEcc then (s, false)
  else if s.poisoned a then (bad s, true)
  else match ecc with
  | .clean => (s, false)
  | .single =>
    let s := (s.bump R.DMC_ERRS_CORR).setMem fun m => { m with dramRows := trackRow 16 s.clk.ns b row m.dramRows }
    (if 4 ≤ rowErrors b row s.mem.dramRows then s.dramList b row 3 else s, false)
  | .double => ((bad (s.setPoison a true)).dramList b row 2, true)

/-- The probability exponent of neighbour refresh. -/
def State.nrrK (s : State) : Nat := clamp 8 16 (s.rd R.DMC_NRR_K)

/-- An access may activate its row; with probability 2^-K an activate refreshes the two neighbours (R413). Whether an
access activates is a matter of scheduling, a free value. -/
def State.dramTouch (s : State) : State :=
  let (act, s) := s.free
  if act % 2 = 0 then s
  else
    let v := Config.lfsrNext s.mem.lfsr
    let s := s.setMem fun m => { m with lfsr := v }
    if v.toNat % 2 ^ s.nrrK = 0 then s.bump R.DMC_NRR_COUNT 2 else s

/-- tREFI in nanoseconds (R412). -/
def State.refreshNs (s : State) : Nat := if s.flag R.DMC_STATUS_HOT then 1950 else 3900

/-- A refresh falls due: it is postponed while the queue holds work, or issued with all that are owed. -/
def State.refresh (s : State) (postpone : Bool) : State :=
  if !s.domOn Dom.dram || !s.flag R.DMC_STATUS_READY || (s.unit Hdr.dmc).lapsed ||
      decide (s.clk.ns < s.mem.refreshAt + s.refreshNs) then s
  else
    let s := s.setMem fun m => { m with refreshAt := s.clk.ns }
    let n := s.rd R.DMC_STATUS_POSTPONED
    s.wr R.DMC_STATUS_POSTPONED (if postpone ∧ n < 7 then n + 1 else 0)

def execDramRefresh (t : Elapsed) (postpone : Bool) (s : State) : Host.Outcome State Fault Refusal :=
  .next ((s.advance t).refresh postpone)

/-- A training sweep begins (R414). -/
def State.trainBegin (s : State) : State := s.put R.DMC_STATUS_TRAINING true

/-- Setting DMC_TRAIN.REQ requests a sweep. -/
def State.trainRequest (s : State) (v : Nat) : State :=
  if bitOf v 31 ∧ s.accepts Hdr.dmc then (s.put R.DMC_TRAIN_REQ true).trainBegin else s

def execDramTrainingRequest (t : Elapsed) (who : Who) (s : State) : Host.Outcome State Fault Refusal :=
  .next ((s.advance t).pageWrite who Hdr.dmc fun s => s.trainRequest (2 ^ 31))

/-- A sweep ends with the widths of the two lanes' narrower windows; one below 8 taps fails (R414). -/
def State.trainEnd (s : State) (w0 w1 : Nat) : State :=
  if !s.flag R.DMC_STATUS_TRAINING || !s.domOn Dom.dram then s
  else
    let s := ((s.put R.DMC_STATUS_TRAINING false).put R.DMC_TRAIN_REQ false).put R.DMC_STATUS_SELFREF false
    let s := ((s.wr R.DMC_TRAIN_WIN0 (min w0 63)).wr R.DMC_TRAIN_WIN1 (min w1 63)).progress Hdr.dmc
    if min w0 w1 < 8 then s.wr (R.UFAULT_CODE Hdr.dmc) 6
    else ((s.setMem fun m => { m with sweepTemp := s.cap.temp }).put R.DMC_STATUS_RETRAIN false).put R.DMC_STATUS_READY true

def execDramTrainingEnd (t : Elapsed) (win0 win1 : Nat) (s : State) : Host.Outcome State Fault Refusal :=
  .next ((s.advance t).trainEnd win0 win1)

/-- DRAM comes on from off: contents are lost, ECC takes effect, the LFSR is seeded, a sweep runs (R410, R413, R414). -/
def State.dramStart (s : State) (fromOff : Bool) : State :=
  let s := if fromOff then
      (s.forget 0x80000000 0x20000000).setMem fun m => { m with dramEcc := s.flag R.DMC_CFG_ECCEN }
    else s
  let (seed, s) := s.free
  let s := s.setMem fun m => { m with lfsr := BitVec.ofNat 32 seed, refreshAt := s.clk.ns }
  ((s.put R.DMC_STATUS_ECC s.mem.dramEcc).put R.DMC_STATUS_SELFREF false).trainBegin

/-- At start-up stage 6 each listed row is repaired, at most one of a bank for the life of the part (R416). -/
def State.dramRepair (s : State) : State :=
  let l := s.mem.pprList
  let s := l.foldl (fun s p =>
    let spent := s.rd R.DMC_PPR_SPENT
    if bitOf spent (p.1 % 8) then (s.bump R.DMC_PPR_UNREP).put (R.UFAULT_DEGRADED Hdr.dmc) true
    else
      let s := s.wr R.DMC_PPR_SPENT (spent ||| 2 ^ (p.1 % 8))
      let s := s.setMem fun m => { m with pprList := m.pprList.filter (· != p) }
      s.ledgerPost 0x09 0x0020 p.1 p.2 0xFFFF 0) s
  s.wr R.DMC_PPR_PENDING (min 255 s.mem.pprList.length)

/-! ### The die temperature (R134, R412, R414) -/

def State.temperatureUpdate (s : State) (temp : Int) : State :=
  let s := s.dieTemperature temp
  if !s.domOn Dom.dram then s
  else
    let s := s.put R.DMC_STATUS_HOT (decide (85 < s.dieTemp))
    if 20 ≤ dist s.cap.temp s.mem.sweepTemp then s.put R.DMC_STATUS_RETRAIN true else s

def execDieTemperatureUpdate (t : Elapsed) (temp : Int) (s : State) : Host.Outcome State Fault Refusal :=
  .next ((s.advance t).temperatureUpdate temp)

end Sys2Proof.Machine
end

