-- ==== Sys2Proof/Machine/Tag.lean ====
section
/-!
DEFINITION. The contactless tag: the chapter "Contactless tag", R339-R356. Reply bytes and error codes that the
manual leaves to ISO/IEC 15693-3 are PRESUMED from that standard (log entry 20).
-/

namespace Sys2Proof.Machine

def State.setTag (s : State) (t : TagState) : State := { s with tag := t }

/-- The 64-bit UID (R340). -/
def tagUidBits : BitVec 64 := 0xE0#8 ++ Config.tagMaker ++ Config.longAddress.setWidth 48

/-- The UID as a number. -/
def tagUid : Nat := tagUidBits.toNat

def uidBytes : List Byte := leBytes 8 tagUid

/-! ### Memory -/

/-- What an unwritten byte of the tag reads as: the shipped capability container in blocks 0-1, else zero (R343). -/
def tagDefault (a : Nat) : Byte := if a < 8 then Config.capability a else 0#8

def State.tagBytes (s : State) (a n : Nat) : List Byte := (List.range n).map fun i => sget tagDefault s.tag.eeprom (a + i)

def State.setTagBytes (s : State) (a : Nat) (bs : List Byte) : State :=
  s.setTag { s.tag with eeprom :=
    (bs.foldl (fun (p : Store × Nat) b => (sput tagDefault p.1 p.2 b, p.2 + 1)) (s.tag.eeprom, a)).1 }

/-- The 32-bit word of block `b`. -/
def State.block (s : State) (b : Nat) : Nat := leNum (s.tagBytes (4 * b) 4)

/-- Is open-area block `b` locked? -/
def State.blockLocked (s : State) (b : Nat) : Bool := s.block (4096 + b) != 0

/-- Blocks 610 and 611 as one 64-bit number (Table TAG-5). -/
def State.tagFlags (s : State) : Nat := leNum (s.tagBytes 2440 8)

def State.afi (s : State) : Nat := bitsOf s.tagFlags 0 8
def State.dsfid (s : State) : Nat := bitsOf s.tagFlags 8 8
def State.homereq (s : State) : Bool := bitOf s.tagFlags 18
def State.f2h (s : State) : Bool := bitOf s.tagFlags 19
def State.h2f (s : State) : Bool := bitOf s.tagFlags 20
def State.f2hLen (s : State) : Nat := bitsOf s.tagFlags 21 7 + 1
def State.h2fLen (s : State) : Nat := bitsOf s.tagFlags 32 7 + 1

/-- A secret of the system area: password and tag keys (Table TAG-5). -/
def isSecret (b : Nat) : Bool := decide (592 ≤ b ∧ b ≤ 609)

/-- What a read returns: secrets and reserved blocks read zero. -/
def State.readBlock (s : State) (b : Nat) : List Byte :=
  if isSecret b || decide (612 ≤ b ∧ b ≤ 639) then zeros 4 else s.tagBytes (4 * b) 4

/-- One copy of a counter: its value if the CRC-8 holds (R344). -/
def copyValue (w : Nat) : Option Nat :=
  if crc8 (leBytes 3 w) = w / 2 ^ 24 then some (w % 2 ^ 24) else none

/-- The value of counter `n`: the larger copy whose check holds, else 0. -/
def State.counter (s : State) (n : Nat) : Nat :=
  match copyValue (s.block (576 + 2 * n)), copyValue (s.block (577 + 2 * n)) with
  | some a, some b => max a b
  | some a, none => a
  | none, some b => b
  | none, none => 0

/-- The copy an increment writes: one whose check fails, else the smaller, copy A taking ties. -/
def State.counterCopy (s : State) (n : Nat) : Nat :=
  match copyValue (s.block (576 + 2 * n)), copyValue (s.block (577 + 2 * n)) with
  | none, _ => 576 + 2 * n
  | some _, none => 577 + 2 * n
  | some a, some b => if a ≤ b then 576 + 2 * n else 577 + 2 * n

/-! ### Supply -/

/-- Main supplies the tag whenever PWR has TAG on (R339). -/
def State.tagMain (s : State) : Bool := s.domOn Dom.tag

def State.tagPowered (s : State) : Bool := s.tagMain || s.tag.field

/-- Exact-timing mode is in force (R355). -/
def State.tagExact (s : State) : Bool :=
  s.tag.exact || s.flag R.TAG_CFG_EXACT || match s.phase with
    | .stage _ | .homeroom => true
    | _ => false

/-- The field holds the memory: a field write or its reply is not over (R353). -/
def State.tagHeld (s : State) : Bool :=
  s.tag.due.isSome || (match s.tag.run with
    | some r => match r.write.asker with
      | .field _ => true
      | _ => false
    | none => false) || s.tag.waiting.any fun w => match w.asker with
      | .field _ => true
      | _ => false

/-! ### The journal -/

/-- Sequence `a` is newer than `b` (R350). -/
def newerSeq (a b : Nat) : Bool := let d := (a + 2 ^ 24 - b) % 2 ^ 24; decide (1 ≤ d ∧ d < 2 ^ 23)

/-- The newest committed journal slot. -/
def State.newestSlot (s : State) : Option JournalSlot :=
  (s.tag.journal.filter fun j => j.whole && j.marked).foldl (fun best j =>
    match best with
    | none => some j
    | some b => if newerSeq j.seq b.seq then some j else some b) none

/-- The sequence number of the next write (R348). -/
def State.nextSeq (s : State) : Nat :=
  match s.newestSlot with
  | some j => (j.seq + 1) % 2 ^ 24
  | none => 1

/-- First block and data of a write as the memory stands. -/
def State.tagTarget (s : State) (op : TagOp) : Nat × List Byte :=
  match op with
  | .data first bytes => (first, bytes)
  | .flags m v => (610, leBytes 8 ((s.tagFlags - (s.tagFlags &&& m)) + (v &&& m)))
  | .counter n =>
    let v := min (s.counter n + 1) 0xFFFFFF
    (s.counterCopy n, leBytes 4 (crc8 (leBytes 3 v) * 2 ^ 24 + v))

/-- Begins step 3 of the next waiting write: journal slot (sequence mod 16) is rewritten (R348). -/
def State.tagBegin (s : State) : State :=
  match s.tag.run, s.tag.waiting with
  | none, w :: rest =>
    let (first, data) := s.tagTarget w.op
    let seq := s.nextSeq
    let j : JournalSlot := { slot := seq % 16, seq := seq, first := first, data := data, whole := false, marked := false }
    s.setTag { s.tag with waiting := rest, run := some { write := w, slot := j, step := 3, at_ := s.clk.ns }
                          journal := (s.tag.journal.filter (·.slot != j.slot)) ++ [j] }
  | _, _ => s

/-- Queues a journalled write, behind those that wait. -/
def State.tagQueue (s : State) (op : TagOp) (asker : TagAsker) : State :=
  (s.setTag { s.tag with waiting := s.tag.waiting ++ [⟨op, asker⟩] }).tagBegin

/-- Queues a write that goes ahead of those that wait: the count that follows a write. -/
def State.tagQueueFirst (s : State) (op : TagOp) : State :=
  s.setTag { s.tag with waiting := ⟨op, .tag⟩ :: s.tag.waiting }

/-- The field-to-host message goes to the oldest outstanding TAG_EXCH_RX, and the flag is cleared (R354). -/
def State.exchDeliver (s : State) : State :=
  match s.ring.work.find? fun w => w.ring == 7 && w.opcode == 0x74 && w.stage == .waiting with
  | some w =>
    if s.f2h then
      let n := s.f2hLen
      let s := (s.setBytes (w.word 3) (s.tagBytes 2048 n)).healRange (s.phys (w.word 3)) n
      (s.tagQueue (.flags (2 ^ 19) 0) .tag).decide_ w St.done n
    else s
  | none => s

/-- The commit marker stands: the write is in memory, and what hangs on it happens (R350, R347, R354). -/
def State.tagCommit (s : State) (r : TagRun) : State :=
  let had := s.f2h
  let hadHome := s.homereq
  let j := { r.slot with marked := true }
  let s := s.setTag { s.tag with journal := s.tag.journal.map fun x => if x.slot = j.slot then j else x
                                 run := some { r with slot := j, step := 5, at_ := s.clk.ns } }
  let s := (s.setTagBytes (4 * j.first) j.data).wr R.TAG_SEQ_SEQ j.seq
  let s := if !hadHome && s.homereq && s.flag R.BKP_WAKE_TAGEN then s.wakeSeen 4 0 else s
  if !had && s.f2h then s.exchDeliver else s

/-- A reply leaves the tag, at once or by the exact-timing rule (R355). -/
def State.tagReply (s : State) (r : TagReply) : State :=
  if s.tagExact then s.setTag { s.tag with due := some (r, s.clk.ns, false) }
  else s.setTag { s.tag with reply := r }

/-- The tag counts an event of its own, unless the counter stands at its limit (R344). -/
def State.tagCount (s : State) (ctr : Nat) : State :=
  if s.counter ctr = 0xFFFFFF then s else s.tagQueue (.counter ctr) .tag

/-- The value an increment wrote (R344). -/
def TagRun.newValue (r : TagRun) : List Byte := r.slot.data.take 3

/-- What a field write answers: an increment its new value, else what was laid by. -/
def TagRun.answer (r : TagRun) (d : List Byte) : List Byte :=
  match r.write.op with
  | .counter _ => r.newValue
  | _ => d

/-- The result of a host write: of an increment the value afterwards, else a length or the write's sequence (R353). -/
def TagRun.result (r : TagRun) (res : Option Nat) : Nat :=
  match r.write.op with
  | .counter _ => leNum r.newValue
  | _ => res.getD r.slot.seq

/-- A journalled write has ended: it is answered, and counter 4 counts it (R344). Under exact timing the end is
marked, since only an end of frame after it brings the reply (R355). -/
def State.tagWriteDone (s : State) (r : TagRun) : State :=
  let s := s.setTag { s.tag with run := none }
  let s := match r.write.asker with
    | .field d =>
      match s.tag.due with
      | some (_, _, true) => s.setTag { s.tag with due := some (.ok (r.answer d), s.clk.ns, true) }
      | _ => s.setTag { s.tag with reply := .ok (r.answer d) }
    | .host idx res =>
      match s.findWork 7 idx with
      | some w => s.decide_ w St.done (r.result res)
      | none => s
    | .tag => s
  let s := if r.write.op = .counter 4 ∨ s.counter 4 = 0xFFFFFF then s else s.tagQueueFirst (.counter 4)
  s.tagBegin

/-- Programming time of a step: 250 us a word (Table TAG-6). -/
def TagRun.stepNs (r : TagRun) : Nat :=
  250000 * (match r.step with
    | 3 => 3 + r.slot.data.length / 4
    | 4 => 1
    | _ => r.slot.data.length / 4)

/-- A programming step ends and the next begins (Table TAG-6). -/
def State.tagStepEnd (s : State) : State :=
  match s.tag.run with
  | none => s
  | some r =>
    if s.clk.ns < r.at_ + r.stepNs then s
    else
      let s := s.progress Hdr.tag
      match r.step with
      | 3 =>
        let j := { r.slot with whole := true }
        s.setTag { s.tag with journal := s.tag.journal.map fun x => if x.slot = j.slot then j else x
                              run := some { r with slot := j, step := 4, at_ := s.clk.ns } }
      | 4 => s.tagCommit r
      | _ => s.tagWriteDone r

def execTagWriteStepEnd (t : Elapsed) (s : State) : Host.Outcome State Fault Refusal := .next (s.advance t).tagStepEnd

/-- The supply collapses during a write: a marker being programmed may be whole or torn (Table TAG-7). -/
def State.tagCollapse (s : State) : State :=
  match s.tag.run with
  | some r =>
    let (v, s) := if r.step = 4 then s.free else (0, s)
    let s := if r.step = 4 ∧ v % 2 = 1 then s.tagCommit r else s
    s.setTag { s.tag with run := none, waiting := [], due := none }
  | none => s.setTag { s.tag with waiting := [], due := none }

/-- Does every word of a slot stand in the primary blocks? The model writes them at the marker, so the collapse
record tells (R350). -/
def State.tagRepair (s : State) (wasTorn : Bool) : State :=
  match s.newestSlot with
  | some j =>
    let s := s.setTagBytes (4 * j.first) j.data
    let s := s.wr R.TAG_SEQ_SEQ j.seq
    if wasTorn then s.bump R.TAG_COUNTS_TORN else s
  | none => s

/-- The tag loses its last supply. The newest committed slot's blocks may be torn when the collapse met step 5. -/
def State.tagOff (s : State) : State :=
  let torn := match s.tag.run with
    | some r => r.step == 5
    | none => false
  let s := s.tagCollapse
  let s := s.setTag { s.tag with mode := .ready, secured := false, auth := none, exact := false }
  if torn then match s.newestSlot with
    | some j => s.setTag { s.tag with journal := s.tag.journal.map fun x => if x.slot = j.slot then { x with whole := true } else x
                                      replySlot := 0, torn := true }
    | none => s
  else s

/-- The tag domain powers up: it repairs the memory from the newest committed slot (R350). -/
def State.tagUp (s : State) : State :=
  let torn := s.tag.torn
  (s.setTag { s.tag with torn := false, mode := .ready }).tagRepair torn

/-- The field reaches its threshold, or main supplies the domain. -/
def State.tagPowerUp (s : State) (byField : Bool) : State :=
  let was := s.tagPowered
  if byField then
    if s.tag.field then s
    else
      let s := s.setTag { s.tag with field := true }
      if was then s else s.tagUp
  else if s.tagMain ∧ !s.tag.field then s.tagUp else s

def execTagPowerUp (t : Elapsed) (byField : Bool) (s : State) : Host.Outcome State Fault Refusal :=
  .next ((s.advance t).tagPowerUp byField)

/-- The reader field is lost: the secured state and exact-timing mode end (R345, R355); with no main supply the
tag collapses (R351). -/
def State.tagFieldLoss (s : State) : State :=
  if !s.tag.field then s
  else
    let s := s.setTag { s.tag with field := false, fieldLostAt := s.clk.ns, secured := false, auth := none
                                   exact := false, mode := .ready, due := none
                                   failures := if s.tag.locked then s.tag.failures else 0 }
    if s.tagMain then s else s.tagOff

def execTagFieldLoss (t : Elapsed) (s : State) : Host.Outcome State Fault Refusal := .next (s.advance t).tagFieldLoss

/-- The field has been absent 100 ms: attempts are allowed again (R346). -/
def State.tagLockoutEnd (s : State) : State :=
  if !s.tag.field && decide (s.tag.fieldLostAt + 100000000 ≤ s.clk.ns) then
    s.setTag { s.tag with locked := false, failures := 0 }
  else s

def execTagLockoutEnd (t : Elapsed) (s : State) : Host.Outcome State Fault Refusal := .next (s.advance t).tagLockoutEnd

/-- In exact-timing mode the reply begins 4,320 carrier cycles after the end of frame that asks for it. A write that
had not ended at that end of frame is answered with 0x13 (R355). -/
def State.tagExactReply (s : State) : State :=
  match s.tag.due with
  | some (r, t0, waits) =>
    let ended := waits && r != .silent
    let early := decide (s.clk.ns * 1356 < t0 * 1356 + 432000000)
    if early && !ended then s
    else s.setTag { s.tag with due := none, reply := if waits && (early || !ended) then .error 0x13 else r }
  | none => s

def execTagExactReply (t : Elapsed) (s : State) : Host.Outcome State Fault Refusal := .next (s.advance t).tagExactReply

/-! ### Field commands -/

/-- The tag answers readers at all (TAG_CFG.RFEN). -/
def State.tagListens (s : State) : Bool := s.tag.field && (!s.tagMain || s.flag R.TAG_CFG_RFEN) && !(s.unit Hdr.tag).lapsed

/-- Is the request meant for this tag? -/
def State.tagMeant (s : State) (a : TagAddr) : Bool :=
  match a with
  | .any => s.tag.mode != .quiet
  | .selected => s.tag.mode == .selected
  | .uid u => u.toNat == tagUid

/-- A command the tag accepts counts, and discards RB unless it is AUTH_END (R345). -/
def State.tagAccept (s : State) (keepAuth : Bool) : State :=
  let s := if s.tagMain then s.bump R.TAG_COUNTS_CMDS else s
  let s := s.progress Hdr.tag
  if keepAuth then s else s.setTag { s.tag with auth := none }

/-- Runs a command the tag answers. -/
def State.tagCommand (s : State) (req : TagReq) (f : State → State) (keepAuth : Bool := false) : State :=
  if s.tagListens && s.tagMeant req.addr then f (s.tagAccept keepAuth) else s

def State.tagError (s : State) (code : Nat) : State := s.tagReply (.error code)

/-- A field write: with too weak a field nothing is written (R349); else it is journalled and answered after
step 5, with `data`. -/
def State.fieldWrite (s : State) (op : TagOp) (data : List Byte) (strong : Bool) : State :=
  if !strong && !s.tagMain then s.tagError 0xA2
  else
    let s := if s.tagExact then s.setTag { s.tag with due := some (.silent, s.clk.ns, true) } else s
    s.tagQueue op (.field data)

/-- Needs the secured state. -/
def State.needSecured (s : State) (f : State → State) : State := if s.tag.secured then f s else s.tagError 0xA1

/-- May the field read block `b` (Table TAG-4)? -/
def State.fieldReads (s : State) (b : Nat) : Bool :=
  decide (b < 512) || decide (576 ≤ b ∧ b < 640) || (decide (640 ≤ b) && s.tag.secured)

def State.fieldWrites (s : State) (b : Nat) : Bool := decide (b < 512) || (decide (640 ≤ b) && s.tag.secured)

/-- Security status byte of a block. -/
def State.securityByte (s : State) (b : Nat) : Byte := if b < 512 ∧ s.blockLocked b then 1#8 else 0#8

def State.readBlocks (s : State) (req : TagReq) (first n : Nat) : State :=
  if 64 < n ∨ 4096 < first + n then s.tagError 0x10
  else if !((List.range n).all fun i => s.fieldReads (first + i)) then s.tagError 0xA1
  else s.tagReply (.ok ((List.range n).flatMap fun i =>
    (if req.option then [s.securityByte (first + i)] else []) ++ s.readBlock (first + i)))

def execReadSingleBlock (t : Elapsed) (req : TagReq) (_extended : Bool) (block : Nat) (s : State) :
    Host.Outcome State Fault Refusal := .next ((s.advance t).tagCommand req fun s => s.readBlocks req block 1)

def execReadMultipleBlocks (t : Elapsed) (req : TagReq) (_extended : Bool) (first count : Nat) (s : State) :
    Host.Outcome State Fault Refusal := .next ((s.advance t).tagCommand req fun s => s.readBlocks req first count)

def State.writeBlocks (s : State) (first : Nat) (data : List Byte) (strong : Bool) : State :=
  let n := data.length / 4
  if 8 < n ∨ 4096 < first + n then s.tagError 0x10
  else if !((List.range n).all fun i => s.fieldWrites (first + i)) then s.tagError 0xA1
  else if (List.range n).any fun i => decide (first + i < 512) && s.blockLocked (first + i) then s.tagError 0x12
  else s.fieldWrite (.data first data) [] strong

def execWriteSingleBlock (t : Elapsed) (req : TagReq) (_extended : Bool) (block : Nat) (data : List Byte)
    (strong : Bool) (s : State) : Host.Outcome State Fault Refusal :=
  .next ((s.advance t).tagCommand req fun s => s.writeBlocks block data strong)

def execWriteMultipleBlocks (t : Elapsed) (req : TagReq) (_extended : Bool) (first : Nat) (data : List Byte)
    (strong : Bool) (s : State) : Host.Outcome State Fault Refusal :=
  .next ((s.advance t).tagCommand req fun s => s.writeBlocks first data strong)

def State.lockBlock (s : State) (b : Nat) (strong : Bool) : State :=
  if 4096 ≤ b then s.tagError 0x10
  else if 512 ≤ b then s.tagError 0xA1
  else if s.blockLocked b then s.tagError 0x11
  else s.fieldWrite (.data (4096 + b) [1#8, 0#8, 0#8, 0#8]) [] strong

def execLockBlock (t : Elapsed) (req : TagReq) (_extended : Bool) (block : Nat) (strong : Bool) (s : State) :
    Host.Outcome State Fault Refusal := .next ((s.advance t).tagCommand req fun s => s.lockBlock block strong)

/-- AFI of a request matches the tag's (ISO/IEC 15693-3: a zero nibble matches all). -/
def afiMatches (own : Nat) (want : Option Byte) : Bool :=
  match want with
  | none => true
  | some w => (w.toNat / 16 == 0 || w.toNat / 16 == own / 16) && (w.toNat % 16 == 0 || w.toNat % 16 == own % 16)

/-- The tag takes part in an inventory round. -/
def State.inRound (s : State) (afi : Option Byte) (maskLen mask : Nat) : Bool :=
  s.tagListens && s.tag.mode != .quiet && afiMatches s.afi afi && (tagUid % 2 ^ maskLen == mask % 2 ^ maskLen)

def State.replyInSlot (s : State) (slot : Nat) (data : List Byte) : State :=
  (s.setTag { s.tag with replySlot := slot }).tagReply (.ok data)

def State.inventory (s : State) (afi : Option Byte) (maskLen mask : Nat) (sixteen : Bool) : State :=
  if s.inRound afi maskLen mask then
    (s.tagAccept false).replyInSlot (if sixteen then tagUid / 2 ^ maskLen % 16 else 0)
      (BitVec.ofNat 8 s.dsfid :: uidBytes)
  else s

def execInventory (t : Elapsed) (afi : Option Byte) (maskLen mask : Nat) (sixteen : Bool) (s : State) :
    Host.Outcome State Fault Refusal := .next ((s.advance t).inventory afi maskLen mask sixteen)

/-- The slot of INV_ADAPT: the low Q bits of the CRC-16 over UID and nonce (R356). -/
def adaptSlot (q : Nat) (nonce : List Byte) : Nat := crc16 (uidBytes ++ nonce) % 2 ^ q

def State.invAdapt (s : State) (q : Nat) (nonce : List Byte) (afi : Option Byte) (maskLen mask : Nat) : State :=
  if q ≤ 8 ∧ s.inRound afi maskLen mask then (s.tagAccept false).replyInSlot (adaptSlot q nonce) uidBytes else s

def execInvAdapt (t : Elapsed) (q : Nat) (nonce : List Byte) (afi : Option Byte) (maskLen mask : Nat) (s : State) :
    Host.Outcome State Fault Refusal := .next ((s.advance t).invAdapt q nonce afi maskLen mask)

/-- Stay quiet is addressed and draws no reply. -/
def State.stayQuiet (s : State) (u : BitVec 64) : State :=
  if s.tagListens && u.toNat == tagUid then
    let s := s.tagAccept false
    s.setTag { s.tag with mode := .quiet, reply := .silent }
  else s

def execStayQuiet (t : Elapsed) (uid : BitVec 64) (s : State) : Host.Outcome State Fault Refusal :=
  .next ((s.advance t).stayQuiet uid)

/-- Select names one tag; another that was selected returns to ready without a reply. -/
def State.select (s : State) (u : BitVec 64) : State :=
  if !s.tagListens then s
  else if u.toNat = tagUid then
    let s := s.tagAccept false
    (s.setTag { s.tag with mode := .selected }).tagReply (.ok [])
  else if s.tag.mode = .selected then s.setTag { s.tag with mode := .ready }
  else s

def execSelect (t : Elapsed) (uid : BitVec 64) (s : State) : Host.Outcome State Fault Refusal :=
  .next ((s.advance t).select uid)

def execResetToReady (t : Elapsed) (req : TagReq) (s : State) : Host.Outcome State Fault Refusal :=
  .next ((s.advance t).tagCommand req fun s => (s.setTag { s.tag with mode := .ready }).tagReply (.ok []))

/-- A write of AFI or DSFID, in the secured state, unless it is locked (R341). -/
def State.writeFlag (s : State) (lockBit mask value : Nat) (strong : Bool) (locking : Bool) : State :=
  s.needSecured fun s =>
    if bitOf s.tagFlags lockBit then s.tagError (if locking then 0x11 else 0x12)
    else s.fieldWrite (.flags mask value) [] strong

def execWriteAfi (t : Elapsed) (req : TagReq) (afi : Byte) (strong : Bool) (s : State) :
    Host.Outcome State Fault Refusal :=
  .next ((s.advance t).tagCommand req fun s => s.writeFlag 16 0xFF afi.toNat strong false)

def execLockAfi (t : Elapsed) (req : TagReq) (strong : Bool) (s : State) : Host.Outcome State Fault Refusal :=
  .next ((s.advance t).tagCommand req fun s => s.writeFlag 16 0x10000 0x10000 strong true)

def execWriteDsfid (t : Elapsed) (req : TagReq) (dsfid : Byte) (strong : Bool) (s : State) :
    Host.Outcome State Fault Refusal :=
  .next ((s.advance t).tagCommand req fun s => s.writeFlag 17 0xFF00 (dsfid.toNat * 256) strong false)

def execLockDsfid (t : Elapsed) (req : TagReq) (strong : Bool) (s : State) : Host.Outcome State Fault Refusal :=
  .next ((s.advance t).tagCommand req fun s => s.writeFlag 17 0x20000 0x20000 strong true)

/-- System information: flags, UID, DSFID, AFI, memory size and IC reference; 4,096 blocks of 4 bytes. The IC
reference, and the block count where one byte cannot hold it, are free values. -/
def State.systemInfo (s : State) (extended : Bool) : State :=
  let (ic, s) := s.free
  let (n, s) := if extended then (4095, s) else s.free
  s.tagReply (.ok (0x0F#8 :: uidBytes ++ [BitVec.ofNat 8 s.dsfid, BitVec.ofNat 8 s.afi] ++
    (if extended then leBytes 2 n else leBytes 1 n) ++ [3#8, BitVec.ofNat 8 ic]))

def execGetSystemInformation (t : Elapsed) (req : TagReq) (extended : Bool) (s : State) :
    Host.Outcome State Fault Refusal := .next ((s.advance t).tagCommand req fun s => s.systemInfo extended)

def State.securityStatus (s : State) (first n : Nat) : State :=
  if 4096 < first + n then s.tagError 0x10
  else s.tagReply (.ok ((List.range n).map fun i => s.securityByte (first + i)))

def execGetBlockSecurityStatus (t : Elapsed) (req : TagReq) (_extended : Bool) (first count : Nat) (s : State) :
    Host.Outcome State Fault Refusal := .next ((s.advance t).tagCommand req fun s => s.securityStatus first count)

/-- A failed password (counter 7) or authentication (counter 6); four in a row lock (R346). -/
def State.authFailed (s : State) (ctr : Nat) : State :=
  let n := s.tag.failures + 1
  let s := s.setTag { s.tag with failures := n, locked := s.tag.locked || decide (4 ≤ n) }
  (s.tagCount ctr).tagError 0xA3

/-- The tag enters the secured state: counter 5 counts it (R344). -/
def State.authPassed (s : State) : State :=
  let s := s.setTag { s.tag with secured := true, failures := 0, auth := none }
  (s.tagCount 5).tagReply (.ok [])

/-- Commands that need the open state answer an access error in the secured state. -/
def State.needOpen (s : State) (f : State → State) : State := if s.tag.secured then s.tagError 0xA1 else f s

def State.password (s : State) (pw : List Byte) : State :=
  s.needOpen fun s =>
    if s.tag.locked then s.tagError 0xA3
    else
      let own := s.tagBytes 2368 8
      if s.flag R.TAG_CFG_PWDEN && own != zeros 8 && own == pw then s.authPassed else s.authFailed 7

def execPassword (t : Elapsed) (req : TagReq) (pw : List Byte) (_strong : Bool) (s : State) :
    Host.Outcome State Fault Refusal := .next ((s.advance t).tagCommand req fun s => s.password pw)

/-- Tag key `k` (Table TAG-5). -/
def State.tagKey (s : State) (k : Nat) : List Byte := s.tagBytes (2376 + 16 * k) 16

def State.authBegin (s : State) (k : Nat) (ra : List Byte) : State :=
  s.needOpen fun s =>
    if s.tag.locked || !s.flag R.TAG_CFG_AUTHEN || decide (4 ≤ k) then s.tagError 0xA3
    else
      let (v, s) := s.free
      let rb := leBytes 8 v
      let ta := (aesBlock (s.tagKey k) (ra ++ rb)).take 8
      (s.setTag { s.tag with auth := some (k, ra, rb) }).tagReply (.ok (rb ++ ta))

def execAuthBegin (t : Elapsed) (req : TagReq) (keyId : Nat) (ra : List Byte) (s : State) :
    Host.Outcome State Fault Refusal := .next ((s.advance t).tagCommand req fun s => s.authBegin keyId ra)

def State.authEnd (s : State) (tr : List Byte) : State :=
  match s.tag.auth with
  | none => s.tagError 0xA3
  | some (k, ra, rb) =>
    let key := s.tagKey k
    let s := s.setTag { s.tag with auth := none }
    if key != zeros 16 && (aesBlock key (rb ++ ra)).take 8 == tr then s.authPassed else s.authFailed 6

def execAuthEnd (t : Elapsed) (req : TagReq) (tr : List Byte) (s : State) : Host.Outcome State Fault Refusal :=
  .next ((s.advance t).tagCommand req (fun s => s.authEnd tr) true)

/-- Exchange commands need the secured state or TAG_CFG.EXOPEN (R354). -/
def State.exchAllowed (s : State) : Bool := s.tag.secured || s.flag R.TAG_CFG_EXOPEN

/-- A flag write of the exchange is queued or running and will change the flag bit. -/
def State.flagPending (s : State) (bit : Nat) : Bool :=
  let hits := fun (w : TagWrite) => match w.op with
    | .flags m _ => bitOf m bit
    | _ => false
  (match s.tag.run with
    | some r => r.step != 5 && hits r.write
    | none => false) || s.tag.waiting.any hits

def State.exchRead (s : State) (strong : Bool) : State :=
  if !s.exchAllowed then s.tagError 0xA1
  else if !s.h2f || s.flagPending 20 then s.tagError 0xA5
  else
    let n := s.h2fLen
    s.fieldWrite (.flags (2 ^ 20) 0) (BitVec.ofNat 8 n :: s.tagBytes 2176 n) strong

def execExchRead (t : Elapsed) (req : TagReq) (strong : Bool) (s : State) : Host.Outcome State Fault Refusal :=
  .next ((s.advance t).tagCommand req fun s => s.exchRead strong)

def State.exchWrite (s : State) (data : List Byte) (strong : Bool) : State :=
  if !s.exchAllowed then s.tagError 0xA1
  else if s.f2h || s.flagPending 19 then s.tagError 0xA5
  else if !strong && !s.tagMain then s.tagError 0xA2
  else (s.setTagBytes 2048 data).fieldWrite
    (.flags (2 ^ 19 + 127 * 2 ^ 21) (2 ^ 19 + (data.length - 1) * 2 ^ 21)) [] strong

def execExchWrite (t : Elapsed) (req : TagReq) (data : List Byte) (strong : Bool) (s : State) :
    Host.Outcome State Fault Refusal := .next ((s.advance t).tagCommand req fun s => s.exchWrite data strong)

def State.ctrInc (s : State) (n : Nat) (strong : Bool) : State :=
  s.needSecured fun s =>
    if s.counter n = 0xFFFFFF then s.tagError 0xA4
    else s.fieldWrite (.counter n) [] strong

def execCtrInc (t : Elapsed) (req : TagReq) (n : Nat) (strong : Bool) (s : State) :
    Host.Outcome State Fault Refusal := .next ((s.advance t).tagCommand req fun s => s.ctrInc n strong)

def execHomeroomReq (t : Elapsed) (req : TagReq) (strong : Bool) (s : State) : Host.Outcome State Fault Refusal :=
  .next ((s.advance t).tagCommand req fun s => s.needSecured fun s => s.fieldWrite (.flags (2 ^ 18) (2 ^ 18)) [] strong)

def execTiming (t : Elapsed) (req : TagReq) (enter : Bool) (s : State) : Host.Outcome State Fault Refusal :=
  .next ((s.advance t).tagCommand req fun s => s.needSecured fun s =>
    (s.setTag { s.tag with exact := enter }).tagReply (.ok []))

def execLeaveSecured (t : Elapsed) (req : TagReq) (s : State) : Host.Outcome State Fault Refusal :=
  .next ((s.advance t).tagCommand req fun s => s.needSecured fun s =>
    (s.setTag { s.tag with secured := false }).tagReply (.ok []))

def execTagUnknownCommand (t : Elapsed) (req : TagReq) (s : State) : Host.Outcome State Fault Refusal :=
  .next ((s.advance t).tagCommand req fun s => s.tagError 0x01)

/-! ### Host access on ring 7 -/

/-- Runs a ring-7 descriptor while the field does not hold the memory; else it waits (R353). -/
def State.hostTag (s : State) (idx op : Nat) (k : Work → State → State) : State :=
  let s := match s.findWork 7 idx with
    | some w => if w.stage == Stage.waiting && w.opcode == op && w.b != 0 && !s.tagHeld then
        s.updWork 7 idx fun w => { w with stage := Stage.accepted } else s
    | none => s
  s.runWork 7 idx [op] fun w s =>
    if s.tagHeld then s.updWork 7 idx fun w => { w with stage := .waiting, b := s.clk.ns + 1 } else k w s

/-- The area of a block: 0 open, 1 exchange, 2 system, 3 secured (Table TAG-4). -/
def tagArea (b : Nat) : Nat := if b < 512 then 0 else if b < 576 then 1 else if b < 640 then 2 else 3

/-- A range of blocks within one area. -/
def blockRange (first n : Nat) : Bool := decide (0 < n ∧ first + n ≤ 4096) && tagArea first == tagArea (first + n - 1)

def State.tagRead (s : State) (w : Work) : State :=
  let first := bitsOf (w.word 3) 0 12
  let n := bitsOf (w.word 3) 16 7
  let dst := w.word 4
  if !blockRange first n || decide (64 < n) || dst % 4 ≠ 0 then s.decide_ w St.malformed
  else if tagArea first = 1 then s.decide_ w St.access
  else match s.bufferRefusal w.prot (s.devWritable dst (4 * n)) dst (4 * n) with
  | some st => s.decide_ w st
  | none =>
    let data := (List.range n).flatMap fun i => s.readBlock (first + i)
    (((s.setBytes dst data).healRange (s.phys dst) (4 * n)).progress Hdr.tag).decide_ w St.done (4 * n)

def execTagRead (t : Elapsed) (idx : Nat) (s : State) : Host.Outcome State Fault Refusal :=
  .next ((s.advance t).hostTag idx 0x70 fun w s => s.tagRead w)

/-- A host write is queued for the journal; from its step 3 it is past its commit point (R353). -/
def State.hostWrite (s : State) (w : Work) (op : TagOp) (res : Option Nat) : State :=
  (s.updWork 7 w.idx fun w => { w with stage := .committed }).tagQueue op (.host w.idx res)

/-- The source of a host write is read unless a word of it is poisoned (R401). -/
def State.hostSource (s : State) (w : Work) (a n : Nat) (k : List Byte → State → State) : State :=
  match s.bufferRefusal w.prot (s.devReadable a n) a n with
  | some st => s.decide_ w st
  | none => if s.anyPoison (s.phys a) n then (s.bump R.SRM_ERRS_UNCORR).decide_ w St.memError else k (s.bytes a n) s

def State.tagWrite (s : State) (w : Work) : State :=
  let first := bitsOf (w.word 3) 0 12
  let n := bitsOf (w.word 3) 16 4
  if !blockRange first n || decide (8 < n) then s.decide_ w St.malformed
  else if tagArea first = 1 ∨ tagArea first = 2 then s.decide_ w St.access
  else if (List.range n).any fun i => decide (first + i < 512) && s.blockLocked (first + i) then
    s.decide_ w St.blockLocked
  else s.hostSource w (w.word 4) (4 * n) fun d s => s.hostWrite w (.data first d) none

def execTagWrite (t : Elapsed) (idx : Nat) (s : State) : Host.Outcome State Fault Refusal :=
  .next ((s.advance t).hostTag idx 0x71 fun w s => s.tagWrite w)

def State.tagCtr (s : State) (w : Work) : State :=
  let n := bitsOf (w.word 3) 0 3
  if !bitOf (w.word 3) 8 then (s.progress Hdr.tag).decide_ w St.done (s.counter n)
  else if 4 ≤ n then s.decide_ w St.access
  else if s.counter n = 0xFFFFFF then s.decide_ w St.counterLimit
  else s.hostWrite w (.counter n) none

def execTagCtr (t : Elapsed) (idx : Nat) (s : State) : Host.Outcome State Fault Refusal :=
  .next ((s.advance t).hostTag idx 0x72 fun w s => s.tagCtr w)

def State.tagSecret (s : State) (w : Work) : State :=
  let k := bitsOf (w.word 3) 0 3
  let first := if k = 0 then 592 else 590 + 4 * k
  let n := if k = 0 then 8 else 16
  if !w.prot then s.decide_ w St.access
  else if 4 < k then s.decide_ w St.malformed
  else if bitOf (w.word 3) 8 then s.hostWrite w (.data first (zeros n)) none
  else if !s.protectedRange (w.word 4) n then s.decide_ w St.access
  else s.hostSource w (w.word 4) n fun d s => s.hostWrite w (.data first d) none

def execTagSecret (t : Elapsed) (idx : Nat) (s : State) : Host.Outcome State Fault Refusal :=
  .next ((s.advance t).hostTag idx 0x73 fun w s => s.tagSecret w)

/-- TAG_EXCH_RX takes a waiting message or waits for one (R354). -/
def State.tagExchRx (s : State) (w : Work) : State :=
  match s.bufferRefusal w.prot (s.devWritable (w.word 3) 128) (w.word 3) 128 with
  | some st => s.decide_ w st
  | none =>
    let s := s.updWork 7 w.idx fun w => { w with stage := .waiting, b := 0 }
    if s.flagPending 19 then s else s.exchDeliver

def execTagExchRx (t : Elapsed) (idx : Nat) (s : State) : Host.Outcome State Fault Refusal :=
  .next ((s.advance t).hostTag idx 0x74 fun w s => s.tagExchRx w)

def State.tagExchTx (s : State) (w : Work) : State :=
  let n := bitsOf (w.word 4) 0 8
  if n = 0 ∨ 128 < n then s.decide_ w St.malformed
  else if s.h2f || s.flagPending 20 then s.decide_ w St.exchFull
  else s.hostSource w (w.word 3) n fun d s =>
    (s.setTagBytes 2176 d).hostWrite w (.flags (2 ^ 20 + 127 * 2 ^ 32) (2 ^ 20 + (n - 1) * 2 ^ 32)) (some n)

def execTagExchTx (t : Elapsed) (idx : Nat) (s : State) : Host.Outcome State Fault Refusal :=
  .next ((s.advance t).hostTag idx 0x75 fun w s => s.tagExchTx w)

/-- A host access has waited 20 ms on the field (R353). -/
def State.fieldBusy (s : State) (idx : Nat) : State :=
  match s.findWork 7 idx with
  | some w =>
    if w.stage == .waiting && w.b != 0 && s.tagHeld && decide (w.b - 1 + 20000000 ≤ s.clk.ns) then
      (s.bump R.TAG_COUNTS_BUSY).decide_ w St.fieldBusy 0
    else s
  | none => s

def execFieldBusyTimeout (t : Elapsed) (idx : Nat) (s : State) : Host.Outcome State Fault Refusal :=
  .next ((s.advance t).fieldBusy idx)

end Sys2Proof.Machine
end

