-- ==== Sys2Proof/Machine/Restart.lean ====
section
/-!
DEFINITION. What a reset of every domain but BKP leaves (R18, R28, R461), and the warm restart.
-/

namespace Sys2Proof.Machine

/-- Bytes of the NOR, which no reset loses. -/
def inNor (a : Nat) : Bool := decide (0x20000000 ≤ a ∧ a < 0x22000000)

/-- Every domain but BKP is reset. What stays: the clocks, BKP with its registers and DEV_RESTART, the NOR's contents
(an operation in progress leaves its bytes undefined, R408), the tag's EEPROM, the pads. Tempo goes to the keeper
(R72). -/
def State.resetDomains (s : State) (phase : Phase) : State :=
  let s := if s.domOn Dom.msn then s.keeperTake else s
  let s := s.norLapse.tagOff
  let s : State :=
    { clk := s.clk, regs := sdrop (fun a => !(inBkp a || a == 0x40000048)) s.regs, bkp := s.bkp, tag := s.tag,
      per := { gpioExt := s.per.gpioExt }, upd := { reverted := s.upd.reverted },
      mem := { cells := sdrop (fun a => !inNor a) s.mem.cells }, pins := { s.pins with nstat := true }, phase := phase,
      boot := { at_ := s.clk.ns, railAt := s.boot.railAt, four := s.boot.four }, freeCount := s.freeCount,
      pending := s.pending }
  if s.tag.field then s.tagUp else s

/-- A domain of the list is on: its units' timers begin. -/
def State.bringOn (s : State) (n : Nat) : State :=
  s.setDom n { state := 2, target := 2 }

/-- Stage 2 begins (R25): SYS, MSN, PER and TAG are on, tempo acquires. A domain that stayed on is left alone. -/
def State.stageTwo (s : State) : State :=
  let s := { s with phase := .stage 2, boot := { s.boot with at_ := s.clk.ns, three := false } }
  let msn := s.domOn Dom.msn
  let tag := s.tagPowered
  let s := [Dom.sys, Dom.msn, Dom.per, Dom.tag].foldl State.bringOn s
  let s := if tag then s else s.tagUp
  if msn then s else s.tempoStart

/-- A warm restart along the path of R28, which has no stage 4: DEV_RESTART gains its cause first (R38). -/
def State.warmRestart (s : State) (cause escType : Nat) : State :=
  let s := ((s.wr R.DEV_RESTART_CAUSE cause).bump R.DEV_RESTART_WARM).wr R.DEV_RESTART_ESCTYPE escType
  (s.resetDomains .off).stageTwo

end Sys2Proof.Machine
end

