-- ==== Sys2Proof/Machine/Update.lean ====
section
/-!
DEFINITION. Packages, manifests and the commit record (R431-R434), staging on ring 11 (R435-R439), activation, trial
and revert (R440-R442), and homeroom (R444-R447). The head of a package is its public key, manifest and signature.
-/

namespace Sys2Proof.Machine

def State.setUpd (s : State) (f : UpdState → UpdState) : State := { s with upd := f s.upd }

/-! ### Manifests (R431, R432) -/

/-- A field of the manifest in a head. -/
def manNum (head : List Byte) (off n : Nat) : Nat := imgNum head (64 + off) n

/-- NPARTS. -/
def manParts (head : List Byte) : Nat := manNum head 2 2

/-- The manifest's bytes. -/
def manBytes (head : List Byte) : List Byte := (head.drop 64).take (64 + 128 * manParts head)

/-- A field of entry `e` (Table UPD-3). -/
def partNum (head : List Byte) (e off n : Nat) : Nat := manNum head (64 + 128 * e + off) n

def partBytes (head : List Byte) (e off n : Nat) : List Byte := (head.drop (128 + 128 * e + off)).take n

def partType (head : List Byte) (e : Nat) : Nat := partNum head e 0 1
def partOffset (head : List Byte) (e : Nat) : Nat := partNum head e 4 4
def partLen (head : List Byte) (e : Nat) : Nat := partNum head e 8 4

/-- Blocks of 4 KB of an entry. -/
def partBlocks (head : List Byte) (e : Nat) : Nat := ceilDiv (partLen head e) 4096

/-- Member `m` stages entry `e`. -/
def partStaged (head : List Byte) (m e : Nat) : Bool := bitOf (partNum head e 1 1) m

/-- Entries that member `m` stages. -/
def stagedParts (head : List Byte) (m : Nat) : List Nat := (List.range (manParts head)).filter (partStaged head m)

/-- Largest LENGTH of a part of a type (Table UPD-3). -/
def partLimit (type : Nat) : Nat :=
  match type with
  | 1 => 0x800000
  | 2 => 0x100000
  | 3 => 0x80000
  | 4 => 0x10000
  | _ => 0

/-- An entry's own limits. -/
def partFits (head : List Byte) (e : Nat) : Bool :=
  let ty := partType head e
  let entry := partNum head e 12 4
  decide (1 ≤ ty ∧ ty ≤ 4 ∧ partOffset head e % 4096 = 0 ∧ 0x1000 ≤ partOffset head e ∧
    partOffset head e + partLen head e ≤ 0xC00000 ∧ partLen head e ≤ partLimit ty) &&
    (if ty = 1 then entry % 2 == 0 else entry == 0)

/-- Two parts do not overlap. -/
def partsApart (head : List Byte) (e f : Nat) : Bool :=
  decide (partOffset head e + partLen head e ≤ partOffset head f ∨ partOffset head f + partLen head f ≤ partOffset head e)

/-- The head's form and the manifest are well formed and fit this part (R432). -/
def headFits (head : List Byte) : Bool :=
  let n := manParts head
  let all := List.range n
  decide (192 ≤ head.length ∧ 4 ≤ n ∧ n ≤ 12 ∧ head.length = 192 + 128 * n ∧ manNum head 0 2 = 1) &&
    bitOf (manNum head 6 1) (b2n Config.bandA) && all.all (partFits head) &&
    (List.range 8).all fun m =>
      let ps := stagedParts head m
      ps.isEmpty || ((List.range 4).all (fun i => (ps.filter fun e => partType head e == i + 1).length == 1) &&
        ps.all fun e => ps.all fun f => e == f || partsApart head e f)

/-- The signer's key is the one of its fuse slot, and the signature verifies (R432). -/
def headSigned (head : List Byte) : Bool :=
  let k := manNum head 7 1
  let key := head.take 64
  decide (k < 4) && Config.fuseProg.getLsbD k && !Config.fuseRevoked.getLsbD k &&
    beNum (sha256 key) == (Config.fuseDigest k).toNat &&
    ecdsaVerify key (sha256 (manBytes head)) (head.drop (128 + 128 * manParts head))

/-- Entry `e` carries Farsum's signature if its type needs one. -/
def partSigned (head : List Byte) (e : Nat) : Bool :=
  partType head e == 1 ||
    ecdsaVerify (beBytes 64 Config.farsumKey.toNat) (partBytes head e 16 32) (partBytes head e 48 64)

/-- VERSION, FLOOR and SCHEMA of a manifest; the first eight bytes of its SHA-256. -/
def manVersion (head : List Byte) : Nat := manNum head 8 4
def manFloor (head : List Byte) : Nat := manNum head 12 4
def manSchema (head : List Byte) : Nat := manNum head 4 2
def manDigest (head : List Byte) : Nat := leNum ((sha256 (manBytes head)).take 8)

/-- Trial window in nanoseconds; 0 minutes select 30. -/
def manTrialNs (head : List Byte) : Nat :=
  let m := manNum head 16 4
  (if m = 0 then 30 else m) * 60000000000

/-! ### Slots and the commit record (R433, R434) -/

/-- Base of slot A or B. -/
def slotBase (slot : Nat) : Nat := 0x20000000 + 0xC00000 * (slot % 2)

/-- This member's index in MEMBERS; 0 outside a cohort. -/
def State.updMember (s : State) : Nat := if s.inCohort then s.cohIndex else 0

/-- The head at the start of a slot. -/
def State.slotHead (s : State) (slot : Nat) : List Byte :=
  let a := slotBase slot
  s.bytes a (192 + 128 * min 12 (s.num (a + 66) 2))

/-- A part's bytes in a slot match its HASH. -/
def State.partHashed (s : State) (slot : Nat) (head : List Byte) (e : Nat) : Bool :=
  sha256 (s.bytes (slotBase slot + partOffset head e) (partLen head e)) == partBytes head e 16 32

/-- A slot passes the checks of stage 5 with `floor` in force (R434). -/
def State.slotPasses (s : State) (slot floor : Nat) : Bool :=
  let head := s.slotHead slot
  headFits head && headSigned head && decide (floor ≤ manVersion head) &&
    (stagedParts head s.updMember).all fun e => s.partHashed slot head e && partSigned head e

/-- Address of a record copy. -/
def recordAddr (copy : Nat) : Nat := 0x21A00000 + 0x1000 * copy

/-- A copy's bytes if its CRC holds. -/
def State.recordAt (s : State) (copy : Nat) : Option (List Byte) :=
  let b := s.bytes (recordAddr copy) 64
  if crc32 (b.take 60) = imgNum b 60 4 then some b else none

/-- The record in force and its copy: the valid copy with the higher SEQ. -/
def State.recordInForce (s : State) : Option (Nat × List Byte) :=
  match s.recordAt 0, s.recordAt 1 with
  | none, none => none
  | some a, none => some (0, a)
  | none, some b => some (1, b)
  | some a, some b => if imgNum a 0 4 < imgNum b 0 4 then some (1, b) else some (0, a)

def State.recordFloor (s : State) : Nat := ((s.recordInForce).map fun r => imgNum r.2 8 4).getD 0

/-- The 64 bytes of a record (Table UPD-4). -/
def recordBytes (seq active state boots fallback floor digest epoch : Nat) : List Byte :=
  let b := leBytes 4 seq ++ leBytes 1 active ++ leBytes 1 state ++ leBytes 1 boots ++ leBytes 1 fallback ++
    leBytes 4 floor ++ leBytes 8 digest ++ leBytes 4 epoch ++ List.replicate 36 0xFF#8
  b ++ leBytes 4 (crc32 b)

/-- The copy a change goes to, and its SEQ. -/
def State.recordNext (s : State) : Nat × Nat :=
  match s.recordInForce with
  | some (c, b) => (1 - c, (imgNum b 0 4 + 1) % 2 ^ 32)
  | none => (0, 1)

/-- Programming one page of update work. -/
def updPage (a : Nat) (data : List Byte) : NvmOp :=
  { cmd := 1, addr := a, data := (data ++ List.replicate 256 0xFF#8).take 256, startedAt := 0, update := true }

/-- The sector erase and page program that write a record into the other copy. -/
def State.recordOps (s : State) (active state boots fallback floor digest epoch : Nat) : List NvmOp :=
  let (c, seq) := s.recordNext
  let a := recordAddr c
  [{ cmd := 2, addr := a, data := [], startedAt := 0, update := true },
   updPage a (recordBytes seq active state boots fallback floor digest epoch)]

/-! ### Update operations on the NOR -/

/-- The first operation of the oldest task begins when the NOR is free. -/
def State.updKick (s : State) : State :=
  match s.upd.tasks with
  | { ops := o :: _, idx := idx, .. } :: _ =>
    if s.mem.nvmOp.isSome || !s.domOn Dom.nvm || (s.unit Hdr.nvm).lapsed || (s.unit Hdr.upd).lapsed then s
    else
      let s := match idx with
        | some i => s.updWork 11 i fun w => { w with stage := .started }
        | none => s
      s.norBegin { o with startedAt := s.clk.ns }
  | _ => s

/-- Update work joins the queue. -/
def State.updQueue (s : State) (k : UpdTask) : State :=
  let s := match k.idx with
    | some i => s.updWork 11 i fun w => { w with stage := .waiting }
    | none => s
  (s.setUpd fun u => { u with tasks := u.tasks ++ [k] }).updKick

def State.updStage (s : State) : Nat := s.rd R.UPD_STATUS_STAGE
def State.setUpdStage (s : State) (n : Nat) : State := s.wr R.UPD_STATUS_STAGE n

/-- Blocks the local member needs, and those still missing. -/
def State.updBlocks (s : State) : Nat :=
  ((stagedParts s.upd.head s.updMember).map (partBlocks s.upd.head)).sum
def State.updMissing (s : State) : Nat := s.updBlocks - s.upd.marks.length

/-- Status of an update opcode, counted where a counter exists. -/
def State.updStatus (s : State) (st : Nat) : State :=
  if st = St.sigFail then s.bump R.UPD_COUNTS_SIGFAIL else if st = St.crcFail then s.bump R.UPD_COUNTS_CRCFAIL else s

/-! ### Homeroom replies (R445) -/

/-- A reply frame: SYNC, TYPE + 0x80, LEN, SEQ, payload, CRC-32. -/
def homeFrame (type seq : Nat) (pay : List Byte) : List Byte :=
  let b := leBytes 1 (type + 0x80) ++ leBytes 2 pay.length ++ leBytes 2 seq ++ pay
  0xA5#8 :: b ++ leBytes 4 (crc32 b)

def State.setHome (s : State) (f : HomeState → HomeState) : State := s.setUpd fun u => { u with home := f u.home }

/-- The reply to SEQ is kept; it answers repeats too. -/
def State.homeReply (s : State) (type seq : Nat) (pay : List Byte) : State :=
  s.setHome fun h => { h with last := some (seq, some (homeFrame type seq pay)) }

/-- Ends update work with a status and result: its descriptor completes, or its homeroom frame is answered. -/
def State.updAnswer (s : State) (idx seq : Option Nat) (type st result : Nat) : State :=
  let s := s.updStatus st
  match idx, seq with
  | some i, _ => match s.findWork 11 i with
    | some w => s.decide_ w st result
    | none => s
  | none, some q => s.homeReply type q (leBytes 1 st ++ leBytes 4 result)
  | none, none => s

/-! ### Staging (R435-R439) -/

/-- The checks of UPD_OPEN in their order (R438). -/
def openRefusal (head : List Byte) (floor : Nat) : Option Nat :=
  if !headFits head then some St.notForPart
  else if !headSigned head then some St.sigFail
  else if manVersion head < floor then some St.rollback
  else none

/-- Data cut into pages. -/
def pagesOf (a : Nat) : Nat → List Byte → List NvmOp
  | 0, _ => []
  | n + 1, bs => updPage a (bs.take 256) :: pagesOf (a + 256) n (bs.drop 256)

/-- A head that passed is staged into `slot`: every block erased, the head written. -/
def State.openSlot (s : State) (slot : Nat) (head : List Byte) (idx seq : Option Nat) : State :=
  let s := s.setUpd fun u => { u with head := head, slot := slot, marks := [] }
  let s := (s.setUpdStage 0).put R.UPD_STATUS_FBVALID false
  let s := s.put R.UPD_STATUS_SAMEVER (manVersion head == s.rd R.UPD_VERSION_VERSION)
  let erase := (List.range 192).map fun i =>
    ({ cmd := 3, addr := slotBase slot + 65536 * i, data := [], startedAt := 0, update := true } : NvmOp)
  s.updQueue { goal := .opened s.updBlocks, idx := idx, seq := seq,
               ops := erase ++ pagesOf (slotBase slot) (ceilDiv head.length 256) head }

/-- The slot that is not running. -/
def State.stagingSlot (s : State) : Nat := 1 - s.rd R.UPD_STATUS_ACTIVE

def State.updOpen (s : State) (w : Work) : State :=
  let a := w.word 3
  let n := w.word 4
  if !w.prot then s.decide_ w St.access
  else if s.updStage = 3 then s.decide_ w St.wrongState
  else if 4096 < n then s.decide_ w St.notForPart
  else match s.bufferRefusal w.prot (s.devReadable a n) a n with
  | some st => s.decide_ w st
  | none =>
    let head := s.bytes a n
    match openRefusal head (s.rd R.UPD_FLOOR_FLOOR) with
    | some st => s.updAnswer (some w.idx) none 0 st 0
    | none => s.openSlot s.stagingSlot head (some w.idx) none

def execUpdOpen (t : Elapsed) (idx : Nat) (s : State) : Host.Outcome State Fault Refusal :=
  .next ((s.advance t).runWork 11 idx [0x90] fun w s => s.updOpen w)

/-- A block of data is checked and programmed (R436). -/
def State.stageBlock (s : State) (entry n crc : Nat) (data : List Byte) (idx seq : Option Nat) : State :=
  let head := s.upd.head
  if s.updStage ≠ 1 then s.updAnswer idx seq 3 St.wrongState 0
  else if !(stagedParts head s.updMember).contains entry || decide (partBlocks head entry ≤ n) then
    s.updAnswer idx seq 3 St.malformed 0
  else if s.upd.marks.contains (entry, n) then s.updAnswer idx seq 3 St.done s.updMissing
  else if crc32 data ≠ crc then s.updAnswer idx seq 3 St.crcFail 0
  else s.updQueue { goal := .block entry n, idx := idx, seq := seq,
                    ops := pagesOf (slotBase s.upd.slot + partOffset head entry + 4096 * n) 16 data }

def State.updBlock (s : State) (w : Work) : State :=
  let a := w.word 4
  if s.updStage ≠ 1 then s.decide_ w St.wrongState
  else match s.bufferRefusal w.prot (s.devReadable a 4096) a 4096 with
  | some st => s.decide_ w st
  | none => s.stageBlock (bitsOf (w.word 3) 0 4) (bitsOf (w.word 3) 16 12) (w.word 5) (s.bytes a 4096) (some w.idx) none

def execUpdBlock (t : Elapsed) (idx : Nat) (s : State) : Host.Outcome State Fault Refusal :=
  .next ((s.advance t).runWork 11 idx [0x91] fun w s => s.updBlock w)

/-- The first staged part that fails, with its status (R436). -/
def State.closeFailure (s : State) : Option (Nat × Nat) :=
  (stagedParts s.upd.head s.updMember).findSome? fun e =>
    if !s.partHashed s.upd.slot s.upd.head e then some (e, St.hashFail)
    else if !partSigned s.upd.head e then some (e, St.sigFail)
    else none

/-- UPD_CLOSE and FINISH: the staged set is hashed and checked. Answers the state, the status and the result. -/
def State.closeSet (s : State) : State × Nat × Nat :=
  if s.updStage ≠ 1 then (s, St.wrongState, 0)
  else if s.updMissing ≠ 0 then (s, St.wrongState, s.updMissing)
  else
    let s := s.progress Hdr.upd
    match s.closeFailure with
    | some (e, st) => (s.setUpd fun u => { u with marks := u.marks.filter (·.1 != e) }, st, 0)
    | none => (s.setUpdStage 2, St.done, 0)

def State.updClose (s : State) (w : Work) : State :=
  let (s, st, r) := s.closeSet
  s.updAnswer (some w.idx) none 4 st r

def execUpdClose (t : Elapsed) (idx : Nat) (s : State) : Host.Outcome State Fault Refusal :=
  .next ((s.advance t).runWork 11 idx [0x92] fun w s => s.updClose w)

/-! ### Activation (R440, R442) -/

/-- Update messages between members have no packet type of their own: they travel as a window access of 16 bytes to
the member's UPD_STATUS, a read for the question of the prepare phase, a write for activation, accept and revert. -/
def updWindow : Nat := 0x1000000 + 0x44040

/-- The TRIAL record of the staged set. -/
def State.activate (s : State) (idx : Option Nat) (epoch : Nat) : State :=
  s.updQueue { goal := .activated, idx := idx,
               ops := s.recordOps s.upd.slot 1 0 (s.rd R.UPD_STATUS_ACTIVE + 128) (s.rd R.UPD_FLOOR_FLOOR)
                 (manDigest s.upd.head) epoch }

/-- Members other than this one whose HELLO is current. -/
def State.otherMembers (s : State) : List Nat :=
  (List.range 8).filter fun m => m != s.cohIndex && bitOf (s.rd R.COH_STATUS_PRESENT) m

/-- Every present member holds the set: the activation stamp goes out (R442). -/
def State.prepared (s : State) : State :=
  match s.upd.preparing with
  | some _ =>
    if s.otherMembers.all s.upd.prepared.contains then
      let x := (s.alignedStamp + 1024 * 65536) % stampMod
      (s.setUpd fun u => { u with preparing := none, prepared := [], activateAt := some x }).issue 0xF 0x05
        [1, updWindow, 16, 1, x]
    else s
  | none => s

def State.updActivate (s : State) (w : Work) : State :=
  if !w.prot || (s.inCohort && !s.leads) then s.decide_ w St.access
  else if s.updStage ≠ 2 then s.decide_ w St.wrongState
  else if !s.inCohort then s.activate (some w.idx) 0
  else if s.upd.preparing.isSome || s.upd.activateAt.isSome then s.decide_ w St.wrongState
  else
    let s := (s.setUpd fun u => { u with preparing := some (w.idx, s.clk.ns), prepared := [] }).updWork 11 w.idx
      fun w => { w with stage := .waiting }
    (s.issue 0xF 0x05 [0, updWindow, 16]).prepared

def execUpdActivate (t : Elapsed) (idx : Nat) (s : State) : Host.Outcome State Fault Refusal :=
  .next ((s.advance t).runWork 11 idx [0x93] fun w s => s.updActivate w)

/-- The activation is given up (R442). -/
def State.prepareAbort (s : State) : State :=
  match s.upd.preparing with
  | some (i, _) =>
    let s := s.setUpd fun u => { u with preparing := none, prepared := [] }
    match s.findWork 11 i with
    | some w => s.decide_ w St.cohortAbort
    | none => s
  | none => s

/-- A member's answer to the question of the prepare phase: its stage and the digest it holds. -/
def State.prepareAnswer (s : State) (m stage digest : Nat) : State :=
  if s.upd.preparing.isNone then s
  else if stage = 2 ∧ digest = manDigest s.upd.head then
    (s.setUpd fun u => { u with prepared := u.prepared ++ [m] }).prepared
  else s.prepareAbort

/-- 10 ms have passed without every answer. -/
def State.prepareTimeout (s : State) : State :=
  match s.upd.preparing with
  | some (_, t) => if t + 10000000 ≤ s.clk.ns then s.prepareAbort else s
  | none => s

def execCohortPrepareTimeout (t : Elapsed) (s : State) : Host.Outcome State Fault Refusal :=
  .next ((s.advance t).prepareTimeout)

/-- The activation stamp is reached at this member. -/
def State.cohortActivation (s : State) : State :=
  match s.upd.activateAt with
  | some x =>
    if !s.tempoUsable || !s.reached x then s
    else
      let s := s.setUpd fun u => { u with activateAt := none }
      if s.updStage = 2 then s.activate none (s.rd R.COH_EPOCH_EPOCH) else s
  | none => s

def execCohortActivation (t : Elapsed) (s : State) : Host.Outcome State Fault Refusal :=
  .next ((s.advance t).cohortActivation)

/-! ### Accept and revert (R441, R442) -/

/-- An accept or a revert of the trial is already being written. -/
def State.updSettling (s : State) : Bool :=
  s.upd.tasks.any fun k => match k.goal with
    | .accepted _ | .reverted => true
    | _ => false

/-- The SETTLED record of the running set, with the floor raised to the manifest's. -/
def State.acceptSet (s : State) (idx : Option Nat) : State :=
  let act := s.rd R.UPD_STATUS_ACTIVE
  let head := s.slotHead act
  let floor := max (s.rd R.UPD_FLOOR_FLOOR) (manFloor head)
  let rec_ := (s.recordInForce.map (·.2)).getD []
  s.updQueue { goal := .accepted floor, idx := idx,
               ops := s.recordOps act 0 0 (imgNum rec_ 7 1) floor (manDigest head) (imgNum rec_ 20 4) }

/-- The digest this member runs (UPD_DIGEST). -/
def State.ownDigest (s : State) : Nat := s.rd R.UPD_DIGEST_LO_DIGEST + 2 ^ 32 * s.rd R.UPD_DIGEST_HI_DIGEST

/-- The lead's accept goes on once every present member reports the new digest; it is forwarded to them. -/
def State.acceptTry (s : State) : State :=
  match s.upd.accepting with
  | some i =>
    let ok := s.otherMembers.all fun m => s.coh.members.any fun r => r.index == m && r.digest == s.ownDigest
    if !ok || s.updStage != 3 then s
    else
      let s := (s.setUpd fun u => { u with accepting := none }).issue 0xF 0x05 [1, updWindow, 16, 2, 0]
      s.acceptSet (some i)
  | none => s

def State.updAccept (s : State) (w : Work) : State :=
  if !w.prot then s.decide_ w St.access
  else if s.updStage ≠ 3 || s.updSettling || s.upd.accepting.isSome then s.decide_ w St.wrongState
  else if s.leads then
    ((s.setUpd fun u => { u with accepting := some w.idx }).updWork 11 w.idx fun w => { w with stage := .waiting }).acceptTry
  else s.acceptSet (some w.idx)

def execUpdAccept (t : Elapsed) (idx : Nat) (s : State) : Host.Outcome State Fault Refusal :=
  .next ((s.advance t).runWork 11 idx [0x94] fun w s => s.updAccept w)

/-- The SETTLED record of the fallback, with no fallback. -/
def State.revertSet (s : State) (idx : Option Nat) : State :=
  if s.updStage ≠ 3 || s.updSettling then s
  else
    let rec_ := (s.recordInForce.map (·.2)).getD []
    let fb := imgNum rec_ 7 1 % 2
    s.updQueue { goal := .reverted, idx := idx,
                 ops := s.recordOps fb 0 0 0 (s.rd R.UPD_FLOOR_FLOOR) (manDigest (s.slotHead fb)) (imgNum rec_ 20 4) }

/-- A revert at any member is broadcast by the lead. -/
def State.revertAll (s : State) (idx : Option Nat) : State :=
  let s := if s.leads then s.issue 0xF 0x05 [1, updWindow, 16, 3, 0]
    else if s.follows then s.issue (s.rd R.COH_STATUS_LEAD) 0x05 [1, updWindow, 16, 3, 0]
    else s
  s.revertSet idx

def State.updRevert (s : State) (w : Work) : State :=
  if !w.prot then s.decide_ w St.access
  else if s.updStage ≠ 3 || s.updSettling then s.decide_ w St.wrongState
  else s.revertAll (some w.idx)

def execUpdRevert (t : Elapsed) (idx : Nat) (s : State) : Host.Outcome State Fault Refusal :=
  .next ((s.advance t).runWork 11 idx [0x95] fun w s => s.updRevert w)

/-- The trial window runs out before an accept. -/
def State.trialExpiry (s : State) : State :=
  match s.upd.trialEnd with
  | some t => if s.updStage = 3 ∧ t ≤ s.clk.ns ∧ !s.updSettling then s.revertAll none else s
  | none => s

def execTrialExpiry (t : Elapsed) (s : State) : Host.Outcome State Fault Refusal := .next ((s.advance t).trialExpiry)

/-- An update message from another member. -/
def State.updMessage (s : State) (op x : Nat) : State :=
  match op with
  | 1 => if s.updStage = 2 then s.setUpd fun u => { u with activateAt := some x } else s
  | 2 => if s.updStage = 3 ∧ !s.updSettling then s.acceptSet none else s
  | 3 => if s.leads then s.revertAll none else s.revertSet none
  | _ => s

/-! ### The restart of an activation (R440) -/

/-- The restart comes when every ring is disabled and has written its last completion. -/
def State.leaveTry (s : State) : State :=
  if s.upd.leaving.isSome && (List.range 16).all s.ringDrained then s.warmRestart 4 0 else s

/-- The activation's record is written: its descriptor receives no completion, every ring drains under R40. -/
def State.leave (s : State) (idx : Option Nat) : State :=
  let s := { s with ring := { s.ring with work := s.ring.work.filter fun w => !(w.ring == 11 && some w.idx == idx) } }
  let s := (List.range 16).foldl State.disableRing s
  (s.setUpd fun u => { u with leaving := some (s.clk.ns, s.tx.airNs) }).leaveTry

/-- The drain bound of the rings has run out, the time on air left out (R42): the restart waits no longer. -/
def State.leaveBound (s : State) : State :=
  match s.upd.leaving with
  | some (t, air) => if t + 1000 * s.boundOf Hdr.rng + (s.tx.airNs - air) ≤ s.clk.ns then s.warmRestart 4 0 else s
  | none => s

/-- The last completion of the last ring may be what a restart waits for. -/
def execCompletionWrite (t : Elapsed) (ring : Nat) (s : State) : Host.Outcome State Fault Refusal :=
  .next ((s.advance t).writeCompletion ring).leaveTry

/-! ### The end of a NOR operation -/

/-- What a finished task brings about. -/
def State.updFinish (s : State) (k : UpdTask) : State :=
  match k.goal with
  | .opened r => (s.setUpdStage 1).updAnswer k.idx k.seq 2 St.done r
  | .block e n =>
    let s := s.setUpd fun u => { u with marks := u.marks ++ [(e, n)] }
    s.updAnswer k.idx k.seq 3 St.done s.updMissing
  | .activated => s.leave k.idx
  | .accepted floor =>
    let s := (((s.setUpdStage 0).wr R.UPD_FLOOR_FLOOR floor).wr R.UPD_TRIAL_BOOTS 0).setUpd fun u => { u with trialEnd := none }
    s.updAnswer k.idx k.seq 0 St.done floor
  | .reverted => (s.setUpd fun u => { u with reverted := true }).warmRestart 4 0
  | .finished =>
    let s := s.setHome fun h => { h with finished := true }
    s.updAnswer k.idx k.seq 4 St.done 0

/-- A NOR operation ends and is verified (R406): one of NVM_CMD, or one of an update task, whose next one begins. -/
def State.norOperationEnd (s : State) (ok : Bool) : State :=
  match s.mem.nvmOp with
  | some o =>
    if o.suspendedAt.isSome then s
    else if !o.update then (s.norEnd ok).updKick
    else
      let s := (s.setMem fun m => { m with nvmOp := none }).put R.NVM_STATUS_BUSY false
      let (s, _) := s.norDone o ok
      let s := (s.progress Hdr.nvm).progress Hdr.upd
      match s.upd.tasks with
      | k :: rest =>
        if !k.ops.head?.any (fun x => x.cmd == o.cmd && x.addr == o.addr) then s.updKick
        else match k.ops with
        | _ :: o' :: more => (s.setUpd fun u => { u with tasks := { k with ops := o' :: more } :: rest }).updKick
        | _ => ((s.setUpd fun u => { u with tasks := rest }).updFinish k).updKick
      | [] => s
  | none => s

def execNvmOperationEnd (t : Elapsed) (ok : Bool) (s : State) : Host.Outcome State Fault Refusal :=
  .next ((s.advance t).norOperationEnd ok)

/-! ### Homeroom (R444-R447) -/

/-- The rescue record of tag blocks 1,024-4,095, if its FORMAT and CRC hold (R447). -/
def State.rescue (s : State) : Option (List Byte) :=
  let head := s.tagBytes 4096 4
  let n := imgNum head 2 2
  if imgNum head 0 2 ≠ 1 ∨ n < 64 ∨ 12288 < n then none
  else
    let b := s.tagBytes 4096 n
    if crc32 (b.take (n - 4)) = imgNum b (n - 4) 4 then some b else none

/-- PATHS lets a path serve. -/
def State.pathOpen (s : State) (path : Nat) : Bool :=
  match s.rescue with
  | some b => imgNum b 4 1 % 8 == 0 || bitOf (imgNum b 4 1) path
  | none => true

/-- UART rate at entry: the rescue record's, or 115,200. -/
def State.rescueBaud (s : State) : Nat :=
  match s.rescue with
  | some b => if imgNum b 8 4 = 0 then 115200 else imgNum b 8 4
  | none => 115200

/-- A homeroom frame: one whose CRC fails gets no reply, a repeated SEQ the first reply again (R445). -/
def State.homeTake (s : State) (h : HomeHead) (f : State → State) : State :=
  if s.phase ≠ .homeroom || !h.crcOk || !s.pathOpen h.path then s
  else
    let s := s.setHome fun x => { x with at_ := s.clk.ns }
    if s.upd.home.last.any (·.1 == h.seq) then s
    else f (s.setHome fun x => { x with last := some (h.seq, none) })

/-- Homeroom writes into the slot that is not active when the active slot passes, else into slot A. -/
def State.homeSlot (s : State) : Nat :=
  let act := s.rd R.UPD_STATUS_ACTIVE
  let pass := if act = 0 then s.upd.home.passA else s.upd.home.passB
  if pass then 1 - act else 0

def execHomeroomHello (t : Elapsed) (h : HomeHead) (s : State) : Host.Outcome State Fault Refusal :=
  .next ((s.advance t).homeTake h fun s =>
    let x := s.upd.home
    s.homeReply 1 h.seq ([0#8] ++ leBytes 8 ownLong ++ leBytes 1 (b2n Config.bandA) ++ leBytes 2 Config.bootVersion.toNat ++
      leBytes 1 x.cause ++ leBytes 1 (b2n x.passA + 2 * b2n x.passB)))

def execHomeroomHead (t : Elapsed) (h : HomeHead) (head : List Byte) (s : State) : Host.Outcome State Fault Refusal :=
  .next ((s.advance t).homeTake h fun s =>
    match openRefusal head s.recordFloor with
    | some st => s.updAnswer none (some h.seq) 2 st 0
    | none => s.openSlot s.homeSlot head none (some h.seq))

def execHomeroomBlock (t : Elapsed) (h : HomeHead) (entry block crc : Nat) (data : List Byte) (s : State) :
    Host.Outcome State Fault Refusal :=
  .next ((s.advance t).homeTake h fun s => s.stageBlock entry block crc data none (some h.seq))

/-- FINISH closes the set and, on success, writes its TRIAL record; the fallback is the other slot, if it passed. -/
def State.homeFinish (s : State) (seq : Nat) : State :=
  let (s, st, r) := s.closeSet
  if st ≠ St.done then s.updAnswer none (some seq) 4 st r
  else
    let slot := s.upd.slot
    let other := if slot = 0 then s.upd.home.passB else s.upd.home.passA
    s.updQueue { goal := .finished, seq := some seq,
                 ops := s.recordOps slot 1 0 (1 - slot + 128 * b2n other) s.recordFloor (manDigest s.upd.head) 0 }

def execHomeroomFinish (t : Elapsed) (h : HomeHead) (s : State) : Host.Outcome State Fault Refusal :=
  .next ((s.advance t).homeTake h fun s => s.homeFinish h.seq)

/-- Homeroom ends: the tag's request is cleared, and the start that follows has CAUSE 3 (R444). -/
def State.homeEnd (s : State) : State :=
  let s := s.setTagBytes (4 * 610) (leBytes 8 (setBitsOf s.tagFlags 18 1 0))
  let s := s.setTag { s.tag with journal := s.tag.journal.filter (·.first != 610) }
  (s.wr R.DEV_RESTART_CAUSE 3).wr R.DEV_RESTART_ESCTYPE 0

/-- The restart at homeroom's end, along the path without stage 4. -/
def State.homeRestart (s : State) : State :=
  (s.homeEnd.resetDomains .off).stageTwo

def execHomeroomRestart (t : Elapsed) (h : HomeHead) (s : State) : Host.Outcome State Fault Refusal :=
  .next ((s.advance t).homeTake h fun s =>
    if s.upd.home.finished then (s.homeReply 5 h.seq [0#8]).homeRestart
    else s.homeReply 5 h.seq (leBytes 1 St.wrongState))

/-- BAUD raises the UART rate to at most 3 Mbaud; 0 leaves it. -/
def execHomeroomBaud (t : Elapsed) (h : HomeHead) (rate : Nat) (s : State) : Host.Outcome State Fault Refusal :=
  .next ((s.advance t).homeTake h fun s =>
    let s := s.setHome fun x => { x with baud := if rate = 0 then x.baud else min rate 3000000 }
    s.homeReply 6 h.seq ([0#8] ++ leBytes 4 s.upd.home.baud))

/-- 15 minutes without a valid frame end a homeroom that a tag request began, when a slot passes (R444). -/
def State.homeTimeout (s : State) : State :=
  let h := s.upd.home
  if s.phase = .homeroom ∧ h.byTag ∧ (h.passA || h.passB) ∧ h.at_ + 900000000000 ≤ s.clk.ns then s.homeRestart else s

def execHomeroomTimeout (t : Elapsed) (s : State) : Host.Outcome State Fault Refusal := .next ((s.advance t).homeTimeout)

end Sys2Proof.Machine
end

