-- ==== Sys2Proof/Machine/Cohort.lean ====
section
/-!
DEFINITION. Cohorts: HELLO and the cohort's presence, elections and the epoch (R417-R422), the lead's tempo (R423,
R424), counter blocks (R426), frames and acknowledgements handed between members (R205, R427), lost members (R428)
and disagreements (R429).
-/

namespace Sys2Proof.Machine

/-! ### Link packets (R418, R419) -/

/-- COH works on a received packet: its CRC holds, its epoch is the member's own unless `free`; one that comes after
its decision step is served and breaks envelope condition 2. -/
def State.cohReceive (s : State) (h : CohHead) (free : Bool) (f : State → State) : State :=
  if !s.inCohort || !s.domOn Dom.coh || !s.enabled Hdr.coh || (s.unit Hdr.coh).lapsed then s
  else if !h.crcOk then s.bump R.COH_COUNTS_CRCERR
  else if !free && h.epoch != s.rd R.COH_EPOCH_EPOCH % 256 then s.bump R.COH_COUNTS_STALE
  else f ((if h.late then s.envBreak 0x05 2 Hdr.coh else s).progress Hdr.coh)

/-- COH_STATUS.STATE. -/
def State.cohState (s : State) : Nat := s.rd R.COH_STATUS_STATE

/-- HELLO on both ports. -/
def State.sendHello (s : State) : State :=
  let body := [s.cohIndex, s.cohState, s.rd R.COH_EPOCH_EPOCH, s.ownDigest, s.gen.active]
  let n := s.coh.seq
  let s := (s.issue 0xF 0x01 (body ++ [s.coh.echoEast])).issue 0xF 0x01 (body ++ [s.coh.echoWest])
  s.setCoh fun c => { c with helloAt := s.clk.ns,
                             sentAt := (((n + 1) % 65536, s.clk.ns) :: (n, s.clk.ns) :: c.sentAt).take 16 }

/-- HELLO every 100 µs (Table COH-2). -/
def execHelloSend (t : Elapsed) (s : State) : Host.Outcome State Fault Refusal :=
  let s := s.advance t
  .next (if s.inCohort && s.domOn Dom.coh && s.enabled Hdr.coh && !(s.unit Hdr.coh).lapsed &&
    decide (s.coh.helloAt + 100000 ≤ s.clk.ns) then s.sendHello else s)

/-- A port gains or loses its link (R417). -/
def execPortLinkChange (t : Elapsed) (west up : Bool) (s : State) : Host.Outcome State Fault Refusal :=
  let s := s.advance t
  .next (if s.domOn Dom.coh then s.put (if west then R.COH_LINK_WUP else R.COH_LINK_EUP) up else s)

/-- The port in use for member `m`: fewer hops, west when equal, the other one when that is down (R417). -/
def State.portWest (s : State) (m : Nat) : Bool :=
  let n := s.rd R.COH_CFG_COUNT
  let east := (m + n - s.cohIndex) % n
  let west := decide (n - east ≤ east)
  if west then s.flag R.COH_LINK_WUP || !s.flag R.COH_LINK_EUP else !s.flag R.COH_LINK_EUP && s.flag R.COH_LINK_WUP

/-! ### Leads, epochs and elections (R420-R422) -/

/-- The lead is no longer the one it was: envelope condition 3 breaks (R421). -/
def State.loseLead (s : State) : State :=
  if s.rd R.COH_STATUS_LEAD = 0xF then s
  else ((s.wr R.COH_STATUS_LEAD 0xF).setCoh fun c => { c with lost := true }).envBreak 0x07 3 Hdr.coh

/-- QUIET (R420, R421). -/
def State.enterQuiet (s : State) : State :=
  let s := s.loseLead.wr R.COH_STATUS_STATE 4
  if s.coh.quiet then s
  else (s.setCoh fun c => { c with quiet := true, electAt := s.clk.ns }).cohRecord 0x04 s.cohIndex

/-- An election begins: ELECT is broadcast (R420). -/
def State.beginElection (s : State) : State :=
  if !s.inCohort || !s.domOn Dom.coh then s
  else
    let s := s.loseLead.bump R.COH_COUNTS_ELECTS
    let e := s.rd R.COH_EPOCH_EPOCH
    let s := (s.wr R.COH_STATUS_STATE 1).setCoh fun c =>
      { c with votes := [(s.cohIndex, e)], electAt := s.clk.ns, leadAt := s.clk.ns }
    s.issue 0xF 0x02 [e, s.cohIndex]

/-- COH is on: a member of a cohort elects (R420). -/
def State.cohortStart (s : State) : State := if s.inCohort && s.cohState == 0 then s.beginElection else s

/-- Requests for every owned context whose block is not valid (R426). -/
def State.requestAll (s : State) : State :=
  let s := s.setCoh fun c => { c with requested := [] }
  (List.range 512).foldl (fun s k => s.requestMissing k) s

/-- A lead stands: the epoch is stored, the record posted, envelope condition 3 holds again, QUIET is over. -/
def State.leadKnown (s : State) (epoch lead : Nat) : State :=
  let s := (s.wr R.COH_EPOCH_EPOCH epoch).wr R.COH_STATUS_LEAD lead
  let s := s.cohRecord 0x03 lead
  let s := if s.coh.quiet then (s.setCoh fun c => { c with quiet := false }).cohRecord 0x05 s.cohIndex else s
  let s := if s.coh.lost then (s.setCoh fun c => { c with lost := false }).envRestore 0x07 3 Hdr.coh else s
  s.setCoh fun c => { c with leadAt := s.clk.ns, tempoAt := s.clk.edges }

/-- Members the lead counts, itself included: those whose last HELLO is at most 1 ms old (R421). -/
def State.membersHeard (s : State) : Nat :=
  1 + (s.coh.members.filter fun m => m.index != s.cohIndex && decide (s.clk.ns < m.at_ + 1000000)).length

/-- At least ⌊N/2⌋ + 1 members. -/
def State.isMajority (s : State) (n : Nat) : Bool := decide (s.rd R.COH_CFG_COUNT / 2 + 1 ≤ n)

/-! ### Lost members (R428) -/

/-- The partner contexts of the active generation owned by one of the members `l`. -/
def State.ownedBy (s : State) (l : List Nat) : List Nat :=
  (List.range 512).filter fun k => s.ctxValid k && l.contains (s.ctxNum k 68 1 % 16)

/-- The new owner: the present member of lowest index where the partner was heard, else the lead. -/
def State.newOwner (s : State) (k : Nat) : Nat :=
  if s.ctxNum k 52 2 ≠ 0 then
    ((List.range 8).find? fun m => m == s.cohIndex || bitOf (s.rd R.COH_STATUS_PRESENT) m).getD s.cohIndex
  else s.cohIndex

/-- The lead reassigns lost members' contexts by a commit at the next slot boundary that changes OWNER only. -/
def State.reassignLost (s : State) : State :=
  if !s.leads || s.coh.reassign.isEmpty || s.gen.commit.isSome || !s.tempoUsable then s
  else
    let ks := s.ownedBy s.coh.reassign
    let s := s.setCoh fun c => { c with reassign := [] }
    if ks.isEmpty then s
    else
      let c : Commit :=
        { idx := 0, boundary := some (s.slotBoundary (s.alignedStamp + 1)), tables := 2 ^ 5, releases := [],
          interval := 256, newGen := nextGen s.gen.active, fromLead := true,
          rewrites := ks.map fun k =>
            (k, false, imgPut (s.ctxImage k) 68 4 (setBitsOf (s.ctxNum k 68 4) 0 4 (s.newOwner k))) }
      let s := s.pushCommit 0xF s.tab.ina c.tables c.newGen c.interval c.boundary c.rewrites []
      { s with gen := { s.gen with pending := c.newGen, commit := some c } }

/-- Member `m` is lost: no HELLO for 1 ms. -/
def State.memberLost (s : State) (m : Nat) : State :=
  let old := match s.coh.members.find? (·.index == m) with
    | some r => decide (r.at_ + 1000000 ≤ s.clk.ns)
    | none => true
  if bitOf (s.rd R.COH_STATUS_PRESENT) m && old then
    let s := (s.wr R.COH_STATUS_PRESENT (setBitsOf (s.rd R.COH_STATUS_PRESENT) m 1 0)).cohRecord 0x02 m
    (if s.leads then s.setCoh fun c => { c with reassign := c.reassign ++ [m] } else s).reassignLost
  else s.reassignLost

def execMemberLost (t : Elapsed) (m : Nat) (s : State) : Host.Outcome State Fault Refusal :=
  .next ((s.advance t).memberLost m)

/-! ### Election results -/

/-- The candidate becomes lead: one epoch beyond the highest seen, every high-water mark one block further, LEADER
(R420, R426). Contexts of absent members are reassigned (R428). -/
def State.becomeLead (s : State) : State :=
  let epoch := s.coh.votes.foldl (fun m v => max m v.2) 0 + 1
  let s := (s.wr R.COH_STATUS_STATE 2).leadKnown epoch s.cohIndex
  let s := s.setCoh fun c => { c with
    high := ((List.range 512).filter s.ctxValid).foldl
      (fun l k => sput (fun _ => 0) l k (sget (fun _ => 0) l k + 1)) c.high
    reassign := (List.range (s.rd R.COH_CFG_COUNT)).filter fun m =>
      m != s.cohIndex && !bitOf (s.rd R.COH_STATUS_PRESENT) m
    pushed := [] }
  let s := s.issue 0xF 0x03 ([epoch, setBitsOf (s.rd R.COH_STATUS_PRESENT) s.cohIndex 1 1] ++
    s.coh.high.flatMap fun p => [p.1, p.2])
  s.requestAll.reassignLost

/-- The candidate: the voter with the highest epoch, among equals the lowest index (R420). -/
def candidate (votes : List (Nat × Nat)) : Option (Nat × Nat) :=
  votes.foldl (fun r v => match r with
    | none => some v
    | some b => if b.2 < v.2 ∨ (b.2 = v.2 ∧ v.1 < b.1) then some v else r) none

/-- The 200 µs of collection end. A voter that is not the candidate waits for LEADER. -/
def State.electionEnd (s : State) : State :=
  if s.cohState ≠ 1 ∨ s.clk.ns < s.coh.electAt + 200000 ∨ !s.inCohort then s
  else if !s.isMajority s.coh.votes.length then s.enterQuiet
  else match candidate s.coh.votes with
  | some (m, _) => if m = s.cohIndex then s.becomeLead else s.setCoh fun c => { c with leadAt := s.clk.ns }
  | none => s

def execElectionWindowEnd (t : Elapsed) (s : State) : Host.Outcome State Fault Refusal :=
  .next ((s.advance t).electionEnd)

/-- No HELLO from the lead for 1 ms, or no LEADER after an election (R420). -/
def State.leadLoss (s : State) : State :=
  let waits := s.cohState == 3 || s.cohState == 5 || (s.cohState == 1 && decide (s.coh.electAt + 200000 ≤ s.clk.ns))
  if s.inCohort && waits && decide (s.coh.leadAt + 1000000 ≤ s.clk.ns) then s.beginElection else s

def execLeadLossTimeout (t : Elapsed) (s : State) : Host.Outcome State Fault Refusal := .next ((s.advance t).leadLoss)

/-- A quiet voter repeats the election every 10 ms (R420). -/
def State.electionRetry (s : State) : State :=
  if s.inCohort && s.cohState == 4 && decide (s.coh.electAt + 10000000 ≤ s.clk.ns) then s.beginElection else s

def execElectionRetry (t : Elapsed) (s : State) : Host.Outcome State Fault Refusal :=
  .next ((s.advance t).electionRetry)

/-- A lead that counts no majority announces it and goes quiet (R421); its HELLO that shows QUIET is the
announcement. -/
def State.majorityLoss (s : State) : State :=
  if s.leads && !s.isMajority s.membersHeard then s.enterQuiet.sendHello else s

def execMajorityLoss (t : Elapsed) (s : State) : Host.Outcome State Fault Refusal := .next ((s.advance t).majorityLoss)

/-- ELECT: collected during an election (R420). -/
def State.elect (s : State) (m epoch : Nat) : State :=
  if s.cohState = 1 ∧ s.clk.ns < s.coh.electAt + 200000 then
    s.setCoh fun c => { c with votes := c.votes.filter (·.1 != m) ++ [(m, epoch)] }
  else s

def execCohElect (t : Elapsed) (h : CohHead) (epoch : Nat) (s : State) : Host.Outcome State Fault Refusal :=
  .next ((s.advance t).cohReceive h true fun s => s.elect h.src epoch)

/-- A follower of `lead` at `epoch`. A member stepped out stays so (R424); a lead that gives way is quiet first
(R421). -/
def State.followLead (s : State) (epoch lead : Nat) : State :=
  let s := if s.cohState = 2 then s.enterQuiet else if s.rd R.COH_STATUS_LEAD = lead then s else s.loseLead
  let s := if s.cohState = 6 then s else s.wr R.COH_STATUS_STATE 3
  (s.leadKnown epoch lead).setCoh fun c => { c with reassign := [], pushed := [], flywheels := false }

/-- LEADER: the receiver follows, takes the high-water list and asks for its blocks (R420, R426). -/
def State.leaderCame (s : State) (lead epoch : Nat) (high : List (Nat × Nat)) : State :=
  if epoch < s.rd R.COH_EPOCH_EPOCH ∨ (epoch = s.rd R.COH_EPOCH_EPOCH ∧ s.cohState = 2) then s
  else
    let s := s.followLead epoch lead
    (s.setCoh fun c => { c with high := high.foldl (fun l p => sput (fun _ => 0) l p.1 p.2) [] }).requestAll

def execCohLeader (t : Elapsed) (h : CohHead) (epoch _map : Nat) (high : List (Nat × Nat)) (s : State) :
    Host.Outcome State Fault Refusal :=
  .next ((s.advance t).cohReceive h true fun s => s.leaderCame h.src epoch high)

/-! ### HELLO (R418, R421, R429) -/

/-- Round trip of a HELLO in 1/16 step at TMP_RATE, kept as a mean of the last eight on the path to the lead. -/
def State.helloEcho (s : State) (m : Nat) (west : Bool) (echo : Nat) : State :=
  match s.coh.sentAt.find? (·.1 == echo) with
  | some (_, at_) =>
    if m = s.rd R.COH_STATUS_LEAD ∧ west = s.portWest m then
      let x := (s.clk.ns - at_) * 65536 * 16 * s.rd R.TMP_RATE_RATE / (2 ^ 24 * 1000000000)
      let l := (x :: s.coh.rtts).take 8
      (s.setCoh fun c => { c with rtts := l, sentAt := c.sentAt.filter (·.1 != echo) }).wr R.COH_LINK_RTT
        (min 65535 (l.sum / l.length))
    else s
  | none => s

/-- The lead sends its banks to a member whose generation differs (R429). -/
def State.resyncMember (s : State) (m gen : Nat) : State :=
  if gen = s.gen.active then s.setCoh fun c => { c with pushed := c.pushed.filter (· != m) }
  else if s.gen.commit.isSome || s.coh.pushed.contains m || !s.tempoUsable then s
  else
    (s.pushCommit m s.tab.act 0x1F s.gen.active 256 (some (s.slotBoundary (s.alignedStamp + 1))) [] []).setCoh
      fun c => { c with pushed := c.pushed ++ [m] }

/-- What a member does on its lead's HELLO: STANDBY on another version or generation, and back (R429). -/
def State.leadHello (s : State) (digest gen : Nat) : State :=
  let s := s.setCoh fun c => { c with leadAt := s.clk.ns }
  let st := s.cohState
  if st ≠ 3 ∧ st ≠ 5 then s
  else if digest ≠ s.ownDigest then
    if st = 5 then s else (s.wr R.COH_STATUS_STATE 5).cohRecord 0x07 s.cohIndex
  else if gen ≠ s.gen.active && s.gen.commit.isNone then
    (s.wr R.COH_STATUS_STATE 5).setCoh fun c => { c with resync := true }
  else if st = 5 && !s.coh.resync then s.wr R.COH_STATUS_STATE 3
  else s

/-- HELLO from member `m`. -/
def State.helloCame (s : State) (m : Nat) (west : Bool) (seq state epoch digest gen echo : Nat) : State :=
  let s := s.setCoh fun c => if west then { c with echoWest := seq } else { c with echoEast := seq }
  let s := s.helloEcho m west echo
  let r : CohMember := { index := m, at_ := s.clk.ns, state := state, epoch := epoch, digest := digest, gen := gen }
  let s := s.setCoh fun c => { c with members := c.members.filter (·.index != m) ++ [r]
                                      reassign := c.reassign.filter (· != m) }
  let s := if bitOf (s.rd R.COH_STATUS_PRESENT) m then s
    else (s.wr R.COH_STATUS_PRESENT (setBitsOf (s.rd R.COH_STATUS_PRESENT) m 1 1)).cohRecord 0x01 m
  let own := s.rd R.COH_EPOCH_EPOCH
  let s := if s.leads && decide (own < epoch) then s.enterQuiet else s
  let s := if state = 2 ∧ (own < epoch ∨ (own = epoch ∧ s.cohState = 4)) then (s.followLead epoch m).requestAll else s
  if s.leads then (s.resyncMember m gen).acceptTry
  else if s.rd R.COH_STATUS_LEAD = m then
    if state = 2 then s.leadHello digest gen
    else if state = 4 ∧ s.cohState = 3 then s.beginElection
    else s
  else s

def execCohHello (t : Elapsed) (h : CohHead) (west : Bool) (state epoch digest gen echo : Nat) (s : State) :
    Host.Outcome State Fault Refusal :=
  .next ((s.advance t).cohReceive h true fun s =>
    if h.src = s.cohIndex then s else s.helloCame h.src west h.seq state epoch digest gen echo)

/-- A write of COH_CTL.REJOIN leaves STEPPED_OUT (R424). -/
def State.rejoin (s : State) : State :=
  if s.cohState ≠ 6 then s
  else
    let s := s.setCoh fun c => { c with offset := none, samples := [], offRun := 0 }
    if s.rd R.COH_STATUS_LEAD = 0xF then s.beginElection else s.wr R.COH_STATUS_STATE 3

def execCohRejoin (t : Elapsed) (who : Who) (value : Nat) (s : State) : Host.Outcome State Fault Refusal :=
  .next ((s.advance t).pageWrite who Hdr.coh fun s => if bitOf value 0 then s.rejoin else s)

/-! ### Tempo (R423) -/

/-- One-way delay on the path in use: half the mean round trip, in 1/16 step. -/
def State.linkDelay16 (s : State) : Nat := s.rd R.COH_LINK_RTT / 2

/-- TEMPO from the lead: aligned tempo, the flags of TMP_STATUS, the rate and U become the lead's. -/
def State.tempoCame (s : State) (m stamp status rate u : Nat) : State :=
  if s.leads || s.rd R.COH_STATUS_LEAD != m || s.cohState == 1 then s
  else
    let s := s.setCoh fun c => { c with tempoAt := s.clk.edges, flywheels := false }
    let s := (s.wr R.TMP_RATE_RATE rate).setTmp fun r => { r with rateFrom := 2 }
    let s := s.tempoGo (bitsOf status 0 3)
    let s := (s.put R.TMP_STATUS_PROVISIONAL (bitOf status 5)).setUncert (u * 65536)
    let d := 16 * stampDiff stamp s.alignedStamp - s.align16 % 16 + s.linkDelay16
    (if d = 0 then s else s.moveTempo d 0 (decide (32 < d.natAbs))).setAligned (bitOf status 4)

def execCohTempo (t : Elapsed) (h : CohHead) (stamp status rate u : Nat) (s : State) :
    Host.Outcome State Fault Refusal :=
  .next ((s.advance t).cohReceive h false fun s => s.tempoCame h.src stamp status rate u)

/-- A follower that misses TEMPO for two cycles flywheels (R423). -/
def State.tempoMissed (s : State) : State :=
  if s.follows && !s.coh.flywheels && decide (s.coh.tempoAt + 2 * 65536 ≤ s.clk.edges) then
    let s := s.setCoh fun c => { c with flywheels := true }
    if s.tempoValid then s.tempoGo 3 else s
  else s

def execFollowerTempoLoss (t : Elapsed) (s : State) : Host.Outcome State Fault Refusal :=
  .next ((s.advance t).tempoMissed)

/-! ### Notices (R115) -/

/-- A notice from member `m`: decided as a send of sender 0x8 + m, and answered. -/
def State.noticeCame (s : State) (m dst tag ptr agent : Nat) (prot : Bool) : State :=
  let (s, ok) := if s.badDest (8 + m) dst then (s.bump R.MBX_COUNTS_BADDEST, false)
    else s.deliverNotice dst (8 + m) (16 * (m + 1) + agent) tag ptr prot
  s.issue m 0x07 [b2n !ok]

def execCohNotice (t : Elapsed) (h : CohHead) (dst tag ptr agent : Nat) (prot : Bool) (s : State) :
    Host.Outcome State Fault Refusal :=
  .next ((s.advance t).cohReceive h false fun s => s.noticeCame h.src dst tag ptr agent prot)

/-! ### Frames (R205, R427) -/

/-- The frame of a link packet. -/
def State.frameOf (s : State) (f : CohFrame) (soft : List Int) : RxFrame :=
  { id := s.rx.nextId, lane := imgNum f.report 10 1, report := f.report, tx := none, chan := f.chan, bw := f.bw,
    order := f.order, mark := f.mark, hdr := f.hdr, gen := f.gen, sync := f.sync, syncAligned := f.syncAligned,
    syncLocal := f.sync, sofStep := f.sofStep, endEdge := s.clk.edges - f.since.edges, endNs := s.clk.ns - f.since.ns,
    soft := soft, member := none }

/-- A follower's soft values reach the lead (R205). -/
def execCohSoft (t : Elapsed) (h : CohHead) (f : CohFrame) (soft : List Int) (s : State) :
    Host.Outcome State Fault Refusal :=
  .next ((s.advance t).cohReceive h false fun s =>
    if s.leads then
      let g := s.frameOf f soft
      (s.setRx fun x => { x with nextId := x.nextId + 1 }).addCopy h.src g
    else s)

/-- A decoded frame reaches the owner of its sender's context, which runs R247 or takes the acknowledgement. -/
def State.decodedCame (s : State) (f : CohFrame) (soft : Bool) (sets : Nat) (pay : List Byte) : State :=
  let g := s.frameOf f []
  if hdrKind f.hdr = 1 then
    (s.setRx fun x => { x with frames := x.frames.filter fun y => !(y.tx.isSome && y.hdr == f.hdr && y.chan == f.chan) }
      ).cohortAck g pay
  else s.linkFrame { g with combined := bitOf sets 4 } pay (if soft then some 0 else none) (sets % 16)

def execCohDecoded (t : Elapsed) (h : CohHead) (f : CohFrame) (soft : Bool) (sets : Nat) (pay : List Byte) (s : State) :
    Host.Outcome State Fault Refusal :=
  .next ((s.advance t).cohReceive h false fun s => if s.cohortSilent then s else s.decodedCame f soft sets pay)

/-- An owner's acceptance: RXCTR, RXMIC and the D fields of the context (R427). -/
def State.rxSyncCame (s : State) (k : Nat) (rx d : List Byte) : State :=
  if !s.ctxValid k || s.ctxNum k 68 1 % 16 == s.cohIndex then s
  else
    let img := s.ctxImage k
    let img := img.take 20 ++ rx.take 20 ++ img.drop 40
    (s.setCtxImage k (img.take 44 ++ d.take 18 ++ img.drop 62)).setCtxFlag s.gen.active k 3 false

def execCohRxsync (t : Elapsed) (h : CohHead) (ctx : Nat) (rx d : List Byte) (s : State) :
    Host.Outcome State Fault Refusal :=
  .next ((s.advance t).cohReceive h false fun s => s.rxSyncCame ctx rx d)

/-- The lead directs an acknowledgement (R427). -/
def State.ackRequest (s : State) (f : CohFrame) (pay : List Byte) (keep : Bool) : State :=
  let h := parseFrame pay
  let power := match s.partnerBy f.gen h.src with
    | some k => s.ctxGet f.gen k 14 1 % 64
    | none => s.rd R.LNK_CFG_ACKPWR
  s.sendAck (s.frameOf f []) h f.gen power keep false

def execCohAckreq (t : Elapsed) (h : CohHead) (f : CohFrame) (pay : List Byte) (keep : Bool) (s : State) :
    Host.Outcome State Fault Refusal :=
  .next ((s.advance t).cohReceive h false fun s => s.ackRequest f pay keep)

/-! ### Counter blocks (R426) -/

/-- The lead grants the block at the high-water mark and broadcasts the grant; R246 applies to the mark. -/
def State.grantBlock (s : State) (k : Nat) : State :=
  let b := sget (fun _ => 0) s.coh.high k
  if !s.leads then s
  else if 2 ^ 20 ≤ b then
    if s.ctxFlag s.gen.active k 4 then s else (s.setCtxFlag s.gen.active k 4 true).ttbRecord 0x21 k 0xFFFFFFFF
  else
    let s := if b = 0xFFFF0 && !s.ctxFlag s.gen.active k 5 then
        (s.setCtxFlag s.gen.active k 5 true).ttbRecord 0x20 k 0xFFFF0000
      else s
    (s.setCoh fun c => { c with high := sput (fun _ => 0) c.high k (b + 1) }).issue 0xF 0x0B [k, b]

def execCohBlkreq (t : Elapsed) (h : CohHead) (ctx : Nat) (s : State) : Host.Outcome State Fault Refusal :=
  .next ((s.advance t).cohReceive h false fun s => s.grantBlock ctx)

/-- A grant: every member learns the mark; the owner takes the block, and held sealings go on. -/
def State.grantCame (s : State) (k b : Nat) : State :=
  let s := s.setCoh fun c => { c with high := sput (fun _ => 0) c.high k (b + 1) }
  if !s.ctxValid k || s.ctxNum k 68 1 % 16 != s.cohIndex then s
  else
    let s := s.setCoh fun c => { c with requested := c.requested.filter (· != k) }
    let s := s.setCtxNum k 68 4 (s.ctxNum k 68 4 % 16 + 16 + 4096 * b)
    let s := if s.ctxNum k 16 4 / 4096 = b then s else s.setCtxNum k 16 4 (4096 * b)
    s.resumeSends k

def execCohBlkgnt (t : Elapsed) (h : CohHead) (ctx block : Nat) (s : State) : Host.Outcome State Fault Refusal :=
  .next ((s.advance t).cohReceive h false fun s => s.grantCame ctx block)

/-! ### Configuration (R429) -/

/-- A follower takes the lead's banks and its commit. -/
def State.pushCame (s : State) (m : Nat) (p : CohPush) : State :=
  if s.leads || s.rd R.COH_STATUS_LEAD != m || (s.gen.commit.isSome && !s.coh.resync) then s
  else
    let b : Bank := { chan := Store.setBytes [] 0 p.chan, watch := Store.setBytes [] 0 p.watch,
                      rules := Store.setBytes [] 0 p.rules, ttb := Store.setBytes [] 0 p.ttb,
                      power := Store.setBytes [] 0 p.power, sched := Store.setBytes [] 0 p.sched }
    let ina := takeTables p.tables s.tab.ina b
    let changed := if bitOf p.tables tabChan then
        (List.range 256).filter fun i => chanChanged (chanAt s.tab.act.chan (16 * i)) (chanAt ina.chan (16 * i))
      else s.tab.changed
    let c : Commit := { idx := 0, boundary := p.boundary, tables := p.tables, releases := p.releases,
                        interval := if p.interval = 0 then 256 else p.interval, newGen := p.newGen,
                        rewrites := p.rewrites.foldl (fun l r => insertRewrite r l) [], fromLead := true }
    { s with tab := { s.tab with ina := ina, changed := changed, calNext := [] },
             gen := { s.gen with pending := p.newGen, commit := some c } }

def execCohCfgpush (t : Elapsed) (h : CohHead) (c : CohPush) (s : State) : Host.Outcome State Fault Refusal :=
  .next ((s.advance t).cohReceive h false fun s => s.pushCame h.src c)

end Sys2Proof.Machine
end

