-- ==== Sys2Proof/Machine/Inspector.lean ====
section
/-!
DEFINITION. The inspector's counters (R453, R454) and the writing of the repair ledger (R455-R457).
-/

namespace Sys2Proof.Machine

def State.setTrace (s : State) (f : TraceState → TraceState) : State := { s with trace := f s.trace }

/-! ### Counters -/

/-- Inspector counter `n`. -/
def State.insCounter (s : State) (n : Nat) : Nat := sget (fun _ => 0) s.trace.counters n

/-- INS_CMASK picks counter `n`. -/
def State.streams (s : State) (n : Nat) : Bool := bitOf (s.rd (R.INS_CMASK_MASK (n / 32))) (n % 32)

/-- Picked counters cut into runs of neighbours, 42 at most: first index and length. -/
def counterRuns : List Nat → List (Nat × Nat) → List (Nat × Nat)
  | [], l => l.reverse
  | n :: ns, (a, k) :: l => if a + k = n ∧ k < 42 then counterRuns ns ((a, k + 1) :: l) else counterRuns ns ((n, 1) :: (a, k) :: l)
  | n :: ns, [] => counterRuns ns [(n, 1)]

/-- Every PERIOD cycles each picked counter goes out on source 6 (R454, Table INS-2). -/
def State.counterStream (s : State) : State :=
  let p := s.rd R.INS_CSTREAM_PERIOD
  let now := stampCycle s.localStamp
  if !s.domOn Dom.ins || p = 0 || (now + 2 ^ 40 - s.trace.streamed) % 2 ^ 40 < p then s
  else
    let s := s.setTrace fun t => { t with streamed := now }
    (counterRuns ((List.range 256).filter s.streams) []).foldl (fun s r =>
      s.tracePacket 6 0x01 (BitVec.ofNat 8 r.1 :: BitVec.ofNat 8 r.2 ::
        (List.range r.2).flatMap fun i => leBytes 6 (s.insCounter (r.1 + i)))) s

def execCounterStream (t : Elapsed) (s : State) : Host.Outcome State Fault Refusal := .next ((s.advance t).counterStream)

/-- A write of INS_CCLR clears all counters at once (R453). -/
def State.counterClear (s : State) (v : Nat) : State :=
  if bitOf v 0 then s.setTrace fun t => { t with counters := [] } else s

def execCounterClear (t : Elapsed) (who : Who) (value : Nat) (s : State) : Host.Outcome State Fault Refusal :=
  .next ((s.advance t).pageWrite who Hdr.ins fun s => s.counterClear value)

/-- A read of the low word latches the high word (R454). Answers the low word; a page whose domain is not on reads
zero (R23). -/
def State.counterLatch (s : State) (n : Nat) : State × Nat :=
  if s.domOn Dom.ins then
    (s.setTrace fun t => { t with latched := sput (fun _ => 0) t.latched n (s.insCounter n / 2 ^ 32) }, s.insCounter n % 2 ^ 32)
  else (s, 0)

/-- The latched high word. -/
def State.counterHigh (s : State) (n : Nat) : Nat := if s.domOn Dom.ins then sget (fun _ => 0) s.trace.latched n else 0

def execCounterLatch (t : Elapsed) (n : Nat) (s : State) : Host.Outcome State Fault Refusal :=
  .next (State.reply ((s.advance t).counterLatch n))

/-! ### The repair ledger -/

/-- Address of record slot `i` of ledger block `b`, 2,048 to a block (Table NVM-1). -/
def ledgerAddr (b i : Nat) : Nat := 0x21A10000 + 65536 * (b % 4) + 32 * i

def State.setLedger (s : State) (f : LedgerState → LedgerState) : State := { s with ledger := f s.ledger }

/-- A record goes into the first erased slot of the active block. -/
def State.ledgerPut (s : State) (r : LedgerRec) : State :=
  let l := s.ledger
  let s := s.norProgram (ledgerAddr l.block l.slot) (ledgerBytes l.seq r)
  (s.setLedger fun l => { l with seq := (l.seq + 1) % 2 ^ 32, slot := l.slot + 1 }).wr R.INS_LEDGER_LAST (l.seq % 65536)

/-- Writing goes on in the next block: first a CARRY record for each thing in force that is written (R457); `l` are
the records not yet written. -/
def State.ledgerMove (s : State) (l : List LedgerRec) : State :=
  let s := s.setLedger fun l => { l with block := (l.block + 1) % 4, slot := 0 }
  (s.ledger.inForce.filter fun r => !l.contains r).foldl (fun s r => s.ledgerPut { r with flags := r.flags ||| 2 }) s

/-- The oldest block, the one after the block just begun, is erased. -/
def State.ledgerErase (s : State) : State := s.norErase (ledgerAddr (s.ledger.block + 1) 0) 65536

/-- Link firmware writes the oldest queued record. It moves to the next block when the active one is full, or when it
fails to verify (`ok` clear, R455). -/
def State.ledgerWrite (s : State) (ok : Bool) : State :=
  match s.ledger.queue with
  | [] => s
  | r :: rest =>
    if !s.domOn Dom.nvm || (s.unit Hdr.nvm).lapsed then s
    else
      let s := s.setLedger fun l => { l with queue := rest }
      if ok ∧ s.ledger.slot < 2048 then s.ledgerPut r else ((s.ledgerMove (r :: rest)).ledgerPut r).ledgerErase

def execLedgerWrite (t : Elapsed) (ok : Bool) (s : State) : Host.Outcome State Fault Refusal :=
  .next ((s.advance t).ledgerWrite ok)

end Sys2Proof.Machine
end

