-- ==== Sys2Proof/Machine/Lighting.lean ====
section
/-!
DEFINITION. DALI-2, the 1-10 V output, the general pads and the serial ports, R323-R338 of the chapter
"DALI-2, 1-10 V and general I/O".
-/

namespace Sys2Proof.Machine

/-! ### DALI -/

def State.setDali (s : State) (d : DaliState) : State := { s with per := { s.per with dali := d } }

/-- Priority 2-5; other values act as 4 (DAL_CFG.PRIO). -/
def daliPrio (p : Nat) : Nat := if 2 ≤ p ∧ p ≤ 5 then p else 4

/-- A frame the engine cannot send: `MALFORMED` without using the bus (R327). -/
def DaliEntry.bad (e : DaliEntry) : Bool :=
  !(e.len == 16 || e.len == 24 || e.len == 32) || (e.twice && e.expect)

/-- Puts a result into the result queue and emits the result event (R327, Table GPI-2). -/
def State.daliResult (s : State) (e : DaliEntry) (status : Nat) (back : Option Byte) : State :=
  let b := match back with
    | some x => x.toNat * 256 + 128
    | none => 0
  let s := s.setDali { s.per.dali with
    results := s.per.dali.results ++ [e.tag * 65536 + b + 64 + status]
    queue := s.per.dali.queue.drop 1 }
  s.emit 0x80 e.depth

/-- Draws the random settling part, 0 to 12 units of 0.1 ms (R324); its generator is not given. -/
def State.daliDraw (s : State) : State :=
  let (v, s) := s.free
  s.setDali { s.per.dali with delta := some (v % 13) }

/-- An entry that reaches the head is checked: malformed, or a fault on the bus at that time (R327, R329). -/
def State.daliHead : Nat → State → State
  | 0, s => s
  | fuel + 1, s =>
    match s.per.dali.queue with
    | [] => s
    | e :: rest =>
      if e.atHead || decide (8 ≤ s.per.dali.results.length) then s
      else if e.gone then State.daliHead fuel (s.daliResult e St.notRun none)
      else if e.bad then State.daliHead fuel (s.daliResult e St.malformed none)
      else if s.flag R.DAL_STATUS_FAULT then State.daliHead fuel (s.daliResult e St.busFault none)
      else (s.setDali { s.per.dali with queue := { e with atHead := true } :: rest }).daliDraw

def State.daliNext (s : State) : State := s.daliHead 5

/-- Replaces the head entry. -/
def State.daliSetHead (s : State) (f : DaliEntry → DaliEntry) : State :=
  match s.per.dali.queue with
  | [] => s
  | e :: rest => s.setDali { s.per.dali with queue := f e :: rest }

/-- A write of DAL_TXC queues a frame, or is refused when the queue holds four (R325). -/
def State.daliEnqueue (s : State) (v : Nat) : State :=
  if 4 ≤ s.per.dali.queue.length then s.put R.DAL_STATUS_QFULL true
  else if !s.enabled Hdr.dal then s
  else
    let p := bitsOf v 11 3
    let e : DaliEntry :=
      { data := s.rd R.DAL_TXD_DATA, len := bitsOf v 0 6, tag := bitsOf v 16 16
        prio := if p = 0 then daliPrio (s.rd R.DAL_CFG_PRIO) else daliPrio p
        trig := bitOf v 10, expect := bitOf v 9, twice := bitOf v 8 }
    (s.setDali { s.per.dali with queue := s.per.dali.queue ++ [e] }).daliNext

def execDaliEnqueue (t : Elapsed) (who : Who) (value : Nat) (s : State) : Host.Outcome State Fault Refusal :=
  .next ((s.advance t).pageWrite who Hdr.dal fun s => s.daliEnqueue value)

/-- Settling time before the head's frame, ns (Table DAL-1): priority 1 before the second frame of a pair. -/
def State.settling (s : State) (e : DaliEntry) : Nat :=
  13500000 + (if e.second then 0 else 1600000 * (e.prio - 1)) + 100000 * s.per.dali.delta.getD 0

/-- A frame or its settling is in progress (DAL_STATUS.BUSY). -/
def State.daliBusy (s : State) : Bool :=
  s.per.dali.sending.isSome || match s.per.dali.queue with
    | e :: _ => e.atHead && !e.trig && s.per.dali.answering.isNone
    | [] => false

/-- May the head entry start now (R324, R325, R327, R329)? -/
def State.daliMayStart (s : State) (e : DaliEntry) : Bool :=
  e.atHead && !e.trig && s.per.dali.sending.isNone && s.per.dali.answering.isNone &&
  decide (s.per.dali.results.length < 8) && !s.flag R.DAL_STATUS_FAULT &&
  (e.second || s.accepts Hdr.dal) && s.domOn Dom.per && decide (s.per.dali.idleSince + s.settling e ≤ s.clk.ns)

/-- The head frame's start bit is sent (R325). -/
def State.daliFrameStart (s : State) : State :=
  match s.per.dali.queue with
  | e :: _ =>
    if s.daliMayStart e then
      (s.setDali { s.per.dali with sending := some s.clk.ns }).progress Hdr.dal
    else s
  | [] => s

def execDaliFrameStart (t : Elapsed) (s : State) : Host.Outcome State Fault Refusal :=
  .next (s.advance t).daliFrameStart

/-- The bus differs from the driven level: the engine stops driving and retries, up to RETRY times (R326). -/
def State.daliCollision (s : State) : State :=
  match s.per.dali.sending, s.per.dali.queue with
  | some _, e :: _ =>
    let s := (s.bump R.DAL_COUNTS_COLL).progress Hdr.dal
    let s := s.setDali { s.per.dali with sending := none, idleSince := s.clk.ns }
    if e.tries < s.rd R.DAL_CFG_RETRY then (s.daliSetHead fun e => { e with tries := e.tries + 1 }).daliDraw
    else (s.daliResult e St.busLost none).daliNext
  | _, _ => s

def execDaliCollision (t : Elapsed) (s : State) : Host.Outcome State Fault Refusal :=
  .next (s.advance t).daliCollision

/-- Shortest course of a frame of `len` bits, ns: half-bits of 416.7 us less 1 % (Table DAL-1). -/
def daliFrameNs (len : Nat) : Nat := (2 * len + 2) * 412500

/-- A forward frame ends: the pair goes on, an answer window opens, or its result is written (R327). -/
def State.daliFrameEnd (s : State) : State :=
  match s.per.dali.sending, s.per.dali.queue with
  | some t0, e :: _ =>
    if s.clk.ns < t0 + daliFrameNs e.len then s
    else
      let s := (s.bump R.DAL_COUNTS_SENT).progress Hdr.dal
      let s := s.setDali { s.per.dali with sending := none, idleSince := s.clk.ns }
      if e.twice && !e.second then (s.daliSetHead fun e => { e with second := true }).daliDraw
      else if e.expect then s.setDali { s.per.dali with answering := some s.clk.ns }
      else (s.daliResult e St.done none).daliNext
  | _, _ => s

def execDaliFrameEnd (t : Elapsed) (s : State) : Host.Outcome State Fault Refusal :=
  .next (s.advance t).daliFrameEnd

/-- The answer window ends with a backward frame, none or a corrupt one (R327). A backward frame starts 2.4 to
12.4 ms after the forward frame. -/
def State.daliAnswerEnd (s : State) (answer : DaliAnswer) : State :=
  match s.per.dali.answering, s.per.dali.queue with
  | some t0, e :: _ =>
    let least := match answer with
      | .none => 12400000
      | _ => 2400000
    if s.clk.ns < t0 + least then s
    else
      let s := s.progress Hdr.dal
      let s := s.setDali { s.per.dali with answering := none }
      let s := match answer with
        | .none => s.daliResult e St.noAnswer none
        | .byte b => (s.setDali { s.per.dali with idleSince := s.clk.ns }).daliResult e St.done (some b)
        | .corrupt => ((s.setDali { s.per.dali with idleSince := s.clk.ns }).bump R.DAL_COUNTS_ANSERR).daliResult e
            St.answerCorrupt none
      s.daliNext
  | _, _ => s

def execDaliAnswerEnd (t : Elapsed) (answer : DaliAnswer) (s : State) : Host.Outcome State Fault Refusal :=
  .next ((s.advance t).daliAnswerEnd answer)

/-- A forward frame of another sender enters the receive queue of four; a backward frame outside an answer
window is ignored (R328). -/
def State.daliReceived (s : State) (len data : Nat) : State :=
  if !s.domOn Dom.per then s
  else
    let s := (s.setDali { s.per.dali with idleSince := s.clk.ns }).progress Hdr.dal
    if len = 8 then s
    else
      let s := if 4 ≤ s.per.dali.rx.length then s.put R.DAL_RXS_LOST true
        else s.setDali { s.per.dali with rx := s.per.dali.rx ++ [(len, data)] }
      s.emit 0x81

def execDaliFrameReceived (t : Elapsed) (len data : Nat) (s : State) : Host.Outcome State Fault Refusal :=
  .next ((s.advance t).daliReceived len data)

/-- The bus stays low, not driven by the device, for 500 ms (R329). -/
def State.daliFault (s : State) : State :=
  if !s.domOn Dom.per || s.flag R.DAL_STATUS_FAULT then s
  else (s.put R.DAL_STATUS_FAULT true).emit 0x82

def execDaliBusFault (t : Elapsed) (s : State) : Host.Outcome State Fault Refusal := .next (s.advance t).daliFault

/-- The bus has been high for 10 ms (R329). -/
def State.daliFaultClear (s : State) : State :=
  if s.flag R.DAL_STATUS_FAULT then
    ((s.put R.DAL_STATUS_FAULT false).setDali { s.per.dali with idleSince := s.clk.ns - 10000000 }).daliNext
  else s

def execDaliFaultClear (t : Elapsed) (s : State) : Host.Outcome State Fault Refusal :=
  .next (s.advance t).daliFaultClear

/-- Reading DAL_RES returns the oldest result and removes it (R327). -/
def State.daliResultRead (s : State) : State × Nat :=
  match s.per.dali.results with
  | [] => (s, 0)
  | r :: rest => ((s.setDali { s.per.dali with results := rest }).daliNext, r)

def execDaliResultRead (t : Elapsed) (s : State) : Host.Outcome State Fault Refusal :=
  let r := (s.advance t).daliResultRead
  .next { r.1 with bus := { value := r.2, error := false } }

/-- Reading DAL_RXF returns the oldest received frame and removes it (R328). -/
def State.daliReceiveRead (s : State) : State × Nat :=
  match s.per.dali.rx with
  | [] => (s, 0)
  | (_, d) :: rest => (s.setDali { s.per.dali with rx := rest }, d)

def execDaliReceiveRead (t : Elapsed) (s : State) : Host.Outcome State Fault Refusal :=
  let r := (s.advance t).daliReceiveRead
  .next { r.1 with bus := { value := r.2, error := false } }

/-- COUNT and LEN of DAL_RXS: a full queue of four reads COUNT 0 with bit 5 of LEN set. -/
def State.daliRxs (s : State) : Nat :=
  match s.per.dali.rx with
  | [] => 0
  | (len, _) :: rest => if 3 ≤ rest.length then 0x20 else 64 * (rest.length + 1) + len

/-- The bus supply follows DAL_CFG.PSU and VMAIN: on from 18 V, off below 17 V (R330). -/
def State.daliSupply (s : State) : State :=
  let on := s.flag R.DAL_CFG_PSU && (decide (18000 ≤ s.pins.vmain) ||
    (s.flag R.DAL_STATUS_PSUON && decide (17000 ≤ s.pins.vmain)))
  if on == s.flag R.DAL_STATUS_PSUON then s else (s.put R.DAL_STATUS_PSUON on).emit 0x83

/-- VMAIN crosses 17 V or 18 V. -/
def State.daliSupplySwitch (s : State) (mv : Nat) : State :=
  let s := { s with pins := { s.pins with vmain := mv } }
  if (s.dom Dom.per).state = 0 then s else s.daliSupply

def execDaliSupplySwitch (t : Elapsed) (millivolts : Nat) (s : State) : Host.Outcome State Fault Refusal :=
  .next ((s.advance t).daliSupplySwitch millivolts)

/-- The SEND task releases a head entry with TRIG; `depth` is the depth of its result event. -/
def State.daliSend (s : State) (depth : Nat) : State :=
  s.daliSetHead fun e => if e.trig then { e with trig := false, depth := depth } else e

/-- Entries not started return `NOT_RUN` when DAL is disabled (R325, R40); those for which the result queue has no room
wait for it, so that no result is lost. -/
def State.daliStop (s : State) : State :=
  let d := s.per.dali
  let started := d.sending.isSome || d.answering.isSome || (d.queue.head?.map (·.second)).getD false
  let keep := if started then d.queue.take 1 else []
  let gone := if started then d.queue.drop 1 else d.queue
  gone.foldl (fun s e =>
    if s.per.dali.results.length < 8 then
      (s.setDali { s.per.dali with results := s.per.dali.results ++ [e.tag * 65536 + 64 + St.notRun] }).emit 0x80
    else s.setDali { s.per.dali with queue := s.per.dali.queue ++ [{ e with gone := true, atHead := false }] })
    (s.setDali { d with queue := keep })

/-! ### The 1-10 V output -/

def State.setDim (s : State) (d : DimState) : State := { s with per := { s.per with dim := d } }

/-- The level `k` ms into a ramp of `ms` ms from `a` to `b`, linear (R332). -/
def rampLevel (a b k ms : Nat) : Nat :=
  if ms ≤ k then b
  else
    let d := (if a ≤ b then b - a else a - b) * k
    let q := d / ms + (if d % ms = 0 then 0 else b2n (Config.roundUp d ms))
    if a ≤ b then a + q else a - q

/-- The present level, updated every 1 ms while a ramp runs. -/
def State.dimLevel (s : State) : Nat :=
  match s.per.dim.ramp with
  | none => s.per.dim.level
  | some r => rampLevel r.start r.target ((s.clk.ns - r.at_) / 1000000) r.ms

/-- A ramp to the target of DIM_LEVEL begins at the present level. -/
def State.dimStart (s : State) (depth : Nat) : State :=
  let now := s.dimLevel
  s.setDim { level := now, armed := false
             ramp := some { start := now, target := s.rd R.DIM_LEVEL_TARGET, at_ := s.clk.ns
                            ms := s.rd R.DIM_LEVEL_RAMP, depth := depth } }

/-- A write of DIM_LEVEL (R332). -/
def State.dimWrite (s : State) (v : Nat) : State :=
  let s := (s.wr R.DIM_LEVEL_RAMP (bitsOf v 16 16)).wr R.DIM_LEVEL_TARGET (bitsOf v 0 12)
  if s.flag R.DIM_CTL_TRIG then s.setDim { s.per.dim with armed := true } else s.dimStart 0

def execDimLevelWrite (t : Elapsed) (who : Who) (value : Nat) (s : State) : Host.Outcome State Fault Refusal :=
  .next ((s.advance t).pageWrite who Hdr.dim fun s => s.dimWrite value)

/-- The APPLY task starts a ramp that waits for it. -/
def State.dimApply (s : State) (depth : Nat) : State := if s.per.dim.armed then s.dimStart depth else s

/-- The HOLD task freezes a running ramp and discards its target. -/
def State.dimHold (s : State) : State :=
  if s.per.dim.ramp.isSome then s.setDim { s.per.dim with level := s.dimLevel, ramp := none } else s

/-- A ramp reaches its target (R332). -/
def State.dimRampEnd (s : State) : State :=
  match s.per.dim.ramp with
  | some r =>
    if s.domOn Dom.per && decide (r.at_ + 1000000 * r.ms ≤ s.clk.ns) then
      (s.setDim { s.per.dim with level := r.target, ramp := none }).emit 0x84 r.depth
    else s
  | none => s

def execDimRampEnd (t : Elapsed) (s : State) : Host.Outcome State Fault Refusal := .next (s.advance t).dimRampEnd

/-! ### General pads -/

/-- The levels of GPIO0-15. -/
def State.padWord (s : State) : Nat :=
  (List.range 16).foldl (fun v n => if s.pad n then v + 2 ^ n else v) 0

/-- Emits the edge events of the pads whose level changed, in ascending pad number (Table EVR-1). -/
def State.padEdges (before : Nat) (depth : Nat) (s : State) : State :=
  (List.range 16).foldl (fun s n =>
    if bitOf before n == s.pad n then s
    else s.emit ((if s.pad n then 0x40 else 0x50) + n) depth) s

/-- Performs a change of pads and emits the edges it makes. -/
def State.withPads (s : State) (depth : Nat) (f : State → State) : State := State.padEdges s.padWord depth (f s)

def State.gpioSet (s : State) (m : Nat) : State :=
  s.withPads 0 fun s => s.wr R.GPI_OUT_OUT (s.rd R.GPI_OUT_OUT ||| m)

def State.gpioClear (s : State) (m : Nat) : State :=
  s.withPads 0 fun s => s.wr R.GPI_OUT_OUT (s.rd R.GPI_OUT_OUT &&& (0xFFFF - m % 65536))

def State.gpioToggle (s : State) (m : Nat) : State :=
  s.withPads 0 fun s => s.wr R.GPI_OUT_OUT (s.rd R.GPI_OUT_OUT ^^^ m)

def execGpioSet (t : Elapsed) (who : Who) (pins : Nat) (s : State) : Host.Outcome State Fault Refusal :=
  .next ((s.advance t).pageWrite who Hdr.gpi fun s => s.gpioSet pins)

def execGpioClear (t : Elapsed) (who : Who) (pins : Nat) (s : State) : Host.Outcome State Fault Refusal :=
  .next ((s.advance t).pageWrite who Hdr.gpi fun s => s.gpioClear pins)

def execGpioToggle (t : Elapsed) (who : Who) (pins : Nat) (s : State) : Host.Outcome State Fault Refusal :=
  .next ((s.advance t).pageWrite who Hdr.gpi fun s => s.gpioToggle pins)

/-- GPIO tasks of one cycle on one pin: CLEAR, then SET, then TOGGLE (R336); no effect on a pin that is not an
output. `depth` is the largest depth of the tasks. -/
def State.gpioTasks (s : State) (n : Nat) (clr set tgl : Bool) (depth : Nat) : State :=
  if s.rd (R.GPI_CFG_FUNC n) ≠ 1 then s
  else
    s.withPads (depth + 1) fun s =>
      let o := s.rd R.GPI_OUT_OUT
      let b := bitOf o n && !clr
      let b := b || set
      s.wr R.GPI_OUT_OUT (setBitsOf o n 1 (b2n (b != tgl)))

/-- The level outside a pad changes (R336). -/
def State.gpioExternal (s : State) (n : Nat) (high : Bool) : State :=
  let f := fun (s : State) => { s with per := { s.per with gpioExt := setBitsOf s.per.gpioExt n 1 (b2n high) } }
  if s.domOn Dom.per then s.withPads 0 f else f s

/-- An edge on a GPIO pad: an event (R336), and a wake of a device asleep whose pads keep their input function
(R363). -/
def State.gpioEdge (s : State) (n : Nat) (rising : Bool) : State :=
  let before := s.pad n
  let s := s.gpioExternal n rising
  if before != s.pad n && (s.dom Dom.per).state != 0 &&
      bitOf (s.rd (if rising then R.BKP_GPWAKE_RISE else R.BKP_GPWAKE_FALL)) n then s.wakeSeen 3 n
  else s

def execGpioEdge (t : Elapsed) (pin : Nat) (rising : Bool) (s : State) : Host.Outcome State Fault Refusal :=
  .next ((s.advance t).gpioEdge pin rising)

/-! ### Serial ports -/

/-- Time of one UART byte, ns: start, eight data, parity and stop bits at 768,000,000/DIV baud. -/
def State.uartByteNs (s : State) (p : Nat) : Nat :=
  (10 + s.rd (R.UART_CFG_PAR p) + s.rd (R.UART_CFG_STOP2 p)) * s.rd (R.UART_BAUD_DIV p) * 1000 / 768

/-- Bytes that the UART has sent since it was last looked at leave its FIFO. -/
def State.uartDrain (s : State) (p : Nat) : State :=
  let r := s.port p
  if r.tx.isEmpty || !s.flag (R.UART_CFG_EN p) || !s.domOn Dom.per then s
  else
    let b := s.uartByteNs p
    let n := min ((s.clk.ns - r.startedAt) / b) r.tx.length
    let s := if n = 0 then s else s.progress Hdr.uar
    s.setPort p fun r => { r with tx := r.tx.drop n, startedAt := r.startedAt + n * b }

/-- A write of UART_DATA queues a byte; a full FIFO of 16 takes none. -/
def State.uartWrite (s : State) (p : Nat) (b : Byte) : State :=
  let s := s.uartDrain p
  s.setPort p fun r =>
    if 16 ≤ r.tx.length then r
    else { r with tx := r.tx ++ [b.toNat], startedAt := if r.tx.isEmpty then s.clk.ns else r.startedAt }

def execUartDataWrite (t : Elapsed) (who : Who) (port : Nat) (data : Byte) (s : State) :
    Host.Outcome State Fault Refusal :=
  .next ((s.advance t).pageWrite who Hdr.uar fun s => s.uartWrite port data)

/-- A read of a FIFO removes its oldest entry; VALID tells that one was there. -/
def State.fifoRead (s : State) (p : Nat) : State × Nat :=
  match (s.port p).rx with
  | [] => (s, 0)
  | v :: rest => (s.setPort p fun r => { r with rx := rest }, v + 256)

def execUartDataRead (t : Elapsed) (port : Nat) (s : State) : Host.Outcome State Fault Refusal :=
  let r := (s.advance t).fifoRead port
  .next { r.1 with bus := { value := r.2, error := false } }

/-- A byte arrives on a UART (Table SER-1); the event fires when the FIFO reaches RXTHR. -/
def State.uartReceive (s : State) (p : Nat) (b : Byte) (perr ferr : Bool) : State :=
  if !s.domOn Dom.per || !s.flag (R.UART_CFG_EN p) || !s.enabled Hdr.uar then s
  else
    let s := s.progress Hdr.uar
    if 16 ≤ (s.port p).rx.length then s.put (R.UART_STAT_OVR p) true
    else
      let s := s.setPort p fun r => { r with rx := r.rx ++ [b.toNat + 512 * b2n perr + 1024 * b2n ferr] }
      if (s.port p).rx.length = max 1 (s.rd (R.UART_CFG_RXTHR p)) then s.emit (0x85 + p) else s

def execUartByteReceived (t : Elapsed) (port : Nat) (data : Byte) (perr ferr : Bool) (s : State) :
    Host.Outcome State Fault Refusal := .next ((s.advance t).uartReceive port data perr ferr)

/-- A write of SPI_DATA or IIC_DATA queues a byte for the next transfer. -/
def State.fifoWrite (s : State) (p v : Nat) : State :=
  s.setPort p fun r => if 16 ≤ r.tx.length then r else { r with tx := r.tx ++ [v % 256] }

/-- A write of SPI_GO starts a master transfer of LEN bytes. -/
def State.spiGo (s : State) (p len : Nat) : State :=
  if !s.flag (R.SPI_CFG_EN p) || s.flag (R.SPI_CFG_SLAVE p) || s.flag (R.SPI_STAT_BUSY p) || !s.accepts Hdr.spi then s
  else (s.put (R.SPI_STAT_BUSY p) true).setPort (2 + p) fun r => { r with len := len, startedAt := s.clk.ns }

def execSpiGo (t : Elapsed) (who : Who) (port len : Nat) (s : State) : Host.Outcome State Fault Refusal :=
  .next ((s.advance t).pageWrite who Hdr.spi fun s => s.spiGo port len)

/-- The bytes of a transfer leave and enter the FIFOs of 16 bytes. -/
def State.spiMove (s : State) (p : Nat) (sent : Nat) (rx : List Nat) : State :=
  let room := 16 - (s.port (2 + p)).rx.length
  let s := if room < rx.length then s.put (R.SPI_STAT_OVR p) true else s
  s.setPort (2 + p) fun r => { r with tx := r.tx.drop sent, rx := r.rx ++ rx.take room }

/-- An SPI transfer ends: as master after LEN bytes at 24 MHz/(DIV + 1), as slave when the master ends it. -/
def State.spiEnd (s : State) (p : Nat) (rx : List Byte) : State :=
  if !s.domOn Dom.per || !s.flag (R.SPI_CFG_EN p) then s
  else
    let r := s.port (2 + p)
    if s.flag (R.SPI_CFG_SLAVE p) then
      let s := if r.tx.length < rx.length then s.put (R.SPI_STAT_UNDER p) true else s
      ((s.spiMove p rx.length (rx.map (·.toNat))).progress Hdr.spi).emit (0x87 + p)
    else if s.flag (R.SPI_STAT_BUSY p) &&
        decide (r.startedAt + r.len * 8 * (s.rd (R.SPI_CFG_DIV p) + 1) * 1000 / 24 ≤ s.clk.ns) then
      let s := s.put (R.SPI_STAT_BUSY p) false
      ((s.spiMove p r.len ((rx.take r.len).map (·.toNat))).progress Hdr.spi).emit (0x87 + p)
    else s

def execSpiTransferEnd (t : Elapsed) (port : Nat) (rx : List Byte) (s : State) : Host.Outcome State Fault Refusal :=
  .next ((s.advance t).spiEnd port rx)

/-- A write of IIC_GO: LEN in [15:8], READ in [7], the target address in [6:0]. -/
def State.iicGo (s : State) (p v : Nat) : State :=
  if !s.flag (R.IIC_CFG_EN p) || s.flag (R.IIC_CFG_TARGET p) || s.flag (R.IIC_STAT_BUSY p) || !s.accepts Hdr.iic then s
  else (s.put (R.IIC_STAT_BUSY p) true).setPort (4 + p) fun r =>
    { r with len := bitsOf v 8 8, read := bitOf v 7, startedAt := s.clk.ns }

def execIicGo (t : Elapsed) (who : Who) (port value : Nat) (s : State) : Host.Outcome State Fault Refusal :=
  .next ((s.advance t).pageWrite who Hdr.iic fun s => s.iicGo port value)

/-- An I2C transfer ends; the clock is stretched rather than a byte lost. A target sent the `moved` bytes that the
controller took; a controller sent LEN bytes, or those that went before the transfer failed. -/
def State.iicEnd (s : State) (p moved : Nat) (rx : List Byte) (nack lost : Bool) : State :=
  if !s.domOn Dom.per || !s.flag (R.IIC_CFG_EN p) then s
  else
    let r := s.port (4 + p)
    let target := s.flag (R.IIC_CFG_TARGET p)
    if !target && !s.flag (R.IIC_STAT_BUSY p) then s
    else
      let s := s.put (R.IIC_STAT_BUSY p) false
      let s := if nack then s.put (R.IIC_STAT_NACK p) true else s
      let s := if lost then s.put (R.IIC_STAT_ARBLOST p) true else s
      let got := (if target then rx else if r.read then rx.take r.len else []).map (·.toNat)
      let sent := if target then moved else if r.read then 0 else if nack || lost then min moved r.len else r.len
      let s := s.setPort (4 + p) fun r => { r with tx := r.tx.drop sent, rx := r.rx ++ got }
      (s.progress Hdr.iic).emit (0x89 + p)

def execIicTransferEnd (t : Elapsed) (port moved : Nat) (rx : List Byte) (nack lost : Bool) (s : State) :
    Host.Outcome State Fault Refusal := .next ((s.advance t).iicEnd port moved rx nack lost)

end Sys2Proof.Machine
end

