-- ==== Sys2Proof/Machine/Timers.lean ====
section
/-!
DEFINITION. The timers TMR0-TMR7, R316-R322 of the chapter "Event router and timers".
-/

namespace Sys2Proof.Machine

/-- The period in force: 0 stands for 2^32, or 2^64 in a chained pair (R316, R320). -/
def State.timerPeriod (s : State) (n : Nat) : Nat :=
  if s.chained n then
    let p := s.rd (R.TMR_PERIOD_PERIOD n) + 2 ^ 32 * s.rd (R.TMR_PERIOD_PERIOD (n + 1))
    if p = 0 then 2 ^ 64 else p
  else
    let p := s.rd (R.TMR_PERIOD_PERIOD n)
    if p = 0 then 2 ^ 32 else p

/-- Writes a value into a register of the timer, both halves of a chained pair. -/
def State.setTimerReg (s : State) (f : Nat → Fld) (n v : Nat) : State :=
  if s.chained n then (s.wr (f n) v).wr (f (n + 1)) (v / 2 ^ 32) else s.wr (f n) v

def State.timerReg (s : State) (f : Nat → Fld) (n : Nat) : Nat :=
  s.rd (f n) + if s.chained n then 2 ^ 32 * s.rd (f (n + 1)) else 0

/-! ### Captures -/

/-- A capture into CAPR or CAPF (R319); `depth` is the depth of its event. -/
def State.capture (s : State) (n : Nat) (fall : Bool) (depth : Nat) : State :=
  let reg := if fall then R.TMR_CAPF_VALUE else R.TMR_CAPR_VALUE
  let fresh := if fall then R.TMR_STAT_FRESHF n else R.TMR_STAT_FRESHR n
  let r := s.timer n
  let mark := some (s.perNow, s.timerReg reg n, s.flag (R.TMR_STAT_OVR n))
  let s := if s.flag fresh then s.put (R.TMR_STAT_OVR n) true else s
  let s := (s.setTimerReg reg n r.count).put fresh true
  let s := s.setTimer n fun r => if fall then { r with capF := mark } else { r with capR := mark }
  s.emit ((if fall then 0x78 else 0x70) + n) depth

/-- Reading CAPR or CAPF: the value and its fresh flag; a pair keeps freshness in the low timer and clears it with
the high half. A capture in the same PER cycle follows the read (R319, R320). -/
def State.captureRead (s : State) (n : Nat) (fall : Bool) : State × Nat :=
  let m := if s.isHigh n then n - 1 else n
  let reg := if fall then R.TMR_CAPF_VALUE else R.TMR_CAPR_VALUE
  let fresh := if fall then R.TMR_STAT_FRESHF m else R.TMR_STAT_FRESHR m
  let mark := if fall then (s.timer m).capF else (s.timer m).capR
  let lowHalf := s.chained n
  match mark with
  | some (cyc, old, ovr) =>
    if cyc = s.perNow then
      ((if lowHalf then s else s.put (R.TMR_STAT_OVR m) ovr), if m = n then old % 2 ^ 32 else old / 2 ^ 32)
    else ((if lowHalf then s else s.put fresh false), s.rd (reg n))
  | none => ((if lowHalf then s else s.put fresh false), s.rd (reg n))

/-! ### Commands and tasks -/

/-- The compare event is due again only when the count reaches CMP by a tick (R316). -/
def State.recompare (s : State) (n : Nat) : State :=
  s.setTimer n fun r => { r with cmpDone := decide (s.timerCmp n ≤ r.count) }

def State.timerStop (s : State) (n : Nat) : State := s.put (R.TMR_STAT_RUNNING n) false

def State.timerClear (s : State) (n depth : Nat) : State :=
  (s.setTimer n fun r => { r with count := 0, pre := 0, force := none, depth := depth
                                  depthAt := some s.perNow }).recompare n

def State.timerStart (s : State) (n depth : Nat) : State :=
  if s.flag (R.TMR_STAT_RUNNING n) then s
  else
    ((s.put (R.TMR_STAT_RUNNING n) true).setTimer n fun r =>
      { r with pre := 0, depth := depth, depthAt := some s.perNow }).recompare n

/-- A COUNT task ticks a running timer with CLKSRC 3 whose gate is open. -/
def State.timerCount (s : State) (n depth : Nat) : State :=
  if s.flag (R.TMR_STAT_RUNNING n) && s.rd (R.TMR_CTL_CLKSRC n) == 3 && s.gateOpen n then
    s.setTimer n fun r => { r with count := r.count + 1, depth := depth, depthAt := some s.perNow }
  else s

/-- Timer commands of one PER cycle in their order: CAPR, CAPF, STOP, CLEAR, COUNT, START (R313). Each carries
the depth of the events it causes; a capture takes the count from before the others. -/
def State.timerDo (s : State) (n : Nat) (capr capf stop clear count start : Option Nat) : State :=
  let on := fun (o : Option Nat) (f : Nat → State → State) (s : State) => match o with
    | some d => f d s
    | none => s
  on start (fun d s => s.timerStart n d) <|
  on count (fun d s => s.timerCount n d) <|
  on clear (fun d s => s.timerClear n d) <|
  on stop (fun _ s => s.timerStop n) <|
  on capf (fun d s => s.capture n true d) <|
  on capr (fun d s => s.capture n false d) s

/-- A write of TMR_CMD (R313); of the high timer of a pair it is ignored (R320). -/
def State.timerCmd (s : State) (n v : Nat) : State :=
  if s.isHigh n then s
  else
    let b := fun (k : Nat) => if bitOf v k then some 0 else none
    s.timerDo n (b 3) (b 4) (b 1) (b 2) none (b 0)

/-- A write to a timer page under its owner's rule. -/
def State.timerWrite (s : State) (who : Who) (n : Nat) (f : State → State) : State :=
  s.guarded who (s.owns who (Hdr.tmr n)) (Hdr.tmr n) fun s => if s.domOn Dom.per then f s else s

def execTimerStart (t : Elapsed) (who : Who) (n : Nat) (s : State) : Host.Outcome State Fault Refusal :=
  .next ((s.advance t).timerWrite who n fun s => s.timerCmd n 1)

def execTimerStop (t : Elapsed) (who : Who) (n : Nat) (s : State) : Host.Outcome State Fault Refusal :=
  .next ((s.advance t).timerWrite who n fun s => s.timerCmd n 2)

def execTimerClear (t : Elapsed) (who : Who) (n : Nat) (s : State) : Host.Outcome State Fault Refusal :=
  .next ((s.advance t).timerWrite who n fun s => s.timerCmd n 4)

def execTimerCaptureRise (t : Elapsed) (who : Who) (n : Nat) (s : State) : Host.Outcome State Fault Refusal :=
  .next ((s.advance t).timerWrite who n fun s => s.timerCmd n 8)

def execTimerCaptureFall (t : Elapsed) (who : Who) (n : Nat) (s : State) : Host.Outcome State Fault Refusal :=
  .next ((s.advance t).timerWrite who n fun s => s.timerCmd n 16)

/-! ### Registers of a timer -/

/-- A new period for timer `n` (R318). -/
def State.timerNewPeriod (s : State) (n v : Nat) : State :=
  if !s.flag (R.TMR_CTL_IMMED n) then
    (s.setTimer n fun r => { r with perNext := v }).put (R.TMR_STAT_PERPEND n) true
  else
    let s := s.setTimerReg R.TMR_PERIOD_PERIOD n v
    let now := decide (s.timerPeriod n ≤ (s.timer n).count)
    s.setTimer n fun r => { r with force := if now then some r.count else none }

/-- A write of TMR_PERIOD; a pair holds the low half until the high half is written (R318, R320). -/
def State.timerPeriodWrite (s : State) (n v : Nat) : State :=
  if s.chained n then s.setTimer n fun r => { r with holdPer := v }
  else if s.isHigh n then s.timerNewPeriod (n - 1) ((s.timer (n - 1)).holdPer + 2 ^ 32 * v)
  else s.timerNewPeriod n v

def execTimerPeriodWrite (t : Elapsed) (who : Who) (n value : Nat) (s : State) : Host.Outcome State Fault Refusal :=
  .next ((s.advance t).timerWrite who n fun s => s.timerPeriodWrite n value)

def execTimerCaptureRead (t : Elapsed) (n : Nat) (fall : Bool) (s : State) : Host.Outcome State Fault Refusal :=
  let r := (s.advance t).captureRead n fall
  .next { r.1 with bus := { value := r.2, error := false } }

/-- A write of TMR_CMP. -/
def State.timerCmpWrite (s : State) (n v : Nat) : State :=
  if s.chained n then s.setTimer n fun r => { r with holdCmp := v }
  else if s.isHigh n then
    (s.setTimerReg R.TMR_CMP_CMP (n - 1) ((s.timer (n - 1)).holdCmp + 2 ^ 32 * v)).recompare (n - 1)
  else (s.wr (R.TMR_CMP_CMP n) v).recompare n

/-- A write of TMR_COUNT, taken only while the timer is stopped. -/
def State.timerCountWrite (s : State) (n v : Nat) : State :=
  let m := if s.isHigh n then n - 1 else n
  if s.flag (R.TMR_STAT_RUNNING m) then s
  else if s.chained n then s.setTimer n fun r => { r with holdCount := v }
  else if s.isHigh n then
    (s.setTimer m fun r => { r with count := r.holdCount + 2 ^ 32 * v, force := none }).recompare m
  else (s.setTimer n fun r => { r with count := v, force := none }).recompare n

/-- A read of TMR_COUNT (R320). -/
def State.timerCountRead (s : State) (n : Nat) : State × Nat :=
  let m := if s.isHigh n then n - 1 else n
  if (s.chained n || s.isHigh n) && s.flag (R.TMR_STAT_RUNNING m) then (s.put (R.TMR_STAT_RUNRD m) true, 0)
  else (s, if m = n then (s.timer m).count % 2 ^ 32 else (s.timer m).count / 2 ^ 32 % 2 ^ 32)

/-- The fields of TMR_CTL that are written only while the timer is stopped: CLKSRC, PRESC, CHAIN and the gate
fields (R317). -/
def ctlLocked (v : Nat) : Nat × Nat × Nat × Nat × Nat := (bitsOf v 0 3, bitsOf v 4 4, bitsOf v 12 1, bitsOf v 13 2, bitsOf v 16 8)

/-- Joins or parts the counts of a pair when CHAIN changes (R320). -/
def State.rechain (s : State) (n : Nat) (was now : Bool) : State :=
  if was == now || n % 2 == 1 then s
  else if now then
    let hi := (s.timer (n + 1)).count
    (s.setTimer n fun r => { r with count := r.count % 2 ^ 32 + 2 ^ 32 * hi }).setTimer (n + 1) fun _ => {}
  else
    let c := (s.timer n).count
    (s.setTimer n fun r => { r with count := c % 2 ^ 32 }).setTimer (n + 1) fun r => { r with count := c / 2 ^ 32 }

/-- A write of TMR_CTL (R316, R317, R320). -/
def State.timerCtlWrite (s : State) (n v : Nat) : State :=
  if s.isHigh n then s
  else if 4 ≤ bitsOf v 0 3 then s.put (R.TMR_STAT_CFGERR n) true
  else
    let v := if n % 2 = 1 then setBitsOf v 12 1 0 else v
    let old := (s.word (R.TMR_CTL_CLKSRC n).addr).toNat
    let free := fun (s : State) =>
      (((s.wr (R.TMR_CTL_CAPLVL n) (bitsOf v 24 8)).wr (R.TMR_CTL_CAPEN n) (bitsOf v 15 1)).wr
        (R.TMR_CTL_ONESHOT n) (bitsOf v 11 1)).wr (R.TMR_CTL_IMMED n) (bitsOf v 10 1)
    if ctlLocked v == ctlLocked old then free s
    else if s.flag (R.TMR_STAT_RUNNING n) then (free s).put (R.TMR_STAT_CFGERR n) true
    else
      let was := s.flag (R.TMR_CTL_CHAIN n)
      let s := free s
      let s := (((((s.wr (R.TMR_CTL_CLKSRC n) (bitsOf v 0 3)).wr (R.TMR_CTL_PRESC n) (bitsOf v 4 4)).wr
        (R.TMR_CTL_CHAIN n) (bitsOf v 12 1)).wr (R.TMR_CTL_GATEEN n) (bitsOf v 13 1)).wr
        (R.TMR_CTL_GATEINV n) (bitsOf v 14 1)).wr (R.TMR_CTL_GATELVL n) (bitsOf v 16 8)
      let s := s.rechain n was (bitOf v 12)
      (s.setTimer n fun r => { r with ext := s.level (s.rd (R.TMR_EXT_LEVEL n)) }).recompare n

/-- A write of TMR_EXT, taken only while the timer is stopped (R317). -/
def State.timerExtWrite (s : State) (n v : Nat) : State :=
  if s.flag (R.TMR_STAT_RUNNING n) then s.put (R.TMR_STAT_CFGERR n) true
  else
    let s := (s.wr (R.TMR_EXT_EDGE n) (bitsOf v 8 2)).wr (R.TMR_EXT_LEVEL n) (bitsOf v 0 8)
    s.setTimer n fun r => { r with ext := s.level (s.rd (R.TMR_EXT_LEVEL n)) }

/-! ### Period and compare events -/

/-- Depth of an event of timer `n`: the task's plus 1 on the tick or in the cycle a task made, else 0 (R309). -/
def State.timerDepth (s : State) (n : Nat) : Nat :=
  let r := s.timer n
  if s.rd (R.TMR_CTL_CLKSRC n) = 3 ∨ r.depthAt = some s.perNow then r.depth else 0

/-- The count becomes 0: the held period takes effect, a one-shot timer stops, the events are emitted. -/
def State.timerWrap (s : State) (n rest : Nat) : State :=
  let d := s.timerDepth n
  let late := !(s.timer n).cmpDone && decide (s.timerCmp n < s.timerPeriod n)
  let s := if late then s.emit (0x68 + n) d else s
  let s := if s.flag (R.TMR_STAT_PERPEND n) then
      (s.setTimerReg R.TMR_PERIOD_PERIOD n (s.timer n).perNext).put (R.TMR_STAT_PERPEND n) false
    else s
  let one := s.flag (R.TMR_CTL_ONESHOT n)
  let s := s.setTimer n fun r => { r with count := if one then 0 else rest, force := none
                                          cmpDone := decide (s.timerCmp n = 0) }
  let s := if one then s.timerStop n else s
  let s := s.emit (0x60 + n) d
  if s.timerCmp n = 0 then s.emit (0x68 + n) d else s

/-- A timer's count reaches PERIOD (R316, R318). -/
def State.timerPeriodEvent (s : State) (n : Nat) : State :=
  let c := (s.timer n).count
  if !s.flag (R.TMR_STAT_RUNNING n) || s.isHigh n || !s.domOn Dom.per then s
  else match (s.timer n).force with
  | some f => if f < c then s.timerWrap n (c - f - 1) else s
  | none => if s.timerPeriod n ≤ c then s.timerWrap n (c - s.timerPeriod n) else s

def execTimerPeriodEvent (t : Elapsed) (n : Nat) (s : State) : Host.Outcome State Fault Refusal :=
  .next ((s.advance t).timerPeriodEvent n)

/-- A timer's count becomes CMP on a tick (R316). -/
def State.timerCompareEvent (s : State) (n : Nat) : State :=
  let r := s.timer n
  if s.flag (R.TMR_STAT_RUNNING n) && !s.isHigh n && s.domOn Dom.per && !r.cmpDone &&
      decide (s.timerCmp n ≤ r.count) && decide (s.timerCmp n < s.timerPeriod n) then
    (s.setTimer n fun r => { r with cmpDone := true }).emit (0x68 + n) (s.timerDepth n)
  else s

def execTimerCompareEvent (t : Elapsed) (n : Nat) (s : State) : Host.Outcome State Fault Refusal :=
  .next ((s.advance t).timerCompareEvent n)

/-- An edge of the level in CAPLVL with CAPEN set (R319). -/
def State.captureEdge (s : State) (n : Nat) (rising : Bool) : State :=
  if s.flag (R.TMR_CTL_CAPEN n) && !s.isHigh n && s.domOn Dom.per then s.capture n (!rising) 0 else s

def execTimerCaptureEdge (t : Elapsed) (n : Nat) (rising : Bool) (s : State) : Host.Outcome State Fault Refusal :=
  .next ((s.advance t).captureEdge n rising)

/-! ### Make-up after retention -/

/-- Advances a running timer for `bk` BK periods of retention (R322). -/
def State.timerMakeup (s : State) (bk n : Nat) : State :=
  if !s.flag (R.TMR_STAT_RUNNING n) || s.isHigh n then s
  else if s.rd (R.TMR_CTL_CLKSRC n) = 0 ∧ ¬s.flag (R.TMR_CTL_GATEEN n) then
    let acc := s.rd (R.TMR_FRAC_FRAC n) + bk * 46875 * 2 ^ 24 / (32 * 2 ^ s.rd (R.TMR_CTL_PRESC n))
    let s := s.wr (R.TMR_FRAC_FRAC n) (acc % 2 ^ 24)
    let old := (s.timer n).count
    let new := old + acc / 2 ^ 24
    let p := s.timerPeriod n
    let cmp := s.timerCmp n
    let one := s.flag (R.TMR_CTL_ONESHOT n)
    let wraps := new / p
    let passed := decide (cmp < p) &&
      if wraps = 0 then decide (old < cmp ∧ cmp ≤ new)
      else decide (old < cmp ∨ cmp = 0) || (!one && (decide (2 ≤ wraps) || decide (cmp ≤ new % p)))
    let s := if passed then s.emit (0x68 + n) else s
    if wraps = 0 then s.setTimer n fun r => { r with count := new, cmpDone := decide (cmp ≤ new) }
    else
      let s := if s.flag (R.TMR_STAT_PERPEND n) then
          (s.setTimerReg R.TMR_PERIOD_PERIOD n (s.timer n).perNext).put (R.TMR_STAT_PERPEND n) false
        else s
      let s := s.setTimer n fun r => { r with count := if one then 0 else new % p, force := none
                                              cmpDone := decide (cmp ≤ if one then 0 else new % p) }
      let s := if one then s.timerStop n else s
      (s.put (R.TMR_STAT_SLEPTWRAP n) true).emit (0x60 + n)
  else s.put (R.TMR_STAT_MISSED n) true

end Sys2Proof.Machine
end

