-- ==== Sys2Proof/Machine/Control.lean ====
section
/-!
DEFINITION. What units and ensembles report (R34, R36), their lapses, escalation and retirement (R37-R39), and
disable, drain and requested reset (R40-R44).
-/

namespace Sys2Proof.Machine

/-! ### Cores -/

def State.core (s : State) (p : Nat) : CoreState := sget (fun _ => ({} : CoreState)) s.cores p

def State.setCore (s : State) (p : Nat) (c : CoreState) : State :=
  { s with cores := sput (fun _ => ({} : CoreState)) s.cores p c }

/-- Physical core `p` starts at the reset vector with reset state (R379, R397, R398). -/
def State.coreStart (s : State) (p : Nat) : State :=
  let v := 2 * s.rd R.CPU_RESETVEC_ADDR
  (s.setCore p { pc := BitVec.ofNat 32 v, vbase := BitVec.ofNat 32 (v / 1024 * 1024), running := true }).setUnit
    (Hdr.core p) fun u => { u with beaten := false }

/-! ### What a unit is doing (R36) -/

/-- Stage of work that its unit has begun. -/
def Work.begun (w : Work) : Bool := w.stage == .started || w.stage == .committed

/-- The work in flight that unit `h` holds: what the ring engine has not handed on yet is its own; operations of a
cipher engine are those on its logical number. -/
def State.unitWorks (s : State) (h : Nat) : List Work :=
  match unitInfo h with
  | some u =>
    if u.type = 0x0018 then match s.logicalOf .cip u.inst with
      | some n => s.ring.work.filter fun w => w.unit == Hdr.cip && w.begun && w.a == n
      | none => []
    else s.ring.work.filter fun w =>
      let own := match w.stage with
        | .fenced | .timed | .served _ => h == Hdr.rng
        | _ => w.unit == h
      own && !(h == Hdr.cip && w.begun)
  | none => []

/-- Serial transfers under way. -/
def State.serialBusy (s : State) (type : Nat) : Nat :=
  match type with
  | 0x001C => ([0, 1].filter fun p => !((s.uartDrain p).port p).tx.isEmpty && s.flag (R.UART_CFG_EN p)).length
  | 0x001D => ([0, 1].filter fun p => s.flag (R.SPI_STAT_BUSY p)).length
  | _ => ([0, 1].filter fun p => s.flag (R.IIC_STAT_BUSY p)).length

/-- Items unit `h` is working on; waits for time or for another party are none (R36). -/
def State.doing (s : State) (h : Nat) : Nat :=
  match unitInfo h with
  | none => 0
  | some u => match u.type with
    | 0x0030 => match s.logicalOf .lane u.inst with
      | some n => b2n (s.lane n).isSome
      | none => 0
    | 0x0013 => match s.logicalOf .dec u.inst with
      | some n => (s.rx.jobs.filter fun j => j.engine == some n && j.started && !j.ended).length
      | none => 0
    | 0x0018 => (s.unitWorks h).length
    | 0x0026 => b2n ((s.core u.inst).running && !(s.core u.inst).waiting)
    | 0x0010 => b2n s.cap.run.isSome + b2n s.cap.record.isSome
    | 0x0014 => (s.tx.list.filter (·.begun)).length
    | 0x0015 => b2n s.tx.run.isSome + (s.tx.list.filter (·.stage == .hopping)).length
    | 0x0006 => ((s.unitWorks h).filter fun w => w.begun && w.opcode != 0x03).length
    | 0x0008 => s.ev.queue.length
    | 0x0020 => b2n (s.flag R.DMC_STATUS_TRAINING)
    | 0x0021 => min 1 s.mem.copying.length
    | 0x0022 => b2n (s.mem.nvmOp.any fun o => o.suspendedAt.isNone)
    | 0x001A => b2n (s.per.dali.sending.isSome || s.per.dali.answering.isSome)
    | 0x001C | 0x001D | 0x001E => s.serialBusy u.type
    | 0x0024 => s.upd.tasks.length
    | 0x0019 => b2n s.tag.run.isSome
    | _ => 0

/-- Units that work on what never ends: the mains, tempo, the watch list, the timetable, the cohort. -/
def State.standing (s : State) (h : Nat) : Bool :=
  s.accepts h && match (unitInfo h).map (·.type) with
    | some 0x0004 => s.rd R.TMP_STATUS_STATE != 0
    | some 0x0005 => true
    | some 0x0011 => !s.rx.active.isEmpty
    | some 0x0017 => s.occurrencesRun
    | some 0x0023 => s.inCohort
    | _ => false

/-- Work that a draining unit still has to end: what it began, waits included (R41). -/
def State.unsettled (s : State) (h : Nat) : Bool :=
  decide (0 < s.doing h) || match (unitInfo h).map (·.type) with
    | some 0x0016 => (s.unitWorks h).any (·.begun)
    | some 0x0006 => (s.unitWorks h).any fun w => match w.stage with
        | .served _ => true
        | _ => false
    | some 0x0022 => s.mem.nvmOp.isSome
    | _ => false

/-- Items accepted and not completed (USTATE.INFLIGHT). -/
def State.inflightOf (s : State) (h : Nat) : Nat :=
  let works := (s.unitWorks h).length
  match (unitInfo h).map (·.type) with
  | some 0x0006 => works + s.ring.done.length
  | some 0x0010 => works + b2n s.cap.run.isSome
  | some 0x0014 => s.tx.list.length
  | some 0x0015 => b2n s.tx.run.isSome + s.tx.pend.length
  | some 0x0018 => works
  | some 0x0019 => max works (s.tag.waiting.length + b2n s.tag.run.isSome)
  | some 0x001A => s.per.dali.queue.length
  | some 0x0007 => s.mail.pendingSends.length
  | some 0x0024 => max works s.upd.tasks.length
  | _ => works + s.doing h

/-! ### USTATE (Table UNT-2, R34) -/

/-- STATE of a leaf unit. -/
def State.leafState (s : State) (h : Nat) : Nat :=
  let u := s.unit h
  let d := (s.dom (((unitInfo h).map (·.dom)).getD Dom.sys)).state
  if d < 2 then d
  else if u.retired then 6
  else if u.faulted then 7
  else if u.lapsed then 5
  else if u.draining && s.unsettled h then 4
  else if 0 < s.doing h || s.standing h then 3
  else 2

/-- The array whose ensemble header is `h`. -/
def arrayOf (h : Nat) : Option Arr :=
  if h = Hdr.lns then some .lane else if h = Hdr.dec then some .dec else if h = Hdr.cip then some .cip
  else if h = Hdr.cpu then some .core else none

/-- No logical member can serve. -/
def State.noneServes (s : State) (h : Nat) (kids : List Nat) : Bool :=
  match arrayOf h with
  | some a => s.servedCount a == 0
  | none => !kids.isEmpty && kids.all (· == 7)

/-- STATE of a unit or an ensemble, by the first rule of R34 that applies. -/
def State.ustate : Nat → State → Nat → Nat
  | 0, s, h => s.leafState h
  | fuel + 1, s, h =>
    if !isEnsemble h then s.leafState h
    else if (s.unit h).lapsed then 5
    else
      let kids := ((childrenOf h).map (State.ustate fuel s)).filter (· != 6)
      if s.noneServes h kids then 7
      else if kids.contains 4 then 4
      else if kids.contains 3 || kids.contains 5 then 3
      else if kids.contains 2 then 2
      else if kids.contains 1 then 1
      else 0

/-- INFLIGHT: an ensemble's is the sum over its children. -/
def State.inflight (s : State) (h : Nat) : Nat :=
  if isEnsemble h then (((descendants h).filter fun k => !isEnsemble k && !(s.unit k).retired).map s.inflightOf).sum
  else s.inflightOf h

/-! ### Ending a unit's work -/

/-- One item in flight completes `LAPSED`; a transmission not past its commit point goes with it, a commit before its
boundary is dropped. -/
def State.lapseWork (s : State) (w : Work) : State :=
  let now := s.clk.edges
  let s := { s with tx := { s.tx with list := s.tx.list.filter fun x =>
    !(x.kind == TxKind.frame w.ring w.idx && !(x.isCommitted now)) } }
  let s := if w.ring = 0 ∧ w.opcode = 0x03 then s.dropCommit w.idx else s
  s.decide_ w St.lapsed

/-- Puts work in the order of R37: by ring, within a ring in submission order. -/
def insertWork (w : Work) : List Work → List Work
  | [] => [w]
  | x :: l => if w.ring < x.ring ∨ (w.ring = x.ring ∧ idxBefore w.idx x.idx) then w :: x :: l else x :: insertWork w l

/-- The items of unit `h` that a lapse ends. RNG's are those it has not handed on and its own jobs; a commit past its
boundary and served work go on (R104). -/
def State.lapsing (s : State) (h : Nat) : List Work :=
  ((s.unitWorks h).filter fun w => match w.stage with
    | .served _ => false
    | .committed => w.opcode != 0x03 || w.ring != 0
    | _ => true).foldl (fun l w => insertWork w l) []

/-- The recording and a slice of CAP end (R129). -/
def State.capCut (s : State) : State := (s.capSliceBack).setCap fun c => { c with record := none, stopping := false }

/-- A slice of SYN that runs returns to the head of the set (R212). -/
def State.synSliceBack (s : State) : State :=
  match s.tx.run with
  | some r =>
    let p : SynSlice := { items := r.item, kind := r.kind, entry := r.entry, next := r.next, forced := r.forced,
                          since := r.start }
    { s with tx := { s.tx with run := none, pend := p :: s.tx.pend, tuned := false, usedAt := s.clk.edges } }
  | none => s

/-- TXU lapses: the frame on air ends, everything it holds completes `LAPSED`; what waits for an acknowledgement or a
retry stays with the link engine (R37, R228). -/
def State.txuCut (s : State) : State :=
  (s.tx.list.filter fun x => x.stage != .await).foldl (fun s x => s.cutTx x St.lapsed) s

/-- Blocks on a lapsing engine fail; those that had not started are placed again (R196). -/
def State.decCut (s : State) (p : Nat) : State :=
  match s.logicalOf .dec p with
  | some n =>
    let s := (s.rx.jobs.filter fun j => j.engine == some n && j.started && !j.ended).foldl (fun s j =>
      s.jobEnded { j with ok := false, bits := [], least := 0 }) s
    s.replanJobs
  | none => s

/-- DALI frames in the queue end with `LAPSED`. -/
def State.daliCut (s : State) : State :=
  let d := s.per.dali
  d.queue.foldl (fun s e =>
    if s.per.dali.results.length < 8 then
      (s.setDali { s.per.dali with results := s.per.dali.results ++ [e.tag * 65536 + 64 + St.lapsed] }).emit 0x80 e.depth
    else s) (s.setDali { d with queue := [], sending := none, answering := none })

/-- The serial ports' FIFOs empty and their transfers end. -/
def State.serialCut (s : State) (type : Nat) : State :=
  let k := match type with
    | 0x001C => 0
    | 0x001D => 2
    | _ => 4
  let s := [k, k + 1].foldl (fun s p => s.setPort p fun _ => {}) s
  match type with
  | 0x001D => (s.put (R.SPI_STAT_BUSY 0) false).put (R.SPI_STAT_BUSY 1) false
  | 0x001E => (s.put (R.IIC_STAT_BUSY 0) false).put (R.IIC_STAT_BUSY 1) false
  | _ => s

/-- The CIP data registers are cleared at every CIP lapse (R287). -/
def State.keyDataCut (s : State) : State := (List.range 8).foldl (fun s i => s.wr (R.CIP_KEYDATA_DATA i) 0) s

/-- A cohort member's working state is lost (R37). -/
def State.cohCut (s : State) : State :=
  (((s.wr R.COH_STATUS_STATE 0).wr R.COH_STATUS_LEAD 0xF).wr R.COH_STATUS_PRESENT 0).setCoh fun _ => {}

/-- Steps 2 and 4 of R37 for what the unit holds beside descriptors. -/
def State.clearUnit (s : State) (h : Nat) : State :=
  match unitInfo h with
  | none => s
  | some u => match u.type with
    | 0x0030 => match s.logicalOf .lane u.inst with
      | some n => if (s.lane n).isSome then s.freeLane n else s
      | none => s
    | 0x0013 => s.decCut u.inst
    | 0x0018 => s.keyDataCut
    | 0x0026 => s.setCore u.inst {}
    | 0x0010 => s.capCut
    | 0x0011 => { s.setRx (fun x => { x with dets := [] }) with tx := { s.tx with expects := [] } }
    | 0x0014 => s.txuCut
    | 0x0015 => s.synSliceBack
    | 0x0016 => s.setRx fun x => { x with held := [] }
    | 0x0017 => { s with ttb := { s.ttb with occ := [], windows := [] } }
    | 0x0007 => { s with mail := {} }
    | 0x0008 => { s.bump R.EVR_COUNTS_LOST s.ev.queue.length with ev := { s.ev with queue := [], grpWas := none } }
    | 0x0004 =>
      let s := (s.tempoGo 4).setTmp fun r => { r with corrections := [], remAlign16 := 0, remLocal16 := 0, rateFrom := 0 }
      s.stopStages
    | 0x0005 => s.loseLock.setTmp fun r => { r with crossedAt := none, goodCycles := 0, events := [], thdRun := 0, freqs := [] }
    | 0x0020 => ((s.put R.DMC_STATUS_READY false).put R.DMC_STATUS_SELFREF true).trainBegin
    | 0x0021 => s.setMem fun m => { m with scrubAt := 0 }
    | 0x0022 => s.norLapse
    | 0x001A => s.daliCut
    | 0x001C | 0x001D | 0x001E => s.serialCut u.type
    | 0x0024 => s.setUpd fun u => { u with tasks := [], preparing := none, prepared := [], accepting := none }
    | 0x0019 => let s := s.tagCollapse; s.setTag { s.tag with secured := false, auth := none, exact := false }
    | 0x0023 => s.cohCut
    | _ => s

/-- Steps 1-4 of R37: the unit reads `LAPSED`, its work ends, its working state is cleared. -/
def State.resetUnit (cause : Nat) (s : State) (h : Nat) : State :=
  let u := s.unit h
  if u.lapsed || u.retired || !s.unitOn h then s
  else
    let s := s.setUnit h fun u => { u with lapsed := true, lapsedAt := s.clk.ns, cause := cause, draining := false,
                                           resetPend := false, beaten := false }
    let s := s.put (R.UCTL_RESET h) false
    ((s.lapsing h).foldl State.lapseWork s).clearUnit h

/-! ### Retirement (R39) -/

/-- After a core's retirement its domain goes off, and APP4, now in its place, comes on (R398). -/
def State.coreReplaced (s : State) (p : Nat) : State :=
  let s := s.setDom (Dom.app p) {}
  if (s.logicalOf .core 4).isSome && (s.dom (Dom.app 4)).state = 0 && (s.dom (Dom.app 4)).trans.isNone then
    s.setDom (Dom.app 4) { state := 0, target := 2, trans := some { dest := 2, startedAt := s.clk.ns } }
  else s

/-- The lapse of a substitutable member counts towards its retirement. -/
def State.countRetire (s : State) (h : Nat) : State :=
  match unitInfo h with
  | none => s
  | some u =>
    let go := fun (a : Arr) =>
      let s := s.setUnit h fun r => { r with lapseTimes := (s.clk.ns :: r.lapseTimes).take 16 }
      s.retireForLapses a u.inst
    match u.type with
    | 0x0030 => go .lane
    | 0x0013 => (go .dec).replanJobs
    | 0x0018 => go .cip
    | 0x0026 =>
      let s := go .core
      if (s.unit h).retired then s.coreReplaced u.inst else s
    | _ => s

/-! ### Lapses and escalation (R37, R38) -/

/-- DEV_ESCWIN in nanoseconds. -/
def State.escWindow (s : State) : Nat := clamp 1 3600 (s.rd R.DEV_ESCWIN_SECONDS) * 1000000000

/-- A lapse of a direct child counts towards the ensemble's window; the third lapses the ensemble as a whole. -/
def State.childLapse : Nat → State → Nat → State
  | 0, s, _ => s
  | fuel + 1, s, h =>
    match unitInfo h with
    | none => s
    | some u =>
      let p := u.parent
      let w := s.rd (R.ULAPCNT_WINDOW p)
      let w := if 0 < w ∧ (s.unit p).windowAt + s.escWindow ≤ s.clk.ns then 0 else w
      if w < 2 then
        let s := s.wr (R.ULAPCNT_WINDOW p) (w + 1)
        if w = 0 then s.setUnit p fun u => { u with windowAt := s.clk.ns } else s
      else if p = Hdr.dev then s.warmRestart 2 u.type
      else
        let s := (descendants p).foldl (State.resetUnit 0) s
        let s := s.setUnit p fun u => { u with lapsed := true, lapsedAt := s.clk.ns, cause := 6 }
        let s := ((s.bump (R.ULAPCNT_TOTAL p)).wr (R.ULAPCNT_WINDOW p) 0).envBreak 0x06 3 p
        State.childLapse fuel s p

/-- A unit lapses (R37); a link core's double fault lapses DEV (R394). -/
def State.lapseUnit (s : State) (h : Nat) : State :=
  if (s.unit h).lapsed || (s.unit h).retired then s
  else
    let s := ((s.resetUnit 6 h).bump (R.ULAPCNT_TOTAL h)).envBreak 0x06 3 h
    (s.countRetire h).childLapse 4 h

/-- A requested reset is carried out (R43). -/
def State.resetNow (s : State) (h : Nat) : State := (s.resetUnit 8 h).envBreak 0x08 3 h

/-- The drain bound has run out, the time on air left out (R42). -/
def State.drainOver (s : State) (h : Nat) : Bool :=
  let u := s.unit h
  match unitInfo h with
  | some i => u.draining && decide (0 < i.boundUs) &&
      decide (u.drainAt + 1000 * s.boundOf h + (s.tx.airNs - u.drainPaused) ≤ s.clk.ns)
  | none => false

/-- May a pending reset be carried out: the unit is drained or its bound has run out; TXU and SYN wait for the frame on
air (R43). -/
def State.resetDue (s : State) (h : Nat) : Bool :=
  (s.unit h).resetPend && (!s.unsettled h || s.drainOver h) &&
    !((h == Hdr.txu || h == Hdr.syn) && s.tx.list.any (·.isCommitted s.clk.edges))

/-- The lapse timer has passed its bound: it runs while the unit is busy, a core's from its first heartbeat (R36). -/
def State.timerOver (s : State) (h : Nat) : Bool :=
  let u := s.unit h
  match unitInfo h with
  | some i => decide (0 < i.boundUs) && !u.draining && (decide (0 < s.doing h) || s.standing h) &&
      (i.type != 0x0026 || u.beaten) && decide (u.progressAt + 1000 * s.boundOf h ≤ s.clk.ns)
  | none => false

/-- Served work of disabled rings whose drain bound has run out completes `LAPSED` (R109). -/
def State.servedLapse (s : State) : State :=
  (s.ring.work.filter fun w => match w.stage with
    | .served _ => w.c == 1 && decide (w.due + 1000 * s.boundOf Hdr.rng + (s.tx.airNs - w.b) ≤ s.clk.ns)
    | _ => false).foldl (fun s w => s.decide_ w St.lapsed) s

/-- UNIT_LAPSE: a pending reset, a drain bound or a lapse timer of unit `h` comes due. -/
def State.unitLapse (s : State) (h : Nat) : State :=
  let s := if h = Hdr.rng then s.servedLapse.leaveBound else s
  if !s.unitOn h || (s.unit h).lapsed || (s.unit h).retired || isEnsemble h then s
  else if s.resetDue h then s.resetNow h
  else if s.timerOver h || (s.drainOver h && s.unsettled h) then s.lapseUnit h
  else s

def execUnitLapse (t : Elapsed) (unit : Nat) (s : State) : Host.Outcome State Fault Refusal :=
  .next ((s.advance t).unitLapse unit)

/-- ESCALATION_WINDOW_END: the count of child lapses restarts. -/
def State.windowEnd (s : State) (h : Nat) : State :=
  if 0 < s.rd (R.ULAPCNT_WINDOW h) ∧ (s.unit h).windowAt + s.escWindow ≤ s.clk.ns then s.wr (R.ULAPCNT_WINDOW h) 0 else s

def execEscalationWindowEnd (t : Elapsed) (unit : Nat) (s : State) : Host.Outcome State Fault Refusal :=
  .next ((s.advance t).windowEnd unit)

/-! ### Disable, drain, reset request (R40-R44) -/

/-- The drain bound counts from now. -/
def State.beginDrain (s : State) (h : Nat) : State :=
  s.setUnit h fun u => if u.draining then u
    else { u with draining := true, drainAt := s.clk.ns, drainPaused := s.tx.airNs }

/-- Transmissions in TXU not past their commit point: begun ones are abandoned, the others are not run (R40, R231). -/
def State.txuStop (s : State) : State :=
  (s.tx.list.filter fun x => x.stage != .await && !x.isCommitted s.clk.edges).foldl (fun s x =>
    s.cutTx x (if x.begun then St.abandoned else St.notRun)) s

/-- The unit is disabled: work past its commit point goes on, started work is abandoned, the rest is not run (R40). -/
def State.stopUnit (s : State) (h : Nat) : State :=
  if h = Hdr.rng then (List.range 16).foldl State.disableRing s
  else
    let s := ((s.unitWorks h).foldl (fun l w => insertWork w l) []).foldl State.stopWork s
    match (unitInfo h).map (·.type) with
    | some 0x0010 => (s.capSliceBack).setCap fun c => { c with stopping := c.record.isSome }
    | some 0x0011 => s.setRx fun x => { x with dets := [] }
    | some 0x0014 => s.txuStop
    | some 0x0015 => s.synSliceBack
    | some 0x0013 | some 0x0047 => s.replanJobs
    | some 0x0030 => match s.logicalOf .lane ((h - Hdr.lane 0) / 0x100) with
      | some n => match s.lane n with
        | some r => if r.phase < 4 then s.freeLane n else s
        | none => s
      | none => s
    | some 0x001A => s.daliStop
    | _ => s

/-- The unit drains: nothing new starts (R41); a recording ends as R139 says, DALI entries not started are not run. -/
def State.drainUnit (s : State) (h : Nat) : State :=
  match (unitInfo h).map (·.type) with
  | some 0x0010 => s.setCap fun c => { c with stopping := c.record.isSome }
  | some 0x0013 | some 0x0047 => s.replanJobs
  | some 0x001A => s.daliStop
  | _ => s

/-- A drained or disabled unit takes work again, unless its domain is leaving on. -/
def State.resumeUnit (s : State) (h : Nat) : State :=
  let d := ((unitInfo h).map (·.dom)).getD Dom.sys
  if (s.dom d).trans.any (·.draining) then s
  else
    let s := s.setUnit h fun u => { u with draining := false }
    match (unitInfo h).map (·.type) with
    | some 0x0014 => s.placeAll .slip fun _ => true
    | some 0x0013 | some 0x0047 => s.replanJobs
    | some 0x001A => s.daliNext
    | some 0x0022 | some 0x0024 => s.updKick
    | some 0x0026 =>
      let p := (h - Hdr.core 0) / 0x40
      let c := s.core p
      if s.enabled h && !s.flag (R.UCTL_DRAIN h) && (s.logicalOf .core p).isSome && s.phase == .running && !c.running then
        s.setCore p { c with running := true }
      else s
    | _ => s

/-- A core asked to stop does so at once if it waits in `WFE` (R397). -/
def State.coreHold (s : State) (h : Nat) : State :=
  match unitInfo h with
  | some u => if u.type = 0x0026 ∧ (s.core u.inst).waiting then s.setCore u.inst { s.core u.inst with running := false } else s
  | none => s

/-- A write of UCTL reaches one unit (R40-R44). -/
def State.uctlUnit (v : Nat) (s : State) (h : Nat) : State :=
  let u := s.unit h
  if u.resetPend then s.setUnit h fun u => { u with afterReset := some v }
  else
    let en := s.enabled h
    let dr := s.flag (R.UCTL_DRAIN h)
    let s := (s.put (R.UCTL_EN h) (bitOf v 0)).put (R.UCTL_DRAIN h) (bitOf v 1)
    if u.lapsed || u.retired then s
    else if bitOf v 2 && !isEnsemble h then
      let s := (s.put (R.UCTL_RESET h) true).setUnit h fun u => { u with resetPend := true }
      let s := ((s.beginDrain h).drainUnit h).coreHold h
      if s.resetDue h then s.resetNow h else s
    else if !bitOf v 0 then if en then ((s.beginDrain h).stopUnit h).coreHold h else s
    else if bitOf v 1 then if !dr || !en then ((s.beginDrain h).drainUnit h).coreHold h else s
    else if !en || dr then s.resumeUnit h
    else s

/-- A write to an ensemble's UCTL acts on every descendant (R35). -/
def State.uctlApply (s : State) (h v : Nat) : State := (descendants h).foldl (State.uctlUnit v) s

/-! ### Return to service (R37 step 6) -/

/-- What a unit that returns does besides reading `IDLE`. -/
def State.backUnit (s : State) (h : Nat) : State :=
  match unitInfo h with
  | none => s
  | some u => match u.type with
    | 0x0026 => if (s.logicalOf .core u.inst).isSome then s.coreStart u.inst else s
    | 0x0011 => s.decideActive
    | 0x0022 => s.updKick
    | 0x0013 => s.replanJobs
    | 0x0014 => s.placeAll .slip fun _ => true
    | 0x0019 => s.tagUp
    | 0x0023 => s.cohortStart
    | _ => s

/-- One unit is in service again; UCTL written meanwhile takes effect (R44). -/
def State.returnOne (s : State) (h : Nat) : State :=
  let u := s.unit h
  if !u.lapsed then s
  else
    let s := s.setUnit h fun u => { u with lapsed := false, afterReset := none, progressAt := s.clk.ns }
    let s := if s.unitOn h then s.backUnit h else s
    let s := if u.cause = 0 then s else s.envRestore u.cause 3 h
    match u.afterReset with
    | some v => s.uctlUnit v h
    | none => s

/-- An ancestor of `h` is being reset: it returns with it. -/
def State.underLapse : Nat → State → Nat → Bool
  | 0, _, _ => false
  | fuel + 1, s, h => match unitInfo h with
    | some u => (s.unit u.parent).lapsed || State.underLapse fuel s u.parent
    | none => false

/-- UNIT_RETURN_TO_SERVICE after the time of Table UNT-4; an ensemble returns with its descendants. -/
def State.unitReturn (s : State) (h : Nat) : State :=
  let ns := ((unitInfo h).map (·.backNs)).getD 0
  if !(s.unit h).lapsed || s.underLapse 4 h || decide (s.clk.ns < (s.unit h).lapsedAt + ns) then s
  else if (h == Hdr.dmc || h == Hdr.mem) && s.flag R.DMC_STATUS_TRAINING then s
  else (descendants h).reverse.foldl State.returnOne s

def execUnitReturnToService (t : Elapsed) (unit : Nat) (s : State) : Host.Outcome State Fault Refusal :=
  .next ((s.advance t).unitReturn unit)

end Sys2Proof.Machine
end

