-- ==== Sys2Proof/Machine/Power.lean ====
section
/-!
DEFINITION. The power domains: state requests, transitions and their effects (R15-R19, R359-R362), wakes (R363), UCTL
writes with their power-on requests (R23), the main-loss trigger (R280, R281) and heat (R469).
-/

namespace Sys2Proof.Machine

/-! ### The domains (Tables ARC-4, PWR-1) -/

/-- The numbers of Table PWR-1, ascending, BKP left out. -/
def domNums : List Nat := (List.range 16).map (· + 1) ++ (List.range 32).map (· + 32)

def hasRetention (n : Nat) : Bool := n == 2 || (3 ≤ n && n ≤ 8) || n == 11 || n == 13 || 32 ≤ n

/-- Needs SYS on or in retention. -/
def needsSys (n : Nat) : Bool := n != 1 && n != 2 && n != 14

/-- Needs DSP on. -/
def needsDsp (n : Nat) : Bool := n == 10 || n == 12

/-- The domains of banks B28-B31 (R400). -/
def linkBank (n : Nat) : Bool := decide (60 ≤ n ∧ n ≤ 63)

/-- Time from off, or from retention, to on, ns. -/
def upNs (n from_ : Nat) : Nat :=
  if 32 ≤ n then 10000
  else if from_ = 1 then (if n = 2 then 50000 else if n = 8 then 10000 else 20000)
  else match n with
    | 1 | 14 | 15 => 1000000
    | 8 => 6000000
    | 11 => 2000000
    | 12 => 50000
    | _ => 100000

/-- The units of a domain that are no ensembles, in the order of the tree. -/
def domUnits (n : Nat) : List Nat :=
  (descendants Hdr.cohort).filter fun h => !isEnsemble h && ((unitInfo h).map (·.dom)) == some n

/-- The unit an envelope record of the domain names; 0 for an SRAM bank. -/
def domHeader (n : Nat) : Nat := (domUnits n).headD 0

/-! ### Leaving on -/

/-- Registers a domain loses when it is switched off (R18). Owners, the member maps and the fault words of retired
members stay: link firmware holds them in SYS (R18, R457); COH_CFG and COH_EPOCH come from the settings store. -/
def State.domLoses (s : State) (n a : Nat) : Bool :=
  let owner := (headerAt a).any (·.2 == 0x24)
  let fault := (headerAt a).any fun p => p.2 == 0x18 && (s.unit p.1.hdr).retired
  let kept := decide (0x40022100 ≤ a ∧ a < 0x40022200) || decide (0x40023100 ≤ a ∧ a < 0x40023110) ||
    a == R.COH_CFG_COUNT.addr || a == R.COH_EPOCH_EPOCH.addr
  decide (0x40000000 ≤ a) && (pageDom a == n || (headerAt a).any (·.1.dom == n)) && !owner && !fault && !kept

/-- What a domain holds beside its registers is lost. -/
def State.domLost (s : State) (n : Nat) : State :=
  match n with
  | 1 => (s.keeperTake.tempoGo 0).setTmp fun _ => {}
  | 8 => (s.freeBuffers fun _ _ => true).forget 0x80000000 0x20000000
  | 10 => s.setCap fun c => { temp := c.temp, flatTemp := c.flatTemp }
  | 11 => { (s.freeBuffers fun _ _ => true).setRx (fun x =>
      { x with dets := [], lanes := [], frames := [], jobs := [], decFree := [], active := [] }) with
        tx := { s.tx with expects := [] } }
  | 12 => { s with tx := { s.tx with pend := [], run := none, sliceFail := 0, tuned := false, blocks := [] } }
  | 13 => { s with per := { gpioExt := s.per.gpioExt }, ev := { s.ev with timers := [], taskAt := [], sleptAt := none } }
  | 15 => s.setCoh fun _ => {}
  | 16 => { s with trace := {} }
  | _ =>
    if 3 ≤ n ∧ n ≤ 7 then s.setCore (n - 3) {}
    else if 32 ≤ n then
      let s := (s.mem.copying.filter (·.1 == n - 32)).foldl (fun s c => s.remapSwitch (c.1, c.2.1, c.2.2.1) c.2.2.2) s
      s.forget (0x10000000 + 0x20000 * (n - 32)) 0x20000
    else s

/-- SYS goes off: all but MSN, TAG and BKP is lost; the device stops until a wake (R15, R363). -/
def State.sysOff (s : State) : State :=
  let keeps := fun (n : Nat) => n == 1 || n == 14
  { clk := s.clk, bkp := s.bkp, tag := s.tag, tmp := s.tmp, pins := s.pins, phase := .off, boot := s.boot,
    regs := sdrop (fun a => !(inBkp a || a == 0x40000048 || (keeps (pageDom a) && !(headerAt a).any (·.2 == 0x24)))) s.regs,
    doms := s.doms.filter fun d => keeps d.1, per := { gpioExt := s.per.gpioExt }, upd := { reverted := s.upd.reverted },
    mem := { cells := sdrop (fun a => !inNor a) s.mem.cells }, freeCount := s.freeCount, pending := s.pending }

/-- Domain `n` leaves on or retention for `dest`: effects of R17-R19, R322, R362 and envelope condition 5. -/
def State.domLeave (s : State) (n dest : Nat) : State :=
  let was := (s.dom n).state
  let s := if dest = 0 then s.domLost n else s
  let s := s.setDom n { s.dom n with state := dest, trans := none
                                     plan := if dest = (s.dom n).target then none else (s.dom n).plan }
  let s := if dest = 0 then s.dropRegs (s.domLoses n) else s
  let s := (domUnits n).foldl (fun s h =>
    let u := s.unit h
    let s := s.setUnit h fun u => if dest = 0 then
        { retired := u.retired, faulted := u.faulted, lapseTimes := u.lapseTimes }
      else { u with draining := false, beaten := false }
    if dest = 0 ∧ u.lapsed ∧ u.cause ≠ 0 then s.envRestore u.cause 3 h else s) s
  let s := match n, dest with
    | 2, 0 => s.sysOff
    | 8, 1 => s.put R.DMC_STATUS_SELFREF true
    | 13, 1 => { s with ev := { s.ev with sleptAt := some s.bkNow }, per := { s.per with sleptNs := some s.clk.ns } }
    | 14, 0 => if s.tag.field then s else s.tagOff
    | _, _ => s
  if was = 2 ∧ n ≠ 2 ∧ !s.env.dark.contains n then
    ({ s with env := { s.env with dark := s.env.dark ++ [n] } }).envBreak 0x0A 5 (domHeader n)
  else s

/-! ### Coming on -/

/-- PER returns from retention: the timers are advanced, a ramp goes on where it stopped (R322, Table DAL-2). -/
def State.perBack (s : State) : State :=
  let bk := match s.ev.sleptAt with
    | some b => s.bkNow - b
    | none => 0
  let ns := match s.per.sleptNs with
    | some b => s.clk.ns - b
    | none => 0
  let s := { s with ev := { s.ev with sleptAt := none }, per := { s.per with sleptNs := none, dim := { s.per.dim with
    ramp := s.per.dim.ramp.map fun r => { r with at_ := r.at_ + ns } } } }
  (List.range 8).foldl (fun s n => s.timerMakeup bk n) s

/-- What comes about when domain `n` is on, from off or from retention. -/
def State.domBack (s : State) (n from_ : Nat) : State :=
  match n with
  | 1 => s.tempoStart
  | 8 => s.dramStart (from_ == 0)
  | 9 => s.updKick
  | 10 => s.setCap fun c => { c with settledAt := s.clk.ns }
  | 11 => s.decideActive
  | 12 => if s.ttb.lossPending then s.gaspDecide else s
  | 13 => if from_ = 1 then s.perBack else s
  | 14 => if s.tag.field then s else s.tagUp
  | 15 => s.cohortStart
  | _ =>
    if 3 ≤ n ∧ n ≤ 7 then
      let p := n - 3
      if (s.logicalOf .core p).isNone || s.phase != .running then s
      else if from_ = 0 then s.coreStart p
      else s.resumeUnit (Hdr.core p)
    else s

/-- Domain `n` is on: its units take work again. -/
def State.domArrive (s : State) (n : Nat) : State :=
  let d := s.dom n
  let s := s.setDom n { d with state := 2, trans := none, plan := if d.target = 2 then none else d.plan }
  let s := if s.env.dark.contains n then
      ({ s with env := { s.env with dark := s.env.dark.filter (· != n) } }).envRestore 0x0A 5 (domHeader n)
    else s
  let s := (domUnits n).foldl (fun s h => s.setUnit h fun u => { u with draining := false, progressAt := s.clk.ns }) s
  s.domBack n d.state

/-! ### Requests (R359, R360) -/

/-- State each domain is taken at: its target, or the requested one. -/
def State.targetIn (s : State) (req : List (Nat × Nat)) (n : Nat) : Nat :=
  match req.find? (·.1 == n) with
  | some r => r.2
  | none => (s.dom n).target

/-- The first domain outside the dependencies of Table ARC-4 with every domain at its target. -/
def State.offending (s : State) (req : List (Nat × Nat)) : Option Nat :=
  domNums.find? fun n => s.targetIn req n != 0 &&
    ((needsSys n && s.targetIn req 2 == 0) || (needsDsp n && s.targetIn req 11 != 2))

/-- A refused request: the cause, the first offending domain and the requester (R360). -/
def State.domRefuse (s : State) (cause n stamp : Nat) : State :=
  (((s.bump R.PWR_REFUSE_COUNT).wr R.PWR_REFUSE_CAUSE cause).wr R.PWR_REFUSE_DOMAIN n).wr R.PWR_REFUSE_STAMP stamp

/-! ### Transitions (R361) -/

/-- No transition runs and the domain is on. -/
def State.domStable (s : State) (n : Nat) : Bool := s.domOn n && (s.dom n).trans.isNone

/-- Nothing that needs domain `n` is on its way or still up. -/
def State.noDependent (s : State) (n : Nat) : Bool :=
  let gone := fun (m : Nat) => (s.dom m).trans.isNone && (s.dom m).state == 0
  if n = 11 then gone 10 && gone 12
  else if n = 2 then domNums.all fun m => m == 2 || ((s.dom m).trans.isNone &&
    ((s.dom m).state == (s.dom m).target || (m == 12 && s.tx.hot)))
  else true

/-- Work of the domain's units is stopped as by a disable; owners' enables stay (R17, R40). -/
def State.domDrain (s : State) (n : Nat) : State :=
  (domUnits n).foldl (fun s h =>
    if ((unitInfo h).map (·.boundUs)) == some 0 then s
    else
      let s := s.beginDrain h
      let s := if h = Hdr.rng then s.ring.work.foldl State.stopWork s else s.stopUnit h
      s.coreHold h) s

/-- A domain whose target lies above its state starts up once what it needs is on. -/
def State.domUp (s : State) (n : Nat) : State :=
  let d := s.dom n
  let due := d.trans.isNone && d.state != d.target && (d.state == 0 || (d.state == 1 && d.target == 2))
  let ready := (n != 2 || d.state == 1) && (!needsSys n || s.domStable 2) && (!needsDsp n || s.domStable 11) &&
    !(n == 12 && s.tx.hot)
  if due && ready then s.setDom n { d with trans := some { dest := 2, startedAt := s.clk.ns } } else s

/-- A domain whose target lies below its state: out of on its units are drained first, a bank switches at once, and
retention has no work to drain. -/
def State.domDown (s : State) (n : Nat) : State :=
  let d := s.dom n
  if d.trans.isSome || decide (d.state ≤ d.target) || !s.noDependent n then s
  else if 32 ≤ n ∨ d.state = 1 then s.domLeave n d.target
  else (s.setDom n { d with trans := some { dest := d.target, startedAt := s.clk.ns, draining := true } }).domDrain n

/-- Accepted transitions start in dependency order: downward in descending number, upward in ascending number. -/
def State.domProceed (s : State) : State := domNums.foldl State.domUp (domNums.reverse.foldl State.domDown s)

/-- A request for the states of some domains, decided whole. `plan` is the plan of an event task. -/
def State.domRequest (s : State) (req : List (Nat × Nat)) (stamp : Nat) (plan : Option Nat := none) : State :=
  let req := req.filter (·.2 != 3)
  match req.find? (·.1 == 0) with
  | some _ => s.domRefuse 3 0 stamp
  | none => match req.find? fun r => r.2 == 1 && !hasRetention r.1 with
    | some r => s.domRefuse 2 r.1 stamp
    | none => match s.offending req with
      | some n => s.domRefuse 1 n stamp
      | none =>
        (req.foldl (fun s r =>
          let d := s.dom r.1
          s.setDom r.1 { d with target := r.2, plan := if d.trans.isNone && d.state != r.2 then plan else d.plan })
          s).domProceed

/-- The targets plan `k` names (PWR_PLANk); the link banks obey agent 0x1 alone (R400). -/
def State.planRequest (s : State) (k : Nat) : List (Nat × Nat) :=
  let w := fun (f : Fld) (base : Nat) => (List.range 16).map fun i => (base + i, bitsOf (s.rd f) (2 * i) 2)
  (w (R.PWR_PLAN_0_DOMS k) 1 ++ w (R.PWR_PLAN_4_BANKLO k) 32 ++ w (R.PWR_PLAN_8_BANKHI k) 48).filter fun r => r.2 != 3 && !linkBank r.1

/-- "Apply plan k" (Table PWR-2). -/
def State.applyPlan (s : State) (k : Nat) : State := s.domRequest (s.planRequest k) 0xFF (some k)

/-- A transition started by plan `k` is still in progress. -/
def State.planBusy (s : State) (k : Nat) : Bool := s.doms.any fun d => d.2.plan == some k

/-- A write of PWR_DOMn.TARGET (R359); the link banks obey agent 0x1 alone (R400). -/
def State.domWrite (s : State) (who : Who) (n target : Nat) : State :=
  let go := fun (s : State) =>
    if n = 0 ∨ domNums.contains n then (if target = 3 then s else s.domRequest [(n, target % 4)] who.stamp) else s
  if linkBank n then s.guarded who (who.stamp == 1) Hdr.pwr fun s => if s.domOn Dom.sys then go s else s
  else s.pageWrite who Hdr.pwr go

def execDomainStateRequest (t : Elapsed) (who : Who) (n target : Nat) (s : State) : Host.Outcome State Fault Refusal :=
  .next ((s.advance t).domWrite who n target)

/-- SYS is back from retention: the plan of the wake is applied, a last gasp that waits is decided (R281, R363). -/
def State.sysBack (s : State) : State :=
  let s := if s.bkp.wake.isSome then (s.setBkp { s.bkp with wake := none }).applyPlan (s.rd R.BKP_WAKE_PLAN) else s
  if s.ttb.lossPending then s.gaspDecide else s

/-- A domain's transition ends: up when its time has passed, down when its units are drained or their bounds have run
out, in which case they lapse (R17, R361). -/
def State.domEnd (s : State) (n : Nat) : State :=
  let d := s.dom n
  match d.trans with
  | none => s
  | some tr =>
    if tr.draining then
      let held := (domUnits n).filter fun h => s.unsettled h && !(s.unit h).lapsed
      if held.any fun h => !s.drainOver h then s
      else
        let s := held.foldl State.lapseUnit s
        if (s.dom n).trans != some tr then s else (s.domLeave n tr.dest).domProceed
    else if s.clk.ns < tr.startedAt + upNs n d.state then s
    else
      let s := s.domArrive n
      (if n = 2 then s.sysBack else s).domProceed

def execDomainTransitionEnd (t : Elapsed) (n : Nat) (s : State) : Host.Outcome State Fault Refusal :=
  .next ((s.advance t).domEnd n)

/-! ### Wakes (R363) -/

/-- A wake BKP has seen is taken: SYS returns from retention, or start-up runs along the NRST path. -/
def State.bkpWake (s : State) : State :=
  match s.bkp.wake with
  | none => s
  | some _ =>
    let d := s.dom 2
    if d.state = 1 then (s.setDom 2 { d with target := 2 }).domProceed
    else if d.state = 0 ∧ s.phase = .off ∧ s.pins.rail ∧ !s.pins.nrstLow then
      let s := (s.setBkp { s.bkp with wake := none }).wr R.DEV_RESTART_CAUSE 1
      { s with pins := { s.pins with nstat := true } }.stageTwo
    else s

def execBkpWake (t : Elapsed) (s : State) : Host.Outcome State Fault Refusal := .next (s.advance t).bkpWake

/-! ### UCTL (R23, R40-R44) -/

/-- An accepted write of UCTL: it acts on the unit, or asks for the page's domain to be switched on. -/
def State.uctlWrite (s : State) (who : Who) (h v : Nat) : State :=
  if !s.domOn 2 then s
  else s.guarded who (s.owns who h) h fun s =>
    match unitInfo h with
    | none => s
    | some u => if s.domOn u.dom then s.uctlApply h v else s.domRequest [(u.dom, 2)] who.stamp

/-- UCTL with EN, DRAIN and RESET as the command says: `on` forces a bit to 1, `off` to 0. -/
def uctlValue (v on off : Nat) : Nat :=
  (List.range 3).foldl (fun r k => r + 2 ^ k * b2n ((bitOf v k || bitOf on k) && !bitOf off k)) 0

def execUnitDisable (t : Elapsed) (who : Who) (unit value : Nat) (s : State) : Host.Outcome State Fault Refusal :=
  .next ((s.advance t).uctlWrite who unit (uctlValue value 0 1))

def execUnitEnable (t : Elapsed) (who : Who) (unit value : Nat) (s : State) : Host.Outcome State Fault Refusal :=
  .next ((s.advance t).uctlWrite who unit (uctlValue value 1 0))

def execUnitDrain (t : Elapsed) (who : Who) (unit value : Nat) (s : State) : Host.Outcome State Fault Refusal :=
  .next ((s.advance t).uctlWrite who unit (uctlValue value 2 0))

def execUnitResume (t : Elapsed) (who : Who) (unit value : Nat) (s : State) : Host.Outcome State Fault Refusal :=
  .next ((s.advance t).uctlWrite who unit (uctlValue value 0 2))

def execUnitResetRequest (t : Elapsed) (who : Who) (unit value : Nat) (s : State) : Host.Outcome State Fault Refusal :=
  .next ((s.advance t).uctlWrite who unit (uctlValue value 4 0))

def execUnitPowerOnRequest (t : Elapsed) (who : Who) (unit value : Nat) (s : State) :
    Host.Outcome State Fault Refusal := .next ((s.advance t).uctlWrite who unit value)

/-! ### The main-loss trigger (R280, R281) -/

/-- The detector triggers with VMAIN at `vmain` millivolts. -/
def State.mainLoss (s : State) (vmain : Nat) : State :=
  let d := s.dom 2
  if d.state = 0 then s
  else
    let s := { s with pins := { s.pins with vmain := vmain } }.put R.TTB_LGSTAT_TRIGGERED true
    if s.ttb.gasp.isNone then s
    else if d.state = 1 then
      { s with ttb := { s.ttb with lossPending := true } }.domRequest [(2, 2), (11, 2), (12, 2)] 0xFF
    else (s.domRequest [(11, 2), (12, 2)] 0xFF).gaspDecide

def execMainLossTrigger (t : Elapsed) (vmain : Nat) (s : State) : Host.Outcome State Fault Refusal :=
  .next ((s.advance t).mainLoss vmain)

/-! ### Heat (R469) -/

/-- Too hot, and no frame on air: TXA is switched off, its target kept; what TXU holds is not run. -/
def State.thermalCut (s : State) : State :=
  if !s.tx.hot || !s.domOn Dom.txa || s.tx.list.any (·.isCommitted s.clk.edges) then s
  else
    let s := (s.tx.list.filter (·.stage != .await)).foldl (fun s x => s.cutTx x St.notRun) s
    s.domLeave Dom.txa 0

def State.thermalShutdown (s : State) : State :=
  let s := s.wr (R.UFAULT_CODE Hdr.dev) 7
  ({ s with tx := { s.tx with hot := true } }).thermalCut

def execThermalShutdown (t : Elapsed) (s : State) : Host.Outcome State Fault Refusal :=
  .next (s.advance t).thermalShutdown

/-- Cooled to 115 °C: TXA goes to its target again. -/
def State.thermalRecovery (s : State) : State :=
  if s.tx.hot then ({ s with tx := { s.tx with hot := false } }).domProceed else s

def execThermalRecovery (t : Elapsed) (s : State) : Host.Outcome State Fault Refusal :=
  .next (s.advance t).thermalRecovery

/-- TX_LAST_EDGE: the last pin edge of the transmission in its tail. -/
def execTxLastEdge (t : Elapsed) (s : State) : Host.Outcome State Fault Refusal :=
  let s := s.advance t
  match s.dueTx (fun x => x.stage == .tail && decide (x.last ≤ s.clk.edges)) (·.last) with
  | some x => .next (s.lastEdge x).thermalCut
  | none => .next s

/-- TX_LOCK_LOSS: the transmission between its earliest edge and its last chip loses lock. -/
def execTxLockLoss (t : Elapsed) (s : State) : Host.Outcome State Fault Refusal :=
  let s := s.advance t
  match s.dueTx (fun x => x.stage == .ramping || x.stage == .air) (·.start) with
  | some x => .next (s.lockLoss x).thermalCut
  | none => .next s

end Sys2Proof.Machine
end

