-- ==== Sys2Proof/Machine/Router.lean ====
section
/-!
DEFINITION. The event router of the chapter "Event router and timers": channels and groups (R304-R308), chain depth
(R309, R310), one router cycle with merges and overruns (R311-R314), event interrupt lines (R315).
-/

namespace Sys2Proof.Machine

/-- SYS cycle (5 ns). -/
def State.sysNow (s : State) : Nat := s.clk.ns / 5

/-! ### Groups (R306) -/

/-- Group enables an event of this cycle is routed under: those before the cycle's first change. -/
def State.groupsNow (s : State) : Nat :=
  match s.ev.grpWas with
  | some (c, before, _) => if c = s.sysNow then before else s.rd R.EVR_GRP_EN
  | none => s.rd R.EVR_GRP_EN

/-- Enables and disables groups; in one cycle the disable wins. -/
def State.groupChange (s : State) (en dis : Nat) : State :=
  let gone := match s.ev.grpWas with
    | some (c, _, d) => if c = s.sysNow then d else 0
    | none => 0
  let off := gone ||| dis
  let old := s.rd R.EVR_GRP_EN
  let new := (List.range 12).foldl (fun v g => v + 2 ^ g * b2n ((bitOf old g || bitOf en g) && !bitOf off g)) 0
  { s.wr R.EVR_GRP_EN new with ev := { s.ev with grpWas := some (s.sysNow, s.groupsNow, off) } }

def execGroupEnable (t : Elapsed) (who : Who) (groups : Nat) (s : State) : Host.Outcome State Fault Refusal :=
  .next ((s.advance t).pageWrite who Hdr.evr fun s => s.groupChange groups 0)

def execGroupDisable (t : Elapsed) (who : Who) (groups : Nat) (s : State) : Host.Outcome State Fault Refusal :=
  .next ((s.advance t).pageWrite who Hdr.evr fun s => s.groupChange 0 groups)

/-! ### Software sources (R308) -/

/-- A write of EVR_SWTRIG by any agent raises software sources with the writer's stamp and mode. -/
def State.softTrigger (s : State) (who : Who) (m : Nat) : State :=
  if !s.domOn Dom.sys then s
  else (List.range 16).foldl (fun s k => if bitOf m k then
    s.emitFrom { src := 0x90 + k, stamp := who.stamp, prot := who.prot } else s) (s.noteLate who Hdr.evr)

def execSoftwareTrigger (t : Elapsed) (who : Who) (sources : Nat) (s : State) : Host.Outcome State Fault Refusal :=
  .next ((s.advance t).softTrigger who sources)

/-! ### Channels (R304, R310, R314) -/

/-- Source codes of Table EVR-1 that are not reserved. -/
def sourceValid (c : Nat) : Bool := (1 ≤ c && c ≤ 0x35) || (0x40 ≤ c && c ≤ 0x8A) || (0x90 ≤ c && c ≤ 0x9F)

/-- Task codes of Tables EVR-2, GPI-2 and PWR-2 that are not reserved. -/
def taskValid (c : Nat) : Bool :=
  (1 ≤ c && c ≤ 0x0C) || (0x11 ≤ c && c ≤ 0x1C) || (0x20 ≤ c && c ≤ 0x4F) || (0x50 ≤ c && c ≤ 0x82) ||
    (0x90 ≤ c && c ≤ 0xA7)

/-- One activation on its way to a task input: the task, the channel, the event's depth and its source. -/
structure Activation where
  task : Nat
  chan : Nat
  depth : Nat
  src : Nat
  deriving DecidableEq, Repr

def State.chanSrc (s : State) (c : Nat) : Nat :=
  let v := s.rd (R.EVR_CHSRC_SRC c)
  if sourceValid v then v else 0

/-- The tasks of a channel. -/
def State.chanTasks (s : State) (c : Nat) : List Nat :=
  ((List.range 4).map fun k => bitsOf (s.rd (R.EVR_CHTSK_TASKS c)) (8 * k) 8).filter taskValid

/-- Routing of one event through the channels that name its source: the activations, and the channels that let it pass
or blocked it at their gate, for the trace. -/
def State.routeOne (s : State) (groups : Nat) (e : Event) :
    State × List Activation × List (Nat × Nat × Nat × Bool) :=
  let named := (List.range 96).filter fun c => s.chanSrc c == e.src
  if 8 < e.depth then
    let s := (s.put R.EVR_STATUS_CHAINLIM true).bump R.EVR_COUNTS_CHAINDROP
    let s := match named.find? fun c => bitOf groups (c / 8) with
      | some c => s.wr R.EVR_STATUS_LASTCH c
      | none => s
    (s.envBreak 0x04 2 Hdr.evr, [], [])
  else named.foldl (fun (acc : State × List Activation × List (Nat × Nat × Nat × Bool)) c =>
    let (s, acts, log) := acc
    if decide (0x90 ≤ e.src) && !s.ownsChannel { stamp := e.stamp, prot := e.prot, late := false } c then
      (s.denied { stamp := e.stamp, prot := e.prot, late := false }, acts, log)
    else if !bitOf groups (c / 8) then acc
    else if s.flag (R.EVR_CHSRC_GATEEN c) && (s.level (s.rd (R.EVR_CHSRC_GATE c)) == s.flag (R.EVR_CHSRC_GATEINV c)) then
      (s.bump (R.EVR_CHCNT_GATED c), acts, log ++ [(c, e.src, e.depth, true)])
    else
      (s.bump (R.EVR_CHCNT_EVENTS c),
       acts ++ (s.chanTasks c).map fun k => { task := k, chan := c, depth := e.depth, src := e.src },
       log ++ [(c, e.src, e.depth, false)])) (s, [], [])

/-! ### Task inputs (R312) -/

/-- Task inputs of the PER domain. -/
def perTask (k : Nat) : Bool := 0x20 ≤ k && k ≤ 0x82

/-- Last activation of a task input: PER cycle for a PER task, SYS cycle for an interrupt line. -/
def State.taskLast (s : State) (k : Nat) : Option Nat := (s.ev.taskAt.find? (·.1 == k)).map (·.2)

def State.taskMark (s : State) (k at_ : Nat) : State :=
  { s with ev := { s.ev with taskAt := s.ev.taskAt.filter (·.1 != k) ++ [(k, at_)] } }

/-- Is the task input busy (Tables EVR-2, GPI-2, PWR-2)? -/
def State.taskBusy (s : State) (k : Nat) : Bool :=
  if perTask k then
    !s.domOn Dom.per || s.taskLast k == some s.perNow || (k == 0x80 && s.daliBusy)
  else if 0x90 ≤ k ∧ k ≤ 0x9F then bitOf (s.rd R.EVR_IRQPEND_PEND) (k - 0x90)
  else if 0xA0 ≤ k then s.planBusy (k - 0xA0)
  else false

/-- The flag byte of task code `k` in EVR_TASKFLAG. -/
def taskFlag (k lsb width : Nat) : Fld := ⟨0x40007800 + k / 4 * 4, 8 * (k % 4) + lsb, width⟩

/-- The activations of one cycle meet their inputs: one activation each, with the largest depth, in order of first
channel; merged and overrun inputs (R312). -/
def State.mergeTasks (s : State) (acts : List Activation) :
    State × List (Nat × Nat × Nat) × List Nat × List Nat :=
  let tasks := acts.foldl (fun l (a : Activation) => if l.contains a.task then l else l ++ [a.task]) ([] : List Nat)
  tasks.foldl (fun acc k =>
    let (s, ok, merged, late) := acc
    let mine := acts.filter (·.task == k)
    let depth := mine.foldl (fun d a => max d a.depth) 0
    let chan := mine.foldl (fun c a => min c a.chan) 95
    let s := if mine.length < 2 then s
      else ((s.put (taskFlag k 6 1) true).bump (taskFlag k 0 6) (mine.length - 1)).envBreak 0x03 2 Hdr.evr
    let merged := if mine.length < 2 then merged else merged ++ [k]
    if s.taskBusy k then
      let s := (s.put (taskFlag k 7 1) true).envBreak 0x02 2 Hdr.evr
      (if 0x90 ≤ k ∧ k ≤ 0x9F then s.taskMark k s.sysNow else s, ok, merged, late ++ [k])
    else
      let s := if perTask k then s.taskMark k s.perNow else if 0x90 ≤ k ∧ k ≤ 0x9F then s.taskMark k s.sysNow else s
      (s, ok ++ [(k, depth, chan)], merged, late)) (s, [], [], [])

/-- Inserts a task in the order of its channel. -/
def insertTask (x : Nat × Nat × Nat) : List (Nat × Nat × Nat) → List (Nat × Nat × Nat)
  | [] => [x]
  | y :: l => if x.2.2 < y.2.2 then x :: y :: l else y :: insertTask x l

/-- What a task outside the groups, the timers and the pads does. -/
def State.otherTask (s : State) (k depth : Nat) : State :=
  if k = 0x80 then s.daliSend (depth + 1)
  else if k = 0x81 then s.dimApply (depth + 1)
  else if k = 0x82 then s.dimHold
  else if 0x90 ≤ k ∧ k ≤ 0x9F then s.wr R.EVR_IRQPEND_PEND (s.rd R.EVR_IRQPEND_PEND ||| 2 ^ (k - 0x90))
  else if 0xA0 ≤ k ∧ k ≤ 0xA7 then s.applyPlan (k - 0xA0)
  else s

/-- The activations of one cycle take effect: groups, timers in the order of R313, pads in the order of R336, all
others in ascending channel number (R311). -/
def State.runTasks (s : State) (l : List (Nat × Nat × Nat)) : State :=
  let find := fun (k : Nat) => (l.find? (·.1 == k)).map (·.2.1)
  let mask := fun (base : Nat) => (List.range 12).foldl (fun v g => v + 2 ^ g * b2n (find (base + g)).isSome) 0
  let s := if mask 0x01 = 0 ∧ mask 0x11 = 0 then s else s.groupChange (mask 0x01) (mask 0x11)
  let deep := fun (k : Nat) => (find k).map (· + 1)
  let s := (List.range 8).foldl (fun s n =>
    if (l.any fun x => 0x20 ≤ x.1 && x.1 ≤ 0x4F && x.1 % 8 == n) && !s.isHigh n then
      s.timerDo n (deep (0x40 + n)) (deep (0x48 + n)) (deep (0x28 + n)) (deep (0x30 + n)) (deep (0x38 + n)) (deep (0x20 + n))
    else s) s
  let s := (List.range 16).foldl (fun s n =>
    let mine := l.filter fun x => x.1 == 0x50 + n || x.1 == 0x60 + n || x.1 == 0x70 + n
    if mine.isEmpty then s
    else s.gpioTasks n (find (0x60 + n)).isSome (find (0x50 + n)).isSome (find (0x70 + n)).isSome
      (mine.foldl (fun d x => max d x.2.1) 0)) s
  let rest := (l.filter fun x => 0x80 ≤ x.1).foldl (fun r x => insertTask x r) []
  rest.foldl (fun s x => s.otherTask x.1 x.2.1) s

/-- One router cycle over the first `n` events that wait. -/
def State.route (s : State) (n : Nat) : State :=
  let es := s.ev.queue.take n
  if es.isEmpty || !s.domOn Dom.sys || (s.unit Hdr.evr).lapsed then s
  else if !s.enabled Hdr.evr then { s with ev := { s.ev with queue := s.ev.queue.drop n } }
  else if s.flag (R.UCTL_DRAIN Hdr.evr) then s
  else
    let groups := s.groupsNow
    let s := { s with ev := { s.ev with queue := s.ev.queue.drop n } }
    let (s, acts, log) := es.foldl (fun acc e =>
      let r := acc.1.routeOne groups e
      (r.1, acc.2.1 ++ r.2.1, acc.2.2 ++ r.2.2)) (s, ([] : List Activation), ([] : List (Nat × Nat × Nat × Bool)))
    let (s, ok, merged, late) := s.mergeTasks acts
    let s := log.foldl (fun s x =>
      let mine := acts.filter fun a => a.chan == x.1 && a.src == x.2.1
      let m := mine.any fun a => merged.contains a.task
      let o := mine.any fun a => late.contains a.task
      s.tracePacket 1 0x01 [BitVec.ofNat 8 x.1, BitVec.ofNat 8 x.2.1, BitVec.ofNat 8 x.2.2.1,
        BitVec.ofNat 8 (b2n m + 2 * b2n o + 4 * b2n x.2.2.2)]) s
    (s.runTasks ok).progress Hdr.evr

def execEventRoute (t : Elapsed) (n : Nat) (s : State) : Host.Outcome State Fault Refusal :=
  .next ((s.advance t).route n)

/-! ### Event interrupt lines (R315) -/

/-- Logical core line `k` is routed to (agent 0x2 + CORE). -/
def State.lineCore (s : State) (k : Nat) : Nat := bitsOf (s.rd R.EVR_IRQROUTE_ROUTE) (2 * k) 2

/-- Writing 1 clears a pending line: by the page's owner, or by the core the line is routed to. A line activated in the
same cycle stays pending. -/
def State.irqClear (s : State) (who : Who) (lines : Nat) : State :=
  let mine := (List.range 16).filter fun k => bitOf lines k && (s.owns who Hdr.evr || who.stamp == 2 + s.lineCore k)
  s.guarded who (!mine.isEmpty || s.owns who Hdr.evr) Hdr.evr fun s =>
    let keep := mine.filter fun k => s.taskLast (0x90 + k) != some s.sysNow
    if !s.domOn Dom.sys then s
    else s.wr R.EVR_IRQPEND_PEND (keep.foldl (fun v k => setBitsOf v k 1 0) (s.rd R.EVR_IRQPEND_PEND))

def execEventIrqClear (t : Elapsed) (who : Who) (lines : Nat) (s : State) : Host.Outcome State Fault Refusal :=
  .next ((s.advance t).irqClear who lines)

/-- A write of EVR_CHSRC or EVR_CHTSK: only while the channel's group is disabled (R305). -/
def State.channelWrite (s : State) (who : Who) (c a v mask : Nat) : State :=
  s.guarded who (s.ownsChannel who c) Hdr.evr fun s =>
    if bitOf s.groupsNow (c / 8) || bitOf (s.rd R.EVR_GRP_EN) (c / 8) then s.put R.EVR_STATUS_CFGERR true
    else s.writeFields a v mask

end Sys2Proof.Machine
end

