-- ==== Sys2Proof/Machine/Views.lean ====
section
/-!
DEFINITION. What a read of a unit register shows: the common headers (R30, R33), the child tables, and page by page
the fields that are computed from the state. Everything else is the word last written by software or by the device.
-/

namespace Sys2Proof.Machine

/-! ### Headers and child tables (Tables UNT-1 to UNT-4) -/

/-- Children of an ensemble as its table lists them: active ones in logical order, spares, retired ones. -/
def State.childList (s : State) (h : Nat) : List Nat :=
  match arrayOf h with
  | some a =>
    let active := ((List.range a.logical).filter (s.inService a)).map (s.physOf a)
    let spare := s.spares a
    let rest := (List.range a.physical).filter fun p => !active.contains p && !spare.contains p
    (active ++ spare ++ rest).map a.hdr
  | none =>
    if h = Hdr.cohort then (List.range (s.rd R.COH_CFG_COUNT)).map fun m => 0x61000000 + 0x4000000 * m
    else childrenOf h

/-- Offset in its page of an ensemble's child table. -/
def childOffset (h : Nat) : Nat :=
  if h = Hdr.cohort then 0x140
  else if (arrayOf h).isSome || h == Hdr.ser then 0x400
  else 0x400 + 4 * (Config.childTable h).toNat

/-- The ensembles whose child table lies in the page at `base`. -/
def tablesIn (base : Nat) : List Nat :=
  if base = Hdr.dev then [Hdr.dev, Hdr.rad, Hdr.lke, Hdr.ctl, Hdr.tme, Hdr.mem, Hdr.pre, Hdr.svc]
  else if base = Hdr.coh then [Hdr.cohort]
  else if (arrayOf base).isSome || base == Hdr.ser then [base]
  else []

/-- The child table word at `a`, if `a` lies in a child table. -/
def State.childWord (s : State) (a : Nat) : Option Nat :=
  let base := pageBase a
  (tablesIn base).findSome? fun h =>
    let off := base + childOffset h
    if off ≤ a then (s.childList h)[(a - off) / 4]? else none

/-- A word of a common header; engines, cores and the cohort ensemble show their page's owner. -/
def State.headerWord (s : State) (u : UnitInfo) (off : Nat) : Nat :=
  let stored := (s.word (u.hdr + off)).toNat
  match off with
  | 0x00 => 65536 * u.type + 256 * u.inst + 1
  | 0x04 => 65536 * min 256 (s.inflight u.hdr) + State.ustate 4 s u.hdr
  | 0x0C => if u.boundUs = 0 then 2 ^ 32 - 1 else stored
  | 0x14 => 65536 * s.gen.pending + s.gen.active
  | 0x1C => if u.hdr = Hdr.dev ∧ s.rd R.COH_CFG_COUNT < 2 then 0 else u.parent
  | 0x20 => if isEnsemble u.hdr || u.hdr == Hdr.cohort then 65536 * (s.childList u.hdr).length + childOffset u.hdr else 0
  | 0x24 => (s.word (ownerHeader u.hdr + 0x24)).toNat
  | _ => stored

/-! ### Pages -/

/-- The word at `a` with some of its fields replaced. -/
def State.shown (s : State) (a : Nat) (l : List (Fld × Nat)) : Nat :=
  l.foldl (fun v p => setBitsOf v p.1.lsb p.1.width p.2) (s.word a).toNat

/-- DEV and PWR. -/
def State.viewDev (s : State) (a : Nat) : Nat :=
  if 0x40000800 ≤ a ∧ a < 0x40000900 then s.env.log.num (a - 0x40000800) 4 else (s.word a).toNat

def State.viewPwr (s : State) (a : Nat) : Nat :=
  if a = R.PWR_STATUS_BUSY.addr then
    4 * b2n (s.domOn Dom.dram && s.flag R.DMC_STATUS_READY) + 2 * b2n s.pins.rail + b2n (s.doms.any (·.2.trans.isSome))
  else if 0x40001100 ≤ a ∧ a < 0x40001200 then
    let n := (a - 0x40001100) / 4
    if domNums.contains n then
      let d := s.dom n
      256 * b2n d.trans.isSome + 16 * d.state + d.target
    else 0
  else (s.word a).toNat

def State.viewBkp (s : State) (a : Nat) : Nat :=
  if a = R.BKP_STATUS_COLD.addr then s.shown a [(R.BKP_STATUS_KEEPVALID, b2n s.bkp.keeper.valid)]
  else if a = R.BKP_CALDATE_DAY.addr then dateWord s.bkp.calLatch
  else if a = R.BKP_CALTIME_SEC.addr then timeWord s.bkp.calLatch
  else (s.word a).toNat

def State.viewRng (s : State) (a : Nat) : Nat :=
  if a = R.RNG_STATUS_CREDSUM.addr then
    65536 * ((List.range 16).map s.inFlight).sum + s.creditSum
  else
    let n := (a - 0x40005100) / 0x40
    if a = (R.RNG_STAT_INFLIGHT n).addr ∧ n < 16 then
      s.shown a [(R.RNG_STAT_DRAIN_DONE n, b2n (s.ringDrained n)), (R.RNG_STAT_CQFULL n, b2n (s.cqFull n)),
        (R.RNG_STAT_HELD n, s.held n), (R.RNG_STAT_MEMOFF n, b2n (s.ringMemOff n)), (R.RNG_STAT_INFLIGHT n, s.inFlight n)]
    else (s.word a).toNat

def State.viewMbx (s : State) (a : Nat) : Nat :=
  let r := (a - 0x40006400) / 0x40
  if 0x40006400 ≤ a ∧ r < 7 ∧ a = (R.MBX_RPEND_PEND r).addr then s.mbxPend r else (s.word a).toNat

def State.viewCap (s : State) (a : Nat) : Nat :=
  if a = R.CAP_STATUS_READY.addr then
    s.shown a [(R.CAP_STATUS_REC, b2n s.cap.record.isSome), (R.CAP_STATUS_BLANK, b2n s.blankNow),
      (R.CAP_STATUS_CALRUN, b2n (!s.cap.pend.isEmpty || s.cap.run.isSome))]
  else if a = R.CAP_CALSTAT_SLICES.addr then (s.word a).toNat / 65536 * 65536 + s.capPend % 65536
  else if a = R.CAP_WINDOW_CENTRE.addr then
    (if Config.bandA then 2 ^ 31 + 915000 else 869500)
  else (s.word a).toNat

def State.viewHnt (s : State) (a : Nat) : Nat :=
  if a = R.HNT_STATUS_ACTIVE.addr then s.hntStatus
  else if a = R.HNT_ACK_ACTIVE.addr then s.shown a [(R.HNT_ACK_ACTIVE, s.tx.expects.length)]
  else (s.word a).toNat

def State.viewLns (s : State) (a : Nat) : Nat :=
  if a = R.LNS_STATUS_BUSY.addr then s.lnsStatus
  else if a = R.LNS_BUSY0_BUSY.addr then s.lnsBusy 0 false
  else if a = R.LNS_BUSY1_BUSY.addr then s.lnsBusy 1 false
  else if a = R.LNS_PAY0_PAY.addr then s.lnsBusy 0 true
  else if a = R.LNS_PAY1_PAY.addr then s.lnsBusy 1 true
  else (s.word a).toNat

def State.viewLane (s : State) (a : Nat) : Nat :=
  let (st, det, syms) := s.laneState ((a - 0x40100000) / 0x100)
  match a % 0x100 with
  | 0x40 => st
  | 0x44 => det
  | 0x48 => syms
  | _ => (s.word a).toNat

def State.viewDec (s : State) (a : Nat) : Nat :=
  if a = R.DEC_STATUS_QUEUE.addr then s.decStatus
  else if a = R.DEC_SBSTAT_KEPT.addr then s.sbStat
  else (s.word a).toNat

def State.viewTxu (s : State) (a : Nat) : Nat :=
  if a = R.TXU_STATUS_PHASE.addr then s.txuStatus
  else if a = R.TXU_PINS_PAEN.addr then s.txPins
  else (s.word a).toNat

/-- SYN: status, the table windows of Table SYN-6 and the window on the calibration store. -/
def State.viewSyn (s : State) (a : Nat) : Nat :=
  if a = R.SYN_STATUS_LOCK.addr then s.synStatus
  else if a = R.SYN_CALSTAT_SLICES.addr then
    s.shown a [(R.SYN_CALSTAT_PEND, s.synPend / 4096), (R.SYN_CALSTAT_SLICES, s.synPend % 4096)]
  else if a = R.SYN_FREQ_HZ.addr then s.synFreq
  else if 0x40025200 ≤ a ∧ a < 0x40025300 then s.tab.act.power.num (a - 0x40025200) 4
  else if 0x40025300 ≤ a ∧ a < 0x40025400 then s.tab.ina.power.num (a - 0x40025300) 4
  else if 0x40025400 ≤ a ∧ a < 0x40025480 then s.tab.act.sched.num (a - 0x40025400) 4
  else if 0x40025480 ≤ a ∧ a < 0x40025500 then s.tab.ina.sched.num (a - 0x40025480) 4
  else if 0x40025800 ≤ a then
    let i := (a - 0x40025800) / 8
    if a % 8 < 4 then s.calRec i % 2 ^ 32 else s.calRec i / 2 ^ 32 % 2 ^ 32
  else (s.word a).toNat

/-- Context shown in the LNK window; groups are 512 + g. -/
def State.windowCtx (s : State) : Nat :=
  let k := s.rd R.LNK_CTXSEL_CTX
  if s.flag R.LNK_CTXSEL_GROUP then 512 + k % 16 else k

def State.viewLnk (s : State) (a : Nat) : Nat :=
  if a = R.LNK_STATUS_EXHAUST.addr then s.lnkStatus
  else if a = R.LNK_LONG_LO_LONG.addr then Config.longAddress.toNat % 2 ^ 32
  else if a = R.LNK_LONG_HI_LONG.addr then Config.longAddress.toNat / 2 ^ 32
  else if 0x40026100 ≤ a ∧ a < 0x40026180 then
    (if s.windowCtx < 528 then s.ctxNum s.windowCtx (a - 0x40026100) 4 else 0)
  else (s.word a).toNat

def State.viewTtb (s : State) (a : Nat) : Nat :=
  if a = R.TTB_STATUS_RUNNING.addr then s.ttbStatus
  else if a = R.TTB_LGSTAT_ARMED.addr then
    let g := s.gaspStatus
    s.shown a [(R.TTB_LGSTAT_AIR, g / 65536), (R.TTB_LGSTAT_GUAR, g / 2 % 2), (R.TTB_LGSTAT_ARMED, g % 2)]
  else if a = R.TTB_LGCTR_CTR.addr then (s.ttb.gasp.map (·.ctr)).getD 0
  else if 0x40027100 ≤ a ∧ a < 0x40027180 then
    let u := s.ruleUse ((a - 0x40027100) / 8)
    (if a % 8 = 0 then u.frames else u.acks) / 64 % 2 ^ 32
  else (s.word a).toNat

def State.viewCip (s : State) (a : Nat) : Nat :=
  let opens := fun (base : Nat) => (List.range 32).foldl (fun v k => v + 2 ^ k * b2n (s.jctx (base + k)).open_) 0
  if a = R.CIP_STATUS_LOADED.addr then
    let (sp, n) := s.arrayCounts .cip
    2 ^ 24 * sp + 65536 * n + s.cip.slots.length
  else if a = R.CIP_KEYINFO_KCV.addr then s.keyInfo
  else if a = R.CIP_JCTX0_OPEN.addr then opens 0
  else if a = R.CIP_JCTX1_OPEN.addr then opens 32
  else (s.word a).toNat

/-- SUPPLY of TAG_STATUS: the page is readable only while main supplies the domain. -/
def State.viewTag (s : State) (a : Nat) : Nat :=
  if a = R.TAG_STATUS_FIELD.addr then
    256 * (if s.tag.field then 2 else 0) + 64 * b2n s.tag.locked + 32 * b2n s.homereq + 8 * b2n s.tagHeld +
      4 * b2n s.tagExact + 2 * b2n s.tag.secured + b2n s.tag.field
  else if a = R.TAG_UID_LO_UID.addr then tagUid % 2 ^ 32
  else if a = R.TAG_UID_HI_UID.addr then tagUid / 2 ^ 32
  else if a = R.TAG_EXCH_F2H.addr then
    65536 * (if s.h2f then s.h2fLen else 0) + 256 * (if s.f2h then s.f2hLen else 0) + 2 * b2n s.h2f + b2n s.f2h
  else (s.word a).toNat

def State.viewDal (s : State) (a : Nat) : Nat :=
  if a = R.DAL_STATUS_BUSY.addr then
    s.shown a [(R.DAL_STATUS_QUEUE, s.per.dali.queue.length), (R.DAL_STATUS_BUSY, b2n s.daliBusy)]
  else if a = R.DAL_RXS_LEN.addr then (s.word a).toNat / 256 * 256 + s.daliRxs
  else (s.word a).toNat

def State.viewDim (s : State) (a : Nat) : Nat :=
  if a = R.DIM_OUT_LEVEL.addr then 65536 * b2n s.per.dim.ramp.isSome + s.dimLevel else (s.word a).toNat

/-- FIFO levels of a serial port's STAT word. -/
def State.portStat (s : State) (p a : Nat) : Nat :=
  s.shown a [(⟨a, 8, 5⟩, (s.port p).tx.length), (⟨a, 0, 5⟩, (s.port p).rx.length)]

/-- UART, SPI and I2C: port and offset within it. -/
def serialPort (a : Nat) : Nat × Nat := ((a % 0x1000 - 0x100) / 0x700, (a % 0x1000 - 0x100) % 0x700)

def State.viewSerial (s : State) (kind a : Nat) : Nat :=
  let (p, off) := serialPort a
  if 0x100 ≤ a % 0x1000 ∧ p < 2 ∧ off = 0x0C then s.portStat (2 * kind + p) a else (s.word a).toNat

def State.viewGpi (s : State) (a : Nat) : Nat :=
  if a = R.GPI_IN_IN.addr then s.padWord else (s.word a).toNat

/-- Whole minutes left in the trial window. -/
def State.trialLeft (s : State) : Nat :=
  match s.upd.trialEnd with
  | some e => if s.updStage = 3 then min 65535 ((e - s.clk.ns) / 60000000000) else 0
  | none => 0

def State.viewUpd (s : State) (a : Nat) : Nat :=
  if a = R.UPD_TRIAL_LEFT.addr then s.shown a [(R.UPD_TRIAL_LEFT, s.trialLeft)]
  else if a = R.UPD_KEYS_PROG.addr then 16 * Config.fuseRevoked.toNat + Config.fuseProg.toNat
  else (s.word a).toNat

/-- The inspector's counters show their latched high words. -/
def State.viewIns (s : State) (a : Nat) : Nat :=
  if 0x40045800 ≤ a ∧ a % 8 = 4 then s.counterHigh ((a - 0x40045800) / 8) else (s.word a).toNat

def State.viewCpu (s : State) (a : Nat) : Nat :=
  if a = R.CPU_STATUS_ON.addr then
    let (sp, n) := s.arrayCounts .core
    let bits := fun (f : Nat → Bool) => (List.range 4).foldl (fun v c => v + 2 ^ c * b2n (s.inService .core c && f (s.physOf .core c))) 0
    2 ^ 24 * sp + 65536 * n + 256 * bits (fun p => (s.core p).waiting) + bits fun p => s.domOn (Dom.app p)
  else (s.word a).toNat

/-- The value of a register that a read does not change. -/
def State.pageView (s : State) (a : Nat) : Nat :=
  if 0x40100000 ≤ a then s.viewLane a
  else if 0x40010000 ≤ a ∧ a < 0x40018000 then (s.word a).toNat
  else match a / 0x1000 with
  | 0x40000 => s.viewDev a
  | 0x40001 => s.viewPwr a
  | 0x40002 => s.viewBkp a
  | 0x40005 => s.viewRng a
  | 0x40006 => s.viewMbx a
  | 0x40020 => s.viewCap a
  | 0x40021 => s.viewHnt a
  | 0x40022 => s.viewLns a
  | 0x40023 => s.viewDec a
  | 0x40024 => s.viewTxu a
  | 0x40025 => s.viewSyn a
  | 0x40026 => s.viewLnk a
  | 0x40027 => s.viewTtb a
  | 0x40028 => s.viewCip a
  | 0x40029 => s.viewTag a
  | 0x4002A => s.viewDal a
  | 0x4002B => s.viewDim a
  | 0x4002C => s.viewSerial 0 a
  | 0x4002D => s.viewSerial 1 a
  | 0x4002E => s.viewSerial 2 a
  | 0x40047 => s.viewGpi a
  | 0x40044 => s.viewUpd a
  | 0x40045 => s.viewIns a
  | 0x40046 => s.viewCpu a
  | _ => (s.word a).toNat

/-- Bits of the word at `a` that a read shows: write-only fields read zero (Table DEV-4). -/
def readMask (a : Nat) : Nat :=
  (fieldsAt a).foldl (fun m r => if r.acc = .wo ∨ r.acc = .w1s ∧ r.addr ≠ R.DMC_TRAIN_REQ.addr then m else m ||| (2 ^ r.width - 1) * 2 ^ r.lsb) 0

/-- Is the page that holds `a` readable beyond its header (R23)? -/
def State.pageOn (s : State) (a : Nat) : Bool := s.domOn (pageDom a)

/-- The word a read of `a` shows; a page whose domain is not on shows its header alone (R22, R23). -/
def State.viewWord (s : State) (a : Nat) : Nat :=
  let inBody := decide (0x40 ≤ a - pageBase a)
  if inBody && !s.pageOn a then 0
  else match headerAt a with
  | some (u, off) => s.headerWord u off
  | none => match s.childWord a with
    | some v => v
    | none => s.pageView a &&& readMask a

end Sys2Proof.Machine
end

