-- ==== Sys2Proof/Machine/Bus.lean ====
section
/-!
DEFINITION. Reads and writes of unit registers over the bus: access codes (R2), the header rules (R22, R23, R30), the
registers whose reads or writes act, and the two commands for a register without a command of its own.
-/

namespace Sys2Proof.Machine

/-! ### Reads -/

/-- Clears the fields of code RC of the word at `a` (Table DEV-4). -/
def State.readClear (s : State) (a : Nat) : State :=
  (fieldsAt a).foldl (fun s r => if r.acc = .rc then s.wr ⟨a, r.lsb, r.width⟩ 0 else s) s

/-- A read that draws an analogue or running quantity in field `f`. -/
def State.drawField (s : State) (a : Nat) (fs : List Fld) : State × Nat :=
  fs.foldl (fun r f => (r.1.free.2, setBitsOf r.2 f.lsb f.width r.1.free.1)) (s, s.viewWord a)

/-- A timer register. -/
def State.readTimer (s : State) (a : Nat) : State × Nat :=
  let n := (a - 0x40010000) / 0x1000
  match a % 0x1000 with
  | 0x44 => s.timerCountRead n
  | 0x50 => s.captureRead n false
  | 0x54 => s.captureRead n true
  | _ => (s, s.viewWord a)

/-- A serial port's data register. -/
def State.readSerial (s : State) (kind a : Nat) : State × Nat :=
  let (p, off) := serialPort a
  let s := if kind = 0 ∧ p < 2 then s.uartDrain p else s
  if off = 0x08 ∧ p < 2 then
    let (s, v) := s.fifoRead (2 * kind + p)
    (s, if kind = 0 then v else v % 256)
  else (s, s.viewWord a)

/-- Reads that latch, remove or draw; `none` for a plain register. -/
def State.readSpecial (s : State) (who : Who) (a : Nat) : Option (State × Nat) :=
  if 0x40010000 ≤ a ∧ a < 0x40018000 then some (s.readTimer a)
  else match a / 0x1000 with
  | 0x40000 =>
    if 0x40000800 ≤ a ∧ a < 0x40000900 then
      some ({ s with env := { s.env with unread := setBitsOf s.env.unread ((a - 0x40000800) / 16) 1 0 } }, s.viewWord a)
    else none
  | 0x40001 => if a = R.PWR_VMAIN_NOW.addr then
      let r := s.free
      some (r.2, r.1 % 65536 * 65536 + s.pins.vmain / 10 % 65536) else none
  | 0x40002 => if a = R.BKP_CALSUB_SUB.addr then some s.calendarLatch else none
  | 0x40003 =>
    if a = R.TMP_LOCAL_LO_STEP.addr then some (s.tempoLatch false)
    else if a = R.TMP_ALIGN_LO_STEP.addr then some (s.tempoLatch true)
    else none
  | 0x40006 =>
    let r := (a - 0x40006400) / 0x40
    if 0x40006400 ≤ a ∧ r < 7 ∧ a = (R.MBX_RLO_PTR r).addr then some (s.mbxLatch who r)
    else if 0x40006400 ≤ a ∧ r < 7 ∧ a = (R.MBX_RHI_NOTICE_H r).addr then some (s.mbxRemove who r)
    else none
  | 0x40020 =>
    if a = R.CAP_STATUS_READY.addr then some (s.drawField a [R.CAP_STATUS_DESENSE])
    else if a = R.CAP_PEAK_LEVEL.addr then some (s.drawField a [R.CAP_PEAK_CYCLE, R.CAP_PEAK_LEVEL])
    else none
  | 0x4002A =>
    if a = R.DAL_STATUS_BUSY.addr then some (s.drawField a [R.DAL_STATUS_PSULIM])
    else if a = R.DAL_RES_STATUS.addr then some s.daliResultRead
    else if a = R.DAL_RXF_DATA.addr then some s.daliReceiveRead
    else none
  | 0x4002B => if a = R.DIM_MEAS_VOLT.addr then
      some (s.drawField a [R.DIM_MEAS_OPEN, R.DIM_MEAS_CURR, R.DIM_MEAS_VOLT]) else none
  | 0x4002C => some (s.readSerial 0 a)
  | 0x4002D => some (s.readSerial 1 a)
  | 0x4002E => some (s.readSerial 2 a)
  | 0x40045 => if 0x40045800 ≤ a ∧ a % 8 = 0 then some (s.counterLatch ((a - 0x40045800) / 8)) else none
  | _ => none

/-- A read of the register word at `a` by an agent (R2, R22, R23). -/
def State.regRead (s : State) (who : Who) (a : Nat) : State × Nat :=
  let body := decide (0x40 ≤ a - pageBase a)
  let s := if body && s.pageOn a then s.noteLate who (pageBase a) else s
  if !body || !s.pageOn a then (s, s.viewWord a)
  else match s.readSpecial who a with
  | some r => r
  | none => (s.readClear a, s.viewWord a)

/-! ### Writes -/

/-- What a write of `v` under byte lanes `mask` asks for: plain fields keep the bits that are not written, RSV
bits are ignored (R3). -/
def State.merged (s : State) (a v mask : Nat) : Nat :=
  (fieldsAt a).foldl (fun w r =>
    let m := bitsOf mask r.lsb r.width
    let x := bitsOf v r.lsb r.width &&& m
    let old := s.rd ⟨a, r.lsb, r.width⟩
    w + 2 ^ r.lsb * (if r.acc = .rw then old - (old &&& m) + x else x)) 0

/-- A plain register under its page's owner. -/
def State.plainWrite (s : State) (who : Who) (a v mask : Nat) : State :=
  s.pageWrite who (pageBase a) fun s => s.writeFields a v mask

/-- The write acts as `f` says, under its page's owner. -/
def State.actWrite (s : State) (who : Who) (a : Nat) (f : State → State) : State := s.pageWrite who (pageBase a) f

def State.writeBkp (s : State) (who : Who) (a w : Nat) : State :=
  if a = R.BKP_CTL_COLD.addr then (if bitOf w 0 then s.forceCold who else s.actWrite who a id)
  else if a = R.BKP_CALCMD_CMD.addr then
    match bitsOf w 30 2 with
    | 1 => s.bkpWrite who 0 0 State.calendarSet
    | 2 => s.bkpWrite who 0 0 fun s => s.calendarAdjust (bitsOf w 0 24)
    | _ => s.bkpWrite who 0 0 id
  else if 0x4000210C ≤ a ∧ a < 0x40002140 ∧ a % 16 = 12 then
    s.bkpWrite who 0 0 fun s => s.alarmCtl ((a - 0x40002100) / 16) w
  else s.bkpWrite who a w id

def State.writeTmp (s : State) (who : Who) (a v mask w : Nat) : State :=
  if a = R.TMP_CFG_NOM60.addr then s.actWrite who a fun s => s.tempoCfg w
  else if a = R.TMP_SETCYC_LO_CYC_L.addr then s.actWrite who a fun s => s.wr R.TMP_SETCYC_LO_CYC_L w
  else if a = R.TMP_SETCYC_HI_CYC_H.addr then s.actWrite who a fun s => s.setCycle w
  else if 0x4000310C ≤ a ∧ a < 0x40003200 ∧ a % 16 = 12 then
    s.actWrite who a fun s => s.tempoAlarmCtl ((a - 0x40003100) / 16) w
  else s.plainWrite who a v mask

def State.writeRng (s : State) (who : Who) (a v mask w : Nat) : State :=
  let n := (a - 0x40005100) / 0x40
  if a < 0x40005100 ∨ 16 ≤ n then s.plainWrite who a v mask
  else match (a - 0x40005100) % 0x40 with
  | 0x00 => s.guarded who (s.ownsRing who n) Hdr.rng fun s => s.writeRingBase n (R.RNG_SQBASE_ADDR n) w
  | 0x04 => s.guarded who (s.ownsRing who n) Hdr.rng fun s => s.writeRingBase n (R.RNG_CQBASE_ADDR n) w
  | 0x08 => s.ringCfg who n w
  | 0x10 => s.doorbell who n w
  | 0x1C => s.writeCqCons who n w
  | 0x28 => s.serverReturn who n (bitsOf w 24 8) (bitsOf w 0 16)
  | 0x2C => s.serverResult who n w
  | _ => s.guarded who (s.ownsRing who n) Hdr.rng fun s => s.writeFields a v mask

def State.writeMbx (s : State) (who : Who) (a v mask w : Nat) : State :=
  if a < 0x40006100 then s.plainWrite who a v mask
  else if a < 0x400061E0 then
    let n := (a - 0x40006100) / 0x20
    if a % 0x20 = 4 then s.mbxSend who n w
    else s.guarded who (who.stamp == n) Hdr.mbx fun s => s.writeFields a v mask
  else s.guarded who (decide (0x40006400 ≤ a) && who.stamp == (a - 0x40006400) / 0x40) Hdr.mbx fun s => s.writeFields a v mask

def State.writeEvr (s : State) (who : Who) (a v mask w : Nat) : State :=
  if a = R.EVR_GRPSET_SET.addr then s.actWrite who a fun s => s.groupChange w 0
  else if a = R.EVR_GRPCLR_CLR.addr then s.actWrite who a fun s => s.groupChange 0 w
  else if a = R.EVR_SWTRIG_RAISE.addr then s.softTrigger who w
  else if a = R.EVR_IRQPEND_PEND.addr then s.irqClear who w
  else if 0x40007100 ≤ a ∧ a < 0x40007700 ∧ a % 16 < 8 then s.channelWrite who ((a - 0x40007100) / 16) a v mask
  else s.plainWrite who a v mask

def State.writeTmr (s : State) (who : Who) (a v mask w : Nat) : State :=
  let n := (a - 0x40010000) / 0x1000
  match a % 0x1000 with
  | 0x40 => s.timerWrite who n fun s => s.timerCtlWrite n w
  | 0x44 => s.timerWrite who n fun s => s.timerCountWrite n w
  | 0x48 => s.timerWrite who n fun s => s.timerPeriodWrite n w
  | 0x4C => s.timerWrite who n fun s => s.timerCmpWrite n w
  | 0x60 => s.timerWrite who n fun s => s.timerCmd n w
  | 0x64 => s.timerWrite who n fun s => s.timerExtWrite n w
  | _ => s.timerWrite who n fun s => s.writeFields a v mask

def State.writeCap (s : State) (who : Who) (a v mask w : Nat) : State :=
  if a = R.CAP_CTL_FIXED.addr then s.actWrite who a fun s => s.capCtl w
  else if a = R.CAP_CALREQ_ITEMS.addr then s.actWrite who a fun s => s.capRequest w
  else if a = R.CAP_CALINV_INDEX.addr then s.actWrite who a fun s => s.calClear 62 w
  else s.plainWrite who a v mask

/-- A write of an inactive table word; held while the inactive bank is not free (R45). -/
def State.writeTable (s : State) (f : Bank → Bank) : State :=
  if s.gen.pending = s.gen.active then { s with tab := { s.tab with ina := f s.tab.ina } } else s

def State.writeSyn (s : State) (who : Who) (a v mask : Nat) : State :=
  if a = R.SYN_CALREQ_ITEMS.addr then s.actWrite who a fun s => s.synRequest (v &&& mask)
  else if a = R.SYN_CALINV_INDEX.addr then s.actWrite who a fun s => s.calClear 63 (v &&& mask)
  else if 0x40025300 ≤ a ∧ a < 0x40025400 then s.actWrite who a fun s =>
    let old := s.tab.ina.power.num (a - 0x40025300) 4
    s.writeTable fun b => { b with power := b.power.setNum (a - 0x40025300) 4 (old - (old &&& mask) + (v &&& mask)) }
  else if 0x40025480 ≤ a ∧ a < 0x40025500 then s.actWrite who a fun s =>
    let old := s.tab.ina.sched.num (a - 0x40025480) 4
    s.writeTable fun b => { b with sched := b.sched.setNum (a - 0x40025480) 4 (old - (old &&& mask) + (v &&& mask)) }
  else s.plainWrite who a v mask

/-- The key registers take writes from the page's owner in protected mode only (R287). -/
def State.writeCip (s : State) (who : Who) (a v mask w : Nat) : State :=
  let guard := fun (f : State → State) => s.guarded who (s.owns who Hdr.cip && who.prot) Hdr.cip f
  if a = R.CIP_KEYCMD_CMD.addr then s.keyCommand who w
  else if a = R.CIP_KEYSEL_SLOT.addr then guard fun s => s.writeFields a v mask
  else if 0x40028060 ≤ a ∧ a < 0x40028080 then guard fun s =>
    let old := (s.word a).toNat
    s.setWord a (BitVec.ofNat 32 (old - (old &&& mask) + (v &&& mask)))
  else s.plainWrite who a v mask

def State.writeDal (s : State) (who : Who) (a v mask w : Nat) : State :=
  if a = R.DAL_TXC_LEN.addr then s.actWrite who a fun s => s.daliEnqueue w
  else if a = R.DAL_CFG_PSU.addr then s.actWrite who a fun s => (s.writeFields a v mask).daliSupply
  else s.plainWrite who a v mask

def State.writeSerial (s : State) (who : Who) (kind a v mask w : Nat) : State :=
  let (p, off) := serialPort a
  if a % 0x1000 < 0x100 ∨ 2 ≤ p then s.plainWrite who a v mask
  else match off, kind with
  | 0x08, 0 => s.actWrite who a fun s => s.uartWrite p (BitVec.ofNat 8 w)
  | 0x08, _ => s.actWrite who a fun s => s.fifoWrite (2 * kind + p) w
  | 0x04, 1 => s.actWrite who a fun s => s.spiGo p (bitsOf w 0 16)
  | 0x04, 2 => s.actWrite who a fun s => s.iicGo p w
  | _, 0 => s.actWrite who a fun s => (s.uartDrain p).writeFields a v mask
  | _, _ => s.plainWrite who a v mask

/-- GPI: levels, and pad functions, with the edges a change makes. -/
def State.writeGpi (s : State) (who : Who) (a v mask : Nat) : State :=
  if a = R.GPI_SET_SET.addr then s.actWrite who a fun s => s.gpioSet (v &&& mask)
  else if a = R.GPI_CLR_CLR.addr then s.actWrite who a fun s => s.gpioClear (v &&& mask)
  else if a = R.GPI_TGL_TGL.addr then s.actWrite who a fun s => s.gpioToggle (v &&& mask)
  else s.actWrite who a fun s => s.withPads 0 fun s => s.writeFields a v mask

/-- SRM: bank attributes need protected mode, those of the link banks are fixed (R400). -/
def State.writeSrm (s : State) (who : Who) (a v mask : Nat) : State :=
  if a = R.SRM_PROT0_ATTR.addr ∨ a = R.SRM_PROT1_ATTR.addr then
    s.guarded who (s.owns who Hdr.srm && who.prot) Hdr.srm fun s =>
      let s := s.writeFields a v mask
      if a = R.SRM_PROT1_ATTR.addr then s.wr ⟨a, 24, 8⟩ 0xAA else s
  else s.plainWrite who a v mask

/-- A heartbeat of logical core `c`: only its own core writes it (R397). -/
def State.heartbeat (s : State) (who : Who) (c : Nat) : State :=
  s.guarded who (who.stamp == 2 + c) Hdr.cpu fun s =>
    if s.inService .core c then
      let h := Hdr.core (s.physOf .core c)
      (s.setUnit h fun u => { u with beaten := true }).progress h
    else s

def State.writeCpu (s : State) (who : Who) (a v mask : Nat) : State :=
  if 0x40046080 ≤ a ∧ a < 0x40046090 then s.heartbeat who ((a - 0x40046080) / 4) else s.plainWrite who a v mask

/-- A write of a header word: UCTL and ULAPSE alone take it (R23, R30). -/
def State.writeHeader (s : State) (who : Who) (u : UnitInfo) (off v mask : Nat) : State :=
  match off with
  | 0x08 =>
    let old := (s.word (u.hdr + 8)).toNat % 4
    s.uctlWrite who u.hdr (old - (old &&& mask) + (v &&& mask) % 8)
  | 0x0C => s.guarded who (s.owns who u.hdr) u.hdr fun s =>
      if u.boundUs = 0 || !s.pageOn u.hdr then s
      else
        let old := (s.word (u.hdr + 12)).toNat
        s.setWord (u.hdr + 12) (BitVec.ofNat 32 (old - (old &&& mask) + (v &&& mask)))
  | _ => if s.owns who u.hdr then s else s.denied who

/-- A write of the register word at `a` under byte lanes `mask` by an agent (R2, R22, R23, R30). -/
def State.regWrite (s : State) (who : Who) (a v mask : Nat) : State :=
  match headerAt a with
  | some (u, off) => s.writeHeader who u off v mask
  | none =>
    let w := s.merged a v mask
    if 0x40100000 ≤ a then s.plainWrite who a v mask
    else if 0x40010000 ≤ a ∧ a < 0x40018000 then s.writeTmr who a v mask w
    else match a / 0x1000 with
    | 0x40001 => if 0x40001100 ≤ a ∧ a < 0x40001200
      then s.domWrite who ((a - 0x40001100) / 4) (if bitOf mask 0 then v % 4 else 3)
      else s.plainWrite who a v mask
    | 0x40002 => s.writeBkp who a w
    | 0x40003 => s.writeTmp who a v mask w
    | 0x40004 => if a = R.MSN_CTL_EN.addr then s.actWrite who a fun s => s.msnCtl w else s.plainWrite who a v mask
    | 0x40005 => s.writeRng who a v mask w
    | 0x40006 => s.writeMbx who a v mask w
    | 0x40007 => s.writeEvr who a v mask w
    | 0x40020 => s.writeCap who a v mask w
    | 0x40023 => if a = R.DEC_SBBASE_EN.addr then s.actWrite who a fun s => s.writeSbBase w else s.plainWrite who a v mask
    | 0x40025 => s.writeSyn who a v mask
    | 0x40027 => if a = R.TTB_TRACK_SEL.addr then s.actWrite who a fun s => s.trackSelect w else s.plainWrite who a v mask
    | 0x40028 => s.writeCip who a v mask w
    | 0x4002A => s.writeDal who a v mask w
    | 0x4002B => if a = R.DIM_LEVEL_TARGET.addr then s.actWrite who a fun s => s.dimWrite w else s.plainWrite who a v mask
    | 0x4002C => s.writeSerial who 0 a v mask w
    | 0x4002D => s.writeSerial who 1 a v mask w
    | 0x4002E => s.writeSerial who 2 a v mask w
    | 0x40047 => s.writeGpi who a v mask
    | 0x40040 => if a = R.DMC_TRAIN_REQ.addr then s.actWrite who a fun s => s.trainRequest w else s.plainWrite who a v mask
    | 0x40041 => s.writeSrm who a v mask
    | 0x40042 => if a = R.NVM_CMD_CMD.addr then s.norWrite who (w % 4) else s.plainWrite who a v mask
    | 0x40043 => if a = R.COH_CTL_REJOIN.addr
      then s.actWrite who a fun s => if bitOf w 0 then s.rejoin else s
      else s.plainWrite who a v mask
    | 0x40045 => if a = R.INS_CCLR_CLR.addr then s.actWrite who a fun s => s.counterClear w else s.plainWrite who a v mask
    | 0x40046 => s.writeCpu who a v mask
    | _ => s.plainWrite who a v mask

/-! ### The commands -/

/-- An access of the bus needs SYS on, and answers a bus error outside the assigned unit pages (R22). -/
def State.busAccess (s : State) (a : Nat) (f : State → State) : State :=
  if !s.domOn Dom.sys then s
  else if 0x40000000 ≤ a ∧ a < 0x40200000 ∧ pageAssigned a then f s
  else { s with bus := { value := 0, error := true } }

def execRegisterWrite (t : Elapsed) (who : Who) (addr value : Nat) (s : State) : Host.Outcome State Fault Refusal :=
  .next ((s.advance t).busAccess addr fun s => State.reply (s.regWrite who addr value 0xFFFFFFFF, 0))

def execRegisterRead (t : Elapsed) (who : Who) (addr : Nat) (s : State) : Host.Outcome State Fault Refusal :=
  .next ((s.advance t).busAccess addr fun s => State.reply (s.regRead who addr))

end Sys2Proof.Machine
end

