-- ==== Sys2Proof/Machine/Flags.lean ====
section
/-!
DEFINITION. Arithmetic of the Bexlin instruction set: saturation, rounding, the conditions of the compares (Table
CPU-7), the integer and DSP results of Tables CPU-5 and CPU-6, bit fields.
-/

namespace Sys2Proof.Machine

/-! ### Saturation and halves -/

/-- An integer held within the signed range of `w` bits. -/
def satInt (w : Nat) (x : Int) : Int :=
  if x < -(2 ^ (w - 1) : Nat) then -(2 ^ (w - 1) : Nat) else if (2 ^ (w - 1) : Nat) ≤ x then (2 ^ (w - 1) : Nat) - 1 else x

/-- sat32 as a word. -/
def sat32 (x : Int) : Word := BitVec.ofInt 32 (satInt 32 x)

/-- sat16 as a halfword. -/
def sat16 (x : Int) : BitVec 16 := BitVec.ofInt 16 (satInt 16 x)

/-- The low and the high half of a word. -/
def lo16 (x : Word) : BitVec 16 := x.setWidth 16
def hi16 (x : Word) : BitVec 16 := (x >>> 16).setWidth 16

/-- A word of two halves. -/
def pack16 (hi lo : BitVec 16) : Word := hi ++ lo

/-- Q15 rounding: `sat16((x + 2^14) >> 15)`. -/
def round15 (x : Int) : BitVec 16 := sat16 ((x + 16384) / 32768)

/-! ### Conditions (Table CPU-7) -/

/-- COND code `k` on two operands; codes 12-15 are reserved. -/
def condHolds (k : BitVec 4) (x y : Word) : Bool :=
  match k.toNat with
  | 0 => x == y
  | 1 => x != y
  | 2 => x.slt y
  | 3 => y.sle x
  | 4 => x.ult y
  | 5 => y.ule x
  | 6 => y.slt x
  | 7 => x.sle y
  | 8 => y.ult x
  | 9 => x.ule y
  | 10 => (x &&& y) != 0#32
  | _ => (x &&& y) == 0#32

def condReserved (k : BitVec 4) : Bool := decide (12 ≤ k.toNat)

/-! ### Integer operations (Table CPU-5) -/

/-- Shift or rotate amount: rb[4:0]. -/
def shamt (x : Word) : Nat := x.toNat % 32

def rotr (x : Word) (n : Nat) : Word := (x >>> n) ||| (x <<< (32 - n))

def divS (x y : Word) : Word := if y = 0#32 then 0xFFFFFFFF#32 else BitVec.ofInt 32 (x.toInt.tdiv y.toInt)
def divU (x y : Word) : Word := if y = 0#32 then 0xFFFFFFFF#32 else x.udiv y
def remS (x y : Word) : Word := if y = 0#32 then x else BitVec.ofInt 32 (x.toInt.tmod y.toInt)
def remU (x y : Word) : Word := if y = 0#32 then x else x.umod y

def mulHighS (x y : Word) : Word := BitVec.ofInt 32 (x.toInt * y.toInt / 2 ^ 32)
def mulHighU (x y : Word) : Word := BitVec.ofNat 32 (x.toNat * y.toNat / 2 ^ 32)

/-- Leading zeros of the low `n` bits. -/
def clzBits (x : Word) : Nat → Nat
  | 0 => 0
  | n + 1 => if x.getLsbD n then 0 else clzBits x n + 1

def clz (x : Word) : Word := BitVec.ofNat 32 (clzBits x 32)

def popc (x : Word) : Word := BitVec.ofNat 32 (((List.range 32).filter x.getLsbD).length)

def absWord (x : Word) : Word := if x.toInt < 0 then -x else x

/-- The word whose bit `i` is bit `31 - i` of `x`. -/
def brev (x : Word) : Word :=
  BitVec.ofNat 32 ((List.range 32).foldl (fun v i => v + 2 ^ i * b2n (x.getLsbD (31 - i))) 0)

/-! ### DSP operations (Table CPU-6) -/

/-- An operation on both halves. -/
def halves (f : BitVec 16 → BitVec 16 → BitVec 16) (x y : Word) : Word :=
  pack16 (f (hi16 x) (hi16 y)) (f (lo16 x) (lo16 y))

/-- Real and imaginary part of the exact product of two packed complex values, the second conjugated for `conj`. -/
def cmulParts (x y : Word) (conj : Bool) : Int × Int :=
  let a := (lo16 x).toInt
  let b := (hi16 x).toInt
  let c := (lo16 y).toInt
  let d := if conj then -(hi16 y).toInt else (hi16 y).toInt
  (a * c - b * d, a * d + b * c)

def cmul (x y : Word) (conj : Bool) : Word :=
  let (re, im) := cmulParts x y conj
  pack16 (round15 im) (round15 re)

def dot2 (z x y : Word) : Word :=
  sat32 (z.toInt + (lo16 x).toInt * (lo16 y).toInt + (hi16 x).toInt * (hi16 y).toInt)

def mulq (x y : Word) : Word := sat32 ((x.toInt * y.toInt + 2 ^ 30) / 2 ^ 31)

/-! ### Bit fields (Table CPU-7) -/

/-- BFX: lsb, width and sign extension from its immediate. -/
def bfLsb (imm : BitVec 11) : Nat := imm.toNat / 64
def bfWidth (imm : BitVec 11) : Nat := imm.toNat % 32 + 1
def bfSign (imm : BitVec 11) : Bool := imm.getLsbD 5

def bfx (x : Word) (lsb w : Nat) (sx : Bool) : Word :=
  let v := x.toNat / 2 ^ lsb % 2 ^ w
  if sx then BitVec.ofInt 32 (signed w v) else BitVec.ofNat 32 v

def bfi (old x : Word) (lsb w : Nat) : Word := BitVec.ofNat 32 (setBitsOf old.toNat lsb w x.toNat)

/-! ### Buffer addressing (R385) -/

/-- AM 3: the base after a step of `inc` bytes; LEN 0 does not wrap. -/
def moduloNext (ra base len : Word) (inc : Int) : Word :=
  if len = 0#32 then BitVec.ofInt 32 (ra.toInt + inc)
  else base + BitVec.ofInt 32 (((ra.toNat : Int) - base.toNat + inc) % len.toNat)

/-- `f`'s low `w` bits in reverse order. -/
def revBits (w f : Nat) : Nat := (List.range w).foldl (fun v i => v + 2 ^ i * b2n (f.testBit (w - 1 - i))) 0

/-- Is LEN a power of two that AM 4 can use with elements of `2 ^ s` bytes? -/
def bitrevFits (len : Word) (s : Nat) : Bool :=
  (List.range 32).any fun k => len.toNat == 2 ^ k && decide (s + 1 ≤ k)

/-- AM 4: LEN/2 is added to the offset with reverse carry over bits `[log2(LEN) - 1 : s]`. -/
def bitrevNext (ra base len : Word) (s : Nat) : Word :=
  let off := (ra - base).toNat
  let w := len.toNat.log2 - s
  let f := revBits w ((revBits w (off / 2 ^ s % 2 ^ w) + 1) % 2 ^ w)
  base + BitVec.ofNat 32 (setBitsOf off s w f)

end Sys2Proof.Machine
end

