-- ==== Sys2Proof/Machine/Operands.lean ====
section
/-!
DEFINITION. What a core's instruction works on: general registers, predicates and guards, special registers (R380,
R381, R383, R384), protection regions (R391), address modes (Table CPU-9), and which physical core runs it (R378).
-/

namespace Sys2Proof.Machine

/-! ### Registers and predicates (R380) -/

namespace CoreState

/-- A general register; w0 reads zero. -/
def reg (k : CoreState) (r : RegNum) : Word := if r = 0#5 then 0#32 else sget (fun _ => 0#32) k.regs r.toNat

/-- Writes a general register; writes to w0 are discarded. -/
def setReg (k : CoreState) (r : RegNum) (v : Word) : CoreState :=
  if r = 0#5 then k else { k with regs := sput (fun _ => 0#32) k.regs r.toNat v }

/-- A predicate; p0 reads 1. -/
def pred (k : CoreState) (q : PredNum) : Bool := q == 0#3 || k.preds.getLsbD q.toNat

/-- Writes a predicate; writes to p0 are discarded. -/
def setPred (k : CoreState) (q : PredNum) (b : Bool) : CoreState :=
  if q = 0#3 then k else { k with preds := BitVec.ofNat 8 (setBitsOf k.preds.toNat q.toNat 1 (b2n b)) }

/-- The guard p[G] XOR N (R383). -/
def guarded (k : CoreState) (g : Guard) : Bool := k.pred g.g != g.n

/-! STATUS fields (Table CPU-2). -/

def prot (k : CoreState) : Bool := k.status.getLsbD 0
def ie (k : CoreState) : Bool := k.status.getLsbD 1
def exl (k : CoreState) : Bool := k.status.getLsbD 2
def pp (k : CoreState) : Bool := k.status.getLsbD 3
def pie (k : CoreState) : Bool := k.status.getLsbD 4

/-- STATUS of its five fields. -/
def mkStatus (p ie exl pp pie : Bool) : Word :=
  BitVec.ofNat 32 (b2n p + 2 * b2n ie + 4 * b2n exl + 8 * b2n pp + 16 * b2n pie)

def cbBaseOf (k : CoreState) (i : Nat) : Word := sget (fun _ => 0#32) k.cbBase i
def cbLenOf (k : CoreState) (i : Nat) : Word := sget (fun _ => 0#32) k.cbLen i
def prBaseOf (k : CoreState) (i : Nat) : Word := sget (fun _ => 0#32) k.prBase i
def prCtlOf (k : CoreState) (i : Nat) : Word := sget (fun _ => 0#32) k.prCtl i

/-! ### Protection regions (R389, R391) -/

/-- Region `n` is enabled and covers address `a`: PRBASE to LIMIT + 31. -/
def covers (k : CoreState) (n a : Nat) : Bool :=
  let c := (k.prCtlOf n).toNat
  bitOf c 0 && decide ((k.prBaseOf n).toNat ≤ a ∧ a ≤ c / 32 * 32 + 31)

/-- Open mode needs an enabled region that grants `bit` of PRCTL: 1 write, 2 read, 3 execute. -/
def permits (k : CoreState) (a bit : Nat) : Bool :=
  k.prot || (List.range 8).any fun n => k.covers n a && bitOf (k.prCtlOf n).toNat bit

/-- The lowest-numbered enabled region that covers the address has C set. -/
def regionCaches (k : CoreState) (a : Nat) : Bool :=
  match (List.range 8).find? fun n => k.covers n a with
  | some n => bitOf (k.prCtlOf n).toNat 4
  | none => false

end CoreState

/-! ### Cores and agents (Tables CPU-1, DEV-6) -/

/-- Link cores are the last two (Table CPU-1). -/
def isLink (c : CoreId) : Bool := decide (4 ≤ c.val)

/-- Agent ID of a core: link core 0 is 0x0 while boot ROM or homeroom runs. -/
def State.agent (s : State) (c : CoreId) : Nat :=
  if c.val < 4 then 2 + c.val else if c.val = 4 ∧ s.bootRuns then 0 else 1

/-- Key of the core's state: the physical core of a logical one that executes; link cores have 5 and 6. -/
def State.coreKey (s : State) (c : CoreId) : Option Nat :=
  if c.val < 4 then
    let p := s.physOf .core c.val
    if s.inService .core c.val && s.phase == .running && s.domOn (Dom.app p) && !(s.unit (Hdr.core p)).lapsed &&
        (s.core p).running then some p else none
  else if s.domOn Dom.sys && s.phase != .off then some (1 + c.val) else none

/-- P of a core; link cores hold it at 1 (R392). -/
def State.coreProt (s : State) (c : CoreId) (p : Nat) : Bool := isLink c || (s.core p).prot

/-- Changes the state of one core. -/
def State.onCore (s : State) (p : Nat) (f : CoreState → CoreState) : State := s.setCore p (f (s.core p))

/-! ### Special registers (Table CPU-2) -/

/-- Special registers that open mode may not reach: all marked "none". -/
def specialHidden (i : Nat) : Bool := (1 ≤ i && i ≤ 4) || i == 7 || decide (16 ≤ i)

/-- What MFS of special register `i` gives. -/
def State.readSpecialReg (s : State) (c : CoreId) (p i : Nat) : Word :=
  let k := s.core p
  match i with
  | 0 => if isLink c then k.status ||| 0x21#32 else k.status
  | 1 => k.epc
  | 2 => k.ecause
  | 3 => k.eaddr
  | 4 => k.vbase
  | 5 => BitVec.ofNat 32 (s.agent c + 16 * (if isLink c then c.val - 4 else c.val) + 256 * (p % 8))
  | 6 => k.preds.setWidth 32
  | 7 => k.scratch
  | _ =>
    if i < 16 then (if i % 2 = 0 then k.cbBaseOf ((i - 8) / 2) else k.cbLenOf ((i - 8) / 2))
    else if i % 2 = 0 then k.prBaseOf ((i - 16) / 2) else k.prCtlOf ((i - 16) / 2)

/-- MTS: read-only fields and registers keep their value; P is changed by exceptions and ERET alone (R381, R392). -/
def CoreState.writeSpecialReg (k : CoreState) (i : Nat) (v : Word) : CoreState :=
  let b := fun (n : Nat) => v.getLsbD n
  match i with
  | 0 => { k with status := CoreState.mkStatus k.prot (b 1) (b 2) (b 3) (b 4) }
  | 1 => { k with epc := v }
  | 2 => { k with ecause := v &&& 0xFFFF07FF#32 }
  | 3 => { k with eaddr := v }
  | 4 => { k with vbase := v &&& 0xFFFFFC00#32 }
  | 5 => k
  | 6 => { k with preds := v.setWidth 8 ||| 1#8 }
  | 7 => { k with scratch := v }
  | _ =>
    if i < 16 then
      if i % 2 = 0 then { k with cbBase := sput (fun _ => 0#32) k.cbBase ((i - 8) / 2) v }
      else { k with cbLen := sput (fun _ => 0#32) k.cbLen ((i - 8) / 2) v }
    else if i % 2 = 0 then { k with prBase := sput (fun _ => 0#32) k.prBase ((i - 16) / 2) (v &&& 0xFFFFFFE0#32) }
    else { k with prCtl := sput (fun _ => 0#32) k.prCtl ((i - 16) / 2) v }

/-! ### Sizes and address modes of LDX and STX (Tables CPU-8, CPU-9) -/

/-- Codes 5-7 are reserved. -/
def sizeReserved (sz : SizeCode) : Bool := decide (5 ≤ sz.toNat)

/-- log2 of the size in bytes. -/
def sizeLog (sz : SizeCode) : Nat := min 2 (sz.toNat / 2)

/-- A load of this code sign-extends. -/
def sizeSigned (sz : SizeCode) : Bool := sz == 0#3 || sz == 2#3

def AddrMode.isReserved : AddrMode → Bool
  | .reserved _ => true
  | _ => false

/-- The address used, and the base register's value afterwards; `none` where AM 4 finds its buffer unfit (R385). -/
def AddrMode.resolve (am : AddrMode) (k : CoreState) (ra : RegNum) (s : Nat) : Option (Word × Option Word) :=
  let a := k.reg ra
  match am with
  | .scaled rb => some (a + (k.reg rb <<< s), none)
  | .postReg rb => some (a, some (a + (k.reg rb <<< s)))
  | .postImm imm5 => some (a, some (a + (imm5.signExtend 32 <<< s)))
  | .modulo i inc3 => some (a, some (moduloNext a (k.cbBaseOf i.toNat) (k.cbLenOf i.toNat) (inc3.toInt * 2 ^ s)))
  | .bitrev i =>
    if bitrevFits (k.cbLenOf i.toNat) s then some (a, some (bitrevNext a (k.cbBaseOf i.toNat) (k.cbLenOf i.toNat) s))
    else none
  | .reserved _ => none

end Sys2Proof.Machine
end

