-- ==== Sys2Proof/Machine/CoreMem.lean ====
section
/-!
DEFINITION. Memory as a core sees it: exceptions (R393, R394), the map (R20-R22, R362), bank protection (R400), check
bits (R401, R410), caches (R389), fetches, loads, stores and atomics (R386, R387), cohort windows (R24, R395).
-/

namespace Sys2Proof.Machine

/-! ### Taking an exception (R393, R394) -/

/-- An exception of Table CPU-13: its vector, what ECAUSE holds beside it, and EADDR where the table names one. -/
structure Trap where
  vec : Nat
  addr : Option Nat := none
  wr : Bool := false
  fetch : Bool := false
  imp : Bool := false
  code : Nat := 0
  deriving DecidableEq, Repr

/-- ECAUSE (Table CPU-2). -/
def Trap.cause (t : Trap) : Word :=
  BitVec.ofNat 32 (t.vec + 256 * b2n t.imp + 512 * b2n t.wr + 1024 * b2n t.fetch + 65536 * t.code)

/-- A program-flow packet of an application core (Table INS-2). -/
def State.flowTrace (s : State) (c : CoreId) (kind : Nat) (payload : List Byte) : State :=
  if isLink c then s else s.tracePacket 0 kind (BitVec.ofNat 8 c.val :: payload)

/-- A double fault: the core stops and lapses at once; on a link core DEV lapses (R394). -/
def State.doubleFault (s : State) (c : CoreId) (p : Nat) : State :=
  let s := (s.onCore p fun k => { k with running := false }).bump R.CPU_COUNTS_DBLFLT
  if isLink c then s.warmRestart 2 0
  else (s.wr (R.UFAULT_DETAIL (Hdr.core p)) (s.rd (R.UFAULT_DETAIL (Hdr.core p)) ||| 4)).lapseUnit (Hdr.core p)

/-- The registers an exception writes, and the vector it goes to. -/
def CoreState.enter (k : CoreState) (prot : Bool) (epc : Word) (t : Trap) : CoreState :=
  { k with
    epc := epc
    ecause := t.cause
    eaddr := match t.addr with
      | some a => BitVec.ofNat 32 a
      | none => k.eaddr
    status := CoreState.mkStatus true false true prot k.ie
    pc := k.vbase + BitVec.ofNat 32 (32 * t.vec) }

/-- Exception entry; a change to protected mode opens an opaque region of the trace (R452). -/
def State.enterTrap (s : State) (c : CoreId) (p : Nat) (epc : Word) (t : Trap) : State :=
  let prot := s.coreProt c p
  let s := s.onCore p fun k => k.enter prot epc t
  if prot then s else s.flowTrace c 3 []

/-- A synchronous exception; one taken while EXL is 1 is a double fault. -/
def State.trap (s : State) (c : CoreId) (p : Nat) (epc : Word) (t : Trap) : State :=
  if (s.core p).exl then s.doubleFault c p else s.enterTrap c p epc t

/-! ### Places (R20-R24, R362) -/

/-- What a core's address reaches. -/
inductive CorePlace where
  | ram (p : Nat) | nor (p : Nat) | rom | reg (p : Nat) | satchel | remote (m off : Nat)
  /-- a bus error -/
  | bad
  deriving DecidableEq, Repr

/-- The place of a local address. -/
def State.placeLocal (s : State) (a : Nat) : CorePlace :=
  match s.region a with
  | .rom => .rom
  | .sram _ | .dram => if s.memOn a then .ram a else .bad
  | .nor => if s.domOn Dom.nvm then .nor a else .bad
  | .alias_ => match s.resolve a with
    | some p => if s.domOn Dom.nvm then .nor p else .bad
    | none => .bad
  | .page => if pageAssigned a then .reg a else .bad
  | .satchel => .satchel
  | _ => .bad

/-- The place of an address; the local member's own window stands for its local resources (R24). -/
def State.place (s : State) (a : Nat) : CorePlace :=
  match s.region a with
  | .window m off =>
    if m = s.rd R.COH_CFG_INDEX then match s.windowTarget off with
      | some p => s.placeLocal p
      | none => .bad
    else match s.windowTarget off with
      | some _ => .remote m off
      | none => .bad
  | _ => s.placeLocal a

/-- Table SRM-1 for a core. -/
def State.bankOk (s : State) (agent : Nat) (prot : Bool) (p : Nat) : Bool :=
  match s.region p with
  | .sram b => match s.bankAttr b with
    | 0 => true
    | 1 => prot
    | _ => decide (agent ≤ 1)
  | _ => true

/-! ### Words of SRAM and DRAM (R399, R401, R410) -/

/-- The check of the word or words behind `a`; answers whether an uncorrectable error stands in them. -/
def State.ramCheck (s : State) (a : Nat) (ecc : Ecc) : State × Bool :=
  if 0x80000000 ≤ a then (s.dramTouch).dramRead a ecc else s.sramRead a ecc

/-- Bytes of one check word: 4 in SRAM, 8 in DRAM. -/
def ramUnit (a : Nat) : Nat := if 0x80000000 ≤ a then 8 else 4

/-- A store to RAM. One that covers its words whole replaces them; any other is a read-modify-write that leaves a
poisoned word poisoned and answers an uncorrectable error late (R395). -/
def State.ramStore (s : State) (a : Nat) (bs : List Byte) (ecc : Ecc) : State × Bool :=
  if a % ramUnit a = 0 ∧ bs.length % ramUnit a = 0 then
    (((if 0x80000000 ≤ a then s.dramTouch else s).putBytes a bs).healRange a bs.length, false)
  else
    let (s, bad) := s.ramCheck a ecc
    (s.putBytes a bs, bad)

/-! ### Caches (R389) -/

def lineOf (a : Nat) : Nat := a / 32 * 32

/-- Sets of a 4-way cache: 32 KB of an application core, 16 KB of a link core (Table CPU-1). -/
def cacheSets (p : Nat) : Nat := if p < 5 then 256 else 128

def sameSet (p a b : Nat) : Bool := a / 32 % cacheSets p == b / 32 % cacheSets p

def CoreState.lineAt (k : CoreState) (la : Nat) : Option CacheLine := k.dcache.find? (·.addr == la)

/-- Regions that are ever cached. -/
def State.mayCache (s : State) (a : Nat) : Bool :=
  match s.region a with
  | .sram _ | .dram | .nor | .alias_ | .rom => true
  | _ => false

def State.cacheable (s : State) (p a : Nat) : Bool := (s.core p).regionCaches a && s.mayCache a

/-- A dirty line goes back to its memory; if that is not on, the store's error comes late (R395). -/
def State.writeBack (s : State) (p : Nat) (l : CacheLine) : State :=
  if !l.dirty then s
  else match s.place l.addr with
    | .ram a => (s.ramStore a l.bytes .clean).1
    | _ => s.onCore p fun k => { k with lateStore := k.lateStore ++ [l.addr] }

def CoreState.dropLine (k : CoreState) (la : Nat) : CoreState := { k with dcache := k.dcache.filter (·.addr != la) }

/-- Room for a line in its set; which of four lines gives way is a free value. -/
def State.makeRoom (s : State) (p la : Nat) : State :=
  let mine := (s.core p).dcache.filter fun l => sameSet p l.addr la
  if mine.length < 4 then s
  else
    let (v, s) := s.free
    match mine[v % 4]? with
    | some l => (s.writeBack p l).onCore p fun k => k.dropLine l.addr
    | none => s

/-- The line at `la`, whose memory begins at `a`, enters the data cache. -/
def State.fillLine (s : State) (p la a : Nat) : State :=
  let s := s.makeRoom p la
  let bytes := (List.range 32).map fun i => s.byte (a + i)
  s.onCore p fun k => { k with dcache := k.dcache ++ [{ addr := la, bytes := bytes, dirty := false }] }

/-- A line that holds a poisoned word is not filled: its words are accessed in place. -/
def State.fillable (s : State) (a : Nat) : Bool := !s.anyPoison (lineOf a) 32

/-- Bytes of a line from offset `o`. -/
def CacheLine.num (l : CacheLine) (o n : Nat) : Nat := leNum ((l.bytes.drop o).take n)

def CacheLine.write (l : CacheLine) (o : Nat) (bs : List Byte) : CacheLine :=
  { l with bytes := l.bytes.take o ++ bs ++ l.bytes.drop (o + bs.length), dirty := true }

/-! ### Fetching -/

/-- The exception a fetch of the halfword at `a` meets; a line in the instruction cache needs no memory. -/
def State.fetchTrap (s : State) (c : CoreId) (p a : Nat) : Option Trap :=
  let k := s.core p
  let prot := s.coreProt c p
  if a % 2 = 1 then some { vec := 6, addr := some a, fetch := true }
  else if !prot && !k.permits a 3 then some { vec := 3, addr := some a, fetch := true }
  else match s.place a with
  | .ram q =>
    if !s.bankOk (s.agent c) prot q then some { vec := 3, addr := some a, fetch := true }
    else if s.poisoned q && !k.icache.contains (lineOf a) then some { vec := 9, addr := some (a / 4 * 4), fetch := true }
    else none
  | .nor _ => none
  | .rom => if prot then none else some { vec := 7, addr := some a, fetch := true }
  | _ => if k.icache.contains (lineOf a) && s.mayCache a then none else some { vec := 7, addr := some a, fetch := true }

/-- The exception of the fetch of an instruction of `len` bytes at the core's pc: its first halfword that faults. -/
def State.fetchFault (s : State) (c : CoreId) (p len : Nat) : Option Trap :=
  let a := (s.core p).pc.toNat
  match s.fetchTrap c p a with
  | some t => some t
  | none => if len = 4 then s.fetchTrap c p ((a + 2) % 2 ^ 32) else none

/-- What a fetch that is served does: the line enters the instruction cache, a read of the NOR suspends its operation
(R407), a read of DRAM may activate a row (R413). -/
def State.fetchServed (s : State) (p a : Nat) : State :=
  let la := lineOf a
  let k := s.core p
  if k.icache.contains la then s
  else
    let s := match s.place a with
      | .nor q => s.norRead q
      | .ram q => if 0x80000000 ≤ q then s.dramTouch else s
      | _ => s
    if !s.cacheable p a then s
    else
      let mine := (s.core p).icache.filter fun l => sameSet p l la
      if mine.length < 4 then s.onCore p fun k => { k with icache := k.icache ++ [la] }
      else
        let (v, s) := s.free
        s.onCore p fun k => { k with icache := (k.icache.filter fun l => some l != mine[v % 4]?) ++ [la] }

/-- The fetch of the `len` bytes at the core's pc. -/
def State.fetched (s : State) (p len : Nat) : State :=
  let a := (s.core p).pc.toNat
  let s := s.fetchServed p a
  if len = 4 ∧ lineOf (a + 2) ≠ lineOf a then s.fetchServed p ((a + 2) % 2 ^ 32) else s

/-! ### Data accesses -/

/-- Exceptions that need no memory: alignment, the regions (`bit` 2 read, 1 write), the map, the bank (R386, R391,
R22, R400). -/
def State.accessTrap (s : State) (c : CoreId) (p a n : Nat) (store : Bool) : Option Trap :=
  let prot := s.coreProt c p
  let refused : Trap := { vec := if store then 5 else 4, addr := some a, wr := store }
  let bus : Trap := { vec := 7, addr := some a, wr := store }
  if a % n ≠ 0 then some { vec := 6, addr := some a, wr := store }
  else if !prot && !(s.core p).permits a (if store then 1 else 2) then some refused
  else match s.place a with
  | .bad => if !store && ((s.core p).lineAt (lineOf a)).isSome && s.mayCache a then none else some bus
  | .rom => if store || !prot then some bus else none
  | .nor _ => if store then some bus else none
  | .ram q => if s.bankOk (s.agent c) prot q then none else some refused
  | _ => none

/-- The maker of a core's register access. -/
def State.coreWho (s : State) (c : CoreId) (p : Nat) : Who :=
  { stamp := s.agent c, prot := s.coreProt c p, late := false }

/-- A load that its target serves: the value, or the exception of an uncorrectable error (R401). -/
def State.loadPlace (s : State) (c : CoreId) (p a n : Nat) (ecc : Ecc) : State × Except Trap Nat :=
  let la := lineOf a
  match s.place a with
  | .ram q =>
    let (s, err) := s.ramCheck q ecc
    if err then (s, .error { vec := 9, addr := some (a / 4 * 4) })
    else
      let v := leNum ((List.range n).map fun i => s.byte (q + i))
      (if s.cacheable p a && s.fillable q then s.fillLine p la (lineOf q) else s, .ok v)
  | .nor q =>
    let s := s.norRead q
    let v := leNum ((List.range n).map fun i => s.byte (q + i))
    (if s.cacheable p a then s.fillLine p la (lineOf q) else s, .ok v)
  | .rom =>
    let v := leNum ((List.range n).map fun i => s.byte (a + i))
    (if s.cacheable p a then s.fillLine p la la else s, .ok v)
  | .reg q =>
    let (s, v) := s.regRead (s.coreWho c p) (q / 4 * 4)
    (s, .ok (v / 2 ^ (8 * (q % 4)) % 2 ^ (8 * n)))
  | .satchel => (s, .ok (leNum ((List.range n).map fun i => s.byte (a + i))))
  | _ => (s, .ok 0)

/-- A load past its first checks. A line of the data cache serves it; one that shows an error is refetched and counted
if it is clean, and raises the exception if it is dirty (CPU_COUNTS.PARITY, Table CPU-13). -/
def State.loadValue (s : State) (c : CoreId) (p a n : Nat) (ecc : Ecc) : State × Except Trap Nat :=
  let la := lineOf a
  match (if s.cacheable p a then (s.core p).lineAt la else none) with
  | some l =>
    if ecc = .clean then (s, .ok (l.num (a - la) n))
    else if l.dirty then (s, .error { vec := 9, addr := some (a / 4 * 4) })
    else ((s.onCore p fun k => k.dropLine la).bump R.CPU_COUNTS_PARITY).loadPlace c p a n .clean
  | none => s.loadPlace c p a n ecc

/-- A store past its checks. Errors its target finds come late (R395); one to another member is posted (R24). -/
def State.storeValue (s : State) (c : CoreId) (p a n v : Nat) (ecc : Ecc) : State :=
  let bs := leBytes n v
  let la := lineOf a
  let inPlace := fun (s : State) (q : Nat) =>
    let (s, err) := s.ramStore q bs ecc
    if err then s.onCore p fun k => { k with lateStore := k.lateStore ++ [a] } else s
  match s.place a with
  | .ram q =>
    if s.cacheable p a && (((s.core p).lineAt la).isSome || s.fillable q) then
      let s := if ((s.core p).lineAt la).isSome then s else s.fillLine p la (lineOf q)
      s.onCore p fun k => { k with dcache := k.dcache.map fun l => if l.addr = la then l.write (a - la) bs else l }
    else inPlace s q
  | .reg q =>
    let sh := 8 * (q % 4)
    s.regWrite (s.coreWho c p) (q / 4 * 4) (v % 2 ^ (8 * n) * 2 ^ sh) ((2 ^ (8 * n) - 1) * 2 ^ sh)
  | .satchel => s.putBytes a bs
  | .remote m off =>
    let s := if s.memberUp m then s.issue m 0x05 [1, off, n, s.agent c, b2n (s.coreProt c p)] bs else s
    s.onCore p fun k => { k with stores := k.stores ++ [(a, s.clk.ns)] }
  | _ => s

/-! ### Ends of instructions -/

/-- The instruction of `len` bytes ends: the pc moves on and the core's retired count steps (Table INS-3). -/
def State.coreRetire (s : State) (c : CoreId) (p len : Nat) : State :=
  let s := s.onCore p fun k => { k with pc := k.pc + BitVec.ofNat 32 len }
  if isLink c then s else s.count (102 + c.val)

/-- Control goes to `target`; an odd one raises the misaligned-access exception there (Table CPU-10). -/
def State.jump (s : State) (c : CoreId) (p : Nat) (target : Word) : State :=
  let s := if isLink c then s else s.count (102 + c.val)
  if target.getLsbD 0 then s.trap c p target { vec := 6, addr := some target.toNat, fetch := true }
  else s.onCore p fun k => { k with pc := target }

/-- An exception of the instruction at the core's pc. -/
def State.fault (s : State) (c : CoreId) (p : Nat) (t : Trap) : State := s.trap c p (s.core p).pc t

/-- A bit of the branch map of code in open mode (R452). -/
def State.branchBit (s : State) (c : CoreId) (p : Nat) (b : Bool) : State :=
  if s.coreProt c p then s else s.flowTrace c 1 [BitVec.ofNat 8 (b2n b)]

/-! ### Running an instruction (R382, R383, R388) -/

/-- An instruction of `len` bytes is attempted by a core that executes and neither waits in `WFE` nor for a load: it
is fetched, or its fetch raises its exception. -/
def State.attempt (s : State) (c : CoreId) (len : Nat) (f : Nat → State → State) : State :=
  match s.coreKey c with
  | none => s
  | some p =>
    if (s.core p).waiting || (s.core p).remote.isSome then s
    else match s.fetchFault c p len with
      | some t => s.fault c p t
      | none => f p (s.fetched p len)

/-- A 16-bit instruction. -/
def State.run16 (s : State) (c : CoreId) (f : Nat → State → State) : State := s.attempt c 2 f

/-- A 32-bit instruction: a reserved field value is illegal whatever the guard; a false guard has no effect. -/
def State.run32 (s : State) (c : CoreId) (g : Guard) (ok : Bool) (f : Nat → State → State) : State :=
  s.attempt c 4 fun p s =>
    if !ok then s.fault c p { vec := 1 }
    else
      let t := (s.core p).guarded g
      let s := if g.g = 0#3 ∧ !g.n then s else s.branchBit c p t
      if t then f p s else s.coreRetire c p 4

/-- The result of `f` goes to rd. -/
def State.toReg (s : State) (c : CoreId) (p len : Nat) (rd : RegNum) (v : Word) : State :=
  (s.onCore p fun k => k.setReg rd v).coreRetire c p len

/-- A load that another member has yet to answer. -/
def CoreState.awaiting (k : CoreState) (a n : Nat) (sx : Bool) (rd : Nat) (base : Option (Nat × Word)) (next : Word)
    (now : Nat) : CoreState :=
  let r : RemoteLoad := ⟨a, n, sx, rd, base, next, now⟩
  { k with remote := some r }

/-- A load of `n` bytes at `a` into rd; the base, if the mode has one, is updated first (R386). -/
def State.load (s : State) (c : CoreId) (p len : Nat) (a : Word) (n : Nat) (sx : Bool) (rd : RegNum)
    (base : Option (RegNum × Word)) (ecc : Ecc) : State :=
  let a := a.toNat
  match s.accessTrap c p a n false with
  | some t => s.fault c p t
  | none => match s.place a with
    | .remote m off =>
      let s := if s.memberUp m then s.issue m 0x05 [0, off, n, s.agent c, b2n (s.coreProt c p)] else s
      let due := fun (k : CoreState) => CoreState.awaiting k a n sx rd.toNat (base.map fun b => (b.1.toNat, b.2))
        (k.pc + BitVec.ofNat 32 len) s.clk.ns
      s.onCore p due
    | _ =>
      let (s, r) := s.loadValue c p a n ecc
      match r with
      | .error t => s.fault c p t
      | .ok v =>
        let s := match base with
          | some (b, w) => s.onCore p fun k => k.setReg b w
          | none => s
        s.toReg c p len rd (if sx then BitVec.ofInt 32 (signed (8 * n) v) else BitVec.ofNat 32 v)

/-- A store of the low `n` bytes of rs at `a`. -/
def State.store (s : State) (c : CoreId) (p len : Nat) (a : Word) (n : Nat) (v : Word)
    (base : Option (RegNum × Word)) (ecc : Ecc) : State :=
  match s.accessTrap c p a.toNat n true with
  | some t => s.fault c p t
  | none =>
    let s := s.storeValue c p a.toNat n v.toNat ecc
    let s := match base with
      | some (b, w) => s.onCore p fun k => k.setReg b w
      | none => s
    s.coreRetire c p len

/-- Earlier stores of the core that another member has not answered. -/
def State.storesOut (s : State) (p : Nat) : Bool := !(s.core p).stores.isEmpty

/-- An atomic on a word of SRAM (R387). `f` gives, from the word and rd, what is stored, if anything. Whether WR is
set for its exceptions is a free value. It waits for the core's earlier accesses, as a `FENCE` does. -/
def State.atomic (s : State) (c : CoreId) (p : Nat) (rd ra : RegNum) (f : Word → Word → Option Word) (ecc : Ecc) : State :=
  let a := ((s.core p).reg ra).toNat
  let raise := fun (s : State) (t : Trap) =>
    let (v, s) := s.free
    s.fault c p { t with wr := v % 2 == 1 }
  if s.storesOut p then s
  else if a % 4 ≠ 0 then raise s { vec := 6, addr := some a }
  else if !(s.coreProt c p) && !(s.core p).permits a 2 then s.fault c p { vec := 4, addr := some a }
  else if !(s.coreProt c p) && !(s.core p).permits a 1 then s.fault c p { vec := 5, addr := some a, wr := true }
  else match s.region a, s.place a with
  | .rom, _ | .nor, _ | .alias_, _ => raise s { vec := 7, addr := some a }
  | .sram _, .bad => raise s { vec := 7, addr := some a }
  | _, .ram q =>
    if 0x80000000 ≤ q then raise s { vec := 8, addr := some a }
    else if !s.bankOk (s.agent c) (s.coreProt c p) q then s.fault c p { vec := 4, addr := some a }
    else
      let s := match (s.core p).lineAt (lineOf a) with
        | some l => (s.writeBack p l).onCore p fun k => k.dropLine l.addr
        | none => s
      let (s, err) := s.ramCheck q ecc
      if err then raise s { vec := 9, addr := some a }
      else
        let old := BitVec.ofNat 32 (leNum ((List.range 4).map fun i => s.byte (q + i)))
        let s := match f old ((s.core p).reg rd) with
          | some v => (s.ramStore q (leBytes 4 v.toNat) .clean).1
          | none => s
        s.toReg c p 4 rd old
  | _, _ => raise s { vec := 8, addr := some a }

end Sys2Proof.Machine
end

