-- ==== Sys2Proof/Machine/Alu.lean ====
section
/-!
DEFINITION. Integer instructions (Table CPU-5), immediates, compares and predicates (Table CPU-7, R384), and the 16-bit forms
that compute (Table CPU-11).
-/

namespace Sys2Proof.Machine

/-- rd = f(ra, rb). -/
def State.alu (s : State) (c : CoreId) (g : Guard) (rd ra rb : RegNum) (f : Word → Word → Word) : State :=
  s.run32 c g true fun p s => s.toReg c p 4 rd (f ((s.core p).reg ra) ((s.core p).reg rb))

/-- rd = f(ra); `ok` says that no field holds a reserved value. -/
def State.aluImm (s : State) (c : CoreId) (g : Guard) (ok : Bool) (rd ra : RegNum) (f : Word → Word) : State :=
  s.run32 c g ok fun p s => s.toReg c p 4 rd (f ((s.core p).reg ra))

/-- rd = f(rd, ra), in 16 bits. -/
def State.alu16 (s : State) (c : CoreId) (rd ra : RegNum) (f : Word → Word → Word) : State :=
  s.run16 c fun p s => s.toReg c p 2 rd (f ((s.core p).reg rd) ((s.core p).reg ra))

/-- rd = f(rd), in 16 bits. -/
def State.aluImm16 (s : State) (c : CoreId) (rd : RegNum) (f : Word → Word) : State :=
  s.run16 c fun p s => s.toReg c p 2 rd (f ((s.core p).reg rd))

/-- A compare writes pt, then pf unless it is the same predicate (R384). -/
def State.compare (s : State) (c : CoreId) (g : Guard) (pt pf : PredNum) (cond : BitVec 4) (x y : CoreState → Word) : State :=
  s.run32 c g (!condReserved cond) fun p s =>
    let b := condHolds cond (x (s.core p)) (y (s.core p))
    (s.onCore p fun k => if pt = pf then k.setPred pt b else (k.setPred pt b).setPred pf (!b)).coreRetire c p 4

/-- p[pd] = f(p[pa], p[pb]). -/
def State.plogic (s : State) (c : CoreId) (g : Guard) (pd pa pb : PredNum) (f : Bool → Bool → Bool) : State :=
  s.run32 c g true fun p s =>
    (s.onCore p fun k => k.setPred pd (f (k.pred pa) (k.pred pb))).coreRetire c p 4

/-! ### Table CPU-5 -/

def execAdd (c : CoreId) (g : Guard) (rd ra rb : RegNum) (s : State) :
    Host.Outcome State Fault Refusal :=
  .next (s.alu c g rd ra rb (fun x y => x + y))

def execSub (c : CoreId) (g : Guard) (rd ra rb : RegNum) (s : State) :
    Host.Outcome State Fault Refusal :=
  .next (s.alu c g rd ra rb (fun x y => x - y))

def execAnd (c : CoreId) (g : Guard) (rd ra rb : RegNum) (s : State) :
    Host.Outcome State Fault Refusal :=
  .next (s.alu c g rd ra rb (fun x y => x &&& y))

def execOr (c : CoreId) (g : Guard) (rd ra rb : RegNum) (s : State) :
    Host.Outcome State Fault Refusal :=
  .next (s.alu c g rd ra rb (fun x y => x ||| y))

def execXor (c : CoreId) (g : Guard) (rd ra rb : RegNum) (s : State) :
    Host.Outcome State Fault Refusal :=
  .next (s.alu c g rd ra rb (fun x y => x ^^^ y))

def execAndn (c : CoreId) (g : Guard) (rd ra rb : RegNum) (s : State) :
    Host.Outcome State Fault Refusal :=
  .next (s.alu c g rd ra rb (fun x y => x &&& ~~~y))

def execShl (c : CoreId) (g : Guard) (rd ra rb : RegNum) (s : State) :
    Host.Outcome State Fault Refusal :=
  .next (s.alu c g rd ra rb (fun x y => x <<< shamt y))

def execShr (c : CoreId) (g : Guard) (rd ra rb : RegNum) (s : State) :
    Host.Outcome State Fault Refusal :=
  .next (s.alu c g rd ra rb (fun x y => x >>> shamt y))

def execSar (c : CoreId) (g : Guard) (rd ra rb : RegNum) (s : State) :
    Host.Outcome State Fault Refusal :=
  .next (s.alu c g rd ra rb (fun x y => x.sshiftRight (shamt y)))

def execRor (c : CoreId) (g : Guard) (rd ra rb : RegNum) (s : State) :
    Host.Outcome State Fault Refusal :=
  .next (s.alu c g rd ra rb (fun x y => rotr x (shamt y)))

def execMul (c : CoreId) (g : Guard) (rd ra rb : RegNum) (s : State) :
    Host.Outcome State Fault Refusal :=
  .next (s.alu c g rd ra rb (fun x y => x * y))

def execMulh (c : CoreId) (g : Guard) (rd ra rb : RegNum) (s : State) :
    Host.Outcome State Fault Refusal :=
  .next (s.alu c g rd ra rb mulHighS)

def execMulhu (c : CoreId) (g : Guard) (rd ra rb : RegNum) (s : State) :
    Host.Outcome State Fault Refusal :=
  .next (s.alu c g rd ra rb mulHighU)

def execDiv (c : CoreId) (g : Guard) (rd ra rb : RegNum) (s : State) :
    Host.Outcome State Fault Refusal :=
  .next (s.alu c g rd ra rb divS)

def execDivu (c : CoreId) (g : Guard) (rd ra rb : RegNum) (s : State) :
    Host.Outcome State Fault Refusal :=
  .next (s.alu c g rd ra rb divU)

def execRem (c : CoreId) (g : Guard) (rd ra rb : RegNum) (s : State) :
    Host.Outcome State Fault Refusal :=
  .next (s.alu c g rd ra rb remS)

def execRemu (c : CoreId) (g : Guard) (rd ra rb : RegNum) (s : State) :
    Host.Outcome State Fault Refusal :=
  .next (s.alu c g rd ra rb remU)

def execMin (c : CoreId) (g : Guard) (rd ra rb : RegNum) (s : State) :
    Host.Outcome State Fault Refusal :=
  .next (s.alu c g rd ra rb (fun x y => if x.slt y then x else y))

def execMax (c : CoreId) (g : Guard) (rd ra rb : RegNum) (s : State) :
    Host.Outcome State Fault Refusal :=
  .next (s.alu c g rd ra rb (fun x y => if x.slt y then y else x))

def execMinu (c : CoreId) (g : Guard) (rd ra rb : RegNum) (s : State) :
    Host.Outcome State Fault Refusal :=
  .next (s.alu c g rd ra rb (fun x y => if x.ult y then x else y))

def execMaxu (c : CoreId) (g : Guard) (rd ra rb : RegNum) (s : State) :
    Host.Outcome State Fault Refusal :=
  .next (s.alu c g rd ra rb (fun x y => if x.ult y then y else x))

def execClz (c : CoreId) (g : Guard) (rd ra : RegNum) (s : State) :
    Host.Outcome State Fault Refusal :=
  .next (s.aluImm c g true rd ra clz)

def execPopc (c : CoreId) (g : Guard) (rd ra : RegNum) (s : State) :
    Host.Outcome State Fault Refusal :=
  .next (s.aluImm c g true rd ra popc)

def execSextb (c : CoreId) (g : Guard) (rd ra : RegNum) (s : State) :
    Host.Outcome State Fault Refusal :=
  .next (s.aluImm c g true rd ra (fun x => (x.setWidth 8).signExtend 32))

def execSexth (c : CoreId) (g : Guard) (rd ra : RegNum) (s : State) :
    Host.Outcome State Fault Refusal :=
  .next (s.aluImm c g true rd ra (fun x => (lo16 x).signExtend 32))

def execZexth (c : CoreId) (g : Guard) (rd ra : RegNum) (s : State) :
    Host.Outcome State Fault Refusal :=
  .next (s.aluImm c g true rd ra (fun x => (lo16 x).setWidth 32))

def execAbs (c : CoreId) (g : Guard) (rd ra : RegNum) (s : State) :
    Host.Outcome State Fault Refusal :=
  .next (s.aluImm c g true rd ra absWord)

def execBrev (c : CoreId) (g : Guard) (rd ra : RegNum) (s : State) :
    Host.Outcome State Fault Refusal :=
  .next (s.aluImm c g true rd ra brev)

/-! ### Table CPU-7 -/

def execCmp (c : CoreId) (g : Guard) (pt pf : PredNum) (ra rb : RegNum) (cond : BitVec 4) (s : State) :
    Host.Outcome State Fault Refusal :=
  .next (s.compare c g pt pf cond (fun k => k.reg ra) (fun k => k.reg rb))

def execCmpi (c : CoreId) (g : Guard) (pt pf : PredNum) (ra : RegNum) (imm6 : BitVec 6) (cond : BitVec 4) (s : State) :
    Host.Outcome State Fault Refusal :=
  .next (s.compare c g pt pf cond (fun k => k.reg ra) (fun _ => imm6.signExtend 32))

def execAddi (c : CoreId) (g : Guard) (rd ra : RegNum) (imm : BitVec 11) (s : State) :
    Host.Outcome State Fault Refusal :=
  .next (s.aluImm c g true rd ra (fun x => x + imm.signExtend 32))

def execAndi (c : CoreId) (g : Guard) (rd ra : RegNum) (imm : BitVec 11) (s : State) :
    Host.Outcome State Fault Refusal :=
  .next (s.aluImm c g true rd ra (fun x => x &&& imm.setWidth 32))

def execOri (c : CoreId) (g : Guard) (rd ra : RegNum) (imm : BitVec 11) (s : State) :
    Host.Outcome State Fault Refusal :=
  .next (s.aluImm c g true rd ra (fun x => x ||| imm.setWidth 32))

def execXori (c : CoreId) (g : Guard) (rd ra : RegNum) (imm : BitVec 11) (s : State) :
    Host.Outcome State Fault Refusal :=
  .next (s.aluImm c g true rd ra (fun x => x ^^^ imm.setWidth 32))

/-- A field that passes bit 31 is reserved. -/
def execBfx (c : CoreId) (g : Guard) (rd ra : RegNum) (imm : BitVec 11) (s : State) :
    Host.Outcome State Fault Refusal :=
  .next (s.aluImm c g (decide (bfLsb imm + bfWidth imm ≤ 32)) rd ra (fun x => bfx x (bfLsb imm) (bfWidth imm) (bfSign imm)))

/-- A field that passes bit 31 is reserved, and so is imm[5] set. -/
def execBfi (c : CoreId) (g : Guard) (rd ra : RegNum) (imm : BitVec 11) (s : State) :
    Host.Outcome State Fault Refusal :=
  .next (s.run32 c g (decide (bfLsb imm + bfWidth imm ≤ 32) && !bfSign imm) fun p s =>
    s.toReg c p 4 rd (bfi ((s.core p).reg rd) ((s.core p).reg ra) (bfLsb imm) (bfWidth imm)))

def execShiftiShl (c : CoreId) (g : Guard) (rd ra : RegNum) (top : BitVec 4) (sh : BitVec 5) (s : State) :
    Host.Outcome State Fault Refusal :=
  .next (s.aluImm c g (top == 0#4) rd ra (fun x => x <<< sh.toNat))

def execShiftiShr (c : CoreId) (g : Guard) (rd ra : RegNum) (top : BitVec 4) (sh : BitVec 5) (s : State) :
    Host.Outcome State Fault Refusal :=
  .next (s.aluImm c g (top == 0#4) rd ra (fun x => x >>> sh.toNat))

def execShiftiSar (c : CoreId) (g : Guard) (rd ra : RegNum) (top : BitVec 4) (sh : BitVec 5) (s : State) :
    Host.Outcome State Fault Refusal :=
  .next (s.aluImm c g (top == 0#4) rd ra (fun x => x.sshiftRight sh.toNat))

def execShiftiRor (c : CoreId) (g : Guard) (rd ra : RegNum) (top : BitVec 4) (sh : BitVec 5) (s : State) :
    Host.Outcome State Fault Refusal :=
  .next (s.aluImm c g (top == 0#4) rd ra (fun x => rotr x sh.toNat))

def execLui (c : CoreId) (g : Guard) (rd : RegNum) (imm16 : BitVec 16) (s : State) :
    Host.Outcome State Fault Refusal :=
  .next (s.aluImm c g true rd rd (fun _ => imm16 ++ 0#16))

def execLli (c : CoreId) (g : Guard) (rd : RegNum) (imm16 : BitVec 16) (s : State) :
    Host.Outcome State Fault Refusal :=
  .next (s.aluImm c g true rd rd (fun x => hi16 x ++ imm16))

def execPand (c : CoreId) (g : Guard) (pd pa pb : PredNum) (s : State) :
    Host.Outcome State Fault Refusal :=
  .next (s.plogic c g pd pa pb (fun x y => x && y))

def execPor (c : CoreId) (g : Guard) (pd pa pb : PredNum) (s : State) :
    Host.Outcome State Fault Refusal :=
  .next (s.plogic c g pd pa pb (fun x y => x || y))

def execPxor (c : CoreId) (g : Guard) (pd pa pb : PredNum) (s : State) :
    Host.Outcome State Fault Refusal :=
  .next (s.plogic c g pd pa pb (fun x y => x != y))

def execPandn (c : CoreId) (g : Guard) (pd pa pb : PredNum) (s : State) :
    Host.Outcome State Fault Refusal :=
  .next (s.plogic c g pd pa pb (fun x y => x && !y))

def execPnot (c : CoreId) (g : Guard) (pd pa : PredNum) (s : State) :
    Host.Outcome State Fault Refusal :=
  .next (s.plogic c g pd pa pa (fun x _ => !x))

/-! ### Table CPU-11 -/

def execMov (c : CoreId) (rd ra : RegNum) (s : State) :
    Host.Outcome State Fault Refusal :=
  .next (s.alu16 c rd ra (fun _ y => y))

def execAdd16 (c : CoreId) (rd ra : RegNum) (s : State) :
    Host.Outcome State Fault Refusal :=
  .next (s.alu16 c rd ra (fun x y => x + y))

def execSub16 (c : CoreId) (rd ra : RegNum) (s : State) :
    Host.Outcome State Fault Refusal :=
  .next (s.alu16 c rd ra (fun x y => x - y))

def execAnd16 (c : CoreId) (rd ra : RegNum) (s : State) :
    Host.Outcome State Fault Refusal :=
  .next (s.alu16 c rd ra (fun x y => x &&& y))

def execOr16 (c : CoreId) (rd ra : RegNum) (s : State) :
    Host.Outcome State Fault Refusal :=
  .next (s.alu16 c rd ra (fun x y => x ||| y))

def execXor16 (c : CoreId) (rd ra : RegNum) (s : State) :
    Host.Outcome State Fault Refusal :=
  .next (s.alu16 c rd ra (fun x y => x ^^^ y))

def execShl16 (c : CoreId) (rd ra : RegNum) (s : State) :
    Host.Outcome State Fault Refusal :=
  .next (s.alu16 c rd ra (fun x y => x <<< shamt y))

def execShr16 (c : CoreId) (rd ra : RegNum) (s : State) :
    Host.Outcome State Fault Refusal :=
  .next (s.alu16 c rd ra (fun x y => x >>> shamt y))

def execSar16 (c : CoreId) (rd ra : RegNum) (s : State) :
    Host.Outcome State Fault Refusal :=
  .next (s.alu16 c rd ra (fun x y => x.sshiftRight (shamt y)))

def execLi (c : CoreId) (rd : RegNum) (imm5 : BitVec 5) (s : State) :
    Host.Outcome State Fault Refusal :=
  .next (s.aluImm16 c rd (fun _ => imm5.signExtend 32))

def execAddi16 (c : CoreId) (rd : RegNum) (imm5 : BitVec 5) (s : State) :
    Host.Outcome State Fault Refusal :=
  .next (s.aluImm16 c rd (fun x => x + imm5.signExtend 32))

def execShli (c : CoreId) (rd : RegNum) (imm5 : BitVec 5) (s : State) :
    Host.Outcome State Fault Refusal :=
  .next (s.aluImm16 c rd (fun x => x <<< imm5.toNat))

def execShri (c : CoreId) (rd : RegNum) (imm5 : BitVec 5) (s : State) :
    Host.Outcome State Fault Refusal :=
  .next (s.aluImm16 c rd (fun x => x >>> imm5.toNat))

def execSari (c : CoreId) (rd : RegNum) (imm5 : BitVec 5) (s : State) :
    Host.Outcome State Fault Refusal :=
  .next (s.aluImm16 c rd (fun x => x.sshiftRight imm5.toNat))

end Sys2Proof.Machine
end

