-- ==== Sys2Proof/Machine/Access.lean ====
section
/-!
DEFINITION. Loads, stores and atomics (Table CPU-8, R385-R387), and their 16-bit forms (Table CPU-11).
-/

namespace Sys2Proof.Machine

/-- rd = memory at ra + sext(imm11). -/
def State.loadImm (s : State) (c : CoreId) (g : Guard) (rd ra : RegNum) (imm : BitVec 11) (n : Nat) (sx : Bool)
    (ecc : Ecc) : State :=
  s.run32 c g true fun p s => s.load c p 4 ((s.core p).reg ra + imm.signExtend 32) n sx rd none ecc

/-- Memory at ra + sext(imm11) = rs. -/
def State.storeImm (s : State) (c : CoreId) (g : Guard) (rs ra : RegNum) (imm : BitVec 11) (n : Nat) (ecc : Ecc) :
    State :=
  s.run32 c g true fun p s =>
    s.store c p 4 ((s.core p).reg ra + imm.signExtend 32) n ((s.core p).reg rs) none ecc

/-- LDX and STX: reserved sizes and modes are illegal whatever the guard; AM 4 with an unfit buffer when it runs. -/
def State.indexed (s : State) (c : CoreId) (g : Guard) (ra : RegNum) (am : AddrMode) (sz : SizeCode)
    (f : Nat → Word → Option (RegNum × Word) → State → State) : State :=
  s.run32 c g (!sizeReserved sz && !AddrMode.isReserved am) fun p s =>
    match AddrMode.resolve am (s.core p) ra (sizeLog sz) with
    | none => s.fault c p { vec := 1 }
    | some (a, b) => f p a (b.map fun w => (ra, w)) s

def execLdb (c : CoreId) (g : Guard) (rd ra : RegNum) (imm : BitVec 11) (ecc : Ecc) (s : State) :
    Host.Outcome State Fault Refusal :=
  .next (s.loadImm c g rd ra imm 1 true ecc)

def execLdbu (c : CoreId) (g : Guard) (rd ra : RegNum) (imm : BitVec 11) (ecc : Ecc) (s : State) :
    Host.Outcome State Fault Refusal :=
  .next (s.loadImm c g rd ra imm 1 false ecc)

def execLdh (c : CoreId) (g : Guard) (rd ra : RegNum) (imm : BitVec 11) (ecc : Ecc) (s : State) :
    Host.Outcome State Fault Refusal :=
  .next (s.loadImm c g rd ra imm 2 true ecc)

def execLdhu (c : CoreId) (g : Guard) (rd ra : RegNum) (imm : BitVec 11) (ecc : Ecc) (s : State) :
    Host.Outcome State Fault Refusal :=
  .next (s.loadImm c g rd ra imm 2 false ecc)

def execLdw (c : CoreId) (g : Guard) (rd ra : RegNum) (imm : BitVec 11) (ecc : Ecc) (s : State) :
    Host.Outcome State Fault Refusal :=
  .next (s.loadImm c g rd ra imm 4 false ecc)

def execStb (c : CoreId) (g : Guard) (rs ra : RegNum) (imm : BitVec 11) (ecc : Ecc) (s : State) :
    Host.Outcome State Fault Refusal :=
  .next (s.storeImm c g rs ra imm 1 ecc)

def execSth (c : CoreId) (g : Guard) (rs ra : RegNum) (imm : BitVec 11) (ecc : Ecc) (s : State) :
    Host.Outcome State Fault Refusal :=
  .next (s.storeImm c g rs ra imm 2 ecc)

def execStw (c : CoreId) (g : Guard) (rs ra : RegNum) (imm : BitVec 11) (ecc : Ecc) (s : State) :
    Host.Outcome State Fault Refusal :=
  .next (s.storeImm c g rs ra imm 4 ecc)

def execLdx (c : CoreId) (g : Guard) (rd ra : RegNum) (am : AddrMode) (sz : SizeCode) (ecc : Ecc) (s : State) :
    Host.Outcome State Fault Refusal :=
  .next (s.indexed c g ra am sz fun p a b s => s.load c p 4 a (2 ^ sizeLog sz) (sizeSigned sz) rd b ecc)

def execStx (c : CoreId) (g : Guard) (rs ra : RegNum) (am : AddrMode) (sz : SizeCode) (ecc : Ecc) (s : State) :
    Host.Outcome State Fault Refusal :=
  .next (s.indexed c g ra am sz fun p a b s => s.store c p 4 a (2 ^ sizeLog sz) ((s.core p).reg rs) b ecc)

def execSwap (c : CoreId) (g : Guard) (rd ra rb : RegNum) (ecc : Ecc) (s : State) : Host.Outcome State Fault Refusal :=
  .next (s.run32 c g true fun p s => s.atomic c p rd ra (fun _ _ => some ((s.core p).reg rb)) ecc)

def execCas (c : CoreId) (g : Guard) (rd ra rb : RegNum) (ecc : Ecc) (s : State) : Host.Outcome State Fault Refusal :=
  .next (s.run32 c g true fun p s =>
    s.atomic c p rd ra (fun old d => if old = d then some ((s.core p).reg rb) else none) ecc)

/-- The word at w30 + 4 × imm5. -/
def execLdwsp (c : CoreId) (rd : RegNum) (imm5 : BitVec 5) (ecc : Ecc) (s : State) : Host.Outcome State Fault Refusal :=
  .next (s.run16 c fun p s =>
    s.load c p 2 ((s.core p).reg 30#5 + BitVec.ofNat 32 (4 * imm5.toNat)) 4 false rd none ecc)

/-- The word at w30 + 4 × imm5. -/
def execStwsp (c : CoreId) (rs : RegNum) (imm5 : BitVec 5) (ecc : Ecc) (s : State) : Host.Outcome State Fault Refusal :=
  .next (s.run16 c fun p s =>
    s.store c p 2 ((s.core p).reg 30#5 + BitVec.ofNat 32 (4 * imm5.toNat)) 4 ((s.core p).reg rs) none ecc)

def execLdw16 (c : CoreId) (rd ra : RegNum) (ecc : Ecc) (s : State) : Host.Outcome State Fault Refusal :=
  .next (s.run16 c fun p s => s.load c p 2 ((s.core p).reg ra) 4 false rd none ecc)

def execStw16 (c : CoreId) (rs ra : RegNum) (ecc : Ecc) (s : State) : Host.Outcome State Fault Refusal :=
  .next (s.run16 c fun p s => s.store c p 2 ((s.core p).reg ra) 4 ((s.core p).reg rs) none ecc)

end Sys2Proof.Machine
end

