-- ==== Sys2Proof/Machine/Dsp.lean ====
section
/-!
DEFINITION. DSP instructions (Table CPU-6).
-/

namespace Sys2Proof.Machine

def execAdds (c : CoreId) (g : Guard) (rd ra rb : RegNum) (s : State) :
    Host.Outcome State Fault Refusal :=
  .next (s.alu c g rd ra rb (fun x y => sat32 (x.toInt + y.toInt)))

def execSubs (c : CoreId) (g : Guard) (rd ra rb : RegNum) (s : State) :
    Host.Outcome State Fault Refusal :=
  .next (s.alu c g rd ra rb (fun x y => sat32 (x.toInt - y.toInt)))

def execShls (c : CoreId) (g : Guard) (rd ra rb : RegNum) (s : State) :
    Host.Outcome State Fault Refusal :=
  .next (s.alu c g rd ra rb (fun x y => sat32 (x.toInt * 2 ^ shamt y)))

def execAdd2 (c : CoreId) (g : Guard) (rd ra rb : RegNum) (s : State) :
    Host.Outcome State Fault Refusal :=
  .next (s.alu c g rd ra rb (halves (· + ·)))

def execSub2 (c : CoreId) (g : Guard) (rd ra rb : RegNum) (s : State) :
    Host.Outcome State Fault Refusal :=
  .next (s.alu c g rd ra rb (halves (· - ·)))

def execAdds2 (c : CoreId) (g : Guard) (rd ra rb : RegNum) (s : State) :
    Host.Outcome State Fault Refusal :=
  .next (s.alu c g rd ra rb (halves fun x y => sat16 (x.toInt + y.toInt)))

def execSubs2 (c : CoreId) (g : Guard) (rd ra rb : RegNum) (s : State) :
    Host.Outcome State Fault Refusal :=
  .next (s.alu c g rd ra rb (halves fun x y => sat16 (x.toInt - y.toInt)))

def execMul2 (c : CoreId) (g : Guard) (rd ra rb : RegNum) (s : State) :
    Host.Outcome State Fault Refusal :=
  .next (s.alu c g rd ra rb (halves fun x y => round15 (x.toInt * y.toInt)))

def execCmul (c : CoreId) (g : Guard) (rd ra rb : RegNum) (s : State) :
    Host.Outcome State Fault Refusal :=
  .next (s.alu c g rd ra rb (fun x y => cmul x y false))

def execCmulj (c : CoreId) (g : Guard) (rd ra rb : RegNum) (s : State) :
    Host.Outcome State Fault Refusal :=
  .next (s.alu c g rd ra rb (fun x y => cmul x y true))

def execPack (c : CoreId) (g : Guard) (rd ra rb : RegNum) (s : State) :
    Host.Outcome State Fault Refusal :=
  .next (s.alu c g rd ra rb (fun x y => pack16 (lo16 y) (lo16 x)))

def execMulq (c : CoreId) (g : Guard) (rd ra rb : RegNum) (s : State) :
    Host.Outcome State Fault Refusal :=
  .next (s.alu c g rd ra rb mulq)

def execAbss (c : CoreId) (g : Guard) (rd ra : RegNum) (s : State) :
    Host.Outcome State Fault Refusal :=
  .next (s.aluImm c g true rd ra (fun x => sat32 (if x.toInt < 0 then -x.toInt else x.toInt)))

def execSwaph (c : CoreId) (g : Guard) (rd ra : RegNum) (s : State) :
    Host.Outcome State Fault Refusal :=
  .next (s.aluImm c g true rd ra (fun x => pack16 (lo16 x) (hi16 x)))

def execDot2 (c : CoreId) (g : Guard) (rd ra rb : RegNum) (s : State) : Host.Outcome State Fault Refusal :=
  .next (s.run32 c g true fun p s =>
    let k := s.core p
    s.toReg c p 4 rd (dot2 (k.reg rd) (k.reg ra) (k.reg rb)))

/-- The pair w[d], w[d+1]. -/
def regNext (r : RegNum) : RegNum := r + 1#5

/-- w[d] and w[d+1] accumulate the exact product; both reads precede both writes. An odd or zero d is reserved. -/
def State.accumulate (s : State) (c : CoreId) (g : Guard) (rd ra rb : RegNum) (conj : Bool) : State :=
  s.run32 c g (rd != 0#5 && !rd.getLsbD 0) fun p s =>
    let k := s.core p
    let z := cmulParts (k.reg ra) (k.reg rb) conj
    let re := sat32 ((k.reg rd).toInt + z.1)
    let im := sat32 ((k.reg (regNext rd)).toInt + z.2)
    (s.onCore p fun k => (k.setReg rd re).setReg (regNext rd) im).coreRetire c p 4

def execCmac (c : CoreId) (g : Guard) (rd ra rb : RegNum) (s : State) : Host.Outcome State Fault Refusal :=
  .next (s.accumulate c g rd ra rb false)

def execCmacj (c : CoreId) (g : Guard) (rd ra rb : RegNum) (s : State) : Host.Outcome State Fault Refusal :=
  .next (s.accumulate c g rd ra rb true)

/-- An odd ra is reserved. -/
def execCrnd (c : CoreId) (g : Guard) (rd ra : RegNum) (s : State) : Host.Outcome State Fault Refusal :=
  .next (s.run32 c g (!ra.getLsbD 0) fun p s =>
    let k := s.core p
    s.toReg c p 4 rd (pack16 (round15 (k.reg (regNext ra)).toInt) (round15 (k.reg ra).toInt)))

end Sys2Proof.Machine
end

