-- ==== Sys2Proof/Machine/Flow.lean ====
section
/-!
DEFINITION. Branches (Tables CPU-10, CPU-11), special registers (R381), exceptions and returns (R394), waits and fences
(R388, R390), cache maintenance (R389).
-/

namespace Sys2Proof.Machine

/-! ### Branches -/

/-- This address + 2 × the signed offset. -/
def State.branchTo (s : State) (c : CoreId) (p : Nat) (off : Word) : State := s.jump c p ((s.core p).pc + (off <<< 1))

/-- w31 = this address + `len`. -/
def State.linkReg (s : State) (p len : Nat) : State := s.onCore p fun k => k.setReg 31#5 (k.pc + BitVec.ofNat 32 len)

/-- An indirect branch; code in open mode shows its target (Table INS-2). -/
def State.indirect (s : State) (c : CoreId) (p : Nat) (target : Word) : State :=
  (if s.coreProt c p then s else s.flowTrace c 2 (leBytes 4 target.toNat)).jump c p target

def execB (c : CoreId) (g : Guard) (off : BitVec 21) (s : State) : Host.Outcome State Fault Refusal :=
  .next (s.run32 c g true fun p s => s.branchTo c p (off.signExtend 32))

def execBl (c : CoreId) (g : Guard) (off : BitVec 21) (s : State) : Host.Outcome State Fault Refusal :=
  .next (s.run32 c g true fun p s => (s.linkReg p 4).branchTo c p (off.signExtend 32))

def execBr (c : CoreId) (g : Guard) (ra : RegNum) (s : State) : Host.Outcome State Fault Refusal :=
  .next (s.run32 c g true fun p s => s.indirect c p ((s.core p).reg ra))

/-- The target is read before w31 is written. -/
def execBlr (c : CoreId) (g : Guard) (ra : RegNum) (s : State) : Host.Outcome State Fault Refusal :=
  .next (s.run32 c g true fun p s => (s.linkReg p 4).indirect c p ((s.core p).reg ra))

/-- rd must be 0. -/
def execBr16 (c : CoreId) (rd ra : RegNum) (s : State) : Host.Outcome State Fault Refusal :=
  .next (s.run16 c fun p s =>
    if rd ≠ 0#5 then s.fault c p { vec := 1 } else s.indirect c p ((s.core p).reg ra))

/-- rd must be 0. -/
def execBlr16 (c : CoreId) (rd ra : RegNum) (s : State) : Host.Outcome State Fault Refusal :=
  .next (s.run16 c fun p s =>
    if rd ≠ 0#5 then s.fault c p { vec := 1 } else (s.linkReg p 2).indirect c p ((s.core p).reg ra))

def execB16 (c : CoreId) (off : BitVec 10) (s : State) : Host.Outcome State Fault Refusal :=
  .next (s.run16 c fun p s => s.branchTo c p (off.signExtend 32))

/-- A 16-bit branch taken when p1 is `want`. -/
def State.branchOnP1 (s : State) (c : CoreId) (off : BitVec 10) (want : Bool) : State :=
  s.run16 c fun p s =>
    let t := (s.core p).pred 1#3 == want
    let s := s.branchBit c p t
    if t then s.branchTo c p (off.signExtend 32) else s.coreRetire c p 2

def execBt1 (c : CoreId) (off : BitVec 10) (s : State) : Host.Outcome State Fault Refusal :=
  .next (s.branchOnP1 c off true)

def execBf1 (c : CoreId) (off : BitVec 10) (s : State) : Host.Outcome State Fault Refusal :=
  .next (s.branchOnP1 c off false)

/-! ### Special registers -/

def execMfs (c : CoreId) (g : Guard) (rd : RegNum) (sp : BitVec 5) (s : State) : Host.Outcome State Fault Refusal :=
  .next (s.run32 c g true fun p s =>
    if !s.coreProt c p && specialHidden sp.toNat then s.fault c p { vec := 2 }
    else s.toReg c p 4 rd (s.readSpecialReg c p sp.toNat))

def execMts (c : CoreId) (g : Guard) (ra : RegNum) (sp : BitVec 5) (s : State) : Host.Outcome State Fault Refusal :=
  .next (s.run32 c g true fun p s =>
    if !s.coreProt c p && (specialHidden sp.toNat || sp == 0#5) then s.fault c p { vec := 2 }
    else (s.onCore p fun k => k.writeSpecialReg sp.toNat (k.reg ra)).coreRetire c p 4)

/-! ### Exceptions -/

/-- STATUS after `ERET`; a link core keeps P (R392). -/
def CoreState.leave (k : CoreState) (link : Bool) : CoreState :=
  { k with status := CoreState.mkStatus (link || k.pp) k.pie false k.pp k.pie }

/-- A return to open mode closes the trace's opaque region (R452). -/
def execEret (c : CoreId) (g : Guard) (s : State) : Host.Outcome State Fault Refusal :=
  .next (s.run32 c g true fun p s =>
    if !s.coreProt c p then s.fault c p { vec := 2 }
    else
      let dest := (s.core p).epc
      let s := s.onCore p fun k => k.leave (isLink c)
      (if s.coreProt c p then s else s.flowTrace c 4 (leBytes 4 dest.toNat)).jump c p dest)

def execSyscall (c : CoreId) (g : Guard) (code : BitVec 10) (s : State) : Host.Outcome State Fault Refusal :=
  .next (s.run32 c g true fun p s => s.trap c p ((s.core p).pc + 4#32) { vec := 0x0B, code := code.toNat })

/-- The core attempts the halfword 0x0000 or another reserved encoding. -/
def execIllegalInstruction (c : CoreId) (s : State) : Host.Outcome State Fault Refusal :=
  .next (s.run16 c fun p s => s.fault c p { vec := 1 })

/-- The fetch at the core's pc is refused: by the regions, the map or the bank, or for an uncorrectable error that it
finds there. Where none of these holds, nothing happens. -/
def execFetchFault (c : CoreId) (ecc : Ecc) (s : State) : Host.Outcome State Fault Refusal :=
  .next (match s.coreKey c with
  | none => s
  | some p =>
    let a := (s.core p).pc.toNat
    if (s.core p).waiting || (s.core p).remote.isSome then s
    else match s.fetchFault c p 4 with
      | some t => s.fault c p t
      | none => match s.place a with
        | .ram q =>
          let (s, err) := s.ramCheck q ecc
          if err then s.fault c p { vec := 9, addr := some (a / 4 * 4), fetch := true } else s
        | _ => s)

/-! ### Interrupts and late errors (R390, R395, R396) -/

/-- The lowest pending enabled line routed to the core; link cores take none (R378). -/
def State.lineFor (s : State) (c : CoreId) : Option Nat :=
  if isLink c then none
  else (List.range 16).find? fun k =>
    bitOf (s.rd R.EVR_IRQPEND_PEND) k && bitOf (s.rd R.EVR_IRQEN_EN) k && s.lineCore k == c.val

/-- The core takes that line while IE is 1. -/
def State.takeLine (s : State) (c : CoreId) (p : Nat) : State :=
  match s.lineFor c with
  | some n => if (s.core p).ie then s.enterTrap c p (s.core p).pc { vec := 0x10 + n } else s
  | none => s

def execInterruptEntry (c : CoreId) (s : State) : Host.Outcome State Fault Refusal :=
  .next (match s.coreKey c with
  | none => s
  | some p => if (s.core p).waiting || (s.core p).remote.isSome then s else s.takeLine c p)

def execImpreciseBusError (c : CoreId) (s : State) : Host.Outcome State Fault Refusal :=
  .next (match s.coreKey c with
  | none => s
  | some p =>
    let k := s.core p
    if k.waiting || k.remote.isSome then s
    else match k.lateStore with
      | [] => s
      | a :: rest =>
        ((s.onCore p fun k => { k with lateStore := rest }).bump R.CPU_COUNTS_IMPBUS).enterTrap c p k.pc
          { vec := 7, addr := some a, wr := true, imp := true })

/-! ### Waiting (R390, R397) -/

/-- The core is to stop at its next `WFE`. -/
def State.stopDue (s : State) (c : CoreId) (p : Nat) : Bool :=
  !isLink c && ((s.unit (Hdr.core p)).draining || !s.enabled (Hdr.core p) || s.flag (R.UCTL_DRAIN (Hdr.core p)))

/-- It stops, and a reset that waited for this is carried out (R43). -/
def State.coreSettle (s : State) (p : Nat) : State :=
  let s := s.coreHold (Hdr.core p)
  if s.resetDue (Hdr.core p) then s.resetNow (Hdr.core p) else s

/-- A pending enabled line lets it continue at once, into its handler if IE is 1. -/
def execWfe (c : CoreId) (g : Guard) (s : State) : Host.Outcome State Fault Refusal :=
  .next (s.run32 c g true fun p s =>
    let s := s.coreRetire c p 4
    let held := s.onCore p fun k => { k with waiting := true }
    if s.stopDue c p then held.coreSettle p
    else if (s.lineFor c).isSome then s.takeLine c p
    else held)

def execWfeWake (c : CoreId) (s : State) : Host.Outcome State Fault Refusal :=
  .next (match s.coreKey c with
  | none => s
  | some p =>
    if (s.core p).waiting && (s.lineFor c).isSome then (s.onCore p fun k => { k with waiting := false }).takeLine c p
    else s)

/-! ### Fences and cache maintenance (R388, R389) -/

/-- It waits while a store is unanswered: every other access of this model is complete when its instruction ends. -/
def execFence (c : CoreId) (g : Guard) (s : State) : Host.Outcome State Fault Refusal :=
  .next (s.run32 c g true fun p s => if s.storesOut p then s else s.coreRetire c p 4)

def execFencei (c : CoreId) (g : Guard) (s : State) : Host.Outcome State Fault Refusal :=
  .next (s.run32 c g true fun p s =>
    if s.storesOut p then s else (s.onCore p fun k => { k with icache := [] }).coreRetire c p 4)

/-- A maintenance operation on the data-cache line that holds address ra; open mode needs the permission `bit`. -/
def State.maintain (s : State) (c : CoreId) (g : Guard) (ra : RegNum) (bit : Nat) (clean drop : Bool) : State :=
  s.run32 c g true fun p s =>
    let a := ((s.core p).reg ra).toNat
    if !s.coreProt c p && !(s.core p).permits a bit then
      s.fault c p { vec := if bit = 1 then 5 else 4, addr := some a, wr := bit == 1 }
    else
      let s := match (s.core p).lineAt (lineOf a) with
        | none => s
        | some l =>
          let s := if clean then s.writeBack p l else s
          s.onCore p fun k =>
            if drop then k.dropLine l.addr
            else { k with dcache := k.dcache.map fun (x : CacheLine) => if x.addr = l.addr then { x with dirty := false } else x }
      s.coreRetire c p 4

def execDcclean (c : CoreId) (g : Guard) (ra : RegNum) (s : State) : Host.Outcome State Fault Refusal :=
  .next (s.maintain c g ra 2 true false)

def execDcinv (c : CoreId) (g : Guard) (ra : RegNum) (s : State) : Host.Outcome State Fault Refusal :=
  .next (s.maintain c g ra 1 false true)

def execDcflush (c : CoreId) (g : Guard) (ra : RegNum) (s : State) : Host.Outcome State Fault Refusal :=
  .next (s.maintain c g ra 2 true true)

def execIcinv (c : CoreId) (g : Guard) (ra : RegNum) (s : State) : Host.Outcome State Fault Refusal :=
  .next (s.run32 c g true fun p s =>
    let la := lineOf ((s.core p).reg ra).toNat
    (s.onCore p fun k => { k with icache := k.icache.filter (· != la) }).coreRetire c p 4)

end Sys2Proof.Machine
end

