-- ==== Sys2Proof/Machine/Window.lean ====
section
/-!
DEFINITION. Accesses between cohort members through their windows (R24, R395), and the cores' heartbeats (R397).
-/

namespace Sys2Proof.Machine

/-- An access from another member to a local register word or part of one. -/
def State.windowReg (s : State) (who : Who) (q size : Nat) (data : Option (List Byte)) : State × Nat × Bool :=
  let sh := 8 * (q % 4)
  if 4 < q % 4 + size then (s, 0, true)
  else match data with
  | some bs => (s.regWrite who (q / 4 * 4) (leNum bs * 2 ^ sh) ((2 ^ (8 * size) - 1) * 2 ^ sh), 0, false)
  | none =>
    let (s, v) := s.regRead who (q / 4 * 4)
    (s, v / 2 ^ sh % 2 ^ (8 * size), false)

/-- An access from another member to local RAM. -/
def State.windowRam (s : State) (q size : Nat) (data : Option (List Byte)) : State × Nat × Bool :=
  match data with
  | some bs =>
    let (s, err) := s.ramStore q bs .clean
    (s, 0, err)
  | none =>
    if s.anyPoison q size then ((s.ramCheck q .clean).1, 0, true)
    else (s, leNum ((List.range size).map fun i => s.byte (q + i)), false)

/-- The member serves a request: what it does, the value it answers, and whether it answers a bus error. -/
def State.windowServe (s : State) (h : CohHead) (off size : Nat) (data : Option (List Byte)) (agent : Nat) (prot : Bool) :
    State × Nat × Bool :=
  let size := match data with
    | some bs => bs.length
    | none => size
  if off = updWindow ∧ size = 16 ∧ agent = 1 then match data with
    | some bs => (s.updMessage (leNum (bs.take 1)) (leNum (bs.drop 1)), 0, false)
    | none => (s, s.updStage + 8 * manDigest s.upd.head, false)
  else match s.windowTarget off with
  | none => (s, 0, true)
  | some a => match s.placeLocal a with
    | .ram q =>
      if !s.rangeOn q size || !s.bankOk agent prot q || !s.bankOk agent prot (q + size - 1) then (s, 0, true)
      else s.windowRam q size data
    | .reg q => s.windowReg { stamp := (h.src + 1) * 16 + agent, prot := prot, late := h.late } q size data
    | _ => (s, 0, true)

def execCohWreq (t : Elapsed) (h : CohHead) (off size : Nat) (data : Option (List Byte)) (agent : Nat) (prot : Bool)
    (s : State) : Host.Outcome State Fault Refusal :=
  .next ((s.advance t).cohReceive h false fun s =>
    let r := s.windowServe h off size data agent prot
    r.1.issue h.src 0x06 [off, size, r.2.1, b2n r.2.2])

/-- The address of offset `off` in member `m`'s window. -/
def windowAddr (m off : Nat) : Nat := 0x60000000 + 0x4000000 * m + off

/-- A waiting load gets its value: base, then rd; or its bus error. -/
def State.remoteDone (s : State) (c : CoreId) (p : Nat) (r : RemoteLoad) (v : Nat) (error : Bool) : State :=
  let s := s.onCore p fun k => { k with remote := none }
  if error then s.fault c p { vec := 7, addr := some r.addr }
  else
    let v := v % 2 ^ (8 * r.size)
    let w := if r.signExt then BitVec.ofInt 32 (signed (8 * r.size) v) else BitVec.ofNat 32 v
    let s := match r.base with
      | some (b, x) => s.onCore p fun k => k.setReg (BitVec.ofNat 5 b) x
      | none => s
    let s := s.onCore p fun k => { k.setReg (BitVec.ofNat 5 r.rd) w with pc := r.nextPc }
    if isLink c then s else s.count (102 + c.val)

/-- The oldest unanswered store to address `a` is answered; an error comes late. -/
def CoreState.storeDone (k : CoreState) (a : Nat) (error : Bool) : CoreState :=
  match k.stores.find? (·.1 == a) with
  | none => k
  | some x => { k with stores := k.stores.erase x, lateStore := if error then k.lateStore ++ [a] else k.lateStore }

/-- An answer from member `m` completes the access it belongs to. -/
def State.windowAnswer (s : State) (m off value : Nat) (error : Bool) : State :=
  let a := windowAddr m off
  let loads := fun (c : CoreId) => match s.coreKey c with
    | some p => (s.core p).remote.any (·.addr == a)
    | none => false
  let stores := fun (c : CoreId) => match s.coreKey c with
    | some p => (s.core p).stores.any (·.1 == a)
    | none => false
  if off = updWindow ∧ s.upd.preparing.isSome then s.prepareAnswer m (value % 8) (value / 8)
  else match (List.finRange 6).find? loads with
  | some c => match s.coreKey c with
    | some p => match (s.core p).remote with
      | some r => s.remoteDone c p r value error
      | none => s
    | none => s
  | none => match (List.finRange 6).find? stores with
    | some c => match s.coreKey c with
      | some p => s.onCore p fun k => k.storeDone a error
      | none => s
    | none => s

def execCohWrsp (t : Elapsed) (h : CohHead) (off value : Nat) (error : Bool) (s : State) :
    Host.Outcome State Fault Refusal :=
  .next ((s.advance t).cohReceive h false fun s => s.windowAnswer h.src off value error)

/-- A window access of the core is 8 µs old and unanswered: a load is a bus error, a store's comes late. -/
def State.windowTimeout (s : State) (c : CoreId) (p : Nat) : State :=
  match (s.core p).remote with
  | some r => if r.issued + 8000 ≤ s.clk.ns then s.remoteDone c p r 0 true else s
  | none => match (s.core p).stores with
    | [] => s
    | (a, at_) :: _ => if at_ + 8000 ≤ s.clk.ns then s.onCore p fun k => k.storeDone a true else s

def execWindowAccessTimeout (t : Elapsed) (c : CoreId) (s : State) : Host.Outcome State Fault Refusal :=
  let s := s.advance t
  .next (match s.coreKey c with
  | some p => s.windowTimeout c p
  | none => s)

/-- A write of CPU_HBc; its value has no meaning. -/
def execCoreHeartbeat (t : Elapsed) (who : Who) (c value : Nat) (s : State) : Host.Outcome State Fault Refusal :=
  let s := s.advance t
  .next (if s.domOn Dom.sys then s.regWrite who (0x40046080 + 4 * c) value 0xFFFFFFFF else s)

end Sys2Proof.Machine
end

