-- ==== Sys2Proof/Machine/Startup.lean ====
section
/-!
DEFINITION. Start-up (R25-R32, R357, R366, R368, R379, R404, R416, R433, R434, R443, R457, R461): power-on, the stages
and their bounds, slot selection, homeroom's entry, the rail, NRST and the switch-back of BKP.
-/

namespace Sys2Proof.Machine

/-! ### Domains that come on at a stage -/

/-- Domain `n` comes on at a start-up stage: its units' timers begin, and what its coming on brings about. -/
def State.stageOn (s : State) (n : Nat) : State :=
  if s.domOn n then s else (s.setDom n { s.dom n with target := 2 }).domArrive n

/-! ### The ledger at stage 3 (R457) -/

/-- What a record slot holds: nothing, a record whose CHECK fails, or SEQ and the record. -/
def State.ledgerRead (s : State) (a : Nat) : Option (Option (Nat × LedgerRec)) :=
  let b := s.bytes a 32
  if b.all (· == 0xFF#8) then none
  else if crc32 (b.take 28) ≠ imgNum b 28 4 then some none
  else some (some (imgNum b 0 4,
    { kind := imgNum b 4 1, flags := imgNum b 5 1, type := imgNum b 6 2, logical := imgNum b 8 2, old := imgNum b 10 2,
      new := imgNum b 12 2, cause := imgNum b 14 1, stamp := imgNum b 16 7, cal := imgNum b 24 4 }))

/-- Puts a record into a list of ascending SEQ. -/
def insertSeq (r : Nat × LedgerRec) : List (Nat × LedgerRec) → List (Nat × LedgerRec)
  | [] => [r]
  | q :: l => if r.1 < q.1 then r :: q :: l else q :: insertSeq r l

/-- The array a record's TYPE names. -/
def arrOfType (type : Nat) : Option Arr := [Arr.lane, .dec, .cip, .core].find? (·.type == type)

/-- A member named OLD was retired. -/
def State.ledgerRetire (s : State) (a : Arr) (p : Nat) : State :=
  if p < a.physical then s.setUnit (a.hdr p) fun u => { u with retired := true } else s

/-- What one standing record brings about. -/
def State.ledgerApply (s : State) (r : LedgerRec) : State :=
  match r.kind with
  | 0x05 =>
    (s.setMem fun m => { m with remaps := m.remaps ++ [(r.logical, r.old, r.new)] }).srmShow r.logical
  | 0x06 => (s.put (R.SRM_BANK_MAPPED r.logical) false).setDom (Dom.bank r.logical) {}
  | 0x07 => (s.setMem fun m => { m with nvmRemaps := m.nvmRemaps ++ [(r.old, r.new)] }).wr R.NVM_SPARES_FREE
      (s.rd R.NVM_SPARES_FREE - 1)
  | 0x08 => s.setMem fun m => { m with pprList := m.pprList ++ [(r.logical, r.old)] }
  | 0x09 => s.wr R.DMC_PPR_SPENT (s.rd R.DMC_PPR_SPENT ||| 2 ^ (r.logical % 8))
  | k => match arrOfType r.type with
    | none => s
    | some a =>
      if a.logical ≤ r.logical then s
      else if k = a.kind then s.wr (a.mapPhys r.logical) r.new
      else if k = 0x0A then (s.put (a.mapInService r.logical) false).put (R.UFAULT_DEGRADED a.ens) true
      else s

/-- The records of every block whose CHECK holds, in ascending SEQ: the last one of each TYPE and LOGICAL stands; a
member that any of them names OLD is retired, and so is one that its own number no longer uses. Writing goes on after
the highest SEQ. -/
def State.ledgerReplay (s : State) : State :=
  let at_ := fun (b i : Nat) => s.ledgerRead (ledgerAddr b i)
  let slots := (List.range 4).flatMap fun b => (List.range 2048).map fun i => (b, i)
  let good := (slots.filterMap fun p => (at_ p.1 p.2).bind id).foldl (fun l r => insertSeq r l) []
  let bad := (slots.filter fun p => at_ p.1 p.2 == some none).length
  let force := good.foldl (fun l r => l.filter (fun x => !r.2.same x) ++ [r.2]) []
  let members := good.filter fun r => [1, 2, 3, 4, 0x0A].contains r.2.kind
  let s := members.foldl (fun s r => match arrOfType r.2.type with
    | some a => s.ledgerRetire a r.2.old
    | none => s) s
  let s := force.foldl State.ledgerApply s
  let s := [Arr.lane, .dec, .cip, .core].foldl (fun s a =>
    ((List.range a.logical).filter fun n => s.physOf a n != n).foldl (fun s n => s.ledgerRetire a n) s) s
  let last := ((good.getLast?).map (·.1)).getD 0
  let place := (slots.find? fun p => (at_ p.1 p.2).bind id |>.any (·.1 == last)).getD (0, 0)
  let used := ((List.range 2048).filter fun i => (at_ place.1 i).isSome).length
  let s := s.setLedger fun l => { l with inForce := force, seq := (last + 1) % 2 ^ 32, block := place.1, slot := used }
  let s := (s.wr R.INS_LEDGER_BADREC (min 255 bad)).wr R.INS_LEDGER_LAST (last % 65536)
  s.wr R.DMC_PPR_PENDING (min 255 s.mem.pprList.length)

/-! ### Self-tests (R184, R198, R303, R398, R404) -/

/-- A physical member that failed its start-up self-test is retired. -/
def State.memberFails (s : State) (x : Nat × Nat) : State :=
  match [Arr.lane, .dec, .cip, .core][x.1]? with
  | some a =>
    if a.physical ≤ x.2 ∨ (s.unit (a.hdr x.2)).retired then s
    else
      let h := a.hdr x.2
      (s.retire a x.2 1).wr (R.UFAULT_DETAIL h) (s.rd (R.UFAULT_DETAIL h) ||| 2)
  | none => s

/-- Bank `b`'s failing rows: each is remapped, with nothing to copy; a bank with more of them than spares leaves the
map. -/
def State.bankTest (s : State) (rows : List (Nat × Nat)) (b : Nat) : State :=
  let mine := ((rows.filter (·.1 == b)).map (·.2)).eraseDups
  if !s.flag (R.SRM_BANK_MAPPED b) || mine.isEmpty then s
  else if (s.freeSpares b).length < mine.length then
    let s := ((s.put (R.SRM_BANK_MAPPED b) false).setDom (Dom.bank b) {}).wr (R.UFAULT_CODE Hdr.srm) 1
    (s.wr (R.UFAULT_DETAIL Hdr.srm) b).ledgerPost 0x06 0x0021 b b 0xFFFF 1
  else mine.foldl (fun s row => match s.freeSpares b with
    | k :: _ => s.remapSwitch (b, row, k) 1
    | [] => s) s

/-! ### Homeroom's entry (R29, R444) -/

/-- Homeroom begins, with the entry cause that HELLO tells. Its domains are on; the active slot is the one the commit
record names. -/
def State.homeroom (s : State) (cause : Nat) : State :=
  let s := { s with phase := .homeroom, boot := { s.boot with at_ := s.clk.ns } }
  let banks := (List.range 32).filter fun b => s.flag (R.SRM_BANK_MAPPED b)
  let s := ([1, 2, 13, 14, 9] ++ banks.map Dom.bank ++ [8, 11, 10, 12]).foldl State.stageOn s
  let floor := s.recordFloor
  let act := ((s.recordInForce).map fun r => imgNum r.2 4 1 % 2).getD 0
  let s := (s.wr R.UPD_STATUS_ACTIVE act).wr R.UPD_FLOOR_FLOOR floor
  let home : HomeState := { cause := cause, byTag := cause == 3, at_ := s.clk.ns, baud := s.rescueBaud,
                            passA := s.slotPasses 0 floor, passB := s.slotPasses 1 floor }
  s.setHome fun _ => home

/-! ### Slot selection at stage 5 (R434, Table UPD-5) -/

/-- Boot ROM writes a record into the copy not in force. -/
def State.bootRecord (s : State) (active state boots fallback floor digest epoch : Nat) : State :=
  let (c, seq) := s.recordNext
  (s.norErase (recordAddr c) 4096).norProgram (recordAddr c) (recordBytes seq active state boots fallback floor digest epoch)

/-- `slot` is to run: UPD's registers and the reset vector of its application image. -/
def State.runSlot (s : State) (slot stage : Nat) : State :=
  let head := s.slotHead slot
  let rec_ := ((s.recordInForce).map (·.2)).getD []
  let app := ((stagedParts head s.updMember).find? fun e => partType head e == 1).getD 0
  let entry := 0x24000000 + partOffset head app + partNum head app 12 4
  let s := (((s.wr R.UPD_STATUS_ACTIVE slot).setUpdStage stage).wr R.UPD_VERSION_VERSION (manVersion head)).wr
    R.UPD_FLOOR_FLOOR (imgNum rec_ 8 4)
  let s := ((s.put R.UPD_STATUS_FBVALID (bitOf (imgNum rec_ 7 1) 7)).wr R.UPD_TRIAL_BOOTS (imgNum rec_ 6 1 % 4)).wr
    R.UPD_DIGEST_LO_DIGEST (imgNum rec_ 12 4)
  (s.wr R.UPD_DIGEST_HI_DIGEST (imgNum rec_ 16 4)).wr R.CPU_RESETVEC_ADDR (entry / 2 % 2 ^ 31)

/-- The start follows a revert. -/
def State.bootReverted (s : State) : State :=
  ((s.put R.UPD_STATUS_REVERTED true).bump R.UPD_COUNTS_REVERTS).setUpd fun u => { u with reverted := false }

/-- The selection: the slot to run and STAGE, or none. -/
def State.selectSlot (s : State) : State × Option (Nat × Nat) :=
  match s.recordInForce with
  | none =>
    match [0, 1].find? fun k => s.slotPasses k 0 with
    | some k => (s.bootRecord k 0 0 0 0 (manDigest (s.slotHead k)) 0, some (k, 0))
    | none => (s, none)
  | some (_, r) =>
    let a := imgNum r 4 1 % 2
    let floor := imgNum r 8 4
    let epoch := imgNum r 20 4
    let settle := fun (s : State) (k : Nat) =>
      (s.bootRecord k 0 0 0 floor (manDigest (s.slotHead k)) epoch).wr R.DEV_RESTART_CAUSE 4
    if imgNum r 5 1 = 0 then
      if s.slotPasses a floor then (s, some (a, 0))
      else if s.slotPasses (1 - a) floor then (settle s (1 - a), some (1 - a, 0))
      else (s, none)
    else if imgNum r 6 1 < 3 ∧ s.slotPasses a floor then
      (s.bootRecord a 1 (imgNum r 6 1 + 1) (imgNum r 7 1) floor (imgNum r 12 8) epoch, some (a, 3))
    else
      let fb := imgNum r 7 1 % 2
      let s := (settle s fb).bootReverted
      (s, if s.slotPasses fb floor then some (fb, 0) else none)

/-! ### The settings store (R443) -/

def storeAddr (copy : Nat) : Nat := 0x21800000 + 0x100000 * copy

/-- SEQ and SCHEMA of a copy whose CRC holds. -/
def State.storeCopy (s : State) (copy : Nat) : Option (Nat × Nat) :=
  let b := s.bytes (storeAddr copy) 0x100000
  if crc32 (b.take 0xFFFFC) = imgNum b 0xFFFFC 4 then some (imgNum b 0 4, imgNum b 4 2) else none

/-- The `n` records from `b`, those of class 0 left out, and how many stay. -/
def storeKeep : Nat → List Byte → List Byte × Nat
  | 0, _ => ([], 0)
  | n + 1, b =>
    let len := 4 * ceilDiv (6 + imgNum b 4 2) 4
    let (rest, k) := storeKeep n (b.drop len)
    if imgNum b 2 1 = 0 then (rest, k) else (b.take len ++ rest, k + 1)

/-- What a copy becomes under SCHEMA `schema`: SEQ one higher, the class 0 records gone, the rest in place. -/
def migrated (b : List Byte) (seq schema : Nat) : List Byte :=
  let (keep, n) := storeKeep (imgNum b 6 2) (b.drop 16)
  (leBytes 4 ((seq + 1) % 2 ^ 32) ++ leBytes 2 schema ++ leBytes 2 n ++ (b.drop 8).take 8 ++ keep ++
    List.replicate 0x100000 0xFF#8).take 0xFFFFC

/-- Copy `copy`, migrated, goes into the other copy's place. -/
def State.storeWrite (s : State) (schema copy seq : Nat) : State :=
  let body := migrated (s.bytes (storeAddr copy) 0x100000) seq schema
  (s.norErase (storeAddr (1 - copy)) 0x100000).norProgram (storeAddr (1 - copy)) (body ++ leBytes 4 (crc32 body))

/-- The copy to migrate and its SEQ, of the copies' SEQ and SCHEMA: none when one has the running SCHEMA or none is
valid, else the one of the higher SEQ. -/
def migrateFrom (schema : Nat) : Option (Nat × Nat) → Option (Nat × Nat) → Option (Nat × Nat)
  | none, none => none
  | some a, none => if a.2 = schema then none else some (0, a.1)
  | none, some b => if b.2 = schema then none else some (1, b.1)
  | some a, some b =>
    if a.2 = schema ∨ b.2 = schema then none else if a.1 < b.1 then some (1, b.1) else some (0, a.1)

/-- Migrates the copy that is named, if one is. -/
def State.storeFrom (s : State) (schema : Nat) : Option (Nat × Nat) → State
  | none => s
  | some c => s.storeWrite schema c.1 c.2

/-- No copy has the running SCHEMA: the copy of the higher SEQ goes without its class 0 records into the other one. -/
def State.storeMigrate (s : State) (schema : Nat) : State :=
  s.storeFrom schema (migrateFrom schema (s.storeCopy 0) (s.storeCopy 1))

/-! ### Owners (R32, R86) -/

/-- Every unit page and every ensemble header of DEV. -/
def ownedHeaders : List Nat :=
  ((List.range 0x200).map fun k => 0x40000000 + 0x1000 * k).filter pageAssigned ++
    [Hdr.rad, Hdr.lke, Hdr.ctl, Hdr.tme, Hdr.mem, Hdr.pre, Hdr.svc]

/-- The defaults. -/
def State.defaultOwners (s : State) : State :=
  let s := ownedHeaders.foldl (fun s h => (s.wr (R.UOWNER_OWNER h) 2).wr (R.UOWNER_P h) 1) s
  let s := (List.range 16).foldl (fun s n => (s.wr (R.RNG_OWN_OWNER n) 2).wr (R.RNG_OWN_P n) (b2n (n == 0))) s
  (List.range 96).foldl (fun s c => (s.wr (R.EVR_CHOWN_OWNER c) 2).wr (R.EVR_CHOWN_P c) 0) s

/-- The ownership table overrides the targets it names. -/
def State.tableOwners (s : State) (l : List (Nat × Nat × Nat × Bool)) : State :=
  l.foldl (fun s o => match ownerFields o.1 o.2.1 with
    | some (fo, fp) => (s.wr fo o.2.2.1).wr fp (b2n o.2.2.2)
    | none => s) s

/-! ### Stages -/

/-- Stage `n` begins. -/
def State.stageBegin (s : State) (n : Nat) : State := { s with phase := .stage n, boot := { s.boot with at_ := s.clk.ns } }

/-- Stage 1 begins: the path of power-on (R28). -/
def State.stageOne (s : State) : State :=
  let s := { s with boot := {}, pins := { s.pins with nstat := true } }.stageBegin 1
  ((s.wr R.DEV_RESTART_CAUSE 0).wr R.DEV_RESTART_WARM 0).wr R.DEV_RESTART_ESCTYPE 0

/-- Stage 5 begins, or homeroom in its place (R29). -/
def State.stageFive (s : State) : State :=
  if s.pins.bootsel then s.homeroom 1 else if s.homereq then s.homeroom 3 else s.stageBegin 5

/-- End of stage 1: the rails are good. Stage 2 waits while NRST is low (R461). -/
def State.endOne (s : State) : State :=
  let s := { s with pins := { s.pins with rail := true }, boot := { s.boot with railAt := some s.clk.ns } }
  if s.pins.nrstLow then { s with phase := .off } else s.stageTwo

/-- End of stage 2: BOOTSEL is sampled; NVM and the banks come on. -/
def State.endTwo (s : State) (x : StageEnd) : State :=
  let s := { s with pins := { s.pins with bootsel := x.bootsel } }.stageBegin 3
  ([9] ++ (List.range 32).map Dom.bank).foldl State.stageOn s

/-- End of stage 3. -/
def State.endThree (s : State) (x : StageEnd) : State :=
  let s := s.ledgerReplay
  let s := (List.range 32).foldl (fun s b => s.bankTest x.rows b) s
  let s := (x.failed.foldl State.memberFails s)
  let s := { s with boot := { s.boot with three := true } }
  if s.boot.four then s.stageFive else { s with phase := .stage 4 }

/-- End of stage 5: a slot is selected, or none passes. Listed rows are repaired and DRAM comes on (R416). -/
def State.endFive (s : State) : State :=
  let s := if s.upd.reverted then s.bootReverted else s
  match s.selectSlot with
  | (s, some (slot, stage)) => (((s.runSlot slot stage).stageBegin 6).dramRepair).stageOn Dom.dram
  | (s, none) => s.homeroom 2

/-- The power table's states are taken at stage 6. -/
def State.tableDomains (s : State) (l : List (Nat × Nat)) : State :=
  l.foldl (fun s d =>
    if d.2 = 2 then s.stageOn d.1
    else if (s.dom d.1).state ≤ d.2 then s.setDom d.1 { state := d.2, target := d.2 }
    else (s.setDom d.1 { state := 1, target := d.2 }).domLeave d.1 d.2) s

/-- Domains of a later stage come on unless the power table sets them otherwise. -/
def State.stageDomains (s : State) (l : List (Nat × Nat)) (ns : List Nat) : State :=
  (ns.filter fun n => !l.any (·.1 == n)).foldl State.stageOn s

/-- End of stage 6: link firmware has the settings; owners, attributes and domains are as they say (R31, R400, R417). -/
def State.endSix (s : State) (x : StageEnd) : State :=
  let c := x.settings
  let s := (s.trainEnd x.win0 x.win1).storeMigrate (manSchema (s.slotHead (s.rd R.UPD_STATUS_ACTIVE)))
  let s := s.defaultOwners.tableOwners c.owners
  let s := match c.attrs with
    | some (a, b) => (s.wr R.SRM_PROT0_ATTR a).wr R.SRM_PROT1_ATTR (setBitsOf b 24 8 0xAA)
    | none => s
  let s := match c.cohort with
    | some (n, i) => (s.wr R.COH_CFG_COUNT n).wr R.COH_CFG_INDEX i
    | none => s
  let s := s.wr R.COH_EPOCH_EPOCH c.epoch
  let s := match c.short with
    | some a => (s.wr R.LNK_ADDR_SHORT a).put R.LNK_ADDR_VALID true
    | none => s
  ((s.tableDomains c.domains).stageBegin 7).stageDomains c.domains [11, 10, 12]

/-- The banks that the store's tables give (R160, R167, R216, R219, R257). -/
def Settings.bank (c : Settings) : Bank :=
  let pick := fun (b : Option (List Byte)) (d : Store) => match b with
    | some l => Store.setBytes [] 0 l
    | none => d
  { chan := pick c.chan [], watch := pick c.watch [], rules := pick c.rules [], ttb := pick c.ttb [],
    power := pick c.power defaultBank.power, sched := pick c.sched defaultBank.sched }

/-- The receive calibrations of stage 7, all six items (R128, R132, R134). -/
def State.startCap (s : State) (fail : BitVec 6) : State :=
  if !s.domOn Dom.rxa then s
  else
    let s := (List.range 6).foldl (fun s i => s.capItemDone i (!fail.getLsbD i)) s
    if fail = 0#6 then s.put R.CAP_STATUS_READY true else s

/-- One full calibration for each VALID channel entry, then the power check (R211). -/
def State.startSyn (s : State) (fail : List Nat) (power : Option Nat) : State :=
  if !s.domOn Dom.txa then s
  else
    let all := (List.range 256).filter fun i => (s.chan s.gen.active i).valid
    let s := all.foldl (fun s i =>
      let r : SliceRun := { item := 1, kind := 0, entry := i, forced := false, start := 0, due := 0 }
      let (v, s) := s.free
      if fail.contains i then
        (((s.sliceFailed r).wr R.SYN_CALSTAT_FAIL (s.rd R.SYN_CALSTAT_FAIL ||| 1)).unitFault Hdr.syn 6 0).bump
          R.SYN_COUNTS_CALFAIL
      else s.sliceResult r v) s
    let r : SliceRun := { item := 8, kind := 3, forced := false, start := 0, due := 0 }
    let good := power.any fun v => decide ((signed 16 v).natAbs ≤ 30)
    let s := if good then s.sliceResult r (power.getD 0)
      else ((s.wr R.SYN_CALSTAT_FAIL (s.rd R.SYN_CALSTAT_FAIL ||| 8)).unitFault Hdr.syn 6 3).bump R.SYN_COUNTS_CALFAIL
    if good && !all.any fail.contains then s.put R.SYN_STATUS_READY true else s

/-- End of stage 7: tables loaded into both banks, the airtime ledger empty, the calibrations done. The domains of the
cores in service come on. -/
def State.endSeven (s : State) (x : StageEnd) : State :=
  let b := Settings.bank x.settings
  let s := { s with tab := { s.tab with act := b, ina := b } }
  let s := x.failed.foldl State.memberFails s
  let s := (s.ledgerStart.timetableSwitched).decideActive
  let s := (s.startCap x.capFail).startSyn x.synFail x.power
  let cores := ((List.range 4).filter fun c => s.inService .core c).map fun c => Dom.app (s.physOf .core c)
  (s.stageBegin 8).stageDomains x.settings.domains cores

/-- End of stage 8: the cores start, DEV is ready, NSTAT is released, a trial's window begins (R379, R441). -/
def State.endEight (s : State) (x : StageEnd) : State :=
  let s := { s with phase := .running, pins := { s.pins with nstat := false } }
  let s := x.failed.foldl State.memberFails s
  let s := s.put R.DEV_STATUS_READY true
  let s := ((List.range 4).filter fun c => s.inService .core c).foldl (fun s c =>
    let p := s.physOf .core c
    if s.domOn (Dom.app p) then s.coreStart p else s) s
  if s.updStage = 3 then
    let w := manTrialNs (s.slotHead (s.rd R.UPD_STATUS_ACTIVE))
    s.setUpd fun u => { u with trialEnd := some (s.clk.ns + w) }
  else s

/-- The running stage ends; stage 4 ends with the switch-back. -/
def State.stageEnd (s : State) (x : StageEnd) : State :=
  match s.phase with
  | .stage 1 => s.endOne
  | .stage 2 => s.endTwo x
  | .stage 3 => s.endThree x
  | .stage 5 => s.endFive
  | .stage 6 => s.endSix x
  | .stage 7 => s.endSeven x
  | .stage 8 => s.endEight x
  | _ => s

def execStartUpStageEnd (t : Elapsed) (x : StageEnd) (s : State) : Host.Outcome State Fault Refusal :=
  .next ((s.advance t).stageEnd x)

/-- Bounds of Table ARC-8, ns; stage 4's from the rail's becoming stable. -/
def stageBound (n : Nat) : Nat :=
  match n with
  | 1 => 3000000
  | 2 => 2500000
  | 3 => 8000000
  | 4 => 10500000
  | 5 => 160000000
  | 6 => 30000000
  | 7 => 150000000
  | _ => 5000000

/-- A running stage has passed its bound: start-up ends in homeroom. The chapters give its entry cause no number. -/
def State.stageOver (s : State) : State :=
  let four := !s.boot.four && s.boot.railAt.any fun r => decide (r + stageBound 4 < s.clk.ns)
  let run := match s.phase with
    | .stage n => four || (n != 4 && decide (s.boot.at_ + stageBound n < s.clk.ns))
    | _ => false
  if run then
    let (v, s) := s.free
    let s := s.homeroom (v % 256)
    s.setHome fun h => { h with byTag := false }
  else s

def execStartUpStageBoundExpiry (t : Elapsed) (s : State) : Host.Outcome State Fault Refusal :=
  .next ((s.advance t).stageOver)

/-! ### Supplies (R28, R357, R366, R368) -/

/-- VMAIN rises above 5.5 V: the buck starts, stage 1 begins. -/
def State.powerOn (s : State) (vmain : Nat) : State :=
  if s.pins.rail || s.phase != .off || decide (vmain ≤ 5500) then s
  else { s with pins := { s.pins with vmain := vmain } }.stageOne

def execPowerOn (t : Elapsed) (vmain : Nat) (s : State) : Host.Outcome State Fault Refusal :=
  .next ((s.advance t).powerOn vmain)

/-- The rail falls below 2.9 V: BKP goes to its backup sources, every other domain is reset. Start-up returns to stage 1
while the buck still runs, that is with VMAIN at 4.8 V or more. -/
def State.railFall (s : State) (vmain : Nat) : State :=
  if !s.pins.rail then s
  else
    let s := (s.onMain false).resetDomains .off
    let s := { s with pins := { s.pins with rail := false, vmain := vmain }, boot := {} }
    if 4800 ≤ vmain then s.stageOne else s

def execRailFall (t : Elapsed) (vmain : Nat) (s : State) : Host.Outcome State Fault Refusal :=
  .next ((s.advance t).railFall vmain)

/-- The rail recovers without having reached 2.9 V: the running stage continues; the wait for the switch-back counts
from when the rail is stable again (R366). -/
def State.railRecovery (s : State) : State :=
  match s.phase with
  | .stage n =>
    if 2 ≤ n ∧ !s.boot.four ∧ s.boot.railAt.isSome then { s with boot := { s.boot with railAt := some s.clk.ns } } else s
  | _ => s

def execRailRecovery (t : Elapsed) (s : State) : Host.Outcome State Fault Refusal := .next ((s.advance t).railRecovery)

/-- VBKP returns to main 10 ms after the rail became stable; a token that fails gives a cold start, and tempo taken
from the keeper starts again in ABSENT (R368). -/
def State.switchBack (s : State) : State :=
  match s.boot.railAt with
  | none => s
  | some r =>
    if s.boot.four || !s.pins.rail || decide (s.clk.ns < r + 10000000) then s
    else
      let s := if s.bkp.token then s
        else
          let s := s.bkpCold
          if s.domOn Dom.msn && s.rd R.TMP_STATUS_STATE == 3 then
            (((s.tempoGo 0).setTmp fun _ => {}).setAligned false).tempoStart
          else s
      let s : State := { s.onMain true with boot := { s.boot with four := true } }
      if s.phase == .stage 4 then s.stageFive else s

def execBkpSwitchBack (t : Elapsed) (s : State) : Host.Outcome State Fault Refusal := .next ((s.advance t).switchBack)

/-! ### NRST (R461) -/

/-- NRST goes low for `low` ns or more. Below 200 ns it never resets, from 1 µs it always does; between them a free value
decides. With no supply or in stage 1 it only holds stage 2 back; a homeroom it ends has CAUSE 3 (R444). -/
def State.nrstAssert (s : State) (low : Nat) : State :=
  let (v, s) := if 200 ≤ low ∧ low < 1000 then s.free else (b2n (decide (1000 ≤ low)), s)
  if low < 200 || v % 2 = 0 || s.pins.nrstLow then s
  else
    let s := { s with pins := { s.pins with nrstLow := true } }
    if !s.pins.rail then s
    else if s.phase = .homeroom then s.homeEnd.resetDomains .off
    else ((s.wr R.DEV_RESTART_CAUSE 1).wr R.DEV_RESTART_ESCTYPE 0).resetDomains .off

def execNrstAssert (t : Elapsed) (low : Nat) (s : State) : Host.Outcome State Fault Refusal :=
  .next ((s.advance t).nrstAssert low)

/-- NRST rises: start-up resumes at stage 2. -/
def State.nrstRelease (s : State) : State :=
  if !s.pins.nrstLow then s
  else
    let s := { s with pins := { s.pins with nrstLow := false } }
    if s.pins.rail ∧ s.phase = .off then s.stageTwo else s

def execNrstRelease (t : Elapsed) (s : State) : Host.Outcome State Fault Refusal := .next ((s.advance t).nrstRelease)

end Sys2Proof.Machine
end

