-- ==== Sys2Proof/Machine/Dispatch.lean ====
section
/-!
DEFINITION. The effect of each command: one arm per row of the table of operations and events.
-/

namespace Sys2Proof.Machine

def exec (i : Instr) (s : State) : Host.Outcome State Fault Refusal :=
  match i with
  | .powerOn t vmain => Sys2Proof.Machine.execPowerOn t vmain s
  | .startUpStageEnd t x => Sys2Proof.Machine.execStartUpStageEnd t x s
  | .startUpStageBoundExpiry t => Sys2Proof.Machine.execStartUpStageBoundExpiry t s
  | .railFall t vmain => Sys2Proof.Machine.execRailFall t vmain s
  | .railRecovery t => Sys2Proof.Machine.execRailRecovery t s
  | .nrstAssert t low => Sys2Proof.Machine.execNrstAssert t low s
  | .nrstRelease t => Sys2Proof.Machine.execNrstRelease t s
  | .bkpSwitchBack t => Sys2Proof.Machine.execBkpSwitchBack t s
  | .tokenClear t => Sys2Proof.Machine.execTokenClear t s
  | .forcedColdStart t who => Sys2Proof.Machine.execForcedColdStart t who s
  | .registerWrite t who addr value => Sys2Proof.Machine.execRegisterWrite t who addr value s
  | .unitDisable t who unit value => Sys2Proof.Machine.execUnitDisable t who unit value s
  | .unitEnable t who unit value => Sys2Proof.Machine.execUnitEnable t who unit value s
  | .unitDrain t who unit value => Sys2Proof.Machine.execUnitDrain t who unit value s
  | .unitResume t who unit value => Sys2Proof.Machine.execUnitResume t who unit value s
  | .unitResetRequest t who unit value => Sys2Proof.Machine.execUnitResetRequest t who unit value s
  | .unitPowerOnRequest t who unit value => Sys2Proof.Machine.execUnitPowerOnRequest t who unit value s
  | .unitLapse t unit => Sys2Proof.Machine.execUnitLapse t unit s
  | .unitReturnToService t unit => Sys2Proof.Machine.execUnitReturnToService t unit s
  | .doorbell t who ring prod => Sys2Proof.Machine.execDoorbell t who ring prod s
  | .descriptorFetch t ring => Sys2Proof.Machine.execDescriptorFetch t ring s
  | .timedStart t ring idx => Sys2Proof.Machine.execTimedStart t ring idx s
  | .fenceRelease t ring idx => Sys2Proof.Machine.execFenceRelease t ring idx s
  | .completionWrite t ring => Sys2Proof.Machine.execCompletionWrite t ring s
  | .cqconsWrite t who ring cons => Sys2Proof.Machine.execCqconsWrite t who ring cons s
  | .ringEnable t who ring value => Sys2Proof.Machine.execRingEnable t who ring value s
  | .ringDisable t who ring value => Sys2Proof.Machine.execRingDisable t who ring value s
  | .nop t ring idx => Sys2Proof.Machine.execNop t ring idx s
  | .commit t idx => Sys2Proof.Machine.execCommit t idx s
  | .commitBoundary t => Sys2Proof.Machine.execCommitBoundary t s
  | .commitContextRewrite t => Sys2Proof.Machine.execCommitContextRewrite t s
  | .changeoverEnd t => Sys2Proof.Machine.execChangeoverEnd t s
  | .setOwner t idx => Sys2Proof.Machine.execSetOwner t idx s
  | .copy t ring idx => Sys2Proof.Machine.execCopy t ring idx s
  | .fill t ring idx => Sys2Proof.Machine.execFill t ring idx s
  | .crc t ring idx => Sys2Proof.Machine.execCrc t ring idx s
  | .copyJobEnd t ring idx => Sys2Proof.Machine.execCopyJobEnd t ring idx s
  | .servedNotice t ring idx => Sys2Proof.Machine.execServedNotice t ring idx s
  | .serverReturn t who ring status idx => Sys2Proof.Machine.execServerReturn t who ring status idx s
  | .mbxSend t who win value => Sys2Proof.Machine.execMbxSend t who win value s
  | .mbxLatchRead t who win => Sys2Proof.Machine.execMbxLatchRead t who win s
  | .mbxRemoveRead t who win => Sys2Proof.Machine.execMbxRemoveRead t who win s
  | .cohortSendAnswer t win refused => Sys2Proof.Machine.execCohortSendAnswer t win refused s
  | .cohortSendTimeout t win => Sys2Proof.Machine.execCohortSendTimeout t win s
  | .windowAccessTimeout t c => Sys2Proof.Machine.execWindowAccessTimeout t c s
  | .mainsZeroCrossing t rms thd mhz phase => Sys2Proof.Machine.execMainsZeroCrossing t rms thd mhz phase s
  | .crossingTimeout t rms => Sys2Proof.Machine.execCrossingTimeout t rms s
  | .lockTimeout t => Sys2Proof.Machine.execLockTimeout t s
  | .tempoCycleStart t => Sys2Proof.Machine.execTempoCycleStart t s
  | .flywheelLimit t => Sys2Proof.Machine.execFlywheelLimit t s
  | .uncertaintyGuard t => Sys2Proof.Machine.execUncertaintyGuard t s
  | .tempoCorrectionApply t => Sys2Proof.Machine.execTempoCorrectionApply t s
  | .rootCycleSet t who value => Sys2Proof.Machine.execRootCycleSet t who value s
  | .tempoReadLatch t aligned => Sys2Proof.Machine.execTempoReadLatch t aligned s
  | .tempoAlarmArm t who n value => Sys2Proof.Machine.execTempoAlarmArm t who n value s
  | .tempoAlarmDisarm t who n value => Sys2Proof.Machine.execTempoAlarmDisarm t who n value s
  | .tempoAlarmFire t n => Sys2Proof.Machine.execTempoAlarmFire t n s
  | .noteBuf t ring idx => Sys2Proof.Machine.execNoteBuf t ring idx s
  | .agcAttack t peak4 clip => Sys2Proof.Machine.execAgcAttack t peak4 clip s
  | .agcRelease t => Sys2Proof.Machine.execAgcRelease t s
  | .capCalibrationRequest t who value => Sys2Proof.Machine.execCapCalibrationRequest t who value s
  | .capCalibrationForce t who value => Sys2Proof.Machine.execCapCalibrationForce t who value s
  | .capCalSliceStart t => Sys2Proof.Machine.execCapCalSliceStart t s
  | .capCalSliceEnd t ok => Sys2Proof.Machine.execCapCalSliceEnd t ok s
  | .capCalinv t who value => Sys2Proof.Machine.execCapCalinv t who value s
  | .dieTemperatureUpdate t temp => Sys2Proof.Machine.execDieTemperatureUpdate t temp s
  | .record t idx => Sys2Proof.Machine.execRecord t idx s
  | .recordStop t idx => Sys2Proof.Machine.execRecordStop t idx s
  | .recordEnd t phase samples => Sys2Proof.Machine.execRecordEnd t phase samples s
  | .recordOverflow t phase samples => Sys2Proof.Machine.execRecordOverflow t phase samples s
  | .chanWrite t idx => Sys2Proof.Machine.execChanWrite t idx s
  | .chanRead t idx => Sys2Proof.Machine.execChanRead t idx s
  | .watchWrite t idx => Sys2Proof.Machine.execWatchWrite t idx s
  | .watchRead t idx => Sys2Proof.Machine.execWatchRead t idx s
  | .preambleDetection t exp entry sofChip bin => Sys2Proof.Machine.execPreambleDetection t exp entry sofChip bin s
  | .laneAssign t => Sys2Proof.Machine.execLaneAssign t s
  | .laneDelimiterFound t lane turns => Sys2Proof.Machine.execLaneDelimiterFound t lane turns s
  | .laneNoDelimiter t lane => Sys2Proof.Machine.execLaneNoDelimiter t lane s
  | .laneSyncDecided t lane v1 v2 blanked rssi foff desense => Sys2Proof.Machine.execLaneSyncDecided t lane v1 v2 blanked rssi foff desense s
  | .laneHeaderDecoded t lane word => Sys2Proof.Machine.execLaneHeaderDecoded t lane word s
  | .lanePayloadEnd t lane soft erased snr => Sys2Proof.Machine.execLanePayloadEnd t lane soft erased snr s
  | .laneFlushDone t lane => Sys2Proof.Machine.execLaneFlushDone t lane s
  | .laneSelfTest t phys ok => Sys2Proof.Machine.execLaneSelfTest t phys ok s
  | .noAckOutcome t => Sys2Proof.Machine.execNoAckOutcome t s
  | .combineWaitEnd t => Sys2Proof.Machine.execCombineWaitEnd t s
  | .decodeJobStart t => Sys2Proof.Machine.execDecodeJobStart t s
  | .decodeJobEnd t late => Sys2Proof.Machine.execDecodeJobEnd t late s
  | .bufferExpiry t buffer => Sys2Proof.Machine.execBufferExpiry t buffer s
  | .softBuffersEnable t who value => Sys2Proof.Machine.execSoftBuffersEnable t who value s
  | .softBuffersDisable t who value => Sys2Proof.Machine.execSoftBuffersDisable t who value s
  | .synCalibrationRequest t who value => Sys2Proof.Machine.execSynCalibrationRequest t who value s
  | .synCalibrationForce t who value => Sys2Proof.Machine.execSynCalibrationForce t who value s
  | .forcedSliceDecision t capture => Sys2Proof.Machine.execForcedSliceDecision t capture s
  | .synCalSliceStart t => Sys2Proof.Machine.execSynCalSliceStart t s
  | .synCalSliceEnd t ok meas => Sys2Proof.Machine.execSynCalSliceEnd t ok meas s
  | .synCalinv t who value => Sys2Proof.Machine.execSynCalinv t who value s
  | .synthPark t => Sys2Proof.Machine.execSynthPark t s
  | .txHopStart t => Sys2Proof.Machine.execTxHopStart t s
  | .txFirstEdge t lock meas => Sys2Proof.Machine.execTxFirstEdge t lock meas s
  | .txFirstChip t => Sys2Proof.Machine.execTxFirstChip t s
  | .txLastChip t => Sys2Proof.Machine.execTxLastChip t s
  | .txLastEdge t => Sys2Proof.Machine.execTxLastEdge t s
  | .txLockLoss t => Sys2Proof.Machine.execTxLockLoss t s
  | .ackTransmit t => Sys2Proof.Machine.execAckTransmit t s
  | .thermalShutdown t => Sys2Proof.Machine.execThermalShutdown t s
  | .thermalRecovery t => Sys2Proof.Machine.execThermalRecovery t s
  | .send t ring idx => Sys2Proof.Machine.execSend t ring idx s
  | .rxBuf t ring idx => Sys2Proof.Machine.execRxBuf t ring idx s
  | .ctxRead t idx => Sys2Proof.Machine.execCtxRead t idx s
  | .ttbWrite t idx => Sys2Proof.Machine.execTtbWrite t idx s
  | .ttbRead t idx => Sys2Proof.Machine.execTtbRead t idx s
  | .slotOccurrenceStart t slot => Sys2Proof.Machine.execSlotOccurrenceStart t slot s
  | .slotOccurrenceEnd t slot floor => Sys2Proof.Machine.execSlotOccurrenceEnd t slot floor s
  | .bellSeal t slot => Sys2Proof.Machine.execBellSeal t slot s
  | .trackSelect t who value => Sys2Proof.Machine.execTrackSelect t who value s
  | .partnerAbsent t ctx => Sys2Proof.Machine.execPartnerAbsent t ctx s
  | .windowEvaluation t slot => Sys2Proof.Machine.execWindowEvaluation t slot s
  | .wakeEvent t slot => Sys2Proof.Machine.execWakeEvent t slot s
  | .windowClose t slot => Sys2Proof.Machine.execWindowClose t slot s
  | .bucketRoll t rule => Sys2Proof.Machine.execBucketRoll t rule s
  | .dwellWindowClear t rule => Sys2Proof.Machine.execDwellWindowClear t rule s
  | .lgArm t idx => Sys2Proof.Machine.execLgArm t idx s
  | .lgDisarm t idx => Sys2Proof.Machine.execLgDisarm t idx s
  | .mainLossTrigger t vmain => Sys2Proof.Machine.execMainLossTrigger t vmain s
  | .lastGaspSent t => Sys2Proof.Machine.execLastGaspSent t s
  | .keyLoad t who => Sys2Proof.Machine.execKeyLoad t who s
  | .keyErase t who => Sys2Proof.Machine.execKeyErase t who s
  | .keyDataClear t who => Sys2Proof.Machine.execKeyDataClear t who s
  | .cipher t idx => Sys2Proof.Machine.execCipher t idx s
  | .ctxSave t idx => Sys2Proof.Machine.execCtxSave t idx s
  | .ctxLoad t idx => Sys2Proof.Machine.execCtxLoad t idx s
  | .keyWrap t idx => Sys2Proof.Machine.execKeyWrap t idx s
  | .keyUnwrap t idx => Sys2Proof.Machine.execKeyUnwrap t idx s
  | .cipherOperationEnd t idx => Sys2Proof.Machine.execCipherOperationEnd t idx s
  | .eventRoute t n => Sys2Proof.Machine.execEventRoute t n s
  | .groupEnable t who groups => Sys2Proof.Machine.execGroupEnable t who groups s
  | .groupDisable t who groups => Sys2Proof.Machine.execGroupDisable t who groups s
  | .softwareTrigger t who sources => Sys2Proof.Machine.execSoftwareTrigger t who sources s
  | .eventIrqClear t who lines => Sys2Proof.Machine.execEventIrqClear t who lines s
  | .gpioEdge t pin rising => Sys2Proof.Machine.execGpioEdge t pin rising s
  | .timerPeriodEvent t n => Sys2Proof.Machine.execTimerPeriodEvent t n s
  | .timerCompareEvent t n => Sys2Proof.Machine.execTimerCompareEvent t n s
  | .timerCaptureEdge t n rising => Sys2Proof.Machine.execTimerCaptureEdge t n rising s
  | .timerStart t who n => Sys2Proof.Machine.execTimerStart t who n s
  | .timerStop t who n => Sys2Proof.Machine.execTimerStop t who n s
  | .timerClear t who n => Sys2Proof.Machine.execTimerClear t who n s
  | .timerCaptureRise t who n => Sys2Proof.Machine.execTimerCaptureRise t who n s
  | .timerCaptureFall t who n => Sys2Proof.Machine.execTimerCaptureFall t who n s
  | .timerPeriodWrite t who n value => Sys2Proof.Machine.execTimerPeriodWrite t who n value s
  | .timerCaptureRead t n fall => Sys2Proof.Machine.execTimerCaptureRead t n fall s
  | .daliEnqueue t who value => Sys2Proof.Machine.execDaliEnqueue t who value s
  | .daliFrameStart t => Sys2Proof.Machine.execDaliFrameStart t s
  | .daliCollision t => Sys2Proof.Machine.execDaliCollision t s
  | .daliFrameEnd t => Sys2Proof.Machine.execDaliFrameEnd t s
  | .daliAnswerEnd t answer => Sys2Proof.Machine.execDaliAnswerEnd t answer s
  | .daliFrameReceived t len data => Sys2Proof.Machine.execDaliFrameReceived t len data s
  | .daliBusFault t => Sys2Proof.Machine.execDaliBusFault t s
  | .daliFaultClear t => Sys2Proof.Machine.execDaliFaultClear t s
  | .daliResultRead t => Sys2Proof.Machine.execDaliResultRead t s
  | .daliReceiveRead t => Sys2Proof.Machine.execDaliReceiveRead t s
  | .daliSupplySwitch t millivolts => Sys2Proof.Machine.execDaliSupplySwitch t millivolts s
  | .dimLevelWrite t who value => Sys2Proof.Machine.execDimLevelWrite t who value s
  | .dimRampEnd t => Sys2Proof.Machine.execDimRampEnd t s
  | .gpioSet t who pins => Sys2Proof.Machine.execGpioSet t who pins s
  | .gpioClear t who pins => Sys2Proof.Machine.execGpioClear t who pins s
  | .gpioToggle t who pins => Sys2Proof.Machine.execGpioToggle t who pins s
  | .uartDataWrite t who port data => Sys2Proof.Machine.execUartDataWrite t who port data s
  | .uartDataRead t port => Sys2Proof.Machine.execUartDataRead t port s
  | .uartByteReceived t port data perr ferr => Sys2Proof.Machine.execUartByteReceived t port data perr ferr s
  | .spiGo t who port len => Sys2Proof.Machine.execSpiGo t who port len s
  | .spiTransferEnd t port rx => Sys2Proof.Machine.execSpiTransferEnd t port rx s
  | .iicGo t who port value => Sys2Proof.Machine.execIicGo t who port value s
  | .iicTransferEnd t port moved rx nack lost => Sys2Proof.Machine.execIicTransferEnd t port moved rx nack lost s
  | .inventory t afi maskLen mask sixteen => Sys2Proof.Machine.execInventory t afi maskLen mask sixteen s
  | .stayQuiet t uid => Sys2Proof.Machine.execStayQuiet t uid s
  | .readSingleBlock t req extended block => Sys2Proof.Machine.execReadSingleBlock t req extended block s
  | .writeSingleBlock t req extended block data strong => Sys2Proof.Machine.execWriteSingleBlock t req extended block data strong s
  | .lockBlock t req extended block strong => Sys2Proof.Machine.execLockBlock t req extended block strong s
  | .readMultipleBlocks t req extended first count => Sys2Proof.Machine.execReadMultipleBlocks t req extended first count s
  | .writeMultipleBlocks t req extended first data strong => Sys2Proof.Machine.execWriteMultipleBlocks t req extended first data strong s
  | .select t uid => Sys2Proof.Machine.execSelect t uid s
  | .resetToReady t req => Sys2Proof.Machine.execResetToReady t req s
  | .writeAfi t req afi strong => Sys2Proof.Machine.execWriteAfi t req afi strong s
  | .lockAfi t req strong => Sys2Proof.Machine.execLockAfi t req strong s
  | .writeDsfid t req dsfid strong => Sys2Proof.Machine.execWriteDsfid t req dsfid strong s
  | .lockDsfid t req strong => Sys2Proof.Machine.execLockDsfid t req strong s
  | .getSystemInformation t req extended => Sys2Proof.Machine.execGetSystemInformation t req extended s
  | .getBlockSecurityStatus t req extended first count => Sys2Proof.Machine.execGetBlockSecurityStatus t req extended first count s
  | .password t req pw strong => Sys2Proof.Machine.execPassword t req pw strong s
  | .authBegin t req keyId ra => Sys2Proof.Machine.execAuthBegin t req keyId ra s
  | .authEnd t req tr => Sys2Proof.Machine.execAuthEnd t req tr s
  | .invAdapt t q nonce afi maskLen mask => Sys2Proof.Machine.execInvAdapt t q nonce afi maskLen mask s
  | .exchRead t req strong => Sys2Proof.Machine.execExchRead t req strong s
  | .exchWrite t req data strong => Sys2Proof.Machine.execExchWrite t req data strong s
  | .ctrInc t req n strong => Sys2Proof.Machine.execCtrInc t req n strong s
  | .homeroomReq t req strong => Sys2Proof.Machine.execHomeroomReq t req strong s
  | .timing t req enter => Sys2Proof.Machine.execTiming t req enter s
  | .leaveSecured t req => Sys2Proof.Machine.execLeaveSecured t req s
  | .tagWriteStepEnd t => Sys2Proof.Machine.execTagWriteStepEnd t s
  | .tagPowerUp t byField => Sys2Proof.Machine.execTagPowerUp t byField s
  | .tagFieldLoss t => Sys2Proof.Machine.execTagFieldLoss t s
  | .tagLockoutEnd t => Sys2Proof.Machine.execTagLockoutEnd t s
  | .tagExactReply t => Sys2Proof.Machine.execTagExactReply t s
  | .tagRead t idx => Sys2Proof.Machine.execTagRead t idx s
  | .tagWrite t idx => Sys2Proof.Machine.execTagWrite t idx s
  | .tagCtr t idx => Sys2Proof.Machine.execTagCtr t idx s
  | .tagSecret t idx => Sys2Proof.Machine.execTagSecret t idx s
  | .tagExchRx t idx => Sys2Proof.Machine.execTagExchRx t idx s
  | .tagExchTx t idx => Sys2Proof.Machine.execTagExchTx t idx s
  | .fieldBusyTimeout t idx => Sys2Proof.Machine.execFieldBusyTimeout t idx s
  | .domainStateRequest t who n target => Sys2Proof.Machine.execDomainStateRequest t who n target s
  | .domainTransitionEnd t n => Sys2Proof.Machine.execDomainTransitionEnd t n s
  | .bkpWake t => Sys2Proof.Machine.execBkpWake t s
  | .calendarLatch t => Sys2Proof.Machine.execCalendarLatch t s
  | .calendarSet t who => Sys2Proof.Machine.execCalendarSet t who s
  | .calendarAdjust t who adj => Sys2Proof.Machine.execCalendarAdjust t who adj s
  | .bkpWriteLanded t => Sys2Proof.Machine.execBkpWriteLanded t s
  | .trimMeasurementEnd t => Sys2Proof.Machine.execTrimMeasurementEnd t s
  | .calendarAlarmArm t who n value => Sys2Proof.Machine.execCalendarAlarmArm t who n value s
  | .calendarAlarmDisarm t who n value => Sys2Proof.Machine.execCalendarAlarmDisarm t who n value s
  | .calendarAlarmFire t n => Sys2Proof.Machine.execCalendarAlarmFire t n s
  | .add c g rd ra rb => Sys2Proof.Machine.execAdd c g rd ra rb s
  | .sub c g rd ra rb => Sys2Proof.Machine.execSub c g rd ra rb s
  | .and c g rd ra rb => Sys2Proof.Machine.execAnd c g rd ra rb s
  | .or c g rd ra rb => Sys2Proof.Machine.execOr c g rd ra rb s
  | .xor c g rd ra rb => Sys2Proof.Machine.execXor c g rd ra rb s
  | .andn c g rd ra rb => Sys2Proof.Machine.execAndn c g rd ra rb s
  | .shl c g rd ra rb => Sys2Proof.Machine.execShl c g rd ra rb s
  | .shr c g rd ra rb => Sys2Proof.Machine.execShr c g rd ra rb s
  | .sar c g rd ra rb => Sys2Proof.Machine.execSar c g rd ra rb s
  | .ror c g rd ra rb => Sys2Proof.Machine.execRor c g rd ra rb s
  | .mul c g rd ra rb => Sys2Proof.Machine.execMul c g rd ra rb s
  | .mulh c g rd ra rb => Sys2Proof.Machine.execMulh c g rd ra rb s
  | .mulhu c g rd ra rb => Sys2Proof.Machine.execMulhu c g rd ra rb s
  | .div c g rd ra rb => Sys2Proof.Machine.execDiv c g rd ra rb s
  | .divu c g rd ra rb => Sys2Proof.Machine.execDivu c g rd ra rb s
  | .rem c g rd ra rb => Sys2Proof.Machine.execRem c g rd ra rb s
  | .remu c g rd ra rb => Sys2Proof.Machine.execRemu c g rd ra rb s
  | .min c g rd ra rb => Sys2Proof.Machine.execMin c g rd ra rb s
  | .max c g rd ra rb => Sys2Proof.Machine.execMax c g rd ra rb s
  | .minu c g rd ra rb => Sys2Proof.Machine.execMinu c g rd ra rb s
  | .maxu c g rd ra rb => Sys2Proof.Machine.execMaxu c g rd ra rb s
  | .clz c g rd ra => Sys2Proof.Machine.execClz c g rd ra s
  | .popc c g rd ra => Sys2Proof.Machine.execPopc c g rd ra s
  | .sextb c g rd ra => Sys2Proof.Machine.execSextb c g rd ra s
  | .sexth c g rd ra => Sys2Proof.Machine.execSexth c g rd ra s
  | .zexth c g rd ra => Sys2Proof.Machine.execZexth c g rd ra s
  | .abs c g rd ra => Sys2Proof.Machine.execAbs c g rd ra s
  | .brev c g rd ra => Sys2Proof.Machine.execBrev c g rd ra s
  | .adds c g rd ra rb => Sys2Proof.Machine.execAdds c g rd ra rb s
  | .subs c g rd ra rb => Sys2Proof.Machine.execSubs c g rd ra rb s
  | .shls c g rd ra rb => Sys2Proof.Machine.execShls c g rd ra rb s
  | .abss c g rd ra => Sys2Proof.Machine.execAbss c g rd ra s
  | .add2 c g rd ra rb => Sys2Proof.Machine.execAdd2 c g rd ra rb s
  | .sub2 c g rd ra rb => Sys2Proof.Machine.execSub2 c g rd ra rb s
  | .adds2 c g rd ra rb => Sys2Proof.Machine.execAdds2 c g rd ra rb s
  | .subs2 c g rd ra rb => Sys2Proof.Machine.execSubs2 c g rd ra rb s
  | .mul2 c g rd ra rb => Sys2Proof.Machine.execMul2 c g rd ra rb s
  | .dot2 c g rd ra rb => Sys2Proof.Machine.execDot2 c g rd ra rb s
  | .cmul c g rd ra rb => Sys2Proof.Machine.execCmul c g rd ra rb s
  | .cmulj c g rd ra rb => Sys2Proof.Machine.execCmulj c g rd ra rb s
  | .cmac c g rd ra rb => Sys2Proof.Machine.execCmac c g rd ra rb s
  | .cmacj c g rd ra rb => Sys2Proof.Machine.execCmacj c g rd ra rb s
  | .crnd c g rd ra => Sys2Proof.Machine.execCrnd c g rd ra s
  | .pack c g rd ra rb => Sys2Proof.Machine.execPack c g rd ra rb s
  | .swaph c g rd ra => Sys2Proof.Machine.execSwaph c g rd ra s
  | .mulq c g rd ra rb => Sys2Proof.Machine.execMulq c g rd ra rb s
  | .cmp c g pt pf ra rb cond => Sys2Proof.Machine.execCmp c g pt pf ra rb cond s
  | .cmpi c g pt pf ra imm6 cond => Sys2Proof.Machine.execCmpi c g pt pf ra imm6 cond s
  | .addi c g rd ra imm => Sys2Proof.Machine.execAddi c g rd ra imm s
  | .andi c g rd ra imm => Sys2Proof.Machine.execAndi c g rd ra imm s
  | .ori c g rd ra imm => Sys2Proof.Machine.execOri c g rd ra imm s
  | .xori c g rd ra imm => Sys2Proof.Machine.execXori c g rd ra imm s
  | .shiftiShl c g rd ra top sh => Sys2Proof.Machine.execShiftiShl c g rd ra top sh s
  | .shiftiShr c g rd ra top sh => Sys2Proof.Machine.execShiftiShr c g rd ra top sh s
  | .shiftiSar c g rd ra top sh => Sys2Proof.Machine.execShiftiSar c g rd ra top sh s
  | .shiftiRor c g rd ra top sh => Sys2Proof.Machine.execShiftiRor c g rd ra top sh s
  | .bfx c g rd ra imm => Sys2Proof.Machine.execBfx c g rd ra imm s
  | .bfi c g rd ra imm => Sys2Proof.Machine.execBfi c g rd ra imm s
  | .lui c g rd imm16 => Sys2Proof.Machine.execLui c g rd imm16 s
  | .lli c g rd imm16 => Sys2Proof.Machine.execLli c g rd imm16 s
  | .pand c g pd pa pb => Sys2Proof.Machine.execPand c g pd pa pb s
  | .por c g pd pa pb => Sys2Proof.Machine.execPor c g pd pa pb s
  | .pxor c g pd pa pb => Sys2Proof.Machine.execPxor c g pd pa pb s
  | .pandn c g pd pa pb => Sys2Proof.Machine.execPandn c g pd pa pb s
  | .pnot c g pd pa => Sys2Proof.Machine.execPnot c g pd pa s
  | .ldb c g rd ra imm ecc => Sys2Proof.Machine.execLdb c g rd ra imm ecc s
  | .ldbu c g rd ra imm ecc => Sys2Proof.Machine.execLdbu c g rd ra imm ecc s
  | .ldh c g rd ra imm ecc => Sys2Proof.Machine.execLdh c g rd ra imm ecc s
  | .ldhu c g rd ra imm ecc => Sys2Proof.Machine.execLdhu c g rd ra imm ecc s
  | .ldw c g rd ra imm ecc => Sys2Proof.Machine.execLdw c g rd ra imm ecc s
  | .stb c g rs ra imm ecc => Sys2Proof.Machine.execStb c g rs ra imm ecc s
  | .sth c g rs ra imm ecc => Sys2Proof.Machine.execSth c g rs ra imm ecc s
  | .stw c g rs ra imm ecc => Sys2Proof.Machine.execStw c g rs ra imm ecc s
  | .ldx c g rd ra am sz ecc => Sys2Proof.Machine.execLdx c g rd ra am sz ecc s
  | .stx c g rs ra am sz ecc => Sys2Proof.Machine.execStx c g rs ra am sz ecc s
  | .swap c g rd ra rb ecc => Sys2Proof.Machine.execSwap c g rd ra rb ecc s
  | .cas c g rd ra rb ecc => Sys2Proof.Machine.execCas c g rd ra rb ecc s
  | .b c g off => Sys2Proof.Machine.execB c g off s
  | .bl c g off => Sys2Proof.Machine.execBl c g off s
  | .br c g ra => Sys2Proof.Machine.execBr c g ra s
  | .blr c g ra => Sys2Proof.Machine.execBlr c g ra s
  | .mfs c g rd sp => Sys2Proof.Machine.execMfs c g rd sp s
  | .mts c g ra sp => Sys2Proof.Machine.execMts c g ra sp s
  | .eret c g => Sys2Proof.Machine.execEret c g s
  | .syscall c g code => Sys2Proof.Machine.execSyscall c g code s
  | .wfe c g => Sys2Proof.Machine.execWfe c g s
  | .wfeWake c => Sys2Proof.Machine.execWfeWake c s
  | .fence c g => Sys2Proof.Machine.execFence c g s
  | .fencei c g => Sys2Proof.Machine.execFencei c g s
  | .dcclean c g ra => Sys2Proof.Machine.execDcclean c g ra s
  | .dcinv c g ra => Sys2Proof.Machine.execDcinv c g ra s
  | .dcflush c g ra => Sys2Proof.Machine.execDcflush c g ra s
  | .icinv c g ra => Sys2Proof.Machine.execIcinv c g ra s
  | .mov c rd ra => Sys2Proof.Machine.execMov c rd ra s
  | .add16 c rd ra => Sys2Proof.Machine.execAdd16 c rd ra s
  | .sub16 c rd ra => Sys2Proof.Machine.execSub16 c rd ra s
  | .and16 c rd ra => Sys2Proof.Machine.execAnd16 c rd ra s
  | .or16 c rd ra => Sys2Proof.Machine.execOr16 c rd ra s
  | .xor16 c rd ra => Sys2Proof.Machine.execXor16 c rd ra s
  | .shl16 c rd ra => Sys2Proof.Machine.execShl16 c rd ra s
  | .shr16 c rd ra => Sys2Proof.Machine.execShr16 c rd ra s
  | .sar16 c rd ra => Sys2Proof.Machine.execSar16 c rd ra s
  | .li c rd imm5 => Sys2Proof.Machine.execLi c rd imm5 s
  | .addi16 c rd imm5 => Sys2Proof.Machine.execAddi16 c rd imm5 s
  | .shli c rd imm5 => Sys2Proof.Machine.execShli c rd imm5 s
  | .shri c rd imm5 => Sys2Proof.Machine.execShri c rd imm5 s
  | .sari c rd imm5 => Sys2Proof.Machine.execSari c rd imm5 s
  | .ldwsp c rd imm5 ecc => Sys2Proof.Machine.execLdwsp c rd imm5 ecc s
  | .stwsp c rs imm5 ecc => Sys2Proof.Machine.execStwsp c rs imm5 ecc s
  | .ldw16 c rd ra ecc => Sys2Proof.Machine.execLdw16 c rd ra ecc s
  | .stw16 c rs ra ecc => Sys2Proof.Machine.execStw16 c rs ra ecc s
  | .br16 c rd ra => Sys2Proof.Machine.execBr16 c rd ra s
  | .blr16 c rd ra => Sys2Proof.Machine.execBlr16 c rd ra s
  | .b16 c off => Sys2Proof.Machine.execB16 c off s
  | .bt1 c off => Sys2Proof.Machine.execBt1 c off s
  | .bf1 c off => Sys2Proof.Machine.execBf1 c off s
  | .interruptEntry c => Sys2Proof.Machine.execInterruptEntry c s
  | .impreciseBusError c => Sys2Proof.Machine.execImpreciseBusError c s
  | .coreHeartbeat t who c value => Sys2Proof.Machine.execCoreHeartbeat t who c value s
  | .sramRemapSwitch t => Sys2Proof.Machine.execSramRemapSwitch t s
  | .nvmProgram t who => Sys2Proof.Machine.execNvmProgram t who s
  | .nvmEraseSector t who => Sys2Proof.Machine.execNvmEraseSector t who s
  | .nvmEraseBlock t who => Sys2Proof.Machine.execNvmEraseBlock t who s
  | .nvmErasePoll t => Sys2Proof.Machine.execNvmErasePoll t s
  | .nvmResume t => Sys2Proof.Machine.execNvmResume t s
  | .nvmOperationEnd t ok => Sys2Proof.Machine.execNvmOperationEnd t ok s
  | .dramRefresh t postpone => Sys2Proof.Machine.execDramRefresh t postpone s
  | .dramTrainingRequest t who => Sys2Proof.Machine.execDramTrainingRequest t who s
  | .dramTrainingEnd t win0 win1 => Sys2Proof.Machine.execDramTrainingEnd t win0 win1 s
  | .helloSend t => Sys2Proof.Machine.execHelloSend t s
  | .cohHello t h west state epoch digest gen echo => Sys2Proof.Machine.execCohHello t h west state epoch digest gen echo s
  | .cohElect t h epoch => Sys2Proof.Machine.execCohElect t h epoch s
  | .cohLeader t h epoch map high => Sys2Proof.Machine.execCohLeader t h epoch map high s
  | .cohTempo t h stamp status rate u => Sys2Proof.Machine.execCohTempo t h stamp status rate u s
  | .cohWreq t h off size data agent prot => Sys2Proof.Machine.execCohWreq t h off size data agent prot s
  | .cohWrsp t h off value error => Sys2Proof.Machine.execCohWrsp t h off value error s
  | .cohNotice t h dst tag ptr agent prot => Sys2Proof.Machine.execCohNotice t h dst tag ptr agent prot s
  | .cohSoft t h f soft => Sys2Proof.Machine.execCohSoft t h f soft s
  | .cohDecoded t h f soft sets pay => Sys2Proof.Machine.execCohDecoded t h f soft sets pay s
  | .cohRxsync t h ctx rx d => Sys2Proof.Machine.execCohRxsync t h ctx rx d s
  | .cohBlkreq t h ctx => Sys2Proof.Machine.execCohBlkreq t h ctx s
  | .cohBlkgnt t h ctx block => Sys2Proof.Machine.execCohBlkgnt t h ctx block s
  | .cohCfgpush t h c => Sys2Proof.Machine.execCohCfgpush t h c s
  | .cohAckreq t h f pay keep => Sys2Proof.Machine.execCohAckreq t h f pay keep s
  | .leadLossTimeout t => Sys2Proof.Machine.execLeadLossTimeout t s
  | .electionWindowEnd t => Sys2Proof.Machine.execElectionWindowEnd t s
  | .electionRetry t => Sys2Proof.Machine.execElectionRetry t s
  | .majorityLoss t => Sys2Proof.Machine.execMajorityLoss t s
  | .followerTempoLoss t => Sys2Proof.Machine.execFollowerTempoLoss t s
  | .memberLost t m => Sys2Proof.Machine.execMemberLost t m s
  | .counterBlockTimeout t ring idx => Sys2Proof.Machine.execCounterBlockTimeout t ring idx s
  | .cohRejoin t who value => Sys2Proof.Machine.execCohRejoin t who value s
  | .updOpen t idx => Sys2Proof.Machine.execUpdOpen t idx s
  | .updBlock t idx => Sys2Proof.Machine.execUpdBlock t idx s
  | .updClose t idx => Sys2Proof.Machine.execUpdClose t idx s
  | .updActivate t idx => Sys2Proof.Machine.execUpdActivate t idx s
  | .updAccept t idx => Sys2Proof.Machine.execUpdAccept t idx s
  | .updRevert t idx => Sys2Proof.Machine.execUpdRevert t idx s
  | .trialExpiry t => Sys2Proof.Machine.execTrialExpiry t s
  | .cohortPrepareTimeout t => Sys2Proof.Machine.execCohortPrepareTimeout t s
  | .cohortActivation t => Sys2Proof.Machine.execCohortActivation t s
  | .homeroomHello t h => Sys2Proof.Machine.execHomeroomHello t h s
  | .homeroomHead t h head => Sys2Proof.Machine.execHomeroomHead t h head s
  | .homeroomBlock t h entry block check data => Sys2Proof.Machine.execHomeroomBlock t h entry block check data s
  | .homeroomFinish t h => Sys2Proof.Machine.execHomeroomFinish t h s
  | .homeroomRestart t h => Sys2Proof.Machine.execHomeroomRestart t h s
  | .homeroomBaud t h rate => Sys2Proof.Machine.execHomeroomBaud t h rate s
  | .homeroomTimeout t => Sys2Proof.Machine.execHomeroomTimeout t s
  | .counterStream t => Sys2Proof.Machine.execCounterStream t s
  | .counterClear t who value => Sys2Proof.Machine.execCounterClear t who value s
  | .counterLatch t n => Sys2Proof.Machine.execCounterLatch t n s
  | .ledgerWrite t ok => Sys2Proof.Machine.execLedgerWrite t ok s
  | .illegalInstruction c => Sys2Proof.Machine.execIllegalInstruction c s
  | .fetchFault c ecc => Sys2Proof.Machine.execFetchFault c ecc s
  | .scrubberRead t ecc => Sys2Proof.Machine.execScrubberRead t ecc s
  | .portLinkChange t west up => Sys2Proof.Machine.execPortLinkChange t west up s
  | .chargeConstantVoltage t => Sys2Proof.Machine.execChargeConstantVoltage t s
  | .decodeDeadline t => Sys2Proof.Machine.execDecodeDeadline t s
  | .registerRead t who addr => Sys2Proof.Machine.execRegisterRead t who addr s
  | .escalationWindowEnd t unit => Sys2Proof.Machine.execEscalationWindowEnd t unit s
  | .tagUnknownCommand t req => Sys2Proof.Machine.execTagUnknownCommand t req s

end Sys2Proof.Machine
end

