-- ==== Sys2Proof/Machine/CoreCode.lean ====
section
/-!
DEFINITION. The instruction words of the cores (R382, Tables CPU-3 to CPU-11): the word of each instruction command, the
words that are reserved, and their bytes in memory. A 16-bit instruction is a word below 2^15, a 32-bit one has bit 31 set, and its first
halfword is bits 31 to 16.
-/

namespace Sys2Proof.Machine

/-- A word of a core with the operands of its command that no word holds: the core, and what the check bits show. -/
structure CoreCode where
  core : CoreId
  ecc : Ecc := .clean
  word : Nat
  deriving DecidableEq, Repr

/-! ### Formats (Tables CPU-3 and CPU-4) -/

/-- Bits common to the 32-bit formats: bit 31, the guard, OP, and 21 bits of operands. -/
def code32 (g : Guard) (op x : Nat) : Nat := 2 ^ 31 + g.g.toNat * 2 ^ 28 + b2n g.n * 2 ^ 27 + op * 2 ^ 21 + x

def codeR (g : Guard) (op : Nat) (rd ra rb : RegNum) (fn : Nat) : Nat :=
  code32 g op (rd.toNat * 2 ^ 16 + ra.toNat * 2 ^ 11 + rb.toNat * 2 ^ 6 + fn)

def codeI (g : Guard) (op : Nat) (rd ra : RegNum) (imm : BitVec 11) : Nat :=
  code32 g op (rd.toNat * 2 ^ 16 + ra.toNat * 2 ^ 11 + imm.toNat)

def codeU (g : Guard) (op : Nat) (rd : RegNum) (imm : BitVec 16) : Nat := code32 g op (rd.toNat * 2 ^ 16 + imm.toNat)

def codeC (g : Guard) (op : Nat) (pt pf : PredNum) (ra : RegNum) (right : BitVec 6) (cond : BitVec 4) : Nat :=
  code32 g op (pt.toNat * 2 ^ 18 + pf.toNat * 2 ^ 15 + ra.toNat * 2 ^ 10 + right.toNat * 2 ^ 4 + cond.toNat)

def codeP (g : Guard) (pd pa pb : PredNum) (pfn : Nat) : Nat :=
  code32 g 0x28 (pd.toNat * 2 ^ 18 + pa.toNat * 2 ^ 15 + pb.toNat * 2 ^ 12 + pfn)

/-- SHIFTI: bits 10 to 7 of the immediate (zero in every legal word), the kind of shift, the count (Table CPU-7). -/
def codeShift (g : Guard) (rd ra : RegNum) (top : BitVec 4) (kind : BitVec 2) (sh : BitVec 5) : Nat :=
  codeI g 0x08 rd ra (top ++ kind ++ sh)

/-- Format X: bits 10 to 6 and AM of an address mode (Tables CPU-3 and CPU-9). -/
def modeCode (m : AddrMode) : BitVec 5 × Nat :=
  match m with
  | .scaled rb => (rb, 0)
  | .postReg rb => (rb, 1)
  | .postImm imm => (imm, 2)
  | .modulo k inc => (k ++ inc, 3)
  | .bitrev k => (k ++ 0#3, 4)
  | .reserved code => (0, 5 + code.val)

def codeX (g : Guard) (op : Nat) (rd ra : RegNum) (m : AddrMode) (sz : SizeCode) : Nat :=
  code32 g op (rd.toNat * 2 ^ 16 + ra.toNat * 2 ^ 11 + (modeCode m).1.toNat * 2 ^ 6 + (modeCode m).2 * 2 ^ 3 + sz.toNat)

/-- The 16-bit formats RR and RI. -/
def code16 (op : Nat) (rd x : BitVec 5) : Nat := op * 2 ^ 10 + rd.toNat * 2 ^ 5 + x.toNat

/-- The 16-bit format J. -/
def codeJ (op : Nat) (off : BitVec 10) : Nat := op * 2 ^ 10 + off.toNat

/-! ### The word of a command -/

/-- The word of an instruction command; the other commands have none. A field that an instruction does not use is
zero. -/
def coreEncode (i : Instr) : Option CoreCode :=
  match i with
  | .add c g rd ra rb => some ⟨c, .clean, codeR g 0x00 rd ra rb 0x00⟩
  | .sub c g rd ra rb => some ⟨c, .clean, codeR g 0x00 rd ra rb 0x01⟩
  | .and c g rd ra rb => some ⟨c, .clean, codeR g 0x00 rd ra rb 0x02⟩
  | .or c g rd ra rb => some ⟨c, .clean, codeR g 0x00 rd ra rb 0x03⟩
  | .xor c g rd ra rb => some ⟨c, .clean, codeR g 0x00 rd ra rb 0x04⟩
  | .andn c g rd ra rb => some ⟨c, .clean, codeR g 0x00 rd ra rb 0x05⟩
  | .shl c g rd ra rb => some ⟨c, .clean, codeR g 0x00 rd ra rb 0x06⟩
  | .shr c g rd ra rb => some ⟨c, .clean, codeR g 0x00 rd ra rb 0x07⟩
  | .sar c g rd ra rb => some ⟨c, .clean, codeR g 0x00 rd ra rb 0x08⟩
  | .ror c g rd ra rb => some ⟨c, .clean, codeR g 0x00 rd ra rb 0x09⟩
  | .mul c g rd ra rb => some ⟨c, .clean, codeR g 0x00 rd ra rb 0x0A⟩
  | .mulh c g rd ra rb => some ⟨c, .clean, codeR g 0x00 rd ra rb 0x0B⟩
  | .mulhu c g rd ra rb => some ⟨c, .clean, codeR g 0x00 rd ra rb 0x0C⟩
  | .div c g rd ra rb => some ⟨c, .clean, codeR g 0x00 rd ra rb 0x0D⟩
  | .divu c g rd ra rb => some ⟨c, .clean, codeR g 0x00 rd ra rb 0x0E⟩
  | .rem c g rd ra rb => some ⟨c, .clean, codeR g 0x00 rd ra rb 0x0F⟩
  | .remu c g rd ra rb => some ⟨c, .clean, codeR g 0x00 rd ra rb 0x10⟩
  | .min c g rd ra rb => some ⟨c, .clean, codeR g 0x00 rd ra rb 0x11⟩
  | .max c g rd ra rb => some ⟨c, .clean, codeR g 0x00 rd ra rb 0x12⟩
  | .minu c g rd ra rb => some ⟨c, .clean, codeR g 0x00 rd ra rb 0x13⟩
  | .maxu c g rd ra rb => some ⟨c, .clean, codeR g 0x00 rd ra rb 0x14⟩
  | .clz c g rd ra => some ⟨c, .clean, codeR g 0x00 rd ra 0 0x15⟩
  | .popc c g rd ra => some ⟨c, .clean, codeR g 0x00 rd ra 0 0x16⟩
  | .sextb c g rd ra => some ⟨c, .clean, codeR g 0x00 rd ra 0 0x17⟩
  | .sexth c g rd ra => some ⟨c, .clean, codeR g 0x00 rd ra 0 0x18⟩
  | .zexth c g rd ra => some ⟨c, .clean, codeR g 0x00 rd ra 0 0x19⟩
  | .abs c g rd ra => some ⟨c, .clean, codeR g 0x00 rd ra 0 0x1A⟩
  | .brev c g rd ra => some ⟨c, .clean, codeR g 0x00 rd ra 0 0x1B⟩
  | .adds c g rd ra rb => some ⟨c, .clean, codeR g 0x01 rd ra rb 0x00⟩
  | .subs c g rd ra rb => some ⟨c, .clean, codeR g 0x01 rd ra rb 0x01⟩
  | .shls c g rd ra rb => some ⟨c, .clean, codeR g 0x01 rd ra rb 0x02⟩
  | .abss c g rd ra => some ⟨c, .clean, codeR g 0x01 rd ra 0 0x03⟩
  | .add2 c g rd ra rb => some ⟨c, .clean, codeR g 0x01 rd ra rb 0x04⟩
  | .sub2 c g rd ra rb => some ⟨c, .clean, codeR g 0x01 rd ra rb 0x05⟩
  | .adds2 c g rd ra rb => some ⟨c, .clean, codeR g 0x01 rd ra rb 0x06⟩
  | .subs2 c g rd ra rb => some ⟨c, .clean, codeR g 0x01 rd ra rb 0x07⟩
  | .mul2 c g rd ra rb => some ⟨c, .clean, codeR g 0x01 rd ra rb 0x08⟩
  | .dot2 c g rd ra rb => some ⟨c, .clean, codeR g 0x01 rd ra rb 0x09⟩
  | .cmul c g rd ra rb => some ⟨c, .clean, codeR g 0x01 rd ra rb 0x0A⟩
  | .cmulj c g rd ra rb => some ⟨c, .clean, codeR g 0x01 rd ra rb 0x0B⟩
  | .cmac c g rd ra rb => some ⟨c, .clean, codeR g 0x01 rd ra rb 0x0C⟩
  | .cmacj c g rd ra rb => some ⟨c, .clean, codeR g 0x01 rd ra rb 0x0D⟩
  | .crnd c g rd ra => some ⟨c, .clean, codeR g 0x01 rd ra 0 0x0E⟩
  | .pack c g rd ra rb => some ⟨c, .clean, codeR g 0x01 rd ra rb 0x0F⟩
  | .swaph c g rd ra => some ⟨c, .clean, codeR g 0x01 rd ra 0 0x10⟩
  | .mulq c g rd ra rb => some ⟨c, .clean, codeR g 0x01 rd ra rb 0x11⟩
  | .cmp c g pt pf ra rb cond => some ⟨c, .clean, codeC g 0x02 pt pf ra (rb ++ 0#1) cond⟩
  | .cmpi c g pt pf ra imm cond => some ⟨c, .clean, codeC g 0x03 pt pf ra imm cond⟩
  | .addi c g rd ra imm => some ⟨c, .clean, codeI g 0x04 rd ra imm⟩
  | .andi c g rd ra imm => some ⟨c, .clean, codeI g 0x05 rd ra imm⟩
  | .ori c g rd ra imm => some ⟨c, .clean, codeI g 0x06 rd ra imm⟩
  | .xori c g rd ra imm => some ⟨c, .clean, codeI g 0x07 rd ra imm⟩
  | .shiftiShl c g rd ra top sh => some ⟨c, .clean, codeShift g rd ra top 0 sh⟩
  | .shiftiShr c g rd ra top sh => some ⟨c, .clean, codeShift g rd ra top 1 sh⟩
  | .shiftiSar c g rd ra top sh => some ⟨c, .clean, codeShift g rd ra top 2 sh⟩
  | .shiftiRor c g rd ra top sh => some ⟨c, .clean, codeShift g rd ra top 3 sh⟩
  | .bfx c g rd ra imm => some ⟨c, .clean, codeI g 0x09 rd ra imm⟩
  | .bfi c g rd ra imm => some ⟨c, .clean, codeI g 0x0A rd ra imm⟩
  | .lui c g rd imm => some ⟨c, .clean, codeU g 0x0B rd imm⟩
  | .lli c g rd imm => some ⟨c, .clean, codeU g 0x0C rd imm⟩
  | .ldb c g rd ra imm ecc => some ⟨c, ecc, codeI g 0x10 rd ra imm⟩
  | .ldbu c g rd ra imm ecc => some ⟨c, ecc, codeI g 0x11 rd ra imm⟩
  | .ldh c g rd ra imm ecc => some ⟨c, ecc, codeI g 0x12 rd ra imm⟩
  | .ldhu c g rd ra imm ecc => some ⟨c, ecc, codeI g 0x13 rd ra imm⟩
  | .ldw c g rd ra imm ecc => some ⟨c, ecc, codeI g 0x14 rd ra imm⟩
  | .stb c g rs ra imm ecc => some ⟨c, ecc, codeI g 0x18 rs ra imm⟩
  | .sth c g rs ra imm ecc => some ⟨c, ecc, codeI g 0x19 rs ra imm⟩
  | .stw c g rs ra imm ecc => some ⟨c, ecc, codeI g 0x1A rs ra imm⟩
  | .ldx c g rd ra am sz ecc => some ⟨c, ecc, codeX g 0x1C rd ra am sz⟩
  | .stx c g rd ra am sz ecc => some ⟨c, ecc, codeX g 0x1D rd ra am sz⟩
  | .swap c g rd ra rb ecc => some ⟨c, ecc, codeR g 0x1E rd ra rb 0⟩
  | .cas c g rd ra rb ecc => some ⟨c, ecc, codeR g 0x1E rd ra rb 1⟩
  | .b c g off => some ⟨c, .clean, code32 g 0x20 off.toNat⟩
  | .bl c g off => some ⟨c, .clean, code32 g 0x21 off.toNat⟩
  | .br c g ra => some ⟨c, .clean, codeR g 0x22 0 ra 0 0⟩
  | .blr c g ra => some ⟨c, .clean, codeR g 0x22 0 ra 0 1⟩
  | .pand c g pd pa pb => some ⟨c, .clean, codeP g pd pa pb 0⟩
  | .por c g pd pa pb => some ⟨c, .clean, codeP g pd pa pb 1⟩
  | .pxor c g pd pa pb => some ⟨c, .clean, codeP g pd pa pb 2⟩
  | .pandn c g pd pa pb => some ⟨c, .clean, codeP g pd pa pb 3⟩
  | .pnot c g pd pa => some ⟨c, .clean, codeP g pd pa 0 4⟩
  | .mfs c g rd sp => some ⟨c, .clean, codeR g 0x30 rd 0 sp 0⟩
  | .mts c g ra sp => some ⟨c, .clean, codeR g 0x30 0 ra sp 1⟩
  | .eret c g => some ⟨c, .clean, codeR g 0x30 0 0 0 2⟩
  | .syscall c g code => some ⟨c, .clean, code32 g 0x30 (code.toNat * 2 ^ 6 + 3)⟩
  | .wfe c g => some ⟨c, .clean, codeR g 0x30 0 0 0 4⟩
  | .fence c g => some ⟨c, .clean, codeR g 0x30 0 0 0 5⟩
  | .fencei c g => some ⟨c, .clean, codeR g 0x30 0 0 0 6⟩
  | .dcclean c g ra => some ⟨c, .clean, codeR g 0x30 0 ra 0 8⟩
  | .dcinv c g ra => some ⟨c, .clean, codeR g 0x30 0 ra 0 9⟩
  | .dcflush c g ra => some ⟨c, .clean, codeR g 0x30 0 ra 0 10⟩
  | .icinv c g ra => some ⟨c, .clean, codeR g 0x30 0 ra 0 11⟩
  | .mov c rd x => some ⟨c, .clean, code16 0x01 rd x⟩
  | .add16 c rd x => some ⟨c, .clean, code16 0x02 rd x⟩
  | .sub16 c rd x => some ⟨c, .clean, code16 0x03 rd x⟩
  | .and16 c rd x => some ⟨c, .clean, code16 0x04 rd x⟩
  | .or16 c rd x => some ⟨c, .clean, code16 0x05 rd x⟩
  | .xor16 c rd x => some ⟨c, .clean, code16 0x06 rd x⟩
  | .shl16 c rd x => some ⟨c, .clean, code16 0x07 rd x⟩
  | .shr16 c rd x => some ⟨c, .clean, code16 0x08 rd x⟩
  | .sar16 c rd x => some ⟨c, .clean, code16 0x09 rd x⟩
  | .li c rd x => some ⟨c, .clean, code16 0x0A rd x⟩
  | .addi16 c rd x => some ⟨c, .clean, code16 0x0B rd x⟩
  | .shli c rd x => some ⟨c, .clean, code16 0x0C rd x⟩
  | .shri c rd x => some ⟨c, .clean, code16 0x0D rd x⟩
  | .sari c rd x => some ⟨c, .clean, code16 0x0E rd x⟩
  | .ldwsp c rd x ecc => some ⟨c, ecc, code16 0x0F rd x⟩
  | .stwsp c rd x ecc => some ⟨c, ecc, code16 0x10 rd x⟩
  | .ldw16 c rd x ecc => some ⟨c, ecc, code16 0x11 rd x⟩
  | .stw16 c rd x ecc => some ⟨c, ecc, code16 0x12 rd x⟩
  | .br16 c rd x => some ⟨c, .clean, code16 0x13 rd x⟩
  | .blr16 c rd x => some ⟨c, .clean, code16 0x14 rd x⟩
  | .b16 c off => some ⟨c, .clean, codeJ 0x18 off⟩
  | .bt1 c off => some ⟨c, .clean, codeJ 0x19 off⟩
  | .bf1 c off => some ⟨c, .clean, codeJ 0x1A off⟩
  | _ => none

/-! ### Reserved words (R382) -/

/-- Address modes 5 to 7 and sizes 5 to 7 are reserved in format X (Tables CPU-8 and CPU-9). -/
def reservedX (w : Nat) : Bool := decide (5 ≤ w / 8 % 8 ∨ 5 ≤ w % 8)

/-- A field of BFX or BFI that passes bit 31. -/
def reservedField (imm : Nat) : Bool := decide (32 < imm / 64 + (imm % 32 + 1))

/-- Reserved codes of a 32-bit word, by its OP: an FN that its table does not list, and field values that the
chapter reserves. -/
def reservedLong (w : Nat) : Bool :=
  let fn := w % 64
  let rd := w / 2 ^ 16 % 32
  let ra := w / 2 ^ 11 % 32
  let imm := w % 2 ^ 11
  match w / 2 ^ 21 % 64 with
  | 0x00 => decide (0x1B < fn)
  | 0x01 => decide (0x11 < fn ∨ (fn = 0x0C ∨ fn = 0x0D) ∧ (rd = 0 ∨ rd % 2 = 1) ∨ fn = 0x0E ∧ ra % 2 = 1)
  | 0x02 => decide (12 ≤ w % 16 ∨ w / 16 % 2 = 1)
  | 0x03 => decide (12 ≤ w % 16)
  | 0x04 | 0x05 | 0x06 | 0x07 => false
  | 0x08 => decide (imm / 128 ≠ 0)
  | 0x09 => reservedField imm
  | 0x0A => reservedField imm || decide (imm / 32 % 2 = 1)
  | 0x0B | 0x0C => false
  | 0x10 | 0x11 | 0x12 | 0x13 | 0x14 | 0x18 | 0x19 | 0x1A => false
  | 0x1C | 0x1D => reservedX w
  | 0x1E | 0x22 => decide (1 < fn)
  | 0x20 | 0x21 => false
  | 0x28 => decide (4 < w % 8 ∨ w / 8 % 512 ≠ 0)
  | 0x30 => decide (fn = 7 ∨ 11 < fn)
  | _ => true

/-- Reserved codes of a 16-bit word: op5, and rd of BR and BLR (Table CPU-11). -/
def reservedShort (w : Nat) : Bool :=
  let op := w / 2 ^ 10
  decide (op = 0 ∨ 0x14 < op ∧ op < 0x18 ∨ 0x1A < op ∨ (op = 0x13 ∨ op = 0x14) ∧ w / 32 % 32 ≠ 0)

/-- Does a word raise the illegal-instruction exception by its bits alone (R382)? -/
def wordReserved (w : Nat) : Bool := if w < 2 ^ 15 then reservedShort w else reservedLong w

/-! ### Words in memory -/

/-- The bytes of a word in memory: each halfword little-endian, the first at the lower address (R382). -/
def codeBytes (w : Nat) : List Byte :=
  if w < 2 ^ 15 then leBytes 2 w else leBytes 2 (w / 2 ^ 16) ++ leBytes 2 (w % 2 ^ 16)

end Sys2Proof.Machine
end

