-- ==== Sys2Proof/Safety.lean ====
section
/-!
DEFINITION. The terms claims are made in: the parts of the state, what a command leaves alone, the canonical form of
every sparse store.
-/

namespace Sys2Proof.Machine

/-- The parts of the state beside the queue of waiting commands. -/
inductive Part where
  | clk | regs | units | env | gen | ring | mail | ev | per | cip | ctx | tag | tmp | tab | cap | tx | ttb | rx
  | coh | upd | boot | doms | bkp | cores | mem | bus | pins | phase | trace | ledger | free
  deriving DecidableEq, Repr

/-- Part `p` is the same in both states. -/
def Part.same (p : Part) (s t : State) : Prop :=
  match p with
  | .clk => t.clk = s.clk
  | .regs => t.regs = s.regs
  | .units => t.units = s.units
  | .env => t.env = s.env
  | .gen => t.gen = s.gen
  | .ring => t.ring = s.ring
  | .mail => t.mail = s.mail
  | .ev => t.ev = s.ev
  | .per => t.per = s.per
  | .cip => t.cip = s.cip
  | .ctx => t.ctx = s.ctx
  | .tag => t.tag = s.tag
  | .tmp => t.tmp = s.tmp
  | .tab => t.tab = s.tab
  | .cap => t.cap = s.cap
  | .tx => t.tx = s.tx
  | .ttb => t.ttb = s.ttb
  | .rx => t.rx = s.rx
  | .coh => t.coh = s.coh
  | .upd => t.upd = s.upd
  | .boot => t.boot = s.boot
  | .doms => t.doms = s.doms
  | .bkp => t.bkp = s.bkp
  | .cores => t.cores = s.cores
  | .mem => t.mem = s.mem
  | .bus => t.bus = s.bus
  | .pins => t.pins = s.pins
  | .phase => t.phase = s.phase
  | .trace => t.trace = s.trace
  | .ledger => t.ledger = s.ledger
  | .free => t.freeCount = s.freeCount

/-- The register stores of a core are in canonical form. -/
def CoreState.wf (k : CoreState) : Bool :=
  swf (fun _ => 0#32) k.regs && swf (fun _ => 0#32) k.cbBase && swf (fun _ => 0#32) k.cbLen &&
    swf (fun _ => 0#32) k.prBase && swf (fun _ => 0#32) k.prCtl

/-- Every store that commands read back is in canonical form: keys strictly rising, no entry equal to what an unlisted
key reads as. -/
structure State.Canonical (s : State) : Prop where
  regs : swf resetWord s.regs = true
  cells : Memory.wf s.mem.cells = true
  poison : swf (fun _ => false) s.mem.poison = true
  satchel : s.bkp.satchel.wf = true
  doms : swf (fun _ => ({} : DomRec)) s.doms = true
  units : swf (fun _ => ({} : UnitRec)) s.units = true
  cores : swf (fun _ => ({} : CoreState)) s.cores = true
  inner : s.cores.all (fun c => c.2.wf) = true
  timers : swf (fun _ => ({} : TimerRec)) s.ev.timers = true
  ports : swf (fun _ => ({} : PortRec)) s.per.ports = true
  ctx : s.ctx.ctx.wf = true
  eeprom : swf tagDefault s.tag.eeprom = true
  log : s.env.log.wf = true
  counters : swf (fun _ => 0) s.trace.counters = true

/-- From `s` to `t` only the parts in `ps` changed, the canonical form was kept, and the queue was left alone. -/
structure Only (ps : List Part) (s t : State) : Prop where
  same : ∀ p : Part, ps.contains p = false → p.same s t
  canonical : s.Canonical → t.Canonical
  pending : t.pending = s.pending

/-! ### Registers that a command leaves alone -/

/-- Words that any command may step on its way: DEV_STATUS and the envelope log (R54), ignored writes (R30), lost trace
packets (R451), lost events (R307), refused notices (R113). -/
def reportWords : List Nat :=
  [0x40000040, R.DEV_ACCESS_COUNT.addr, R.DEV_ENVLOG_NEXT.addr, R.INS_STATUS_GAPPED.addr, R.INS_GAPS_COUNT.addr,
    R.EVR_COUNTS_LOST.addr, R.MBX_COUNTS_REFUSED.addr] ++ (List.range 7).map fun k => (R.MBX_RLOST_LOST k).addr

/-- Every register word but those of `xs` and the report words reads as before. -/
def WordsKept (xs : List Nat) (s t : State) : Prop :=
  ∀ a, xs.contains a = false → reportWords.contains a = false → t.word a = s.word a

/-- Every byte of memory reads as before: no command of this frame stored one. -/
def BytesKept (s t : State) : Prop := ∀ a, t.byte a = s.byte a

/-! ### Instructions of a core -/

/-- Physical core `p` executes as core `c`, waits neither in WFE nor for a load, and the fetch of an instruction of `len`
bytes at its pc raises no exception (R378, R390, R393). -/
def State.fetches (s : State) (c : CoreId) (p len : Nat) : Bool :=
  s.coreKey c == some p && !(s.core p).waiting && (s.core p).remote.isNone && s.fetchFault c p len == none

/-- Core `c` fetches a 32-bit instruction whose guard is true (R383). -/
def State.runs (s : State) (c : CoreId) (p : Nat) (g : Guard) : Bool := s.fetches c p 4 && (s.core p).guarded g

/-- Core `p` becomes what `f` makes of it, its instruction cache apart; every other core is as before. Beside it only what
a fetch may leave behind changed: a suspended NOR operation (R407), a refreshed DRAM neighbour (R413), a trace packet. -/
structure Stepped (s t : State) (p : Nat) (f : CoreState → CoreState) : Prop where
  core : ∃ ic, t.core p = { f (s.core p) with icache := ic }
  others : ∀ q, q ≠ p → t.core q = s.core q
  words : WordsKept [R.DMC_NRR_COUNT.addr, R.NVM_STATUS_SUSP.addr] s t
  only : Only [.regs, .cores, .mem, .trace, .free] s t

/-- As `Stepped`, and no byte of memory changed. -/
structure Ended (s t : State) (p : Nat) (f : CoreState → CoreState) : Prop extends Stepped s t p f where
  bytes : BytesKept s t

/-- As `Stepped`, and the `n` bytes from `q` hold the low bytes of `v`, every other byte of memory is as before. -/
structure Stored (s t : State) (p : Nat) (f : CoreState → CoreState) (q n : Nat) (v : Word) : Prop
    extends Stepped s t p f where
  bytes : ∀ b, t.byte b = if q ≤ b ∧ b < q + n then BitVec.ofNat 8 (v.toNat / 2 ^ (8 * (b - q))) else s.byte b

/-- An instruction of `len` bytes ended on core `p` with `v` in rd and nothing else of the core changed but its pc. -/
structure Wrote (s t : State) (p len : Nat) (rd : RegNum) (v : Word) : Prop where
  result : (t.core p).reg rd = if rd = 0#5 then 0#32 else v
  kept : ∀ r, r ≠ rd → (t.core p).reg r = (s.core p).reg r
  pc : (t.core p).pc = (s.core p).pc + BitVec.ofNat 32 len
  rest : Ended s t p fun k => { k with regs := (t.core p).regs, pc := (t.core p).pc }

/-- Instruction `i` completes on core `p` and puts `v` into rd. -/
def Gives (s : State) (p len : Nat) (rd : RegNum) (i : Instr) (v : Word) : Prop :=
  ∃ t, exec i s = .next t ∧ Wrote s t p len rd v

/-- The core of a 32-bit instruction and its guard (R383); none for any other command. -/
def guardOf (i : Instr) : Option (CoreId × Guard) :=
  match i with
  | .add c g _ _ _ | .sub c g _ _ _ | .and c g _ _ _ | .or c g _ _ _ | .xor c g _ _ _ | .andn c g _ _ _
  | .shl c g _ _ _ | .shr c g _ _ _ | .sar c g _ _ _ | .ror c g _ _ _ | .mul c g _ _ _ | .mulh c g _ _ _
  | .mulhu c g _ _ _ | .div c g _ _ _ | .divu c g _ _ _ | .rem c g _ _ _ | .remu c g _ _ _ | .min c g _ _ _
  | .max c g _ _ _ | .minu c g _ _ _ | .maxu c g _ _ _ | .clz c g _ _ | .popc c g _ _ | .sextb c g _ _
  | .sexth c g _ _ | .zexth c g _ _ | .abs c g _ _ | .brev c g _ _ | .adds c g _ _ _ | .subs c g _ _ _
  | .shls c g _ _ _ | .abss c g _ _ | .add2 c g _ _ _ | .sub2 c g _ _ _ | .adds2 c g _ _ _
  | .subs2 c g _ _ _ | .mul2 c g _ _ _ | .dot2 c g _ _ _ | .cmul c g _ _ _ | .cmulj c g _ _ _
  | .cmac c g _ _ _ | .cmacj c g _ _ _ | .crnd c g _ _ | .pack c g _ _ _ | .swaph c g _ _ | .mulq c g _ _ _
  | .cmp c g _ _ _ _ _ | .cmpi c g _ _ _ _ _ | .addi c g _ _ _ | .andi c g _ _ _ | .ori c g _ _ _
  | .xori c g _ _ _ | .shiftiShl c g _ _ _ _ | .shiftiShr c g _ _ _ _ | .shiftiSar c g _ _ _ _
  | .shiftiRor c g _ _ _ _ | .bfx c g _ _ _ | .bfi c g _ _ _ | .lui c g _ _ | .lli c g _ _ | .pand c g _ _ _
  | .por c g _ _ _ | .pxor c g _ _ _ | .pandn c g _ _ _ | .pnot c g _ _ | .ldb c g _ _ _ _
  | .ldbu c g _ _ _ _ | .ldh c g _ _ _ _ | .ldhu c g _ _ _ _ | .ldw c g _ _ _ _ | .stb c g _ _ _ _
  | .sth c g _ _ _ _ | .stw c g _ _ _ _ | .ldx c g _ _ _ _ _ | .stx c g _ _ _ _ _ | .swap c g _ _ _ _
  | .cas c g _ _ _ _ | .b c g _ | .bl c g _ | .br c g _ | .blr c g _ | .mfs c g _ _ | .mts c g _ _
  | .eret c g | .syscall c g _ | .wfe c g | .fence c g | .fencei c g | .dcclean c g _ | .dcinv c g _
  | .dcflush c g _ | .icinv c g _ => some (c, g)
  | _ => none

/-- No field of the instruction holds a reserved value (R382, Tables CPU-6 to CPU-9). -/
def legal (i : Instr) : Bool :=
  match i with
  | .cmac _ _ rd _ _ | .cmacj _ _ rd _ _ => rd != 0#5 && !rd.getLsbD 0
  | .crnd _ _ _ ra => !ra.getLsbD 0
  | .br16 _ rd _ | .blr16 _ rd _ => rd == 0#5
  | .cmp _ _ _ _ _ _ cond | .cmpi _ _ _ _ _ _ cond => decide (cond.toNat < 12)
  | .shiftiShl _ _ _ _ top _ | .shiftiShr _ _ _ _ top _ | .shiftiSar _ _ _ _ top _ | .shiftiRor _ _ _ _ top _ => top == 0#4
  | .bfx _ _ _ _ imm => decide (imm.toNat / 64 + imm.toNat % 32 < 32)
  | .bfi _ _ _ _ imm => decide (imm.toNat / 64 + imm.toNat % 32 < 32) && !imm.getLsbD 5
  | .ldx _ _ _ _ am sz _ | .stx _ _ _ _ am sz _ =>
    decide (sz.toNat < 5) && match am with
      | .reserved _ => false
      | _ => true
  | _ => true

/-- An access of `n` bytes at `a` by core `c` raises no exception, goes to RAM at `q` past the cache, and its word holds no
error (R386, R389, R391, R400, R401). -/
def State.plainRam (s : State) (c : CoreId) (p a n q : Nat) (store : Bool) : Bool :=
  s.accessTrap c p a n store == none && s.place a == .ram q && !s.cacheable p a && !s.poisoned q

/-- The number of the `n` bytes from `q`, least significant first (R20). -/
def State.loaded (s : State) (q n : Nat) : Nat := leNum ((List.range n).map fun i => s.byte (q + i))

/-- Core `p`, in mode `prot` and with `ie` before, entered the exception of vector `vec` (R393, R394): the general registers,
predicates and buffers stand, PP and PIE hold the old mode and enable, P and EXL are set, IE is clear. -/
structure Entered (s t : State) (p : Nat) (prot : Bool) (vec : Nat) (epc cause : Word) : Prop where
  epc : (t.core p).epc = epc
  ecause : (t.core p).ecause = cause
  status : (t.core p).status = CoreState.mkStatus true false true prot (s.core p).ie
  pc : (t.core p).pc = (s.core p).vbase + BitVec.ofNat 32 (32 * vec)
  rest : Ended s t p fun k => { k with epc := (t.core p).epc, ecause := (t.core p).ecause, eaddr := (t.core p).eaddr,
                                       status := (t.core p).status, pc := (t.core p).pc }

/-! ### Ring work, events and ignored writes -/

/-- From `s` to `t` descriptor `w` was decided: it left the work in flight and its completion waits to be written (R95, R96). -/
structure Decided (s t : State) (w : Work) (status result : Nat) : Prop where
  gone : t.ring.work = s.ring.work.filter fun x => !(x.ring == w.ring && x.idx == w.idx)
  done : ∃ d, t.ring.done = s.ring.done ++ [d] ∧ d.ring = w.ring ∧ d.idx = w.idx ∧ d.tag = w.tag ∧ d.status = status ∧
    d.result = result % 2 ^ 32 ∧ (d.flags, d.stamp) = s.complStamp ∧ d.gen = w.gen ∧ d.event = w.wantsEvent ∧
    d.at_ = s.clk.edges

/-- Descriptor `w` of the given opcode is accepted by its unit, which is enabled, not draining and not being reset. -/
def State.workReady (s : State) (ring idx op : Nat) (w : Work) : Bool :=
  s.findWork ring idx == some w && w.stage == .accepted && w.opcode == op && s.enabled w.unit &&
    !s.flag (R.UCTL_DRAIN w.unit) && !(s.unit w.unit).draining && !(s.unit w.unit).lapsed

/-- The event router takes events: SYS is on, the router enabled and not being reset (R304, R307). -/
def State.routes (s : State) : Bool := s.domOn Dom.sys && s.enabled Hdr.evr && !(s.unit Hdr.evr).lapsed

/-- From `s` to `t` an event of source `src` reached the router, if it takes events; any other event was there before. -/
def Emitted (s t : State) (src : Nat) : Prop :=
  ∃ d, t.ev.queue = if s.routes then s.ev.queue ++ [{ src := src, depth := d }] else s.ev.queue

/-- A write by an agent that may not make it is ignored and counted with the writer's stamp (R30, R86). -/
structure Ignored (who : Who) (s t : State) : Prop where
  count : t.rd R.DEV_ACCESS_COUNT = min 65535 (s.rd R.DEV_ACCESS_COUNT + 1)
  last : t.rd R.DEV_ACCESS_LAST = who.stamp % 256
  words : ∀ x, x ≠ 0x4000004C → t.word x = s.word x
  only : Only [.regs] s t

/-- The bytes `[q, q + n)` lie in SRAM or in DRAM, where they are bytes of memory (Table ARC-5). -/
def State.ramBytes (s : State) (q n : Nat) : Bool :=
  decide (0x10000000 ≤ q ∧ q + n ≤ 0x10400000) || decide (0x80000000 ≤ q ∧ q + n ≤ s.dramEnd)

/-- From `s` to `t` the bytes `bs` were stored from `q`, and every other byte of memory reads as before. -/
def BytesPut (s t : State) (q : Nat) (bs : List Byte) : Prop :=
  ∀ b, t.byte b = if q ≤ b ∧ b < q + bs.length then bs.getD (b - q) 0#8 else s.byte b

/-- Every domain but `n` stands at its target and no transition of it runs. -/
def State.othersSettled (s : State) (n : Nat) : Bool :=
  domNums.all fun m => m == n || ((s.dom m).trans.isNone && (s.dom m).state == (s.dom m).target)

/-- A 32-byte record of the given kind completed the oldest buffer of its ring, or was lost and counted (R84, R273, R430). -/
def Posted (s t : State) (ring kind : Nat) (lost : Fld) : Prop :=
  match s.oldestNoteBuf ring with
  | some w => Decided s t w 0x00 kind
  | none => t.rd lost = min (2 ^ lost.width - 1) (s.rd lost + 1) ∧ t.ring = s.ring

/-! ### What a command may change -/

/-- The parts of the state that a command may change; the others it leaves alone. -/
def changes (i : Instr) : List Part :=
  match i with
  | .wfeWake _ | .interruptEntry _ | .impreciseBusError _ =>
    [.regs, .cores, .trace]
  | .synthPark _ | .timerPeriodEvent _ _ | .timerCompareEvent _ _ | .timerCaptureEdge _ _ _ | .daliBusFault _
  | .counterStream _ | .portLinkChange _ _ _ | .chargeConstantVoltage _ | .escalationWindowEnd _ _ =>
    [.clk, .regs, .ev, .tx, .trace]
  | .agcAttack _ _ _ | .agcRelease _ =>
    [.clk, .regs, .ev, .cap, .tx, .trace]
  | .dimRampEnd _ =>
    [.clk, .regs, .ev, .per, .tx, .trace]
  | .tagPowerUp _ _ | .tagLockoutEnd _ | .tagExactReply _ =>
    [.clk, .regs, .ev, .tag, .tx, .trace]
  | .tokenClear _ | .bkpWriteLanded _ | .trimMeasurementEnd _ =>
    [.clk, .regs, .ev, .tx, .bkp, .trace]
  | .railRecovery _ =>
    [.clk, .regs, .ev, .tx, .boot, .trace]
  | .tempoReadLatch _ _ | .timerCaptureRead _ _ _ | .counterLatch _ _ =>
    [.clk, .regs, .ev, .tx, .bus, .trace]
  | .dramRefresh _ _ =>
    [.clk, .regs, .ev, .tx, .mem, .trace]
  | .daliSupplySwitch _ _ =>
    [.clk, .regs, .ev, .tx, .pins, .trace]
  | .preambleDetection _ _ _ _ _ =>
    [.clk, .regs, .ev, .tx, .rx, .trace]
  | .synCalSliceStart _ | .slotOccurrenceStart _ _ | .slotOccurrenceEnd _ _ _ | .wakeEvent _ _
  | .windowClose _ _ | .bucketRoll _ _ | .dwellWindowClear _ _ =>
    [.clk, .regs, .ev, .tx, .ttb, .trace]
  | .homeroomHello _ _ | .homeroomBaud _ _ _ =>
    [.clk, .regs, .ev, .tx, .upd, .trace]
  | .cohortSendTimeout _ _ =>
    [.clk, .regs, .mail, .ev, .tx, .trace]
  | .timedStart _ _ _ | .fenceRelease _ _ _ | .nop _ _ _ | .setOwner _ _ | .copy _ _ _ | .fill _ _ _
  | .crc _ _ _ | .noteBuf _ _ _ | .rxBuf _ _ _ | .fieldBusyTimeout _ _ | .counterBlockTimeout _ _ _ =>
    [.clk, .regs, .ring, .ev, .tx, .trace]
  | .nvmErasePoll _ =>
    [.clk, .regs, .units, .ev, .tx, .trace]
  | .capCalSliceStart _ =>
    [.clk, .regs, .ev, .cap, .tx, .ttb, .trace]
  | .gpioEdge _ _ _ =>
    [.clk, .regs, .ev, .per, .tx, .bkp, .trace]
  | .daliReceiveRead _ | .uartDataRead _ _ =>
    [.clk, .regs, .ev, .per, .tx, .bus, .trace]
  | .daliFaultClear _ =>
    [.clk, .regs, .ev, .per, .tx, .trace, .free]
  | .dieTemperatureUpdate _ _ =>
    [.clk, .regs, .ev, .tab, .cap, .tx, .trace]
  | .calendarLatch _ =>
    [.clk, .regs, .ev, .tx, .bkp, .bus, .trace]
  | .calendarAlarmFire _ _ =>
    [.clk, .regs, .ev, .tx, .bkp, .trace, .free]
  | .combineWaitEnd _ =>
    [.clk, .regs, .ev, .tx, .rx, .trace, .free]
  | .mbxLatchRead _ _ _ | .mbxRemoveRead _ _ _ =>
    [.clk, .regs, .mail, .ev, .tx, .bus, .trace]
  | .record _ _ | .recordStop _ _ =>
    [.clk, .regs, .ring, .ev, .cap, .tx, .trace]
  | .ctxSave _ _ | .ctxLoad _ _ | .keyWrap _ _ | .keyUnwrap _ _ =>
    [.clk, .regs, .ring, .ev, .cip, .tx, .trace]
  | .chanWrite _ _ | .watchWrite _ _ | .ttbWrite _ _ =>
    [.clk, .regs, .ring, .ev, .tab, .tx, .trace]
  | .tagWrite _ _ | .tagSecret _ _ | .tagExchTx _ _ =>
    [.clk, .regs, .ring, .ev, .tag, .tx, .trace]
  | .lgDisarm _ _ =>
    [.clk, .regs, .ring, .ev, .tx, .ttb, .trace]
  | .cohortPrepareTimeout _ =>
    [.clk, .regs, .ring, .ev, .tx, .upd, .trace]
  | .txFirstChip _ | .ackTransmit _ =>
    [.clk, .regs, .units, .ev, .ctx, .tx, .trace]
  | .daliFrameStart _ | .daliFrameReceived _ _ _ | .uartByteReceived _ _ _ _ _ | .spiTransferEnd _ _ _
  | .iicTransferEnd _ _ _ _ _ _ =>
    [.clk, .regs, .units, .ev, .per, .tx, .trace]
  | .inventory _ _ _ _ _ | .stayQuiet _ _ | .readSingleBlock _ _ _ _ | .writeSingleBlock _ _ _ _ _ _
  | .lockBlock _ _ _ _ _ | .readMultipleBlocks _ _ _ _ _ | .writeMultipleBlocks _ _ _ _ _ _ | .select _ _
  | .resetToReady _ _ | .writeAfi _ _ _ _ | .lockAfi _ _ _ | .writeDsfid _ _ _ _ | .lockDsfid _ _ _
  | .getBlockSecurityStatus _ _ _ _ _ | .password _ _ _ _ | .authEnd _ _ _ | .invAdapt _ _ _ _ _ _
  | .exchRead _ _ _ | .exchWrite _ _ _ _ | .ctrInc _ _ _ _ | .homeroomReq _ _ _ | .timing _ _ _
  | .leaveSecured _ _ | .tagUnknownCommand _ _ =>
    [.clk, .regs, .units, .ev, .tag, .tx, .trace]
  | .helloSend _ =>
    [.clk, .regs, .units, .ev, .tx, .coh, .trace]
  | .nvmResume _ | .dramTrainingEnd _ _ _ =>
    [.clk, .regs, .units, .ev, .tx, .mem, .trace]
  | .laneAssign _ | .laneDelimiterFound _ _ _ | .laneNoDelimiter _ _ | .laneSyncDecided _ _ _ _ _ _ _ _
  | .laneHeaderDecoded _ _ _ | .laneFlushDone _ _ =>
    [.clk, .regs, .units, .ev, .tx, .rx, .trace]
  | .cohortSendAnswer _ _ _ =>
    [.clk, .regs, .units, .mail, .ev, .tx, .trace]
  | .descriptorFetch _ _ | .txLastChip _ =>
    [.clk, .regs, .units, .ring, .ev, .tx, .trace]
  | .daliResultRead _ =>
    [.clk, .regs, .ev, .per, .tx, .bus, .trace, .free]
  | .powerOn _ _ =>
    [.clk, .regs, .ev, .tx, .boot, .pins, .phase, .trace]
  | .lgArm _ _ =>
    [.clk, .regs, .ring, .ev, .cip, .tx, .ttb, .trace]
  | .doorbell _ _ _ _ | .cqconsWrite _ _ _ _ | .synCalibrationRequest _ _ _ | .synCalibrationForce _ _ _
  | .groupEnable _ _ _ | .groupDisable _ _ _ | .softwareTrigger _ _ _ | .eventIrqClear _ _ _ | .timerStart _ _ _
  | .timerStop _ _ _ | .timerClear _ _ _ | .timerCaptureRise _ _ _ | .timerCaptureFall _ _ _
  | .timerPeriodWrite _ _ _ _ | .gpioSet _ _ _ | .gpioClear _ _ _ | .gpioToggle _ _ _ | .dramTrainingRequest _ _
  | .counterClear _ _ _ =>
    [.clk, .regs, .units, .env, .mail, .ev, .tx, .trace]
  | .daliCollision _ | .daliFrameEnd _ | .daliAnswerEnd _ _ =>
    [.clk, .regs, .units, .ev, .per, .tx, .trace, .free]
  | .getSystemInformation _ _ _ | .authBegin _ _ _ _ =>
    [.clk, .regs, .units, .ev, .tag, .tx, .trace, .free]
  | .forcedSliceDecision _ _ =>
    [.clk, .regs, .units, .gen, .ring, .ev, .tx, .trace]
  | .tagCtr _ _ =>
    [.clk, .regs, .units, .ring, .ev, .tag, .tx, .trace]
  | .updClose _ _ =>
    [.clk, .regs, .units, .ring, .ev, .tx, .upd, .trace]
  | .servedNotice _ _ _ =>
    [.clk, .regs, .units, .ring, .mail, .ev, .tx, .trace]
  | .capCalibrationRequest _ _ _ | .capCalibrationForce _ _ _ =>
    [.clk, .regs, .units, .env, .mail, .ev, .cap, .tx, .trace]
  | .keyLoad _ _ | .keyErase _ _ | .keyDataClear _ _ =>
    [.clk, .regs, .units, .env, .mail, .ev, .cip, .tx, .trace]
  | .cohRxsync _ _ _ _ _ =>
    [.clk, .regs, .units, .env, .mail, .ev, .ctx, .tx, .trace]
  | .dimLevelWrite _ _ _ | .uartDataWrite _ _ _ _ | .spiGo _ _ _ _ | .iicGo _ _ _ _ =>
    [.clk, .regs, .units, .env, .mail, .ev, .per, .tx, .trace]
  | .capCalinv _ _ _ | .synCalinv _ _ _ =>
    [.clk, .regs, .units, .env, .mail, .ev, .tab, .tx, .trace]
  | .rootCycleSet _ _ _ =>
    [.clk, .regs, .units, .env, .mail, .ev, .tmp, .tx, .trace]
  | .forcedColdStart _ _ | .calendarAlarmArm _ _ _ _ | .calendarAlarmDisarm _ _ _ _ =>
    [.clk, .regs, .units, .env, .mail, .ev, .tx, .bkp, .trace]
  | .mbxSend _ _ _ _ | .cohElect _ _ _ | .cohNotice _ _ _ _ _ _ _ | .leadLossTimeout _ | .electionRetry _
  | .cohRejoin _ _ _ =>
    [.clk, .regs, .units, .env, .mail, .ev, .tx, .coh, .trace]
  | .nvmProgram _ _ | .nvmEraseSector _ _ | .nvmEraseBlock _ _ =>
    [.clk, .regs, .units, .env, .mail, .ev, .tx, .mem, .trace]
  | .cohSoft _ _ _ _ =>
    [.clk, .regs, .units, .env, .mail, .ev, .tx, .rx, .trace]
  | .serverReturn _ _ _ _ _ =>
    [.clk, .regs, .units, .env, .ring, .mail, .ev, .tx, .trace]
  | .capCalSliceEnd _ _ =>
    [.clk, .regs, .units, .ev, .tab, .cap, .tx, .trace, .free]
  | .synCalSliceEnd _ _ _ =>
    [.clk, .regs, .units, .ev, .tab, .tx, .ttb, .trace, .free]
  | .noAckOutcome _ =>
    [.clk, .regs, .units, .gen, .ring, .ev, .ctx, .tx, .trace]
  | .commit _ _ =>
    [.clk, .regs, .units, .gen, .ring, .ev, .tx, .coh, .trace]
  | .txHopStart _ =>
    [.clk, .regs, .units, .gen, .ring, .ev, .tx, .ttb, .trace]
  | .updOpen _ _ | .updBlock _ _ | .cohortActivation _ | .homeroomHead _ _ _ | .homeroomBlock _ _ _ _ _ _
  | .homeroomFinish _ _ =>
    [.clk, .regs, .units, .ring, .ev, .tx, .upd, .mem, .trace]
  | .cohCfgpush _ _ _ =>
    [.clk, .regs, .units, .env, .gen, .mail, .ev, .tab, .tx, .trace]
  | .daliEnqueue _ _ _ =>
    [.clk, .regs, .units, .env, .mail, .ev, .per, .tx, .trace, .free]
  | .tempoCycleStart _ =>
    [.clk, .regs, .units, .env, .mail, .ev, .tmp, .tx, .coh, .trace]
  | .calendarSet _ _ | .calendarAdjust _ _ _ =>
    [.clk, .regs, .units, .env, .mail, .ev, .tx, .bkp, .trace, .free]
  | .sramRemapSwitch _ | .scrubberRead _ _ =>
    [.clk, .regs, .units, .env, .mail, .ev, .tx, .mem, .trace, .ledger]
  | .laneSelfTest _ _ _ =>
    [.clk, .regs, .units, .env, .mail, .ev, .tx, .rx, .trace, .ledger]
  | .bufferExpiry _ _ =>
    [.clk, .regs, .units, .ev, .ctx, .tx, .coh, .bkp, .mem, .trace]
  | .ledgerWrite _ _ =>
    [.clk, .regs, .units, .ev, .tx, .coh, .bkp, .mem, .trace, .ledger]
  | .txFirstEdge _ _ _ =>
    [.clk, .regs, .units, .gen, .ring, .ev, .tab, .tx, .ttb, .trace]
  | .chanRead _ _ | .watchRead _ _ | .ctxRead _ _ | .ttbRead _ _ | .tagRead _ _ =>
    [.clk, .regs, .units, .ring, .ev, .tx, .coh, .bkp, .mem, .trace]
  | .updActivate _ _ | .updAccept _ _ | .updRevert _ _ | .trialExpiry _ =>
    [.clk, .regs, .units, .ring, .ev, .tx, .coh, .upd, .mem, .trace]
  | .cohAckreq _ _ _ _ _ =>
    [.clk, .regs, .units, .env, .gen, .ring, .mail, .ev, .tx, .ttb, .trace]
  | .lanePayloadEnd _ _ _ _ _ =>
    [.clk, .regs, .units, .env, .mail, .ev, .tx, .rx, .coh, .trace, .free]
  | .memberLost _ _ =>
    [.clk, .regs, .units, .gen, .ring, .ev, .tx, .coh, .bkp, .mem, .trace]
  | .recordEnd _ _ _ | .recordOverflow _ _ _ =>
    [.clk, .regs, .units, .ring, .ev, .cap, .tx, .coh, .bkp, .mem, .trace]
  | .cipher _ _ =>
    [.clk, .regs, .units, .ring, .ev, .cip, .tx, .coh, .bkp, .mem, .trace]
  | .tagWriteStepEnd _ | .tagExchRx _ _ =>
    [.clk, .regs, .units, .ring, .ev, .tag, .tx, .coh, .bkp, .mem, .trace]
  | .lockTimeout _ | .uncertaintyGuard _ | .tempoAlarmFire _ _ =>
    [.clk, .regs, .units, .ring, .ev, .tmp, .tx, .coh, .bkp, .mem, .trace]
  | .windowEvaluation _ _ =>
    [.clk, .regs, .units, .ring, .ev, .tx, .ttb, .coh, .bkp, .mem, .trace]
  | .ringEnable _ _ _ _ | .ringDisable _ _ _ _ =>
    [.clk, .regs, .units, .env, .gen, .ring, .mail, .ev, .cap, .tx, .upd, .trace]
  | .softBuffersEnable _ _ _ | .softBuffersDisable _ _ _ =>
    [.clk, .regs, .units, .env, .mail, .ev, .ctx, .tx, .coh, .bkp, .mem, .trace]
  | .registerRead _ _ _ =>
    [.clk, .regs, .units, .env, .mail, .ev, .per, .tx, .bkp, .bus, .trace, .free]
  | .copyJobEnd _ _ _ | .cohLeader _ _ _ _ _ | .majorityLoss _ =>
    [.clk, .regs, .units, .env, .ring, .mail, .ev, .tx, .coh, .bkp, .mem, .trace]
  | .partnerAbsent _ _ | .lastGaspSent _ =>
    [.clk, .regs, .units, .ring, .ev, .ctx, .tx, .ttb, .coh, .bkp, .mem, .trace]
  | .tagFieldLoss _ =>
    [.clk, .regs, .units, .ring, .ev, .tag, .tx, .coh, .bkp, .mem, .trace, .free]
  | .electionWindowEnd _ =>
    [.clk, .regs, .units, .env, .gen, .ring, .mail, .ev, .tx, .coh, .bkp, .mem, .trace]
  | .cipherOperationEnd _ _ =>
    [.clk, .regs, .units, .env, .ring, .mail, .ev, .cip, .tx, .coh, .bkp, .mem, .trace]
  | .cohBlkreq _ _ _ =>
    [.clk, .regs, .units, .env, .ring, .mail, .ev, .ctx, .tx, .coh, .bkp, .mem, .trace]
  | .tempoAlarmArm _ _ _ _ | .tempoAlarmDisarm _ _ _ _ =>
    [.clk, .regs, .units, .env, .ring, .mail, .ev, .tmp, .tx, .coh, .bkp, .mem, .trace]
  | .cohHello _ _ _ _ _ _ _ _ =>
    [.clk, .regs, .units, .env, .ring, .mail, .ev, .tx, .coh, .upd, .bkp, .mem, .trace]
  | .trackSelect _ _ _ =>
    [.clk, .regs, .units, .env, .ring, .mail, .ev, .tx, .ttb, .coh, .bkp, .mem, .trace]
  | .tempoCorrectionApply _ =>
    [.clk, .regs, .units, .gen, .ring, .ev, .tmp, .tx, .ttb, .coh, .bkp, .mem, .trace]
  | .changeoverEnd _ =>
    [.clk, .regs, .units, .gen, .ring, .ev, .cip, .ctx, .tab, .tx, .coh, .bkp, .mem, .trace]
  | .send _ _ _ | .bellSeal _ _ =>
    [.clk, .regs, .units, .gen, .ring, .ev, .cip, .ctx, .tx, .ttb, .coh, .bkp, .mem, .trace]
  | .mainsZeroCrossing _ _ _ _ _ | .crossingTimeout _ _ | .flywheelLimit _ | .cohTempo _ _ _ _ _ _
  | .followerTempoLoss _ =>
    [.clk, .regs, .units, .env, .gen, .ring, .mail, .ev, .tmp, .tx, .ttb, .coh, .bkp, .mem, .trace]
  | .cohBlkgnt _ _ _ _ =>
    [.clk, .regs, .units, .env, .gen, .ring, .mail, .ev, .cip, .ctx, .tx, .ttb, .coh, .bkp, .mem, .trace]
  | .commitBoundary _ =>
    [.clk, .regs, .units, .gen, .ring, .ev, .cip, .ctx, .tab, .tx, .ttb, .rx, .coh, .bkp, .mem, .trace, .free]
  | .commitContextRewrite _ | .decodeJobStart _ | .decodeJobEnd _ _ | .cohDecoded _ _ _ _ _ _
  | .decodeDeadline _ =>
    [.clk, .regs, .units, .env, .gen, .ring, .mail, .ev, .cip, .ctx, .tmp, .tx, .ttb, .rx, .coh, .bkp, .mem,
      .trace, .free]
  | .nrstRelease _ =>
    [.clk, .regs, .units, .env, .gen, .ring, .mail, .ev, .tag, .tmp, .tx, .ttb, .coh, .boot, .doms, .bkp, .mem,
      .pins, .phase, .trace]
  | .unitReturnToService _ _ =>
    [.clk, .regs, .units, .env, .gen, .ring, .mail, .ev, .per, .cip, .ctx, .tag, .tmp, .cap, .tx, .ttb, .rx, .coh,
      .upd, .bkp, .cores, .mem, .trace, .free]
  | .startUpStageBoundExpiry _ | .bkpSwitchBack _ =>
    [.clk, .regs, .units, .env, .gen, .ring, .mail, .ev, .per, .tag, .tmp, .cap, .tx, .ttb, .rx, .coh, .upd, .boot,
      .doms, .bkp, .cores, .mem, .phase, .trace, .free]
  | .registerWrite _ _ _ _ | .unitDisable _ _ _ _ | .unitEnable _ _ _ _ | .unitDrain _ _ _ _
  | .unitResume _ _ _ _ | .unitResetRequest _ _ _ _ | .unitPowerOnRequest _ _ _ _ | .txLastEdge _
  | .txLockLoss _ | .thermalShutdown _ | .thermalRecovery _ | .eventRoute _ _ | .domainStateRequest _ _ _ _
  | .coreHeartbeat _ _ _ _ | .cohWreq _ _ _ _ _ _ _ =>
    [.clk, .regs, .units, .env, .gen, .ring, .mail, .ev, .per, .cip, .ctx, .tag, .tmp, .tab, .cap, .tx, .ttb, .rx,
      .coh, .upd, .doms, .bkp, .cores, .mem, .bus, .phase, .trace, .ledger, .free]
  | .mainLossTrigger _ _ =>
    [.clk, .regs, .units, .env, .gen, .ring, .mail, .ev, .per, .cip, .ctx, .tag, .tmp, .tab, .cap, .tx, .ttb, .rx,
      .coh, .upd, .doms, .bkp, .cores, .mem, .bus, .pins, .phase, .trace, .ledger, .free]
  | .add _ _ _ _ _ | .sub _ _ _ _ _ | .and _ _ _ _ _ | .or _ _ _ _ _ | .xor _ _ _ _ _ | .andn _ _ _ _ _
  | .shl _ _ _ _ _ | .shr _ _ _ _ _ | .sar _ _ _ _ _ | .ror _ _ _ _ _ | .mul _ _ _ _ _ | .mulh _ _ _ _ _
  | .mulhu _ _ _ _ _ | .div _ _ _ _ _ | .divu _ _ _ _ _ | .rem _ _ _ _ _ | .remu _ _ _ _ _ | .min _ _ _ _ _
  | .max _ _ _ _ _ | .minu _ _ _ _ _ | .maxu _ _ _ _ _ | .clz _ _ _ _ | .popc _ _ _ _ | .sextb _ _ _ _
  | .sexth _ _ _ _ | .zexth _ _ _ _ | .abs _ _ _ _ | .brev _ _ _ _ | .adds _ _ _ _ _ | .subs _ _ _ _ _
  | .shls _ _ _ _ _ | .abss _ _ _ _ | .add2 _ _ _ _ _ | .sub2 _ _ _ _ _ | .adds2 _ _ _ _ _ | .subs2 _ _ _ _ _
  | .mul2 _ _ _ _ _ | .dot2 _ _ _ _ _ | .cmul _ _ _ _ _ | .cmulj _ _ _ _ _ | .cmac _ _ _ _ _ | .cmacj _ _ _ _ _
  | .crnd _ _ _ _ | .pack _ _ _ _ _ | .swaph _ _ _ _ | .mulq _ _ _ _ _ | .cmp _ _ _ _ _ _ _
  | .cmpi _ _ _ _ _ _ _ | .addi _ _ _ _ _ | .andi _ _ _ _ _ | .ori _ _ _ _ _ | .xori _ _ _ _ _
  | .shiftiShl _ _ _ _ _ _ | .shiftiShr _ _ _ _ _ _ | .shiftiSar _ _ _ _ _ _ | .shiftiRor _ _ _ _ _ _
  | .bfx _ _ _ _ _ | .bfi _ _ _ _ _ | .lui _ _ _ _ | .lli _ _ _ _ | .pand _ _ _ _ _ | .por _ _ _ _ _
  | .pxor _ _ _ _ _ | .pandn _ _ _ _ _ | .pnot _ _ _ _ | .ldb _ _ _ _ _ _ | .ldbu _ _ _ _ _ _ | .ldh _ _ _ _ _ _
  | .ldhu _ _ _ _ _ _ | .ldw _ _ _ _ _ _ | .stb _ _ _ _ _ _ | .sth _ _ _ _ _ _ | .stw _ _ _ _ _ _
  | .ldx _ _ _ _ _ _ _ | .stx _ _ _ _ _ _ _ | .swap _ _ _ _ _ _ | .cas _ _ _ _ _ _ | .b _ _ _ | .bl _ _ _
  | .br _ _ _ | .blr _ _ _ | .mfs _ _ _ _ | .mts _ _ _ _ | .eret _ _ | .syscall _ _ _ | .wfe _ _ | .fence _ _
  | .fencei _ _ | .dcclean _ _ _ | .dcinv _ _ _ | .dcflush _ _ _ | .icinv _ _ _ | .mov _ _ _ | .add16 _ _ _
  | .sub16 _ _ _ | .and16 _ _ _ | .or16 _ _ _ | .xor16 _ _ _ | .shl16 _ _ _ | .shr16 _ _ _ | .sar16 _ _ _
  | .li _ _ _ | .addi16 _ _ _ | .shli _ _ _ | .shri _ _ _ | .sari _ _ _ | .ldwsp _ _ _ _ | .stwsp _ _ _ _
  | .ldw16 _ _ _ _ | .stw16 _ _ _ _ | .br16 _ _ _ | .blr16 _ _ _ | .b16 _ _ | .bt1 _ _ | .bf1 _ _
  | .illegalInstruction _ | .fetchFault _ _ =>
    [.regs, .units, .env, .gen, .ring, .mail, .ev, .per, .cip, .ctx, .tag, .tmp, .tab, .cap, .tx, .ttb, .rx, .coh,
      .upd, .boot, .doms, .bkp, .cores, .mem, .bus, .pins, .phase, .trace, .ledger, .free]
  | .startUpStageEnd _ _ | .railFall _ _ | .nrstAssert _ _ | .unitLapse _ _ | .completionWrite _ _
  | .windowAccessTimeout _ _ | .domainTransitionEnd _ _ | .bkpWake _ | .nvmOperationEnd _ _ | .cohWrsp _ _ _ _ _
  | .homeroomRestart _ _ | .homeroomTimeout _ =>
    [.clk, .regs, .units, .env, .gen, .ring, .mail, .ev, .per, .cip, .ctx, .tag, .tmp, .tab, .cap, .tx, .ttb, .rx,
      .coh, .upd, .boot, .doms, .bkp, .cores, .mem, .bus, .pins, .phase, .trace, .ledger, .free]

/-- The time that a command carries; an instruction of a core takes none. -/
def elapsedOf (i : Instr) : Option Elapsed :=
  match i with
  | .powerOn t _ | .startUpStageEnd t _ | .startUpStageBoundExpiry t | .railFall t _ | .railRecovery t
  | .nrstAssert t _ | .nrstRelease t | .bkpSwitchBack t | .tokenClear t | .forcedColdStart t _
  | .registerWrite t _ _ _ | .unitDisable t _ _ _ | .unitEnable t _ _ _ | .unitDrain t _ _ _
  | .unitResume t _ _ _ | .unitResetRequest t _ _ _ | .unitPowerOnRequest t _ _ _ | .unitLapse t _
  | .unitReturnToService t _ | .doorbell t _ _ _ | .descriptorFetch t _ | .timedStart t _ _
  | .fenceRelease t _ _ | .completionWrite t _ | .cqconsWrite t _ _ _ | .ringEnable t _ _ _
  | .ringDisable t _ _ _ | .nop t _ _ | .commit t _ | .commitBoundary t | .commitContextRewrite t
  | .changeoverEnd t | .setOwner t _ | .copy t _ _ | .fill t _ _ | .crc t _ _ | .copyJobEnd t _ _
  | .servedNotice t _ _ | .serverReturn t _ _ _ _ | .mbxSend t _ _ _ | .mbxLatchRead t _ _
  | .mbxRemoveRead t _ _ | .cohortSendAnswer t _ _ | .cohortSendTimeout t _ | .windowAccessTimeout t _
  | .mainsZeroCrossing t _ _ _ _ | .crossingTimeout t _ | .lockTimeout t | .tempoCycleStart t | .flywheelLimit t
  | .uncertaintyGuard t | .tempoCorrectionApply t | .rootCycleSet t _ _ | .tempoReadLatch t _
  | .tempoAlarmArm t _ _ _ | .tempoAlarmDisarm t _ _ _ | .tempoAlarmFire t _ | .noteBuf t _ _ | .agcAttack t _ _
  | .agcRelease t | .capCalibrationRequest t _ _ | .capCalibrationForce t _ _ | .capCalSliceStart t
  | .capCalSliceEnd t _ | .capCalinv t _ _ | .dieTemperatureUpdate t _ | .record t _ | .recordStop t _
  | .recordEnd t _ _ | .recordOverflow t _ _ | .chanWrite t _ | .chanRead t _ | .watchWrite t _ | .watchRead t _
  | .preambleDetection t _ _ _ _ | .laneAssign t | .laneDelimiterFound t _ _ | .laneNoDelimiter t _
  | .laneSyncDecided t _ _ _ _ _ _ _ | .laneHeaderDecoded t _ _ | .lanePayloadEnd t _ _ _ _ | .laneFlushDone t _
  | .laneSelfTest t _ _ | .noAckOutcome t | .combineWaitEnd t | .decodeJobStart t | .decodeJobEnd t _
  | .bufferExpiry t _ | .softBuffersEnable t _ _ | .softBuffersDisable t _ _ | .synCalibrationRequest t _ _
  | .synCalibrationForce t _ _ | .forcedSliceDecision t _ | .synCalSliceStart t | .synCalSliceEnd t _ _
  | .synCalinv t _ _ | .synthPark t | .txHopStart t | .txFirstEdge t _ _ | .txFirstChip t | .txLastChip t
  | .txLastEdge t | .txLockLoss t | .ackTransmit t | .thermalShutdown t | .thermalRecovery t | .send t _ _
  | .rxBuf t _ _ | .ctxRead t _ | .ttbWrite t _ | .ttbRead t _ | .slotOccurrenceStart t _
  | .slotOccurrenceEnd t _ _ | .bellSeal t _ | .trackSelect t _ _ | .partnerAbsent t _ | .windowEvaluation t _
  | .wakeEvent t _ | .windowClose t _ | .bucketRoll t _ | .dwellWindowClear t _ | .lgArm t _ | .lgDisarm t _
  | .mainLossTrigger t _ | .lastGaspSent t | .keyLoad t _ | .keyErase t _ | .keyDataClear t _ | .cipher t _
  | .ctxSave t _ | .ctxLoad t _ | .keyWrap t _ | .keyUnwrap t _ | .cipherOperationEnd t _ | .eventRoute t _
  | .groupEnable t _ _ | .groupDisable t _ _ | .softwareTrigger t _ _ | .eventIrqClear t _ _ | .gpioEdge t _ _
  | .timerPeriodEvent t _ | .timerCompareEvent t _ | .timerCaptureEdge t _ _ | .timerStart t _ _
  | .timerStop t _ _ | .timerClear t _ _ | .timerCaptureRise t _ _ | .timerCaptureFall t _ _
  | .timerPeriodWrite t _ _ _ | .timerCaptureRead t _ _ | .daliEnqueue t _ _ | .daliFrameStart t
  | .daliCollision t | .daliFrameEnd t | .daliAnswerEnd t _ | .daliFrameReceived t _ _ | .daliBusFault t
  | .daliFaultClear t | .daliResultRead t | .daliReceiveRead t | .daliSupplySwitch t _ | .dimLevelWrite t _ _
  | .dimRampEnd t | .gpioSet t _ _ | .gpioClear t _ _ | .gpioToggle t _ _ | .uartDataWrite t _ _ _
  | .uartDataRead t _ | .uartByteReceived t _ _ _ _ | .spiGo t _ _ _ | .spiTransferEnd t _ _ | .iicGo t _ _ _
  | .iicTransferEnd t _ _ _ _ _ | .inventory t _ _ _ _ | .stayQuiet t _ | .readSingleBlock t _ _ _
  | .writeSingleBlock t _ _ _ _ _ | .lockBlock t _ _ _ _ | .readMultipleBlocks t _ _ _ _
  | .writeMultipleBlocks t _ _ _ _ _ | .select t _ | .resetToReady t _ | .writeAfi t _ _ _ | .lockAfi t _ _
  | .writeDsfid t _ _ _ | .lockDsfid t _ _ | .getSystemInformation t _ _ | .getBlockSecurityStatus t _ _ _ _
  | .password t _ _ _ | .authBegin t _ _ _ | .authEnd t _ _ | .invAdapt t _ _ _ _ _ | .exchRead t _ _
  | .exchWrite t _ _ _ | .ctrInc t _ _ _ | .homeroomReq t _ _ | .timing t _ _ | .leaveSecured t _
  | .tagWriteStepEnd t | .tagPowerUp t _ | .tagFieldLoss t | .tagLockoutEnd t | .tagExactReply t | .tagRead t _
  | .tagWrite t _ | .tagCtr t _ | .tagSecret t _ | .tagExchRx t _ | .tagExchTx t _ | .fieldBusyTimeout t _
  | .domainStateRequest t _ _ _ | .domainTransitionEnd t _ | .bkpWake t | .calendarLatch t | .calendarSet t _
  | .calendarAdjust t _ _ | .bkpWriteLanded t | .trimMeasurementEnd t | .calendarAlarmArm t _ _ _
  | .calendarAlarmDisarm t _ _ _ | .calendarAlarmFire t _ | .coreHeartbeat t _ _ _ | .sramRemapSwitch t
  | .nvmProgram t _ | .nvmEraseSector t _ | .nvmEraseBlock t _ | .nvmErasePoll t | .nvmResume t
  | .nvmOperationEnd t _ | .dramRefresh t _ | .dramTrainingRequest t _ | .dramTrainingEnd t _ _ | .helloSend t
  | .cohHello t _ _ _ _ _ _ _ | .cohElect t _ _ | .cohLeader t _ _ _ _ | .cohTempo t _ _ _ _ _
  | .cohWreq t _ _ _ _ _ _ | .cohWrsp t _ _ _ _ | .cohNotice t _ _ _ _ _ _ | .cohSoft t _ _ _
  | .cohDecoded t _ _ _ _ _ | .cohRxsync t _ _ _ _ | .cohBlkreq t _ _ | .cohBlkgnt t _ _ _ | .cohCfgpush t _ _
  | .cohAckreq t _ _ _ _ | .leadLossTimeout t | .electionWindowEnd t | .electionRetry t | .majorityLoss t
  | .followerTempoLoss t | .memberLost t _ | .counterBlockTimeout t _ _ | .cohRejoin t _ _ | .updOpen t _
  | .updBlock t _ | .updClose t _ | .updActivate t _ | .updAccept t _ | .updRevert t _ | .trialExpiry t
  | .cohortPrepareTimeout t | .cohortActivation t | .homeroomHello t _ | .homeroomHead t _ _
  | .homeroomBlock t _ _ _ _ _ | .homeroomFinish t _ | .homeroomRestart t _ | .homeroomBaud t _ _
  | .homeroomTimeout t | .counterStream t | .counterClear t _ _ | .counterLatch t _ | .ledgerWrite t _
  | .scrubberRead t _ | .portLinkChange t _ _ | .chargeConstantVoltage t | .decodeDeadline t
  | .registerRead t _ _ | .escalationWindowEnd t _ | .tagUnknownCommand t _ => some t
  | .add _ _ _ _ _ | .sub _ _ _ _ _ | .and _ _ _ _ _ | .or _ _ _ _ _ | .xor _ _ _ _ _ | .andn _ _ _ _ _
  | .shl _ _ _ _ _ | .shr _ _ _ _ _ | .sar _ _ _ _ _ | .ror _ _ _ _ _ | .mul _ _ _ _ _ | .mulh _ _ _ _ _
  | .mulhu _ _ _ _ _ | .div _ _ _ _ _ | .divu _ _ _ _ _ | .rem _ _ _ _ _ | .remu _ _ _ _ _ | .min _ _ _ _ _
  | .max _ _ _ _ _ | .minu _ _ _ _ _ | .maxu _ _ _ _ _ | .clz _ _ _ _ | .popc _ _ _ _ | .sextb _ _ _ _
  | .sexth _ _ _ _ | .zexth _ _ _ _ | .abs _ _ _ _ | .brev _ _ _ _ | .adds _ _ _ _ _ | .subs _ _ _ _ _
  | .shls _ _ _ _ _ | .abss _ _ _ _ | .add2 _ _ _ _ _ | .sub2 _ _ _ _ _ | .adds2 _ _ _ _ _ | .subs2 _ _ _ _ _
  | .mul2 _ _ _ _ _ | .dot2 _ _ _ _ _ | .cmul _ _ _ _ _ | .cmulj _ _ _ _ _ | .cmac _ _ _ _ _ | .cmacj _ _ _ _ _
  | .crnd _ _ _ _ | .pack _ _ _ _ _ | .swaph _ _ _ _ | .mulq _ _ _ _ _ | .cmp _ _ _ _ _ _ _
  | .cmpi _ _ _ _ _ _ _ | .addi _ _ _ _ _ | .andi _ _ _ _ _ | .ori _ _ _ _ _ | .xori _ _ _ _ _
  | .shiftiShl _ _ _ _ _ _ | .shiftiShr _ _ _ _ _ _ | .shiftiSar _ _ _ _ _ _ | .shiftiRor _ _ _ _ _ _
  | .bfx _ _ _ _ _ | .bfi _ _ _ _ _ | .lui _ _ _ _ | .lli _ _ _ _ | .pand _ _ _ _ _ | .por _ _ _ _ _
  | .pxor _ _ _ _ _ | .pandn _ _ _ _ _ | .pnot _ _ _ _ | .ldb _ _ _ _ _ _ | .ldbu _ _ _ _ _ _ | .ldh _ _ _ _ _ _
  | .ldhu _ _ _ _ _ _ | .ldw _ _ _ _ _ _ | .stb _ _ _ _ _ _ | .sth _ _ _ _ _ _ | .stw _ _ _ _ _ _
  | .ldx _ _ _ _ _ _ _ | .stx _ _ _ _ _ _ _ | .swap _ _ _ _ _ _ | .cas _ _ _ _ _ _ | .b _ _ _ | .bl _ _ _
  | .br _ _ _ | .blr _ _ _ | .mfs _ _ _ _ | .mts _ _ _ _ | .eret _ _ | .syscall _ _ _ | .wfe _ _ | .wfeWake _
  | .fence _ _ | .fencei _ _ | .dcclean _ _ _ | .dcinv _ _ _ | .dcflush _ _ _ | .icinv _ _ _ | .mov _ _ _
  | .add16 _ _ _ | .sub16 _ _ _ | .and16 _ _ _ | .or16 _ _ _ | .xor16 _ _ _ | .shl16 _ _ _ | .shr16 _ _ _
  | .sar16 _ _ _ | .li _ _ _ | .addi16 _ _ _ | .shli _ _ _ | .shri _ _ _ | .sari _ _ _ | .ldwsp _ _ _ _
  | .stwsp _ _ _ _ | .ldw16 _ _ _ _ | .stw16 _ _ _ _ | .br16 _ _ _ | .blr16 _ _ _ | .b16 _ _ | .bt1 _ _
  | .bf1 _ _ | .interruptEntry _ | .impreciseBusError _ | .illegalInstruction _ | .fetchFault _ _ => none

end Sys2Proof.Machine
end

