-- ==== Sys2Proof/WellFormed.lean ====
section
/-!
DEFINITION. Which commands are well formed: operands that name a ring, an agent, a unit, a lane, a register
number or a similar index lie in the range the manual gives, and byte lists have the length of their field.
-/

namespace Sys2Proof

/-- A packet head names a member and holds its fields' widths. -/
def CohHead.ok (h : CohHead) : Bool := decide (h.src < 8 ∧ h.epoch < 256 ∧ h.seq < 65536)

/-- The fields of a frame in a link packet hold their widths. -/
def CohFrame.ok (f : CohFrame) : Bool :=
  decide (f.report.length = 24 ∧ f.chan < 256 ∧ f.bw < 4 ∧ 6 ≤ f.order ∧ f.order ≤ 12 ∧ f.mark < 1024 ∧ f.hdr < 2 ^ 24 ∧
    f.gen < 65536 ∧ f.sync < 2 ^ 56 ∧ f.sofStep < 65536)

/-- A pushed commit names tables, contexts and key slots that exist. -/
def CohPush.ok (c : CohPush) : Bool :=
  decide (c.tables < 128 ∧ 0 < c.newGen ∧ c.newGen < 65536 ∧ c.interval < 65536 ∧ c.chan.length = 4096 ∧
    c.watch.length = 4096 ∧ c.rules.length = 256 ∧ c.ttb.length = 8224 ∧ c.power.length = 256 ∧ c.sched.length = 128) &&
  c.rewrites.all (fun r => decide (r.1 < 528 ∧ r.2.2.length = 128)) && c.releases.all (fun k => decide (k < 1024))

/-- Owners, domains and tables that the settings name exist, and the tables have their sizes. -/
def Settings.ok (c : Settings) : Bool :=
  let sized := fun (n : Nat) (b : Option (List Byte)) => b.all fun l => l.length == n
  decide (c.epoch < 2 ^ 32) && c.owners.all (fun o => decide (o.1 < 3 ∧ o.2.2.1 < 256)) &&
  c.short.all (fun a => decide (a < 65536)) && c.cohort.all (fun p => decide (p.1 ≤ 8 ∧ p.2 < 8)) &&
  c.attrs.all (fun p => decide (p.1 < 2 ^ 32 ∧ p.2 < 2 ^ 32)) &&
  c.domains.all (fun d => decide (((1 ≤ d.1 ∧ d.1 ≤ 16 ∧ d.1 ≠ 2) ∨ (32 ≤ d.1 ∧ d.1 < 60)) ∧ d.2 < 3)) &&
  sized 4096 c.chan && sized 4096 c.watch && sized 256 c.rules && sized 8224 c.ttb && sized 256 c.power && sized 128 c.sched

/-- Members, rows and entries that a stage names exist. -/
def StageEnd.ok (x : StageEnd) : Bool :=
  x.settings.ok && x.failed.all (fun p => decide (p.1 < 4 ∧ p.2 < 72)) && x.rows.all (fun r => decide (r.1 < 32 ∧ r.2 < 512)) &&
  x.synFail.all (fun i => decide (i < 256)) && x.power.all (fun v => decide (v < 65536))

/-- The operands of a command lie in the ranges of the manual. -/
def Instr.wf (i : Instr) : Bool :=
  match i with
  | .powerOn _ vmain => decide (5500 < vmain)
  | .startUpStageEnd _ x => decide (x.ok)
  | .startUpStageBoundExpiry _ => true
  | .railFall _ _ => true
  | .railRecovery _ => true
  | .nrstAssert _ _ => true
  | .nrstRelease _ => true
  | .bkpSwitchBack _ => true
  | .tokenClear _ => true
  | .forcedColdStart _ _ => true
  | .registerWrite _ _ addr value => decide (addr % 4 = 0 ∧ value < 2 ^ 32)
  | .unitDisable _ _ unit value => decide (unit < 2 ^ 32 ∧ value < 2 ^ 32)
  | .unitEnable _ _ unit value => decide (unit < 2 ^ 32 ∧ value < 2 ^ 32)
  | .unitDrain _ _ unit value => decide (unit < 2 ^ 32 ∧ value < 2 ^ 32)
  | .unitResume _ _ unit value => decide (unit < 2 ^ 32 ∧ value < 2 ^ 32)
  | .unitResetRequest _ _ unit value => decide (unit < 2 ^ 32 ∧ value < 2 ^ 32)
  | .unitPowerOnRequest _ _ unit value => decide (unit < 2 ^ 32 ∧ value < 2 ^ 32)
  | .unitLapse _ unit => decide (unit < 2 ^ 32)
  | .unitReturnToService _ unit => decide (unit < 2 ^ 32)
  | .doorbell _ _ ring prod => decide (ring < 16 ∧ prod < 65536)
  | .descriptorFetch _ ring => decide (ring < 16)
  | .timedStart _ ring idx => decide (ring < 16 ∧ idx < 65536)
  | .fenceRelease _ ring idx => decide (ring < 16 ∧ idx < 65536)
  | .completionWrite _ ring => decide (ring < 16)
  | .cqconsWrite _ _ ring cons => decide (ring < 16 ∧ cons < 65536)
  | .ringEnable _ _ ring value => decide (ring < 16 ∧ value < 2 ^ 32 ∧ value % 2 = 1)
  | .ringDisable _ _ ring value => decide (ring < 16 ∧ value < 2 ^ 32 ∧ value % 2 = 0)
  | .nop _ ring idx => decide (ring < 16 ∧ idx < 65536)
  | .commit _ idx => decide (idx < 65536)
  | .commitBoundary _ => true
  | .commitContextRewrite _ => true
  | .changeoverEnd _ => true
  | .setOwner _ idx => decide (idx < 65536)
  | .copy _ ring idx => decide (12 ≤ ring ∧ ring < 16 ∧ idx < 65536)
  | .fill _ ring idx => decide (12 ≤ ring ∧ ring < 16 ∧ idx < 65536)
  | .crc _ ring idx => decide (12 ≤ ring ∧ ring < 16 ∧ idx < 65536)
  | .copyJobEnd _ ring idx => decide (12 ≤ ring ∧ ring < 16 ∧ idx < 65536)
  | .servedNotice _ ring idx => decide (12 ≤ ring ∧ ring < 16 ∧ idx < 65536)
  | .serverReturn _ _ ring status idx => decide (ring < 16 ∧ status < 256 ∧ idx < 65536)
  | .mbxSend _ _ win value => decide (win < 7 ∧ value < 2 ^ 32)
  | .mbxLatchRead _ _ win => decide (win < 7)
  | .mbxRemoveRead _ _ win => decide (win < 7)
  | .cohortSendAnswer _ win _ => decide (win < 7)
  | .cohortSendTimeout _ win => decide (win < 7)
  | .windowAccessTimeout _ _ => true
  | .mainsZeroCrossing _ rms thd mhz _ => decide (rms < 2 ^ 16 ∧ thd < 2 ^ 16 ∧ mhz < 2 ^ 17)
  | .crossingTimeout _ rms => decide (rms < 2 ^ 16)
  | .lockTimeout _ => true
  | .tempoCycleStart _ => true
  | .flywheelLimit _ => true
  | .uncertaintyGuard _ => true
  | .tempoCorrectionApply _ => true
  | .rootCycleSet _ _ value => decide (value < 2 ^ 32)
  | .tempoReadLatch _ _ => true
  | .tempoAlarmArm _ _ n value => decide (n < 16 ∧ value < 2 ^ 32 ∧ value % 2 = 1)
  | .tempoAlarmDisarm _ _ n value => decide (n < 16 ∧ value < 2 ^ 32 ∧ value % 2 = 0)
  | .tempoAlarmFire _ n => decide (n < 16)
  | .noteBuf _ ring idx => decide (8 ≤ ring ∧ ring ≤ 10 ∧ idx < 65536)
  | .agcAttack _ _ _ => true
  | .agcRelease _ => true
  | .capCalibrationRequest _ _ value => decide (value < 2 ^ 32)
  | .capCalibrationForce _ _ value => decide (value < 2 ^ 32)
  | .capCalSliceStart _ => true
  | .capCalSliceEnd _ _ => true
  | .capCalinv _ _ value => decide (value < 2 ^ 32)
  | .dieTemperatureUpdate _ temp => decide (-128 ≤ temp ∧ temp ≤ 127)
  | .record _ idx => decide (idx < 65536)
  | .recordStop _ idx => decide (idx < 65536)
  | .recordEnd _ phase _ => decide (phase < 65536)
  | .recordOverflow _ phase _ => decide (phase < 65536)
  | .chanWrite _ idx => decide (idx < 65536)
  | .chanRead _ idx => decide (idx < 65536)
  | .watchWrite _ idx => decide (idx < 65536)
  | .watchRead _ idx => decide (idx < 65536)
  | .preambleDetection _ _ entry _ _ => decide (entry < 512)
  | .laneAssign _ => true
  | .laneDelimiterFound _ lane _ => decide (lane < 64)
  | .laneNoDelimiter _ lane => decide (lane < 64)
  | .laneSyncDecided _ lane _ _ _ rssi foff desense => decide (lane < 64 ∧ rssi < 2 ^ 16 ∧ foff < 2 ^ 32 ∧ desense < 256)
  | .laneHeaderDecoded _ lane word => decide (lane < 64 ∧ word < 2 ^ 32)
  | .lanePayloadEnd _ lane _ _ snr => decide (lane < 64 ∧ snr < 256)
  | .laneFlushDone _ lane => decide (lane < 64)
  | .laneSelfTest _ phys _ => decide (phys < 72)
  | .noAckOutcome _ => true
  | .combineWaitEnd _ => true
  | .decodeJobStart _ => true
  | .decodeJobEnd _ _ => true
  | .bufferExpiry _ buffer => decide (buffer < 544)
  | .softBuffersEnable _ _ value => decide (value < 2 ^ 32 ∧ value % 2 = 1)
  | .softBuffersDisable _ _ value => decide (value < 2 ^ 32 ∧ value % 2 = 0)
  | .synCalibrationRequest _ _ value => decide (value < 2 ^ 32)
  | .synCalibrationForce _ _ value => decide (value < 2 ^ 32)
  | .forcedSliceDecision _ _ => true
  | .synCalSliceStart _ => true
  | .synCalSliceEnd _ _ _ => true
  | .synCalinv _ _ value => decide (value < 2 ^ 32)
  | .synthPark _ => true
  | .txHopStart _ => true
  | .txFirstEdge _ _ _ => true
  | .txFirstChip _ => true
  | .txLastChip _ => true
  | .txLastEdge _ => true
  | .txLockLoss _ => true
  | .ackTransmit _ => true
  | .thermalShutdown _ => true
  | .thermalRecovery _ => true
  | .send _ ring idx => decide (1 ≤ ring ∧ ring ≤ 2 ∧ idx < 65536)
  | .rxBuf _ ring idx => decide (3 ≤ ring ∧ ring ≤ 4 ∧ idx < 65536)
  | .ctxRead _ idx => decide (idx < 65536)
  | .ttbWrite _ idx => decide (idx < 65536)
  | .ttbRead _ idx => decide (idx < 65536)
  | .slotOccurrenceStart _ slot => decide (slot < 256)
  | .slotOccurrenceEnd _ slot floor => decide (slot < 256 ∧ floor < 65536)
  | .bellSeal _ slot => decide (slot < 256)
  | .trackSelect _ _ value => decide (value < 2 ^ 32)
  | .partnerAbsent _ ctx => decide (ctx < 512)
  | .windowEvaluation _ slot => decide (slot < 256)
  | .wakeEvent _ slot => decide (slot < 256)
  | .windowClose _ slot => decide (slot < 256)
  | .bucketRoll _ rule => decide (rule < 16)
  | .dwellWindowClear _ rule => decide (rule < 16)
  | .lgArm _ idx => decide (idx < 65536)
  | .lgDisarm _ idx => decide (idx < 65536)
  | .mainLossTrigger _ vmain => decide (vmain < 65536)
  | .lastGaspSent _ => true
  | .keyLoad _ _ => true
  | .keyErase _ _ => true
  | .keyDataClear _ _ => true
  | .cipher _ idx => decide (idx < 65536)
  | .ctxSave _ idx => decide (idx < 65536)
  | .ctxLoad _ idx => decide (idx < 65536)
  | .keyWrap _ idx => decide (idx < 65536)
  | .keyUnwrap _ idx => decide (idx < 65536)
  | .cipherOperationEnd _ idx => decide (idx < 65536)
  | .eventRoute _ n => decide (0 < n)
  | .groupEnable _ _ groups => decide (groups < 2 ^ 12)
  | .groupDisable _ _ groups => decide (groups < 2 ^ 12)
  | .softwareTrigger _ _ sources => decide (sources < 2 ^ 16)
  | .eventIrqClear _ _ lines => decide (lines < 2 ^ 16)
  | .gpioEdge _ pin _ => decide (pin < 16)
  | .timerPeriodEvent _ n => decide (n < 8)
  | .timerCompareEvent _ n => decide (n < 8)
  | .timerCaptureEdge _ n _ => decide (n < 8)
  | .timerStart _ _ n => decide (n < 8)
  | .timerStop _ _ n => decide (n < 8)
  | .timerClear _ _ n => decide (n < 8)
  | .timerCaptureRise _ _ n => decide (n < 8)
  | .timerCaptureFall _ _ n => decide (n < 8)
  | .timerPeriodWrite _ _ n value => decide (n < 8 ∧ value < 2 ^ 32)
  | .timerCaptureRead _ n _ => decide (n < 8)
  | .daliEnqueue _ _ value => decide (value < 2 ^ 32)
  | .daliFrameStart _ => true
  | .daliCollision _ => true
  | .daliFrameEnd _ => true
  | .daliAnswerEnd _ _ => true
  | .daliFrameReceived _ len data => decide ((len = 8 ∨ len = 16 ∨ len = 24 ∨ len = 32) ∧ data < 2 ^ len)
  | .daliBusFault _ => true
  | .daliFaultClear _ => true
  | .daliResultRead _ => true
  | .daliReceiveRead _ => true
  | .daliSupplySwitch _ millivolts => decide (millivolts < 40000)
  | .dimLevelWrite _ _ value => decide (value < 2 ^ 32)
  | .dimRampEnd _ => true
  | .gpioSet _ _ pins => decide (pins < 2 ^ 16)
  | .gpioClear _ _ pins => decide (pins < 2 ^ 16)
  | .gpioToggle _ _ pins => decide (pins < 2 ^ 16)
  | .uartDataWrite _ _ port _ => decide (port < 2)
  | .uartDataRead _ port => decide (port < 2)
  | .uartByteReceived _ port _ _ _ => decide (port < 2)
  | .spiGo _ _ port len => decide (port < 2 ∧ len < 65536)
  | .spiTransferEnd _ port rx => decide (port < 2 ∧ rx.length < 65536)
  | .iicGo _ _ port value => decide (port < 2 ∧ value < 2 ^ 32)
  | .iicTransferEnd _ port moved rx _ _ => decide (port < 2 ∧ moved < 256 ∧ rx.length < 256)
  | .inventory _ _ maskLen _ sixteen => decide (maskLen ≤ 64 ∧ (sixteen = true → maskLen ≤ 60))
  | .stayQuiet _ _ => true
  | .readSingleBlock _ _ extended block => decide (block < 65536 ∧ (extended = false → block < 256))
  | .writeSingleBlock _ _ extended block data _ => decide (block < 65536 ∧ (extended = false → block < 256) ∧ data.length = 4)
  | .lockBlock _ _ extended block _ => decide (block < 65536 ∧ (extended = false → block < 256))
  | .readMultipleBlocks _ _ extended first count => decide (first < 65536 ∧ (extended = false → first < 256) ∧ 0 < count ∧ count ≤ 65536)
  | .writeMultipleBlocks _ _ extended first data _ => decide (first < 65536 ∧ (extended = false → first < 256) ∧ data.length % 4 = 0 ∧ data ≠ [])
  | .select _ _ => true
  | .resetToReady _ _ => true
  | .writeAfi _ _ _ _ => true
  | .lockAfi _ _ _ => true
  | .writeDsfid _ _ _ _ => true
  | .lockDsfid _ _ _ => true
  | .getSystemInformation _ _ _ => true
  | .getBlockSecurityStatus _ _ extended first count => decide (first < 65536 ∧ (extended = false → first < 256) ∧ 0 < count ∧ count ≤ 65536)
  | .password _ _ pw _ => decide (pw.length = 8)
  | .authBegin _ _ keyId ra => decide (keyId < 256 ∧ ra.length = 8)
  | .authEnd _ _ tr => decide (tr.length = 8)
  | .invAdapt _ q nonce _ maskLen _ => decide (q < 256 ∧ nonce.length = 2 ∧ maskLen ≤ 64)
  | .exchRead _ _ _ => true
  | .exchWrite _ _ data _ => decide (0 < data.length ∧ data.length ≤ 128)
  | .ctrInc _ _ n _ => decide (n < 4)
  | .homeroomReq _ _ _ => true
  | .timing _ _ _ => true
  | .leaveSecured _ _ => true
  | .tagWriteStepEnd _ => true
  | .tagPowerUp _ _ => true
  | .tagFieldLoss _ => true
  | .tagLockoutEnd _ => true
  | .tagExactReply _ => true
  | .tagRead _ idx => decide (idx < 65536)
  | .tagWrite _ idx => decide (idx < 65536)
  | .tagCtr _ idx => decide (idx < 65536)
  | .tagSecret _ idx => decide (idx < 65536)
  | .tagExchRx _ idx => decide (idx < 65536)
  | .tagExchTx _ idx => decide (idx < 65536)
  | .fieldBusyTimeout _ idx => decide (idx < 65536)
  | .domainStateRequest _ _ n target => decide (n < 64 ∧ target < 4)
  | .domainTransitionEnd _ n => decide (n < 64)
  | .bkpWake _ => true
  | .calendarLatch _ => true
  | .calendarSet _ _ => true
  | .calendarAdjust _ _ adj => decide (adj < 2 ^ 24)
  | .bkpWriteLanded _ => true
  | .trimMeasurementEnd _ => true
  | .calendarAlarmArm _ _ n value => decide (n < 4 ∧ value < 2 ^ 32 ∧ value / 256 % 16 ≠ 0)
  | .calendarAlarmDisarm _ _ n value => decide (n < 4 ∧ value < 2 ^ 32 ∧ value / 256 % 16 = 0)
  | .calendarAlarmFire _ n => decide (n < 4)
  | .add _ _ _ _ _ => true
  | .sub _ _ _ _ _ => true
  | .and _ _ _ _ _ => true
  | .or _ _ _ _ _ => true
  | .xor _ _ _ _ _ => true
  | .andn _ _ _ _ _ => true
  | .shl _ _ _ _ _ => true
  | .shr _ _ _ _ _ => true
  | .sar _ _ _ _ _ => true
  | .ror _ _ _ _ _ => true
  | .mul _ _ _ _ _ => true
  | .mulh _ _ _ _ _ => true
  | .mulhu _ _ _ _ _ => true
  | .div _ _ _ _ _ => true
  | .divu _ _ _ _ _ => true
  | .rem _ _ _ _ _ => true
  | .remu _ _ _ _ _ => true
  | .min _ _ _ _ _ => true
  | .max _ _ _ _ _ => true
  | .minu _ _ _ _ _ => true
  | .maxu _ _ _ _ _ => true
  | .clz _ _ _ _ => true
  | .popc _ _ _ _ => true
  | .sextb _ _ _ _ => true
  | .sexth _ _ _ _ => true
  | .zexth _ _ _ _ => true
  | .abs _ _ _ _ => true
  | .brev _ _ _ _ => true
  | .adds _ _ _ _ _ => true
  | .subs _ _ _ _ _ => true
  | .shls _ _ _ _ _ => true
  | .abss _ _ _ _ => true
  | .add2 _ _ _ _ _ => true
  | .sub2 _ _ _ _ _ => true
  | .adds2 _ _ _ _ _ => true
  | .subs2 _ _ _ _ _ => true
  | .mul2 _ _ _ _ _ => true
  | .dot2 _ _ _ _ _ => true
  | .cmul _ _ _ _ _ => true
  | .cmulj _ _ _ _ _ => true
  | .cmac _ _ _ _ _ => true
  | .cmacj _ _ _ _ _ => true
  | .crnd _ _ _ _ => true
  | .pack _ _ _ _ _ => true
  | .swaph _ _ _ _ => true
  | .mulq _ _ _ _ _ => true
  | .cmp _ _ _ _ _ _ _ => true
  | .cmpi _ _ _ _ _ _ _ => true
  | .addi _ _ _ _ _ => true
  | .andi _ _ _ _ _ => true
  | .ori _ _ _ _ _ => true
  | .xori _ _ _ _ _ => true
  | .shiftiShl _ _ _ _ _ _ => true
  | .shiftiShr _ _ _ _ _ _ => true
  | .shiftiSar _ _ _ _ _ _ => true
  | .shiftiRor _ _ _ _ _ _ => true
  | .bfx _ _ _ _ _ => true
  | .bfi _ _ _ _ _ => true
  | .lui _ _ _ _ => true
  | .lli _ _ _ _ => true
  | .pand _ _ _ _ _ => true
  | .por _ _ _ _ _ => true
  | .pxor _ _ _ _ _ => true
  | .pandn _ _ _ _ _ => true
  | .pnot _ _ _ _ => true
  | .ldb _ _ _ _ _ _ => true
  | .ldbu _ _ _ _ _ _ => true
  | .ldh _ _ _ _ _ _ => true
  | .ldhu _ _ _ _ _ _ => true
  | .ldw _ _ _ _ _ _ => true
  | .stb _ _ _ _ _ _ => true
  | .sth _ _ _ _ _ _ => true
  | .stw _ _ _ _ _ _ => true
  | .ldx _ _ _ _ _ _ _ => true
  | .stx _ _ _ _ _ _ _ => true
  | .swap _ _ _ _ _ _ => true
  | .cas _ _ _ _ _ _ => true
  | .b _ _ _ => true
  | .bl _ _ _ => true
  | .br _ _ _ => true
  | .blr _ _ _ => true
  | .mfs _ _ _ _ => true
  | .mts _ _ _ _ => true
  | .eret _ _ => true
  | .syscall _ _ _ => true
  | .wfe _ _ => true
  | .wfeWake _ => true
  | .fence _ _ => true
  | .fencei _ _ => true
  | .dcclean _ _ _ => true
  | .dcinv _ _ _ => true
  | .dcflush _ _ _ => true
  | .icinv _ _ _ => true
  | .mov _ _ _ => true
  | .add16 _ _ _ => true
  | .sub16 _ _ _ => true
  | .and16 _ _ _ => true
  | .or16 _ _ _ => true
  | .xor16 _ _ _ => true
  | .shl16 _ _ _ => true
  | .shr16 _ _ _ => true
  | .sar16 _ _ _ => true
  | .li _ _ _ => true
  | .addi16 _ _ _ => true
  | .shli _ _ _ => true
  | .shri _ _ _ => true
  | .sari _ _ _ => true
  | .ldwsp _ _ _ _ => true
  | .stwsp _ _ _ _ => true
  | .ldw16 _ _ _ _ => true
  | .stw16 _ _ _ _ => true
  | .br16 _ _ _ => true
  | .blr16 _ _ _ => true
  | .b16 _ _ => true
  | .bt1 _ _ => true
  | .bf1 _ _ => true
  | .interruptEntry _ => true
  | .impreciseBusError _ => true
  | .coreHeartbeat _ _ c value => decide (c < 4 ∧ value < 2 ^ 32)
  | .sramRemapSwitch _ => true
  | .nvmProgram _ _ => true
  | .nvmEraseSector _ _ => true
  | .nvmEraseBlock _ _ => true
  | .nvmErasePoll _ => true
  | .nvmResume _ => true
  | .nvmOperationEnd _ _ => true
  | .dramRefresh _ _ => true
  | .dramTrainingRequest _ _ => true
  | .dramTrainingEnd _ win0 win1 => decide (win0 ≤ 64 ∧ win1 ≤ 64)
  | .helloSend _ => true
  | .cohHello _ h _ state epoch digest gen echo => decide (h.ok ∧ (state ≤ 6 ∧ epoch < 2 ^ 32 ∧ digest < 2 ^ 64 ∧ gen < 65536 ∧ echo < 65536))
  | .cohElect _ h epoch => decide (h.ok ∧ (epoch < 2 ^ 32))
  | .cohLeader _ h epoch map high => decide (h.ok ∧ (epoch < 2 ^ 32 ∧ map < 256) ∧ (high.all fun p => decide (p.1 < 512 ∧ p.2 ≤ 2 ^ 20)))
  | .cohTempo _ h stamp status rate u => decide (h.ok ∧ (stamp < 2 ^ 56 ∧ status < 2 ^ 32 ∧ rate < 2 ^ 32 ∧ u < 2 ^ 32))
  | .cohWreq _ h off _ _ agent _ => decide (h.ok ∧ off < 2 ^ 26 ∧ agent < 16)
  | .cohWrsp _ h off _ _ => decide (h.ok ∧ off < 2 ^ 26)
  | .cohNotice _ h dst tag ptr agent _ => decide (h.ok ∧ (dst < 16 ∧ tag < 65536 ∧ ptr < 2 ^ 32 ∧ agent < 16))
  | .cohSoft _ h f soft => decide (h.ok ∧ f.ok ∧ (soft.all fun x => decide (-127 ≤ x ∧ x ≤ 127)))
  | .cohDecoded _ h f _ sets pay => decide (h.ok ∧ f.ok ∧ (sets < 32 ∧ pay.length ≤ 288))
  | .cohRxsync _ h ctx rx d => decide (h.ok ∧ (ctx < 512 ∧ rx.length = 20 ∧ d.length = 18))
  | .cohBlkreq _ h ctx => decide (h.ok ∧ (ctx < 512))
  | .cohBlkgnt _ h ctx block => decide (h.ok ∧ (ctx < 512 ∧ block < 2 ^ 20))
  | .cohCfgpush _ h c => decide (h.ok ∧ c.ok)
  | .cohAckreq _ h f pay _ => decide (h.ok ∧ f.ok ∧ (pay.length ≤ 288))
  | .leadLossTimeout _ => true
  | .electionWindowEnd _ => true
  | .electionRetry _ => true
  | .majorityLoss _ => true
  | .followerTempoLoss _ => true
  | .memberLost _ m => decide (m < 8)
  | .counterBlockTimeout _ ring idx => decide (1 ≤ ring ∧ ring ≤ 2 ∧ idx < 65536)
  | .cohRejoin _ _ value => decide (value < 2 ^ 32)
  | .updOpen _ idx => decide (idx < 65536)
  | .updBlock _ idx => decide (idx < 65536)
  | .updClose _ idx => decide (idx < 65536)
  | .updActivate _ idx => decide (idx < 65536)
  | .updAccept _ idx => decide (idx < 65536)
  | .updRevert _ idx => decide (idx < 65536)
  | .trialExpiry _ => true
  | .cohortPrepareTimeout _ => true
  | .cohortActivation _ => true
  | .homeroomHello _ h => decide (h.seq < 65536)
  | .homeroomHead _ h head => decide (h.seq < 65536 ∧ head.length ≤ 4096)
  | .homeroomBlock _ h entry block check data => decide (h.seq < 65536 ∧ entry < 256 ∧ block < 65536 ∧ check < 2 ^ 32 ∧ data.length = 4096)
  | .homeroomFinish _ h => decide (h.seq < 65536)
  | .homeroomRestart _ h => decide (h.seq < 65536)
  | .homeroomBaud _ h rate => decide (h.seq < 65536 ∧ rate < 2 ^ 32)
  | .homeroomTimeout _ => true
  | .counterStream _ => true
  | .counterClear _ _ value => decide (value < 2 ^ 32)
  | .counterLatch _ n => decide (n < 256)
  | .ledgerWrite _ _ => true
  | .illegalInstruction _ => true
  | .fetchFault _ _ => true
  | .scrubberRead _ _ => true
  | .portLinkChange _ _ _ => true
  | .chargeConstantVoltage _ => true
  | .decodeDeadline _ => true
  | .registerRead _ _ addr => decide (addr % 4 = 0)
  | .escalationWindowEnd _ unit => decide (unit < 2 ^ 32)
  | .tagUnknownCommand _ _ => true

end Sys2Proof
end

