-- ==== Sys2Proof/Certificates/Slice0/Obligations.lean ====
section
/-!
DEFINITION. The statements of this model for the provers. Each docstring says which rules it formalises.
-/

open Sys2Proof Sys2Proof.Machine

/-- For every state s, command c and queue rest, step of s with c in front of rest is exec of c on s with the queue rest; with an empty queue the state stays as it is (the model's choice, log entry 1); and every command answers a next state, never a fault or a refusal. -/
def Obligations.StepRunsTheFrontCommand : Prop :=
  (∀ (s : State) (c : Instr) (rest : List Instr),
    step { s with pending := c :: rest } = exec c { s with pending := rest }) ∧
  (∀ s : State, s.pending = [] → step s = .next s) ∧
  (∀ (c : Instr) (s : State), ∃ t, exec c s = .next t)

/-- State.reset satisfies the canonical form; its queue is empty; start-up has not begun; every register word reads its reset value; no byte of memory is listed (what an unlisted byte reads as is the model's choice, log entry 7); every domain but BKP is off and BKP is on; no core executes. -/
def Obligations.ResetIsCanonicalAndEmpty : Prop :=
  State.reset.Canonical ∧ State.reset.pending = [] ∧ State.reset.phase = .off ∧
  (∀ a, State.reset.word a = resetWord a) ∧ (∀ a, inWindows a = false → 0x50002000 ≤ a ∨ a < 0x50000000 →
    State.reset.byte a = memDefault a) ∧
  (∀ n, State.reset.domOn n = decide (n = 0)) ∧ ∀ c, State.reset.coreKey c = none

/-- Whatever command is in front, if the register file, memory, poisoned words, satchel, domains, units, cores and their register stores, timers, ports, contexts, tag EEPROM, envelope log and counters are in canonical form before a step, they are after it, and the queue afterwards is the queue's rest. -/
def Obligations.EveryStepKeepsTheCanonicalForm : Prop :=
  ∀ s t : State, step s = .next t → (s.Canonical → t.Canonical) ∧ t.pending = s.pending.tail

/-- For each of the 402 commands and every state: the next state agrees with the old one on every part of the state that the command's list (changes) does not name, keeps the canonical form and leaves the queue alone. So no instruction of a core touches the clocks; no tag, lighting, timer or backup command touches a core, memory, the cipher or the tables; no instruction of a core but through an access, a trap or a branch changes anything beside the cores. -/
def Obligations.EveryCommandChangesOnlyItsParts : Prop :=
  ∀ (c : Instr) (s t : State), exec c s = .next t → Only (changes c) s t

/-- A command that carries an elapsed time (tempo-clock edges and nanoseconds) leaves the two clocks exactly that much later and does everything else afterwards; an instruction of a core leaves them as they were (the model's convention of time, log entry 2). -/
def Obligations.TimePassesAsTheCommandSays : Prop :=
  ∀ (c : Instr) (s u : State), exec c s = .next u →
    match elapsedOf c with
    | some t => u.clk.edges = s.clk.edges + t.edges ∧ u.clk.ns = s.clk.ns + t.ns
    | none => u.clk = s.clk

/-- From the state after the elapsed time: POWER_ON above 5.5 V begins stage 1 with NSTAT asserted and DEV_RESTART clear; stage 1's end begins stage 2 with SYS, MSN, PER and TAG on (unless NRST is low: then start-up holds); stage 2's end samples BOOTSEL and begins stage 3 with NVM and the 32 banks on; stage 3's end waits in stage 4 while the switch-back is outstanding; the switch-back, 10 ms after the rail became stable, then begins stage 5 unless BOOTSEL was high; stages 6 and 7 lead to 7 and 8; stage 8's end (with no failed self-test) runs: READY set, NSTAT released, every application core in service whose domain is on executes at CPU_RESETVEC in protected mode with interrupts disabled. A stage past its bound gives homeroom, NSTAT as it was, and one within it nothing. -/
def Obligations.StartUpPassesItsStages : Prop :=
  ∀ (s : State) (t : Elapsed), s.Canonical →
    let a := s.advance t
    (∀ vmain, a.pins.rail = false → a.phase = .off → 5500 < vmain → ∃ u, exec (.powerOn t vmain) s = .next u ∧
      u.phase = .stage 1 ∧ u.pins.vmain = vmain ∧ u.pins.nstat = true ∧ u.boot.at_ = a.clk.ns ∧
      u.rd R.DEV_RESTART_CAUSE = 0 ∧ u.rd R.DEV_RESTART_WARM = 0 ∧ u.rd R.DEV_RESTART_ESCTYPE = 0 ∧
      WordsKept [R.DEV_RESTART_CAUSE.addr] a u ∧ Only [.regs, .boot, .pins, .phase] a u) ∧
    (∀ x : StageEnd,
      (a.phase = .stage 1 → ∃ u, exec (.startUpStageEnd t x) s = .next u ∧ u.pins.rail = true ∧
        u.boot.railAt = some a.clk.ns ∧
        (a.pins.nrstLow = true → u.phase = .off) ∧
        (a.pins.nrstLow = false → u.phase = .stage 2 ∧ ∀ n ∈ [Dom.sys, Dom.msn, Dom.per, Dom.tag], u.domOn n = true)) ∧
      (a.phase = .stage 2 → ∃ u, exec (.startUpStageEnd t x) s = .next u ∧ u.phase = .stage 3 ∧
        u.pins.bootsel = x.bootsel ∧ u.domOn Dom.nvm = true ∧ ∀ b, b < 32 → u.domOn (Dom.bank b) = true) ∧
      (a.phase = .stage 3 → a.boot.four = false → ∃ u, exec (.startUpStageEnd t x) s = .next u ∧ u.phase = .stage 4 ∧
        u.boot.three = true) ∧
      (a.phase = .stage 5 → ∃ u, exec (.startUpStageEnd t x) s = .next u ∧ (u.phase = .stage 6 ∨ u.phase = .homeroom)) ∧
      (a.phase = .stage 6 → ∃ u, exec (.startUpStageEnd t x) s = .next u ∧ u.phase = .stage 7) ∧
      (a.phase = .stage 7 → ∃ u, exec (.startUpStageEnd t x) s = .next u ∧ u.phase = .stage 8) ∧
      (a.phase = .stage 8 → x.failed = [] → ∃ u, exec (.startUpStageEnd t x) s = .next u ∧ u.phase = .running ∧
        u.flag R.DEV_STATUS_READY = true ∧ u.pins.nstat = false ∧
        ∀ c, c < 4 → a.inService .core c = true → a.domOn (Dom.app (a.physOf .core c)) = true →
          let k := u.core (a.physOf .core c)
          k.running = true ∧ k.pc = BitVec.ofNat 32 (2 * a.rd R.CPU_RESETVEC_ADDR) ∧ k.status = 1#32 ∧ k.regs = [])) ∧
    (∀ r, a.boot.railAt = some r → a.boot.four = false → a.pins.rail = true → r + 10000000 ≤ a.clk.ns →
      a.bkp.token = true → a.phase = .stage 4 → a.pins.bootsel = false → a.homereq = false →
      ∃ u, exec (.bkpSwitchBack t) s = .next u ∧ u.phase = .stage 5 ∧ u.boot.four = true ∧
        u.flag R.BKP_STATUS_ONMAIN = true ∧ WordsKept [R.BKP_STATUS_ONMAIN.addr] a u ∧ Only [.regs, .boot, .phase] a u) ∧
    (∀ n bound, (n, bound) ∈ [(1, 3000000), (2, 2500000), (3, 8000000), (5, 160000000), (6, 30000000), (7, 150000000), (8, 5000000)] →
      a.phase = .stage n →
      (a.boot.at_ + bound < a.clk.ns → ∃ u, exec (.startUpStageBoundExpiry t) s = .next u ∧ u.phase = .homeroom ∧
        u.pins.nstat = a.pins.nstat) ∧
      (a.clk.ns ≤ a.boot.at_ + bound → a.boot.four = true → exec (.startUpStageBoundExpiry t) s = .next a))

/-- From the state after the elapsed time: RAIL_FALL with the rail up and VMAIN below 4.8 V turns off every domain but BKP, puts every register outside BKP (ownership word apart), DEV_RESTART and the tag page back to its reset value, keeps the NOR's bytes while no operation of it or of the tag runs, clears SRAM and DRAM and puts the supply of BKP on backup; with VMAIN at 4.8 V or more start-up returns to stage 1. RAIL_RECOVERY in stages 2 to 8 only restarts the wait for the switch-back. An NRST pulse of 1 us or more resets the same and holds start-up, with CAUSE 1; below 200 ns it does nothing; its release begins stage 2. -/
def Obligations.SuppliesAndResetPin : Prop :=
  ∀ (s : State) (t : Elapsed), s.Canonical →
    let a := s.advance t
    let cleared := fun (u : State) => (∀ n, u.domOn n = decide (n = 0)) ∧ u.cores = [] ∧ u.ring = {} ∧ u.mail = {} ∧
      u.units = [] ∧ u.clk = a.clk ∧
      (∀ x, inBkp x = false → x ≠ 0x40000048 → x / 0x1000 ≠ 0x40029 → u.word x = resetWord x) ∧
      (a.mem.nvmOp = none → a.tag.run = none → ∀ x, inWindows x = false → 0x50002000 ≤ x ∨ x < 0x50000000 →
        u.byte x = if inNor x then a.byte x else memDefault x)
    (∀ vmain, a.pins.rail = true →
      (vmain < 4800 → ∃ u, exec (.railFall t vmain) s = .next u ∧ u.phase = .off ∧ u.pins.rail = false ∧
        u.pins.vmain = vmain ∧ u.flag R.BKP_STATUS_ONMAIN = false ∧ cleared u) ∧
      (4800 ≤ vmain → ∃ u, exec (.railFall t vmain) s = .next u ∧ u.phase = .stage 1 ∧ u.pins.rail = false ∧
        u.flag R.BKP_STATUS_ONMAIN = false ∧ cleared u)) ∧
    (∀ n r, a.phase = .stage n → 2 ≤ n → a.boot.four = false → a.boot.railAt = some r →
      ∃ u, exec (.railRecovery t) s = .next u ∧ u.boot.railAt = some a.clk.ns ∧ u.phase = a.phase ∧
        u.boot.at_ = a.boot.at_ ∧ Only [.boot] a u) ∧
    (∀ low, a.pins.nrstLow = false →
      (low < 200 → exec (.nrstAssert t low) s = .next a) ∧
      (1000 ≤ low → a.pins.rail = true → a.phase ≠ .homeroom → ∃ u, exec (.nrstAssert t low) s = .next u ∧
        u.phase = .off ∧ u.pins.nrstLow = true ∧ u.pins.rail = true ∧ u.rd R.DEV_RESTART_CAUSE = 1 ∧
        u.rd R.DEV_RESTART_ESCTYPE = 0 ∧ u.rd R.DEV_RESTART_WARM = a.rd R.DEV_RESTART_WARM ∧ cleared u)) ∧
    (a.pins.nrstLow = true → a.pins.rail = true → a.phase = .off → ∃ u, exec (.nrstRelease t) s = .next u ∧
      u.phase = .stage 2 ∧ u.pins.nrstLow = false ∧ ∀ n ∈ [Dom.sys, Dom.msn, Dom.per, Dom.tag], u.domOn n = true)

/-- With SYS on, and from the state after the elapsed time: a write by the page's owner in the mode it asks for to a register of the hunter, lane ensemble, transmitter or a lane page that is on puts the value into every RW field, clears the written ones of W1C fields, sets those of W1S fields and leaves RO, RC and reserved bits alone, and no other register changes; by anyone else, also on the DALI, DIM, serial, GPI and TTB pages, it is ignored and counted with the writer's stamp; on a page whose domain is not on it is ignored. A read answers the register's view, zero outside the header of a page that is not on, and clears RC fields; a header that is not on reads USTATE 0 or 1. An address outside every assigned page answers a bus error and changes nothing. -/
def Obligations.RegisterAccessFollowsItsCode : Prop :=
  ∀ (s : State) (t : Elapsed) (who : Who) (addr v : Nat), s.Canonical →
    let a := s.advance t
    let page := pageBase addr
    let plain := pageAssigned addr = true ∧ 0x40 ≤ addr - page ∧ addr % 4 = 0 ∧ addr < 0x40200000 ∧
      (addr / 0x1000 ∈ [0x40021, 0x40022, 0x40024] ∨ 0x40100000 ≤ addr) ∧ headerAt addr = none
    let allowed := a.rd (R.UOWNER_OWNER page) = who.stamp ∧ (who.prot = true ∨ a.rd (R.UOWNER_P page) = 0)
    a.domOn Dom.sys = true → who.late = false → v < 2 ^ 32 →
      (plain → allowed → a.unitOn page = true → ∃ u, exec (.registerWrite t who addr v) s = .next u ∧
        (∀ r ∈ fieldsAt addr, let f : Fld := ⟨addr, r.lsb, r.width⟩
          u.rd f = match r.acc with
            | .rw => bitsOf v r.lsb r.width
            | .w1c => a.rd f - (a.rd f &&& bitsOf v r.lsb r.width)
            | .w1s => a.rd f ||| bitsOf v r.lsb r.width
            | _ => a.rd f) ∧
        (∀ x, x ≠ addr → u.word x = a.word x) ∧ u.bus = { value := 0, error := false } ∧ Only [.regs, .bus] a u) ∧
      ((plain ∨ (addr / 0x1000 ∈ [0x40027, 0x4002A, 0x4002B, 0x4002C, 0x4002D, 0x4002E, 0x40047] ∧ headerAt addr = none)) →
        ¬allowed → ∃ u, exec (.registerWrite t who addr v) s = .next u ∧
          u.rd R.DEV_ACCESS_COUNT = min 65535 (a.rd R.DEV_ACCESS_COUNT + 1) ∧ u.rd R.DEV_ACCESS_LAST = who.stamp % 256 ∧
          (∀ x, x ≠ 0x4000004C → u.word x = a.word x) ∧ Only [.regs, .bus] a u) ∧
      (plain → allowed → a.unitOn page = false → ∃ u, exec (.registerWrite t who addr v) s = .next u ∧ Only [.bus] a u) ∧
      (plain → a.unitOn page = true → ∃ u, exec (.registerRead t who addr) s = .next u ∧
        u.bus = { value := a.viewWord addr, error := false } ∧
        (∀ r ∈ fieldsAt addr, let f : Fld := ⟨addr, r.lsb, r.width⟩
          u.rd f = match r.acc with
            | .rc => 0
            | _ => a.rd f) ∧
        (∀ x, x ≠ addr → u.word x = a.word x) ∧ Only [.regs, .bus] a u) ∧
      (plain → a.unitOn page = false → ∃ u, exec (.registerRead t who addr) s = .next u ∧
        u.bus = { value := 0, error := false } ∧ Only [.bus] a u) ∧
      (∀ i, unitInfo addr = some i → page = addr → childrenOf addr = [] → (a.dom i.dom).state < 2 → i.dom ≠ 0 →
        addr < 0x40200000 → ∃ u, exec (.registerRead t who (addr + 4)) s = .next u ∧ u.bus.error = false ∧
          u.bus.value % 8 = (a.dom i.dom).state ∧ Only [.bus] a u) ∧
      ((addr < 0x40000000 ∨ 0x40200000 ≤ addr ∨ pageAssigned addr = false) →
        (∃ u, exec (.registerWrite t who addr v) s = .next u ∧ u.bus.error = true ∧ Only [.bus] a u) ∧
        (∃ u, exec (.registerRead t who addr) s = .next u ∧ u.bus.error = true ∧ Only [.bus] a u))

/-- For a leaf unit whose domain is on, that is neither lapsed nor retired and has no reset pending, written by its owner: UNIT_DISABLE clears EN and the unit stops accepting work, and for a unit of ring work every descriptor it holds that is accepted and not started completes NOT_RUN, every started one on a ring other than 5 ABANDONED; UNIT_ENABLE sets EN and ends the drain; UNIT_DRAIN sets DRAIN, the unit stops accepting work and no completion is decided; UNIT_RESUME clears DRAIN and ends the drain; UNIT_RESET_REQUEST resets an idle unit at once without counting it, with an envelope record of condition 3, and leaves RESET reading 1 while work is unsettled within the drain bound. -/
def Obligations.UnitsAreDisabledDrainedAndReset : Prop :=
  ∀ (s : State) (t : Elapsed) (who : Who) (h v : Nat) (i : UnitInfo), s.Canonical →
    let a := s.advance t
    a.domOn Dom.sys = true → who.late = false → a.rd (R.UOWNER_OWNER h) = who.stamp →
    (who.prot = true ∨ a.rd (R.UOWNER_P h) = 0) → unitInfo h = some i → h ∈ [Hdr.lnk, Hdr.ttb, Hdr.dal, Hdr.uar, Hdr.upd, Hdr.cap] →
    a.domOn i.dom = true → (a.unit h).lapsed = false → (a.unit h).retired = false → (a.unit h).resetPend = false →
    (a.dom i.dom).trans = none → bitOf v 2 = false →
      (a.enabled h = true → ∃ u, exec (.unitDisable t who h v) s = .next u ∧ u.enabled h = false ∧
        u.rd (R.UCTL_DRAIN h) = b2n (bitOf v 1) ∧ u.accepts h = false ∧ (u.unit h).draining = true ∧
        ((h = Hdr.lnk ∨ h = Hdr.ttb) → ∀ w ∈ a.unitWorks h, (w.stage = .accepted ∨ (w.stage = .started ∧ w.ring ≠ 5)) →
          ∃ d ∈ u.ring.done, d.ring = w.ring ∧ d.idx = w.idx ∧ d.tag = w.tag ∧
            d.status = if w.stage = .accepted then 0x02 else 0x03)) ∧
      (a.enabled h = false → ∃ u, exec (.unitEnable t who h v) s = .next u ∧ u.enabled h = true ∧
        (bitOf v 1 = false → (u.unit h).draining = false ∧ u.accepts h = true)) ∧
      (a.enabled h = true → a.flag (R.UCTL_DRAIN h) = false → bitOf v 0 = true → ∃ u, exec (.unitDrain t who h v) s = .next u ∧
        u.enabled h = true ∧ u.flag (R.UCTL_DRAIN h) = true ∧ u.accepts h = false ∧ (u.unit h).draining = true ∧
        (h ≠ Hdr.dal → u.ring = a.ring)) ∧
      (a.enabled h = true → a.flag (R.UCTL_DRAIN h) = true → bitOf v 0 = true → ∃ u, exec (.unitResume t who h v) s = .next u ∧
        u.flag (R.UCTL_DRAIN h) = false ∧ u.accepts h = true) ∧
      (∃ u, exec (.unitResetRequest t who h v) s = .next u ∧ u.rd (R.ULAPCNT_TOTAL h) = a.rd (R.ULAPCNT_TOTAL h) ∧
        (a.unsettled h = false → h ≠ Hdr.cap → (u.unit h).lapsed = true ∧ (u.unit h).cause = 8 ∧ u.rd (R.UCTL_RESET h) = 0 ∧
          u.envBroken 3 = true) ∧
        (a.unsettled h = true → h ∈ [Hdr.lnk, Hdr.ttb, Hdr.uar, Hdr.upd] → (a.unit h).draining = false → 0 < a.boundOf h →
          (u.unit h).resetPend = true ∧ u.rd (R.UCTL_RESET h) = 1 ∧ u.accepts h = false))

/-- For a unit that is on, neither lapsed nor retired, with no pending reset: when its lapse timer has passed its bound, UNIT_LAPSE makes it read LAPSED, ends its drain, counts TOTAL (saturating), breaks envelope condition 3 and steps the parent's WINDOW, restarted where the escalation window has passed; at the third lapse within the window an ensemble (LKE, CTL, SVC; DEV's own window empty) lapses with every descendant that is on and not retired, its TOTAL steps and its WINDOW restarts at zero; while the timer has not passed and no drain is over, nothing happens. UNIT_RETURN_TO_SERVICE after the unit's return time ends LAPSED (no UCTL waiting, no ensemble above it lapsed), before it nothing; ESCALATION_WINDOW_END clears a WINDOW whose time has passed and no other register. -/
def Obligations.LapsesCountAndEscalate : Prop :=
  ∀ (s : State) (t : Elapsed) (h : Nat) (i : UnitInfo), s.Canonical → unitInfo h = some i →
    let a := s.advance t
    let r := a.unit h
    let p := i.parent
    let win := clamp 1 3600 (a.rd R.DEV_ESCWIN_SECONDS) * 1000000000
    let old := a.rd (R.ULAPCNT_WINDOW p)
    let w := if 0 < old ∧ (a.unit p).windowAt + win ≤ a.clk.ns then 0 else old
    let sound := a.unitOn h = true ∧ r.lapsed = false ∧ r.retired = false ∧ r.resetPend = false ∧ childrenOf h = [] ∧
      h ≠ Hdr.rng
    let past := 0 < i.boundUs ∧ r.draining = false ∧ (0 < a.doing h ∨ a.standing h = true) ∧ (i.type ≠ 0x26 ∨ r.beaten = true) ∧
      r.progressAt + 1000 * a.boundOf h ≤ a.clk.ns
    (sound → past →
      (w < 2 → ∃ u, exec (.unitLapse t h) s = .next u ∧ (u.unit h).lapsed = true ∧ (u.unit h).draining = false ∧
        u.rd (R.ULAPCNT_TOTAL h) = min 65535 (a.rd (R.ULAPCNT_TOTAL h) + 1) ∧ u.rd (R.ULAPCNT_WINDOW p) = w + 1 ∧
        u.envBroken 3 = true) ∧
      (2 ≤ w → p ∈ [Hdr.lke, Hdr.ctl, Hdr.svc] → a.rd (R.ULAPCNT_WINDOW Hdr.dev) = 0 →
        ∃ u, exec (.unitLapse t h) s = .next u ∧ (u.unit p).lapsed = true ∧ u.rd (R.ULAPCNT_WINDOW p) = 0 ∧
          u.rd (R.ULAPCNT_TOTAL p) = min 65535 (a.rd (R.ULAPCNT_TOTAL p) + 1) ∧
          ∀ k ∈ descendants p, a.unitOn k = true → (a.unit k).retired = false → (u.unit k).lapsed = true)) ∧
    (sound → r.draining = false → ¬past → exec (.unitLapse t h) s = .next a) ∧
    (r.lapsed = true → childrenOf h = [] → State.underLapse 4 a h = false → h ∉ [Hdr.dmc, Hdr.mem] →
      (a.clk.ns < r.lapsedAt + i.backNs → exec (.unitReturnToService t h) s = .next a) ∧
      (r.lapsedAt + i.backNs ≤ a.clk.ns → r.afterReset = none → ∃ u, exec (.unitReturnToService t h) s = .next u ∧
        (u.unit h).lapsed = false)) ∧
    (0 < a.rd (R.ULAPCNT_WINDOW h) → r.windowAt + win ≤ a.clk.ns → ∃ u, exec (.escalationWindowEnd t h) s = .next u ∧
      u.rd (R.ULAPCNT_WINDOW h) = 0 ∧ u.rd (R.ULAPCNT_TOTAL h) = a.rd (R.ULAPCNT_TOTAL h) ∧
      (∀ x, x ≠ (R.ULAPCNT_WINDOW h).addr → u.word x = a.word x) ∧ Only [.regs] a u)

/-- CORE_HEARTBEAT of logical core c by that core, c in service, restarts the lapse timer of the physical core that serves it and starts it counting; by any other agent it is ignored and counted; for a core out of service it does nothing. A SYSCALL of an application core while EXL is 1 is a double fault: the core stops, its unit lapses, DBLFLT is counted and UFAULT.DETAIL [2] is set (fewer than two lapses in the core ensemble's window). -/
def Obligations.HeartbeatsAndDoubleFaults : Prop :=
  (∀ (s : State) (t : Elapsed) (who : Who) (c v : Nat), s.Canonical → c < 4 →
    let a := s.advance t
    let h := Hdr.core (a.physOf .core c)
    a.domOn Dom.sys = true → who.late = false →
      (who.stamp = 2 + c → a.inService .core c = true → a.physOf .core c < 5 → ∃ u, exec (.coreHeartbeat t who c v) s = .next u ∧
        (u.unit h).beaten = true ∧ (u.unit h).progressAt = a.clk.ns ∧ (∀ k, k ≠ h → u.unit k = a.unit k) ∧ Only [.units] a u) ∧
      (who.stamp = 2 + c → a.inService .core c = false → exec (.coreHeartbeat t who c v) s = .next a) ∧
      (who.stamp ≠ 2 + c → ∃ u, exec (.coreHeartbeat t who c v) s = .next u ∧
        u.rd R.DEV_ACCESS_COUNT = min 65535 (a.rd R.DEV_ACCESS_COUNT + 1) ∧ (∀ x, x ≠ 0x4000004C → u.word x = a.word x) ∧
        Only [.regs] a u)) ∧
  (∀ (s : State) (c : CoreId) (p : Nat) (g : Guard) (code : BitVec 10), s.Canonical → s.runs c p g = true → c.val < 4 → p < 5 →
    (s.core p).exl = true → s.rd (R.ULAPCNT_WINDOW Hdr.cpu) < 2 → (s.unit (Hdr.core p)).lapsed = false →
    (s.unit (Hdr.core p)).retired = false → (s.unit (Hdr.core p)).lapseTimes = [] →
    ∃ u, exec (.syscall c g code) s = .next u ∧ (u.core p).running = false ∧ (u.unit (Hdr.core p)).lapsed = true ∧
      u.rd R.CPU_COUNTS_DBLFLT = min 255 (s.rd R.CPU_COUNTS_DBLFLT + 1) ∧ bitOf (u.rd (R.UFAULT_DETAIL (Hdr.core p))) 2 = true ∧
      u.rd (R.ULAPCNT_TOTAL (Hdr.core p)) = min 65535 (s.rd (R.ULAPCNT_TOTAL (Hdr.core p)) + 1) ∧
      ∀ q, q ≠ p → u.core q = s.core q)

/-- On a core that fetches the instruction and whose guard is true, each of the 28 operations of Table CPU-5 (ADD to BREV) completes with the table's value of ra and rb in rd (w0 reads zero, a write to it is discarded), the pc 4 further, and every other general register, every other field of the core, every other core, every byte of memory and every register word (but the counters a fetch or the trace may step) as before; the corner cases of DIV, DIVU, REM, REMU and ABS have the values the table gives. -/
def Obligations.IntegerResults : Prop :=
  ∀ (s : State) (c : CoreId) (p : Nat) (g : Guard) (rd ra rb : RegNum), s.Canonical → s.runs c p g = true →
    let x := (s.core p).reg ra
    let y := (s.core p).reg rb
    let gives := Gives s p 4 rd
    gives (.add c g rd ra rb) (x + y) ∧
    gives (.sub c g rd ra rb) (x - y) ∧
    gives (.and c g rd ra rb) (x &&& y) ∧
    gives (.or c g rd ra rb) (x ||| y) ∧
    gives (.xor c g rd ra rb) (x ^^^ y) ∧
    gives (.andn c g rd ra rb) (x &&& ~~~y) ∧
    gives (.shl c g rd ra rb) (x <<< (y.toNat % 32)) ∧
    gives (.shr c g rd ra rb) (x >>> (y.toNat % 32)) ∧
    gives (.sar c g rd ra rb) (x.sshiftRight (y.toNat % 32)) ∧
    gives (.ror c g rd ra rb) (x.rotateRight (y.toNat % 32)) ∧
    gives (.mul c g rd ra rb) (x * y) ∧
    gives (.mulh c g rd ra rb) (BitVec.ofInt 32 (x.toInt * y.toInt / 4294967296)) ∧
    gives (.mulhu c g rd ra rb) (BitVec.ofNat 32 (x.toNat * y.toNat / 4294967296)) ∧
    gives (.div c g rd ra rb) (if y = 0#32 then 0xFFFFFFFF#32 else x.sdiv y) ∧
    gives (.divu c g rd ra rb) (if y = 0#32 then 0xFFFFFFFF#32 else x / y) ∧
    gives (.rem c g rd ra rb) (if y = 0#32 then x else x.srem y) ∧
    gives (.remu c g rd ra rb) (if y = 0#32 then x else x % y) ∧
    gives (.min c g rd ra rb) (if x.toInt < y.toInt then x else y) ∧
    gives (.max c g rd ra rb) (if x.toInt < y.toInt then y else x) ∧
    gives (.minu c g rd ra rb) (if x.toNat < y.toNat then x else y) ∧
    gives (.maxu c g rd ra rb) (if x.toNat < y.toNat then y else x) ∧
    gives (.clz c g rd ra) (BitVec.ofNat 32 (if x = 0#32 then 32 else 31 - x.toNat.log2)) ∧
    gives (.popc c g rd ra) (BitVec.ofNat 32 ((List.range 32).countP fun i => x.getLsbD i)) ∧
    gives (.sextb c g rd ra) ((x.setWidth 8).signExtend 32) ∧
    gives (.sexth c g rd ra) ((x.setWidth 16).signExtend 32) ∧
    gives (.zexth c g rd ra) ((x.setWidth 16).setWidth 32) ∧
    gives (.abs c g rd ra) (if x.toInt < 0 then -x else x) ∧
    gives (.brev c g rd ra) x.reverse ∧
    ((0x80000000#32).sdiv 0xFFFFFFFF#32 = 0x80000000#32 ∧ (0x80000000#32).srem 0xFFFFFFFF#32 = 0#32 ∧
      -(0x80000000#32) = 0x80000000#32)

/-- On a core that fetches the instruction and whose guard is true, each DSP operation of Table CPU-6 completes with the table's value: sat32 and sat16 clamp to the signed range, Q15 products are rounded by adding 2^14 and shifting by 15, CMULJ and CMACJ conjugate rb, and CMAC and CMACJ (rd even and not w0) add the exact complex product to the pair w[d], w[d+1] from the old values; nothing else of the core or of the memory changes. -/
def Obligations.DspResults : Prop :=
  (∀ x : Int, (sat32 x).toInt = max (-2147483648) (min 2147483647 x) ∧ (sat16 x).toInt = max (-32768) (min 32767 x)) ∧
  ∀ (s : State) (c : CoreId) (p : Nat) (g : Guard) (rd ra rb : RegNum), s.Canonical → s.runs c p g = true →
    let x := (s.core p).reg ra
    let y := (s.core p).reg rb
    let z := (s.core p).reg rd
    let xl := (lo16 x).toInt
    let xh := (hi16 x).toInt
    let yl := (lo16 y).toInt
    let yh := (hi16 y).toInt
    let q15 := fun (v : Int) => sat16 ((v + 16384) / 32768)
    let gives := Gives s p 4 rd
    gives (.adds c g rd ra rb) (sat32 (x.toInt + y.toInt)) ∧
    gives (.subs c g rd ra rb) (sat32 (x.toInt - y.toInt)) ∧
    gives (.shls c g rd ra rb) (sat32 (x.toInt * 2 ^ (y.toNat % 32))) ∧
    gives (.abss c g rd ra) (sat32 x.toInt.natAbs) ∧
    gives (.add2 c g rd ra rb) ((hi16 x + hi16 y) ++ (lo16 x + lo16 y)) ∧
    gives (.sub2 c g rd ra rb) ((hi16 x - hi16 y) ++ (lo16 x - lo16 y)) ∧
    gives (.adds2 c g rd ra rb) (sat16 (xh + yh) ++ sat16 (xl + yl)) ∧
    gives (.subs2 c g rd ra rb) (sat16 (xh - yh) ++ sat16 (xl - yl)) ∧
    gives (.mul2 c g rd ra rb) (q15 (xh * yh) ++ q15 (xl * yl)) ∧
    gives (.dot2 c g rd ra rb) (sat32 (z.toInt + xl * yl + xh * yh)) ∧
    gives (.cmul c g rd ra rb) (q15 (xl * yh + xh * yl) ++ q15 (xl * yl - xh * yh)) ∧
    gives (.cmulj c g rd ra rb) (q15 (xh * yl - xl * yh) ++ q15 (xl * yl + xh * yh)) ∧
    gives (.pack c g rd ra rb) (lo16 y ++ lo16 x) ∧
    gives (.swaph c g rd ra) (lo16 x ++ hi16 x) ∧
    gives (.mulq c g rd ra rb) (sat32 ((x.toInt * y.toInt + 1073741824) / 2147483648)) ∧
    (ra.toNat % 2 = 0 → gives (.crnd c g rd ra) (q15 ((s.core p).reg (ra + 1#5)).toInt ++ q15 x.toInt)) ∧
    (rd.toNat % 2 = 0 → rd ≠ 0#5 →
      let w := (s.core p).reg (rd + 1#5)
      let pair := fun (i : Instr) (re im : Int) => ∃ t, exec i s = .next t ∧
        (t.core p).reg rd = sat32 (z.toInt + re) ∧ (t.core p).reg (rd + 1#5) = sat32 (w.toInt + im) ∧
        (∀ r, r ≠ rd → r ≠ rd + 1#5 → (t.core p).reg r = (s.core p).reg r) ∧
        Ended s t p fun k => { k with regs := (t.core p).regs, pc := k.pc + 4#32 }
      pair (.cmac c g rd ra rb) (xl * yl - xh * yh) (xl * yh + xh * yl) ∧
      pair (.cmacj c g rd ra rb) (xl * yl + xh * yh) (xh * yl - xl * yh))

/-- On a core that fetches the instruction and whose guard is true, ADDI adds the sign-extended immediate; ANDI, ORI, XORI take the zero-extended one; the four SHIFTI forms shift or rotate by imm[4:0] (imm[10:7] zero); BFX extracts ra[lsb + w - 1 : lsb] zero- or sign-extended and BFI inserts ra[w - 1 : 0] there keeping rd's other bits (the field within bit 31); LUI and LLI set the upper and the lower half; nothing else changes but the pc. On a core that fetches the halfword, MOV, the two-operand forms ADD to SAR, LI, ADDI, SHLI, SHRI and SARI complete unconditionally with the table's value of rd and ra or the immediate in rd, the pc 2 further, and nothing else of the core or of the memory changed. -/
def Obligations.ImmediateAndShortFormResults : Prop :=
  (∀ (s : State) (c : CoreId) (p : Nat) (g : Guard) (rd ra : RegNum) (imm : BitVec 11) (sh : BitVec 5) (imm16 : BitVec 16),
      s.Canonical → s.runs c p g = true →
      let x := (s.core p).reg ra
      let old := (s.core p).reg rd
      let lsb := imm.toNat / 64
      let w := imm.toNat % 32 + 1
      let mask : Word := BitVec.ofNat 32 ((2 ^ w - 1) * 2 ^ lsb)
      let gives := Gives s p 4 rd
      gives (.addi c g rd ra imm) (x + imm.signExtend 32) ∧
      gives (.andi c g rd ra imm) (x &&& imm.setWidth 32) ∧
      gives (.ori c g rd ra imm) (x ||| imm.setWidth 32) ∧
      gives (.xori c g rd ra imm) (x ^^^ imm.setWidth 32) ∧
      gives (.shiftiShl c g rd ra 0#4 sh) (x <<< sh.toNat) ∧
      gives (.shiftiShr c g rd ra 0#4 sh) (x >>> sh.toNat) ∧
      gives (.shiftiSar c g rd ra 0#4 sh) (x.sshiftRight sh.toNat) ∧
      gives (.shiftiRor c g rd ra 0#4 sh) (x.rotateRight sh.toNat) ∧
      (lsb + w ≤ 32 →
        gives (.bfx c g rd ra imm)
          (if imm.getLsbD 5 then (x <<< (32 - lsb - w)).sshiftRight (32 - w) else (x <<< (32 - lsb - w)) >>> (32 - w)) ∧
        (imm.getLsbD 5 = false → gives (.bfi c g rd ra imm) ((old &&& ~~~mask) ||| ((x <<< lsb) &&& mask)))) ∧
      gives (.lui c g rd imm16) (imm16.setWidth 32 <<< 16) ∧
      gives (.lli c g rd imm16) ((old &&& 0xFFFF0000#32) ||| imm16.setWidth 32)) ∧
  (∀ (s : State) (c : CoreId) (p : Nat) (rd ra : RegNum) (imm5 : BitVec 5), s.Canonical → s.fetches c p 2 = true →
      let x := (s.core p).reg rd
      let y := (s.core p).reg ra
      let gives := Gives s p 2 rd
      gives (.mov c rd ra) y ∧
      gives (.add16 c rd ra) (x + y) ∧
      gives (.sub16 c rd ra) (x - y) ∧
      gives (.and16 c rd ra) (x &&& y) ∧
      gives (.or16 c rd ra) (x ||| y) ∧
      gives (.xor16 c rd ra) (x ^^^ y) ∧
      gives (.shl16 c rd ra) (x <<< (y.toNat % 32)) ∧
      gives (.shr16 c rd ra) (x >>> (y.toNat % 32)) ∧
      gives (.sar16 c rd ra) (x.sshiftRight (y.toNat % 32)) ∧
      gives (.li c rd imm5) (imm5.signExtend 32) ∧
      gives (.addi16 c rd imm5) (x + imm5.signExtend 32) ∧
      gives (.shli c rd imm5) (x <<< imm5.toNat) ∧
      gives (.shri c rd imm5) (x >>> imm5.toNat) ∧
      gives (.sari c rd imm5) (x.sshiftRight imm5.toNat))

/-- On a core that fetches the instruction and whose guard is true, CMP and CMPI with COND codes 0-11 put the condition into p[pt] and its opposite into p[pf] (into p[pt] alone where both name one predicate), and PAND, POR, PXOR, PANDN, PNOT put their result into p[pd]; p0 reads 1 whatever is written to it; every other predicate, every register and every byte of memory is as before and the pc moves by 4. -/
def Obligations.ComparesAndPredicates : Prop :=
  ∀ (s : State) (c : CoreId) (p : Nat) (g : Guard), s.Canonical → s.runs c p g = true →
    let k := s.core p
    let sets := fun (i : Instr) (want : PredNum → Bool) => ∃ t, exec i s = .next t ∧
      (t.core p).pred 0#3 = true ∧ (∀ q, q ≠ 0#3 → (t.core p).pred q = want q) ∧
      Ended s t p fun k => { k with preds := (t.core p).preds, pc := k.pc + 4#32 }
    let truth := fun (x y : Word) => [x == y, x != y, decide (x.toInt < y.toInt), decide (y.toInt ≤ x.toInt),
      decide (x.toNat < y.toNat), decide (y.toNat ≤ x.toNat), decide (y.toInt < x.toInt), decide (x.toInt ≤ y.toInt),
      decide (y.toNat < x.toNat), decide (x.toNat ≤ y.toNat), (x &&& y) != 0#32, (x &&& y) == 0#32]
    (∀ (pt pf : PredNum) (ra rb : RegNum) (imm6 : BitVec 6) (cond : BitVec 4) (b : Bool),
      ((truth (k.reg ra) (k.reg rb))[cond.toNat]? = some b →
        sets (.cmp c g pt pf ra rb cond) fun q => if q = pt then b else if q = pf then !b else k.pred q) ∧
      ((truth (k.reg ra) (imm6.signExtend 32))[cond.toNat]? = some b →
        sets (.cmpi c g pt pf ra imm6 cond) fun q => if q = pt then b else if q = pf then !b else k.pred q)) ∧
    (∀ pd pa pb : PredNum,
      sets (.pand c g pd pa pb) (fun q => if q = pd then k.pred pa && k.pred pb else k.pred q) ∧
      sets (.por c g pd pa pb) (fun q => if q = pd then k.pred pa || k.pred pb else k.pred q) ∧
      sets (.pxor c g pd pa pb) (fun q => if q = pd then k.pred pa != k.pred pb else k.pred q) ∧
      sets (.pandn c g pd pa pb) (fun q => if q = pd then k.pred pa && !k.pred pb else k.pred q) ∧
      sets (.pnot c g pd pa) (fun q => if q = pd then !k.pred pa else k.pred q))

/-- On a core that fetches the instruction and whose guard is true, B and BL go to this address + 2 x the sign-extended offset, BR and BLR to ra (an even address), BL and BLR put this address + 4 into w31 (BLR reads its target first); the 16-bit BR and BLR need rd = 0 and BLR saves this address + 2; B16 is always taken, BT1 when p1 is 1 and BF1 when p1 is 0, else the pc moves by 2. Nothing else of the core or of the memory changes. -/
def Obligations.BranchesGoToTheirTargets : Prop :=
  ∀ (s : State) (c : CoreId) (p : Nat) (g : Guard) (ra : RegNum) (off : BitVec 21) (off16 : BitVec 10), s.Canonical →
    let k := s.core p
    let goes := fun (i : Instr) (target : Word) => ∃ t, exec i s = .next t ∧ Ended s t p fun k => { k with pc := target }
    let links := fun (i : Instr) (target ret : Word) => ∃ t, exec i s = .next t ∧ (t.core p).reg 31#5 = ret ∧
      (∀ r, r ≠ 31#5 → (t.core p).reg r = k.reg r) ∧
      Ended s t p fun k => { k with regs := (t.core p).regs, pc := target }
    let near := k.pc + (off16.signExtend 32 <<< 1)
    (s.runs c p g = true →
      goes (.b c g off) (k.pc + (off.signExtend 32 <<< 1)) ∧
      links (.bl c g off) (k.pc + (off.signExtend 32 <<< 1)) (k.pc + 4#32) ∧
      ((k.reg ra).toNat % 2 = 0 → goes (.br c g ra) (k.reg ra) ∧ links (.blr c g ra) (k.reg ra) (k.pc + 4#32))) ∧
    (s.fetches c p 2 = true →
      goes (.b16 c off16) near ∧
      goes (.bt1 c off16) (if k.pred 1#3 then near else k.pc + 2#32) ∧
      goes (.bf1 c off16) (if k.pred 1#3 then k.pc + 2#32 else near) ∧
      ((k.reg ra).toNat % 2 = 0 → goes (.br16 c 0#5 ra) (k.reg ra) ∧ links (.blr16 c 0#5 ra) (k.reg ra) (k.pc + 2#32)))

/-- On a core that fetches the instruction and whose guard is true, each load whose access raises no exception and goes to RAM past the cache puts the little-endian bytes at its address into rd, sign- or zero-extended: LDB to LDW at ra + sext(imm11), the 16-bit LDW at ra, LDWSP at w30 + 4 x imm5, LDX with the size of SZ. LDX uses ra + (rb << s) in AM 0 and ra otherwise, and leaves in ra what Table CPU-9 gives (AM 3: the non-negative remainder, no wrap with LEN 0); where rd is ra the loaded value stays and the base update is lost. Every other register and every byte of memory is as before. -/
def Obligations.LoadsReadMemory : Prop :=
  ∀ (s : State) (c : CoreId) (p : Nat) (g : Guard) (rd ra : RegNum) (q : Nat), s.Canonical →
    let k := s.core p
    let ok := fun (a : Word) (n : Nat) => s.plainRam c p a.toNat n q false
    let sx := fun (n : Nat) => BitVec.ofInt 32 (signed (8 * n) (s.loaded q n))
    let zx := fun (n : Nat) => BitVec.ofNat 32 (s.loaded q n)
    (∀ imm : BitVec 11, s.runs c p g = true →
      let a := k.reg ra + imm.signExtend 32
      (ok a 1 = true → Gives s p 4 rd (.ldb c g rd ra imm .clean) (sx 1) ∧ Gives s p 4 rd (.ldbu c g rd ra imm .clean) (zx 1)) ∧
      (ok a 2 = true → Gives s p 4 rd (.ldh c g rd ra imm .clean) (sx 2) ∧ Gives s p 4 rd (.ldhu c g rd ra imm .clean) (zx 2)) ∧
      (ok a 4 = true → Gives s p 4 rd (.ldw c g rd ra imm .clean) (zx 4))) ∧
    (∀ imm5 : BitVec 5, s.fetches c p 2 = true →
      (ok (k.reg ra) 4 = true → Gives s p 2 rd (.ldw16 c rd ra .clean) (zx 4)) ∧
      (ok (k.reg 30#5 + 4#32 * imm5.setWidth 32) 4 = true → Gives s p 2 rd (.ldwsp c rd imm5 .clean) (zx 4))) ∧
    (∀ (am : AddrMode) (sz : SizeCode) (a base : Word), s.runs c p g = true → sz.toNat < 5 →
      let e := if sz.toNat < 2 then 0 else if sz.toNat < 4 then 1 else 2
      (match am with
        | .scaled rb => a = k.reg ra + (k.reg rb <<< e) ∧ base = k.reg ra
        | .postReg rb => a = k.reg ra ∧ base = k.reg ra + (k.reg rb <<< e)
        | .postImm imm5 => a = k.reg ra ∧ base = k.reg ra + (imm5.signExtend 32 <<< e)
        | .modulo i inc3 => a = k.reg ra ∧
          base = if k.cbLenOf i.toNat = 0#32 then k.reg ra + (inc3.signExtend 32 <<< e)
            else k.cbBaseOf i.toNat + BitVec.ofInt 32
              ((((k.reg ra).toNat : Int) - (k.cbBaseOf i.toNat).toNat + inc3.toInt * 2 ^ e) % (k.cbLenOf i.toNat).toNat)
        | .bitrev i => a = k.reg ra ∧ (∃ n, n < 32 ∧ e < n ∧ (k.cbLenOf i.toNat).toNat = 2 ^ n) ∧
          base = bitrevNext (k.reg ra) (k.cbBaseOf i.toNat) (k.cbLenOf i.toNat) e
        | .reserved _ => False) →
      ok a (2 ^ e) = true →
      ∃ t, exec (.ldx c g rd ra am sz .clean) s = .next t ∧
        (t.core p).reg rd = (if rd = 0#5 then 0#32 else if sz.toNat = 0 ∨ sz.toNat = 2 then sx (2 ^ e) else zx (2 ^ e)) ∧
        (ra ≠ rd → (t.core p).reg ra = if ra = 0#5 then 0#32 else base) ∧
        (∀ r, r ≠ rd → r ≠ ra → (t.core p).reg r = k.reg r) ∧
        Ended s t p fun k => { k with regs := (t.core p).regs, pc := k.pc + 4#32 })

/-- On a core that fetches LDX or STX with its guard true, of any legal size, rd and ra different and ra not 0, the access at ra going to RAM past the cache: AM 3 leaves in ra BASE plus the non-negative remainder of the offset plus the increment by LEN, wherever ra lies, and with LEN 0 ra plus the increment; AM 4 with LEN a power of two of at least twice the element leaves the reverse-carry sum, and with any other LEN raises the illegal-instruction exception with EPC at the instruction and nothing else changed (EXL clear). The reverse-carry sum changes only the field [log2 LEN - 1 : s] of the offset, and that field read in reversed bit order is one more, modulo its size. A loop that starts at BASE has after j accesses the offset whose field is j in reversed bit order, aligned to the element and below LEN, and is back at BASE after LEN/e accesses. -/
def Obligations.IndexedBasesMove : Prop :=
  (∀ (s : State) (c : CoreId) (p : Nat) (g : Guard) (rd ra : RegNum) (q : Nat) (i : BitVec 2) (inc3 : BitVec 3) (sz : SizeCode),
    s.Canonical → s.runs c p g = true → sz.toNat < 5 → rd ≠ ra → ra ≠ 0#5 →
    let k := s.core p
    let e := if sz.toNat < 2 then 0 else if sz.toNat < 4 then 1 else 2
    let a := k.reg ra
    let len := k.cbLenOf i.toNat
    let start := k.cbBaseOf i.toNat
    let moves := fun (am : AddrMode) (b : Word) =>
      (s.plainRam c p a.toNat (2 ^ e) q false = true →
        ∃ t, exec (.ldx c g rd ra am sz .clean) s = .next t ∧ (t.core p).reg ra = b) ∧
      (s.plainRam c p a.toNat (2 ^ e) q true = true →
        ∃ t, exec (.stx c g rd ra am sz .clean) s = .next t ∧ (t.core p).reg ra = b)
    let fits := ∃ n, n < 32 ∧ len.toNat = 2 ^ n ∧ 2 * 2 ^ e ≤ 2 ^ n
    (len = 0#32 → moves (.modulo i inc3) (a + (inc3.signExtend 32 <<< e))) ∧
    (len ≠ 0#32 → moves (.modulo i inc3)
      (start + BitVec.ofInt 32 (((a.toNat : Int) - start.toNat + inc3.toInt * 2 ^ e) % len.toNat))) ∧
    (fits → moves (.bitrev i) (bitrevNext a start len e)) ∧
    (¬fits → k.exl = false → ∀ x ∈ ([.ldx c g rd ra (.bitrev i) sz .clean, .stx c g rd ra (.bitrev i) sz .clean] : List Instr),
      ∃ t, exec x s = .next t ∧ Entered s t p (s.coreProt c p) 0x01 k.pc 0x01#32)) ∧
  ∀ (a start : Word) (n e : Nat), e < n → n < 32 →
    let len := BitVec.ofNat 32 (2 ^ n)
    let rev := fun (x : Nat) => (BitVec.ofNat (n - e) (x / 2 ^ e)).reverse
    (let old := (a - start).toNat
     let new := (bitrevNext a start len e - start).toNat
     new % 2 ^ e = old % 2 ^ e ∧ new / 2 ^ n = old / 2 ^ n ∧ rev new = rev old + 1#(n - e)) ∧
    ∀ j : Nat,
      let b := Nat.repeat (fun x => bitrevNext x start len e) j start
      let off := (b - start).toNat
      off < 2 ^ n ∧ off % 2 ^ e = 0 ∧ rev off = BitVec.ofNat (n - e) j ∧ (j = 2 ^ (n - e) → b = start)

/-- On a core that fetches the instruction and whose guard is true, each store whose access raises no exception and goes to RAM past the cache writes the low 1, 2 or 4 bytes of rs, least significant first, at its address, and every other byte of memory reads as before: STB, STH, STW at ra + sext(imm11), the 16-bit STW at ra, STWSP at w30 + 4 x imm5, STX at the address of its mode with the size of SZ; STX leaves in ra what Table CPU-9 gives, from the values before the access. No other register changes. -/
def Obligations.StoresWriteTheirBytes : Prop :=
  ∀ (s : State) (c : CoreId) (p : Nat) (g : Guard) (rs ra : RegNum) (q : Nat), s.Canonical →
    let k := s.core p
    let ok := fun (a : Word) (n : Nat) => s.plainRam c p a.toNat n q true
    let puts := fun (i : Instr) (len n : Nat) => ∃ t, exec i s = .next t ∧
      Stored s t p (fun k => { k with pc := k.pc + BitVec.ofNat 32 len }) q n (k.reg rs)
    (∀ imm : BitVec 11, s.runs c p g = true →
      let a := k.reg ra + imm.signExtend 32
      (ok a 1 = true → puts (.stb c g rs ra imm .clean) 4 1) ∧
      (ok a 2 = true → puts (.sth c g rs ra imm .clean) 4 2) ∧
      (ok a 4 = true → puts (.stw c g rs ra imm .clean) 4 4)) ∧
    (∀ imm5 : BitVec 5, s.fetches c p 2 = true →
      (ok (k.reg ra) 4 = true → puts (.stw16 c rs ra .clean) 2 4) ∧
      (ok (k.reg 30#5 + 4#32 * imm5.setWidth 32) 4 = true → puts (.stwsp c rs imm5 .clean) 2 4)) ∧
    (∀ (am : AddrMode) (sz : SizeCode) (a base : Word), s.runs c p g = true → sz.toNat < 5 →
      let e := if sz.toNat < 2 then 0 else if sz.toNat < 4 then 1 else 2
      (match am with
        | .scaled rb => a = k.reg ra + (k.reg rb <<< e) ∧ base = k.reg ra
        | .postReg rb => a = k.reg ra ∧ base = k.reg ra + (k.reg rb <<< e)
        | .postImm imm5 => a = k.reg ra ∧ base = k.reg ra + (imm5.signExtend 32 <<< e)
        | .modulo i inc3 => a = k.reg ra ∧
          base = if k.cbLenOf i.toNat = 0#32 then k.reg ra + (inc3.signExtend 32 <<< e)
            else k.cbBaseOf i.toNat + BitVec.ofInt 32
              ((((k.reg ra).toNat : Int) - (k.cbBaseOf i.toNat).toNat + inc3.toInt * 2 ^ e) % (k.cbLenOf i.toNat).toNat)
        | .bitrev i => a = k.reg ra ∧ (∃ n, n < 32 ∧ e < n ∧ (k.cbLenOf i.toNat).toNat = 2 ^ n) ∧
          base = bitrevNext (k.reg ra) (k.cbBaseOf i.toNat) (k.cbLenOf i.toNat) e
        | .reserved _ => False) →
      ok a (2 ^ e) = true →
      ∃ t, exec (.stx c g rs ra am sz .clean) s = .next t ∧
        (t.core p).reg ra = (if ra = 0#5 then 0#32 else base) ∧ (∀ r, r ≠ ra → (t.core p).reg r = k.reg r) ∧
        Stored s t p (fun k => { k with regs := (t.core p).regs, pc := k.pc + 4#32 }) q (2 ^ e) (k.reg rs))

/-- On a core that fetches the instruction, whose guard is true and which has no unanswered store, SWAP and CAS on an aligned word of SRAM that the core may read and write, that no data-cache line holds and that has no error leave the old word in rd; SWAP stores rb, CAS stores rb only where the old word equals rd. Every other register and every other byte is as before. -/
def Obligations.AtomicsSwapAndCompare : Prop :=
  ∀ (s : State) (c : CoreId) (p : Nat) (g : Guard) (rd ra rb : RegNum) (q bank : Nat), s.Canonical → s.runs c p g = true →
    let k := s.core p
    let a := (k.reg ra).toNat
    s.storesOut p = false → s.region a = .sram bank → s.accessTrap c p a 4 false = none → s.accessTrap c p a 4 true = none →
    s.place a = .ram q → s.poisoned q = false → k.lineAt (lineOf a) = none →
      let old := BitVec.ofNat 32 (s.loaded q 4)
      let does := fun (i : Instr) (v : Word) => ∃ t, exec i s = .next t ∧
        (t.core p).reg rd = (if rd = 0#5 then 0#32 else old) ∧ (∀ r, r ≠ rd → (t.core p).reg r = k.reg r) ∧
        Stored s t p (fun k => { k with regs := (t.core p).regs, pc := k.pc + 4#32 }) q 4 v
      does (.swap c g rd ra rb .clean) (k.reg rb) ∧
      does (.cas c g rd ra rb .clean) (if old = k.reg rd then k.reg rb else old)

/-- On a core that fetches the instruction and whose guard is true: in protected mode, or for a register open mode may reach (STATUS for reading, CORE, PRED and the circular buffers), MFS puts the special register into rd, and MTS writes ra's bits into the register's writable fields (STATUS keeps P, VBASE bits [9:0] and PRBASE bits [4:0] read zero, PRED bit 0 reads 1, CORE ignores writes) and nothing else. In open mode, with EXL clear, MFS of any other register and MTS of it or of STATUS raise the privilege exception, vector 2, with EPC at the instruction. -/
def Obligations.SpecialRegistersReadAndWritten : Prop :=
  ∀ (s : State) (c : CoreId) (p : Nat) (g : Guard) (rd ra : RegNum) (sp : BitVec 5), s.Canonical → s.runs c p g = true →
    let k := s.core p
    let v := k.reg ra
    let n := sp.toNat
    let shared := decide (n = 5 ∨ n = 6 ∨ (8 ≤ n ∧ n < 16))
    let cell := fun (k : CoreState) (n : Nat) => match n with
      | 0 => if 4 ≤ c.val then k.status ||| 0x21#32 else k.status
      | 1 => k.epc
      | 2 => k.ecause
      | 3 => k.eaddr
      | 4 => k.vbase
      | 5 => BitVec.ofNat 32 (s.agent c + 16 * (c.val % 4) + 256 * (p % 8))
      | 6 => k.preds.setWidth 32
      | 7 => k.scratch
      | n => if n < 16 then (if n % 2 = 0 then k.cbBaseOf ((n - 8) / 2) else k.cbLenOf ((n - 9) / 2))
        else if n % 2 = 0 then k.prBaseOf ((n - 16) / 2) else k.prCtlOf ((n - 17) / 2)
    let kept : Word := match n with
      | 0 => (k.status &&& 1#32) ||| (v &&& 0x1E#32)
      | 2 => v &&& 0xFFFF07FF#32
      | 4 => v &&& 0xFFFFFC00#32
      | 6 => v &&& 0xFF#32 ||| 1#32
      | n => if 16 ≤ n ∧ n % 2 = 0 then v &&& 0xFFFFFFE0#32 else v
    let wrote := fun (t : State) (k' : CoreState) => Ended s t p fun k => { k with
      status := k'.status, epc := k'.epc, ecause := k'.ecause, eaddr := k'.eaddr, vbase := k'.vbase, preds := k'.preds,
      scratch := k'.scratch, cbBase := k'.cbBase, cbLen := k'.cbLen, prBase := k'.prBase, prCtl := k'.prCtl, pc := k.pc + 4#32 }
    ((s.coreProt c p = true ∨ shared = true ∨ n = 0) → Gives s p 4 rd (.mfs c g rd sp) (cell k n)) ∧
    ((s.coreProt c p = true ∨ shared = true) → ∃ t, exec (.mts c g ra sp) s = .next t ∧ wrote t (t.core p) ∧
      (∀ j, j < 32 → (j ≠ n ∨ n = 5) → cell (t.core p) j = cell k j) ∧
      (n ≠ 5 → (if n = 0 then (t.core p).status else cell (t.core p) n) = kept)) ∧
    (s.coreProt c p = false → k.exl = false → shared = false →
      (n ≠ 0 → ∃ t, exec (.mfs c g rd sp) s = .next t ∧ Entered s t p false 2 k.pc 2#32) ∧
      (∃ t, exec (.mts c g ra sp) s = .next t ∧ Entered s t p false 2 k.pc 2#32))

/-- With EXL clear, SYSCALL enters vector 0x0B with EPC at the next instruction and its code in ECAUSE[25:16]; a reserved halfword enters vector 0x01 and a refused fetch its own vector, both with EPC at the instruction; an odd pc, a pc no region lets open mode execute and an unmapped pc are refused with vectors 6, 3 and 7, FETCH set and the address in EADDR. While IE is 1, the lowest pending enabled line n routed to the core enters 0x10 + n; a late store error enters vector 7 with IMP and WR set, the store's address in EADDR, and is counted. Entry puts P into PP, IE into PIE, sets P and EXL, clears IE and goes to VBASE + 32 x the vector. ERET in protected mode puts PP into P (P stays 1 on a link core) and PIE into IE, clears EXL and goes on at EPC. -/
def Obligations.ExceptionsEnterAndReturn : Prop :=
  ∀ (s : State) (c : CoreId) (p : Nat) (g : Guard), s.Canonical →
    let k := s.core p
    let prot := s.coreProt c p
    let idle := s.coreKey c = some p ∧ k.waiting = false ∧ k.remote.isSome = false
    (∀ code : BitVec 10, s.runs c p g = true → k.exl = false → ∃ t, exec (.syscall c g code) s = .next t ∧
      Entered s t p prot 0x0B (k.pc + 4#32) (0x0B#32 ||| (code.setWidth 32 <<< 16))) ∧
    (s.fetches c p 2 = true → k.exl = false → ∃ t, exec (.illegalInstruction c) s = .next t ∧
      Entered s t p prot 0x01 k.pc 0x01#32) ∧
    (idle → k.exl = false → ∀ vec a : Nat,
      ((vec = 6 ∧ k.pc.toNat % 2 = 1) ∨ (vec = 3 ∧ k.pc.toNat % 2 = 0 ∧ prot = false ∧ k.permits k.pc.toNat 3 = false) ∨
        (vec = 7 ∧ k.pc.toNat % 2 = 0 ∧ prot = true ∧ s.region k.pc.toNat = .unmapped)) → a = k.pc.toNat →
      ∃ t, exec (.fetchFault c .clean) s = .next t ∧ Entered s t p prot vec k.pc (BitVec.ofNat 32 (vec + 1024)) ∧
        (t.core p).eaddr = k.pc) ∧
    (idle → c.val < 4 → k.ie = true → ∀ n, n < 16 →
      (∀ j, j ≤ n → (j = n ↔ (bitOf (s.rd R.EVR_IRQPEND_PEND) j = true ∧ bitOf (s.rd R.EVR_IRQEN_EN) j = true ∧
        bitsOf (s.rd R.EVR_IRQROUTE_ROUTE) (2 * j) 2 = c.val))) →
      ∃ t, exec (.interruptEntry c) s = .next t ∧ Entered s t p prot (0x10 + n) k.pc (BitVec.ofNat 32 (0x10 + n))) ∧
    (idle → ∀ a rest, k.lateStore = a :: rest → ∃ t, exec (.impreciseBusError c) s = .next t ∧
      (t.core p).epc = k.pc ∧ (t.core p).ecause = 0x307#32 ∧ (t.core p).eaddr = BitVec.ofNat 32 a ∧
      (t.core p).pc = k.vbase + 0xE0#32 ∧ (t.core p).status = CoreState.mkStatus true false true prot k.ie ∧
      (t.core p).lateStore = rest ∧ t.rd R.CPU_COUNTS_IMPBUS = min 255 (s.rd R.CPU_COUNTS_IMPBUS + 1) ∧
      (∀ r, (t.core p).reg r = k.reg r) ∧ BytesKept s t) ∧
    (s.runs c p g = true → prot = true → k.epc.getLsbD 0 = false → ∃ t, exec (.eret c g) s = .next t ∧
      Ended s t p fun k => { k with
        pc := k.epc, status := CoreState.mkStatus (decide (4 ≤ c.val) || k.pp) k.pie false k.pp k.pie })

/-- With G = 0 the guard is the negation of N. For every 32-bit instruction with no reserved field value: on a core that fetches it and whose guard p[G] XOR N is false it completes, moves the pc by 4 and changes no register, predicate, special register, other core or byte of memory. For every 32-bit instruction with a reserved field value (an odd or zero rd in CMAC and CMACJ, an odd ra in CRND, COND 12-15, imm[10:7] of SHIFTI not zero, a BFX or BFI field past bit 31, imm[5] of BFI, SZ 5-7, AM 5-7), true guard or false, on a core that fetches it with EXL clear, and for the 16-bit BR and BLR with rd not 0 and the reserved halfword, the core enters vector 0x01 with EPC at the instruction and nothing else changes. -/
def Obligations.GuardsAndReservedFields : Prop :=
  (∀ (k : CoreState) (n : Bool), k.guarded ⟨0#3, n⟩ = !n) ∧
  (∀ (s : State) (i : Instr) (c : CoreId) (p : Nat) (g : Guard), s.Canonical → guardOf i = some (c, g) → legal i = true →
    s.fetches c p 4 = true → (s.core p).guarded g = false →
    ∃ t, exec i s = .next t ∧ Ended s t p fun k => { k with pc := k.pc + 4#32 }) ∧
  ∀ (s : State) (c : CoreId) (p : Nat), s.Canonical → (s.core p).exl = false →
    let enters := fun (i : Instr) => ∃ t, exec i s = .next t ∧ Entered s t p (s.coreProt c p) 0x01 (s.core p).pc 0x01#32
    (∀ (i : Instr) (g : Guard), guardOf i = some (c, g) → legal i = false → s.fetches c p 4 = true → enters i) ∧
    (s.fetches c p 2 = true → enters (.illegalInstruction c) ∧
      ∀ rd ra : RegNum, rd ≠ 0#5 → enters (.br16 c rd ra) ∧ enters (.blr16 c rd ra))

/-- For the word of every instruction command of a core (Tables CPU-3 to CPU-11), every operand at every value its field admits: the word is below 2^15 (16 bits) or has bit 31 set and fits 32 bits; two commands of the same core and the same check-bit operand with the same word are the same command; the word's OP, FN and field values are reserved by R382 exactly where the command holds a reserved field value (the commands that GuardsAndReservedFields sends to the illegal-instruction exception); and the word's bytes in memory, each halfword little-endian with the first at the lower address, spell no other word. -/
def Obligations.CoreWordsAreUnambiguous : Prop :=
  (∀ (i : Instr) (k : CoreCode), coreEncode i = some k →
    (k.word < 2 ^ 15 ∨ 2 ^ 31 ≤ k.word ∧ k.word < 2 ^ 32) ∧ wordReserved k.word = !legal i) ∧
  (∀ (i j : Instr) (k : CoreCode), coreEncode i = some k → coreEncode j = some k → i = j) ∧
  ∀ (i j : Instr) (k l : CoreCode), coreEncode i = some k → coreEncode j = some l → codeBytes k.word = codeBytes l.word →
    k.word = l.word

/-- On a core that fetches the instruction with its guard true and EXL clear, every load and store form at an address not aligned to its size raises vector 6; in open mode one that no region permits raises vector 4 (load) or 5 (store); an aligned, permitted one to an unmapped address raises vector 7; WR is set for stores, EADDR holds the address, EPC the instruction, and no register, base or byte of memory changes. A BR to an odd address raises vector 6 with FETCH set and EPC and EADDR at the target. -/
def Obligations.RefusedAccessesTouchNothing : Prop :=
  ∀ (s : State) (c : CoreId) (p : Nat) (g : Guard) (r ra : RegNum) (ecc : Ecc), s.Canonical → (s.core p).exl = false →
    let k := s.core p
    let prot := s.coreProt c p
    let refused := fun (i : Instr) (a : Word) (n : Nat) (store : Bool) => ∀ vec : Nat,
      ((vec = 6 ∧ a.toNat % n ≠ 0) ∨
        (vec = (if store then 5 else 4) ∧ a.toNat % n = 0 ∧ prot = false ∧ k.permits a.toNat (if store then 1 else 2) = false) ∨
        (vec = 7 ∧ a.toNat % n = 0 ∧ (prot = true ∨ k.permits a.toNat (if store then 1 else 2) = true) ∧
          s.region a.toNat = .unmapped)) →
      ∃ t, exec i s = .next t ∧ Entered s t p prot vec k.pc (BitVec.ofNat 32 (vec + if store then 512 else 0)) ∧
        (t.core p).eaddr = a
    (s.runs c p g = true →
      (∀ imm : BitVec 11,
        let a := k.reg ra + imm.signExtend 32
        refused (.ldb c g r ra imm ecc) a 1 false ∧ refused (.ldbu c g r ra imm ecc) a 1 false ∧
        refused (.ldh c g r ra imm ecc) a 2 false ∧ refused (.ldhu c g r ra imm ecc) a 2 false ∧
        refused (.ldw c g r ra imm ecc) a 4 false ∧ refused (.stb c g r ra imm ecc) a 1 true ∧
        refused (.sth c g r ra imm ecc) a 2 true ∧ refused (.stw c g r ra imm ecc) a 4 true) ∧
      (∀ imm5 : BitVec 5, refused (.ldx c g r ra (.postImm imm5) 4#3 ecc) (k.reg ra) 4 false ∧
        refused (.stx c g r ra (.postImm imm5) 4#3 ecc) (k.reg ra) 4 true) ∧
      ((k.reg ra).toNat % 2 = 1 → ∃ t, exec (.br c g ra) s = .next t ∧
        Entered s t p prot 6 (k.reg ra) 0x406#32 ∧ (t.core p).eaddr = k.reg ra)) ∧
    (s.fetches c p 2 = true → refused (.ldw16 c r ra ecc) (k.reg ra) 4 false ∧ refused (.stw16 c r ra ecc) (k.reg ra) 4 true)

/-- On a core that fetches the instruction with its guard true: WFE stops it after itself while no enabled line routed to it is pending, goes on at once where one is and IE is 0, and enters that line's handler with EPC after the WFE where IE is 1; a core asked to stop by UCTL stops executing there. WFE_WAKE lets a stopped core go on, into the handler if IE is 1. FENCE and FENCEI complete once no store is unanswered, and FENCEI empties the instruction cache. Where the core may access the line, DCCLEAN writes a dirty line to RAM and marks it clean, DCINV drops it, DCFLUSH does both, ICINV drops the instruction line; without a line they only move the pc. -/
def Obligations.WaitsFencesAndCaches : Prop :=
  ∀ (s : State) (c : CoreId) (p : Nat) (g : Guard) (ra : RegNum), s.Canonical →
    let k := s.core p
    let prot := s.coreProt c p
    let next := fun (i : Instr) => ∃ t, exec i s = .next t ∧ Ended s t p fun k => { k with pc := k.pc + 4#32 }
    let line := lineOf (k.reg ra).toNat
    let may := fun (bit : Nat) => prot = true ∨ k.permits (k.reg ra).toNat bit = true
    (s.runs c p g = true → s.stopDue c p = false →
      (s.lineFor c = none → ∃ t, exec (.wfe c g) s = .next t ∧
        Ended s t p fun k => { k with pc := k.pc + 4#32, waiting := true }) ∧
      ((s.lineFor c).isSome = true → k.ie = false → next (.wfe c g)) ∧
      (∀ n, s.lineFor c = some n → k.ie = true → ∃ t, exec (.wfe c g) s = .next t ∧
        Entered s t p prot (0x10 + n) (k.pc + 4#32) (BitVec.ofNat 32 (0x10 + n)))) ∧
    (s.runs c p g = true → s.stopDue c p = true → p < 5 → (s.unit (Hdr.core p)).resetPend = false →
      ∃ t, exec (.wfe c g) s = .next t ∧
        Ended s t p fun k => { k with pc := k.pc + 4#32, waiting := true, running := false }) ∧
    (s.coreKey c = some p → k.waiting = true → ∀ n, s.lineFor c = some n → ∃ t, exec (.wfeWake c) s = .next t ∧
      (t.core p).waiting = false ∧ (∀ r, (t.core p).reg r = k.reg r) ∧ BytesKept s t ∧
      (k.ie = false → (t.core p).pc = k.pc) ∧
      (k.ie = true → (t.core p).pc = k.vbase + BitVec.ofNat 32 (32 * (0x10 + n)) ∧ (t.core p).epc = k.pc ∧
        (t.core p).status = CoreState.mkStatus true false true prot true)) ∧
    (s.runs c p g = true →
      (s.storesOut p = false → next (.fence c g) ∧
        ∃ t, exec (.fencei c g) s = .next t ∧ (t.core p).icache = [] ∧ Ended s t p fun k => { k with pc := k.pc + 4#32 }) ∧
      (s.storesOut p = true → ∃ t, exec (.fence c g) s = .next t ∧ Ended s t p id) ∧
      (∃ t, exec (.icinv c g ra) s = .next t ∧ (t.core p).icache.contains line = false ∧
        Ended s t p fun k => { k with pc := k.pc + 4#32 }) ∧
      (k.lineAt line = none → (may 2 → next (.dcclean c g ra) ∧ next (.dcflush c g ra)) ∧ (may 1 → next (.dcinv c g ra))) ∧
      (∀ (l : CacheLine) (q : Nat), k.lineAt line = some l → l.bytes.length = 32 → s.place line = .ram q →
        let back := fun (t : State) => ∀ b, t.byte b =
          if l.dirty = true ∧ q ≤ b ∧ b < q + 32 then l.bytes.getD (b - q) 0#8 else s.byte b
        let dropped := k.dcache.filter fun x => x.addr != line
        (may 2 → (∃ t, exec (.dcclean c g ra) s = .next t ∧ back t ∧
            Stepped s t p fun k => { k with pc := k.pc + 4#32
                                            dcache := k.dcache.map fun (x : CacheLine) => if x.addr = line then { x with dirty := false } else x }) ∧
          (∃ t, exec (.dcflush c g ra) s = .next t ∧ back t ∧
            Stepped s t p fun k => { k with pc := k.pc + 4#32, dcache := dropped })) ∧
        (may 1 → ∃ t, exec (.dcinv c g ra) s = .next t ∧
          Ended s t p fun k => { k with pc := k.pc + 4#32, dcache := dropped })))

/-- For a ring n of 0-15 and the state after the elapsed time. A doorbell of the ring's owner while running, within the ring's size and not backwards, sets SQPROD and nothing else, but OVERCREDIT and condition 4 where the submitted and uncompleted count first exceeds CREDIT; otherwise it sets DBERR only; before start-up ends it is counted in RNG_EARLY; another agent's is ignored. DESCRIPTOR_FETCH advances SQCONS by one and decides MALFORMED for an opcode the ring has not or TIMED on one that is not schedulable, holds a FENCE behind earlier work, holds a timed NOP or RECORD for its stamp (TEMPO_INVALID without usable tempo), hands other work to its unit, decides NOT_RUN where that is disabled and keeps served work; where the ring may not fetch nothing happens. TIMED_START hands work on at its stamp, LATE beyond the slip, nothing before; FENCE_RELEASE hands it on once no earlier descriptor of the ring is undecided, nothing before. -/
def Obligations.DoorbellsSubmitAndFetchesHandOn : Prop :=
  ∀ (s : State) (t : Elapsed) (n : Nat), s.Canonical → n < 16 →
    let a := s.advance t
    (∀ who prod, prod < 65536 → who.late = false →
      let sub := idxDiff prod (a.rd (R.RNG_SQCONS_CONS n))
      let fits := a.flag (R.RNG_CFG_EN n) = true ∧ sub ≤ 2 ^ a.rd (R.RNG_CFG_LOG2 n) ∧
        idxDiff prod (a.rd (R.RNG_SQPROD_PROD n)) < 32768
      let past := a.rd (R.RNG_CFG_CREDIT n) < sub + a.inFlight n ∧ a.flag (R.RNG_STAT_OVERCREDIT n) = false
      (a.ownsRing who n = false → ∃ u, exec (.doorbell t who n prod) s = .next u ∧ Ignored who a u) ∧
      (a.ownsRing who n = true → a.phase ≠ .running → ∃ u, exec (.doorbell t who n prod) s = .next u ∧
        u.rd R.RNG_EARLY_COUNT = min 65535 (a.rd R.RNG_EARLY_COUNT + 1) ∧ WordsKept [R.RNG_EARLY_COUNT.addr] a u ∧
        Only [.regs] a u) ∧
      (a.ownsRing who n = true → a.phase = .running →
        (¬fits → ∃ u, exec (.doorbell t who n prod) s = .next u ∧ u.flag (R.RNG_STAT_DBERR n) = true ∧
          WordsKept [(R.RNG_STAT_DBERR n).addr] a u ∧ Only [.regs] a u) ∧
        (fits → ∃ u, exec (.doorbell t who n prod) s = .next u ∧ u.rd (R.RNG_SQPROD_PROD n) = prod ∧
          WordsKept [(R.RNG_SQPROD_PROD n).addr, (R.RNG_STAT_DBERR n).addr] a u ∧
          (past → u.flag (R.RNG_STAT_OVERCREDIT n) = true ∧ u.envBroken 4 = true) ∧
          (¬past → u.word (R.RNG_STAT_DBERR n).addr = a.word (R.RNG_STAT_DBERR n).addr ∧ Only [.regs, .trace] a u) ∧
          Only [.regs, .units, .env, .mail, .ev, .trace] a u))) ∧
    (let idx := a.rd (R.RNG_SQCONS_CONS n)
     let at_ := 32 * (a.rd (R.RNG_SQBASE_ADDR n) + idx % 2 ^ a.rd (R.RNG_CFG_LOG2 n))
     let d := fun k => a.num (at_ + 4 * k) 4
     let op := bitsOf (d 0) 24 8
     let behind := a.ring.work.any fun x => x.ring == n && idxBefore x.idx idx
     (a.mayFetch n = false → exec (.descriptorFetch t n) s = .next a) ∧
     (a.mayFetch n = true → a.findWork n idx = none → ∃ u w, exec (.descriptorFetch t n) s = .next u ∧
       u.rd (R.RNG_SQCONS_CONS n) = (idx + 1) % 65536 ∧ WordsKept [(R.RNG_SQCONS_CONS n).addr] a u ∧
       Only [.regs, .units, .ring] a u ∧ w.ring = n ∧ w.idx = idx ∧ w.addr = at_ ∧ w.w = (List.range 8).map d ∧
       (a.isServed n op = false →
         (opInfo n op = none → Decided { a with ring := { a.ring with work := a.ring.work ++ [w] } } u w 0x0B 0) ∧
         (∀ h sched, opInfo n op = some (h, sched) →
           (w.isTimed = true → sched = false →
             Decided { a with ring := { a.ring with work := a.ring.work ++ [w] } } u w 0x0B 0) ∧
           (w.isTimed = false ∨ sched = true → w.isFence = true → behind = true →
             ∃ x, u.findWork n idx = some x ∧ x.stage = .fenced ∧ x.w = w.w ∧ x.unit = h) ∧
           (w.isFence = false ∨ behind = false →
             (w.isTimed = false → (a.enabled h = true ∨ op = 0) →
               ∃ x, u.findWork n idx = some x ∧ x.stage = .accepted ∧ x.w = w.w ∧ x.unit = h ∧ x.gen = a.gen.active) ∧
             (w.isTimed = false → a.enabled h = false → op ≠ 0 →
               Decided { a with ring := { a.ring with work := a.ring.work ++ [w] } } u w 0x02 0) ∧
             (w.isTimed = true → sched = true → a.tempoUsable = false →
               Decided { a with ring := { a.ring with work := a.ring.work ++ [w] } } u w 0x0E 0) ∧
             (w.isTimed = true → sched = true → a.tempoUsable = true → op ≠ 0x20 →
               ∃ x, u.findWork n idx = some x ∧ x.stage = .timed ∧ x.w = w.w ∧
                 x.start = a.expandStamp (d 1) (bitsOf (d 2) 0 16))))) ∧
       (a.isServed n op = true → w.isTimed = false → (w.isFence = false ∨ behind = false) →
         ∃ x, u.findWork n idx = some x ∧ x.stage = .served false))) ∧
    (∀ i w, a.findWork n i = some w → w.stage = .timed →
      (w.start ≤ a.alignedStamp → a.tempoUsable = true →
        (w.slip < a.alignedStamp - w.start → ∃ u, exec (.timedStart t n i) s = .next u ∧ Decided a u w 0x05 0 ∧
          Only [.ring] a u) ∧
        (a.alignedStamp - w.start ≤ w.slip → (a.enabled w.unit = true ∨ w.opcode = 0) →
          ∃ u, exec (.timedStart t n i) s = .next u ∧
            u.findWork n i = some { w with stage := .accepted, at_ := a.clk.edges, gen := a.gen.active } ∧
            u.ring.done = a.ring.done ∧ Only [.ring] a u)) ∧
      (a.alignedStamp < w.start → exec (.timedStart t n i) s = .next a)) ∧
    (∀ i w, a.findWork n i = some w → w.stage = .fenced →
      (a.ring.work.any (fun x => x.ring == n && idxBefore x.idx i) = false → w.isTimed = false →
        a.isServed n w.opcode = false → (a.enabled w.unit = true ∨ w.opcode = 0) →
        ∃ u, exec (.fenceRelease t n i) s = .next u ∧
          u.findWork n i = some { w with stage := .accepted, at_ := a.clk.edges, gen := a.gen.active } ∧
          u.ring.done = a.ring.done ∧ Only [.ring] a u) ∧
      (a.ring.work.any (fun x => x.ring == n && idxBefore x.idx i) = true → exec (.fenceRelease t n i) s = .next a))

/-- For a ring n of 0-15; no activation's restart waits. COMPLETION_WRITE stores the 16 bytes of Table RNG-4 of the next completion (least stamp, then submission order; with ORDER in submission order only) at slot CQPROD in RAM, with PHASE 1 on the first pass, advances CQPROD, stores no other byte, emits the ring's event where CEV or EVENT asks, and ends OVERCREDIT when the count is back at CREDIT; while the completion ring is full or its memory off, or nothing is decided, nothing happens. CQCONS_WRITE by the owner sets CQCONS. RING_ENABLE of a disabled, drained, well placed ring within the credit sum of 256 sets EN, its set-up fields and the four indices to 0; each broken rule leaves the ring disabled and RNG_SETERR names the first of causes 2, 3, 1, 5; a changed set-up of an enabled ring gives cause 4. RING_DISABLE (no ring 5 work) decides work not started NOT_RUN and started work ABANDONED and leaves work past its commit point and other rings alone. Another agent's write is ignored. -/
def Obligations.CompletionsAreWrittenAndRingsStop : Prop :=
  ∀ (s : State) (t : Elapsed) (n : Nat), s.Canonical → n < 16 →
    let a := s.advance t
    let size := 2 ^ a.rd (R.RNG_CFG_LOG2 n)
    let prod := a.rd (R.RNG_CQPROD_PROD n)
    let q := 16 * (a.rd (R.RNG_CQBASE_ADDR n) + prod % size)
    let full := idxDiff prod (a.rd (R.RNG_CQCONS_CONS n)) = size
    let put := fun who v on => if on = true then exec (.ringEnable t who n v) s else exec (.ringDisable t who n v) s
    (a.upd.leaving = none → full ∨ a.memOn (16 * a.rd (R.RNG_CQBASE_ADDR n)) = false ∨ (∀ d ∈ a.ring.done, d.ring ≠ n) →
      exec (.completionWrite t n) s = .next a) ∧
    (∀ d, a.upd.leaving = none → ¬full → a.memOn (16 * a.rd (R.RNG_CQBASE_ADDR n)) = true → a.nextDone n = some d → a.ramBytes q 16 = true →
      (d ∈ a.ring.done ∧ d.ring = n ∧ d.at_ ≤ a.clk.edges ∧
        (a.flag (R.RNG_CFG_ORDER n) = false → ∀ e ∈ a.ring.done, e.ring = n → e.at_ ≤ a.clk.edges →
          d.at_ ≤ e.at_ ∧ (d.at_ = e.at_ → idxBefore e.idx d.idx = false)) ∧
        (a.flag (R.RNG_CFG_ORDER n) = true → (∀ e ∈ a.ring.done, e.ring = n → idxBefore e.idx d.idx = false) ∧
          ∀ w ∈ a.ring.work, w.ring = n → idxBefore w.idx d.idx = false)) ∧
      ∃ u, exec (.completionWrite t n) s = .next u ∧
        BytesPut a u q (leBytes 2 d.tag ++ [BitVec.ofNat 8 d.status,
          BitVec.ofNat 8 ((1 - prod / size % 2) * 128 + d.flags * 16 + n)] ++ leBytes 4 (d.stamp / 65536) ++
          leBytes 2 (d.stamp % 65536) ++ leBytes 2 d.gen ++ leBytes 4 d.result) ∧
        u.rd (R.RNG_CQPROD_PROD n) = (prod + 1) % 65536 ∧ u.ring.work = a.ring.work ∧
        u.ring.done = a.ring.done.filter (fun e => !(e.ring == n && e.idx == d.idx)) ∧
        WordsKept [(R.RNG_CQPROD_PROD n).addr, (R.RNG_STAT_OVERCREDIT n).addr] a u ∧
        (a.flag (R.RNG_STAT_OVERCREDIT n) = false →
          (d.event = true ∨ a.rd (R.RNG_CFG_CEV n) % 2 = 1 ∨ (a.rd (R.RNG_CFG_CEV n) = 2 ∧ d.status ≠ 0) →
            Emitted a u (0x11 + n)) ∧
          (d.event = false → (a.rd (R.RNG_CFG_CEV n) = 0 ∨ (a.rd (R.RNG_CFG_CEV n) = 2 ∧ d.status = 0)) → u.ev = a.ev)) ∧
        (a.flag (R.RNG_STAT_OVERCREDIT n) = true → u.outstanding n ≤ a.rd (R.RNG_CFG_CREDIT n) →
          u.flag (R.RNG_STAT_OVERCREDIT n) = false ∧
          ((∀ k, k < 16 → k ≠ n → a.flag (R.RNG_STAT_OVERCREDIT k) = false) → u.envBroken 4 = false)) ∧
        Only [.regs, .units, .env, .ring, .mail, .ev, .mem, .trace] a u) ∧
    (∀ who cons, cons < 65536 → who.late = false →
      (a.ownsRing who n = true → ∃ u, exec (.cqconsWrite t who n cons) s = .next u ∧ u.rd (R.RNG_CQCONS_CONS n) = cons ∧
        WordsKept [(R.RNG_CQCONS_CONS n).addr] a u ∧ Only [.regs] a u) ∧
      (a.ownsRing who n = false → ∃ u, exec (.cqconsWrite t who n cons) s = .next u ∧ Ignored who a u)) ∧
    (∀ who v, who.late = false → v < 2 ^ 32 →
      let log2 := bitsOf v 4 4
      let credit := bitsOf v 8 7
      let set_ := 3 ≤ log2 ∧ log2 ≤ 12 ∧ 1 ≤ credit ∧ credit ≤ 64 ∧ credit ≤ 2 ^ log2
      let placed := a.ringPlaced (32 * a.rd (R.RNG_SQBASE_ADDR n)) (32 * 2 ^ log2) = true ∧
        a.ringPlaced (16 * a.rd (R.RNG_CQBASE_ADDR n)) (16 * 2 ^ log2) = true
      let ready := a.inFlight n = 0 ∧ a.enabled Hdr.rng = true
      let refused := fun (on : Bool) (cause : Nat) => ∃ u, put who v on = .next u ∧ u.flag (R.RNG_CFG_EN n) = false ∧
        u.rd R.RNG_SETERR_CAUSE = cause ∧ u.rd R.RNG_SETERR_RING = n ∧
        u.rd R.RNG_SETERR_COUNT = min 255 (a.rd R.RNG_SETERR_COUNT + 1) ∧ WordsKept [R.RNG_SETERR_CAUSE.addr] a u ∧
        Only [.regs] a u
      (a.ownsRing who n = false → ∀ on, ∃ u, put who v on = .next u ∧ Ignored who a u) ∧
      (a.ownsRing who n = true → a.flag (R.RNG_CFG_EN n) = false →
        (¬set_ → refused true 2 ∧ refused false 2) ∧
        (set_ → ¬placed → refused true 3) ∧
        (set_ → placed → 256 < a.creditSum + credit → refused true 1) ∧
        (set_ → placed → a.creditSum + credit ≤ 256 → ¬ready → refused true 5) ∧
        (set_ → placed → a.creditSum + credit ≤ 256 → ready → ∃ u, exec (.ringEnable t who n v) s = .next u ∧
          u.flag (R.RNG_CFG_EN n) = true ∧ u.rd (R.RNG_CFG_CREDIT n) = credit ∧ u.rd (R.RNG_CFG_LOG2 n) = log2 ∧
          u.rd (R.RNG_CFG_CEV n) = bitsOf v 2 2 ∧ u.rd (R.RNG_CFG_ORDER n) = bitsOf v 1 1 ∧
          u.rd (R.RNG_SQPROD_PROD n) = 0 ∧ u.rd (R.RNG_SQCONS_CONS n) = 0 ∧ u.rd (R.RNG_CQPROD_PROD n) = 0 ∧
          u.rd (R.RNG_CQCONS_CONS n) = 0 ∧
          WordsKept [(R.RNG_CFG_EN n).addr, (R.RNG_SQPROD_PROD n).addr, (R.RNG_SQCONS_CONS n).addr,
            (R.RNG_CQPROD_PROD n).addr, (R.RNG_CQCONS_CONS n).addr] a u ∧ Only [.regs] a u) ∧
        (set_ → ∃ u, exec (.ringDisable t who n v) s = .next u ∧ u.flag (R.RNG_CFG_EN n) = false ∧
          u.rd (R.RNG_CFG_CREDIT n) = credit ∧ u.rd (R.RNG_CFG_LOG2 n) = log2 ∧
          WordsKept [(R.RNG_CFG_EN n).addr] a u ∧ Only [.regs] a u)) ∧
      (a.ownsRing who n = true → a.flag (R.RNG_CFG_EN n) = true →
        let same := credit = a.rd (R.RNG_CFG_CREDIT n) ∧ log2 = a.rd (R.RNG_CFG_LOG2 n) ∧
          bitsOf v 1 1 = a.rd (R.RNG_CFG_ORDER n)
        (¬same → ∃ u, exec (.ringEnable t who n v) s = .next u ∧ u.flag (R.RNG_CFG_EN n) = true ∧
          u.rd R.RNG_SETERR_CAUSE = 4 ∧ u.rd (R.RNG_CFG_CREDIT n) = a.rd (R.RNG_CFG_CREDIT n) ∧
          u.rd (R.RNG_CFG_LOG2 n) = a.rd (R.RNG_CFG_LOG2 n)) ∧
        (same → n ≠ 5 → ∃ u, exec (.ringDisable t who n v) s = .next u ∧ u.flag (R.RNG_CFG_EN n) = false ∧
          WordsKept [(R.RNG_CFG_EN n).addr] a u ∧
          (∀ w ∈ a.ring.work, w.ring = n →
            (w.stage ∈ [.fenced, .timed, .accepted, .waiting] →
              ∃ d ∈ u.ring.done, d.ring = n ∧ d.idx = w.idx ∧ d.tag = w.tag ∧ d.status = 0x02) ∧
            (w.stage = .started → ∃ d ∈ u.ring.done, d.ring = n ∧ d.idx = w.idx ∧ d.tag = w.tag ∧ d.status = 0x03) ∧
            (w.stage = .committed → (∀ x ∈ a.ring.work, x.ring = n → x.idx = w.idx → x = w) → w ∈ u.ring.work)) ∧
          (∀ w ∈ u.ring.work, w.ring = n → w.stage = .committed ∨ ∃ b, w.stage = .served b) ∧
          (∀ w ∈ a.ring.work, w.ring ≠ n → w ∈ u.ring.work) ∧
          Only [.regs, .gen, .ring, .cap, .tx, .upd] a u)))

/-- For work its unit has accepted, from the state after the elapsed time: NOP is decided DONE with result 0. SET_OWNER in protected mode puts the new owner and P into the target's ownership register and returns the old ones, changing no other register; without it, or for a target held by agent 1 with P, ACCESS; for no target or an owner that may not be named, MALFORMED; for an enabled ring or a channel of an enabled group TARGET_ACTIVE. A copy job with a length field above 24 bits or addresses outside the readable and writable regions is MALFORMED, one of length 0 DONE, any other starts and is due 16 + L/64 steps later (64 + L/4 with a window), rounded up; at that step its bytes are in place (COPY as through a temporary buffer, FILL the repeated pattern, CRC a copy where a destination is given), every other byte is as before, and the result is the length or the CRC-32; a poisoned source ends it MEM_ERROR with no byte written; before it is due nothing happens. -/
def Obligations.GeneralAndCopyWorkCompletes : Prop :=
  ∀ (s : State) (t : Elapsed) (w : Work), s.Canonical →
    let a := s.advance t
    let r := w.ring
    let i := w.idx
    let src := w.word 3
    let dst := w.word 4
    let len := bitsOf (w.word 5) 0 24
    let start := fun (op : Nat) => exec (if op = 0x40 then .copy t r i else if op = 0x41 then .fill t r i else .crc t r i) s
    let from_ := fun (op : Nat) => op ≠ 0x41
    let dest := fun (op : Nat) => op ≠ 0x42 ∨ dst ≠ 0
    (a.workReady r i 0x00 w = true → ∃ u, exec (.nop t r i) s = .next u ∧ Decided a u w 0x00 0 ∧ Only [.ring] a u) ∧
    (r = 0 → a.workReady 0 i 0x04 w = true →
      let owner := bitsOf (w.word 5) 0 8
      let ends := fun (st : Nat) => ∃ u, exec (.setOwner t i) s = .next u ∧ Decided a u w st 0 ∧ Only [.ring] a u
      (w.prot = false → ends 0x0C) ∧
      (w.prot = true → ownerFields (bitsOf (w.word 3) 0 2) dst = none → ends 0x0B) ∧
      (∀ fo fp, w.prot = true → ownerFields (bitsOf (w.word 3) 0 2) dst = some (fo, fp) →
        let firm := a.rd fo % 16 = 1 ∧ a.flag fp = true
        let busy := (bitsOf (w.word 3) 0 2 = 1 ∧ a.flag (R.RNG_CFG_EN dst) = true) ∨
          (bitsOf (w.word 3) 0 2 = 2 ∧ bitOf (a.rd R.EVR_GRP_EN) (dst / 8) = true)
        (firm → ends 0x0C) ∧
        (¬firm → a.ownerNamed owner = false → ends 0x0B) ∧
        (¬firm → a.ownerNamed owner = true → busy → ends 0x22) ∧
        (¬firm → a.ownerNamed owner = true → ¬busy → ∃ u, exec (.setOwner t i) s = .next u ∧
          Decided a u w 0x00 (a.rd fo + 256 * a.rd fp) ∧ u.rd fo = owner ∧ u.rd fp = bitsOf (w.word 5) 8 1 ∧
          WordsKept [fo.addr] a u ∧ Only [.regs, .ring] a u)) ∧
      (owner % 16 = 7 → a.ownerNamed owner = false) ∧ (owner < 16 → owner ≠ 7 → a.ownerNamed owner = true)) ∧
    (∀ op ∈ [0x40, 0x41, 0x42], a.workReady r i op w = true →
      let ends := fun (st res : Nat) => ∃ u, start op = .next u ∧ Decided a u w st res ∧ Only [.ring] a u
      let placed := (from_ op → a.devReadable src len = true) ∧ (dest op → a.devWritable dst len = true)
      let allowed := (from_ op → a.bankAllows w.prot src len = true) ∧ (dest op → a.bankAllows w.prot dst len = true)
      let up := (from_ op → a.rangeOn src len = true) ∧ (dest op → a.rangeOn dst len = true)
      let window := (from_ op ∧ a.inWindow src = true) ∨ (dest op ∧ a.inWindow dst = true)
      (bitsOf (w.word 5) 24 8 ≠ 0 ∨ ¬placed → ends 0x0B 0) ∧
      (bitsOf (w.word 5) 24 8 = 0 → placed → ¬allowed → ends 0x0C 0) ∧
      (bitsOf (w.word 5) 24 8 = 0 → placed → allowed → len = 0 → ends 0x00 0) ∧
      (bitsOf (w.word 5) 24 8 = 0 → placed → allowed → up → len ≠ 0 → a.copyBusy w = false →
        ∃ u, start op = .next u ∧ u.ring.done = a.ring.done ∧ u.findWork r i = some { w with
          stage := .committed
          due := a.clk.edges + if window then 64 + (len + 3) / 4 else 16 + (len + 63) / 64 } ∧
          Only [.ring] a u)) ∧
    (∀ op ∈ [0x40, 0x41, 0x42], a.findWork r i = some w → w.stage = .committed → w.opcode = op →
      let read := fun k => a.byte (a.phys (src + k))
      let data := (List.range len).map fun k => if op = 0x41 then BitVec.ofNat 8 (src / 256 ^ (k % 4)) else read k
      (a.clk.edges < w.due → exec (.copyJobEnd t r i) s = .next a) ∧
      (w.due = a.clk.edges → (from_ op → a.anyPoison (a.phys src) len = false) → (dest op → a.ramBytes dst len = true) →
        ∃ u, exec (.copyJobEnd t r i) s = .next u ∧ Decided a u w 0x00 (if op = 0x42 then crc32 data else len) ∧
          (dest op → BytesPut a u dst data) ∧ (¬dest op → BytesKept a u) ∧ Only [.ring, .mem] a u) ∧
      (w.due = a.clk.edges → from_ op → a.anyPoison (a.phys src) len = true → ∃ u, exec (.copyJobEnd t r i) s = .next u ∧
        Decided a u w 0x32 0 ∧ u.rd R.SRM_ERRS_UNCORR = min 65535 (a.rd R.SRM_ERRS_UNCORR + 1) ∧ BytesKept a u ∧
        WordsKept [R.SRM_ERRS_UNCORR.addr] a u ∧ Only [.regs, .ring] a u) ∧
      (w.due < a.clk.edges → (0x05, Hdr.rng) ∉ a.env.broken2 → ∃ u, exec (.copyJobEnd t r i) s = .next u ∧
        u.envBroken 2 = true ∧ u.findWork r i = none))

/-- From the state after the elapsed time, MBX in service. A send of window a by agent a: with room, appends the notice with its stamp and P; into a full channel, sets REFUSED and LOST and counts; to itself, agent 7 or (outside boot and homeroom) agent 0, sets BADDEST and REFUSED; while BUSY, sets REFUSED; to another member, sets BUSY and issues packet 07 while COH is on; another agent's is ignored. Reading RLO latches the head notice (earliest stamp, then lowest sender) and returns its PTR, 0 from an empty window or for another agent; reading RHI returns bits 63:32 and removes the latched notice, 0 with nothing latched. The answer of a cohort send clears BUSY and sets REFUSED if refused; 8 us without one clears BUSY and sets NOROUTE, before it nothing. SERVED_NOTICE sends tag 0xC000 + 256 n + index to the server once there is room; SERVER_RETURN by the server decides the work with its status and the result word, sets RETERR for other indices; NOTE_BUF waits for a record, MALFORMED outside RAM. -/
def Obligations.NoticesAndServedWork : Prop :=
  ∀ (s : State) (t : Elapsed), s.Canonical →
    let a := s.advance t
    (a.unit Hdr.mbx).lapsed = false →
    (∀ who win v, win < 7 → who.late = false →
      let dest := bitsOf v 16 4
      let local_ := bitsOf v 20 4 = 0 ∨ bitsOf v 20 4 = a.rd R.COH_CFG_INDEX + 1
      let bad := 7 ≤ dest ∨ dest = win ∨ (dest = 0 ∧ a.phase ≠ .homeroom ∧ ∀ n, a.phase = .stage n → 5 < n)
      let marks := fun (u : State) (fs : List Fld) => ∀ f ∈ fs, u.flag f = true
      (who.stamp ≠ win → ∃ u, exec (.mbxSend t who win v) s = .next u ∧ Ignored who a u) ∧
      (who.stamp = win → a.flag (R.MBX_SSTAT_BUSY win) = true → ∃ u, exec (.mbxSend t who win v) s = .next u ∧
        marks u [R.MBX_SSTAT_REFUSED win] ∧ WordsKept [(R.MBX_SSTAT_BUSY win).addr] a u ∧ Only [.regs] a u) ∧
      (who.stamp = win → a.flag (R.MBX_SSTAT_BUSY win) = false →
        (local_ → bad → ∃ u, exec (.mbxSend t who win v) s = .next u ∧
          marks u [R.MBX_SSTAT_REFUSED win, R.MBX_SSTAT_BADDEST win] ∧
          u.rd R.MBX_COUNTS_BADDEST = min 255 (a.rd R.MBX_COUNTS_BADDEST + 1) ∧
          WordsKept [(R.MBX_SSTAT_BUSY win).addr] a u ∧ Only [.regs] a u) ∧
        (local_ → ¬bad → a.channelFill dest win < 4 → ∃ u, exec (.mbxSend t who win v) s = .next u ∧
          u.mail = { a.mail with notices := a.mail.notices ++ [{
            dst := dest, src := win, ptr := a.rd (R.MBX_SPTR_PTR win), tag := bitsOf v 0 16, stamp := who.stamp,
            prot := who.prot, at_ := a.clk.edges }] } ∧
          ((∀ x ∈ a.mail.notices, x.dst ≠ dest) → Emitted a u (0x21 + dest)) ∧
          WordsKept [] a u ∧ Only [.regs, .units, .mail, .ev, .trace] a u) ∧
        (local_ → ¬bad → 4 ≤ a.channelFill dest win → ∃ u, exec (.mbxSend t who win v) s = .next u ∧
          marks u [R.MBX_SSTAT_REFUSED win] ∧ bitOf (u.rd (R.MBX_RLOST_LOST dest)) win = true ∧
          u.rd R.MBX_COUNTS_REFUSED = min 65535 (a.rd R.MBX_COUNTS_REFUSED + 1) ∧ u.mail = a.mail ∧ Only [.regs] a u) ∧
        (¬local_ → ∃ u, exec (.mbxSend t who win v) s = .next u ∧ marks u [R.MBX_SSTAT_BUSY win] ∧
          u.mail.pendingSends = a.mail.pendingSends ++ [(win, bitsOf v 0 16, a.clk.ns)] ∧ u.mail.notices = a.mail.notices ∧
          (a.domOn Dom.coh = true → ∃ p ∈ u.coh.out, p.type = 0x07 ∧ p.dst = bitsOf v 20 4 - 1 ∧
            p.fields = [dest, bitsOf v 0 16, a.rd (R.MBX_SPTR_PTR win), win % 16, b2n who.prot]) ∧
          WordsKept [(R.MBX_SSTAT_BUSY win).addr] a u ∧ Only [.regs, .units, .mail, .coh] a u))) ∧
    (∀ who r, r < 7 →
      let old := a.mail.latched.find? (·.1 == r)
      (who.stamp ≠ r → (∃ u, exec (.mbxLatchRead t who r) s = .next u ∧ u.bus = {} ∧ Only [.bus] a u) ∧
        ∃ u, exec (.mbxRemoveRead t who r) s = .next u ∧ u.bus = {} ∧ Only [.bus] a u) ∧
      (who.stamp = r → (∀ x ∈ a.mail.notices, x.dst ≠ r) → ∃ u, exec (.mbxLatchRead t who r) s = .next u ∧ u.bus = {} ∧
        Only [.mail, .bus] a u) ∧
      (∀ x ∈ a.mail.notices, who.stamp = r → x.dst = r → ∃ u n, exec (.mbxLatchRead t who r) s = .next u ∧
        n ∈ a.mail.notices ∧ n.dst = r ∧ (n.at_ < x.at_ ∨ (n.at_ = x.at_ ∧ n.src ≤ x.src)) ∧
        u.mail.latched.find? (·.1 == r) = some (r, n) ∧ u.mail.notices = a.mail.notices ∧ u.bus.value = n.ptr % 2 ^ 32 ∧
        Only [.mail, .bus] a u) ∧
      (who.stamp = r → old = none → ∃ u, exec (.mbxRemoveRead t who r) s = .next u ∧ u.bus = {} ∧ Only [.bus] a u) ∧
      (∀ n, who.stamp = r → old = some (r, n) → n.src < 16 → ∃ u, exec (.mbxRemoveRead t who r) s = .next u ∧
        u.bus.value = 2 ^ 31 + b2n (bitOf (a.rd (R.MBX_RLOST_LOST r)) n.src) * 2 ^ 25 + b2n n.prot * 2 ^ 24 +
          n.stamp % 256 * 2 ^ 16 + n.tag % 65536 ∧
        u.mail.notices = a.mail.notices.erase n ∧ u.mail.latched.find? (·.1 == r) = none ∧
        bitOf (u.rd (R.MBX_RLOST_LOST r)) n.src = false ∧ Only [.regs, .mail, .bus] a u)) ∧
    (∀ win refused, win < 7 → (∃ x ∈ a.mail.pendingSends, x.1 = win) →
      (∃ u, exec (.cohortSendAnswer t win refused) s = .next u ∧ u.flag (R.MBX_SSTAT_BUSY win) = false ∧
        u.flag (R.MBX_SSTAT_REFUSED win) = (refused || a.flag (R.MBX_SSTAT_REFUSED win)) ∧
        (∀ x ∈ u.mail.pendingSends, x.1 ≠ win) ∧ Only [.regs, .units, .mail] a u) ∧
      ((∀ x ∈ a.mail.pendingSends, x.1 = win → a.clk.ns < x.2.2 + 8000) →
        exec (.cohortSendTimeout t win) s = .next a) ∧
      ((∃ x ∈ a.mail.pendingSends, x.1 = win ∧ x.2.2 + 8000 ≤ a.clk.ns) →
        ∃ u, exec (.cohortSendTimeout t win) s = .next u ∧ u.flag (R.MBX_SSTAT_BUSY win) = false ∧
          u.flag (R.MBX_SSTAT_NOROUTE win) = true ∧ u.rd R.MBX_COUNTS_NOROUTE = min 255 (a.rd R.MBX_COUNTS_NOROUTE + 1) ∧
          (∀ x ∈ u.mail.pendingSends, x.1 ≠ win) ∧ Only [.regs, .mail] a u)) ∧
    (∀ n w, 12 ≤ n → n < 16 → a.findWork n w.idx = some w →
      let server := a.rd (R.RNG_SRV_AGENT n)
      (server < 7 → w.stage = .served false →
        (a.channelFill server (w.owner % 16) < 4 → ∃ u, exec (.servedNotice t n w.idx) s = .next u ∧
          u.mail.notices = a.mail.notices ++ [{ dst := server, src := w.owner % 16, ptr := w.addr, stamp := w.owner,
                                                tag := 0xC000 + n * 256 + w.idx % 256, prot := w.prot, at_ := a.clk.edges }] ∧
          u.findWork n w.idx = some { w with stage := .served true } ∧
          Only [.regs, .units, .ring, .mail, .ev, .trace] a u) ∧
        (4 ≤ a.channelFill server (w.owner % 16) → exec (.servedNotice t n w.idx) s = .next a)) ∧
      (∀ who status, who.late = false → a.flag (R.RNG_SRV_EN n) = true →
        (server = who.stamp → w.stage = .served true → ∃ u, exec (.serverReturn t who n status w.idx) s = .next u ∧
          Decided a u { w with gen := a.gen.active } status (sget (fun _ => 0) a.ring.retRes n) ∧ Only [.ring] a u) ∧
        (server = who.stamp → ∀ i, a.findWork n i = none → ∃ u, exec (.serverReturn t who n status i) s = .next u ∧
          u.flag (R.RNG_STAT_RETERR n) = true ∧ WordsKept [(R.RNG_STAT_RETERR n).addr] a u ∧ Only [.regs] a u) ∧
        (server ≠ who.stamp → ∃ u, exec (.serverReturn t who n status w.idx) s = .next u ∧ Ignored who a u))) ∧
    (∀ w, w.ring ∈ [8, 9, 10] → a.workReady w.ring w.idx 0x30 w = true →
      (a.inRam (w.word 3) 32 = true → a.rangeOn (w.word 3) 32 = true → ∃ u, exec (.noteBuf t w.ring w.idx) s = .next u ∧
        u.findWork w.ring w.idx = some { w with stage := .waiting } ∧ u.ring.done = a.ring.done ∧ Only [.ring] a u) ∧
      (a.inRam (w.word 3) 32 = false ∨ a.rangeOn (w.word 3) 32 = false → ∃ u, exec (.noteBuf t w.ring w.idx) s = .next u ∧
        Decided a u w 0x0B 0 ∧ Only [.ring] a u))

/-- From the state after the elapsed time, for a COMMIT its unit has accepted: on a cohort follower it completes ACCESS, while one is outstanding COMMIT_PENDING, with BOUNDARY 3, CTXCOUNT above 528 or a bad CTXLIST entry MALFORMED, with a boundary that is a stamp and no usable tempo TEMPO_INVALID, past its stamp LATE, each changing nothing else; otherwise it waits, PENDING is ACTIVE plus one skipping 0, and the boundary is none for a plain next frame, the stamp, or the first slot boundary after now. COMMIT_BOUNDARY at the boundary makes the new generation ACTIVE and the old PENDING and exchanges exactly the named tables between the banks; before it nothing. COMMIT_CONTEXT_REWRITE rewrites the first entry of the list, keeping the old image; a deletion leaves zeros, an update takes address and key slot from the image and keeps the greater TXCTR for the same partner and key. CHANGEOVER_END, when the interval is over and no frame of the old generation is open, erases the released key slots, drops old images and bank, and completes the commit; before it nothing. -/
def Obligations.CommitsSwitchTogether : Prop :=
  ∀ (s : State) (t : Elapsed), s.Canonical →
    let a := s.advance t
    (∀ w, w.ring = 0 → a.workReady 0 w.idx 0x03 w = true →
      let kind := bitsOf (w.word 3) 0 2
      let tables := bitsOf (w.word 4) 0 7
      let mixed := 32 ≤ tables ∧ tables % 32 ≠ 0
      let n := bitsOf (w.word 6) 0 10
      let m := bitsOf (w.word 6) 16 10
      let stamp := a.expandStamp (w.word 1) (w.word 2)
      let ends := fun (st : Nat) => ∃ u, exec (.commit t w.idx) s = .next u ∧ Decided a u w st 0 ∧ Only [.ring] a u
      let waits := fun (b : Option Nat) => ∃ u c, exec (.commit t w.idx) s = .next u ∧ u.gen.commit = some c ∧
        c.idx = w.idx ∧ c.boundary = b ∧ c.tables = tables ∧ c.newGen = u.gen.pending ∧ c.switched = false ∧
        c.interval = (if bitsOf (w.word 3) 16 16 = 0 then 256 else bitsOf (w.word 3) 16 16) ∧
        u.gen.active = a.gen.active ∧ u.gen.pending = (if a.gen.active = 65535 then 1 else a.gen.active + 1) ∧
        u.findWork 0 w.idx = some { w with stage := .waiting } ∧ (a.leads = false → Only [.gen, .ring] a u) ∧
        Only [.units, .gen, .ring, .coh] a u
      (a.cohortFollows = true → ends 0x0C) ∧
      (a.cohortFollows = false → a.gen.commit.isSome = true → ends 0x20) ∧
      (a.cohortFollows = false → a.gen.commit = none →
        (kind = 3 ∨ 528 < n → ends 0x0B) ∧
        (∀ i, kind ≠ 3 → n ≤ 528 → m = 0 → i < n →
          a.bufferRefusal w.prot (a.devReadable (w.word 5) (132 * n)) (w.word 5) (132 * n) = none →
          (let v := a.num (w.word 5 + 132 * i) 4
           v / 2 ^ 17 ≠ 0 ∨ bitsOf v 10 5 ≠ 0 ∨ (if bitOf v 15 then 15 else 511) < v % 1024) → ends 0x0B) ∧
        (kind ≠ 3 → n = 0 → m = 0 →
          (kind = 0 → ¬mixed → waits none) ∧
          (kind ≠ 0 ∨ mixed → a.tempoUsable = false → ends 0x0E) ∧
          (kind = 2 → a.tempoUsable = true → 0 < stampDiff a.alignedStamp stamp → ends 0x05) ∧
          (kind = 2 → a.tempoUsable = true → stampDiff a.alignedStamp stamp ≤ 0 →
            waits (some (if mixed then a.slotBoundary stamp else stamp))) ∧
          (kind = 1 ∨ (kind = 0 ∧ mixed) → a.tempoUsable = true → waits (some (a.slotBoundary (a.alignedStamp + 1))))))) ∧
    (a.gen.commit = none → exec (.commitBoundary t) s = .next a ∧ exec (.commitContextRewrite t) s = .next a ∧
      exec (.changeoverEnd t) s = .next a) ∧
    (∀ c, a.gen.commit = some c →
      (c.switched = true ∨ (∃ b, c.boundary = some b ∧ (a.tempoUsable = false ∨ a.reached b = false)) →
        exec (.commitBoundary t) s = .next a) ∧
      (c.switched = false → c.boundary = none ∨ (∃ b, c.boundary = some b ∧ a.tempoUsable = true ∧ a.reached b = true) →
        ∃ u, exec (.commitBoundary t) s = .next u ∧ u.gen.active = c.newGen ∧ u.gen.pending = a.gen.active ∧
          (let pick := fun {β : Type} (k : Nat) (x y : β) => if bitOf c.tables k then y else x
           let x := a.tab.act
           let y := a.tab.ina
           u.tab.act = { chan := pick 0 x.chan y.chan, watch := pick 1 x.watch y.watch, rules := pick 2 x.rules y.rules,
                         ttb := pick 3 x.ttb y.ttb, power := pick 4 x.power y.power, sched := pick 4 x.sched y.sched } ∧
           u.tab.ina = { chan := pick 0 y.chan x.chan, watch := pick 1 y.watch x.watch, rules := pick 2 y.rules x.rules,
                         ttb := pick 3 y.ttb x.ttb, power := pick 4 y.power x.power, sched := pick 4 y.sched x.sched }) ∧
          (∃ k, u.gen.commit = some k ∧ k.switched = true ∧ k.switchedAt = a.clk.edges ∧ k.rewrites = c.rewrites)) ∧
      (∀ k delete img rest, c.switched = true → c.rewrites = (k, delete, img) :: rest → a.rx.held = [] →
        a.softInUse = false → a.inCohort = false → img.length = 128 →
        (∃ u, exec (.commitContextRewrite t) s = .next u ∧ u.gen.commit = some { c with rewrites := rest } ∧
          (delete = true → u.ctxImage k = List.replicate 128 0#8) ∧
          (delete = false → imgNum (a.ctxImage k) 16 4 ≠ 0xFFFFFFFF → imgNum img 16 4 ≠ 0xFFFFFFFF →
            let old := fun off n => imgNum (a.ctxImage k) off n
            let new := fun off n => imgNum img off n
            let now := fun off n => imgNum (u.ctxImage k) off n
            now 0 8 = new 0 8 ∧ now 10 2 = new 10 2 ∧
            now 16 4 = if old 0 8 = new 0 8 ∧ old 10 2 % 1024 = new 10 2 % 1024 then max (old 16 4) (new 16 4) else new 16 4) ∧
          ((∀ p ∈ a.ctx.old, p.1 ≠ k) → u.ctx.old = a.ctx.old ++ [(k, a.ctxImage k)]))) ∧
      (c.switched = true → c.rewrites = [] → a.oldFramesDone = true →
        (a.clk.edges < c.switchedAt + 65536 * c.interval → exec (.changeoverEnd t) s = .next a) ∧
        (c.switchedAt + 65536 * c.interval ≤ a.clk.edges → ∃ u, exec (.changeoverEnd t) s = .next u ∧
          u.gen = { a.gen with pending := a.gen.active, commit := none } ∧ u.ctx.old = [] ∧ u.tab.act = a.tab.act ∧
          u.tab.ina = a.tab.act ∧ (∀ n ∈ c.releases, ∀ p ∈ u.cip.slots, p.1 ≠ n) ∧
          (∀ p ∈ a.cip.slots, p.1 ∉ c.releases → p ∈ u.cip.slots) ∧
          (∀ w, c.fromLead = false → a.findWork 0 c.idx = some w →
            Decided a u w 0x00 (c.newGen + 65536 * min c.mismatches 65535)))) ∧
      (c.switched = false → exec (.commitContextRewrite t) s = .next a ∧ exec (.changeoverEnd t) s = .next a))

/-- While every other domain stands at its target: a request by the owner of PWR (UCTL of a unit page in a domain that is not on: on) is refused whole with cause 3 for BKP, 2 for a missing retention state, 1 for the first domain left outside its dependencies; accepted, it sets the target, and a domain that goes up begins its transition, a bank that goes down switches at once and loses its bytes when off, any other drains its units first. DOMAIN_TRANSITION_END brings the domain on after the time of Table PWR-1 and not before, or off or to retention once its units are settled and not while one holds work within its bound. A taken wake switches SYS on from retention, or begins stage 2 from off. Main loss sets TRIGGERED, does nothing else when nothing is armed or SYS off, and with SYS, DSP and TXA on and nothing queued places the armed frame. Overheating sets UFAULT 7 and switches TXA off once no frame is past its commit point; cooling switches it on again. The charger's constant current ends in constant voltage. -/
def Obligations.DomainsFollowTheirTargets : Prop :=
  ∀ (s : State) (t : Elapsed), s.Canonical →
    let a := s.advance t
    let up := fun (u : State) (n : Nat) => u.dom n = { a.dom n with
      target := 2
      plan := if n = 2 ∨ n = 12 ∧ a.tx.hot = true then (a.dom n).plan else none
      trans := some { dest := 2, startedAt := a.clk.ns } }
    let refused := fun (u : State) (cause n stamp : Nat) => u.rd R.PWR_REFUSE_CAUSE = cause ∧ u.rd R.PWR_REFUSE_DOMAIN = n ∧
      u.rd R.PWR_REFUSE_STAMP = stamp % 256 ∧ u.rd R.PWR_REFUSE_COUNT = min 65535 (a.rd R.PWR_REFUSE_COUNT + 1) ∧
      WordsKept [R.PWR_REFUSE_CAUSE.addr] a u ∧ Only [.regs] a u
    (∀ who n target, a.domOn Dom.sys = true → who.late = false → a.owns who Hdr.pwr = true → (n < 60 ∨ 63 < n) → target < 4 →
      (target = 3 → exec (.domainStateRequest t who n target) s = .next a) ∧
      (target ≠ 3 → n = 0 → ∃ u, exec (.domainStateRequest t who n target) s = .next u ∧ refused u 3 0 who.stamp) ∧
      (target = 1 → n ∈ [1, 9, 10, 12, 14, 15, 16] → ∃ u, exec (.domainStateRequest t who n target) s = .next u ∧
        refused u 2 n who.stamp) ∧
      (target = 0 ∨ target = 2 ∨ (target = 1 ∧ hasRetention n = true) → domNums.contains n = true →
        (∀ m, a.offending [(n, target)] = some m → ∃ u, exec (.domainStateRequest t who n target) s = .next u ∧
          refused u 1 m who.stamp) ∧
        (a.offending [(n, target)] = none → a.othersSettled n = true → (a.dom n).trans = none → n ≠ 2 → a.tx.hot = false →
          ((a.dom n).state < 2 → target = 2 → ∃ u, exec (.domainStateRequest t who n target) s = .next u ∧ up u n ∧
            Only [.doms] a u) ∧
          ((a.dom n).state = 2 → target < 2 → 32 ≤ n → ∃ u, exec (.domainStateRequest t who n target) s = .next u ∧
            (u.dom n).state = target ∧ (u.dom n).target = target ∧ (u.dom n).trans = none ∧
            (target = 0 → ∀ k, k < 0x20000 → u.byte (0x10000000 + 0x20000 * (n - 32) + k) = 0#8) ∧
            (target = 1 → BytesKept a u) ∧ (n ∉ a.env.dark → u.envBroken 5 = true)) ∧
          ((a.dom n).state = 2 → target < 2 → n < 32 → ∃ u, exec (.domainStateRequest t who n target) s = .next u ∧
            (u.dom n).state = 2 ∧ (u.dom n).target = target ∧
            (u.dom n).trans = some { dest := target, startedAt := a.clk.ns, draining := true } ∧
            ∀ h ∈ domUnits n, ∀ i, unitInfo h = some i → i.boundUs ≠ 0 → (u.unit h).draining = true)))) ∧
    (∀ who h v i, a.domOn Dom.sys = true → who.late = false → a.owns who h = true → unitInfo h = some i → i.dom ≠ 0 →
      a.domOn i.dom = false →
      (∀ m, a.offending [(i.dom, 2)] = some m → ∃ u, exec (.unitPowerOnRequest t who h v) s = .next u ∧ refused u 1 m who.stamp) ∧
      (a.offending [(i.dom, 2)] = none → a.othersSettled i.dom = true → (a.dom i.dom).trans = none → (a.dom i.dom).state < 2 →
        a.tx.hot = false → ∃ u, exec (.unitPowerOnRequest t who h v) s = .next u ∧ up u i.dom ∧ Only [.doms] a u)) ∧
    ((∀ x ∈ [(1, 0, 1000000), (2, 1, 50000), (3, 0, 100000), (7, 1, 20000), (8, 0, 6000000), (8, 1, 10000), (9, 0, 100000),
        (10, 0, 100000), (11, 0, 2000000), (11, 1, 20000), (12, 0, 50000), (13, 0, 100000), (13, 1, 20000), (14, 0, 1000000),
        (15, 0, 1000000), (16, 0, 100000), (32, 0, 10000), (63, 1, 10000)], upNs x.1 x.2.1 = x.2.2) ∧
      ∀ n, domNums.contains n = true →
        ((a.dom n).trans = none → exec (.domainTransitionEnd t n) s = .next a) ∧
        (∀ tr, (a.dom n).trans = some tr →
          (tr.draining = false → a.clk.ns < tr.startedAt + upNs n (a.dom n).state → exec (.domainTransitionEnd t n) s = .next a) ∧
          (tr.draining = false → tr.startedAt + upNs n (a.dom n).state ≤ a.clk.ns → (a.dom n).target = 2 → n ≠ 2 →
            a.othersSettled n = true → ∃ u, exec (.domainTransitionEnd t n) s = .next u ∧ u.domOn n = true ∧
              (u.dom n).trans = none ∧ (32 ≤ n → a.env.dark = [n] → u.envBroken 5 = false)) ∧
          (tr.draining = true → (∃ h ∈ domUnits n, a.unsettled h = true ∧ (a.unit h).lapsed = false ∧ a.drainOver h = false) →
            exec (.domainTransitionEnd t n) s = .next a) ∧
          (tr.draining = true → (∀ h ∈ domUnits n, a.unsettled h = false) → n ≠ 2 → a.othersSettled n = true →
            (a.dom n).target = tr.dest → ∃ u, exec (.domainTransitionEnd t n) s = .next u ∧ (u.dom n).state = tr.dest ∧
              (u.dom n).trans = none))) ∧
    (a.bkp.wake = none → exec (.bkpWake t) s = .next a) ∧
    (a.bkp.wake ≠ none →
      ((a.dom 2).state = 1 → (a.dom 2).trans = none → a.othersSettled 2 = true → ∃ u, exec (.bkpWake t) s = .next u ∧ up u 2 ∧
        Only [.doms] a u) ∧
      ((a.dom 2).state = 0 → a.phase = .off → a.pins.rail = true → a.pins.nrstLow = false → ∃ u, exec (.bkpWake t) s = .next u ∧
        u.phase = .stage 2 ∧ u.pins.nstat = true ∧ u.domOn 2 = true)) ∧
    (∀ vmain,
      ((a.dom 2).state = 0 → exec (.mainLossTrigger t vmain) s = .next a) ∧
      ((a.dom 2).state ≠ 0 → a.ttb.gasp = none → ∃ u, exec (.mainLossTrigger t vmain) s = .next u ∧
        u.flag R.TTB_LGSTAT_TRIGGERED = true ∧ u.pins.vmain = vmain ∧ WordsKept [R.TTB_LGSTAT_TRIGGERED.addr] a u ∧
        Only [.regs, .pins] a u) ∧
      (∀ g, a.ttb.gasp = some g → a.othersSettled 0 = true → (∀ n ∈ [2, 11, 12], a.domOn n = true) → a.tx.hot = false →
        a.tx.list = [] → ∃ u x, exec (.mainLossTrigger t vmain) s = .next u ∧ u.flag R.TTB_LGSTAT_TRIGGERED = true ∧
          u.tx.list = [x] ∧ x.kind = .gasp ∧ x.ctx = g.ctx ∧ x.ctr = g.ctr ∧ x.pay = g.frame ∧ x.placed = true ∧
          u.ttb.lossPending = false)) ∧
    (let cold := ∃ x ∈ a.tx.list, x.isCommitted a.clk.edges = true
     (a.domOn Dom.txa = true → cold → ∃ u, exec (.thermalShutdown t) s = .next u ∧ u.rd (R.UFAULT_CODE Hdr.dev) = 7 ∧
       u.tx = { a.tx with hot := true } ∧ WordsKept [(R.UFAULT_CODE Hdr.dev).addr] a u ∧ Only [.regs, .tx] a u) ∧
     (a.domOn Dom.txa = true → a.tx.list = [] → ∃ u, exec (.thermalShutdown t) s = .next u ∧
       u.rd (R.UFAULT_CODE Hdr.dev) = 7 ∧ u.tx.hot = true ∧ (u.dom Dom.txa).state = 0 ∧
       (u.dom Dom.txa).target = (a.dom Dom.txa).target) ∧
     (a.tx.hot = false → exec (.thermalRecovery t) s = .next a) ∧
     (a.tx.hot = true → a.dom Dom.txa = { state := 0, target := 2 } → a.domOn Dom.sys = true → a.domOn Dom.dsp = true →
       a.othersSettled Dom.txa = true → ∃ u, exec (.thermalRecovery t) s = .next u ∧ u.tx = { a.tx with hot := false } ∧
         up u Dom.txa ∧ Only [.tx, .doms] a u)) ∧
    ((a.flag R.BKP_STATUS_CHGCC = true → ∃ u, exec (.chargeConstantVoltage t) s = .next u ∧
        u.flag R.BKP_STATUS_CHGCC = false ∧ u.flag R.BKP_STATUS_CHGCV = true ∧ WordsKept [R.BKP_STATUS_CHGCC.addr] a u ∧
        Only [.regs] a u) ∧
      (a.flag R.BKP_STATUS_CHGCC = false → exec (.chargeConstantVoltage t) s = .next a))

/-- TOKEN_CLEAR clears the token and nothing else. For a write by the owner of BKP with SYS on and no write landing: the forced cold start (protected mode only, else ignored) puts every BKP register but the status at its reset value, clears calendar, alarms, keeper and satchel, DEV_RESTART, sets COLD and rewrites the token; SET of a real date and time gives the calendar that second with subsecond 0 and sets CALVALID, of an unreal one sets SETERR; ADJ moves a valid calendar by the signed subseconds and leaves an invalid one alone; arming stores date, time and mask with LAST 0, disarming drops the alarm; each sets WBUSY until the write lands, and while it does all are without effect. A latch read returns the subsecond and holds the second. An armed alarm whose second matches, later than LAST, sets FIRED and LAST, emits its event, and disarms when its mask is 0; otherwise nothing. The mains measurement after 2^20 cycles gives the crystal's error in 1/32 ppm within one unit, into PPM with AUTO; before, nothing. -/
def Obligations.BackupKeepsCalendarAndToken : Prop :=
  (secondsOf (2000 * 65536 + 2 * 256 + 29) (23 * 65536 + 59 * 256 + 59) = some ((730485 + 59) * 86400 + 86399) ∧
    secondsOf (1900 * 65536 + 2 * 256 + 29) 0 = none ∧ secondsOf (2024 * 65536 + 13 * 256 + 1) 0 = none ∧
    secondsOf (2024 * 65536 + 4 * 256 + 31) 0 = none ∧ secondsOf (2024 * 65536 + 256 + 1) (60 * 256) = none) ∧
  ∀ (s : State) (t : Elapsed), s.Canonical →
    let a := s.advance t
    let sec := a.calNow / 32768
    (∃ u, exec (.tokenClear t) s = .next u ∧ u.bkp = { a.bkp with token := false } ∧ Only [.bkp] a u) ∧
    (∃ u, exec (.calendarLatch t) s = .next u ∧ u.bkp = { a.bkp with calLatch := sec } ∧
      u.bus = { value := a.calNow % 32768, error := false } ∧ Only [.bkp, .bus] a u) ∧
    (∀ who, who.late = false → (a.owns who Hdr.bkp = false ∨ who.prot = false) → ∃ u, exec (.forcedColdStart t who) s = .next u ∧
      Ignored who a u) ∧
    (∀ who, a.owns who Hdr.bkp = true → who.late = false → a.domOn Dom.sys = true → a.bkp.landing ≠ none →
      exec (.calendarSet t who) s = .next a ∧ (∀ x, exec (.calendarAdjust t who x) s = .next a) ∧
      (∀ n v, exec (.calendarAlarmArm t who n v) s = .next a ∧ exec (.calendarAlarmDisarm t who n v) s = .next a) ∧
      (who.prot = true → exec (.forcedColdStart t who) s = .next a)) ∧
    (∀ who, a.owns who Hdr.bkp = true → who.late = false → a.domOn Dom.sys = true → a.bkp.landing = none →
      let set_ := secondsOf (a.word 0x40002058).toNat (a.word 0x4000205C).toNat
      let landing := fun (u : State) => u.bkp.landing = some (0, 0) ∧ u.flag R.BKP_STATUS_WBUSY = true
      (who.prot = true → ∃ u, exec (.forcedColdStart t who) s = .next u ∧
        (∀ x, inBkp x = true → x ≠ R.BKP_STATUS_COLD.addr → u.word x = resetWord x) ∧
        (∀ x, inBkp x = false → x ≠ 0x40000048 → u.word x = a.word x) ∧ u.word 0x40000048 = 0#32 ∧
        u.flag R.BKP_STATUS_COLD = true ∧ u.flag R.BKP_STATUS_CALVALID = false ∧ u.flag R.BKP_STATUS_KEEPVALID = false ∧
        u.flag R.BKP_STATUS_ONMAIN = a.flag R.BKP_STATUS_ONMAIN ∧ u.flag R.BKP_SYSON_LEVEL = true ∧
        u.bkp = { token := true, calAt := a.bkNow } ∧ Only [.regs, .bkp] a u) ∧
      (set_ = none → ∃ u, exec (.calendarSet t who) s = .next u ∧ u.flag R.BKP_STATUS_SETERR = true ∧ landing u ∧
        u.bkp = { a.bkp with landing := some (0, 0) } ∧ WordsKept [R.BKP_STATUS_SETERR.addr] a u ∧ Only [.regs, .bkp] a u) ∧
      (∀ v, set_ = some v → ∃ u, exec (.calendarSet t who) s = .next u ∧ u.flag R.BKP_STATUS_CALVALID = true ∧
        u.bkp.cal = v * 32768 ∧ u.bkp.calAt = a.bkNow + 1 ∧ landing u ∧
        (a.flag R.BKP_STATUS_CALVALID = false ∨ a.bkp.alarms = [] ∨ v * 32768 ≤ a.calNow →
          u.bkp.alarms = a.bkp.alarms ∧ WordsKept [R.BKP_STATUS_CALVALID.addr] a u ∧ Only [.regs, .bkp] a u)) ∧
      (∀ x, (a.flag R.BKP_STATUS_CALVALID = false → ∃ u, exec (.calendarAdjust t who x) s = .next u ∧
          u.bkp = { a.bkp with landing := some (0, 0) } ∧ landing u ∧ Only [.regs, .bkp] a u) ∧
        (a.flag R.BKP_STATUS_CALVALID = true →
          let new := ((a.calNow : Int) + signed 24 x).toNat
          ∃ u, exec (.calendarAdjust t who x) s = .next u ∧ u.bkp.cal = new ∧ u.bkp.calAt = a.bkNow + 1 ∧ landing u ∧
            (a.bkp.alarms = [] ∨ new ≤ a.calNow → u.bkp.alarms = a.bkp.alarms ∧
              WordsKept [R.BKP_STATUS_WBUSY.addr] a u ∧ Only [.regs, .bkp] a u) ∧
            (∀ al n m, a.bkp.alarms = [al] → al.n = n → n < 4 → a.calNow < new → m * 32768 < new → a.calNow < m * 32768 →
              al.lastInstant (new / 32768 / 86400 - a.calNow / 32768 / 86400 + 2) ((new - 1) / 32768) = some m → al.last < m →
              u.flag (R.BKP_ALM_C_FIRED n) = true ∧ u.flag (R.BKP_ALM_C_SKIPPED n) = true ∧
              u.rd (R.BKP_ALM_8_LAST n) = m % 2 ^ 32))) ∧
      (∀ n v, n < 4 → v < 2 ^ 32 →
        (bitsOf v 8 4 ≠ 0 → ∃ u, exec (.calendarAlarmArm t who n v) s = .next u ∧ landing u ∧
          u.bkp.alarms = a.bkp.alarms.filter (·.n != n) ++ [{
            n := n, date := a.rd (R.BKP_ALM_0_DATE n), time := a.rd (R.BKP_ALM_4_TIME n), mask := bitsOf v 0 6, last := 0 }] ∧
          u.rd (R.BKP_ALM_8_LAST n) = 0 ∧
          WordsKept [R.BKP_STATUS_WBUSY.addr, (R.BKP_ALM_8_LAST n).addr, (R.BKP_ALM_C_FIRED n).addr] a u ∧ Only [.regs, .bkp] a u) ∧
        (bitsOf v 8 4 = 0 → ∃ u, exec (.calendarAlarmDisarm t who n v) s = .next u ∧ landing u ∧
          u.bkp.alarms = a.bkp.alarms.filter (·.n != n) ∧
          WordsKept [R.BKP_STATUS_WBUSY.addr, (R.BKP_ALM_C_FIRED n).addr] a u ∧ Only [.regs, .bkp] a u))) ∧
    ((a.bkp.landing = none → exec (.bkpWriteLanded t) s = .next a) ∧
      ∀ x v, a.bkp.landing = some (x, v) → ∃ u, exec (.bkpWriteLanded t) s = .next u ∧ u.bkp.landing = none ∧
        u.flag R.BKP_STATUS_WBUSY = false ∧ WordsKept [x, R.BKP_STATUS_WBUSY.addr] a u ∧ Only [.regs, .bkp] a u ∧
        (x ∈ [0x40002048, 0x40002058, 0x4000205C, 0x4000206C, 0x40002070, 0x40002074] → ∀ r ∈ fieldsAt x, r.acc = .rw → u.rd ⟨x, r.lsb, r.width⟩ = bitsOf v r.lsb r.width)) ∧
    (∀ n, n < 4 →
      (a.flag R.BKP_STATUS_CALVALID = false ∨ (∀ al ∈ a.bkp.alarms, al.n = n → al.hits sec = false ∨ sec ≤ al.last) →
        exec (.calendarAlarmFire t n) s = .next a) ∧
      (∀ al, a.bkp.alarms.find? (·.n == n) = some al → a.flag R.BKP_STATUS_CALVALID = true → al.hits sec = true → al.last < sec →
        ∃ u, exec (.calendarAlarmFire t n) s = .next u ∧ u.flag (R.BKP_ALM_C_FIRED n) = true ∧
          u.rd (R.BKP_ALM_8_LAST n) = sec % 2 ^ 32 ∧
          (al.mask = 0 → u.bkp.alarms = a.bkp.alarms.filter (·.n != n)) ∧
          (al.mask ≠ 0 → ∀ b ∈ u.bkp.alarms, b.n = n → b.last = sec) ∧
          (a.flag (R.BKP_ALM_C_EVT n) = true → Emitted a u (0x32 + n)) ∧
          (a.flag (R.BKP_ALM_C_SYSSET n) = true → a.flag (R.BKP_ALM_C_SYSCLR n) = false → u.flag R.BKP_SYSON_LEVEL = true) ∧
          (a.flag (R.BKP_ALM_C_SYSSET n) = false → a.flag (R.BKP_ALM_C_SYSCLR n) = true → u.flag R.BKP_SYSON_LEVEL = false) ∧
          Only [.regs, .ev, .bkp, .trace, .free] a u)) ∧
    ((a.bkp.trimAt = none → exec (.trimMeasurementEnd t) s = .next a) ∧
      ∀ b e, a.bkp.trimAt = some (b, e) →
        (a.clk.edges < e + 2 ^ 36 → exec (.trimMeasurementEnd t) s = .next a) ∧
        (e + 2 ^ 36 ≤ a.clk.edges →
          let num : Int := ((a.bkNow - b) * (if a.flag R.TMP_CFG_NOM60 then 60 else 50) : Nat) - (2 ^ 35 : Nat)
          ∃ u, ∃ err : Int, exec (.trimMeasurementEnd t) s = .next u ∧ u.flag R.BKP_TRIMMEAS_VALID = true ∧
            u.rd R.BKP_TRIMMEAS_ERR = unsigned 15 err ∧
            (num.natAbs * 32000000 ≤ 16383 * 2 ^ 35 → (err * 2 ^ 35 - num * 32000000).natAbs < 2 ^ 35) ∧
            (16384 * 2 ^ 35 ≤ num.natAbs * 32000000 → err = if num < 0 then -16384 else 16383) ∧
            (a.flag R.BKP_TRIM_AUTO = true → u.rd R.BKP_TRIM_PPM = unsigned 15 err) ∧
            (a.flag R.BKP_TRIM_AUTO = false → u.rd R.BKP_TRIM_PPM = a.rd R.BKP_TRIM_PPM ∧ u.bkp.cal = a.bkp.cal) ∧
            u.bkp.trimAt = some (a.bkNow, a.clk.edges) ∧ Only [.regs, .bkp] a u))

/-- While MSN senses, a crossing of a quiet LOCKED node (rms from 70 V, 45 to 65 Hz, within 1 ms of the loop) keeps LOCKED and updates VRMS, FREQ, THD and PRESENT; one 1 ms off, or none within 1.5 periods (before that nothing), enters FLYWHEEL with U 32. LOCK_TIMEOUT after 10 s restarts stage 1, before it nothing. TEMPO_CYCLE_START at a new cycle ends condition 2 and in FLYWHEEL adds 65,536 (PPM + 15)/10^7 steps to U. At the limit FLYWHEEL ends in INVALID with VALID and ALIGNED clear; the guard posts record 0x15 once; below either nothing. A due correction up to LIMIT moves aligned tempo by at most RATE and keeps the rest, a greater one jumps into LASTJUMP; none due, nothing. SETCYC on a root decides a correction that confirms the count. A read of LO returns the low word and latches HI. Arming replaces the alarm and fires it at once, SKIPPED, when its stamp is passed; disarming drops it; at its stamp it sets FIRED, emits its event, ends when one-shot and else advances past now; before it nothing, and with SYS off it wakes. -/
def Obligations.TempoFollowsMainsAndBells : Prop :=
  ∀ (s : State) (t : Elapsed), s.Canonical →
    let a := s.advance t
    let st := a.rd R.TMP_STATUS_STATE
    let lim := max 1 (a.rd R.TMP_FLYLIM_CYCLES) * 2 ^ 32
    (∀ rms thd mhz phase, (a.senses = false → exec (.mainsZeroCrossing t rms thd mhz phase) s = .next a) ∧
      (∀ c, a.senses = true → st = 2 → a.tempoUsable = true → a.follows = false → a.tmp.events = [] →
        a.tmp.crossedAt = some c → 15380000 ≤ a.clk.ns - c → a.clk.ns - c ≤ 22220000 → 700 ≤ rms → thd ≤ 80 →
        45000 ≤ mhz → mhz ≤ 65000 →
        a.rd R.MSN_CTL_NOMV * a.rd R.MSN_THR_SAG ≤ 10 * rms → 10 * rms ≤ a.rd R.MSN_CTL_NOMV * a.rd R.MSN_THR_SWELL →
        a.rd R.MSN_CTL_NOMV * a.rd R.MSN_THR_INTR ≤ 10 * rms →
        (phase.natAbs ≤ 1000000 → ∃ u, exec (.mainsZeroCrossing t rms thd mhz phase) s = .next u ∧
          u.rd R.TMP_STATUS_STATE = 2 ∧ u.flag R.MSN_STATUS_PRESENT = true ∧ u.rd R.MSN_VRMS_RMS = min rms 65535 ∧
          u.rd R.MSN_FREQ_MHZ = mhz ∧ u.rd R.MSN_THD_THD = thd ∧ u.tmp.crossedAt = some a.clk.ns ∧
          Only [.regs, .units, .ev, .tmp, .trace] a u) ∧
        (1000000 < phase.natAbs → ∃ u, exec (.mainsZeroCrossing t rms thd mhz phase) s = .next u ∧
          u.rd R.TMP_STATUS_STATE = 3 ∧ u.tempoValid = true ∧ u.rd R.TMP_UNCERT_U = 32))) ∧
    (∀ rms, (a.senses = false ∨ a.tmp.crossedAt = none ∨ (∃ c, a.tmp.crossedAt = some c ∧
          2 * (a.clk.ns - c) * a.rd R.TMP_RATE_RATE < 3 * 2 ^ 24 * 1000000000) → exec (.crossingTimeout t rms) s = .next a) ∧
      (∀ c, a.senses = true → a.tmp.crossedAt = some c →
        3 * 2 ^ 24 * 1000000000 ≤ 2 * (a.clk.ns - c) * a.rd R.TMP_RATE_RATE → st = 2 → a.tempoUsable = true →
        a.tmp.events = [] → ∃ u, exec (.crossingTimeout t rms) s = .next u ∧ u.rd R.TMP_STATUS_STATE = 3 ∧
          u.flag R.MSN_STATUS_PRESENT = false ∧ u.tmp.crossedAt = none ∧ u.rd R.TMP_STATUS_LSTAGE = 0)) ∧
    (let past := a.rd R.TMP_STATUS_LSTAGE ≠ 0 ∧ a.tmp.stageAt + 10000000000 ≤ a.clk.ns
     (¬past → exec (.lockTimeout t) s = .next a) ∧
     (past → ∃ u, exec (.lockTimeout t) s = .next u ∧ u.rd R.TMP_STATUS_LSTAGE = 1 ∧ u.tmp.stageAt = a.clk.ns ∧
       (a.flag R.MSN_STATUS_RANGE = true → Posted a u 8 0x04 R.TMP_COUNTS_NOTELOST) ∧
       (a.flag R.MSN_STATUS_RANGE = false → a.flag R.MSN_STATUS_DISTORT = true → Posted a u 8 0x05 R.TMP_COUNTS_NOTELOST))) ∧
    (let old := a.domOn Dom.msn = false ∨ a.localCycle ≤ a.tmp.lastCycle
     (old → exec (.tempoCycleStart t) s = .next a) ∧
     (¬old → ∃ u, exec (.tempoCycleStart t) s = .next u ∧ u.tmp.lastCycle = a.localCycle ∧ u.env.broken2 = [] ∧
       (st = 3 → a.uncert16 + 2 ^ 32 * (a.rd R.TMP_FLYCFG_PPM + 15) / 10000000 < 2 ^ 48 →
         u.uncert16 = a.uncert16 + 2 ^ 32 * (a.rd R.TMP_FLYCFG_PPM + 15) / 10000000) ∧
       (st ≠ 3 → u.uncert16 = a.uncert16))) ∧
    ((st ≠ 3 ∨ a.uncert16 < lim → exec (.flywheelLimit t) s = .next a) ∧
      (st = 3 → lim ≤ a.uncert16 → ∃ u, exec (.flywheelLimit t) s = .next u ∧ u.rd R.TMP_STATUS_STATE = 4 ∧
        u.tempoValid = false ∧ u.tempoAligned = false ∧ u.rd R.TMP_UNCERT_U = 2 ^ 32 - 1 ∧ u.rd R.TMP_STATUS_LSTAGE = 0 ∧
        (a.tempoValid = true → u.envBroken 1 = true))) ∧
    (let due := st = 3 ∧ a.tmp.guardPassed = false ∧ a.rd R.TMP_GUARD_STEPS * 65536 < a.uncert16
     (¬due → exec (.uncertaintyGuard t) s = .next a) ∧
     (due → ∃ u, exec (.uncertaintyGuard t) s = .next u ∧ u.tmp = { a.tmp with guardPassed := true } ∧
       Posted a u 8 0x15 R.TMP_COUNTS_NOTELOST)) ∧
    (let due := a.tmp.corrections.filter fun c => decide (c.cause + 4 ≤ a.localCycle * 65536)
     let d := due.foldl (fun n c => n + c.dAlign) a.tmp.remAlign16
     let dl := due.foldl (fun n c => n + c.dLocal) a.tmp.remLocal16
     let rate : Int := 16 * max 1 (a.rd R.TMP_SLEW_RATE)
     let part : Int := if d.natAbs ≤ rate.toNat then d else if 0 ≤ d then rate else -rate
     let idle := a.localCycle ≤ a.tmp.slewCycle ∨ (due = [] ∧ d = 0 ∧ dl = 0)
     (idle → exec (.tempoCorrectionApply t) s = .next a) ∧
     (¬idle → d.natAbs ≤ 16 * a.rd R.TMP_SLEW_LIMIT → ∃ u, exec (.tempoCorrectionApply t) s = .next u ∧
       u.tmp.alignBase16 = a.tmp.alignBase16 + part ∧ u.tmp.remAlign16 = d - part) ∧
     (¬idle → 16 * a.rd R.TMP_SLEW_LIMIT < d.natAbs → ∃ u, exec (.tempoCorrectionApply t) s = .next u ∧
       u.tmp.alignBase16 = a.tmp.alignBase16 + d ∧ u.tmp.localBase16 = a.tmp.localBase16 + dl ∧ u.tmp.remAlign16 = 0 ∧
       ((d / 16).natAbs < 2 ^ 31 → u.rd R.TMP_LASTJUMP_D = unsigned 32 (d / 16)))) ∧
    (∀ who hi, a.unitOn Hdr.tmp = true → who.late = false →
      (a.owns who Hdr.tmp = false → ∃ u, exec (.rootCycleSet t who hi) s = .next u ∧ Ignored who a u) ∧
      (a.owns who Hdr.tmp = true → a.flag R.TMP_CFG_ROOT = false → exec (.rootCycleSet t who hi) s = .next a) ∧
      (a.owns who Hdr.tmp = true → a.flag R.TMP_CFG_ROOT = true →
        let v : Int := (a.rd R.TMP_SETCYC_LO_CYC_L + 2 ^ 32 * (hi % 256) : Nat)
        let d := (v - (a.local16 / 16 + 4 + 65535) / 65536) * 1048576
        ∃ u, exec (.rootCycleSet t who hi) s = .next u ∧
          u.tmp = { a.tmp with corrections := a.tmp.corrections ++ [{
            cause := a.local16 / 16, dAlign := d, dLocal := d, confirms := true }] } ∧ Only [.tmp] a u)) ∧
    (∀ al, let v := if al then (if a.tempoAligned then a.alignedStamp else 0) else a.localStamp
      ∃ u, exec (.tempoReadLatch t al) s = .next u ∧ u.bus = { value := v % 2 ^ 32, error := false } ∧
        u.rd (if al then R.TMP_ALIGN_HI_CYCLE_H else R.TMP_LOCAL_HI_CYCLE_H) = v / 2 ^ 32 % 2 ^ 24 ∧
        WordsKept [(if al then R.TMP_ALIGN_HI_CYCLE_H else R.TMP_LOCAL_HI_CYCLE_H).addr] a u ∧ Only [.regs, .bus] a u) ∧
    (∀ n, n < 16 →
      let fires := fun (u : State) (rest : List (Nat × Nat × Nat)) (cmp per : Nat) =>
        u.flag (R.TMP_ALM_C_FIRED n) = true ∧ Emitted a u (0x01 + n) ∧
        (per = 0 → u.tmp.armed = rest ∧ u.flag (R.TMP_ALM_C_EN n) = false) ∧
        (0 < per → u.tmp.armed = rest ++ [(n, (cmp + ((stampDiff a.alignedStamp cmp).toNat / per + 1) * per) % 2 ^ 56, per)])
      let rest := a.tmp.armed.filter (·.1 != n)
      let cmp := a.rd (R.TMP_ALM_0_CMP_L n) + 2 ^ 32 * a.rd (R.TMP_ALM_4_CMP_H n)
      let per := 65536 * a.rd (R.TMP_ALM_8_PER_C n) + a.rd (R.TMP_ALM_8_PER_S n)
      (∀ who v, a.unitOn Hdr.tmp = true → who.late = false → a.owns who Hdr.tmp = true →
        (bitOf v 0 = false → ∃ u, exec (.tempoAlarmDisarm t who n v) s = .next u ∧ u.tmp = { a.tmp with armed := rest } ∧
          u.flag (R.TMP_ALM_C_EN n) = false ∧ WordsKept [(R.TMP_ALM_C_EN n).addr] a u ∧ Only [.regs, .tmp] a u) ∧
        (bitOf v 0 = true → (a.tempoUsable = false ∨ a.reached cmp = false) → ∃ u, exec (.tempoAlarmArm t who n v) s = .next u ∧
          u.tmp = { a.tmp with armed := rest ++ [(n, cmp, per)] } ∧ u.flag (R.TMP_ALM_C_EN n) = true ∧
          WordsKept [(R.TMP_ALM_C_EN n).addr] a u ∧ Only [.regs, .tmp] a u) ∧
        (bitOf v 0 = true → bitOf v 1 = false → a.tempoUsable = true → a.reached cmp = true →
          ∃ u, exec (.tempoAlarmArm t who n v) s = .next u ∧ fires u rest cmp per ∧ u.flag (R.TMP_ALM_C_SKIPPED n) = true)) ∧
      (∀ x y, (a.tmp.armed.find? (·.1 == n) = none ∨
          (a.tmp.armed.find? (·.1 == n) = some (n, x, y) ∧ (a.tempoUsable = false ∨ a.reached x = false)) →
          exec (.tempoAlarmFire t n) s = .next a) ∧
        (a.tmp.armed.find? (·.1 == n) = some (n, x, y) → a.tempoUsable = true → a.reached x = true →
          (a.domOn Dom.sys = true → a.flag (R.TMP_ALM_C_NOTE n) = false → ∃ u, exec (.tempoAlarmFire t n) s = .next u ∧
            fires u rest x y ∧ u.flag (R.TMP_ALM_C_SKIPPED n) = a.flag (R.TMP_ALM_C_SKIPPED n)) ∧
          (a.domOn Dom.sys = false → bitOf (a.rd R.BKP_WAKE_TMPALM) n = true → a.pins.rail = true → a.bkp.wake = none →
            ∃ u, exec (.tempoAlarmFire t n) s = .next u ∧ u.bkp.wake = some (2, n) ∧ u.tmp = a.tmp ∧
              u.rd R.BKP_WAKE_SRC = 2 ∧ u.rd R.BKP_WAKE_INDEX = n))))

/-- From the state after the elapsed time. AGC_ATTACK with RXA off changes nothing; else CLIP follows the clip, CLIPBLK counts it, and unless FIXED is set, or the peak is at or below -HIGH dBFS without a clip, the gain falls by the whole dB that bring the peak 6 dB below the threshold, at least 3; a clip or a peak above -LOW dBFS starts the release interval again. AGC_RELEASE after the release interval raises it by 3 up to 47 and clears CLIP; before it, with FIXED or with RXA off nothing. A calibration request by the owner of CAP adds the named items to the pending set, with FORCE all become forced. A slice starts, blinding the capture, when none runs, CAP accepts and it may: forced in an announced block, else after WAIT cycles or in a quiet slot that covers it and away from transmission; it lasts its item's time and SLICES counts it; else nothing. It ends when due: with the item's last slice DONE, FAIL cleared, or on failure FAIL set, unit fault code 6 and CALFAIL; with the last pending one event 0x2D. A completed flatness item makes the receive record of every VALID channel valid. CALINV clears RXVALID of one record or all. The die temperature is shown, and a move by RECALT degrees clears every RXVALID once. -/
def Obligations.CaptureGainAndCalibration : Prop :=
  ∀ (s : State) (t : Elapsed), s.Canonical →
    let a := s.advance t
    let rxa := a.domOn Dom.rxa
    let g := a.rd R.CAP_STATUS_GAIN
    (∀ peak4 clip, (rxa = false → exec (.agcAttack t peak4 clip) s = .next a) ∧
      (rxa = true →
        let past := peak4 + 4 * (max 1 (min 12 (a.rd R.CAP_AGC_HIGH)) : Nat)
        let held := a.flag R.CAP_CTL_FIXED = true ∨ (clip = false ∧ past ≤ 0)
        ∃ u, exec (.agcAttack t peak4 clip) s = .next u ∧ u.flag R.CAP_STATUS_CLIP = clip ∧
          u.rd R.CAP_COUNTS_CLIPBLK = (if clip then min (2 ^ R.CAP_COUNTS_CLIPBLK.width - 1) (a.rd R.CAP_COUNTS_CLIPBLK + 1)
            else a.rd R.CAP_COUNTS_CLIPBLK) ∧
          (held → u.rd R.CAP_STATUS_GAIN = g ∧ u.cap = { a.cap with gainAt :=
            if clip = true ∨ -(4 * (a.rd R.CAP_AGC_LOW : Int)) < peak4 then a.clk.ns else a.cap.gainAt }) ∧
          (¬held → ∃ n : Nat, u.rd R.CAP_STATUS_GAIN = g - n ∧ 3 ≤ n ∧ past + 24 ≤ 4 * n ∧ (n = 3 ∨ 4 * n < past + 28)) ∧
          WordsKept [R.CAP_STATUS_CLIP.addr, R.CAP_COUNTS_CLIPBLK.addr] a u ∧ Only [.regs, .cap] a u)) ∧
    (let wait := rxa = false ∨ a.flag R.CAP_CTL_FIXED = true ∨ a.clk.ns < a.cap.gainAt + 1000000 * max 1 (a.rd R.CAP_AGC_RELMS)
     (wait → exec (.agcRelease t) s = .next a) ∧
     (¬wait → ∃ u, exec (.agcRelease t) s = .next u ∧ u.flag R.CAP_STATUS_CLIP = false ∧
       u.rd R.CAP_STATUS_GAIN = min 47 (g + 3) ∧ u.cap.gainAt = a.clk.ns ∧
       WordsKept [R.CAP_STATUS_CLIP.addr] a u ∧ Only [.regs, .cap] a u)) ∧
    (∀ who v force, who.late = false →
      let cmd : Instr := if force then .capCalibrationForce t who v else .capCalibrationRequest t who v
      let inv : Instr := .capCalinv t who v
      (a.owns who Hdr.cap = false → (∃ u, exec cmd s = .next u ∧ Ignored who a u) ∧ ∃ u, exec inv s = .next u ∧ Ignored who a u) ∧
      (a.owns who Hdr.cap = true → rxa = false → exec cmd s = .next a ∧ exec inv s = .next a) ∧
      (a.owns who Hdr.cap = true → rxa = true →
        (∃ u, exec cmd s = .next u ∧ u.cap.run = a.cap.run ∧ (∀ i, i < 6 → u.capItem i = (a.capItem i || bitOf v i)) ∧
          (∀ p ∈ u.cap.pend, p ∈ a.cap.pend ∨
            (bitOf v p.1 = true ∧ p.2 = if p.1 = 3 then 2 else if p.1 = 5 then 4 else 1)) ∧
          u.cap.forced = (a.cap.forced || (force && !u.cap.pend.isEmpty)) ∧
          (a.cap.pend = [] → a.cap.run = none → u.cap.readyAt = a.clk.edges) ∧ Only [.cap] a u) ∧
        (swf (fun _ => 0) a.tab.cal = true → ∃ u, exec inv s = .next u ∧
          (∀ i, i < 256 → u.calRec i =
            if bitOf v 31 = true ∨ bitsOf v 0 8 = i then setBitsOf (a.calRec i) 62 1 0 else a.calRec i) ∧ Only [.tab] a u))) ∧
    ((a.cap.pend = [] ∨ a.cap.run ≠ none ∨ a.accepts Hdr.cap = false → exec (.capCalSliceStart t) s = .next a) ∧
      ∀ i n rest, a.cap.pend = (i, n) :: rest → a.cap.run = none → a.accepts Hdr.cap = true →
        let us := if i = 0 then 1000 else if i = 3 then 3000 else if i = 4 then 4000 else if i = 5 then 2500 else 2000
        let w := a.rd R.CAP_CALCTL_WAIT
        let may := if a.cap.forced then ∃ b ∈ a.tx.blocks, b.2.2 = true ∧ b.1 ≤ a.clk.edges
          else (w = 0 ∨ a.cap.readyAt + 65536 * w ≤ a.clk.edges ∨ a.quietCovers (a.usSteps us) = true) ∧ a.txNear = false
        (¬may → exec (.capCalSliceStart t) s = .next a) ∧
        (may → ∃ u, exec (.capCalSliceStart t) s = .next u ∧
          u.cap.run = some { item := i, forced := a.cap.forced, start := a.clk.edges, due := a.clk.edges + a.usSteps us } ∧
          u.cap.pend = (if n ≤ 1 then rest else (i, n - 1) :: rest) ∧ (∀ o ∈ u.ttb.occ, o.blanked = true) ∧
          u.rd R.CAP_COUNTS_SLICES = min (2 ^ R.CAP_COUNTS_SLICES.width - 1) (a.rd R.CAP_COUNTS_SLICES + 1) ∧
          WordsKept [R.CAP_COUNTS_SLICES.addr] a u ∧ Only [.regs, .cap, .ttb] a u)) ∧
    (∀ ok, (a.cap.run = none → exec (.capCalSliceEnd t ok) s = .next a) ∧ ∀ r, a.cap.run = some r → r.item < 6 →
      (a.clk.edges < r.due → exec (.capCalSliceEnd t ok) s = .next a) ∧
      (r.due ≤ a.clk.edges →
        let last := ∀ p ∈ a.cap.pend, p.1 ≠ r.item
        ∃ u, exec (.capCalSliceEnd t ok) s = .next u ∧ u.cap.run = none ∧ u.cap.pend = a.cap.pend ∧
          u.cap.readyAt = a.clk.edges ∧ (¬last → WordsKept [] a u ∧ u.tab = a.tab) ∧
          (last → bitOf (u.rd R.CAP_CALSTAT_DONE) r.item = true) ∧
          (last → ok = false → bitOf (u.rd R.CAP_CALSTAT_FAIL) r.item = true ∧ u.rd (R.UFAULT_CODE Hdr.cap) = 6 ∧
            u.rd R.CAP_COUNTS_CALFAIL = min (2 ^ R.CAP_COUNTS_CALFAIL.width - 1) (a.rd R.CAP_COUNTS_CALFAIL + 1) ∧
            u.tab = a.tab) ∧
          (last → ok = true → u.rd R.CAP_CALSTAT_FAIL = setBitsOf (a.rd R.CAP_CALSTAT_FAIL) r.item 1 0 ∧ (r.item ≠ 5 → u.tab = a.tab) ∧
            (r.item = 5 → u.flag R.CAP_STATUS_RECAL = false ∧ u.cap.flatTemp = a.cap.temp ∧
              (swf (fun _ => 0) a.tab.cal = true → ∀ i, i < 256 → (a.chan a.gen.active i).valid = true →
                bitOf (u.calRec i) 62 = true))) ∧
          (a.cap.pend = [] → u.cap.forced = false ∧ Emitted a u 0x2D) ∧ (a.cap.pend ≠ [] → u.ev = a.ev) ∧
          Only [.regs, .units, .ev, .tab, .cap, .tx, .trace, .free] a u)) ∧
    (∀ c : Int, -128 ≤ c → c < 128 →
      let moved := max 5 (min 60 (a.rd R.CAP_CALCTL_RECALT)) ≤ (c + 128 - a.cap.flatTemp).natAbs ∧ a.flag R.CAP_STATUS_RECAL = false
      ∃ u, exec (.dieTemperatureUpdate t c) s = .next u ∧ u.dieTemp = c ∧ (rxa = false → Only [.cap] a u) ∧
        (rxa = true → u.rd R.CAP_TEMP_TEMP = unsigned 8 c ∧
          (¬moved → u.tab = a.tab ∧ u.flag R.CAP_STATUS_RECAL = a.flag R.CAP_STATUS_RECAL) ∧
          (moved → u.flag R.CAP_STATUS_RECAL = true ∧
            (swf (fun _ => 0) a.tab.cal = true → ∀ i, i < 256 → u.calRec i = setBitsOf (a.calRec i) 62 1 0))) ∧
        WordsKept [R.CAP_TEMP_TEMP.addr, R.CAP_STATUS_RECAL.addr] a u ∧ Only [.regs, .tab, .cap] a u)

/-- From the state after the elapsed time. An accepted RECORD that breaks a rule of Table CAP-6 is MALFORMED, one whose buffer a bank closes ACCESS, one that starts with RXA off CAPTURE_OFF, one more than SLIP steps late LATE; else with no recording in progress and no earlier RECORD outstanding it starts, its stamp aligned, or local without alignment, flagged so, GAP set if CONT was asked; else it waits. RECORD_STOP without a recording is DONE with result 0, with one it asks it to end. With the buffer full RECORD_END decides DONE, when asked to end DONE with STOPPED, otherwise nothing happens; RECORD_OVERFLOW decides OVERFLOW. Then the header and every sample that fits the buffer (or the complete 64-byte lines), shifted, saturated and zero where blanked, stand in memory, no other byte changed, and the result word holds the bytes written and the flags. -/
def Obligations.SpectrumRecordings : Prop :=
  ∀ (s : State) (t : Elapsed) (w : Work), s.Canonical →
    let a := s.advance t
    let buf := w.word 3
    let len := bitsOf (w.word 4) 0 28
    let fmt := bitsOf (w.word 5) 0 2
    let shift := bitsOf (w.word 5) 4 4
    let cont := bitOf (w.word 5) 8
    let nco := (signed 9 (bitsOf (w.word 6) 0 9)).natAbs
    let bps := if fmt = 1 then 3 else 4
    (a.workReady 6 w.idx 0x50 w = true → w.ring = 6 → w.a = 0 →
      let ends := fun st => ∃ u, exec (.record t w.idx) s = .next u ∧ Decided a u w st 0 ∧ Only [.ring] a u
      let bad := buf % 64 ≠ 0 ∨ len % 64 ≠ 0 ∨ len < 64 ∨ a.inRam buf len = false ∨ 8 < shift ∨ (w.isTimed = true ∧ cont = true) ∨
        (fmt = 2 ∧ 93 < nco) ∨ (fmt = 3 ∧ 175 < nco)
      let late := w.isTimed = true ∧ w.slip < a.alignedStamp - w.start
      (bad → ends 0x0B) ∧ (¬bad → a.bankAllows w.prot buf len = false → ends 0x0C) ∧
      (¬bad → a.bankAllows w.prot buf len = true → a.rangeOn buf len = true →
        let free := a.cap.record = none ∧ ∀ x ∈ a.ring.work, x.ring = 6 → x.opcode = 0x50 → idxBefore x.idx w.idx = false
        (¬free → ∃ u, exec (.record t w.idx) s = .next u ∧ u.cap = a.cap ∧ u.ring.done = a.ring.done ∧
          (∃ x, u.findWork 6 w.idx = some x ∧ x.a = 1 ∧ x.w = w.w ∧ x.stage = .accepted) ∧ Only [.ring] a u) ∧
        (free → a.domOn Dom.rxa = false → ends 0x24) ∧
        (free → a.domOn Dom.rxa = true → late → ends 0x05) ∧
        (free → a.domOn Dom.rxa = true → ¬late → ∃ u, exec (.record t w.idx) s = .next u ∧
          u.findWork 6 w.idx = some { w with stage := .committed } ∧ u.ring.done = a.ring.done ∧
          u.cap = { a.cap with stopping := false, record := some {
            idx := w.idx, cont := false, gap := cont, gain := a.rd R.CAP_STATUS_GAIN
            stamp := if a.tempoValid && a.tempoAligned then a.alignedStamp else a.localStamp
            flags := if !a.tempoValid then 4 else if a.tempoAligned then 1 else 0 } } ∧ Only [.cap, .ring] a u))) ∧
    (a.workReady 6 w.idx 0x51 w = true → w.ring = 6 →
      (a.cap.record = none → ∃ u, exec (.recordStop t w.idx) s = .next u ∧ Decided a u w 0x00 0 ∧ Only [.ring] a u) ∧
      (a.cap.record ≠ none → ∃ u, exec (.recordStop t w.idx) s = .next u ∧ u.cap = { a.cap with stopping := true } ∧
        u.findWork 6 w.idx = some { w with stage := .waiting } ∧ u.ring.done = a.ring.done ∧ Only [.cap, .ring] a u)) ∧
    (∀ phase l, (a.cap.record = none → exec (.recordEnd t phase l) s = .next a ∧ exec (.recordOverflow t phase l) s = .next a) ∧
      ∀ r, a.cap.record = some r → a.findWork 6 r.idx = some w → 64 ≤ len → len % 64 = 0 → a.ramBytes buf len = true → shift ≤ 8 →
        (∀ x ∈ a.ring.work, x.ring = 6 → (x.opcode = 0x50 → x.a = 0) ∧ (x.opcode = 0x51 → x.stage ≠ .waiting)) →
        let full := len < 32 + bps * (l.length + 1)
        let b := if fmt = 1 then 12 else 16
        let comp := fun (v : Int) => unsigned b (max (-(2 ^ (b - 1) : Nat)) (min ((2 ^ (b - 1) - 1 : Nat) : Int)
          (v / (2 ^ (shift + if fmt = 1 then 4 else 0) : Nat))))
        let ended := fun (cmd : Instr) (st : Nat) (early : Bool) =>
          ∃ (u : State) (bs : List Byte) (flags : Nat), exec cmd s = .next u ∧ Decided a u w st (bs.length + 2 ^ 28 * flags) ∧
            flags < 16 ∧ bitOf flags 2 = r.gap ∧ bitOf flags 3 = early ∧ BytesPut a u buf bs ∧ u.cap.record = none ∧
            u.cap.stopping = false ∧
            (let room := if early then min len (max 64 ((32 + bps * l.length) / 64 * 64)) else len
             let n := min l.length ((room - 32) / bps)
             bs.length = 32 + bps * n ∧ leNum (bs.take 7) = r.stamp % 2 ^ 56 ∧
             leNum ((bs.drop 7).take 1) = r.flags % 256 ∧ leNum ((bs.drop 8).take 2) = phase % 65536 ∧
             leNum ((bs.drop 10).take 1) = fmt + 16 * shift ∧ leNum ((bs.drop 11).take 1) = r.gain % 256 ∧
             leNum ((bs.drop 16).take 4) = n ∧ leNum ((bs.drop 24).take 4) = ((l.take n).filter (·.blank)).length ∧
             bitOf flags 1 = (l.take n).any (·.blank) ∧ leNum ((bs.drop 28).take 4) = r.gainChg % 2 ^ 32 ∧
             ∀ k p, k < n → l[k]? = some p → leNum ((bs.drop (32 + bps * k)).take bps) =
               if p.blank then 0 else comp p.i + 2 ^ b * comp p.q) ∧ Only [.cap, .mem, .ring] a u
        (full → ended (.recordEnd t phase l) 0x00 false) ∧
        (¬full → a.cap.stopping = true → ended (.recordEnd t phase l) 0x00 true) ∧
        (¬full → a.cap.stopping = false → exec (.recordEnd t phase l) s = .next a) ∧
        ended (.recordOverflow t phase l) 0x23 true)

/-- For accepted work, from the state after the elapsed time. CHAN_WRITE, WATCH_WRITE and TTB_WRITE of a cohort follower end ACCESS, while PENDING differs from ACTIVE BANK_HELD, with a bad count or selection MALFORMED reason 1, with a bad range or alignment reason 2, with a closed bank ACCESS, with a bad entry MALFORMED with the first failing index and its reason, and nothing is written; else the records stand in the inactive bank, every other record of both banks as before, and the result is DONE with COUNT. A VALID channel entry that is new or changes frequency, bandwidth or EXTPA joins the changed entries. The reads store the records of the named bank and no other byte, DONE with COUNT and that bank's generation. CTX_READ stores the context records of COUNT links or groups, MALFORMED outside its bounds. RX_BUF waits for a frame; a buffer not aligned to 32 bytes, below 320 bytes or outside RAM is MALFORMED. -/
def Obligations.TablesAreWrittenAndRead : Prop :=
  ∀ (s : State) (t : Elapsed) (w : Work), s.Canonical →
    let a := s.advance t
    let o := w.word 3
    let addr := w.word 4
    let sel := bitsOf o 0 2
    let ends := fun (cmd : Instr) (st res : Nat) => ∃ u, exec cmd s = .next u ∧ Decided a u w st res ∧ Only [.ring] a u
    let write := fun (cmd : Instr) (op size limit align shift off first count : Nat) (bad : Prop) (reason : Store → Nat → Nat)
        (get : Bank → Store) => a.workReady 0 w.idx op w = true →
      let held := a.gen.pending ≠ a.gen.active
      let far := bad ∨ count = 0 ∨ limit < first + count
      let place := addr % align = 0 ∧ a.devReadable addr (size * count) = true
      let src : Store := Store.setBytes [] 0 ((List.range (size * count)).map fun k => a.byte (addr + k))
      (a.cohortFollows = true → ends cmd 0x0C 0) ∧
      (a.cohortFollows = false → held → ends cmd 0x21 0) ∧
      (a.cohortFollows = false → ¬held → far → ends cmd 0x0B (first + 2 ^ shift)) ∧
      (a.cohortFollows = false → ¬held → ¬far → ¬place → ends cmd 0x0B (first + 2 * 2 ^ shift)) ∧
      (a.cohortFollows = false → ¬held → ¬far → place → a.bankAllows w.prot addr (size * count) = false → ends cmd 0x0C 0) ∧
      (a.cohortFollows = false → ¬held → ¬far → place → a.bankAllows w.prot addr (size * count) = true →
        a.rangeOn addr (size * count) = true → a.ramBytes addr (size * count) = true →
        (∀ j, j < count → reason src j ≠ 0 → (∀ k, k < j → reason src k = 0) → ends cmd 0x0B (first + j + 2 ^ shift * reason src j)) ∧
        ((∀ j, j < count → reason src j = 0) → ∃ u, exec cmd s = .next u ∧ Decided a u w 0x00 count ∧ u.tab.act = a.tab.act ∧
          ((get a.tab.ina).wf = true → ∀ x, (get u.tab.ina).byte x =
            if off + size * first ≤ x ∧ x < off + size * (first + count) then src.byte (x - (off + size * first)) else (get a.tab.ina).byte x) ∧
          (op = 0x10 → ∀ i, first ≤ i → i < first + count → (get a.tab.ina).wf = true →
            let x := chanAt a.tab.ina.chan (16 * i)
            let y := chanAt src (16 * (i - first))
            y.valid = true → (x.valid = false ∨ x.freq ≠ y.freq ∨ x.bw ≠ y.bw ∨ x.extpa ≠ y.extpa) → i ∈ u.tab.changed) ∧
          (op = 0x10 ∨ (u.tx = a.tx ∧ u.tab.changed = a.tab.changed)) ∧ Only [.ring, .tab, .tx] a u))
    let read := fun (cmd : Instr) (op size limit align shift off first count : Nat) (bad : Prop) (inactive : Bool)
        (get : Bank → Store) => a.workReady 0 w.idx op w = true →
      let far := bad ∨ count = 0 ∨ limit < first + count
      let place := addr % align = 0 ∧ a.devWritable addr (size * count) = true
      (far → ends cmd 0x0B (first + 2 ^ shift)) ∧ (¬far → ¬place → ends cmd 0x0B (first + 2 * 2 ^ shift)) ∧
      (¬far → place → a.bankAllows w.prot addr (size * count) = false → ends cmd 0x0C 0) ∧
      (¬far → place → a.bankAllows w.prot addr (size * count) = true → a.rangeOn addr (size * count) = true →
        a.ramBytes addr (size * count) = true → ∃ u, exec cmd s = .next u ∧
          Decided a u { w with gen := if inactive then a.gen.pending else a.gen.active } 0x00 count ∧
          BytesPut a u addr ((get (if inactive then a.tab.ina else a.tab.act)).bytes (off + size * first) (size * count)) ∧
          Only [.ring, .mem] a u)
    let slotBad := sel = 3 ∨ (sel = 0 ∧ (bitsOf o 8 8 ≠ 0 ∨ bitsOf o 16 9 ≠ 1))
    let ttSize := if sel < 2 then 32 else 16
    let ttLimit := if sel = 0 then 1 else if sel = 1 then 256 else 16
    let ttOff := if sel = 1 then 32 else 0
    let ttGet := fun (b : Bank) => if sel < 2 then b.ttb else b.rules
    write (.chanWrite t w.idx) 0x10 16 256 16 8 0 (bitsOf o 0 8) (bitsOf o 8 9) False
      (fun m k => let c := chanAt m (16 * k)
        if c.valid = false then 0 else if c.turns < 4 ∨ 16 < c.turns ∨ c.orders = 0 then 3
        else if c.txen = true ∧ c.inBand = false then 4 else 0) (·.chan) ∧
    write (.watchWrite t w.idx) 0x12 8 512 8 9 0 (bitsOf o 0 9) (bitsOf o 16 10) False
      (fun m k => let e := watchAt m (8 * k)
        if e.valid = true ∧ e.thr ≠ 0 ∧ (e.thr < 24 ∨ 160 < e.thr) then 3 else 0) (·.watch) ∧
    write (.ttbWrite t w.idx) 0x15 ttSize ttLimit 16 8 ttOff (bitsOf o 8 8) (bitsOf o 16 9) slotBad
      (fun m k => if sel = 0 then (if (headerAt32 m 0).valid = true ∧ ((headerAt32 m 0).roundlen = 0 ∨ 65536 < (headerAt32 m 0).roundlen) then 4 else 0)
        else if sel = 1 then (if (slotAt m (32 * k)).valid = true ∧ ((slotAt m (32 * k)).orders = 0 ∨ (slotAt m (32 * k)).mask = 0) then 3 else 0)
        else let r := ruleAt m (16 * k); if r.valid = true ∧ (1000 < r.limit ∨ 1000 < r.ackshare ∨ r.bucket = 0) then 5 else 0) ttGet ∧
    read (.chanRead t w.idx) 0x11 16 256 16 8 0 (bitsOf o 0 8) (bitsOf o 8 9) False (bitOf o 24) (·.chan) ∧
    read (.watchRead t w.idx) 0x13 8 512 8 9 0 (bitsOf o 0 9) (bitsOf o 16 10) False (bitOf o 28) (·.watch) ∧
    read (.ttbRead t w.idx) 0x16 ttSize ttLimit 16 8 ttOff (bitsOf o 8 8) (bitsOf o 16 9) slotBad (bitOf o 28) ttGet ∧
    (a.workReady 0 w.idx 0x14 w = true →
      let first := bitsOf o 0 10
      let group := bitOf o 10
      let count := bitsOf o 16 10
      let bad := count = 0 ∨ (if group then 16 else 512) < first + count ∨ addr % 8 ≠ 0 ∨ a.devWritable addr (128 * count) = false
      (bad → ends (.ctxRead t w.idx) 0x0B 0) ∧
      (¬bad → a.bankAllows w.prot addr (128 * count) = false → ends (.ctxRead t w.idx) 0x0C 0) ∧
      (¬bad → a.bankAllows w.prot addr (128 * count) = true → a.rangeOn addr (128 * count) = true →
        a.ramBytes addr (128 * count) = true → ∃ u, exec (.ctxRead t w.idx) s = .next u ∧ Decided a u w 0x00 count ∧
          BytesPut a u addr ((List.range (128 * count)).map fun k => a.ctx.ctx.byte (128 * (if group then 512 + first else first) + k)) ∧
          Only [.ring, .mem] a u)) ∧
    (a.workReady w.ring w.idx 0x28 w = true →
      let n := bitsOf addr 0 16
      let bad := o % 32 ≠ 0 ∨ n < 320 ∨ a.inRam o n = false
      (bad → ends (.rxBuf t w.ring w.idx) 0x0B 0) ∧
      (¬bad → a.bankAllows w.prot o n = false → ends (.rxBuf t w.ring w.idx) 0x0C 0) ∧
      (¬bad → a.bankAllows w.prot o n = true → a.rangeOn o n = true → ∃ u, exec (.rxBuf t w.ring w.idx) s = .next u ∧
        u.findWork w.ring w.idx = some { w with stage := .waiting } ∧ u.ring.done = a.ring.done ∧ Only [.ring] a u))

/-- From the state after the elapsed time. With the hunter accepting and RXA on, a detection on an active entry (a gated one only while a slot opens its channel), or on a live expectation with priority 4, joins the detections with its entry, priority, timing, offset and local stamp; else nothing. LANE_ASSIGN four steps later (before, nothing), for one detection: within 2 chips and 1 bin of a lane's frame of the same entry it is suppressed and counted in DUPSUP; else it is counted and takes the free in-service lane of lowest number in PREAMBLE; with none free, the pre-emptible lane of lower priority with the lowest priority, latest stamp, highest number, counted in PREEMPT and marked winner; with none, it is dropped and counted under its priority. Every other lane is as before. Of two detections of one step the one of higher priority, and at equal priority of lower entry, takes the lower of two free lanes. -/
def Obligations.DetectionsTakeLanes : Prop :=
  ∀ (s : State) (t : Elapsed), s.Canonical →
    let a := s.advance t
    let now := a.clk.edges
    let hunts := a.accepts Hdr.hnt = true ∧ a.domOn Dom.rxa = true
    (∀ entry chip bin,
      let w := a.watch a.gen.active entry
      let takes := hunts ∧ a.rx.active.contains entry = true ∧ (w.gated = true → a.gateOpens w.chan = true)
      (¬takes → exec (.preambleDetection t false entry chip bin) s = .next a) ∧
      (takes → ∃ u, exec (.preambleDetection t false entry chip bin) s = .next u ∧ u.rx = { a.rx with
        dets := a.rx.dets ++ [{
          entry := entry, tx := none, prio := w.prio, sofChip := chip, bin := bin, stamp := a.localStamp, at_ := now }] } ∧
        Only [.rx] a u)) ∧
    (∀ k chip bin, (a.tx.expects[k]? = none ∨ ¬hunts → exec (.preambleDetection t true k chip bin) s = .next a) ∧
      ∀ e, a.tx.expects[k]? = some e →
        (now < e.from_ ∨ e.till < now → exec (.preambleDetection t true k chip bin) s = .next a) ∧
        (hunts → e.from_ ≤ now → now ≤ e.till → ∃ u, exec (.preambleDetection t true k chip bin) s = .next u ∧
          u.rx = { a.rx with
            dets := a.rx.dets ++ [{
              entry := 0x1FF, tx := some e.tx, prio := 4, sofChip := chip, bin := bin, stamp := a.localStamp, at_ := now }] } ∧
          Only [.rx] a u)) ∧
    ((∀ d ∈ a.rx.dets, now < d.at_ + 4) → exec (.laneAssign t) s = .next a) ∧
    (∀ d, a.rx.dets = [d] → d.at_ + 4 ≤ now →
      let dup := ∃ p ∈ a.rx.lanes, p.2.entry = d.entry ∧ p.2.tx = d.tx ∧ Machine.dist d.sofChip p.2.sofChip ≤ 2 ∧ (d.bin - p.2.bin).natAbs ≤ 1
      (dup → ∃ u, exec (.laneAssign t) s = .next u ∧ u.rx = { a.rx with dets := [] } ∧
        u.rd R.HNT_PREEMPT_DUPSUP = min (2 ^ R.HNT_PREEMPT_DUPSUP.width - 1) (a.rd R.HNT_PREEMPT_DUPSUP + 1) ∧
        WordsKept [R.HNT_PREEMPT_DUPSUP.addr] a u ∧ Only [.regs, .units, .rx] a u) ∧
      (∀ chan gen order anymark mark, ¬dup → a.detTarget d = some (chan, gen, order, anymark, mark) →
        let c := a.chan gen chan
        let rec_ : Bool → LaneRec := fun winner => {
          phase := 1, entry := d.entry, tx := d.tx, prio := d.prio, sofChip := d.sofChip, bin := d.bin, stamp := d.stamp
          at_ := d.at_, winner := winner, chan := chan, freq := c.freq, bw := c.bw, order := order, anymark := anymark
          wmark := mark, gen := gen }
        let counted := fun (u : State) => u.rx.dets = [] ∧
          u.rd R.HNT_DETS_COUNT = min (2 ^ R.HNT_DETS_COUNT.width - 1) (a.rd R.HNT_DETS_COUNT + 1)
        let lost : Fld := if d.prio = 0 then R.HNT_LOSTA_P0 else if d.prio = 1 then R.HNT_LOSTA_P1 else
          if d.prio = 2 then R.HNT_LOSTB_P2 else if d.prio = 3 then R.HNT_LOSTB_P3 else R.HNT_ACK_ACKLOST
        let below := fun (p : Nat × LaneRec) => p ∈ a.rx.lanes ∧ p.2.phase ≤ 3 ∧ p.2.prio < d.prio
        (∀ n, n < 64 → a.laneFree n = true → (∀ m, m < n → a.laneFree m = false) → ∃ u, exec (.laneAssign t) s = .next u ∧
          counted u ∧ u.lane n = some (rec_ false) ∧ (∀ m, m ≠ n → u.lane m = a.lane m) ∧
          WordsKept [R.HNT_DETS_COUNT.addr] a u ∧ Only [.regs, .units, .rx] a u) ∧
        ((∀ n, n < 64 → a.laneFree n = false) →
          (∀ p, below p → (∀ q, below q → p.2.prio < q.2.prio ∨ (p.2.prio = q.2.prio ∧
              (q.2.at_ < p.2.at_ ∨ (q.2.at_ = p.2.at_ ∧ q.1 ≤ p.1)))) → ∃ u, exec (.laneAssign t) s = .next u ∧ counted u ∧
            u.rd R.HNT_PREEMPT_PREEMPT = min (2 ^ R.HNT_PREEMPT_PREEMPT.width - 1) (a.rd R.HNT_PREEMPT_PREEMPT + 1) ∧
            u.lane p.1 = some (rec_ true) ∧ (∀ m, m ≠ p.1 → u.lane m = a.lane m) ∧
            WordsKept [R.HNT_DETS_COUNT.addr, R.HNT_PREEMPT_PREEMPT.addr] a u ∧ Only [.regs, .units, .rx] a u) ∧
          ((∀ p, ¬below p) → ∃ u, exec (.laneAssign t) s = .next u ∧ counted u ∧ u.rx.lanes = a.rx.lanes ∧
            u.rd lost = min (2 ^ lost.width - 1) (a.rd lost + 1) ∧
            WordsKept [R.HNT_DETS_COUNT.addr, lost.addr] a u ∧ Only [.regs, .units, .rx] a u)))) ∧
    (∀ d e n m, (a.rx.dets = [d, e] ∨ a.rx.dets = [e, d]) → d.at_ = e.at_ → d.at_ + 4 ≤ now →
      (e.prio < d.prio ∨ (e.prio = d.prio ∧ d.entry < e.entry)) → d.entry ≠ e.entry → a.rx.lanes = [] →
      a.detTarget d ≠ none → a.detTarget e ≠ none → n < m → m < 64 → a.laneFree n = true → a.laneFree m = true →
      (∀ k, k < m → k ≠ n → a.laneFree k = false) → ∃ u, exec (.laneAssign t) s = .next u ∧
        (u.lane n).map (·.entry) = some d.entry ∧ (u.lane m).map (·.entry) = some e.entry ∧ u.rx.dets = [] ∧
        Only [.regs, .units, .rx] a u)

/-- From the state after the elapsed time, for the frame in a logical lane; a command for a lane in another phase changes nothing. The delimiter moves it from PREAMBLE to SYNC, its absence frees the lane and counts NOSYNC. The sync field frees it when blanked (NOSYNC) or its mark differs without ANYMARK (MARKREJ), else stamps it in aligned tempo, or local when not aligned, and moves it to HEADER with the active generation. An invalid header frees the lane (HDRFAIL); a valid one moves it to PAYLOAD and counts the physical lane's frame. The payload's end moves it to FLUSH; outside a cohort the frame enters the decoders, one job for each block for a first transmission; a lead waits for copies. FLUSH ends with the lane free, FRAMES and ERASED counted. The self-test runs on an idle lane with four others free once its period has passed: success notes the time, failure retires the physical lane and the lowest spare takes its number, or the number goes out of service. -/
def Obligations.LanesFollowTheirFrames : Prop :=
  ∀ (s : State) (t : Elapsed) (n : Nat), s.Canonical →
    let a := s.advance t
    let p := a.physOf .lane n
    let one := fun (u : State) (f : Fld) => u.rd f = min (2 ^ f.width - 1) (a.rd f + 1)
    let others := fun (u : State) => ∀ m, m ≠ n → u.lane m = a.lane m
    let freed := fun (cmd : Instr) (f : Fld) => ∃ u, exec cmd s = .next u ∧ u.lane n = none ∧ others u ∧ one u f ∧
      WordsKept [f.addr] a u ∧ Only [.regs, .units, .rx] a u
    (∀ turns v1 v2 blanked rssi foff des word soft er snr,
      let not := fun (ph : Nat) (cmd : Instr) => (∀ r, a.lane n = some r → r.phase ≠ ph) → exec cmd s = .next a
      not 1 (.laneDelimiterFound t n turns) ∧ not 1 (.laneNoDelimiter t n) ∧ not 2 (.laneSyncDecided t n v1 v2 blanked rssi foff des) ∧
      not 3 (.laneHeaderDecoded t n word) ∧ not 4 (.lanePayloadEnd t n soft er snr) ∧ not 5 (.laneFlushDone t n)) ∧
    (∀ r, a.lane n = some r →
      (r.phase = 1 → freed (.laneNoDelimiter t n) R.HNT_REJ_NOSYNC ∧
        ∀ turns, ∃ u, exec (.laneDelimiterFound t n turns) s = .next u ∧ u.lane n = some { r with phase := 2, turns := turns } ∧
          others u ∧ Only [.units, .rx] a u) ∧
      (r.phase = 2 → ∀ v1 v2 blanked rssi foff des, let cmd : Instr := .laneSyncDecided t n v1 v2 blanked rssi foff des
        (blanked = true → freed cmd R.HNT_REJ_NOSYNC) ∧
        (blanked = false → r.anymark = false → markOf r.order v1 v2 ≠ r.wmark → freed cmd R.HNT_REJ_MARKREJ) ∧
        (blanked = false → (r.anymark = true ∨ markOf r.order v1 v2 = r.wmark) → ∃ u x, exec cmd s = .next u ∧ u.lane n = some x ∧
          x.phase = 3 ∧ x.mark = markOf r.order v1 v2 ∧ x.gen = a.gen.active ∧ x.syncAligned = a.tempoAligned ∧
          x.sync = (if a.tempoAligned then a.alignedStamp else a.localStamp) ∧ x.entry = r.entry ∧ x.tx = r.tx ∧ x.prio = r.prio ∧
          (x.rssi, x.foff, x.desense) = (rssi, foff, des) ∧ others u ∧ Only [.units, .rx] a u)) ∧
      (r.phase = 3 → ∀ word, (headerValid word = false → freed (.laneHeaderDecoded t n word) R.HNT_HDR_HDRFAIL) ∧
        (headerValid word = true → ∃ u, exec (.laneHeaderDecoded t n word) s = .next u ∧
          u.lane n = some { r with phase := 4, hdr := word % 2 ^ 24, done := (96 + r.order - 3) / (r.order - 2) } ∧ others u ∧
          one u (R.LANE_TOTAL_FRAMES p) ∧ WordsKept [(R.LANE_TOTAL_FRAMES p).addr] a u ∧ Only [.regs, .units, .rx] a u)) ∧
      (r.phase = 4 → ∀ soft er snr, ∃ u x, exec (.lanePayloadEnd t n soft er snr) s = .next u ∧ u.lane n = some x ∧ x.phase = 5 ∧
        x.erased = er ∧ x.frame = a.rx.nextId ∧ others u ∧ u.rx.nextId = a.rx.nextId + 1 ∧
        (a.inCohort = false → hdrPset r.hdr = 0 → (∀ g ∈ a.rx.frames, g.id ≠ a.rx.nextId) → ∃ f, u.rx.frames = a.rx.frames ++ [f] ∧ f.id = a.rx.nextId ∧ f.lane = n ∧
          f.hdr = r.hdr ∧ f.chan = r.chan ∧ f.order = r.order ∧ f.mark = r.mark ∧ f.gen = r.gen ∧ f.sync = r.sync ∧ f.tx = r.tx ∧
          f.report.length = 24 ∧ leNum (f.report.take 7) = r.sof % 2 ^ 56 ∧
          u.rx.jobs = a.rx.jobs ++ (List.range (blockLens (hdrLen r.hdr)).length).map fun b => {
            frame := a.rx.nextId, attempt := 0, block := b, ready := a.clk.ns * 3072 / 10000
            deadline := (a.clk.ns + 1000 * max 200 (min 1700 (a.rd R.DEC_DEADLINE_US))) * 3072 / 10000 }) ∧
        (a.inCohort = true → a.rd R.COH_STATUS_STATE = 2 → (∀ g ∈ a.rx.frames, g.waitTill = none) → a.rx.combined = [] →
          ∃ f, u.rx.frames = a.rx.frames ++ [f] ∧ f.waitTill = some (a.clk.ns + 1000 * a.rd R.DEC_CFG_COMBWAIT) ∧
            f.copies.map (·.1) = [a.rd R.COH_CFG_INDEX] ∧ u.rx.jobs = a.rx.jobs)) ∧
      (r.phase = 5 → ∃ u, exec (.laneFlushDone t n) s = .next u ∧ u.lane n = none ∧ others u ∧ one u R.LNS_COUNTS_FRAMES ∧
        (0 < r.erased → one u R.LNS_COUNTS_ERASED) ∧ (r.erased = 0 → u.rd R.LNS_COUNTS_ERASED = a.rd R.LNS_COUNTS_ERASED) ∧
        WordsKept [R.LNS_COUNTS_FRAMES.addr, R.LNS_COUNTS_ERASED.addr] a u ∧ Only [.regs, .units, .rx, .trace] a u)) ∧
    (∀ q ok, q < 72 →
      let free := (List.range 64).filter fun m => a.inService .lane m && (a.lane m).isNone && a.physOf .lane m != q
      let runs := a.rd R.LNS_BIST_PERIOD ≠ 0 ∧ a.domOn Dom.dsp = true ∧ (a.unit (Hdr.lane q)).retired = false ∧
        (∀ m, a.logicalOf .lane q = some m → a.lane m = none) ∧ 4 ≤ free.length ∧
        sget (fun _ => 0) a.rx.tested q + a.rd R.LNS_BIST_PERIOD * 60000000000 ≤ a.clk.ns
      (¬runs → exec (.laneSelfTest t q ok) s = .next a) ∧
      (runs → ok = true → ∃ u, exec (.laneSelfTest t q ok) s = .next u ∧ u.rx.lanes = a.rx.lanes ∧ Only [.rx] a u) ∧
      (runs → ok = false → ∃ u, exec (.laneSelfTest t q ok) s = .next u ∧ one u R.LNS_BIST_FAILS ∧
        (u.unit (Hdr.lane q)).retired = true ∧ u.rd (R.UFAULT_CODE (Hdr.lane q)) = 1 ∧ u.rx.lanes = a.rx.lanes ∧
        (∀ m x l, a.logicalOf .lane q = some m → a.spares .lane = x :: l → u.physOf .lane m = x ∧ u.inService .lane m = true) ∧
        (∀ m, a.logicalOf .lane q = some m → a.spares .lane = [] → u.inService .lane m = false ∧
          u.flag (R.UFAULT_DEGRADED Hdr.lns) = true) ∧ Only [.regs, .units, .env, .mail, .ev, .rx, .trace, .ledger] a u))

/-- From the state after the elapsed time. A ready job takes the open engine with the earliest free time (lowest number on a tie), starts then, and gets the iterations that fit before its deadline, at most ITER_MAX; below ITER_MIN or without an engine it is shed, counted, and a first transmission without soft buffers leaves. Its model end takes 64 cycles and its iterations. DECODE_JOB_END sums the iterations and counts the block or its failure; the frame waits for its other blocks; a failed first transmission without soft buffers, or a payload whose CRC-32 fails, leaves. Before the end nothing happens. A result still missing at the deadline counts LATE, breaks condition 2 and fails. COMBINE_WAIT_END hands the lead's summed copies to the decoders with one job for each block, drops the frame elsewhere, and does nothing before its time. DEC_SBBASE takes an address only while EN is clear, EN only where the area is DRAM, and setting or clearing EN frees every buffer; a buffer not updated for DEC_SBLIFE cycles is freed and counted, others stay. -/
def Obligations.DecoderRunsJobsAndSoftBuffers : Prop :=
  ∀ (s : State) (t : Elapsed), s.Canonical →
    let a := s.advance t
    let now := a.clk.ns * 3072 / 10000
    let iterMin := max 1 (min 24 (a.rd R.DEC_ITER_MIN))
    let iterMax := max 1 (min 24 (a.rd R.DEC_ITER_MAX))
    let one := fun (u : State) (f : Fld) => u.rd f = min (2 ^ f.width - 1) (a.rd f + 1)
    let left := fun (u : State) (j : Job) => u.rx.jobs = [] ∧ u.rx.frames = a.rx.frames.filter (·.id != j.frame)
    (a.rx.jobs = [] → exec (.decodeJobStart t) s = .next a) ∧
    ((∀ j ∈ a.rx.jobs, j.started = true → j.ended = false → now < j.stop) → ∀ late, exec (.decodeJobEnd t late) s = .next a) ∧
    ((∀ j ∈ a.rx.jobs, j.started = true → j.ended = false → now < j.deadline) → exec (.decodeDeadline t) s = .next a) ∧
    (∀ j f, a.rx.jobs = [j] → a.rxFrame j.frame = some f →
      let loses := hdrKind f.hdr = 1 ∨ (hdrPset f.hdr = 0 ∧ a.softInUse = false)
      (j.placed = false → j.started = false → j.ready ≤ now →
        let v := blockOf (hdrLen f.hdr) j.block f.values
        let per := (scheduledRows v.1 f.covRate f.covSets).length * (lifting v.1 + 8)
        let shed := ∃ u, exec (.decodeJobStart t) s = .next u ∧ one u R.DEC_SHED_SHED ∧ left u j ∧
          Only [.regs, .rx, .trace, .free] a u
        ((∀ e, e < 4 → a.engineOpen e = false) → loses → shed) ∧
        (∀ e, e < 4 → a.engineOpen e = true → (∀ x, x < 4 → a.engineOpen x = true →
            a.decFree e ≤ a.decFree x ∧ (x < e → a.decFree e < a.decFree x)) →
          let start := max j.ready (a.decFree e)
          let budget := if j.deadline < start + 64 then 0 else min iterMax ((j.deadline - start - 64) / per)
          (budget < iterMin → loses → shed) ∧
          (iterMin ≤ budget → start ≤ now → ∃ u x, exec (.decodeJobStart t) s = .next u ∧ u.rx = { a.rx with jobs := [x] } ∧
            x.frame = j.frame ∧ x.block = j.block ∧ x.engine = some e ∧ x.start = start ∧ x.budget = budget ∧ x.iters ≤ budget ∧
            x.stop = start + 64 + x.iters * per ∧ x.started = true ∧ x.ended = false ∧ x.shed = false ∧
            x.ok = (decodeBlock v.1 f.covRate f.covSets v.2 budget).ok ∧ Only [.rx] a u))) ∧
      (∀ e, j.engine = some e → j.started = true → j.ended = false → j.stop ≤ now → j.block = 0 →
        let past := fun (c : Fld) => ∃ u, exec (.decodeJobEnd t false) s = .next u ∧
          u.rd R.DEC_ITERSUM_COUNT = min (2 ^ R.DEC_ITERSUM_COUNT.width - 1) (a.rd R.DEC_ITERSUM_COUNT + j.iters) ∧
          one u R.DEC_BLOCKS_COUNT ∧ one u c ∧ left u j
        (j.ok = false → loses → ∃ u, exec (.decodeJobEnd t false) s = .next u ∧ one u R.DEC_FAILS_BLKFAIL ∧
          u.rd R.DEC_ITERSUM_COUNT = min (2 ^ R.DEC_ITERSUM_COUNT.width - 1) (a.rd R.DEC_ITERSUM_COUNT + j.iters) ∧ left u j ∧
          WordsKept [R.DEC_FAILS_BLKFAIL.addr, R.DEC_ITERSUM_COUNT.addr] a u ∧ Only [.regs, .units, .rx, .trace, .free] a u) ∧
        (j.ok = true → framePayload (hdrLen f.hdr) [j.bits] = none → loses → past R.DEC_FAILS_CRCFAIL) ∧
        (j.ok = true → framePayload (hdrLen f.hdr) [j.bits] = none → hdrPset f.hdr ≠ 0 → hdrKind f.hdr ≠ 1 → f.cands = [] →
          f.allCands.length ≠ 1 → past R.DEC_IRCNT_AMBIG)) ∧
      (j.started = true → j.ended = false → j.deadline ≤ now → loses → ∃ u, exec (.decodeDeadline t) s = .next u ∧
        one u R.DEC_SHED_LATE ∧ u.envBroken 2 = true ∧ left u j)) ∧
    (∀ j k f e, a.rx.jobs = [j, k] → a.rxFrame j.frame = some f → j.engine = some e → j.started = true → j.ended = false → j.stop ≤ now →
      now < k.stop → k.ended = false → k.frame = j.frame → k.attempt = j.attempt → k.block ≠ j.block →
      ∃ u, exec (.decodeJobEnd t false) s = .next u ∧ u.rx.jobs = [{ j with ended := true }, k] ∧ u.rx.frames = a.rx.frames ∧
        Only [.regs, .units, .rx, .trace] a u) ∧
    ((∀ f ∈ a.rx.frames, ∀ x, f.waitTill = some x → a.clk.ns < x) → exec (.combineWaitEnd t) s = .next a) ∧
    (∀ f x, a.rx.frames = [f] → f.waitTill = some x → x ≤ a.clk.ns →
      let silent := a.inCohort = true ∧ a.rd R.COH_STATUS_STATE ≠ 2
      (silent → ∃ u, exec (.combineWaitEnd t) s = .next u ∧ u.rx = { a.rx with frames := [] } ∧ Only [.rx] a u) ∧
      (¬silent → hdrPset f.hdr = 0 → ∀ m rep v, f.copies.head? = some (m, rep, v) → ∃ u g, exec (.combineWaitEnd t) s = .next u ∧
        u.rx.frames = [g] ∧ g.waitTill = none ∧ g.combined = decide (2 ≤ f.copies.length) ∧ g.hdr = f.hdr ∧
        (f.copies.length = 1 → g.soft = v) ∧
        (∀ m' rep' v', f.copies = [(m, rep, v), (m', rep', v')] →
          g.soft = v.zipWith (fun p q => max (-127) (min 127 (p + q))) v' ∧
          g.member = some (if signed 16 (leNum ((rep.drop 12).take 2)) < signed 16 (leNum ((rep'.drop 12).take 2)) then m' else m)) ∧
        u.rx.combined.head? = some (f.chan, f.order, f.mark, f.hdr, f.sync) ∧
        u.rx.jobs = a.rx.jobs ++ (List.range (blockLens (hdrLen f.hdr)).length).map (fun b => {
          frame := f.id, attempt := 0, block := b, ready := now
          deadline := (f.endNs + 1000 * max 200 (min 1700 (a.rd R.DEC_DEADLINE_US))) * 3072 / 10000 }) ∧ Only [.rx] a u)) ∧
    (∀ b, b < 544 →
      let due := a.softHeld = true ∧ a.sbState b ≠ 0 ∧ max 1 (a.rd R.DEC_SBLIFE_CYCLES) ≤ (a.sbClock + 2 ^ 32 - a.sbNum b 24 4) % 2 ^ 32
      (¬due → exec (.bufferExpiry t b) s = .next a) ∧
      (due → a.ramBytes (a.sbAddr b) 7040 = true → ∃ u, exec (.bufferExpiry t b) s = .next u ∧ one u R.DEC_IRCNT_EXPIRED ∧
        BytesPut a u (a.sbAddr b) [0#8] ∧ (b < 512 → u.ctxNum b 64 2 = b) ∧ (512 ≤ b → u.ctx = a.ctx) ∧
        WordsKept [R.DEC_IRCNT_EXPIRED.addr] a u ∧ Only [.regs, .ctx, .mem] a u)) ∧
    (∀ who v, who.late = false →
      let on_ : Instr := .softBuffersEnable t who v
      let off : Instr := .softBuffersDisable t who v
      let base := 64 * bitsOf v 6 26
      (a.owns who Hdr.dec = false → (∃ u, exec on_ s = .next u ∧ Ignored who a u) ∧ ∃ u, exec off s = .next u ∧ Ignored who a u) ∧
      (a.owns who Hdr.dec = true → a.unitOn Hdr.dec = true →
        (bitOf v 0 = true → a.flag R.DEC_SBBASE_EN = false → ∃ u, exec on_ s = .next u ∧ u.rd R.DEC_SBBASE_ADDR = bitsOf v 6 26 ∧
          u.flag R.DEC_SBBASE_EN = a.rangeIn (fun r => r == .dram) base 3829760 ∧
          (a.rangeIn (fun r => r == .dram) base 3829760 = true → (a.dom Dom.dram).state ≠ 0 → ∀ b, b < 544 → u.sbState b = 0) ∧
          (a.rangeIn (fun r => r == .dram) base 3829760 = false → Only [.regs] a u) ∧
          WordsKept [R.DEC_SBBASE_EN.addr] a u ∧ Only [.regs, .ctx, .mem] a u) ∧
        (bitOf v 0 = false → a.flag R.DEC_SBBASE_EN = true → a.ramBytes (a.sbAddr 0) 3829760 = true → ∃ u, exec off s = .next u ∧
          u.flag R.DEC_SBBASE_EN = false ∧ u.rd R.DEC_SBBASE_ADDR = a.rd R.DEC_SBBASE_ADDR ∧
          (a.softHeld = true → ∀ b, b < 544 → u.sbState b = 0) ∧
          WordsKept [R.DEC_SBBASE_EN.addr] a u ∧ Only [.regs, .ctx, .mem] a u)))

/-- Let the last block of a frame decode alone, outside a cohort and without soft buffers or a commit, with a correct CRC-32, and let h be its link header. Then the frame leaves the decoders, and: a malformed header counts MALF; a frame for another node NOTME; one from an unknown sender that is neither an open join nor a group frame with its long source UNKNOWN; from partner k, whose RXFRESH is clear, a counter below RXCTR, or equal with another MIC (for a group not above GRXCTR), counts REPLAY; an equal counter with the same MIC counts DUP and leaves RXCTR; a MIC that fails counts MICFAIL; with no buffer waiting NOBUF. In each of these but DUP, and with REPLAY and MICFAIL not reported, no context, completion or byte of memory changes. A TYPE 2 frame to the own address that asks for no acknowledgement and whose MIC holds is delivered: the oldest ring-3 buffer holds the record of Table LNK-8 and completes DONE with its length and SRC, RXCTR and RXMIC take the frame's counter and MIC, and RXFRESH is clear. -/
def Obligations.FramesAreAcceptedOnce : Prop :=
  ∀ (s : State) (t : Elapsed) (j : Job) (e : Nat) (f : RxFrame) (pay : List Byte), s.Canonical →
    let a := s.advance t
    let g := a.gen.active
    let h := parseFrame pay
    let mic := leNum h.mic
    let own := h.dest = a.ownShort
    let past := fun (c : Fld) (P : State → Prop) => ∃ u, exec (.decodeJobEnd t false) s = .next u ∧ u.rx.jobs = [] ∧
      u.rx.frames = a.rx.frames.filter (·.id != f.id) ∧ u.rd c = min (2 ^ c.width - 1) (a.rd c + 1) ∧ P u
    let untouched := fun (u : State) => u.ring = a.ring ∧ u.ctx = a.ctx ∧ BytesKept a u
    -- a MIC check extends the ends of the ring-5 operations on its engine (R296)
    let checked := fun (u : State) => u.ring.done = a.ring.done ∧ u.ctx = a.ctx ∧ BytesKept a u ∧
      (u.ring.work.map fun w => { w with due := 0 }) = a.ring.work.map fun w => { w with due := 0 }
    a.rx.jobs = [j] → a.rxFrame j.frame = some f → j.engine = some e → j.started = true → j.ended = false →
    j.stop ≤ a.clk.ns * 3072 / 10000 → j.block = 0 → j.ok = true → framePayload (hdrLen f.hdr) [j.bits] = some pay →
    hdrKind f.hdr = 0 → f.buffer = none → f.gen = g → a.inCohort = false → a.softInUse = false → a.gen.commit = none →
    a.enabled Hdr.lnk = true → (a.unit Hdr.lnk).lapsed = false →
      (h.malformed = true → past R.LNK_DROP_MALF untouched) ∧
      (h.malformed = false → ¬own → h.dest ≠ 0xFFFF → a.groupsBy g h.dest = [] → past R.LNK_DROP_NOTME untouched) ∧
      (h.malformed = false → a.isForMe g h.dest = true → a.senderOf g h = none → (h.type = 2 → h.micsz ≠ 0 ∨ a.flag R.LNK_CFG_JOINOPEN = false) →
        (a.groupsBy g h.dest = [] ∨ h.ls = false ∨ h.type = 1 ∨ h.type = 3) → past R.LNK_DROP_UNKNOWN untouched) ∧
      (∀ k, h.malformed = false → a.isForMe g h.dest = true → a.senderOf g h = some k →
        let rx := a.ctxNum k 20 4
        let fresh := bitOf (a.ctxNum k 12 2) 3 = true
        let end_ := h.ctr = 0xFFFFFFFF
        let replay := (end_ ∧ (fresh ∨ own)) ∨ (¬fresh ∧ own ∧ (h.ctr < rx ∨ (h.ctr = rx ∧ mic ≠ a.ctxNum k 24 16))) ∨
          (¬fresh ∧ ¬own ∧ h.ctr ≤ a.ctxNum k 40 4)
        let dup := ¬fresh ∧ own ∧ ¬end_ ∧ h.ctr = rx ∧ mic = a.ctxNum k 24 16
        let opened := a.openAs g h k (if h.ls then h.long else a.ctxNum k 0 8)
        let ring := if h.dest = 0xFFFE then 4 else 3
        (replay → bitOf (a.rd R.LNK_CFG_RPTREJ) 0 = false → past R.LNK_REJ_REPLAY untouched) ∧
        (dup → past R.LNK_REJ_DUP fun u => u.ctxNum k 20 4 = rx ∧ u.rd R.LNK_RXOK_COUNT = a.rd R.LNK_RXOK_COUNT) ∧
        (¬replay → ¬dup → opened = none → bitOf (a.rd R.LNK_CFG_RPTREJ) 2 = false → past R.LNK_REJ_MICFAIL checked) ∧
        (∀ p, ¬replay → ¬dup → opened = some p → (h.type = 0 ∨ h.type = 2) →
          (a.oldestRxBuf ring = none → past R.LNK_DROP_NOBUF checked) ∧
          (∀ w, h.type = 2 → own → a.shortValid = true → h.dest ≠ 0xFFFE → h.ar = false → a.oldestRxBuf 3 = some w →
            groupDest h.dest = false → a.ramBytes (w.word 3) 512 = true → a.rd R.TTB_STATUS_BELLSRC ≠ 2 → a.ctxNum k 77 1 % 4 = 0 →
            past R.LNK_RXOK_COUNT fun u =>
              let rec_ := f.report ++ leBytes 2 k ++ [BitVec.ofNat 8 (16 * b2n f.combined), 1#8] ++ zeros 4 ++ h.hdr ++ p
              u.ctxNum k 20 4 = h.ctr ∧ u.ctxNum k 24 16 = mic ∧ bitOf (u.ctxNum k 12 2) 3 = false ∧
              (rec_.length < 512 → Decided (a.linkCcm h.micsz h.hdr.length h.body.length h.enc) u { w with gen := g } 0x00 (rec_.length + 65536 * h.src) ∧
                BytesPut a u (w.word 3) rec_))))

/-- From the state after the elapsed time. A request by the owner of SYN adds TPG and PWR, and for STALE or ALL a full slice for every VALID entry that needs it, DONE at once with none; FORCE makes every pending slice forced. FORCED_SLICE_DECISION announces one block, from the end of every committed use, block and running slice, as long as the forced slices; a transmission placed again starts its hop after it; with a block announced or nothing forced it changes nothing. A slice starts, TXA's synthesiser untuned, when none runs, SYN accepts and it may (forced: its block has begun; else WAIT cycles have passed or a quiet slot covers it, and no transmission is near); else nothing. When due it ends: a full calibration puts the measured bits, the die temperature and VALID into its entry's record, PWR its correction (beyond 3 dB it fails), TPG changes TPGAIN of VALID records only; a failure sets FAIL, unit fault code 6 and CALFAIL, and of a full calibration leaves VALID clear; an item whose last slice ends with none failed in its run clears FAIL. CALINV clears VALID of one record or all. The loop parks PARK steps after its last use with nothing begun. -/
def Obligations.SynthesiserCalibrates : Prop :=
  ∀ (s : State) (t : Elapsed), s.Canonical →
    let a := s.advance t
    let now := a.clk.edges
    let len := fun (kind : Nat) => a.usSteps (if kind = 0 then 400 else if kind = 2 then 1000 else 1500)
    let one := fun (u : State) (f : Fld) => u.rd f = min (2 ^ f.width - 1) (a.rd f + 1)
    (∀ who v force, who.late = false →
      let cmd : Instr := if force then .synCalibrationForce t who v else .synCalibrationRequest t who v
      let inv : Instr := .synCalinv t who v
      (a.owns who Hdr.syn = false → (∃ u, exec cmd s = .next u ∧ Ignored who a u) ∧ ∃ u, exec inv s = .next u ∧ Ignored who a u) ∧
      (a.owns who Hdr.syn = true → a.unitOn Hdr.syn = true →
        (∃ u, exec cmd s = .next u ∧ u.tx.run = a.tx.run ∧ u.tx.list = a.tx.list ∧
          (∀ i ∈ [2, 3], bitOf u.synItems i = (bitOf a.synItems i || bitOf v i)) ∧
          (∀ i ∈ [0, 1], bitOf v i = true → bitOf a.synItems i = false →
            let needs := fun e => (a.chan a.gen.active e).valid = true ∧ (i = 1 ∨ a.calValid e = false ∨ a.calStale e = true)
            (∀ e, e < 256 → needs e → ∃ p ∈ u.tx.pend, p.kind = 0 ∧ p.entry = e ∧ bitOf p.items i = true) ∧
            ((∀ e, e < 256 → ¬needs e) → bitOf (u.rd R.SYN_CALSTAT_DONE) i = true)) ∧
          (force = true → ∀ p ∈ u.tx.pend, p.forced = true) ∧ (∀ p ∈ a.tx.pend, ∃ q ∈ u.tx.pend, q.kind = p.kind ∧ q.entry = p.entry) ∧
          WordsKept [R.SYN_CALSTAT_DONE.addr] a u ∧ Only [.regs, .tx] a u) ∧
        (swf (fun _ => 0) a.tab.cal = true → ∃ u, exec inv s = .next u ∧
          (∀ i, i < 256 → u.calRec i =
            if bitOf v 31 = true ∨ bitsOf v 0 8 = i then setBitsOf (a.calRec i) 63 1 0 else a.calRec i) ∧ Only [.tab] a u))) ∧
    (∀ capture,
      let ds := if capture then (if a.cap.forced then a.cap.pend.flatMap fun p => List.replicate p.2 (a.usSteps
          (if p.1 = 0 then 1000 else if p.1 = 3 then 3000 else if p.1 = 4 then 4000 else if p.1 = 5 then 2500 else 2000)) else [])
        else (a.tx.pend.filter (·.forced)).map fun p => len p.kind
      ((ds = [] ∨ ∃ b ∈ a.tx.blocks, b.2.2 = capture) → exec (.forcedSliceDecision t capture) s = .next a) ∧
      (ds ≠ [] → (∀ b ∈ a.tx.blocks, b.2.2 ≠ capture) → ∃ u st, exec (.forcedSliceDecision t capture) s = .next u ∧
        u.tx.blocks = a.tx.blocks ++ [(st, st + ds.sum, capture)] ∧ now ≤ st ∧ (∀ b ∈ a.tx.blocks, b.2.1 ≤ st) ∧
        (∀ x ∈ a.tx.list, x.isCommitted now = true → x.last ≤ st) ∧ (∀ r, a.tx.run = some r → r.due ≤ st) ∧
        (∀ x ∈ u.tx.list, x.stage = .queued → x.placed = true → st + ds.sum ≤ x.hop) ∧
        (a.tx.list = [] → u.tx = { a.tx with blocks := a.tx.blocks ++ [(st, st + ds.sum, capture)] } ∧ Only [.tx] a u))) ∧
    (a.tx.pend = [] ∨ a.tx.run ≠ none ∨ a.accepts Hdr.syn = false → exec (.synCalSliceStart t) s = .next a) ∧
    (∀ p rest, (if a.tx.pend.any (·.forced) then a.tx.pend.find? (·.forced) = some p ∧ rest = a.tx.pend.erase p
        else a.tx.pend = p :: rest) → a.tx.run = none → a.accepts Hdr.syn = true →
      let w := a.rd R.SYN_CALCTL_WAIT
      let may := if p.forced then ∃ b ∈ a.tx.blocks, b.2.2 = false ∧ b.1 ≤ now
        else (w = 0 ∨ max p.since a.tx.sliceAt + 65536 * w ≤ now ∨ a.quietCovers (len p.kind) = true) ∧ a.txNear = false
      (¬may → exec (.synCalSliceStart t) s = .next a) ∧
      (may → ∃ u, exec (.synCalSliceStart t) s = .next u ∧ (p.kind ≠ 3 → u.ttb = a.ttb) ∧
        (p.kind = 3 → ∀ o ∈ u.ttb.occ, o.blanked = true) ∧ u.tx = { a.tx with
        pend := rest, tuned := false
        run := some { item := p.items, kind := p.kind, entry := p.entry, next := p.next, forced := p.forced, start := now, due := now + len p.kind } } ∧
        Only [.tx, .ttb] a u)) ∧
    (∀ ok meas, (a.tx.run = none → exec (.synCalSliceEnd t ok meas) s = .next a) ∧
      ∀ r, a.tx.run = some r → (now < r.due → exec (.synCalSliceEnd t ok meas) s = .next a) ∧
      (r.due ≤ now → r.item < 16 →
        let good := ok = true ∧ (r.kind = 3 → (signed 16 meas).natAbs ≤ 30)
        ∃ u, exec (.synCalSliceEnd t ok meas) s = .next u ∧ u.tx.run = none ∧ u.tx.pend = a.tx.pend ∧ u.tx.list = a.tx.list ∧
          (∀ i, i < 4 → bitOf r.item i = true → (∀ p ∈ a.tx.pend, bitOf p.items i = false) → bitOf (u.rd R.SYN_CALSTAT_DONE) i = true) ∧
          (¬good → one u R.SYN_COUNTS_CALFAIL ∧ u.rd (R.UFAULT_CODE Hdr.syn) = 6 ∧
            (r.kind ≠ 0 ∨ r.next = true → u.tab = a.tab) ∧
            (r.kind = 0 → r.next = false → swf (fun _ => 0) a.tab.cal = true → ∀ i,
              u.calRec i = if i = r.entry then setBitsOf (a.calRec i) 63 1 0 else a.calRec i) ∧
            ∀ i, i < 4 → bitOf (if r.item = 0 then 1 else r.item) i = true → bitOf (u.rd R.SYN_CALSTAT_FAIL) i = true) ∧
          (good → u.rd R.SYN_COUNTS_CALFAIL = a.rd R.SYN_COUNTS_CALFAIL ∧ ∀ i, i < 4 → bitOf (u.rd R.SYN_CALSTAT_FAIL) i =
            if bitOf r.item i = true ∧ bitOf a.tx.sliceFail i = false ∧ (∀ p ∈ a.tx.pend, bitOf p.items i = false) then false
            else bitOf (a.rd R.SYN_CALSTAT_FAIL) i) ∧
          (good → r.kind = 0 → r.next = false → swf (fun _ => 0) a.tab.cal = true → ∀ i,
            let y := u.calRec i
            let x := a.calRec i
            (i ≠ r.entry → y = x) ∧ (i = r.entry → bitsOf y 0 22 = bitsOf x 0 22 ∧ bitsOf y 22 32 = bitsOf meas 22 32 ∧
              bitsOf y 54 8 = unsigned 8 a.dieTemp ∧ bitOf y 62 = bitOf x 62 ∧ bitOf y 63 = true)) ∧
          (good → r.kind = 3 → u.flag R.SYN_PWRCHK_VALID = true ∧ u.rd R.SYN_PWRCHK_TEMP = unsigned 8 a.dieTemp ∧
            u.rd R.SYN_PWRCHK_CORR = meas % 2 ^ R.SYN_PWRCHK_CORR.width ∧ u.tab = a.tab) ∧
          (good → r.kind = 2 → swf (fun _ => 0) a.tab.cal = true → ∀ i, i < 256 →
            (a.calValid i = false → u.calRec i = a.calRec i) ∧ bitsOf (u.calRec i) 0 28 = bitsOf (a.calRec i) 0 28 ∧
              bitsOf (u.calRec i) 40 24 = bitsOf (a.calRec i) 40 24) ∧
          Only [.regs, .units, .tab, .tx, .ttb, .free] a u)) ∧
    (let parks := a.tx.tuned = true ∧ (∀ x ∈ a.tx.list, x.begun = false) ∧ a.tx.usedAt + a.rd R.SYN_PARK_STEPS ≤ now
     (¬parks → exec (.synthPark t) s = .next a) ∧
     (parks → ∃ u, exec (.synthPark t) s = .next u ∧ u.tx = { a.tx with tuned := false } ∧ Only [.tx] a u))

/-- For an accepted SEND of ring 1 or 2, from the state after the elapsed time, with its operands read by Table LNK-6: a broken rule of R242 ends it MALFORMED; a closed buffer or a context of another cohort member ACCESS; a silent cohort state COHORT_QUIET; a MIC without a key KEY_ABSENT; an EXHAUSTED context CTX_EXHAUSTED; a channel entry that does not permit it by R163; no valid counter block holds it for 10 ms, after which COUNTER_BLOCK_TIMEOUT ends it NO_BLOCK (before, nothing). A context still to be rewritten leaves it waiting. Otherwise, outside a cohort, with occurrences not running and no last gasp armed, it is sealed: TXCTR steps by one, a TYPE 0 unicast takes TXDSN, which steps by one, and one transmission with the entry, order, power, counter and retries joins, placed after everything the synthesiser has decided; its frame is the header of the addresses and that counter, the payload sealed under the context's key, which costs cipher engine 0 its CCM block operations; no other register or memory byte changes. -/
def Obligations.SendsAreSealedOrRefused : Prop :=
  ∀ (s : State) (t : Elapsed) (w : Work), s.Canonical →
    let a := s.advance t
    let g := a.gen.active
    let o := a.sendOp w
    let k := o.ctx
    let cmd : Instr := .send t w.ring w.idx
    let ends := fun st => ∃ u, exec cmd s = .next u ∧ Decided a u w st 0 ∧ Only [.ring] a u
    let hdr := 10 + (if o.ts then 2 else 0) + (if o.ls then 8 else 0)
    let dsn := o.type = 0 ∧ groupDest o.dest = false
    let len := o.len + if o.type = 0 ∧ groupDest o.dest = false then 1 else 0
    let bad := (o.group = false ∧ 512 ≤ k) ∨ a.ctxLive g k = false ∨ (o.type ≠ 0 ∧ o.type ≠ 2) ∨ (o.type = 0 ∧ a.shortValid = false) ∨
      (o.micsz = 0 ∧ o.type ≠ 2) ∨ (o.enc = true ∧ o.micsz = 0) ∨ (o.ar = true ∧ groupDest o.dest = true) ∨ 255 < len ∨
      288 < hdr + len + (if o.micsz = 0 then 0 else if o.micsz = 1 then 4 else if o.micsz = 2 then 8 else 16) ∨ a.inRam o.buf o.len = false
    let shut := a.bankAllows w.prot o.buf o.len = false ∨ a.ctxOwned g k = false
    let c := a.chan g o.entry
    let entry := c.valid = false ∨ c.txen = false ∨ o.order < 6 ∨ bitOf c.orders (o.order - 6) = false ∨ c.maxpwr < o.power
    (a.workReady w.ring w.idx 0x20 w = true → (w.ring = 1 ∨ w.ring = 2) → w.a = 0 →
      (a.ctxPending k = true → exec cmd s = .next a) ∧
      (a.ctxPending k = false → bad → ends 0x0B) ∧
      (a.ctxPending k = false → ¬bad → (o.len = 0 ∨ a.rangeOn o.buf o.len = true) →
        (shut → ends 0x0C) ∧
        (¬shut → a.cohortSilent = true → ends 0x33) ∧
        (¬shut → a.cohortSilent = false → o.micsz ≠ 0 → a.ctxKey g k = none → ends 0x0A) ∧
        (¬shut → a.cohortSilent = false → (o.micsz = 0 ∨ a.ctxKey g k ≠ none) →
          (a.ctxFlag g k 4 = true → ends 0x09) ∧
          (a.ctxFlag g k 4 = false → entry → a.changeover = false → ends 0x0B) ∧
          (a.ctxFlag g k 4 = false → ¬entry →
            (a.blockReady g k = false → ∃ u, exec cmd s = .next u ∧ u.ring.done = a.ring.done ∧
              u.findWork w.ring w.idx = some { w with stage := .waiting, due := a.clk.ns + 10000000 } ∧ Only [.ring] a u) ∧
            (∀ ctr, a.inCohort = false → a.ttb.gasp = none → a.occurrencesRun = false → a.txuOpen = true → a.tx.list = [] →
              a.gen.commit = none → w.isTimed = false → a.ctxNum k 16 4 = ctr → ctr < 0xFFFF0000 →
              (o.len = 0 ∨ a.ramBytes o.buf o.len = true) → ∃ u x, exec cmd s = .next u ∧ u.tx.list = [x] ∧
                u.ctxNum k 16 4 = ctr + 1 ∧ x.ctr = ctr ∧ x.kind = .frame w.ring w.idx ∧ x.entry = o.entry ∧ x.order = o.order ∧
                x.power = o.power ∧ x.rate = o.rate ∧ x.robust = o.robust ∧ x.ar = o.ar ∧ x.retries = o.retries ∧ x.ctx = k ∧ x.dest = o.dest ∧
                x.turns = c.turns ∧ x.gen = g ∧ x.slip = none ∧ x.placed = true ∧ a.clk.edges ≤ x.hop ∧ a.synFree ≤ x.hop ∧
                x.hop ≤ x.start ∧ a.edgeOf x.stamp ≤ x.start ∧ (dsn → u.ctxNum k 67 1 = (a.ctxNum k 67 1 + 1) % 256) ∧
                (let head := linkHeader (frameControl o.type o.ar o.micsz o.enc o.ts o.ls) o.dest a.ownShort ctr (stampStep x.stamp) ownLong
                 let host := (List.range o.len).map fun i => a.byte (o.buf + i)
                 let body := if o.type = 0 ∧ groupDest o.dest = false then BitVec.ofNat 8 (a.ctxNum k 67 1) :: host else host
                 x.pay = sealFrame ((a.ctxKey g k).getD []) head body ownLong ctr o.micsz o.enc) ∧
                (∃ y, u.findWork w.ring w.idx = some y ∧ y.stage = .accepted ∧ y.a = 1) ∧ u.ring.done = a.ring.done ∧
                (o.micsz = 0 → u.cip = a.cip) ∧ (o.micsz ≠ 0 → a.flag (R.CIP_MAP_INSERVICE 0) = true →
                  let n := if o.enc then 2 * ((len + 15) / 16) + (hdr + 17) / 16 + 2 else (hdr + len + 17) / 16 + 2
                  u.engineFree 0 = max (a.engineFree 0) a.clk.edges + a.stepsOf (1600 + 320 * n) ∧ u.engineFree 1 = a.engineFree 1) ∧
                Only [.units, .ring, .cip, .ctx, .tx, .trace] a u))))) ∧
    (a.findWork w.ring w.idx = some w → w.opcode = 0x20 → w.stage = .waiting →
      (a.clk.ns < w.due → exec (.counterBlockTimeout t w.ring w.idx) s = .next a) ∧
      (w.due ≤ a.clk.ns → ∃ u, exec (.counterBlockTimeout t w.ring w.idx) s = .next u ∧ Decided a u w 0x34 0 ∧ Only [.ring] a u))

/-- For the one transmission in the list, from the state after the elapsed time; a command whose time has not come changes nothing. TX_HOP_START with the transmitter closed ends it NOT_RUN; without airtime (an unmet rule of R277) it ends BUDGET, counted; else its units are charged to its rule's bucket and its entry's dwell and the hop begins. TX_FIRST_EDGE with lock drives the pins, the synthesiser tuned to its entry (a first use writes its record); without lock nothing is driven, NOLOCK counts, VALID of the record is cleared and it ends NO_LOCK, an acknowledgement without a trace. The first chip counts FRAMES, and ACKS for an acknowledgement, and stamps LASTSOF. The last chip ends a frame without AR DONE with its counter, opens the expectation of one with AR, and counts a bell. The last edge drops it, or leaves it awaiting its answer. Lost lock ends it NO_LOCK. When the expectation ends without a detection at work, the last attempt ends NO_ACK, another is sent again with one retry less. -/
def Obligations.TransmissionsRunTheirCourse : Prop :=
  ∀ (s : State) (t : Elapsed) (x : Tx), s.Canonical →
    let a := s.advance t
    let now := a.clk.edges
    let one := fun (u : State) (f : Fld) => u.rd f = min (2 ^ f.width - 1) (a.rd f + 1)
    let late := fun (cmd : Instr) (st : Nat) => ∀ ring idx w, x.kind = .frame ring idx → a.findWork ring idx = some w →
      ∃ u, exec cmd s = .next u ∧ u.tx.list = [] ∧ Decided a u { w with gen := x.gen } st x.ctr
    let stands := fun (cmd : Instr) (sg : TxStage) => ∃ u y, exec cmd s = .next u ∧ u.tx.list = [y] ∧ y.stage = sg ∧ y.id = x.id ∧
      y.ctr = x.ctr ∧ y.entry = x.entry ∧ y.start = x.start
    (a.tx.list = [] → exec (.txHopStart t) s = .next a ∧ (∀ l m, exec (.txFirstEdge t l m) s = .next a) ∧ exec (.txFirstChip t) s = .next a ∧
      exec (.ackTransmit t) s = .next a ∧ exec (.txLastChip t) s = .next a ∧ exec (.txLastEdge t) s = .next a ∧
      exec (.txLockLoss t) s = .next a ∧ exec (.noAckOutcome t) s = .next a) ∧
    (a.tx.list = [x] → a.gen.commit = none →
      (x.stage = .queued → x.placed = true →
        let r := a.rule (a.chan x.gen x.entry).subband
        let use := a.ruleUse (a.chan x.gen x.entry).subband
        let units := a.txUnits x
        let room := r.valid = false ∨ (use.frames + units + a.gaspReserve (a.chan x.gen x.entry).subband ≤ a.framePortion r ∧
          (r.dwell = 0 ∨ a.dwellUse x.entry + units + a.gaspDwell x.entry ≤ r.dwell))
        let drains := a.flag (R.UCTL_DRAIN Hdr.txu) = true ∨ (a.unit Hdr.txu).draining = true ∨ (a.unit Hdr.txu).lapsed = true
        (now < x.hop → exec (.txHopStart t) s = .next a) ∧
        (x.hop ≤ now → a.txuOpen = false → late (.txHopStart t) 0x02) ∧
        (x.hop ≤ now → a.txuOpen = true → drains → ∃ u, exec (.txHopStart t) s = .next u ∧ u.tx.list = [{ x with placed := false }] ∧ Only [.tx] a u) ∧
        (x.hop ≤ now → a.txuOpen = true → ¬drains → x.charged = false → (∃ ring idx, x.kind = .frame ring idx) →
          (¬room → late (.txHopStart t) 0x07 ∧ ∃ u, exec (.txHopStart t) s = .next u ∧ one u R.TTB_COUNTS_BUDGET) ∧
          (room → stands (.txHopStart t) .hopping ∧ ∃ u, exec (.txHopStart t) s = .next u ∧
            (swf (fun _ => 0) a.ttb.dwell = true → u.dwellUse x.entry = a.dwellUse x.entry + units) ∧
            (swf (fun _ => ({} : RuleUse)) a.ttb.rules = true → (u.ruleUse (a.chan x.gen x.entry).subband).frames = use.frames + units) ∧
            Only [.regs, .units, .ring, .tx, .ttb] a u))) ∧
      (x.stage = .hopping → ∀ meas, (now < x.first → ∀ l, exec (.txFirstEdge t l meas) s = .next a) ∧
        (x.first ≤ now → stands (.txFirstEdge t true meas) .ramping ∧ (∃ u, exec (.txFirstEdge t true meas) s = .next u ∧
            u.tx.tuned = true ∧ u.tx.entry = x.entry ∧ (x.cal = false → u.tab = a.tab) ∧
            (x.cal = true → swf (fun _ => 0) a.tab.cal = true → bitOf (u.calRec x.entry) 63 = true ∧
              bitsOf (u.calRec x.entry) 22 32 = bitsOf meas 22 32) ∧ Only [.units, .ring, .tab, .tx, .ttb] a u) ∧
          late (.txFirstEdge t false meas) 0x08 ∧ ∃ u, exec (.txFirstEdge t false meas) s = .next u ∧ one u R.SYN_COUNTS_NOLOCK ∧
            u.tx.tuned = false ∧ (swf (fun _ => 0) a.tab.cal = true → u.calValid x.entry = false) ∧
            (x.kind = .ack → u.tx.list = [] ∧ u.ring = a.ring))) ∧
      (x.stage = .ramping → (now < x.start → exec (.txFirstChip t) s = .next a ∧ exec (.ackTransmit t) s = .next a) ∧
        (x.start ≤ now →
          let cmd : Instr := if x.kind = .ack then .ackTransmit t else .txFirstChip t
          stands cmd .air ∧ ∃ u, exec cmd s = .next u ∧ one u R.TXU_FRAMES_COUNT ∧
            u.rd R.TXU_LASTSOF_CYCLE = a.alignedStamp / 65536 % 65536 ∧ u.rd R.TXU_LASTSOF_STEP = a.alignedStamp % 65536 ∧
            (x.kind = .ack → one u R.TXU_ACKS_SENT ∧ u.ctx = a.ctx) ∧ Only [.regs, .units, .ctx, .tx, .trace] a u)) ∧
      (x.stage = .air → (now < x.chipEnd → exec (.txLastChip t) s = .next a) ∧
        (x.chipEnd ≤ now →
          (∀ ring idx w, x.kind = .frame ring idx → x.ar = false → a.findWork ring idx = some w → ∃ u, exec (.txLastChip t) s = .next u ∧
            Decided a u { w with gen := x.gen } 0x00 x.ctr ∧ u.tx.list = [{ x with stage := .tail }] ∧ Only [.units, .ring, .tx] a u) ∧
          (∀ ring idx, x.kind = .frame ring idx → x.ar = true → a.tx.expects.length < 8 → ∃ u, exec (.txLastChip t) s = .next u ∧
            u.tx.expects = a.tx.expects ++ [{
              tx := x.id, entry := x.entry, order := x.order, mark := x.mark, from_ := now
              till := now + a.expectSteps (a.chan x.gen x.entry) x.order, gen := x.gen }] ∧
            u.tx.list = [{ x with stage := .tail }] ∧ u.ring = a.ring ∧ Only [.units, .tx] a u) ∧
          (∀ p q, x.kind = .bell p q → ∃ u, exec (.txLastChip t) s = .next u ∧ one u R.TTB_BELLSENT_COUNT ∧
            u.tx.list = [{ x with stage := .tail }] ∧ Only [.regs, .units, .tx] a u))) ∧
      (x.stage = .tail → (now < x.last → exec (.txLastEdge t) s = .next a) ∧
        (x.last ≤ now → a.tx.hot = false → ∃ u, exec (.txLastEdge t) s = .next u ∧ u.tx.usedAt = now ∧
          u.tx.list = (if x.ar ∨ x.kind = .gasp then [{ x with stage := .await }] else []) ∧ Only [.tx] a u)) ∧
      (x.stage = .ramping ∨ x.stage = .air → a.tx.hot = false → late (.txLockLoss t) 0x08 ∧ ∃ u, exec (.txLockLoss t) s = .next u ∧
        one u R.SYN_COUNTS_UNLOCK ∧ u.tx.tuned = false ∧ (swf (fun _ => 0) a.tab.cal = true → u.calValid x.entry = false)) ∧
      (∀ ring idx w, x.stage = .await → x.kind = .frame ring idx → x.ar = true → a.findWork ring idx = some w →
        ((now < a.expectEnd x ∨ a.answerPending x.id = true) → exec (.noAckOutcome t) s = .next a) ∧
        (a.expectEnd x ≤ now → a.answerPending x.id = false →
          (x.retries = 0 → late (.noAckOutcome t) 0x0D ∧ ∃ u, exec (.noAckOutcome t) s = .next u ∧ one u R.LNK_TX_NOACK) ∧
          (0 < x.retries → x.gen ≠ a.gen.active → late (.noAckOutcome t) 0x06) ∧
          (0 < x.retries → x.gen = a.gen.active → a.txuOpen = true → a.occurrencesRun = false → ∃ u y, exec (.noAckOutcome t) s = .next u ∧
            u.tx.list = [y] ∧ y.retries = x.retries - 1 ∧ y.pset = 0 ∧ y.ctr = x.ctr ∧ y.pay = x.pay ∧ y.slip = none ∧ y.placed = true ∧
            y.stage = .queued ∧ u.ring = a.ring))))

/-- A VALID slot occurs at an aligned stamp exactly when its step is STEP and the cycle, counted from the round's start, is CYC, or CYC plus a multiple of PERIOD. From the state after the elapsed time: SLOT_OCCURRENCE_START begins the slot's last occurrence, once and not one a jump passed, from its start for LEN steps, with its event if asked; a bell slot to be relayed and not sealed counts SKIP; with occurrences not running nothing happens. Its end removes it and, for a QUIET one without a blanked sample, writes the measured floor; before it nothing. A sleeper evaluates a WAKE occurrence from the cycle of start - Lw - WAKELEAD (before, and on any other node, nothing): W is the guard plus the uncertainty grown to the occurrence's end, and the window runs from start - W to end + W, or re-entry begins where W exceeds Lw. The wake event fires once at its stamp, the close event when the window ends, before them nothing. A rule's bucket clock rolls to a new empty bucket after BUCKET cycles, keeping the last 59; its dwell window clears the dwell of its entries; before, nothing. -/
def Obligations.TimetableRunsItsSlots : Prop :=
  (∀ (x : Slot) (len at_ : Nat), x.cyc < len → x.step < 65536 → x.valid = true →
    (x.occursAt len at_ = true ↔ at_ % 65536 = x.step ∧ let r := at_ / 65536 % len
      x.cyc ≤ r ∧ if x.period = 0 then r = x.cyc else (r - x.cyc) % x.period = 0)) ∧
  ∀ (s : State) (t : Elapsed) (i : Nat), s.Canonical →
    let a := s.advance t
    let now := a.alignedStamp
    let h := a.header
    let x := a.slot i
    let runs := a.occurrencesRun = true ∧ x.valid = true ∧ a.enabled Hdr.ttb = true
    let one := fun (u : State) (f : Fld) => u.rd f = min (2 ^ f.width - 1) (a.rd f + 1)
    (¬runs → exec (.slotOccurrenceStart t i) s = .next a) ∧
    (∀ st, runs → x.lastStart h.roundlen now = some st →
      let old := st < a.ttb.skipTo ∨ st < sget (fun _ => 0) a.ttb.ran i
      (old → exec (.slotOccurrenceStart t i) s = .next a) ∧
      (¬old → ∃ u, exec (.slotOccurrenceStart t i) s = .next u ∧
        u.ttb.occ = a.ttb.occ ++ [{ slot := i, start := st, stop := st + x.len, blanked := a.blankNow }] ∧
        (swf (fun _ => 0) a.ttb.ran = true → sget (fun _ => 0) u.ttb.ran i = st + 1) ∧
        (x.evt = true → Emitted a u 0x28) ∧ (x.evt = false → u.ev = a.ev) ∧
        (x.kind = 0 → x.relay = true → sget (fun _ => 0) a.ttb.bells i ≠ st + 1 → one u R.TTB_BELLS_SKIP) ∧
        (x.kind ≠ 0 ∨ x.relay = false ∨ sget (fun _ => 0) a.ttb.bells i = st + 1 → u.rd R.TTB_BELLS_SKIP = a.rd R.TTB_BELLS_SKIP) ∧
        WordsKept [R.TTB_BELLS_SKIP.addr] a u ∧ Only [.regs, .ev, .ttb, .trace] a u)) ∧
    (∀ floor, ((∀ o ∈ a.ttb.occ, o.slot = i → now < o.stop) → exec (.slotOccurrenceEnd t i floor) s = .next a) ∧
      ∀ o, a.ttb.occ = [o] → o.slot = i → o.stop ≤ now →
        let quiet := x.kind = 3 ∧ o.blanked = false ∧ a.blankNow = false
        ∃ u, exec (.slotOccurrenceEnd t i floor) s = .next u ∧ u.ttb = { a.ttb with occ := [] } ∧ (¬quiet → Only [.ttb] a u) ∧
          (quiet → u.rd R.CAP_FLOOR_CYCLE = o.start / 65536 % 2 ^ R.CAP_FLOOR_CYCLE.width ∧
            u.rd R.CAP_FLOOR_FLOOR = floor % 2 ^ R.CAP_FLOOR_FLOOR.width ∧
            WordsKept [R.CAP_FLOOR_CYCLE.addr, R.CAP_FLOOR_FLOOR.addr] a u) ∧ Only [.regs, .ttb] a u) ∧
    (let listens := runs ∧ h.sleeper = true ∧ x.wake = true ∧ a.flag R.TTB_STATUS_REENTRY = false
     (¬listens → exec (.windowEvaluation t i) s = .next a) ∧
     (∀ st, listens → x.nextStart h.roundlen (max now (sget (fun _ => 0) a.ttb.seen i)) = some st →
       let lw := a.stepsOf (1000000 * max 1 h.widenms)
       let grow := if a.rd R.TMP_STATUS_STATE = 3 then 2 ^ 32 * (a.rd R.TMP_FLYCFG_PPM + 15) / 10000000 else 0
       let n := (st + x.len - now + 65535) / 65536
       let w := a.rd R.TMP_GUARD_STEPS + (a.uncert16 + n * grow + 65535) / 65536
       (now / 65536 < (st - lw - h.wakelead) / 65536 → exec (.windowEvaluation t i) s = .next a) ∧
       ((st - lw - h.wakelead) / 65536 ≤ now / 65536 →
         (w ≤ lw → ∃ u, exec (.windowEvaluation t i) s = .next u ∧ u.rd R.TTB_WIDTH_W = min w (2 ^ 32 - 1) ∧
           u.ttb.windows = a.ttb.windows ++ [{ slot := i, wake := st - w - h.wakelead, opens := st - w, stop := st + x.len + w }] ∧
           (swf (fun _ => 0) a.ttb.seen = true → sget (fun _ => 0) u.ttb.seen i = st + 1) ∧
           WordsKept [R.TTB_WIDTH_W.addr] a u ∧ Only [.regs, .ttb] a u) ∧
         (lw < w → h.valid = true → a.domOn Dom.sys = true → ∃ u, exec (.windowEvaluation t i) s = .next u ∧
           u.flag R.TTB_STATUS_REENTRY = true ∧ u.ttb.windows = [] ∧ u.rd R.TTB_WIDTH_W = min w (2 ^ 32 - 1) ∧ Emitted a u 0x29)))) ∧
    ((∀ w ∈ a.ttb.windows, w.slot = i → w.woken = true ∨ now < w.wake) → exec (.wakeEvent t i) s = .next a) ∧
    ((∀ w ∈ a.ttb.windows, w.slot = i → now < w.stop) → exec (.windowClose t i) s = .next a) ∧
    (∀ w, a.ttb.windows = [w] → w.slot = i →
      (w.woken = false → w.wake ≤ now → ∃ u, exec (.wakeEvent t i) s = .next u ∧ Emitted a u 0x29 ∧
        u.ttb = { a.ttb with windows := [{ w with woken := true }] } ∧ WordsKept [] a u ∧ Only [.regs, .ev, .ttb, .trace] a u) ∧
      (w.stop ≤ now → ∃ u, exec (.windowClose t i) s = .next u ∧ Emitted a u 0x2A ∧ u.ttb = { a.ttb with windows := [] } ∧
        WordsKept [] a u ∧ Only [.regs, .ev, .ttb, .trace] a u)) ∧
    (let r := a.rule i
     let use := a.ruleUse i
     let rolls := r.bucket ≠ 0 ∧ use.since + 65536 * r.bucket ≤ a.clk.edges
     let clears := r.dwellwin ≠ 0 ∧ use.dwellAt + 65536 * r.dwellwin ≤ a.clk.edges
     (¬rolls → exec (.bucketRoll t i) s = .next a) ∧ (¬clears → exec (.dwellWindowClear t i) s = .next a) ∧
     (swf (fun _ => ({} : RuleUse)) a.ttb.rules = true →
       (rolls → ∃ u, exec (.bucketRoll t i) s = .next u ∧ (∀ j, j ≠ i → u.ruleUse j = a.ruleUse j) ∧
         (u.ruleUse i).since = use.since + 65536 * r.bucket ∧ (u.ruleUse i).buckets.head? = some (0, 0) ∧
         (u.ruleUse i).frames = ((use.buckets.take 59).map (·.1)).sum ∧ (u.ruleUse i).acks = ((use.buckets.take 59).map (·.2)).sum ∧
         u.ttb.dwell = a.ttb.dwell ∧ Only [.ttb] a u) ∧
       (clears → swf (fun _ => 0) a.ttb.dwell = true → ∃ u, exec (.dwellWindowClear t i) s = .next u ∧
         (∀ j, j ≠ i → u.ruleUse j = a.ruleUse j) ∧ (u.ruleUse i).buckets = use.buckets ∧
         (u.ruleUse i).dwellAt = use.dwellAt + 65536 * r.dwellwin ∧
         (∀ e, u.dwellUse e = if (a.chan a.gen.active e).subband = i then 0 else a.dwellUse e) ∧ Only [.ttb] a u)))

/-- From the state after the elapsed time. A bell of a slot to be relayed is sealed once, from TXU_LEAD before its occurrence (before, and for any other slot, nothing): where the node may not send it SKIP counts, else TXCTR of BELLCTX's group steps by one and one TYPE 1 broadcast with that counter, the slot's lowest channel and order, BELLPWR and slip 0 joins. TTB_TRACK by the owner of TTB selects the source and posts record 0x04; 3 and the current source change nothing. At a cycle past a live partner's DUE it is declared absent: its flag, ABSENTS, event 0x2C and record 0x01; otherwise nothing. LG_ARM with a broken rule is MALFORMED, without the key KEY_ABSENT, with the counter space at its end CONTEXT_EXHAUSTED; else it reserves R = TXCTR + AHEAD, arms the frame sealed with R in place of any other, TXCTR standing, and completes DONE with R. DISARM clears it, DONE. Once the last gasp is sent TXCTR is the larger of itself and R + 1, the frame disarms, SENT is set, record 0x10 is posted; before, nothing. -/
def Obligations.BellsRollCallAndLastGasp : Prop :=
  ∀ (s : State) (t : Elapsed), s.Canonical →
    let a := s.advance t
    let now := a.alignedStamp
    let g := a.gen.active
    let h := a.header
    let one := fun (u : State) (f : Fld) => u.rd f = min (2 ^ f.width - 1) (a.rd f + 1)
    (∀ i, let x := a.slot i
      let relays := a.occurrencesRun = true ∧ x.valid = true ∧ x.kind = 0 ∧ x.relay = true ∧ a.enabled Hdr.ttb = true
      (¬relays → exec (.bellSeal t i) s = .next a) ∧
      (∀ st, relays → x.nextStart h.roundlen now = some st →
        let k := 512 + h.bellctx
        (now + max 512 (a.rd R.TXU_LEAD_STEPS) < st ∨ st < sget (fun _ => 0) a.ttb.bells i → exec (.bellSeal t i) s = .next a) ∧
        (st ≤ now + max 512 (a.rd R.TXU_LEAD_STEPS) → sget (fun _ => 0) a.ttb.bells i ≤ st →
          (a.bellAllowed = false ∨ x.firstChan = none ∨ x.firstOrder = none → ∃ u, exec (.bellSeal t i) s = .next u ∧ one u R.TTB_BELLS_SKIP ∧
            u.tx = a.tx ∧ u.ctx = a.ctx ∧ WordsKept [R.TTB_BELLS_SKIP.addr] a u ∧ Only [.regs, .ttb] a u) ∧
          (∀ e o ctr, a.bellAllowed = true → x.firstChan = some e → x.firstOrder = some o → a.entryRefusal g e o h.bellpwr = none →
            a.tx.list = [] → a.gen.commit = none → a.ttb.gasp = none → a.ctxNum k 16 4 = ctr → ctr < 0xFFFF0000 → ∃ u, exec (.bellSeal t i) s = .next u ∧
              u.ctxNum k 16 4 = ctr + 1 ∧ u.tx.nextId = a.tx.nextId + 1 ∧
              (u.tx.list = [] ∨ ∃ y, u.tx.list = [y] ∧ y.kind = .bell i st ∧ y.entry = e ∧ y.order = o ∧ y.power = h.bellpwr ∧
                y.stamp = st ∧ y.slip = some 0 ∧ y.ctr = ctr ∧ y.ctx = k ∧ y.dest = 0xFFFF ∧ y.ar = false ∧ y.rate = 3 ∧ y.robust = true ∧
                y.pay.take 10 = leBytes 2 0x21 ++ leBytes 2 0xFFFF ++ leBytes 2 a.ownShort ++ leBytes 4 ctr))))) ∧
    (∀ who v, who.late = false →
      (a.owns who Hdr.ttb = false → ∃ u, exec (.trackSelect t who v) s = .next u ∧ Ignored who a u) ∧
      (a.owns who Hdr.ttb = true → a.unitOn Hdr.ttb = true →
        (v % 4 = 3 ∨ v % 4 = a.rd R.TTB_STATUS_BELLSRC → exec (.trackSelect t who v) s = .next a) ∧
        (v % 4 < 2 → v % 4 ≠ a.rd R.TTB_STATUS_BELLSRC → ∃ u, exec (.trackSelect t who v) s = .next u ∧
          u.rd R.TTB_STATUS_BELLSRC = v % 4 ∧ Posted a u 9 0x04 R.TTB_COUNTS_NOTELOST) ∧
        (v % 4 = 2 → a.rd R.TTB_STATUS_BELLSRC ≠ 2 → ∃ u, exec (.trackSelect t who v) s = .next u ∧ u.rd R.TTB_STATUS_BELLSRC = 2 ∧
          (h.sleeper = true → h.valid = true → a.domOn Dom.sys = true → u.flag R.TTB_STATUS_REENTRY = true)))) ∧
    (∀ k, k < 512 →
      let missed := a.tempoAligned = true ∧ a.enabled Hdr.ttb = true ∧ a.ctxLive g k = true ∧ a.ctxNum k 72 4 ≠ 0 ∧
        bitOf (a.ctxNum k 77 1) 0 = false ∧ a.ctxNum k 84 4 ≤ now / 65536 % 2 ^ 32
      (¬missed → exec (.partnerAbsent t k) s = .next a) ∧
      (missed → a.gen.commit = none → ∃ u, exec (.partnerAbsent t k) s = .next u ∧ bitOf (u.ctxNum k 77 1) 0 = true ∧
        u.ctxNum k 78 2 = min 65535 (a.ctxNum k 78 2 + 1) ∧
        (a.bellSource (a.rd R.TTB_STATUS_BELLSRC) ≠ some k → Emitted a u 0x2C ∧ u.rd R.TTB_STATUS_BELLSRC = a.rd R.TTB_STATUS_BELLSRC ∧
          Posted a u 9 0x01 R.TTB_COUNTS_NOTELOST) ∧
        (a.bellSource (a.rd R.TTB_STATUS_BELLSRC) = some k → u.rd R.TTB_STATUS_BELLSRC =
          match a.bellSource (1 - a.rd R.TTB_STATUS_BELLSRC) with
          | some o => if o = k ∨ bitOf (a.ctxNum o 77 1) 0 then 2 else 1 - a.rd R.TTB_STATUS_BELLSRC
          | none => 2))) ∧
    (∀ w, a.workReady 2 w.idx 0x22 w = true → w.ring = 2 →
      let o := w.word 3
      let p := w.word 5
      let k := if bitOf o 10 then 512 + bitsOf o 0 4 else bitsOf o 0 10
      let len := bitsOf p 0 5
      let order := bitsOf p 16 3 + 6
      let c := a.chan g (bitsOf p 8 8)
      let r := a.ctxNum k 16 4 + max 16 (a.rd R.TTB_LG_AHEAD)
      let ends := fun st => ∃ u, exec (.lgArm t w.idx) s = .next u ∧ Decided a u w st 0 ∧ Only [.ring] a u
      let bad := (bitOf o 10 = false ∧ 512 ≤ k) ∨ a.ctxLive g k = false ∨ bitsOf o 12 2 = 0 ∨ 16 < len ∨ a.shortValid = false ∨
        a.inRam (w.word 4) len = false
      let shut := c.valid = false ∨ c.txen = false ∨ bitOf c.orders (order - 6) = false ∨ c.maxpwr < bitsOf (w.word 6) 0 6
      (bitOf o 11 = true → exec (.lgArm t w.idx) s = .next a ∧ ∃ u, exec (.lgDisarm t w.idx) s = .next u ∧ Decided a u w 0x00 0 ∧
        u.ttb = { a.ttb with gasp := none } ∧ Only [.ring, .ttb] a u) ∧
      (bitOf o 11 = false → exec (.lgDisarm t w.idx) s = .next a ∧ (bad → ends 0x0B) ∧
        (¬bad → a.gen.commit = none → a.bankAllows w.prot (w.word 4) len = false → ends 0x0C) ∧
        (¬bad → a.gen.commit = none → a.bankAllows w.prot (w.word 4) len = true → (len = 0 ∨ a.rangeOn (w.word 4) len = true) →
          (shut → ends 0x0B) ∧ (¬shut → a.inCohort = false →
            (a.ctxKey g k = none → ends 0x0A) ∧
            (a.ctxKey g k ≠ none → (a.ctxFlag g k 4 = true ∨ 0xFFFFFFFF ≤ r) → ends 0x09) ∧
            (a.ctxKey g k ≠ none → a.ctxFlag g k 4 = false → r < 0xFFFFFFFF → (len = 0 ∨ a.ramBytes (w.word 4) len = true) →
              ∃ u y, exec (.lgArm t w.idx) s = .next u ∧
                Decided (a.linkCcm (bitsOf o 12 2) (10 + if bitOf o 14 then 8 else 0) len false) u w 0x00 r ∧ u.ttb = { a.ttb with gasp := some y } ∧
                y.ctr = r ∧ y.ctx = k ∧ y.entry = bitsOf p 8 8 ∧ y.order = order ∧ y.rate = bitsOf p 20 2 ∧ y.robust = bitOf p 19 ∧
                y.power = bitsOf (w.word 6) 0 6 ∧ y.payload = ((List.range len).map fun j => a.byte (w.word 4 + j)) ∧
                y.frame.take 10 = leBytes 2 (3 + 16 * bitsOf o 12 2 + (if bitOf o 14 then 256 else 0)) ++ leBytes 2 (a.ctxNum k 8 2) ++
                  leBytes 2 a.ownShort ++ leBytes 4 r ∧ Only [.ring, .cip, .ttb, .trace] a u))))) ∧
    ((∀ x ∈ a.tx.list, x.kind = .gasp → x.stage ≠ .await) → exec (.lastGaspSent t) s = .next a) ∧
    (∀ x, a.tx.list = [x] → x.kind = .gasp → x.stage = .await → a.gen.commit = none → x.ctx < 528 → x.ctr < 0xFFFF0000 → a.ctxNum x.ctx 16 4 ≤ x.ctr →
      ∃ u, exec (.lastGaspSent t) s = .next u ∧ u.ctxNum x.ctx 16 4 = x.ctr + 1 ∧ u.ttb.gasp = none ∧ u.tx.list = [] ∧
        u.flag R.TTB_LGSTAT_SENT = true ∧ Posted a u 9 0x10 R.TTB_COUNTS_NOTELOST)

/-- From the state after the elapsed time. LOAD by the owner of CIP in protected mode puts the data registers into an empty slot with its size and uses, OK set; into a loaded one it is refused with cause 1. ERASE empties the slot unless a VALID context (cause 2), an outstanding commit (3) or a fetched ring-5 operation (4) names it. Every such write clears the data registers, and no other slot changes; any other writer is ignored and counted. KEY_WRAP and KEY_UNWRAP without protected mode end ACCESS, a bad range MALFORMED, an empty slot KEY_ABSENT, a slot without the EXPORT use ACCESS, a loaded target SLOT_BUSY; CTX_SAVE and CTX_LOAD in plain form without protected mode, or a plain save outside protected banks, ACCESS, unaligned MALFORMED; otherwise they run on the engine that is free first for the time of Table CIP-6. At the end, not before, the wrapped key or context is in place and no other byte changed; an image that fails its check ends UNWRAP_FAIL, counted, or MALFORMED; a sound one fills the slot or the context. A saved GCM context loads back as it was. -/
def Obligations.KeysStayInTheirSlots : Prop :=
  (∀ c : JobCtx, c.mode = 4 → c.spent = false → c.chain.length = 16 → c.acc.length = 16 → c.slot < 1024 → c.ctrw < 256 →
    c.invoc < 2 ^ 64 → c.fixed < 2 ^ 32 → c.dlen < 2 ^ 64 → c.alen < 2 ^ 32 →
    (jctxBytes c).length = 64 ∧ crc32 ((jctxBytes c).take 60) = leNum ((jctxBytes c).drop 60) ∧ jctxOf (jctxBytes c) = c) ∧
  ∀ (s : State) (t : Elapsed), s.Canonical →
    let a := s.advance t
    let sel := a.rd R.CIP_KEYSEL_SLOT
    let one := fun (u : State) (f : Fld) => u.rd f = min (2 ^ f.width - 1) (a.rd f + 1)
    (∀ who, who.late = false →
      let cleared := fun (u : State) => ∀ k, k < 8 → u.rd (R.CIP_KEYDATA_DATA k) = 0
      let words := R.CIP_KEYSTAT_OK.addr :: (List.range 8).map fun k => (R.CIP_KEYDATA_DATA k).addr
      let refused := fun (cmd : Instr) (cause : Nat) => ∃ u, exec cmd s = .next u ∧ cleared u ∧ u.rd R.CIP_KEYSTAT_CAUSE = cause ∧
        one u R.CIP_KEYSTAT_REFUSED ∧ u.flag R.CIP_KEYSTAT_OK = false ∧ WordsKept words a u ∧ Only [.regs] a u
      let put := fun (cmd : Instr) (k : Option KeySlot) => ∃ u, exec cmd s = .next u ∧ cleared u ∧ u.flag R.CIP_KEYSTAT_OK = true ∧
        u.keySlot sel = k ∧ (∀ m, m ≠ sel → u.keySlot m = a.keySlot m) ∧ WordsKept words a u ∧ Only [.regs, .cip] a u
      let may := a.owns who Hdr.cip = true ∧ who.prot = true
      (¬may → ∀ cmd ∈ [Instr.keyLoad t who, Instr.keyErase t who, Instr.keyDataClear t who], ∃ u, exec cmd s = .next u ∧ Ignored who a u) ∧
      (may →
        (a.keySlot sel ≠ none → refused (.keyLoad t who) 1) ∧
        (a.keySlot sel = none → put (.keyLoad t who) (some {
          uses := a.rd R.CIP_KEYSEL_USES
          key := ((List.range 8).flatMap fun k => leBytes 4 (a.rd (R.CIP_KEYDATA_DATA k))).take (if a.flag R.CIP_KEYSEL_SIZE then 32 else 16) })) ∧
        (∃ u, exec (.keyDataClear t who) s = .next u ∧ cleared u ∧ WordsKept words a u ∧ Only [.regs] a u) ∧
        (let named := ∃ k, k < 528 ∧ a.ctxValid k = true ∧ a.ctxNum k 10 2 % 1024 = sel
         let commit := ∃ c, a.gen.commit = some c ∧ (c.releases.contains sel = true ∨
           ∃ r ∈ c.rewrites, r.2.1 = false ∧ bitOf (imgNum r.2.2 12 2) 0 = true ∧ imgNum r.2.2 10 2 % 1024 = sel)
         let fetched := ∃ w ∈ a.ring.work, w.ring = 5 ∧ a.workSlot w = some sel
         a.ctx.old = [] → (named → refused (.keyErase t who) 2) ∧ (¬named → commit → refused (.keyErase t who) 3) ∧
           (¬named → ¬commit → fetched → refused (.keyErase t who) 4) ∧
           (¬named → ¬commit → ¬fetched → put (.keyErase t who) none)))) ∧
    (∀ w, w.ring = 5 →
      let slot := bitsOf (w.word 3) 0 10
      let wrap := bitOf (w.word 3) 8 = true
      let m := w.word 4
      let start := fun (op : Nat) (cmd : Instr) (n ns : Nat) (reads : Bool) (early : Option Nat) (late : Option Nat) =>
        a.workReady 5 w.idx op w = true →
        let ends := fun st => ∃ u, exec cmd s = .next u ∧ Decided a u w st 0 ∧ Only [.regs, .ring] a u
        let placed := (if reads then a.devReadable m n else a.devWritable m n) = true
        (∀ st, early = some st → ends st) ∧ (early = none → ¬placed → ends 0x0B) ∧
        (early = none → placed → a.bankAllows w.prot m n = false → ends 0x0C) ∧
        (early = none → placed → a.bankAllows w.prot m n = true → a.rangeOn m n = true →
          (∀ st, late = some st → ends st) ∧
          (late = none → a.flag (R.CIP_MAP_INSERVICE 0) = false → a.flag (R.CIP_MAP_INSERVICE 1) = false → ends 0x29) ∧
          (∀ e, late = none → (e = 0 ∨ e = 1) → a.flag (R.CIP_MAP_INSERVICE e) = true →
            (a.flag (R.CIP_MAP_INSERVICE (1 - e)) = true → a.engineFree e ≤ a.engineFree (1 - e) ∧ (e = 1 → a.engineFree 1 < a.engineFree 0)) →
            let t0 := max a.clk.edges (max (a.engineFree e) (if w.usesJctx then a.ctxBusyUntil w else 0))
            ∃ u, exec cmd s = .next u ∧ u.ring.done = a.ring.done ∧ u.engineFree e = t0 + a.stepsOf ns ∧
              u.findWork 5 w.idx = some { w with stage := .started, a := e, b := t0, due := t0 + a.stepsOf ns } ∧
              Only [.ring, .cip, .trace] a u))
      let closed := if w.prot = false then some 0x0C else none
      let ctxEarly := if w.prot = false ∧ ¬wrap then some 0x0C else if m % 16 ≠ 0 then some 0x0B else none
      let size := if wrap then 72 else 64
      let cost := if wrap then 1600 + 48 * 448 else 1600
      start 0x63 (.keyWrap t w.idx) 48 (1600 + 30 * 448) false closed (match a.keySlot slot with
        | none => some 0x0A
        | some k => if bitOf k.uses 4 then none else some 0x0C) ∧
      start 0x64 (.keyUnwrap t w.idx) 48 (1600 + 30 * 448) true closed (if (a.keySlot slot).isSome then some 0x2A else none) ∧
      start 0x61 (.ctxSave t w.idx) size cost false ctxEarly (if ¬wrap ∧ a.protectedRange m 64 = false then some 0x0C else none) ∧
      start 0x62 (.ctxLoad t w.idx) size cost true ctxEarly none ∧
      (a.findWork 5 w.idx = some w → w.stage = .started →
        let cmd : Instr := .cipherOperationEnd t w.idx
        let fails := fun (st : Nat) (n : Fld) => ∃ u, exec cmd s = .next u ∧ Decided a u w st 0 ∧ one u n ∧ u.cip = a.cip ∧ BytesKept a u
        let stores := fun (bs : List Byte) => ∃ u, exec cmd s = .next u ∧ Decided a u w 0x00 bs.length ∧ BytesPut a u m bs ∧ u.cip = a.cip ∧
          one u R.CIP_JOBS_COUNT
        (a.clk.edges < w.due → exec cmd s = .next a) ∧
        (w.due = a.clk.edges →
          (∀ k, w.opcode = 0x63 → a.keySlot slot = some k → a.ramBytes m 48 = true → stores (kwWrap uniqueKey
            ((k.key ++ zeros 32).take 32 ++ [BitVec.ofNat 8 k.uses, BitVec.ofNat 8 (b2n (k.key.length == 32))] ++ zeros 6))) ∧
          (w.opcode = 0x64 → a.keySlot slot = none → a.ramBytes m 48 = true →
            let img := kwUnwrap uniqueKey ((List.range 48).map fun i => a.byte (m + i))
            (img = none → fails 0x28 R.CIP_FAILS_UNWRAP) ∧
            (∀ b, img = some b → b.drop 34 = zeros 6 → ∃ u, exec cmd s = .next u ∧
              u.keySlot slot = some { uses := leNum ((b.drop 32).take 1) % 32, key := b.take (if bitOf (leNum ((b.drop 33).take 1)) 0 then 32 else 16) } ∧
              (∀ x, x ≠ slot → u.keySlot x = a.keySlot x) ∧ BytesKept a u ∧ u.ring.done.length = a.ring.done.length + 1 ∧ one u R.CIP_JOBS_COUNT)) ∧
          (w.opcode = 0x61 → a.ctxBusy w = false → a.ramBytes m 72 = true →
            stores (if wrap then kwWrap uniqueKey (jctxBytes (a.jctx w.jctx)) else jctxBytes (a.jctx w.jctx))) ∧
          (w.opcode = 0x62 → a.ctxBusy w = false → a.ramBytes m 72 = true → ¬wrap →
            let b := (List.range 64).map fun i => a.byte (m + i)
            (crc32 (b.take 60) ≠ leNum (b.drop 60) → ∃ u, exec cmd s = .next u ∧ Decided a u w 0x0B 0 ∧ u.cip = a.cip) ∧
            (crc32 (b.take 60) = leNum (b.drop 60) → swf (fun _ => ({} : JobCtx)) a.cip.jctx = true → ∃ u, exec cmd s = .next u ∧
              Decided a u w 0x00 0 ∧ u.jctx w.jctx = jctxOf b ∧ (∀ k, k ≠ w.jctx → u.jctx k = a.jctx k) ∧ u.cip.slots = a.cip.slots ∧
              BytesKept a u)))))

/-- For an accepted CIPHER on a job context without an earlier operation, from the state after the elapsed time: a job that breaks Table CIP-5 or does not fit its context's chain is MALFORMED, a closed buffer ACCESS, a slot that is empty or lacks the use KEY_ABSENT, a wrapping counter IV_EXHAUSTED, counted; without an engine in service NO_ENGINE; else it starts on the engine that is free first (the lower on a tie) and is due after 1.6 us and 320 ns (448 with a 32-byte key) for each block operation, rounded up to steps. At its end, and not before: a poisoned source ends it MEM_ERROR; ECB stores AES of each block under the slot's key, and the inverse when decrypting, its context open unless FINAL; a CCM opening whose tag differs stores zeros, counts MICFAIL and ends MIC_FAIL; a CCM sealing stores the ciphertext and its tag; DONE has LEN as its result and counts JOBS. An operation whose end comes late counts LATE and breaks condition 2. -/
def Obligations.CipherJobsRunAndEnd : Prop :=
  ∀ (s : State) (t : Elapsed) (w : Work), s.Canonical →
    let a := s.advance t
    let j := a.cipherJob w
    let one := fun (u : State) (f : Fld) => u.rd f = min (2 ^ f.width - 1) (a.rd f + 1)
    w.ring = 5 →
    (a.workReady 5 w.idx 0x60 w = true → a.ctxBusy w = false →
      let ends := fun st => ∃ u, exec (.cipher t w.idx) s = .next u ∧ Decided a u w st 0 ∧ Only [.regs, .ring] a u
      let three := fun (f : Nat → Nat → Bool) => f j.src (j.aadLen + j.len) = true ∧ (j.mode = 5 ∨ f j.dst j.len = true) ∧
        (j.param = 0 ∨ f j.param 48 = true)
      let room := three a.inRam
      let up := three a.rangeOn
      let allowed := three (a.bankAllows w.prot)
      let fits := j.init = true ∨ ((a.jctx w.jctx).open_ = true ∧ (a.jctx w.jctx).mode = j.mode)
      let slot := if bitOf (w.word 3) 4 then bitsOf (w.word 3) 22 10 else (a.jctx w.jctx).slot
      let use := if j.mode = 5 then 3 else if j.dec then 2 else 1
      (j.wellFormed = false → ends 0x0B) ∧
      (j.wellFormed = true → a.inRam j.src (j.aadLen + j.len) = false → ends 0x0B) ∧
      (j.wellFormed = true → room → up → ¬allowed → ends 0x0C) ∧
      (j.wellFormed = true → room → up → allowed →
        (¬fits → ends 0x0B) ∧
        (fits → (∀ k, a.keySlot slot = some k → bitOf k.uses use = false) → ends 0x0A) ∧
        (∀ k, fits → a.keySlot slot = some k → bitOf k.uses use = true →
          (a.ivExhausted w j = true → ∃ u, exec (.cipher t w.idx) s = .next u ∧ Decided a u w 0x27 0 ∧ one u R.CIP_FAILS_IVEXH ∧ Only [.regs, .ring] a u) ∧
          (a.ivExhausted w j = false →
            (a.flag (R.CIP_MAP_INSERVICE 0) = false → a.flag (R.CIP_MAP_INSERVICE 1) = false → ends 0x29) ∧
            (∀ e, (e = 0 ∨ e = 1) → a.flag (R.CIP_MAP_INSERVICE e) = true → (a.flag (R.CIP_MAP_INSERVICE (1 - e)) = true →
                a.engineFree e ≤ a.engineFree (1 - e) ∧ (e = 1 → a.engineFree 1 < a.engineFree 0)) →
              let n := (j.len + 15) / 16
              let ops := if j.mode = 3 then 2 * n + (j.aadLen + 17) / 16 + 2 else if j.mode = 4 then n + (j.aadLen + 15) / 16 + 2
                else if j.mode = 5 then n + 1 else n
              let t0 := max a.clk.edges (max (a.engineFree e) (a.ctxBusyUntil w))
              let fin := t0 + a.stepsOf (1600 + ops * if k.key.length = 32 then 448 else 320)
              ∃ u x, exec (.cipher t w.idx) s = .next u ∧ u.findWork 5 w.idx = some x ∧ x.stage = .started ∧ x.a = e ∧ x.b = t0 ∧ x.due = fin ∧
                u.engineFree e = fin ∧ u.ring.done = a.ring.done))))) ∧
    (a.findWork 5 w.idx = some w → w.stage = .started → w.opcode = 0x60 → a.ctxBusy w = false → (w.b = w.at_ ∨ w.w.length = 9) →
      let cmd : Instr := .cipherOperationEnd t w.idx
      let data := (List.range j.len).map fun i => a.byte (j.src + j.aadLen + i)
      let aad := (List.range j.aadLen).map fun i => a.byte (j.src + i)
      let nonce := (List.range j.nonceLen).map fun i => a.byte (j.param + i)
      let clean := a.anyPoison (a.phys j.src) (j.aadLen + j.len) = false
      let ram := a.ramBytes j.src (j.aadLen + j.len) = true ∧ a.ramBytes j.dst j.len = true
      (a.clk.edges < w.due → exec cmd s = .next a) ∧
      (w.due < a.clk.edges → (0x05, Hdr.cip) ∉ a.env.broken2 → ∃ u, exec cmd s = .next u ∧ u.envBroken 2 = true) ∧
      (∀ key, w.due = a.clk.edges → a.jobKey w j = some key →
        (¬clean → ∃ u, exec cmd s = .next u ∧ Decided a u w 0x32 0 ∧ BytesKept a u ∧ u.cip = a.cip) ∧
        (clean → ram → j.mode = 0 → j.len % 16 = 0 → ∃ u bs, exec cmd s = .next u ∧ Decided a u w 0x00 j.len ∧ one u R.CIP_JOBS_COUNT ∧
          BytesPut a u j.dst bs ∧ bs.length = j.len ∧ u.cip.slots = a.cip.slots ∧ (swf (fun _ => ({} : JobCtx)) a.cip.jctx = true →
            (u.jctx w.jctx).open_ = !j.final ∧ (u.jctx w.jctx).mode = 0 ∧ ∀ k, k ≠ w.jctx → u.jctx k = a.jctx k) ∧ ∀ i, 16 * i < j.len →
            (bs.drop (16 * i)).take 16 = (if j.dec then aesInvBlock key else aesBlock key) ((data.drop (16 * i)).take 16)) ∧
        (clean → ram → j.mode = 3 → j.final = true → a.ramBytes j.param 48 = true →
          (j.dec = true → ccmOpen key nonce aad data ((List.range j.tagLen).map fun i => a.byte (j.param + 16 + i)) = none →
            4 ≤ j.tagLen → j.tagLen ≤ 16 → 7 ≤ j.nonceLen → j.nonceLen ≤ 13 →
            ∃ u, exec cmd s = .next u ∧ Decided a u w 0x25 0 ∧ one u R.CIP_FAILS_MICFAIL ∧ BytesPut a u j.dst (zeros j.len)) ∧
          (j.dec = false → j.tagLen ≤ 16 → 7 ≤ j.nonceLen → j.nonceLen ≤ 13 → j.dst + j.len ≤ j.param ∨ j.param + 48 ≤ j.dst →
            let sealed := ccmSeal key nonce aad data j.tagLen
            ∃ u, exec cmd s = .next u ∧ Decided a u w 0x00 j.len ∧ one u R.CIP_JOBS_COUNT ∧
              (∀ i, i < j.len → u.byte (j.dst + i) = sealed.1.getD i 0#8) ∧
              (∀ i, i < j.tagLen → u.byte (j.param + 16 + i) = sealed.2.getD i 0#8)))))

/-- From the state after the elapsed time. GRPSET and GRPCLR by the owner of EVR switch groups, a disable of the same SYS cycle wins, and events of this cycle are still routed under the groups before; another writer is ignored and counted. SWTRIG by any agent raises the written software sources with its stamp and mode. Writing IRQPEND clears the lines of the owner or of the routed core, not one activated in the same cycle. One event routed: deeper than 8 it is dropped with CHAINLIM, LASTCH, CHAINDROP and condition 2; for a software source whose stamp is not the channel's owner it is counted in DEV_ACCESS; a channel with its group off does nothing, a closed gate counts GATED; an open one counts EVENTS and performs its task: a pending line set, a group switched, a timer started, a pad toggled; a pending line or PER not on sets OVR, two activations of one input act once with MERGE and MCOUNT 1, and both break condition 2. A disabled router drops events; a drained, lapsed or dark one routes none. A pad edge emits its event when the pad follows it, and wakes a sleeping device that arms it. -/
def Obligations.RouterTurnsEventsIntoTasks : Prop :=
  ∀ (s : State) (t : Elapsed), s.Canonical →
    let a := s.advance t
    let old := a.rd R.EVR_GRP_EN
    let gone := match a.ev.grpWas with
      | some (c, _, d) => if c = a.sysNow then d else 0
      | none => 0
    let one := fun (u : State) (f : Fld) => u.rd f = min (2 ^ f.width - 1) (a.rd f + 1)
    let pend := a.rd R.EVR_IRQPEND_PEND
    (∀ who m, who.late = false → m < 65536 →
      (let regroup := fun (cmd : Instr) (f : Nat → Bool) => ∃ u, exec cmd s = .next u ∧
         (∀ g, g < 12 → bitOf (u.rd R.EVR_GRP_EN) g = (f g && !bitOf gone g)) ∧ u.groupsNow = a.groupsNow ∧
         u.ev = { a.ev with grpWas := u.ev.grpWas } ∧ WordsKept [R.EVR_GRP_EN.addr] a u ∧ Only [.regs, .ev] a u
       (a.owns who Hdr.evr = false → ∀ cmd ∈ [Instr.groupEnable t who m, Instr.groupDisable t who m], ∃ u, exec cmd s = .next u ∧ Ignored who a u) ∧
       (a.owns who Hdr.evr = true → a.unitOn Hdr.evr = true →
         regroup (.groupEnable t who m) (fun g => bitOf old g || bitOf m g) ∧
         regroup (.groupDisable t who m) (fun g => bitOf old g && !bitOf m g))) ∧
      (a.domOn Dom.sys = false → exec (.softwareTrigger t who m) s = .next a) ∧
      (a.domOn Dom.sys = true → ∃ u, exec (.softwareTrigger t who m) s = .next u ∧
        u.ev = { a.ev with queue := a.ev.queue ++ if a.routes = true then ((List.range 16).filter fun k => bitOf m k).map fun k =>
          { src := 0x90 + k, stamp := who.stamp, prot := who.prot } else [] } ∧ WordsKept [] a u ∧ Only [.regs, .ev, .trace] a u) ∧
      (let mine := fun k => bitOf m k = true ∧ (a.owns who Hdr.evr = true ∨ who.stamp = 2 + bitsOf (a.rd R.EVR_IRQROUTE_ROUTE) (2 * k) 2)
       let may := a.owns who Hdr.evr = true ∨ ∃ k, k < 16 ∧ mine k
       (¬may → ∃ u, exec (.eventIrqClear t who m) s = .next u ∧ Ignored who a u) ∧
       (may → a.domOn Dom.sys = true → ∃ u, exec (.eventIrqClear t who m) s = .next u ∧
         (∀ k, k < 16 → (mine k → a.taskLast (0x90 + k) ≠ some a.sysNow → bitOf (u.rd R.EVR_IRQPEND_PEND) k = false) ∧
           (¬mine k ∨ a.taskLast (0x90 + k) = some a.sysNow → bitOf (u.rd R.EVR_IRQPEND_PEND) k = bitOf pend k)) ∧
         WordsKept [R.EVR_IRQPEND_PEND.addr] a u ∧ Only [.regs] a u))) ∧
    (∀ n, (a.ev.queue.take n = [] ∨ a.domOn Dom.sys = false ∨ (a.unit Hdr.evr).lapsed = true → exec (.eventRoute t n) s = .next a) ∧
      (a.routes = true → a.flag (R.UCTL_DRAIN Hdr.evr) = true → exec (.eventRoute t n) s = .next a) ∧
      (a.domOn Dom.sys = true → (a.unit Hdr.evr).lapsed = false → a.enabled Hdr.evr = false →
        ∃ u, exec (.eventRoute t n) s = .next u ∧ u.ev = { a.ev with queue := a.ev.queue.drop n } ∧ Only [.ev] a u)) ∧
    (∀ e rest, a.ev.queue = e :: rest → a.routes = true → a.flag (R.UCTL_DRAIN Hdr.evr) = false →
      let cmd : Instr := .eventRoute t 1
      let names := fun c => c < 96 ∧ a.rd (R.EVR_CHSRC_SRC c) = e.src ∧ sourceValid e.src = true
      let on := fun (c : Nat) => bitOf a.groupsNow (c / 8) = true
      let left : EventState := { a.ev with queue := rest }
      let freshBreak := fun cause => (cause, Hdr.evr) ∉ a.env.broken2
      (8 < e.depth → freshBreak 0x04 → ∃ u, exec cmd s = .next u ∧ one u R.EVR_COUNTS_CHAINDROP ∧ u.flag R.EVR_STATUS_CHAINLIM = true ∧
        u.envBroken 2 = true ∧ u.ev.timers = a.ev.timers ∧ (sourceValid e.src = true →
          ∀ c, names c → on c → (∀ d, d < c → ¬(names d ∧ on d)) → u.rd R.EVR_STATUS_LASTCH = c) ∧
        Only [.regs, .units, .env, .mail, .ev, .trace] a u) ∧
      (e.depth ≤ 8 → (∀ c, ¬names c) → sourceValid e.src = true → ∃ u, exec cmd s = .next u ∧ u.ev = left ∧ Only [.units, .ev] a u) ∧
      (∀ c, e.depth ≤ 8 → names c → (∀ d, names d → d = c) →
        let gate := a.flag (R.EVR_CHSRC_GATEEN c)
        let passes := gate = false ∨ a.level (a.rd (R.EVR_CHSRC_GATE c)) ≠ a.flag (R.EVR_CHSRC_GATEINV c)
        let foreign := 0x90 ≤ e.src ∧ ¬(a.rd (R.EVR_CHOWN_OWNER c) = e.stamp ∧ (e.prot = true ∨ a.flag (R.EVR_CHOWN_P c) = false))
        (foreign → ∃ u, exec cmd s = .next u ∧ one u R.DEV_ACCESS_COUNT ∧ u.rd R.DEV_ACCESS_LAST = e.stamp % 256 ∧ u.ev = left ∧
          Only [.regs, .units, .ev] a u) ∧
        (¬foreign → ¬on c → ∃ u, exec cmd s = .next u ∧ u.ev = left ∧ Only [.units, .ev] a u) ∧
        (¬foreign → on c → ¬passes → ∃ u, exec cmd s = .next u ∧ one u (R.EVR_CHCNT_GATED c) ∧ u.ev = left ∧
          WordsKept [(R.EVR_CHCNT_GATED c).addr] a u ∧ Only [.regs, .units, .ev, .trace] a u) ∧
        (¬foreign → on c → passes →
          let does := fun (ks : List Nat) (p : State → Prop) => a.chanTasks c = ks → ∃ u, exec cmd s = .next u ∧ one u (R.EVR_CHCNT_EVENTS c) ∧ p u
          does [] (fun u => u.ev = left ∧ WordsKept [(R.EVR_CHCNT_EVENTS c).addr] a u ∧ Only [.regs, .units, .ev, .trace] a u) ∧
          (∀ j, j < 16 →
            (bitOf pend j = false → does [0x90 + j] fun u => u.rd R.EVR_IRQPEND_PEND = pend + 2 ^ j ∧
              WordsKept [(R.EVR_CHCNT_EVENTS c).addr, R.EVR_IRQPEND_PEND.addr] a u ∧ Only [.regs, .units, .ev, .trace] a u) ∧
            (bitOf pend j = true → freshBreak 0x02 → does [0x90 + j] fun u => u.rd R.EVR_IRQPEND_PEND = pend ∧
              u.flag (taskFlag (0x90 + j) 7 1) = true ∧ u.envBroken 2 = true) ∧
            (bitOf pend j = false → freshBreak 0x03 → does [0x90 + j, 0x90 + j] fun u => u.rd R.EVR_IRQPEND_PEND = pend + 2 ^ j ∧
              u.flag (taskFlag (0x90 + j) 6 1) = true ∧ one u (taskFlag (0x90 + j) 0 6) ∧ u.envBroken 2 = true)) ∧
          (∀ g, g < 12 →
            (bitOf gone g = false → does [1 + g] fun u => bitOf (u.rd R.EVR_GRP_EN) g = true ∧ u.groupsNow = a.groupsNow) ∧
            does [0x11 + g] fun u => bitOf (u.rd R.EVR_GRP_EN) g = false ∧ u.groupsNow = a.groupsNow) ∧
          (∀ n, n < 8 → (a.domOn Dom.per = false → freshBreak 0x02 → does [0x20 + n] fun u =>
              u.flag (taskFlag (0x20 + n) 7 1) = true ∧ u.envBroken 2 = true ∧ u.timer n = a.timer n) ∧
            (a.domOn Dom.per = true → a.isHigh n = false → a.taskLast (0x20 + n) ≠ some a.perNow → does [0x20 + n] fun u =>
              u.flag (R.TMR_STAT_RUNNING n) = true)) ∧
          (∀ p, p < 16 → a.domOn Dom.per = true → a.rd (R.GPI_CFG_FUNC p) = 1 → a.taskLast (0x70 + p) ≠ some a.perNow → does [0x70 + p] fun u =>
            u.rd R.GPI_OUT_OUT = a.rd R.GPI_OUT_OUT ^^^ 2 ^ p)))) ∧
    (∀ n rising, n < 16 →
      let reads := ¬(a.rd (R.GPI_CFG_FUNC n) = 1 ∧ (a.dom Dom.per).state ≠ 0 ∧ ¬(a.flag (R.GPI_CFG_OD n) = true ∧ bitOf (a.rd R.GPI_OUT_OUT) n = true))
      let moved := { a.per with gpioExt := setBitsOf a.per.gpioExt n 1 (b2n rising) }
      (a.domOn Dom.sys = true → a.domOn Dom.per = true → ∃ u, exec (.gpioEdge t n rising) s = .next u ∧ u.per = moved ∧
        (reads → a.pad n ≠ rising → u.pad n = rising ∧ Emitted a u ((if rising then 0x40 else 0x50) + n)) ∧
        (¬reads ∨ a.pad n = rising → u.ev.queue = a.ev.queue) ∧ WordsKept [] a u ∧ Only [.regs, .per, .ev, .trace] a u) ∧
      (a.domOn Dom.sys = false → (a.dom Dom.per).state ≠ 0 → a.pins.rail = true → a.bkp.wake = none → reads → a.pad n ≠ rising →
        bitOf (a.rd (if rising then R.BKP_GPWAKE_RISE else R.BKP_GPWAKE_FALL)) n = true → ∃ u, exec (.gpioEdge t n rising) s = .next u ∧
          u.per = moved ∧ u.bkp.wake = some (3, n) ∧ u.rd R.BKP_WAKE_SRC = 3 ∧ u.rd R.BKP_WAKE_INDEX = n))

/-- From the state after the elapsed time, for each timer. Commands by its owner with PER on: START runs a stopped timer from a clear prescaler and leaves a running one alone, STOP stops it, CLEAR zeroes count and prescaler, CAPR and CAPF copy the count, set the fresh flag, and OVR when it was set, and emit their event; of the high half of a pair they are ignored; with PER off nothing happens; another writer is ignored and counted. A PERIOD write is held with PERPEND, or with IMMED in force at once; at or below the count it makes the next tick the period event. The low half of a pair waits for the high half. A capture edge with CAPEN captures. Reading CAPR or CAPF returns it and clears its flag; after a capture in the same cycle it returns the value before and the flag stays; in a pair the high half clears it. At PERIOD the count restarts, a held period takes effect, ONESHOT stops, the event is emitted with its depth; at CMP the compare event, once. Before, nothing. -/
def Obligations.TimersCountCaptureAndFire : Prop :=
  ∀ (s : State) (t : Elapsed) (n : Nat), s.Canonical → n < 8 →
    let a := s.advance t
    let r := a.timer n
    let cmp := a.timerCmp n
    let per := a.timerPeriod n
    let running := a.flag (R.TMR_STAT_RUNNING n)
    let stat := (R.TMR_STAT_RUNNING n).addr
    let words := fun (f : Nat → Fld) => stat :: (f n).addr :: if a.chained n then [(f (n + 1)).addr] else []
    let size := if a.chained n then 2 ^ 64 else 2 ^ 32
    let others := fun (u : State) => ∀ m, m ≠ n → u.timer m = a.timer m
    let plus := fun (es : List Event) => if a.routes = true then a.ev.queue ++ es else a.ev.queue
    let captured := fun (fall : Bool) (cmd : Instr) =>
      let reg := if fall then R.TMR_CAPF_VALUE else R.TMR_CAPR_VALUE
      let fresh := if fall then R.TMR_STAT_FRESHF n else R.TMR_STAT_FRESHR n
      let mark := some (a.perNow, a.timerReg reg n, a.flag (R.TMR_STAT_OVR n))
      ∃ u, exec cmd s = .next u ∧ u.timerReg reg n = r.count % size ∧ u.flag fresh = true ∧
        u.flag (R.TMR_STAT_OVR n) = (a.flag (R.TMR_STAT_OVR n) || a.flag fresh) ∧
        u.timer n = (if fall then { r with capF := mark } else { r with capR := mark }) ∧ others u ∧
        u.ev.queue = plus [{ src := (if fall then 0x78 else 0x70) + n }] ∧ WordsKept (words reg) a u ∧ Only [.regs, .ev, .trace] a u
    (∀ who v, who.late = false → v < 2 ^ 32 →
      let first := [Instr.timerStart t who n, Instr.timerStop t who n, Instr.timerClear t who n, Instr.timerCaptureRise t who n,
        Instr.timerCaptureFall t who n]
      let cmds := first ++ [Instr.timerPeriodWrite t who n v]
      (a.owns who (Hdr.tmr n) = false → ∀ cmd ∈ cmds, ∃ u, exec cmd s = .next u ∧ Ignored who a u) ∧
      (a.owns who (Hdr.tmr n) = true → a.domOn Dom.per = false → ∀ cmd ∈ cmds, exec cmd s = .next a) ∧
      (a.owns who (Hdr.tmr n) = true → a.domOn Dom.per = true → a.isHigh n = true → ∀ cmd ∈ first, exec cmd s = .next a) ∧
      (a.owns who (Hdr.tmr n) = true → a.domOn Dom.per = true →
        let quiet := fun (u : State) => others u ∧ u.ev.queue = a.ev.queue ∧ Only [.regs, .ev] a u
        (a.isHigh n = false →
          (running = true → exec (.timerStart t who n) s = .next a) ∧
          (running = false → ∃ u, exec (.timerStart t who n) s = .next u ∧ u.flag (R.TMR_STAT_RUNNING n) = true ∧
            u.timer n = { r with pre := 0, depth := 0, depthAt := some a.perNow, cmpDone := decide (cmp ≤ r.count) } ∧
            WordsKept [stat] a u ∧ quiet u) ∧
          (∃ u, exec (.timerStop t who n) s = .next u ∧ u.flag (R.TMR_STAT_RUNNING n) = false ∧ u.ev = a.ev ∧ WordsKept [stat] a u ∧
            Only [.regs] a u) ∧
          (∃ u, exec (.timerClear t who n) s = .next u ∧ u.timer n = { r with
              count := 0, pre := 0, force := none, depth := 0, depthAt := some a.perNow, cmpDone := decide (cmp = 0) } ∧
            WordsKept [] a u ∧ quiet u) ∧
          captured false (.timerCaptureRise t who n) ∧ captured true (.timerCaptureFall t who n)) ∧
        (a.chained n = true → ∃ u, exec (.timerPeriodWrite t who n v) s = .next u ∧ u.timer n = { r with holdPer := v } ∧ WordsKept [] a u ∧ quiet u) ∧
        (a.chained n = false → a.isHigh n = false →
          (a.flag (R.TMR_CTL_IMMED n) = false → ∃ u, exec (.timerPeriodWrite t who n v) s = .next u ∧
            u.timer n = { r with perNext := v } ∧ u.flag (R.TMR_STAT_PERPEND n) = true ∧ WordsKept [stat] a u ∧ quiet u) ∧
          (a.flag (R.TMR_CTL_IMMED n) = true → ∃ u, exec (.timerPeriodWrite t who n v) s = .next u ∧ u.rd (R.TMR_PERIOD_PERIOD n) = v ∧
            u.timer n = { r with force := if (if v = 0 then 2 ^ 32 else v) ≤ r.count then some r.count else none } ∧
            WordsKept [(R.TMR_PERIOD_PERIOD n).addr] a u ∧ quiet u)) ∧
        (a.isHigh n = true → a.flag (R.TMR_CTL_IMMED (n - 1)) = false → ∃ u, exec (.timerPeriodWrite t who n v) s = .next u ∧
          (u.timer (n - 1)).perNext = (a.timer (n - 1)).holdPer + 2 ^ 32 * v ∧ u.flag (R.TMR_STAT_PERPEND (n - 1)) = true))) ∧
    (∀ rising, let may := a.flag (R.TMR_CTL_CAPEN n) = true ∧ a.isHigh n = false ∧ a.domOn Dom.per = true
      (¬may → exec (.timerCaptureEdge t n rising) s = .next a) ∧ (may → captured (!rising) (.timerCaptureEdge t n rising))) ∧
    (∀ fall,
      let m := if a.isHigh n then n - 1 else n
      let reg := if fall then R.TMR_CAPF_VALUE else R.TMR_CAPR_VALUE
      let fresh := if fall then R.TMR_STAT_FRESHF m else R.TMR_STAT_FRESHR m
      let mark := if fall then (a.timer m).capF else (a.timer m).capR
      let answers := fun (v : Nat) (p : State → Prop) => ∃ u, exec (.timerCaptureRead t n fall) s = .next u ∧
        u.bus = { value := v, error := false } ∧ p u
      ((∀ x, mark = some x → x.1 ≠ a.perNow) →
        (a.chained n = false → answers (a.rd (reg n)) fun u => u.flag fresh = false ∧
          u.flag (R.TMR_STAT_OVR m) = a.flag (R.TMR_STAT_OVR m) ∧ WordsKept [fresh.addr] a u ∧ Only [.regs, .bus] a u) ∧
        (a.chained n = true → answers (a.rd (reg n)) fun u => Only [.bus] a u)) ∧
      (∀ v ovr, mark = some (a.perNow, v, ovr) → a.chained n = false → answers (if a.isHigh n then v / 2 ^ 32 else v % 2 ^ 32) fun u =>
        u.flag fresh = a.flag fresh ∧ u.flag (R.TMR_STAT_OVR m) = ovr ∧ WordsKept [fresh.addr] a u ∧ Only [.regs, .bus] a u)) ∧
    (let due := match r.force with
       | some f => f < r.count
       | none => per ≤ r.count
     let rest := match r.force with
       | some f => r.count - f - 1
       | none => r.count - per
     let live := running = true ∧ a.isHigh n = false ∧ a.domOn Dom.per = true
     let d := a.timerDepth n
     let once := a.flag (R.TMR_CTL_ONESHOT n)
     (¬live ∨ ¬due → exec (.timerPeriodEvent t n) s = .next a) ∧
     (live → due → r.cmpDone = true ∨ per ≤ cmp → ∃ u, exec (.timerPeriodEvent t n) s = .next u ∧
       u.timer n = { r with count := if once then 0 else rest, force := none, cmpDone := decide (cmp = 0) } ∧
       u.flag (R.TMR_STAT_RUNNING n) = !once ∧ u.flag (R.TMR_STAT_PERPEND n) = false ∧
       u.timerReg R.TMR_PERIOD_PERIOD n = (if a.flag (R.TMR_STAT_PERPEND n) then r.perNext % size else a.timerReg R.TMR_PERIOD_PERIOD n) ∧
       u.ev.queue = plus ({ src := 0x60 + n, depth := d } :: if cmp = 0 then [{ src := 0x68 + n, depth := d }] else []) ∧ others u ∧
       WordsKept (words R.TMR_PERIOD_PERIOD) a u ∧ Only [.regs, .ev, .trace] a u) ∧
     (let reached := live ∧ r.cmpDone = false ∧ cmp ≤ r.count ∧ cmp < per
      (¬reached → exec (.timerCompareEvent t n) s = .next a) ∧
      (reached → ∃ u, exec (.timerCompareEvent t n) s = .next u ∧ u.timer n = { r with cmpDone := true } ∧
        u.ev.queue = plus [{ src := 0x68 + n, depth := d }] ∧ others u ∧ WordsKept [] a u ∧ Only [.regs, .ev, .trace] a u)))

/-- From the state after the elapsed time. A DAL_TXC write by DAL's owner with four entries queued sets QFULL; else the frame joins the tail; one that reaches the head is MALFORMED or, in a bus fault, BUS_FAULT, or waits its turn with its random part, 0 to 12 units of 0.1 ms. The head starts, never before its settling time, in a fault, with the result queue full or while TRIG waits. A collision counts COLL and retries up to RETRY times, then BUS_LOST. A frame that has run its time counts SENT and ends DONE, opens an answer window, or goes on to its second frame. The window ends NO_ANSWER, DONE with the byte, or ANSWER_CORRUPT, counted. Each result goes once to the result queue with event 0x80. A frame of another sender joins the receive queue of four or sets LOST, with event 0x81; a backward frame is ignored. A fault sets FAULT with event 0x82, its end clears it. Reads of DAL_RES and DAL_RXF return and remove the oldest entry, 0 when there is none. The supply is on from 18 V, off below 17 V, with event 0x83. -/
def Obligations.DaliFramesRunOneByOne : Prop :=
  ∀ (s : State) (t : Elapsed), s.Canonical →
    let a := s.advance t
    let d := a.per.dali
    let one := fun (u : State) (f : Fld) => u.rd f = min (2 ^ f.width - 1) (a.rd f + 1)
    let drawn := fun (u : State) => ∃ k, k < 13 ∧ u.per.dali.delta = some k
    let finished := fun (cmd : Instr) (e : DaliEntry) (rest : List DaliEntry) (st back : Nat) (p : State → Prop) => ∃ u more, exec cmd s = .next u ∧
      u.per.dali.results = d.results ++ (e.tag * 65536 + back + 64 + st) :: more ∧
      (rest = [] → more = [] ∧ u.per.dali.queue = [] ∧ Emitted a u 0x80) ∧ p u ∧ u.per.dali.rx = d.rx ∧ u.per.dim = a.per.dim ∧
      u.per.ports = a.per.ports ∧ Only [.regs, .units, .per, .ev, .trace, .free] a u
    (∀ who v, who.late = false → v < 2 ^ 32 →
      let cmd : Instr := .daliEnqueue t who v
      let p := bitsOf v 11 3
      let norm := fun q => if 2 ≤ q ∧ q ≤ 5 then q else 4
      let e : DaliEntry := {
        data := a.rd R.DAL_TXD_DATA, len := v % 64, tag := v / 65536, prio := norm (if p = 0 then a.rd R.DAL_CFG_PRIO else p)
        trig := bitOf v 10, expect := bitOf v 9, twice := bitOf v 8 }
      let bad := (e.len ≠ 16 ∧ e.len ≠ 24 ∧ e.len ≠ 32) ∨ (e.twice = true ∧ e.expect = true)
      (a.owns who Hdr.dal = false → ∃ u, exec cmd s = .next u ∧ Ignored who a u) ∧
      (a.owns who Hdr.dal = true → a.unitOn Hdr.dal = true →
        (4 ≤ d.queue.length → ∃ u, exec cmd s = .next u ∧ u.flag R.DAL_STATUS_QFULL = true ∧ WordsKept [R.DAL_STATUS_QFULL.addr] a u ∧ Only [.regs] a u) ∧
        (d.queue.length < 4 → a.enabled Hdr.dal = false → exec cmd s = .next a) ∧
        (d.queue.length < 4 → a.enabled Hdr.dal = true →
          (8 ≤ d.results.length ∨ (∃ h r, d.queue = h :: r ∧ h.atHead = true) → ∃ u, exec cmd s = .next u ∧
            u.per = { a.per with dali := { d with queue := d.queue ++ [e] } } ∧ Only [.per] a u) ∧
          (d.queue = [] → d.results.length < 8 →
            (bad → finished cmd e [] 0x0B 0 fun u => WordsKept [] a u) ∧
            (¬bad → a.flag R.DAL_STATUS_FAULT = true → finished cmd e [] 0x2E 0 fun u => WordsKept [] a u) ∧
            (¬bad → a.flag R.DAL_STATUS_FAULT = false → ∃ u, exec cmd s = .next u ∧ drawn u ∧
              u.per = { a.per with dali := { d with queue := [{ e with atHead := true }], delta := u.per.dali.delta } } ∧ Only [.per, .free] a u))))) ∧
    (∀ e rest, d.queue = e :: rest →
      let settle := 13500000 + (if e.second then 0 else 1600000 * (e.prio - 1)) + 100000 * d.delta.getD 0
      let may := e.atHead = true ∧ e.trig = false ∧ d.sending = none ∧ d.answering = none ∧ d.results.length < 8 ∧
        a.flag R.DAL_STATUS_FAULT = false ∧ (e.second = true ∨ a.accepts Hdr.dal = true) ∧ a.domOn Dom.per = true ∧ d.idleSince + settle ≤ a.clk.ns
      (¬may → exec (.daliFrameStart t) s = .next a) ∧
      (may → ∃ u, exec (.daliFrameStart t) s = .next u ∧ u.per = { a.per with dali := { d with sending := some a.clk.ns } } ∧ Only [.units, .per] a u) ∧
      (∀ t0, d.sending = some t0 →
        (e.tries < a.rd R.DAL_CFG_RETRY → ∃ u, exec (.daliCollision t) s = .next u ∧ drawn u ∧ one u R.DAL_COUNTS_COLL ∧
          u.per.dali.queue = { e with tries := e.tries + 1 } :: rest ∧ u.per.dali.sending = none ∧ u.per.dali.idleSince = a.clk.ns ∧
          u.per.dali.results = d.results ∧ WordsKept [R.DAL_COUNTS_COLL.addr] a u ∧ Only [.regs, .units, .per, .free] a u) ∧
        (a.rd R.DAL_CFG_RETRY ≤ e.tries → finished (.daliCollision t) e rest 0x2D 0 fun u => one u R.DAL_COUNTS_COLL ∧ u.per.dali.sending = none) ∧
        (a.clk.ns < t0 + (2 * e.len + 2) * 412500 → exec (.daliFrameEnd t) s = .next a) ∧
        (t0 + (2 * e.len + 2) * 412500 ≤ a.clk.ns →
          (e.twice = true → e.second = false → ∃ u, exec (.daliFrameEnd t) s = .next u ∧ drawn u ∧ one u R.DAL_COUNTS_SENT ∧
            u.per.dali.queue = { e with second := true } :: rest ∧ u.per.dali.sending = none ∧ u.per.dali.idleSince = a.clk.ns ∧
            u.per.dali.results = d.results ∧ Only [.regs, .units, .per, .free] a u) ∧
          (e.twice = false ∨ e.second = true → e.expect = true → ∃ u, exec (.daliFrameEnd t) s = .next u ∧ one u R.DAL_COUNTS_SENT ∧
            u.per = { a.per with dali := { d with sending := none, idleSince := a.clk.ns, answering := some a.clk.ns } } ∧
            Only [.regs, .units, .per] a u) ∧
          (e.twice = false ∨ e.second = true → e.expect = false → finished (.daliFrameEnd t) e rest 0 0 fun u =>
            one u R.DAL_COUNTS_SENT ∧ u.per.dali.sending = none))) ∧
      (∀ t0 b, d.answering = some t0 →
        (a.clk.ns < t0 + 12400000 → exec (.daliAnswerEnd t .none) s = .next a) ∧
        (a.clk.ns < t0 + 2400000 → exec (.daliAnswerEnd t (.byte b)) s = .next a ∧ exec (.daliAnswerEnd t .corrupt) s = .next a) ∧
        (t0 + 12400000 ≤ a.clk.ns → finished (.daliAnswerEnd t .none) e rest 0x2B 0 fun u => u.per.dali.answering = none) ∧
        (t0 + 2400000 ≤ a.clk.ns → finished (.daliAnswerEnd t (.byte b)) e rest 0 (b.toNat * 256 + 128) fun u => u.per.dali.answering = none) ∧
        (t0 + 2400000 ≤ a.clk.ns → finished (.daliAnswerEnd t .corrupt) e rest 0x2C 0 fun u => u.per.dali.answering = none ∧ one u R.DAL_COUNTS_ANSERR))) ∧
    (d.queue = [] → exec (.daliFrameStart t) s = .next a) ∧
    (d.sending = none → exec (.daliCollision t) s = .next a ∧ exec (.daliFrameEnd t) s = .next a) ∧
    (d.answering = none → ∀ x, exec (.daliAnswerEnd t x) s = .next a) ∧
    (∀ len data, let cmd : Instr := .daliFrameReceived t len data
      (a.domOn Dom.per = false → exec cmd s = .next a) ∧
      (a.domOn Dom.per = true →
        (len = 8 → ∃ u, exec cmd s = .next u ∧ u.per = { a.per with dali := { d with idleSince := a.clk.ns } } ∧ Only [.units, .per] a u) ∧
        (len ≠ 8 → d.rx.length < 4 → ∃ u, exec cmd s = .next u ∧
          u.per = { a.per with dali := { d with idleSince := a.clk.ns, rx := d.rx ++ [(len, data)] } } ∧ Emitted a u 0x81 ∧ WordsKept [] a u ∧
          Only [.regs, .units, .per, .ev, .trace] a u) ∧
        (len ≠ 8 → 4 ≤ d.rx.length → ∃ u, exec cmd s = .next u ∧ u.flag R.DAL_RXS_LOST = true ∧ u.per.dali.rx = d.rx ∧ Emitted a u 0x81 ∧
          WordsKept [R.DAL_RXS_LOST.addr] a u ∧ Only [.regs, .units, .per, .ev, .trace] a u))) ∧
    (let fault := a.flag R.DAL_STATUS_FAULT
     (a.domOn Dom.per = false ∨ fault = true → exec (.daliBusFault t) s = .next a) ∧
     (a.domOn Dom.per = true → fault = false → ∃ u, exec (.daliBusFault t) s = .next u ∧ u.flag R.DAL_STATUS_FAULT = true ∧ Emitted a u 0x82 ∧
       WordsKept [R.DAL_STATUS_FAULT.addr] a u ∧ Only [.regs, .ev, .trace] a u) ∧
     (fault = false → exec (.daliFaultClear t) s = .next a) ∧
     (fault = true → ∃ u, exec (.daliFaultClear t) s = .next u ∧ u.flag R.DAL_STATUS_FAULT = false ∧ u.per.dali.idleSince = a.clk.ns - 10000000 ∧
       (d.queue = [] → u.per.dali.results = d.results) ∧ Only [.regs, .per, .ev, .trace, .free] a u)) ∧
    (d.results = [] → ∃ u, exec (.daliResultRead t) s = .next u ∧ u.bus = { value := 0, error := false } ∧ Only [.bus] a u) ∧
    (∀ r rest, d.results = r :: rest → ∃ u more, exec (.daliResultRead t) s = .next u ∧ u.bus = { value := r, error := false } ∧
      u.per.dali.results = rest ++ more ∧ (d.queue = [] → more = [] ∧ Only [.per, .bus] a u)) ∧
    (d.rx = [] → ∃ u, exec (.daliReceiveRead t) s = .next u ∧ u.bus = { value := 0, error := false } ∧ Only [.bus] a u) ∧
    (∀ len x rest, d.rx = (len, x) :: rest → ∃ u, exec (.daliReceiveRead t) s = .next u ∧ u.bus = { value := x, error := false } ∧
      u.per = { a.per with dali := { d with rx := rest } } ∧ Only [.per, .bus] a u) ∧
    (∀ mv, ∃ u, exec (.daliSupplySwitch t mv) s = .next u ∧ u.pins = { a.pins with vmain := mv } ∧
      ((a.dom Dom.per).state = 0 → Only [.pins] a u) ∧
      ((a.dom Dom.per).state ≠ 0 →
        let on := a.flag R.DAL_CFG_PSU && (decide (18000 ≤ mv) || (a.flag R.DAL_STATUS_PSUON && decide (17000 ≤ mv)))
        u.flag R.DAL_STATUS_PSUON = on ∧ (on = a.flag R.DAL_STATUS_PSUON → Only [.pins] a u) ∧ (on ≠ a.flag R.DAL_STATUS_PSUON → Emitted a u 0x83) ∧
        WordsKept [R.DAL_STATUS_PSUON.addr] a u ∧ Only [.regs, .pins, .ev, .trace] a u))

/-- From the state after the elapsed time. DIM_LEVEL by its owner starts a ramp from the present level, or arms one with TRIG; a level is linear within one count and ends at the target; RAMP_END, not before, leaves the target with event 0x84. GPI_SET, CLR and TGL change OUT and emit one event for each pad that moves, in ascending pad number. A UART_DATA write joins the bytes not yet sent while there is room; a received byte joins the receive FIFO with its error bits, or sets OVR, with the event when the FIFO reaches RXTHR; a read returns and removes the oldest with VALID, or 0. SPI_GO and IIC_GO start a transfer of an enabled idle master that accepts work, else do nothing; its end, an SPI master's not before LEN bytes' time, clears BUSY, moves the bytes, flags OVR, UNDER, NACK or ARBLOST, and emits its event. Another writer is ignored and counted. -/
def Obligations.DimmerPadsAndSerialPorts : Prop :=
  ∀ (s : State) (t : Elapsed), s.Canonical →
    let a := s.advance t
    let ns := a.clk.ns
    let plus := fun (es : List Event) => if a.routes = true then a.ev.queue ++ es else a.ev.queue
    (∀ who p m data, who.late = false → m < 65536 →
      (∀ v, a.owns who Hdr.dim = false → ∃ u, exec (.dimLevelWrite t who v) s = .next u ∧ Ignored who a u) ∧
      (a.owns who Hdr.gpi = false → ∀ cmd ∈ [Instr.gpioSet t who m, Instr.gpioClear t who m, Instr.gpioToggle t who m],
        ∃ u, exec cmd s = .next u ∧ Ignored who a u) ∧
      (a.owns who Hdr.uar = false → ∃ u, exec (.uartDataWrite t who p data) s = .next u ∧ Ignored who a u) ∧
      (a.owns who Hdr.spi = false → ∃ u, exec (.spiGo t who p m) s = .next u ∧ Ignored who a u) ∧
      (a.owns who Hdr.iic = false → ∃ u, exec (.iicGo t who p m) s = .next u ∧ Ignored who a u)) ∧
    (∀ who v, who.late = false → a.owns who Hdr.dim = true → a.unitOn Hdr.dim = true → v < 2 ^ 32 →
      ∃ u, exec (.dimLevelWrite t who v) s = .next u ∧ u.rd R.DIM_LEVEL_TARGET = v % 4096 ∧ u.rd R.DIM_LEVEL_RAMP = v / 65536 ∧
        u.per = { a.per with dim := if a.flag R.DIM_CTL_TRIG then { a.per.dim with armed := true } else {
          level := a.dimLevel, armed := false
          ramp := some { start := a.dimLevel, target := v % 4096, at_ := ns, ms := v / 65536, depth := 0 } } } ∧
        WordsKept [R.DIM_LEVEL_TARGET.addr] a u ∧ Only [.regs, .per] a u) ∧
    (a.per.dim.ramp = none → a.dimLevel = a.per.dim.level ∧ exec (.dimRampEnd t) s = .next a) ∧
    (∀ r, a.per.dim.ramp = some r →
      let k := (ns - r.at_) / 1000000
      (r.ms ≤ k → a.dimLevel = r.target) ∧
      (k < r.ms → r.start ≤ r.target → let q := r.start + (r.target - r.start) * k / r.ms; q ≤ a.dimLevel ∧ a.dimLevel ≤ q + 1) ∧
      (k < r.ms → r.target < r.start → let q := r.start - (r.start - r.target) * k / r.ms; a.dimLevel ≤ q ∧ q ≤ a.dimLevel + 1) ∧
      (let due := a.domOn Dom.per = true ∧ r.at_ + 1000000 * r.ms ≤ ns
       (¬due → exec (.dimRampEnd t) s = .next a) ∧
       (due → ∃ u, exec (.dimRampEnd t) s = .next u ∧ u.per = { a.per with dim := { a.per.dim with level := r.target, ramp := none } } ∧
         u.ev.queue = plus [{ src := 0x84, depth := r.depth }] ∧ WordsKept [] a u ∧ Only [.regs, .per, .ev, .trace] a u))) ∧
    (∀ who m, who.late = false → a.owns who Hdr.gpi = true → a.unitOn Hdr.gpi = true → m < 65536 →
      let out := a.rd R.GPI_OUT_OUT
      let drives := fun (cmd : Instr) (v : Nat) => ∃ u, exec cmd s = .next u ∧ u.rd R.GPI_OUT_OUT = v ∧
        u.ev.queue = plus ((List.range 16).filterMap fun n => if u.pad n = a.pad n then none else some { src := (if u.pad n then 0x40 else 0x50) + n }) ∧
        (∀ n, n < 16 → a.rd (R.GPI_CFG_FUNC n) ≠ 1 → u.pad n = a.pad n) ∧
        (∀ n, n < 16 → a.rd (R.GPI_CFG_FUNC n) = 1 → a.flag (R.GPI_CFG_OD n) = false → u.pad n = bitOf v n) ∧
        WordsKept [R.GPI_OUT_OUT.addr] a u ∧ Only [.regs, .ev, .trace] a u
      drives (.gpioSet t who m) (out ||| m) ∧ drives (.gpioClear t who m) (out - (out &&& m)) ∧ drives (.gpioToggle t who m) (out ^^^ m)) ∧
    (∀ p, p < 2 →
      let ur := a.port p
      let sp := a.port (2 + p)
      let ic := a.port (4 + p)
      let others := fun (k : Nat) (u : State) => (∀ m, m ≠ k → u.port m = a.port m) ∧ u.per.dali = a.per.dali ∧ u.per.dim = a.per.dim ∧ u.per.gpioExt = a.per.gpioExt
      let room := 16 - sp.rx.length
      (∀ who data, who.late = false → a.owns who Hdr.uar = true → a.unitOn Hdr.uar = true →
        let sent := if a.flag (R.UART_CFG_EN p) then min ((ns - ur.startedAt) / a.uartByteNs p) ur.tx.length else 0
        let left := ur.tx.drop sent
        ∃ u, exec (.uartDataWrite t who p data) s = .next u ∧ (u.port p).tx = (if 16 ≤ left.length then left else left ++ [data.toNat]) ∧
          (u.port p).rx = ur.rx ∧ others p u ∧ Only [.units, .per] a u) ∧
      (ur.rx = [] → ∃ u, exec (.uartDataRead t p) s = .next u ∧ u.bus = { value := 0, error := false } ∧ Only [.bus] a u) ∧
      (∀ v rest, ur.rx = v :: rest → ∃ u, exec (.uartDataRead t p) s = .next u ∧ u.bus = { value := v + 256, error := false } ∧
        u.port p = { ur with rx := rest } ∧ others p u ∧ Only [.per, .bus] a u) ∧
      (∀ data perr ferr, let cmd : Instr := .uartByteReceived t p data perr ferr
        let up := a.domOn Dom.per = true ∧ a.flag (R.UART_CFG_EN p) = true ∧ a.enabled Hdr.uar = true
        (¬up → exec cmd s = .next a) ∧
        (up → 16 ≤ ur.rx.length → ∃ u, exec cmd s = .next u ∧ u.flag (R.UART_STAT_OVR p) = true ∧ WordsKept [(R.UART_STAT_OVR p).addr] a u ∧
          Only [.regs, .units] a u) ∧
        (up → ur.rx.length < 16 → ∃ u, exec cmd s = .next u ∧
          u.port p = { ur with rx := ur.rx ++ [data.toNat + (if perr then 512 else 0) + if ferr then 1024 else 0] } ∧ others p u ∧
          (ur.rx.length + 1 = max 1 (a.rd (R.UART_CFG_RXTHR p)) → Emitted a u (0x85 + p)) ∧
          (ur.rx.length + 1 ≠ max 1 (a.rd (R.UART_CFG_RXTHR p)) → u.ev = a.ev) ∧ WordsKept [] a u ∧ Only [.regs, .units, .per, .ev, .trace] a u)) ∧
      (∀ who n, who.late = false → a.owns who Hdr.spi = true → a.unitOn Hdr.spi = true → n < 65536 →
        let may := a.flag (R.SPI_CFG_EN p) = true ∧ a.flag (R.SPI_CFG_SLAVE p) = false ∧ a.flag (R.SPI_STAT_BUSY p) = false ∧ a.accepts Hdr.spi = true
        (¬may → exec (.spiGo t who p n) s = .next a) ∧
        (may → ∃ u, exec (.spiGo t who p n) s = .next u ∧ u.flag (R.SPI_STAT_BUSY p) = true ∧ u.port (2 + p) = { sp with len := n, startedAt := ns } ∧
          others (2 + p) u ∧ WordsKept [(R.SPI_STAT_BUSY p).addr] a u ∧ Only [.regs, .per] a u)) ∧
      (∀ rx : List Byte, let cmd : Instr := .spiTransferEnd t p rx
        let up := a.domOn Dom.per = true ∧ a.flag (R.SPI_CFG_EN p) = true
        let slave := a.flag (R.SPI_CFG_SLAVE p)
        let ends := a.flag (R.SPI_STAT_BUSY p) = true ∧ sp.startedAt + sp.len * 8 * (a.rd (R.SPI_CFG_DIV p) + 1) * 1000 / 24 ≤ ns
        let got := (if slave then rx else rx.take sp.len).map (·.toNat)
        (¬up ∨ (slave = false ∧ ¬ends) → exec cmd s = .next a) ∧
        (up → slave = true ∨ ends → ∃ u, exec cmd s = .next u ∧
          u.port (2 + p) = { sp with tx := sp.tx.drop (if slave then rx.length else sp.len), rx := sp.rx ++ got.take room } ∧
          (slave = false → u.flag (R.SPI_STAT_BUSY p) = false) ∧ (room < got.length → u.flag (R.SPI_STAT_OVR p) = true) ∧
          (slave = true → sp.tx.length < rx.length → u.flag (R.SPI_STAT_UNDER p) = true) ∧ Emitted a u (0x87 + p) ∧ others (2 + p) u ∧
          WordsKept [(R.SPI_STAT_BUSY p).addr] a u ∧ Only [.regs, .units, .per, .ev, .trace] a u)) ∧
      (∀ who v, who.late = false → a.owns who Hdr.iic = true → a.unitOn Hdr.iic = true → v < 65536 →
        let may := a.flag (R.IIC_CFG_EN p) = true ∧ a.flag (R.IIC_CFG_TARGET p) = false ∧ a.flag (R.IIC_STAT_BUSY p) = false ∧ a.accepts Hdr.iic = true
        (¬may → exec (.iicGo t who p v) s = .next a) ∧
        (may → ∃ u, exec (.iicGo t who p v) s = .next u ∧ u.flag (R.IIC_STAT_BUSY p) = true ∧
          u.port (4 + p) = { ic with len := v / 256, read := bitOf v 7, startedAt := ns } ∧ others (4 + p) u ∧
          WordsKept [(R.IIC_STAT_BUSY p).addr] a u ∧ Only [.regs, .per] a u)) ∧
      (∀ moved (rx : List Byte) nack lost, let cmd : Instr := .iicTransferEnd t p moved rx nack lost
        let up := a.domOn Dom.per = true ∧ a.flag (R.IIC_CFG_EN p) = true
        let target := a.flag (R.IIC_CFG_TARGET p)
        let fine := nack = false ∧ lost = false
        (¬up ∨ (target = false ∧ a.flag (R.IIC_STAT_BUSY p) = false) → exec cmd s = .next a) ∧
        (up → target = true ∨ a.flag (R.IIC_STAT_BUSY p) = true → ∃ u, exec cmd s = .next u ∧ u.flag (R.IIC_STAT_BUSY p) = false ∧
          (nack = true → u.flag (R.IIC_STAT_NACK p) = true) ∧ (lost = true → u.flag (R.IIC_STAT_ARBLOST p) = true) ∧
          (target = false → ic.read = true → u.port (4 + p) = { ic with rx := ic.rx ++ (rx.take ic.len).map (·.toNat) }) ∧
          (fine → target = false → ic.read = false → u.port (4 + p) = { ic with tx := ic.tx.drop ic.len }) ∧
          (¬fine → target = false → ic.read = false → u.port (4 + p) = { ic with tx := ic.tx.drop (min moved ic.len) }) ∧
          (target = true → u.port (4 + p) = { ic with tx := ic.tx.drop moved, rx := ic.rx ++ rx.map (·.toNat) }) ∧
          Emitted a u (0x89 + p) ∧ others (4 + p) u ∧ WordsKept [(R.IIC_STAT_BUSY p).addr] a u ∧ Only [.regs, .units, .per, .ev, .trace] a u)))

/-- From the state after the elapsed time. A request the tag does not hear (no field, RFEN clear under main, lapsed, quiet, another's UID) changes nothing; one it accepts counts in CMDS under main. Replies go out at once, or are due under exact timing. Inventory and INV_ADAPT answer the UID in its slot; Stay quiet, Select and Reset to ready set the mode. Reads answer the blocks with their security bytes, secrets as zero, or 0x10 or 0xA1; writes and locks begin a journalled write, or answer 0x10, 0xA1, 0x12, 0x11, or 0xA2 when field and main are too weak. AFI, DSFID, CTR_INC, HOMEROOM_REQ, TIMING and LEAVE_SECURED need the secured state, else 0xA1. PASSWORD and AUTH_END enter it and clear the failures, or count counter 7 or 6, below its limit, and answer 0xA3, the fourth failure in a row locking; AUTH_BEGIN answers RB and TA. EXCH_READ and EXCH_WRITE need EXOPEN or the secured state, and answer 0xA5 on an empty or a full half. An unknown command answers 0x01. -/
def Obligations.TagAnswersReaders : Prop :=
  ∀ (s : State) (t : Elapsed), s.Canonical →
    let a := s.advance t
    let ns := a.clk.ns
    let main := a.domOn Dom.tag
    let listens := a.tag.field = true ∧ (main = false ∨ a.flag R.TAG_CFG_RFEN = true) ∧ (a.unit Hdr.tag).lapsed = false
    let acc : TagState := { a.tag with auth := none }
    let one := fun (u : State) (f : Fld) => u.rd f = min (2 ^ f.width - 1) (a.rd f + 1)
    let counted := fun (u : State) => (main = true → one u R.TAG_COUNTS_CMDS) ∧ WordsKept (if main then [R.TAG_COUNTS_CMDS.addr] else []) a u
    let replied := fun (b : TagState) (r : TagReply) => if ({ a with tag := b } : State).tagExact = true then { b with due := some (r, ns, false) } else { b with reply := r }
    let tells := fun (cmd : Instr) (b : TagState) (r : TagReply) => ∃ u, exec cmd s = .next u ∧ u.tag = replied b r ∧ counted u ∧ Only [.regs, .units, .tag] a u
    let begun := fun (op : TagOp) (who : TagAsker) (u : State) =>
      let tgt := a.tagTarget op
      let j : JournalSlot := { slot := a.nextSeq % 16, seq := a.nextSeq, first := tgt.1, data := tgt.2, whole := false, marked := false }
      (a.tag.run = none → a.tag.waiting = [] → u.tag.run = some { write := ⟨op, who⟩, slot := j, step := 3, at_ := ns } ∧ u.tag.waiting = [] ∧
        u.tag.journal = (a.tag.journal.filter fun x => x.slot != j.slot) ++ [j]) ∧
      (a.tag.run ≠ none → u.tag.run = a.tag.run ∧ u.tag.waiting = a.tag.waiting ++ [⟨op, who⟩] ∧ u.tag.journal = a.tag.journal)
    let writes := fun (cmd : Instr) (strong : Bool) (op : TagOp) (reply : List Byte) (p : State → Prop) =>
      (strong = false → main = false → tells cmd acc (.error 0xA2)) ∧
      (strong = true ∨ main = true → ∃ u, exec cmd s = .next u ∧ begun op (.field reply) u ∧ p u ∧ u.tag.secured = a.tag.secured ∧ u.tag.auth = none ∧
        (a.tagExact = true → u.tag.due = some (.silent, ns, true)) ∧ (a.tagExact = false → u.tag.reply = a.tag.reply) ∧ counted u ∧
        Only [.regs, .units, .tag] a u)
    let stored := fun (u : State) => u.tag.eeprom = a.tag.eeprom
    let secured := a.tag.secured
    let counts := fun (n : Nat) (u : State) => (a.counter n ≠ 0xFFFFFF → begun (.counter n) .tag u) ∧
      (a.counter n = 0xFFFFFF → u.tag.run = a.tag.run ∧ u.tag.waiting = a.tag.waiting ∧ u.tag.journal = a.tag.journal)
    (∀ afi maskLen mask sixteen q nonce,
      let fits := ∀ w, afi = some w → (w.toNat / 16 = 0 ∨ w.toNat / 16 = a.afi / 16) ∧ (w.toNat % 16 = 0 ∨ w.toNat % 16 = a.afi % 16)
      let round := listens ∧ a.tag.mode ≠ .quiet ∧ fits ∧ tagUid % 2 ^ maskLen = mask % 2 ^ maskLen
      (¬round → exec (.inventory t afi maskLen mask sixteen) s = .next a) ∧
      (round → tells (.inventory t afi maskLen mask sixteen) { acc with replySlot := if sixteen then tagUid / 2 ^ maskLen % 16 else 0 }
        (.ok (BitVec.ofNat 8 a.dsfid :: leBytes 8 tagUid))) ∧
      (¬round ∨ 8 < q → exec (.invAdapt t q nonce afi maskLen mask) s = .next a) ∧
      (round → q ≤ 8 → tells (.invAdapt t q nonce afi maskLen mask) { acc with replySlot := crc16 (leBytes 8 tagUid ++ nonce) % 2 ^ q }
        (.ok (leBytes 8 tagUid)))) ∧
    (∀ u : BitVec 64, let own := u.toNat = tagUid
      (¬listens ∨ ¬own → exec (.stayQuiet t u) s = .next a) ∧
      (listens → own → (∃ b, exec (.stayQuiet t u) s = .next b ∧ b.tag = { acc with mode := .quiet, reply := .silent } ∧ counted b ∧
        Only [.regs, .units, .tag] a b) ∧ tells (.select t u) { acc with mode := .selected } (.ok [])) ∧
      (listens → ¬own → a.tag.mode = .selected → ∃ b, exec (.select t u) s = .next b ∧ b.tag = { a.tag with mode := .ready } ∧ Only [.tag] a b) ∧
      (¬listens ∨ (¬own ∧ a.tag.mode ≠ .selected) → exec (.select t u) s = .next a)) ∧
    (∀ (req : TagReq),
      let meant := match req.addr with
        | .any => a.tag.mode ≠ .quiet
        | .selected => a.tag.mode = .selected
        | .uid u => u.toNat = tagUid
      (∀ ext b n data afi strong k enter, ¬(listens ∧ meant) → ∀ cmd ∈ [Instr.readSingleBlock t req ext b, .writeSingleBlock t req ext b data strong,
        .lockBlock t req ext b strong, .readMultipleBlocks t req ext b n, .writeMultipleBlocks t req ext b data strong, .resetToReady t req,
        .writeAfi t req afi strong, .lockAfi t req strong, .writeDsfid t req afi strong, .lockDsfid t req strong, .getSystemInformation t req ext,
        .getBlockSecurityStatus t req ext b n, .password t req data strong, .authBegin t req k data, .authEnd t req data, .exchRead t req strong,
        .exchWrite t req data strong, .ctrInc t req k strong, .homeroomReq t req strong, .timing t req enter, .leaveSecured t req,
        .tagUnknownCommand t req], exec cmd s = .next a) ∧
      (listens → meant →
        tells (.tagUnknownCommand t req) acc (.error 0x01) ∧ tells (.resetToReady t req) { acc with mode := .ready } (.ok []) ∧
        (∀ ext first n,
          let reads := fun (cmd : Instr) (n : Nat) =>
            let can := ∀ i, i < n → first + i < 512 ∨ (576 ≤ first + i ∧ first + i < 640) ∨ (640 ≤ first + i ∧ secured = true)
            (64 < n ∨ 4096 < first + n → tells cmd acc (.error 0x10)) ∧
            (n ≤ 64 → first + n ≤ 4096 → ¬can → tells cmd acc (.error 0xA1)) ∧
            (n ≤ 64 → first + n ≤ 4096 → can → tells cmd acc (.ok ((List.range n).flatMap fun i =>
              (if req.option then [if first + i < 512 ∧ a.blockLocked (first + i) = true then 1#8 else 0#8] else []) ++ a.readBlock (first + i))))
          reads (.readSingleBlock t req ext first) 1 ∧ reads (.readMultipleBlocks t req ext first n) n ∧
          (4096 < first + n → tells (.getBlockSecurityStatus t req ext first n) acc (.error 0x10)) ∧
          (first + n ≤ 4096 → tells (.getBlockSecurityStatus t req ext first n) acc (.ok ((List.range n).map fun i =>
            if first + i < 512 ∧ a.blockLocked (first + i) = true then 1#8 else 0#8)))) ∧
        (∀ ext first (data : List Byte) strong, ∀ cmd ∈ [Instr.writeSingleBlock t req ext first data strong, .writeMultipleBlocks t req ext first data strong],
          let n := data.length / 4
          let can := ∀ i, i < n → first + i < 512 ∨ (640 ≤ first + i ∧ secured = true)
          let locked := ∃ i, i < n ∧ first + i < 512 ∧ a.blockLocked (first + i) = true
          (8 < n ∨ 4096 < first + n → tells cmd acc (.error 0x10)) ∧
          (n ≤ 8 → first + n ≤ 4096 → (¬can → tells cmd acc (.error 0xA1)) ∧ (can → locked → tells cmd acc (.error 0x12)) ∧
            (can → ¬locked → writes cmd strong (.data first data) [] stored))) ∧
        (∀ ext b strong, let cmd : Instr := .lockBlock t req ext b strong
          (4096 ≤ b → tells cmd acc (.error 0x10)) ∧ (512 ≤ b → b < 4096 → tells cmd acc (.error 0xA1)) ∧
          (b < 512 → (a.blockLocked b = true → tells cmd acc (.error 0x11)) ∧
            (a.blockLocked b = false → writes cmd strong (.data (4096 + b) [1#8, 0#8, 0#8, 0#8]) [] stored))) ∧
        (∀ (x : Byte) strong, ∀ c ∈ [(Instr.writeAfi t req x strong, 16, 0xFF, x.toNat, 0x12), (.lockAfi t req strong, 16, 0x10000, 0x10000, 0x11),
            (.writeDsfid t req x strong, 17, 0xFF00, x.toNat * 256, 0x12), (.lockDsfid t req strong, 17, 0x20000, 0x20000, 0x11)],
          (secured = false → tells c.1 acc (.error 0xA1)) ∧
          (secured = true → (bitOf a.tagFlags c.2.1 = true → tells c.1 acc (.error c.2.2.2.2)) ∧
            (bitOf a.tagFlags c.2.1 = false → writes c.1 strong (.flags c.2.2.1 c.2.2.2.1) [] stored))) ∧
        (∀ ext, ∃ u d, exec (.getSystemInformation t req ext) s = .next u ∧ u.tag = replied acc (.ok d) ∧
          d.take 11 = 0x0F#8 :: leBytes 8 tagUid ++ [BitVec.ofNat 8 a.dsfid, BitVec.ofNat 8 a.afi] ∧
          (ext = true → (d.drop 11).take 3 = leBytes 2 4095 ++ [3#8] ∧ d.length = 15) ∧ (ext = false → (d.drop 12).take 1 = [3#8] ∧ d.length = 14) ∧
          counted u ∧ Only [.regs, .units, .tag, .free] a u) ∧
        (let passed := fun (cmd : Instr) => ∃ u, exec cmd s = .next u ∧ u.tag.secured = true ∧ u.tag.failures = 0 ∧ u.tag.auth = none ∧
           counts 5 u ∧ stored u ∧ (a.tagExact = true → u.tag.due = some (.ok [], ns, false)) ∧
           (a.tagExact = false → u.tag.reply = .ok []) ∧ counted u ∧ Only [.regs, .units, .tag] a u
         let failed := fun (cmd : Instr) (ctr : Nat) => ∃ u, exec cmd s = .next u ∧ u.tag.secured = secured ∧ u.tag.failures = a.tag.failures + 1 ∧
           u.tag.locked = (a.tag.locked || decide (4 ≤ a.tag.failures + 1)) ∧ u.tag.auth = none ∧ counts ctr u ∧ stored u ∧
           (a.tagExact = true → u.tag.due = some (.error 0xA3, ns, false)) ∧ (a.tagExact = false → u.tag.reply = .error 0xA3) ∧ counted u ∧
           Only [.regs, .units, .tag] a u
         (∀ pw strong, let cmd : Instr := .password t req pw strong
           let right := a.flag R.TAG_CFG_PWDEN = true ∧ a.tagBytes 2368 8 ≠ zeros 8 ∧ a.tagBytes 2368 8 = pw
           (secured = true → tells cmd acc (.error 0xA1)) ∧ (secured = false → a.tag.locked = true → tells cmd acc (.error 0xA3)) ∧
           (secured = false → a.tag.locked = false → (right → passed cmd) ∧ (¬right → failed cmd 7))) ∧
         (∀ k ra, let cmd : Instr := .authBegin t req k ra
           let open_ := a.tag.locked = false ∧ a.flag R.TAG_CFG_AUTHEN = true ∧ k < 4
           (secured = true → tells cmd acc (.error 0xA1)) ∧ (secured = false → ¬open_ → tells cmd acc (.error 0xA3)) ∧
           (secured = false → open_ → ∃ u rb, exec cmd s = .next u ∧ rb.length = 8 ∧
             u.tag = replied { acc with auth := some (k, ra, rb) } (.ok (rb ++ (aesBlock (a.tagKey k) (ra ++ rb)).take 8)) ∧ counted u ∧
             Only [.regs, .units, .tag, .free] a u)) ∧
         (∀ tr, let cmd : Instr := .authEnd t req tr
           (a.tag.auth = none → tells cmd acc (.error 0xA3)) ∧
           (∀ k ra rb, a.tag.auth = some (k, ra, rb) →
             let right := a.tagKey k ≠ zeros 16 ∧ (aesBlock (a.tagKey k) (rb ++ ra)).take 8 = tr
             (right → passed cmd) ∧ (¬right → failed cmd 6)))) ∧
        (let may := secured = true ∨ a.flag R.TAG_CFG_EXOPEN = true
         (∀ strong, let cmd : Instr := .exchRead t req strong
           (¬may → tells cmd acc (.error 0xA1)) ∧ (may → a.h2f = false ∨ a.flagPending 20 = true → tells cmd acc (.error 0xA5)) ∧
           (may → a.h2f = true → a.flagPending 20 = false →
             writes cmd strong (.flags (2 ^ 20) 0) (BitVec.ofNat 8 a.h2fLen :: a.tagBytes 2176 a.h2fLen) stored)) ∧
         (∀ (data : List Byte) strong, 0 < data.length → data.length ≤ 128 → let cmd : Instr := .exchWrite t req data strong
           (¬may → tells cmd acc (.error 0xA1)) ∧ (may → a.f2h = true ∨ a.flagPending 19 = true → tells cmd acc (.error 0xA5)) ∧
           (may → a.f2h = false → a.flagPending 19 = false →
             writes cmd strong (.flags (2 ^ 19 + 127 * 2 ^ 21) (2 ^ 19 + (data.length - 1) * 2 ^ 21)) [] fun u =>
               u.tagBytes 2048 data.length = data ∧ ∀ x, x < 2048 ∨ 2048 + data.length ≤ x → sget tagDefault u.tag.eeprom x = sget tagDefault a.tag.eeprom x))) ∧
        (∀ n strong enter,
          (secured = false → ∀ cmd ∈ [Instr.ctrInc t req n strong, .homeroomReq t req strong, .timing t req enter, .leaveSecured t req],
            tells cmd acc (.error 0xA1)) ∧
          (secured = true → (a.counter n = 0xFFFFFF → tells (.ctrInc t req n strong) acc (.error 0xA4)) ∧
            (a.counter n ≠ 0xFFFFFF → writes (.ctrInc t req n strong) strong (.counter n) [] stored) ∧
            writes (.homeroomReq t req strong) strong (.flags (2 ^ 18) (2 ^ 18)) [] stored ∧
            tells (.timing t req enter) { acc with exact := enter } (.ok []) ∧ tells (.leaveSecured t req) { acc with secured := false } (.ok [])))))

/-- From the state after the elapsed time. A programming step ends after 250 us a word, not before: step 3 makes the journal slot whole, step 4 puts the data into memory and its sequence into TAG_SEQ and touches no other byte, step 5 answers the field or completes the descriptor and queues the count of counter 4 below its limit. At loss of field the secured state ends, and without main nothing of a write in step 3 stands; powered again, the tag programs its newest committed slot, counted in TORN when it was torn. Attempts are allowed again 100 ms after the field, not before. An exact reply leaves 4,320 carrier cycles after the end of frame, as 0x13 for a write that had not ended then. On ring 7, while the field holds the memory descriptors wait, and after 20 ms end FIELD_BUSY, counted; else ranges that leave their area are MALFORMED, denied areas ACCESS, locked blocks BLOCK_LOCKED, a counter at its end COUNTER_LIMIT, a full half EXCH_FULL; reads give their bytes, writes are queued for the journal and complete at its step 5. -/
def Obligations.TagJournalAndHostAccess : Prop :=
  ∀ (s : State) (t : Elapsed), s.Canonical →
    let a := s.advance t
    let ns := a.clk.ns
    let g := a.tag
    let main := a.domOn Dom.tag
    let one := fun (u : State) (f : Fld) => u.rd f = min (2 ^ f.width - 1) (a.rd f + 1)
    let begun := fun (op : TagOp) (who : TagAsker) (u : State) =>
      let tgt := a.tagTarget op
      let j : JournalSlot := { slot := a.nextSeq % 16, seq := a.nextSeq, first := tgt.1, data := tgt.2, whole := false, marked := false }
      (g.run = none → g.waiting = [] → u.tag.run = some { write := ⟨op, who⟩, slot := j, step := 3, at_ := ns } ∧ u.tag.waiting = [] ∧
        u.tag.journal = (g.journal.filter fun x => x.slot != j.slot) ++ [j]) ∧
      (g.run ≠ none → u.tag.run = g.run ∧ u.tag.waiting = g.waiting ++ [⟨op, who⟩] ∧ u.tag.journal = g.journal)
    (g.run = none → exec (.tagWriteStepEnd t) s = .next a) ∧
    (∀ r, g.run = some r →
      let cmd : Instr := .tagWriteStepEnd t
      let n := r.slot.data.length
      let words := if r.step = 3 then 3 + n / 4 else if r.step = 4 then 1 else n / 4
      let past := r.at_ + 250000 * words ≤ ns
      let put := fun (j : JournalSlot) => g.journal.map fun x => if x.slot = j.slot then j else x
      (¬past → exec cmd s = .next a) ∧
      (past → r.step = 3 → ∃ u, exec cmd s = .next u ∧ u.tag = { g with
          journal := put { r.slot with whole := true }, run := some { r with slot := { r.slot with whole := true }, step := 4, at_ := ns } } ∧
        Only [.units, .tag] a u) ∧
      (past → r.step = 4 → ∃ u, exec cmd s = .next u ∧
        (∀ x, sget tagDefault u.tag.eeprom x = if 4 * r.slot.first ≤ x ∧ x < 4 * r.slot.first + n then r.slot.data.getD (x - 4 * r.slot.first) 0#8
          else sget tagDefault g.eeprom x) ∧
        u.tag.run = some { r with slot := { r.slot with marked := true }, step := 5, at_ := ns } ∧ u.tag.journal = put { r.slot with marked := true } ∧
        u.rd R.TAG_SEQ_SEQ = r.slot.seq % 2 ^ 24 ∧
        (u.f2h = false ∨ a.f2h = true → u.tag.waiting = g.waiting ∧ WordsKept [R.TAG_SEQ_SEQ.addr, R.BKP_WAKE_SRC.addr] a u ∧
          Only [.regs, .units, .tag, .bkp] a u) ∧
        (∀ w, a.f2h = false → u.f2h = true → a.ring.work.find? (fun w => w.ring == 7 && w.opcode == 0x74 && w.stage == .waiting) = some w →
          a.ramBytes (w.word 3) 128 = true → Decided a u w 0x00 u.f2hLen ∧ BytesPut a u (w.word 3) (u.tagBytes 2048 u.f2hLen) ∧
          u.tag.waiting = g.waiting ++ [⟨.flags (2 ^ 19) 0, .tag⟩])) ∧
      let rises := ∃ k, r.write.op = .counter k
      (past → r.step = 5 → ∃ u, exec cmd s = .next u ∧ u.tag.eeprom = g.eeprom ∧
        (r.write.op ≠ .counter 4 → a.counter 4 ≠ 0xFFFFFF → u.tag.waiting = g.waiting ∧ ∃ x, u.tag.run = some x ∧ x.write = ⟨.counter 4, .tag⟩ ∧ x.step = 3 ∧ x.at_ = ns) ∧
        (r.write.op = .counter 4 ∨ a.counter 4 = 0xFFFFFF → g.waiting = [] → u.tag.run = none) ∧
        (∀ d, r.write.asker = .field d → ∃ x, (rises → x = r.slot.data.take 3) ∧ (¬rises → x = d) ∧
          (∀ y t0, g.due = some (y, t0, true) → u.tag.due = some (.ok x, ns, true)) ∧
          ((∀ y t0, g.due ≠ some (y, t0, true)) → u.tag.reply = .ok x) ∧ Only [.units, .tag] a u) ∧
        (∀ idx res w, r.write.asker = .host idx res → a.findWork 7 idx = some w →
          (rises → Decided a u w 0x00 (leNum (r.slot.data.take 3))) ∧ (¬rises → Decided a u w 0x00 (res.getD r.slot.seq)) ∧
          Only [.regs, .units, .ring, .tag] a u) ∧
        (r.write.asker = .tag → Only [.units, .tag] a u))) ∧
    (let repaired := fun (u : State) => (∀ j, a.newestSlot = some j → u.rd R.TAG_SEQ_SEQ = j.seq % 2 ^ 24 ∧
         (g.torn = true → one u R.TAG_COUNTS_TORN) ∧
         ∀ x, sget tagDefault u.tag.eeprom x = if 4 * j.first ≤ x ∧ x < 4 * j.first + j.data.length then j.data.getD (x - 4 * j.first) 0#8
           else sget tagDefault g.eeprom x) ∧ (a.newestSlot = none → u.tag.eeprom = g.eeprom) ∧ u.tag.torn = false ∧ u.tag.mode = .ready ∧
         WordsKept [R.TAG_SEQ_SEQ.addr, R.TAG_COUNTS_TORN.addr] a u ∧ Only [.regs, .tag] a u
     (g.field = true → ∀ byField, exec (.tagPowerUp t byField) s = .next a) ∧
     (g.field = false → main = true → (∃ u, exec (.tagPowerUp t true) s = .next u ∧ u.tag = { g with field := true } ∧ Only [.tag] a u) ∧
       ∃ u, exec (.tagPowerUp t false) s = .next u ∧ repaired u ∧ u.tag.field = false) ∧
     (g.field = false → main = false → (∃ u, exec (.tagPowerUp t true) s = .next u ∧ repaired u ∧ u.tag.field = true) ∧
       exec (.tagPowerUp t false) s = .next a)) ∧
    (let cmd : Instr := .tagFieldLoss t
     let fails := if g.locked then g.failures else 0
     (g.field = false → exec cmd s = .next a) ∧
     (g.field = true → main = true → ∃ u, exec cmd s = .next u ∧ u.tag = { g with
         field := false, fieldLostAt := ns, secured := false, auth := none, exact := false, mode := .ready, due := none, failures := fails } ∧
       Only [.tag] a u) ∧
     (g.field = true → main = false → ∃ u, exec cmd s = .next u ∧ u.tag.field = false ∧ u.tag.fieldLostAt = ns ∧ u.tag.secured = false ∧ u.tag.auth = none ∧
       u.tag.run = none ∧ u.tag.waiting = [] ∧ u.tag.due = none ∧ u.tag.mode = .ready ∧ u.tag.failures = fails ∧ u.tag.locked = g.locked ∧
       ((∀ r, g.run = some r → r.step ≠ 4) → u.tag.eeprom = g.eeprom) ∧
       ((∀ r, g.run = some r → r.step = 3) → u.tag.journal = g.journal ∧ Only [.tag] a u))) ∧
    (let may := g.field = false ∧ g.fieldLostAt + 100000000 ≤ ns
     (¬may → exec (.tagLockoutEnd t) s = .next a) ∧
     (may → ∃ u, exec (.tagLockoutEnd t) s = .next u ∧ u.tag = { g with locked := false, failures := 0 } ∧ Only [.tag] a u)) ∧
    (g.due = none → exec (.tagExactReply t) s = .next a) ∧
    (∀ r t0 waits, g.due = some (r, t0, waits) →
      let early := ns * 13560 < t0 * 13560 + 4320 * 1000000
      let ended := waits = true ∧ r ≠ .silent
      let answers := fun (x : TagReply) => ∃ u, exec (.tagExactReply t) s = .next u ∧ u.tag = { g with due := none, reply := x } ∧ Only [.tag] a u
      (early → ¬ended → exec (.tagExactReply t) s = .next a) ∧ (early → ended → answers (.error 0x13)) ∧
      (¬early → waits = true → r = .silent → answers (.error 0x13)) ∧ (¬early → waits = false ∨ ended → answers r)) ∧
    (∀ w, w.ring = 7 →
      let first := bitsOf (w.word 3) 0 12
      let runs := fun (op : Nat) (cmd : Instr) (p : (Nat → Prop) → Prop) => a.workReady 7 w.idx op w = true →
        (a.tagHeld = true → ∃ u, exec cmd s = .next u ∧ u.findWork 7 w.idx = some { w with stage := .waiting, b := ns + 1 } ∧ u.ring.done = a.ring.done ∧
          Only [.ring] a u) ∧
        (a.tagHeld = false → p fun st => ∃ u, exec cmd s = .next u ∧ Decided a u w st 0 ∧ Only [.ring] a u)
      let source := fun (q n : Nat) => a.devReadable q n = true ∧ a.bankAllows w.prot q n = true ∧ a.rangeOn q n = true
      let queued := fun (cmd : Instr) (op : TagOp) (res : Option Nat) (p : State → Prop) => ∃ u, exec cmd s = .next u ∧ begun op (.host w.idx res) u ∧ p u ∧
        u.findWork 7 w.idx = some { w with stage := .committed } ∧ u.ring.done = a.ring.done ∧ Only [.ring, .tag] a u
      let stored := fun (u : State) => u.tag.eeprom = g.eeprom
      let from_ := fun (cmd : Instr) (q n : Nat) (ends : Nat → Prop) (p : List Byte → Prop) =>
        (a.devReadable q n = false → ends 0x0B) ∧ (a.devReadable q n = true → a.bankAllows w.prot q n = false → ends 0x0C) ∧
        (source q n → a.ramBytes q n = true → (a.anyPoison q n = true → ∃ u, exec cmd s = .next u ∧ Decided a u w 0x32 0 ∧ one u R.SRM_ERRS_UNCORR) ∧
          (a.anyPoison q n = false → p ((List.range n).map fun i => a.byte (q + i))))
      runs 0x70 (.tagRead t w.idx) (fun ends =>
        let cmd : Instr := .tagRead t w.idx
        let n := bitsOf (w.word 3) 16 7
        let q := w.word 4
        let ok := blockRange first n = true ∧ n ≤ 64 ∧ q % 4 = 0
        (¬ok → ends 0x0B) ∧ (ok → tagArea first = 1 → ends 0x0C) ∧
        (ok → tagArea first ≠ 1 → (a.devWritable q (4 * n) = false → ends 0x0B) ∧
          (a.devWritable q (4 * n) = true → a.bankAllows w.prot q (4 * n) = false → ends 0x0C) ∧
          (a.devWritable q (4 * n) = true → a.bankAllows w.prot q (4 * n) = true → a.rangeOn q (4 * n) = true → a.ramBytes q (4 * n) = true →
            ∃ u, exec cmd s = .next u ∧ Decided a u w 0x00 (4 * n) ∧ BytesPut a u q ((List.range n).flatMap fun i => a.readBlock (first + i)) ∧
              u.tag = g ∧ Only [.units, .ring, .mem] a u))) ∧
      runs 0x71 (.tagWrite t w.idx) (fun ends =>
        let cmd : Instr := .tagWrite t w.idx
        let n := bitsOf (w.word 3) 16 4
        let ok := blockRange first n = true ∧ n ≤ 8
        let denied := tagArea first = 1 ∨ tagArea first = 2
        let locked := ∃ i, i < n ∧ first + i < 512 ∧ a.blockLocked (first + i) = true
        (¬ok → ends 0x0B) ∧ (ok → denied → ends 0x0C) ∧ (ok → ¬denied → locked → ends 0x30) ∧
        (ok → ¬denied → ¬locked → from_ cmd (w.word 4) (4 * n) ends fun d => queued cmd (.data first d) none stored)) ∧
      runs 0x72 (.tagCtr t w.idx) (fun ends =>
        let cmd : Instr := .tagCtr t w.idx
        let k := bitsOf (w.word 3) 0 3
        (bitOf (w.word 3) 8 = false → ∃ u, exec cmd s = .next u ∧ Decided a u w 0x00 (a.counter k) ∧ u.tag = g ∧ Only [.units, .ring] a u) ∧
        (bitOf (w.word 3) 8 = true → (4 ≤ k → ends 0x0C) ∧ (k < 4 → a.counter k = 0xFFFFFF → ends 0x2F) ∧
          (k < 4 → a.counter k ≠ 0xFFFFFF → queued cmd (.counter k) none stored))) ∧
      runs 0x73 (.tagSecret t w.idx) (fun ends =>
        let cmd : Instr := .tagSecret t w.idx
        let k := bitsOf (w.word 3) 0 3
        let block := if k = 0 then 592 else 590 + 4 * k
        let n := if k = 0 then 8 else 16
        let erase := bitOf (w.word 3) 8
        (w.prot = false → ends 0x0C) ∧ (w.prot = true → 4 < k → ends 0x0B) ∧
        (w.prot = true → k ≤ 4 → erase = true → queued cmd (.data block (zeros n)) none stored) ∧
        (w.prot = true → k ≤ 4 → erase = false → a.protectedRange (w.word 4) n = false → ends 0x0C) ∧
        (w.prot = true → k ≤ 4 → erase = false → a.protectedRange (w.word 4) n = true →
          from_ cmd (w.word 4) n ends fun d => queued cmd (.data block d) none stored)) ∧
      runs 0x74 (.tagExchRx t w.idx) (fun ends =>
        let cmd : Instr := .tagExchRx t w.idx
        let q := w.word 3
        (a.devWritable q 128 = false → ends 0x0B) ∧ (a.devWritable q 128 = true → a.bankAllows w.prot q 128 = false → ends 0x0C) ∧
        (a.devWritable q 128 = true → a.bankAllows w.prot q 128 = true → a.rangeOn q 128 = true →
          (a.f2h = false ∨ a.flagPending 19 = true → ∃ u, exec cmd s = .next u ∧ u.findWork 7 w.idx = some { w with stage := .waiting, b := 0 } ∧
            u.ring.done = a.ring.done ∧ u.tag = g ∧ Only [.ring] a u) ∧
          (a.f2h = true → a.flagPending 19 = false → a.ramBytes q 128 = true →
            (∀ x ∈ a.ring.work, x.ring = 7 → x.opcode = 0x74 → x.idx = w.idx ∨ x.stage ≠ .waiting) →
            ∃ u, exec cmd s = .next u ∧ u.findWork 7 w.idx = none ∧ BytesPut a u q (a.tagBytes 2048 a.f2hLen) ∧ begun (.flags (2 ^ 19) 0) .tag u ∧
              (∃ d, u.ring.done = a.ring.done ++ [d] ∧ d.ring = 7 ∧ d.idx = w.idx ∧ d.status = 0 ∧ d.result = a.f2hLen) ∧ stored u))) ∧
      runs 0x75 (.tagExchTx t w.idx) (fun ends =>
        let cmd : Instr := .tagExchTx t w.idx
        let n := bitsOf (w.word 4) 0 8
        let ok := 1 ≤ n ∧ n ≤ 128
        (¬ok → ends 0x0B) ∧ (ok → a.h2f = true ∨ a.flagPending 20 = true → ends 0x31) ∧
        (ok → a.h2f = false → a.flagPending 20 = false → from_ cmd (w.word 3) n ends fun d =>
          queued cmd (.flags (2 ^ 20 + 127 * 2 ^ 32) (2 ^ 20 + (n - 1) * 2 ^ 32)) (some n) fun u => u.tagBytes 2176 n = d ∧
            ∀ x, x < 2176 ∨ 2176 + n ≤ x → sget tagDefault u.tag.eeprom x = sget tagDefault g.eeprom x)) ∧
      (a.findWork 7 w.idx = some w →
        let late := w.stage = .waiting ∧ w.b ≠ 0 ∧ a.tagHeld = true ∧ w.b - 1 + 20000000 ≤ ns
        (¬late → exec (.fieldBusyTimeout t w.idx) s = .next a) ∧
        (late → ∃ u, exec (.fieldBusyTimeout t w.idx) s = .next u ∧ Decided a u w 0x0F 0 ∧ one u R.TAG_COUNTS_BUSY ∧
          WordsKept [R.TAG_COUNTS_BUSY.addr] a u ∧ Only [.regs, .ring] a u)))

/-- From the state after the elapsed time. A scrub read takes the next word of a bank that is on: a single error is counted against its row, four in a day or an uncorrectable one send the row to its lowest free spare, and with none left the row stays, OVER, DEGRADED and code 5; no byte changes. A row copy ends only while its bank is on: the map switches, REMAPS counts, the ledger gets its record. NVM_CMD by the owner of NVM is refused with cause 1 to 4 and ERR, or starts; another writer is ignored and counted. Polls of an erase change nothing but progress. A suspended operation resumes with its time made up. An operation that ends ands its page into the flash or leaves ones, with DONE; a failed verify moves to a spare block, or ends with cause 5 and the block kept. A refresh falls due after tREFI and may be postponed seven times. A training request starts a sweep; its end sets the windows and READY, or code 6 below 8 taps. What is not under way changes nothing. -/
def Obligations.MemoriesCorrectRemapAndProgram : Prop :=
  ∀ (s : State) (t : Elapsed), s.Canonical →
    let a := s.advance t
    let m := a.mem
    let ns := a.clk.ns
    let one := fun (u : State) (f : Fld) => u.rd f = min (2 ^ f.width - 1) (a.rd f + 1)
    let recorded := fun (u : State) (kind type logical old new cause : Nat) =>
      let r : LedgerRec := {
        kind := kind, type := type, logical := logical, old := old, new := new, cause := cause, stamp := a.localStamp, cal := a.calSeconds % 2 ^ 32 }
      u.ledger.inForce = (a.ledger.inForce.filter fun x => !r.same x) ++ [r] ∧
      (a.ledger.queue.length < 32 → u.ledger.queue = a.ledger.queue ++ [r]) ∧
      (32 ≤ a.ledger.queue.length → u.ledger.queue = a.ledger.queue ∧ one u R.INS_LEDGER_LOST)
    (m.copying = [] → exec (.sramRemapSwitch t) s = .next a) ∧
    (∀ b row k cause rest, m.copying = (b, row, k, cause) :: rest →
      let may := a.domOn (Dom.bank b) = true ∧ (a.unit Hdr.srm).lapsed = false
      (¬may → exec (.sramRemapSwitch t) s = .next a) ∧
      (may → ∃ u, exec (.sramRemapSwitch t) s = .next u ∧ u.mem = { m with
          remaps := m.remaps ++ [(b, row, k)], copying := m.copying.filter fun c => !(c.1 == b && c.2.1 == row) } ∧
        one u R.SRM_STATUS_REMAPS ∧ (b < 32 → u.rd (R.SRM_BANK_SPARES b) = (8 - ((m.remaps ++ [(b, row, k)]).filter fun x => x.1 == b).length) % 16) ∧
        recorded u 0x05 0x0021 b row k cause ∧ BytesKept a u)) ∧
    (∀ ecc, let cmd : Instr := .scrubberRead t ecc
      let idle := a.rd R.SRM_SCRUB_HOURS = 0 ∨ a.accepts Hdr.srm = false ∨ a.scrubNext m.scrubAt = none
      (idle → exec cmd s = .next a) ∧
      (∀ w, ¬idle → a.scrubNext m.scrubAt = some w →
        let q := 0x10000000 + 4 * w
        let b := w / 32768
        let row := w / 64 % 512
        let next := (w + 1) % 1048576
        let seen := trackRow 16 ns b row m.rows
        let spare := fun (k : Nat) => k < 8 ∧ (∀ x ∈ m.remaps, x.1 = b → x.2.2 ≠ k) ∧ ∀ x ∈ m.copying, x.1 = b → x.2.2.1 ≠ k
        let resting := ∀ x ∈ m.copying, x.1 = b → x.2.1 ≠ row
        let broken := fun (u : State) => one u R.SRM_ERRS_UNCORR ∧ u.rd R.SRM_LASTERR_ADDR = q / 4 ∧
          (u.rd (R.UFAULT_CODE Hdr.srm) = 2 ∨ u.rd (R.UFAULT_CODE Hdr.srm) = 5) ∧ u.rd (R.UFAULT_DETAIL Hdr.srm) = b
        (m.scrubAt < 1048576 → a.domOn (Dom.bank (m.scrubAt / 32768)) = true → a.flag (R.SRM_BANK_MAPPED (m.scrubAt / 32768)) = true → w = m.scrubAt) ∧
        (w < 1048576 ∧ a.domOn (Dom.bank b) = true ∧ a.flag (R.SRM_BANK_MAPPED b) = true) ∧
        (a.poisoned q = true → ∃ u, exec cmd s = .next u ∧ broken u ∧ u.mem = { m with scrubAt := next } ∧ Only [.regs, .mem] a u) ∧
        (a.poisoned q = false →
          (ecc = .clean → ∃ u, exec cmd s = .next u ∧ u.mem = { m with scrubAt := next } ∧ Only [.mem] a u) ∧
          (ecc = .single → rowErrors b row seen < 4 ∨ ¬resting → ∃ u, exec cmd s = .next u ∧ one u R.SRM_ERRS_CORR ∧
            u.mem = { m with scrubAt := next, rows := seen } ∧ Only [.regs, .mem] a u) ∧
          (∀ k, ecc = .single → 4 ≤ rowErrors b row seen → resting → spare k → (∀ j, j < k → ¬spare j) → ∃ u, exec cmd s = .next u ∧ one u R.SRM_ERRS_CORR ∧
            u.mem.copying = m.copying ++ [(b, row, k, 3)] ∧ u.mem.remaps = m.remaps ∧ BytesKept a u) ∧
          (∀ k, ecc = .double → resting → spare k → (∀ j, j < k → ¬spare j) → ∃ u, exec cmd s = .next u ∧ broken u ∧ u.poisoned q = true ∧
            u.mem.copying = m.copying ++ [(b, row, k, 2)] ∧ BytesKept a u) ∧
          (ecc = .double → resting → (∀ k, ¬spare k) → (m.rows.any fun r => r.bank == b && r.row == row && r.reported) = false →
            ∃ u, exec cmd s = .next u ∧ broken u ∧ u.poisoned q = true ∧ u.mem.copying = m.copying ∧ u.rd (R.UFAULT_CODE Hdr.srm) = 5 ∧
              u.flag (R.UFAULT_DEGRADED Hdr.srm) = true ∧ one u (R.SRM_BANK_OVER b) ∧ recorded u 0x0B 0x0021 b row 0xFFFF 5 ∧ BytesKept a u)))) ∧
    (∀ who, who.late = false → ∀ c ∈ [(1, Instr.nvmProgram t who), (2, .nvmEraseSector t who), (3, .nvmEraseBlock t who)],
      let addr := a.rd R.NVM_ADDR_ADDR
      let src := a.rd R.NVM_SRC_SRC
      let inSlots := 0x20000000 ≤ addr ∧ addr < 0x21800000
      let running := (inSlots ∧ (addr - 0x20000000) / 0xC00000 = a.rd R.UPD_STATUS_ACTIVE) ∨ (0x24000000 ≤ addr ∧ addr < 0x24C00000)
      let allowed := (0x21800000 ≤ addr ∧ addr < 0x21A50000 ∧ who.stamp = 1) ∨ (0x21A50000 ≤ addr ∧ addr < 0x21A90000 ∧ who.prot = true) ∨
        (0x21A90000 ≤ addr ∧ addr < 0x22000000)
      let refused := fun (cause : Nat) => ∃ u, exec c.2 s = .next u ∧ u.rd R.NVM_STATUS_CAUSE = cause ∧ u.flag R.NVM_STATUS_ERR = true ∧
        WordsKept [R.NVM_STATUS_ERR.addr] a u ∧ Only [.regs] a u
      (a.owns who Hdr.nvm = false → ∃ u, exec c.2 s = .next u ∧ Ignored who a u) ∧
      (a.owns who Hdr.nvm = true → a.unitOn Hdr.nvm = true →
        (a.accepts Hdr.nvm = false → exec c.2 s = .next a) ∧
        (a.accepts Hdr.nvm = true →
          (a.flag R.NVM_STATUS_BUSY = true → refused 1) ∧
          (a.flag R.NVM_STATUS_BUSY = false →
            (running → refused 3) ∧ (¬running → ¬allowed ∨ (c.1 = 1 ∧ addr % 256 ≠ 0) → refused 2) ∧
            (¬running → allowed → (c.1 = 1 → addr % 256 = 0) →
              (c.1 = 1 → a.norSource who src = false → refused 4) ∧
              ((c.1 = 1 → a.norSource who src = true) → ∃ u o, exec c.2 s = .next u ∧ u.mem = { m with nvmOp := some o } ∧ o.cmd = c.1 ∧ o.addr = addr ∧
                o.startedAt = ns ∧ o.suspendedAt = none ∧ o.update = false ∧ (c.1 = 1 → o.data = (List.range 256).map fun i => a.byte (src + i)) ∧
                u.flag R.NVM_STATUS_BUSY = true ∧ WordsKept [R.NVM_STATUS_BUSY.addr] a u ∧ Only [.regs, .units, .mem] a u)))))) ∧
    (m.nvmOp = none → exec (.nvmErasePoll t) s = .next a ∧ exec (.nvmResume t) s = .next a ∧ ∀ ok, exec (.nvmOperationEnd t ok) s = .next a) ∧
    (∀ o, m.nvmOp = some o →
      let q := if o.cmd = 1 then o.addr / 256 * 256 else if o.cmd = 2 then o.addr / 4096 * 4096 else o.addr / 65536 * 65536
      let n := if o.cmd = 1 then 256 else if o.cmd = 2 then 4096 else 65536
      let block := (q - 0x20000000) / 65536
      (o.cmd = 1 ∨ o.suspendedAt ≠ none → exec (.nvmErasePoll t) s = .next a) ∧
      (o.cmd ≠ 1 → o.suspendedAt = none → ∃ u, exec (.nvmErasePoll t) s = .next u ∧ Only [.units] a u) ∧
      (o.suspendedAt = none → exec (.nvmResume t) s = .next a) ∧
      (∀ x, o.suspendedAt = some x → (∃ u, exec (.nvmResume t) s = .next u ∧ u.flag R.NVM_STATUS_SUSP = false ∧ u.mem = { m with
          nvmOp := some { o with suspendedAt := none, startedAt := o.startedAt + (ns - x), noSuspendUntil := ns + 1000000 } } ∧
        (u.unit Hdr.nvm).progressAt = (a.unit Hdr.nvm).progressAt + (ns - x) ∧ WordsKept [R.NVM_STATUS_SUSP.addr] a u ∧ Only [.regs, .units, .mem] a u) ∧
        ∀ ok, exec (.nvmOperationEnd t ok) s = .next a) ∧
      (o.suspendedAt = none → o.update = false → a.upd.tasks = [] → 0x20000000 ≤ o.addr → o.addr < 0x22000000 → o.data.length = 256 →
        let ends := fun (ok : Bool) (p : State → Prop) => ∃ u, exec (.nvmOperationEnd t ok) s = .next u ∧ u.mem.nvmOp = none ∧
          u.flag R.NVM_STATUS_BUSY = false ∧ u.flag R.NVM_STATUS_DONE = true ∧ (o.cmd ≠ 1 → one u R.NVM_SPARES_ERASES) ∧ p u
        ends true (fun u => (o.cmd = 1 → ∀ x, u.byte x = if q ≤ x ∧ x < q + 256 then a.byte x &&& o.data.getD (x - q) 0#8 else a.byte x) ∧
          (o.cmd ≠ 1 → ∀ x, u.byte x = if q ≤ x ∧ x < q + n then 0xFF#8 else a.byte x) ∧
          WordsKept [R.NVM_STATUS_BUSY.addr, R.NVM_SPARES_ERASES.addr] a u ∧ Only [.regs, .units, .mem] a u) ∧
        (a.rd R.NVM_SPARES_FREE = 0 → ends false fun u => u.rd R.NVM_STATUS_CAUSE = 5 ∧ u.flag R.NVM_STATUS_ERR = true ∧
          u.rd (R.UFAULT_CODE Hdr.nvm) = 5 ∧ recorded u 0x0B 0x0022 block block 0xFFFF 5 ∧ BytesKept a u) ∧
        (a.rd R.NVM_SPARES_FREE ≠ 0 → ends false fun u => u.rd R.NVM_SPARES_FREE = a.rd R.NVM_SPARES_FREE - 1 ∧
          (∃ k, u.mem.nvmRemaps = m.nvmRemaps ++ [(block, k)] ∧ (∀ x ∈ m.nvmRemaps, x.2 < k) ∧ recorded u 0x07 0x0022 block block k 0) ∧
          (o.cmd = 1 → BytesPut a u q o.data) ∧
          (o.cmd ≠ 1 → ∀ x, u.byte x = if 0x20000000 + 65536 * block ≤ x ∧ x < 0x20000000 + 65536 * (block + 1) then 0xFF#8 else a.byte x)))) ∧
    (∀ postpone,
      let due := a.domOn Dom.dram = true ∧ a.flag R.DMC_STATUS_READY = true ∧ (a.unit Hdr.dmc).lapsed = false ∧
        m.refreshAt + (if a.flag R.DMC_STATUS_HOT then 1950 else 3900) ≤ ns
      let owed := a.rd R.DMC_STATUS_POSTPONED
      (¬due → exec (.dramRefresh t postpone) s = .next a) ∧
      (due → ∃ u, exec (.dramRefresh t postpone) s = .next u ∧ u.mem = { m with refreshAt := ns } ∧
        u.rd R.DMC_STATUS_POSTPONED = (if postpone = true ∧ owed < 7 then owed + 1 else 0) ∧ WordsKept [R.DMC_STATUS_POSTPONED.addr] a u ∧
        Only [.regs, .mem] a u)) ∧
    (∀ who, who.late = false →
      (a.owns who Hdr.dmc = false → ∃ u, exec (.dramTrainingRequest t who) s = .next u ∧ Ignored who a u) ∧
      (a.owns who Hdr.dmc = true → a.unitOn Hdr.dmc = true →
        (a.accepts Hdr.dmc = false → exec (.dramTrainingRequest t who) s = .next a) ∧
        (a.accepts Hdr.dmc = true → ∃ u, exec (.dramTrainingRequest t who) s = .next u ∧ u.flag R.DMC_TRAIN_REQ = true ∧
          u.flag R.DMC_STATUS_TRAINING = true ∧ WordsKept [R.DMC_TRAIN_REQ.addr, R.DMC_STATUS_TRAINING.addr] a u ∧ Only [.regs] a u))) ∧
    (∀ w0 w1, let cmd : Instr := .dramTrainingEnd t w0 w1
      let sweeping := a.flag R.DMC_STATUS_TRAINING = true ∧ a.domOn Dom.dram = true
      (¬sweeping → exec cmd s = .next a) ∧
      (sweeping → ∃ u, exec cmd s = .next u ∧ u.flag R.DMC_STATUS_TRAINING = false ∧ u.flag R.DMC_TRAIN_REQ = false ∧ u.flag R.DMC_STATUS_SELFREF = false ∧
        u.rd R.DMC_TRAIN_WIN0 = min w0 63 ∧ u.rd R.DMC_TRAIN_WIN1 = min w1 63 ∧ BytesKept a u ∧
        (min w0 w1 < 8 → u.rd (R.UFAULT_CODE Hdr.dmc) = 6 ∧ u.mem = m) ∧
        (8 ≤ min w0 w1 → u.flag R.DMC_STATUS_READY = true ∧ u.flag R.DMC_STATUS_RETRAIN = false ∧ u.mem = { m with sweepTemp := a.cap.temp }) ∧
        WordsKept [R.DMC_TRAIN_REQ.addr, R.DMC_STATUS_TRAINING.addr, (R.UFAULT_CODE Hdr.dmc).addr] a u ∧ Only [.regs, .units, .mem] a u))

/-- From the state after the elapsed time. A read of a counter's low word answers it and latches the high word, and 0 while INS is not on; no counter changes. INS_CCLR with its bit set by the owner of INS clears all counters at once, without it nothing; another writer is ignored and counted. Once PERIOD cycles have passed since the last, the picked counters go out on source 6 and none changes; before, or with PERIOD 0 or INS not on, nothing. Link firmware writes the oldest queued record into the first erased slot with its SEQ, and no other byte changes; a full or failing block is followed by the next one, which first takes the records in force as CARRY and whose successor is erased. With no record or with NVM off nothing is written. -/
def Obligations.CountersAndLedgerAreKept : Prop :=
  ∀ (s : State) (t : Elapsed), s.Canonical →
    let a := s.advance t
    let counter := fun (u : State) (n : Nat) => sget (fun _ => 0) u.trace.counters n
    (∀ n, let cmd : Instr := .counterLatch t n
      (a.domOn Dom.ins = false → ∃ u, exec cmd s = .next u ∧ u.bus = { value := 0, error := false } ∧ Only [.bus] a u) ∧
      (a.domOn Dom.ins = true → swf (fun _ => 0) a.trace.latched = true → ∃ u, exec cmd s = .next u ∧
        u.bus = { value := counter a n % 2 ^ 32, error := false } ∧ u.counterHigh n = counter a n / 2 ^ 32 ∧
        (∀ k, k ≠ n → u.counterHigh k = a.counterHigh k) ∧ u.trace = { a.trace with latched := u.trace.latched } ∧ Only [.bus, .trace] a u)) ∧
    (∀ who v, who.late = false → let cmd : Instr := .counterClear t who v
      (a.owns who Hdr.ins = false → ∃ u, exec cmd s = .next u ∧ Ignored who a u) ∧
      (a.owns who Hdr.ins = true → a.unitOn Hdr.ins = true →
        (v % 2 = 0 → exec cmd s = .next a) ∧
        (v % 2 = 1 → ∃ u, exec cmd s = .next u ∧ (∀ n, counter u n = 0) ∧ u.trace = { a.trace with counters := [] } ∧ Only [.trace] a u))) ∧
    (let p := a.rd R.INS_CSTREAM_PERIOD
     let cycle := a.localStamp / 65536
     let due := a.domOn Dom.ins = true ∧ p ≠ 0 ∧ p ≤ (cycle + 2 ^ 40 - a.trace.streamed) % 2 ^ 40
     let picked := fun k => bitOf (a.rd (R.INS_CMASK_MASK (k / 32))) (k % 32)
     (¬due → exec (.counterStream t) s = .next a) ∧
     (due → ∃ u, exec (.counterStream t) s = .next u ∧ u.trace.streamed = cycle ∧ u.trace.counters = a.trace.counters ∧
       ((∀ k, k < 256 → picked k = false) → Only [.trace] a u) ∧
       (∀ n, n < 256 → (∀ k, k < 256 → (picked k = true ↔ k = n)) → a.trace.fifo = [] → a.trace.lost = [] → bitOf (a.rd R.INS_CTL_SRCEN) 6 = true →
         u.trace.fifo = [(6, 0x01, [BitVec.ofNat 8 n, 1#8] ++ leBytes 6 (counter a n), a.localStamp)]) ∧ Only [.regs, .trace] a u)) ∧
    (let l := a.ledger
     let q := 0x21A10000 + 65536 * (l.block % 4) + 32 * l.slot
     (l.queue = [] ∨ a.domOn Dom.nvm = false ∨ (a.unit Hdr.nvm).lapsed = true → ∀ ok, exec (.ledgerWrite t ok) s = .next a) ∧
     (∀ r rest, l.queue = r :: rest → a.domOn Dom.nvm = true → (a.unit Hdr.nvm).lapsed = false →
       (l.slot < 2048 → (∀ i, i < 32 → a.byte (q + i) = 0xFF#8) → ∃ u, exec (.ledgerWrite t true) s = .next u ∧
         BytesPut a u q (ledgerBytes l.seq r) ∧ (ledgerBytes l.seq r).length = 32 ∧
         u.ledger = { l with queue := rest, seq := (l.seq + 1) % 2 ^ 32, slot := l.slot + 1 } ∧ u.rd R.INS_LEDGER_LAST = l.seq % 65536 ∧
         WordsKept [R.INS_LEDGER_LAST.addr] a u ∧ Only [.regs, .mem, .ledger] a u) ∧
       (∀ ok, ok = false ∨ 2048 ≤ l.slot →
         let carries := (l.inForce.filter fun x => !(r :: rest).contains x).length
         let old := 0x21A10000 + 65536 * ((l.block + 2) % 4)
         carries < 2048 → ∃ u, exec (.ledgerWrite t ok) s = .next u ∧
           u.ledger = { l with queue := rest, seq := (l.seq + carries + 1) % 2 ^ 32, block := (l.block + 1) % 4, slot := carries + 1 } ∧
           (∀ x, old ≤ x → x < old + 65536 → u.byte x = 0xFF#8) ∧
           (∀ x, x < 0x21A10000 ∨ 0x21A50000 ≤ x → u.byte x = a.byte x) ∧ (∀ i, i < 65536 → u.byte (0x21A10000 + 65536 * (l.block % 4) + i) =
             a.byte (0x21A10000 + 65536 * (l.block % 4) + i)) ∧ WordsKept [R.INS_LEDGER_LAST.addr] a u ∧ Only [.regs, .mem, .ledger] a u)))

/-- From the state after the elapsed time. Outside a cohort, or while COH is off, disabled or lapsed, no packet acts; one with a bad CRC, or of another epoch (HELLO, ELECT and LEADER apart), only counts. HELLO goes out on both ports every 100 us with index, state, epoch, digest, generation and echo. An election counts, clears LEAD (breaking condition 3), votes for itself and broadcasts ELECT: after 1 ms without the lead, every 10 ms in QUIET, at REJOIN without a lead. ELECTs are collected for 200 us; then without a majority QUIET with record 0x04; the voter of highest epoch and lowest index leads at that epoch + 1, broadcasts LEADER and moves every mark of a valid context one block on; another voter waits. A LEADER or a leading HELLO of a higher epoch makes a follower of that epoch with record 0x03; a lead meeting a higher epoch or counting no majority goes QUIET. A HELLO of a new member sets PRESENT with record 0x01; the lead's HELLO with another digest leads to STANDBY with record 0x07, with another generation to STANDBY until the banks come, with both equal out of it. A member silent for 1 ms leaves PRESENT with record 0x02, and the lead commits new owners for its contexts: the lowest present member where RSSI is non-zero, else the lead. REJOIN leaves STEPPED_OUT only. (What is sent is stated where ring 10's buffer is not another member's.) The order of these effects within one packet is the model's choice (log entries 39, 42 and 43). -/
def Obligations.MembersElectFollowAndGoQuiet : Prop :=
  ∀ (s : State) (t : Elapsed), s.Canonical →
    let a := s.advance t
    let ns := a.clk.ns
    let n := a.rd R.COH_CFG_COUNT
    let idx := a.rd R.COH_CFG_INDEX
    let st := a.rd R.COH_STATUS_STATE
    let lead := a.rd R.COH_STATUS_LEAD
    let present := a.rd R.COH_STATUS_PRESENT
    let ep := a.rd R.COH_EPOCH_EPOCH
    let up := 2 ≤ n ∧ a.domOn Dom.coh = true ∧ a.enabled Hdr.coh = true ∧ (a.unit Hdr.coh).lapsed = false
    let base := if a.coh.outAt = a.clk.edges then a.coh.out else []
    let sent := fun (u : State) (ps : List (Nat × Nat × List Nat)) =>
      ∃ l, u.coh.out = base ++ l ∧ (l.map fun p => (p.dst, p.type, p.fields)) = ps
    let bufLocal := ∀ w, a.oldestNoteBuf 10 = some w → a.remote (w.word 3) = none
    let one := fun (u : State) (f : Fld) => u.rd f = min (2 ^ f.width - 1) (a.rd f + 1)
    let hello := fun (x : Nat) => [(0xF, 1, [idx, x, ep, a.ownDigest, a.gen.active, a.coh.echoEast]),
      (0xF, 1, [idx, x, ep, a.ownDigest, a.gen.active, a.coh.echoWest])]
    let elected := fun (c : Instr) => ∃ u, exec c s = .next u ∧ u.rd R.COH_STATUS_STATE = 1 ∧ u.rd R.COH_STATUS_LEAD = 0xF ∧
      one u R.COH_COUNTS_ELECTS ∧ u.coh.votes = [(idx, ep)] ∧ u.coh.electAt = ns ∧ u.coh.leadAt = ns ∧
      sent u [(0xF, 2, [ep, idx])] ∧ (lead ≠ 0xF → u.envBroken 3 = true ∧ u.coh.lost = true) ∧
      (lead = 0xF → WordsKept [R.COH_STATUS_LEAD.addr, R.COH_COUNTS_ELECTS.addr] a u ∧ Only [.regs, .units, .coh] a u)
    let drops := fun (h : CohHead) (free : Bool) (c : Instr) =>
      (¬up → exec c s = .next a) ∧
      (up → h.crcOk = false → ∃ u, exec c s = .next u ∧ one u R.COH_COUNTS_CRCERR ∧
        WordsKept [R.COH_COUNTS_CRCERR.addr] a u ∧ Only [.regs] a u) ∧
      (up → h.crcOk = true → free = false → h.epoch ≠ ep % 256 → ∃ u, exec c s = .next u ∧ one u R.COH_COUNTS_STALE ∧
        WordsKept [R.COH_COUNTS_STALE.addr] a u ∧ Only [.regs] a u)
    (∀ west link,
      (a.domOn Dom.coh = false → exec (.portLinkChange t west link) s = .next a) ∧
      (a.domOn Dom.coh = true → ∃ u, exec (.portLinkChange t west link) s = .next u ∧
        u.flag (if west then R.COH_LINK_WUP else R.COH_LINK_EUP) = link ∧
        u.flag (if west then R.COH_LINK_EUP else R.COH_LINK_WUP) = a.flag (if west then R.COH_LINK_EUP else R.COH_LINK_WUP) ∧
        u.rd R.COH_LINK_RTT = a.rd R.COH_LINK_RTT ∧ WordsKept [R.COH_LINK_RTT.addr] a u ∧ Only [.regs] a u)) ∧
    (¬(up ∧ a.coh.helloAt + 100000 ≤ ns) → exec (.helloSend t) s = .next a) ∧
    (up → a.coh.helloAt + 100000 ≤ ns → ∃ u, exec (.helloSend t) s = .next u ∧ sent u (hello st) ∧ u.coh.helloAt = ns ∧
      Only [.units, .coh] a u) ∧
    (∀ h west x e dig g echo map high stamp rate unc off size val agent prot data error dst tag ptr f soft isSoft sets pay ctx rx d blk p keep,
      (∀ c ∈ [Instr.cohHello t h west x e dig g echo, .cohElect t h e, .cohLeader t h e map high], drops h true c) ∧
      (∀ c ∈ [Instr.cohTempo t h stamp x rate unc, .cohWreq t h off size data agent prot, .cohWrsp t h off val error,
        .cohNotice t h dst tag ptr agent prot, .cohSoft t h f soft, .cohDecoded t h f isSoft sets pay, .cohRxsync t h ctx rx d,
        .cohBlkreq t h ctx, .cohBlkgnt t h ctx blk, .cohCfgpush t h p, .cohAckreq t h f pay keep], drops h false c)) ∧
    (let waits := st = 3 ∨ st = 5 ∨ (st = 1 ∧ a.coh.electAt + 200000 ≤ ns)
     let due := 2 ≤ n ∧ waits ∧ a.coh.leadAt + 1000000 ≤ ns ∧ a.domOn Dom.coh = true
     (due → elected (.leadLossTimeout t)) ∧ (¬due → exec (.leadLossTimeout t) s = .next a)) ∧
    (let due := 2 ≤ n ∧ st = 4 ∧ a.coh.electAt + 10000000 ≤ ns ∧ a.domOn Dom.coh = true
     (due → elected (.electionRetry t)) ∧ (¬due → exec (.electionRetry t) s = .next a)) ∧
    (∀ who v, who.late = false →
      (a.owns who Hdr.coh = false → ∃ u, exec (.cohRejoin t who v) s = .next u ∧ Ignored who a u) ∧
      (a.owns who Hdr.coh = true → a.unitOn Hdr.coh = true →
        (st ≠ 6 ∨ bitOf v 0 = false → exec (.cohRejoin t who v) s = .next a) ∧
        (st = 6 → bitOf v 0 = true → lead ≠ 0xF → ∃ u, exec (.cohRejoin t who v) s = .next u ∧ u.rd R.COH_STATUS_STATE = 3 ∧
          u.rd R.COH_STATUS_LEAD = lead ∧ u.coh = { a.coh with offset := none, samples := [], offRun := 0 } ∧
          WordsKept [R.COH_STATUS_STATE.addr] a u ∧ Only [.regs, .coh] a u) ∧
        (st = 6 → bitOf v 0 = true → lead = 0xF → 2 ≤ n → a.domOn Dom.coh = true → elected (.cohRejoin t who v)))) ∧
    (let votes := a.coh.votes
     (st ≠ 1 ∨ ns < a.coh.electAt + 200000 ∨ n < 2 → exec (.electionWindowEnd t) s = .next a) ∧
     (st = 1 → a.coh.electAt + 200000 ≤ ns → 2 ≤ n → lead = 0xF →
       (votes.length < n / 2 + 1 → ∃ u, exec (.electionWindowEnd t) s = .next u ∧ u.rd R.COH_STATUS_STATE = 4 ∧ u.coh.quiet = true ∧
         (a.coh.quiet = false → u.coh.electAt = ns ∧ Posted a u 10 0x04 R.COH_COUNTS_NOTELOST) ∧
         (a.coh.quiet = true → u.ring = a.ring)) ∧
       (∀ m e, n / 2 + 1 ≤ votes.length → (m, e) ∈ votes → (∀ v ∈ votes, v.2 < e ∨ (v.2 = e ∧ m ≤ v.1)) →
         (m ≠ idx → ∃ u, exec (.electionWindowEnd t) s = .next u ∧ u.coh = { a.coh with leadAt := ns } ∧ Only [.coh] a u) ∧
         (m = idx → a.domOn Dom.coh = true → ∃ u, exec (.electionWindowEnd t) s = .next u ∧ u.rd R.COH_STATUS_STATE = 2 ∧
           u.rd R.COH_STATUS_LEAD = idx ∧ u.rd R.COH_EPOCH_EPOCH = (e + 1) % 2 ^ 32 ∧ u.coh.quiet = false ∧ u.coh.lost = false ∧
           (bufLocal → ∃ p l map, u.coh.out = base ++ p :: l ∧ p.dst = 0xF ∧ p.type = 3 ∧ p.fields.take 2 = [e + 1, map] ∧ bitOf map idx = true) ∧
           (swf (fun _ => 0) a.coh.high = true → ∀ k, k < 512 →
             sget (fun _ => 0) u.coh.high k = sget (fun _ => 0) a.coh.high k + (if a.ctxValid k then 1 else 0)) ∧
           (a.coh.quiet = false → Posted a u 10 0x03 R.COH_COUNTS_NOTELOST))))) ∧
    (let heard := 1 + (a.coh.members.filter fun m => m.index != idx && decide (ns < m.at_ + 1000000)).length
     (n < 2 ∨ st ≠ 2 ∨ n / 2 + 1 ≤ heard → exec (.majorityLoss t) s = .next a) ∧
     (2 ≤ n → st = 2 → heard < n / 2 + 1 → a.domOn Dom.coh = true → ∃ u, exec (.majorityLoss t) s = .next u ∧
       u.rd R.COH_STATUS_STATE = 4 ∧ u.rd R.COH_STATUS_LEAD = 0xF ∧ (bufLocal → sent u (hello 4)) ∧ u.coh.quiet = true ∧
       (lead ≠ 0xF → u.envBroken 3 = true ∧ u.coh.lost = true) ∧
       (a.coh.quiet = false → Posted a u 10 0x04 R.COH_COUNTS_NOTELOST))) ∧
    (∀ m,
      let gone := bitOf present m = true ∧ ∀ r ∈ a.coh.members, r.index = m → r.at_ + 1000000 ≤ ns
      let leads := 2 ≤ n ∧ st = 2
      let owned := fun (l : List Nat) => (List.range 512).filter fun k => a.ctxValid k && l.contains (a.ctxNum k 68 1 % 16)
      (bitOf present m = false → ¬leads → exec (.memberLost t m) s = .next a) ∧
      (gone → ∃ u, exec (.memberLost t m) s = .next u ∧ (∀ j, j < 8 → bitOf (u.rd R.COH_STATUS_PRESENT) j = (bitOf present j && j != m)) ∧
        Posted a u 10 0x02 R.COH_COUNTS_NOTELOST ∧
        (¬leads → (bufLocal → u.coh = a.coh) ∧ u.gen = a.gen) ∧
        (leads → a.gen.commit.isSome = true ∨ a.tempoUsable = false → u.coh.reassign = a.coh.reassign ++ [m] ∧ u.gen = a.gen) ∧
        (leads → a.gen.commit = none → a.tempoUsable = true → owned (a.coh.reassign ++ [m]) ≠ [] → ∃ c, u.gen.commit = some c ∧
          u.coh.reassign = [] ∧ c.boundary = some (a.slotBoundary (a.alignedStamp + 1)) ∧ c.tables = 32 ∧ c.releases = [] ∧
          c.newGen = u.gen.pending ∧ c.rewrites.map (·.1) = owned (a.coh.reassign ++ [m]) ∧
          ∀ r ∈ c.rewrites, r.2.1 = false ∧ (∀ j, j ≠ 68 → r.2.2.getD j 0#8 = (a.ctxImage r.1).getD j 0#8) ∧
            imgNum r.2.2 68 1 % 16 =
              (if a.ctxNum r.1 52 2 ≠ 0 then ((List.range 8).find? fun j => j == idx || (bitOf present j && j != m)).getD idx else idx)))) ∧
    (∀ h e map high, up → h.crcOk = true → h.late = false → h.src < 8 →
      (∃ u, exec (.cohElect t h e) s = .next u ∧ Only [.units, .coh] a u ∧ u.coh = if st = 1 ∧ ns < a.coh.electAt + 200000 then
        { a.coh with votes := a.coh.votes.filter (·.1 != h.src) ++ [(h.src, e)] } else a.coh) ∧
      (e < ep ∨ (e = ep ∧ st = 2) → ∃ u, exec (.cohLeader t h e map high) s = .next u ∧ Only [.units] a u) ∧
      (ep ≤ e → ¬(e = ep ∧ st = 2) → ∃ u, exec (.cohLeader t h e map high) s = .next u ∧
        u.rd R.COH_STATUS_STATE = (if st = 6 then 6 else 3) ∧ u.rd R.COH_STATUS_LEAD = h.src ∧
        u.rd R.COH_EPOCH_EPOCH = e % 2 ^ 32 ∧ u.coh.leadAt = ns ∧ u.coh.quiet = false ∧ u.coh.lost = false ∧
        ((high.map (·.1)).Nodup → ∀ p ∈ high, sget (fun _ => 0) u.coh.high p.1 = p.2) ∧
        (∀ k, k < 512 → a.ctxValid k = true → a.ctxOwned a.gen.active k = true → bitOf (a.ctxNum k 68 1) 4 = false → k ∈ u.coh.requested) ∧
        (st ≠ 2 → a.coh.quiet = false → Posted a u 10 0x03 R.COH_COUNTS_NOTELOST))) ∧
    (∀ h west x e dig g echo, up → h.crcOk = true → h.late = false →
      let c := Instr.cohHello t h west x e dig g echo
      let standing := fun (u : State) => u.rd R.COH_STATUS_STATE = st ∧ u.rd R.COH_STATUS_LEAD = lead ∧ u.rd R.COH_EPOCH_EPOCH = ep
      (h.src = idx → ∃ u, exec c s = .next u ∧ Only [.units] a u) ∧
      (h.src ≠ idx → h.src < 8 → ∃ u, exec c s = .next u ∧
        (∀ j, j < 8 → bitOf (u.rd R.COH_STATUS_PRESENT) j = (bitOf present j || j == h.src)) ∧
        u.coh.members = a.coh.members.filter (·.index != h.src) ++
          [{ index := h.src, at_ := ns, state := x, epoch := e, digest := dig, gen := g }] ∧
        (if west then u.coh.echoWest = h.seq else u.coh.echoEast = h.seq) ∧
        (st ≠ 2 → lead ≠ h.src → x ≠ 2 → standing u ∧
          (bitOf present h.src = false → Posted a u 10 0x01 R.COH_COUNTS_NOTELOST) ∧ (bitOf present h.src = true → u.ring = a.ring)) ∧
        (st = 2 → ep < e → (x ≠ 2 → u.rd R.COH_STATUS_STATE = 4 ∧ u.rd R.COH_STATUS_LEAD = 0xF) ∧
          (x = 2 → dig = a.ownDigest → g = a.gen.active → u.rd R.COH_STATUS_STATE = 3 ∧ u.rd R.COH_STATUS_LEAD = h.src ∧
            u.rd R.COH_EPOCH_EPOCH = e % 2 ^ 32)) ∧
        (lead = h.src → e = ep → st = 3 → x = 4 → u.rd R.COH_STATUS_STATE = 1 ∧ u.coh.votes = [(idx, ep)] ∧
          (bufLocal → sent u [(0xF, 2, [ep, idx])])) ∧
        (lead = h.src → e = ep → x = 2 → st = 3 ∨ st = 5 → bitOf present h.src = true → u.coh.leadAt = ns ∧ u.rd R.COH_STATUS_LEAD = lead ∧
          (dig ≠ a.ownDigest → u.rd R.COH_STATUS_STATE = 5 ∧ (st = 3 → Posted a u 10 0x07 R.COH_COUNTS_NOTELOST)) ∧
          (dig = a.ownDigest → g ≠ a.gen.active → a.gen.commit = none → u.rd R.COH_STATUS_STATE = 5 ∧ u.coh.resync = true ∧ u.ring = a.ring) ∧
          (dig = a.ownDigest → g = a.gen.active → a.coh.resync = false → u.rd R.COH_STATUS_STATE = 3 ∧ u.ring = a.ring))))

/-- Packets below pass the checks of R418 and come in time. TEMPO from the lead sets a follower's rate, U, flags and state, and its aligned tempo to the stamp plus half the round trip; elsewhere it changes nothing; two cycles without it flywheel. A notice is delivered with the sender's stamp and answered 0, or to a bad destination or full channel counted and answered 1. SOFT joins the lead's copies of its frame or begins them for COMBWAIT. DECODED is dropped while silent; a malformed frame counts MALF; an owner accepts and delivers a frame by R247 and broadcasts RXSYNC, which writes bytes 20-39 and 44-61 of another owner's context at every member. The lead grants a requested block at the mark, which moves one on; at 2^20 the context is exhausted. A grant moves every member's mark; its owner holds the block, TXCTR at its start unless inside. CFGPUSH gives a follower the named tables and the lead's commit. ACKREQ while acknowledgements are off or the member silent sends nothing, with no open transmitter it counts CLASH. A window request is answered with the RAM bytes or the register, stored, or answered as a bus error where nothing is mapped or the bank refuses; a register write is checked for its owner. An answer completes the load (base, then rd, pc on) or the oldest store to its address; an error, or 8 us without one, is vector 7 for a load and late for a store. -/
def Obligations.CohortMembersWorkTogether : Prop :=
  ∀ (s : State) (t : Elapsed), s.Canonical →
    let a := s.advance t
    let ns := a.clk.ns
    let idx := a.rd R.COH_CFG_INDEX
    let st := a.rd R.COH_STATUS_STATE
    let lead := a.rd R.COH_STATUS_LEAD
    let g := a.gen.active
    let member := 2 ≤ a.rd R.COH_CFG_COUNT
    let base := if a.coh.outAt = a.clk.edges then a.coh.out else []
    let sent := fun (u : State) (ps : List (Nat × Nat × List Nat)) =>
      ∃ l, u.coh.out = base ++ l ∧ (l.map fun p => (p.dst, p.type, p.fields)) = ps
    let one := fun (u : State) (f : Fld) => u.rd f = min (2 ^ f.width - 1) (a.rd f + 1)
    let owner := fun (k : Nat) => a.ctxNum k 68 1 % 16
    let nothing := fun (c : Instr) => ∃ u, exec c s = .next u ∧ Only [.units] a u
    let silent := 4 ≤ st ∨ a.coh.quiet = true
    (let due := member ∧ st = 3 ∧ a.coh.flywheels = false ∧ a.coh.tempoAt + 131072 ≤ a.clk.edges
     (¬due → exec (.followerTempoLoss t) s = .next a) ∧
     (due → ∃ u, exec (.followerTempoLoss t) s = .next u ∧ u.coh.flywheels = true ∧
       (a.tempoValid = true → u.rd R.TMP_STATUS_STATE = 3) ∧
       (a.tempoValid = false → u.coh = { a.coh with flywheels := true } ∧ Only [.coh] a u))) ∧
    (∀ c p, a.coreKey c = some p →
      (∀ r, (a.core p).remote = some r →
        (ns < r.issued + 8000 → exec (.windowAccessTimeout t c) s = .next a) ∧
        (r.issued + 8000 ≤ ns → (a.core p).exl = false → ∃ u, exec (.windowAccessTimeout t c) s = .next u ∧
          (u.core p).remote = none ∧ (u.core p).pc = (a.core p).vbase + 224#32 ∧ (u.core p).epc = (a.core p).pc ∧
          (u.core p).eaddr = BitVec.ofNat 32 r.addr ∧ (u.core p).exl = true ∧ (u.core p).regs = (a.core p).regs ∧ BytesKept a u)) ∧
      ((a.core p).remote = none → (a.core p).stores = [] → exec (.windowAccessTimeout t c) s = .next a) ∧
      (∀ x y rest, (a.core p).remote = none → (a.core p).stores = (x, y) :: rest →
        (ns < y + 8000 → exec (.windowAccessTimeout t c) s = .next a) ∧
        (y + 8000 ≤ ns → ∃ u, exec (.windowAccessTimeout t c) s = .next u ∧ Only [.cores] a u ∧
          u.core p = { a.core p with stores := rest, lateStore := (a.core p).lateStore ++ [x] }))) ∧
    (∀ c, a.coreKey c = none → exec (.windowAccessTimeout t c) s = .next a) ∧
    (∀ h : CohHead, member → a.domOn Dom.coh = true → a.enabled Hdr.coh = true → (a.unit Hdr.coh).lapsed = false →
      h.crcOk = true → h.epoch = a.rd R.COH_EPOCH_EPOCH % 256 → h.late = false → h.src < 8 →
      (∀ stamp status rate unc,
        let c := Instr.cohTempo t h stamp status rate unc
        (st = 2 ∨ lead ≠ h.src ∨ st = 1 → nothing c) ∧
        (st ≠ 2 → lead = h.src → st ≠ 1 → ∃ u, exec c s = .next u ∧ u.coh.tempoAt = a.clk.edges ∧ u.coh.flywheels = false ∧
          u.rd R.TMP_STATUS_STATE = status % 8 ∧ u.flag R.TMP_STATUS_ALIGNED = bitOf status 4 ∧
          u.flag R.TMP_STATUS_PROVISIONAL = bitOf status 5 ∧ u.rd R.TMP_RATE_RATE = rate % 2 ^ R.TMP_RATE_RATE.width ∧
          u.rd R.TMP_UNCERT_U = min unc (2 ^ 32 - 1) ∧
          (status % 8 = a.rd R.TMP_STATUS_STATE → u.alignedStamp = (stamp + a.rd R.COH_LINK_RTT / 32) % stampMod ∧
            u.align16 % 16 = (a.rd R.COH_LINK_RTT / 2 % 16 : Nat)))) ∧
      (∀ dst tag ptr agent prot,
        let c := Instr.cohNotice t h dst tag ptr agent prot
        let bad := 7 ≤ dst ∨ (dst = 0 ∧ a.phase ≠ .homeroom ∧ ∀ n, a.phase = .stage n → 5 < n)
        (bad → ∃ u, exec c s = .next u ∧ one u R.MBX_COUNTS_BADDEST ∧ sent u [(h.src, 7, [1])] ∧
          WordsKept [R.MBX_COUNTS_BADDEST.addr] a u ∧ Only [.regs, .units, .coh] a u) ∧
        (¬bad → a.channelFill dst (8 + h.src) < 4 → (a.unit Hdr.mbx).lapsed = false → ∃ u, exec c s = .next u ∧
          u.mail = { a.mail with notices := a.mail.notices ++ [{
            dst := dst, src := 8 + h.src, ptr := ptr, tag := tag, stamp := 16 * (h.src + 1) + agent, prot := prot,
            at_ := a.clk.edges }] } ∧
          sent u [(h.src, 7, [0])] ∧ WordsKept [] a u ∧ Only [.regs, .units, .mail, .ev, .coh, .trace] a u) ∧
        (¬bad → 4 ≤ a.channelFill dst (8 + h.src) → ∃ u, exec c s = .next u ∧ sent u [(h.src, 7, [1])] ∧
          bitOf (u.rd (R.MBX_RLOST_LOST dst)) (8 + h.src) = true ∧ one u R.MBX_COUNTS_REFUSED ∧ Only [.regs, .units, .coh] a u)) ∧
      (∀ f soft,
        let c := Instr.cohSoft t h f soft
        (st ≠ 2 → nothing c) ∧
        (st = 2 → a.rx.frames = [] → a.rx.combined = [] → ∃ u y, exec c s = .next u ∧ u.rx.nextId = a.rx.nextId + 1 ∧
          u.rx.frames = [y] ∧ y.id = a.rx.nextId ∧ y.copies = [(h.src, f.report, soft)] ∧ y.tx = none ∧ y.hdr = f.hdr ∧
          y.chan = f.chan ∧ y.waitTill = some (ns + 1000 * a.rd R.DEC_CFG_COMBWAIT) ∧ Only [.units, .rx] a u) ∧
        (∀ y, st = 2 → a.rx.frames = [y] → y.waitTill ≠ none → y.chan = f.chan → y.order = f.order → y.mark = f.mark →
          y.hdr = f.hdr → y.sync = f.sync → y.copies.length = 1 → (∀ x ∈ y.copies, x.1 < h.src) → ∃ u, exec c s = .next u ∧
          u.rx.frames = [{ y with copies := y.copies ++ [(h.src, f.report, soft)] }] ∧ Only [.units, .rx] a u)) ∧
      (∀ f sets pay,
        let c := Instr.cohDecoded t h f false sets pay
        let l := parseFrame pay
        (silent → nothing c) ∧
        (¬silent → hdrKind f.hdr ≠ 1 → a.enabled Hdr.lnk = true → (a.unit Hdr.lnk).lapsed = false →
          (l.malformed = true → ∃ u, exec c s = .next u ∧ one u R.LNK_DROP_MALF ∧ u.ring = a.ring ∧ u.ctx = a.ctx ∧ BytesKept a u) ∧
          (∀ k p w, l.malformed = false → a.isForMe g l.dest = true → f.gen = g → a.gen.commit = none → a.senderOf g l = some k →
            k < 512 → owner k = idx → a.replayCheck g k l = none → a.openAs g l k (if l.ls then l.long else a.ctxNum k 0 8) = some p →
            l.type = 2 → l.dest = a.ownShort → l.dest ≠ 0xFFFE → groupDest l.dest = false → l.ar = false → a.oldestRxBuf 3 = some w →
            a.ramBytes (w.word 3) 512 = true → a.rd R.TTB_STATUS_BELLSRC ≠ 2 → a.ctxNum k 77 1 % 4 = 0 →
            let rec_ := f.report ++ leBytes 2 k ++ [BitVec.ofNat 8 (16 * b2n (bitOf sets 4)), BitVec.ofNat 8 (sets % 16)] ++ zeros 4 ++
              l.hdr ++ p
            rec_.length < 512 → ∃ u, exec c s = .next u ∧ one u R.LNK_RXOK_COUNT ∧ u.ctxNum k 20 4 = l.ctr ∧
              u.ctxNum k 24 16 = leNum l.mic ∧ Decided a u { w with gen := g } 0x00 (rec_.length + 65536 * l.src) ∧
              BytesPut a u (w.word 3) rec_ ∧
              ∃ q, u.coh.out = base ++ [q] ∧ q.dst = 0xF ∧ q.type = 0x0A ∧ q.fields = [k] ∧
                q.bytes.take 4 = leBytes 4 l.ctr ∧ q.bytes.length = 38))) ∧
      (∀ k rx d, k < 512 → rx.length = 20 → d.length = 18 →
        let c := Instr.cohRxsync t h k rx d
        (a.ctxValid k = false ∨ owner k = idx → nothing c) ∧
        (a.ctxValid k = true → owner k ≠ idx → ∃ u, exec c s = .next u ∧ Only [.units, .ctx] a u ∧
          (∀ j, j < 128 → j ≠ 12 → j ≠ 13 → (u.ctxImage k).getD j 0#8 =
            if 20 ≤ j ∧ j < 40 then rx.getD (j - 20) 0#8 else if 44 ≤ j ∧ j < 62 then d.getD (j - 44) 0#8
            else (a.ctxImage k).getD j 0#8) ∧
          (∀ i, i < 16 → bitOf (u.ctxNum k 12 2) i = (bitOf (a.ctxNum k 12 2) i && i != 3)) ∧
          ∀ j, j ≠ k → u.ctxImage j = a.ctxImage j)) ∧
      (∀ k, k < 512 → swf (fun _ => 0) a.coh.high = true →
        let b := sget (fun _ => 0) a.coh.high k
        let c := Instr.cohBlkreq t h k
        (st ≠ 2 → nothing c) ∧
        (st = 2 → b < 2 ^ 20 → ∃ u, exec c s = .next u ∧
          (∀ j, sget (fun _ => 0) u.coh.high j = if j = k then b + 1 else sget (fun _ => 0) a.coh.high j) ∧
          (b ≠ 0xFFFF0 → sent u [(0xF, 0x0B, [k, b])] ∧ Only [.units, .coh] a u) ∧
          (b = 0xFFFF0 → bitOf (a.ctxNum k 12 2) 5 = false → bitOf (u.ctxNum k 12 2) 5 = true ∧ Posted a u 9 0x20 R.TTB_COUNTS_NOTELOST)) ∧
        (st = 2 → 2 ^ 20 ≤ b → (bitOf (a.ctxNum k 12 2) 4 = true → nothing c) ∧
          (bitOf (a.ctxNum k 12 2) 4 = false → ∃ u, exec c s = .next u ∧ bitOf (u.ctxNum k 12 2) 4 = true ∧
            u.coh.high = a.coh.high ∧ Posted a u 9 0x21 R.TTB_COUNTS_NOTELOST))) ∧
      (∀ k b, k < 512 → b < 2 ^ 20 → swf (fun _ => 0) a.coh.high = true → ∃ u, exec (.cohBlkgnt t h k b) s = .next u ∧
        (∀ j, sget (fun _ => 0) u.coh.high j = if j = k then b + 1 else sget (fun _ => 0) a.coh.high j) ∧
        (a.ctxValid k = false ∨ owner k ≠ idx → u.ctx = a.ctx ∧ Only [.units, .coh] a u) ∧
        (a.ctxValid k = true → owner k = idx → (∀ w ∈ a.ring.work, w.stage ≠ .waiting ∨ w.opcode ≠ 0x20) →
          u.ctxNum k 68 4 = idx + 16 + 4096 * b ∧ k ∉ u.coh.requested ∧
          u.ctxNum k 16 4 = (if a.ctxNum k 16 4 / 4096 = b then a.ctxNum k 16 4 else 4096 * b) ∧
          (∀ j, j ≠ k → u.ctxImage j = a.ctxImage j) ∧ Only [.units, .ctx, .coh] a u)) ∧
      (∀ p,
        let c := Instr.cohCfgpush t h p
        (st = 2 ∨ lead ≠ h.src ∨ (a.gen.commit.isSome = true ∧ a.coh.resync = false) → nothing c) ∧
        (st ≠ 2 → lead = h.src → a.gen.commit = none ∨ a.coh.resync = true → ∃ u x, exec c s = .next u ∧
          u.gen = { a.gen with pending := p.newGen, commit := some x } ∧ x.boundary = p.boundary ∧ x.tables = p.tables ∧
          x.releases = p.releases ∧ x.newGen = p.newGen ∧ x.fromLead = true ∧ (∀ r, r ∈ x.rewrites ↔ r ∈ p.rewrites) ∧
          (x.rewrites.map (·.1)).Pairwise (· ≤ ·) ∧ u.tab.act = a.tab.act ∧
          (if bitOf p.tables tabChan then ∀ j, u.tab.ina.chan.byte j = p.chan.getD j 0#8 else u.tab.ina.chan = a.tab.ina.chan) ∧
          (if bitOf p.tables tabWatch then ∀ j, u.tab.ina.watch.byte j = p.watch.getD j 0#8 else u.tab.ina.watch = a.tab.ina.watch) ∧
          (if bitOf p.tables tabRules then ∀ j, u.tab.ina.rules.byte j = p.rules.getD j 0#8 else u.tab.ina.rules = a.tab.ina.rules) ∧
          (if bitOf p.tables tabTtb then ∀ j, u.tab.ina.ttb.byte j = p.ttb.getD j 0#8 else u.tab.ina.ttb = a.tab.ina.ttb) ∧
          Only [.units, .gen, .tab] a u)) ∧
      (∀ f pay keep,
        let c := Instr.cohAckreq t h f pay keep
        (silent ∨ a.flag R.LNK_CFG_ACKEN = false → nothing c) ∧
        (¬silent → a.flag R.LNK_CFG_ACKEN = true → a.txuOpen = false → ∃ u, exec c s = .next u ∧ one u R.TXU_ACKS_CLASH ∧
          WordsKept [R.TXU_ACKS_CLASH.addr] a u ∧ Only [.regs, .units] a u)) ∧
      (∀ off size agent prot,
        let c := fun d => Instr.cohWreq t h off size d agent prot
        let q := 0x10000000 + off
        let open_ := fun n => a.memOn q = true ∧ a.rangeOn q n = true ∧ a.bankOk agent prot q = true ∧ a.bankOk agent prot (q + n - 1) = true
        let who : Who := { stamp := (h.src + 1) * 16 + agent, prot := prot, late := false }
        (∀ d, a.windowTarget off = none → ∃ u, exec (c d) s = .next u ∧ sent u [(h.src, 6, [off, size, 0, 1])] ∧
          Only [.units, .coh] a u) ∧
        (∀ d, off < 0x400000 → a.memOn q = true → a.bankOk agent prot q = false → ∃ u, exec (c d) s = .next u ∧
          sent u [(h.src, 6, [off, size, 0, 1])] ∧ Only [.units, .coh] a u) ∧
        (off < 0x400000 → open_ size → a.anyPoison q size = false → ∃ u, exec (c none) s = .next u ∧
          sent u [(h.src, 6, [off, size, a.loaded q size, 0])] ∧ Only [.units, .coh] a u) ∧
        (∀ bs, off < 0x400000 → open_ bs.length → off % 4 = 0 → bs.length % 4 = 0 → a.ramBytes q bs.length = true →
          ∃ u, exec (c (some bs)) s = .next u ∧ sent u [(h.src, 6, [off, size, 0, 0])] ∧ BytesPut a u q bs ∧
            u.regs = a.regs ∧ Only [.units, .mem, .coh] a u) ∧
        (off = 0x104304C → size = 4 → ∃ u, exec (c none) s = .next u ∧
          sent u [(h.src, 6, [off, 4, a.rd R.COH_EPOCH_EPOCH, 0])] ∧ u.regs = a.regs) ∧
        (∀ bs, off = 0x1043050 → bs.length = 4 → ∃ u, exec (c (some bs)) s = .next u ∧ sent u [(h.src, 6, [off, size, 0, 0])] ∧
          (a.owns who Hdr.coh = true → u.rd R.COH_DRAMAP_BASE = bitsOf (leNum bs) 25 7 ∧ WordsKept [R.COH_DRAMAP_BASE.addr] a u) ∧
          (a.owns who Hdr.coh = false → u.rd R.COH_DRAMAP_BASE = a.rd R.COH_DRAMAP_BASE ∧ one u R.DEV_ACCESS_COUNT ∧
            u.rd R.DEV_ACCESS_LAST = who.stamp % 256))) ∧
      (∀ off v err,
        let c := Instr.cohWrsp t h off v err
        let x := 0x60000000 + 0x4000000 * h.src + off
        let updates := off = 0x1044040 ∧ a.upd.preparing.isSome = true
        let loads := ∃ e p, a.coreKey e = some p ∧ (a.core p).remote.any (·.addr == x) = true
        let stores := ∃ e p, a.coreKey e = some p ∧ ∃ y, (x, y) ∈ (a.core p).stores
        (¬updates → ¬loads → ¬stores → nothing c) ∧
        (∀ e p r, ¬updates → a.coreKey e = some p → (a.core p).remote = some r → r.addr = x →
          (∀ e' p', e' < e → a.coreKey e' = some p' → (a.core p').remote = none) →
          (err = true → (a.core p).exl = false → ∃ u, exec c s = .next u ∧ (u.core p).remote = none ∧
            (u.core p).pc = (a.core p).vbase + 224#32 ∧ (u.core p).epc = (a.core p).pc ∧
            (u.core p).eaddr = BitVec.ofNat 32 x ∧ (u.core p).regs = (a.core p).regs) ∧
          (err = false → ∃ u, exec c s = .next u ∧ (u.core p).remote = none ∧ (u.core p).pc = r.nextPc ∧
            Only [.units, .cores, .trace] a u ∧
            (r.rd < 32 → r.rd ≠ 0 → (u.core p).reg (BitVec.ofNat 5 r.rd) =
              if r.signExt then BitVec.ofInt 32 (signed (8 * r.size) (v % 2 ^ (8 * r.size))) else BitVec.ofNat 32 (v % 2 ^ (8 * r.size))) ∧
            (∀ b y, r.base = some (b, y) → b < 32 → b ≠ 0 → r.rd < 32 → b ≠ r.rd → (u.core p).reg (BitVec.ofNat 5 b) = y) ∧
            (r.base = none → ∀ n, n ≠ BitVec.ofNat 5 r.rd → (u.core p).reg n = (a.core p).reg n))) ∧
        (∀ e p y rest, ¬updates → ¬loads → a.coreKey e = some p → (a.core p).stores = (x, y) :: rest →
          (∀ e' p', e' < e → a.coreKey e' = some p' → ∀ z, (x, z) ∉ (a.core p').stores) → ∃ u, exec c s = .next u ∧
          u.core p = { a.core p with stores := rest, lateStore := (a.core p).lateStore ++ (if err then [x] else []) } ∧
          Only [.units, .cores] a u)))

/-- Work below is accepted on ring 11, from the state after the elapsed time. In an unprotected ring OPEN, ACTIVATE, ACCEPT and REVERT complete ACCESS; outside its stage each completes WRONG_STATE. OPEN checks form, signature and version in this order (NOT_FOR_PART, SIG_FAIL, ROLLBACK), leaving the slot alone on a failure; else it discards the staged set, erases the 192 blocks of the slot not running and writes the head. BLOCK refuses an unknown entry or block (MALFORMED), completes a marked one at once with the blocks missing, counts CRC_FAIL, else programs 16 pages. CLOSE with blocks missing answers their number; a part whose hash or signature fails is HASH_FAIL or SIG_FAIL, its marks cleared; else STAGED. ACTIVATE writes a TRIAL record into the other copy; only the lead takes it in a cohort, asks all present members and after their agreement sends the stamp 1024 cycles on; another answer, or none in 10 ms, is COHORT_ABORT; at the stamp each STAGED member writes its record with EPOCH. ACCEPT writes a SETTLED record with the higher FLOOR; at the lead it waits for every member's digest. REVERT and the end of the trial window write the fallback's SETTLED record, the lead broadcasting it. The end of the last NOR operation brings OPEN, the mark or the settled stage, and completes the work; or the warm restart with CAUSE 4, which after an activation (no completion) waits until all rings are disabled and have written their last completion, or for the drain bound. The message form between members is the model's choice (log entry 44). -/
def Obligations.UpdatesAreStagedTriedAndSettled : Prop :=
  ∀ (s : State) (t : Elapsed), s.Canonical →
    let a := s.advance t
    let ns := a.clk.ns
    let stage := a.rd R.UPD_STATUS_STAGE
    let head := a.upd.head
    let mine := if a.inCohort then a.rd R.COH_CFG_INDEX else 0
    let staged := stagedParts head mine
    let missing := fun (marks : List (Nat × Nat)) => (staged.map (partBlocks head)).sum - marks.length
    let one := fun (u : State) (f : Fld) => u.rd f = min (2 ^ f.width - 1) (a.rd f + 1)
    let idle := a.upd.tasks = [] ∧ a.mem.nvmOp = none ∧ a.domOn Dom.nvm = true ∧ (a.unit Hdr.nvm).lapsed = false ∧
      (a.unit Hdr.upd).lapsed = false
    let base := if a.coh.outAt = a.clk.edges then a.coh.out else []
    let sent := fun (u : State) (ps : List (Nat × Nat × List Nat)) =>
      ∃ l, u.coh.out = base ++ l ∧ (l.map fun p => (p.dst, p.type, p.fields)) = ps
    let busy := a.upd.tasks.any (fun k => match k.goal with
      | .accepted _ | .reverted => true
      | _ => false) = true
    let leads := a.inCohort = true ∧ a.rd R.COH_STATUS_STATE = 2
    let present := (List.range 8).filter fun m => m != a.rd R.COH_CFG_INDEX && bitOf (a.rd R.COH_STATUS_PRESENT) m
    let queues := fun (u : State) (goal : UpdGoal) (i : Option Nat) (ok : List NvmOp → Prop) => ∃ k o, u.upd.tasks = a.upd.tasks ++ [k] ∧
      k.goal = goal ∧ k.idx = i ∧ k.seq = none ∧ k.ops.head? = some o ∧ ok k.ops ∧ BytesKept a u ∧
      (idle → u.mem.nvmOp = some { o with startedAt := ns } ∧ u.flag R.NVM_STATUS_BUSY = true) ∧
      (∀ j w, i = some j → a.findWork 11 j = some w → ∃ x, u.findWork 11 j = some { w with stage := x } ∧ (x = .waiting ∨ x = .started) ∧
        (idle → x = .started))
    let record := fun (active state fallback : Nat) (ops : List NvmOp) => ∃ e p, ops = [e, p] ∧ e.cmd = 2 ∧ p.cmd = 1 ∧ p.addr = e.addr ∧
      (∀ c b, a.recordInForce = some (c, b) → e.addr = recordAddr (1 - c) ∧ imgNum p.data 0 4 = (imgNum b 0 4 + 1) % 2 ^ 32) ∧
      (a.recordInForce = none → e.addr = recordAddr 0 ∧ imgNum p.data 0 4 = 1) ∧ imgNum p.data 4 1 = active ∧ imgNum p.data 5 1 = state ∧
      imgNum p.data 6 1 = 0 ∧ imgNum p.data 7 1 = fallback ∧ crc32 (p.data.take 60) = imgNum p.data 60 4
    let old := (a.recordInForce.map (·.2)).getD []
    let reverts := fun (u : State) (i : Option Nat) => queues u .reverted i (record (imgNum old 7 1 % 2) 0 0) ∧
      (leads → a.domOn Dom.coh = true → sent u [(0xF, 5, [1, 0x1044040, 16, 3, 0])]) ∧
      (a.inCohort = true → a.rd R.COH_STATUS_STATE = 3 → a.domOn Dom.coh = true →
        sent u [(a.rd R.COH_STATUS_LEAD, 5, [1, 0x1044040, 16, 3, 0])])
    let restarted := fun (c : Instr) => ∃ u, exec c s = .next u ∧ u.phase = .stage 2 ∧ u.rd R.DEV_RESTART_CAUSE = 4 ∧
      u.upd = { reverted := a.upd.reverted }
    (∀ w, a.workReady 11 w.idx 0x90 w = true → w.ring = 11 →
      let c := Instr.updOpen t w.idx
      let n := w.word 4
      let h := a.bytes (w.word 3) n
      let slot := 1 - a.rd R.UPD_STATUS_ACTIVE
      let refused := fun (u : State) st => Decided a u w st 0 ∧ u.upd = a.upd ∧ u.mem = a.mem
      (w.prot = false → ∃ u, exec c s = .next u ∧ refused u 0x0C) ∧
      (w.prot = true → stage = 3 → ∃ u, exec c s = .next u ∧ refused u 0x38) ∧
      (w.prot = true → stage ≠ 3 → 4096 < n → ∃ u, exec c s = .next u ∧ refused u 0x3B) ∧
      (w.prot = true → stage ≠ 3 → n ≤ 4096 → a.devReadable (w.word 3) n = false → ∃ u, exec c s = .next u ∧ refused u 0x0B) ∧
      (w.prot = true → stage ≠ 3 → n ≤ 4096 → a.devReadable (w.word 3) n = true → a.bankAllows true (w.word 3) n = true →
        (n = 0 ∨ a.rangeOn (w.word 3) n = true) → ∃ u, exec c s = .next u ∧
          (if headFits h = false then refused u 0x3B
           else if headSigned h = false then refused u 0x35 ∧ one u R.UPD_COUNTS_SIGFAIL
           else if manVersion h < a.rd R.UPD_FLOOR_FLOOR then refused u 0x39
           else u.upd.head = h ∧ u.upd.slot = slot ∧ u.upd.marks = [] ∧ u.rd R.UPD_STATUS_STAGE = 0 ∧ u.flag R.UPD_STATUS_FBVALID = false ∧
             u.flag R.UPD_STATUS_SAMEVER = decide (manVersion h = a.rd R.UPD_VERSION_VERSION) ∧
             queues u (.opened ((stagedParts h mine).map (partBlocks h)).sum) (some w.idx) fun ops =>
               (∀ i, i < 192 → ∃ o, ops[i]? = some o ∧ o.cmd = 3 ∧ o.addr = slotBase slot + 65536 * i) ∧
               (∀ i, i < (n + 255) / 256 → ∃ o, ops[192 + i]? = some o ∧ o.cmd = 1 ∧ o.addr = slotBase slot + 256 * i ∧
                 ∀ j, 256 * i + j < n → j < 256 → o.data.getD j 0#8 = h.getD (256 * i + j) 0#8)))) ∧
    (∀ w, a.workReady 11 w.idx 0x91 w = true → w.ring = 11 →
      let c := Instr.updBlock t w.idx
      let e := bitsOf (w.word 3) 0 4
      let n := bitsOf (w.word 3) 16 12
      let data := a.bytes (w.word 4) 4096
      let ends := fun (st r : Nat) => ∃ u, exec c s = .next u ∧ Decided a u w st r ∧ u.upd = a.upd ∧ u.mem = a.mem ∧
        (st = 0x37 → one u R.UPD_COUNTS_CRCFAIL)
      (stage ≠ 1 → ends 0x38 0) ∧
      (stage = 1 → a.devReadable (w.word 4) 4096 = false → ends 0x0B 0) ∧
      (stage = 1 → a.devReadable (w.word 4) 4096 = true → a.bankAllows w.prot (w.word 4) 4096 = true → a.rangeOn (w.word 4) 4096 = true →
        (e ∉ staged ∨ partBlocks head e ≤ n → ends 0x0B 0) ∧
        (e ∈ staged → n < partBlocks head e → (e, n) ∈ a.upd.marks → ends 0x00 (missing a.upd.marks)) ∧
        (e ∈ staged → n < partBlocks head e → (e, n) ∉ a.upd.marks → crc32 data ≠ w.word 5 → ends 0x37 0) ∧
        (e ∈ staged → n < partBlocks head e → (e, n) ∉ a.upd.marks → crc32 data = w.word 5 → ∃ u, exec c s = .next u ∧
          u.upd.marks = a.upd.marks ∧ queues u (.block e n) (some w.idx) fun ops => ops.length = 16 ∧
            ∀ i, i < 16 → ∃ o, ops[i]? = some o ∧ o.cmd = 1 ∧ o.addr = slotBase a.upd.slot + partOffset head e + 4096 * n + 256 * i ∧
              o.data = (data.drop (256 * i)).take 256))) ∧
    (∀ w, a.workReady 11 w.idx 0x92 w = true → w.ring = 11 →
      let c := Instr.updClose t w.idx
      let hashed := a.partHashed a.upd.slot head
      let ends := fun (st r : Nat) (p : State → Prop) => ∃ u, exec c s = .next u ∧ Decided a u w st r ∧ p u ∧ BytesKept a u
      (stage ≠ 1 → ends 0x38 0 fun u => u.upd = a.upd) ∧
      (stage = 1 → missing a.upd.marks ≠ 0 → ends 0x38 (missing a.upd.marks) fun u => u.upd = a.upd) ∧
      (stage = 1 → missing a.upd.marks = 0 →
        ((∀ e ∈ staged, hashed e = true ∧ partSigned head e = true) → ends 0x00 0 fun u => u.rd R.UPD_STATUS_STAGE = 2 ∧ u.upd = a.upd) ∧
        (∀ l e r, staged = l ++ e :: r → (∀ x ∈ l, hashed x = true ∧ partSigned head x = true) →
          let clears := fun (u : State) => u.rd R.UPD_STATUS_STAGE = 1 ∧ u.upd = { a.upd with marks := a.upd.marks.filter (·.1 != e) }
          (hashed e = false → ends 0x36 0 clears) ∧
          (hashed e = true → partSigned head e = false → ends 0x35 0 fun u => clears u ∧ one u R.UPD_COUNTS_SIGFAIL)))) ∧
    (∀ w, a.workReady 11 w.idx 0x93 w = true → w.ring = 11 →
      let c := Instr.updActivate t w.idx
      let ends := fun (st : Nat) => ∃ u, exec c s = .next u ∧ Decided a u w st 0 ∧ Only [.ring] a u
      (w.prot = false ∨ (a.inCohort = true ∧ ¬leads) → ends 0x0C) ∧
      (w.prot = true → a.inCohort = false ∨ leads → stage ≠ 2 → ends 0x38) ∧
      (w.prot = true → a.inCohort = false → stage = 2 → ∃ u, exec c s = .next u ∧ queues u .activated (some w.idx)
        (record (a.upd.slot % 256) 1 (a.rd R.UPD_STATUS_ACTIVE + 128))) ∧
      (w.prot = true → leads → stage = 2 → a.upd.preparing ≠ none ∨ a.upd.activateAt ≠ none → ends 0x38) ∧
      (w.prot = true → leads → stage = 2 → a.upd.preparing = none → a.upd.activateAt = none → a.domOn Dom.coh = true → present ≠ [] →
        ∃ u, exec c s = .next u ∧ u.upd = { a.upd with preparing := some (w.idx, ns), prepared := [] } ∧
          sent u [(0xF, 5, [0, 0x1044040, 16])] ∧ u.findWork 11 w.idx = some { w with stage := .waiting } ∧ Only [.units, .ring, .coh, .upd] a u)) ∧
    (a.upd.preparing = none → exec (.cohortPrepareTimeout t) s = .next a) ∧
    (∀ i x, a.upd.preparing = some (i, x) →
      (ns < x + 10000000 → exec (.cohortPrepareTimeout t) s = .next a) ∧
      (x + 10000000 ≤ ns → ∃ u, exec (.cohortPrepareTimeout t) s = .next u ∧ u.upd = { a.upd with preparing := none, prepared := [] } ∧
        (∀ w, a.findWork 11 i = some w → Decided a u w 0x3A 0) ∧ Only [.ring, .upd] a u) ∧
      (∀ (h : CohHead) v, 2 ≤ a.rd R.COH_CFG_COUNT → a.domOn Dom.coh = true → a.enabled Hdr.coh = true → (a.unit Hdr.coh).lapsed = false →
        h.crcOk = true → h.epoch = a.rd R.COH_EPOCH_EPOCH % 256 → h.late = false →
        let c := Instr.cohWrsp t h 0x1044040 v false
        let agrees := v % 8 = 2 ∧ v / 8 = manDigest head
        let all := ∀ m ∈ present, m ∈ a.upd.prepared ∨ m = h.src
        let at_ := (a.alignedStamp + 67108864) % 2 ^ 56
        (¬agrees → ∃ u, exec c s = .next u ∧ u.upd = { a.upd with preparing := none, prepared := [] } ∧
          ∀ w, a.findWork 11 i = some w → Decided a u w 0x3A 0) ∧
        (agrees → ¬all → ∃ u, exec c s = .next u ∧ u.upd = { a.upd with prepared := a.upd.prepared ++ [h.src] } ∧ Only [.units, .upd] a u) ∧
        (agrees → all → ∃ u, exec c s = .next u ∧ u.upd = { a.upd with preparing := none, prepared := [], activateAt := some at_ } ∧
          sent u [(0xF, 5, [1, 0x1044040, 16, 1, at_])] ∧ Only [.units, .coh, .upd] a u))) ∧
    (a.upd.activateAt = none → exec (.cohortActivation t) s = .next a) ∧
    (∀ x, a.upd.activateAt = some x →
      let due := a.tempoUsable = true ∧ 0 ≤ stampDiff a.alignedStamp x
      (¬due → exec (.cohortActivation t) s = .next a) ∧
      (due → stage ≠ 2 → ∃ u, exec (.cohortActivation t) s = .next u ∧ u.upd = { a.upd with activateAt := none } ∧ Only [.upd] a u) ∧
      (due → stage = 2 → ∃ u, exec (.cohortActivation t) s = .next u ∧ u.upd.activateAt = none ∧
        queues u .activated none fun ops => record (a.upd.slot % 256) 1 (a.rd R.UPD_STATUS_ACTIVE + 128) ops ∧
          ∀ p, ops[1]? = some p → imgNum p.data 20 4 = a.rd R.COH_EPOCH_EPOCH)) ∧
    (∀ w, a.workReady 11 w.idx 0x94 w = true → w.ring = 11 →
      let c := Instr.updAccept t w.idx
      let ends := fun (st : Nat) => ∃ u, exec c s = .next u ∧ Decided a u w st 0 ∧ Only [.ring] a u
      let floor := max (a.rd R.UPD_FLOOR_FLOOR) (manFloor (a.slotHead (a.rd R.UPD_STATUS_ACTIVE)))
      let settles := fun (u : State) => queues u (.accepted floor) (some w.idx) (record (a.rd R.UPD_STATUS_ACTIVE) 0 (imgNum old 7 1))
      let told := ∀ m ∈ present, ∃ r ∈ a.coh.members, r.index = m ∧ r.digest = a.ownDigest
      (w.prot = false → ends 0x0C) ∧ (w.prot = true → stage ≠ 3 ∨ busy ∨ a.upd.accepting ≠ none → ends 0x38) ∧
      (w.prot = true → stage = 3 → ¬busy → a.upd.accepting = none →
        (¬leads → ∃ u, exec c s = .next u ∧ settles u) ∧
        (leads → ¬told → ∃ u, exec c s = .next u ∧ u.upd = { a.upd with accepting := some w.idx } ∧
          u.findWork 11 w.idx = some { w with stage := .waiting } ∧ Only [.ring, .upd] a u) ∧
        (leads → told → a.domOn Dom.coh = true → ∃ u, exec c s = .next u ∧ u.upd.accepting = none ∧
          sent u [(0xF, 5, [1, 0x1044040, 16, 2, 0])] ∧ settles u))) ∧
    (∀ w, a.workReady 11 w.idx 0x95 w = true → w.ring = 11 →
      let c := Instr.updRevert t w.idx
      let ends := fun (st : Nat) => ∃ u, exec c s = .next u ∧ Decided a u w st 0 ∧ Only [.ring] a u
      (w.prot = false → ends 0x0C) ∧ (w.prot = true → stage ≠ 3 ∨ busy → ends 0x38) ∧
      (w.prot = true → stage = 3 → ¬busy → ∃ u, exec c s = .next u ∧ reverts u (some w.idx))) ∧
    (let past := stage = 3 ∧ ¬busy ∧ ∃ x, a.upd.trialEnd = some x ∧ x ≤ ns
     (¬past → exec (.trialExpiry t) s = .next a) ∧ (past → ∃ u, exec (.trialExpiry t) s = .next u ∧ reverts u none)) ∧
    (∀ k o e, a.mem.nvmOp = some o → o.update = true → o.suspendedAt = none → a.upd.tasks = [k] → k.ops = [e] → e.cmd = o.cmd → e.addr = o.addr →
      let c := Instr.nvmOperationEnd t true
      let done := fun (r : Nat) (u : State) => u.upd.tasks = [] ∧ u.mem.nvmOp = none ∧
        ∀ i w, k.idx = some i → a.findWork 11 i = some w → Decided a u w 0x00 r
      (∀ r, k.goal = .opened r → ∃ u, exec c s = .next u ∧ u.rd R.UPD_STATUS_STAGE = 1 ∧ done r u) ∧
      (∀ p n, k.goal = .block p n → ∃ u, exec c s = .next u ∧ u.upd.marks = a.upd.marks ++ [(p, n)] ∧ done (missing (a.upd.marks ++ [(p, n)])) u) ∧
      (∀ f, k.goal = .accepted f → ∃ u, exec c s = .next u ∧ u.rd R.UPD_STATUS_STAGE = 0 ∧ u.rd R.UPD_FLOOR_FLOOR = f % 2 ^ 32 ∧
        u.rd R.UPD_TRIAL_BOOTS = 0 ∧ u.upd.trialEnd = none ∧ done f u) ∧
      (k.goal = .activated → (∀ w ∈ a.ring.work, w.ring = 11 ∧ k.idx = some w.idx) → a.ring.done = [] → restarted c) ∧
      (k.goal = .activated → (∃ d ∈ a.ring.done, d.ring < 16) → ∃ u, exec c s = .next u ∧ u.phase = a.phase ∧ u.upd.tasks = [] ∧
        u.upd.leaving = some (ns, a.tx.airNs) ∧ (∀ n, n < 16 → u.flag (R.RNG_CFG_EN n) = false) ∧
        ∀ i, k.idx = some i → u.findWork 11 i = none ∧ ∀ d ∈ u.ring.done, d ∈ a.ring.done ∨ d.ring ≠ 11 ∨ d.idx ≠ i) ∧
      (k.goal = .reverted → ∃ u, exec c s = .next u ∧ u.phase = .stage 2 ∧ u.rd R.DEV_RESTART_CAUSE = 4 ∧ u.upd = { reverted := true })) ∧
    (a.upd.leaving ≠ none → (∀ n, n < 16 → a.flag (R.RNG_CFG_EN n) = false) → a.ring.work = [] → ∀ n, n < 16 →
      (∀ d, a.ring.done = [d] → d.ring = n → a.cqFull n = false → a.memOn (16 * a.rd (R.RNG_CQBASE_ADDR n)) = true → d.at_ ≤ a.clk.edges →
        restarted (.completionWrite t n))) ∧
    (∀ x air, a.upd.leaving = some (x, air) → x + 1000 * a.boundOf Hdr.rng + (a.tx.airNs - air) ≤ ns →
      (∀ w ∈ a.ring.work, ∀ i, w.stage ≠ .served i) → restarted (.unitLapse t Hdr.rng))

/-- From the state after the elapsed time. Outside homeroom, on a path the rescue record closes, or with a CRC that fails, a frame does nothing. A repeated SEQ only renews the 15 minutes. Any other frame is taken: HELLO is answered with the long address, variant, boot ROM version, entry cause and the slots' pass flags; HEAD is checked as UPD_OPEN is (NOT_FOR_PART, SIG_FAIL, ROLLBACK) and staged into the slot that is not active where the active one passes, else into A; BLOCK outside OPEN is WRONG_STATE, for an unknown entry or block MALFORMED, a marked one answers the blocks missing, a CRC that differs CRC_FAIL, and else 16 pages are programmed; FINISH with blocks missing is WRONG_STATE with their number, and after a closed set writes a TRIAL record of the slot, whose end sets FINISHED and answers; RESTART after that restarts with CAUSE 3 and the tag's request cleared, before it answers WRONG_STATE; BAUD sets the rate up to 3 Mbaud, 0 leaving it. 15 minutes without a valid frame restart a homeroom begun by the tag where a slot passes, and no other. A reply is TYPE + 0x80, the SEQ and the status first, with the CRC. -/
def Obligations.HomeroomServesItsFrames : Prop :=
  ∀ (s : State) (t : Elapsed), s.Canonical →
    let a := s.advance t
    let x := a.upd.home
    let slots := b2n x.passA + 2 * b2n x.passB
    let stage := a.rd R.UPD_STATUS_STAGE
    let act := a.rd R.UPD_STATUS_ACTIVE
    let head := a.upd.head
    let mine := if a.inCohort then a.rd R.COH_CFG_INDEX else 0
    let staged := stagedParts head mine
    let missing := (staged.map (partBlocks head)).sum - a.upd.marks.length
    let one := fun (u : State) (f : Fld) => u.rd f = min (2 ^ f.width - 1) (a.rd f + 1)
    let reply := fun (u : State) (type seq : Nat) (pay : List Byte) =>
      let b := leBytes 1 (type + 0x80) ++ leBytes 2 pay.length ++ leBytes 2 seq ++ pay
      u.upd.home.last = some (seq, some (0xA5#8 :: b ++ leBytes 4 (crc32 b)))
    let idle := a.upd.tasks = [] ∧ a.mem.nvmOp = none ∧ a.domOn Dom.nvm = true ∧ (a.unit Hdr.nvm).lapsed = false ∧
      (a.unit Hdr.upd).lapsed = false
    let queues := fun (u : State) (goal : UpdGoal) (seq : Nat) (ok : List NvmOp → Prop) => ∃ k o, u.upd.tasks = a.upd.tasks ++ [k] ∧
      k.goal = goal ∧ k.idx = none ∧ k.seq = some seq ∧ k.ops.head? = some o ∧ ok k.ops ∧ u.upd.home.last = some (seq, none) ∧
      BytesKept a u ∧ (idle → u.mem.nvmOp = some { o with startedAt := a.clk.ns })
    let restarted := fun (u : State) => u.phase = .stage 2 ∧ u.rd R.DEV_RESTART_CAUSE = 3 ∧ u.upd.home = {} ∧
      (a.tag.run = none → a.tag.journal = [] → bitOf u.tagFlags 18 = false)
    (∀ h hd e n crc data rate,
      let shut := a.phase ≠ .homeroom ∨ h.crcOk = false ∨ a.pathOpen h.path = false
      ∀ c ∈ [Instr.homeroomHello t h, .homeroomHead t h hd, .homeroomBlock t h e n crc data, .homeroomFinish t h, .homeroomRestart t h,
          .homeroomBaud t h rate],
        (shut → exec c s = .next a) ∧
        (¬shut → x.last.any (·.1 == h.seq) = true → ∃ u, exec c s = .next u ∧ u.upd = { a.upd with home := { x with at_ := a.clk.ns } } ∧
          Only [.upd] a u)) ∧
    (∀ h, a.phase = .homeroom → h.crcOk = true → a.pathOpen h.path = true → x.last.any (·.1 == h.seq) = false →
      (∃ u, exec (.homeroomHello t h) s = .next u ∧ u.upd.home.at_ = a.clk.ns ∧ Only [.upd] a u ∧
        reply u 1 h.seq ([0#8] ++ leBytes 8 ownLong ++ leBytes 1 (b2n Config.bandA) ++ leBytes 2 Config.bootVersion.toNat ++ leBytes 1 x.cause ++
          leBytes 1 slots)) ∧
      (∀ hd,
        let slot := if bitOf slots act then 1 - act else 0
        let refused := fun (u : State) st => reply u 2 h.seq (leBytes 1 st ++ leBytes 4 0) ∧ u.upd.head = head ∧ u.mem = a.mem
        ∃ u, exec (.homeroomHead t h hd) s = .next u ∧ u.upd.home.at_ = a.clk.ns ∧
          (if headFits hd = false then refused u 0x3B
           else if headSigned hd = false then refused u 0x35 ∧ one u R.UPD_COUNTS_SIGFAIL
           else if manVersion hd < ((a.recordInForce).map fun r => imgNum r.2 8 4).getD 0 then refused u 0x39
           else u.upd.head = hd ∧ u.upd.slot = slot ∧ u.upd.marks = [] ∧
             queues u (.opened ((stagedParts hd mine).map (partBlocks hd)).sum) h.seq fun ops =>
               (∀ i, i < 192 → ∃ o, ops[i]? = some o ∧ o.cmd = 3 ∧ o.addr = slotBase slot + 65536 * i) ∧
               ops.length = 192 + (hd.length + 255) / 256)) ∧
      (∀ e n crc data, data.length = 4096 →
        let c := Instr.homeroomBlock t h e n crc data
        let ends := fun (st r : Nat) => ∃ u, exec c s = .next u ∧ reply u 3 h.seq (leBytes 1 st ++ leBytes 4 r) ∧ u.mem = a.mem ∧
          u.upd.marks = a.upd.marks ∧ (st = 0x37 → one u R.UPD_COUNTS_CRCFAIL)
        (stage ≠ 1 → ends 0x38 0) ∧ (stage = 1 → e ∉ staged ∨ partBlocks head e ≤ n → ends 0x0B 0) ∧
        (stage = 1 → e ∈ staged → n < partBlocks head e →
          ((e, n) ∈ a.upd.marks → ends 0x00 missing) ∧ ((e, n) ∉ a.upd.marks → crc32 data ≠ crc → ends 0x37 0) ∧
          ((e, n) ∉ a.upd.marks → crc32 data = crc → ∃ u, exec c s = .next u ∧ queues u (.block e n) h.seq fun ops => ops.length = 16 ∧
            ∀ i, i < 16 → ∃ o, ops[i]? = some o ∧ o.cmd = 1 ∧ o.addr = slotBase a.upd.slot + partOffset head e + 4096 * n + 256 * i ∧
              o.data = (data.drop (256 * i)).take 256))) ∧
      (stage ≠ 1 → ∃ u, exec (.homeroomFinish t h) s = .next u ∧ reply u 4 h.seq (leBytes 1 0x38 ++ leBytes 4 0) ∧ Only [.upd] a u) ∧
      (stage = 1 → missing ≠ 0 → ∃ u, exec (.homeroomFinish t h) s = .next u ∧
        reply u 4 h.seq (leBytes 1 0x38 ++ leBytes 4 missing) ∧ Only [.upd] a u) ∧
      (stage = 1 → missing = 0 → (∀ e ∈ staged, a.partHashed a.upd.slot head e = true ∧ partSigned head e = true) → a.upd.slot < 2 →
        ∃ u, exec (.homeroomFinish t h) s = .next u ∧ u.rd R.UPD_STATUS_STAGE = 2 ∧ queues u .finished h.seq fun ops =>
          ∃ e p, ops = [e, p] ∧ e.cmd = 2 ∧ p.cmd = 1 ∧ p.addr = e.addr ∧ imgNum p.data 4 1 = a.upd.slot ∧ imgNum p.data 5 1 = 1 ∧
            imgNum p.data 6 1 = 0 ∧ imgNum p.data 7 1 = 1 - a.upd.slot + 128 * bitsOf slots (1 - a.upd.slot) 1 ∧
            crc32 (p.data.take 60) = imgNum p.data 60 4) ∧
      (x.finished = false → ∃ u, exec (.homeroomRestart t h) s = .next u ∧ reply u 5 h.seq (leBytes 1 0x38) ∧ Only [.upd] a u) ∧
      (x.finished = true → ∃ u, exec (.homeroomRestart t h) s = .next u ∧ restarted u) ∧
      (∀ rate, let now := if rate = 0 then x.baud else min rate 3000000
        ∃ u, exec (.homeroomBaud t h rate) s = .next u ∧ u.upd.home.baud = now ∧ reply u 6 h.seq ([0#8] ++ leBytes 4 now) ∧ Only [.upd] a u)) ∧
    (∀ k o e q, a.mem.nvmOp = some o → o.update = true → o.suspendedAt = none → a.upd.tasks = [k] → k.ops = [e] → e.cmd = o.cmd → e.addr = o.addr →
      k.goal = .finished → k.idx = none → k.seq = some q → ∃ u, exec (.nvmOperationEnd t true) s = .next u ∧ u.upd.home.finished = true ∧
        u.upd.tasks = [] ∧ reply u 4 q (leBytes 1 0 ++ leBytes 4 0)) ∧
    (let past := a.phase = .homeroom ∧ x.byTag = true ∧ (x.passA = true ∨ x.passB = true) ∧ x.at_ + 900000000000 ≤ a.clk.ns
     (¬past → exec (.homeroomTimeout t) s = .next a) ∧ (past → ∃ u, exec (.homeroomTimeout t) s = .next u ∧ restarted u))
end

