-- ==== Sys2Proof/Laws/Sparse.lean ====
section
/-!
SUPPORT. Sparse stores: reading after a put, the canonical form, byte lists and bit fields.
-/

namespace Sys2Proof.Machine

variable {α : Type} [DecidableEq α]

/-- A canonical list that begins above `k` reads its default at `k`. -/
theorem sget_of_lt (d : Nat → α) (m : List (Nat × α)) (lo k : Nat) (h : swfFrom d lo m = true) (hk : k < lo) :
    sget d m k = d k := by
  cases m with
  | nil => rfl
  | cons c m =>
    obtain ⟨a, v⟩ := c
    simp only [swfFrom, Bool.and_eq_true, decide_eq_true_eq] at h
    have : k < a := by omega
    simp [sget, Nat.ne_of_lt this, this]

/-- A put is read back. -/
theorem sget_sput_same (d : Nat → α) (m : List (Nat × α)) (lo k : Nat) (v : α) (h : swfFrom d lo m = true) :
    sget d (sput d m k v) k = v := by
  induction m generalizing lo with
  | nil => by_cases hv : v = d k <;> simp [sput, sget, hv]
  | cons c m ih =>
    obtain ⟨a, w⟩ := c
    simp only [swfFrom, Bool.and_eq_true, decide_eq_true_eq] at h
    unfold sput
    by_cases hka : k = a
    · subst hka
      by_cases hv : v = d k
      · subst hv
        simpa using sget_of_lt d m (k + 1) k h.2 (Nat.lt_succ_self k)
      · simp [hv, sget]
    · by_cases hlt : k < a
      · by_cases hv : v = d k
        · subst hv; simp [hka, hlt, sget]
        · simp [hka, hlt, hv, sget]
      · simpa [hka, hlt, sget] using ih (a + 1) h.2

/-- A put leaves every other key alone. -/
theorem sget_sput_ne (d : Nat → α) (m : List (Nat × α)) (lo k j : Nat) (v : α) (h : swfFrom d lo m = true) (hj : j ≠ k) :
    sget d (sput d m k v) j = sget d m j := by
  induction m generalizing lo with
  | nil => by_cases hv : v = d k <;> simp [sput, sget, hv, hj]
  | cons c m ih =>
    obtain ⟨a, w⟩ := c
    simp only [swfFrom, Bool.and_eq_true, decide_eq_true_eq] at h
    have low : j < a + 1 → sget d m j = d j := fun hl => sget_of_lt d m (a + 1) j h.2 hl
    unfold sput
    by_cases hka : k = a
    · subst hka
      by_cases hv : v = d k
      · by_cases hl : j < k
        · simp [hv, sget, hj, hl, low (by omega)]
        · simp [hv, sget, hj, hl]
      · simp [hv, sget, hj]
    · by_cases hlt : k < a
      · by_cases hv : v = d k
        · simp [hka, hlt, hv]
        · by_cases hl : j < k
          · have h1 : j ≠ a := by omega
            have h2 : j < a := by omega
            simp [hka, hlt, hv, sget, hj, hl, h1, h2]
          · simp [hka, hlt, hv, sget, hj, hl]
      · have := ih (a + 1) h.2
        by_cases hja : j = a
        · simp [hka, hlt, sget, hja]
        · simp [hka, hlt, sget, hja, this]

/-- The canonical form from `lo` holds from any lower bound. -/
theorem swfFrom_mono (d : Nat → α) (m : List (Nat × α)) (lo lo' : Nat) (h : swfFrom d lo m = true) (hl : lo' ≤ lo) :
    swfFrom d lo' m = true := by
  cases m with
  | nil => rfl
  | cons c m =>
    simp only [swfFrom, Bool.and_eq_true, decide_eq_true_eq] at h ⊢
    exact ⟨⟨by omega, h.1.2⟩, h.2⟩

/-- A put keeps the canonical form. -/
theorem swfFrom_sput (d : Nat → α) (m : List (Nat × α)) (lo k : Nat) (v : α) (h : swfFrom d lo m = true) (hk : lo ≤ k) :
    swfFrom d lo (sput d m k v) = true := by
  induction m generalizing lo with
  | nil => by_cases hv : v = d k <;> simp [sput, swfFrom, hv, hk]
  | cons c m ih =>
    obtain ⟨a, w⟩ := c
    have h' := h
    simp only [swfFrom, Bool.and_eq_true, decide_eq_true_eq] at h
    unfold sput
    by_cases hka : k = a
    · subst hka
      by_cases hv : v = d k
      · simpa [hv] using swfFrom_mono d m (k + 1) lo h.2 (by omega)
      · simp [hv, swfFrom, hk, h.2]
    · by_cases hlt : k < a
      · by_cases hv : v = d k
        · simpa [hka, hlt, hv] using h'
        · simp only [hka, hlt, hv, if_true, if_false, swfFrom, hk, decide_true, ne_eq, not_false_eq_true, Bool.true_and,
            Bool.and_eq_true, decide_eq_true_eq]
          exact ⟨⟨by omega, h.1.2⟩, h.2⟩
      · simp only [hka, hlt, if_false, swfFrom, h.1.1, h.1.2, decide_true, Bool.true_and, ne_eq,
          not_false_eq_true]
        exact ih (a + 1) h.2 (by omega)

/-- Dropping keys keeps the canonical form. -/
theorem swfFrom_sdrop (d : Nat → α) (p : Nat → Bool) (m : List (Nat × α)) (lo : Nat) (h : swfFrom d lo m = true) :
    swfFrom d lo (sdrop p m) = true := by
  induction m generalizing lo with
  | nil => rfl
  | cons c m ih =>
    obtain ⟨a, w⟩ := c
    simp only [swfFrom, Bool.and_eq_true, decide_eq_true_eq] at h
    have hm := ih (a + 1) h.2
    unfold sdrop at hm ⊢
    by_cases hp : p a = true
    · simpa [List.filter_cons, hp] using swfFrom_mono d _ (a + 1) lo hm (by omega)
    · simp only [List.filter_cons, hp, Bool.not_false, if_true, swfFrom, Bool.and_eq_true, decide_eq_true_eq]
      exact ⟨h.1, hm⟩

/-- A dropped key reads its default, any other key as before. -/
theorem sget_sdrop (d : Nat → α) (p : Nat → Bool) (m : List (Nat × α)) (lo k : Nat) (h : swfFrom d lo m = true) :
    sget d (sdrop p m) k = if p k then d k else sget d m k := by
  induction m generalizing lo with
  | nil => simp [sdrop, sget]
  | cons c m ih =>
    obtain ⟨a, w⟩ := c
    have hw := swfFrom_sdrop d p m (a + 1) (by
      simp only [swfFrom, Bool.and_eq_true] at h; exact h.2)
    simp only [swfFrom, Bool.and_eq_true, decide_eq_true_eq] at h
    have hm := ih (a + 1) h.2
    unfold sdrop at hm hw ⊢
    by_cases hp : p a = true
    · simp only [List.filter_cons, hp, Bool.not_true, Bool.false_eq_true, if_false]
      rw [hm]
      by_cases hk : k = a
      · subst hk; simp [hp]
      · by_cases hl : k < a
        · simp [sget, hk, hl, sget_of_lt d m (a + 1) k h.2 (by omega)]
        · simp [sget, hk, hl]
    · simp only [List.filter_cons, hp, Bool.not_false, if_true]
      by_cases hk : k = a
      · subst hk; simp [sget, hp]
      · by_cases hl : k < a
        · simp [sget, hk, hl]
        · simp [sget, hk, hl, hm]

theorem swf_sput (d : Nat → α) (m : List (Nat × α)) (k : Nat) (v : α) (h : swf d m = true) : swf d (sput d m k v) = true :=
  swfFrom_sput d m 0 k v h (Nat.zero_le k)

theorem swf_sdrop (d : Nat → α) (p : Nat → Bool) (m : List (Nat × α)) (h : swf d m = true) : swf d (sdrop p m) = true :=
  swfFrom_sdrop d p m 0 h

/-- Equal reads of canonical stores are equal data. -/
theorem swf_ext (d : Nat → α) (m n : List (Nat × α)) (lo : Nat) (hm : swfFrom d lo m = true) (hn : swfFrom d lo n = true)
    (h : ∀ k, sget d m k = sget d n k) : m = n := by
  induction m generalizing n lo with
  | nil =>
    cases n with
    | nil => rfl
    | cons c n =>
      obtain ⟨a, v⟩ := c
      simp only [swfFrom, Bool.and_eq_true, decide_eq_true_eq] at hn
      have := h a
      simp [sget] at this
      exact absurd this.symm hn.1.2
  | cons c m ih =>
    obtain ⟨a, v⟩ := c
    have hm' := hm
    simp only [swfFrom, Bool.and_eq_true, decide_eq_true_eq] at hm
    cases n with
    | nil =>
      have := h a
      simp [sget] at this
      exact absurd this hm.1.2
    | cons e n =>
      obtain ⟨b, w⟩ := e
      have hn' := hn
      simp only [swfFrom, Bool.and_eq_true, decide_eq_true_eq] at hn
      have hab : a = b := by
        rcases Nat.lt_trichotomy a b with hl | he | hg
        · have := h a
          simp [sget, Nat.ne_of_lt hl, hl] at this
          exact absurd this hm.1.2
        · exact he
        · have := h b
          simp [sget, Nat.ne_of_lt hg, hg] at this
          exact absurd this.symm hn.1.2
      subst hab
      have hv : v = w := by simpa [sget] using h a
      subst hv
      have : m = n := by
        refine ih n (a + 1) hm.2 hn.2 fun k => ?_
        by_cases hk : k ≤ a
        · rw [sget_of_lt d m (a + 1) k hm.2 (by omega), sget_of_lt d n (a + 1) k hn.2 (by omega)]
        · have := h k
          have h1 : k ≠ a := by omega
          have h2 : ¬ k < a := by omega
          simpa [sget, h1, h2] using this
      rw [this]

/-! ### Bit fields -/

/-- A field of the right width reads back. -/
theorem bitsOf_setBitsOf (v lo w x : Nat) : bitsOf (setBitsOf v lo w x) lo w = x % 2 ^ w := by
  unfold setBitsOf bitsOf
  have hlo : 0 < 2 ^ lo := Nat.two_pow_pos lo
  have hw : 0 < 2 ^ w := Nat.two_pow_pos w
  have e1 : v / 2 ^ lo = 2 ^ w * (v / 2 ^ lo / 2 ^ w) + v / 2 ^ lo % 2 ^ w := (Nat.div_add_mod _ _).symm
  have e2 : v = 2 ^ lo * (v / 2 ^ lo) + v % 2 ^ lo := (Nat.div_add_mod _ _).symm
  have hr : v % 2 ^ lo < 2 ^ lo := Nat.mod_lt _ hlo
  have e3 : v - v / 2 ^ lo % 2 ^ w * 2 ^ lo + x % 2 ^ w * 2 ^ lo
      = (2 ^ w * (v / 2 ^ lo / 2 ^ w) + x % 2 ^ w) * 2 ^ lo + v % 2 ^ lo := by
    have : v / 2 ^ lo * 2 ^ lo = 2 ^ w * (v / 2 ^ lo / 2 ^ w) * 2 ^ lo + v / 2 ^ lo % 2 ^ w * 2 ^ lo := by
      rw [← Nat.add_mul, ← e1]
    rw [Nat.mul_comm (2 ^ lo)] at e2
    rw [Nat.add_mul]
    omega
  rw [e3, Nat.add_comm, Nat.add_mul_div_right _ _ hlo, Nat.div_eq_of_lt hr, Nat.zero_add, Nat.mul_add_mod,
    Nat.mod_mod]

theorem leBytes_length (n v : Nat) : (leBytes n v).length = n := by
  induction n generalizing v with
  | zero => rfl
  | succ n ih => simp [leBytes, ih]

/-- Bytes of a number, read back. -/
theorem leNum_leBytes (n v : Nat) : leNum (leBytes n v) = v % 256 ^ n := by
  induction n generalizing v with
  | zero => simp [leBytes, leNum, Nat.mod_one]
  | succ n ih =>
    rw [leBytes, leNum, ih, BitVec.toNat_ofNat, show (2 : Nat) ^ 8 = 256 from rfl, Nat.pow_succ,
      Nat.mul_comm (256 ^ n) 256, Nat.mod_mul]

end Sys2Proof.Machine
end

