-- ==== Sys2Proof/Laws/Only.lean ====
section
/-!
SUPPORT. What updates of the state leave alone: `Only ps s t` composed over the setters of Machine/Ops.lean.
-/

namespace Sys2Proof.Machine

/-- Every part of `qs` is among `ps`. -/
abbrev Parts (qs ps : List Part) : Prop := qs.all ps.contains = true

theorem Parts.mem {qs ps : List Part} (h : Parts qs ps) {p : Part} (hp : ps.contains p = false) : qs.contains p = false := by
  cases hq : qs.contains p with
  | false => rfl
  | true =>
    have hm : p ∈ qs := by simpa using hq
    have := (List.all_eq_true.mp h) p hm
    rw [hp] at this
    exact absurd this (by decide)

theorem Parts.trans {as qs ps : List Part} (h : Parts as qs) (g : Parts qs ps) : Parts as ps := by
  refine List.all_eq_true.mpr fun p hp => ?_
  have h1 := (List.all_eq_true.mp h) p hp
  exact (List.all_eq_true.mp g) p (by simpa using h1)

theorem Only.refl (ps : List Part) (s : State) : Only ps s s :=
  ⟨fun p _ => by cases p <;> rfl, id, rfl⟩

theorem Only.trans {ps : List Part} {s t u : State} (h : Only ps s t) (g : Only ps t u) : Only ps s u := by
  refine ⟨fun p hp => ?_, fun c => g.canonical (h.canonical c), g.pending.trans h.pending⟩
  have a := h.same p hp
  have b := g.same p hp
  cases p <;> exact Eq.trans b a

theorem Only.mono {qs ps : List Part} {s t : State} (h : Only qs s t) (hp : Parts qs ps) : Only ps s t :=
  ⟨fun p hq => h.same p (hp.mem hq), h.canonical, h.pending⟩

theorem Only.ite {ps : List Part} {s₀ a b : State} {c : Prop} [Decidable c] (ha : Only ps s₀ a) (hb : Only ps s₀ b) :
    Only ps s₀ (if c then a else b) := by
  by_cases h : c
  · simpa [h] using ha
  · simpa [h] using hb

theorem Only.id_ {ps : List Part} {s₀ s : State} (h : Only ps s₀ s) : Only ps s₀ (id s) := h

theorem Only.foldl_fst {ps : List Part} {s₀ : State} {α β : Type} {f : State × β → α → State × β} {l : List α} {a : State × β}
    (hf : ∀ t x, Only ps s₀ t.1 → Only ps s₀ (f t x).1) (h : Only ps s₀ a.1) : Only ps s₀ (l.foldl f a).1 := by
  induction l generalizing a with
  | nil => exact h
  | cons x l ih => exact ih (hf a x h)

theorem Only.foldl {ps : List Part} {s₀ s : State} {α : Type} {f : State → α → State} {l : List α}
    (hf : ∀ t x, Only ps s₀ t → Only ps s₀ (f t x)) (h : Only ps s₀ s) : Only ps s₀ (l.foldl f s) := by
  induction l generalizing s with
  | nil => exact h
  | cons x l ih => exact ih (hf s x h)

theorem Only.set_clk {ps : List Part} {s₀ s : State} {x} (h : Only ps s₀ s) (hp : Parts [.clk] ps)
    : Only ps s₀ { s with clk := x } := by
  refine h.trans ⟨fun p hq => ?_, fun c => ⟨c.regs, c.cells, c.poison, c.satchel, c.doms, c.units, c.cores, c.inner, c.timers, c.ports, c.ctx, c.eeprom, c.log, c.counters⟩, rfl⟩
  cases p <;> first | rfl | exact absurd (hp.mem hq) (by decide)

theorem Only.set_regs {ps : List Part} {s₀ s : State} {x} (h : Only ps s₀ s) (hp : Parts [.regs] ps)
    (h0 : swf resetWord s.regs = true → swf resetWord x = true) : Only ps s₀ { s with regs := x } := by
  refine h.trans ⟨fun p hq => ?_, fun c => ⟨h0 c.regs, c.cells, c.poison, c.satchel, c.doms, c.units, c.cores, c.inner, c.timers, c.ports, c.ctx, c.eeprom, c.log, c.counters⟩, rfl⟩
  cases p <;> first | rfl | exact absurd (hp.mem hq) (by decide)

theorem Only.set_units {ps : List Part} {s₀ s : State} {x} (h : Only ps s₀ s) (hp : Parts [.units] ps)
    (h0 : swf (fun _ => ({} : UnitRec)) s.units = true → swf (fun _ => ({} : UnitRec)) x = true) : Only ps s₀ { s with units := x } := by
  refine h.trans ⟨fun p hq => ?_, fun c => ⟨c.regs, c.cells, c.poison, c.satchel, c.doms, h0 c.units, c.cores, c.inner, c.timers, c.ports, c.ctx, c.eeprom, c.log, c.counters⟩, rfl⟩
  cases p <;> first | rfl | exact absurd (hp.mem hq) (by decide)

theorem Only.set_env {ps : List Part} {s₀ s : State} {x} (h : Only ps s₀ s) (hp : Parts [.env] ps)
    (h0 : s.env.log.wf = true → x.log.wf = true) : Only ps s₀ { s with env := x } := by
  refine h.trans ⟨fun p hq => ?_, fun c => ⟨c.regs, c.cells, c.poison, c.satchel, c.doms, c.units, c.cores, c.inner, c.timers, c.ports, c.ctx, c.eeprom, h0 c.log, c.counters⟩, rfl⟩
  cases p <;> first | rfl | exact absurd (hp.mem hq) (by decide)

theorem Only.set_gen {ps : List Part} {s₀ s : State} {x} (h : Only ps s₀ s) (hp : Parts [.gen] ps)
    : Only ps s₀ { s with gen := x } := by
  refine h.trans ⟨fun p hq => ?_, fun c => ⟨c.regs, c.cells, c.poison, c.satchel, c.doms, c.units, c.cores, c.inner, c.timers, c.ports, c.ctx, c.eeprom, c.log, c.counters⟩, rfl⟩
  cases p <;> first | rfl | exact absurd (hp.mem hq) (by decide)

theorem Only.set_ring {ps : List Part} {s₀ s : State} {x} (h : Only ps s₀ s) (hp : Parts [.ring] ps)
    : Only ps s₀ { s with ring := x } := by
  refine h.trans ⟨fun p hq => ?_, fun c => ⟨c.regs, c.cells, c.poison, c.satchel, c.doms, c.units, c.cores, c.inner, c.timers, c.ports, c.ctx, c.eeprom, c.log, c.counters⟩, rfl⟩
  cases p <;> first | rfl | exact absurd (hp.mem hq) (by decide)

theorem Only.set_mail {ps : List Part} {s₀ s : State} {x} (h : Only ps s₀ s) (hp : Parts [.mail] ps)
    : Only ps s₀ { s with mail := x } := by
  refine h.trans ⟨fun p hq => ?_, fun c => ⟨c.regs, c.cells, c.poison, c.satchel, c.doms, c.units, c.cores, c.inner, c.timers, c.ports, c.ctx, c.eeprom, c.log, c.counters⟩, rfl⟩
  cases p <;> first | rfl | exact absurd (hp.mem hq) (by decide)

theorem Only.set_ev {ps : List Part} {s₀ s : State} {x} (h : Only ps s₀ s) (hp : Parts [.ev] ps)
    (h0 : swf (fun _ => ({} : TimerRec)) s.ev.timers = true → swf (fun _ => ({} : TimerRec)) x.timers = true) : Only ps s₀ { s with ev := x } := by
  refine h.trans ⟨fun p hq => ?_, fun c => ⟨c.regs, c.cells, c.poison, c.satchel, c.doms, c.units, c.cores, c.inner, h0 c.timers, c.ports, c.ctx, c.eeprom, c.log, c.counters⟩, rfl⟩
  cases p <;> first | rfl | exact absurd (hp.mem hq) (by decide)

theorem Only.set_per {ps : List Part} {s₀ s : State} {x} (h : Only ps s₀ s) (hp : Parts [.per] ps)
    (h0 : swf (fun _ => ({} : PortRec)) s.per.ports = true → swf (fun _ => ({} : PortRec)) x.ports = true) : Only ps s₀ { s with per := x } := by
  refine h.trans ⟨fun p hq => ?_, fun c => ⟨c.regs, c.cells, c.poison, c.satchel, c.doms, c.units, c.cores, c.inner, c.timers, h0 c.ports, c.ctx, c.eeprom, c.log, c.counters⟩, rfl⟩
  cases p <;> first | rfl | exact absurd (hp.mem hq) (by decide)

theorem Only.set_cip {ps : List Part} {s₀ s : State} {x} (h : Only ps s₀ s) (hp : Parts [.cip] ps)
    : Only ps s₀ { s with cip := x } := by
  refine h.trans ⟨fun p hq => ?_, fun c => ⟨c.regs, c.cells, c.poison, c.satchel, c.doms, c.units, c.cores, c.inner, c.timers, c.ports, c.ctx, c.eeprom, c.log, c.counters⟩, rfl⟩
  cases p <;> first | rfl | exact absurd (hp.mem hq) (by decide)

theorem Only.set_ctx {ps : List Part} {s₀ s : State} {x} (h : Only ps s₀ s) (hp : Parts [.ctx] ps)
    (h0 : s.ctx.ctx.wf = true → x.ctx.wf = true) : Only ps s₀ { s with ctx := x } := by
  refine h.trans ⟨fun p hq => ?_, fun c => ⟨c.regs, c.cells, c.poison, c.satchel, c.doms, c.units, c.cores, c.inner, c.timers, c.ports, h0 c.ctx, c.eeprom, c.log, c.counters⟩, rfl⟩
  cases p <;> first | rfl | exact absurd (hp.mem hq) (by decide)

theorem Only.set_tag {ps : List Part} {s₀ s : State} {x} (h : Only ps s₀ s) (hp : Parts [.tag] ps)
    (h0 : swf tagDefault s.tag.eeprom = true → swf tagDefault x.eeprom = true) : Only ps s₀ { s with tag := x } := by
  refine h.trans ⟨fun p hq => ?_, fun c => ⟨c.regs, c.cells, c.poison, c.satchel, c.doms, c.units, c.cores, c.inner, c.timers, c.ports, c.ctx, h0 c.eeprom, c.log, c.counters⟩, rfl⟩
  cases p <;> first | rfl | exact absurd (hp.mem hq) (by decide)

theorem Only.set_tmp {ps : List Part} {s₀ s : State} {x} (h : Only ps s₀ s) (hp : Parts [.tmp] ps)
    : Only ps s₀ { s with tmp := x } := by
  refine h.trans ⟨fun p hq => ?_, fun c => ⟨c.regs, c.cells, c.poison, c.satchel, c.doms, c.units, c.cores, c.inner, c.timers, c.ports, c.ctx, c.eeprom, c.log, c.counters⟩, rfl⟩
  cases p <;> first | rfl | exact absurd (hp.mem hq) (by decide)

theorem Only.set_tab {ps : List Part} {s₀ s : State} {x} (h : Only ps s₀ s) (hp : Parts [.tab] ps)
    : Only ps s₀ { s with tab := x } := by
  refine h.trans ⟨fun p hq => ?_, fun c => ⟨c.regs, c.cells, c.poison, c.satchel, c.doms, c.units, c.cores, c.inner, c.timers, c.ports, c.ctx, c.eeprom, c.log, c.counters⟩, rfl⟩
  cases p <;> first | rfl | exact absurd (hp.mem hq) (by decide)

theorem Only.set_cap {ps : List Part} {s₀ s : State} {x} (h : Only ps s₀ s) (hp : Parts [.cap] ps)
    : Only ps s₀ { s with cap := x } := by
  refine h.trans ⟨fun p hq => ?_, fun c => ⟨c.regs, c.cells, c.poison, c.satchel, c.doms, c.units, c.cores, c.inner, c.timers, c.ports, c.ctx, c.eeprom, c.log, c.counters⟩, rfl⟩
  cases p <;> first | rfl | exact absurd (hp.mem hq) (by decide)

theorem Only.set_tx {ps : List Part} {s₀ s : State} {x} (h : Only ps s₀ s) (hp : Parts [.tx] ps)
    : Only ps s₀ { s with tx := x } := by
  refine h.trans ⟨fun p hq => ?_, fun c => ⟨c.regs, c.cells, c.poison, c.satchel, c.doms, c.units, c.cores, c.inner, c.timers, c.ports, c.ctx, c.eeprom, c.log, c.counters⟩, rfl⟩
  cases p <;> first | rfl | exact absurd (hp.mem hq) (by decide)

theorem Only.set_ttb {ps : List Part} {s₀ s : State} {x} (h : Only ps s₀ s) (hp : Parts [.ttb] ps)
    : Only ps s₀ { s with ttb := x } := by
  refine h.trans ⟨fun p hq => ?_, fun c => ⟨c.regs, c.cells, c.poison, c.satchel, c.doms, c.units, c.cores, c.inner, c.timers, c.ports, c.ctx, c.eeprom, c.log, c.counters⟩, rfl⟩
  cases p <;> first | rfl | exact absurd (hp.mem hq) (by decide)

theorem Only.set_rx {ps : List Part} {s₀ s : State} {x} (h : Only ps s₀ s) (hp : Parts [.rx] ps)
    : Only ps s₀ { s with rx := x } := by
  refine h.trans ⟨fun p hq => ?_, fun c => ⟨c.regs, c.cells, c.poison, c.satchel, c.doms, c.units, c.cores, c.inner, c.timers, c.ports, c.ctx, c.eeprom, c.log, c.counters⟩, rfl⟩
  cases p <;> first | rfl | exact absurd (hp.mem hq) (by decide)

theorem Only.set_coh {ps : List Part} {s₀ s : State} {x} (h : Only ps s₀ s) (hp : Parts [.coh] ps)
    : Only ps s₀ { s with coh := x } := by
  refine h.trans ⟨fun p hq => ?_, fun c => ⟨c.regs, c.cells, c.poison, c.satchel, c.doms, c.units, c.cores, c.inner, c.timers, c.ports, c.ctx, c.eeprom, c.log, c.counters⟩, rfl⟩
  cases p <;> first | rfl | exact absurd (hp.mem hq) (by decide)

theorem Only.set_upd {ps : List Part} {s₀ s : State} {x} (h : Only ps s₀ s) (hp : Parts [.upd] ps)
    : Only ps s₀ { s with upd := x } := by
  refine h.trans ⟨fun p hq => ?_, fun c => ⟨c.regs, c.cells, c.poison, c.satchel, c.doms, c.units, c.cores, c.inner, c.timers, c.ports, c.ctx, c.eeprom, c.log, c.counters⟩, rfl⟩
  cases p <;> first | rfl | exact absurd (hp.mem hq) (by decide)

theorem Only.set_boot {ps : List Part} {s₀ s : State} {x} (h : Only ps s₀ s) (hp : Parts [.boot] ps)
    : Only ps s₀ { s with boot := x } := by
  refine h.trans ⟨fun p hq => ?_, fun c => ⟨c.regs, c.cells, c.poison, c.satchel, c.doms, c.units, c.cores, c.inner, c.timers, c.ports, c.ctx, c.eeprom, c.log, c.counters⟩, rfl⟩
  cases p <;> first | rfl | exact absurd (hp.mem hq) (by decide)

theorem Only.set_doms {ps : List Part} {s₀ s : State} {x} (h : Only ps s₀ s) (hp : Parts [.doms] ps)
    (h0 : swf (fun _ => ({} : DomRec)) s.doms = true → swf (fun _ => ({} : DomRec)) x = true) : Only ps s₀ { s with doms := x } := by
  refine h.trans ⟨fun p hq => ?_, fun c => ⟨c.regs, c.cells, c.poison, c.satchel, h0 c.doms, c.units, c.cores, c.inner, c.timers, c.ports, c.ctx, c.eeprom, c.log, c.counters⟩, rfl⟩
  cases p <;> first | rfl | exact absurd (hp.mem hq) (by decide)

theorem Only.set_bkp {ps : List Part} {s₀ s : State} {x} (h : Only ps s₀ s) (hp : Parts [.bkp] ps)
    (h0 : s.bkp.satchel.wf = true → x.satchel.wf = true) : Only ps s₀ { s with bkp := x } := by
  refine h.trans ⟨fun p hq => ?_, fun c => ⟨c.regs, c.cells, c.poison, h0 c.satchel, c.doms, c.units, c.cores, c.inner, c.timers, c.ports, c.ctx, c.eeprom, c.log, c.counters⟩, rfl⟩
  cases p <;> first | rfl | exact absurd (hp.mem hq) (by decide)

theorem Only.set_cores {ps : List Part} {s₀ s : State} {x} (h : Only ps s₀ s) (hp : Parts [.cores] ps)
    (h0 : s.Canonical → swf (fun _ => ({} : CoreState)) x = true ∧ x.all (fun c => c.2.wf) = true) : Only ps s₀ { s with cores := x } := by
  refine h.trans ⟨fun p hq => ?_, fun c => ⟨c.regs, c.cells, c.poison, c.satchel, c.doms, c.units, (h0 c).1, (h0 c).2, c.timers, c.ports, c.ctx, c.eeprom, c.log, c.counters⟩, rfl⟩
  cases p <;> first | rfl | exact absurd (hp.mem hq) (by decide)

theorem Only.set_mem {ps : List Part} {s₀ s : State} {x} (h : Only ps s₀ s) (hp : Parts [.mem] ps)
    (h0 : Memory.wf s.mem.cells = true → Memory.wf x.cells = true) (h1 : swf (fun _ => false) s.mem.poison = true → swf (fun _ => false) x.poison = true) : Only ps s₀ { s with mem := x } := by
  refine h.trans ⟨fun p hq => ?_, fun c => ⟨c.regs, h0 c.cells, h1 c.poison, c.satchel, c.doms, c.units, c.cores, c.inner, c.timers, c.ports, c.ctx, c.eeprom, c.log, c.counters⟩, rfl⟩
  cases p <;> first | rfl | exact absurd (hp.mem hq) (by decide)

theorem Only.set_bus {ps : List Part} {s₀ s : State} {x} (h : Only ps s₀ s) (hp : Parts [.bus] ps)
    : Only ps s₀ { s with bus := x } := by
  refine h.trans ⟨fun p hq => ?_, fun c => ⟨c.regs, c.cells, c.poison, c.satchel, c.doms, c.units, c.cores, c.inner, c.timers, c.ports, c.ctx, c.eeprom, c.log, c.counters⟩, rfl⟩
  cases p <;> first | rfl | exact absurd (hp.mem hq) (by decide)

theorem Only.set_pins {ps : List Part} {s₀ s : State} {x} (h : Only ps s₀ s) (hp : Parts [.pins] ps)
    : Only ps s₀ { s with pins := x } := by
  refine h.trans ⟨fun p hq => ?_, fun c => ⟨c.regs, c.cells, c.poison, c.satchel, c.doms, c.units, c.cores, c.inner, c.timers, c.ports, c.ctx, c.eeprom, c.log, c.counters⟩, rfl⟩
  cases p <;> first | rfl | exact absurd (hp.mem hq) (by decide)

theorem Only.set_phase {ps : List Part} {s₀ s : State} {x} (h : Only ps s₀ s) (hp : Parts [.phase] ps)
    : Only ps s₀ { s with phase := x } := by
  refine h.trans ⟨fun p hq => ?_, fun c => ⟨c.regs, c.cells, c.poison, c.satchel, c.doms, c.units, c.cores, c.inner, c.timers, c.ports, c.ctx, c.eeprom, c.log, c.counters⟩, rfl⟩
  cases p <;> first | rfl | exact absurd (hp.mem hq) (by decide)

theorem Only.set_trace {ps : List Part} {s₀ s : State} {x} (h : Only ps s₀ s) (hp : Parts [.trace] ps)
    (h0 : swf (fun _ => 0) s.trace.counters = true → swf (fun _ => 0) x.counters = true) : Only ps s₀ { s with trace := x } := by
  refine h.trans ⟨fun p hq => ?_, fun c => ⟨c.regs, c.cells, c.poison, c.satchel, c.doms, c.units, c.cores, c.inner, c.timers, c.ports, c.ctx, c.eeprom, c.log, h0 c.counters⟩, rfl⟩
  cases p <;> first | rfl | exact absurd (hp.mem hq) (by decide)

theorem Only.set_ledger {ps : List Part} {s₀ s : State} {x} (h : Only ps s₀ s) (hp : Parts [.ledger] ps)
    : Only ps s₀ { s with ledger := x } := by
  refine h.trans ⟨fun p hq => ?_, fun c => ⟨c.regs, c.cells, c.poison, c.satchel, c.doms, c.units, c.cores, c.inner, c.timers, c.ports, c.ctx, c.eeprom, c.log, c.counters⟩, rfl⟩
  cases p <;> first | rfl | exact absurd (hp.mem hq) (by decide)

theorem Only.set_free {ps : List Part} {s₀ s : State} {x} (h : Only ps s₀ s) (hp : Parts [.free] ps)
    : Only ps s₀ { s with freeCount := x } := by
  refine h.trans ⟨fun p hq => ?_, fun c => ⟨c.regs, c.cells, c.poison, c.satchel, c.doms, c.units, c.cores, c.inner, c.timers, c.ports, c.ctx, c.eeprom, c.log, c.counters⟩, rfl⟩
  cases p <;> first | rfl | exact absurd (hp.mem hq) (by decide)

/-- `s` with another `clk`. -/
def State.with_clk (s : State) (x : Clock) : State := { s with clk := x }

theorem lit_clk (s : State) (x) : ({ s with clk := x } : State) = s.with_clk x := rfl

theorem State.with_clk_only {ps : List Part} {s₀ s : State} {x} (h : Only ps s₀ s) (hp : Parts [.clk] ps)
    : Only ps s₀ (s.with_clk x) := h.set_clk hp

/-- `s` with another `regs`. -/
def State.with_regs (s : State) (x : List (Nat × Word)) : State := { s with regs := x }

theorem lit_regs (s : State) (x) : ({ s with regs := x } : State) = s.with_regs x := rfl

theorem State.with_regs_only {ps : List Part} {s₀ s : State} {x} (h : Only ps s₀ s) (hp : Parts [.regs] ps)
    (h0 : swf resetWord s.regs = true → swf resetWord x = true) : Only ps s₀ (s.with_regs x) := h.set_regs hp h0

/-- `s` with another `units`. -/
def State.with_units (s : State) (x : List (Nat × UnitRec)) : State := { s with units := x }

theorem lit_units (s : State) (x) : ({ s with units := x } : State) = s.with_units x := rfl

theorem State.with_units_only {ps : List Part} {s₀ s : State} {x} (h : Only ps s₀ s) (hp : Parts [.units] ps)
    (h0 : swf (fun _ => ({} : UnitRec)) s.units = true → swf (fun _ => ({} : UnitRec)) x = true) : Only ps s₀ (s.with_units x) := h.set_units hp h0

/-- `s` with another `env`. -/
def State.with_env (s : State) (x : EnvState) : State := { s with env := x }

theorem lit_env (s : State) (x) : ({ s with env := x } : State) = s.with_env x := rfl

theorem State.with_env_only {ps : List Part} {s₀ s : State} {x} (h : Only ps s₀ s) (hp : Parts [.env] ps)
    (h0 : s.env.log.wf = true → x.log.wf = true) : Only ps s₀ (s.with_env x) := h.set_env hp h0

/-- `s` with another `gen`. -/
def State.with_gen (s : State) (x : GenState) : State := { s with gen := x }

theorem lit_gen (s : State) (x) : ({ s with gen := x } : State) = s.with_gen x := rfl

theorem State.with_gen_only {ps : List Part} {s₀ s : State} {x} (h : Only ps s₀ s) (hp : Parts [.gen] ps)
    : Only ps s₀ (s.with_gen x) := h.set_gen hp

/-- `s` with another `ring`. -/
def State.with_ring (s : State) (x : RingState) : State := { s with ring := x }

theorem lit_ring (s : State) (x) : ({ s with ring := x } : State) = s.with_ring x := rfl

theorem State.with_ring_only {ps : List Part} {s₀ s : State} {x} (h : Only ps s₀ s) (hp : Parts [.ring] ps)
    : Only ps s₀ (s.with_ring x) := h.set_ring hp

/-- `s` with another `mail`. -/
def State.with_mail (s : State) (x : MailState) : State := { s with mail := x }

theorem lit_mail (s : State) (x) : ({ s with mail := x } : State) = s.with_mail x := rfl

theorem State.with_mail_only {ps : List Part} {s₀ s : State} {x} (h : Only ps s₀ s) (hp : Parts [.mail] ps)
    : Only ps s₀ (s.with_mail x) := h.set_mail hp

/-- `s` with another `ev`. -/
def State.with_ev (s : State) (x : EventState) : State := { s with ev := x }

theorem lit_ev (s : State) (x) : ({ s with ev := x } : State) = s.with_ev x := rfl

theorem State.with_ev_only {ps : List Part} {s₀ s : State} {x} (h : Only ps s₀ s) (hp : Parts [.ev] ps)
    (h0 : swf (fun _ => ({} : TimerRec)) s.ev.timers = true → swf (fun _ => ({} : TimerRec)) x.timers = true) : Only ps s₀ (s.with_ev x) := h.set_ev hp h0

/-- `s` with another `per`. -/
def State.with_per (s : State) (x : PerState) : State := { s with per := x }

theorem lit_per (s : State) (x) : ({ s with per := x } : State) = s.with_per x := rfl

theorem State.with_per_only {ps : List Part} {s₀ s : State} {x} (h : Only ps s₀ s) (hp : Parts [.per] ps)
    (h0 : swf (fun _ => ({} : PortRec)) s.per.ports = true → swf (fun _ => ({} : PortRec)) x.ports = true) : Only ps s₀ (s.with_per x) := h.set_per hp h0

/-- `s` with another `cip`. -/
def State.with_cip (s : State) (x : CipherState) : State := { s with cip := x }

theorem lit_cip (s : State) (x) : ({ s with cip := x } : State) = s.with_cip x := rfl

theorem State.with_cip_only {ps : List Part} {s₀ s : State} {x} (h : Only ps s₀ s) (hp : Parts [.cip] ps)
    : Only ps s₀ (s.with_cip x) := h.set_cip hp

/-- `s` with another `ctx`. -/
def State.with_ctx (s : State) (x : CtxState) : State := { s with ctx := x }

theorem lit_ctx (s : State) (x) : ({ s with ctx := x } : State) = s.with_ctx x := rfl

theorem State.with_ctx_only {ps : List Part} {s₀ s : State} {x} (h : Only ps s₀ s) (hp : Parts [.ctx] ps)
    (h0 : s.ctx.ctx.wf = true → x.ctx.wf = true) : Only ps s₀ (s.with_ctx x) := h.set_ctx hp h0

/-- `s` with another `tag`. -/
def State.with_tag (s : State) (x : TagState) : State := { s with tag := x }

theorem lit_tag (s : State) (x) : ({ s with tag := x } : State) = s.with_tag x := rfl

theorem State.with_tag_only {ps : List Part} {s₀ s : State} {x} (h : Only ps s₀ s) (hp : Parts [.tag] ps)
    (h0 : swf tagDefault s.tag.eeprom = true → swf tagDefault x.eeprom = true) : Only ps s₀ (s.with_tag x) := h.set_tag hp h0

/-- `s` with another `tmp`. -/
def State.with_tmp (s : State) (x : TempoState) : State := { s with tmp := x }

theorem lit_tmp (s : State) (x) : ({ s with tmp := x } : State) = s.with_tmp x := rfl

theorem State.with_tmp_only {ps : List Part} {s₀ s : State} {x} (h : Only ps s₀ s) (hp : Parts [.tmp] ps)
    : Only ps s₀ (s.with_tmp x) := h.set_tmp hp

/-- `s` with another `tab`. -/
def State.with_tab (s : State) (x : TableState) : State := { s with tab := x }

theorem lit_tab (s : State) (x) : ({ s with tab := x } : State) = s.with_tab x := rfl

theorem State.with_tab_only {ps : List Part} {s₀ s : State} {x} (h : Only ps s₀ s) (hp : Parts [.tab] ps)
    : Only ps s₀ (s.with_tab x) := h.set_tab hp

/-- `s` with another `cap`. -/
def State.with_cap (s : State) (x : CapState) : State := { s with cap := x }

theorem lit_cap (s : State) (x) : ({ s with cap := x } : State) = s.with_cap x := rfl

theorem State.with_cap_only {ps : List Part} {s₀ s : State} {x} (h : Only ps s₀ s) (hp : Parts [.cap] ps)
    : Only ps s₀ (s.with_cap x) := h.set_cap hp

/-- `s` with another `tx`. -/
def State.with_tx (s : State) (x : TxState) : State := { s with tx := x }

theorem lit_tx (s : State) (x) : ({ s with tx := x } : State) = s.with_tx x := rfl

theorem State.with_tx_only {ps : List Part} {s₀ s : State} {x} (h : Only ps s₀ s) (hp : Parts [.tx] ps)
    : Only ps s₀ (s.with_tx x) := h.set_tx hp

/-- `s` with another `ttb`. -/
def State.with_ttb (s : State) (x : TtbState) : State := { s with ttb := x }

theorem lit_ttb (s : State) (x) : ({ s with ttb := x } : State) = s.with_ttb x := rfl

theorem State.with_ttb_only {ps : List Part} {s₀ s : State} {x} (h : Only ps s₀ s) (hp : Parts [.ttb] ps)
    : Only ps s₀ (s.with_ttb x) := h.set_ttb hp

/-- `s` with another `rx`. -/
def State.with_rx (s : State) (x : RxState) : State := { s with rx := x }

theorem lit_rx (s : State) (x) : ({ s with rx := x } : State) = s.with_rx x := rfl

theorem State.with_rx_only {ps : List Part} {s₀ s : State} {x} (h : Only ps s₀ s) (hp : Parts [.rx] ps)
    : Only ps s₀ (s.with_rx x) := h.set_rx hp

/-- `s` with another `coh`. -/
def State.with_coh (s : State) (x : CohState) : State := { s with coh := x }

theorem lit_coh (s : State) (x) : ({ s with coh := x } : State) = s.with_coh x := rfl

theorem State.with_coh_only {ps : List Part} {s₀ s : State} {x} (h : Only ps s₀ s) (hp : Parts [.coh] ps)
    : Only ps s₀ (s.with_coh x) := h.set_coh hp

/-- `s` with another `upd`. -/
def State.with_upd (s : State) (x : UpdState) : State := { s with upd := x }

theorem lit_upd (s : State) (x) : ({ s with upd := x } : State) = s.with_upd x := rfl

theorem State.with_upd_only {ps : List Part} {s₀ s : State} {x} (h : Only ps s₀ s) (hp : Parts [.upd] ps)
    : Only ps s₀ (s.with_upd x) := h.set_upd hp

/-- `s` with another `boot`. -/
def State.with_boot (s : State) (x : BootState) : State := { s with boot := x }

theorem lit_boot (s : State) (x) : ({ s with boot := x } : State) = s.with_boot x := rfl

theorem State.with_boot_only {ps : List Part} {s₀ s : State} {x} (h : Only ps s₀ s) (hp : Parts [.boot] ps)
    : Only ps s₀ (s.with_boot x) := h.set_boot hp

/-- `s` with another `doms`. -/
def State.with_doms (s : State) (x : List (Nat × DomRec)) : State := { s with doms := x }

theorem lit_doms (s : State) (x) : ({ s with doms := x } : State) = s.with_doms x := rfl

theorem State.with_doms_only {ps : List Part} {s₀ s : State} {x} (h : Only ps s₀ s) (hp : Parts [.doms] ps)
    (h0 : swf (fun _ => ({} : DomRec)) s.doms = true → swf (fun _ => ({} : DomRec)) x = true) : Only ps s₀ (s.with_doms x) := h.set_doms hp h0

/-- `s` with another `bkp`. -/
def State.with_bkp (s : State) (x : BackupState) : State := { s with bkp := x }

theorem lit_bkp (s : State) (x) : ({ s with bkp := x } : State) = s.with_bkp x := rfl

theorem State.with_bkp_only {ps : List Part} {s₀ s : State} {x} (h : Only ps s₀ s) (hp : Parts [.bkp] ps)
    (h0 : s.bkp.satchel.wf = true → x.satchel.wf = true) : Only ps s₀ (s.with_bkp x) := h.set_bkp hp h0

/-- `s` with another `cores`. -/
def State.with_cores (s : State) (x : List (Nat × CoreState)) : State := { s with cores := x }

theorem lit_cores (s : State) (x) : ({ s with cores := x } : State) = s.with_cores x := rfl

theorem State.with_cores_only {ps : List Part} {s₀ s : State} {x} (h : Only ps s₀ s) (hp : Parts [.cores] ps)
    (h0 : s.Canonical → swf (fun _ => ({} : CoreState)) x = true ∧ x.all (fun c => c.2.wf) = true) : Only ps s₀ (s.with_cores x) := h.set_cores hp h0

/-- `s` with another `mem`. -/
def State.with_mem (s : State) (x : MemState) : State := { s with mem := x }

theorem lit_mem (s : State) (x) : ({ s with mem := x } : State) = s.with_mem x := rfl

theorem State.with_mem_only {ps : List Part} {s₀ s : State} {x} (h : Only ps s₀ s) (hp : Parts [.mem] ps)
    (h0 : Memory.wf s.mem.cells = true → Memory.wf x.cells = true) (h1 : swf (fun _ => false) s.mem.poison = true → swf (fun _ => false) x.poison = true) : Only ps s₀ (s.with_mem x) := h.set_mem hp h0 h1

/-- `s` with another `bus`. -/
def State.with_bus (s : State) (x : BusReply) : State := { s with bus := x }

theorem lit_bus (s : State) (x) : ({ s with bus := x } : State) = s.with_bus x := rfl

theorem State.with_bus_only {ps : List Part} {s₀ s : State} {x} (h : Only ps s₀ s) (hp : Parts [.bus] ps)
    : Only ps s₀ (s.with_bus x) := h.set_bus hp

/-- `s` with another `pins`. -/
def State.with_pins (s : State) (x : Pins) : State := { s with pins := x }

theorem lit_pins (s : State) (x) : ({ s with pins := x } : State) = s.with_pins x := rfl

theorem State.with_pins_only {ps : List Part} {s₀ s : State} {x} (h : Only ps s₀ s) (hp : Parts [.pins] ps)
    : Only ps s₀ (s.with_pins x) := h.set_pins hp

/-- `s` with another `phase`. -/
def State.with_phase (s : State) (x : Phase) : State := { s with phase := x }

theorem lit_phase (s : State) (x) : ({ s with phase := x } : State) = s.with_phase x := rfl

theorem State.with_phase_only {ps : List Part} {s₀ s : State} {x} (h : Only ps s₀ s) (hp : Parts [.phase] ps)
    : Only ps s₀ (s.with_phase x) := h.set_phase hp

/-- `s` with another `trace`. -/
def State.with_trace (s : State) (x : TraceState) : State := { s with trace := x }

theorem lit_trace (s : State) (x) : ({ s with trace := x } : State) = s.with_trace x := rfl

theorem State.with_trace_only {ps : List Part} {s₀ s : State} {x} (h : Only ps s₀ s) (hp : Parts [.trace] ps)
    (h0 : swf (fun _ => 0) s.trace.counters = true → swf (fun _ => 0) x.counters = true) : Only ps s₀ (s.with_trace x) := h.set_trace hp h0

/-- `s` with another `ledger`. -/
def State.with_ledger (s : State) (x : LedgerState) : State := { s with ledger := x }

theorem lit_ledger (s : State) (x) : ({ s with ledger := x } : State) = s.with_ledger x := rfl

theorem State.with_ledger_only {ps : List Part} {s₀ s : State} {x} (h : Only ps s₀ s) (hp : Parts [.ledger] ps)
    : Only ps s₀ (s.with_ledger x) := h.set_ledger hp

/-- `s` with another `freeCount`. -/
def State.with_free (s : State) (x : Nat) : State := { s with freeCount := x }

theorem lit_free (s : State) (x) : ({ s with freeCount := x } : State) = s.with_free x := rfl

theorem State.with_free_only {ps : List Part} {s₀ s : State} {x} (h : Only ps s₀ s) (hp : Parts [.free] ps)
    : Only ps s₀ (s.with_free x) := h.set_free hp

theorem lit_phase_boot (s : State) (x0) (x1) : ({ s with phase := x0, boot := x1 } : State) = (s.with_phase x0).with_boot x1 := rfl

theorem lit_ev_per (s : State) (x0) (x1) : ({ s with ev := x0, per := x1 } : State) = (s.with_ev x0).with_per x1 := rfl

theorem lit_boot_pins (s : State) (x0) (x1) : ({ s with boot := x0, pins := x1 } : State) = (s.with_boot x0).with_pins x1 := rfl

theorem lit_phase_pins (s : State) (x0) (x1) : ({ s with phase := x0, pins := x1 } : State) = (s.with_phase x0).with_pins x1 := rfl

theorem lit_gen_tab (s : State) (x0) (x1) : ({ s with gen := x0, tab := x1 } : State) = (s.with_gen x0).with_tab x1 := rfl

theorem lit_ctx_gen (s : State) (x0) (x1) : ({ s with ctx := x0, gen := x1 } : State) = (s.with_ctx x0).with_gen x1 := rfl

theorem lit_ctx_gen_tab_tx (s : State) (x0) (x1) (x2) (x3) : ({ s with ctx := x0, gen := x1, tab := x2, tx := x3 } : State) = (((s.with_ctx x0).with_gen x1).with_tab x2).with_tx x3 := rfl

theorem lit_cap_tx (s : State) (x0) (x1) : ({ s with cap := x0, tx := x1 } : State) = (s.with_cap x0).with_tx x1 := rfl

theorem lit_tx_tab (s : State) (x0) (x1) : ({ s with tx := x0, tab := x1 } : State) = (s.with_tx x0).with_tab x1 := rfl

theorem lit_tx_rx (s : State) (x0) (x1) : ({ s with tx := x0, rx := x1 } : State) = (s.with_tx x0).with_rx x1 := rfl

/-! ### Side conditions -/

theorem Only.fst {ps : List Part} {s₀ : State} {α : Type} {x : State × α} {t : State} {a : α} (e : x = (t, a))
    (h : Only ps s₀ x.1) : Only ps s₀ t := by
  subst e; exact h

theorem Only.snd {ps : List Part} {s₀ : State} {α : Type} {x : α × State} {t : State} {a : α} (e : x = (a, t))
    (h : Only ps s₀ x.2) : Only ps s₀ t := by
  subst e; exact h

theorem Store.wf_setByte {m : Store} (a : Nat) (b : Byte) (h : m.wf = true) : (m.setByte a b).wf = true :=
  swf_sput _ _ _ _ h

theorem Store.wf_setBytes {m : Store} (a : Nat) (bs : List Byte) (h : m.wf = true) : (m.setBytes a bs).wf = true := by
  induction bs generalizing m a with
  | nil => exact h
  | cons b bs ih => exact ih _ (Store.wf_setByte a b h)

theorem Store.wf_setNum {m : Store} (a n v : Nat) (h : m.wf = true) : (m.setNum a n v).wf = true := by
  induction n generalizing m a v with
  | zero => exact h
  | succ n ih => exact ih _ _ (Store.wf_setByte a _ h)

/-! ### Setters of Machine/Ops.lean -/

theorem State.setWord_only {ps : List Part} {s₀ s : State} {a : Nat} {v : Word} (h : Only ps s₀ s) (hp : Parts [.regs] ps) :
    Only ps s₀ (s.setWord a v) := h.set_regs hp (swf_sput _ _ _ _)

theorem State.wr_only {ps : List Part} {s₀ s : State} {f : Fld} {v : Nat} (h : Only ps s₀ s) (hp : Parts [.regs] ps) :
    Only ps s₀ (s.wr f v) := State.setWord_only h hp

theorem State.put_only {ps : List Part} {s₀ s : State} {f : Fld} {b : Bool} (h : Only ps s₀ s) (hp : Parts [.regs] ps) :
    Only ps s₀ (s.put f b) := State.wr_only h hp

theorem State.bump_only {ps : List Part} {s₀ s : State} {f : Fld} {n : Nat} (h : Only ps s₀ s) (hp : Parts [.regs] ps) :
    Only ps s₀ (s.bump f n) := State.wr_only h hp

theorem State.dropRegs_only {ps : List Part} {s₀ s : State} {p : Nat → Bool} (h : Only ps s₀ s) (hp : Parts [.regs] ps) :
    Only ps s₀ (s.dropRegs p) := h.set_regs hp (swf_sdrop _ _ _)

theorem State.setDom_only {ps : List Part} {s₀ s : State} {n : Nat} {d : DomRec} (h : Only ps s₀ s) (hp : Parts [.doms] ps) :
    Only ps s₀ (s.setDom n d) := h.set_doms hp (swf_sput _ _ _ _)

theorem State.setUnit_only {ps : List Part} {s₀ s : State} {n : Nat} {f : UnitRec → UnitRec} (h : Only ps s₀ s)
    (hp : Parts [.units] ps) : Only ps s₀ (s.setUnit n f) := h.set_units hp (swf_sput _ _ _ _)

theorem State.setTimer_only {ps : List Part} {s₀ s : State} {n : Nat} {f : TimerRec → TimerRec} (h : Only ps s₀ s)
    (hp : Parts [.ev] ps) : Only ps s₀ (s.setTimer n f) := h.set_ev hp (swf_sput _ _ _ _)

theorem State.setPort_only {ps : List Part} {s₀ s : State} {n : Nat} {f : PortRec → PortRec} (h : Only ps s₀ s)
    (hp : Parts [.per] ps) : Only ps s₀ (s.setPort n f) := h.set_per hp (swf_sput _ _ _ _)

theorem State.count_only {ps : List Part} {s₀ s : State} {n k : Nat} (h : Only ps s₀ s) (hp : Parts [.trace] ps) :
    Only ps s₀ (s.count n k) := by
  unfold State.count
  exact Only.ite (h.set_trace hp (swf_sput _ _ _ _)) h

theorem State.setByte_only {ps : List Part} {s₀ s : State} {a : Nat} {b : Byte} (h : Only ps s₀ s)
    (hp : Parts [.bkp, .mem] ps) : Only ps s₀ (s.setByte a b) := by
  unfold State.setByte
  exact Only.ite h (Only.ite (h.set_bkp (Parts.trans (by decide) hp) (Store.wf_setByte _ _))
    (h.set_mem (Parts.trans (by decide) hp) (swf_sput _ _ _ _) id))

theorem State.putBytes_only {ps : List Part} {s₀ s : State} {a : Nat} {bs : List Byte} (h : Only ps s₀ s)
    (hp : Parts [.bkp, .mem] ps) : Only ps s₀ (s.putBytes a bs) := by
  induction bs generalizing s a with
  | nil => exact h
  | cons b bs ih => exact ih (State.setByte_only h hp)

theorem State.forget_only {ps : List Part} {s₀ s : State} {a n : Nat} (h : Only ps s₀ s) (hp : Parts [.mem] ps) :
    Only ps s₀ (s.forget a n) := h.set_mem hp (fun w => swf_sdrop memDefault (fun k => decide (a ≤ k ∧ k < a + n)) _ w)
    (fun w => swf_sdrop _ (fun k => decide (a ≤ k ∧ k < a + n)) _ w)

theorem State.setPoison_only {ps : List Part} {s₀ s : State} {a : Nat} {b : Bool} (h : Only ps s₀ s) (hp : Parts [.mem] ps) :
    Only ps s₀ (s.setPoison a b) := h.set_mem hp id (swf_sput _ _ _ _)

theorem State.healRange_only {ps : List Part} {s₀ s : State} {a n : Nat} (h : Only ps s₀ s) (hp : Parts [.mem] ps) :
    Only ps s₀ (s.healRange a n) := h.set_mem hp id
    (fun w => swf_sdrop _ (fun k => decide (a ≤ k ∧ k + (if 0x80000000 ≤ k then 8 else 4) ≤ a + n)) _ w)

theorem State.free_only {ps : List Part} {s₀ s : State} (h : Only ps s₀ s) (hp : Parts [.free] ps) :
    Only ps s₀ s.free.2 := h.set_free hp

theorem State.setCtxNum_only {ps : List Part} {s₀ s : State} {k off n v : Nat} (h : Only ps s₀ s) (hp : Parts [.ctx] ps) :
    Only ps s₀ (s.setCtxNum k off n v) := h.set_ctx hp (Store.wf_setNum _ _ _)

theorem State.setCtxImage_only {ps : List Part} {s₀ s : State} {k : Nat} {bs : List Byte} (h : Only ps s₀ s)
    (hp : Parts [.ctx] ps) : Only ps s₀ (s.setCtxImage k bs) := h.set_ctx hp (Store.wf_setBytes _ _)

theorem State.setMem_only {ps : List Part} {s₀ s : State} {f : MemState → MemState} (h : Only ps s₀ s)
    (hp : Parts [.mem] ps) (hf : ∀ m, (f m).cells = m.cells ∧ (f m).poison = m.poison) : Only ps s₀ (s.setMem f) :=
  h.set_mem hp (fun w => by rw [(hf _).1]; exact w) (fun w => by rw [(hf _).2]; exact w)

theorem State.setTrace_only {ps : List Part} {s₀ s : State} {f : TraceState → TraceState} (h : Only ps s₀ s)
    (hp : Parts [.trace] ps) (hf : ∀ m, (f m).counters = m.counters ∨ (f m).counters = []) : Only ps s₀ (s.setTrace f) :=
  h.set_trace hp (fun w => by
    rcases hf s.trace with e | e
    · rw [e]; exact w
    · rw [e]; rfl)

theorem traceDrain_counters (fuel n : Nat) (t : TraceState) : (traceDrain fuel n t).counters = t.counters := by
  induction fuel generalizing n t with
  | zero => rfl
  | succ fuel ih =>
    unfold traceDrain
    split
    · rfl
    · dsimp only
      split
      · rfl
      · rw [ih]

/-! ### Cores -/

theorem CoreState.wf_default : (({} : CoreState)).wf = true := rfl

theorem all_sput {p : Nat × CoreState → Bool} (l : List (Nat × CoreState)) (k : Nat) (c : CoreState)
    (h : l.all p = true) (hc : p (k, c) = true) : (sput (fun _ => ({} : CoreState)) l k c).all p = true := by
  induction l with
  | nil => by_cases e : c = {} <;> simp [sput, e, hc]
  | cons x l ih =>
    have hx : p x = true ∧ l.all p = true := by simpa using h
    unfold sput
    split
    · split
      · exact hx.2
      · rw [List.all_cons, hx.2, hc]; rfl
    · split
      · split
        · exact h
        · simp only [List.all_cons, hc, Bool.true_and]; simp only [List.all_cons] at h; exact h
      · simp only [List.all_cons, ih hx.2, Bool.and_true]; exact hx.1

theorem State.core_wf {s : State} (h : s.Canonical) (p : Nat) : (s.core p).wf = true := by
  have hi := h.inner
  unfold State.core
  generalize s.cores = l at hi
  induction l with
  | nil => rfl
  | cons x l ih =>
    have hx : x.2.wf = true ∧ l.all (fun c => c.2.wf) = true := by simpa using hi
    unfold sget
    split
    · exact hx.1
    · split
      · rfl
      · exact ih hx.2

theorem State.setCore_only {ps : List Part} {s₀ s : State} {p : Nat} {c : CoreState} (h : Only ps s₀ s)
    (hp : Parts [.cores] ps) (hc : s.Canonical → c.wf = true) : Only ps s₀ (s.setCore p c) :=
  h.set_cores hp fun w => ⟨swf_sput _ _ _ _ w.cores, all_sput _ _ _ w.inner (hc w)⟩

theorem State.onCore_only {ps : List Part} {s₀ s : State} {p : Nat} {f : CoreState → CoreState} (h : Only ps s₀ s)
    (hp : Parts [.cores] ps) (hf : ∀ k, k.wf = true → (f k).wf = true) : Only ps s₀ (s.onCore p f) :=
  State.setCore_only h hp fun w => hf _ (State.core_wf w p)

theorem CoreState.setReg_wf {k : CoreState} {r : RegNum} {v : Word} (h : k.wf = true) : (k.setReg r v).wf = true := by
  unfold CoreState.setReg
  split
  · exact h
  · simp only [CoreState.wf, Bool.and_eq_true] at h ⊢
    exact ⟨⟨⟨⟨swf_sput _ _ _ _ h.1.1.1.1, h.1.1.1.2⟩, h.1.1.2⟩, h.1.2⟩, h.2⟩

theorem CoreState.setPred_wf {k : CoreState} {q : PredNum} {b : Bool} (h : k.wf = true) : (k.setPred q b).wf = true := by
  unfold CoreState.setPred
  split <;> exact h

theorem CoreState.writeSpecialReg_wf {k : CoreState} {i : Nat} {v : Word} (h : k.wf = true) :
    (k.writeSpecialReg i v).wf = true := by
  have hc := h
  simp only [CoreState.wf, Bool.and_eq_true] at hc
  unfold CoreState.writeSpecialReg
  dsimp only
  split
  all_goals first
    | exact h
    | split
      · split
        · simp only [CoreState.wf, Bool.and_eq_true]; exact ⟨⟨⟨⟨hc.1.1.1.1, swf_sput _ _ _ _ hc.1.1.1.2⟩, hc.1.1.2⟩, hc.1.2⟩, hc.2⟩
        · simp only [CoreState.wf, Bool.and_eq_true]; exact ⟨⟨⟨⟨hc.1.1.1.1, hc.1.1.1.2⟩, swf_sput _ _ _ _ hc.1.1.2⟩, hc.1.2⟩, hc.2⟩
      · split
        · simp only [CoreState.wf, Bool.and_eq_true]; exact ⟨⟨⟨⟨hc.1.1.1.1, hc.1.1.1.2⟩, hc.1.1.2⟩, swf_sput _ _ _ _ hc.1.2⟩, hc.2⟩
        · simp only [CoreState.wf, Bool.and_eq_true]; exact ⟨⟨⟨⟨hc.1.1.1.1, hc.1.1.1.2⟩, hc.1.1.2⟩, hc.1.2⟩, swf_sput _ _ _ _ hc.2⟩

end Sys2Proof.Machine
end

