-- ==== Sys2Proof/Laws/OnlyOps.lean ====
section
/-!
SUPPORT. What each operation of Machine/Ops.lean leaves alone.
-/

namespace Sys2Proof.Machine

theorem State.progress_only {ps : List Part} {s₀ s : State} {h_ : Nat} (h : Only ps s₀ s)
    (hp : Parts [.units] ps) : Only ps s₀ (State.progress s h_) := by
  unfold State.progress
  repeat' with_reducible first
    | exact h | exact Parts.trans (by decide) hp | intro _ | assumption | apply Only.ite | apply State.setUnit_only
    | split | dsimp only

theorem State.setCoh_only {ps : List Part} {s₀ s : State} {f : CohState → CohState} (h : Only ps s₀ s)
    (hp : Parts [.coh] ps) : Only ps s₀ (State.setCoh s f) := by
  unfold State.setCoh
  repeat' with_reducible first
    | exact h | exact Parts.trans (by decide) hp | intro _ | assumption | rw [lit_coh]
    | refine State.with_coh_only ?_ ?_ | split | dsimp only

theorem State.issue_only {ps : List Part} {s₀ s : State} {dst type : Nat} {fields : List Nat} {bytes : optParam (List Byte) List.nil} (h : Only ps s₀ s)
    (hp : Parts [.units, .coh] ps) : Only ps s₀ (State.issue s dst type fields bytes) := by
  unfold State.issue
  repeat' with_reducible first
    | exact h | exact Parts.trans (by decide) hp | intro _ | assumption | apply Only.ite | apply State.progress_only
    | apply State.setCoh_only | split | dsimp only

theorem State.updWork_only {ps : List Part} {s₀ s : State} {ring idx : Nat} {f : Work → Work} (h : Only ps s₀ s)
    (hp : Parts [.ring] ps) : Only ps s₀ (State.updWork s ring idx f) := by
  unfold State.updWork
  repeat' with_reducible first
    | exact h | exact Parts.trans (by decide) hp | intro _ | assumption | rw [lit_ring] | apply Only.ite
    | refine State.with_ring_only ?_ ?_ | split | dsimp only

theorem State.traceGap_only {ps : List Part} {s₀ s : State} {src : Nat} (h : Only ps s₀ s)
    (hp : Parts [.regs, .trace] ps) : Only ps s₀ (State.traceGap s src) := by
  unfold State.traceGap
  repeat' with_reducible first
    | exact h | exact Parts.trans (by decide) hp | intro _ | assumption | rw [lit_trace] | apply Only.ite
    | apply State.wr_only | refine State.with_trace_only ?_ ?_ (fun _ => rfl) | refine State.with_trace_only ?_ ?_ id
    | refine Only.fst (by assumption) ?_ | refine Only.snd (by assumption) ?_ | split | dsimp only

theorem State.tracePacket_only {ps : List Part} {s₀ s : State} {src kind : Nat} {payload : List Byte} (h : Only ps s₀ s)
    (hp : Parts [.regs, .trace] ps) : Only ps s₀ (State.tracePacket s src kind payload) := by
  unfold State.tracePacket
  repeat' with_reducible first
    | exact h | exact Parts.trans (by decide) hp | intro _ | assumption | rw [lit_trace] | apply Only.ite
    | apply State.traceGap_only | apply State.bump_only | refine State.with_trace_only ?_ ?_ (fun _ => rfl)
    | refine State.with_trace_only ?_ ?_ id | refine Only.fst (by assumption) ?_ | refine Only.snd (by assumption) ?_
    | split | dsimp only

theorem State.countEvent_only {ps : List Part} {s₀ s : State} {src : Nat} (h : Only ps s₀ s)
    (hp : Parts [.trace] ps) : Only ps s₀ (State.countEvent s src) := by
  unfold State.countEvent
  repeat' with_reducible first
    | exact h | exact Parts.trans (by decide) hp | intro _ | assumption | apply Only.ite
    | refine Only.foldl (fun _ _ _ => ?_) ?_ | refine Only.foldl_fst (fun _ _ _ => ?_) ?_ | apply State.count_only
    | split | dsimp only

theorem State.emitFrom_only {ps : List Part} {s₀ s : State} {e : Event} (h : Only ps s₀ s)
    (hp : Parts [.regs, .ev, .trace] ps) : Only ps s₀ (State.emitFrom s e) := by
  unfold State.emitFrom
  repeat' with_reducible first
    | exact h | exact Parts.trans (by decide) hp | intro _ | assumption | rw [lit_ev] | apply Only.ite
    | apply State.bump_only | apply State.countEvent_only | refine State.with_ev_only ?_ ?_ (fun _ => rfl)
    | refine State.with_ev_only ?_ ?_ id | split | dsimp only

theorem State.emit_only {ps : List Part} {s₀ s : State} {src depth : Nat} (h : Only ps s₀ s)
    (hp : Parts [.regs, .ev, .trace] ps) : Only ps s₀ (State.emit s src depth) := by
  unfold State.emit
  repeat' with_reducible first
    | exact h | exact Parts.trans (by decide) hp | intro _ | assumption | apply State.emitFrom_only | split
    | dsimp only

theorem State.deliverNotice_only {ps : List Part} {s₀ s : State} {dst src stamp tag ptr : Nat} {prot : Bool} (h : Only ps s₀ s)
    (hp : Parts [.regs, .units, .mail, .ev, .trace] ps) : Only ps s₀ (State.deliverNotice s dst src stamp tag ptr prot).1 := by
  unfold State.deliverNotice
  repeat' with_reducible first
    | exact h | exact Parts.trans (by decide) hp | intro _ | assumption | rw [lit_mail] | apply Only.ite
    | apply State.bump_only | apply State.emit_only | apply State.progress_only | apply State.wr_only
    | refine State.with_mail_only ?_ ?_ | refine Only.fst (by assumption) ?_ | refine Only.snd (by assumption) ?_
    | split | dsimp only

theorem State.envPut_only {ps : List Part} {s₀ s : State} {rec16 : List Byte} (h : Only ps s₀ s)
    (hp : Parts [.regs, .env] ps) : Only ps s₀ (s.envPut rec16) := by
  have h1 : ∀ x : EnvState, (s.env.log.wf = true → x.log.wf = true) → Only ps s₀ { s with env := x } :=
    fun x hx => h.set_env (Parts.trans (by decide) hp) hx
  have h2 := h1 { s.env with log := s.env.log.setBytes (16 * s.rd R.DEV_ENVLOG_NEXT) rec16, seq := (s.env.seq + 1) % 256, unread := s.env.unread ||| 2 ^ s.rd R.DEV_ENVLOG_NEXT }
    (fun w => by show Store.wf (s.env.log.setBytes (16 * s.rd R.DEV_ENVLOG_NEXT) rec16) = true; exact Store.wf_setBytes _ _ w)
  exact State.wr_only (Only.ite (State.bump_only h2 (Parts.trans (by decide) hp)) h2) (Parts.trans (by decide) hp)

theorem State.envWrite_only {ps : List Part} {s₀ s : State} {cause cond unit : Nat} {restore : Bool} (h : Only ps s₀ s)
    (hp : Parts [.regs, .units, .env, .mail, .ev, .trace] ps) : Only ps s₀ (State.envWrite s cause cond unit restore) := by
  unfold State.envWrite
  repeat' with_reducible first
    | exact h | exact Parts.trans (by decide) hp | intro _ | assumption | apply Only.ite
    | apply State.tracePacket_only | apply State.deliverNotice_only | apply State.envPut_only | apply State.put_only
    | refine Only.fst (by assumption) ?_ | refine Only.snd (by assumption) ?_ | split | dsimp only

theorem State.envBreak_only {ps : List Part} {s₀ s : State} {cause cond unit : Nat} (h : Only ps s₀ s)
    (hp : Parts [.regs, .units, .env, .mail, .ev, .trace] ps) : Only ps s₀ (State.envBreak s cause cond unit) := by
  unfold State.envBreak
  repeat' with_reducible first
    | exact h | exact Parts.trans (by decide) hp | intro _ | assumption | rw [lit_env] | apply Only.ite
    | apply State.envWrite_only | refine State.with_env_only ?_ ?_ id
    | refine State.with_env_only ?_ ?_ (Store.wf_setBytes _ _) | refine Only.fst (by assumption) ?_
    | refine Only.snd (by assumption) ?_ | split | dsimp only

theorem State.envRestore_only {ps : List Part} {s₀ s : State} {cause cond unit : Nat} (h : Only ps s₀ s)
    (hp : Parts [.regs, .units, .env, .mail, .ev, .trace] ps) : Only ps s₀ (State.envRestore s cause cond unit) := by
  unfold State.envRestore
  repeat' with_reducible first
    | exact h | exact Parts.trans (by decide) hp | intro _ | assumption | apply Only.ite | apply State.envWrite_only
    | apply State.put_only | split | dsimp only

theorem State.decideGen_only {ps : List Part} {s₀ s : State} {w : Work} {status result gen : Nat} (h : Only ps s₀ s)
    (hp : Parts [.ring] ps) : Only ps s₀ (State.decideGen s w status result gen) := by
  unfold State.decideGen
  repeat' with_reducible first
    | exact h | exact Parts.trans (by decide) hp | intro _ | assumption | rw [lit_ring]
    | refine State.with_ring_only ?_ ?_ | split | dsimp only

theorem State.decide__only {ps : List Part} {s₀ s : State} {w : Work} {status result : Nat} (h : Only ps s₀ s)
    (hp : Parts [.ring] ps) : Only ps s₀ (State.decide_ s w status result) := by
  unfold State.decide_
  repeat' with_reducible first
    | exact h | exact Parts.trans (by decide) hp | intro _ | assumption | apply State.decideGen_only | split
    | dsimp only

theorem State.setBytes_only {ps : List Part} {s₀ s : State} {a : Nat} {bs : List Byte} (h : Only ps s₀ s)
    (hp : Parts [.units, .coh, .bkp, .mem] ps) : Only ps s₀ (State.setBytes s a bs) := by
  unfold State.setBytes
  repeat' with_reducible first
    | exact h | exact Parts.trans (by decide) hp | intro _ | assumption | apply State.issue_only
    | apply State.putBytes_only | split | dsimp only

theorem State.postRecord_only {ps : List Part} {s₀ s : State} {ring kind : Nat} {rec : List Byte} {lost : Fld} (h : Only ps s₀ s)
    (hp : Parts [.regs, .units, .ring, .coh, .bkp, .mem] ps) : Only ps s₀ (State.postRecord s ring kind rec lost) := by
  unfold State.postRecord
  repeat' with_reducible first
    | exact h | exact Parts.trans (by decide) hp | intro _ | assumption | apply State.decide__only
    | apply State.bump_only | apply State.setBytes_only | split | dsimp only

theorem State.tempoRecord_only {ps : List Part} {s₀ s : State} {kind flags a b : Nat} {c : Int} {d : Nat} (h : Only ps s₀ s)
    (hp : Parts [.regs, .units, .ring, .coh, .bkp, .mem] ps) : Only ps s₀ (State.tempoRecord s kind flags a b c d) := by
  unfold State.tempoRecord
  repeat' with_reducible first
    | exact h | exact Parts.trans (by decide) hp | intro _ | assumption | apply State.postRecord_only | split
    | dsimp only

theorem State.setNum_only {ps : List Part} {s₀ s : State} {a n v : Nat} (h : Only ps s₀ s)
    (hp : Parts [.units, .coh, .bkp, .mem] ps) : Only ps s₀ (State.setNum s a n v) := by
  unfold State.setNum
  repeat' with_reducible first
    | exact h | exact Parts.trans (by decide) hp | intro _ | assumption | apply State.setBytes_only | split
    | dsimp only

theorem State.wakeSeen_only {ps : List Part} {s₀ s : State} {src index : Nat} (h : Only ps s₀ s)
    (hp : Parts [.regs, .bkp] ps) : Only ps s₀ (State.wakeSeen s src index) := by
  unfold State.wakeSeen
  repeat' with_reducible first
    | exact h | exact Parts.trans (by decide) hp | intro _ | assumption | rw [lit_bkp] | apply Only.ite
    | apply State.wr_only | refine State.with_bkp_only ?_ ?_ id | refine Only.fst (by assumption) ?_
    | refine Only.snd (by assumption) ?_ | split | dsimp only

theorem State.noteLate_only {ps : List Part} {s₀ s : State} {who : Who} {unit : Nat} (h : Only ps s₀ s)
    (hp : Parts [.regs, .units, .env, .mail, .ev, .trace] ps) : Only ps s₀ (State.noteLate s who unit) := by
  unfold State.noteLate
  repeat' with_reducible first
    | exact h | exact Parts.trans (by decide) hp | intro _ | assumption | apply Only.ite | apply State.envBreak_only
    | split | dsimp only

theorem State.denied_only {ps : List Part} {s₀ s : State} {who : Who} (h : Only ps s₀ s)
    (hp : Parts [.regs] ps) : Only ps s₀ (State.denied s who) := by
  unfold State.denied
  repeat' with_reducible first
    | exact h | exact Parts.trans (by decide) hp | intro _ | assumption | apply State.wr_only | apply State.bump_only
    | split | dsimp only

theorem State.guarded_only {ps : List Part} {s₀ s : State} {who : Who} {ok : Bool} {unit : Nat} {f : State → State} (h : Only ps s₀ s)
    (hp : Parts [.regs, .units, .env, .mail, .ev, .trace] ps) (hf : ∀ t, Only ps s₀ t → Only ps s₀ (f t)) : Only ps s₀ (State.guarded s who ok unit f) := by
  unfold State.guarded
  repeat' with_reducible first
    | exact h | exact Parts.trans (by decide) hp | intro _ | assumption | apply Only.ite | apply hf
    | apply State.noteLate_only | apply State.denied_only | split | dsimp only

theorem State.pageWrite_only {ps : List Part} {s₀ s : State} {who : Who} {h_ : Nat} {f : State → State} (h : Only ps s₀ s)
    (hp : Parts [.regs, .units, .env, .mail, .ev, .trace] ps) (hf : ∀ t, Only ps s₀ t → Only ps s₀ (f t)) : Only ps s₀ (State.pageWrite s who h_ f) := by
  unfold State.pageWrite
  repeat' with_reducible first
    | exact h | exact Parts.trans (by decide) hp | intro _ | assumption | apply Only.ite | apply hf
    | apply State.guarded_only | split | dsimp only

theorem State.writeFields_only {ps : List Part} {s₀ s : State} {a v mask : Nat} (h : Only ps s₀ s)
    (hp : Parts [.regs] ps) : Only ps s₀ (State.writeFields s a v mask) := by
  unfold State.writeFields
  repeat' with_reducible first
    | exact h | exact Parts.trans (by decide) hp | intro _ | assumption | refine Only.foldl (fun _ _ _ => ?_) ?_
    | refine Only.foldl_fst (fun _ _ _ => ?_) ?_ | apply State.wr_only | split | dsimp only

end Sys2Proof.Machine
end

