-- ==== Sys2Proof/Laws/OnlyClock.lean ====
section
/-!
SUPPORT. What each operation of Machine/Clock.lean leaves alone.
-/

namespace Sys2Proof.Machine

theorem State.timerExt_only {ps : List Part} {s₀ s : State} {n : Nat} (h : Only ps s₀ s)
    (hp : Parts [.ev] ps) : Only ps s₀ (State.timerExt s n) := by
  unfold State.timerExt
  repeat' with_reducible first
    | exact h | exact Parts.trans (by decide) hp | intro _ | assumption | apply State.setTimer_only | split
    | dsimp only

theorem State.timerRun_only {ps : List Part} {s₀ s : State} {per edges n : Nat} (h : Only ps s₀ s)
    (hp : Parts [.regs, .ev] ps) : Only ps s₀ (State.timerRun s per edges n) := by
  unfold State.timerRun
  repeat' with_reducible first
    | exact h | exact Parts.trans (by decide) hp | intro _ | assumption | apply Only.ite | apply State.setTimer_only
    | apply State.timerExt_only | apply State.put_only | split | dsimp only

theorem State.timersRun_only {ps : List Part} {s₀ s : State} {per edges : Nat} (h : Only ps s₀ s)
    (hp : Parts [.regs, .ev] ps) : Only ps s₀ (State.timersRun s per edges) := by
  unfold State.timersRun
  repeat' with_reducible first
    | exact h | exact Parts.trans (by decide) hp | intro _ | assumption | apply Only.ite
    | refine Only.foldl (fun _ _ _ => ?_) ?_ | refine Only.foldl_fst (fun _ _ _ => ?_) ?_ | apply State.timerRun_only
    | split | dsimp only

theorem State.advance_only {ps : List Part} {s₀ s : State} {t : Elapsed} (h : Only ps s₀ s)
    (hp : Parts [.clk, .regs, .ev, .tx, .trace] ps) : Only ps s₀ (s.advance t) := by
  unfold State.advance
  have step : ∀ u, Only ps s₀ u → Only ps s₀ ({ u with clk := { edges := u.clk.edges + t.edges, ns := u.clk.ns + t.ns } } : State) :=
    fun u hu => hu.set_clk (Parts.trans (by decide) hp)
  have last : ∀ u, Only ps s₀ u → Only ps s₀ (if u.flag R.INS_CTL_PORTEN then
      { u with trace := traceDrain (u.trace.fifo.length + 1) (t.ns / 10) u.trace } else u) := fun u hu =>
    Only.ite (hu.set_trace (Parts.trans (by decide) hp) (fun w => by rw [traceDrain_counters]; exact w)) hu
  have h1 := State.timersRun_only (per := (s.clk.ns + t.ns) * 48 / 1000 - s.perNow) (edges := t.edges) h (Parts.trans (by decide) hp)
  exact last _ (step _ (Only.ite (h1.set_tx (Parts.trans (by decide) hp)) h1))

end Sys2Proof.Machine
end

