-- ==== Sys2Proof/Laws/OnlyRepair.lean ====
section
/-!
SUPPORT. What each operation of Machine/Repair.lean leaves alone.
-/

namespace Sys2Proof.Machine

theorem State.ledgerPost_only {ps : List Part} {s₀ s : State} {kind type logical old new cause : Nat} (h : Only ps s₀ s)
    (hp : Parts [.regs, .trace, .ledger] ps) : Only ps s₀ (State.ledgerPost s kind type logical old new cause) := by
  unfold State.ledgerPost
  repeat' with_reducible first
    | exact h | exact Parts.trans (by decide) hp | intro _ | assumption | rw [lit_ledger] | apply Only.ite
    | apply State.bump_only | apply State.tracePacket_only | refine State.with_ledger_only ?_ ?_ | split | dsimp only

theorem State.retire_only {ps : List Part} {s₀ s : State} {a : Arr} {p code : Nat} (h : Only ps s₀ s)
    (hp : Parts [.regs, .units, .env, .mail, .ev, .trace, .ledger] ps) : Only ps s₀ (State.retire s a p code) := by
  unfold State.retire
  repeat' with_reducible first
    | exact h | exact Parts.trans (by decide) hp | intro _ | assumption | apply State.wr_only
    | apply State.envBreak_only | apply State.envRestore_only | apply State.setUnit_only | apply State.ledgerPost_only
    | apply State.put_only | split | dsimp only

theorem State.retireForLapses_only {ps : List Part} {s₀ s : State} {a : Arr} {p : Nat} (h : Only ps s₀ s)
    (hp : Parts [.regs, .units, .env, .mail, .ev, .trace, .ledger] ps) : Only ps s₀ (State.retireForLapses s a p) := by
  unfold State.retireForLapses
  repeat' with_reducible first
    | exact h | exact Parts.trans (by decide) hp | intro _ | assumption | apply Only.ite | apply State.wr_only
    | apply State.retire_only | split | dsimp only

end Sys2Proof.Machine
end

