-- ==== Sys2Proof/Laws/OnlyRings.lean ====
section
/-!
SUPPORT. What each operation of Machine/Rings.lean leaves alone.
-/

namespace Sys2Proof.Machine

theorem State.dropCommit_only {ps : List Part} {s₀ s : State} {idx : Nat} (h : Only ps s₀ s)
    (hp : Parts [.gen] ps) : Only ps s₀ (State.dropCommit s idx) := by
  unfold State.dropCommit
  repeat' with_reducible first
    | exact h | exact Parts.trans (by decide) hp | intro _ | assumption | rw [lit_gen] | apply Only.ite
    | refine State.with_gen_only ?_ ?_ | split | dsimp only

theorem State.dropUpdate_only {ps : List Part} {s₀ s : State} {idx : Nat} (h : Only ps s₀ s)
    (hp : Parts [.upd] ps) : Only ps s₀ (State.dropUpdate s idx) := by
  unfold State.dropUpdate
  repeat' with_reducible first
    | exact h | exact Parts.trans (by decide) hp | intro _ | assumption | rw [lit_upd]
    | refine State.with_upd_only ?_ ?_ | split | dsimp only

theorem State.stopWork_only {ps : List Part} {s₀ s : State} {w : Work} (h : Only ps s₀ s)
    (hp : Parts [.gen, .ring, .tx, .upd] ps) : Only ps s₀ (State.stopWork s w) := by
  unfold State.stopWork
  repeat' with_reducible first
    | exact h | exact Parts.trans (by decide) hp | intro _ | assumption | rw [lit_tx] | apply Only.ite
    | apply State.dropUpdate_only | apply State.decide__only | apply State.dropCommit_only | apply State.updWork_only
    | refine State.with_tx_only ?_ ?_ | split | dsimp only

theorem State.disableRing_only {ps : List Part} {s₀ s : State} {n : Nat} (h : Only ps s₀ s)
    (hp : Parts [.regs, .gen, .ring, .cap, .tx, .upd] ps) : Only ps s₀ (State.disableRing s n) := by
  unfold State.disableRing
  repeat' with_reducible first
    | exact h | exact Parts.trans (by decide) hp | intro _ | assumption | rw [lit_cap] | apply Only.ite
    | refine Only.foldl (fun _ _ _ => ?_) ?_ | refine Only.foldl_fst (fun _ _ _ => ?_) ?_ | apply State.stopWork_only
    | apply State.put_only | refine State.with_cap_only ?_ ?_ | split | dsimp only

theorem State.endCopy_only {ps : List Part} {s₀ s : State} {w : Work} (h : Only ps s₀ s)
    (hp : Parts [.regs, .units, .env, .ring, .mail, .ev, .coh, .bkp, .mem, .trace] ps) : Only ps s₀ (State.endCopy s w) := by
  unfold State.endCopy
  repeat' with_reducible first
    | exact h | exact Parts.trans (by decide) hp | intro _ | assumption | apply Only.ite | apply State.bump_only
    | apply State.envBreak_only | apply State.setBytes_only | apply State.decide__only | apply State.healRange_only
    | split | dsimp only

theorem State.copyJobEnd_only {ps : List Part} {s₀ s : State} {ring idx : Nat} (h : Only ps s₀ s)
    (hp : Parts [.regs, .units, .env, .ring, .mail, .ev, .coh, .bkp, .mem, .trace] ps) : Only ps s₀ (State.copyJobEnd s ring idx) := by
  unfold State.copyJobEnd
  repeat' with_reducible first
    | exact h | exact Parts.trans (by decide) hp | intro _ | assumption | apply Only.ite | apply State.endCopy_only
    | split | dsimp only

theorem State.startCopy_only {ps : List Part} {s₀ s : State} {w : Work} (h : Only ps s₀ s)
    (hp : Parts [.ring] ps) : Only ps s₀ (State.startCopy s w) := by
  unfold State.startCopy
  repeat' with_reducible first
    | exact h | exact Parts.trans (by decide) hp | intro _ | assumption | apply Only.ite | apply State.decide__only
    | apply State.updWork_only | split | dsimp only

theorem State.runWork_only {ps : List Part} {s₀ s : State} {ring idx : Nat} {ops : List Nat} {k : Work → State → State} (h : Only ps s₀ s)
    (hp : Parts [.ring] ps) (hf : ∀ x0 t, Only ps s₀ t → Only ps s₀ (k x0 t)) : Only ps s₀ (State.runWork s ring idx ops k) := by
  unfold State.runWork
  repeat' with_reducible first
    | exact h | exact Parts.trans (by decide) hp | intro _ | assumption | apply Only.ite | apply hf
    | apply State.decide__only | split | dsimp only

theorem State.copyOp_only {ps : List Part} {s₀ s : State} {ring idx op : Nat} (h : Only ps s₀ s)
    (hp : Parts [.ring] ps) : Only ps s₀ (State.copyOp s ring idx op) := by
  unfold State.copyOp
  repeat' with_reducible first
    | exact h | exact Parts.trans (by decide) hp | intro _ | assumption | apply State.startCopy_only
    | apply State.runWork_only | split | dsimp only

theorem State.creditRestore_only {ps : List Part} {s₀ s : State} {n : Nat} (h : Only ps s₀ s)
    (hp : Parts [.regs, .units, .env, .mail, .ev, .trace] ps) : Only ps s₀ (State.creditRestore s n) := by
  unfold State.creditRestore
  repeat' with_reducible first
    | exact h | exact Parts.trans (by decide) hp | intro _ | assumption | apply Only.ite | apply State.envRestore_only
    | apply State.put_only | split | dsimp only

theorem State.doorbell_only {ps : List Part} {s₀ s : State} {who : Who} {n prod : Nat} (h : Only ps s₀ s)
    (hp : Parts [.regs, .units, .env, .mail, .ev, .trace] ps) : Only ps s₀ (State.doorbell s who n prod) := by
  unfold State.doorbell
  repeat' with_reducible first
    | exact h | exact Parts.trans (by decide) hp | intro _ | assumption | apply Only.ite | apply State.wr_only
    | apply State.envBreak_only | apply State.bump_only | apply State.tracePacket_only | apply State.count_only
    | apply State.guarded_only | apply State.put_only | split | dsimp only

theorem State.handOn_only {ps : List Part} {s₀ s : State} {w : Work} (h : Only ps s₀ s)
    (hp : Parts [.ring] ps) : Only ps s₀ (State.handOn s w) := by
  unfold State.handOn
  repeat' with_reducible first
    | exact h | exact Parts.trans (by decide) hp | intro _ | assumption | apply Only.ite | apply State.decide__only
    | apply State.updWork_only | split | dsimp only

theorem State.enter_only {ps : List Part} {s₀ s : State} {w : Work} (h : Only ps s₀ s)
    (hp : Parts [.ring] ps) : Only ps s₀ (State.enter s w) := by
  unfold State.enter
  repeat' with_reducible first
    | exact h | exact Parts.trans (by decide) hp | intro _ | assumption | apply Only.ite | apply State.handOn_only
    | apply State.decide__only | apply State.updWork_only | split | dsimp only

theorem State.fenceRelease_only {ps : List Part} {s₀ s : State} {n idx : Nat} (h : Only ps s₀ s)
    (hp : Parts [.ring] ps) : Only ps s₀ (State.fenceRelease s n idx) := by
  unfold State.fenceRelease
  repeat' with_reducible first
    | exact h | exact Parts.trans (by decide) hp | intro _ | assumption | apply Only.ite | apply State.handOn_only
    | split | dsimp only

theorem State.fetchDescriptor_only {ps : List Part} {s₀ s : State} {n : Nat} (h : Only ps s₀ s)
    (hp : Parts [.regs, .units, .ring] ps) : Only ps s₀ (State.fetchDescriptor s n) := by
  unfold State.fetchDescriptor
  repeat' with_reducible first
    | exact h | exact Parts.trans (by decide) hp | intro _ | assumption | rw [lit_ring] | apply Only.ite
    | apply State.wr_only | apply State.enter_only | apply State.progress_only | refine State.with_ring_only ?_ ?_
    | split | dsimp only

theorem State.noteBuf_only {ps : List Part} {s₀ s : State} {ring idx : Nat} (h : Only ps s₀ s)
    (hp : Parts [.ring] ps) : Only ps s₀ (State.noteBuf s ring idx) := by
  unfold State.noteBuf
  repeat' with_reducible first
    | exact h | exact Parts.trans (by decide) hp | intro _ | assumption | apply Only.ite | apply State.runWork_only
    | apply State.decide__only | apply State.updWork_only | split | dsimp only

theorem State.writeCqCons_only {ps : List Part} {s₀ s : State} {who : Who} {n cons : Nat} (h : Only ps s₀ s)
    (hp : Parts [.regs, .units, .env, .mail, .ev, .trace] ps) : Only ps s₀ (State.writeCqCons s who n cons) := by
  unfold State.writeCqCons
  repeat' with_reducible first
    | exact h | exact Parts.trans (by decide) hp | intro _ | assumption | apply State.guarded_only
    | apply State.wr_only | split | dsimp only

theorem State.serverResult_only {ps : List Part} {s₀ s : State} {who : Who} {ring v : Nat} (h : Only ps s₀ s)
    (hp : Parts [.regs, .units, .env, .ring, .mail, .ev, .trace] ps) : Only ps s₀ (State.serverResult s who ring v) := by
  unfold State.serverResult
  repeat' with_reducible first
    | exact h | exact Parts.trans (by decide) hp | intro _ | assumption | rw [lit_ring] | apply State.guarded_only
    | refine State.with_ring_only ?_ ?_ | split | dsimp only

theorem State.setupError_only {ps : List Part} {s₀ s : State} {n cause : Nat} (h : Only ps s₀ s)
    (hp : Parts [.regs] ps) : Only ps s₀ (State.setupError s n cause) := by
  unfold State.setupError
  repeat' with_reducible first
    | exact h | exact Parts.trans (by decide) hp | intro _ | assumption | apply State.wr_only | apply State.bump_only
    | split | dsimp only

theorem State.writeRingCfg_only {ps : List Part} {s₀ s : State} {n v : Nat} (h : Only ps s₀ s)
    (hp : Parts [.regs, .gen, .ring, .cap, .tx, .upd] ps) : Only ps s₀ (State.writeRingCfg s n v) := by
  unfold State.writeRingCfg
  repeat' with_reducible first
    | exact h | exact Parts.trans (by decide) hp | intro _ | assumption | apply Only.ite | apply State.wr_only
    | apply State.disableRing_only | apply State.setupError_only | apply State.put_only
    | refine Only.fst (by assumption) ?_ | refine Only.snd (by assumption) ?_ | split | dsimp only

theorem State.ringCfg_only {ps : List Part} {s₀ s : State} {who : Who} {n v : Nat} (h : Only ps s₀ s)
    (hp : Parts [.regs, .units, .env, .gen, .ring, .mail, .ev, .cap, .tx, .upd, .trace] ps) : Only ps s₀ (State.ringCfg s who n v) := by
  unfold State.ringCfg
  repeat' with_reducible first
    | exact h | exact Parts.trans (by decide) hp | intro _ | assumption | apply State.guarded_only
    | apply State.writeRingCfg_only | split | dsimp only

theorem State.writeRingBase_only {ps : List Part} {s₀ s : State} {n : Nat} {f : Fld} {v : Nat} (h : Only ps s₀ s)
    (hp : Parts [.regs] ps) : Only ps s₀ (State.writeRingBase s n f v) := by
  unfold State.writeRingBase
  repeat' with_reducible first
    | exact h | exact Parts.trans (by decide) hp | intro _ | assumption | apply Only.ite | apply State.setupError_only
    | apply State.wr_only | split | dsimp only

theorem State.serverReturn_only {ps : List Part} {s₀ s : State} {who : Who} {ring status idx : Nat} (h : Only ps s₀ s)
    (hp : Parts [.regs, .units, .env, .ring, .mail, .ev, .trace] ps) : Only ps s₀ (State.serverReturn s who ring status idx) := by
  unfold State.serverReturn
  repeat' with_reducible first
    | exact h | exact Parts.trans (by decide) hp | intro _ | assumption | apply Only.ite | apply State.guarded_only
    | apply State.decideGen_only | apply State.put_only | split | dsimp only

theorem State.servedNotice_only {ps : List Part} {s₀ s : State} {ring idx : Nat} (h : Only ps s₀ s)
    (hp : Parts [.regs, .units, .ring, .mail, .ev, .trace] ps) : Only ps s₀ (State.servedNotice s ring idx) := by
  unfold State.servedNotice
  repeat' with_reducible first
    | exact h | exact Parts.trans (by decide) hp | intro _ | assumption | apply Only.ite | apply State.updWork_only
    | apply State.deliverNotice_only | refine Only.fst (by assumption) ?_ | refine Only.snd (by assumption) ?_ | split
    | dsimp only

theorem State.setOwner_only {ps : List Part} {s₀ s : State} {w : Work} (h : Only ps s₀ s)
    (hp : Parts [.regs, .ring] ps) : Only ps s₀ (State.setOwner s w) := by
  unfold State.setOwner
  repeat' with_reducible first
    | exact h | exact Parts.trans (by decide) hp | intro _ | assumption | apply Only.ite | apply State.decide__only
    | apply State.wr_only | split | dsimp only

theorem State.timedStart_only {ps : List Part} {s₀ s : State} {n idx : Nat} (h : Only ps s₀ s)
    (hp : Parts [.ring] ps) : Only ps s₀ (State.timedStart s n idx) := by
  unfold State.timedStart
  repeat' with_reducible first
    | exact h | exact Parts.trans (by decide) hp | intro _ | assumption | apply Only.ite | apply State.decide__only
    | apply State.updWork_only | split | dsimp only

theorem State.writeCompletion_only {ps : List Part} {s₀ s : State} {n : Nat} (h : Only ps s₀ s)
    (hp : Parts [.regs, .units, .env, .ring, .mail, .ev, .coh, .bkp, .mem, .trace] ps) : Only ps s₀ (State.writeCompletion s n) := by
  unfold State.writeCompletion
  repeat' with_reducible first
    | exact h | exact Parts.trans (by decide) hp | intro _ | assumption | rw [lit_ring] | apply Only.ite
    | apply State.wr_only | apply State.setBytes_only | apply State.tracePacket_only | apply State.emit_only
    | apply State.count_only | apply State.progress_only | apply State.creditRestore_only
    | refine State.with_ring_only ?_ ?_ | split | dsimp only

end Sys2Proof.Machine
end

