-- ==== Sys2Proof/Laws/OnlyPackets.lean ====
section
/-!
SUPPORT. What each operation of Machine/Packets.lean leaves alone.
-/

namespace Sys2Proof.Machine

theorem State.requestBlock_only {ps : List Part} {s₀ s : State} {k : Nat} (h : Only ps s₀ s)
    (hp : Parts [.units, .coh] ps) : Only ps s₀ (State.requestBlock s k) := by
  unfold State.requestBlock
  repeat' with_reducible first
    | exact h | exact Parts.trans (by decide) hp | intro _ | assumption | apply Only.ite | apply State.issue_only
    | apply State.setCoh_only | split | dsimp only

theorem State.cohRecord_only {ps : List Part} {s₀ s : State} {kind m : Nat} (h : Only ps s₀ s)
    (hp : Parts [.regs, .units, .ring, .coh, .bkp, .mem] ps) : Only ps s₀ (State.cohRecord s kind m) := by
  unfold State.cohRecord
  repeat' with_reducible first
    | exact h | exact Parts.trans (by decide) hp | intro _ | assumption | apply State.postRecord_only | split
    | dsimp only

end Sys2Proof.Machine
end

