-- ==== Sys2Proof/Laws/OnlyTables.lean ====
section
/-!
SUPPORT. What each operation of Machine/Tables.lean leaves alone.
-/

namespace Sys2Proof.Machine

theorem State.setCalRec_only {ps : List Part} {s₀ s : State} {i v : Nat} (h : Only ps s₀ s)
    (hp : Parts [.tab] ps) : Only ps s₀ (State.setCalRec s i v) := by
  unfold State.setCalRec
  repeat' with_reducible first
    | exact h | exact Parts.trans (by decide) hp | intro _ | assumption | rw [lit_tab]
    | refine State.with_tab_only ?_ ?_ | split | dsimp only

theorem State.setCalBit_only {ps : List Part} {s₀ s : State} {i bit : Nat} {b : Bool} (h : Only ps s₀ s)
    (hp : Parts [.tab] ps) : Only ps s₀ (State.setCalBit s i bit b) := by
  unfold State.setCalBit
  repeat' with_reducible first
    | exact h | exact Parts.trans (by decide) hp | intro _ | assumption | apply State.setCalRec_only | split
    | dsimp only

theorem tableFault_only {ps : List Part} {s₀ s : State} {w : Work} {shift index reason : Nat} (h : Only ps s₀ s)
    (hp : Parts [.ring] ps) : Only ps s₀ (tableFault w s shift index reason) := by
  unfold tableFault
  repeat' with_reducible first
    | exact h | exact Parts.trans (by decide) hp | intro _ | assumption | apply State.decide__only | split
    | dsimp only

theorem State.tableRead_only {ps : List Part} {s₀ s : State} {w : Work} {size limit align shift first count : Nat} {badSel inactive : Bool} {data : List Byte} (h : Only ps s₀ s)
    (hp : Parts [.units, .ring, .coh, .bkp, .mem] ps) : Only ps s₀ (State.tableRead s w size limit align shift first count badSel inactive data) := by
  unfold State.tableRead
  repeat' with_reducible first
    | exact h | exact Parts.trans (by decide) hp | intro _ | assumption | apply Only.ite | apply State.decide__only
    | apply State.decideGen_only | apply tableFault_only | apply State.healRange_only | apply State.setBytes_only
    | split | dsimp only

theorem State.chanRead_only {ps : List Part} {s₀ s : State} {w : Work} (h : Only ps s₀ s)
    (hp : Parts [.units, .ring, .coh, .bkp, .mem] ps) : Only ps s₀ (State.chanRead s w) := by
  unfold State.chanRead
  repeat' with_reducible first
    | exact h | exact Parts.trans (by decide) hp | intro _ | assumption | apply State.tableRead_only | split
    | dsimp only

theorem State.tableWrite_only {ps : List Part} {s₀ s : State} {w : Work} {size limit align shift first count : Nat} {badSel : Bool} {check : Store → Nat → Nat} {k : List Byte → State → State} (h : Only ps s₀ s)
    (hp : Parts [.ring] ps) (hf : ∀ x0 t, Only ps s₀ t → Only ps s₀ (k x0 t)) : Only ps s₀ (State.tableWrite s w size limit align shift first count badSel check k) := by
  unfold State.tableWrite
  repeat' with_reducible first
    | exact h | exact Parts.trans (by decide) hp | intro _ | assumption | apply Only.ite | apply hf
    | apply State.decide__only | apply tableFault_only | split | dsimp only

theorem State.joinSlice_only {ps : List Part} {s₀ s : State} {items kind entry : Nat} {next : Bool} (h : Only ps s₀ s)
    (hp : Parts [.tx] ps) : Only ps s₀ (State.joinSlice s items kind entry next) := by
  unfold State.joinSlice
  repeat' with_reducible first
    | exact h | exact Parts.trans (by decide) hp | intro _ | assumption | rw [lit_tx] | apply Only.ite
    | refine State.with_tx_only ?_ ?_ | split | dsimp only

theorem State.joinCal_only {ps : List Part} {s₀ s : State} {entry : Nat} {next : Bool} (h : Only ps s₀ s)
    (hp : Parts [.tx] ps) : Only ps s₀ (State.joinCal s entry next) := by
  unfold State.joinCal
  repeat' with_reducible first
    | exact h | exact Parts.trans (by decide) hp | intro _ | assumption | apply State.joinSlice_only | split
    | dsimp only

theorem State.chanWrite_only {ps : List Part} {s₀ s : State} {w : Work} (h : Only ps s₀ s)
    (hp : Parts [.ring, .tab, .tx] ps) : Only ps s₀ (State.chanWrite s w) := by
  unfold State.chanWrite
  repeat' with_reducible first
    | exact h | exact Parts.trans (by decide) hp | intro _ | assumption | rw [lit_tab] | apply Only.ite
    | refine Only.foldl (fun _ _ _ => ?_) ?_ | refine Only.foldl_fst (fun _ _ _ => ?_) ?_
    | apply State.tableWrite_only | apply State.joinCal_only | refine State.with_tab_only ?_ ?_ | split | dsimp only

theorem State.ttbRead_only {ps : List Part} {s₀ s : State} {w : Work} (h : Only ps s₀ s)
    (hp : Parts [.units, .ring, .coh, .bkp, .mem] ps) : Only ps s₀ (State.ttbRead s w) := by
  unfold State.ttbRead
  repeat' with_reducible first
    | exact h | exact Parts.trans (by decide) hp | intro _ | assumption | apply Only.ite | apply State.tableRead_only
    | split | dsimp only

theorem State.ttbWrite_only {ps : List Part} {s₀ s : State} {w : Work} (h : Only ps s₀ s)
    (hp : Parts [.ring, .tab] ps) : Only ps s₀ (State.ttbWrite s w) := by
  unfold State.ttbWrite
  repeat' with_reducible first
    | exact h | exact Parts.trans (by decide) hp | intro _ | assumption | rw [lit_tab] | apply Only.ite
    | apply State.tableWrite_only | refine State.with_tab_only ?_ ?_ | split | dsimp only

theorem State.watchRead_only {ps : List Part} {s₀ s : State} {w : Work} (h : Only ps s₀ s)
    (hp : Parts [.units, .ring, .coh, .bkp, .mem] ps) : Only ps s₀ (State.watchRead s w) := by
  unfold State.watchRead
  repeat' with_reducible first
    | exact h | exact Parts.trans (by decide) hp | intro _ | assumption | apply State.tableRead_only | split
    | dsimp only

theorem State.watchWrite_only {ps : List Part} {s₀ s : State} {w : Work} (h : Only ps s₀ s)
    (hp : Parts [.ring, .tab] ps) : Only ps s₀ (State.watchWrite s w) := by
  unfold State.watchWrite
  repeat' with_reducible first
    | exact h | exact Parts.trans (by decide) hp | intro _ | assumption | rw [lit_tab] | apply Only.ite
    | apply State.tableWrite_only | refine State.with_tab_only ?_ ?_ | split | dsimp only

end Sys2Proof.Machine
end

