-- ==== Sys2Proof/Laws/OnlyAirtime.lean ====
section
/-!
SUPPORT. What each operation of Machine/Airtime.lean leaves alone.
-/

namespace Sys2Proof.Machine

theorem State.setRuleUse_only {ps : List Part} {s₀ s : State} {i : Nat} {u : RuleUse} (h : Only ps s₀ s)
    (hp : Parts [.ttb] ps) : Only ps s₀ (State.setRuleUse s i u) := by
  unfold State.setRuleUse
  repeat' with_reducible first
    | exact h | exact Parts.trans (by decide) hp | intro _ | assumption | rw [lit_ttb]
    | refine State.with_ttb_only ?_ ?_ | split | dsimp only

theorem State.ledgerCharge_only {ps : List Part} {s₀ s : State} {sub entry units : Nat} {ack : Bool} (h : Only ps s₀ s)
    (hp : Parts [.ttb] ps) : Only ps s₀ (State.ledgerCharge s sub entry units ack) := by
  unfold State.ledgerCharge
  repeat' with_reducible first
    | exact h | exact Parts.trans (by decide) hp | intro _ | assumption | rw [lit_ttb] | apply Only.ite
    | apply State.setRuleUse_only | refine State.with_ttb_only ?_ ?_ | refine Only.fst (by assumption) ?_
    | refine Only.snd (by assumption) ?_ | split | dsimp only

theorem State.bucketRoll_only {ps : List Part} {s₀ s : State} {i : Nat} (h : Only ps s₀ s)
    (hp : Parts [.ttb] ps) : Only ps s₀ (State.bucketRoll s i) := by
  unfold State.bucketRoll
  repeat' with_reducible first
    | exact h | exact Parts.trans (by decide) hp | intro _ | assumption | apply Only.ite | apply State.setRuleUse_only
    | refine Only.fst (by assumption) ?_ | refine Only.snd (by assumption) ?_ | split | dsimp only

theorem State.markBlank_only {ps : List Part} {s₀ s : State} (h : Only ps s₀ s)
    (hp : Parts [.ttb] ps) : Only ps s₀ (State.markBlank s) := by
  unfold State.markBlank
  repeat' with_reducible first
    | exact h | exact Parts.trans (by decide) hp | intro _ | assumption | rw [lit_ttb]
    | refine State.with_ttb_only ?_ ?_ | split | dsimp only

theorem State.rulesSwitched_only {ps : List Part} {s₀ s : State} {old : Nat → Rule} (h : Only ps s₀ s)
    (hp : Parts [.ttb] ps) : Only ps s₀ (State.rulesSwitched s old) := by
  unfold State.rulesSwitched
  repeat' with_reducible first
    | exact h | exact Parts.trans (by decide) hp | intro _ | assumption | apply Only.ite
    | refine Only.foldl (fun _ _ _ => ?_) ?_ | refine Only.foldl_fst (fun _ _ _ => ?_) ?_
    | apply State.setRuleUse_only | split | dsimp only

theorem State.dwellClear_only {ps : List Part} {s₀ s : State} {i : Nat} (h : Only ps s₀ s)
    (hp : Parts [.ttb] ps) : Only ps s₀ (State.dwellClear s i) := by
  unfold State.dwellClear
  repeat' with_reducible first
    | exact h | exact Parts.trans (by decide) hp | intro _ | assumption | rw [lit_ttb] | apply Only.ite
    | apply State.setRuleUse_only | refine State.with_ttb_only ?_ ?_ | split | dsimp only

theorem State.ledgerStart_only {ps : List Part} {s₀ s : State} (h : Only ps s₀ s)
    (hp : Parts [.ttb] ps) : Only ps s₀ (State.ledgerStart s) := by
  unfold State.ledgerStart
  repeat' with_reducible first
    | exact h | exact Parts.trans (by decide) hp | intro _ | assumption | rw [lit_ttb]
    | refine Only.foldl (fun _ _ _ => ?_) ?_ | refine Only.foldl_fst (fun _ _ _ => ?_) ?_
    | apply State.setRuleUse_only | refine State.with_ttb_only ?_ ?_ | split | dsimp only

end Sys2Proof.Machine
end

