-- ==== Sys2Proof/Laws/OnlyCipher.lean ====
section
/-!
SUPPORT. What each operation of Machine/Cipher.lean leaves alone.
-/

namespace Sys2Proof.Machine

theorem State.setEngineFree_only {ps : List Part} {s₀ s : State} {e t : Nat} (h : Only ps s₀ s)
    (hp : Parts [.cip] ps) : Only ps s₀ (State.setEngineFree s e t) := by
  unfold State.setEngineFree
  repeat' with_reducible first
    | exact h | exact Parts.trans (by decide) hp | intro _ | assumption | rw [lit_cip] | apply Only.ite
    | refine State.with_cip_only ?_ ?_ | split | dsimp only

theorem State.linkCipher_only {ps : List Part} {s₀ s : State} {blocks : Nat} (h : Only ps s₀ s)
    (hp : Parts [.ring, .cip, .trace] ps) : Only ps s₀ (State.linkCipher s blocks) := by
  unfold State.linkCipher
  repeat' with_reducible first
    | exact h | exact Parts.trans (by decide) hp | intro _ | assumption | rw [lit_ring] | apply Only.ite
    | apply State.count_only | apply State.setEngineFree_only | refine State.with_ring_only ?_ ?_ | split | dsimp only

theorem State.setKeySlot_only {ps : List Part} {s₀ s : State} {n : Nat} {k : Option KeySlot} (h : Only ps s₀ s)
    (hp : Parts [.cip] ps) : Only ps s₀ (State.setKeySlot s n k) := by
  unfold State.setKeySlot
  repeat' with_reducible first
    | exact h | exact Parts.trans (by decide) hp | intro _ | assumption | rw [lit_cip]
    | refine State.with_cip_only ?_ ?_ | refine Only.fst (by assumption) ?_ | refine Only.snd (by assumption) ?_
    | split | dsimp only

theorem State.cipherDone_only {ps : List Part} {s₀ s : State} {w : Work} {result : Nat} (h : Only ps s₀ s)
    (hp : Parts [.regs, .ring] ps) : Only ps s₀ (State.cipherDone s w result) := by
  unfold State.cipherDone
  repeat' with_reducible first
    | exact h | exact Parts.trans (by decide) hp | intro _ | assumption | apply State.decide__only
    | apply State.bump_only | split | dsimp only

theorem State.cipherFail_only {ps : List Part} {s₀ s : State} {w : Work} {st : Nat} (h : Only ps s₀ s)
    (hp : Parts [.regs, .ring] ps) : Only ps s₀ (State.cipherFail s w st) := by
  unfold State.cipherFail
  repeat' with_reducible first
    | exact h | exact Parts.trans (by decide) hp | intro _ | assumption | apply Only.ite | apply State.decide__only
    | apply State.bump_only | split | dsimp only

theorem State.setJctx_only {ps : List Part} {s₀ s : State} {k : Nat} {c : JobCtx} (h : Only ps s₀ s)
    (hp : Parts [.cip] ps) : Only ps s₀ (State.setJctx s k c) := by
  unfold State.setJctx
  repeat' with_reducible first
    | exact h | exact Parts.trans (by decide) hp | intro _ | assumption | rw [lit_cip]
    | refine State.with_cip_only ?_ ?_ | split | dsimp only

theorem State.reserve_only {ps : List Part} {s₀ s : State} {w : Work} (h : Only ps s₀ s)
    (hp : Parts [.units, .ring, .cip, .coh, .bkp, .mem] ps) : Only ps s₀ (State.reserve s w) := by
  unfold State.reserve
  repeat' with_reducible first
    | exact h | exact Parts.trans (by decide) hp | intro _ | assumption | apply Only.ite | apply State.setBytes_only
    | apply State.updWork_only | apply State.setJctx_only | split | dsimp only

theorem State.endKeyOp_only {ps : List Part} {s₀ s : State} {w : Work} (h : Only ps s₀ s)
    (hp : Parts [.regs, .units, .ring, .cip, .coh, .bkp, .mem] ps) : Only ps s₀ (State.endKeyOp s w) := by
  unfold State.endKeyOp
  repeat' with_reducible first
    | exact h | exact Parts.trans (by decide) hp | intro _ | assumption | apply Only.ite | apply State.setBytes_only
    | apply State.healRange_only | apply State.cipherFail_only | apply State.cipherDone_only
    | apply State.setJctx_only | apply State.setKeySlot_only | split | dsimp only

theorem State.endCipher_only {ps : List Part} {s₀ s : State} {w : Work} (h : Only ps s₀ s)
    (hp : Parts [.regs, .units, .ring, .cip, .coh, .bkp, .mem] ps) : Only ps s₀ (State.endCipher s w) := by
  unfold State.endCipher
  repeat' with_reducible first
    | exact h | exact Parts.trans (by decide) hp | intro _ | assumption | apply Only.ite | apply State.bump_only
    | apply State.setBytes_only | apply State.decide__only | apply State.healRange_only | apply State.cipherFail_only
    | apply State.setJctx_only | split | dsimp only

theorem State.cipherOperationEnd_only {ps : List Part} {s₀ s : State} {idx : Nat} (h : Only ps s₀ s)
    (hp : Parts [.regs, .units, .env, .ring, .mail, .ev, .cip, .coh, .bkp, .mem, .trace] ps) : Only ps s₀ (State.cipherOperationEnd s idx) := by
  unfold State.cipherOperationEnd
  repeat' with_reducible first
    | exact h | exact Parts.trans (by decide) hp | intro _ | assumption | apply Only.ite | apply State.reserve_only
    | apply State.bump_only | apply State.endKeyOp_only | apply State.envBreak_only | apply State.cipherFail_only
    | apply State.endCipher_only | apply State.progress_only | split | dsimp only

theorem State.clearKeyData_only {ps : List Part} {s₀ s : State} (h : Only ps s₀ s)
    (hp : Parts [.regs] ps) : Only ps s₀ (State.clearKeyData s) := by
  unfold State.clearKeyData
  repeat' with_reducible first
    | exact h | exact Parts.trans (by decide) hp | intro _ | assumption | refine Only.foldl (fun _ _ _ => ?_) ?_
    | refine Only.foldl_fst (fun _ _ _ => ?_) ?_ | apply State.wr_only | split | dsimp only

theorem State.keyRefused_only {ps : List Part} {s₀ s : State} {cause : Nat} (h : Only ps s₀ s)
    (hp : Parts [.regs] ps) : Only ps s₀ (State.keyRefused s cause) := by
  unfold State.keyRefused
  repeat' with_reducible first
    | exact h | exact Parts.trans (by decide) hp | intro _ | assumption | apply State.wr_only | apply State.bump_only
    | apply State.put_only | split | dsimp only

theorem State.keyErase_only {ps : List Part} {s₀ s : State} (h : Only ps s₀ s)
    (hp : Parts [.regs, .cip] ps) : Only ps s₀ (State.keyErase s) := by
  unfold State.keyErase
  repeat' with_reducible first
    | exact h | exact Parts.trans (by decide) hp | intro _ | assumption | apply Only.ite | apply State.setKeySlot_only
    | apply State.keyRefused_only | apply State.put_only | split | dsimp only

theorem State.keyLoad_only {ps : List Part} {s₀ s : State} (h : Only ps s₀ s)
    (hp : Parts [.regs, .cip] ps) : Only ps s₀ (State.keyLoad s) := by
  unfold State.keyLoad
  repeat' with_reducible first
    | exact h | exact Parts.trans (by decide) hp | intro _ | assumption | apply Only.ite | apply State.setKeySlot_only
    | apply State.keyRefused_only | apply State.put_only | split | dsimp only

theorem State.keyWrite_only {ps : List Part} {s₀ s : State} {who : Who} {f : State → State} (h : Only ps s₀ s)
    (hp : Parts [.regs, .units, .env, .mail, .ev, .trace] ps) (hf : ∀ t, Only ps s₀ t → Only ps s₀ (f t)) : Only ps s₀ (State.keyWrite s who f) := by
  unfold State.keyWrite
  repeat' with_reducible first
    | exact h | exact Parts.trans (by decide) hp | intro _ | assumption | apply hf | apply State.guarded_only
    | apply State.clearKeyData_only | split | dsimp only

theorem State.keyCommand_only {ps : List Part} {s₀ s : State} {who : Who} {v : Nat} (h : Only ps s₀ s)
    (hp : Parts [.regs, .units, .env, .mail, .ev, .cip, .trace] ps) : Only ps s₀ (State.keyCommand s who v) := by
  unfold State.keyCommand
  repeat' with_reducible first
    | exact h | exact Parts.trans (by decide) hp | intro _ | assumption | apply State.keyErase_only
    | apply State.keyLoad_only | apply State.keyWrite_only | split | dsimp only

theorem State.planCipher_only {ps : List Part} {s₀ s : State} {w : Work} {ns : Nat} (h : Only ps s₀ s)
    (hp : Parts [.ring, .cip, .trace] ps) : Only ps s₀ (State.planCipher s w ns) := by
  unfold State.planCipher
  repeat' with_reducible first
    | exact h | exact Parts.trans (by decide) hp | intro _ | assumption | apply Only.ite | apply State.decide__only
    | apply State.updWork_only | apply State.count_only | apply State.setEngineFree_only | split | dsimp only

theorem State.startCipher_only {ps : List Part} {s₀ s : State} {w : Work} (h : Only ps s₀ s)
    (hp : Parts [.regs, .units, .ring, .cip, .coh, .bkp, .mem, .trace] ps) : Only ps s₀ (State.startCipher s w) := by
  unfold State.startCipher
  repeat' with_reducible first
    | exact h | exact Parts.trans (by decide) hp | intro _ | assumption | apply Only.ite | apply State.reserve_only
    | apply State.cipherFail_only | apply State.planCipher_only | split | dsimp only

theorem State.startKeyOp_only {ps : List Part} {s₀ s : State} {w : Work} (h : Only ps s₀ s)
    (hp : Parts [.regs, .ring, .cip, .trace] ps) : Only ps s₀ (State.startKeyOp s w) := by
  unfold State.startKeyOp
  repeat' with_reducible first
    | exact h | exact Parts.trans (by decide) hp | intro _ | assumption | apply State.cipherFail_only
    | apply State.planCipher_only | split | dsimp only

end Sys2Proof.Machine
end

