-- ==== Sys2Proof/Laws/OnlyFrames.lean ====
section
/-!
SUPPORT. What each operation of Machine/Frames.lean leaves alone.
-/

namespace Sys2Proof.Machine

theorem State.ctxPut_only {ps : List Part} {s₀ s : State} {g k off n v : Nat} (h : Only ps s₀ s)
    (hp : Parts [.ctx] ps) : Only ps s₀ (State.ctxPut s g k off n v) := by
  unfold State.ctxPut
  repeat' with_reducible first
    | exact h | exact Parts.trans (by decide) hp | intro _ | assumption | rw [lit_ctx] | apply Only.ite
    | apply State.setCtxNum_only | refine State.with_ctx_only ?_ ?_ id | refine Only.fst (by assumption) ?_
    | refine Only.snd (by assumption) ?_ | split | dsimp only

theorem State.setCtxFlag_only {ps : List Part} {s₀ s : State} {g k bit : Nat} {b : Bool} (h : Only ps s₀ s)
    (hp : Parts [.ctx] ps) : Only ps s₀ (State.setCtxFlag s g k bit b) := by
  unfold State.setCtxFlag
  repeat' with_reducible first
    | exact h | exact Parts.trans (by decide) hp | intro _ | assumption | rw [lit_ctx] | apply Only.ite
    | apply State.setCtxNum_only | refine State.with_ctx_only ?_ ?_ id | refine Only.fst (by assumption) ?_
    | refine Only.snd (by assumption) ?_ | split | dsimp only

theorem State.putAckst_only {ps : List Part} {s₀ s : State} {g k pset n : Nat} {await kept : Bool} (h : Only ps s₀ s)
    (hp : Parts [.ctx] ps) : Only ps s₀ (State.putAckst s g k pset n await kept) := by
  unfold State.putAckst
  repeat' with_reducible first
    | exact h | exact Parts.trans (by decide) hp | intro _ | assumption | apply State.ctxPut_only | split | dsimp only

theorem State.ttbRecord_only {ps : List Part} {s₀ s : State} {kind ctx a : Nat} {data : optParam (List Byte) List.nil} (h : Only ps s₀ s)
    (hp : Parts [.regs, .units, .ring, .coh, .bkp, .mem] ps) : Only ps s₀ (State.ttbRecord s kind ctx a data) := by
  unfold State.ttbRecord
  repeat' with_reducible first
    | exact h | exact Parts.trans (by decide) hp | intro _ | assumption | apply Only.ite | apply State.postRecord_only
    | split | dsimp only

theorem State.linkCcm_only {ps : List Part} {s₀ s : State} {micsz hdr pay : Nat} {enc : Bool} (h : Only ps s₀ s)
    (hp : Parts [.ring, .cip, .trace] ps) : Only ps s₀ (State.linkCcm s micsz hdr pay enc) := by
  unfold State.linkCcm
  repeat' with_reducible first
    | exact h | exact Parts.trans (by decide) hp | intro _ | assumption | apply Only.ite | apply State.linkCipher_only
    | split | dsimp only

theorem State.gaspDisarm_only {ps : List Part} {s₀ s : State} (h : Only ps s₀ s)
    (hp : Parts [.ttb] ps) : Only ps s₀ (State.gaspDisarm s) := by
  unfold State.gaspDisarm
  repeat' with_reducible first
    | exact h | exact Parts.trans (by decide) hp | intro _ | assumption | rw [lit_ttb]
    | refine State.with_ttb_only ?_ ?_ | split | dsimp only

theorem State.gaspCost_only {ps : List Part} {s₀ s : State} {g : Gasp} (h : Only ps s₀ s)
    (hp : Parts [.ring, .cip, .trace] ps) : Only ps s₀ (State.gaspCost s g) := by
  unfold State.gaspCost
  repeat' with_reducible first
    | exact h | exact Parts.trans (by decide) hp | intro _ | assumption | apply State.linkCcm_only | split
    | dsimp only

theorem State.gaspReseal_only {ps : List Part} {s₀ s : State} {r : Nat} (h : Only ps s₀ s)
    (hp : Parts [.regs, .units, .ring, .cip, .ttb, .coh, .bkp, .mem, .trace] ps) : Only ps s₀ (State.gaspReseal s r) := by
  unfold State.gaspReseal
  repeat' with_reducible first
    | exact h | exact Parts.trans (by decide) hp | intro _ | assumption | rw [lit_ttb] | apply Only.ite
    | apply State.ttbRecord_only | apply State.gaspDisarm_only | apply State.gaspCost_only
    | refine State.with_ttb_only ?_ ?_ | split | dsimp only

theorem State.takeCounter_only {ps : List Part} {s₀ s : State} {g k : Nat} (h : Only ps s₀ s)
    (hp : Parts [.regs, .units, .ring, .cip, .ctx, .ttb, .coh, .bkp, .mem, .trace] ps) : Only ps s₀ (State.takeCounter s g k).1 := by
  unfold State.takeCounter
  repeat' with_reducible first
    | exact h | exact Parts.trans (by decide) hp | intro _ | assumption | apply Only.ite | apply State.ctxPut_only
    | apply State.ttbRecord_only | apply State.requestBlock_only | apply State.setCtxFlag_only
    | apply State.gaspReseal_only | refine Only.fst (by assumption) ?_ | refine Only.snd (by assumption) ?_ | split
    | dsimp only

end Sys2Proof.Machine
end

