-- ==== Sys2Proof/Laws/OnlyTransmit.lean ====
section
/-!
SUPPORT. What each operation of Machine/Transmit.lean leaves alone.
-/

namespace Sys2Proof.Machine

theorem State.abandonSlice_only {ps : List Part} {s₀ s : State} {count : Bool} (h : Only ps s₀ s)
    (hp : Parts [.regs, .tx] ps) : Only ps s₀ (State.abandonSlice s count) := by
  unfold State.abandonSlice
  repeat' with_reducible first
    | exact h | exact Parts.trans (by decide) hp | intro _ | assumption | rw [lit_tx] | apply Only.ite
    | apply State.bump_only | refine State.with_tx_only ?_ ?_ | split | dsimp only

theorem State.dropTx_only {ps : List Part} {s₀ s : State} {id : Nat} (h : Only ps s₀ s)
    (hp : Parts [.tx] ps) : Only ps s₀ (State.dropTx s id) := by
  unfold State.dropTx
  repeat' with_reducible first
    | exact h | exact Parts.trans (by decide) hp | intro _ | assumption | rw [lit_tx]
    | refine State.with_tx_only ?_ ?_ | split | dsimp only

theorem State.countMismatch_only {ps : List Part} {s₀ s : State} (h : Only ps s₀ s)
    (hp : Parts [.gen] ps) : Only ps s₀ (State.countMismatch s) := by
  unfold State.countMismatch
  repeat' with_reducible first
    | exact h | exact Parts.trans (by decide) hp | intro _ | assumption | rw [lit_gen]
    | refine State.with_gen_only ?_ ?_ | split | dsimp only

theorem State.finishTx_only {ps : List Part} {s₀ s : State} {x : Tx} {status : Nat} (h : Only ps s₀ s)
    (hp : Parts [.regs, .units, .gen, .ring, .tx] ps) : Only ps s₀ (State.finishTx s x status) := by
  unfold State.finishTx
  repeat' with_reducible first
    | exact h | exact Parts.trans (by decide) hp | intro _ | assumption | apply Only.ite | apply State.progress_only
    | apply State.bump_only | apply State.decideGen_only | apply State.dropTx_only | apply State.countMismatch_only
    | split | dsimp only

theorem State.decideAt_only {ps : List Part} {s₀ s : State} {w : Work} {status result gen stamp at_ : Nat} (h : Only ps s₀ s)
    (hp : Parts [.ring] ps) : Only ps s₀ (State.decideAt s w status result gen stamp at_) := by
  unfold State.decideAt
  repeat' with_reducible first
    | exact h | exact Parts.trans (by decide) hp | intro _ | assumption | rw [lit_ring]
    | refine State.with_ring_only ?_ ?_ | split | dsimp only

theorem State.finishLate_only {ps : List Part} {s₀ s : State} {x : Tx} {slip : Nat} (h : Only ps s₀ s)
    (hp : Parts [.regs, .units, .gen, .ring, .tx] ps) : Only ps s₀ (State.finishLate s x slip) := by
  unfold State.finishLate
  repeat' with_reducible first
    | exact h | exact Parts.trans (by decide) hp | intro _ | assumption | apply State.finishTx_only
    | apply State.decideAt_only | apply State.dropTx_only | apply State.progress_only | split | dsimp only

theorem State.updTx_only {ps : List Part} {s₀ s : State} {id : Nat} {f : Tx → Tx} (h : Only ps s₀ s)
    (hp : Parts [.tx] ps) : Only ps s₀ (State.updTx s id f) := by
  unfold State.updTx
  repeat' with_reducible first
    | exact h | exact Parts.trans (by decide) hp | intro _ | assumption | rw [lit_tx] | apply Only.ite
    | refine State.with_tx_only ?_ ?_ | split | dsimp only

theorem State.placeOne_only {ps : List Part} {s₀ s : State} {mode : LateMode} {id : Nat} (h : Only ps s₀ s)
    (hp : Parts [.regs, .units, .gen, .ring, .tx] ps) : Only ps s₀ (State.placeOne s mode id) := by
  unfold State.placeOne
  repeat' with_reducible first
    | exact h | exact Parts.trans (by decide) hp | intro _ | assumption | apply Only.ite | apply State.finishTx_only
    | apply State.finishLate_only | apply State.updTx_only | apply State.bump_only | split | dsimp only

theorem State.placeAll_only {ps : List Part} {s₀ s : State} {mode : LateMode} {p : Tx → Bool} (h : Only ps s₀ s)
    (hp : Parts [.regs, .units, .gen, .ring, .tx] ps) : Only ps s₀ (State.placeAll s mode p) := by
  unfold State.placeAll
  repeat' with_reducible first
    | exact h | exact Parts.trans (by decide) hp | intro _ | assumption | refine Only.foldl (fun _ _ _ => ?_) ?_
    | refine Only.foldl_fst (fun _ _ _ => ?_) ?_ | apply State.placeOne_only | split | dsimp only

theorem State.ackDecide_only {ps : List Part} {s₀ s : State} {o : AckOrder} (h : Only ps s₀ s)
    (hp : Parts [.regs, .units, .gen, .ring, .tx, .ttb] ps) : Only ps s₀ (State.ackDecide s o).1 := by
  unfold State.ackDecide
  repeat' with_reducible first
    | exact h | exact Parts.trans (by decide) hp | intro _ | assumption | rw [lit_tx] | apply Only.ite
    | apply State.placeAll_only | apply State.bump_only | apply State.abandonSlice_only
    | apply State.ledgerCharge_only | refine State.with_tx_only ?_ ?_ | refine Only.fst (by assumption) ?_
    | refine Only.snd (by assumption) ?_ | split | dsimp only

theorem State.cutTx_only {ps : List Part} {s₀ s : State} {x : Tx} {status : Nat} (h : Only ps s₀ s)
    (hp : Parts [.regs, .units, .gen, .ring, .tx] ps) : Only ps s₀ (State.cutTx s x status) := by
  unfold State.cutTx
  repeat' with_reducible first
    | exact h | exact Parts.trans (by decide) hp | intro _ | assumption | rw [lit_tx] | apply Only.ite
    | apply State.finishTx_only | apply State.dropTx_only | refine State.with_tx_only ?_ ?_ | split | dsimp only

theorem State.addExpect_only {ps : List Part} {s₀ s : State} {e : Expect} (h : Only ps s₀ s)
    (hp : Parts [.regs, .tx] ps) : Only ps s₀ (State.addExpect s e) := by
  unfold State.addExpect
  repeat' with_reducible first
    | exact h | exact Parts.trans (by decide) hp | intro _ | assumption | rw [lit_tx] | apply Only.ite
    | apply State.bump_only | refine State.with_tx_only ?_ ?_ | split | dsimp only

theorem State.unplace_only {ps : List Part} {s₀ s : State} {p : Tx → Bool} (h : Only ps s₀ s)
    (hp : Parts [.tx] ps) : Only ps s₀ (State.unplace s p) := by
  unfold State.unplace
  repeat' with_reducible first
    | exact h | exact Parts.trans (by decide) hp | intro _ | assumption | rw [lit_tx] | apply Only.ite
    | refine State.with_tx_only ?_ ?_ | split | dsimp only

theorem State.replaceAll_only {ps : List Part} {s₀ s : State} {mode : LateMode} (h : Only ps s₀ s)
    (hp : Parts [.regs, .units, .gen, .ring, .tx] ps) : Only ps s₀ (State.replaceAll s mode) := by
  unfold State.replaceAll
  repeat' with_reducible first
    | exact h | exact Parts.trans (by decide) hp | intro _ | assumption | apply State.placeAll_only
    | apply State.unplace_only | split | dsimp only

theorem State.submitTx_only {ps : List Part} {s₀ s : State} {x : Tx} (h : Only ps s₀ s)
    (hp : Parts [.regs, .units, .gen, .ring, .tx] ps) : Only ps s₀ (State.submitTx s x) := by
  unfold State.submitTx
  repeat' with_reducible first
    | exact h | exact Parts.trans (by decide) hp | intro _ | assumption | rw [lit_tx] | apply Only.ite
    | apply State.placeAll_only | apply State.unplace_only | refine State.with_tx_only ?_ ?_ | split | dsimp only

theorem State.calClear_only {ps : List Part} {s₀ s : State} {bit v : Nat} (h : Only ps s₀ s)
    (hp : Parts [.tab] ps) : Only ps s₀ (State.calClear s bit v) := by
  unfold State.calClear
  repeat' with_reducible first
    | exact h | exact Parts.trans (by decide) hp | intro _ | assumption | apply Only.ite
    | refine Only.foldl (fun _ _ _ => ?_) ?_ | refine Only.foldl_fst (fun _ _ _ => ?_) ?_ | apply State.setCalBit_only
    | split | dsimp only

theorem State.unitFault_only {ps : List Part} {s₀ s : State} {h_ code bit : Nat} (h : Only ps s₀ s)
    (hp : Parts [.regs] ps) : Only ps s₀ (State.unitFault s h_ code bit) := by
  unfold State.unitFault
  repeat' with_reducible first
    | exact h | exact Parts.trans (by decide) hp | intro _ | assumption | apply State.wr_only | split | dsimp only

theorem State.rescaleGains_only {ps : List Part} {s₀ s : State} (h : Only ps s₀ s)
    (hp : Parts [.tab, .free] ps) : Only ps s₀ (State.rescaleGains s) := by
  unfold State.rescaleGains
  repeat' with_reducible first
    | exact h | exact Parts.trans (by decide) hp | intro _ | assumption | apply Only.ite
    | refine Only.foldl (fun _ _ _ => ?_) ?_ | refine Only.foldl_fst (fun _ _ _ => ?_) ?_ | apply State.setCalRec_only
    | apply State.free_only | refine Only.fst (by assumption) ?_ | refine Only.snd (by assumption) ?_ | split
    | dsimp only

theorem State.sliceResult_only {ps : List Part} {s₀ s : State} {r : SliceRun} {meas : Nat} (h : Only ps s₀ s)
    (hp : Parts [.regs, .tab, .free] ps) : Only ps s₀ (State.sliceResult s r meas) := by
  unfold State.sliceResult
  repeat' with_reducible first
    | exact h | exact Parts.trans (by decide) hp | intro _ | assumption | rw [lit_tab] | apply Only.ite
    | apply State.wr_only | apply State.setCalRec_only | apply State.rescaleGains_only | apply State.put_only
    | refine State.with_tab_only ?_ ?_ | refine Only.fst (by assumption) ?_ | refine Only.snd (by assumption) ?_
    | split | dsimp only

theorem State.sliceFailed_only {ps : List Part} {s₀ s : State} {r : SliceRun} (h : Only ps s₀ s)
    (hp : Parts [.tab] ps) : Only ps s₀ (State.sliceFailed s r) := by
  unfold State.sliceFailed
  repeat' with_reducible first
    | exact h | exact Parts.trans (by decide) hp | intro _ | assumption | apply Only.ite | apply State.setCalBit_only
    | split | dsimp only

theorem State.firstChip_only {ps : List Part} {s₀ s : State} {x : Tx} (h : Only ps s₀ s)
    (hp : Parts [.regs, .units, .ctx, .tx, .trace] ps) : Only ps s₀ (State.firstChip s x) := by
  unfold State.firstChip
  repeat' with_reducible first
    | exact h | exact Parts.trans (by decide) hp | intro _ | assumption | apply Only.ite | apply State.bump_only
    | apply State.tracePacket_only | apply State.updTx_only | apply State.progress_only | apply State.wr_only
    | apply State.putAckst_only | split | dsimp only

theorem State.refundAck_only {ps : List Part} {s₀ s : State} {x : Tx} (h : Only ps s₀ s)
    (hp : Parts [.ttb] ps) : Only ps s₀ (State.refundAck s x) := by
  unfold State.refundAck
  repeat' with_reducible first
    | exact h | exact Parts.trans (by decide) hp | intro _ | assumption | rw [lit_ttb] | apply Only.ite
    | apply State.setRuleUse_only | refine State.with_ttb_only ?_ ?_ | refine Only.fst (by assumption) ?_
    | refine Only.snd (by assumption) ?_ | split | dsimp only

theorem State.noLock_only {ps : List Part} {s₀ s : State} {x : Tx} (h : Only ps s₀ s)
    (hp : Parts [.regs, .units, .gen, .ring, .tab, .tx, .ttb] ps) : Only ps s₀ (State.noLock s x) := by
  unfold State.noLock
  repeat' with_reducible first
    | exact h | exact Parts.trans (by decide) hp | intro _ | assumption | rw [lit_tx] | apply Only.ite
    | apply State.bump_only | apply State.finishTx_only | apply State.setCalBit_only | apply State.joinCal_only
    | apply State.dropTx_only | apply State.refundAck_only | refine State.with_tx_only ?_ ?_ | split | dsimp only

theorem State.txWorkStage_only {ps : List Part} {s₀ s : State} {x : Tx} {st : Stage} (h : Only ps s₀ s)
    (hp : Parts [.ring] ps) : Only ps s₀ (State.txWorkStage s x st) := by
  unfold State.txWorkStage
  repeat' with_reducible first
    | exact h | exact Parts.trans (by decide) hp | intro _ | assumption | apply Only.ite | apply State.updWork_only
    | split | dsimp only

theorem State.firstEdge_only {ps : List Part} {s₀ s : State} {x : Tx} {lock : Bool} {meas : Nat} (h : Only ps s₀ s)
    (hp : Parts [.regs, .units, .gen, .ring, .tab, .tx, .ttb] ps) : Only ps s₀ (State.firstEdge s x lock meas) := by
  unfold State.firstEdge
  repeat' with_reducible first
    | exact h | exact Parts.trans (by decide) hp | intro _ | assumption | rw [lit_tx] | apply Only.ite
    | apply State.progress_only | apply State.updTx_only | apply State.markBlank_only | apply State.noLock_only
    | apply State.txWorkStage_only | apply State.setCalRec_only | refine State.with_tx_only ?_ ?_ | split | dsimp only

theorem State.forceBlock_only {ps : List Part} {s₀ s : State} {us : List Nat} {capture : Bool} (h : Only ps s₀ s)
    (hp : Parts [.regs, .units, .gen, .ring, .tx] ps) : Only ps s₀ (State.forceBlock s us capture) := by
  unfold State.forceBlock
  repeat' with_reducible first
    | exact h | exact Parts.trans (by decide) hp | intro _ | assumption | rw [lit_tx] | apply Only.ite
    | refine Only.foldl (fun _ _ _ => ?_) ?_ | refine Only.foldl_fst (fun _ _ _ => ?_) ?_
    | apply State.replaceAll_only | refine State.with_tx_only ?_ ?_ | refine Only.fst (by assumption) ?_
    | refine Only.snd (by assumption) ?_ | split | dsimp only

theorem State.forcedDecision_only {ps : List Part} {s₀ s : State} {capture : Bool} (h : Only ps s₀ s)
    (hp : Parts [.regs, .units, .gen, .ring, .tx] ps) : Only ps s₀ (State.forcedDecision s capture) := by
  unfold State.forcedDecision
  repeat' with_reducible first
    | exact h | exact Parts.trans (by decide) hp | intro _ | assumption | apply Only.ite | apply State.forceBlock_only
    | split | dsimp only

theorem State.hopStart_only {ps : List Part} {s₀ s : State} {x : Tx} (h : Only ps s₀ s)
    (hp : Parts [.regs, .units, .gen, .ring, .tx, .ttb] ps) : Only ps s₀ (State.hopStart s x) := by
  unfold State.hopStart
  repeat' with_reducible first
    | exact h | exact Parts.trans (by decide) hp | intro _ | assumption | apply Only.ite | apply State.bump_only
    | apply State.finishTx_only | apply State.unplace_only | apply State.ledgerCharge_only | apply State.updTx_only
    | apply State.txWorkStage_only | apply State.progress_only | apply State.abandonSlice_only | split | dsimp only

theorem State.lastChip_only {ps : List Part} {s₀ s : State} {x : Tx} (h : Only ps s₀ s)
    (hp : Parts [.regs, .units, .ring, .tx] ps) : Only ps s₀ (State.lastChip s x) := by
  unfold State.lastChip
  repeat' with_reducible first
    | exact h | exact Parts.trans (by decide) hp | intro _ | assumption | apply Only.ite | apply State.bump_only
    | apply State.decideGen_only | apply State.addExpect_only | apply State.updTx_only | apply State.progress_only
    | split | dsimp only

theorem State.lastEdge_only {ps : List Part} {s₀ s : State} {x : Tx} (h : Only ps s₀ s)
    (hp : Parts [.tx] ps) : Only ps s₀ (State.lastEdge s x) := by
  unfold State.lastEdge
  repeat' with_reducible first
    | exact h | exact Parts.trans (by decide) hp | intro _ | assumption | rw [lit_tx] | apply Only.ite
    | apply State.updTx_only | apply State.dropTx_only | refine State.with_tx_only ?_ ?_ | split | dsimp only

theorem State.lockLoss_only {ps : List Part} {s₀ s : State} {x : Tx} (h : Only ps s₀ s)
    (hp : Parts [.regs, .units, .gen, .ring, .tab, .tx] ps) : Only ps s₀ (State.lockLoss s x) := by
  unfold State.lockLoss
  repeat' with_reducible first
    | exact h | exact Parts.trans (by decide) hp | intro _ | assumption | rw [lit_tx] | apply State.bump_only
    | apply State.setCalBit_only | apply State.cutTx_only | refine State.with_tx_only ?_ ?_ | split | dsimp only

theorem State.synItem_only {ps : List Part} {s₀ s : State} {i : Nat} (h : Only ps s₀ s)
    (hp : Parts [.regs, .tx] ps) : Only ps s₀ (State.synItem s i) := by
  unfold State.synItem
  repeat' with_reducible first
    | exact h | exact Parts.trans (by decide) hp | intro _ | assumption | apply Only.ite
    | refine Only.foldl (fun _ _ _ => ?_) ?_ | refine Only.foldl_fst (fun _ _ _ => ?_) ?_ | apply State.wr_only
    | apply State.joinSlice_only | split | dsimp only

theorem State.synRequest_only {ps : List Part} {s₀ s : State} {v : Nat} (h : Only ps s₀ s)
    (hp : Parts [.regs, .tx] ps) : Only ps s₀ (State.synRequest s v) := by
  unfold State.synRequest
  repeat' with_reducible first
    | exact h | exact Parts.trans (by decide) hp | intro _ | assumption | rw [lit_tx] | apply Only.ite
    | refine Only.foldl (fun _ _ _ => ?_) ?_ | refine Only.foldl_fst (fun _ _ _ => ?_) ?_ | apply State.synItem_only
    | refine State.with_tx_only ?_ ?_ | split | dsimp only

theorem State.synItemsDone_only {ps : List Part} {s₀ s : State} {r : SliceRun} {good : Bool} (h : Only ps s₀ s)
    (hp : Parts [.regs, .tx] ps) : Only ps s₀ (State.synItemsDone s r good) := by
  unfold State.synItemsDone
  repeat' with_reducible first
    | exact h | exact Parts.trans (by decide) hp | intro _ | assumption | rw [lit_tx] | apply Only.ite
    | apply State.wr_only | refine State.with_tx_only ?_ ?_ | split | dsimp only

theorem State.synSliceEnd_only {ps : List Part} {s₀ s : State} {ok : Bool} {meas : Nat} (h : Only ps s₀ s)
    (hp : Parts [.regs, .units, .tab, .tx, .ttb, .free] ps) : Only ps s₀ (State.synSliceEnd s ok meas) := by
  unfold State.synSliceEnd
  repeat' with_reducible first
    | exact h | exact Parts.trans (by decide) hp | intro _ | assumption | rw [lit_tx] | apply Only.ite
    | refine Only.foldl (fun _ _ _ => ?_) ?_ | refine Only.foldl_fst (fun _ _ _ => ?_) ?_ | apply State.bump_only
    | apply State.synItemsDone_only | apply State.unitFault_only | apply State.progress_only
    | apply State.sliceResult_only | apply State.sliceFailed_only | apply State.markBlank_only
    | refine State.with_tx_only ?_ ?_ | split | dsimp only

theorem State.synSliceStart_only {ps : List Part} {s₀ s : State} (h : Only ps s₀ s)
    (hp : Parts [.tx, .ttb] ps) : Only ps s₀ (State.synSliceStart s) := by
  unfold State.synSliceStart
  repeat' with_reducible first
    | exact h | exact Parts.trans (by decide) hp | intro _ | assumption | rw [lit_tx] | apply Only.ite
    | apply State.markBlank_only | refine State.with_tx_only ?_ ?_ | split | dsimp only

theorem State.synthPark_only {ps : List Part} {s₀ s : State} (h : Only ps s₀ s)
    (hp : Parts [.tx] ps) : Only ps s₀ (State.synthPark s) := by
  unfold State.synthPark
  repeat' with_reducible first
    | exact h | exact Parts.trans (by decide) hp | intro _ | assumption | rw [lit_tx] | apply Only.ite
    | refine State.with_tx_only ?_ ?_ | split | dsimp only

end Sys2Proof.Machine
end

