-- ==== Sys2Proof/Laws/OnlyMailbox.lean ====
section
/-!
SUPPORT. What each operation of Machine/Mailbox.lean leaves alone.
-/

namespace Sys2Proof.Machine

theorem State.endCohortSend_only {ps : List Part} {s₀ s : State} {win : Nat} (h : Only ps s₀ s)
    (hp : Parts [.regs, .mail] ps) : Only ps s₀ (State.endCohortSend s win) := by
  unfold State.endCohortSend
  repeat' with_reducible first
    | exact h | exact Parts.trans (by decide) hp | intro _ | assumption | rw [lit_mail] | apply State.put_only
    | refine State.with_mail_only ?_ ?_ | split | dsimp only

theorem State.cohortAnswer_only {ps : List Part} {s₀ s : State} {win : Nat} {refused : Bool} (h : Only ps s₀ s)
    (hp : Parts [.regs, .units, .mail] ps) : Only ps s₀ (State.cohortAnswer s win refused) := by
  unfold State.cohortAnswer
  repeat' with_reducible first
    | exact h | exact Parts.trans (by decide) hp | intro _ | assumption | apply Only.ite
    | apply State.endCohortSend_only | apply State.progress_only | apply State.put_only | split | dsimp only

theorem State.cohortSendTimeout_only {ps : List Part} {s₀ s : State} {win : Nat} (h : Only ps s₀ s)
    (hp : Parts [.regs, .mail] ps) : Only ps s₀ (State.cohortSendTimeout s win) := by
  unfold State.cohortSendTimeout
  repeat' with_reducible first
    | exact h | exact Parts.trans (by decide) hp | intro _ | assumption | apply Only.ite
    | apply State.endCohortSend_only | apply State.bump_only | apply State.put_only | split | dsimp only

theorem State.mbxLatch_only {ps : List Part} {s₀ s : State} {who : Who} {r : Nat} (h : Only ps s₀ s)
    (hp : Parts [.mail] ps) : Only ps s₀ (State.mbxLatch s who r).1 := by
  unfold State.mbxLatch
  repeat' with_reducible first
    | exact h | exact Parts.trans (by decide) hp | intro _ | assumption | rw [lit_mail] | apply Only.ite
    | refine State.with_mail_only ?_ ?_ | refine Only.fst (by assumption) ?_ | refine Only.snd (by assumption) ?_
    | split | dsimp only

theorem State.mbxRemove_only {ps : List Part} {s₀ s : State} {who : Who} {r : Nat} (h : Only ps s₀ s)
    (hp : Parts [.regs, .mail] ps) : Only ps s₀ (State.mbxRemove s who r).1 := by
  unfold State.mbxRemove
  repeat' with_reducible first
    | exact h | exact Parts.trans (by decide) hp | intro _ | assumption | rw [lit_mail] | apply Only.ite
    | apply State.wr_only | refine State.with_mail_only ?_ ?_ | refine Only.fst (by assumption) ?_
    | refine Only.snd (by assumption) ?_ | split | dsimp only

theorem State.sendCohort_only {ps : List Part} {s₀ s : State} {who : Who} {win dev dest tag : Nat} (h : Only ps s₀ s)
    (hp : Parts [.regs, .units, .mail, .coh] ps) : Only ps s₀ (State.sendCohort s who win dev dest tag) := by
  unfold State.sendCohort
  repeat' with_reducible first
    | exact h | exact Parts.trans (by decide) hp | intro _ | assumption | rw [lit_mail] | apply State.issue_only
    | apply State.progress_only | apply State.put_only | refine State.with_mail_only ?_ ?_
    | refine Only.fst (by assumption) ?_ | refine Only.snd (by assumption) ?_ | split | dsimp only

theorem State.sendLocal_only {ps : List Part} {s₀ s : State} {who : Who} {win dest tag ptr : Nat} (h : Only ps s₀ s)
    (hp : Parts [.regs, .units, .mail, .ev, .trace] ps) : Only ps s₀ (State.sendLocal s who win dest tag ptr) := by
  unfold State.sendLocal
  repeat' with_reducible first
    | exact h | exact Parts.trans (by decide) hp | intro _ | assumption | apply Only.ite | apply State.bump_only
    | apply State.deliverNotice_only | apply State.put_only | refine Only.fst (by assumption) ?_
    | refine Only.snd (by assumption) ?_ | split | dsimp only

theorem State.mbxSend_only {ps : List Part} {s₀ s : State} {who : Who} {win v : Nat} (h : Only ps s₀ s)
    (hp : Parts [.regs, .units, .env, .mail, .ev, .coh, .trace] ps) : Only ps s₀ (State.mbxSend s who win v) := by
  unfold State.mbxSend
  repeat' with_reducible first
    | exact h | exact Parts.trans (by decide) hp | intro _ | assumption | apply Only.ite | apply State.guarded_only
    | apply State.sendCohort_only | apply State.sendLocal_only | apply State.put_only | split | dsimp only

end Sys2Proof.Machine
end

