-- ==== Sys2Proof/Laws/OnlyTempo.lean ====
section
/-!
SUPPORT. What each operation of Machine/Tempo.lean leaves alone.
-/

namespace Sys2Proof.Machine

theorem State.setTmp_only {ps : List Part} {s₀ s : State} {f : TempoState → TempoState} (h : Only ps s₀ s)
    (hp : Parts [.tmp] ps) : Only ps s₀ (State.setTmp s f) := by
  unfold State.setTmp
  repeat' with_reducible first
    | exact h | exact Parts.trans (by decide) hp | intro _ | assumption | rw [lit_tmp]
    | refine State.with_tmp_only ?_ ?_ | split | dsimp only

theorem State.setUncert_only {ps : List Part} {s₀ s : State} {u16 : Nat} (h : Only ps s₀ s)
    (hp : Parts [.regs, .tmp] ps) : Only ps s₀ (State.setUncert s u16) := by
  unfold State.setUncert
  repeat' with_reducible first
    | exact h | exact Parts.trans (by decide) hp | intro _ | assumption | apply State.wr_only
    | apply State.setTmp_only | split | dsimp only

theorem State.commitNoTempo_only {ps : List Part} {s₀ s : State} (h : Only ps s₀ s)
    (hp : Parts [.gen, .ring] ps) : Only ps s₀ (State.commitNoTempo s) := by
  unfold State.commitNoTempo
  repeat' with_reducible first
    | exact h | exact Parts.trans (by decide) hp | intro _ | assumption | rw [lit_gen] | apply Only.ite
    | apply State.decide__only | refine State.with_gen_only ?_ ?_ | split | dsimp only

theorem State.enterReentry_only {ps : List Part} {s₀ s : State} {w : Nat} (h : Only ps s₀ s)
    (hp : Parts [.regs, .units, .ring, .ev, .ttb, .coh, .bkp, .mem, .trace] ps) : Only ps s₀ (State.enterReentry s w) := by
  unfold State.enterReentry
  repeat' with_reducible first
    | exact h | exact Parts.trans (by decide) hp | intro _ | assumption | rw [lit_ttb] | apply Only.ite
    | apply State.ttbRecord_only | apply State.emit_only | apply State.put_only | refine State.with_ttb_only ?_ ?_
    | split | dsimp only

theorem State.tempoUnusable_only {ps : List Part} {s₀ s : State} (h : Only ps s₀ s)
    (hp : Parts [.regs, .units, .gen, .ring, .ev, .tx, .ttb, .coh, .bkp, .mem, .trace] ps) : Only ps s₀ (State.tempoUnusable s) := by
  unfold State.tempoUnusable
  repeat' with_reducible first
    | exact h | exact Parts.trans (by decide) hp | intro _ | assumption | rw [lit_ttb]
    | refine Only.foldl (fun _ _ _ => ?_) ?_ | refine Only.foldl_fst (fun _ _ _ => ?_) ?_
    | apply State.commitNoTempo_only | apply State.finishTx_only | apply State.decide__only
    | apply State.enterReentry_only | refine State.with_ttb_only ?_ ?_ | split | dsimp only

theorem State.tempoAlarmFired_only {ps : List Part} {s₀ s : State} {n : Nat} {skipped : Bool} (h : Only ps s₀ s)
    (hp : Parts [.regs, .units, .ring, .ev, .tmp, .coh, .bkp, .mem, .trace] ps) : Only ps s₀ (State.tempoAlarmFired s n skipped) := by
  unfold State.tempoAlarmFired
  repeat' with_reducible first
    | exact h | exact Parts.trans (by decide) hp | intro _ | assumption | apply Only.ite
    | apply State.tempoRecord_only | apply State.emit_only | apply State.setTmp_only | apply State.put_only
    | refine Only.fst (by assumption) ?_ | refine Only.snd (by assumption) ?_ | split | dsimp only

theorem State.alarmsSkipped_only {ps : List Part} {s₀ s : State} (h : Only ps s₀ s)
    (hp : Parts [.regs, .units, .ring, .ev, .tmp, .coh, .bkp, .mem, .trace] ps) : Only ps s₀ (State.alarmsSkipped s) := by
  unfold State.alarmsSkipped
  repeat' with_reducible first
    | exact h | exact Parts.trans (by decide) hp | intro _ | assumption | apply Only.ite
    | refine Only.foldl (fun _ _ _ => ?_) ?_ | refine Only.foldl_fst (fun _ _ _ => ?_) ?_
    | apply State.tempoAlarmFired_only | split | dsimp only

theorem State.tempoBack_only {ps : List Part} {s₀ s : State} (h : Only ps s₀ s)
    (hp : Parts [.regs, .units, .ring, .ev, .tmp, .ttb, .coh, .bkp, .mem, .trace] ps) : Only ps s₀ (State.tempoBack s) := by
  unfold State.tempoBack
  repeat' with_reducible first
    | exact h | exact Parts.trans (by decide) hp | intro _ | assumption | rw [lit_ttb]
    | apply State.alarmsSkipped_only | refine State.with_ttb_only ?_ ?_ | split | dsimp only

theorem State.setAligned_only {ps : List Part} {s₀ s : State} {b : Bool} (h : Only ps s₀ s)
    (hp : Parts [.regs, .units, .gen, .ring, .ev, .tmp, .tx, .ttb, .coh, .bkp, .mem, .trace] ps) : Only ps s₀ (State.setAligned s b) := by
  unfold State.setAligned
  repeat' with_reducible first
    | exact h | exact Parts.trans (by decide) hp | intro _ | assumption | apply Only.ite
    | apply State.tempoUnusable_only | apply State.tempoBack_only | apply State.put_only | split | dsimp only

theorem State.takenInFlywheel_only {ps : List Part} {s₀ s : State} (h : Only ps s₀ s)
    (hp : Parts [.regs, .units, .gen, .ring, .ev, .tmp, .tx, .ttb, .coh, .bkp, .mem, .trace] ps) : Only ps s₀ (State.takenInFlywheel s) := by
  unfold State.takenInFlywheel
  repeat' with_reducible first
    | exact h | exact Parts.trans (by decide) hp | intro _ | assumption | apply State.setUncert_only
    | apply State.setTmp_only | apply State.setAligned_only | split | dsimp only

theorem State.correct_only {ps : List Part} {s₀ s : State} {dAlign dLocal : Int} {confirms : Bool} (h : Only ps s₀ s)
    (hp : Parts [.tmp] ps) : Only ps s₀ (State.correct s dAlign dLocal confirms) := by
  unfold State.correct
  repeat' with_reducible first
    | exact h | exact Parts.trans (by decide) hp | intro _ | assumption | apply Only.ite | apply State.setTmp_only
    | split | dsimp only

theorem State.takeAckCorrection_only {ps : List Part} {s₀ s : State} {c : Int} (h : Only ps s₀ s)
    (hp : Parts [.regs, .units, .gen, .ring, .ev, .tmp, .tx, .ttb, .coh, .bkp, .mem, .trace] ps) : Only ps s₀ (State.takeAckCorrection s c) := by
  unfold State.takeAckCorrection
  repeat' with_reducible first
    | exact h | exact Parts.trans (by decide) hp | intro _ | assumption | apply Only.ite
    | apply State.takenInFlywheel_only | apply State.bump_only | apply State.correct_only | split | dsimp only

theorem State.setOffset16_only {ps : List Part} {s₀ s : State} {x : Int} (h : Only ps s₀ s)
    (hp : Parts [.regs] ps) : Only ps s₀ (State.setOffset16 s x) := by
  unfold State.setOffset16
  repeat' with_reducible first
    | exact h | exact Parts.trans (by decide) hp | intro _ | assumption | apply State.wr_only | split | dsimp only

theorem State.newOffset_only {ps : List Part} {s₀ s : State} {x : Int} (h : Only ps s₀ s)
    (hp : Parts [.regs, .tmp] ps) : Only ps s₀ (State.newOffset s x) := by
  unfold State.newOffset
  repeat' with_reducible first
    | exact h | exact Parts.trans (by decide) hp | intro _ | assumption | apply State.setOffset16_only
    | apply State.correct_only | split | dsimp only

theorem State.learn_only {ps : List Part} {s₀ s : State} {x : Int} (h : Only ps s₀ s)
    (hp : Parts [.regs, .units, .gen, .ring, .ev, .tmp, .tx, .ttb, .coh, .bkp, .mem, .trace] ps) : Only ps s₀ (State.learn s x) := by
  unfold State.learn
  repeat' with_reducible first
    | exact h | exact Parts.trans (by decide) hp | intro _ | assumption | apply Only.ite | apply State.bump_only
    | apply State.tempoRecord_only | apply State.newOffset_only | apply State.setTmp_only
    | apply State.setAligned_only | apply State.put_only | split | dsimp only

theorem State.tempoFlags_only {ps : List Part} {s₀ s : State} {old new : Nat} (h : Only ps s₀ s)
    (hp : Parts [.regs, .tmp] ps) : Only ps s₀ (State.tempoFlags s old new) := by
  unfold State.tempoFlags
  repeat' with_reducible first
    | exact h | exact Parts.trans (by decide) hp | intro _ | assumption | apply Only.ite | apply State.wr_only
    | apply State.setUncert_only | apply State.setTmp_only | apply State.put_only | split | dsimp only

theorem State.tempoGo_only {ps : List Part} {s₀ s : State} {new : Nat} (h : Only ps s₀ s)
    (hp : Parts [.regs, .units, .env, .gen, .ring, .mail, .ev, .tmp, .tx, .ttb, .coh, .bkp, .mem, .trace] ps) : Only ps s₀ (State.tempoGo s new) := by
  unfold State.tempoGo
  repeat' with_reducible first
    | exact h | exact Parts.trans (by decide) hp | intro _ | assumption | rw [lit_bkp] | rw [lit_ttb] | apply Only.ite
    | apply State.tempoUnusable_only | apply State.envBreak_only | apply State.tempoBack_only
    | apply State.tempoRecord_only | apply State.emit_only | apply State.tracePacket_only
    | apply State.envRestore_only | apply State.tempoFlags_only | refine State.with_ttb_only ?_ ?_
    | refine State.with_bkp_only ?_ ?_ id | refine Only.fst (by assumption) ?_ | refine Only.snd (by assumption) ?_
    | split | dsimp only

theorem State.takeBell_only {ps : List Part} {s₀ s : State} {l b rate : Nat} (h : Only ps s₀ s)
    (hp : Parts [.regs, .units, .env, .gen, .ring, .mail, .ev, .tmp, .tx, .ttb, .coh, .bkp, .mem, .trace] ps) : Only ps s₀ (State.takeBell s l b rate) := by
  unfold State.takeBell
  repeat' with_reducible first
    | exact h | exact Parts.trans (by decide) hp | intro _ | assumption | apply Only.ite | apply State.wr_only
    | apply State.correct_only | apply State.tempoRecord_only | apply State.tracePacket_only | apply State.learn_only
    | apply State.tempoGo_only | apply State.takenInFlywheel_only | apply State.setTmp_only | apply State.put_only
    | split | dsimp only

theorem State.loseLock_only {ps : List Part} {s₀ s : State} (h : Only ps s₀ s)
    (hp : Parts [.regs, .units, .env, .gen, .ring, .mail, .ev, .tmp, .tx, .ttb, .coh, .bkp, .mem, .trace] ps) : Only ps s₀ (State.loseLock s) := by
  unfold State.loseLock
  repeat' with_reducible first
    | exact h | exact Parts.trans (by decide) hp | intro _ | assumption | apply Only.ite | apply State.tempoGo_only
    | split | dsimp only

theorem State.stopStages_only {ps : List Part} {s₀ s : State} (h : Only ps s₀ s)
    (hp : Parts [.regs] ps) : Only ps s₀ (State.stopStages s) := by
  unfold State.stopStages
  repeat' with_reducible first
    | exact h | exact Parts.trans (by decide) hp | intro _ | assumption | apply State.wr_only | apply State.put_only
    | split | dsimp only

theorem State.tempoStart_only {ps : List Part} {s₀ s : State} (h : Only ps s₀ s)
    (hp : Parts [.regs, .units, .env, .gen, .ring, .mail, .ev, .tmp, .tx, .ttb, .coh, .bkp, .mem, .trace] ps) : Only ps s₀ (State.tempoStart s) := by
  unfold State.tempoStart
  repeat' with_reducible first
    | exact h | exact Parts.trans (by decide) hp | intro _ | assumption | apply Only.ite | apply State.wr_only
    | apply State.envBreak_only | apply State.setOffset16_only | apply State.tempoGo_only | apply State.setUncert_only
    | apply State.setTmp_only | apply State.setAligned_only | apply State.put_only | split | dsimp only

theorem State.keeperTake_only {ps : List Part} {s₀ s : State} (h : Only ps s₀ s)
    (hp : Parts [.bkp] ps) : Only ps s₀ (State.keeperTake s) := by
  unfold State.keeperTake
  repeat' with_reducible first
    | exact h | exact Parts.trans (by decide) hp | intro _ | assumption | rw [lit_bkp]
    | refine State.with_bkp_only ?_ ?_ id | split | dsimp only

theorem State.moveTempo_only {ps : List Part} {s₀ s : State} {da dl : Int} {jump : Bool} (h : Only ps s₀ s)
    (hp : Parts [.regs, .units, .gen, .ring, .ev, .tmp, .tx, .ttb, .coh, .bkp, .mem, .trace] ps) : Only ps s₀ (State.moveTempo s da dl jump) := by
  unfold State.moveTempo
  repeat' with_reducible first
    | exact h | exact Parts.trans (by decide) hp | intro _ | assumption | rw [lit_ttb] | apply Only.ite
    | apply State.tracePacket_only | apply State.alarmsSkipped_only | apply State.replaceAll_only
    | apply State.setTmp_only | refine State.with_ttb_only ?_ ?_ | split | dsimp only

theorem State.applyCorrections_only {ps : List Part} {s₀ s : State} (h : Only ps s₀ s)
    (hp : Parts [.regs, .units, .gen, .ring, .ev, .tmp, .tx, .ttb, .coh, .bkp, .mem, .trace] ps) : Only ps s₀ (State.applyCorrections s) := by
  unfold State.applyCorrections
  repeat' with_reducible first
    | exact h | exact Parts.trans (by decide) hp | intro _ | assumption | apply Only.ite
    | refine Only.foldl (fun _ _ _ => ?_) ?_ | refine Only.foldl_fst (fun _ _ _ => ?_) ?_ | apply State.moveTempo_only
    | apply State.wr_only | apply State.tempoRecord_only | apply State.setTmp_only | apply State.put_only | split
    | dsimp only

theorem State.coarseCount_only {ps : List Part} {s₀ s : State} (h : Only ps s₀ s)
    (hp : Parts [.tmp] ps) : Only ps s₀ (State.coarseCount s) := by
  unfold State.coarseCount
  repeat' with_reducible first
    | exact h | exact Parts.trans (by decide) hp | intro _ | assumption | apply State.setTmp_only | split | dsimp only

theorem State.setPresent_only {ps : List Part} {s₀ s : State} {b : Bool} (h : Only ps s₀ s)
    (hp : Parts [.regs, .ev, .trace] ps) : Only ps s₀ (State.setPresent s b) := by
  unfold State.setPresent
  repeat' with_reducible first
    | exact h | exact Parts.trans (by decide) hp | intro _ | assumption | apply Only.ite | apply State.emit_only
    | apply State.put_only | split | dsimp only

theorem State.vqPost_only {ps : List Part} {s₀ s : State} {e : VqEvent} (h : Only ps s₀ s)
    (hp : Parts [.regs, .units, .ring, .coh, .bkp, .mem] ps) : Only ps s₀ (State.vqPost s e) := by
  unfold State.vqPost
  repeat' with_reducible first
    | exact h | exact Parts.trans (by decide) hp | intro _ | assumption | apply State.postRecord_only | split
    | dsimp only

theorem State.vqKind_only {ps : List Part} {s₀ s : State} {rms thd mhz kind : Nat} (h : Only ps s₀ s)
    (hp : Parts [.regs, .units, .ring, .tmp, .coh, .bkp, .mem] ps) : Only ps s₀ (State.vqKind s rms thd mhz kind) := by
  unfold State.vqKind
  repeat' with_reducible first
    | exact h | exact Parts.trans (by decide) hp | intro _ | assumption | apply Only.ite | apply State.vqPost_only
    | apply State.setTmp_only | split | dsimp only

theorem State.vqCycle_only {ps : List Part} {s₀ s : State} {rms thd mhz : Nat} (h : Only ps s₀ s)
    (hp : Parts [.regs, .units, .ring, .tmp, .coh, .bkp, .mem] ps) : Only ps s₀ (State.vqCycle s rms thd mhz) := by
  unfold State.vqCycle
  repeat' with_reducible first
    | exact h | exact Parts.trans (by decide) hp | intro _ | assumption | apply Only.ite
    | refine Only.foldl (fun _ _ _ => ?_) ?_ | refine Only.foldl_fst (fun _ _ _ => ?_) ?_ | apply State.vqKind_only
    | apply State.setTmp_only | split | dsimp only

theorem State.fineLock_only {ps : List Part} {s₀ s : State} (h : Only ps s₀ s)
    (hp : Parts [.regs, .units, .env, .gen, .ring, .mail, .ev, .tmp, .tx, .ttb, .coh, .bkp, .mem, .trace] ps) : Only ps s₀ (State.fineLock s) := by
  unfold State.fineLock
  repeat' with_reducible first
    | exact h | exact Parts.trans (by decide) hp | intro _ | assumption | apply Only.ite
    | apply State.setOffset16_only | apply State.replaceAll_only | apply State.tempoGo_only | apply State.setTmp_only
    | apply State.put_only | split | dsimp only

theorem State.lockStage_only {ps : List Part} {s₀ s : State} {present : Bool} {phase : Int} (h : Only ps s₀ s)
    (hp : Parts [.regs, .units, .env, .gen, .ring, .mail, .ev, .tmp, .tx, .ttb, .coh, .bkp, .mem, .trace] ps) : Only ps s₀ (State.lockStage s present phase) := by
  unfold State.lockStage
  repeat' with_reducible first
    | exact h | exact Parts.trans (by decide) hp | intro _ | assumption | apply Only.ite | apply State.wr_only
    | apply State.stopStages_only | apply State.fineLock_only | apply State.tempoGo_only | apply State.setTmp_only
    | apply State.coarseCount_only | apply State.put_only | split | dsimp only

theorem State.stepCheck_only {ps : List Part} {s₀ s : State} {present : Bool} (h : Only ps s₀ s)
    (hp : Parts [.regs, .units, .ring, .coh, .bkp, .mem] ps) : Only ps s₀ (State.stepCheck s present) := by
  unfold State.stepCheck
  repeat' with_reducible first
    | exact h | exact Parts.trans (by decide) hp | intro _ | assumption | apply Only.ite | apply State.wr_only
    | apply State.setCoh_only | apply State.cohRecord_only | split | dsimp only

theorem State.crossing_only {ps : List Part} {s₀ s : State} {rms thd mhz : Nat} {phase : Int} (h : Only ps s₀ s)
    (hp : Parts [.regs, .units, .env, .gen, .ring, .mail, .ev, .tmp, .tx, .ttb, .coh, .bkp, .mem, .trace] ps) : Only ps s₀ (State.crossing s rms thd mhz phase) := by
  unfold State.crossing
  repeat' with_reducible first
    | exact h | exact Parts.trans (by decide) hp | intro _ | assumption | apply Only.ite | apply State.wr_only
    | apply State.setPresent_only | apply State.vqCycle_only | apply State.lockStage_only | apply State.tempoGo_only
    | apply State.loseLock_only | apply State.progress_only | apply State.setTmp_only | apply State.stepCheck_only
    | apply State.put_only | split | dsimp only

theorem State.crossingTimeout_only {ps : List Part} {s₀ s : State} {rms : Nat} (h : Only ps s₀ s)
    (hp : Parts [.regs, .units, .env, .gen, .ring, .mail, .ev, .tmp, .tx, .ttb, .coh, .bkp, .mem, .trace] ps) : Only ps s₀ (State.crossingTimeout s rms) := by
  unfold State.crossingTimeout
  repeat' with_reducible first
    | exact h | exact Parts.trans (by decide) hp | intro _ | assumption | apply Only.ite | apply State.setPresent_only
    | apply State.vqCycle_only | apply State.stopStages_only | apply State.tempoGo_only | apply State.loseLock_only
    | apply State.setTmp_only | split | dsimp only

theorem State.growUncert_only {ps : List Part} {s₀ s : State} (h : Only ps s₀ s)
    (hp : Parts [.regs, .tmp] ps) : Only ps s₀ (State.growUncert s) := by
  unfold State.growUncert
  repeat' with_reducible first
    | exact h | exact Parts.trans (by decide) hp | intro _ | assumption | apply Only.ite | apply State.setUncert_only
    | split | dsimp only

theorem State.envCycle_only {ps : List Part} {s₀ s : State} (h : Only ps s₀ s)
    (hp : Parts [.regs, .units, .env, .mail, .ev, .trace] ps) : Only ps s₀ (State.envCycle s) := by
  unfold State.envCycle
  repeat' with_reducible first
    | exact h | exact Parts.trans (by decide) hp | intro _ | assumption | rw [lit_env]
    | refine Only.foldl (fun _ _ _ => ?_) ?_ | refine Only.foldl_fst (fun _ _ _ => ?_) ?_ | apply State.envWrite_only
    | refine State.with_env_only ?_ ?_ id | refine State.with_env_only ?_ ?_ (Store.wf_setBytes _ _) | split
    | dsimp only

theorem State.vqSilent_only {ps : List Part} {s₀ s : State} (h : Only ps s₀ s)
    (hp : Parts [.tmp] ps) : Only ps s₀ (State.vqSilent s) := by
  unfold State.vqSilent
  repeat' with_reducible first
    | exact h | exact Parts.trans (by decide) hp | intro _ | assumption | apply State.setTmp_only | split | dsimp only

theorem State.cycleStart_only {ps : List Part} {s₀ s : State} (h : Only ps s₀ s)
    (hp : Parts [.regs, .units, .env, .mail, .ev, .tmp, .coh, .trace] ps) : Only ps s₀ (State.cycleStart s) := by
  unfold State.cycleStart
  repeat' with_reducible first
    | exact h | exact Parts.trans (by decide) hp | intro _ | assumption | apply Only.ite | apply State.growUncert_only
    | apply State.issue_only | apply State.tracePacket_only | apply State.envCycle_only | apply State.progress_only
    | apply State.vqSilent_only | apply State.setTmp_only | split | dsimp only

theorem State.flywheelLimit_only {ps : List Part} {s₀ s : State} (h : Only ps s₀ s)
    (hp : Parts [.regs, .units, .env, .gen, .ring, .mail, .ev, .tmp, .tx, .ttb, .coh, .bkp, .mem, .trace] ps) : Only ps s₀ (State.flywheelLimit s) := by
  unfold State.flywheelLimit
  repeat' with_reducible first
    | exact h | exact Parts.trans (by decide) hp | intro _ | assumption | apply Only.ite | apply State.stopStages_only
    | apply State.tempoGo_only | split | dsimp only

theorem State.tempoLatch_only {ps : List Part} {s₀ s : State} {aligned : Bool} (h : Only ps s₀ s)
    (hp : Parts [.regs] ps) : Only ps s₀ (State.tempoLatch s aligned).1 := by
  unfold State.tempoLatch
  repeat' with_reducible first
    | exact h | exact Parts.trans (by decide) hp | intro _ | assumption | apply Only.ite | apply State.wr_only
    | refine Only.fst (by assumption) ?_ | refine Only.snd (by assumption) ?_ | split | dsimp only

theorem State.lockTimeout_only {ps : List Part} {s₀ s : State} (h : Only ps s₀ s)
    (hp : Parts [.regs, .units, .ring, .tmp, .coh, .bkp, .mem] ps) : Only ps s₀ (State.lockTimeout s) := by
  unfold State.lockTimeout
  repeat' with_reducible first
    | exact h | exact Parts.trans (by decide) hp | intro _ | assumption | apply Only.ite | apply State.wr_only
    | apply State.vqPost_only | apply State.setTmp_only | split | dsimp only

theorem State.msnCtl_only {ps : List Part} {s₀ s : State} {v : Nat} (h : Only ps s₀ s)
    (hp : Parts [.regs, .units, .env, .gen, .ring, .mail, .ev, .tmp, .tx, .ttb, .coh, .bkp, .mem, .trace] ps) : Only ps s₀ (State.msnCtl s v) := by
  unfold State.msnCtl
  repeat' with_reducible first
    | exact h | exact Parts.trans (by decide) hp | intro _ | assumption | apply Only.ite | apply State.wr_only
    | apply State.setPresent_only | apply State.stopStages_only | apply State.tempoGo_only | apply State.loseLock_only
    | apply State.setTmp_only | apply State.put_only | split | dsimp only

theorem State.tempoCfg_only {ps : List Part} {s₀ s : State} {v : Nat} (h : Only ps s₀ s)
    (hp : Parts [.regs, .units, .gen, .ring, .ev, .tmp, .tx, .ttb, .coh, .bkp, .mem, .trace] ps) : Only ps s₀ (State.tempoCfg s v) := by
  unfold State.tempoCfg
  repeat' with_reducible first
    | exact h | exact Parts.trans (by decide) hp | intro _ | assumption | apply Only.ite | apply State.wr_only
    | apply State.setOffset16_only | apply State.setTmp_only | apply State.setAligned_only | apply State.put_only
    | split | dsimp only

theorem State.setCycle_only {ps : List Part} {s₀ s : State} {hi : Nat} (h : Only ps s₀ s)
    (hp : Parts [.tmp] ps) : Only ps s₀ (State.setCycle s hi) := by
  unfold State.setCycle
  repeat' with_reducible first
    | exact h | exact Parts.trans (by decide) hp | intro _ | assumption | apply Only.ite
    | refine Only.foldl (fun _ _ _ => ?_) ?_ | refine Only.foldl_fst (fun _ _ _ => ?_) ?_ | apply State.correct_only
    | split | dsimp only

theorem State.tempoAlarmCtl_only {ps : List Part} {s₀ s : State} {n v : Nat} (h : Only ps s₀ s)
    (hp : Parts [.regs, .units, .ring, .ev, .tmp, .coh, .bkp, .mem, .trace] ps) : Only ps s₀ (State.tempoAlarmCtl s n v) := by
  unfold State.tempoAlarmCtl
  repeat' with_reducible first
    | exact h | exact Parts.trans (by decide) hp | intro _ | assumption | apply Only.ite
    | apply State.tempoAlarmFired_only | apply State.setTmp_only | apply State.put_only
    | refine Only.fst (by assumption) ?_ | refine Only.snd (by assumption) ?_ | split | dsimp only

theorem State.tempoAlarmReach_only {ps : List Part} {s₀ s : State} {n : Nat} (h : Only ps s₀ s)
    (hp : Parts [.regs, .units, .ring, .ev, .tmp, .coh, .bkp, .mem, .trace] ps) : Only ps s₀ (State.tempoAlarmReach s n) := by
  unfold State.tempoAlarmReach
  repeat' with_reducible first
    | exact h | exact Parts.trans (by decide) hp | intro _ | assumption | apply Only.ite | apply State.wakeSeen_only
    | apply State.tempoAlarmFired_only | split | dsimp only

theorem State.uncertGuard_only {ps : List Part} {s₀ s : State} (h : Only ps s₀ s)
    (hp : Parts [.regs, .units, .ring, .tmp, .coh, .bkp, .mem] ps) : Only ps s₀ (State.uncertGuard s) := by
  unfold State.uncertGuard
  repeat' with_reducible first
    | exact h | exact Parts.trans (by decide) hp | intro _ | assumption | apply Only.ite
    | apply State.tempoRecord_only | apply State.setTmp_only | split | dsimp only

end Sys2Proof.Machine
end

