-- ==== Sys2Proof/Laws/OnlyTimetable.lean ====
section
/-!
SUPPORT. What each operation of Machine/Timetable.lean leaves alone.
-/

namespace Sys2Proof.Machine

theorem State.moveTrack_only {ps : List Part} {s₀ s : State} {src : Nat} (h : Only ps s₀ s)
    (hp : Parts [.regs, .units, .ring, .ev, .ttb, .coh, .bkp, .mem, .trace] ps) : Only ps s₀ (State.moveTrack s src) := by
  unfold State.moveTrack
  repeat' with_reducible first
    | exact h | exact Parts.trans (by decide) hp | intro _ | assumption | apply Only.ite | apply State.wr_only
    | apply State.enterReentry_only | apply State.ttbRecord_only | split | dsimp only

theorem State.presence_only {ps : List Part} {s₀ s : State} {g k : Nat} (h : Only ps s₀ s)
    (hp : Parts [.regs, .units, .ring, .ev, .ctx, .ttb, .coh, .bkp, .mem, .trace] ps) : Only ps s₀ (State.presence s g k) := by
  unfold State.presence
  repeat' with_reducible first
    | exact h | exact Parts.trans (by decide) hp | intro _ | assumption | apply Only.ite | apply State.ctxPut_only
    | apply State.ttbRecord_only | apply State.moveTrack_only | split | dsimp only

theorem State.endReentry_only {ps : List Part} {s₀ s : State} {k : Nat} (h : Only ps s₀ s)
    (hp : Parts [.regs, .units, .ring, .coh, .bkp, .mem] ps) : Only ps s₀ (State.endReentry s k) := by
  unfold State.endReentry
  repeat' with_reducible first
    | exact h | exact Parts.trans (by decide) hp | intro _ | assumption | apply Only.ite | apply State.ttbRecord_only
    | apply State.put_only | split | dsimp only

theorem State.setTtb_only {ps : List Part} {s₀ s : State} {f : TtbState → TtbState} (h : Only ps s₀ s)
    (hp : Parts [.ttb] ps) : Only ps s₀ (State.setTtb s f) := by
  unfold State.setTtb
  repeat' with_reducible first
    | exact h | exact Parts.trans (by decide) hp | intro _ | assumption | rw [lit_ttb]
    | refine State.with_ttb_only ?_ ?_ | split | dsimp only

theorem State.bellReceived_only {ps : List Part} {s₀ s : State} {g k l : Nat} {p : List Byte} (h : Only ps s₀ s)
    (hp : Parts [.regs, .units, .env, .gen, .ring, .mail, .ev, .ctx, .tmp, .tx, .ttb, .coh, .bkp, .mem, .trace] ps) : Only ps s₀ (State.bellReceived s g k l p) := by
  unfold State.bellReceived
  repeat' with_reducible first
    | exact h | exact Parts.trans (by decide) hp | intro _ | assumption | apply Only.ite | apply State.wr_only
    | apply State.ttbRecord_only | apply State.bump_only | apply State.presence_only | apply State.emit_only
    | apply State.endReentry_only | apply State.setTtb_only | apply State.takeBell_only | split | dsimp only

theorem State.bumpAbsents_only {ps : List Part} {s₀ s : State} {g k : Nat} (h : Only ps s₀ s)
    (hp : Parts [.ctx] ps) : Only ps s₀ (State.bumpAbsents s g k) := by
  unfold State.bumpAbsents
  repeat' with_reducible first
    | exact h | exact Parts.trans (by decide) hp | intro _ | assumption | apply State.ctxPut_only | split | dsimp only

theorem State.sourceLost_only {ps : List Part} {s₀ s : State} {k : Nat} (h : Only ps s₀ s)
    (hp : Parts [.regs, .units, .ring, .ev, .ttb, .coh, .bkp, .mem, .trace] ps) : Only ps s₀ (State.sourceLost s k) := by
  unfold State.sourceLost
  repeat' with_reducible first
    | exact h | exact Parts.trans (by decide) hp | intro _ | assumption | apply Only.ite | apply State.moveTrack_only
    | split | dsimp only

theorem State.gaspReceived_only {ps : List Part} {s₀ s : State} {g k ctr : Nat} {payload : List Byte} (h : Only ps s₀ s)
    (hp : Parts [.regs, .units, .ring, .ev, .ctx, .ttb, .coh, .bkp, .mem, .trace] ps) : Only ps s₀ (State.gaspReceived s g k ctr payload) := by
  unfold State.gaspReceived
  repeat' with_reducible first
    | exact h | exact Parts.trans (by decide) hp | intro _ | assumption | apply State.bumpAbsents_only
    | apply State.ctxPut_only | apply State.ttbRecord_only | apply State.presence_only | apply State.sourceLost_only
    | split | dsimp only

theorem State.bellSeal_only {ps : List Part} {s₀ s : State} {i : Nat} (h : Only ps s₀ s)
    (hp : Parts [.regs, .units, .gen, .ring, .cip, .ctx, .tx, .ttb, .coh, .bkp, .mem, .trace] ps) : Only ps s₀ (State.bellSeal s i) := by
  unfold State.bellSeal
  repeat' with_reducible first
    | exact h | exact Parts.trans (by decide) hp | intro _ | assumption | rw [lit_tx] | apply Only.ite
    | apply State.linkCcm_only | apply State.takeCounter_only | apply State.setTtb_only | apply State.bump_only
    | apply State.submitTx_only | refine State.with_tx_only ?_ ?_ | refine Only.fst (by assumption) ?_
    | refine Only.snd (by assumption) ?_ | split | dsimp only

theorem State.timetableSwitched_only {ps : List Part} {s₀ s : State} (h : Only ps s₀ s)
    (hp : Parts [.regs, .units, .ring, .ev, .ttb, .coh, .bkp, .mem, .trace] ps) : Only ps s₀ (State.timetableSwitched s) := by
  unfold State.timetableSwitched
  repeat' with_reducible first
    | exact h | exact Parts.trans (by decide) hp | intro _ | assumption | apply State.setTtb_only
    | apply State.moveTrack_only | split | dsimp only

theorem State.gaspDecide_only {ps : List Part} {s₀ s : State} (h : Only ps s₀ s)
    (hp : Parts [.regs, .units, .gen, .ring, .tx, .ttb] ps) : Only ps s₀ (State.gaspDecide s) := by
  unfold State.gaspDecide
  repeat' with_reducible first
    | exact h | exact Parts.trans (by decide) hp | intro _ | assumption | rw [lit_tx] | apply Only.ite
    | apply State.placeAll_only | apply State.setTtb_only | apply State.abandonSlice_only
    | refine State.with_tx_only ?_ ?_ | split | dsimp only

theorem State.gaspSent_only {ps : List Part} {s₀ s : State} (h : Only ps s₀ s)
    (hp : Parts [.regs, .units, .ring, .ctx, .tx, .ttb, .coh, .bkp, .mem] ps) : Only ps s₀ (State.gaspSent s) := by
  unfold State.gaspSent
  repeat' with_reducible first
    | exact h | exact Parts.trans (by decide) hp | intro _ | assumption | apply Only.ite | apply State.ttbRecord_only
    | apply State.gaspDisarm_only | apply State.ctxPut_only | apply State.setCtxFlag_only | apply State.dropTx_only
    | apply State.put_only | split | dsimp only

theorem State.lgArm_only {ps : List Part} {s₀ s : State} {w : Work} (h : Only ps s₀ s)
    (hp : Parts [.ring, .cip, .ttb, .trace] ps) : Only ps s₀ (State.lgArm s w) := by
  unfold State.lgArm
  repeat' with_reducible first
    | exact h | exact Parts.trans (by decide) hp | intro _ | assumption | apply State.decide__only
    | apply State.gaspCost_only | apply State.setTtb_only | split | dsimp only

theorem State.lgWork_only {ps : List Part} {s₀ s : State} {idx : Nat} {b : Bool} {k : Work → State → State} (h : Only ps s₀ s)
    (hp : Parts [.ring] ps) (hf : ∀ x0 t, Only ps s₀ t → Only ps s₀ (k x0 t)) : Only ps s₀ (State.lgWork s idx b k) := by
  unfold State.lgWork
  repeat' with_reducible first
    | exact h | exact Parts.trans (by decide) hp | intro _ | assumption | apply Only.ite | apply hf
    | apply State.runWork_only | split | dsimp only

theorem State.partnerAbsent_only {ps : List Part} {s₀ s : State} {k : Nat} (h : Only ps s₀ s)
    (hp : Parts [.regs, .units, .ring, .ev, .ctx, .ttb, .coh, .bkp, .mem, .trace] ps) : Only ps s₀ (State.partnerAbsent s k) := by
  unfold State.partnerAbsent
  repeat' with_reducible first
    | exact h | exact Parts.trans (by decide) hp | intro _ | assumption | apply Only.ite
    | apply State.bumpAbsents_only | apply State.ctxPut_only | apply State.ttbRecord_only | apply State.emit_only
    | apply State.sourceLost_only | split | dsimp only

theorem State.trackSelect_only {ps : List Part} {s₀ s : State} {v : Nat} (h : Only ps s₀ s)
    (hp : Parts [.regs, .units, .ring, .ev, .ttb, .coh, .bkp, .mem, .trace] ps) : Only ps s₀ (State.trackSelect s v) := by
  unfold State.trackSelect
  repeat' with_reducible first
    | exact h | exact Parts.trans (by decide) hp | intro _ | assumption | apply Only.ite | apply State.moveTrack_only
    | split | dsimp only

theorem State.slotEnd_only {ps : List Part} {s₀ s : State} {i floor : Nat} (h : Only ps s₀ s)
    (hp : Parts [.regs, .ttb] ps) : Only ps s₀ (State.slotEnd s i floor) := by
  unfold State.slotEnd
  repeat' with_reducible first
    | exact h | exact Parts.trans (by decide) hp | intro _ | assumption | apply Only.ite | apply State.wr_only
    | apply State.setTtb_only | split | dsimp only

theorem State.slotStart_only {ps : List Part} {s₀ s : State} {i : Nat} (h : Only ps s₀ s)
    (hp : Parts [.regs, .ev, .ttb, .trace] ps) : Only ps s₀ (State.slotStart s i) := by
  unfold State.slotStart
  repeat' with_reducible first
    | exact h | exact Parts.trans (by decide) hp | intro _ | assumption | apply Only.ite | apply State.bump_only
    | apply State.emit_only | apply State.setTtb_only | split | dsimp only

theorem State.wakeEvent_only {ps : List Part} {s₀ s : State} {i : Nat} (h : Only ps s₀ s)
    (hp : Parts [.regs, .ev, .ttb, .trace] ps) : Only ps s₀ (State.wakeEvent s i) := by
  unfold State.wakeEvent
  repeat' with_reducible first
    | exact h | exact Parts.trans (by decide) hp | intro _ | assumption | apply Only.ite | apply State.emit_only
    | apply State.setTtb_only | split | dsimp only

theorem State.windowClose_only {ps : List Part} {s₀ s : State} {i : Nat} (h : Only ps s₀ s)
    (hp : Parts [.regs, .ev, .ttb, .trace] ps) : Only ps s₀ (State.windowClose s i) := by
  unfold State.windowClose
  repeat' with_reducible first
    | exact h | exact Parts.trans (by decide) hp | intro _ | assumption | apply State.emit_only
    | apply State.setTtb_only | split | dsimp only

theorem State.windowEvaluation_only {ps : List Part} {s₀ s : State} {i : Nat} (h : Only ps s₀ s)
    (hp : Parts [.regs, .units, .ring, .ev, .ttb, .coh, .bkp, .mem, .trace] ps) : Only ps s₀ (State.windowEvaluation s i) := by
  unfold State.windowEvaluation
  repeat' with_reducible first
    | exact h | exact Parts.trans (by decide) hp | intro _ | assumption | apply Only.ite | apply State.wr_only
    | apply State.enterReentry_only | apply State.setTtb_only | split | dsimp only

end Sys2Proof.Machine
end

