-- ==== Sys2Proof/Laws/OnlyLink.lean ====
section
/-!
SUPPORT. What each operation of Machine/Link.lean leaves alone.
-/

namespace Sys2Proof.Machine

theorem State.average_only {ps : List Part} {s₀ s : State} {g k off n : Nat} {x : Int} (h : Only ps s₀ s)
    (hp : Parts [.ctx, .free] ps) : Only ps s₀ (State.average s g k off n x) := by
  unfold State.average
  repeat' with_reducible first
    | exact h | exact Parts.trans (by decide) hp | intro _ | assumption | apply Only.ite | apply State.ctxPut_only
    | apply State.free_only | refine Only.fst (by assumption) ?_ | refine Only.snd (by assumption) ?_ | split
    | dsimp only

theorem State.rxSync_only {ps : List Part} {s₀ s : State} {g k : Nat} (h : Only ps s₀ s)
    (hp : Parts [.units, .coh] ps) : Only ps s₀ (State.rxSync s g k) := by
  unfold State.rxSync
  repeat' with_reducible first
    | exact h | exact Parts.trans (by decide) hp | intro _ | assumption | apply Only.ite | apply State.issue_only
    | split | dsimp only

theorem State.acceptFrom_only {ps : List Part} {s₀ s : State} {g k : Nat} {f : RxFrame} {h_ : LinkFrame} (h : Only ps s₀ s)
    (hp : Parts [.regs, .units, .ctx, .coh, .free] ps) : Only ps s₀ (State.acceptFrom s g k f h_) := by
  unfold State.acceptFrom
  repeat' with_reducible first
    | exact h | exact Parts.trans (by decide) hp | intro _ | assumption | apply Only.ite | apply State.bump_only
    | apply State.average_only | apply State.rxSync_only | apply State.ctxPut_only | apply State.setCtxFlag_only
    | split | dsimp only

theorem State.retryTx_only {ps : List Part} {s₀ s : State} {x : Tx} {keep : Bool} (h : Only ps s₀ s)
    (hp : Parts [.regs, .units, .gen, .ring, .ctx, .tx] ps) : Only ps s₀ (State.retryTx s x keep) := by
  unfold State.retryTx
  repeat' with_reducible first
    | exact h | exact Parts.trans (by decide) hp | intro _ | assumption | rw [lit_tx] | apply Only.ite
    | apply State.placeAll_only | apply State.finishTx_only | apply State.ctxPut_only | apply State.updTx_only
    | apply State.putAckst_only | apply State.bump_only | refine State.with_tx_only ?_ ?_ | split | dsimp only

theorem State.ackCorrection_only {ps : List Part} {s₀ s : State} {x : Tx} {a : AckPay} (h : Only ps s₀ s)
    (hp : Parts [.regs, .units, .gen, .ring, .ev, .tmp, .tx, .ttb, .coh, .bkp, .mem, .trace] ps) : Only ps s₀ (State.ackCorrection s x a) := by
  unfold State.ackCorrection
  repeat' with_reducible first
    | exact h | exact Parts.trans (by decide) hp | intro _ | assumption | apply Only.ite
    | apply State.takeAckCorrection_only | apply State.bump_only | split | dsimp only

theorem State.ackReceived_only {ps : List Part} {s₀ s : State} {id : Nat} {p : List Byte} (h : Only ps s₀ s)
    (hp : Parts [.regs, .units, .gen, .ring, .ev, .ctx, .tmp, .tx, .ttb, .coh, .bkp, .mem, .trace] ps) : Only ps s₀ (State.ackReceived s id p) := by
  unfold State.ackReceived
  repeat' with_reducible first
    | exact h | exact Parts.trans (by decide) hp | intro _ | assumption | rw [lit_tx] | apply Only.ite
    | apply State.finishTx_only | apply State.retryTx_only | apply State.ackCorrection_only
    | apply State.putAckst_only | apply State.bump_only | apply State.presence_only | refine State.with_tx_only ?_ ?_
    | split | dsimp only

theorem State.handOver_only {ps : List Part} {s₀ s : State} {g k : Nat} {f : RxFrame} {pay : List Byte} {buffer : Option Nat} {sets : Nat} (h : Only ps s₀ s)
    (hp : Parts [.units, .coh] ps) : Only ps s₀ (State.handOver s g k f pay buffer sets) := by
  unfold State.handOver
  repeat' with_reducible first
    | exact h | exact Parts.trans (by decide) hp | intro _ | assumption | apply Only.ite | apply State.issue_only
    | split | dsimp only

theorem State.sendAck_only {ps : List Part} {s₀ s : State} {f : RxFrame} {h_ : LinkFrame} {gen power : Nat} {keep reack : Bool} (h : Only ps s₀ s)
    (hp : Parts [.regs, .units, .gen, .ring, .tx, .ttb] ps) : Only ps s₀ (State.sendAck s f h_ gen power keep reack) := by
  unfold State.sendAck
  repeat' with_reducible first
    | exact h | exact Parts.trans (by decide) hp | intro _ | assumption | apply Only.ite | apply State.ackDecide_only
    | refine Only.fst (by assumption) ?_ | refine Only.snd (by assumption) ?_ | split | dsimp only

theorem State.deliver_only {ps : List Part} {s₀ s : State} {ring status : Nat} {f : RxFrame} {h_ : LinkFrame} {gen ctx dflags sets : Nat} {payload : List Byte} (h : Only ps s₀ s)
    (hp : Parts [.units, .ring, .coh, .bkp, .mem] ps) : Only ps s₀ (State.deliver s ring status f h_ gen ctx dflags sets payload) := by
  unfold State.deliver
  repeat' with_reducible first
    | exact h | exact Parts.trans (by decide) hp | intro _ | assumption | apply State.decideGen_only
    | apply State.healRange_only | apply State.setBytes_only | split | dsimp only

theorem State.deliverFrom_only {ps : List Part} {s₀ s : State} {ring g k : Nat} {f : RxFrame} {h_ : LinkFrame} {buffer : Option Nat} {sets : Nat} {p : List Byte} (h : Only ps s₀ s)
    (hp : Parts [.regs, .units, .ring, .ctx, .coh, .bkp, .mem] ps) : Only ps s₀ (State.deliverFrom s ring g k f h_ buffer sets p) := by
  unfold State.deliverFrom
  repeat' with_reducible first
    | exact h | exact Parts.trans (by decide) hp | intro _ | assumption | apply Only.ite | apply State.bump_only
    | apply State.ctxPut_only | apply State.deliver_only | split | dsimp only

theorem State.takePartner_only {ps : List Part} {s₀ s : State} {g k : Nat} {f : RxFrame} {h_ : LinkFrame} {buffer : Option Nat} {sets : Nat} {p : List Byte} (h : Only ps s₀ s)
    (hp : Parts [.regs, .units, .env, .gen, .ring, .mail, .ev, .ctx, .tmp, .tx, .ttb, .coh, .bkp, .mem, .trace, .free] ps) : Only ps s₀ (State.takePartner s g k f h_ buffer sets p).1 := by
  unfold State.takePartner
  repeat' with_reducible first
    | exact h | exact Parts.trans (by decide) hp | intro _ | assumption | apply Only.ite | apply State.bump_only
    | apply State.presence_only | apply State.acceptFrom_only | apply State.bellReceived_only
    | apply State.sendAck_only | apply State.gaspReceived_only | apply State.deliverFrom_only
    | refine Only.fst (by assumption) ?_ | refine Only.snd (by assumption) ?_ | split | dsimp only

theorem State.rejectFrame_only {ps : List Part} {s₀ s : State} {ring status : Nat} {f : RxFrame} {h_ : LinkFrame} {gen ctx dflags sets : Nat} (h : Only ps s₀ s)
    (hp : Parts [.regs, .units, .gen, .ring, .coh, .bkp, .mem] ps) : Only ps s₀ (State.rejectFrame s ring status f h_ gen ctx dflags sets) := by
  unfold State.rejectFrame
  repeat' with_reducible first
    | exact h | exact Parts.trans (by decide) hp | intro _ | assumption | apply Only.ite | apply State.bump_only
    | apply State.deliver_only | apply State.countMismatch_only | refine Only.fst (by assumption) ?_
    | refine Only.snd (by assumption) ?_ | split | dsimp only

theorem State.ackUnknown_only {ps : List Part} {s₀ s : State} {f : RxFrame} {h_ : LinkFrame} {keep : Bool} (h : Only ps s₀ s)
    (hp : Parts [.regs, .units, .gen, .ring, .tx, .ttb, .coh] ps) : Only ps s₀ (State.ackUnknown s f h_ keep) := by
  unfold State.ackUnknown
  repeat' with_reducible first
    | exact h | exact Parts.trans (by decide) hp | intro _ | assumption | apply Only.ite | apply State.issue_only
    | apply State.sendAck_only | split | dsimp only

theorem State.micChecks_only {ps : List Part} {s₀ s : State} {g : Nat} {h_ : LinkFrame} {k long : Nat} (h : Only ps s₀ s)
    (hp : Parts [.ring, .cip, .trace] ps) : Only ps s₀ (State.micChecks s g h_ k long) := by
  unfold State.micChecks
  repeat' with_reducible first
    | exact h | exact Parts.trans (by decide) hp | intro _ | assumption | refine Only.foldl (fun _ _ _ => ?_) ?_
    | refine Only.foldl_fst (fun _ _ _ => ?_) ?_ | apply State.linkCcm_only | split | dsimp only

theorem State.takeUnknown_only {ps : List Part} {s₀ s : State} {f : RxFrame} {h_ : LinkFrame} {buffer : Option Nat} {sets : Nat} (h : Only ps s₀ s)
    (hp : Parts [.regs, .units, .gen, .ring, .cip, .tx, .ttb, .coh, .bkp, .mem, .trace] ps) : Only ps s₀ (State.takeUnknown s f h_ buffer sets).1 := by
  unfold State.takeUnknown
  repeat' with_reducible first
    | exact h | exact Parts.trans (by decide) hp | intro _ | assumption | apply Only.ite | apply State.bump_only
    | apply State.rejectFrame_only | apply State.ackUnknown_only | apply State.micChecks_only
    | apply State.deliver_only | refine Only.fst (by assumption) ?_ | refine Only.snd (by assumption) ?_ | split
    | dsimp only

theorem State.takeFrame_only {ps : List Part} {s₀ s : State} {f : RxFrame} {pay : List Byte} {buffer : Option Nat} {sets : Nat} (h : Only ps s₀ s)
    (hp : Parts [.regs, .units, .env, .gen, .ring, .mail, .ev, .cip, .ctx, .tmp, .tx, .ttb, .coh, .bkp, .mem, .trace, .free] ps) : Only ps s₀ (State.takeFrame s f pay buffer sets).1 := by
  unfold State.takeFrame
  repeat' with_reducible first
    | exact h | exact Parts.trans (by decide) hp | intro _ | assumption | apply Only.ite | apply State.bump_only
    | apply State.takePartner_only | apply State.presence_only | apply State.handOver_only | apply State.sendAck_only
    | apply State.rejectFrame_only | apply State.takeUnknown_only | apply State.progress_only
    | apply State.micChecks_only | refine Only.fst (by assumption) ?_ | refine Only.snd (by assumption) ?_ | split
    | dsimp only

theorem State.keepDecide_only {ps : List Part} {s₀ s : State} {f : RxFrame} {bits : List Byte} {buffer : Nat} (h : Only ps s₀ s)
    (hp : Parts [.regs, .units, .gen, .ring, .tx, .ttb, .coh] ps) : Only ps s₀ (State.keepDecide s f bits buffer).1 := by
  unfold State.keepDecide
  repeat' with_reducible first
    | exact h | exact Parts.trans (by decide) hp | intro _ | assumption | apply Only.ite | apply State.bump_only
    | apply State.issue_only | apply State.sendAck_only | apply State.ackUnknown_only
    | refine Only.fst (by assumption) ?_ | refine Only.snd (by assumption) ?_ | split | dsimp only

theorem State.blockTimeout_only {ps : List Part} {s₀ s : State} {ring idx : Nat} (h : Only ps s₀ s)
    (hp : Parts [.ring] ps) : Only ps s₀ (State.blockTimeout s ring idx) := by
  unfold State.blockTimeout
  repeat' with_reducible first
    | exact h | exact Parts.trans (by decide) hp | intro _ | assumption | apply Only.ite | apply State.decide__only
    | split | dsimp only

theorem State.ctxRead_only {ps : List Part} {s₀ s : State} {w : Work} (h : Only ps s₀ s)
    (hp : Parts [.units, .ring, .coh, .bkp, .mem] ps) : Only ps s₀ (State.ctxRead s w) := by
  unfold State.ctxRead
  repeat' with_reducible first
    | exact h | exact Parts.trans (by decide) hp | intro _ | assumption | apply Only.ite | apply State.decide__only
    | apply State.healRange_only | apply State.setBytes_only | split | dsimp only

theorem State.sealSend_only {ps : List Part} {s₀ s : State} {w : Work} {o : SendOp} (h : Only ps s₀ s)
    (hp : Parts [.regs, .units, .gen, .ring, .cip, .ctx, .tx, .ttb, .coh, .bkp, .mem, .trace] ps) : Only ps s₀ (State.sealSend s w o) := by
  unfold State.sealSend
  repeat' with_reducible first
    | exact h | exact Parts.trans (by decide) hp | intro _ | assumption | rw [lit_tx] | apply Only.ite
    | apply State.linkCcm_only | apply State.progress_only | apply State.takeCounter_only | apply State.ctxPut_only
    | apply State.putAckst_only | apply State.submitTx_only | apply State.updWork_only
    | refine State.with_tx_only ?_ ?_ | refine Only.fst (by assumption) ?_ | refine Only.snd (by assumption) ?_
    | split | dsimp only

theorem State.send_only {ps : List Part} {s₀ s : State} {w : Work} (h : Only ps s₀ s)
    (hp : Parts [.regs, .units, .gen, .ring, .cip, .ctx, .tx, .ttb, .coh, .bkp, .mem, .trace] ps) : Only ps s₀ (State.send s w) := by
  unfold State.send
  repeat' with_reducible first
    | exact h | exact Parts.trans (by decide) hp | intro _ | assumption | apply Only.ite | apply State.sealSend_only
    | apply State.decide__only | apply State.updWork_only | split | dsimp only

theorem State.resumeSends_only {ps : List Part} {s₀ s : State} {k : Nat} (h : Only ps s₀ s)
    (hp : Parts [.regs, .units, .gen, .ring, .cip, .ctx, .tx, .ttb, .coh, .bkp, .mem, .trace] ps) : Only ps s₀ (State.resumeSends s k) := by
  unfold State.resumeSends
  repeat' with_reducible first
    | exact h | exact Parts.trans (by decide) hp | intro _ | assumption | apply Only.ite
    | refine Only.foldl (fun _ _ _ => ?_) ?_ | refine Only.foldl_fst (fun _ _ _ => ?_) ?_ | apply State.send_only
    | split | dsimp only

theorem State.noAckOutcome_only {ps : List Part} {s₀ s : State} (h : Only ps s₀ s)
    (hp : Parts [.regs, .units, .gen, .ring, .ctx, .tx] ps) : Only ps s₀ (State.noAckOutcome s) := by
  unfold State.noAckOutcome
  repeat' with_reducible first
    | exact h | exact Parts.trans (by decide) hp | intro _ | assumption | apply State.progress_only
    | apply State.retryTx_only | split | dsimp only

theorem State.rxBuf_only {ps : List Part} {s₀ s : State} {w : Work} (h : Only ps s₀ s)
    (hp : Parts [.ring] ps) : Only ps s₀ (State.rxBuf s w) := by
  unfold State.rxBuf
  repeat' with_reducible first
    | exact h | exact Parts.trans (by decide) hp | intro _ | assumption | apply Only.ite | apply State.decide__only
    | apply State.updWork_only | split | dsimp only

end Sys2Proof.Machine
end

