-- ==== Sys2Proof/Laws/OnlyCapture.lean ====
section
/-!
SUPPORT. What each operation of Machine/Capture.lean leaves alone.
-/

namespace Sys2Proof.Machine

theorem State.setCap_only {ps : List Part} {s₀ s : State} {f : CapState → CapState} (h : Only ps s₀ s)
    (hp : Parts [.cap] ps) : Only ps s₀ (State.setCap s f) := by
  unfold State.setCap
  repeat' with_reducible first
    | exact h | exact Parts.trans (by decide) hp | intro _ | assumption | rw [lit_cap]
    | refine State.with_cap_only ?_ ?_ | split | dsimp only

theorem State.capSliceBack_only {ps : List Part} {s₀ s : State} (h : Only ps s₀ s)
    (hp : Parts [.cap] ps) : Only ps s₀ (State.capSliceBack s) := by
  unfold State.capSliceBack
  repeat' with_reducible first
    | exact h | exact Parts.trans (by decide) hp | intro _ | assumption | apply Only.ite | apply State.setCap_only
    | refine Only.fst (by assumption) ?_ | refine Only.snd (by assumption) ?_ | split | dsimp only

theorem State.setGain_only {ps : List Part} {s₀ s : State} {g : Nat} (h : Only ps s₀ s)
    (hp : Parts [.regs, .cap] ps) : Only ps s₀ (State.setGain s g) := by
  unfold State.setGain
  repeat' with_reducible first
    | exact h | exact Parts.trans (by decide) hp | intro _ | assumption | apply Only.ite | apply State.wr_only
    | apply State.setCap_only | split | dsimp only

theorem State.agcAttack_only {ps : List Part} {s₀ s : State} {peak4 : Int} {clip : Bool} (h : Only ps s₀ s)
    (hp : Parts [.regs, .cap] ps) : Only ps s₀ (State.agcAttack s peak4 clip) := by
  unfold State.agcAttack
  repeat' with_reducible first
    | exact h | exact Parts.trans (by decide) hp | intro _ | assumption | apply Only.ite | apply State.bump_only
    | apply State.setCap_only | apply State.setGain_only | apply State.put_only | split | dsimp only

theorem State.agcRelease_only {ps : List Part} {s₀ s : State} (h : Only ps s₀ s)
    (hp : Parts [.regs, .cap] ps) : Only ps s₀ (State.agcRelease s) := by
  unfold State.agcRelease
  repeat' with_reducible first
    | exact h | exact Parts.trans (by decide) hp | intro _ | assumption | apply Only.ite | apply State.setCap_only
    | apply State.setGain_only | apply State.put_only | split | dsimp only

theorem State.fillReceive_only {ps : List Part} {s₀ s : State} {i : Nat} (h : Only ps s₀ s)
    (hp : Parts [.tab, .free] ps) : Only ps s₀ (State.fillReceive s i) := by
  unfold State.fillReceive
  repeat' with_reducible first
    | exact h | exact Parts.trans (by decide) hp | intro _ | assumption | apply State.setCalRec_only
    | apply State.free_only | refine Only.fst (by assumption) ?_ | refine Only.snd (by assumption) ?_ | split
    | dsimp only

theorem State.capCtl_only {ps : List Part} {s₀ s : State} {v : Nat} (h : Only ps s₀ s)
    (hp : Parts [.regs, .cap] ps) : Only ps s₀ (State.capCtl s v) := by
  unfold State.capCtl
  repeat' with_reducible first
    | exact h | exact Parts.trans (by decide) hp | intro _ | assumption | apply Only.ite | apply State.wr_only
    | apply State.setGain_only | apply State.put_only | split | dsimp only

theorem State.flatnessDone_only {ps : List Part} {s₀ s : State} (h : Only ps s₀ s)
    (hp : Parts [.regs, .tab, .cap, .free] ps) : Only ps s₀ (State.flatnessDone s) := by
  unfold State.flatnessDone
  repeat' with_reducible first
    | exact h | exact Parts.trans (by decide) hp | intro _ | assumption | apply Only.ite
    | refine Only.foldl (fun _ _ _ => ?_) ?_ | refine Only.foldl_fst (fun _ _ _ => ?_) ?_ | apply State.setCap_only
    | apply State.fillReceive_only | apply State.put_only | split | dsimp only

theorem State.capItemDone_only {ps : List Part} {s₀ s : State} {i : Nat} {ok : Bool} (h : Only ps s₀ s)
    (hp : Parts [.regs, .tab, .cap, .free] ps) : Only ps s₀ (State.capItemDone s i ok) := by
  unfold State.capItemDone
  repeat' with_reducible first
    | exact h | exact Parts.trans (by decide) hp | intro _ | assumption | apply Only.ite | apply State.bump_only
    | apply State.unitFault_only | apply State.flatnessDone_only | apply State.wr_only | split | dsimp only

theorem State.capRequest_only {ps : List Part} {s₀ s : State} {v : Nat} (h : Only ps s₀ s)
    (hp : Parts [.cap] ps) : Only ps s₀ (State.capRequest s v) := by
  unfold State.capRequest
  repeat' with_reducible first
    | exact h | exact Parts.trans (by decide) hp | intro _ | assumption | apply Only.ite
    | refine Only.foldl (fun _ _ _ => ?_) ?_ | refine Only.foldl_fst (fun _ _ _ => ?_) ?_ | apply State.setCap_only
    | split | dsimp only

theorem State.capSliceEnd_only {ps : List Part} {s₀ s : State} {ok : Bool} (h : Only ps s₀ s)
    (hp : Parts [.regs, .units, .ev, .tab, .cap, .tx, .trace, .free] ps) : Only ps s₀ (State.capSliceEnd s ok) := by
  unfold State.capSliceEnd
  repeat' with_reducible first
    | exact h | exact Parts.trans (by decide) hp | intro _ | assumption | rw [lit_cap_tx] | rw [lit_tx] | rw [lit_cap]
    | apply Only.ite | apply State.setCap_only | apply State.capItemDone_only | apply State.emit_only
    | apply State.progress_only | refine State.with_cap_only ?_ ?_ | refine State.with_tx_only ?_ ?_ | split
    | dsimp only

theorem State.capSliceStart_only {ps : List Part} {s₀ s : State} (h : Only ps s₀ s)
    (hp : Parts [.regs, .cap, .ttb] ps) : Only ps s₀ (State.capSliceStart s) := by
  unfold State.capSliceStart
  repeat' with_reducible first
    | exact h | exact Parts.trans (by decide) hp | intro _ | assumption | apply Only.ite | apply State.bump_only
    | apply State.setCap_only | apply State.markBlank_only | refine Only.fst (by assumption) ?_
    | refine Only.snd (by assumption) ?_ | split | dsimp only

theorem State.dieTemperature_only {ps : List Part} {s₀ s : State} {temp : Int} (h : Only ps s₀ s)
    (hp : Parts [.regs, .tab, .cap] ps) : Only ps s₀ (State.dieTemperature s temp) := by
  unfold State.dieTemperature
  repeat' with_reducible first
    | exact h | exact Parts.trans (by decide) hp | intro _ | assumption | apply Only.ite
    | refine Only.foldl (fun _ _ _ => ?_) ?_ | refine Only.foldl_fst (fun _ _ _ => ?_) ?_ | apply State.wr_only
    | apply State.setCap_only | apply State.setCalBit_only | apply State.put_only | split | dsimp only

theorem State.recordStart_only {ps : List Part} {s₀ s : State} {w : Work} {gapless gap : Bool} (h : Only ps s₀ s)
    (hp : Parts [.ring, .cap] ps) : Only ps s₀ (State.recordStart s w gapless gap) := by
  unfold State.recordStart
  repeat' with_reducible first
    | exact h | exact Parts.trans (by decide) hp | intro _ | assumption | apply State.setCap_only
    | apply State.updWork_only | split | dsimp only

theorem State.recordBegin_only {ps : List Part} {s₀ s : State} {w : Work} {gapless : Bool} (h : Only ps s₀ s)
    (hp : Parts [.ring, .cap] ps) : Only ps s₀ (State.recordBegin s w gapless) := by
  unfold State.recordBegin
  repeat' with_reducible first
    | exact h | exact Parts.trans (by decide) hp | intro _ | assumption | apply Only.ite | apply State.decide__only
    | apply State.recordStart_only | split | dsimp only

theorem State.record_only {ps : List Part} {s₀ s : State} {w : Work} (h : Only ps s₀ s)
    (hp : Parts [.ring, .cap] ps) : Only ps s₀ (State.record s w) := by
  unfold State.record
  repeat' with_reducible first
    | exact h | exact Parts.trans (by decide) hp | intro _ | assumption | apply Only.ite | apply State.decide__only
    | apply State.updWork_only | apply State.recordBegin_only | split | dsimp only

theorem State.recordFinish_only {ps : List Part} {s₀ s : State} {phase : Nat} {l : List Sample} {status : Nat} {early : Bool} (h : Only ps s₀ s)
    (hp : Parts [.units, .ring, .cap, .coh, .bkp, .mem] ps) : Only ps s₀ (State.recordFinish s phase l status early) := by
  unfold State.recordFinish
  repeat' with_reducible first
    | exact h | exact Parts.trans (by decide) hp | intro _ | assumption | apply Only.ite
    | refine Only.foldl (fun _ _ _ => ?_) ?_ | refine Only.foldl_fst (fun _ _ _ => ?_) ?_ | apply State.setBytes_only
    | apply State.decide__only | apply State.setCap_only | apply State.healRange_only | apply State.recordBegin_only
    | split | dsimp only

theorem State.recordEnd_only {ps : List Part} {s₀ s : State} {phase : Nat} {l : List Sample} (h : Only ps s₀ s)
    (hp : Parts [.units, .ring, .cap, .coh, .bkp, .mem] ps) : Only ps s₀ (State.recordEnd s phase l) := by
  unfold State.recordEnd
  repeat' with_reducible first
    | exact h | exact Parts.trans (by decide) hp | intro _ | assumption | apply Only.ite
    | apply State.recordFinish_only | split | dsimp only

theorem State.recordStop_only {ps : List Part} {s₀ s : State} {w : Work} (h : Only ps s₀ s)
    (hp : Parts [.ring, .cap] ps) : Only ps s₀ (State.recordStop s w) := by
  unfold State.recordStop
  repeat' with_reducible first
    | exact h | exact Parts.trans (by decide) hp | intro _ | assumption | apply Only.ite | apply State.decide__only
    | apply State.setCap_only | apply State.updWork_only | split | dsimp only

end Sys2Proof.Machine
end

