-- ==== Sys2Proof/Laws/OnlyMemories.lean ====
section
/-!
SUPPORT. What each operation of Machine/Memories.lean leaves alone.
-/

namespace Sys2Proof.Machine

theorem State.norBegin_only {ps : List Part} {s₀ s : State} {o : NvmOp} (h : Only ps s₀ s)
    (hp : Parts [.regs, .units, .mem] ps) : Only ps s₀ (State.norBegin s o) := by
  unfold State.norBegin
  repeat' first
    | (with_reducible first
        | exact h | exact Parts.trans (by decide) hp)
    | exact fun _ => ⟨rfl, rfl⟩
    | (with_reducible first
        | intro _ | assumption | apply State.setMem_only | apply State.progress_only | apply State.put_only | split
        | dsimp only)

theorem State.dramTouch_only {ps : List Part} {s₀ s : State} (h : Only ps s₀ s)
    (hp : Parts [.regs, .mem, .free] ps) : Only ps s₀ (State.dramTouch s) := by
  unfold State.dramTouch
  repeat' first
    | (with_reducible first
        | exact h | exact Parts.trans (by decide) hp)
    | exact fun _ => ⟨rfl, rfl⟩
    | (with_reducible first
        | intro _ | assumption | apply Only.ite | apply State.bump_only | apply State.setMem_only
        | apply State.free_only | refine Only.fst (by assumption) ?_ | refine Only.snd (by assumption) ?_ | split
        | dsimp only)

theorem State.norRead_only {ps : List Part} {s₀ s : State} {a : Nat} (h : Only ps s₀ s)
    (hp : Parts [.regs, .mem] ps) : Only ps s₀ (State.norRead s a) := by
  unfold State.norRead
  repeat' first
    | (with_reducible first
        | exact h | exact Parts.trans (by decide) hp)
    | exact fun _ => ⟨rfl, rfl⟩
    | (with_reducible first
        | intro _ | assumption | apply Only.ite | apply State.setMem_only | apply State.put_only | split | dsimp only)

theorem State.norLapse_only {ps : List Part} {s₀ s : State} (h : Only ps s₀ s)
    (hp : Parts [.regs, .units, .coh, .bkp, .mem, .free] ps) : Only ps s₀ (State.norLapse s) := by
  unfold State.norLapse
  repeat' first
    | (with_reducible first
        | exact h | exact Parts.trans (by decide) hp)
    | exact fun _ => ⟨rfl, rfl⟩
    | (with_reducible first
        | intro _ | assumption | rw [lit_free] | apply State.setBytes_only | apply State.setMem_only
        | apply State.put_only | refine State.with_free_only ?_ ?_ | split | dsimp only)

theorem State.trainBegin_only {ps : List Part} {s₀ s : State} (h : Only ps s₀ s)
    (hp : Parts [.regs] ps) : Only ps s₀ (State.trainBegin s) := by
  unfold State.trainBegin
  repeat' with_reducible first
    | exact h | exact Parts.trans (by decide) hp | intro _ | assumption | apply State.put_only | split | dsimp only

theorem State.srmShow_only {ps : List Part} {s₀ s : State} {b : Nat} (h : Only ps s₀ s)
    (hp : Parts [.regs] ps) : Only ps s₀ (State.srmShow s b) := by
  unfold State.srmShow
  repeat' with_reducible first
    | exact h | exact Parts.trans (by decide) hp | intro _ | assumption | refine Only.foldl (fun _ _ _ => ?_) ?_
    | refine Only.foldl_fst (fun _ _ _ => ?_) ?_ | apply State.wr_only | split | dsimp only

theorem State.remapSwitch_only {ps : List Part} {s₀ s : State} {r : Prod Nat (Prod Nat Nat)} {cause : Nat} (h : Only ps s₀ s)
    (hp : Parts [.regs, .units, .env, .mail, .ev, .mem, .trace, .ledger] ps) : Only ps s₀ (State.remapSwitch s r cause) := by
  unfold State.remapSwitch
  repeat' first
    | (with_reducible first
        | exact h | exact Parts.trans (by decide) hp)
    | exact fun _ => ⟨rfl, rfl⟩
    | (with_reducible first
        | intro _ | assumption | apply State.bump_only | apply State.envRestore_only | apply State.setMem_only
        | apply State.srmShow_only | apply State.progress_only | apply State.ledgerPost_only | split | dsimp only)

theorem State.remapRow_only {ps : List Part} {s₀ s : State} {b row cause : Nat} (h : Only ps s₀ s)
    (hp : Parts [.regs, .units, .env, .mail, .ev, .mem, .trace, .ledger] ps) : Only ps s₀ (State.remapRow s b row cause) := by
  unfold State.remapRow
  repeat' first
    | (with_reducible first
        | exact h | exact Parts.trans (by decide) hp)
    | exact fun _ => ⟨rfl, rfl⟩
    | (with_reducible first
        | intro _ | assumption | apply Only.ite | apply State.wr_only | apply State.envBreak_only
        | apply State.bump_only | apply State.remapSwitch_only | apply State.setMem_only | apply State.srmShow_only
        | apply State.ledgerPost_only | apply State.put_only | refine Only.fst (by assumption) ?_
        | refine Only.snd (by assumption) ?_ | split | dsimp only)

theorem State.sramRead_only {ps : List Part} {s₀ s : State} {a : Nat} {ecc : Ecc} (h : Only ps s₀ s)
    (hp : Parts [.regs, .units, .env, .mail, .ev, .mem, .trace, .ledger] ps) : Only ps s₀ (State.sramRead s a ecc).1 := by
  unfold State.sramRead
  repeat' first
    | (with_reducible first
        | exact h | exact Parts.trans (by decide) hp)
    | exact fun _ => ⟨rfl, rfl⟩
    | (with_reducible first
        | intro _ | assumption | apply Only.ite | apply State.wr_only | apply State.bump_only
        | apply State.setMem_only | apply State.srmShow_only | apply State.remapRow_only | apply State.setPoison_only
        | refine Only.fst (by assumption) ?_ | refine Only.snd (by assumption) ?_ | split | dsimp only)

theorem State.dramList_only {ps : List Part} {s₀ s : State} {b row cause : Nat} (h : Only ps s₀ s)
    (hp : Parts [.regs, .mem, .trace, .ledger] ps) : Only ps s₀ (State.dramList s b row cause) := by
  unfold State.dramList
  repeat' first
    | (with_reducible first
        | exact h | exact Parts.trans (by decide) hp)
    | exact fun _ => ⟨rfl, rfl⟩
    | (with_reducible first
        | intro _ | assumption | apply Only.ite | apply State.wr_only | apply State.setMem_only
        | apply State.ledgerPost_only | refine Only.fst (by assumption) ?_ | refine Only.snd (by assumption) ?_
        | split | dsimp only)

theorem State.dramRead_only {ps : List Part} {s₀ s : State} {a : Nat} {ecc : Ecc} (h : Only ps s₀ s)
    (hp : Parts [.regs, .mem, .trace, .ledger] ps) : Only ps s₀ (State.dramRead s a ecc).1 := by
  unfold State.dramRead
  repeat' first
    | (with_reducible first
        | exact h | exact Parts.trans (by decide) hp)
    | exact fun _ => ⟨rfl, rfl⟩
    | (with_reducible first
        | intro _ | assumption | apply Only.ite | apply State.wr_only | apply State.bump_only
        | apply State.setMem_only | apply State.setPoison_only | apply State.dramList_only
        | refine Only.fst (by assumption) ?_ | refine Only.snd (by assumption) ?_ | split | dsimp only)

theorem State.norProgram_only {ps : List Part} {s₀ s : State} {a : Nat} {data : List Byte} (h : Only ps s₀ s)
    (hp : Parts [.units, .coh, .bkp, .mem] ps) : Only ps s₀ (State.norProgram s a data) := by
  unfold State.norProgram
  repeat' with_reducible first
    | exact h | exact Parts.trans (by decide) hp | intro _ | assumption | apply State.setBytes_only | split
    | dsimp only

theorem State.norErase_only {ps : List Part} {s₀ s : State} {a n : Nat} (h : Only ps s₀ s)
    (hp : Parts [.mem] ps) : Only ps s₀ (State.norErase s a n) := by
  unfold State.norErase
  repeat' with_reducible first
    | exact h | exact Parts.trans (by decide) hp | intro _ | assumption | apply State.forget_only | split | dsimp only

theorem State.dramStart_only {ps : List Part} {s₀ s : State} {fromOff : Bool} (h : Only ps s₀ s)
    (hp : Parts [.regs, .mem, .free] ps) : Only ps s₀ (State.dramStart s fromOff) := by
  unfold State.dramStart
  repeat' first
    | (with_reducible first
        | exact h | exact Parts.trans (by decide) hp)
    | exact fun _ => ⟨rfl, rfl⟩
    | (with_reducible first
        | intro _ | assumption | apply Only.ite | apply State.forget_only | apply State.trainBegin_only
        | apply State.setMem_only | apply State.free_only | apply State.put_only | refine Only.fst (by assumption) ?_
        | refine Only.snd (by assumption) ?_ | split | dsimp only)

theorem State.dramRepair_only {ps : List Part} {s₀ s : State} (h : Only ps s₀ s)
    (hp : Parts [.regs, .mem, .trace, .ledger] ps) : Only ps s₀ (State.dramRepair s) := by
  unfold State.dramRepair
  repeat' first
    | (with_reducible first
        | exact h | exact Parts.trans (by decide) hp)
    | exact fun _ => ⟨rfl, rfl⟩
    | (with_reducible first
        | intro _ | assumption | apply Only.ite | refine Only.foldl (fun _ _ _ => ?_) ?_
        | refine Only.foldl_fst (fun _ _ _ => ?_) ?_ | apply State.wr_only | apply State.bump_only
        | apply State.setMem_only | apply State.ledgerPost_only | apply State.put_only | split | dsimp only)

theorem State.trainEnd_only {ps : List Part} {s₀ s : State} {w0 w1 : Nat} (h : Only ps s₀ s)
    (hp : Parts [.regs, .units, .mem] ps) : Only ps s₀ (State.trainEnd s w0 w1) := by
  unfold State.trainEnd
  repeat' first
    | (with_reducible first
        | exact h | exact Parts.trans (by decide) hp)
    | exact fun _ => ⟨rfl, rfl⟩
    | (with_reducible first
        | intro _ | assumption | apply Only.ite | apply State.wr_only | apply State.setMem_only
        | apply State.progress_only | apply State.put_only | split | dsimp only)

theorem State.norRefuse_only {ps : List Part} {s₀ s : State} {cause : Nat} (h : Only ps s₀ s)
    (hp : Parts [.regs] ps) : Only ps s₀ (State.norRefuse s cause) := by
  unfold State.norRefuse
  repeat' with_reducible first
    | exact h | exact Parts.trans (by decide) hp | intro _ | assumption | apply State.wr_only | apply State.put_only
    | split | dsimp only

theorem State.norCommand_only {ps : List Part} {s₀ s : State} {who : Who} {cmd : Nat} (h : Only ps s₀ s)
    (hp : Parts [.regs, .units, .mem] ps) : Only ps s₀ (State.norCommand s who cmd) := by
  unfold State.norCommand
  repeat' with_reducible first
    | exact h | exact Parts.trans (by decide) hp | intro _ | assumption | apply Only.ite | apply State.norRefuse_only
    | apply State.norBegin_only | split | dsimp only

theorem State.norRetire_only {ps : List Part} {s₀ s : State} {block : Nat} (h : Only ps s₀ s)
    (hp : Parts [.regs, .units, .env, .mail, .ev, .mem, .trace, .ledger] ps) : Only ps s₀ (State.norRetire s block).1 := by
  unfold State.norRetire
  repeat' first
    | (with_reducible first
        | exact h | exact Parts.trans (by decide) hp)
    | exact fun _ => ⟨rfl, rfl⟩
    | (with_reducible first
        | intro _ | assumption | apply Only.ite | apply State.wr_only | apply State.envBreak_only
        | apply State.envRestore_only | apply State.setMem_only | apply State.norRefuse_only
        | apply State.ledgerPost_only | refine Only.fst (by assumption) ?_ | refine Only.snd (by assumption) ?_
        | split | dsimp only)

theorem State.norDone_only {ps : List Part} {s₀ s : State} {o : NvmOp} {ok : Bool} (h : Only ps s₀ s)
    (hp : Parts [.regs, .units, .env, .mail, .ev, .coh, .bkp, .mem, .trace, .ledger] ps) : Only ps s₀ (State.norDone s o ok).1 := by
  unfold State.norDone
  repeat' with_reducible first
    | exact h | exact Parts.trans (by decide) hp | intro _ | assumption | apply Only.ite | apply State.bump_only
    | apply State.norRetire_only | apply State.norProgram_only | apply State.setBytes_only | apply State.norErase_only
    | refine Only.fst (by assumption) ?_ | refine Only.snd (by assumption) ?_ | split | dsimp only

theorem State.norEnd_only {ps : List Part} {s₀ s : State} {ok : Bool} (h : Only ps s₀ s)
    (hp : Parts [.regs, .units, .env, .mail, .ev, .coh, .bkp, .mem, .trace, .ledger] ps) : Only ps s₀ (State.norEnd s ok) := by
  unfold State.norEnd
  repeat' first
    | (with_reducible first
        | exact h | exact Parts.trans (by decide) hp)
    | exact fun _ => ⟨rfl, rfl⟩
    | (with_reducible first
        | intro _ | assumption | apply Only.ite | apply State.setMem_only | apply State.progress_only
        | apply State.norDone_only | apply State.put_only | refine Only.fst (by assumption) ?_
        | refine Only.snd (by assumption) ?_ | split | dsimp only)

theorem State.norPoll_only {ps : List Part} {s₀ s : State} (h : Only ps s₀ s)
    (hp : Parts [.units] ps) : Only ps s₀ (State.norPoll s) := by
  unfold State.norPoll
  repeat' with_reducible first
    | exact h | exact Parts.trans (by decide) hp | intro _ | assumption | apply Only.ite | apply State.progress_only
    | split | dsimp only

theorem State.norResume_only {ps : List Part} {s₀ s : State} (h : Only ps s₀ s)
    (hp : Parts [.regs, .units, .mem] ps) : Only ps s₀ (State.norResume s) := by
  unfold State.norResume
  repeat' first
    | (with_reducible first
        | exact h | exact Parts.trans (by decide) hp)
    | exact fun _ => ⟨rfl, rfl⟩
    | (with_reducible first
        | intro _ | assumption | apply State.setMem_only | apply State.setUnit_only | apply State.put_only | split
        | dsimp only)

theorem State.norWrite_only {ps : List Part} {s₀ s : State} {who : Who} {cmd : Nat} (h : Only ps s₀ s)
    (hp : Parts [.regs, .units, .env, .mail, .ev, .mem, .trace] ps) : Only ps s₀ (State.norWrite s who cmd) := by
  unfold State.norWrite
  repeat' with_reducible first
    | exact h | exact Parts.trans (by decide) hp | intro _ | assumption | apply Only.ite | apply State.norCommand_only
    | apply State.pageWrite_only | split | dsimp only

theorem State.refresh_only {ps : List Part} {s₀ s : State} {postpone : Bool} (h : Only ps s₀ s)
    (hp : Parts [.regs, .mem] ps) : Only ps s₀ (State.refresh s postpone) := by
  unfold State.refresh
  repeat' first
    | (with_reducible first
        | exact h | exact Parts.trans (by decide) hp)
    | exact fun _ => ⟨rfl, rfl⟩
    | (with_reducible first
        | intro _ | assumption | apply Only.ite | apply State.wr_only | apply State.setMem_only | split | dsimp only)

theorem State.trainRequest_only {ps : List Part} {s₀ s : State} {v : Nat} (h : Only ps s₀ s)
    (hp : Parts [.regs] ps) : Only ps s₀ (State.trainRequest s v) := by
  unfold State.trainRequest
  repeat' with_reducible first
    | exact h | exact Parts.trans (by decide) hp | intro _ | assumption | apply Only.ite | apply State.trainBegin_only
    | apply State.put_only | split | dsimp only

theorem State.remapSwitchStep_only {ps : List Part} {s₀ s : State} (h : Only ps s₀ s)
    (hp : Parts [.regs, .units, .env, .mail, .ev, .mem, .trace, .ledger] ps) : Only ps s₀ (State.remapSwitchStep s) := by
  unfold State.remapSwitchStep
  repeat' with_reducible first
    | exact h | exact Parts.trans (by decide) hp | intro _ | assumption | apply Only.ite
    | apply State.remapSwitch_only | refine Only.fst (by assumption) ?_ | refine Only.snd (by assumption) ?_ | split
    | dsimp only

theorem State.scrub_only {ps : List Part} {s₀ s : State} {ecc : Ecc} (h : Only ps s₀ s)
    (hp : Parts [.regs, .units, .env, .mail, .ev, .mem, .trace, .ledger] ps) : Only ps s₀ (State.scrub s ecc) := by
  unfold State.scrub
  repeat' first
    | (with_reducible first
        | exact h | exact Parts.trans (by decide) hp)
    | exact fun _ => ⟨rfl, rfl⟩
    | (with_reducible first
        | intro _ | assumption | apply Only.ite | apply State.setMem_only | apply State.sramRead_only
        | refine Only.fst (by assumption) ?_ | refine Only.snd (by assumption) ?_ | split | dsimp only)

theorem State.temperatureUpdate_only {ps : List Part} {s₀ s : State} {temp : Int} (h : Only ps s₀ s)
    (hp : Parts [.regs, .tab, .cap] ps) : Only ps s₀ (State.temperatureUpdate s temp) := by
  unfold State.temperatureUpdate
  repeat' with_reducible first
    | exact h | exact Parts.trans (by decide) hp | intro _ | assumption | apply Only.ite
    | apply State.dieTemperature_only | apply State.put_only | split | dsimp only

end Sys2Proof.Machine
end

