-- ==== Sys2Proof/Laws/OnlyTag.lean ====
section
/-!
SUPPORT. What each operation of Machine/Tag.lean leaves alone.
-/

namespace Sys2Proof.Machine

theorem State.setTag_only {ps : List Part} {s₀ s : State} {t : TagState} (h : Only ps s₀ s) (hp : Parts [.tag] ps)
    (h0 : swf tagDefault s.tag.eeprom = true → swf tagDefault t.eeprom = true) : Only ps s₀ (s.setTag t) := h.set_tag hp h0

theorem tagPut_wf (bs : List Byte) (m : Store) (a : Nat) (h : swf tagDefault m = true) :
    swf tagDefault (bs.foldl (fun (p : Store × Nat) b => (sput tagDefault p.1 p.2 b, p.2 + 1)) (m, a)).1 = true := by
  induction bs generalizing m a with
  | nil => exact h
  | cons b bs ih => exact ih _ _ (swf_sput _ _ _ _ h)

theorem State.setTagBytes_only {ps : List Part} {s₀ s : State} {a : Nat} {bs : List Byte} (h : Only ps s₀ s)
    (hp : Parts [.tag] ps) : Only ps s₀ (s.setTagBytes a bs) := State.setTag_only h hp (tagPut_wf _ _ _)

theorem State.tagBegin_only {ps : List Part} {s₀ s : State} (h : Only ps s₀ s)
    (hp : Parts [.tag] ps) : Only ps s₀ (State.tagBegin s) := by
  unfold State.tagBegin
  repeat' with_reducible first
    | exact h | exact Parts.trans (by decide) hp | intro _ | assumption | refine State.setTag_only ?_ ?_ id | split
    | dsimp only

theorem State.tagQueue_only {ps : List Part} {s₀ s : State} {op : TagOp} {asker : TagAsker} (h : Only ps s₀ s)
    (hp : Parts [.tag] ps) : Only ps s₀ (State.tagQueue s op asker) := by
  unfold State.tagQueue
  repeat' with_reducible first
    | exact h | exact Parts.trans (by decide) hp | intro _ | assumption | refine State.setTag_only ?_ ?_ id
    | apply State.tagBegin_only | split | dsimp only

theorem State.exchDeliver_only {ps : List Part} {s₀ s : State} (h : Only ps s₀ s)
    (hp : Parts [.units, .ring, .tag, .coh, .bkp, .mem] ps) : Only ps s₀ (State.exchDeliver s) := by
  unfold State.exchDeliver
  repeat' with_reducible first
    | exact h | exact Parts.trans (by decide) hp | intro _ | assumption | apply Only.ite | apply State.setBytes_only
    | apply State.decide__only | apply State.healRange_only | apply State.tagQueue_only | split | dsimp only

theorem State.tagCommit_only {ps : List Part} {s₀ s : State} {r : TagRun} (h : Only ps s₀ s)
    (hp : Parts [.regs, .units, .ring, .tag, .coh, .bkp, .mem] ps) : Only ps s₀ (State.tagCommit s r) := by
  unfold State.tagCommit
  repeat' with_reducible first
    | exact h | exact Parts.trans (by decide) hp | intro _ | assumption | apply Only.ite | apply State.wr_only
    | apply State.setTagBytes_only | refine State.setTag_only ?_ ?_ id | apply State.wakeSeen_only
    | apply State.exchDeliver_only | split | dsimp only

theorem State.tagCollapse_only {ps : List Part} {s₀ s : State} (h : Only ps s₀ s)
    (hp : Parts [.regs, .units, .ring, .tag, .coh, .bkp, .mem, .free] ps) : Only ps s₀ (State.tagCollapse s) := by
  unfold State.tagCollapse
  repeat' with_reducible first
    | exact h | exact Parts.trans (by decide) hp | intro _ | assumption | apply Only.ite
    | refine State.setTag_only ?_ ?_ id | apply State.tagCommit_only | apply State.free_only
    | refine Only.fst (by assumption) ?_ | refine Only.snd (by assumption) ?_ | split | dsimp only

theorem State.tagRepair_only {ps : List Part} {s₀ s : State} {wasTorn : Bool} (h : Only ps s₀ s)
    (hp : Parts [.regs, .tag] ps) : Only ps s₀ (State.tagRepair s wasTorn) := by
  unfold State.tagRepair
  repeat' with_reducible first
    | exact h | exact Parts.trans (by decide) hp | intro _ | assumption | apply Only.ite | apply State.bump_only
    | apply State.wr_only | apply State.setTagBytes_only | split | dsimp only

theorem State.tagUp_only {ps : List Part} {s₀ s : State} (h : Only ps s₀ s)
    (hp : Parts [.regs, .tag] ps) : Only ps s₀ (State.tagUp s) := by
  unfold State.tagUp
  repeat' with_reducible first
    | exact h | exact Parts.trans (by decide) hp | intro _ | assumption | refine State.setTag_only ?_ ?_ id
    | apply State.tagRepair_only | split | dsimp only

theorem State.tagOff_only {ps : List Part} {s₀ s : State} (h : Only ps s₀ s)
    (hp : Parts [.regs, .units, .ring, .tag, .coh, .bkp, .mem, .free] ps) : Only ps s₀ (State.tagOff s) := by
  unfold State.tagOff
  repeat' with_reducible first
    | exact h | exact Parts.trans (by decide) hp | intro _ | assumption | apply Only.ite
    | refine State.setTag_only ?_ ?_ id | apply State.tagCollapse_only | split | dsimp only

theorem State.tagReply_only {ps : List Part} {s₀ s : State} {r : TagReply} (h : Only ps s₀ s)
    (hp : Parts [.tag] ps) : Only ps s₀ (State.tagReply s r) := by
  unfold State.tagReply
  repeat' with_reducible first
    | exact h | exact Parts.trans (by decide) hp | intro _ | assumption | apply Only.ite
    | refine State.setTag_only ?_ ?_ id | refine Only.fst (by assumption) ?_ | refine Only.snd (by assumption) ?_
    | split | dsimp only

theorem State.tagError_only {ps : List Part} {s₀ s : State} {code : Nat} (h : Only ps s₀ s)
    (hp : Parts [.tag] ps) : Only ps s₀ (State.tagError s code) := by
  unfold State.tagError
  repeat' with_reducible first
    | exact h | exact Parts.trans (by decide) hp | intro _ | assumption | apply State.tagReply_only | split
    | dsimp only

theorem State.needOpen_only {ps : List Part} {s₀ s : State} {f : State → State} (h : Only ps s₀ s)
    (hp : Parts [.tag] ps) (hf : ∀ t, Only ps s₀ t → Only ps s₀ (f t)) : Only ps s₀ (State.needOpen s f) := by
  unfold State.needOpen
  repeat' with_reducible first
    | exact h | exact Parts.trans (by decide) hp | intro _ | assumption | apply Only.ite | apply hf
    | apply State.tagError_only | split | dsimp only

theorem State.authBegin_only {ps : List Part} {s₀ s : State} {k : Nat} {ra : List Byte} (h : Only ps s₀ s)
    (hp : Parts [.tag, .free] ps) : Only ps s₀ (State.authBegin s k ra) := by
  unfold State.authBegin
  repeat' with_reducible first
    | exact h | exact Parts.trans (by decide) hp | intro _ | assumption | apply Only.ite
    | refine State.setTag_only ?_ ?_ id | apply State.tagReply_only | apply State.free_only
    | apply State.tagError_only | apply State.needOpen_only | refine Only.fst (by assumption) ?_
    | refine Only.snd (by assumption) ?_ | split | dsimp only

theorem State.tagCount_only {ps : List Part} {s₀ s : State} {ctr : Nat} (h : Only ps s₀ s)
    (hp : Parts [.tag] ps) : Only ps s₀ (State.tagCount s ctr) := by
  unfold State.tagCount
  repeat' with_reducible first
    | exact h | exact Parts.trans (by decide) hp | intro _ | assumption | apply Only.ite | apply State.tagQueue_only
    | split | dsimp only

theorem State.authFailed_only {ps : List Part} {s₀ s : State} {ctr : Nat} (h : Only ps s₀ s)
    (hp : Parts [.tag] ps) : Only ps s₀ (State.authFailed s ctr) := by
  unfold State.authFailed
  repeat' with_reducible first
    | exact h | exact Parts.trans (by decide) hp | intro _ | assumption | refine State.setTag_only ?_ ?_ id
    | apply State.tagCount_only | apply State.tagError_only | split | dsimp only

theorem State.authPassed_only {ps : List Part} {s₀ s : State} (h : Only ps s₀ s)
    (hp : Parts [.tag] ps) : Only ps s₀ (State.authPassed s) := by
  unfold State.authPassed
  repeat' with_reducible first
    | exact h | exact Parts.trans (by decide) hp | intro _ | assumption | refine State.setTag_only ?_ ?_ id
    | apply State.tagReply_only | apply State.tagCount_only | split | dsimp only

theorem State.authEnd_only {ps : List Part} {s₀ s : State} {tr : List Byte} (h : Only ps s₀ s)
    (hp : Parts [.tag] ps) : Only ps s₀ (State.authEnd s tr) := by
  unfold State.authEnd
  repeat' with_reducible first
    | exact h | exact Parts.trans (by decide) hp | intro _ | assumption | apply Only.ite | apply State.authFailed_only
    | refine State.setTag_only ?_ ?_ id | apply State.authPassed_only | apply State.tagError_only | split | dsimp only

theorem State.needSecured_only {ps : List Part} {s₀ s : State} {f : State → State} (h : Only ps s₀ s)
    (hp : Parts [.tag] ps) (hf : ∀ t, Only ps s₀ t → Only ps s₀ (f t)) : Only ps s₀ (State.needSecured s f) := by
  unfold State.needSecured
  repeat' with_reducible first
    | exact h | exact Parts.trans (by decide) hp | intro _ | assumption | apply Only.ite | apply hf
    | apply State.tagError_only | split | dsimp only

theorem State.fieldWrite_only {ps : List Part} {s₀ s : State} {op : TagOp} {data : List Byte} {strong : Bool} (h : Only ps s₀ s)
    (hp : Parts [.tag] ps) : Only ps s₀ (State.fieldWrite s op data strong) := by
  unfold State.fieldWrite
  repeat' with_reducible first
    | exact h | exact Parts.trans (by decide) hp | intro _ | assumption | apply Only.ite
    | refine State.setTag_only ?_ ?_ id | apply State.tagError_only | apply State.tagQueue_only
    | refine Only.fst (by assumption) ?_ | refine Only.snd (by assumption) ?_ | split | dsimp only

theorem State.ctrInc_only {ps : List Part} {s₀ s : State} {n : Nat} {strong : Bool} (h : Only ps s₀ s)
    (hp : Parts [.tag] ps) : Only ps s₀ (State.ctrInc s n strong) := by
  unfold State.ctrInc
  repeat' with_reducible first
    | exact h | exact Parts.trans (by decide) hp | intro _ | assumption | apply Only.ite | apply State.tagError_only
    | apply State.needSecured_only | apply State.fieldWrite_only | split | dsimp only

theorem State.exchRead_only {ps : List Part} {s₀ s : State} {strong : Bool} (h : Only ps s₀ s)
    (hp : Parts [.tag] ps) : Only ps s₀ (State.exchRead s strong) := by
  unfold State.exchRead
  repeat' with_reducible first
    | exact h | exact Parts.trans (by decide) hp | intro _ | assumption | apply Only.ite | apply State.tagError_only
    | apply State.fieldWrite_only | split | dsimp only

theorem State.exchWrite_only {ps : List Part} {s₀ s : State} {data : List Byte} {strong : Bool} (h : Only ps s₀ s)
    (hp : Parts [.tag] ps) : Only ps s₀ (State.exchWrite s data strong) := by
  unfold State.exchWrite
  repeat' with_reducible first
    | exact h | exact Parts.trans (by decide) hp | intro _ | assumption | apply Only.ite | apply State.tagError_only
    | apply State.fieldWrite_only | apply State.setTagBytes_only | split | dsimp only

theorem State.fieldBusy_only {ps : List Part} {s₀ s : State} {idx : Nat} (h : Only ps s₀ s)
    (hp : Parts [.regs, .ring] ps) : Only ps s₀ (State.fieldBusy s idx) := by
  unfold State.fieldBusy
  repeat' with_reducible first
    | exact h | exact Parts.trans (by decide) hp | intro _ | assumption | apply Only.ite | apply State.decide__only
    | apply State.bump_only | split | dsimp only

theorem State.hostSource_only {ps : List Part} {s₀ s : State} {w : Work} {a n : Nat} {k : List Byte → State → State} (h : Only ps s₀ s)
    (hp : Parts [.regs, .ring] ps) (hf : ∀ x0 t, Only ps s₀ t → Only ps s₀ (k x0 t)) : Only ps s₀ (State.hostSource s w a n k) := by
  unfold State.hostSource
  repeat' with_reducible first
    | exact h | exact Parts.trans (by decide) hp | intro _ | assumption | apply Only.ite | apply hf
    | apply State.decide__only | apply State.bump_only | split | dsimp only

theorem State.hostTag_only {ps : List Part} {s₀ s : State} {idx op : Nat} {k : Work → State → State} (h : Only ps s₀ s)
    (hp : Parts [.ring] ps) (hf : ∀ x0 t, Only ps s₀ t → Only ps s₀ (k x0 t)) : Only ps s₀ (State.hostTag s idx op k) := by
  unfold State.hostTag
  repeat' with_reducible first
    | exact h | exact Parts.trans (by decide) hp | intro _ | assumption | apply Only.ite | apply hf
    | apply State.runWork_only | apply State.updWork_only | split | dsimp only

theorem State.hostWrite_only {ps : List Part} {s₀ s : State} {w : Work} {op : TagOp} {res : Option Nat} (h : Only ps s₀ s)
    (hp : Parts [.ring, .tag] ps) : Only ps s₀ (State.hostWrite s w op res) := by
  unfold State.hostWrite
  repeat' with_reducible first
    | exact h | exact Parts.trans (by decide) hp | intro _ | assumption | apply State.updWork_only
    | apply State.tagQueue_only | split | dsimp only

theorem State.tagAccept_only {ps : List Part} {s₀ s : State} {keepAuth : Bool} (h : Only ps s₀ s)
    (hp : Parts [.regs, .units, .tag] ps) : Only ps s₀ (State.tagAccept s keepAuth) := by
  unfold State.tagAccept
  repeat' with_reducible first
    | exact h | exact Parts.trans (by decide) hp | intro _ | assumption | apply Only.ite | apply State.bump_only
    | refine State.setTag_only ?_ ?_ id | apply State.progress_only | split | dsimp only

theorem State.replyInSlot_only {ps : List Part} {s₀ s : State} {slot : Nat} {data : List Byte} (h : Only ps s₀ s)
    (hp : Parts [.tag] ps) : Only ps s₀ (State.replyInSlot s slot data) := by
  unfold State.replyInSlot
  repeat' with_reducible first
    | exact h | exact Parts.trans (by decide) hp | intro _ | assumption | refine State.setTag_only ?_ ?_ id
    | apply State.tagReply_only | split | dsimp only

theorem State.invAdapt_only {ps : List Part} {s₀ s : State} {q : Nat} {nonce : List Byte} {afi : Option Byte} {maskLen mask : Nat} (h : Only ps s₀ s)
    (hp : Parts [.regs, .units, .tag] ps) : Only ps s₀ (State.invAdapt s q nonce afi maskLen mask) := by
  unfold State.invAdapt
  repeat' with_reducible first
    | exact h | exact Parts.trans (by decide) hp | intro _ | assumption | apply Only.ite | apply State.tagAccept_only
    | apply State.replyInSlot_only | split | dsimp only

theorem State.inventory_only {ps : List Part} {s₀ s : State} {afi : Option Byte} {maskLen mask : Nat} {sixteen : Bool} (h : Only ps s₀ s)
    (hp : Parts [.regs, .units, .tag] ps) : Only ps s₀ (State.inventory s afi maskLen mask sixteen) := by
  unfold State.inventory
  repeat' with_reducible first
    | exact h | exact Parts.trans (by decide) hp | intro _ | assumption | apply Only.ite | apply State.tagAccept_only
    | apply State.replyInSlot_only | split | dsimp only

theorem State.lockBlock_only {ps : List Part} {s₀ s : State} {b : Nat} {strong : Bool} (h : Only ps s₀ s)
    (hp : Parts [.tag] ps) : Only ps s₀ (State.lockBlock s b strong) := by
  unfold State.lockBlock
  repeat' with_reducible first
    | exact h | exact Parts.trans (by decide) hp | intro _ | assumption | apply Only.ite | apply State.tagError_only
    | apply State.fieldWrite_only | split | dsimp only

theorem State.password_only {ps : List Part} {s₀ s : State} {pw : List Byte} (h : Only ps s₀ s)
    (hp : Parts [.tag] ps) : Only ps s₀ (State.password s pw) := by
  unfold State.password
  repeat' with_reducible first
    | exact h | exact Parts.trans (by decide) hp | intro _ | assumption | apply Only.ite | apply State.tagError_only
    | apply State.authFailed_only | apply State.authPassed_only | apply State.needOpen_only | split | dsimp only

theorem State.readBlocks_only {ps : List Part} {s₀ s : State} {req : TagReq} {first n : Nat} (h : Only ps s₀ s)
    (hp : Parts [.tag] ps) : Only ps s₀ (State.readBlocks s req first n) := by
  unfold State.readBlocks
  repeat' with_reducible first
    | exact h | exact Parts.trans (by decide) hp | intro _ | assumption | apply Only.ite | apply State.tagError_only
    | apply State.tagReply_only | split | dsimp only

theorem State.securityStatus_only {ps : List Part} {s₀ s : State} {first n : Nat} (h : Only ps s₀ s)
    (hp : Parts [.tag] ps) : Only ps s₀ (State.securityStatus s first n) := by
  unfold State.securityStatus
  repeat' with_reducible first
    | exact h | exact Parts.trans (by decide) hp | intro _ | assumption | apply Only.ite | apply State.tagError_only
    | apply State.tagReply_only | split | dsimp only

theorem State.select_only {ps : List Part} {s₀ s : State} {u : BitVec 64} (h : Only ps s₀ s)
    (hp : Parts [.regs, .units, .tag] ps) : Only ps s₀ (State.select s u) := by
  unfold State.select
  repeat' with_reducible first
    | exact h | exact Parts.trans (by decide) hp | intro _ | assumption | apply Only.ite
    | refine State.setTag_only ?_ ?_ id | apply State.tagAccept_only | apply State.tagReply_only | split | dsimp only

theorem State.stayQuiet_only {ps : List Part} {s₀ s : State} {u : BitVec 64} (h : Only ps s₀ s)
    (hp : Parts [.regs, .units, .tag] ps) : Only ps s₀ (State.stayQuiet s u) := by
  unfold State.stayQuiet
  repeat' with_reducible first
    | exact h | exact Parts.trans (by decide) hp | intro _ | assumption | apply Only.ite
    | refine State.setTag_only ?_ ?_ id | apply State.tagAccept_only | split | dsimp only

theorem State.systemInfo_only {ps : List Part} {s₀ s : State} {extended : Bool} (h : Only ps s₀ s)
    (hp : Parts [.tag, .free] ps) : Only ps s₀ (State.systemInfo s extended) := by
  unfold State.systemInfo
  repeat' with_reducible first
    | exact h | exact Parts.trans (by decide) hp | intro _ | assumption | apply Only.ite | apply State.tagReply_only
    | apply State.free_only | refine Only.fst (by assumption) ?_ | refine Only.snd (by assumption) ?_ | split
    | dsimp only

theorem State.tagCommand_only {ps : List Part} {s₀ s : State} {req : TagReq} {f : State → State} {keepAuth : Bool} (h : Only ps s₀ s)
    (hp : Parts [.regs, .units, .tag] ps) (hf : ∀ t, Only ps s₀ t → Only ps s₀ (f t)) : Only ps s₀ (State.tagCommand s req f keepAuth) := by
  unfold State.tagCommand
  repeat' with_reducible first
    | exact h | exact Parts.trans (by decide) hp | intro _ | assumption | apply Only.ite | apply hf
    | apply State.tagAccept_only | split | dsimp only

theorem State.tagCtr_only {ps : List Part} {s₀ s : State} {w : Work} (h : Only ps s₀ s)
    (hp : Parts [.units, .ring, .tag] ps) : Only ps s₀ (State.tagCtr s w) := by
  unfold State.tagCtr
  repeat' with_reducible first
    | exact h | exact Parts.trans (by decide) hp | intro _ | assumption | apply Only.ite | apply State.progress_only
    | apply State.decide__only | apply State.hostWrite_only | split | dsimp only

theorem State.tagExactReply_only {ps : List Part} {s₀ s : State} (h : Only ps s₀ s)
    (hp : Parts [.tag] ps) : Only ps s₀ (State.tagExactReply s) := by
  unfold State.tagExactReply
  repeat' with_reducible first
    | exact h | exact Parts.trans (by decide) hp | intro _ | assumption | apply Only.ite
    | refine State.setTag_only ?_ ?_ id | split | dsimp only

theorem State.tagExchRx_only {ps : List Part} {s₀ s : State} {w : Work} (h : Only ps s₀ s)
    (hp : Parts [.units, .ring, .tag, .coh, .bkp, .mem] ps) : Only ps s₀ (State.tagExchRx s w) := by
  unfold State.tagExchRx
  repeat' with_reducible first
    | exact h | exact Parts.trans (by decide) hp | intro _ | assumption | apply Only.ite | apply State.decide__only
    | apply State.exchDeliver_only | apply State.updWork_only | split | dsimp only

theorem State.tagExchTx_only {ps : List Part} {s₀ s : State} {w : Work} (h : Only ps s₀ s)
    (hp : Parts [.regs, .ring, .tag] ps) : Only ps s₀ (State.tagExchTx s w) := by
  unfold State.tagExchTx
  repeat' with_reducible first
    | exact h | exact Parts.trans (by decide) hp | intro _ | assumption | apply Only.ite | apply State.decide__only
    | apply State.hostSource_only | apply State.hostWrite_only | apply State.setTagBytes_only | split | dsimp only

theorem State.tagFieldLoss_only {ps : List Part} {s₀ s : State} (h : Only ps s₀ s)
    (hp : Parts [.regs, .units, .ring, .tag, .coh, .bkp, .mem, .free] ps) : Only ps s₀ (State.tagFieldLoss s) := by
  unfold State.tagFieldLoss
  repeat' with_reducible first
    | exact h | exact Parts.trans (by decide) hp | intro _ | assumption | apply Only.ite
    | refine State.setTag_only ?_ ?_ id | apply State.tagOff_only | split | dsimp only

theorem State.tagLockoutEnd_only {ps : List Part} {s₀ s : State} (h : Only ps s₀ s)
    (hp : Parts [.tag] ps) : Only ps s₀ (State.tagLockoutEnd s) := by
  unfold State.tagLockoutEnd
  repeat' with_reducible first
    | exact h | exact Parts.trans (by decide) hp | intro _ | assumption | apply Only.ite
    | refine State.setTag_only ?_ ?_ id | split | dsimp only

theorem State.tagPowerUp_only {ps : List Part} {s₀ s : State} {byField : Bool} (h : Only ps s₀ s)
    (hp : Parts [.regs, .tag] ps) : Only ps s₀ (State.tagPowerUp s byField) := by
  unfold State.tagPowerUp
  repeat' with_reducible first
    | exact h | exact Parts.trans (by decide) hp | intro _ | assumption | apply Only.ite
    | refine State.setTag_only ?_ ?_ id | apply State.tagUp_only | split | dsimp only

theorem State.tagQueueFirst_only {ps : List Part} {s₀ s : State} {op : TagOp} (h : Only ps s₀ s)
    (hp : Parts [.tag] ps) : Only ps s₀ (State.tagQueueFirst s op) := by
  unfold State.tagQueueFirst
  repeat' with_reducible first
    | exact h | exact Parts.trans (by decide) hp | intro _ | assumption | refine State.setTag_only ?_ ?_ id | split
    | dsimp only

theorem State.tagRead_only {ps : List Part} {s₀ s : State} {w : Work} (h : Only ps s₀ s)
    (hp : Parts [.units, .ring, .coh, .bkp, .mem] ps) : Only ps s₀ (State.tagRead s w) := by
  unfold State.tagRead
  repeat' with_reducible first
    | exact h | exact Parts.trans (by decide) hp | intro _ | assumption | apply Only.ite | apply State.setBytes_only
    | apply State.decide__only | apply State.healRange_only | apply State.progress_only | split | dsimp only

theorem State.tagSecret_only {ps : List Part} {s₀ s : State} {w : Work} (h : Only ps s₀ s)
    (hp : Parts [.regs, .ring, .tag] ps) : Only ps s₀ (State.tagSecret s w) := by
  unfold State.tagSecret
  repeat' with_reducible first
    | exact h | exact Parts.trans (by decide) hp | intro _ | assumption | apply Only.ite | apply State.hostSource_only
    | apply State.decide__only | apply State.hostWrite_only | split | dsimp only

theorem State.tagWriteDone_only {ps : List Part} {s₀ s : State} {r : TagRun} (h : Only ps s₀ s)
    (hp : Parts [.ring, .tag] ps) : Only ps s₀ (State.tagWriteDone s r) := by
  unfold State.tagWriteDone
  repeat' with_reducible first
    | exact h | exact Parts.trans (by decide) hp | intro _ | assumption | apply Only.ite
    | apply State.tagQueueFirst_only | refine State.setTag_only ?_ ?_ id | apply State.decide__only
    | apply State.tagBegin_only | refine Only.fst (by assumption) ?_ | refine Only.snd (by assumption) ?_ | split
    | dsimp only

theorem State.tagStepEnd_only {ps : List Part} {s₀ s : State} (h : Only ps s₀ s)
    (hp : Parts [.regs, .units, .ring, .tag, .coh, .bkp, .mem] ps) : Only ps s₀ (State.tagStepEnd s) := by
  unfold State.tagStepEnd
  repeat' with_reducible first
    | exact h | exact Parts.trans (by decide) hp | intro _ | assumption | apply Only.ite
    | apply State.tagWriteDone_only | refine State.setTag_only ?_ ?_ id | apply State.tagCommit_only
    | apply State.progress_only | split | dsimp only

theorem State.tagWrite_only {ps : List Part} {s₀ s : State} {w : Work} (h : Only ps s₀ s)
    (hp : Parts [.regs, .ring, .tag] ps) : Only ps s₀ (State.tagWrite s w) := by
  unfold State.tagWrite
  repeat' with_reducible first
    | exact h | exact Parts.trans (by decide) hp | intro _ | assumption | apply Only.ite | apply State.decide__only
    | apply State.hostSource_only | apply State.hostWrite_only | split | dsimp only

theorem State.writeBlocks_only {ps : List Part} {s₀ s : State} {first : Nat} {data : List Byte} {strong : Bool} (h : Only ps s₀ s)
    (hp : Parts [.tag] ps) : Only ps s₀ (State.writeBlocks s first data strong) := by
  unfold State.writeBlocks
  repeat' with_reducible first
    | exact h | exact Parts.trans (by decide) hp | intro _ | assumption | apply Only.ite | apply State.tagError_only
    | apply State.fieldWrite_only | split | dsimp only

theorem State.writeFlag_only {ps : List Part} {s₀ s : State} {lockBit mask value : Nat} {strong locking : Bool} (h : Only ps s₀ s)
    (hp : Parts [.tag] ps) : Only ps s₀ (State.writeFlag s lockBit mask value strong locking) := by
  unfold State.writeFlag
  repeat' with_reducible first
    | exact h | exact Parts.trans (by decide) hp | intro _ | assumption | apply Only.ite | apply State.tagError_only
    | apply State.needSecured_only | apply State.fieldWrite_only | split | dsimp only

end Sys2Proof.Machine
end

