-- ==== Sys2Proof/Laws/OnlyBackup.lean ====
section
/-!
SUPPORT. What each operation of Machine/Backup.lean leaves alone.
-/

namespace Sys2Proof.Machine

theorem State.setBkp_only {ps : List Part} {s₀ s : State} {b : BackupState} (h : Only ps s₀ s) (hp : Parts [.bkp] ps)
    (h0 : s.bkp.satchel.wf = true → b.satchel.wf = true) : Only ps s₀ (s.setBkp b) := h.set_bkp hp h0

theorem State.alarmSyson_only {ps : List Part} {s₀ s : State} {set clr : Bool} (h : Only ps s₀ s)
    (hp : Parts [.regs, .free] ps) : Only ps s₀ (State.alarmSyson s set clr) := by
  unfold State.alarmSyson
  repeat' with_reducible first
    | exact h | exact Parts.trans (by decide) hp | intro _ | assumption | apply State.wr_only | apply State.free_only
    | refine Only.fst (by assumption) ?_ | refine Only.snd (by assumption) ?_ | split | dsimp only

theorem State.alarmFire_only {ps : List Part} {s₀ s : State} {a : CalAlarm} {t : Nat} {skipped : Bool} (h : Only ps s₀ s)
    (hp : Parts [.regs, .ev, .bkp, .trace, .free] ps) : Only ps s₀ (State.alarmFire s a t skipped) := by
  unfold State.alarmFire
  repeat' with_reducible first
    | exact h | exact Parts.trans (by decide) hp | intro _ | assumption | apply Only.ite | apply State.wr_only
    | apply State.wakeSeen_only | apply State.emit_only | refine State.setBkp_only ?_ ?_ id
    | refine State.setBkp_only ?_ ?_ (fun _ => rfl) | apply State.alarmSyson_only | apply State.put_only | split
    | dsimp only

theorem State.adjustAlarms_only {ps : List Part} {s₀ s : State} {old new : Nat} (h : Only ps s₀ s)
    (hp : Parts [.regs, .ev, .bkp, .trace, .free] ps) : Only ps s₀ (State.adjustAlarms s old new) := by
  unfold State.adjustAlarms
  repeat' with_reducible first
    | exact h | exact Parts.trans (by decide) hp | intro _ | assumption | apply Only.ite
    | refine Only.foldl (fun _ _ _ => ?_) ?_ | refine Only.foldl_fst (fun _ _ _ => ?_) ?_ | apply State.alarmFire_only
    | split | dsimp only

theorem State.alarmCtl_only {ps : List Part} {s₀ s : State} {n v : Nat} (h : Only ps s₀ s)
    (hp : Parts [.regs, .bkp] ps) : Only ps s₀ (State.alarmCtl s n v) := by
  unfold State.alarmCtl
  repeat' with_reducible first
    | exact h | exact Parts.trans (by decide) hp | intro _ | assumption | apply Only.ite | apply State.wr_only
    | refine State.setBkp_only ?_ ?_ id | refine State.setBkp_only ?_ ?_ (fun _ => rfl) | apply State.writeFields_only
    | split | dsimp only

theorem State.onMain_only {ps : List Part} {s₀ s : State} {on : Bool} (h : Only ps s₀ s)
    (hp : Parts [.regs] ps) : Only ps s₀ (State.onMain s on) := by
  unfold State.onMain
  repeat' with_reducible first
    | exact h | exact Parts.trans (by decide) hp | intro _ | assumption | apply State.put_only | split | dsimp only

theorem State.bkpCold_only {ps : List Part} {s₀ s : State} (h : Only ps s₀ s)
    (hp : Parts [.regs, .bkp] ps) : Only ps s₀ s.bkpCold := by
  unfold State.bkpCold
  have h1 : ∀ x : BackupState, x.satchel = [] → Only ps s₀ (((s.dropRegs fun a => inBkp a || a == 0x40000048).setBkp x).put R.BKP_STATUS_COLD true) :=
    fun x hx => State.put_only (State.setBkp_only (State.dropRegs_only h (Parts.trans (by decide) hp))
      (Parts.trans (by decide) hp) (fun _ => by rw [hx]; rfl)) (Parts.trans (by decide) hp)
  exact Only.ite (State.onMain_only (h1 _ rfl) (Parts.trans (by decide) hp)) (h1 _ rfl)

theorem State.rebaseCalendar_only {ps : List Part} {s₀ s : State} (h : Only ps s₀ s)
    (hp : Parts [.bkp] ps) : Only ps s₀ (State.rebaseCalendar s) := by
  unfold State.rebaseCalendar
  repeat' with_reducible first
    | exact h | exact Parts.trans (by decide) hp | intro _ | assumption | refine State.setBkp_only ?_ ?_ id
    | refine State.setBkp_only ?_ ?_ (fun _ => rfl) | split | dsimp only

theorem State.bkpLand_only {ps : List Part} {s₀ s : State} {a v : Nat} (h : Only ps s₀ s)
    (hp : Parts [.regs, .bkp] ps) : Only ps s₀ (State.bkpLand s a v) := by
  unfold State.bkpLand
  repeat' with_reducible first
    | exact h | exact Parts.trans (by decide) hp | intro _ | assumption | apply Only.ite
    | apply State.writeFields_only | apply State.rebaseCalendar_only | split | dsimp only

theorem State.bkpLanded_only {ps : List Part} {s₀ s : State} (h : Only ps s₀ s)
    (hp : Parts [.regs, .bkp] ps) : Only ps s₀ (State.bkpLanded s) := by
  unfold State.bkpLanded
  repeat' with_reducible first
    | exact h | exact Parts.trans (by decide) hp | intro _ | assumption | apply Only.ite | apply State.bkpLand_only
    | refine State.setBkp_only ?_ ?_ id | refine State.setBkp_only ?_ ?_ (fun _ => rfl) | apply State.put_only | split
    | dsimp only

theorem State.bkpWrite_only {ps : List Part} {s₀ s : State} {who : Who} {addr value : Nat} {f : State → State} (h : Only ps s₀ s)
    (hp : Parts [.regs, .units, .env, .mail, .ev, .bkp, .trace] ps) (hf : ∀ t, Only ps s₀ t → Only ps s₀ (f t)) : Only ps s₀ (State.bkpWrite s who addr value f) := by
  unfold State.bkpWrite
  repeat' with_reducible first
    | exact h | exact Parts.trans (by decide) hp | intro _ | assumption | apply Only.ite | apply hf
    | refine State.setBkp_only ?_ ?_ id | refine State.setBkp_only ?_ ?_ (fun _ => rfl) | apply State.guarded_only
    | apply State.put_only | refine Only.fst (by assumption) ?_ | refine Only.snd (by assumption) ?_ | split
    | dsimp only

theorem State.setCalendar_only {ps : List Part} {s₀ s : State} {v : Nat} (h : Only ps s₀ s)
    (hp : Parts [.bkp] ps) : Only ps s₀ (State.setCalendar s v) := by
  unfold State.setCalendar
  repeat' with_reducible first
    | exact h | exact Parts.trans (by decide) hp | intro _ | assumption | refine State.setBkp_only ?_ ?_ id
    | refine State.setBkp_only ?_ ?_ (fun _ => rfl) | split | dsimp only

theorem State.calendarAdjust_only {ps : List Part} {s₀ s : State} {adj : Nat} (h : Only ps s₀ s)
    (hp : Parts [.regs, .ev, .bkp, .trace, .free] ps) : Only ps s₀ (State.calendarAdjust s adj) := by
  unfold State.calendarAdjust
  repeat' with_reducible first
    | exact h | exact Parts.trans (by decide) hp | intro _ | assumption | apply Only.ite
    | apply State.setCalendar_only | apply State.adjustAlarms_only | split | dsimp only

theorem State.calendarAlarmFire_only {ps : List Part} {s₀ s : State} {n : Nat} (h : Only ps s₀ s)
    (hp : Parts [.regs, .ev, .bkp, .trace, .free] ps) : Only ps s₀ (State.calendarAlarmFire s n) := by
  unfold State.calendarAlarmFire
  repeat' with_reducible first
    | exact h | exact Parts.trans (by decide) hp | intro _ | assumption | apply Only.ite | apply State.alarmFire_only
    | split | dsimp only

theorem State.calendarLatch_only {ps : List Part} {s₀ s : State} (h : Only ps s₀ s)
    (hp : Parts [.bkp] ps) : Only ps s₀ (State.calendarLatch s).1 := by
  unfold State.calendarLatch
  repeat' with_reducible first
    | exact h | exact Parts.trans (by decide) hp | intro _ | assumption | refine State.setBkp_only ?_ ?_ id
    | refine State.setBkp_only ?_ ?_ (fun _ => rfl) | refine Only.fst (by assumption) ?_
    | refine Only.snd (by assumption) ?_ | split | dsimp only

theorem State.calendarSet_only {ps : List Part} {s₀ s : State} (h : Only ps s₀ s)
    (hp : Parts [.regs, .ev, .bkp, .trace, .free] ps) : Only ps s₀ (State.calendarSet s) := by
  unfold State.calendarSet
  repeat' with_reducible first
    | exact h | exact Parts.trans (by decide) hp | intro _ | assumption | apply Only.ite
    | apply State.setCalendar_only | apply State.adjustAlarms_only | apply State.put_only | split | dsimp only

theorem State.chargeCv_only {ps : List Part} {s₀ s : State} (h : Only ps s₀ s)
    (hp : Parts [.regs] ps) : Only ps s₀ (State.chargeCv s) := by
  unfold State.chargeCv
  repeat' with_reducible first
    | exact h | exact Parts.trans (by decide) hp | intro _ | assumption | apply Only.ite | apply State.put_only
    | split | dsimp only

theorem State.forceCold_only {ps : List Part} {s₀ s : State} {who : Who} (h : Only ps s₀ s)
    (hp : Parts [.regs, .units, .env, .mail, .ev, .bkp, .trace] ps) : Only ps s₀ (State.forceCold s who) := by
  unfold State.forceCold
  repeat' with_reducible first
    | exact h | exact Parts.trans (by decide) hp | intro _ | assumption | apply Only.ite | apply State.bkpCold_only
    | apply State.guarded_only | split | dsimp only

theorem State.trimEnd_only {ps : List Part} {s₀ s : State} (h : Only ps s₀ s)
    (hp : Parts [.regs, .bkp] ps) : Only ps s₀ (State.trimEnd s) := by
  unfold State.trimEnd
  repeat' with_reducible first
    | exact h | exact Parts.trans (by decide) hp | intro _ | assumption | apply Only.ite | apply State.wr_only
    | refine State.setBkp_only ?_ ?_ id | refine State.setBkp_only ?_ ?_ (fun _ => rfl)
    | apply State.rebaseCalendar_only | apply State.put_only | refine Only.fst (by assumption) ?_
    | refine Only.snd (by assumption) ?_ | split | dsimp only

end Sys2Proof.Machine
end

