-- ==== Sys2Proof/Laws/OnlyRestart.lean ====
section
/-!
SUPPORT. What each operation of Machine/Restart.lean leaves alone.
-/

namespace Sys2Proof.Machine

theorem State.bringOn_only {ps : List Part} {s₀ s : State} {n : Nat} (h : Only ps s₀ s)
    (hp : Parts [.doms] ps) : Only ps s₀ (State.bringOn s n) := by
  unfold State.bringOn
  repeat' with_reducible first
    | exact h | exact Parts.trans (by decide) hp | intro _ | assumption | apply State.setDom_only | split | dsimp only

theorem State.stageTwo_only {ps : List Part} {s₀ s : State} (h : Only ps s₀ s)
    (hp : Parts [.regs, .units, .env, .gen, .ring, .mail, .ev, .tag, .tmp, .tx, .ttb, .coh, .boot, .doms, .bkp, .mem, .phase, .trace] ps) : Only ps s₀ (State.stageTwo s) := by
  unfold State.stageTwo
  repeat' with_reducible first
    | exact h | exact Parts.trans (by decide) hp | intro _ | assumption | rw [lit_phase_boot] | rw [lit_phase]
    | rw [lit_boot] | apply Only.ite | refine Only.foldl (fun _ _ _ => ?_) ?_
    | refine Only.foldl_fst (fun _ _ _ => ?_) ?_ | apply State.bringOn_only | apply State.tempoStart_only
    | apply State.tagUp_only | refine State.with_boot_only ?_ ?_ | refine State.with_phase_only ?_ ?_ | split
    | dsimp only

def State.kept (u : State) (ph : Phase) : State :=
  { clk := u.clk, regs := sdrop (fun a => !(inBkp a || a == 0x40000048)) u.regs, bkp := u.bkp, tag := u.tag,
    per := { gpioExt := u.per.gpioExt }, upd := { reverted := u.upd.reverted },
    mem := { cells := sdrop (fun a => !inNor a) u.mem.cells }, pins := { u.pins with nstat := true }, phase := ph,
    boot := { at_ := u.clk.ns, railAt := u.boot.railAt, four := u.boot.four }, freeCount := u.freeCount,
    pending := u.pending }

theorem State.kept_only {ps : List Part} {s₀ u : State} {ph : Phase} (h : Only ps s₀ u)
    (hp : Parts [.regs, .units, .env, .gen, .ring, .mail, .ev, .per, .cip, .ctx, .tag, .tmp, .tab, .cap, .tx, .ttb, .rx, .coh, .upd, .boot, .doms, .bkp, .cores, .mem, .bus, .pins, .phase, .trace, .ledger, .free] ps) : Only ps s₀ (u.kept ph) := by
  refine h.trans ⟨fun p hq => ?_, fun c => ⟨?_, ?_, rfl, c.satchel, rfl, rfl, rfl, rfl, rfl, rfl, rfl, c.eeprom, rfl, rfl⟩, rfl⟩
  · cases p <;> first | rfl | exact absurd (hp.mem hq) (by decide)
  · unfold State.kept; dsimp only; exact swf_sdrop _ _ _ c.regs
  · unfold State.kept; dsimp only; exact swf_sdrop memDefault _ _ c.cells

theorem State.resetDomains_only {ps : List Part} {s₀ s : State} {ph : Phase} (h : Only ps s₀ s)
    (hp : Parts [.regs, .units, .env, .gen, .ring, .mail, .ev, .per, .cip, .ctx, .tag, .tmp, .tab, .cap, .tx, .ttb, .rx, .coh, .upd, .boot, .doms, .bkp, .cores, .mem, .bus, .pins, .phase, .trace, .ledger, .free] ps) : Only ps s₀ (s.resetDomains ph) := by
  have h2 : Only ps s₀ (((if s.domOn Dom.msn = true then s.keeperTake else s).norLapse).tagOff) := by
    refine State.tagOff_only (State.norLapse_only (Only.ite (State.keeperTake_only h ?_) h) ?_) ?_ <;>
      exact Parts.trans (by decide) hp
  have h3 : ∀ u : State, Only ps s₀ u → Only ps s₀ (if (u.kept ph).tag.field then (u.kept ph).tagUp else u.kept ph) :=
    fun u hu => Only.ite (State.tagUp_only (State.kept_only hu (Parts.trans (by decide) hp)) (Parts.trans (by decide) hp))
      (State.kept_only hu (Parts.trans (by decide) hp))
  exact h3 _ h2

theorem State.warmRestart_only {ps : List Part} {s₀ s : State} {cause escType : Nat} (h : Only ps s₀ s)
    (hp : Parts [.regs, .units, .env, .gen, .ring, .mail, .ev, .per, .cip, .ctx, .tag, .tmp, .tab, .cap, .tx, .ttb, .rx, .coh, .upd, .boot, .doms, .bkp, .cores, .mem, .bus, .pins, .phase, .trace, .ledger, .free] ps) : Only ps s₀ (State.warmRestart s cause escType) := by
  unfold State.warmRestart
  repeat' with_reducible first
    | exact h | exact Parts.trans (by decide) hp | intro _ | assumption | apply State.stageTwo_only
    | apply State.wr_only | apply State.bump_only | apply State.resetDomains_only | split | dsimp only

end Sys2Proof.Machine
end

