-- ==== Sys2Proof/Laws/OnlyHunter.lean ====
section
/-!
SUPPORT. What each operation of Machine/Hunter.lean leaves alone.
-/

namespace Sys2Proof.Machine

theorem State.setRx_only {ps : List Part} {s₀ s : State} {f : RxState → RxState} (h : Only ps s₀ s)
    (hp : Parts [.rx] ps) : Only ps s₀ (State.setRx s f) := by
  unfold State.setRx
  repeat' with_reducible first
    | exact h | exact Parts.trans (by decide) hp | intro _ | assumption | rw [lit_rx]
    | refine State.with_rx_only ?_ ?_ | split | dsimp only

theorem State.freeLane_only {ps : List Part} {s₀ s : State} {n : Nat} (h : Only ps s₀ s)
    (hp : Parts [.units, .rx] ps) : Only ps s₀ (State.freeLane s n) := by
  unfold State.freeLane
  repeat' with_reducible first
    | exact h | exact Parts.trans (by decide) hp | intro _ | assumption | apply State.setRx_only
    | apply State.progress_only | split | dsimp only

theorem State.loseDet_only {ps : List Part} {s₀ s : State} {prio : Nat} (h : Only ps s₀ s)
    (hp : Parts [.regs] ps) : Only ps s₀ (State.loseDet s prio) := by
  unfold State.loseDet
  repeat' with_reducible first
    | exact h | exact Parts.trans (by decide) hp | intro _ | assumption | apply State.bump_only | split | dsimp only

theorem State.setLane_only {ps : List Part} {s₀ s : State} {n : Nat} {r : LaneRec} (h : Only ps s₀ s)
    (hp : Parts [.rx] ps) : Only ps s₀ (State.setLane s n r) := by
  unfold State.setLane
  repeat' with_reducible first
    | exact h | exact Parts.trans (by decide) hp | intro _ | assumption | apply State.setRx_only | split | dsimp only

theorem State.takeLane_only {ps : List Part} {s₀ s : State} {n : Nat} {d : Det} {winner : Bool} (h : Only ps s₀ s)
    (hp : Parts [.rx] ps) : Only ps s₀ (State.takeLane s n d winner) := by
  unfold State.takeLane
  repeat' with_reducible first
    | exact h | exact Parts.trans (by decide) hp | intro _ | assumption | apply State.setLane_only | split
    | dsimp only

theorem State.assignDet_only {ps : List Part} {s₀ s : State} {d : Det} (h : Only ps s₀ s)
    (hp : Parts [.regs, .units, .rx] ps) : Only ps s₀ (State.assignDet s d) := by
  unfold State.assignDet
  repeat' with_reducible first
    | exact h | exact Parts.trans (by decide) hp | intro _ | assumption | apply Only.ite | apply State.bump_only
    | apply State.loseDet_only | apply State.freeLane_only | apply State.takeLane_only | split | dsimp only

theorem State.assignLanes_only {ps : List Part} {s₀ s : State} (h : Only ps s₀ s)
    (hp : Parts [.regs, .units, .rx] ps) : Only ps s₀ (State.assignLanes s) := by
  unfold State.assignLanes
  repeat' with_reducible first
    | exact h | exact Parts.trans (by decide) hp | intro _ | assumption | refine Only.foldl (fun _ _ _ => ?_) ?_
    | refine Only.foldl_fst (fun _ _ _ => ?_) ?_ | apply State.setRx_only | apply State.progress_only
    | apply State.assignDet_only | split | dsimp only

theorem State.decideActive_only {ps : List Part} {s₀ s : State} (h : Only ps s₀ s)
    (hp : Parts [.rx] ps) : Only ps s₀ (State.decideActive s) := by
  unfold State.decideActive
  repeat' with_reducible first
    | exact h | exact Parts.trans (by decide) hp | intro _ | assumption | apply State.setRx_only | split | dsimp only

theorem State.laneSwitch_only {ps : List Part} {s₀ s : State} {n : Nat} {r : LaneRec} (h : Only ps s₀ s)
    (hp : Parts [.regs, .units, .rx] ps) : Only ps s₀ (State.laneSwitch s n r) := by
  unfold State.laneSwitch
  repeat' with_reducible first
    | exact h | exact Parts.trans (by decide) hp | intro _ | assumption | apply Only.ite | apply State.bump_only
    | apply State.freeLane_only | apply State.setLane_only | split | dsimp only

theorem State.watchSwitched_only {ps : List Part} {s₀ s : State} {watch : Bool} (h : Only ps s₀ s)
    (hp : Parts [.regs, .units, .rx] ps) : Only ps s₀ (State.watchSwitched s watch) := by
  unfold State.watchSwitched
  repeat' with_reducible first
    | exact h | exact Parts.trans (by decide) hp | intro _ | assumption | apply Only.ite
    | refine Only.foldl (fun _ _ _ => ?_) ?_ | refine Only.foldl_fst (fun _ _ _ => ?_) ?_
    | apply State.decideActive_only | apply State.laneSwitch_only | split | dsimp only

theorem State.detect_only {ps : List Part} {s₀ s : State} {exp : Bool} {entry sofChip : Nat} {bin : Int} (h : Only ps s₀ s)
    (hp : Parts [.rx] ps) : Only ps s₀ (State.detect s exp entry sofChip bin) := by
  unfold State.detect
  repeat' with_reducible first
    | exact h | exact Parts.trans (by decide) hp | intro _ | assumption | apply Only.ite | apply State.setRx_only
    | split | dsimp only

theorem State.inLane_only {ps : List Part} {s₀ s : State} {n ph : Nat} {k : LaneRec → State → State} (h : Only ps s₀ s)
    (hp : Parts [.units] ps) (hf : ∀ x0 t, Only ps s₀ t → Only ps s₀ (k x0 t)) : Only ps s₀ (State.inLane s n ph k) := by
  unfold State.inLane
  repeat' with_reducible first
    | exact h | exact Parts.trans (by decide) hp | intro _ | assumption | apply Only.ite | apply hf
    | apply State.progress_only | split | dsimp only

theorem State.laneHeader_only {ps : List Part} {s₀ s : State} {n : Nat} {r : LaneRec} {word : Nat} (h : Only ps s₀ s)
    (hp : Parts [.regs, .units, .rx] ps) : Only ps s₀ (State.laneHeader s n r word) := by
  unfold State.laneHeader
  repeat' with_reducible first
    | exact h | exact Parts.trans (by decide) hp | intro _ | assumption | apply Only.ite | apply State.bump_only
    | apply State.freeLane_only | apply State.setLane_only | split | dsimp only

theorem State.laneSelfTest_only {ps : List Part} {s₀ s : State} {p : Nat} {ok : Bool} (h : Only ps s₀ s)
    (hp : Parts [.regs, .units, .env, .mail, .ev, .rx, .trace, .ledger] ps) : Only ps s₀ (State.laneSelfTest s p ok) := by
  unfold State.laneSelfTest
  repeat' with_reducible first
    | exact h | exact Parts.trans (by decide) hp | intro _ | assumption | apply Only.ite | apply State.bump_only
    | apply State.unitFault_only | apply State.setRx_only | apply State.retire_only | split | dsimp only

theorem State.laneSync_only {ps : List Part} {s₀ s : State} {n : Nat} {r : LaneRec} {v1 v2 : Nat} {blanked : Bool} {rssi foff desense : Nat} (h : Only ps s₀ s)
    (hp : Parts [.regs, .units, .rx] ps) : Only ps s₀ (State.laneSync s n r v1 v2 blanked rssi foff desense) := by
  unfold State.laneSync
  repeat' with_reducible first
    | exact h | exact Parts.trans (by decide) hp | intro _ | assumption | apply Only.ite | apply State.bump_only
    | apply State.freeLane_only | apply State.setLane_only | split | dsimp only

end Sys2Proof.Machine
end

