-- ==== Sys2Proof/Laws/OnlyDecoder.lean ====
section
/-!
SUPPORT. What each operation of Machine/Decoder.lean leaves alone.
-/

namespace Sys2Proof.Machine

theorem State.updJob_only {ps : List Part} {s₀ s : State} {j : Job} (h : Only ps s₀ s)
    (hp : Parts [.rx] ps) : Only ps s₀ (State.updJob s j) := by
  unfold State.updJob
  repeat' with_reducible first
    | exact h | exact Parts.trans (by decide) hp | intro _ | assumption | apply Only.ite | apply State.setRx_only
    | split | dsimp only

theorem State.placeJob_only {ps : List Part} {s₀ s : State} {j : Job} (h : Only ps s₀ s)
    (hp : Parts [.rx] ps) : Only ps s₀ (State.placeJob s j) := by
  unfold State.placeJob
  repeat' with_reducible first
    | exact h | exact Parts.trans (by decide) hp | intro _ | assumption | apply Only.ite | apply State.updJob_only
    | split | dsimp only

theorem State.placeJobs_only {ps : List Part} {s₀ s : State} {n : Nat} (h : Only ps s₀ s) (hp : Parts [.rx] ps) :
    Only ps s₀ (State.placeJobs n s) := by
  induction n generalizing s with
  | zero => exact h
  | succ n ih =>
    unfold State.placeJobs
    split
    · exact h
    · exact ih (State.placeJob_only h hp)

theorem State.plan_only {ps : List Part} {s₀ s : State} (h : Only ps s₀ s)
    (hp : Parts [.rx] ps) : Only ps s₀ (State.plan s) := by
  unfold State.plan
  repeat' with_reducible first
    | exact h | exact Parts.trans (by decide) hp | intro _ | assumption | apply State.placeJobs_only | split
    | dsimp only

theorem State.replanJobs_only {ps : List Part} {s₀ s : State} (h : Only ps s₀ s)
    (hp : Parts [.rx] ps) : Only ps s₀ (State.replanJobs s) := by
  unfold State.replanJobs
  repeat' with_reducible first
    | exact h | exact Parts.trans (by decide) hp | intro _ | assumption | apply Only.ite | apply State.setRx_only
    | apply State.plan_only | split | dsimp only

theorem State.dropFrame_only {ps : List Part} {s₀ s : State} {id : Nat} (h : Only ps s₀ s)
    (hp : Parts [.regs, .rx, .trace, .free] ps) : Only ps s₀ (State.dropFrame s id) := by
  unfold State.dropFrame
  repeat' with_reducible first
    | exact h | exact Parts.trans (by decide) hp | intro _ | assumption | apply State.tracePacket_only
    | apply State.free_only | apply State.setRx_only | refine Only.fst (by assumption) ?_
    | refine Only.snd (by assumption) ?_ | split | dsimp only

theorem State.cohortAck_only {ps : List Part} {s₀ s : State} {f : RxFrame} {pay : List Byte} (h : Only ps s₀ s)
    (hp : Parts [.regs, .units, .gen, .ring, .ev, .ctx, .tmp, .tx, .ttb, .coh, .bkp, .mem, .trace] ps) : Only ps s₀ (State.cohortAck s f pay) := by
  unfold State.cohortAck
  repeat' with_reducible first
    | exact h | exact Parts.trans (by decide) hp | intro _ | assumption | apply Only.ite
    | apply State.ackReceived_only | apply State.handOver_only | split | dsimp only

theorem State.setSbNum_only {ps : List Part} {s₀ s : State} {b off n v : Nat} (h : Only ps s₀ s)
    (hp : Parts [.units, .coh, .bkp, .mem] ps) : Only ps s₀ (State.setSbNum s b off n v) := by
  unfold State.setSbNum
  repeat' with_reducible first
    | exact h | exact Parts.trans (by decide) hp | intro _ | assumption | apply State.setNum_only | split | dsimp only

theorem State.setSbState_only {ps : List Part} {s₀ s : State} {b st : Nat} (h : Only ps s₀ s)
    (hp : Parts [.units, .ctx, .coh, .bkp, .mem] ps) : Only ps s₀ (State.setSbState s b st) := by
  unfold State.setSbState
  repeat' with_reducible first
    | exact h | exact Parts.trans (by decide) hp | intro _ | assumption | apply Only.ite | apply State.setCtxNum_only
    | apply State.setSbNum_only | split | dsimp only

theorem State.setSbValues_only {ps : List Part} {s₀ s : State} {b : Nat} {v : List Int} (h : Only ps s₀ s)
    (hp : Parts [.units, .coh, .bkp, .mem] ps) : Only ps s₀ (State.setSbValues s b v) := by
  unfold State.setSbValues
  repeat' with_reducible first
    | exact h | exact Parts.trans (by decide) hp | intro _ | assumption | apply State.setBytes_only | split
    | dsimp only

theorem State.sbDecoded_only {ps : List Part} {s₀ s : State} {b p ctr : Nat} {pay : List Byte} (h : Only ps s₀ s)
    (hp : Parts [.units, .ctx, .coh, .bkp, .mem] ps) : Only ps s₀ (State.sbDecoded s b p ctr pay) := by
  unfold State.sbDecoded
  repeat' with_reducible first
    | exact h | exact Parts.trans (by decide) hp | intro _ | assumption | apply State.setSbState_only
    | apply State.setSbNum_only | apply State.setSbValues_only | split | dsimp only

theorem State.sbFresh_only {ps : List Part} {s₀ s : State} {b : Nat} {f : RxFrame} {src ctr : Nat} {v : List Int} (h : Only ps s₀ s)
    (hp : Parts [.units, .ctx, .coh, .bkp, .mem] ps) : Only ps s₀ (State.sbFresh s b f src ctr v) := by
  unfold State.sbFresh
  repeat' with_reducible first
    | exact h | exact Parts.trans (by decide) hp | intro _ | assumption | apply State.setSbState_only
    | apply State.setSbValues_only | apply State.setBytes_only | split | dsimp only

theorem State.afterTaken_only {ps : List Part} {s₀ s : State} {f : RxFrame} {pay : List Byte} {t : Taken} (h : Only ps s₀ s)
    (hp : Parts [.units, .ctx, .coh, .bkp, .mem] ps) : Only ps s₀ (State.afterTaken s f pay t) := by
  unfold State.afterTaken
  repeat' with_reducible first
    | exact h | exact Parts.trans (by decide) hp | intro _ | assumption | apply Only.ite | apply State.setSbNum_only
    | apply State.sbDecoded_only | apply State.sbFresh_only | split | dsimp only

theorem State.linkFrame_only {ps : List Part} {s₀ s : State} {f : RxFrame} {pay : List Byte} {buffer : Option Nat} {sets : Nat} (h : Only ps s₀ s)
    (hp : Parts [.regs, .units, .env, .gen, .ring, .mail, .ev, .cip, .ctx, .tmp, .tx, .ttb, .rx, .coh, .bkp, .mem, .trace, .free] ps) : Only ps s₀ (State.linkFrame s f pay buffer sets) := by
  unfold State.linkFrame
  repeat' with_reducible first
    | exact h | exact Parts.trans (by decide) hp | intro _ | assumption | apply Only.ite | apply State.takeFrame_only
    | apply State.afterTaken_only | apply State.setRx_only | refine Only.fst (by assumption) ?_
    | refine Only.snd (by assumption) ?_ | split | dsimp only

theorem State.frameDecoded_only {ps : List Part} {s₀ s : State} {f : RxFrame} {pay : List Byte} (h : Only ps s₀ s)
    (hp : Parts [.regs, .units, .env, .gen, .ring, .mail, .ev, .cip, .ctx, .tmp, .tx, .ttb, .rx, .coh, .bkp, .mem, .trace, .free] ps) : Only ps s₀ (State.frameDecoded s f pay) := by
  unfold State.frameDecoded
  repeat' with_reducible first
    | exact h | exact Parts.trans (by decide) hp | intro _ | assumption | apply Only.ite
    | apply State.ackReceived_only | apply State.dropFrame_only | apply State.cohortAck_only
    | apply State.linkFrame_only | apply State.sbDecoded_only | split | dsimp only

theorem State.sbKeep_only {ps : List Part} {s₀ s : State} {b p : Nat} {v : List Int} (h : Only ps s₀ s)
    (hp : Parts [.units, .ctx, .coh, .bkp, .mem] ps) : Only ps s₀ (State.sbKeep s b p v) := by
  unfold State.sbKeep
  repeat' with_reducible first
    | exact h | exact Parts.trans (by decide) hp | intro _ | assumption | apply State.setSbState_only
    | apply State.setSbNum_only | apply State.setSbValues_only | split | dsimp only

theorem State.updFrame_only {ps : List Part} {s₀ s : State} {id : Nat} {g : RxFrame → RxFrame} (h : Only ps s₀ s)
    (hp : Parts [.rx] ps) : Only ps s₀ (State.updFrame s id g) := by
  unfold State.updFrame
  repeat' with_reducible first
    | exact h | exact Parts.trans (by decide) hp | intro _ | assumption | apply Only.ite | apply State.setRx_only
    | split | dsimp only

theorem State.queueJobs_only {ps : List Part} {s₀ s : State} {f : RxFrame} {ready : Nat} (h : Only ps s₀ s)
    (hp : Parts [.rx] ps) : Only ps s₀ (State.queueJobs s f ready) := by
  unfold State.queueJobs
  repeat' with_reducible first
    | exact h | exact Parts.trans (by decide) hp | intro _ | assumption | apply State.setRx_only | split | dsimp only

theorem State.startAttempt_only {ps : List Part} {s₀ s : State} {f : RxFrame} {attempt : Nat} {buffer : Option Nat} {values : List Int} {covRate : Nat} {covSets : List Nat} {ready : Nat} (h : Only ps s₀ s)
    (hp : Parts [.rx] ps) : Only ps s₀ (State.startAttempt s f attempt buffer values covRate covSets ready) := by
  unfold State.startAttempt
  repeat' with_reducible first
    | exact h | exact Parts.trans (by decide) hp | intro _ | assumption | apply State.updFrame_only
    | apply State.queueJobs_only | split | dsimp only

theorem State.combine_only {ps : List Part} {s₀ s : State} {f : RxFrame} {attempt b ready : Nat} (h : Only ps s₀ s)
    (hp : Parts [.rx] ps) : Only ps s₀ (State.combine s f attempt b ready) := by
  unfold State.combine
  repeat' with_reducible first
    | exact h | exact Parts.trans (by decide) hp | intro _ | assumption | apply State.startAttempt_only | split
    | dsimp only

theorem State.parityFailed_only {ps : List Part} {s₀ s : State} {f : RxFrame} {j : Job} {ready : Nat} (h : Only ps s₀ s)
    (hp : Parts [.regs, .units, .gen, .ring, .ctx, .tx, .ttb, .rx, .coh, .bkp, .mem, .trace, .free] ps) : Only ps s₀ (State.parityFailed s f j ready) := by
  unfold State.parityFailed
  repeat' with_reducible first
    | exact h | exact Parts.trans (by decide) hp | intro _ | assumption | apply Only.ite | apply State.bump_only
    | apply State.dropFrame_only | apply State.sbKeep_only | apply State.combine_only | apply State.keepDecide_only
    | refine Only.fst (by assumption) ?_ | refine Only.snd (by assumption) ?_ | split | dsimp only

theorem State.proposeFirst_only {ps : List Part} {s₀ s : State} {f : RxFrame} {bs : List Byte} {b : Nat} (h : Only ps s₀ s)
    (hp : Parts [.regs, .units, .gen, .ring, .ctx, .tx, .ttb, .rx, .coh, .bkp, .mem, .trace, .free] ps) : Only ps s₀ (State.proposeFirst s f bs b) := by
  unfold State.proposeFirst
  repeat' with_reducible first
    | exact h | exact Parts.trans (by decide) hp | intro _ | assumption | apply Only.ite | apply State.sbKeep_only
    | apply State.dropFrame_only | apply State.keepDecide_only | apply State.sbFresh_only
    | refine Only.fst (by assumption) ?_ | refine Only.snd (by assumption) ?_ | split | dsimp only

theorem State.firstFailed_only {ps : List Part} {s₀ s : State} {f : RxFrame} {j : Job} {ready : Nat} (h : Only ps s₀ s)
    (hp : Parts [.regs, .units, .gen, .ring, .ctx, .tx, .ttb, .rx, .coh, .bkp, .mem, .trace, .free] ps) : Only ps s₀ (State.firstFailed s f j ready) := by
  unfold State.firstFailed
  repeat' with_reducible first
    | exact h | exact Parts.trans (by decide) hp | intro _ | assumption | apply Only.ite | apply State.dropFrame_only
    | apply State.combine_only | apply State.proposeFirst_only | split | dsimp only

theorem State.attemptEnd_only {ps : List Part} {s₀ s : State} {f : RxFrame} {js : List Job} {ready : Nat} (h : Only ps s₀ s)
    (hp : Parts [.regs, .units, .env, .gen, .ring, .mail, .ev, .cip, .ctx, .tmp, .tx, .ttb, .rx, .coh, .bkp, .mem, .trace, .free] ps) : Only ps s₀ (State.attemptEnd s f js ready) := by
  unfold State.attemptEnd
  repeat' with_reducible first
    | exact h | exact Parts.trans (by decide) hp | intro _ | assumption | apply Only.ite | apply State.bump_only
    | apply State.dropFrame_only | apply State.frameDecoded_only | apply State.setRx_only
    | apply State.parityFailed_only | apply State.firstFailed_only | split | dsimp only

theorem State.jobEnded_only {ps : List Part} {s₀ s : State} {j : Job} (h : Only ps s₀ s)
    (hp : Parts [.regs, .units, .env, .gen, .ring, .mail, .ev, .cip, .ctx, .tmp, .tx, .ttb, .rx, .coh, .bkp, .mem, .trace, .free] ps) : Only ps s₀ (State.jobEnded s j) := by
  unfold State.jobEnded
  repeat' with_reducible first
    | exact h | exact Parts.trans (by decide) hp | intro _ | assumption | apply Only.ite
    | refine Only.foldl (fun _ _ _ => ?_) ?_ | refine Only.foldl_fst (fun _ _ _ => ?_) ?_
    | apply State.attemptEnd_only | apply State.updJob_only | apply State.setRx_only | split | dsimp only

theorem State.addCopy_only {ps : List Part} {s₀ s : State} {m : Nat} {f : RxFrame} (h : Only ps s₀ s)
    (hp : Parts [.regs, .units, .env, .mail, .ev, .rx, .trace] ps) : Only ps s₀ (State.addCopy s m f) := by
  unfold State.addCopy
  repeat' with_reducible first
    | exact h | exact Parts.trans (by decide) hp | intro _ | assumption | apply Only.ite | apply State.updFrame_only
    | apply State.bump_only | apply State.envBreak_only | apply State.setRx_only | refine Only.fst (by assumption) ?_
    | refine Only.snd (by assumption) ?_ | split | dsimp only

theorem State.freeBuffers_only {ps : List Part} {s₀ s : State} {p : State → Nat → Bool} (h : Only ps s₀ s)
    (hp : Parts [.units, .ctx, .coh, .bkp, .mem] ps) : Only ps s₀ (State.freeBuffers s p) := by
  unfold State.freeBuffers
  repeat' with_reducible first
    | exact h | exact Parts.trans (by decide) hp | intro _ | assumption | apply Only.ite
    | refine Only.foldl (fun _ _ _ => ?_) ?_ | refine Only.foldl_fst (fun _ _ _ => ?_) ?_
    | apply State.setSbState_only | split | dsimp only

theorem State.beginDecode_only {ps : List Part} {s₀ s : State} {f : RxFrame} {ready : Nat} (h : Only ps s₀ s)
    (hp : Parts [.regs, .rx, .trace, .free] ps) : Only ps s₀ (State.beginDecode s f ready) := by
  unfold State.beginDecode
  repeat' with_reducible first
    | exact h | exact Parts.trans (by decide) hp | intro _ | assumption | apply Only.ite | apply State.bump_only
    | apply State.dropFrame_only | apply State.combine_only | apply State.startAttempt_only | split | dsimp only

theorem State.bufferExpiry_only {ps : List Part} {s₀ s : State} {b : Nat} (h : Only ps s₀ s)
    (hp : Parts [.regs, .units, .ctx, .coh, .bkp, .mem] ps) : Only ps s₀ (State.bufferExpiry s b) := by
  unfold State.bufferExpiry
  repeat' with_reducible first
    | exact h | exact Parts.trans (by decide) hp | intro _ | assumption | apply Only.ite | apply State.bump_only
    | apply State.setSbState_only | split | dsimp only

theorem State.combineWaitEnd_only {ps : List Part} {s₀ s : State} (h : Only ps s₀ s)
    (hp : Parts [.regs, .rx, .trace, .free] ps) : Only ps s₀ (State.combineWaitEnd s) := by
  unfold State.combineWaitEnd
  repeat' with_reducible first
    | exact h | exact Parts.trans (by decide) hp | intro _ | assumption | apply Only.ite | apply State.updFrame_only
    | apply State.beginDecode_only | apply State.setRx_only | split | dsimp only

theorem State.retryHeld_only {ps : List Part} {s₀ s : State} (h : Only ps s₀ s)
    (hp : Parts [.regs, .units, .env, .gen, .ring, .mail, .ev, .cip, .ctx, .tmp, .tx, .ttb, .rx, .coh, .bkp, .mem, .trace, .free] ps) : Only ps s₀ (State.retryHeld s) := by
  unfold State.retryHeld
  repeat' with_reducible first
    | exact h | exact Parts.trans (by decide) hp | intro _ | assumption | refine Only.foldl (fun _ _ _ => ?_) ?_
    | refine Only.foldl_fst (fun _ _ _ => ?_) ?_ | apply State.linkFrame_only | apply State.setRx_only | split
    | dsimp only

theorem State.forwardSoft_only {ps : List Part} {s₀ s : State} {f : RxFrame} (h : Only ps s₀ s)
    (hp : Parts [.regs, .units, .rx, .coh, .trace, .free] ps) : Only ps s₀ (State.forwardSoft s f) := by
  unfold State.forwardSoft
  repeat' with_reducible first
    | exact h | exact Parts.trans (by decide) hp | intro _ | assumption | apply Only.ite | apply State.issue_only
    | apply State.tracePacket_only | apply State.free_only | apply State.setRx_only
    | refine Only.fst (by assumption) ?_ | refine Only.snd (by assumption) ?_ | split | dsimp only

theorem State.jobDeadline_only {ps : List Part} {s₀ s : State} (h : Only ps s₀ s)
    (hp : Parts [.regs, .units, .env, .gen, .ring, .mail, .ev, .cip, .ctx, .tmp, .tx, .ttb, .rx, .coh, .bkp, .mem, .trace, .free] ps) : Only ps s₀ (State.jobDeadline s) := by
  unfold State.jobDeadline
  repeat' with_reducible first
    | exact h | exact Parts.trans (by decide) hp | intro _ | assumption | apply State.bump_only
    | apply State.envBreak_only | apply State.jobEnded_only | split | dsimp only

theorem State.jobEnd_only {ps : List Part} {s₀ s : State} {late : Bool} (h : Only ps s₀ s)
    (hp : Parts [.regs, .units, .env, .gen, .ring, .mail, .ev, .cip, .ctx, .tmp, .tx, .ttb, .rx, .coh, .bkp, .mem, .trace, .free] ps) : Only ps s₀ (State.jobEnd s late) := by
  unfold State.jobEnd
  repeat' with_reducible first
    | exact h | exact Parts.trans (by decide) hp | intro _ | assumption | apply Only.ite | apply State.bump_only
    | apply State.envBreak_only | apply State.count_only | apply State.progress_only | apply State.jobEnded_only
    | split | dsimp only

theorem State.jobStart_only {ps : List Part} {s₀ s : State} (h : Only ps s₀ s)
    (hp : Parts [.regs, .units, .env, .gen, .ring, .mail, .ev, .cip, .ctx, .tmp, .tx, .ttb, .rx, .coh, .bkp, .mem, .trace, .free] ps) : Only ps s₀ (State.jobStart s) := by
  unfold State.jobStart
  repeat' with_reducible first
    | exact h | exact Parts.trans (by decide) hp | intro _ | assumption | apply Only.ite | apply State.bump_only
    | apply State.updJob_only | apply State.plan_only | apply State.jobEnded_only | split | dsimp only

theorem State.lanePayload_only {ps : List Part} {s₀ s : State} {n : Nat} {r : LaneRec} {soft : List Int} {erased snr : Nat} (h : Only ps s₀ s)
    (hp : Parts [.regs, .units, .env, .mail, .ev, .rx, .coh, .trace, .free] ps) : Only ps s₀ (State.lanePayload s n r soft erased snr) := by
  unfold State.lanePayload
  repeat' with_reducible first
    | exact h | exact Parts.trans (by decide) hp | intro _ | assumption | apply Only.ite
    | apply State.beginDecode_only | apply State.forwardSoft_only | apply State.setLane_only | apply State.setRx_only
    | apply State.addCopy_only | split | dsimp only

theorem State.writeSbBase_only {ps : List Part} {s₀ s : State} {v : Nat} (h : Only ps s₀ s)
    (hp : Parts [.regs, .units, .ctx, .coh, .bkp, .mem] ps) : Only ps s₀ (State.writeSbBase s v) := by
  unfold State.writeSbBase
  repeat' with_reducible first
    | exact h | exact Parts.trans (by decide) hp | intro _ | assumption | apply Only.ite
    | apply State.freeBuffers_only | apply State.wr_only | apply State.put_only | split | dsimp only

end Sys2Proof.Machine
end

