-- ==== Sys2Proof/Laws/OnlyCommit.lean ====
section
/-!
SUPPORT. What each operation of Machine/Commit.lean leaves alone.
-/

namespace Sys2Proof.Machine

theorem State.requestMissing_only {ps : List Part} {s₀ s : State} {k : Nat} (h : Only ps s₀ s)
    (hp : Parts [.units, .coh] ps) : Only ps s₀ (State.requestMissing s k) := by
  unfold State.requestMissing
  repeat' with_reducible first
    | exact h | exact Parts.trans (by decide) hp | intro _ | assumption | apply Only.ite
    | apply State.requestBlock_only | split | dsimp only

theorem State.pushCommit_only {ps : List Part} {s₀ s : State} {dst : Nat} {b : Bank} {tables newGen interval : Nat} {boundary : Option Nat} {rewrites : List (Prod Nat (Prod Bool (List Byte)))} {releases : List Nat} (h : Only ps s₀ s)
    (hp : Parts [.units, .coh] ps) : Only ps s₀ (State.pushCommit s dst b tables newGen interval boundary rewrites releases) := by
  unfold State.pushCommit
  repeat' with_reducible first
    | exact h | exact Parts.trans (by decide) hp | intro _ | assumption | apply Only.ite | apply State.issue_only
    | split | dsimp only

theorem State.calSwitched_only {ps : List Part} {s₀ s : State} (h : Only ps s₀ s)
    (hp : Parts [.regs, .tab, .tx, .free] ps) : Only ps s₀ (State.calSwitched s) := by
  unfold State.calSwitched
  repeat' with_reducible first
    | exact h | exact Parts.trans (by decide) hp | intro _ | assumption | rw [lit_tx_tab] | rw [lit_tx] | rw [lit_tab]
    | apply Only.ite | refine Only.foldl (fun _ _ _ => ?_) ?_ | refine Only.foldl_fst (fun _ _ _ => ?_) ?_
    | apply State.fillReceive_only | apply State.setCalRec_only | apply State.abandonSlice_only
    | refine State.with_tab_only ?_ ?_ | refine State.with_tx_only ?_ ?_ | split | dsimp only

theorem State.changeoverEnd_only {ps : List Part} {s₀ s : State} (h : Only ps s₀ s)
    (hp : Parts [.units, .gen, .ring, .cip, .ctx, .tab, .tx, .coh, .bkp, .mem] ps) : Only ps s₀ (State.changeoverEnd s) := by
  unfold State.changeoverEnd
  repeat' with_reducible first
    | exact h | exact Parts.trans (by decide) hp | intro _ | assumption | rw [lit_tx_tab] | rw [lit_ctx_gen_tab_tx]
    | rw [lit_ctx_gen] | rw [lit_gen_tab] | rw [lit_tx] | rw [lit_tab] | rw [lit_ctx] | rw [lit_gen] | apply Only.ite
    | refine Only.foldl (fun _ _ _ => ?_) ?_ | refine Only.foldl_fst (fun _ _ _ => ?_) ?_
    | apply State.freeBuffers_only | apply State.decide__only | apply State.setKeySlot_only
    | refine State.with_gen_only ?_ ?_ | refine State.with_ctx_only ?_ ?_ id | refine State.with_tab_only ?_ ?_
    | refine State.with_tx_only ?_ ?_ | split | dsimp only

theorem State.putRewrite_only {ps : List Part} {s₀ s : State} {k cycle : Nat} {delete : Bool} {img : List Byte} (h : Only ps s₀ s)
    (hp : Parts [.ctx] ps) : Only ps s₀ (State.putRewrite s k cycle delete img) := by
  unfold State.putRewrite
  repeat' with_reducible first
    | exact h | exact Parts.trans (by decide) hp | intro _ | assumption | apply Only.ite
    | apply State.setCtxImage_only | split | dsimp only

theorem State.gaspCommitted_only {ps : List Part} {s₀ s : State} {cycle : Nat} {r : Prod Nat (Prod Bool (List Byte))} (h : Only ps s₀ s)
    (hp : Parts [.regs, .units, .ring, .cip, .ctx, .ttb, .coh, .bkp, .mem, .trace] ps) : Only ps s₀ (State.gaspCommitted s cycle r) := by
  unfold State.gaspCommitted
  repeat' with_reducible first
    | exact h | exact Parts.trans (by decide) hp | intro _ | assumption | rw [lit_ttb] | apply Only.ite
    | apply State.ttbRecord_only | apply State.gaspDisarm_only | apply State.gaspCost_only
    | apply State.putRewrite_only | refine State.with_ttb_only ?_ ?_ | split | dsimp only

theorem State.switchTables_only {ps : List Part} {s₀ s : State} {c : Commit} (h : Only ps s₀ s)
    (hp : Parts [.regs, .units, .gen, .ring, .ev, .cip, .ctx, .tab, .tx, .ttb, .rx, .coh, .bkp, .mem, .trace, .free] ps) : Only ps s₀ (State.switchTables s c) := by
  unfold State.switchTables
  repeat' with_reducible first
    | exact h | exact Parts.trans (by decide) hp | intro _ | assumption | rw [lit_gen_tab] | rw [lit_tab]
    | rw [lit_gen] | apply Only.ite | refine Only.foldl (fun _ _ _ => ?_) ?_
    | refine Only.foldl_fst (fun _ _ _ => ?_) ?_ | apply State.wr_only | apply State.timetableSwitched_only
    | apply State.watchSwitched_only | apply State.gaspCommitted_only | apply State.rulesSwitched_only
    | apply State.cohRecord_only | apply State.calSwitched_only | apply State.updWork_only | apply State.setCoh_only
    | refine State.with_gen_only ?_ ?_ | refine State.with_tab_only ?_ ?_ | split | dsimp only

theorem State.commitBoundaryStep_only {ps : List Part} {s₀ s : State} (h : Only ps s₀ s)
    (hp : Parts [.regs, .units, .gen, .ring, .ev, .cip, .ctx, .tab, .tx, .ttb, .rx, .coh, .bkp, .mem, .trace, .free] ps) : Only ps s₀ (State.commitBoundaryStep s) := by
  unfold State.commitBoundaryStep
  repeat' with_reducible first
    | exact h | exact Parts.trans (by decide) hp | intro _ | assumption | apply Only.ite
    | apply State.switchTables_only | split | dsimp only

theorem State.commitOp_only {ps : List Part} {s₀ s : State} {w : Work} (h : Only ps s₀ s)
    (hp : Parts [.units, .gen, .ring, .coh] ps) : Only ps s₀ (State.commitOp s w) := by
  unfold State.commitOp
  repeat' with_reducible first
    | exact h | exact Parts.trans (by decide) hp | intro _ | assumption | rw [lit_gen] | apply Only.ite
    | apply State.decide__only | apply State.updWork_only | apply State.pushCommit_only
    | refine State.with_gen_only ?_ ?_ | split | dsimp only

theorem State.contextRewrite_only {ps : List Part} {s₀ s : State} (h : Only ps s₀ s)
    (hp : Parts [.regs, .units, .env, .gen, .ring, .mail, .ev, .cip, .ctx, .tmp, .tx, .ttb, .rx, .coh, .bkp, .mem, .trace, .free] ps) : Only ps s₀ (State.contextRewrite s) := by
  unfold State.contextRewrite
  repeat' with_reducible first
    | exact h | exact Parts.trans (by decide) hp | intro _ | assumption | rw [lit_ctx_gen] | rw [lit_ctx]
    | rw [lit_gen] | apply Only.ite | apply State.retryHeld_only | apply State.freeBuffers_only
    | apply State.putRewrite_only | apply State.ttbRecord_only | apply State.requestMissing_only
    | apply State.setCtxFlag_only | apply State.setCoh_only | refine State.with_gen_only ?_ ?_
    | refine State.with_ctx_only ?_ ?_ id | refine Only.fst (by assumption) ?_ | refine Only.snd (by assumption) ?_
    | split | dsimp only

end Sys2Proof.Machine
end

