-- ==== Sys2Proof/Laws/OnlyUpdate.lean ====
section
/-!
SUPPORT. What each operation of Machine/Update.lean leaves alone.
-/

namespace Sys2Proof.Machine

theorem State.setUpd_only {ps : List Part} {s₀ s : State} {f : UpdState → UpdState} (h : Only ps s₀ s)
    (hp : Parts [.upd] ps) : Only ps s₀ (State.setUpd s f) := by
  unfold State.setUpd
  repeat' with_reducible first
    | exact h | exact Parts.trans (by decide) hp | intro _ | assumption | rw [lit_upd]
    | refine State.with_upd_only ?_ ?_ | split | dsimp only

theorem State.updKick_only {ps : List Part} {s₀ s : State} (h : Only ps s₀ s)
    (hp : Parts [.regs, .units, .ring, .mem] ps) : Only ps s₀ (State.updKick s) := by
  unfold State.updKick
  repeat' with_reducible first
    | exact h | exact Parts.trans (by decide) hp | intro _ | assumption | apply Only.ite | apply State.updWork_only
    | apply State.norBegin_only | split | dsimp only

theorem State.updQueue_only {ps : List Part} {s₀ s : State} {k : UpdTask} (h : Only ps s₀ s)
    (hp : Parts [.regs, .units, .ring, .upd, .mem] ps) : Only ps s₀ (State.updQueue s k) := by
  unfold State.updQueue
  repeat' with_reducible first
    | exact h | exact Parts.trans (by decide) hp | intro _ | assumption | apply State.setUpd_only
    | apply State.updWork_only | apply State.updKick_only | split | dsimp only

theorem State.acceptSet_only {ps : List Part} {s₀ s : State} {idx : Option Nat} (h : Only ps s₀ s)
    (hp : Parts [.regs, .units, .ring, .upd, .mem] ps) : Only ps s₀ (State.acceptSet s idx) := by
  unfold State.acceptSet
  repeat' with_reducible first
    | exact h | exact Parts.trans (by decide) hp | intro _ | assumption | apply State.updQueue_only | split
    | dsimp only

theorem State.acceptTry_only {ps : List Part} {s₀ s : State} (h : Only ps s₀ s)
    (hp : Parts [.regs, .units, .ring, .coh, .upd, .mem] ps) : Only ps s₀ (State.acceptTry s) := by
  unfold State.acceptTry
  repeat' with_reducible first
    | exact h | exact Parts.trans (by decide) hp | intro _ | assumption | apply Only.ite | apply State.issue_only
    | apply State.setUpd_only | apply State.acceptSet_only | split | dsimp only

theorem State.activate_only {ps : List Part} {s₀ s : State} {idx : Option Nat} {epoch : Nat} (h : Only ps s₀ s)
    (hp : Parts [.regs, .units, .ring, .upd, .mem] ps) : Only ps s₀ (State.activate s idx epoch) := by
  unfold State.activate
  repeat' with_reducible first
    | exact h | exact Parts.trans (by decide) hp | intro _ | assumption | apply State.updQueue_only | split
    | dsimp only

theorem State.setUpdStage_only {ps : List Part} {s₀ s : State} {n : Nat} (h : Only ps s₀ s)
    (hp : Parts [.regs] ps) : Only ps s₀ (State.setUpdStage s n) := by
  unfold State.setUpdStage
  repeat' with_reducible first
    | exact h | exact Parts.trans (by decide) hp | intro _ | assumption | apply State.wr_only | split | dsimp only

theorem State.closeSet_only {ps : List Part} {s₀ s : State} (h : Only ps s₀ s)
    (hp : Parts [.regs, .units, .upd] ps) : Only ps s₀ (State.closeSet s).1 := by
  unfold State.closeSet
  repeat' with_reducible first
    | exact h | exact Parts.trans (by decide) hp | intro _ | assumption | apply Only.ite | apply State.setUpd_only
    | apply State.progress_only | apply State.setUpdStage_only | refine Only.fst (by assumption) ?_
    | refine Only.snd (by assumption) ?_ | split | dsimp only

theorem State.cohortActivation_only {ps : List Part} {s₀ s : State} (h : Only ps s₀ s)
    (hp : Parts [.regs, .units, .ring, .upd, .mem] ps) : Only ps s₀ (State.cohortActivation s) := by
  unfold State.cohortActivation
  repeat' with_reducible first
    | exact h | exact Parts.trans (by decide) hp | intro _ | assumption | apply Only.ite | apply State.activate_only
    | apply State.setUpd_only | split | dsimp only

theorem State.setHome_only {ps : List Part} {s₀ s : State} {f : HomeState → HomeState} (h : Only ps s₀ s)
    (hp : Parts [.upd] ps) : Only ps s₀ (State.setHome s f) := by
  unfold State.setHome
  repeat' with_reducible first
    | exact h | exact Parts.trans (by decide) hp | intro _ | assumption | apply State.setUpd_only | split | dsimp only

theorem State.homeEnd_only {ps : List Part} {s₀ s : State} (h : Only ps s₀ s)
    (hp : Parts [.regs, .tag] ps) : Only ps s₀ (State.homeEnd s) := by
  unfold State.homeEnd
  repeat' with_reducible first
    | exact h | exact Parts.trans (by decide) hp | intro _ | assumption | apply State.wr_only
    | apply State.setTagBytes_only | refine State.setTag_only ?_ ?_ id | split | dsimp only

theorem State.updStatus_only {ps : List Part} {s₀ s : State} {st : Nat} (h : Only ps s₀ s)
    (hp : Parts [.regs] ps) : Only ps s₀ (State.updStatus s st) := by
  unfold State.updStatus
  repeat' with_reducible first
    | exact h | exact Parts.trans (by decide) hp | intro _ | assumption | apply Only.ite | apply State.bump_only
    | split | dsimp only

theorem State.homeReply_only {ps : List Part} {s₀ s : State} {type seq : Nat} {pay : List Byte} (h : Only ps s₀ s)
    (hp : Parts [.upd] ps) : Only ps s₀ (State.homeReply s type seq pay) := by
  unfold State.homeReply
  repeat' with_reducible first
    | exact h | exact Parts.trans (by decide) hp | intro _ | assumption | apply State.setHome_only
    | refine Only.fst (by assumption) ?_ | refine Only.snd (by assumption) ?_ | split | dsimp only

theorem State.updAnswer_only {ps : List Part} {s₀ s : State} {idx seq : Option Nat} {type st result : Nat} (h : Only ps s₀ s)
    (hp : Parts [.regs, .ring, .upd] ps) : Only ps s₀ (State.updAnswer s idx seq type st result) := by
  unfold State.updAnswer
  repeat' with_reducible first
    | exact h | exact Parts.trans (by decide) hp | intro _ | assumption | apply State.updStatus_only
    | apply State.decide__only | apply State.homeReply_only | split | dsimp only

theorem State.homeFinish_only {ps : List Part} {s₀ s : State} {seq : Nat} (h : Only ps s₀ s)
    (hp : Parts [.regs, .units, .ring, .upd, .mem] ps) : Only ps s₀ (State.homeFinish s seq) := by
  unfold State.homeFinish
  repeat' with_reducible first
    | exact h | exact Parts.trans (by decide) hp | intro _ | assumption | apply Only.ite | apply State.updAnswer_only
    | apply State.closeSet_only | apply State.updQueue_only | refine Only.fst (by assumption) ?_
    | refine Only.snd (by assumption) ?_ | split | dsimp only

theorem State.homeRestart_only {ps : List Part} {s₀ s : State} (h : Only ps s₀ s)
    (hp : Parts [.regs, .units, .env, .gen, .ring, .mail, .ev, .per, .cip, .ctx, .tag, .tmp, .tab, .cap, .tx, .ttb, .rx, .coh, .upd, .boot, .doms, .bkp, .cores, .mem, .bus, .pins, .phase, .trace, .ledger, .free] ps) : Only ps s₀ (State.homeRestart s) := by
  unfold State.homeRestart
  repeat' with_reducible first
    | exact h | exact Parts.trans (by decide) hp | intro _ | assumption | apply State.stageTwo_only
    | apply State.homeEnd_only | apply State.resetDomains_only | split | dsimp only

theorem State.homeTake_only {ps : List Part} {s₀ s : State} {h_ : HomeHead} {f : State → State} (h : Only ps s₀ s)
    (hp : Parts [.upd] ps) (hf : ∀ t, Only ps s₀ t → Only ps s₀ (f t)) : Only ps s₀ (State.homeTake s h_ f) := by
  unfold State.homeTake
  repeat' with_reducible first
    | exact h | exact Parts.trans (by decide) hp | intro _ | assumption | apply Only.ite | apply hf
    | apply State.setHome_only | refine Only.fst (by assumption) ?_ | refine Only.snd (by assumption) ?_ | split
    | dsimp only

theorem State.homeTimeout_only {ps : List Part} {s₀ s : State} (h : Only ps s₀ s)
    (hp : Parts [.regs, .units, .env, .gen, .ring, .mail, .ev, .per, .cip, .ctx, .tag, .tmp, .tab, .cap, .tx, .ttb, .rx, .coh, .upd, .boot, .doms, .bkp, .cores, .mem, .bus, .pins, .phase, .trace, .ledger, .free] ps) : Only ps s₀ (State.homeTimeout s) := by
  unfold State.homeTimeout
  repeat' with_reducible first
    | exact h | exact Parts.trans (by decide) hp | intro _ | assumption | apply Only.ite
    | apply State.homeRestart_only | split | dsimp only

theorem State.leaveTry_only {ps : List Part} {s₀ s : State} (h : Only ps s₀ s)
    (hp : Parts [.regs, .units, .env, .gen, .ring, .mail, .ev, .per, .cip, .ctx, .tag, .tmp, .tab, .cap, .tx, .ttb, .rx, .coh, .upd, .boot, .doms, .bkp, .cores, .mem, .bus, .pins, .phase, .trace, .ledger, .free] ps) : Only ps s₀ (State.leaveTry s) := by
  unfold State.leaveTry
  repeat' with_reducible first
    | exact h | exact Parts.trans (by decide) hp | intro _ | assumption | apply Only.ite
    | apply State.warmRestart_only | split | dsimp only

theorem State.leave_only {ps : List Part} {s₀ s : State} {idx : Option Nat} (h : Only ps s₀ s)
    (hp : Parts [.regs, .units, .env, .gen, .ring, .mail, .ev, .per, .cip, .ctx, .tag, .tmp, .tab, .cap, .tx, .ttb, .rx, .coh, .upd, .boot, .doms, .bkp, .cores, .mem, .bus, .pins, .phase, .trace, .ledger, .free] ps) : Only ps s₀ (State.leave s idx) := by
  unfold State.leave
  repeat' with_reducible first
    | exact h | exact Parts.trans (by decide) hp | intro _ | assumption | rw [lit_ring]
    | refine Only.foldl (fun _ _ _ => ?_) ?_ | refine Only.foldl_fst (fun _ _ _ => ?_) ?_
    | apply State.disableRing_only | apply State.setUpd_only | apply State.leaveTry_only
    | refine State.with_ring_only ?_ ?_ | refine Only.fst (by assumption) ?_ | refine Only.snd (by assumption) ?_
    | split | dsimp only

theorem State.leaveBound_only {ps : List Part} {s₀ s : State} (h : Only ps s₀ s)
    (hp : Parts [.regs, .units, .env, .gen, .ring, .mail, .ev, .per, .cip, .ctx, .tag, .tmp, .tab, .cap, .tx, .ttb, .rx, .coh, .upd, .boot, .doms, .bkp, .cores, .mem, .bus, .pins, .phase, .trace, .ledger, .free] ps) : Only ps s₀ (State.leaveBound s) := by
  unfold State.leaveBound
  repeat' with_reducible first
    | exact h | exact Parts.trans (by decide) hp | intro _ | assumption | apply Only.ite
    | apply State.warmRestart_only | split | dsimp only

theorem State.updFinish_only {ps : List Part} {s₀ s : State} {k : UpdTask} (h : Only ps s₀ s)
    (hp : Parts [.regs, .units, .env, .gen, .ring, .mail, .ev, .per, .cip, .ctx, .tag, .tmp, .tab, .cap, .tx, .ttb, .rx, .coh, .upd, .boot, .doms, .bkp, .cores, .mem, .bus, .pins, .phase, .trace, .ledger, .free] ps) : Only ps s₀ (State.updFinish s k) := by
  unfold State.updFinish
  repeat' with_reducible first
    | exact h | exact Parts.trans (by decide) hp | intro _ | assumption | apply State.updAnswer_only
    | apply State.wr_only | apply State.setUpd_only | apply State.setHome_only | apply State.leave_only
    | apply State.setUpdStage_only | apply State.warmRestart_only | refine Only.fst (by assumption) ?_
    | refine Only.snd (by assumption) ?_ | split | dsimp only

theorem State.norOperationEnd_only {ps : List Part} {s₀ s : State} {ok : Bool} (h : Only ps s₀ s)
    (hp : Parts [.regs, .units, .env, .gen, .ring, .mail, .ev, .per, .cip, .ctx, .tag, .tmp, .tab, .cap, .tx, .ttb, .rx, .coh, .upd, .boot, .doms, .bkp, .cores, .mem, .bus, .pins, .phase, .trace, .ledger, .free] ps) : Only ps s₀ (State.norOperationEnd s ok) := by
  unfold State.norOperationEnd
  repeat' first
    | (with_reducible first
        | exact h | exact Parts.trans (by decide) hp)
    | exact fun _ => ⟨rfl, rfl⟩
    | (with_reducible first
        | intro _ | assumption | apply Only.ite | apply State.setUpd_only | apply State.setMem_only
        | apply State.updFinish_only | apply State.norEnd_only | apply State.progress_only | apply State.updKick_only
        | apply State.norDone_only | apply State.put_only | refine Only.fst (by assumption) ?_
        | refine Only.snd (by assumption) ?_ | split | dsimp only)

theorem State.openSlot_only {ps : List Part} {s₀ s : State} {slot : Nat} {head : List Byte} {idx seq : Option Nat} (h : Only ps s₀ s)
    (hp : Parts [.regs, .units, .ring, .upd, .mem] ps) : Only ps s₀ (State.openSlot s slot head idx seq) := by
  unfold State.openSlot
  repeat' with_reducible first
    | exact h | exact Parts.trans (by decide) hp | intro _ | assumption | apply State.setUpd_only
    | apply State.updQueue_only | apply State.setUpdStage_only | apply State.put_only | split | dsimp only

theorem State.prepareAbort_only {ps : List Part} {s₀ s : State} (h : Only ps s₀ s)
    (hp : Parts [.ring, .upd] ps) : Only ps s₀ (State.prepareAbort s) := by
  unfold State.prepareAbort
  repeat' with_reducible first
    | exact h | exact Parts.trans (by decide) hp | intro _ | assumption | apply State.decide__only
    | apply State.setUpd_only | split | dsimp only

theorem State.prepared_only {ps : List Part} {s₀ s : State} (h : Only ps s₀ s)
    (hp : Parts [.units, .coh, .upd] ps) : Only ps s₀ (State.prepared s) := by
  unfold State.prepared
  repeat' with_reducible first
    | exact h | exact Parts.trans (by decide) hp | intro _ | assumption | apply Only.ite | apply State.issue_only
    | apply State.setUpd_only | split | dsimp only

theorem State.prepareAnswer_only {ps : List Part} {s₀ s : State} {m stage digest : Nat} (h : Only ps s₀ s)
    (hp : Parts [.units, .ring, .coh, .upd] ps) : Only ps s₀ (State.prepareAnswer s m stage digest) := by
  unfold State.prepareAnswer
  repeat' with_reducible first
    | exact h | exact Parts.trans (by decide) hp | intro _ | assumption | apply Only.ite | apply State.setUpd_only
    | apply State.prepareAbort_only | apply State.prepared_only | split | dsimp only

theorem State.prepareTimeout_only {ps : List Part} {s₀ s : State} (h : Only ps s₀ s)
    (hp : Parts [.ring, .upd] ps) : Only ps s₀ (State.prepareTimeout s) := by
  unfold State.prepareTimeout
  repeat' with_reducible first
    | exact h | exact Parts.trans (by decide) hp | intro _ | assumption | apply Only.ite
    | apply State.prepareAbort_only | split | dsimp only

theorem State.revertSet_only {ps : List Part} {s₀ s : State} {idx : Option Nat} (h : Only ps s₀ s)
    (hp : Parts [.regs, .units, .ring, .upd, .mem] ps) : Only ps s₀ (State.revertSet s idx) := by
  unfold State.revertSet
  repeat' with_reducible first
    | exact h | exact Parts.trans (by decide) hp | intro _ | assumption | apply Only.ite | apply State.updQueue_only
    | split | dsimp only

theorem State.revertAll_only {ps : List Part} {s₀ s : State} {idx : Option Nat} (h : Only ps s₀ s)
    (hp : Parts [.regs, .units, .ring, .coh, .upd, .mem] ps) : Only ps s₀ (State.revertAll s idx) := by
  unfold State.revertAll
  repeat' with_reducible first
    | exact h | exact Parts.trans (by decide) hp | intro _ | assumption | apply Only.ite | apply State.revertSet_only
    | apply State.issue_only | split | dsimp only

theorem State.stageBlock_only {ps : List Part} {s₀ s : State} {entry n crc : Nat} {data : List Byte} {idx seq : Option Nat} (h : Only ps s₀ s)
    (hp : Parts [.regs, .units, .ring, .upd, .mem] ps) : Only ps s₀ (State.stageBlock s entry n crc data idx seq) := by
  unfold State.stageBlock
  repeat' with_reducible first
    | exact h | exact Parts.trans (by decide) hp | intro _ | assumption | apply Only.ite | apply State.updAnswer_only
    | apply State.updQueue_only | refine Only.fst (by assumption) ?_ | refine Only.snd (by assumption) ?_ | split
    | dsimp only

theorem State.trialExpiry_only {ps : List Part} {s₀ s : State} (h : Only ps s₀ s)
    (hp : Parts [.regs, .units, .ring, .coh, .upd, .mem] ps) : Only ps s₀ (State.trialExpiry s) := by
  unfold State.trialExpiry
  repeat' with_reducible first
    | exact h | exact Parts.trans (by decide) hp | intro _ | assumption | apply Only.ite | apply State.revertAll_only
    | split | dsimp only

theorem State.updAccept_only {ps : List Part} {s₀ s : State} {w : Work} (h : Only ps s₀ s)
    (hp : Parts [.regs, .units, .ring, .coh, .upd, .mem] ps) : Only ps s₀ (State.updAccept s w) := by
  unfold State.updAccept
  repeat' with_reducible first
    | exact h | exact Parts.trans (by decide) hp | intro _ | assumption | apply Only.ite | apply State.decide__only
    | apply State.setUpd_only | apply State.updWork_only | apply State.acceptTry_only | apply State.acceptSet_only
    | split | dsimp only

theorem State.updActivate_only {ps : List Part} {s₀ s : State} {w : Work} (h : Only ps s₀ s)
    (hp : Parts [.regs, .units, .ring, .coh, .upd, .mem] ps) : Only ps s₀ (State.updActivate s w) := by
  unfold State.updActivate
  repeat' with_reducible first
    | exact h | exact Parts.trans (by decide) hp | intro _ | assumption | apply Only.ite | apply State.activate_only
    | apply State.issue_only | apply State.decide__only | apply State.setUpd_only | apply State.updWork_only
    | apply State.prepared_only | refine Only.fst (by assumption) ?_ | refine Only.snd (by assumption) ?_ | split
    | dsimp only

theorem State.updBlock_only {ps : List Part} {s₀ s : State} {w : Work} (h : Only ps s₀ s)
    (hp : Parts [.regs, .units, .ring, .upd, .mem] ps) : Only ps s₀ (State.updBlock s w) := by
  unfold State.updBlock
  repeat' with_reducible first
    | exact h | exact Parts.trans (by decide) hp | intro _ | assumption | apply Only.ite | apply State.decide__only
    | apply State.stageBlock_only | split | dsimp only

theorem State.updClose_only {ps : List Part} {s₀ s : State} {w : Work} (h : Only ps s₀ s)
    (hp : Parts [.regs, .units, .ring, .upd] ps) : Only ps s₀ (State.updClose s w) := by
  unfold State.updClose
  repeat' with_reducible first
    | exact h | exact Parts.trans (by decide) hp | intro _ | assumption | apply State.updAnswer_only
    | apply State.closeSet_only | refine Only.fst (by assumption) ?_ | refine Only.snd (by assumption) ?_ | split
    | dsimp only

theorem State.updMessage_only {ps : List Part} {s₀ s : State} {op x : Nat} (h : Only ps s₀ s)
    (hp : Parts [.regs, .units, .ring, .coh, .upd, .mem] ps) : Only ps s₀ (State.updMessage s op x) := by
  unfold State.updMessage
  repeat' with_reducible first
    | exact h | exact Parts.trans (by decide) hp | intro _ | assumption | apply Only.ite | apply State.revertSet_only
    | apply State.setUpd_only | apply State.revertAll_only | apply State.acceptSet_only | split | dsimp only

theorem State.updOpen_only {ps : List Part} {s₀ s : State} {w : Work} (h : Only ps s₀ s)
    (hp : Parts [.regs, .units, .ring, .upd, .mem] ps) : Only ps s₀ (State.updOpen s w) := by
  unfold State.updOpen
  repeat' with_reducible first
    | exact h | exact Parts.trans (by decide) hp | intro _ | assumption | apply Only.ite | apply State.updAnswer_only
    | apply State.decide__only | apply State.openSlot_only | split | dsimp only

theorem State.updRevert_only {ps : List Part} {s₀ s : State} {w : Work} (h : Only ps s₀ s)
    (hp : Parts [.regs, .units, .ring, .coh, .upd, .mem] ps) : Only ps s₀ (State.updRevert s w) := by
  unfold State.updRevert
  repeat' with_reducible first
    | exact h | exact Parts.trans (by decide) hp | intro _ | assumption | apply Only.ite | apply State.revertAll_only
    | apply State.decide__only | split | dsimp only

end Sys2Proof.Machine
end

