-- ==== Sys2Proof/Laws/OnlyCohort.lean ====
section
/-!
SUPPORT. What each operation of Machine/Cohort.lean leaves alone.
-/

namespace Sys2Proof.Machine

theorem State.ackRequest_only {ps : List Part} {s₀ s : State} {f : CohFrame} {pay : List Byte} {keep : Bool} (h : Only ps s₀ s)
    (hp : Parts [.regs, .units, .gen, .ring, .tx, .ttb] ps) : Only ps s₀ (State.ackRequest s f pay keep) := by
  unfold State.ackRequest
  repeat' with_reducible first
    | exact h | exact Parts.trans (by decide) hp | intro _ | assumption | apply State.sendAck_only | split
    | dsimp only

theorem State.loseLead_only {ps : List Part} {s₀ s : State} (h : Only ps s₀ s)
    (hp : Parts [.regs, .units, .env, .mail, .ev, .coh, .trace] ps) : Only ps s₀ (State.loseLead s) := by
  unfold State.loseLead
  repeat' with_reducible first
    | exact h | exact Parts.trans (by decide) hp | intro _ | assumption | apply Only.ite | apply State.wr_only
    | apply State.envBreak_only | apply State.setCoh_only | split | dsimp only

theorem State.beginElection_only {ps : List Part} {s₀ s : State} (h : Only ps s₀ s)
    (hp : Parts [.regs, .units, .env, .mail, .ev, .coh, .trace] ps) : Only ps s₀ (State.beginElection s) := by
  unfold State.beginElection
  repeat' with_reducible first
    | exact h | exact Parts.trans (by decide) hp | intro _ | assumption | apply Only.ite | apply State.wr_only
    | apply State.loseLead_only | apply State.bump_only | apply State.issue_only | apply State.setCoh_only
    | refine Only.fst (by assumption) ?_ | refine Only.snd (by assumption) ?_ | split | dsimp only

theorem State.cohortStart_only {ps : List Part} {s₀ s : State} (h : Only ps s₀ s)
    (hp : Parts [.regs, .units, .env, .mail, .ev, .coh, .trace] ps) : Only ps s₀ (State.cohortStart s) := by
  unfold State.cohortStart
  repeat' with_reducible first
    | exact h | exact Parts.trans (by decide) hp | intro _ | assumption | apply Only.ite
    | apply State.beginElection_only | split | dsimp only

theorem State.requestAll_only {ps : List Part} {s₀ s : State} (h : Only ps s₀ s)
    (hp : Parts [.units, .coh] ps) : Only ps s₀ (State.requestAll s) := by
  unfold State.requestAll
  repeat' with_reducible first
    | exact h | exact Parts.trans (by decide) hp | intro _ | assumption | refine Only.foldl (fun _ _ _ => ?_) ?_
    | refine Only.foldl_fst (fun _ _ _ => ?_) ?_ | apply State.requestMissing_only | apply State.setCoh_only | split
    | dsimp only

theorem State.reassignLost_only {ps : List Part} {s₀ s : State} (h : Only ps s₀ s)
    (hp : Parts [.units, .gen, .coh] ps) : Only ps s₀ (State.reassignLost s) := by
  unfold State.reassignLost
  repeat' with_reducible first
    | exact h | exact Parts.trans (by decide) hp | intro _ | assumption | rw [lit_gen] | apply Only.ite
    | apply State.setCoh_only | apply State.pushCommit_only | refine State.with_gen_only ?_ ?_
    | refine Only.fst (by assumption) ?_ | refine Only.snd (by assumption) ?_ | split | dsimp only

theorem State.leadKnown_only {ps : List Part} {s₀ s : State} {epoch lead : Nat} (h : Only ps s₀ s)
    (hp : Parts [.regs, .units, .env, .ring, .mail, .ev, .coh, .bkp, .mem, .trace] ps) : Only ps s₀ (State.leadKnown s epoch lead) := by
  unfold State.leadKnown
  repeat' with_reducible first
    | exact h | exact Parts.trans (by decide) hp | intro _ | assumption | apply Only.ite | apply State.wr_only
    | apply State.envRestore_only | apply State.setCoh_only | apply State.cohRecord_only | split | dsimp only

theorem State.becomeLead_only {ps : List Part} {s₀ s : State} (h : Only ps s₀ s)
    (hp : Parts [.regs, .units, .env, .gen, .ring, .mail, .ev, .coh, .bkp, .mem, .trace] ps) : Only ps s₀ (State.becomeLead s) := by
  unfold State.becomeLead
  repeat' with_reducible first
    | exact h | exact Parts.trans (by decide) hp | intro _ | assumption | refine Only.foldl (fun _ _ _ => ?_) ?_
    | refine Only.foldl_fst (fun _ _ _ => ?_) ?_ | apply State.wr_only | apply State.issue_only
    | apply State.requestAll_only | apply State.reassignLost_only | apply State.setCoh_only
    | apply State.leadKnown_only | split | dsimp only

theorem State.cohReceive_only {ps : List Part} {s₀ s : State} {h_ : CohHead} {free : Bool} {f : State → State} (h : Only ps s₀ s)
    (hp : Parts [.regs, .units, .env, .mail, .ev, .trace] ps) (hf : ∀ t, Only ps s₀ t → Only ps s₀ (f t)) : Only ps s₀ (State.cohReceive s h_ free f) := by
  unfold State.cohReceive
  repeat' with_reducible first
    | exact h | exact Parts.trans (by decide) hp | intro _ | assumption | apply Only.ite | apply hf
    | apply State.progress_only | apply State.bump_only | apply State.envBreak_only | split | dsimp only

theorem State.decodedCame_only {ps : List Part} {s₀ s : State} {f : CohFrame} {soft : Bool} {sets : Nat} {pay : List Byte} (h : Only ps s₀ s)
    (hp : Parts [.regs, .units, .env, .gen, .ring, .mail, .ev, .cip, .ctx, .tmp, .tx, .ttb, .rx, .coh, .bkp, .mem, .trace, .free] ps) : Only ps s₀ (State.decodedCame s f soft sets pay) := by
  unfold State.decodedCame
  repeat' with_reducible first
    | exact h | exact Parts.trans (by decide) hp | intro _ | assumption | apply Only.ite | apply State.cohortAck_only
    | apply State.linkFrame_only | apply State.setRx_only | split | dsimp only

theorem State.elect_only {ps : List Part} {s₀ s : State} {m epoch : Nat} (h : Only ps s₀ s)
    (hp : Parts [.coh] ps) : Only ps s₀ (State.elect s m epoch) := by
  unfold State.elect
  repeat' with_reducible first
    | exact h | exact Parts.trans (by decide) hp | intro _ | assumption | apply Only.ite | apply State.setCoh_only
    | refine Only.fst (by assumption) ?_ | refine Only.snd (by assumption) ?_ | split | dsimp only

theorem State.enterQuiet_only {ps : List Part} {s₀ s : State} (h : Only ps s₀ s)
    (hp : Parts [.regs, .units, .env, .ring, .mail, .ev, .coh, .bkp, .mem, .trace] ps) : Only ps s₀ (State.enterQuiet s) := by
  unfold State.enterQuiet
  repeat' with_reducible first
    | exact h | exact Parts.trans (by decide) hp | intro _ | assumption | apply Only.ite | apply State.wr_only
    | apply State.loseLead_only | apply State.setCoh_only | apply State.cohRecord_only | split | dsimp only

theorem State.electionEnd_only {ps : List Part} {s₀ s : State} (h : Only ps s₀ s)
    (hp : Parts [.regs, .units, .env, .gen, .ring, .mail, .ev, .coh, .bkp, .mem, .trace] ps) : Only ps s₀ (State.electionEnd s) := by
  unfold State.electionEnd
  repeat' with_reducible first
    | exact h | exact Parts.trans (by decide) hp | intro _ | assumption | apply Only.ite | apply State.enterQuiet_only
    | apply State.becomeLead_only | apply State.setCoh_only | split | dsimp only

theorem State.electionRetry_only {ps : List Part} {s₀ s : State} (h : Only ps s₀ s)
    (hp : Parts [.regs, .units, .env, .mail, .ev, .coh, .trace] ps) : Only ps s₀ (State.electionRetry s) := by
  unfold State.electionRetry
  repeat' with_reducible first
    | exact h | exact Parts.trans (by decide) hp | intro _ | assumption | apply Only.ite
    | apply State.beginElection_only | split | dsimp only

theorem State.followLead_only {ps : List Part} {s₀ s : State} {epoch lead : Nat} (h : Only ps s₀ s)
    (hp : Parts [.regs, .units, .env, .ring, .mail, .ev, .coh, .bkp, .mem, .trace] ps) : Only ps s₀ (State.followLead s epoch lead) := by
  unfold State.followLead
  repeat' with_reducible first
    | exact h | exact Parts.trans (by decide) hp | intro _ | assumption | apply Only.ite | apply State.wr_only
    | apply State.loseLead_only | apply State.enterQuiet_only | apply State.setCoh_only | apply State.leadKnown_only
    | split | dsimp only

theorem State.grantBlock_only {ps : List Part} {s₀ s : State} {k : Nat} (h : Only ps s₀ s)
    (hp : Parts [.regs, .units, .ring, .ctx, .coh, .bkp, .mem] ps) : Only ps s₀ (State.grantBlock s k) := by
  unfold State.grantBlock
  repeat' with_reducible first
    | exact h | exact Parts.trans (by decide) hp | intro _ | assumption | apply Only.ite | apply State.ttbRecord_only
    | apply State.issue_only | apply State.setCtxFlag_only | apply State.setCoh_only | split | dsimp only

theorem State.grantCame_only {ps : List Part} {s₀ s : State} {k b : Nat} (h : Only ps s₀ s)
    (hp : Parts [.regs, .units, .gen, .ring, .cip, .ctx, .tx, .ttb, .coh, .bkp, .mem, .trace] ps) : Only ps s₀ (State.grantCame s k b) := by
  unfold State.grantCame
  repeat' with_reducible first
    | exact h | exact Parts.trans (by decide) hp | intro _ | assumption | apply Only.ite
    | apply State.resumeSends_only | apply State.setCoh_only | apply State.setCtxNum_only | split | dsimp only

theorem State.helloEcho_only {ps : List Part} {s₀ s : State} {m : Nat} {west : Bool} {echo : Nat} (h : Only ps s₀ s)
    (hp : Parts [.regs, .coh] ps) : Only ps s₀ (State.helloEcho s m west echo) := by
  unfold State.helloEcho
  repeat' with_reducible first
    | exact h | exact Parts.trans (by decide) hp | intro _ | assumption | apply Only.ite | apply State.wr_only
    | apply State.setCoh_only | split | dsimp only

theorem State.leadHello_only {ps : List Part} {s₀ s : State} {digest gen : Nat} (h : Only ps s₀ s)
    (hp : Parts [.regs, .units, .ring, .coh, .bkp, .mem] ps) : Only ps s₀ (State.leadHello s digest gen) := by
  unfold State.leadHello
  repeat' with_reducible first
    | exact h | exact Parts.trans (by decide) hp | intro _ | assumption | apply Only.ite | apply State.wr_only
    | apply State.setCoh_only | apply State.cohRecord_only | split | dsimp only

theorem State.resyncMember_only {ps : List Part} {s₀ s : State} {m gen : Nat} (h : Only ps s₀ s)
    (hp : Parts [.units, .coh] ps) : Only ps s₀ (State.resyncMember s m gen) := by
  unfold State.resyncMember
  repeat' with_reducible first
    | exact h | exact Parts.trans (by decide) hp | intro _ | assumption | apply Only.ite | apply State.setCoh_only
    | apply State.pushCommit_only | split | dsimp only

theorem State.helloCame_only {ps : List Part} {s₀ s : State} {m : Nat} {west : Bool} {seq state epoch digest gen echo : Nat} (h : Only ps s₀ s)
    (hp : Parts [.regs, .units, .env, .ring, .mail, .ev, .coh, .upd, .bkp, .mem, .trace] ps) : Only ps s₀ (State.helloCame s m west seq state epoch digest gen echo) := by
  unfold State.helloCame
  repeat' with_reducible first
    | exact h | exact Parts.trans (by decide) hp | intro _ | assumption | apply Only.ite | apply State.helloEcho_only
    | apply State.wr_only | apply State.leadHello_only | apply State.enterQuiet_only | apply State.followLead_only
    | apply State.requestAll_only | apply State.acceptTry_only | apply State.resyncMember_only
    | apply State.beginElection_only | apply State.setCoh_only | apply State.cohRecord_only | split | dsimp only

theorem State.leadLoss_only {ps : List Part} {s₀ s : State} (h : Only ps s₀ s)
    (hp : Parts [.regs, .units, .env, .mail, .ev, .coh, .trace] ps) : Only ps s₀ (State.leadLoss s) := by
  unfold State.leadLoss
  repeat' with_reducible first
    | exact h | exact Parts.trans (by decide) hp | intro _ | assumption | apply Only.ite
    | apply State.beginElection_only | split | dsimp only

theorem State.leaderCame_only {ps : List Part} {s₀ s : State} {lead epoch : Nat} {high : List (Prod Nat Nat)} (h : Only ps s₀ s)
    (hp : Parts [.regs, .units, .env, .ring, .mail, .ev, .coh, .bkp, .mem, .trace] ps) : Only ps s₀ (State.leaderCame s lead epoch high) := by
  unfold State.leaderCame
  repeat' with_reducible first
    | exact h | exact Parts.trans (by decide) hp | intro _ | assumption | apply Only.ite
    | refine Only.foldl (fun _ _ _ => ?_) ?_ | refine Only.foldl_fst (fun _ _ _ => ?_) ?_
    | apply State.followLead_only | apply State.requestAll_only | apply State.setCoh_only | split | dsimp only

theorem State.sendHello_only {ps : List Part} {s₀ s : State} (h : Only ps s₀ s)
    (hp : Parts [.units, .coh] ps) : Only ps s₀ (State.sendHello s) := by
  unfold State.sendHello
  repeat' with_reducible first
    | exact h | exact Parts.trans (by decide) hp | intro _ | assumption | apply State.issue_only
    | apply State.setCoh_only | refine Only.fst (by assumption) ?_ | refine Only.snd (by assumption) ?_ | split
    | dsimp only

theorem State.majorityLoss_only {ps : List Part} {s₀ s : State} (h : Only ps s₀ s)
    (hp : Parts [.regs, .units, .env, .ring, .mail, .ev, .coh, .bkp, .mem, .trace] ps) : Only ps s₀ (State.majorityLoss s) := by
  unfold State.majorityLoss
  repeat' with_reducible first
    | exact h | exact Parts.trans (by decide) hp | intro _ | assumption | apply Only.ite | apply State.enterQuiet_only
    | apply State.sendHello_only | split | dsimp only

theorem State.memberLost_only {ps : List Part} {s₀ s : State} {m : Nat} (h : Only ps s₀ s)
    (hp : Parts [.regs, .units, .gen, .ring, .coh, .bkp, .mem] ps) : Only ps s₀ (State.memberLost s m) := by
  unfold State.memberLost
  repeat' with_reducible first
    | exact h | exact Parts.trans (by decide) hp | intro _ | assumption | apply Only.ite | apply State.wr_only
    | apply State.reassignLost_only | apply State.setCoh_only | apply State.cohRecord_only | split | dsimp only

theorem State.noticeCame_only {ps : List Part} {s₀ s : State} {m dst tag ptr agent : Nat} {prot : Bool} (h : Only ps s₀ s)
    (hp : Parts [.regs, .units, .mail, .ev, .coh, .trace] ps) : Only ps s₀ (State.noticeCame s m dst tag ptr agent prot) := by
  unfold State.noticeCame
  repeat' with_reducible first
    | exact h | exact Parts.trans (by decide) hp | intro _ | assumption | apply Only.ite | apply State.issue_only
    | apply State.bump_only | apply State.deliverNotice_only | refine Only.fst (by assumption) ?_
    | refine Only.snd (by assumption) ?_ | split | dsimp only

theorem State.pushCame_only {ps : List Part} {s₀ s : State} {m : Nat} {p : CohPush} (h : Only ps s₀ s)
    (hp : Parts [.gen, .tab] ps) : Only ps s₀ (State.pushCame s m p) := by
  unfold State.pushCame
  repeat' with_reducible first
    | exact h | exact Parts.trans (by decide) hp | intro _ | assumption | rw [lit_gen_tab] | rw [lit_tab]
    | rw [lit_gen] | apply Only.ite | refine Only.foldl (fun _ _ _ => ?_) ?_
    | refine Only.foldl_fst (fun _ _ _ => ?_) ?_ | refine State.with_gen_only ?_ ?_ | refine State.with_tab_only ?_ ?_
    | split | dsimp only

theorem State.rejoin_only {ps : List Part} {s₀ s : State} (h : Only ps s₀ s)
    (hp : Parts [.regs, .units, .env, .mail, .ev, .coh, .trace] ps) : Only ps s₀ (State.rejoin s) := by
  unfold State.rejoin
  repeat' with_reducible first
    | exact h | exact Parts.trans (by decide) hp | intro _ | assumption | apply Only.ite | apply State.wr_only
    | apply State.beginElection_only | apply State.setCoh_only | split | dsimp only

theorem State.rxSyncCame_only {ps : List Part} {s₀ s : State} {k : Nat} {rx d : List Byte} (h : Only ps s₀ s)
    (hp : Parts [.ctx] ps) : Only ps s₀ (State.rxSyncCame s k rx d) := by
  unfold State.rxSyncCame
  repeat' with_reducible first
    | exact h | exact Parts.trans (by decide) hp | intro _ | assumption | apply Only.ite | apply State.setCtxFlag_only
    | apply State.setCtxImage_only | split | dsimp only

theorem State.tempoCame_only {ps : List Part} {s₀ s : State} {m stamp status rate u : Nat} (h : Only ps s₀ s)
    (hp : Parts [.regs, .units, .env, .gen, .ring, .mail, .ev, .tmp, .tx, .ttb, .coh, .bkp, .mem, .trace] ps) : Only ps s₀ (State.tempoCame s m stamp status rate u) := by
  unfold State.tempoCame
  repeat' with_reducible first
    | exact h | exact Parts.trans (by decide) hp | intro _ | assumption | apply Only.ite | apply State.moveTempo_only
    | apply State.wr_only | apply State.tempoGo_only | apply State.setUncert_only | apply State.setCoh_only
    | apply State.setTmp_only | apply State.setAligned_only | apply State.put_only | split | dsimp only

theorem State.tempoMissed_only {ps : List Part} {s₀ s : State} (h : Only ps s₀ s)
    (hp : Parts [.regs, .units, .env, .gen, .ring, .mail, .ev, .tmp, .tx, .ttb, .coh, .bkp, .mem, .trace] ps) : Only ps s₀ (State.tempoMissed s) := by
  unfold State.tempoMissed
  repeat' with_reducible first
    | exact h | exact Parts.trans (by decide) hp | intro _ | assumption | apply Only.ite | apply State.tempoGo_only
    | apply State.setCoh_only | split | dsimp only

end Sys2Proof.Machine
end

