-- ==== Sys2Proof/Laws/OnlyInspector.lean ====
section
/-!
SUPPORT. What each operation of Machine/Inspector.lean leaves alone.
-/

namespace Sys2Proof.Machine

theorem State.counterClear_only {ps : List Part} {s₀ s : State} {v : Nat} (h : Only ps s₀ s)
    (hp : Parts [.trace] ps) : Only ps s₀ (State.counterClear s v) := by
  unfold State.counterClear
  repeat' first
    | (with_reducible first
        | exact h | exact Parts.trans (by decide) hp)
    | exact fun _ => Or.inl rfl | exact fun _ => Or.inr rfl
    | (with_reducible first
        | intro _ | assumption | apply Only.ite | apply State.setTrace_only | split | dsimp only)

theorem State.counterLatch_only {ps : List Part} {s₀ s : State} {n : Nat} (h : Only ps s₀ s)
    (hp : Parts [.trace] ps) : Only ps s₀ (State.counterLatch s n).1 := by
  unfold State.counterLatch
  repeat' first
    | (with_reducible first
        | exact h | exact Parts.trans (by decide) hp)
    | exact fun _ => Or.inl rfl | exact fun _ => Or.inr rfl
    | (with_reducible first
        | intro _ | assumption | apply Only.ite | apply State.setTrace_only | refine Only.fst (by assumption) ?_
        | refine Only.snd (by assumption) ?_ | split | dsimp only)

theorem State.counterStream_only {ps : List Part} {s₀ s : State} (h : Only ps s₀ s)
    (hp : Parts [.regs, .trace] ps) : Only ps s₀ (State.counterStream s) := by
  unfold State.counterStream
  repeat' first
    | (with_reducible first
        | exact h | exact Parts.trans (by decide) hp)
    | exact fun _ => Or.inl rfl | exact fun _ => Or.inr rfl
    | (with_reducible first
        | intro _ | assumption | apply Only.ite | refine Only.foldl (fun _ _ _ => ?_) ?_
        | refine Only.foldl_fst (fun _ _ _ => ?_) ?_ | apply State.tracePacket_only | apply State.setTrace_only
        | split | dsimp only)

theorem State.setLedger_only {ps : List Part} {s₀ s : State} {f : LedgerState → LedgerState} (h : Only ps s₀ s)
    (hp : Parts [.ledger] ps) : Only ps s₀ (State.setLedger s f) := by
  unfold State.setLedger
  repeat' with_reducible first
    | exact h | exact Parts.trans (by decide) hp | intro _ | assumption | rw [lit_ledger]
    | refine State.with_ledger_only ?_ ?_ | split | dsimp only

theorem State.ledgerErase_only {ps : List Part} {s₀ s : State} (h : Only ps s₀ s)
    (hp : Parts [.mem] ps) : Only ps s₀ (State.ledgerErase s) := by
  unfold State.ledgerErase
  repeat' with_reducible first
    | exact h | exact Parts.trans (by decide) hp | intro _ | assumption | apply State.norErase_only | split
    | dsimp only

theorem State.ledgerPut_only {ps : List Part} {s₀ s : State} {r : LedgerRec} (h : Only ps s₀ s)
    (hp : Parts [.regs, .units, .coh, .bkp, .mem, .ledger] ps) : Only ps s₀ (State.ledgerPut s r) := by
  unfold State.ledgerPut
  repeat' with_reducible first
    | exact h | exact Parts.trans (by decide) hp | intro _ | assumption | apply State.wr_only
    | apply State.norProgram_only | apply State.setLedger_only | split | dsimp only

theorem State.ledgerMove_only {ps : List Part} {s₀ s : State} {l : List LedgerRec} (h : Only ps s₀ s)
    (hp : Parts [.regs, .units, .coh, .bkp, .mem, .ledger] ps) : Only ps s₀ (State.ledgerMove s l) := by
  unfold State.ledgerMove
  repeat' with_reducible first
    | exact h | exact Parts.trans (by decide) hp | intro _ | assumption | refine Only.foldl (fun _ _ _ => ?_) ?_
    | refine Only.foldl_fst (fun _ _ _ => ?_) ?_ | apply State.setLedger_only | apply State.ledgerPut_only | split
    | dsimp only

theorem State.ledgerWrite_only {ps : List Part} {s₀ s : State} {ok : Bool} (h : Only ps s₀ s)
    (hp : Parts [.regs, .units, .coh, .bkp, .mem, .ledger] ps) : Only ps s₀ (State.ledgerWrite s ok) := by
  unfold State.ledgerWrite
  repeat' with_reducible first
    | exact h | exact Parts.trans (by decide) hp | intro _ | assumption | apply Only.ite | apply State.ledgerPut_only
    | apply State.setLedger_only | apply State.ledgerErase_only | apply State.ledgerMove_only | split | dsimp only

end Sys2Proof.Machine
end

