-- ==== Sys2Proof/Laws/OnlyLighting.lean ====
section
/-!
SUPPORT. What each operation of Machine/Lighting.lean leaves alone.
-/

namespace Sys2Proof.Machine

theorem State.setDali_only {ps : List Part} {s₀ s : State} {d : DaliState} (h : Only ps s₀ s)
    (hp : Parts [.per] ps) : Only ps s₀ (State.setDali s d) := by
  unfold State.setDali
  repeat' with_reducible first
    | exact h | exact Parts.trans (by decide) hp | intro _ | assumption | rw [lit_per]
    | refine State.with_per_only ?_ ?_ (fun _ => rfl) | refine State.with_per_only ?_ ?_ id | split | dsimp only

theorem State.daliStop_only {ps : List Part} {s₀ s : State} (h : Only ps s₀ s)
    (hp : Parts [.regs, .ev, .per, .trace] ps) : Only ps s₀ (State.daliStop s) := by
  unfold State.daliStop
  repeat' with_reducible first
    | exact h | exact Parts.trans (by decide) hp | intro _ | assumption | apply Only.ite
    | refine Only.foldl (fun _ _ _ => ?_) ?_ | refine Only.foldl_fst (fun _ _ _ => ?_) ?_ | apply State.emit_only
    | apply State.setDali_only | split | dsimp only

theorem State.uartDrain_only {ps : List Part} {s₀ s : State} {p : Nat} (h : Only ps s₀ s)
    (hp : Parts [.units, .per] ps) : Only ps s₀ (State.uartDrain s p) := by
  unfold State.uartDrain
  repeat' with_reducible first
    | exact h | exact Parts.trans (by decide) hp | intro _ | assumption | apply Only.ite | apply State.progress_only
    | apply State.setPort_only | split | dsimp only

theorem State.daliResult_only {ps : List Part} {s₀ s : State} {e : DaliEntry} {status : Nat} {back : Option Byte} (h : Only ps s₀ s)
    (hp : Parts [.regs, .ev, .per, .trace] ps) : Only ps s₀ (State.daliResult s e status back) := by
  unfold State.daliResult
  repeat' with_reducible first
    | exact h | exact Parts.trans (by decide) hp | intro _ | assumption | apply State.setDali_only
    | apply State.emit_only | split | dsimp only

theorem State.daliDraw_only {ps : List Part} {s₀ s : State} (h : Only ps s₀ s)
    (hp : Parts [.per, .free] ps) : Only ps s₀ (State.daliDraw s) := by
  unfold State.daliDraw
  repeat' with_reducible first
    | exact h | exact Parts.trans (by decide) hp | intro _ | assumption | apply State.setDali_only
    | apply State.free_only | refine Only.fst (by assumption) ?_ | refine Only.snd (by assumption) ?_ | split
    | dsimp only

theorem State.daliHead_only {ps : List Part} {s₀ s : State} {n : Nat} (h : Only ps s₀ s)
    (hp : Parts [.regs, .ev, .per, .trace, .free] ps) : Only ps s₀ (State.daliHead n s) := by
  induction n generalizing s with
  | zero => exact h
  | succ n ih =>
    unfold State.daliHead
    split
    · exact h
    · refine Only.ite h (Only.ite (ih ?_) (Only.ite (ih ?_) (Only.ite (ih ?_) ?_)))
      · exact State.daliResult_only h (Parts.trans (by decide) hp)
      · exact State.daliResult_only h (Parts.trans (by decide) hp)
      · exact State.daliResult_only h (Parts.trans (by decide) hp)
      · exact State.daliDraw_only (State.setDali_only h (Parts.trans (by decide) hp)) (Parts.trans (by decide) hp)

theorem State.daliNext_only {ps : List Part} {s₀ s : State} (h : Only ps s₀ s)
    (hp : Parts [.regs, .ev, .per, .trace, .free] ps) : Only ps s₀ (State.daliNext s) := by
  unfold State.daliNext
  repeat' with_reducible first
    | exact h | exact Parts.trans (by decide) hp | intro _ | assumption | apply State.daliHead_only | split
    | dsimp only

theorem State.daliAnswerEnd_only {ps : List Part} {s₀ s : State} {answer : DaliAnswer} (h : Only ps s₀ s)
    (hp : Parts [.regs, .units, .ev, .per, .trace, .free] ps) : Only ps s₀ (State.daliAnswerEnd s answer) := by
  unfold State.daliAnswerEnd
  repeat' with_reducible first
    | exact h | exact Parts.trans (by decide) hp | intro _ | assumption | apply Only.ite | apply State.daliResult_only
    | apply State.bump_only | apply State.daliNext_only | apply State.setDali_only | apply State.progress_only | split
    | dsimp only

theorem State.daliSetHead_only {ps : List Part} {s₀ s : State} {f : DaliEntry → DaliEntry} (h : Only ps s₀ s)
    (hp : Parts [.per] ps) : Only ps s₀ (State.daliSetHead s f) := by
  unfold State.daliSetHead
  repeat' with_reducible first
    | exact h | exact Parts.trans (by decide) hp | intro _ | assumption | apply State.setDali_only | split
    | dsimp only

theorem State.daliCollision_only {ps : List Part} {s₀ s : State} (h : Only ps s₀ s)
    (hp : Parts [.regs, .units, .ev, .per, .trace, .free] ps) : Only ps s₀ (State.daliCollision s) := by
  unfold State.daliCollision
  repeat' with_reducible first
    | exact h | exact Parts.trans (by decide) hp | intro _ | assumption | apply Only.ite | apply State.daliResult_only
    | apply State.daliDraw_only | apply State.bump_only | apply State.daliNext_only | apply State.setDali_only
    | apply State.progress_only | apply State.daliSetHead_only | split | dsimp only

theorem State.daliEnqueue_only {ps : List Part} {s₀ s : State} {v : Nat} (h : Only ps s₀ s)
    (hp : Parts [.regs, .ev, .per, .trace, .free] ps) : Only ps s₀ (State.daliEnqueue s v) := by
  unfold State.daliEnqueue
  repeat' with_reducible first
    | exact h | exact Parts.trans (by decide) hp | intro _ | assumption | apply Only.ite | apply State.daliNext_only
    | apply State.setDali_only | apply State.put_only | split | dsimp only

theorem State.daliFault_only {ps : List Part} {s₀ s : State} (h : Only ps s₀ s)
    (hp : Parts [.regs, .ev, .trace] ps) : Only ps s₀ (State.daliFault s) := by
  unfold State.daliFault
  repeat' with_reducible first
    | exact h | exact Parts.trans (by decide) hp | intro _ | assumption | apply Only.ite | apply State.emit_only
    | apply State.put_only | split | dsimp only

theorem State.daliFaultClear_only {ps : List Part} {s₀ s : State} (h : Only ps s₀ s)
    (hp : Parts [.regs, .ev, .per, .trace, .free] ps) : Only ps s₀ (State.daliFaultClear s) := by
  unfold State.daliFaultClear
  repeat' with_reducible first
    | exact h | exact Parts.trans (by decide) hp | intro _ | assumption | apply Only.ite | apply State.setDali_only
    | apply State.daliNext_only | apply State.put_only | split | dsimp only

theorem State.daliFrameEnd_only {ps : List Part} {s₀ s : State} (h : Only ps s₀ s)
    (hp : Parts [.regs, .units, .ev, .per, .trace, .free] ps) : Only ps s₀ (State.daliFrameEnd s) := by
  unfold State.daliFrameEnd
  repeat' with_reducible first
    | exact h | exact Parts.trans (by decide) hp | intro _ | assumption | apply Only.ite | apply State.daliResult_only
    | apply State.daliDraw_only | apply State.bump_only | apply State.daliNext_only | apply State.setDali_only
    | apply State.progress_only | apply State.daliSetHead_only | split | dsimp only

theorem State.daliFrameStart_only {ps : List Part} {s₀ s : State} (h : Only ps s₀ s)
    (hp : Parts [.units, .per] ps) : Only ps s₀ (State.daliFrameStart s) := by
  unfold State.daliFrameStart
  repeat' with_reducible first
    | exact h | exact Parts.trans (by decide) hp | intro _ | assumption | apply Only.ite | apply State.setDali_only
    | apply State.progress_only | split | dsimp only

theorem State.daliReceiveRead_only {ps : List Part} {s₀ s : State} (h : Only ps s₀ s)
    (hp : Parts [.per] ps) : Only ps s₀ (State.daliReceiveRead s).1 := by
  unfold State.daliReceiveRead
  repeat' with_reducible first
    | exact h | exact Parts.trans (by decide) hp | intro _ | assumption | apply State.setDali_only
    | refine Only.fst (by assumption) ?_ | refine Only.snd (by assumption) ?_ | split | dsimp only

theorem State.daliReceived_only {ps : List Part} {s₀ s : State} {len data : Nat} (h : Only ps s₀ s)
    (hp : Parts [.regs, .units, .ev, .per, .trace] ps) : Only ps s₀ (State.daliReceived s len data) := by
  unfold State.daliReceived
  repeat' with_reducible first
    | exact h | exact Parts.trans (by decide) hp | intro _ | assumption | apply Only.ite | apply State.emit_only
    | apply State.setDali_only | apply State.progress_only | apply State.put_only | refine Only.fst (by assumption) ?_
    | refine Only.snd (by assumption) ?_ | split | dsimp only

theorem State.daliResultRead_only {ps : List Part} {s₀ s : State} (h : Only ps s₀ s)
    (hp : Parts [.regs, .ev, .per, .trace, .free] ps) : Only ps s₀ (State.daliResultRead s).1 := by
  unfold State.daliResultRead
  repeat' with_reducible first
    | exact h | exact Parts.trans (by decide) hp | intro _ | assumption | apply State.setDali_only
    | apply State.daliNext_only | refine Only.fst (by assumption) ?_ | refine Only.snd (by assumption) ?_ | split
    | dsimp only

theorem State.daliSend_only {ps : List Part} {s₀ s : State} {depth : Nat} (h : Only ps s₀ s)
    (hp : Parts [.per] ps) : Only ps s₀ (State.daliSend s depth) := by
  unfold State.daliSend
  repeat' with_reducible first
    | exact h | exact Parts.trans (by decide) hp | intro _ | assumption | apply Only.ite
    | apply State.daliSetHead_only | split | dsimp only

theorem State.daliSupply_only {ps : List Part} {s₀ s : State} (h : Only ps s₀ s)
    (hp : Parts [.regs, .ev, .trace] ps) : Only ps s₀ (State.daliSupply s) := by
  unfold State.daliSupply
  repeat' with_reducible first
    | exact h | exact Parts.trans (by decide) hp | intro _ | assumption | apply Only.ite | apply State.emit_only
    | apply State.put_only | split | dsimp only

theorem State.daliSupplySwitch_only {ps : List Part} {s₀ s : State} {mv : Nat} (h : Only ps s₀ s)
    (hp : Parts [.regs, .ev, .pins, .trace] ps) : Only ps s₀ (State.daliSupplySwitch s mv) := by
  unfold State.daliSupplySwitch
  repeat' with_reducible first
    | exact h | exact Parts.trans (by decide) hp | intro _ | assumption | rw [lit_pins] | apply Only.ite
    | apply State.daliSupply_only | refine State.with_pins_only ?_ ?_ | split | dsimp only

theorem State.setDim_only {ps : List Part} {s₀ s : State} {d : DimState} (h : Only ps s₀ s)
    (hp : Parts [.per] ps) : Only ps s₀ (State.setDim s d) := by
  unfold State.setDim
  repeat' with_reducible first
    | exact h | exact Parts.trans (by decide) hp | intro _ | assumption | rw [lit_per]
    | refine State.with_per_only ?_ ?_ (fun _ => rfl) | refine State.with_per_only ?_ ?_ id | split | dsimp only

theorem State.dimStart_only {ps : List Part} {s₀ s : State} {depth : Nat} (h : Only ps s₀ s)
    (hp : Parts [.per] ps) : Only ps s₀ (State.dimStart s depth) := by
  unfold State.dimStart
  repeat' with_reducible first
    | exact h | exact Parts.trans (by decide) hp | intro _ | assumption | apply State.setDim_only | split | dsimp only

theorem State.dimApply_only {ps : List Part} {s₀ s : State} {depth : Nat} (h : Only ps s₀ s)
    (hp : Parts [.per] ps) : Only ps s₀ (State.dimApply s depth) := by
  unfold State.dimApply
  repeat' with_reducible first
    | exact h | exact Parts.trans (by decide) hp | intro _ | assumption | apply Only.ite | apply State.dimStart_only
    | split | dsimp only

theorem State.dimHold_only {ps : List Part} {s₀ s : State} (h : Only ps s₀ s)
    (hp : Parts [.per] ps) : Only ps s₀ (State.dimHold s) := by
  unfold State.dimHold
  repeat' with_reducible first
    | exact h | exact Parts.trans (by decide) hp | intro _ | assumption | apply Only.ite | apply State.setDim_only
    | split | dsimp only

theorem State.dimRampEnd_only {ps : List Part} {s₀ s : State} (h : Only ps s₀ s)
    (hp : Parts [.regs, .ev, .per, .trace] ps) : Only ps s₀ (State.dimRampEnd s) := by
  unfold State.dimRampEnd
  repeat' with_reducible first
    | exact h | exact Parts.trans (by decide) hp | intro _ | assumption | apply Only.ite | apply State.setDim_only
    | apply State.emit_only | split | dsimp only

theorem State.dimWrite_only {ps : List Part} {s₀ s : State} {v : Nat} (h : Only ps s₀ s)
    (hp : Parts [.regs, .per] ps) : Only ps s₀ (State.dimWrite s v) := by
  unfold State.dimWrite
  repeat' with_reducible first
    | exact h | exact Parts.trans (by decide) hp | intro _ | assumption | apply Only.ite | apply State.dimStart_only
    | apply State.setDim_only | apply State.wr_only | split | dsimp only

theorem State.fifoRead_only {ps : List Part} {s₀ s : State} {p : Nat} (h : Only ps s₀ s)
    (hp : Parts [.per] ps) : Only ps s₀ (State.fifoRead s p).1 := by
  unfold State.fifoRead
  repeat' with_reducible first
    | exact h | exact Parts.trans (by decide) hp | intro _ | assumption | apply State.setPort_only
    | refine Only.fst (by assumption) ?_ | refine Only.snd (by assumption) ?_ | split | dsimp only

theorem State.fifoWrite_only {ps : List Part} {s₀ s : State} {p v : Nat} (h : Only ps s₀ s)
    (hp : Parts [.per] ps) : Only ps s₀ (State.fifoWrite s p v) := by
  unfold State.fifoWrite
  repeat' with_reducible first
    | exact h | exact Parts.trans (by decide) hp | intro _ | assumption | apply Only.ite | apply State.setPort_only
    | split | dsimp only

theorem State.padEdges_only {ps : List Part} {s₀ s : State} {before depth : Nat} (h : Only ps s₀ s)
    (hp : Parts [.regs, .ev, .trace] ps) : Only ps s₀ (State.padEdges before depth s) := by
  unfold State.padEdges
  repeat' with_reducible first
    | exact h | exact Parts.trans (by decide) hp | intro _ | assumption | apply Only.ite
    | refine Only.foldl (fun _ _ _ => ?_) ?_ | refine Only.foldl_fst (fun _ _ _ => ?_) ?_ | apply State.emit_only
    | split | dsimp only

theorem State.withPads_only {ps : List Part} {s₀ s : State} {depth : Nat} {f : State → State} (h : Only ps s₀ s)
    (hp : Parts [.regs, .ev, .trace] ps) (hf : ∀ t, Only ps s₀ t → Only ps s₀ (f t)) : Only ps s₀ (State.withPads s depth f) := by
  unfold State.withPads
  repeat' with_reducible first
    | exact h | exact Parts.trans (by decide) hp | intro _ | assumption | apply hf | apply State.padEdges_only | split
    | dsimp only

theorem State.gpioClear_only {ps : List Part} {s₀ s : State} {m : Nat} (h : Only ps s₀ s)
    (hp : Parts [.regs, .ev, .trace] ps) : Only ps s₀ (State.gpioClear s m) := by
  unfold State.gpioClear
  repeat' with_reducible first
    | exact h | exact Parts.trans (by decide) hp | intro _ | assumption | apply State.wr_only
    | apply State.withPads_only | split | dsimp only

theorem State.gpioExternal_only {ps : List Part} {s₀ s : State} {n : Nat} {high : Bool} (h : Only ps s₀ s)
    (hp : Parts [.regs, .ev, .per, .trace] ps) : Only ps s₀ (State.gpioExternal s n high) := by
  unfold State.gpioExternal
  repeat' with_reducible first
    | exact h | exact Parts.trans (by decide) hp | intro _ | assumption | rw [lit_per] | apply Only.ite
    | apply State.withPads_only | refine State.with_per_only ?_ ?_ (fun _ => rfl)
    | refine State.with_per_only ?_ ?_ id | split | dsimp only

theorem State.gpioEdge_only {ps : List Part} {s₀ s : State} {n : Nat} {rising : Bool} (h : Only ps s₀ s)
    (hp : Parts [.regs, .ev, .per, .bkp, .trace] ps) : Only ps s₀ (State.gpioEdge s n rising) := by
  unfold State.gpioEdge
  repeat' with_reducible first
    | exact h | exact Parts.trans (by decide) hp | intro _ | assumption | apply Only.ite
    | apply State.gpioExternal_only | apply State.wakeSeen_only | split | dsimp only

theorem State.gpioSet_only {ps : List Part} {s₀ s : State} {m : Nat} (h : Only ps s₀ s)
    (hp : Parts [.regs, .ev, .trace] ps) : Only ps s₀ (State.gpioSet s m) := by
  unfold State.gpioSet
  repeat' with_reducible first
    | exact h | exact Parts.trans (by decide) hp | intro _ | assumption | apply State.wr_only
    | apply State.withPads_only | split | dsimp only

theorem State.gpioTasks_only {ps : List Part} {s₀ s : State} {n : Nat} {clr set tgl : Bool} {depth : Nat} (h : Only ps s₀ s)
    (hp : Parts [.regs, .ev, .trace] ps) : Only ps s₀ (State.gpioTasks s n clr set tgl depth) := by
  unfold State.gpioTasks
  repeat' with_reducible first
    | exact h | exact Parts.trans (by decide) hp | intro _ | assumption | apply Only.ite | apply State.wr_only
    | apply State.withPads_only | split | dsimp only

theorem State.gpioToggle_only {ps : List Part} {s₀ s : State} {m : Nat} (h : Only ps s₀ s)
    (hp : Parts [.regs, .ev, .trace] ps) : Only ps s₀ (State.gpioToggle s m) := by
  unfold State.gpioToggle
  repeat' with_reducible first
    | exact h | exact Parts.trans (by decide) hp | intro _ | assumption | apply State.wr_only
    | apply State.withPads_only | split | dsimp only

theorem State.iicEnd_only {ps : List Part} {s₀ s : State} {p moved : Nat} {rx : List Byte} {nack lost : Bool} (h : Only ps s₀ s)
    (hp : Parts [.regs, .units, .ev, .per, .trace] ps) : Only ps s₀ (State.iicEnd s p moved rx nack lost) := by
  unfold State.iicEnd
  repeat' with_reducible first
    | exact h | exact Parts.trans (by decide) hp | intro _ | assumption | apply Only.ite | apply State.progress_only
    | apply State.setPort_only | apply State.emit_only | apply State.put_only | split | dsimp only

theorem State.iicGo_only {ps : List Part} {s₀ s : State} {p v : Nat} (h : Only ps s₀ s)
    (hp : Parts [.regs, .per] ps) : Only ps s₀ (State.iicGo s p v) := by
  unfold State.iicGo
  repeat' with_reducible first
    | exact h | exact Parts.trans (by decide) hp | intro _ | assumption | apply Only.ite | apply State.setPort_only
    | apply State.put_only | split | dsimp only

theorem State.uartWrite_only {ps : List Part} {s₀ s : State} {p : Nat} {b : Byte} (h : Only ps s₀ s)
    (hp : Parts [.units, .per] ps) : Only ps s₀ (State.uartWrite s p b) := by
  unfold State.uartWrite
  repeat' with_reducible first
    | exact h | exact Parts.trans (by decide) hp | intro _ | assumption | apply Only.ite | apply State.setPort_only
    | apply State.uartDrain_only | split | dsimp only

theorem State.spiGo_only {ps : List Part} {s₀ s : State} {p len : Nat} (h : Only ps s₀ s)
    (hp : Parts [.regs, .per] ps) : Only ps s₀ (State.spiGo s p len) := by
  unfold State.spiGo
  repeat' with_reducible first
    | exact h | exact Parts.trans (by decide) hp | intro _ | assumption | apply Only.ite | apply State.setPort_only
    | apply State.put_only | split | dsimp only

theorem State.spiMove_only {ps : List Part} {s₀ s : State} {p sent : Nat} {rx : List Nat} (h : Only ps s₀ s)
    (hp : Parts [.regs, .per] ps) : Only ps s₀ (State.spiMove s p sent rx) := by
  unfold State.spiMove
  repeat' with_reducible first
    | exact h | exact Parts.trans (by decide) hp | intro _ | assumption | apply Only.ite | apply State.setPort_only
    | apply State.put_only | split | dsimp only

theorem State.spiEnd_only {ps : List Part} {s₀ s : State} {p : Nat} {rx : List Byte} (h : Only ps s₀ s)
    (hp : Parts [.regs, .units, .ev, .per, .trace] ps) : Only ps s₀ (State.spiEnd s p rx) := by
  unfold State.spiEnd
  repeat' with_reducible first
    | exact h | exact Parts.trans (by decide) hp | intro _ | assumption | apply Only.ite | apply State.progress_only
    | apply State.spiMove_only | apply State.emit_only | apply State.put_only | split | dsimp only

theorem State.uartReceive_only {ps : List Part} {s₀ s : State} {p : Nat} {b : Byte} {perr ferr : Bool} (h : Only ps s₀ s)
    (hp : Parts [.regs, .units, .ev, .per, .trace] ps) : Only ps s₀ (State.uartReceive s p b perr ferr) := by
  unfold State.uartReceive
  repeat' with_reducible first
    | exact h | exact Parts.trans (by decide) hp | intro _ | assumption | apply Only.ite | apply State.setPort_only
    | apply State.emit_only | apply State.progress_only | apply State.put_only | split | dsimp only

end Sys2Proof.Machine
end

