-- ==== Sys2Proof/Laws/OnlyTimers.lean ====
section
/-!
SUPPORT. What each operation of Machine/Timers.lean leaves alone.
-/

namespace Sys2Proof.Machine

theorem State.setTimerReg_only {ps : List Part} {s₀ s : State} {f : Nat → Fld} {n v : Nat} (h : Only ps s₀ s)
    (hp : Parts [.regs] ps) : Only ps s₀ (State.setTimerReg s f n v) := by
  unfold State.setTimerReg
  repeat' with_reducible first
    | exact h | exact Parts.trans (by decide) hp | intro _ | assumption | apply Only.ite | apply State.wr_only | split
    | dsimp only

theorem State.capture_only {ps : List Part} {s₀ s : State} {n : Nat} {fall : Bool} {depth : Nat} (h : Only ps s₀ s)
    (hp : Parts [.regs, .ev, .trace] ps) : Only ps s₀ (State.capture s n fall depth) := by
  unfold State.capture
  repeat' with_reducible first
    | exact h | exact Parts.trans (by decide) hp | intro _ | assumption | apply Only.ite | apply State.emit_only
    | apply State.setTimer_only | apply State.setTimerReg_only | apply State.put_only
    | refine Only.fst (by assumption) ?_ | refine Only.snd (by assumption) ?_ | split | dsimp only

theorem State.captureEdge_only {ps : List Part} {s₀ s : State} {n : Nat} {rising : Bool} (h : Only ps s₀ s)
    (hp : Parts [.regs, .ev, .trace] ps) : Only ps s₀ (State.captureEdge s n rising) := by
  unfold State.captureEdge
  repeat' with_reducible first
    | exact h | exact Parts.trans (by decide) hp | intro _ | assumption | apply Only.ite | apply State.capture_only
    | split | dsimp only

theorem State.captureRead_only {ps : List Part} {s₀ s : State} {n : Nat} {fall : Bool} (h : Only ps s₀ s)
    (hp : Parts [.regs] ps) : Only ps s₀ (State.captureRead s n fall).1 := by
  unfold State.captureRead
  repeat' with_reducible first
    | exact h | exact Parts.trans (by decide) hp | intro _ | assumption | apply Only.ite | apply State.put_only
    | refine Only.fst (by assumption) ?_ | refine Only.snd (by assumption) ?_ | split | dsimp only

theorem State.timerStop_only {ps : List Part} {s₀ s : State} {n : Nat} (h : Only ps s₀ s)
    (hp : Parts [.regs] ps) : Only ps s₀ (State.timerStop s n) := by
  unfold State.timerStop
  repeat' with_reducible first
    | exact h | exact Parts.trans (by decide) hp | intro _ | assumption | apply State.put_only | split | dsimp only

theorem State.timerMakeup_only {ps : List Part} {s₀ s : State} {bk n : Nat} (h : Only ps s₀ s)
    (hp : Parts [.regs, .ev, .trace] ps) : Only ps s₀ (State.timerMakeup s bk n) := by
  unfold State.timerMakeup
  repeat' with_reducible first
    | exact h | exact Parts.trans (by decide) hp | intro _ | assumption | apply Only.ite | apply State.wr_only
    | apply State.timerStop_only | apply State.emit_only | apply State.setTimer_only | apply State.setTimerReg_only
    | apply State.put_only | split | dsimp only

theorem State.timerCountRead_only {ps : List Part} {s₀ s : State} {n : Nat} (h : Only ps s₀ s)
    (hp : Parts [.regs] ps) : Only ps s₀ (State.timerCountRead s n).1 := by
  unfold State.timerCountRead
  repeat' with_reducible first
    | exact h | exact Parts.trans (by decide) hp | intro _ | assumption | apply Only.ite | apply State.put_only
    | refine Only.fst (by assumption) ?_ | refine Only.snd (by assumption) ?_ | split | dsimp only

theorem State.rechain_only {ps : List Part} {s₀ s : State} {n : Nat} {was now : Bool} (h : Only ps s₀ s)
    (hp : Parts [.ev] ps) : Only ps s₀ (State.rechain s n was now) := by
  unfold State.rechain
  repeat' with_reducible first
    | exact h | exact Parts.trans (by decide) hp | intro _ | assumption | apply Only.ite | apply State.setTimer_only
    | split | dsimp only

theorem State.recompare_only {ps : List Part} {s₀ s : State} {n : Nat} (h : Only ps s₀ s)
    (hp : Parts [.ev] ps) : Only ps s₀ (State.recompare s n) := by
  unfold State.recompare
  repeat' with_reducible first
    | exact h | exact Parts.trans (by decide) hp | intro _ | assumption | apply State.setTimer_only | split
    | dsimp only

theorem State.timerWrite_only {ps : List Part} {s₀ s : State} {who : Who} {n : Nat} {f : State → State} (h : Only ps s₀ s)
    (hp : Parts [.regs, .units, .env, .mail, .ev, .trace] ps) (hf : ∀ t, Only ps s₀ t → Only ps s₀ (f t)) : Only ps s₀ (State.timerWrite s who n f) := by
  unfold State.timerWrite
  repeat' with_reducible first
    | exact h | exact Parts.trans (by decide) hp | intro _ | assumption | apply Only.ite | apply hf
    | apply State.guarded_only | split | dsimp only

theorem State.timerNewPeriod_only {ps : List Part} {s₀ s : State} {n v : Nat} (h : Only ps s₀ s)
    (hp : Parts [.regs, .ev] ps) : Only ps s₀ (State.timerNewPeriod s n v) := by
  unfold State.timerNewPeriod
  repeat' with_reducible first
    | exact h | exact Parts.trans (by decide) hp | intro _ | assumption | apply Only.ite | apply State.setTimer_only
    | apply State.setTimerReg_only | apply State.put_only | split | dsimp only

theorem State.timerPeriodWrite_only {ps : List Part} {s₀ s : State} {n v : Nat} (h : Only ps s₀ s)
    (hp : Parts [.regs, .ev] ps) : Only ps s₀ (State.timerPeriodWrite s n v) := by
  unfold State.timerPeriodWrite
  repeat' with_reducible first
    | exact h | exact Parts.trans (by decide) hp | intro _ | assumption | apply Only.ite | apply State.setTimer_only
    | apply State.timerNewPeriod_only | split | dsimp only

theorem State.timerCtlWrite_only {ps : List Part} {s₀ s : State} {n v : Nat} (h : Only ps s₀ s)
    (hp : Parts [.regs, .ev] ps) : Only ps s₀ (State.timerCtlWrite s n v) := by
  unfold State.timerCtlWrite
  repeat' with_reducible first
    | exact h | exact Parts.trans (by decide) hp | intro _ | assumption | apply Only.ite | apply State.wr_only
    | apply State.setTimer_only | apply State.rechain_only | apply State.recompare_only | apply State.put_only | split
    | dsimp only

theorem State.timerCountWrite_only {ps : List Part} {s₀ s : State} {n v : Nat} (h : Only ps s₀ s)
    (hp : Parts [.ev] ps) : Only ps s₀ (State.timerCountWrite s n v) := by
  unfold State.timerCountWrite
  repeat' with_reducible first
    | exact h | exact Parts.trans (by decide) hp | intro _ | assumption | apply Only.ite | apply State.setTimer_only
    | apply State.recompare_only | split | dsimp only

theorem State.timerCmpWrite_only {ps : List Part} {s₀ s : State} {n v : Nat} (h : Only ps s₀ s)
    (hp : Parts [.regs, .ev] ps) : Only ps s₀ (State.timerCmpWrite s n v) := by
  unfold State.timerCmpWrite
  repeat' with_reducible first
    | exact h | exact Parts.trans (by decide) hp | intro _ | assumption | apply Only.ite | apply State.wr_only
    | apply State.setTimer_only | apply State.setTimerReg_only | apply State.recompare_only | split | dsimp only

theorem State.timerStart_only {ps : List Part} {s₀ s : State} {n depth : Nat} (h : Only ps s₀ s)
    (hp : Parts [.regs, .ev] ps) : Only ps s₀ (State.timerStart s n depth) := by
  unfold State.timerStart
  repeat' with_reducible first
    | exact h | exact Parts.trans (by decide) hp | intro _ | assumption | apply Only.ite | apply State.setTimer_only
    | apply State.recompare_only | apply State.put_only | split | dsimp only

theorem State.timerClear_only {ps : List Part} {s₀ s : State} {n depth : Nat} (h : Only ps s₀ s)
    (hp : Parts [.ev] ps) : Only ps s₀ (State.timerClear s n depth) := by
  unfold State.timerClear
  repeat' with_reducible first
    | exact h | exact Parts.trans (by decide) hp | intro _ | assumption | apply State.setTimer_only
    | apply State.recompare_only | split | dsimp only

theorem State.timerCount_only {ps : List Part} {s₀ s : State} {n depth : Nat} (h : Only ps s₀ s)
    (hp : Parts [.ev] ps) : Only ps s₀ (State.timerCount s n depth) := by
  unfold State.timerCount
  repeat' with_reducible first
    | exact h | exact Parts.trans (by decide) hp | intro _ | assumption | apply Only.ite | apply State.setTimer_only
    | split | dsimp only

theorem State.timerDo_only {ps : List Part} {s₀ s : State} {n : Nat} {capr capf stop clear count start : Option Nat} (h : Only ps s₀ s)
    (hp : Parts [.regs, .ev, .trace] ps) : Only ps s₀ (State.timerDo s n capr capf stop clear count start) := by
  unfold State.timerDo
  repeat' with_reducible first
    | exact h | exact Parts.trans (by decide) hp | intro _ | assumption | apply State.timerStart_only
    | apply State.capture_only | apply State.timerClear_only | apply State.timerStop_only
    | apply State.timerCount_only | split | dsimp only

theorem State.timerCmd_only {ps : List Part} {s₀ s : State} {n v : Nat} (h : Only ps s₀ s)
    (hp : Parts [.regs, .ev, .trace] ps) : Only ps s₀ (State.timerCmd s n v) := by
  unfold State.timerCmd
  repeat' with_reducible first
    | exact h | exact Parts.trans (by decide) hp | intro _ | assumption | apply Only.ite | apply State.timerDo_only
    | split | dsimp only

theorem State.timerExtWrite_only {ps : List Part} {s₀ s : State} {n v : Nat} (h : Only ps s₀ s)
    (hp : Parts [.regs, .ev] ps) : Only ps s₀ (State.timerExtWrite s n v) := by
  unfold State.timerExtWrite
  repeat' with_reducible first
    | exact h | exact Parts.trans (by decide) hp | intro _ | assumption | apply Only.ite | apply State.wr_only
    | apply State.setTimer_only | apply State.put_only | split | dsimp only

theorem State.timerCompareEvent_only {ps : List Part} {s₀ s : State} {n : Nat} (h : Only ps s₀ s)
    (hp : Parts [.regs, .ev, .trace] ps) : Only ps s₀ (State.timerCompareEvent s n) := by
  unfold State.timerCompareEvent
  repeat' with_reducible first
    | exact h | exact Parts.trans (by decide) hp | intro _ | assumption | apply Only.ite | apply State.emit_only
    | apply State.setTimer_only | split | dsimp only

theorem State.timerWrap_only {ps : List Part} {s₀ s : State} {n rest : Nat} (h : Only ps s₀ s)
    (hp : Parts [.regs, .ev, .trace] ps) : Only ps s₀ (State.timerWrap s n rest) := by
  unfold State.timerWrap
  repeat' with_reducible first
    | exact h | exact Parts.trans (by decide) hp | intro _ | assumption | apply Only.ite | apply State.timerStop_only
    | apply State.emit_only | apply State.setTimer_only | apply State.setTimerReg_only | apply State.put_only | split
    | dsimp only

theorem State.timerPeriodEvent_only {ps : List Part} {s₀ s : State} {n : Nat} (h : Only ps s₀ s)
    (hp : Parts [.regs, .ev, .trace] ps) : Only ps s₀ (State.timerPeriodEvent s n) := by
  unfold State.timerPeriodEvent
  repeat' with_reducible first
    | exact h | exact Parts.trans (by decide) hp | intro _ | assumption | apply Only.ite | apply State.timerWrap_only
    | split | dsimp only

end Sys2Proof.Machine
end

