-- ==== Sys2Proof/Laws/OnlyControl.lean ====
section
/-!
SUPPORT. What each operation of Machine/Control.lean leaves alone.
-/

namespace Sys2Proof.Machine

theorem State.coreReplaced_only {ps : List Part} {s₀ s : State} {p : Nat} (h : Only ps s₀ s)
    (hp : Parts [.doms] ps) : Only ps s₀ (State.coreReplaced s p) := by
  unfold State.coreReplaced
  repeat' with_reducible first
    | exact h | exact Parts.trans (by decide) hp | intro _ | assumption | apply Only.ite | apply State.setDom_only
    | split | dsimp only

theorem State.countRetire_only {ps : List Part} {s₀ s : State} {h_ : Nat} (h : Only ps s₀ s)
    (hp : Parts [.regs, .units, .env, .mail, .ev, .rx, .doms, .trace, .ledger] ps) : Only ps s₀ (State.countRetire s h_) := by
  unfold State.countRetire
  repeat' with_reducible first
    | exact h | exact Parts.trans (by decide) hp | intro _ | assumption | apply Only.ite
    | apply State.retireForLapses_only | apply State.setUnit_only | apply State.coreReplaced_only
    | apply State.replanJobs_only | split | dsimp only

theorem State.keyDataCut_only {ps : List Part} {s₀ s : State} (h : Only ps s₀ s)
    (hp : Parts [.regs] ps) : Only ps s₀ (State.keyDataCut s) := by
  unfold State.keyDataCut
  repeat' with_reducible first
    | exact h | exact Parts.trans (by decide) hp | intro _ | assumption | refine Only.foldl (fun _ _ _ => ?_) ?_
    | refine Only.foldl_fst (fun _ _ _ => ?_) ?_ | apply State.wr_only | split | dsimp only

theorem State.cohCut_only {ps : List Part} {s₀ s : State} (h : Only ps s₀ s)
    (hp : Parts [.regs, .coh] ps) : Only ps s₀ (State.cohCut s) := by
  unfold State.cohCut
  repeat' with_reducible first
    | exact h | exact Parts.trans (by decide) hp | intro _ | assumption | apply State.setCoh_only
    | apply State.wr_only | split | dsimp only

theorem State.decCut_only {ps : List Part} {s₀ s : State} {p : Nat} (h : Only ps s₀ s)
    (hp : Parts [.regs, .units, .env, .gen, .ring, .mail, .ev, .cip, .ctx, .tmp, .tx, .ttb, .rx, .coh, .bkp, .mem, .trace, .free] ps) : Only ps s₀ (State.decCut s p) := by
  unfold State.decCut
  repeat' with_reducible first
    | exact h | exact Parts.trans (by decide) hp | intro _ | assumption | refine Only.foldl (fun _ _ _ => ?_) ?_
    | refine Only.foldl_fst (fun _ _ _ => ?_) ?_ | apply State.jobEnded_only | apply State.replanJobs_only | split
    | dsimp only

theorem State.synSliceBack_only {ps : List Part} {s₀ s : State} (h : Only ps s₀ s)
    (hp : Parts [.tx] ps) : Only ps s₀ (State.synSliceBack s) := by
  unfold State.synSliceBack
  repeat' with_reducible first
    | exact h | exact Parts.trans (by decide) hp | intro _ | assumption | rw [lit_tx]
    | refine State.with_tx_only ?_ ?_ | split | dsimp only

theorem State.serialCut_only {ps : List Part} {s₀ s : State} {type : Nat} (h : Only ps s₀ s)
    (hp : Parts [.regs, .per] ps) : Only ps s₀ (State.serialCut s type) := by
  unfold State.serialCut
  repeat' with_reducible first
    | exact h | exact Parts.trans (by decide) hp | intro _ | assumption | refine Only.foldl (fun _ _ _ => ?_) ?_
    | refine Only.foldl_fst (fun _ _ _ => ?_) ?_ | apply State.setPort_only | apply State.put_only | split
    | dsimp only

theorem State.capCut_only {ps : List Part} {s₀ s : State} (h : Only ps s₀ s)
    (hp : Parts [.cap] ps) : Only ps s₀ (State.capCut s) := by
  unfold State.capCut
  repeat' with_reducible first
    | exact h | exact Parts.trans (by decide) hp | intro _ | assumption | apply State.setCap_only
    | apply State.capSliceBack_only | split | dsimp only

theorem State.daliCut_only {ps : List Part} {s₀ s : State} (h : Only ps s₀ s)
    (hp : Parts [.regs, .ev, .per, .trace] ps) : Only ps s₀ (State.daliCut s) := by
  unfold State.daliCut
  repeat' with_reducible first
    | exact h | exact Parts.trans (by decide) hp | intro _ | assumption | apply Only.ite
    | refine Only.foldl (fun _ _ _ => ?_) ?_ | refine Only.foldl_fst (fun _ _ _ => ?_) ?_ | apply State.setDali_only
    | apply State.emit_only | split | dsimp only

theorem State.txuCut_only {ps : List Part} {s₀ s : State} (h : Only ps s₀ s)
    (hp : Parts [.regs, .units, .gen, .ring, .tx] ps) : Only ps s₀ (State.txuCut s) := by
  unfold State.txuCut
  repeat' with_reducible first
    | exact h | exact Parts.trans (by decide) hp | intro _ | assumption | refine Only.foldl (fun _ _ _ => ?_) ?_
    | refine Only.foldl_fst (fun _ _ _ => ?_) ?_ | apply State.cutTx_only | split | dsimp only

theorem State.clearUnit_only {ps : List Part} {s₀ s : State} {h_ : Nat} (h : Only ps s₀ s)
    (hp : Parts [.regs, .units, .env, .gen, .ring, .mail, .ev, .per, .cip, .ctx, .tag, .tmp, .cap, .tx, .ttb, .rx, .coh, .upd, .bkp, .cores, .mem, .trace, .free] ps) : Only ps s₀ (State.clearUnit s h_) := by
  unfold State.clearUnit
  repeat' first
    | (with_reducible first
        | exact h | exact Parts.trans (by decide) hp)
    | exact fun _ => ⟨rfl, rfl⟩ | exact fun _ => rfl | exact fun w => State.core_wf w _
    | (with_reducible first
        | intro _ | assumption | rw [lit_ttb] | rw [lit_tx] | rw [lit_ev] | rw [lit_mail] | apply Only.ite
        | apply State.keyDataCut_only | apply State.setUpd_only | apply State.cohCut_only | apply State.decCut_only
        | apply State.synSliceBack_only | apply State.setMem_only | apply State.setRx_only | apply State.loseLock_only
        | apply State.serialCut_only | apply State.norLapse_only | apply State.bump_only
        | refine State.setTag_only ?_ ?_ id | apply State.capCut_only | apply State.trainBegin_only
        | apply State.setCore_only | apply State.put_only | apply State.freeLane_only | apply State.stopStages_only
        | apply State.tagCollapse_only | apply State.daliCut_only | apply State.txuCut_only | apply State.tempoGo_only
        | apply State.setTmp_only | refine State.with_mail_only ?_ ?_ | refine State.with_ev_only ?_ ?_ (fun _ => rfl)
        | refine State.with_ev_only ?_ ?_ id | refine State.with_tx_only ?_ ?_ | refine State.with_ttb_only ?_ ?_
        | split | dsimp only)

theorem State.lapseWork_only {ps : List Part} {s₀ s : State} {w : Work} (h : Only ps s₀ s)
    (hp : Parts [.gen, .ring, .tx] ps) : Only ps s₀ (State.lapseWork s w) := by
  unfold State.lapseWork
  repeat' with_reducible first
    | exact h | exact Parts.trans (by decide) hp | intro _ | assumption | rw [lit_tx] | apply Only.ite
    | apply State.decide__only | apply State.dropCommit_only | refine State.with_tx_only ?_ ?_ | split | dsimp only

theorem State.resetUnit_only {ps : List Part} {s₀ s : State} {cause h_ : Nat} (h : Only ps s₀ s)
    (hp : Parts [.regs, .units, .env, .gen, .ring, .mail, .ev, .per, .cip, .ctx, .tag, .tmp, .cap, .tx, .ttb, .rx, .coh, .upd, .bkp, .cores, .mem, .trace, .free] ps) : Only ps s₀ (State.resetUnit cause s h_) := by
  unfold State.resetUnit
  repeat' with_reducible first
    | exact h | exact Parts.trans (by decide) hp | intro _ | assumption | apply Only.ite
    | refine Only.foldl (fun _ _ _ => ?_) ?_ | refine Only.foldl_fst (fun _ _ _ => ?_) ?_ | apply State.clearUnit_only
    | apply State.lapseWork_only | apply State.setUnit_only | apply State.put_only | split | dsimp only

theorem State.childLapse_only {ps : List Part} {s₀ s : State} {n h_ : Nat} (h : Only ps s₀ s)
    (hp : Parts [.regs, .units, .env, .gen, .ring, .mail, .ev, .per, .cip, .ctx, .tag, .tmp, .tab, .cap, .tx, .ttb, .rx, .coh, .upd, .boot, .doms, .bkp, .cores, .mem, .bus, .pins, .phase, .trace, .ledger, .free] ps) : Only ps s₀ (State.childLapse n s h_) := by
  induction n generalizing s h_ with
  | zero => exact h
  | succ n ih =>
    unfold State.childLapse
    split
    · exact h
    · refine Only.ite (Only.ite (State.setUnit_only ?_ ?_) ?_) (Only.ite ?_ (ih ?_))
      · exact State.wr_only h (Parts.trans (by decide) hp)
      · exact Parts.trans (by decide) hp
      · exact State.wr_only h (Parts.trans (by decide) hp)
      · exact State.warmRestart_only h (Parts.trans (by decide) hp)
      · refine State.envBreak_only (State.wr_only (State.bump_only (State.setUnit_only (Only.foldl (fun _ _ g => ?_) h) ?_) ?_) ?_) ?_
        · exact State.resetUnit_only g (Parts.trans (by decide) hp)
        all_goals exact Parts.trans (by decide) hp

theorem State.lapseUnit_only {ps : List Part} {s₀ s : State} {h_ : Nat} (h : Only ps s₀ s)
    (hp : Parts [.regs, .units, .env, .gen, .ring, .mail, .ev, .per, .cip, .ctx, .tag, .tmp, .tab, .cap, .tx, .ttb, .rx, .coh, .upd, .boot, .doms, .bkp, .cores, .mem, .bus, .pins, .phase, .trace, .ledger, .free] ps) : Only ps s₀ (State.lapseUnit s h_) := by
  unfold State.lapseUnit
  repeat' with_reducible first
    | exact h | exact Parts.trans (by decide) hp | intro _ | assumption | apply Only.ite | apply State.bump_only
    | apply State.countRetire_only | apply State.resetUnit_only | apply State.envBreak_only
    | apply State.childLapse_only | split | dsimp only

theorem State.txuStop_only {ps : List Part} {s₀ s : State} (h : Only ps s₀ s)
    (hp : Parts [.regs, .units, .gen, .ring, .tx] ps) : Only ps s₀ (State.txuStop s) := by
  unfold State.txuStop
  repeat' with_reducible first
    | exact h | exact Parts.trans (by decide) hp | intro _ | assumption | apply Only.ite
    | refine Only.foldl (fun _ _ _ => ?_) ?_ | refine Only.foldl_fst (fun _ _ _ => ?_) ?_ | apply State.cutTx_only
    | split | dsimp only

theorem State.stopUnit_only {ps : List Part} {s₀ s : State} {h_ : Nat} (h : Only ps s₀ s)
    (hp : Parts [.regs, .units, .gen, .ring, .ev, .per, .cap, .tx, .rx, .upd, .trace] ps) : Only ps s₀ (State.stopUnit s h_) := by
  unfold State.stopUnit
  repeat' with_reducible first
    | exact h | exact Parts.trans (by decide) hp | intro _ | assumption | apply Only.ite
    | refine Only.foldl (fun _ _ _ => ?_) ?_ | refine Only.foldl_fst (fun _ _ _ => ?_) ?_
    | apply State.disableRing_only | apply State.stopWork_only | apply State.capSliceBack_only
    | apply State.daliStop_only | apply State.setCap_only | apply State.freeLane_only | apply State.txuStop_only
    | apply State.synSliceBack_only | apply State.setRx_only | apply State.replanJobs_only | split | dsimp only

theorem State.beginDrain_only {ps : List Part} {s₀ s : State} {h_ : Nat} (h : Only ps s₀ s)
    (hp : Parts [.units] ps) : Only ps s₀ (State.beginDrain s h_) := by
  unfold State.beginDrain
  repeat' with_reducible first
    | exact h | exact Parts.trans (by decide) hp | intro _ | assumption | apply Only.ite | apply State.setUnit_only
    | split | dsimp only

theorem State.coreHold_only {ps : List Part} {s₀ s : State} {h_ : Nat} (h : Only ps s₀ s)
    (hp : Parts [.cores] ps) : Only ps s₀ (State.coreHold s h_) := by
  unfold State.coreHold
  repeat' first
    | (with_reducible first
        | exact h | exact Parts.trans (by decide) hp)
    | exact fun _ => rfl | exact fun w => State.core_wf w _
    | (with_reducible first
        | intro _ | assumption | apply Only.ite | apply State.setCore_only | split | dsimp only)

theorem State.coreStart_only {ps : List Part} {s₀ s : State} {p : Nat} (h : Only ps s₀ s)
    (hp : Parts [.units, .cores] ps) : Only ps s₀ (State.coreStart s p) := by
  unfold State.coreStart
  repeat' first
    | (with_reducible first
        | exact h | exact Parts.trans (by decide) hp)
    | exact fun _ => rfl | exact fun w => State.core_wf w _
    | (with_reducible first
        | intro _ | assumption | apply State.setCore_only | apply State.setUnit_only | split | dsimp only)

theorem State.backUnit_only {ps : List Part} {s₀ s : State} {h_ : Nat} (h : Only ps s₀ s)
    (hp : Parts [.regs, .units, .env, .gen, .ring, .mail, .ev, .tag, .tx, .rx, .coh, .cores, .mem, .trace] ps) : Only ps s₀ (State.backUnit s h_) := by
  unfold State.backUnit
  repeat' with_reducible first
    | exact h | exact Parts.trans (by decide) hp | intro _ | assumption | apply Only.ite
    | apply State.cohortStart_only | apply State.coreStart_only | apply State.placeAll_only | apply State.tagUp_only
    | apply State.updKick_only | apply State.decideActive_only | apply State.replanJobs_only | split | dsimp only

theorem State.resetNow_only {ps : List Part} {s₀ s : State} {h_ : Nat} (h : Only ps s₀ s)
    (hp : Parts [.regs, .units, .env, .gen, .ring, .mail, .ev, .per, .cip, .ctx, .tag, .tmp, .cap, .tx, .ttb, .rx, .coh, .upd, .bkp, .cores, .mem, .trace, .free] ps) : Only ps s₀ (State.resetNow s h_) := by
  unfold State.resetNow
  repeat' with_reducible first
    | exact h | exact Parts.trans (by decide) hp | intro _ | assumption | apply State.resetUnit_only
    | apply State.envBreak_only | split | dsimp only

theorem State.resumeUnit_only {ps : List Part} {s₀ s : State} {h_ : Nat} (h : Only ps s₀ s)
    (hp : Parts [.regs, .units, .gen, .ring, .ev, .per, .tx, .rx, .cores, .mem, .trace, .free] ps) : Only ps s₀ (State.resumeUnit s h_) := by
  unfold State.resumeUnit
  repeat' first
    | (with_reducible first
        | exact h | exact Parts.trans (by decide) hp)
    | exact fun _ => rfl | exact fun w => State.core_wf w _
    | (with_reducible first
        | intro _ | assumption | apply Only.ite | apply State.placeAll_only | apply State.daliNext_only
        | apply State.setCore_only | apply State.setUnit_only | apply State.updKick_only | apply State.replanJobs_only
        | split | dsimp only)

theorem State.drainUnit_only {ps : List Part} {s₀ s : State} {h_ : Nat} (h : Only ps s₀ s)
    (hp : Parts [.regs, .ev, .per, .cap, .rx, .trace] ps) : Only ps s₀ (State.drainUnit s h_) := by
  unfold State.drainUnit
  repeat' with_reducible first
    | exact h | exact Parts.trans (by decide) hp | intro _ | assumption | apply State.daliStop_only
    | apply State.setCap_only | apply State.replanJobs_only | split | dsimp only

theorem State.uctlUnit_only {ps : List Part} {s₀ s : State} {v h_ : Nat} (h : Only ps s₀ s)
    (hp : Parts [.regs, .units, .env, .gen, .ring, .mail, .ev, .per, .cip, .ctx, .tag, .tmp, .cap, .tx, .ttb, .rx, .coh, .upd, .bkp, .cores, .mem, .trace, .free] ps) : Only ps s₀ (State.uctlUnit v s h_) := by
  unfold State.uctlUnit
  repeat' with_reducible first
    | exact h | exact Parts.trans (by decide) hp | intro _ | assumption | apply Only.ite | apply State.stopUnit_only
    | apply State.resumeUnit_only | apply State.uartDrain_only | apply State.setUnit_only | apply State.drainUnit_only
    | apply State.resetNow_only | apply State.beginDrain_only | apply State.coreHold_only | apply State.put_only
    | split | dsimp only

theorem State.uctlApply_only {ps : List Part} {s₀ s : State} {h_ v : Nat} (h : Only ps s₀ s)
    (hp : Parts [.regs, .units, .env, .gen, .ring, .mail, .ev, .per, .cip, .ctx, .tag, .tmp, .cap, .tx, .ttb, .rx, .coh, .upd, .bkp, .cores, .mem, .trace, .free] ps) : Only ps s₀ (State.uctlApply s h_ v) := by
  unfold State.uctlApply
  repeat' with_reducible first
    | exact h | exact Parts.trans (by decide) hp | intro _ | assumption | refine Only.foldl (fun _ _ _ => ?_) ?_
    | refine Only.foldl_fst (fun _ _ _ => ?_) ?_ | apply State.uctlUnit_only | split | dsimp only

theorem State.returnOne_only {ps : List Part} {s₀ s : State} {h_ : Nat} (h : Only ps s₀ s)
    (hp : Parts [.regs, .units, .env, .gen, .ring, .mail, .ev, .per, .cip, .ctx, .tag, .tmp, .cap, .tx, .ttb, .rx, .coh, .upd, .bkp, .cores, .mem, .trace, .free] ps) : Only ps s₀ (State.returnOne s h_) := by
  unfold State.returnOne
  repeat' with_reducible first
    | exact h | exact Parts.trans (by decide) hp | intro _ | assumption | apply Only.ite | apply State.uctlUnit_only
    | apply State.envRestore_only | apply State.setUnit_only | apply State.backUnit_only | split | dsimp only

theorem State.servedLapse_only {ps : List Part} {s₀ s : State} (h : Only ps s₀ s)
    (hp : Parts [.ring] ps) : Only ps s₀ (State.servedLapse s) := by
  unfold State.servedLapse
  repeat' with_reducible first
    | exact h | exact Parts.trans (by decide) hp | intro _ | assumption | refine Only.foldl (fun _ _ _ => ?_) ?_
    | refine Only.foldl_fst (fun _ _ _ => ?_) ?_ | apply State.decide__only | split | dsimp only

theorem State.unitLapse_only {ps : List Part} {s₀ s : State} {h_ : Nat} (h : Only ps s₀ s)
    (hp : Parts [.regs, .units, .env, .gen, .ring, .mail, .ev, .per, .cip, .ctx, .tag, .tmp, .tab, .cap, .tx, .ttb, .rx, .coh, .upd, .boot, .doms, .bkp, .cores, .mem, .bus, .pins, .phase, .trace, .ledger, .free] ps) : Only ps s₀ (State.unitLapse s h_) := by
  unfold State.unitLapse
  repeat' with_reducible first
    | exact h | exact Parts.trans (by decide) hp | intro _ | assumption | apply Only.ite | apply State.uartDrain_only
    | apply State.servedLapse_only | apply State.lapseUnit_only | apply State.resetNow_only
    | apply State.leaveBound_only | split | dsimp only

theorem State.unitReturn_only {ps : List Part} {s₀ s : State} {h_ : Nat} (h : Only ps s₀ s)
    (hp : Parts [.regs, .units, .env, .gen, .ring, .mail, .ev, .per, .cip, .ctx, .tag, .tmp, .cap, .tx, .ttb, .rx, .coh, .upd, .bkp, .cores, .mem, .trace, .free] ps) : Only ps s₀ (State.unitReturn s h_) := by
  unfold State.unitReturn
  repeat' with_reducible first
    | exact h | exact Parts.trans (by decide) hp | intro _ | assumption | apply Only.ite
    | refine Only.foldl (fun _ _ _ => ?_) ?_ | refine Only.foldl_fst (fun _ _ _ => ?_) ?_ | apply State.returnOne_only
    | split | dsimp only

theorem State.windowEnd_only {ps : List Part} {s₀ s : State} {h_ : Nat} (h : Only ps s₀ s)
    (hp : Parts [.regs] ps) : Only ps s₀ (State.windowEnd s h_) := by
  unfold State.windowEnd
  repeat' with_reducible first
    | exact h | exact Parts.trans (by decide) hp | intro _ | assumption | apply Only.ite | apply State.wr_only | split
    | dsimp only

end Sys2Proof.Machine
end

