-- ==== Sys2Proof/Laws/OnlyPower.lean ====
section
/-!
SUPPORT. What each operation of Machine/Power.lean leaves alone.
-/

namespace Sys2Proof.Machine

theorem State.domDrain_only {ps : List Part} {s₀ s : State} {n : Nat} (h : Only ps s₀ s)
    (hp : Parts [.regs, .units, .gen, .ring, .ev, .per, .cap, .tx, .rx, .upd, .cores, .trace] ps) : Only ps s₀ (State.domDrain s n) := by
  unfold State.domDrain
  repeat' with_reducible first
    | exact h | exact Parts.trans (by decide) hp | intro _ | assumption | apply Only.ite
    | refine Only.foldl (fun _ _ _ => ?_) ?_ | refine Only.foldl_fst (fun _ _ _ => ?_) ?_ | apply State.stopUnit_only
    | apply State.beginDrain_only | apply State.coreHold_only | apply State.stopWork_only | split | dsimp only

theorem State.domLost_only {ps : List Part} {s₀ s : State} {n : Nat} (h : Only ps s₀ s)
    (hp : Parts [.regs, .units, .env, .gen, .ring, .mail, .ev, .per, .ctx, .tmp, .cap, .tx, .ttb, .rx, .coh, .bkp, .cores, .mem, .trace, .ledger] ps) : Only ps s₀ (State.domLost s n) := by
  unfold State.domLost
  repeat' first
    | (with_reducible first
        | exact h | exact Parts.trans (by decide) hp)
    | exact fun _ => rfl | exact fun w => State.core_wf w _
    | (with_reducible first
        | intro _ | assumption | rw [lit_ev_per] | rw [lit_trace] | rw [lit_tx] | rw [lit_per] | rw [lit_ev]
        | apply Only.ite | refine Only.foldl (fun _ _ _ => ?_) ?_ | refine Only.foldl_fst (fun _ _ _ => ?_) ?_
        | apply State.keeperTake_only | apply State.freeBuffers_only | apply State.forget_only
        | apply State.setRx_only | apply State.setCap_only | apply State.remapSwitch_only | apply State.setCore_only
        | apply State.tempoGo_only | apply State.setCoh_only | apply State.setTmp_only
        | refine State.with_ev_only ?_ ?_ (fun _ => rfl) | refine State.with_ev_only ?_ ?_ id
        | refine State.with_per_only ?_ ?_ (fun _ => rfl) | refine State.with_per_only ?_ ?_ id
        | refine State.with_tx_only ?_ ?_ | refine State.with_trace_only ?_ ?_ (fun _ => rfl)
        | refine State.with_trace_only ?_ ?_ id | refine Only.fst (by assumption) ?_
        | refine Only.snd (by assumption) ?_ | split | dsimp only)

theorem swf_filter {α : Type} [DecidableEq α] (d : Nat → α) (q : Nat → Bool) (m : List (Nat × α)) (h : swf d m = true) :
    swf d (m.filter fun c => q c.1) = true := by
  have e : (m.filter fun c => q c.1) = sdrop (fun k => !q k) m := by
    unfold sdrop
    congr 1
    funext c
    simp
  rw [e]
  exact swf_sdrop _ _ _ h

theorem State.sysOff_only {ps : List Part} {s₀ s : State} (h : Only ps s₀ s)
    (hp : Parts [.regs, .units, .env, .gen, .ring, .mail, .ev, .per, .cip, .ctx, .tab, .cap, .tx, .ttb, .rx, .coh, .upd, .doms, .cores, .mem, .bus, .phase, .trace, .ledger] ps) : Only ps s₀ s.sysOff := by
  have hd : swf (fun _ => ({} : DomRec)) s.doms = true → swf (fun _ => ({} : DomRec)) s.sysOff.doms = true := fun c => by
    unfold State.sysOff
    dsimp only
    exact swf_filter _ (fun n => n == 1 || n == 14) _ c
  have hr : swf resetWord s.regs = true → swf resetWord s.sysOff.regs = true := fun c => by
    unfold State.sysOff
    dsimp only
    exact swf_sdrop _ _ _ c
  have hm : Memory.wf s.mem.cells = true → Memory.wf s.sysOff.mem.cells = true := fun c => by
    unfold State.sysOff
    dsimp only
    exact swf_sdrop memDefault _ _ c
  refine h.trans ⟨fun p hq => ?_, fun c => ⟨hr c.regs, hm c.cells, rfl, c.satchel, hd c.doms, rfl, rfl, rfl, rfl, rfl, rfl, c.eeprom, rfl, rfl⟩, rfl⟩
  cases p <;> first | rfl | exact absurd (hp.mem hq) (by decide)

theorem State.domLeave_only {ps : List Part} {s₀ s : State} {n dest : Nat} (h : Only ps s₀ s)
    (hp : Parts [.regs, .units, .env, .gen, .ring, .mail, .ev, .per, .cip, .ctx, .tag, .tmp, .tab, .cap, .tx, .ttb, .rx, .coh, .upd, .doms, .bkp, .cores, .mem, .bus, .phase, .trace, .ledger, .free] ps) : Only ps s₀ (State.domLeave s n dest) := by
  unfold State.domLeave
  repeat' with_reducible first
    | exact h | exact Parts.trans (by decide) hp | intro _ | assumption | rw [lit_ev_per] | rw [lit_per] | rw [lit_ev]
    | rw [lit_env] | apply Only.ite | refine Only.foldl (fun _ _ _ => ?_) ?_
    | refine Only.foldl_fst (fun _ _ _ => ?_) ?_ | apply State.envBreak_only | apply State.domLost_only
    | apply State.envRestore_only | apply State.dropRegs_only | apply State.put_only | apply State.sysOff_only
    | apply State.setDom_only | apply State.tagOff_only | apply State.setUnit_only
    | refine State.with_env_only ?_ ?_ id | refine State.with_env_only ?_ ?_ (Store.wf_setBytes _ _)
    | refine State.with_ev_only ?_ ?_ (fun _ => rfl) | refine State.with_ev_only ?_ ?_ id
    | refine State.with_per_only ?_ ?_ (fun _ => rfl) | refine State.with_per_only ?_ ?_ id | split | dsimp only

theorem State.domDown_only {ps : List Part} {s₀ s : State} {n : Nat} (h : Only ps s₀ s)
    (hp : Parts [.regs, .units, .env, .gen, .ring, .mail, .ev, .per, .cip, .ctx, .tag, .tmp, .tab, .cap, .tx, .ttb, .rx, .coh, .upd, .doms, .bkp, .cores, .mem, .bus, .phase, .trace, .ledger, .free] ps) : Only ps s₀ (State.domDown s n) := by
  unfold State.domDown
  repeat' with_reducible first
    | exact h | exact Parts.trans (by decide) hp | intro _ | assumption | apply Only.ite | apply State.domDrain_only
    | apply State.setDom_only | apply State.domLeave_only | split | dsimp only

theorem State.domUp_only {ps : List Part} {s₀ s : State} {n : Nat} (h : Only ps s₀ s)
    (hp : Parts [.doms] ps) : Only ps s₀ (State.domUp s n) := by
  unfold State.domUp
  repeat' with_reducible first
    | exact h | exact Parts.trans (by decide) hp | intro _ | assumption | apply Only.ite | apply State.setDom_only
    | split | dsimp only

theorem State.domProceed_only {ps : List Part} {s₀ s : State} (h : Only ps s₀ s)
    (hp : Parts [.regs, .units, .env, .gen, .ring, .mail, .ev, .per, .cip, .ctx, .tag, .tmp, .tab, .cap, .tx, .ttb, .rx, .coh, .upd, .doms, .bkp, .cores, .mem, .bus, .phase, .trace, .ledger, .free] ps) : Only ps s₀ (State.domProceed s) := by
  unfold State.domProceed
  repeat' with_reducible first
    | exact h | exact Parts.trans (by decide) hp | intro _ | assumption | refine Only.foldl (fun _ _ _ => ?_) ?_
    | refine Only.foldl_fst (fun _ _ _ => ?_) ?_ | apply State.domDown_only | apply State.domUp_only | split
    | dsimp only

theorem State.domRefuse_only {ps : List Part} {s₀ s : State} {cause n stamp : Nat} (h : Only ps s₀ s)
    (hp : Parts [.regs] ps) : Only ps s₀ (State.domRefuse s cause n stamp) := by
  unfold State.domRefuse
  repeat' with_reducible first
    | exact h | exact Parts.trans (by decide) hp | intro _ | assumption | apply State.wr_only | apply State.bump_only
    | split | dsimp only

theorem State.domRequest_only {ps : List Part} {s₀ s : State} {req : List (Prod Nat Nat)} {stamp : Nat} {plan : optParam (Option Nat) Option.none} (h : Only ps s₀ s)
    (hp : Parts [.regs, .units, .env, .gen, .ring, .mail, .ev, .per, .cip, .ctx, .tag, .tmp, .tab, .cap, .tx, .ttb, .rx, .coh, .upd, .doms, .bkp, .cores, .mem, .bus, .phase, .trace, .ledger, .free] ps) : Only ps s₀ (State.domRequest s req stamp plan) := by
  unfold State.domRequest
  repeat' with_reducible first
    | exact h | exact Parts.trans (by decide) hp | intro _ | assumption | apply Only.ite
    | refine Only.foldl (fun _ _ _ => ?_) ?_ | refine Only.foldl_fst (fun _ _ _ => ?_) ?_
    | apply State.domProceed_only | apply State.domRefuse_only | apply State.setDom_only | split | dsimp only

theorem State.applyPlan_only {ps : List Part} {s₀ s : State} {k : Nat} (h : Only ps s₀ s)
    (hp : Parts [.regs, .units, .env, .gen, .ring, .mail, .ev, .per, .cip, .ctx, .tag, .tmp, .tab, .cap, .tx, .ttb, .rx, .coh, .upd, .doms, .bkp, .cores, .mem, .bus, .phase, .trace, .ledger, .free] ps) : Only ps s₀ (State.applyPlan s k) := by
  unfold State.applyPlan
  repeat' with_reducible first
    | exact h | exact Parts.trans (by decide) hp | intro _ | assumption | apply State.domRequest_only | split
    | dsimp only

theorem State.bkpWake_only {ps : List Part} {s₀ s : State} (h : Only ps s₀ s)
    (hp : Parts [.regs, .units, .env, .gen, .ring, .mail, .ev, .per, .cip, .ctx, .tag, .tmp, .tab, .cap, .tx, .ttb, .rx, .coh, .upd, .boot, .doms, .bkp, .cores, .mem, .bus, .pins, .phase, .trace, .ledger, .free] ps) : Only ps s₀ (State.bkpWake s) := by
  unfold State.bkpWake
  repeat' with_reducible first
    | exact h | exact Parts.trans (by decide) hp | intro _ | assumption | rw [lit_pins] | apply Only.ite
    | apply State.setDom_only | apply State.wr_only | apply State.stageTwo_only | refine State.setBkp_only ?_ ?_ id
    | refine State.setBkp_only ?_ ?_ (fun _ => rfl) | apply State.domProceed_only | refine State.with_pins_only ?_ ?_
    | split | dsimp only

theorem State.perBack_only {ps : List Part} {s₀ s : State} (h : Only ps s₀ s)
    (hp : Parts [.regs, .ev, .per, .trace] ps) : Only ps s₀ (State.perBack s) := by
  unfold State.perBack
  repeat' with_reducible first
    | exact h | exact Parts.trans (by decide) hp | intro _ | assumption | rw [lit_ev_per] | rw [lit_per] | rw [lit_ev]
    | refine Only.foldl (fun _ _ _ => ?_) ?_ | refine Only.foldl_fst (fun _ _ _ => ?_) ?_
    | apply State.timerMakeup_only | refine State.with_ev_only ?_ ?_ (fun _ => rfl)
    | refine State.with_ev_only ?_ ?_ id | refine State.with_per_only ?_ ?_ (fun _ => rfl)
    | refine State.with_per_only ?_ ?_ id | split | dsimp only

theorem State.domBack_only {ps : List Part} {s₀ s : State} {n from_ : Nat} (h : Only ps s₀ s)
    (hp : Parts [.regs, .units, .env, .gen, .ring, .mail, .ev, .per, .tag, .tmp, .cap, .tx, .ttb, .rx, .coh, .bkp, .cores, .mem, .trace, .free] ps) : Only ps s₀ (State.domBack s n from_) := by
  unfold State.domBack
  repeat' with_reducible first
    | exact h | exact Parts.trans (by decide) hp | intro _ | assumption | apply Only.ite
    | apply State.cohortStart_only | apply State.decideActive_only | apply State.resumeUnit_only
    | apply State.gaspDecide_only | apply State.setCap_only | apply State.tempoStart_only | apply State.tagUp_only
    | apply State.dramStart_only | apply State.updKick_only | apply State.coreStart_only | apply State.perBack_only
    | split | dsimp only

theorem State.domArrive_only {ps : List Part} {s₀ s : State} {n : Nat} (h : Only ps s₀ s)
    (hp : Parts [.regs, .units, .env, .gen, .ring, .mail, .ev, .per, .tag, .tmp, .cap, .tx, .ttb, .rx, .coh, .doms, .bkp, .cores, .mem, .trace, .free] ps) : Only ps s₀ (State.domArrive s n) := by
  unfold State.domArrive
  repeat' with_reducible first
    | exact h | exact Parts.trans (by decide) hp | intro _ | assumption | rw [lit_env] | apply Only.ite
    | refine Only.foldl (fun _ _ _ => ?_) ?_ | refine Only.foldl_fst (fun _ _ _ => ?_) ?_ | apply State.setDom_only
    | apply State.envRestore_only | apply State.setUnit_only | apply State.domBack_only
    | refine State.with_env_only ?_ ?_ id | refine State.with_env_only ?_ ?_ (Store.wf_setBytes _ _) | split
    | dsimp only

theorem State.sysBack_only {ps : List Part} {s₀ s : State} (h : Only ps s₀ s)
    (hp : Parts [.regs, .units, .env, .gen, .ring, .mail, .ev, .per, .cip, .ctx, .tag, .tmp, .tab, .cap, .tx, .ttb, .rx, .coh, .upd, .doms, .bkp, .cores, .mem, .bus, .phase, .trace, .ledger, .free] ps) : Only ps s₀ (State.sysBack s) := by
  unfold State.sysBack
  repeat' with_reducible first
    | exact h | exact Parts.trans (by decide) hp | intro _ | assumption | apply Only.ite | apply State.applyPlan_only
    | apply State.gaspDecide_only | refine State.setBkp_only ?_ ?_ id | refine State.setBkp_only ?_ ?_ (fun _ => rfl)
    | split | dsimp only

theorem State.domEnd_only {ps : List Part} {s₀ s : State} {n : Nat} (h : Only ps s₀ s)
    (hp : Parts [.regs, .units, .env, .gen, .ring, .mail, .ev, .per, .cip, .ctx, .tag, .tmp, .tab, .cap, .tx, .ttb, .rx, .coh, .upd, .boot, .doms, .bkp, .cores, .mem, .bus, .pins, .phase, .trace, .ledger, .free] ps) : Only ps s₀ (State.domEnd s n) := by
  unfold State.domEnd
  repeat' with_reducible first
    | exact h | exact Parts.trans (by decide) hp | intro _ | assumption | apply Only.ite
    | refine Only.foldl (fun _ _ _ => ?_) ?_ | refine Only.foldl_fst (fun _ _ _ => ?_) ?_ | apply State.domArrive_only
    | apply State.lapseUnit_only | apply State.uartDrain_only | apply State.domLeave_only
    | apply State.domProceed_only | apply State.sysBack_only | split | dsimp only

theorem State.domWrite_only {ps : List Part} {s₀ s : State} {who : Who} {n target : Nat} (h : Only ps s₀ s)
    (hp : Parts [.regs, .units, .env, .gen, .ring, .mail, .ev, .per, .cip, .ctx, .tag, .tmp, .tab, .cap, .tx, .ttb, .rx, .coh, .upd, .doms, .bkp, .cores, .mem, .bus, .phase, .trace, .ledger, .free] ps) : Only ps s₀ (State.domWrite s who n target) := by
  unfold State.domWrite
  repeat' with_reducible first
    | exact h | exact Parts.trans (by decide) hp | intro _ | assumption | apply Only.ite | apply State.guarded_only
    | apply State.domRequest_only | apply State.pageWrite_only | refine Only.fst (by assumption) ?_
    | refine Only.snd (by assumption) ?_ | split | dsimp only

theorem State.mainLoss_only {ps : List Part} {s₀ s : State} {vmain : Nat} (h : Only ps s₀ s)
    (hp : Parts [.regs, .units, .env, .gen, .ring, .mail, .ev, .per, .cip, .ctx, .tag, .tmp, .tab, .cap, .tx, .ttb, .rx, .coh, .upd, .doms, .bkp, .cores, .mem, .bus, .pins, .phase, .trace, .ledger, .free] ps) : Only ps s₀ (State.mainLoss s vmain) := by
  unfold State.mainLoss
  repeat' with_reducible first
    | exact h | exact Parts.trans (by decide) hp | intro _ | assumption | rw [lit_pins] | rw [lit_ttb]
    | apply Only.ite | apply State.gaspDecide_only | apply State.domRequest_only | apply State.put_only
    | refine State.with_ttb_only ?_ ?_ | refine State.with_pins_only ?_ ?_ | refine Only.fst (by assumption) ?_
    | refine Only.snd (by assumption) ?_ | split | dsimp only

theorem State.uctlWrite_only {ps : List Part} {s₀ s : State} {who : Who} {h_ v : Nat} (h : Only ps s₀ s)
    (hp : Parts [.regs, .units, .env, .gen, .ring, .mail, .ev, .per, .cip, .ctx, .tag, .tmp, .tab, .cap, .tx, .ttb, .rx, .coh, .upd, .doms, .bkp, .cores, .mem, .bus, .phase, .trace, .ledger, .free] ps) : Only ps s₀ (State.uctlWrite s who h_ v) := by
  unfold State.uctlWrite
  repeat' with_reducible first
    | exact h | exact Parts.trans (by decide) hp | intro _ | assumption | apply Only.ite | apply State.guarded_only
    | apply State.uctlApply_only | apply State.domRequest_only | refine Only.fst (by assumption) ?_
    | refine Only.snd (by assumption) ?_ | split | dsimp only

theorem State.thermalCut_only {ps : List Part} {s₀ s : State} (h : Only ps s₀ s)
    (hp : Parts [.regs, .units, .env, .gen, .ring, .mail, .ev, .per, .cip, .ctx, .tag, .tmp, .tab, .cap, .tx, .ttb, .rx, .coh, .upd, .doms, .bkp, .cores, .mem, .bus, .phase, .trace, .ledger, .free] ps) : Only ps s₀ (State.thermalCut s) := by
  unfold State.thermalCut
  repeat' with_reducible first
    | exact h | exact Parts.trans (by decide) hp | intro _ | assumption | apply Only.ite
    | refine Only.foldl (fun _ _ _ => ?_) ?_ | refine Only.foldl_fst (fun _ _ _ => ?_) ?_ | apply State.cutTx_only
    | apply State.domLeave_only | split | dsimp only

theorem State.thermalRecovery_only {ps : List Part} {s₀ s : State} (h : Only ps s₀ s)
    (hp : Parts [.regs, .units, .env, .gen, .ring, .mail, .ev, .per, .cip, .ctx, .tag, .tmp, .tab, .cap, .tx, .ttb, .rx, .coh, .upd, .doms, .bkp, .cores, .mem, .bus, .phase, .trace, .ledger, .free] ps) : Only ps s₀ (State.thermalRecovery s) := by
  unfold State.thermalRecovery
  repeat' with_reducible first
    | exact h | exact Parts.trans (by decide) hp | intro _ | assumption | rw [lit_tx] | apply Only.ite
    | apply State.domProceed_only | refine State.with_tx_only ?_ ?_ | split | dsimp only

theorem State.thermalShutdown_only {ps : List Part} {s₀ s : State} (h : Only ps s₀ s)
    (hp : Parts [.regs, .units, .env, .gen, .ring, .mail, .ev, .per, .cip, .ctx, .tag, .tmp, .tab, .cap, .tx, .ttb, .rx, .coh, .upd, .doms, .bkp, .cores, .mem, .bus, .phase, .trace, .ledger, .free] ps) : Only ps s₀ (State.thermalShutdown s) := by
  unfold State.thermalShutdown
  repeat' with_reducible first
    | exact h | exact Parts.trans (by decide) hp | intro _ | assumption | rw [lit_tx] | apply State.wr_only
    | apply State.thermalCut_only | refine State.with_tx_only ?_ ?_ | split | dsimp only

end Sys2Proof.Machine
end

