-- ==== Sys2Proof/Laws/OnlyRouter.lean ====
section
/-!
SUPPORT. What each operation of Machine/Router.lean leaves alone.
-/

namespace Sys2Proof.Machine

theorem State.channelWrite_only {ps : List Part} {s₀ s : State} {who : Who} {c a v mask : Nat} (h : Only ps s₀ s)
    (hp : Parts [.regs, .units, .env, .mail, .ev, .trace] ps) : Only ps s₀ (State.channelWrite s who c a v mask) := by
  unfold State.channelWrite
  repeat' with_reducible first
    | exact h | exact Parts.trans (by decide) hp | intro _ | assumption | apply Only.ite | apply State.guarded_only
    | apply State.writeFields_only | apply State.put_only | split | dsimp only

theorem State.groupChange_only {ps : List Part} {s₀ s : State} {en dis : Nat} (h : Only ps s₀ s)
    (hp : Parts [.regs, .ev] ps) : Only ps s₀ (State.groupChange s en dis) := by
  unfold State.groupChange
  repeat' with_reducible first
    | exact h | exact Parts.trans (by decide) hp | intro _ | assumption | rw [lit_ev] | apply Only.ite
    | refine Only.foldl (fun _ _ _ => ?_) ?_ | refine Only.foldl_fst (fun _ _ _ => ?_) ?_ | apply State.wr_only
    | refine State.with_ev_only ?_ ?_ (fun _ => rfl) | refine State.with_ev_only ?_ ?_ id
    | refine Only.fst (by assumption) ?_ | refine Only.snd (by assumption) ?_ | split | dsimp only

theorem State.irqClear_only {ps : List Part} {s₀ s : State} {who : Who} {lines : Nat} (h : Only ps s₀ s)
    (hp : Parts [.regs, .units, .env, .mail, .ev, .trace] ps) : Only ps s₀ (State.irqClear s who lines) := by
  unfold State.irqClear
  repeat' with_reducible first
    | exact h | exact Parts.trans (by decide) hp | intro _ | assumption | apply Only.ite
    | refine Only.foldl (fun _ _ _ => ?_) ?_ | refine Only.foldl_fst (fun _ _ _ => ?_) ?_ | apply State.guarded_only
    | apply State.wr_only | split | dsimp only

theorem State.taskMark_only {ps : List Part} {s₀ s : State} {k at_ : Nat} (h : Only ps s₀ s)
    (hp : Parts [.ev] ps) : Only ps s₀ (State.taskMark s k at_) := by
  unfold State.taskMark
  repeat' with_reducible first
    | exact h | exact Parts.trans (by decide) hp | intro _ | assumption | rw [lit_ev]
    | refine State.with_ev_only ?_ ?_ (fun _ => rfl) | refine State.with_ev_only ?_ ?_ id
    | refine Only.fst (by assumption) ?_ | refine Only.snd (by assumption) ?_ | split | dsimp only

theorem State.mergeTasks_only {ps : List Part} {s₀ s : State} {acts : List Activation} (h : Only ps s₀ s)
    (hp : Parts [.regs, .units, .env, .mail, .ev, .trace] ps) : Only ps s₀ (State.mergeTasks s acts).1 := by
  unfold State.mergeTasks
  repeat' with_reducible first
    | exact h | exact Parts.trans (by decide) hp | intro _ | assumption | apply Only.ite
    | refine Only.foldl (fun _ _ _ => ?_) ?_ | refine Only.foldl_fst (fun _ _ _ => ?_) ?_ | apply State.bump_only
    | apply State.envBreak_only | apply State.taskMark_only | apply State.put_only
    | refine Only.fst (by assumption) ?_ | refine Only.snd (by assumption) ?_ | split | dsimp only

theorem State.otherTask_only {ps : List Part} {s₀ s : State} {k depth : Nat} (h : Only ps s₀ s)
    (hp : Parts [.regs, .units, .env, .gen, .ring, .mail, .ev, .per, .cip, .ctx, .tag, .tmp, .tab, .cap, .tx, .ttb, .rx, .coh, .upd, .doms, .bkp, .cores, .mem, .bus, .phase, .trace, .ledger, .free] ps) : Only ps s₀ (State.otherTask s k depth) := by
  unfold State.otherTask
  repeat' with_reducible first
    | exact h | exact Parts.trans (by decide) hp | intro _ | assumption | apply Only.ite | apply State.applyPlan_only
    | apply State.wr_only | apply State.dimHold_only | apply State.daliSend_only | apply State.dimApply_only | split
    | dsimp only

theorem State.softTrigger_only {ps : List Part} {s₀ s : State} {who : Who} {m : Nat} (h : Only ps s₀ s)
    (hp : Parts [.regs, .units, .env, .mail, .ev, .trace] ps) : Only ps s₀ (State.softTrigger s who m) := by
  unfold State.softTrigger
  repeat' with_reducible first
    | exact h | exact Parts.trans (by decide) hp | intro _ | assumption | apply Only.ite
    | refine Only.foldl (fun _ _ _ => ?_) ?_ | refine Only.foldl_fst (fun _ _ _ => ?_) ?_ | apply State.noteLate_only
    | apply State.emitFrom_only | split | dsimp only

theorem State.runTasks_only {ps : List Part} {s₀ s : State} {l : List (Prod Nat (Prod Nat Nat))} (h : Only ps s₀ s)
    (hp : Parts [.regs, .units, .env, .gen, .ring, .mail, .ev, .per, .cip, .ctx, .tag, .tmp, .tab, .cap, .tx, .ttb, .rx, .coh, .upd, .doms, .bkp, .cores, .mem, .bus, .phase, .trace, .ledger, .free] ps) : Only ps s₀ (State.runTasks s l) := by
  unfold State.runTasks
  repeat' with_reducible first
    | exact h | exact Parts.trans (by decide) hp | intro _ | assumption | apply Only.ite
    | refine Only.foldl (fun _ _ _ => ?_) ?_ | refine Only.foldl_fst (fun _ _ _ => ?_) ?_
    | apply State.groupChange_only | apply State.otherTask_only | apply State.timerDo_only
    | apply State.gpioTasks_only | split | dsimp only

theorem State.routeOne_only {ps : List Part} {s₀ s : State} {groups : Nat} {e : Event} (h : Only ps s₀ s)
    (hp : Parts [.regs, .units, .env, .mail, .ev, .trace] ps) : Only ps s₀ (State.routeOne s groups e).1 := by
  unfold State.routeOne
  repeat' with_reducible first
    | exact h | exact Parts.trans (by decide) hp | intro _ | assumption | apply Only.ite
    | refine Only.foldl (fun _ _ _ => ?_) ?_ | refine Only.foldl_fst (fun _ _ _ => ?_) ?_ | apply State.wr_only
    | apply State.envBreak_only | apply State.denied_only | apply State.bump_only | apply State.put_only
    | refine Only.fst (by assumption) ?_ | refine Only.snd (by assumption) ?_ | split | dsimp only

theorem State.route_only {ps : List Part} {s₀ s : State} {n : Nat} (h : Only ps s₀ s)
    (hp : Parts [.regs, .units, .env, .gen, .ring, .mail, .ev, .per, .cip, .ctx, .tag, .tmp, .tab, .cap, .tx, .ttb, .rx, .coh, .upd, .doms, .bkp, .cores, .mem, .bus, .phase, .trace, .ledger, .free] ps) : Only ps s₀ (State.route s n) := by
  unfold State.route
  repeat' with_reducible first
    | exact h | exact Parts.trans (by decide) hp | intro _ | assumption | rw [lit_ev] | apply Only.ite
    | refine Only.foldl (fun _ _ _ => ?_) ?_ | refine Only.foldl_fst (fun _ _ _ => ?_) ?_ | apply State.runTasks_only
    | apply State.tracePacket_only | apply State.routeOne_only | apply State.mergeTasks_only
    | apply State.progress_only | refine State.with_ev_only ?_ ?_ (fun _ => rfl) | refine State.with_ev_only ?_ ?_ id
    | refine Only.fst (by assumption) ?_ | refine Only.snd (by assumption) ?_ | split | dsimp only

end Sys2Proof.Machine
end

