-- ==== Sys2Proof/Laws/OnlyBus.lean ====
section
/-!
SUPPORT. What each operation of Machine/Bus.lean leaves alone.
-/

namespace Sys2Proof.Machine

theorem State.actWrite_only {ps : List Part} {s₀ s : State} {who : Who} {a : Nat} {f : State → State} (h : Only ps s₀ s)
    (hp : Parts [.regs, .units, .env, .mail, .ev, .trace] ps) (hf : ∀ t, Only ps s₀ t → Only ps s₀ (f t)) : Only ps s₀ (State.actWrite s who a f) := by
  unfold State.actWrite
  repeat' with_reducible first
    | exact h | exact Parts.trans (by decide) hp | intro _ | assumption | apply hf | apply State.pageWrite_only
    | split | dsimp only

theorem State.busAccess_only {ps : List Part} {s₀ s : State} {a : Nat} {f : State → State} (h : Only ps s₀ s)
    (hp : Parts [.bus] ps) (hf : ∀ t, Only ps s₀ t → Only ps s₀ (f t)) : Only ps s₀ (State.busAccess s a f) := by
  unfold State.busAccess
  repeat' with_reducible first
    | exact h | exact Parts.trans (by decide) hp | intro _ | assumption | rw [lit_bus] | apply Only.ite | apply hf
    | refine State.with_bus_only ?_ ?_ | split | dsimp only

theorem State.drawField_only {ps : List Part} {s₀ s : State} {a : Nat} {fs : List Fld} (h : Only ps s₀ s)
    (hp : Parts [.units, .per, .free] ps) : Only ps s₀ (State.drawField s a fs).1 := by
  unfold State.drawField
  repeat' with_reducible first
    | exact h | exact Parts.trans (by decide) hp | intro _ | assumption | refine Only.foldl (fun _ _ _ => ?_) ?_
    | refine Only.foldl_fst (fun _ _ _ => ?_) ?_ | apply State.free_only | apply State.uartDrain_only
    | refine Only.fst (by assumption) ?_ | refine Only.snd (by assumption) ?_ | split | dsimp only

theorem State.heartbeat_only {ps : List Part} {s₀ s : State} {who : Who} {c : Nat} (h : Only ps s₀ s)
    (hp : Parts [.regs, .units, .env, .mail, .ev, .trace] ps) : Only ps s₀ (State.heartbeat s who c) := by
  unfold State.heartbeat
  repeat' with_reducible first
    | exact h | exact Parts.trans (by decide) hp | intro _ | assumption | apply Only.ite | apply State.setUnit_only
    | apply State.progress_only | apply State.guarded_only | split | dsimp only

theorem State.readSerial_only {ps : List Part} {s₀ s : State} {kind a : Nat} (h : Only ps s₀ s)
    (hp : Parts [.units, .per] ps) : Only ps s₀ (State.readSerial s kind a).1 := by
  unfold State.readSerial
  repeat' with_reducible first
    | exact h | exact Parts.trans (by decide) hp | intro _ | assumption | apply Only.ite | apply State.fifoRead_only
    | apply State.uartDrain_only | refine Only.fst (by assumption) ?_ | refine Only.snd (by assumption) ?_ | split
    | dsimp only

theorem State.readTimer_only {ps : List Part} {s₀ s : State} {a : Nat} (h : Only ps s₀ s)
    (hp : Parts [.regs, .units, .per] ps) : Only ps s₀ (s.readTimer a).1 := by
  unfold State.readTimer
  generalize a % 0x1000 = k
  dsimp only
  split
  · exact State.timerCountRead_only h (Parts.trans (by decide) hp)
  · exact State.captureRead_only h (Parts.trans (by decide) hp)
  · exact State.captureRead_only h (Parts.trans (by decide) hp)
  · exact h

theorem State.readClear_only {ps : List Part} {s₀ s : State} {a : Nat} (h : Only ps s₀ s)
    (hp : Parts [.regs] ps) : Only ps s₀ (State.readClear s a) := by
  unfold State.readClear
  repeat' with_reducible first
    | exact h | exact Parts.trans (by decide) hp | intro _ | assumption | apply Only.ite
    | refine Only.foldl (fun _ _ _ => ?_) ?_ | refine Only.foldl_fst (fun _ _ _ => ?_) ?_ | apply State.wr_only
    | split | dsimp only

theorem State.readSpecial_only {ps : List Part} {s₀ s : State} {who : Who} {a : Nat} {r : State × Nat} (h : Only ps s₀ s)
    (hp : Parts [.regs, .units, .env, .mail, .ev, .per, .bkp, .trace, .free] ps) (e : s.readSpecial who a = some r) :
    Only ps s₀ r.1 := by
  unfold State.readSpecial at e
  generalize a / 0x1000 = k at e
  dsimp only at e
  repeat' split at e
  all_goals first
    | (simp only [reduceCtorEq] at e; done)
    | skip
  all_goals (have e' := Option.some.inj e; rw [← e'])
  all_goals first
    | with_reducible apply State.readTimer_only h
    | with_reducible apply State.free_only h
    | with_reducible apply State.calendarLatch_only h
    | with_reducible apply State.tempoLatch_only h
    | with_reducible apply State.mbxLatch_only h
    | with_reducible apply State.mbxRemove_only h
    | with_reducible apply State.drawField_only h
    | with_reducible apply State.daliResultRead_only h
    | with_reducible apply State.daliReceiveRead_only h
    | with_reducible apply State.readSerial_only h
    | with_reducible apply State.counterLatch_only h
    | with_reducible refine h.set_env ?_ id
  all_goals exact Parts.trans (by decide) hp

theorem State.regRead_only {ps : List Part} {s₀ s : State} {who : Who} {a : Nat} (h : Only ps s₀ s)
    (hp : Parts [.regs, .units, .env, .mail, .ev, .per, .bkp, .trace, .free] ps) : Only ps s₀ (State.regRead s who a).1 := by
  unfold State.regRead
  have h1 : Only ps s₀ (if (decide (0x40 ≤ a - pageBase a) && s.pageOn a) = true then s.noteLate who (pageBase a) else s) :=
    Only.ite (State.noteLate_only h (Parts.trans (by decide) hp)) h
  dsimp only
  generalize (if (decide (0x40 ≤ a - pageBase a) && s.pageOn a) = true then s.noteLate who (pageBase a) else s) = u at h1 ⊢
  have h2 : Only ps s₀ (if (!decide (0x40 ≤ a - pageBase a) || !u.pageOn a) = true then (u, u.viewWord a)
      else match u.readSpecial who a with
        | some r => r
        | none => (u.readClear a, u.viewWord a)).1 := by
    split
    · exact h1
    · split
      · exact State.readSpecial_only h1 (Parts.trans (by decide) hp) ‹_›
      · exact State.readClear_only h1 (Parts.trans (by decide) hp)
  exact h2

theorem State.plainWrite_only {ps : List Part} {s₀ s : State} {who : Who} {a v mask : Nat} (h : Only ps s₀ s)
    (hp : Parts [.regs, .units, .env, .mail, .ev, .trace] ps) : Only ps s₀ (State.plainWrite s who a v mask) := by
  unfold State.plainWrite
  repeat' with_reducible first
    | exact h | exact Parts.trans (by decide) hp | intro _ | assumption | apply State.pageWrite_only
    | apply State.writeFields_only | split | dsimp only

theorem State.writeTmr_only {ps : List Part} {s₀ s : State} {who : Who} {a v mask w : Nat} (h : Only ps s₀ s)
    (hp : Parts [.regs, .units, .env, .mail, .ev, .trace] ps) : Only ps s₀ (State.writeTmr s who a v mask w) := by
  unfold State.writeTmr
  repeat' with_reducible first
    | exact h | exact Parts.trans (by decide) hp | intro _ | assumption | apply State.timerWrite_only
    | apply State.timerPeriodWrite_only | apply State.timerCtlWrite_only | apply State.timerCountWrite_only
    | apply State.timerCmpWrite_only | apply State.timerCmd_only | apply State.writeFields_only
    | apply State.timerExtWrite_only | split | dsimp only

theorem State.writeEvr_only {ps : List Part} {s₀ s : State} {who : Who} {a v mask w : Nat} (h : Only ps s₀ s)
    (hp : Parts [.regs, .units, .env, .mail, .ev, .trace] ps) : Only ps s₀ (State.writeEvr s who a v mask w) := by
  unfold State.writeEvr
  repeat' with_reducible first
    | exact h | exact Parts.trans (by decide) hp | intro _ | assumption | apply Only.ite | apply State.plainWrite_only
    | apply State.softTrigger_only | apply State.actWrite_only | apply State.irqClear_only
    | apply State.groupChange_only | apply State.channelWrite_only | split | dsimp only

theorem State.writeHeader_only {ps : List Part} {s₀ s : State} {who : Who} {u : UnitInfo} {off v mask : Nat} (h : Only ps s₀ s)
    (hp : Parts [.regs, .units, .env, .gen, .ring, .mail, .ev, .per, .cip, .ctx, .tag, .tmp, .tab, .cap, .tx, .ttb, .rx, .coh, .upd, .doms, .bkp, .cores, .mem, .bus, .phase, .trace, .ledger, .free] ps) : Only ps s₀ (State.writeHeader s who u off v mask) := by
  unfold State.writeHeader
  repeat' with_reducible first
    | exact h | exact Parts.trans (by decide) hp | intro _ | assumption | apply Only.ite | apply State.guarded_only
    | apply State.setWord_only | apply State.denied_only | apply State.uctlWrite_only | split | dsimp only

theorem State.writeTmp_only {ps : List Part} {s₀ s : State} {who : Who} {a v mask w : Nat} (h : Only ps s₀ s)
    (hp : Parts [.regs, .units, .env, .gen, .ring, .mail, .ev, .tmp, .tx, .ttb, .coh, .bkp, .mem, .trace] ps) : Only ps s₀ (State.writeTmp s who a v mask w) := by
  unfold State.writeTmp
  repeat' with_reducible first
    | exact h | exact Parts.trans (by decide) hp | intro _ | assumption | apply Only.ite | apply State.plainWrite_only
    | apply State.tempoCfg_only | apply State.setCycle_only | apply State.wr_only | apply State.tempoAlarmCtl_only
    | apply State.actWrite_only | split | dsimp only

theorem State.writeCap_only {ps : List Part} {s₀ s : State} {who : Who} {a v mask w : Nat} (h : Only ps s₀ s)
    (hp : Parts [.regs, .units, .env, .mail, .ev, .tab, .cap, .trace] ps) : Only ps s₀ (State.writeCap s who a v mask w) := by
  unfold State.writeCap
  repeat' with_reducible first
    | exact h | exact Parts.trans (by decide) hp | intro _ | assumption | apply Only.ite | apply State.plainWrite_only
    | apply State.capCtl_only | apply State.actWrite_only | apply State.capRequest_only | apply State.calClear_only
    | split | dsimp only

theorem State.writeGpi_only {ps : List Part} {s₀ s : State} {who : Who} {a v mask : Nat} (h : Only ps s₀ s)
    (hp : Parts [.regs, .units, .env, .mail, .ev, .trace] ps) : Only ps s₀ (State.writeGpi s who a v mask) := by
  unfold State.writeGpi
  repeat' with_reducible first
    | exact h | exact Parts.trans (by decide) hp | intro _ | assumption | apply Only.ite | apply State.gpioClear_only
    | apply State.withPads_only | apply State.gpioToggle_only | apply State.actWrite_only | apply State.gpioSet_only
    | apply State.writeFields_only | split | dsimp only

theorem State.writeSrm_only {ps : List Part} {s₀ s : State} {who : Who} {a v mask : Nat} (h : Only ps s₀ s)
    (hp : Parts [.regs, .units, .env, .mail, .ev, .trace] ps) : Only ps s₀ (State.writeSrm s who a v mask) := by
  unfold State.writeSrm
  repeat' with_reducible first
    | exact h | exact Parts.trans (by decide) hp | intro _ | assumption | apply Only.ite | apply State.plainWrite_only
    | apply State.guarded_only | apply State.wr_only | apply State.writeFields_only | split | dsimp only

theorem State.writeDal_only {ps : List Part} {s₀ s : State} {who : Who} {a v mask w : Nat} (h : Only ps s₀ s)
    (hp : Parts [.regs, .units, .env, .mail, .ev, .per, .trace, .free] ps) : Only ps s₀ (State.writeDal s who a v mask w) := by
  unfold State.writeDal
  repeat' with_reducible first
    | exact h | exact Parts.trans (by decide) hp | intro _ | assumption | apply Only.ite | apply State.plainWrite_only
    | apply State.daliEnqueue_only | apply State.daliSupply_only | apply State.actWrite_only
    | apply State.writeFields_only | split | dsimp only

theorem State.writeCpu_only {ps : List Part} {s₀ s : State} {who : Who} {a v mask : Nat} (h : Only ps s₀ s)
    (hp : Parts [.regs, .units, .env, .mail, .ev, .trace] ps) : Only ps s₀ (State.writeCpu s who a v mask) := by
  unfold State.writeCpu
  repeat' with_reducible first
    | exact h | exact Parts.trans (by decide) hp | intro _ | assumption | apply Only.ite | apply State.plainWrite_only
    | apply State.heartbeat_only | split | dsimp only

theorem State.writeMbx_only {ps : List Part} {s₀ s : State} {who : Who} {a v mask w : Nat} (h : Only ps s₀ s)
    (hp : Parts [.regs, .units, .env, .mail, .ev, .coh, .trace] ps) : Only ps s₀ (State.writeMbx s who a v mask w) := by
  unfold State.writeMbx
  repeat' with_reducible first
    | exact h | exact Parts.trans (by decide) hp | intro _ | assumption | apply Only.ite | apply State.plainWrite_only
    | apply State.guarded_only | apply State.mbxSend_only | apply State.writeFields_only | split | dsimp only

theorem State.writeCip_only {ps : List Part} {s₀ s : State} {who : Who} {a v mask w : Nat} (h : Only ps s₀ s)
    (hp : Parts [.regs, .units, .env, .mail, .ev, .cip, .trace] ps) : Only ps s₀ (State.writeCip s who a v mask w) := by
  unfold State.writeCip
  repeat' with_reducible first
    | exact h | exact Parts.trans (by decide) hp | intro _ | assumption | apply Only.ite | apply State.plainWrite_only
    | apply State.keyCommand_only | apply State.setWord_only | apply State.writeFields_only | apply State.guarded_only
    | split | dsimp only

theorem State.writeBkp_only {ps : List Part} {s₀ s : State} {who : Who} {a w : Nat} (h : Only ps s₀ s)
    (hp : Parts [.regs, .units, .env, .mail, .ev, .bkp, .trace, .free] ps) : Only ps s₀ (State.writeBkp s who a w) := by
  unfold State.writeBkp
  repeat' with_reducible first
    | exact h | exact Parts.trans (by decide) hp | intro _ | assumption | apply Only.ite | apply Only.id_
    | apply State.forceCold_only | apply State.actWrite_only | apply State.calendarAdjust_only
    | apply State.bkpWrite_only | apply State.alarmCtl_only | apply State.calendarSet_only | split | dsimp only

theorem State.writeRng_only {ps : List Part} {s₀ s : State} {who : Who} {a v mask w : Nat} (h : Only ps s₀ s)
    (hp : Parts [.regs, .units, .env, .gen, .ring, .mail, .ev, .cap, .tx, .upd, .trace] ps) : Only ps s₀ (State.writeRng s who a v mask w) := by
  unfold State.writeRng
  repeat' with_reducible first
    | exact h | exact Parts.trans (by decide) hp | intro _ | assumption | apply Only.ite | apply State.plainWrite_only
    | apply State.guarded_only | apply State.writeCqCons_only | apply State.serverResult_only
    | apply State.doorbell_only | apply State.writeFields_only | apply State.ringCfg_only
    | apply State.writeRingBase_only | apply State.serverReturn_only | split | dsimp only

theorem State.writeTable_only {ps : List Part} {s₀ s : State} {f : Bank → Bank} (h : Only ps s₀ s)
    (hp : Parts [.tab] ps) : Only ps s₀ (State.writeTable s f) := by
  unfold State.writeTable
  repeat' with_reducible first
    | exact h | exact Parts.trans (by decide) hp | intro _ | assumption | rw [lit_tab] | apply Only.ite
    | refine State.with_tab_only ?_ ?_ | split | dsimp only

theorem State.writeSyn_only {ps : List Part} {s₀ s : State} {who : Who} {a v mask : Nat} (h : Only ps s₀ s)
    (hp : Parts [.regs, .units, .env, .mail, .ev, .tab, .tx, .trace] ps) : Only ps s₀ (State.writeSyn s who a v mask) := by
  unfold State.writeSyn
  repeat' with_reducible first
    | exact h | exact Parts.trans (by decide) hp | intro _ | assumption | apply Only.ite | apply State.plainWrite_only
    | apply State.calClear_only | apply State.writeTable_only | apply State.synRequest_only
    | apply State.actWrite_only | split | dsimp only

theorem State.writeSerial_only {ps : List Part} {s₀ s : State} {who : Who} {kind a v mask w : Nat} (h : Only ps s₀ s)
    (hp : Parts [.regs, .units, .env, .mail, .ev, .per, .trace] ps) : Only ps s₀ (State.writeSerial s who kind a v mask w) := by
  unfold State.writeSerial
  repeat' with_reducible first
    | exact h | exact Parts.trans (by decide) hp | intro _ | assumption | apply Only.ite | apply State.plainWrite_only
    | apply State.uartWrite_only | apply State.fifoWrite_only | apply State.iicGo_only | apply State.actWrite_only
    | apply State.spiGo_only | apply State.writeFields_only | apply State.uartDrain_only | split | dsimp only

theorem State.regWrite_only {ps : List Part} {s₀ s : State} {who : Who} {a v mask : Nat} (h : Only ps s₀ s)
    (hp : Parts [.regs, .units, .env, .gen, .ring, .mail, .ev, .per, .cip, .ctx, .tag, .tmp, .tab, .cap, .tx, .ttb, .rx, .coh, .upd, .doms, .bkp, .cores, .mem, .bus, .phase, .trace, .ledger, .free] ps) : Only ps s₀ (State.regWrite s who a v mask) := by
  unfold State.regWrite
  repeat' with_reducible first
    | exact h | exact Parts.trans (by decide) hp | intro _ | assumption | apply Only.ite
    | apply State.trackSelect_only | apply State.trainRequest_only | apply State.writeTmr_only
    | apply State.writeEvr_only | apply State.writeSbBase_only | apply State.writeHeader_only
    | apply State.writeTmp_only | apply State.rejoin_only | apply State.plainWrite_only | apply State.domWrite_only
    | apply State.writeCap_only | apply State.norWrite_only | apply State.writeGpi_only | apply State.writeSrm_only
    | apply State.writeDal_only | apply State.writeCpu_only | apply State.actWrite_only | apply State.writeMbx_only
    | apply State.writeCip_only | apply State.writeBkp_only | apply State.msnCtl_only | apply State.writeRng_only
    | apply State.writeSyn_only | apply State.writeSerial_only | apply State.dimWrite_only
    | apply State.counterClear_only | split | dsimp only

end Sys2Proof.Machine
end

