-- ==== Sys2Proof/Laws/OnlyCoreMem.lean ====
section
/-!
SUPPORT. What each operation of Machine/CoreMem.lean leaves alone.
-/

namespace Sys2Proof.Machine

theorem State.flowTrace_only {ps : List Part} {s₀ s : State} {c : CoreId} {kind : Nat} {payload : List Byte} (h : Only ps s₀ s)
    (hp : Parts [.regs, .trace] ps) : Only ps s₀ (State.flowTrace s c kind payload) := by
  unfold State.flowTrace
  repeat' with_reducible first
    | exact h | exact Parts.trans (by decide) hp | intro _ | assumption | apply Only.ite
    | apply State.tracePacket_only | split | dsimp only

theorem State.branchBit_only {ps : List Part} {s₀ s : State} {c : CoreId} {p : Nat} {b : Bool} (h : Only ps s₀ s)
    (hp : Parts [.regs, .trace] ps) : Only ps s₀ (State.branchBit s c p b) := by
  unfold State.branchBit
  repeat' with_reducible first
    | exact h | exact Parts.trans (by decide) hp | intro _ | assumption | apply Only.ite | apply State.flowTrace_only
    | split | dsimp only

theorem State.fetchServed_only {ps : List Part} {s₀ s : State} {p a : Nat} (h : Only ps s₀ s)
    (hp : Parts [.regs, .cores, .mem, .free] ps) : Only ps s₀ (State.fetchServed s p a) := by
  unfold State.fetchServed
  repeat' first
    | (with_reducible first
        | exact h | exact Parts.trans (by decide) hp | exact fun _ hk => CoreState.setReg_wf hk
        | exact fun _ hk => CoreState.setReg_wf (CoreState.setReg_wf hk) | exact fun _ hk => CoreState.setPred_wf hk)
    | exact fun _ hk => hk
    | (with_reducible first
        | intro _ | assumption | apply Only.ite | apply State.onCore_only | apply State.dramTouch_only
        | apply State.free_only | apply State.norRead_only | refine Only.fst (by assumption) ?_
        | refine Only.snd (by assumption) ?_ | split | dsimp only)

theorem State.fetched_only {ps : List Part} {s₀ s : State} {p len : Nat} (h : Only ps s₀ s)
    (hp : Parts [.regs, .cores, .mem, .free] ps) : Only ps s₀ (State.fetched s p len) := by
  unfold State.fetched
  repeat' with_reducible first
    | exact h | exact Parts.trans (by decide) hp | intro _ | assumption | apply Only.ite
    | apply State.fetchServed_only | split | dsimp only

theorem State.enterTrap_only {ps : List Part} {s₀ s : State} {c : CoreId} {p : Nat} {epc : Word} {t : Trap} (h : Only ps s₀ s)
    (hp : Parts [.regs, .cores, .trace] ps) : Only ps s₀ (State.enterTrap s c p epc t) := by
  unfold State.enterTrap
  repeat' first
    | (with_reducible first
        | exact h | exact Parts.trans (by decide) hp | exact fun _ hk => CoreState.setReg_wf hk
        | exact fun _ hk => CoreState.setReg_wf (CoreState.setReg_wf hk) | exact fun _ hk => CoreState.setPred_wf hk)
    | exact fun _ hk => hk
    | (with_reducible first
        | intro _ | assumption | apply Only.ite | apply State.onCore_only | apply State.flowTrace_only | split
        | dsimp only)

theorem State.doubleFault_only {ps : List Part} {s₀ s : State} {c : CoreId} {p : Nat} (h : Only ps s₀ s)
    (hp : Parts [.regs, .units, .env, .gen, .ring, .mail, .ev, .per, .cip, .ctx, .tag, .tmp, .tab, .cap, .tx, .ttb, .rx, .coh, .upd, .boot, .doms, .bkp, .cores, .mem, .bus, .pins, .phase, .trace, .ledger, .free] ps) : Only ps s₀ (State.doubleFault s c p) := by
  unfold State.doubleFault
  repeat' first
    | (with_reducible first
        | exact h | exact Parts.trans (by decide) hp | exact fun _ hk => CoreState.setReg_wf hk
        | exact fun _ hk => CoreState.setReg_wf (CoreState.setReg_wf hk) | exact fun _ hk => CoreState.setPred_wf hk)
    | exact fun _ hk => hk
    | (with_reducible first
        | intro _ | assumption | apply Only.ite | apply State.bump_only | apply State.lapseUnit_only
        | apply State.onCore_only | apply State.warmRestart_only | apply State.wr_only | split | dsimp only)

theorem State.trap_only {ps : List Part} {s₀ s : State} {c : CoreId} {p : Nat} {epc : Word} {t : Trap} (h : Only ps s₀ s)
    (hp : Parts [.regs, .units, .env, .gen, .ring, .mail, .ev, .per, .cip, .ctx, .tag, .tmp, .tab, .cap, .tx, .ttb, .rx, .coh, .upd, .boot, .doms, .bkp, .cores, .mem, .bus, .pins, .phase, .trace, .ledger, .free] ps) : Only ps s₀ (State.trap s c p epc t) := by
  unfold State.trap
  repeat' with_reducible first
    | exact h | exact Parts.trans (by decide) hp | intro _ | assumption | apply Only.ite | apply State.enterTrap_only
    | apply State.doubleFault_only | split | dsimp only

theorem State.fault_only {ps : List Part} {s₀ s : State} {c : CoreId} {p : Nat} {t : Trap} (h : Only ps s₀ s)
    (hp : Parts [.regs, .units, .env, .gen, .ring, .mail, .ev, .per, .cip, .ctx, .tag, .tmp, .tab, .cap, .tx, .ttb, .rx, .coh, .upd, .boot, .doms, .bkp, .cores, .mem, .bus, .pins, .phase, .trace, .ledger, .free] ps) : Only ps s₀ (State.fault s c p t) := by
  unfold State.fault
  repeat' with_reducible first
    | exact h | exact Parts.trans (by decide) hp | intro _ | assumption | apply State.trap_only | split | dsimp only

theorem State.attempt_only {ps : List Part} {s₀ s : State} {c : CoreId} {len : Nat} {f : Nat → State → State} (h : Only ps s₀ s)
    (hp : Parts [.regs, .units, .env, .gen, .ring, .mail, .ev, .per, .cip, .ctx, .tag, .tmp, .tab, .cap, .tx, .ttb, .rx, .coh, .upd, .boot, .doms, .bkp, .cores, .mem, .bus, .pins, .phase, .trace, .ledger, .free] ps) (hf : ∀ x0 t, Only ps s₀ t → Only ps s₀ (f x0 t)) : Only ps s₀ (State.attempt s c len f) := by
  unfold State.attempt
  repeat' with_reducible first
    | exact h | exact Parts.trans (by decide) hp | intro _ | assumption | apply Only.ite | apply hf
    | apply State.fetched_only | apply State.fault_only | split | dsimp only

theorem State.coreRetire_only {ps : List Part} {s₀ s : State} {c : CoreId} {p len : Nat} (h : Only ps s₀ s)
    (hp : Parts [.cores, .trace] ps) : Only ps s₀ (State.coreRetire s c p len) := by
  unfold State.coreRetire
  repeat' first
    | (with_reducible first
        | exact h | exact Parts.trans (by decide) hp | exact fun _ hk => CoreState.setReg_wf hk
        | exact fun _ hk => CoreState.setReg_wf (CoreState.setReg_wf hk) | exact fun _ hk => CoreState.setPred_wf hk)
    | exact fun _ hk => hk
    | (with_reducible first
        | intro _ | assumption | apply Only.ite | apply State.onCore_only | apply State.count_only | split
        | dsimp only)

theorem State.run32_only {ps : List Part} {s₀ s : State} {c : CoreId} {g : Guard} {ok : Bool} {f : Nat → State → State} (h : Only ps s₀ s)
    (hp : Parts [.regs, .units, .env, .gen, .ring, .mail, .ev, .per, .cip, .ctx, .tag, .tmp, .tab, .cap, .tx, .ttb, .rx, .coh, .upd, .boot, .doms, .bkp, .cores, .mem, .bus, .pins, .phase, .trace, .ledger, .free] ps) (hf : ∀ x0 t, Only ps s₀ t → Only ps s₀ (f x0 t)) : Only ps s₀ (State.run32 s c g ok f) := by
  unfold State.run32
  repeat' with_reducible first
    | exact h | exact Parts.trans (by decide) hp | intro _ | assumption | apply Only.ite | apply hf
    | apply State.branchBit_only | apply State.attempt_only | apply State.fault_only | apply State.coreRetire_only
    | split | dsimp only

theorem State.toReg_only {ps : List Part} {s₀ s : State} {c : CoreId} {p len : Nat} {rd : RegNum} {v : Word} (h : Only ps s₀ s)
    (hp : Parts [.cores, .trace] ps) : Only ps s₀ (State.toReg s c p len rd v) := by
  unfold State.toReg
  repeat' first
    | (with_reducible first
        | exact h | exact Parts.trans (by decide) hp | exact fun _ hk => CoreState.setReg_wf hk
        | exact fun _ hk => CoreState.setReg_wf (CoreState.setReg_wf hk) | exact fun _ hk => CoreState.setPred_wf hk)
    | exact fun _ hk => hk
    | (with_reducible first
        | intro _ | assumption | apply State.onCore_only | apply State.coreRetire_only | split | dsimp only)

theorem State.run16_only {ps : List Part} {s₀ s : State} {c : CoreId} {f : Nat → State → State} (h : Only ps s₀ s)
    (hp : Parts [.regs, .units, .env, .gen, .ring, .mail, .ev, .per, .cip, .ctx, .tag, .tmp, .tab, .cap, .tx, .ttb, .rx, .coh, .upd, .boot, .doms, .bkp, .cores, .mem, .bus, .pins, .phase, .trace, .ledger, .free] ps) (hf : ∀ x0 t, Only ps s₀ t → Only ps s₀ (f x0 t)) : Only ps s₀ (State.run16 s c f) := by
  unfold State.run16
  repeat' with_reducible first
    | exact h | exact Parts.trans (by decide) hp | intro _ | assumption | apply hf | apply State.attempt_only | split
    | dsimp only

theorem State.ramCheck_only {ps : List Part} {s₀ s : State} {a : Nat} {ecc : Ecc} (h : Only ps s₀ s)
    (hp : Parts [.regs, .units, .env, .mail, .ev, .mem, .trace, .ledger, .free] ps) : Only ps s₀ (State.ramCheck s a ecc).1 := by
  unfold State.ramCheck
  repeat' with_reducible first
    | exact h | exact Parts.trans (by decide) hp | intro _ | assumption | apply Only.ite | apply State.dramTouch_only
    | apply State.sramRead_only | apply State.dramRead_only | refine Only.fst (by assumption) ?_
    | refine Only.snd (by assumption) ?_ | split | dsimp only

theorem State.ramStore_only {ps : List Part} {s₀ s : State} {a : Nat} {bs : List Byte} {ecc : Ecc} (h : Only ps s₀ s)
    (hp : Parts [.regs, .units, .env, .mail, .ev, .bkp, .mem, .trace, .ledger, .free] ps) : Only ps s₀ (State.ramStore s a bs ecc).1 := by
  unfold State.ramStore
  repeat' with_reducible first
    | exact h | exact Parts.trans (by decide) hp | intro _ | assumption | apply Only.ite | apply State.putBytes_only
    | apply State.ramCheck_only | apply State.dramTouch_only | apply State.healRange_only
    | refine Only.fst (by assumption) ?_ | refine Only.snd (by assumption) ?_ | split | dsimp only

theorem State.writeBack_only {ps : List Part} {s₀ s : State} {p : Nat} {l : CacheLine} (h : Only ps s₀ s)
    (hp : Parts [.regs, .units, .env, .mail, .ev, .bkp, .cores, .mem, .trace, .ledger, .free] ps) : Only ps s₀ (State.writeBack s p l) := by
  unfold State.writeBack
  repeat' first
    | (with_reducible first
        | exact h | exact Parts.trans (by decide) hp | exact fun _ hk => CoreState.setReg_wf hk
        | exact fun _ hk => CoreState.setReg_wf (CoreState.setReg_wf hk) | exact fun _ hk => CoreState.setPred_wf hk)
    | exact fun _ hk => hk
    | (with_reducible first
        | intro _ | assumption | apply Only.ite | apply State.onCore_only | apply State.ramStore_only
        | refine Only.fst (by assumption) ?_ | refine Only.snd (by assumption) ?_ | split | dsimp only)

theorem State.atomic_only {ps : List Part} {s₀ s : State} {c : CoreId} {p : Nat} {rd ra : RegNum} {f : Word → Word → Option Word} {ecc : Ecc} (h : Only ps s₀ s)
    (hp : Parts [.regs, .units, .env, .gen, .ring, .mail, .ev, .per, .cip, .ctx, .tag, .tmp, .tab, .cap, .tx, .ttb, .rx, .coh, .upd, .boot, .doms, .bkp, .cores, .mem, .bus, .pins, .phase, .trace, .ledger, .free] ps) : Only ps s₀ (State.atomic s c p rd ra f ecc) := by
  unfold State.atomic
  repeat' first
    | (with_reducible first
        | exact h | exact Parts.trans (by decide) hp | exact fun _ hk => CoreState.setReg_wf hk
        | exact fun _ hk => CoreState.setReg_wf (CoreState.setReg_wf hk) | exact fun _ hk => CoreState.setPred_wf hk)
    | exact fun _ hk => hk
    | (with_reducible first
        | intro _ | assumption | apply Only.ite | apply State.writeBack_only | apply State.toReg_only
        | apply State.onCore_only | apply State.ramStore_only | apply State.free_only | apply State.fault_only
        | apply State.ramCheck_only | refine Only.fst (by assumption) ?_ | refine Only.snd (by assumption) ?_ | split
        | dsimp only)

theorem State.jump_only {ps : List Part} {s₀ s : State} {c : CoreId} {p : Nat} {target : Word} (h : Only ps s₀ s)
    (hp : Parts [.regs, .units, .env, .gen, .ring, .mail, .ev, .per, .cip, .ctx, .tag, .tmp, .tab, .cap, .tx, .ttb, .rx, .coh, .upd, .boot, .doms, .bkp, .cores, .mem, .bus, .pins, .phase, .trace, .ledger, .free] ps) : Only ps s₀ (State.jump s c p target) := by
  unfold State.jump
  repeat' first
    | (with_reducible first
        | exact h | exact Parts.trans (by decide) hp | exact fun _ hk => CoreState.setReg_wf hk
        | exact fun _ hk => CoreState.setReg_wf (CoreState.setReg_wf hk) | exact fun _ hk => CoreState.setPred_wf hk)
    | exact fun _ hk => hk
    | (with_reducible first
        | intro _ | assumption | apply Only.ite | apply State.onCore_only | apply State.count_only
        | apply State.trap_only | split | dsimp only)

theorem State.makeRoom_only {ps : List Part} {s₀ s : State} {p la : Nat} (h : Only ps s₀ s)
    (hp : Parts [.regs, .units, .env, .mail, .ev, .bkp, .cores, .mem, .trace, .ledger, .free] ps) : Only ps s₀ (State.makeRoom s p la) := by
  unfold State.makeRoom
  repeat' first
    | (with_reducible first
        | exact h | exact Parts.trans (by decide) hp | exact fun _ hk => CoreState.setReg_wf hk
        | exact fun _ hk => CoreState.setReg_wf (CoreState.setReg_wf hk) | exact fun _ hk => CoreState.setPred_wf hk)
    | exact fun _ hk => hk
    | (with_reducible first
        | intro _ | assumption | apply Only.ite | apply State.onCore_only | apply State.free_only
        | apply State.writeBack_only | refine Only.fst (by assumption) ?_ | refine Only.snd (by assumption) ?_ | split
        | dsimp only)

theorem State.fillLine_only {ps : List Part} {s₀ s : State} {p la a : Nat} (h : Only ps s₀ s)
    (hp : Parts [.regs, .units, .env, .mail, .ev, .bkp, .cores, .mem, .trace, .ledger, .free] ps) : Only ps s₀ (State.fillLine s p la a) := by
  unfold State.fillLine
  repeat' first
    | (with_reducible first
        | exact h | exact Parts.trans (by decide) hp | exact fun _ hk => CoreState.setReg_wf hk
        | exact fun _ hk => CoreState.setReg_wf (CoreState.setReg_wf hk) | exact fun _ hk => CoreState.setPred_wf hk)
    | exact fun _ hk => hk
    | (with_reducible first
        | intro _ | assumption | apply State.onCore_only | apply State.makeRoom_only | split | dsimp only)

theorem State.loadPlace_only {ps : List Part} {s₀ s : State} {c : CoreId} {p a n : Nat} {ecc : Ecc} (h : Only ps s₀ s)
    (hp : Parts [.regs, .units, .env, .mail, .ev, .per, .bkp, .cores, .mem, .trace, .ledger, .free] ps) : Only ps s₀ (State.loadPlace s c p a n ecc).1 := by
  unfold State.loadPlace
  repeat' with_reducible first
    | exact h | exact Parts.trans (by decide) hp | intro _ | assumption | apply Only.ite | apply State.norRead_only
    | apply State.ramCheck_only | apply State.regRead_only | apply State.fillLine_only
    | refine Only.fst (by assumption) ?_ | refine Only.snd (by assumption) ?_ | split | dsimp only

theorem State.loadValue_only {ps : List Part} {s₀ s : State} {c : CoreId} {p a n : Nat} {ecc : Ecc} (h : Only ps s₀ s)
    (hp : Parts [.regs, .units, .env, .mail, .ev, .per, .bkp, .cores, .mem, .trace, .ledger, .free] ps) : Only ps s₀ (State.loadValue s c p a n ecc).1 := by
  unfold State.loadValue
  repeat' first
    | (with_reducible first
        | exact h | exact Parts.trans (by decide) hp | exact fun _ hk => CoreState.setReg_wf hk
        | exact fun _ hk => CoreState.setReg_wf (CoreState.setReg_wf hk) | exact fun _ hk => CoreState.setPred_wf hk)
    | exact fun _ hk => hk
    | (with_reducible first
        | intro _ | assumption | apply Only.ite | apply State.bump_only | apply State.onCore_only
        | apply State.loadPlace_only | refine Only.fst (by assumption) ?_ | refine Only.snd (by assumption) ?_ | split
        | dsimp only)

theorem State.load_only {ps : List Part} {s₀ s : State} {c : CoreId} {p len : Nat} {a : Word} {n : Nat} {sx : Bool} {rd : RegNum} {base : Option (Prod RegNum Word)} {ecc : Ecc} (h : Only ps s₀ s)
    (hp : Parts [.regs, .units, .env, .gen, .ring, .mail, .ev, .per, .cip, .ctx, .tag, .tmp, .tab, .cap, .tx, .ttb, .rx, .coh, .upd, .boot, .doms, .bkp, .cores, .mem, .bus, .pins, .phase, .trace, .ledger, .free] ps) : Only ps s₀ (State.load s c p len a n sx rd base ecc) := by
  unfold State.load
  repeat' first
    | (with_reducible first
        | exact h | exact Parts.trans (by decide) hp | exact fun _ hk => CoreState.setReg_wf hk
        | exact fun _ hk => CoreState.setReg_wf (CoreState.setReg_wf hk) | exact fun _ hk => CoreState.setPred_wf hk)
    | exact fun _ hk => hk
    | (with_reducible first
        | intro _ | assumption | apply Only.ite | apply State.issue_only | apply State.toReg_only
        | apply State.onCore_only | apply State.loadValue_only | apply State.fault_only
        | refine Only.fst (by assumption) ?_ | refine Only.snd (by assumption) ?_ | split | dsimp only)

theorem State.storeValue_only {ps : List Part} {s₀ s : State} {c : CoreId} {p a n v : Nat} {ecc : Ecc} (h : Only ps s₀ s)
    (hp : Parts [.regs, .units, .env, .gen, .ring, .mail, .ev, .per, .cip, .ctx, .tag, .tmp, .tab, .cap, .tx, .ttb, .rx, .coh, .upd, .doms, .bkp, .cores, .mem, .bus, .phase, .trace, .ledger, .free] ps) : Only ps s₀ (State.storeValue s c p a n v ecc) := by
  unfold State.storeValue
  repeat' first
    | (with_reducible first
        | exact h | exact Parts.trans (by decide) hp | exact fun _ hk => CoreState.setReg_wf hk
        | exact fun _ hk => CoreState.setReg_wf (CoreState.setReg_wf hk) | exact fun _ hk => CoreState.setPred_wf hk)
    | exact fun _ hk => hk
    | (with_reducible first
        | intro _ | assumption | apply Only.ite | apply State.fillLine_only | apply State.issue_only
        | apply State.onCore_only | apply State.regWrite_only | apply State.ramStore_only | apply State.putBytes_only
        | refine Only.fst (by assumption) ?_ | refine Only.snd (by assumption) ?_ | split | dsimp only)

theorem State.store_only {ps : List Part} {s₀ s : State} {c : CoreId} {p len : Nat} {a : Word} {n : Nat} {v : Word} {base : Option (Prod RegNum Word)} {ecc : Ecc} (h : Only ps s₀ s)
    (hp : Parts [.regs, .units, .env, .gen, .ring, .mail, .ev, .per, .cip, .ctx, .tag, .tmp, .tab, .cap, .tx, .ttb, .rx, .coh, .upd, .boot, .doms, .bkp, .cores, .mem, .bus, .pins, .phase, .trace, .ledger, .free] ps) : Only ps s₀ (State.store s c p len a n v base ecc) := by
  unfold State.store
  repeat' first
    | (with_reducible first
        | exact h | exact Parts.trans (by decide) hp | exact fun _ hk => CoreState.setReg_wf hk
        | exact fun _ hk => CoreState.setReg_wf (CoreState.setReg_wf hk) | exact fun _ hk => CoreState.setPred_wf hk)
    | exact fun _ hk => hk
    | (with_reducible first
        | intro _ | assumption | apply State.storeValue_only | apply State.onCore_only | apply State.fault_only
        | apply State.coreRetire_only | split | dsimp only)

end Sys2Proof.Machine
end

