-- ==== Sys2Proof/Laws/OnlyAlu.lean ====
section
/-!
SUPPORT. What each operation of Machine/Alu.lean leaves alone.
-/

namespace Sys2Proof.Machine

theorem State.alu_only {ps : List Part} {s₀ s : State} {c : CoreId} {g : Guard} {rd ra rb : RegNum} {f : Word → Word → Word} (h : Only ps s₀ s)
    (hp : Parts [.regs, .units, .env, .gen, .ring, .mail, .ev, .per, .cip, .ctx, .tag, .tmp, .tab, .cap, .tx, .ttb, .rx, .coh, .upd, .boot, .doms, .bkp, .cores, .mem, .bus, .pins, .phase, .trace, .ledger, .free] ps) : Only ps s₀ (State.alu s c g rd ra rb f) := by
  unfold State.alu
  repeat' with_reducible first
    | exact h | exact Parts.trans (by decide) hp | intro _ | assumption | apply State.toReg_only
    | apply State.run32_only | split | dsimp only

theorem State.alu16_only {ps : List Part} {s₀ s : State} {c : CoreId} {rd ra : RegNum} {f : Word → Word → Word} (h : Only ps s₀ s)
    (hp : Parts [.regs, .units, .env, .gen, .ring, .mail, .ev, .per, .cip, .ctx, .tag, .tmp, .tab, .cap, .tx, .ttb, .rx, .coh, .upd, .boot, .doms, .bkp, .cores, .mem, .bus, .pins, .phase, .trace, .ledger, .free] ps) : Only ps s₀ (State.alu16 s c rd ra f) := by
  unfold State.alu16
  repeat' with_reducible first
    | exact h | exact Parts.trans (by decide) hp | intro _ | assumption | apply State.toReg_only
    | apply State.run16_only | split | dsimp only

theorem State.aluImm_only {ps : List Part} {s₀ s : State} {c : CoreId} {g : Guard} {ok : Bool} {rd ra : RegNum} {f : Word → Word} (h : Only ps s₀ s)
    (hp : Parts [.regs, .units, .env, .gen, .ring, .mail, .ev, .per, .cip, .ctx, .tag, .tmp, .tab, .cap, .tx, .ttb, .rx, .coh, .upd, .boot, .doms, .bkp, .cores, .mem, .bus, .pins, .phase, .trace, .ledger, .free] ps) : Only ps s₀ (State.aluImm s c g ok rd ra f) := by
  unfold State.aluImm
  repeat' with_reducible first
    | exact h | exact Parts.trans (by decide) hp | intro _ | assumption | apply State.toReg_only
    | apply State.run32_only | split | dsimp only

theorem State.aluImm16_only {ps : List Part} {s₀ s : State} {c : CoreId} {rd : RegNum} {f : Word → Word} (h : Only ps s₀ s)
    (hp : Parts [.regs, .units, .env, .gen, .ring, .mail, .ev, .per, .cip, .ctx, .tag, .tmp, .tab, .cap, .tx, .ttb, .rx, .coh, .upd, .boot, .doms, .bkp, .cores, .mem, .bus, .pins, .phase, .trace, .ledger, .free] ps) : Only ps s₀ (State.aluImm16 s c rd f) := by
  unfold State.aluImm16
  repeat' with_reducible first
    | exact h | exact Parts.trans (by decide) hp | intro _ | assumption | apply State.toReg_only
    | apply State.run16_only | split | dsimp only

theorem State.compare_only {ps : List Part} {s₀ s : State} {c : CoreId} {g : Guard} {pt pf : PredNum} {cond : BitVec 4} {x y : CoreState → Word} (h : Only ps s₀ s)
    (hp : Parts [.regs, .units, .env, .gen, .ring, .mail, .ev, .per, .cip, .ctx, .tag, .tmp, .tab, .cap, .tx, .ttb, .rx, .coh, .upd, .boot, .doms, .bkp, .cores, .mem, .bus, .pins, .phase, .trace, .ledger, .free] ps) : Only ps s₀ (State.compare s c g pt pf cond x y) := by
  unfold State.compare
  refine State.run32_only h (Parts.trans (by decide) hp) fun p t ht => ?_
  refine State.coreRetire_only (State.onCore_only ht (Parts.trans (by decide) hp) fun k hk => ?_) (Parts.trans (by decide) hp)
  split
  · exact CoreState.setPred_wf hk
  · exact CoreState.setPred_wf (CoreState.setPred_wf hk)

theorem State.plogic_only {ps : List Part} {s₀ s : State} {c : CoreId} {g : Guard} {pd pa pb : PredNum} {f : Bool → Bool → Bool} (h : Only ps s₀ s)
    (hp : Parts [.regs, .units, .env, .gen, .ring, .mail, .ev, .per, .cip, .ctx, .tag, .tmp, .tab, .cap, .tx, .ttb, .rx, .coh, .upd, .boot, .doms, .bkp, .cores, .mem, .bus, .pins, .phase, .trace, .ledger, .free] ps) : Only ps s₀ (State.plogic s c g pd pa pb f) := by
  unfold State.plogic
  repeat' first
    | (with_reducible first
        | exact h | exact Parts.trans (by decide) hp | exact fun _ hk => CoreState.setReg_wf hk
        | exact fun _ hk => CoreState.setReg_wf (CoreState.setReg_wf hk) | exact fun _ hk => CoreState.setPred_wf hk)
    | exact fun _ hk => hk
    | (with_reducible first
        | intro _ | assumption | apply State.run32_only | apply State.onCore_only | apply State.coreRetire_only
        | split | dsimp only)

end Sys2Proof.Machine
end

