-- ==== Sys2Proof/Laws/OnlyAccess.lean ====
section
/-!
SUPPORT. What each operation of Machine/Access.lean leaves alone.
-/

namespace Sys2Proof.Machine

theorem State.indexed_only {ps : List Part} {s₀ s : State} {c : CoreId} {g : Guard} {ra : RegNum} {am : AddrMode} {sz : SizeCode} {f : Nat → Word → Option (Prod RegNum Word) → State → State} (h : Only ps s₀ s)
    (hp : Parts [.regs, .units, .env, .gen, .ring, .mail, .ev, .per, .cip, .ctx, .tag, .tmp, .tab, .cap, .tx, .ttb, .rx, .coh, .upd, .boot, .doms, .bkp, .cores, .mem, .bus, .pins, .phase, .trace, .ledger, .free] ps) (hf : ∀ x0 x1 x2 t, Only ps s₀ t → Only ps s₀ (f x0 x1 x2 t)) : Only ps s₀ (State.indexed s c g ra am sz f) := by
  unfold State.indexed
  repeat' with_reducible first
    | exact h | exact Parts.trans (by decide) hp | intro _ | assumption | apply hf | apply State.run32_only
    | apply State.fault_only | refine Only.fst (by assumption) ?_ | refine Only.snd (by assumption) ?_ | split
    | dsimp only

theorem State.loadImm_only {ps : List Part} {s₀ s : State} {c : CoreId} {g : Guard} {rd ra : RegNum} {imm : BitVec 11} {n : Nat} {sx : Bool} {ecc : Ecc} (h : Only ps s₀ s)
    (hp : Parts [.regs, .units, .env, .gen, .ring, .mail, .ev, .per, .cip, .ctx, .tag, .tmp, .tab, .cap, .tx, .ttb, .rx, .coh, .upd, .boot, .doms, .bkp, .cores, .mem, .bus, .pins, .phase, .trace, .ledger, .free] ps) : Only ps s₀ (State.loadImm s c g rd ra imm n sx ecc) := by
  unfold State.loadImm
  repeat' with_reducible first
    | exact h | exact Parts.trans (by decide) hp | intro _ | assumption | apply State.run32_only
    | apply State.load_only | split | dsimp only

theorem State.storeImm_only {ps : List Part} {s₀ s : State} {c : CoreId} {g : Guard} {rs ra : RegNum} {imm : BitVec 11} {n : Nat} {ecc : Ecc} (h : Only ps s₀ s)
    (hp : Parts [.regs, .units, .env, .gen, .ring, .mail, .ev, .per, .cip, .ctx, .tag, .tmp, .tab, .cap, .tx, .ttb, .rx, .coh, .upd, .boot, .doms, .bkp, .cores, .mem, .bus, .pins, .phase, .trace, .ledger, .free] ps) : Only ps s₀ (State.storeImm s c g rs ra imm n ecc) := by
  unfold State.storeImm
  repeat' with_reducible first
    | exact h | exact Parts.trans (by decide) hp | intro _ | assumption | apply State.store_only
    | apply State.run32_only | split | dsimp only

end Sys2Proof.Machine
end

