-- ==== Sys2Proof/Laws/OnlyDsp.lean ====
section
/-!
SUPPORT. What each operation of Machine/Dsp.lean leaves alone.
-/

namespace Sys2Proof.Machine

theorem State.accumulate_only {ps : List Part} {s₀ s : State} {c : CoreId} {g : Guard} {rd ra rb : RegNum} {conj : Bool} (h : Only ps s₀ s)
    (hp : Parts [.regs, .units, .env, .gen, .ring, .mail, .ev, .per, .cip, .ctx, .tag, .tmp, .tab, .cap, .tx, .ttb, .rx, .coh, .upd, .boot, .doms, .bkp, .cores, .mem, .bus, .pins, .phase, .trace, .ledger, .free] ps) : Only ps s₀ (State.accumulate s c g rd ra rb conj) := by
  unfold State.accumulate
  repeat' first
    | (with_reducible first
        | exact h | exact Parts.trans (by decide) hp | exact fun _ hk => CoreState.setReg_wf hk
        | exact fun _ hk => CoreState.setReg_wf (CoreState.setReg_wf hk) | exact fun _ hk => CoreState.setPred_wf hk)
    | exact fun _ hk => hk
    | (with_reducible first
        | intro _ | assumption | apply State.run32_only | apply State.onCore_only | apply State.coreRetire_only
        | split | dsimp only)

end Sys2Proof.Machine
end

