-- ==== Sys2Proof/Laws/OnlyFlow.lean ====
section
/-!
SUPPORT. What each operation of Machine/Flow.lean leaves alone.
-/

namespace Sys2Proof.Machine

theorem State.branchTo_only {ps : List Part} {s₀ s : State} {c : CoreId} {p : Nat} {off : Word} (h : Only ps s₀ s)
    (hp : Parts [.regs, .units, .env, .gen, .ring, .mail, .ev, .per, .cip, .ctx, .tag, .tmp, .tab, .cap, .tx, .ttb, .rx, .coh, .upd, .boot, .doms, .bkp, .cores, .mem, .bus, .pins, .phase, .trace, .ledger, .free] ps) : Only ps s₀ (State.branchTo s c p off) := by
  unfold State.branchTo
  repeat' with_reducible first
    | exact h | exact Parts.trans (by decide) hp | intro _ | assumption | apply State.jump_only | split | dsimp only

theorem State.branchOnP1_only {ps : List Part} {s₀ s : State} {c : CoreId} {off : BitVec 10} {want : Bool} (h : Only ps s₀ s)
    (hp : Parts [.regs, .units, .env, .gen, .ring, .mail, .ev, .per, .cip, .ctx, .tag, .tmp, .tab, .cap, .tx, .ttb, .rx, .coh, .upd, .boot, .doms, .bkp, .cores, .mem, .bus, .pins, .phase, .trace, .ledger, .free] ps) : Only ps s₀ (State.branchOnP1 s c off want) := by
  unfold State.branchOnP1
  repeat' with_reducible first
    | exact h | exact Parts.trans (by decide) hp | intro _ | assumption | apply Only.ite | apply State.branchBit_only
    | apply State.run16_only | apply State.branchTo_only | apply State.coreRetire_only | split | dsimp only

theorem State.coreSettle_only {ps : List Part} {s₀ s : State} {p : Nat} (h : Only ps s₀ s)
    (hp : Parts [.regs, .units, .env, .gen, .ring, .mail, .ev, .per, .cip, .ctx, .tag, .tmp, .cap, .tx, .ttb, .rx, .coh, .upd, .bkp, .cores, .mem, .trace, .free] ps) : Only ps s₀ (State.coreSettle s p) := by
  unfold State.coreSettle
  repeat' with_reducible first
    | exact h | exact Parts.trans (by decide) hp | intro _ | assumption | apply Only.ite | apply State.uartDrain_only
    | apply State.coreHold_only | apply State.resetNow_only | split | dsimp only

theorem State.indirect_only {ps : List Part} {s₀ s : State} {c : CoreId} {p : Nat} {target : Word} (h : Only ps s₀ s)
    (hp : Parts [.regs, .units, .env, .gen, .ring, .mail, .ev, .per, .cip, .ctx, .tag, .tmp, .tab, .cap, .tx, .ttb, .rx, .coh, .upd, .boot, .doms, .bkp, .cores, .mem, .bus, .pins, .phase, .trace, .ledger, .free] ps) : Only ps s₀ (State.indirect s c p target) := by
  unfold State.indirect
  repeat' with_reducible first
    | exact h | exact Parts.trans (by decide) hp | intro _ | assumption | apply Only.ite | apply State.flowTrace_only
    | apply State.jump_only | split | dsimp only

theorem State.linkReg_only {ps : List Part} {s₀ s : State} {p len : Nat} (h : Only ps s₀ s)
    (hp : Parts [.cores] ps) : Only ps s₀ (State.linkReg s p len) := by
  unfold State.linkReg
  repeat' first
    | (with_reducible first
        | exact h | exact Parts.trans (by decide) hp | exact fun _ hk => CoreState.setReg_wf hk
        | exact fun _ hk => CoreState.setReg_wf (CoreState.setReg_wf hk) | exact fun _ hk => CoreState.setPred_wf hk)
    | exact fun _ hk => hk
    | (with_reducible first
        | intro _ | assumption | apply State.onCore_only | split | dsimp only)

theorem State.maintain_only {ps : List Part} {s₀ s : State} {c : CoreId} {g : Guard} {ra : RegNum} {bit : Nat} {clean drop : Bool} (h : Only ps s₀ s)
    (hp : Parts [.regs, .units, .env, .gen, .ring, .mail, .ev, .per, .cip, .ctx, .tag, .tmp, .tab, .cap, .tx, .ttb, .rx, .coh, .upd, .boot, .doms, .bkp, .cores, .mem, .bus, .pins, .phase, .trace, .ledger, .free] ps) : Only ps s₀ (State.maintain s c g ra bit clean drop) := by
  unfold State.maintain
  refine State.run32_only h (Parts.trans (by decide) hp) fun p t ht => ?_
  dsimp only
  refine Only.ite (State.fault_only ht (Parts.trans (by decide) hp)) (State.coreRetire_only ?_ (Parts.trans (by decide) hp))
  split
  · exact ht
  · refine State.onCore_only (Only.ite (State.writeBack_only ht (Parts.trans (by decide) hp)) ht) (Parts.trans (by decide) hp)
      fun k hk => ?_
    split <;> exact hk

theorem State.takeLine_only {ps : List Part} {s₀ s : State} {c : CoreId} {p : Nat} (h : Only ps s₀ s)
    (hp : Parts [.regs, .cores, .trace] ps) : Only ps s₀ (State.takeLine s c p) := by
  unfold State.takeLine
  repeat' with_reducible first
    | exact h | exact Parts.trans (by decide) hp | intro _ | assumption | apply Only.ite | apply State.enterTrap_only
    | split | dsimp only

end Sys2Proof.Machine
end

