-- ==== Sys2Proof/Laws/OnlyWindow.lean ====
section
/-!
SUPPORT. What each operation of Machine/Window.lean leaves alone.
-/

namespace Sys2Proof.Machine

theorem CoreState.storeDone_wf {k : CoreState} {a : Nat} {e : Bool} (h : k.wf = true) : (k.storeDone a e).wf = true := by
  unfold CoreState.storeDone
  split <;> exact h

theorem State.remoteDone_only {ps : List Part} {s₀ s : State} {c : CoreId} {p : Nat} {r : RemoteLoad} {v : Nat} {error : Bool} (h : Only ps s₀ s)
    (hp : Parts [.regs, .units, .env, .gen, .ring, .mail, .ev, .per, .cip, .ctx, .tag, .tmp, .tab, .cap, .tx, .ttb, .rx, .coh, .upd, .boot, .doms, .bkp, .cores, .mem, .bus, .pins, .phase, .trace, .ledger, .free] ps) : Only ps s₀ (State.remoteDone s c p r v error) := by
  unfold State.remoteDone
  have h1 : Only ps s₀ (s.onCore p fun k => { k with remote := none }) :=
    State.onCore_only h (Parts.trans (by decide) hp) fun _ hk => hk
  have h2 : ∀ u, Only ps s₀ u → ∀ w : Word, Only ps s₀ (u.onCore p fun k => { k.setReg (BitVec.ofNat 5 r.rd) w with pc := r.nextPc }) :=
    fun u hu w => State.onCore_only hu (Parts.trans (by decide) hp) fun k hk => CoreState.setReg_wf (k := k) hk
  have h3 : Only ps s₀ (match r.base with
      | some (b, x) => (s.onCore p fun k => { k with remote := none }).onCore p fun k => k.setReg (BitVec.ofNat 5 b) x
      | none => s.onCore p fun k => { k with remote := none }) := by
    split
    · exact State.onCore_only h1 (Parts.trans (by decide) hp) fun k hk => CoreState.setReg_wf hk
    · exact h1
  exact Only.ite (State.fault_only h1 (Parts.trans (by decide) hp))
    (Only.ite (h2 _ h3 _) (State.count_only (h2 _ h3 _) (Parts.trans (by decide) hp)))

theorem State.windowAnswer_only {ps : List Part} {s₀ s : State} {m off value : Nat} {error : Bool} (h : Only ps s₀ s)
    (hp : Parts [.regs, .units, .env, .gen, .ring, .mail, .ev, .per, .cip, .ctx, .tag, .tmp, .tab, .cap, .tx, .ttb, .rx, .coh, .upd, .boot, .doms, .bkp, .cores, .mem, .bus, .pins, .phase, .trace, .ledger, .free] ps) : Only ps s₀ (State.windowAnswer s m off value error) := by
  unfold State.windowAnswer
  dsimp only
  refine Only.ite (State.prepareAnswer_only h (Parts.trans (by decide) hp)) ?_
  repeat' first
    | with_reducible exact h
    | split
    | with_reducible refine State.remoteDone_only h (Parts.trans (by decide) hp)
    | with_reducible refine State.onCore_only h (Parts.trans (by decide) hp) (fun _ hk => CoreState.storeDone_wf hk)

theorem State.windowRam_only {ps : List Part} {s₀ s : State} {q size : Nat} {data : Option (List Byte)} (h : Only ps s₀ s)
    (hp : Parts [.regs, .units, .env, .mail, .ev, .bkp, .mem, .trace, .ledger, .free] ps) : Only ps s₀ (State.windowRam s q size data).1 := by
  unfold State.windowRam
  repeat' with_reducible first
    | exact h | exact Parts.trans (by decide) hp | intro _ | assumption | apply Only.ite | apply State.ramCheck_only
    | apply State.ramStore_only | refine Only.fst (by assumption) ?_ | refine Only.snd (by assumption) ?_ | split
    | dsimp only

theorem State.windowReg_only {ps : List Part} {s₀ s : State} {who : Who} {q size : Nat} {data : Option (List Byte)} (h : Only ps s₀ s)
    (hp : Parts [.regs, .units, .env, .gen, .ring, .mail, .ev, .per, .cip, .ctx, .tag, .tmp, .tab, .cap, .tx, .ttb, .rx, .coh, .upd, .doms, .bkp, .cores, .mem, .bus, .phase, .trace, .ledger, .free] ps) : Only ps s₀ (State.windowReg s who q size data).1 := by
  unfold State.windowReg
  repeat' with_reducible first
    | exact h | exact Parts.trans (by decide) hp | intro _ | assumption | apply Only.ite | apply State.regWrite_only
    | apply State.regRead_only | refine Only.fst (by assumption) ?_ | refine Only.snd (by assumption) ?_ | split
    | dsimp only

theorem State.windowServe_only {ps : List Part} {s₀ s : State} {h_ : CohHead} {off size : Nat} {data : Option (List Byte)} {agent : Nat} {prot : Bool} (h : Only ps s₀ s)
    (hp : Parts [.regs, .units, .env, .gen, .ring, .mail, .ev, .per, .cip, .ctx, .tag, .tmp, .tab, .cap, .tx, .ttb, .rx, .coh, .upd, .doms, .bkp, .cores, .mem, .bus, .phase, .trace, .ledger, .free] ps) : Only ps s₀ (State.windowServe s h_ off size data agent prot).1 := by
  unfold State.windowServe
  repeat' with_reducible first
    | exact h | exact Parts.trans (by decide) hp | intro _ | assumption | apply Only.ite | apply State.windowRam_only
    | apply State.windowReg_only | apply State.updMessage_only | refine Only.fst (by assumption) ?_
    | refine Only.snd (by assumption) ?_ | split | dsimp only

theorem State.windowTimeout_only {ps : List Part} {s₀ s : State} {c : CoreId} {p : Nat} (h : Only ps s₀ s)
    (hp : Parts [.regs, .units, .env, .gen, .ring, .mail, .ev, .per, .cip, .ctx, .tag, .tmp, .tab, .cap, .tx, .ttb, .rx, .coh, .upd, .boot, .doms, .bkp, .cores, .mem, .bus, .pins, .phase, .trace, .ledger, .free] ps) : Only ps s₀ (State.windowTimeout s c p) := by
  unfold State.windowTimeout
  repeat' first
    | with_reducible exact h
    | split
    | with_reducible refine State.remoteDone_only h (Parts.trans (by decide) hp)
    | with_reducible refine State.onCore_only h (Parts.trans (by decide) hp) (fun _ hk => CoreState.storeDone_wf hk)

end Sys2Proof.Machine
end

