-- ==== Sys2Proof/Laws/OnlyStartup.lean ====
section
/-!
SUPPORT. What each operation of Machine/Startup.lean leaves alone.
-/

namespace Sys2Proof.Machine

theorem State.bankTest_only {ps : List Part} {s₀ s : State} {rows : List (Prod Nat Nat)} {b : Nat} (h : Only ps s₀ s)
    (hp : Parts [.regs, .units, .env, .mail, .ev, .doms, .mem, .trace, .ledger] ps) : Only ps s₀ (State.bankTest s rows b) := by
  unfold State.bankTest
  repeat' with_reducible first
    | exact h | exact Parts.trans (by decide) hp | intro _ | assumption | apply Only.ite
    | refine Only.foldl (fun _ _ _ => ?_) ?_ | refine Only.foldl_fst (fun _ _ _ => ?_) ?_ | apply State.wr_only
    | apply State.setDom_only | apply State.remapSwitch_only | apply State.ledgerPost_only | apply State.put_only
    | refine Only.fst (by assumption) ?_ | refine Only.snd (by assumption) ?_ | split | dsimp only

theorem State.bootRecord_only {ps : List Part} {s₀ s : State} {active state boots fallback floor digest epoch : Nat} (h : Only ps s₀ s)
    (hp : Parts [.units, .coh, .bkp, .mem] ps) : Only ps s₀ (State.bootRecord s active state boots fallback floor digest epoch) := by
  unfold State.bootRecord
  repeat' with_reducible first
    | exact h | exact Parts.trans (by decide) hp | intro _ | assumption | apply State.norProgram_only
    | apply State.norErase_only | split | dsimp only

theorem State.bootReverted_only {ps : List Part} {s₀ s : State} (h : Only ps s₀ s)
    (hp : Parts [.regs, .upd] ps) : Only ps s₀ (State.bootReverted s) := by
  unfold State.bootReverted
  repeat' with_reducible first
    | exact h | exact Parts.trans (by decide) hp | intro _ | assumption | apply State.bump_only
    | apply State.setUpd_only | apply State.put_only | split | dsimp only

theorem State.defaultOwners_only {ps : List Part} {s₀ s : State} (h : Only ps s₀ s)
    (hp : Parts [.regs] ps) : Only ps s₀ (State.defaultOwners s) := by
  unfold State.defaultOwners
  repeat' with_reducible first
    | exact h | exact Parts.trans (by decide) hp | intro _ | assumption | refine Only.foldl (fun _ _ _ => ?_) ?_
    | refine Only.foldl_fst (fun _ _ _ => ?_) ?_ | apply State.wr_only | split | dsimp only

theorem State.memberFails_only {ps : List Part} {s₀ s : State} {x : Prod Nat Nat} (h : Only ps s₀ s)
    (hp : Parts [.regs, .units, .env, .mail, .ev, .trace, .ledger] ps) : Only ps s₀ (State.memberFails s x) := by
  unfold State.memberFails
  repeat' with_reducible first
    | exact h | exact Parts.trans (by decide) hp | intro _ | assumption | apply Only.ite | apply State.wr_only
    | apply State.retire_only | split | dsimp only

theorem State.endEight_only {ps : List Part} {s₀ s : State} {x : StageEnd} (h : Only ps s₀ s)
    (hp : Parts [.regs, .units, .env, .mail, .ev, .upd, .cores, .pins, .phase, .trace, .ledger] ps) : Only ps s₀ (State.endEight s x) := by
  unfold State.endEight
  repeat' with_reducible first
    | exact h | exact Parts.trans (by decide) hp | intro _ | assumption | rw [lit_phase_pins] | rw [lit_phase]
    | rw [lit_pins] | apply Only.ite | refine Only.foldl (fun _ _ _ => ?_) ?_
    | refine Only.foldl_fst (fun _ _ _ => ?_) ?_ | apply State.setUpd_only | apply State.memberFails_only
    | apply State.coreStart_only | apply State.put_only | refine State.with_pins_only ?_ ?_
    | refine State.with_phase_only ?_ ?_ | split | dsimp only

theorem State.runSlot_only {ps : List Part} {s₀ s : State} {slot stage : Nat} (h : Only ps s₀ s)
    (hp : Parts [.regs] ps) : Only ps s₀ (State.runSlot s slot stage) := by
  unfold State.runSlot
  repeat' with_reducible first
    | exact h | exact Parts.trans (by decide) hp | intro _ | assumption | apply State.wr_only
    | apply State.setUpdStage_only | apply State.put_only | split | dsimp only

theorem State.stageOn_only {ps : List Part} {s₀ s : State} {n : Nat} (h : Only ps s₀ s)
    (hp : Parts [.regs, .units, .env, .gen, .ring, .mail, .ev, .per, .tag, .tmp, .cap, .tx, .ttb, .rx, .coh, .doms, .bkp, .cores, .mem, .trace, .free] ps) : Only ps s₀ (State.stageOn s n) := by
  unfold State.stageOn
  repeat' with_reducible first
    | exact h | exact Parts.trans (by decide) hp | intro _ | assumption | apply Only.ite | apply State.setDom_only
    | apply State.domArrive_only | split | dsimp only

theorem State.homeroom_only {ps : List Part} {s₀ s : State} {cause : Nat} (h : Only ps s₀ s)
    (hp : Parts [.regs, .units, .env, .gen, .ring, .mail, .ev, .per, .tag, .tmp, .cap, .tx, .ttb, .rx, .coh, .upd, .boot, .doms, .bkp, .cores, .mem, .phase, .trace, .free] ps) : Only ps s₀ (State.homeroom s cause) := by
  unfold State.homeroom
  repeat' with_reducible first
    | exact h | exact Parts.trans (by decide) hp | intro _ | assumption | rw [lit_phase_boot] | rw [lit_phase]
    | rw [lit_boot] | refine Only.foldl (fun _ _ _ => ?_) ?_ | refine Only.foldl_fst (fun _ _ _ => ?_) ?_
    | apply State.wr_only | apply State.setHome_only | apply State.stageOn_only | refine State.with_boot_only ?_ ?_
    | refine State.with_phase_only ?_ ?_ | split | dsimp only

theorem State.stageBegin_only {ps : List Part} {s₀ s : State} {n : Nat} (h : Only ps s₀ s)
    (hp : Parts [.boot, .phase] ps) : Only ps s₀ (State.stageBegin s n) := by
  unfold State.stageBegin
  repeat' with_reducible first
    | exact h | exact Parts.trans (by decide) hp | intro _ | assumption | rw [lit_phase_boot] | rw [lit_phase]
    | rw [lit_boot] | refine State.with_boot_only ?_ ?_ | refine State.with_phase_only ?_ ?_ | split | dsimp only

theorem State.selectSlot_only {ps : List Part} {s₀ s : State} (h : Only ps s₀ s)
    (hp : Parts [.regs, .units, .coh, .upd, .bkp, .mem] ps) : Only ps s₀ (State.selectSlot s).1 := by
  unfold State.selectSlot
  repeat' with_reducible first
    | exact h | exact Parts.trans (by decide) hp | intro _ | assumption | apply Only.ite | apply State.bootRecord_only
    | apply State.wr_only | apply State.bootReverted_only | refine Only.fst (by assumption) ?_
    | refine Only.snd (by assumption) ?_ | split | dsimp only

theorem State.endFive_only {ps : List Part} {s₀ s : State} (h : Only ps s₀ s)
    (hp : Parts [.regs, .units, .env, .gen, .ring, .mail, .ev, .per, .tag, .tmp, .cap, .tx, .ttb, .rx, .coh, .upd, .boot, .doms, .bkp, .cores, .mem, .phase, .trace, .ledger, .free] ps) : Only ps s₀ (State.endFive s) := by
  unfold State.endFive
  repeat' with_reducible first
    | exact h | exact Parts.trans (by decide) hp | intro _ | assumption | apply Only.ite | apply State.dramRepair_only
    | apply State.runSlot_only | apply State.homeroom_only | apply State.stageBegin_only
    | apply State.bootReverted_only | apply State.selectSlot_only | apply State.stageOn_only
    | refine Only.fst (by assumption) ?_ | refine Only.snd (by assumption) ?_ | split | dsimp only

theorem State.endOne_only {ps : List Part} {s₀ s : State} (h : Only ps s₀ s)
    (hp : Parts [.regs, .units, .env, .gen, .ring, .mail, .ev, .tag, .tmp, .tx, .ttb, .coh, .boot, .doms, .bkp, .mem, .pins, .phase, .trace] ps) : Only ps s₀ (State.endOne s) := by
  unfold State.endOne
  repeat' with_reducible first
    | exact h | exact Parts.trans (by decide) hp | intro _ | assumption | rw [lit_phase_pins] | rw [lit_boot_pins]
    | rw [lit_phase_boot] | rw [lit_phase] | rw [lit_pins] | rw [lit_boot] | apply Only.ite
    | apply State.stageTwo_only | refine State.with_boot_only ?_ ?_ | refine State.with_pins_only ?_ ?_
    | refine State.with_phase_only ?_ ?_ | split | dsimp only

theorem State.startSyn_only {ps : List Part} {s₀ s : State} {fail : List Nat} {power : Option Nat} (h : Only ps s₀ s)
    (hp : Parts [.regs, .tab, .free] ps) : Only ps s₀ (State.startSyn s fail power) := by
  unfold State.startSyn
  repeat' with_reducible first
    | exact h | exact Parts.trans (by decide) hp | intro _ | assumption | apply Only.ite
    | refine Only.foldl (fun _ _ _ => ?_) ?_ | refine Only.foldl_fst (fun _ _ _ => ?_) ?_ | apply State.wr_only
    | apply State.bump_only | apply State.free_only | apply State.unitFault_only | apply State.sliceResult_only
    | apply State.sliceFailed_only | apply State.put_only | refine Only.fst (by assumption) ?_
    | refine Only.snd (by assumption) ?_ | split | dsimp only

theorem State.startCap_only {ps : List Part} {s₀ s : State} {fail : BitVec 6} (h : Only ps s₀ s)
    (hp : Parts [.regs, .tab, .cap, .free] ps) : Only ps s₀ (State.startCap s fail) := by
  unfold State.startCap
  repeat' with_reducible first
    | exact h | exact Parts.trans (by decide) hp | intro _ | assumption | apply Only.ite
    | refine Only.foldl (fun _ _ _ => ?_) ?_ | refine Only.foldl_fst (fun _ _ _ => ?_) ?_
    | apply State.capItemDone_only | apply State.put_only | split | dsimp only

theorem State.stageDomains_only {ps : List Part} {s₀ s : State} {l : List (Prod Nat Nat)} {ns : List Nat} (h : Only ps s₀ s)
    (hp : Parts [.regs, .units, .env, .gen, .ring, .mail, .ev, .per, .tag, .tmp, .cap, .tx, .ttb, .rx, .coh, .doms, .bkp, .cores, .mem, .trace, .free] ps) : Only ps s₀ (State.stageDomains s l ns) := by
  unfold State.stageDomains
  repeat' with_reducible first
    | exact h | exact Parts.trans (by decide) hp | intro _ | assumption | refine Only.foldl (fun _ _ _ => ?_) ?_
    | refine Only.foldl_fst (fun _ _ _ => ?_) ?_ | apply State.stageOn_only | split | dsimp only

theorem State.endSeven_only {ps : List Part} {s₀ s : State} {x : StageEnd} (h : Only ps s₀ s)
    (hp : Parts [.regs, .units, .env, .gen, .ring, .mail, .ev, .per, .tag, .tmp, .tab, .cap, .tx, .ttb, .rx, .coh, .boot, .doms, .bkp, .cores, .mem, .phase, .trace, .ledger, .free] ps) : Only ps s₀ (State.endSeven s x) := by
  unfold State.endSeven
  repeat' with_reducible first
    | exact h | exact Parts.trans (by decide) hp | intro _ | assumption | rw [lit_tab]
    | refine Only.foldl (fun _ _ _ => ?_) ?_ | refine Only.foldl_fst (fun _ _ _ => ?_) ?_
    | apply State.timetableSwitched_only | apply State.stageBegin_only | apply State.decideActive_only
    | apply State.memberFails_only | apply State.startSyn_only | apply State.startCap_only
    | apply State.stageDomains_only | apply State.ledgerStart_only | refine State.with_tab_only ?_ ?_ | split
    | dsimp only

theorem State.tableDomains_only {ps : List Part} {s₀ s : State} {l : List (Prod Nat Nat)} (h : Only ps s₀ s)
    (hp : Parts [.regs, .units, .env, .gen, .ring, .mail, .ev, .per, .cip, .ctx, .tag, .tmp, .tab, .cap, .tx, .ttb, .rx, .coh, .upd, .doms, .bkp, .cores, .mem, .bus, .phase, .trace, .ledger, .free] ps) : Only ps s₀ (State.tableDomains s l) := by
  unfold State.tableDomains
  repeat' with_reducible first
    | exact h | exact Parts.trans (by decide) hp | intro _ | assumption | apply Only.ite
    | refine Only.foldl (fun _ _ _ => ?_) ?_ | refine Only.foldl_fst (fun _ _ _ => ?_) ?_ | apply State.setDom_only
    | apply State.domLeave_only | apply State.stageOn_only | split | dsimp only

theorem State.tableOwners_only {ps : List Part} {s₀ s : State} {l : List (Prod Nat (Prod Nat ((Nat × Bool))))} (h : Only ps s₀ s)
    (hp : Parts [.regs] ps) : Only ps s₀ (State.tableOwners s l) := by
  unfold State.tableOwners
  repeat' with_reducible first
    | exact h | exact Parts.trans (by decide) hp | intro _ | assumption | refine Only.foldl (fun _ _ _ => ?_) ?_
    | refine Only.foldl_fst (fun _ _ _ => ?_) ?_ | apply State.wr_only | split | dsimp only

theorem State.storeWrite_only {ps : List Part} {s₀ s : State} {schema copy seq : Nat} (h : Only ps s₀ s)
    (hp : Parts [.units, .coh, .bkp, .mem] ps) : Only ps s₀ (State.storeWrite s schema copy seq) := by
  unfold State.storeWrite
  repeat' with_reducible first
    | exact h | exact Parts.trans (by decide) hp | intro _ | assumption | apply State.norProgram_only
    | apply State.norErase_only | split | dsimp only

theorem State.storeFrom_only {ps : List Part} {s₀ s : State} {schema : Nat} {a2 : Option (Prod Nat Nat)} (h : Only ps s₀ s)
    (hp : Parts [.units, .coh, .bkp, .mem] ps) : Only ps s₀ (State.storeFrom s schema a2) := by
  unfold State.storeFrom
  repeat' with_reducible first
    | exact h | exact Parts.trans (by decide) hp | intro _ | assumption | apply State.storeWrite_only | split
    | dsimp only

theorem State.storeMigrate_only {ps : List Part} {s₀ s : State} {schema : Nat} (h : Only ps s₀ s)
    (hp : Parts [.units, .coh, .bkp, .mem] ps) : Only ps s₀ (State.storeMigrate s schema) := by
  unfold State.storeMigrate
  repeat' with_reducible first
    | exact h | exact Parts.trans (by decide) hp | intro _ | assumption | apply State.storeFrom_only | split
    | dsimp only

theorem State.endSix_only {ps : List Part} {s₀ s : State} {x : StageEnd} (h : Only ps s₀ s)
    (hp : Parts [.regs, .units, .env, .gen, .ring, .mail, .ev, .per, .cip, .ctx, .tag, .tmp, .tab, .cap, .tx, .ttb, .rx, .coh, .upd, .boot, .doms, .bkp, .cores, .mem, .bus, .phase, .trace, .ledger, .free] ps) : Only ps s₀ (State.endSix s x) := by
  unfold State.endSix
  repeat' with_reducible first
    | exact h | exact Parts.trans (by decide) hp | intro _ | assumption | apply State.tableDomains_only
    | apply State.stageDomains_only | apply State.tableOwners_only | apply State.defaultOwners_only
    | apply State.wr_only | apply State.trainEnd_only | apply State.stageBegin_only | apply State.storeMigrate_only
    | apply State.put_only | split | dsimp only

theorem State.stageFive_only {ps : List Part} {s₀ s : State} (h : Only ps s₀ s)
    (hp : Parts [.regs, .units, .env, .gen, .ring, .mail, .ev, .per, .tag, .tmp, .cap, .tx, .ttb, .rx, .coh, .upd, .boot, .doms, .bkp, .cores, .mem, .phase, .trace, .free] ps) : Only ps s₀ (State.stageFive s) := by
  unfold State.stageFive
  repeat' with_reducible first
    | exact h | exact Parts.trans (by decide) hp | intro _ | assumption | apply Only.ite | apply State.homeroom_only
    | apply State.stageBegin_only | split | dsimp only

theorem State.ledgerApply_only {ps : List Part} {s₀ s : State} {r : LedgerRec} (h : Only ps s₀ s)
    (hp : Parts [.regs, .doms, .mem] ps) : Only ps s₀ (State.ledgerApply s r) := by
  unfold State.ledgerApply
  repeat' first
    | (with_reducible first
        | exact h | exact Parts.trans (by decide) hp)
    | exact fun _ => ⟨rfl, rfl⟩
    | (with_reducible first
        | intro _ | assumption | apply Only.ite | apply State.wr_only | apply State.setDom_only
        | apply State.setMem_only | apply State.srmShow_only | apply State.put_only
        | refine Only.fst (by assumption) ?_ | refine Only.snd (by assumption) ?_ | split | dsimp only)

theorem State.ledgerRetire_only {ps : List Part} {s₀ s : State} {a : Arr} {p : Nat} (h : Only ps s₀ s)
    (hp : Parts [.units] ps) : Only ps s₀ (State.ledgerRetire s a p) := by
  unfold State.ledgerRetire
  repeat' with_reducible first
    | exact h | exact Parts.trans (by decide) hp | intro _ | assumption | apply Only.ite | apply State.setUnit_only
    | split | dsimp only

theorem State.ledgerReplay_only {ps : List Part} {s₀ s : State} (h : Only ps s₀ s)
    (hp : Parts [.regs, .units, .doms, .mem, .ledger] ps) : Only ps s₀ (State.ledgerReplay s) := by
  unfold State.ledgerReplay
  repeat' with_reducible first
    | exact h | exact Parts.trans (by decide) hp | intro _ | assumption | refine Only.foldl (fun _ _ _ => ?_) ?_
    | refine Only.foldl_fst (fun _ _ _ => ?_) ?_ | apply Only.id_ | apply State.wr_only | apply State.ledgerApply_only
    | apply State.setLedger_only | apply State.ledgerRetire_only | refine Only.fst (by assumption) ?_
    | refine Only.snd (by assumption) ?_ | split | dsimp only

theorem State.endThree_only {ps : List Part} {s₀ s : State} {x : StageEnd} (h : Only ps s₀ s)
    (hp : Parts [.regs, .units, .env, .gen, .ring, .mail, .ev, .per, .tag, .tmp, .cap, .tx, .ttb, .rx, .coh, .upd, .boot, .doms, .bkp, .cores, .mem, .phase, .trace, .ledger, .free] ps) : Only ps s₀ (State.endThree s x) := by
  unfold State.endThree
  repeat' with_reducible first
    | exact h | exact Parts.trans (by decide) hp | intro _ | assumption | rw [lit_phase_boot] | rw [lit_phase]
    | rw [lit_boot] | apply Only.ite | refine Only.foldl (fun _ _ _ => ?_) ?_
    | refine Only.foldl_fst (fun _ _ _ => ?_) ?_ | apply State.stageFive_only | apply State.bankTest_only
    | apply State.memberFails_only | apply State.ledgerReplay_only | refine State.with_boot_only ?_ ?_
    | refine State.with_phase_only ?_ ?_ | split | dsimp only

theorem State.endTwo_only {ps : List Part} {s₀ s : State} {x : StageEnd} (h : Only ps s₀ s)
    (hp : Parts [.regs, .units, .env, .gen, .ring, .mail, .ev, .per, .tag, .tmp, .cap, .tx, .ttb, .rx, .coh, .boot, .doms, .bkp, .cores, .mem, .pins, .phase, .trace, .free] ps) : Only ps s₀ (State.endTwo s x) := by
  unfold State.endTwo
  repeat' with_reducible first
    | exact h | exact Parts.trans (by decide) hp | intro _ | assumption | rw [lit_pins]
    | refine Only.foldl (fun _ _ _ => ?_) ?_ | refine Only.foldl_fst (fun _ _ _ => ?_) ?_
    | apply State.stageBegin_only | apply State.stageOn_only | refine State.with_pins_only ?_ ?_ | split | dsimp only

theorem State.nrstAssert_only {ps : List Part} {s₀ s : State} {low : Nat} (h : Only ps s₀ s)
    (hp : Parts [.regs, .units, .env, .gen, .ring, .mail, .ev, .per, .cip, .ctx, .tag, .tmp, .tab, .cap, .tx, .ttb, .rx, .coh, .upd, .boot, .doms, .bkp, .cores, .mem, .bus, .pins, .phase, .trace, .ledger, .free] ps) : Only ps s₀ (State.nrstAssert s low) := by
  unfold State.nrstAssert
  repeat' with_reducible first
    | exact h | exact Parts.trans (by decide) hp | intro _ | assumption | rw [lit_pins] | apply Only.ite
    | apply State.wr_only | apply State.homeEnd_only | apply State.resetDomains_only | apply State.free_only
    | refine State.with_pins_only ?_ ?_ | refine Only.fst (by assumption) ?_ | refine Only.snd (by assumption) ?_
    | split | dsimp only

theorem State.nrstRelease_only {ps : List Part} {s₀ s : State} (h : Only ps s₀ s)
    (hp : Parts [.regs, .units, .env, .gen, .ring, .mail, .ev, .tag, .tmp, .tx, .ttb, .coh, .boot, .doms, .bkp, .mem, .pins, .phase, .trace] ps) : Only ps s₀ (State.nrstRelease s) := by
  unfold State.nrstRelease
  repeat' with_reducible first
    | exact h | exact Parts.trans (by decide) hp | intro _ | assumption | rw [lit_pins] | apply Only.ite
    | apply State.stageTwo_only | refine State.with_pins_only ?_ ?_ | split | dsimp only

theorem State.stageOne_only {ps : List Part} {s₀ s : State} (h : Only ps s₀ s)
    (hp : Parts [.regs, .boot, .pins, .phase] ps) : Only ps s₀ (State.stageOne s) := by
  unfold State.stageOne
  repeat' with_reducible first
    | exact h | exact Parts.trans (by decide) hp | intro _ | assumption | rw [lit_boot_pins] | rw [lit_pins]
    | rw [lit_boot] | apply State.wr_only | apply State.stageBegin_only | refine State.with_boot_only ?_ ?_
    | refine State.with_pins_only ?_ ?_ | split | dsimp only

theorem State.powerOn_only {ps : List Part} {s₀ s : State} {vmain : Nat} (h : Only ps s₀ s)
    (hp : Parts [.regs, .boot, .pins, .phase] ps) : Only ps s₀ (State.powerOn s vmain) := by
  unfold State.powerOn
  repeat' with_reducible first
    | exact h | exact Parts.trans (by decide) hp | intro _ | assumption | rw [lit_pins] | apply Only.ite
    | apply State.stageOne_only | refine State.with_pins_only ?_ ?_ | split | dsimp only

theorem State.railFall_only {ps : List Part} {s₀ s : State} {vmain : Nat} (h : Only ps s₀ s)
    (hp : Parts [.regs, .units, .env, .gen, .ring, .mail, .ev, .per, .cip, .ctx, .tag, .tmp, .tab, .cap, .tx, .ttb, .rx, .coh, .upd, .boot, .doms, .bkp, .cores, .mem, .bus, .pins, .phase, .trace, .ledger, .free] ps) : Only ps s₀ (State.railFall s vmain) := by
  unfold State.railFall
  repeat' with_reducible first
    | exact h | exact Parts.trans (by decide) hp | intro _ | assumption | rw [lit_boot_pins] | rw [lit_pins]
    | rw [lit_boot] | apply Only.ite | apply State.stageOne_only | apply State.resetDomains_only
    | apply State.onMain_only | refine State.with_boot_only ?_ ?_ | refine State.with_pins_only ?_ ?_ | split
    | dsimp only

theorem State.railRecovery_only {ps : List Part} {s₀ s : State} (h : Only ps s₀ s)
    (hp : Parts [.boot] ps) : Only ps s₀ (State.railRecovery s) := by
  unfold State.railRecovery
  repeat' with_reducible first
    | exact h | exact Parts.trans (by decide) hp | intro _ | assumption | rw [lit_boot] | apply Only.ite
    | refine State.with_boot_only ?_ ?_ | split | dsimp only

theorem State.stageEnd_only {ps : List Part} {s₀ s : State} {x : StageEnd} (h : Only ps s₀ s)
    (hp : Parts [.regs, .units, .env, .gen, .ring, .mail, .ev, .per, .cip, .ctx, .tag, .tmp, .tab, .cap, .tx, .ttb, .rx, .coh, .upd, .boot, .doms, .bkp, .cores, .mem, .bus, .pins, .phase, .trace, .ledger, .free] ps) : Only ps s₀ (State.stageEnd s x) := by
  unfold State.stageEnd
  repeat' with_reducible first
    | exact h | exact Parts.trans (by decide) hp | intro _ | assumption | apply State.endSeven_only
    | apply State.endEight_only | apply State.endOne_only | apply State.endThree_only | apply State.endTwo_only
    | apply State.endFive_only | apply State.endSix_only | split | dsimp only

theorem State.stageOver_only {ps : List Part} {s₀ s : State} (h : Only ps s₀ s)
    (hp : Parts [.regs, .units, .env, .gen, .ring, .mail, .ev, .per, .tag, .tmp, .cap, .tx, .ttb, .rx, .coh, .upd, .boot, .doms, .bkp, .cores, .mem, .phase, .trace, .free] ps) : Only ps s₀ (State.stageOver s) := by
  unfold State.stageOver
  repeat' with_reducible first
    | exact h | exact Parts.trans (by decide) hp | intro _ | assumption | apply Only.ite | apply State.homeroom_only
    | apply State.setHome_only | apply State.free_only | refine Only.fst (by assumption) ?_
    | refine Only.snd (by assumption) ?_ | split | dsimp only

theorem State.switchBack_only {ps : List Part} {s₀ s : State} (h : Only ps s₀ s)
    (hp : Parts [.regs, .units, .env, .gen, .ring, .mail, .ev, .per, .tag, .tmp, .cap, .tx, .ttb, .rx, .coh, .upd, .boot, .doms, .bkp, .cores, .mem, .phase, .trace, .free] ps) : Only ps s₀ (State.switchBack s) := by
  unfold State.switchBack
  repeat' with_reducible first
    | exact h | exact Parts.trans (by decide) hp | intro _ | assumption | rw [lit_boot] | apply Only.ite
    | apply State.stageFive_only | apply State.bkpCold_only | apply State.tempoStart_only | apply State.onMain_only
    | apply State.tempoGo_only | apply State.setTmp_only | apply State.setAligned_only
    | refine State.with_boot_only ?_ ?_ | split | dsimp only

end Sys2Proof.Machine
end

