-- ==== Sys2Proof/Laws/State.lean ====
section
/-!
SUPPORT. Each field of the state after each named update: the field the update is of holds its new value, every other
one is as before.
-/

namespace Sys2Proof.Machine

variable (s : State)

/-! ### setWord -/

@[simp] theorem State.setWord_clk (a : Nat) (v : Word) : (s.setWord a v).clk = s.clk := rfl
@[simp] theorem State.setWord_regs (a : Nat) (v : Word) :
    (s.setWord a v).regs = sput resetWord s.regs a v := rfl
@[simp] theorem State.setWord_units (a : Nat) (v : Word) : (s.setWord a v).units = s.units := rfl
@[simp] theorem State.setWord_env (a : Nat) (v : Word) : (s.setWord a v).env = s.env := rfl
@[simp] theorem State.setWord_gen (a : Nat) (v : Word) : (s.setWord a v).gen = s.gen := rfl
@[simp] theorem State.setWord_ring (a : Nat) (v : Word) : (s.setWord a v).ring = s.ring := rfl
@[simp] theorem State.setWord_mail (a : Nat) (v : Word) : (s.setWord a v).mail = s.mail := rfl
@[simp] theorem State.setWord_ev (a : Nat) (v : Word) : (s.setWord a v).ev = s.ev := rfl
@[simp] theorem State.setWord_per (a : Nat) (v : Word) : (s.setWord a v).per = s.per := rfl
@[simp] theorem State.setWord_cip (a : Nat) (v : Word) : (s.setWord a v).cip = s.cip := rfl
@[simp] theorem State.setWord_ctx (a : Nat) (v : Word) : (s.setWord a v).ctx = s.ctx := rfl
@[simp] theorem State.setWord_tag (a : Nat) (v : Word) : (s.setWord a v).tag = s.tag := rfl
@[simp] theorem State.setWord_tmp (a : Nat) (v : Word) : (s.setWord a v).tmp = s.tmp := rfl
@[simp] theorem State.setWord_tab (a : Nat) (v : Word) : (s.setWord a v).tab = s.tab := rfl
@[simp] theorem State.setWord_cap (a : Nat) (v : Word) : (s.setWord a v).cap = s.cap := rfl
@[simp] theorem State.setWord_tx (a : Nat) (v : Word) : (s.setWord a v).tx = s.tx := rfl
@[simp] theorem State.setWord_ttb (a : Nat) (v : Word) : (s.setWord a v).ttb = s.ttb := rfl
@[simp] theorem State.setWord_rx (a : Nat) (v : Word) : (s.setWord a v).rx = s.rx := rfl
@[simp] theorem State.setWord_coh (a : Nat) (v : Word) : (s.setWord a v).coh = s.coh := rfl
@[simp] theorem State.setWord_upd (a : Nat) (v : Word) : (s.setWord a v).upd = s.upd := rfl
@[simp] theorem State.setWord_boot (a : Nat) (v : Word) : (s.setWord a v).boot = s.boot := rfl
@[simp] theorem State.setWord_doms (a : Nat) (v : Word) : (s.setWord a v).doms = s.doms := rfl
@[simp] theorem State.setWord_bkp (a : Nat) (v : Word) : (s.setWord a v).bkp = s.bkp := rfl
@[simp] theorem State.setWord_cores (a : Nat) (v : Word) : (s.setWord a v).cores = s.cores := rfl
@[simp] theorem State.setWord_mem (a : Nat) (v : Word) : (s.setWord a v).mem = s.mem := rfl
@[simp] theorem State.setWord_bus (a : Nat) (v : Word) : (s.setWord a v).bus = s.bus := rfl
@[simp] theorem State.setWord_pins (a : Nat) (v : Word) : (s.setWord a v).pins = s.pins := rfl
@[simp] theorem State.setWord_phase (a : Nat) (v : Word) : (s.setWord a v).phase = s.phase := rfl
@[simp] theorem State.setWord_trace (a : Nat) (v : Word) : (s.setWord a v).trace = s.trace := rfl
@[simp] theorem State.setWord_ledger (a : Nat) (v : Word) : (s.setWord a v).ledger = s.ledger := rfl
@[simp] theorem State.setWord_freeCount (a : Nat) (v : Word) : (s.setWord a v).freeCount = s.freeCount := rfl
@[simp] theorem State.setWord_pending (a : Nat) (v : Word) : (s.setWord a v).pending = s.pending := rfl

/-! ### wr -/

@[simp] theorem State.wr_clk (f : Fld) (v : Nat) : (s.wr f v).clk = s.clk := rfl
@[simp] theorem State.wr_regs (f : Fld) (v : Nat) :
    (s.wr f v).regs = sput resetWord s.regs f.addr (BitVec.ofNat 32 (setBitsOf (s.word f.addr).toNat f.lsb f.width v)) := rfl
@[simp] theorem State.wr_units (f : Fld) (v : Nat) : (s.wr f v).units = s.units := rfl
@[simp] theorem State.wr_env (f : Fld) (v : Nat) : (s.wr f v).env = s.env := rfl
@[simp] theorem State.wr_gen (f : Fld) (v : Nat) : (s.wr f v).gen = s.gen := rfl
@[simp] theorem State.wr_ring (f : Fld) (v : Nat) : (s.wr f v).ring = s.ring := rfl
@[simp] theorem State.wr_mail (f : Fld) (v : Nat) : (s.wr f v).mail = s.mail := rfl
@[simp] theorem State.wr_ev (f : Fld) (v : Nat) : (s.wr f v).ev = s.ev := rfl
@[simp] theorem State.wr_per (f : Fld) (v : Nat) : (s.wr f v).per = s.per := rfl
@[simp] theorem State.wr_cip (f : Fld) (v : Nat) : (s.wr f v).cip = s.cip := rfl
@[simp] theorem State.wr_ctx (f : Fld) (v : Nat) : (s.wr f v).ctx = s.ctx := rfl
@[simp] theorem State.wr_tag (f : Fld) (v : Nat) : (s.wr f v).tag = s.tag := rfl
@[simp] theorem State.wr_tmp (f : Fld) (v : Nat) : (s.wr f v).tmp = s.tmp := rfl
@[simp] theorem State.wr_tab (f : Fld) (v : Nat) : (s.wr f v).tab = s.tab := rfl
@[simp] theorem State.wr_cap (f : Fld) (v : Nat) : (s.wr f v).cap = s.cap := rfl
@[simp] theorem State.wr_tx (f : Fld) (v : Nat) : (s.wr f v).tx = s.tx := rfl
@[simp] theorem State.wr_ttb (f : Fld) (v : Nat) : (s.wr f v).ttb = s.ttb := rfl
@[simp] theorem State.wr_rx (f : Fld) (v : Nat) : (s.wr f v).rx = s.rx := rfl
@[simp] theorem State.wr_coh (f : Fld) (v : Nat) : (s.wr f v).coh = s.coh := rfl
@[simp] theorem State.wr_upd (f : Fld) (v : Nat) : (s.wr f v).upd = s.upd := rfl
@[simp] theorem State.wr_boot (f : Fld) (v : Nat) : (s.wr f v).boot = s.boot := rfl
@[simp] theorem State.wr_doms (f : Fld) (v : Nat) : (s.wr f v).doms = s.doms := rfl
@[simp] theorem State.wr_bkp (f : Fld) (v : Nat) : (s.wr f v).bkp = s.bkp := rfl
@[simp] theorem State.wr_cores (f : Fld) (v : Nat) : (s.wr f v).cores = s.cores := rfl
@[simp] theorem State.wr_mem (f : Fld) (v : Nat) : (s.wr f v).mem = s.mem := rfl
@[simp] theorem State.wr_bus (f : Fld) (v : Nat) : (s.wr f v).bus = s.bus := rfl
@[simp] theorem State.wr_pins (f : Fld) (v : Nat) : (s.wr f v).pins = s.pins := rfl
@[simp] theorem State.wr_phase (f : Fld) (v : Nat) : (s.wr f v).phase = s.phase := rfl
@[simp] theorem State.wr_trace (f : Fld) (v : Nat) : (s.wr f v).trace = s.trace := rfl
@[simp] theorem State.wr_ledger (f : Fld) (v : Nat) : (s.wr f v).ledger = s.ledger := rfl
@[simp] theorem State.wr_freeCount (f : Fld) (v : Nat) : (s.wr f v).freeCount = s.freeCount := rfl
@[simp] theorem State.wr_pending (f : Fld) (v : Nat) : (s.wr f v).pending = s.pending := rfl

/-! ### put -/

@[simp] theorem State.put_clk (f : Fld) (b : Bool) : (s.put f b).clk = s.clk := rfl
@[simp] theorem State.put_regs (f : Fld) (b : Bool) :
    (s.put f b).regs = (s.wr f (b2n b)).regs := rfl
@[simp] theorem State.put_units (f : Fld) (b : Bool) : (s.put f b).units = s.units := rfl
@[simp] theorem State.put_env (f : Fld) (b : Bool) : (s.put f b).env = s.env := rfl
@[simp] theorem State.put_gen (f : Fld) (b : Bool) : (s.put f b).gen = s.gen := rfl
@[simp] theorem State.put_ring (f : Fld) (b : Bool) : (s.put f b).ring = s.ring := rfl
@[simp] theorem State.put_mail (f : Fld) (b : Bool) : (s.put f b).mail = s.mail := rfl
@[simp] theorem State.put_ev (f : Fld) (b : Bool) : (s.put f b).ev = s.ev := rfl
@[simp] theorem State.put_per (f : Fld) (b : Bool) : (s.put f b).per = s.per := rfl
@[simp] theorem State.put_cip (f : Fld) (b : Bool) : (s.put f b).cip = s.cip := rfl
@[simp] theorem State.put_ctx (f : Fld) (b : Bool) : (s.put f b).ctx = s.ctx := rfl
@[simp] theorem State.put_tag (f : Fld) (b : Bool) : (s.put f b).tag = s.tag := rfl
@[simp] theorem State.put_tmp (f : Fld) (b : Bool) : (s.put f b).tmp = s.tmp := rfl
@[simp] theorem State.put_tab (f : Fld) (b : Bool) : (s.put f b).tab = s.tab := rfl
@[simp] theorem State.put_cap (f : Fld) (b : Bool) : (s.put f b).cap = s.cap := rfl
@[simp] theorem State.put_tx (f : Fld) (b : Bool) : (s.put f b).tx = s.tx := rfl
@[simp] theorem State.put_ttb (f : Fld) (b : Bool) : (s.put f b).ttb = s.ttb := rfl
@[simp] theorem State.put_rx (f : Fld) (b : Bool) : (s.put f b).rx = s.rx := rfl
@[simp] theorem State.put_coh (f : Fld) (b : Bool) : (s.put f b).coh = s.coh := rfl
@[simp] theorem State.put_upd (f : Fld) (b : Bool) : (s.put f b).upd = s.upd := rfl
@[simp] theorem State.put_boot (f : Fld) (b : Bool) : (s.put f b).boot = s.boot := rfl
@[simp] theorem State.put_doms (f : Fld) (b : Bool) : (s.put f b).doms = s.doms := rfl
@[simp] theorem State.put_bkp (f : Fld) (b : Bool) : (s.put f b).bkp = s.bkp := rfl
@[simp] theorem State.put_cores (f : Fld) (b : Bool) : (s.put f b).cores = s.cores := rfl
@[simp] theorem State.put_mem (f : Fld) (b : Bool) : (s.put f b).mem = s.mem := rfl
@[simp] theorem State.put_bus (f : Fld) (b : Bool) : (s.put f b).bus = s.bus := rfl
@[simp] theorem State.put_pins (f : Fld) (b : Bool) : (s.put f b).pins = s.pins := rfl
@[simp] theorem State.put_phase (f : Fld) (b : Bool) : (s.put f b).phase = s.phase := rfl
@[simp] theorem State.put_trace (f : Fld) (b : Bool) : (s.put f b).trace = s.trace := rfl
@[simp] theorem State.put_ledger (f : Fld) (b : Bool) : (s.put f b).ledger = s.ledger := rfl
@[simp] theorem State.put_freeCount (f : Fld) (b : Bool) : (s.put f b).freeCount = s.freeCount := rfl
@[simp] theorem State.put_pending (f : Fld) (b : Bool) : (s.put f b).pending = s.pending := rfl

/-! ### bump -/

@[simp] theorem State.bump_clk (f : Fld) (n : Nat) : (s.bump f n).clk = s.clk := rfl
@[simp] theorem State.bump_regs (f : Fld) (n : Nat) :
    (s.bump f n).regs = (s.wr f (satAdd f.width (s.rd f) n)).regs := rfl
@[simp] theorem State.bump_units (f : Fld) (n : Nat) : (s.bump f n).units = s.units := rfl
@[simp] theorem State.bump_env (f : Fld) (n : Nat) : (s.bump f n).env = s.env := rfl
@[simp] theorem State.bump_gen (f : Fld) (n : Nat) : (s.bump f n).gen = s.gen := rfl
@[simp] theorem State.bump_ring (f : Fld) (n : Nat) : (s.bump f n).ring = s.ring := rfl
@[simp] theorem State.bump_mail (f : Fld) (n : Nat) : (s.bump f n).mail = s.mail := rfl
@[simp] theorem State.bump_ev (f : Fld) (n : Nat) : (s.bump f n).ev = s.ev := rfl
@[simp] theorem State.bump_per (f : Fld) (n : Nat) : (s.bump f n).per = s.per := rfl
@[simp] theorem State.bump_cip (f : Fld) (n : Nat) : (s.bump f n).cip = s.cip := rfl
@[simp] theorem State.bump_ctx (f : Fld) (n : Nat) : (s.bump f n).ctx = s.ctx := rfl
@[simp] theorem State.bump_tag (f : Fld) (n : Nat) : (s.bump f n).tag = s.tag := rfl
@[simp] theorem State.bump_tmp (f : Fld) (n : Nat) : (s.bump f n).tmp = s.tmp := rfl
@[simp] theorem State.bump_tab (f : Fld) (n : Nat) : (s.bump f n).tab = s.tab := rfl
@[simp] theorem State.bump_cap (f : Fld) (n : Nat) : (s.bump f n).cap = s.cap := rfl
@[simp] theorem State.bump_tx (f : Fld) (n : Nat) : (s.bump f n).tx = s.tx := rfl
@[simp] theorem State.bump_ttb (f : Fld) (n : Nat) : (s.bump f n).ttb = s.ttb := rfl
@[simp] theorem State.bump_rx (f : Fld) (n : Nat) : (s.bump f n).rx = s.rx := rfl
@[simp] theorem State.bump_coh (f : Fld) (n : Nat) : (s.bump f n).coh = s.coh := rfl
@[simp] theorem State.bump_upd (f : Fld) (n : Nat) : (s.bump f n).upd = s.upd := rfl
@[simp] theorem State.bump_boot (f : Fld) (n : Nat) : (s.bump f n).boot = s.boot := rfl
@[simp] theorem State.bump_doms (f : Fld) (n : Nat) : (s.bump f n).doms = s.doms := rfl
@[simp] theorem State.bump_bkp (f : Fld) (n : Nat) : (s.bump f n).bkp = s.bkp := rfl
@[simp] theorem State.bump_cores (f : Fld) (n : Nat) : (s.bump f n).cores = s.cores := rfl
@[simp] theorem State.bump_mem (f : Fld) (n : Nat) : (s.bump f n).mem = s.mem := rfl
@[simp] theorem State.bump_bus (f : Fld) (n : Nat) : (s.bump f n).bus = s.bus := rfl
@[simp] theorem State.bump_pins (f : Fld) (n : Nat) : (s.bump f n).pins = s.pins := rfl
@[simp] theorem State.bump_phase (f : Fld) (n : Nat) : (s.bump f n).phase = s.phase := rfl
@[simp] theorem State.bump_trace (f : Fld) (n : Nat) : (s.bump f n).trace = s.trace := rfl
@[simp] theorem State.bump_ledger (f : Fld) (n : Nat) : (s.bump f n).ledger = s.ledger := rfl
@[simp] theorem State.bump_freeCount (f : Fld) (n : Nat) : (s.bump f n).freeCount = s.freeCount := rfl
@[simp] theorem State.bump_pending (f : Fld) (n : Nat) : (s.bump f n).pending = s.pending := rfl

/-! ### setDom -/

@[simp] theorem State.setDom_clk (n : Nat) (d : DomRec) : (s.setDom n d).clk = s.clk := rfl
@[simp] theorem State.setDom_regs (n : Nat) (d : DomRec) : (s.setDom n d).regs = s.regs := rfl
@[simp] theorem State.setDom_units (n : Nat) (d : DomRec) : (s.setDom n d).units = s.units := rfl
@[simp] theorem State.setDom_env (n : Nat) (d : DomRec) : (s.setDom n d).env = s.env := rfl
@[simp] theorem State.setDom_gen (n : Nat) (d : DomRec) : (s.setDom n d).gen = s.gen := rfl
@[simp] theorem State.setDom_ring (n : Nat) (d : DomRec) : (s.setDom n d).ring = s.ring := rfl
@[simp] theorem State.setDom_mail (n : Nat) (d : DomRec) : (s.setDom n d).mail = s.mail := rfl
@[simp] theorem State.setDom_ev (n : Nat) (d : DomRec) : (s.setDom n d).ev = s.ev := rfl
@[simp] theorem State.setDom_per (n : Nat) (d : DomRec) : (s.setDom n d).per = s.per := rfl
@[simp] theorem State.setDom_cip (n : Nat) (d : DomRec) : (s.setDom n d).cip = s.cip := rfl
@[simp] theorem State.setDom_ctx (n : Nat) (d : DomRec) : (s.setDom n d).ctx = s.ctx := rfl
@[simp] theorem State.setDom_tag (n : Nat) (d : DomRec) : (s.setDom n d).tag = s.tag := rfl
@[simp] theorem State.setDom_tmp (n : Nat) (d : DomRec) : (s.setDom n d).tmp = s.tmp := rfl
@[simp] theorem State.setDom_tab (n : Nat) (d : DomRec) : (s.setDom n d).tab = s.tab := rfl
@[simp] theorem State.setDom_cap (n : Nat) (d : DomRec) : (s.setDom n d).cap = s.cap := rfl
@[simp] theorem State.setDom_tx (n : Nat) (d : DomRec) : (s.setDom n d).tx = s.tx := rfl
@[simp] theorem State.setDom_ttb (n : Nat) (d : DomRec) : (s.setDom n d).ttb = s.ttb := rfl
@[simp] theorem State.setDom_rx (n : Nat) (d : DomRec) : (s.setDom n d).rx = s.rx := rfl
@[simp] theorem State.setDom_coh (n : Nat) (d : DomRec) : (s.setDom n d).coh = s.coh := rfl
@[simp] theorem State.setDom_upd (n : Nat) (d : DomRec) : (s.setDom n d).upd = s.upd := rfl
@[simp] theorem State.setDom_boot (n : Nat) (d : DomRec) : (s.setDom n d).boot = s.boot := rfl
@[simp] theorem State.setDom_doms (n : Nat) (d : DomRec) :
    (s.setDom n d).doms = sput (fun _ => ({} : DomRec)) s.doms n d := rfl
@[simp] theorem State.setDom_bkp (n : Nat) (d : DomRec) : (s.setDom n d).bkp = s.bkp := rfl
@[simp] theorem State.setDom_cores (n : Nat) (d : DomRec) : (s.setDom n d).cores = s.cores := rfl
@[simp] theorem State.setDom_mem (n : Nat) (d : DomRec) : (s.setDom n d).mem = s.mem := rfl
@[simp] theorem State.setDom_bus (n : Nat) (d : DomRec) : (s.setDom n d).bus = s.bus := rfl
@[simp] theorem State.setDom_pins (n : Nat) (d : DomRec) : (s.setDom n d).pins = s.pins := rfl
@[simp] theorem State.setDom_phase (n : Nat) (d : DomRec) : (s.setDom n d).phase = s.phase := rfl
@[simp] theorem State.setDom_trace (n : Nat) (d : DomRec) : (s.setDom n d).trace = s.trace := rfl
@[simp] theorem State.setDom_ledger (n : Nat) (d : DomRec) : (s.setDom n d).ledger = s.ledger := rfl
@[simp] theorem State.setDom_freeCount (n : Nat) (d : DomRec) : (s.setDom n d).freeCount = s.freeCount := rfl
@[simp] theorem State.setDom_pending (n : Nat) (d : DomRec) : (s.setDom n d).pending = s.pending := rfl

/-! ### setUnit -/

@[simp] theorem State.setUnit_clk (h : Nat) (f : UnitRec → UnitRec) : (s.setUnit h f).clk = s.clk := rfl
@[simp] theorem State.setUnit_regs (h : Nat) (f : UnitRec → UnitRec) : (s.setUnit h f).regs = s.regs := rfl
@[simp] theorem State.setUnit_units (h : Nat) (f : UnitRec → UnitRec) :
    (s.setUnit h f).units = sput (fun _ => ({} : UnitRec)) s.units h (f (s.unit h)) := rfl
@[simp] theorem State.setUnit_env (h : Nat) (f : UnitRec → UnitRec) : (s.setUnit h f).env = s.env := rfl
@[simp] theorem State.setUnit_gen (h : Nat) (f : UnitRec → UnitRec) : (s.setUnit h f).gen = s.gen := rfl
@[simp] theorem State.setUnit_ring (h : Nat) (f : UnitRec → UnitRec) : (s.setUnit h f).ring = s.ring := rfl
@[simp] theorem State.setUnit_mail (h : Nat) (f : UnitRec → UnitRec) : (s.setUnit h f).mail = s.mail := rfl
@[simp] theorem State.setUnit_ev (h : Nat) (f : UnitRec → UnitRec) : (s.setUnit h f).ev = s.ev := rfl
@[simp] theorem State.setUnit_per (h : Nat) (f : UnitRec → UnitRec) : (s.setUnit h f).per = s.per := rfl
@[simp] theorem State.setUnit_cip (h : Nat) (f : UnitRec → UnitRec) : (s.setUnit h f).cip = s.cip := rfl
@[simp] theorem State.setUnit_ctx (h : Nat) (f : UnitRec → UnitRec) : (s.setUnit h f).ctx = s.ctx := rfl
@[simp] theorem State.setUnit_tag (h : Nat) (f : UnitRec → UnitRec) : (s.setUnit h f).tag = s.tag := rfl
@[simp] theorem State.setUnit_tmp (h : Nat) (f : UnitRec → UnitRec) : (s.setUnit h f).tmp = s.tmp := rfl
@[simp] theorem State.setUnit_tab (h : Nat) (f : UnitRec → UnitRec) : (s.setUnit h f).tab = s.tab := rfl
@[simp] theorem State.setUnit_cap (h : Nat) (f : UnitRec → UnitRec) : (s.setUnit h f).cap = s.cap := rfl
@[simp] theorem State.setUnit_tx (h : Nat) (f : UnitRec → UnitRec) : (s.setUnit h f).tx = s.tx := rfl
@[simp] theorem State.setUnit_ttb (h : Nat) (f : UnitRec → UnitRec) : (s.setUnit h f).ttb = s.ttb := rfl
@[simp] theorem State.setUnit_rx (h : Nat) (f : UnitRec → UnitRec) : (s.setUnit h f).rx = s.rx := rfl
@[simp] theorem State.setUnit_coh (h : Nat) (f : UnitRec → UnitRec) : (s.setUnit h f).coh = s.coh := rfl
@[simp] theorem State.setUnit_upd (h : Nat) (f : UnitRec → UnitRec) : (s.setUnit h f).upd = s.upd := rfl
@[simp] theorem State.setUnit_boot (h : Nat) (f : UnitRec → UnitRec) : (s.setUnit h f).boot = s.boot := rfl
@[simp] theorem State.setUnit_doms (h : Nat) (f : UnitRec → UnitRec) : (s.setUnit h f).doms = s.doms := rfl
@[simp] theorem State.setUnit_bkp (h : Nat) (f : UnitRec → UnitRec) : (s.setUnit h f).bkp = s.bkp := rfl
@[simp] theorem State.setUnit_cores (h : Nat) (f : UnitRec → UnitRec) : (s.setUnit h f).cores = s.cores := rfl
@[simp] theorem State.setUnit_mem (h : Nat) (f : UnitRec → UnitRec) : (s.setUnit h f).mem = s.mem := rfl
@[simp] theorem State.setUnit_bus (h : Nat) (f : UnitRec → UnitRec) : (s.setUnit h f).bus = s.bus := rfl
@[simp] theorem State.setUnit_pins (h : Nat) (f : UnitRec → UnitRec) : (s.setUnit h f).pins = s.pins := rfl
@[simp] theorem State.setUnit_phase (h : Nat) (f : UnitRec → UnitRec) : (s.setUnit h f).phase = s.phase := rfl
@[simp] theorem State.setUnit_trace (h : Nat) (f : UnitRec → UnitRec) : (s.setUnit h f).trace = s.trace := rfl
@[simp] theorem State.setUnit_ledger (h : Nat) (f : UnitRec → UnitRec) : (s.setUnit h f).ledger = s.ledger := rfl
@[simp] theorem State.setUnit_freeCount (h : Nat) (f : UnitRec → UnitRec) : (s.setUnit h f).freeCount = s.freeCount := rfl
@[simp] theorem State.setUnit_pending (h : Nat) (f : UnitRec → UnitRec) : (s.setUnit h f).pending = s.pending := rfl

/-! ### setTimer -/

@[simp] theorem State.setTimer_clk (n : Nat) (f : TimerRec → TimerRec) : (s.setTimer n f).clk = s.clk := rfl
@[simp] theorem State.setTimer_regs (n : Nat) (f : TimerRec → TimerRec) : (s.setTimer n f).regs = s.regs := rfl
@[simp] theorem State.setTimer_units (n : Nat) (f : TimerRec → TimerRec) : (s.setTimer n f).units = s.units := rfl
@[simp] theorem State.setTimer_env (n : Nat) (f : TimerRec → TimerRec) : (s.setTimer n f).env = s.env := rfl
@[simp] theorem State.setTimer_gen (n : Nat) (f : TimerRec → TimerRec) : (s.setTimer n f).gen = s.gen := rfl
@[simp] theorem State.setTimer_ring (n : Nat) (f : TimerRec → TimerRec) : (s.setTimer n f).ring = s.ring := rfl
@[simp] theorem State.setTimer_mail (n : Nat) (f : TimerRec → TimerRec) : (s.setTimer n f).mail = s.mail := rfl
@[simp] theorem State.setTimer_ev (n : Nat) (f : TimerRec → TimerRec) :
    (s.setTimer n f).ev = { s.ev with timers := sput (fun _ => ({} : TimerRec)) s.ev.timers n (f (s.timer n)) } := rfl
@[simp] theorem State.setTimer_per (n : Nat) (f : TimerRec → TimerRec) : (s.setTimer n f).per = s.per := rfl
@[simp] theorem State.setTimer_cip (n : Nat) (f : TimerRec → TimerRec) : (s.setTimer n f).cip = s.cip := rfl
@[simp] theorem State.setTimer_ctx (n : Nat) (f : TimerRec → TimerRec) : (s.setTimer n f).ctx = s.ctx := rfl
@[simp] theorem State.setTimer_tag (n : Nat) (f : TimerRec → TimerRec) : (s.setTimer n f).tag = s.tag := rfl
@[simp] theorem State.setTimer_tmp (n : Nat) (f : TimerRec → TimerRec) : (s.setTimer n f).tmp = s.tmp := rfl
@[simp] theorem State.setTimer_tab (n : Nat) (f : TimerRec → TimerRec) : (s.setTimer n f).tab = s.tab := rfl
@[simp] theorem State.setTimer_cap (n : Nat) (f : TimerRec → TimerRec) : (s.setTimer n f).cap = s.cap := rfl
@[simp] theorem State.setTimer_tx (n : Nat) (f : TimerRec → TimerRec) : (s.setTimer n f).tx = s.tx := rfl
@[simp] theorem State.setTimer_ttb (n : Nat) (f : TimerRec → TimerRec) : (s.setTimer n f).ttb = s.ttb := rfl
@[simp] theorem State.setTimer_rx (n : Nat) (f : TimerRec → TimerRec) : (s.setTimer n f).rx = s.rx := rfl
@[simp] theorem State.setTimer_coh (n : Nat) (f : TimerRec → TimerRec) : (s.setTimer n f).coh = s.coh := rfl
@[simp] theorem State.setTimer_upd (n : Nat) (f : TimerRec → TimerRec) : (s.setTimer n f).upd = s.upd := rfl
@[simp] theorem State.setTimer_boot (n : Nat) (f : TimerRec → TimerRec) : (s.setTimer n f).boot = s.boot := rfl
@[simp] theorem State.setTimer_doms (n : Nat) (f : TimerRec → TimerRec) : (s.setTimer n f).doms = s.doms := rfl
@[simp] theorem State.setTimer_bkp (n : Nat) (f : TimerRec → TimerRec) : (s.setTimer n f).bkp = s.bkp := rfl
@[simp] theorem State.setTimer_cores (n : Nat) (f : TimerRec → TimerRec) : (s.setTimer n f).cores = s.cores := rfl
@[simp] theorem State.setTimer_mem (n : Nat) (f : TimerRec → TimerRec) : (s.setTimer n f).mem = s.mem := rfl
@[simp] theorem State.setTimer_bus (n : Nat) (f : TimerRec → TimerRec) : (s.setTimer n f).bus = s.bus := rfl
@[simp] theorem State.setTimer_pins (n : Nat) (f : TimerRec → TimerRec) : (s.setTimer n f).pins = s.pins := rfl
@[simp] theorem State.setTimer_phase (n : Nat) (f : TimerRec → TimerRec) : (s.setTimer n f).phase = s.phase := rfl
@[simp] theorem State.setTimer_trace (n : Nat) (f : TimerRec → TimerRec) : (s.setTimer n f).trace = s.trace := rfl
@[simp] theorem State.setTimer_ledger (n : Nat) (f : TimerRec → TimerRec) : (s.setTimer n f).ledger = s.ledger := rfl
@[simp] theorem State.setTimer_freeCount (n : Nat) (f : TimerRec → TimerRec) : (s.setTimer n f).freeCount = s.freeCount := rfl
@[simp] theorem State.setTimer_pending (n : Nat) (f : TimerRec → TimerRec) : (s.setTimer n f).pending = s.pending := rfl

/-! ### setPort -/

@[simp] theorem State.setPort_clk (n : Nat) (f : PortRec → PortRec) : (s.setPort n f).clk = s.clk := rfl
@[simp] theorem State.setPort_regs (n : Nat) (f : PortRec → PortRec) : (s.setPort n f).regs = s.regs := rfl
@[simp] theorem State.setPort_units (n : Nat) (f : PortRec → PortRec) : (s.setPort n f).units = s.units := rfl
@[simp] theorem State.setPort_env (n : Nat) (f : PortRec → PortRec) : (s.setPort n f).env = s.env := rfl
@[simp] theorem State.setPort_gen (n : Nat) (f : PortRec → PortRec) : (s.setPort n f).gen = s.gen := rfl
@[simp] theorem State.setPort_ring (n : Nat) (f : PortRec → PortRec) : (s.setPort n f).ring = s.ring := rfl
@[simp] theorem State.setPort_mail (n : Nat) (f : PortRec → PortRec) : (s.setPort n f).mail = s.mail := rfl
@[simp] theorem State.setPort_ev (n : Nat) (f : PortRec → PortRec) : (s.setPort n f).ev = s.ev := rfl
@[simp] theorem State.setPort_per (n : Nat) (f : PortRec → PortRec) :
    (s.setPort n f).per = { s.per with ports := sput (fun _ => ({} : PortRec)) s.per.ports n (f (s.port n)) } := rfl
@[simp] theorem State.setPort_cip (n : Nat) (f : PortRec → PortRec) : (s.setPort n f).cip = s.cip := rfl
@[simp] theorem State.setPort_ctx (n : Nat) (f : PortRec → PortRec) : (s.setPort n f).ctx = s.ctx := rfl
@[simp] theorem State.setPort_tag (n : Nat) (f : PortRec → PortRec) : (s.setPort n f).tag = s.tag := rfl
@[simp] theorem State.setPort_tmp (n : Nat) (f : PortRec → PortRec) : (s.setPort n f).tmp = s.tmp := rfl
@[simp] theorem State.setPort_tab (n : Nat) (f : PortRec → PortRec) : (s.setPort n f).tab = s.tab := rfl
@[simp] theorem State.setPort_cap (n : Nat) (f : PortRec → PortRec) : (s.setPort n f).cap = s.cap := rfl
@[simp] theorem State.setPort_tx (n : Nat) (f : PortRec → PortRec) : (s.setPort n f).tx = s.tx := rfl
@[simp] theorem State.setPort_ttb (n : Nat) (f : PortRec → PortRec) : (s.setPort n f).ttb = s.ttb := rfl
@[simp] theorem State.setPort_rx (n : Nat) (f : PortRec → PortRec) : (s.setPort n f).rx = s.rx := rfl
@[simp] theorem State.setPort_coh (n : Nat) (f : PortRec → PortRec) : (s.setPort n f).coh = s.coh := rfl
@[simp] theorem State.setPort_upd (n : Nat) (f : PortRec → PortRec) : (s.setPort n f).upd = s.upd := rfl
@[simp] theorem State.setPort_boot (n : Nat) (f : PortRec → PortRec) : (s.setPort n f).boot = s.boot := rfl
@[simp] theorem State.setPort_doms (n : Nat) (f : PortRec → PortRec) : (s.setPort n f).doms = s.doms := rfl
@[simp] theorem State.setPort_bkp (n : Nat) (f : PortRec → PortRec) : (s.setPort n f).bkp = s.bkp := rfl
@[simp] theorem State.setPort_cores (n : Nat) (f : PortRec → PortRec) : (s.setPort n f).cores = s.cores := rfl
@[simp] theorem State.setPort_mem (n : Nat) (f : PortRec → PortRec) : (s.setPort n f).mem = s.mem := rfl
@[simp] theorem State.setPort_bus (n : Nat) (f : PortRec → PortRec) : (s.setPort n f).bus = s.bus := rfl
@[simp] theorem State.setPort_pins (n : Nat) (f : PortRec → PortRec) : (s.setPort n f).pins = s.pins := rfl
@[simp] theorem State.setPort_phase (n : Nat) (f : PortRec → PortRec) : (s.setPort n f).phase = s.phase := rfl
@[simp] theorem State.setPort_trace (n : Nat) (f : PortRec → PortRec) : (s.setPort n f).trace = s.trace := rfl
@[simp] theorem State.setPort_ledger (n : Nat) (f : PortRec → PortRec) : (s.setPort n f).ledger = s.ledger := rfl
@[simp] theorem State.setPort_freeCount (n : Nat) (f : PortRec → PortRec) : (s.setPort n f).freeCount = s.freeCount := rfl
@[simp] theorem State.setPort_pending (n : Nat) (f : PortRec → PortRec) : (s.setPort n f).pending = s.pending := rfl

/-! ### setCoh -/

@[simp] theorem State.setCoh_clk (f : CohState → CohState) : (s.setCoh f).clk = s.clk := rfl
@[simp] theorem State.setCoh_regs (f : CohState → CohState) : (s.setCoh f).regs = s.regs := rfl
@[simp] theorem State.setCoh_units (f : CohState → CohState) : (s.setCoh f).units = s.units := rfl
@[simp] theorem State.setCoh_env (f : CohState → CohState) : (s.setCoh f).env = s.env := rfl
@[simp] theorem State.setCoh_gen (f : CohState → CohState) : (s.setCoh f).gen = s.gen := rfl
@[simp] theorem State.setCoh_ring (f : CohState → CohState) : (s.setCoh f).ring = s.ring := rfl
@[simp] theorem State.setCoh_mail (f : CohState → CohState) : (s.setCoh f).mail = s.mail := rfl
@[simp] theorem State.setCoh_ev (f : CohState → CohState) : (s.setCoh f).ev = s.ev := rfl
@[simp] theorem State.setCoh_per (f : CohState → CohState) : (s.setCoh f).per = s.per := rfl
@[simp] theorem State.setCoh_cip (f : CohState → CohState) : (s.setCoh f).cip = s.cip := rfl
@[simp] theorem State.setCoh_ctx (f : CohState → CohState) : (s.setCoh f).ctx = s.ctx := rfl
@[simp] theorem State.setCoh_tag (f : CohState → CohState) : (s.setCoh f).tag = s.tag := rfl
@[simp] theorem State.setCoh_tmp (f : CohState → CohState) : (s.setCoh f).tmp = s.tmp := rfl
@[simp] theorem State.setCoh_tab (f : CohState → CohState) : (s.setCoh f).tab = s.tab := rfl
@[simp] theorem State.setCoh_cap (f : CohState → CohState) : (s.setCoh f).cap = s.cap := rfl
@[simp] theorem State.setCoh_tx (f : CohState → CohState) : (s.setCoh f).tx = s.tx := rfl
@[simp] theorem State.setCoh_ttb (f : CohState → CohState) : (s.setCoh f).ttb = s.ttb := rfl
@[simp] theorem State.setCoh_rx (f : CohState → CohState) : (s.setCoh f).rx = s.rx := rfl
@[simp] theorem State.setCoh_coh (f : CohState → CohState) :
    (s.setCoh f).coh = f s.coh := rfl
@[simp] theorem State.setCoh_upd (f : CohState → CohState) : (s.setCoh f).upd = s.upd := rfl
@[simp] theorem State.setCoh_boot (f : CohState → CohState) : (s.setCoh f).boot = s.boot := rfl
@[simp] theorem State.setCoh_doms (f : CohState → CohState) : (s.setCoh f).doms = s.doms := rfl
@[simp] theorem State.setCoh_bkp (f : CohState → CohState) : (s.setCoh f).bkp = s.bkp := rfl
@[simp] theorem State.setCoh_cores (f : CohState → CohState) : (s.setCoh f).cores = s.cores := rfl
@[simp] theorem State.setCoh_mem (f : CohState → CohState) : (s.setCoh f).mem = s.mem := rfl
@[simp] theorem State.setCoh_bus (f : CohState → CohState) : (s.setCoh f).bus = s.bus := rfl
@[simp] theorem State.setCoh_pins (f : CohState → CohState) : (s.setCoh f).pins = s.pins := rfl
@[simp] theorem State.setCoh_phase (f : CohState → CohState) : (s.setCoh f).phase = s.phase := rfl
@[simp] theorem State.setCoh_trace (f : CohState → CohState) : (s.setCoh f).trace = s.trace := rfl
@[simp] theorem State.setCoh_ledger (f : CohState → CohState) : (s.setCoh f).ledger = s.ledger := rfl
@[simp] theorem State.setCoh_freeCount (f : CohState → CohState) : (s.setCoh f).freeCount = s.freeCount := rfl
@[simp] theorem State.setCoh_pending (f : CohState → CohState) : (s.setCoh f).pending = s.pending := rfl

/-! ### setPoison -/

@[simp] theorem State.setPoison_clk (a : Nat) (b : Bool) : (s.setPoison a b).clk = s.clk := rfl
@[simp] theorem State.setPoison_regs (a : Nat) (b : Bool) : (s.setPoison a b).regs = s.regs := rfl
@[simp] theorem State.setPoison_units (a : Nat) (b : Bool) : (s.setPoison a b).units = s.units := rfl
@[simp] theorem State.setPoison_env (a : Nat) (b : Bool) : (s.setPoison a b).env = s.env := rfl
@[simp] theorem State.setPoison_gen (a : Nat) (b : Bool) : (s.setPoison a b).gen = s.gen := rfl
@[simp] theorem State.setPoison_ring (a : Nat) (b : Bool) : (s.setPoison a b).ring = s.ring := rfl
@[simp] theorem State.setPoison_mail (a : Nat) (b : Bool) : (s.setPoison a b).mail = s.mail := rfl
@[simp] theorem State.setPoison_ev (a : Nat) (b : Bool) : (s.setPoison a b).ev = s.ev := rfl
@[simp] theorem State.setPoison_per (a : Nat) (b : Bool) : (s.setPoison a b).per = s.per := rfl
@[simp] theorem State.setPoison_cip (a : Nat) (b : Bool) : (s.setPoison a b).cip = s.cip := rfl
@[simp] theorem State.setPoison_ctx (a : Nat) (b : Bool) : (s.setPoison a b).ctx = s.ctx := rfl
@[simp] theorem State.setPoison_tag (a : Nat) (b : Bool) : (s.setPoison a b).tag = s.tag := rfl
@[simp] theorem State.setPoison_tmp (a : Nat) (b : Bool) : (s.setPoison a b).tmp = s.tmp := rfl
@[simp] theorem State.setPoison_tab (a : Nat) (b : Bool) : (s.setPoison a b).tab = s.tab := rfl
@[simp] theorem State.setPoison_cap (a : Nat) (b : Bool) : (s.setPoison a b).cap = s.cap := rfl
@[simp] theorem State.setPoison_tx (a : Nat) (b : Bool) : (s.setPoison a b).tx = s.tx := rfl
@[simp] theorem State.setPoison_ttb (a : Nat) (b : Bool) : (s.setPoison a b).ttb = s.ttb := rfl
@[simp] theorem State.setPoison_rx (a : Nat) (b : Bool) : (s.setPoison a b).rx = s.rx := rfl
@[simp] theorem State.setPoison_coh (a : Nat) (b : Bool) : (s.setPoison a b).coh = s.coh := rfl
@[simp] theorem State.setPoison_upd (a : Nat) (b : Bool) : (s.setPoison a b).upd = s.upd := rfl
@[simp] theorem State.setPoison_boot (a : Nat) (b : Bool) : (s.setPoison a b).boot = s.boot := rfl
@[simp] theorem State.setPoison_doms (a : Nat) (b : Bool) : (s.setPoison a b).doms = s.doms := rfl
@[simp] theorem State.setPoison_bkp (a : Nat) (b : Bool) : (s.setPoison a b).bkp = s.bkp := rfl
@[simp] theorem State.setPoison_cores (a : Nat) (b : Bool) : (s.setPoison a b).cores = s.cores := rfl
@[simp] theorem State.setPoison_mem (a : Nat) (b : Bool) :
    (s.setPoison a b).mem = { s.mem with poison := sput (fun _ => false) s.mem.poison (poisonWord a) b } := rfl
@[simp] theorem State.setPoison_bus (a : Nat) (b : Bool) : (s.setPoison a b).bus = s.bus := rfl
@[simp] theorem State.setPoison_pins (a : Nat) (b : Bool) : (s.setPoison a b).pins = s.pins := rfl
@[simp] theorem State.setPoison_phase (a : Nat) (b : Bool) : (s.setPoison a b).phase = s.phase := rfl
@[simp] theorem State.setPoison_trace (a : Nat) (b : Bool) : (s.setPoison a b).trace = s.trace := rfl
@[simp] theorem State.setPoison_ledger (a : Nat) (b : Bool) : (s.setPoison a b).ledger = s.ledger := rfl
@[simp] theorem State.setPoison_freeCount (a : Nat) (b : Bool) : (s.setPoison a b).freeCount = s.freeCount := rfl
@[simp] theorem State.setPoison_pending (a : Nat) (b : Bool) : (s.setPoison a b).pending = s.pending := rfl

/-! ### forget -/

@[simp] theorem State.forget_clk (a n : Nat) : (s.forget a n).clk = s.clk := rfl
@[simp] theorem State.forget_regs (a n : Nat) : (s.forget a n).regs = s.regs := rfl
@[simp] theorem State.forget_units (a n : Nat) : (s.forget a n).units = s.units := rfl
@[simp] theorem State.forget_env (a n : Nat) : (s.forget a n).env = s.env := rfl
@[simp] theorem State.forget_gen (a n : Nat) : (s.forget a n).gen = s.gen := rfl
@[simp] theorem State.forget_ring (a n : Nat) : (s.forget a n).ring = s.ring := rfl
@[simp] theorem State.forget_mail (a n : Nat) : (s.forget a n).mail = s.mail := rfl
@[simp] theorem State.forget_ev (a n : Nat) : (s.forget a n).ev = s.ev := rfl
@[simp] theorem State.forget_per (a n : Nat) : (s.forget a n).per = s.per := rfl
@[simp] theorem State.forget_cip (a n : Nat) : (s.forget a n).cip = s.cip := rfl
@[simp] theorem State.forget_ctx (a n : Nat) : (s.forget a n).ctx = s.ctx := rfl
@[simp] theorem State.forget_tag (a n : Nat) : (s.forget a n).tag = s.tag := rfl
@[simp] theorem State.forget_tmp (a n : Nat) : (s.forget a n).tmp = s.tmp := rfl
@[simp] theorem State.forget_tab (a n : Nat) : (s.forget a n).tab = s.tab := rfl
@[simp] theorem State.forget_cap (a n : Nat) : (s.forget a n).cap = s.cap := rfl
@[simp] theorem State.forget_tx (a n : Nat) : (s.forget a n).tx = s.tx := rfl
@[simp] theorem State.forget_ttb (a n : Nat) : (s.forget a n).ttb = s.ttb := rfl
@[simp] theorem State.forget_rx (a n : Nat) : (s.forget a n).rx = s.rx := rfl
@[simp] theorem State.forget_coh (a n : Nat) : (s.forget a n).coh = s.coh := rfl
@[simp] theorem State.forget_upd (a n : Nat) : (s.forget a n).upd = s.upd := rfl
@[simp] theorem State.forget_boot (a n : Nat) : (s.forget a n).boot = s.boot := rfl
@[simp] theorem State.forget_doms (a n : Nat) : (s.forget a n).doms = s.doms := rfl
@[simp] theorem State.forget_bkp (a n : Nat) : (s.forget a n).bkp = s.bkp := rfl
@[simp] theorem State.forget_cores (a n : Nat) : (s.forget a n).cores = s.cores := rfl
@[simp] theorem State.forget_bus (a n : Nat) : (s.forget a n).bus = s.bus := rfl
@[simp] theorem State.forget_pins (a n : Nat) : (s.forget a n).pins = s.pins := rfl
@[simp] theorem State.forget_phase (a n : Nat) : (s.forget a n).phase = s.phase := rfl
@[simp] theorem State.forget_trace (a n : Nat) : (s.forget a n).trace = s.trace := rfl
@[simp] theorem State.forget_ledger (a n : Nat) : (s.forget a n).ledger = s.ledger := rfl
@[simp] theorem State.forget_freeCount (a n : Nat) : (s.forget a n).freeCount = s.freeCount := rfl
@[simp] theorem State.forget_pending (a n : Nat) : (s.forget a n).pending = s.pending := rfl

/-! ### healRange -/

@[simp] theorem State.healRange_clk (a n : Nat) : (s.healRange a n).clk = s.clk := rfl
@[simp] theorem State.healRange_regs (a n : Nat) : (s.healRange a n).regs = s.regs := rfl
@[simp] theorem State.healRange_units (a n : Nat) : (s.healRange a n).units = s.units := rfl
@[simp] theorem State.healRange_env (a n : Nat) : (s.healRange a n).env = s.env := rfl
@[simp] theorem State.healRange_gen (a n : Nat) : (s.healRange a n).gen = s.gen := rfl
@[simp] theorem State.healRange_ring (a n : Nat) : (s.healRange a n).ring = s.ring := rfl
@[simp] theorem State.healRange_mail (a n : Nat) : (s.healRange a n).mail = s.mail := rfl
@[simp] theorem State.healRange_ev (a n : Nat) : (s.healRange a n).ev = s.ev := rfl
@[simp] theorem State.healRange_per (a n : Nat) : (s.healRange a n).per = s.per := rfl
@[simp] theorem State.healRange_cip (a n : Nat) : (s.healRange a n).cip = s.cip := rfl
@[simp] theorem State.healRange_ctx (a n : Nat) : (s.healRange a n).ctx = s.ctx := rfl
@[simp] theorem State.healRange_tag (a n : Nat) : (s.healRange a n).tag = s.tag := rfl
@[simp] theorem State.healRange_tmp (a n : Nat) : (s.healRange a n).tmp = s.tmp := rfl
@[simp] theorem State.healRange_tab (a n : Nat) : (s.healRange a n).tab = s.tab := rfl
@[simp] theorem State.healRange_cap (a n : Nat) : (s.healRange a n).cap = s.cap := rfl
@[simp] theorem State.healRange_tx (a n : Nat) : (s.healRange a n).tx = s.tx := rfl
@[simp] theorem State.healRange_ttb (a n : Nat) : (s.healRange a n).ttb = s.ttb := rfl
@[simp] theorem State.healRange_rx (a n : Nat) : (s.healRange a n).rx = s.rx := rfl
@[simp] theorem State.healRange_coh (a n : Nat) : (s.healRange a n).coh = s.coh := rfl
@[simp] theorem State.healRange_upd (a n : Nat) : (s.healRange a n).upd = s.upd := rfl
@[simp] theorem State.healRange_boot (a n : Nat) : (s.healRange a n).boot = s.boot := rfl
@[simp] theorem State.healRange_doms (a n : Nat) : (s.healRange a n).doms = s.doms := rfl
@[simp] theorem State.healRange_bkp (a n : Nat) : (s.healRange a n).bkp = s.bkp := rfl
@[simp] theorem State.healRange_cores (a n : Nat) : (s.healRange a n).cores = s.cores := rfl
@[simp] theorem State.healRange_bus (a n : Nat) : (s.healRange a n).bus = s.bus := rfl
@[simp] theorem State.healRange_pins (a n : Nat) : (s.healRange a n).pins = s.pins := rfl
@[simp] theorem State.healRange_phase (a n : Nat) : (s.healRange a n).phase = s.phase := rfl
@[simp] theorem State.healRange_trace (a n : Nat) : (s.healRange a n).trace = s.trace := rfl
@[simp] theorem State.healRange_ledger (a n : Nat) : (s.healRange a n).ledger = s.ledger := rfl
@[simp] theorem State.healRange_freeCount (a n : Nat) : (s.healRange a n).freeCount = s.freeCount := rfl
@[simp] theorem State.healRange_pending (a n : Nat) : (s.healRange a n).pending = s.pending := rfl

/-! ### updWork -/

@[simp] theorem State.updWork_clk (ring idx : Nat) (f : Work → Work) : (s.updWork ring idx f).clk = s.clk := rfl
@[simp] theorem State.updWork_regs (ring idx : Nat) (f : Work → Work) : (s.updWork ring idx f).regs = s.regs := rfl
@[simp] theorem State.updWork_units (ring idx : Nat) (f : Work → Work) : (s.updWork ring idx f).units = s.units := rfl
@[simp] theorem State.updWork_env (ring idx : Nat) (f : Work → Work) : (s.updWork ring idx f).env = s.env := rfl
@[simp] theorem State.updWork_gen (ring idx : Nat) (f : Work → Work) : (s.updWork ring idx f).gen = s.gen := rfl
@[simp] theorem State.updWork_ring (ring idx : Nat) (f : Work → Work) :
    (s.updWork ring idx f).ring = { s.ring with work := s.ring.work.map fun w => if w.ring == ring && w.idx == idx then f w else w } := rfl
@[simp] theorem State.updWork_mail (ring idx : Nat) (f : Work → Work) : (s.updWork ring idx f).mail = s.mail := rfl
@[simp] theorem State.updWork_ev (ring idx : Nat) (f : Work → Work) : (s.updWork ring idx f).ev = s.ev := rfl
@[simp] theorem State.updWork_per (ring idx : Nat) (f : Work → Work) : (s.updWork ring idx f).per = s.per := rfl
@[simp] theorem State.updWork_cip (ring idx : Nat) (f : Work → Work) : (s.updWork ring idx f).cip = s.cip := rfl
@[simp] theorem State.updWork_ctx (ring idx : Nat) (f : Work → Work) : (s.updWork ring idx f).ctx = s.ctx := rfl
@[simp] theorem State.updWork_tag (ring idx : Nat) (f : Work → Work) : (s.updWork ring idx f).tag = s.tag := rfl
@[simp] theorem State.updWork_tmp (ring idx : Nat) (f : Work → Work) : (s.updWork ring idx f).tmp = s.tmp := rfl
@[simp] theorem State.updWork_tab (ring idx : Nat) (f : Work → Work) : (s.updWork ring idx f).tab = s.tab := rfl
@[simp] theorem State.updWork_cap (ring idx : Nat) (f : Work → Work) : (s.updWork ring idx f).cap = s.cap := rfl
@[simp] theorem State.updWork_tx (ring idx : Nat) (f : Work → Work) : (s.updWork ring idx f).tx = s.tx := rfl
@[simp] theorem State.updWork_ttb (ring idx : Nat) (f : Work → Work) : (s.updWork ring idx f).ttb = s.ttb := rfl
@[simp] theorem State.updWork_rx (ring idx : Nat) (f : Work → Work) : (s.updWork ring idx f).rx = s.rx := rfl
@[simp] theorem State.updWork_coh (ring idx : Nat) (f : Work → Work) : (s.updWork ring idx f).coh = s.coh := rfl
@[simp] theorem State.updWork_upd (ring idx : Nat) (f : Work → Work) : (s.updWork ring idx f).upd = s.upd := rfl
@[simp] theorem State.updWork_boot (ring idx : Nat) (f : Work → Work) : (s.updWork ring idx f).boot = s.boot := rfl
@[simp] theorem State.updWork_doms (ring idx : Nat) (f : Work → Work) : (s.updWork ring idx f).doms = s.doms := rfl
@[simp] theorem State.updWork_bkp (ring idx : Nat) (f : Work → Work) : (s.updWork ring idx f).bkp = s.bkp := rfl
@[simp] theorem State.updWork_cores (ring idx : Nat) (f : Work → Work) : (s.updWork ring idx f).cores = s.cores := rfl
@[simp] theorem State.updWork_mem (ring idx : Nat) (f : Work → Work) : (s.updWork ring idx f).mem = s.mem := rfl
@[simp] theorem State.updWork_bus (ring idx : Nat) (f : Work → Work) : (s.updWork ring idx f).bus = s.bus := rfl
@[simp] theorem State.updWork_pins (ring idx : Nat) (f : Work → Work) : (s.updWork ring idx f).pins = s.pins := rfl
@[simp] theorem State.updWork_phase (ring idx : Nat) (f : Work → Work) : (s.updWork ring idx f).phase = s.phase := rfl
@[simp] theorem State.updWork_trace (ring idx : Nat) (f : Work → Work) : (s.updWork ring idx f).trace = s.trace := rfl
@[simp] theorem State.updWork_ledger (ring idx : Nat) (f : Work → Work) : (s.updWork ring idx f).ledger = s.ledger := rfl
@[simp] theorem State.updWork_freeCount (ring idx : Nat) (f : Work → Work) : (s.updWork ring idx f).freeCount = s.freeCount := rfl
@[simp] theorem State.updWork_pending (ring idx : Nat) (f : Work → Work) : (s.updWork ring idx f).pending = s.pending := rfl

/-! ### setCtxNum -/

@[simp] theorem State.setCtxNum_clk (k off n v : Nat) : (s.setCtxNum k off n v).clk = s.clk := rfl
@[simp] theorem State.setCtxNum_regs (k off n v : Nat) : (s.setCtxNum k off n v).regs = s.regs := rfl
@[simp] theorem State.setCtxNum_units (k off n v : Nat) : (s.setCtxNum k off n v).units = s.units := rfl
@[simp] theorem State.setCtxNum_env (k off n v : Nat) : (s.setCtxNum k off n v).env = s.env := rfl
@[simp] theorem State.setCtxNum_gen (k off n v : Nat) : (s.setCtxNum k off n v).gen = s.gen := rfl
@[simp] theorem State.setCtxNum_ring (k off n v : Nat) : (s.setCtxNum k off n v).ring = s.ring := rfl
@[simp] theorem State.setCtxNum_mail (k off n v : Nat) : (s.setCtxNum k off n v).mail = s.mail := rfl
@[simp] theorem State.setCtxNum_ev (k off n v : Nat) : (s.setCtxNum k off n v).ev = s.ev := rfl
@[simp] theorem State.setCtxNum_per (k off n v : Nat) : (s.setCtxNum k off n v).per = s.per := rfl
@[simp] theorem State.setCtxNum_cip (k off n v : Nat) : (s.setCtxNum k off n v).cip = s.cip := rfl
@[simp] theorem State.setCtxNum_ctx (k off n v : Nat) :
    (s.setCtxNum k off n v).ctx = { s.ctx with ctx := s.ctx.ctx.setNum (128 * k + off) n v } := rfl
@[simp] theorem State.setCtxNum_tag (k off n v : Nat) : (s.setCtxNum k off n v).tag = s.tag := rfl
@[simp] theorem State.setCtxNum_tmp (k off n v : Nat) : (s.setCtxNum k off n v).tmp = s.tmp := rfl
@[simp] theorem State.setCtxNum_tab (k off n v : Nat) : (s.setCtxNum k off n v).tab = s.tab := rfl
@[simp] theorem State.setCtxNum_cap (k off n v : Nat) : (s.setCtxNum k off n v).cap = s.cap := rfl
@[simp] theorem State.setCtxNum_tx (k off n v : Nat) : (s.setCtxNum k off n v).tx = s.tx := rfl
@[simp] theorem State.setCtxNum_ttb (k off n v : Nat) : (s.setCtxNum k off n v).ttb = s.ttb := rfl
@[simp] theorem State.setCtxNum_rx (k off n v : Nat) : (s.setCtxNum k off n v).rx = s.rx := rfl
@[simp] theorem State.setCtxNum_coh (k off n v : Nat) : (s.setCtxNum k off n v).coh = s.coh := rfl
@[simp] theorem State.setCtxNum_upd (k off n v : Nat) : (s.setCtxNum k off n v).upd = s.upd := rfl
@[simp] theorem State.setCtxNum_boot (k off n v : Nat) : (s.setCtxNum k off n v).boot = s.boot := rfl
@[simp] theorem State.setCtxNum_doms (k off n v : Nat) : (s.setCtxNum k off n v).doms = s.doms := rfl
@[simp] theorem State.setCtxNum_bkp (k off n v : Nat) : (s.setCtxNum k off n v).bkp = s.bkp := rfl
@[simp] theorem State.setCtxNum_cores (k off n v : Nat) : (s.setCtxNum k off n v).cores = s.cores := rfl
@[simp] theorem State.setCtxNum_mem (k off n v : Nat) : (s.setCtxNum k off n v).mem = s.mem := rfl
@[simp] theorem State.setCtxNum_bus (k off n v : Nat) : (s.setCtxNum k off n v).bus = s.bus := rfl
@[simp] theorem State.setCtxNum_pins (k off n v : Nat) : (s.setCtxNum k off n v).pins = s.pins := rfl
@[simp] theorem State.setCtxNum_phase (k off n v : Nat) : (s.setCtxNum k off n v).phase = s.phase := rfl
@[simp] theorem State.setCtxNum_trace (k off n v : Nat) : (s.setCtxNum k off n v).trace = s.trace := rfl
@[simp] theorem State.setCtxNum_ledger (k off n v : Nat) : (s.setCtxNum k off n v).ledger = s.ledger := rfl
@[simp] theorem State.setCtxNum_freeCount (k off n v : Nat) : (s.setCtxNum k off n v).freeCount = s.freeCount := rfl
@[simp] theorem State.setCtxNum_pending (k off n v : Nat) : (s.setCtxNum k off n v).pending = s.pending := rfl

/-! ### setCtxImage -/

@[simp] theorem State.setCtxImage_clk (k : Nat) (bs : List Byte) : (s.setCtxImage k bs).clk = s.clk := rfl
@[simp] theorem State.setCtxImage_regs (k : Nat) (bs : List Byte) : (s.setCtxImage k bs).regs = s.regs := rfl
@[simp] theorem State.setCtxImage_units (k : Nat) (bs : List Byte) : (s.setCtxImage k bs).units = s.units := rfl
@[simp] theorem State.setCtxImage_env (k : Nat) (bs : List Byte) : (s.setCtxImage k bs).env = s.env := rfl
@[simp] theorem State.setCtxImage_gen (k : Nat) (bs : List Byte) : (s.setCtxImage k bs).gen = s.gen := rfl
@[simp] theorem State.setCtxImage_ring (k : Nat) (bs : List Byte) : (s.setCtxImage k bs).ring = s.ring := rfl
@[simp] theorem State.setCtxImage_mail (k : Nat) (bs : List Byte) : (s.setCtxImage k bs).mail = s.mail := rfl
@[simp] theorem State.setCtxImage_ev (k : Nat) (bs : List Byte) : (s.setCtxImage k bs).ev = s.ev := rfl
@[simp] theorem State.setCtxImage_per (k : Nat) (bs : List Byte) : (s.setCtxImage k bs).per = s.per := rfl
@[simp] theorem State.setCtxImage_cip (k : Nat) (bs : List Byte) : (s.setCtxImage k bs).cip = s.cip := rfl
@[simp] theorem State.setCtxImage_ctx (k : Nat) (bs : List Byte) :
    (s.setCtxImage k bs).ctx = { s.ctx with ctx := s.ctx.ctx.setBytes (128 * k) bs } := rfl
@[simp] theorem State.setCtxImage_tag (k : Nat) (bs : List Byte) : (s.setCtxImage k bs).tag = s.tag := rfl
@[simp] theorem State.setCtxImage_tmp (k : Nat) (bs : List Byte) : (s.setCtxImage k bs).tmp = s.tmp := rfl
@[simp] theorem State.setCtxImage_tab (k : Nat) (bs : List Byte) : (s.setCtxImage k bs).tab = s.tab := rfl
@[simp] theorem State.setCtxImage_cap (k : Nat) (bs : List Byte) : (s.setCtxImage k bs).cap = s.cap := rfl
@[simp] theorem State.setCtxImage_tx (k : Nat) (bs : List Byte) : (s.setCtxImage k bs).tx = s.tx := rfl
@[simp] theorem State.setCtxImage_ttb (k : Nat) (bs : List Byte) : (s.setCtxImage k bs).ttb = s.ttb := rfl
@[simp] theorem State.setCtxImage_rx (k : Nat) (bs : List Byte) : (s.setCtxImage k bs).rx = s.rx := rfl
@[simp] theorem State.setCtxImage_coh (k : Nat) (bs : List Byte) : (s.setCtxImage k bs).coh = s.coh := rfl
@[simp] theorem State.setCtxImage_upd (k : Nat) (bs : List Byte) : (s.setCtxImage k bs).upd = s.upd := rfl
@[simp] theorem State.setCtxImage_boot (k : Nat) (bs : List Byte) : (s.setCtxImage k bs).boot = s.boot := rfl
@[simp] theorem State.setCtxImage_doms (k : Nat) (bs : List Byte) : (s.setCtxImage k bs).doms = s.doms := rfl
@[simp] theorem State.setCtxImage_bkp (k : Nat) (bs : List Byte) : (s.setCtxImage k bs).bkp = s.bkp := rfl
@[simp] theorem State.setCtxImage_cores (k : Nat) (bs : List Byte) : (s.setCtxImage k bs).cores = s.cores := rfl
@[simp] theorem State.setCtxImage_mem (k : Nat) (bs : List Byte) : (s.setCtxImage k bs).mem = s.mem := rfl
@[simp] theorem State.setCtxImage_bus (k : Nat) (bs : List Byte) : (s.setCtxImage k bs).bus = s.bus := rfl
@[simp] theorem State.setCtxImage_pins (k : Nat) (bs : List Byte) : (s.setCtxImage k bs).pins = s.pins := rfl
@[simp] theorem State.setCtxImage_phase (k : Nat) (bs : List Byte) : (s.setCtxImage k bs).phase = s.phase := rfl
@[simp] theorem State.setCtxImage_trace (k : Nat) (bs : List Byte) : (s.setCtxImage k bs).trace = s.trace := rfl
@[simp] theorem State.setCtxImage_ledger (k : Nat) (bs : List Byte) : (s.setCtxImage k bs).ledger = s.ledger := rfl
@[simp] theorem State.setCtxImage_freeCount (k : Nat) (bs : List Byte) : (s.setCtxImage k bs).freeCount = s.freeCount := rfl
@[simp] theorem State.setCtxImage_pending (k : Nat) (bs : List Byte) : (s.setCtxImage k bs).pending = s.pending := rfl

/-! ### setCore -/

@[simp] theorem State.setCore_clk (p : Nat) (c : CoreState) : (s.setCore p c).clk = s.clk := rfl
@[simp] theorem State.setCore_regs (p : Nat) (c : CoreState) : (s.setCore p c).regs = s.regs := rfl
@[simp] theorem State.setCore_units (p : Nat) (c : CoreState) : (s.setCore p c).units = s.units := rfl
@[simp] theorem State.setCore_env (p : Nat) (c : CoreState) : (s.setCore p c).env = s.env := rfl
@[simp] theorem State.setCore_gen (p : Nat) (c : CoreState) : (s.setCore p c).gen = s.gen := rfl
@[simp] theorem State.setCore_ring (p : Nat) (c : CoreState) : (s.setCore p c).ring = s.ring := rfl
@[simp] theorem State.setCore_mail (p : Nat) (c : CoreState) : (s.setCore p c).mail = s.mail := rfl
@[simp] theorem State.setCore_ev (p : Nat) (c : CoreState) : (s.setCore p c).ev = s.ev := rfl
@[simp] theorem State.setCore_per (p : Nat) (c : CoreState) : (s.setCore p c).per = s.per := rfl
@[simp] theorem State.setCore_cip (p : Nat) (c : CoreState) : (s.setCore p c).cip = s.cip := rfl
@[simp] theorem State.setCore_ctx (p : Nat) (c : CoreState) : (s.setCore p c).ctx = s.ctx := rfl
@[simp] theorem State.setCore_tag (p : Nat) (c : CoreState) : (s.setCore p c).tag = s.tag := rfl
@[simp] theorem State.setCore_tmp (p : Nat) (c : CoreState) : (s.setCore p c).tmp = s.tmp := rfl
@[simp] theorem State.setCore_tab (p : Nat) (c : CoreState) : (s.setCore p c).tab = s.tab := rfl
@[simp] theorem State.setCore_cap (p : Nat) (c : CoreState) : (s.setCore p c).cap = s.cap := rfl
@[simp] theorem State.setCore_tx (p : Nat) (c : CoreState) : (s.setCore p c).tx = s.tx := rfl
@[simp] theorem State.setCore_ttb (p : Nat) (c : CoreState) : (s.setCore p c).ttb = s.ttb := rfl
@[simp] theorem State.setCore_rx (p : Nat) (c : CoreState) : (s.setCore p c).rx = s.rx := rfl
@[simp] theorem State.setCore_coh (p : Nat) (c : CoreState) : (s.setCore p c).coh = s.coh := rfl
@[simp] theorem State.setCore_upd (p : Nat) (c : CoreState) : (s.setCore p c).upd = s.upd := rfl
@[simp] theorem State.setCore_boot (p : Nat) (c : CoreState) : (s.setCore p c).boot = s.boot := rfl
@[simp] theorem State.setCore_doms (p : Nat) (c : CoreState) : (s.setCore p c).doms = s.doms := rfl
@[simp] theorem State.setCore_bkp (p : Nat) (c : CoreState) : (s.setCore p c).bkp = s.bkp := rfl
@[simp] theorem State.setCore_cores (p : Nat) (c : CoreState) :
    (s.setCore p c).cores = sput (fun _ => ({} : CoreState)) s.cores p c := rfl
@[simp] theorem State.setCore_mem (p : Nat) (c : CoreState) : (s.setCore p c).mem = s.mem := rfl
@[simp] theorem State.setCore_bus (p : Nat) (c : CoreState) : (s.setCore p c).bus = s.bus := rfl
@[simp] theorem State.setCore_pins (p : Nat) (c : CoreState) : (s.setCore p c).pins = s.pins := rfl
@[simp] theorem State.setCore_phase (p : Nat) (c : CoreState) : (s.setCore p c).phase = s.phase := rfl
@[simp] theorem State.setCore_trace (p : Nat) (c : CoreState) : (s.setCore p c).trace = s.trace := rfl
@[simp] theorem State.setCore_ledger (p : Nat) (c : CoreState) : (s.setCore p c).ledger = s.ledger := rfl
@[simp] theorem State.setCore_freeCount (p : Nat) (c : CoreState) : (s.setCore p c).freeCount = s.freeCount := rfl
@[simp] theorem State.setCore_pending (p : Nat) (c : CoreState) : (s.setCore p c).pending = s.pending := rfl

/-! ### onCore -/

@[simp] theorem State.onCore_clk (p : Nat) (f : CoreState → CoreState) : (s.onCore p f).clk = s.clk := rfl
@[simp] theorem State.onCore_regs (p : Nat) (f : CoreState → CoreState) : (s.onCore p f).regs = s.regs := rfl
@[simp] theorem State.onCore_units (p : Nat) (f : CoreState → CoreState) : (s.onCore p f).units = s.units := rfl
@[simp] theorem State.onCore_env (p : Nat) (f : CoreState → CoreState) : (s.onCore p f).env = s.env := rfl
@[simp] theorem State.onCore_gen (p : Nat) (f : CoreState → CoreState) : (s.onCore p f).gen = s.gen := rfl
@[simp] theorem State.onCore_ring (p : Nat) (f : CoreState → CoreState) : (s.onCore p f).ring = s.ring := rfl
@[simp] theorem State.onCore_mail (p : Nat) (f : CoreState → CoreState) : (s.onCore p f).mail = s.mail := rfl
@[simp] theorem State.onCore_ev (p : Nat) (f : CoreState → CoreState) : (s.onCore p f).ev = s.ev := rfl
@[simp] theorem State.onCore_per (p : Nat) (f : CoreState → CoreState) : (s.onCore p f).per = s.per := rfl
@[simp] theorem State.onCore_cip (p : Nat) (f : CoreState → CoreState) : (s.onCore p f).cip = s.cip := rfl
@[simp] theorem State.onCore_ctx (p : Nat) (f : CoreState → CoreState) : (s.onCore p f).ctx = s.ctx := rfl
@[simp] theorem State.onCore_tag (p : Nat) (f : CoreState → CoreState) : (s.onCore p f).tag = s.tag := rfl
@[simp] theorem State.onCore_tmp (p : Nat) (f : CoreState → CoreState) : (s.onCore p f).tmp = s.tmp := rfl
@[simp] theorem State.onCore_tab (p : Nat) (f : CoreState → CoreState) : (s.onCore p f).tab = s.tab := rfl
@[simp] theorem State.onCore_cap (p : Nat) (f : CoreState → CoreState) : (s.onCore p f).cap = s.cap := rfl
@[simp] theorem State.onCore_tx (p : Nat) (f : CoreState → CoreState) : (s.onCore p f).tx = s.tx := rfl
@[simp] theorem State.onCore_ttb (p : Nat) (f : CoreState → CoreState) : (s.onCore p f).ttb = s.ttb := rfl
@[simp] theorem State.onCore_rx (p : Nat) (f : CoreState → CoreState) : (s.onCore p f).rx = s.rx := rfl
@[simp] theorem State.onCore_coh (p : Nat) (f : CoreState → CoreState) : (s.onCore p f).coh = s.coh := rfl
@[simp] theorem State.onCore_upd (p : Nat) (f : CoreState → CoreState) : (s.onCore p f).upd = s.upd := rfl
@[simp] theorem State.onCore_boot (p : Nat) (f : CoreState → CoreState) : (s.onCore p f).boot = s.boot := rfl
@[simp] theorem State.onCore_doms (p : Nat) (f : CoreState → CoreState) : (s.onCore p f).doms = s.doms := rfl
@[simp] theorem State.onCore_bkp (p : Nat) (f : CoreState → CoreState) : (s.onCore p f).bkp = s.bkp := rfl
@[simp] theorem State.onCore_cores (p : Nat) (f : CoreState → CoreState) :
    (s.onCore p f).cores = (s.setCore p (f (s.core p))).cores := rfl
@[simp] theorem State.onCore_mem (p : Nat) (f : CoreState → CoreState) : (s.onCore p f).mem = s.mem := rfl
@[simp] theorem State.onCore_bus (p : Nat) (f : CoreState → CoreState) : (s.onCore p f).bus = s.bus := rfl
@[simp] theorem State.onCore_pins (p : Nat) (f : CoreState → CoreState) : (s.onCore p f).pins = s.pins := rfl
@[simp] theorem State.onCore_phase (p : Nat) (f : CoreState → CoreState) : (s.onCore p f).phase = s.phase := rfl
@[simp] theorem State.onCore_trace (p : Nat) (f : CoreState → CoreState) : (s.onCore p f).trace = s.trace := rfl
@[simp] theorem State.onCore_ledger (p : Nat) (f : CoreState → CoreState) : (s.onCore p f).ledger = s.ledger := rfl
@[simp] theorem State.onCore_freeCount (p : Nat) (f : CoreState → CoreState) : (s.onCore p f).freeCount = s.freeCount := rfl
@[simp] theorem State.onCore_pending (p : Nat) (f : CoreState → CoreState) : (s.onCore p f).pending = s.pending := rfl

/-! ### setBkp -/

@[simp] theorem State.setBkp_clk (x : BackupState) : (s.setBkp x).clk = s.clk := rfl
@[simp] theorem State.setBkp_regs (x : BackupState) : (s.setBkp x).regs = s.regs := rfl
@[simp] theorem State.setBkp_units (x : BackupState) : (s.setBkp x).units = s.units := rfl
@[simp] theorem State.setBkp_env (x : BackupState) : (s.setBkp x).env = s.env := rfl
@[simp] theorem State.setBkp_gen (x : BackupState) : (s.setBkp x).gen = s.gen := rfl
@[simp] theorem State.setBkp_ring (x : BackupState) : (s.setBkp x).ring = s.ring := rfl
@[simp] theorem State.setBkp_mail (x : BackupState) : (s.setBkp x).mail = s.mail := rfl
@[simp] theorem State.setBkp_ev (x : BackupState) : (s.setBkp x).ev = s.ev := rfl
@[simp] theorem State.setBkp_per (x : BackupState) : (s.setBkp x).per = s.per := rfl
@[simp] theorem State.setBkp_cip (x : BackupState) : (s.setBkp x).cip = s.cip := rfl
@[simp] theorem State.setBkp_ctx (x : BackupState) : (s.setBkp x).ctx = s.ctx := rfl
@[simp] theorem State.setBkp_tag (x : BackupState) : (s.setBkp x).tag = s.tag := rfl
@[simp] theorem State.setBkp_tmp (x : BackupState) : (s.setBkp x).tmp = s.tmp := rfl
@[simp] theorem State.setBkp_tab (x : BackupState) : (s.setBkp x).tab = s.tab := rfl
@[simp] theorem State.setBkp_cap (x : BackupState) : (s.setBkp x).cap = s.cap := rfl
@[simp] theorem State.setBkp_tx (x : BackupState) : (s.setBkp x).tx = s.tx := rfl
@[simp] theorem State.setBkp_ttb (x : BackupState) : (s.setBkp x).ttb = s.ttb := rfl
@[simp] theorem State.setBkp_rx (x : BackupState) : (s.setBkp x).rx = s.rx := rfl
@[simp] theorem State.setBkp_coh (x : BackupState) : (s.setBkp x).coh = s.coh := rfl
@[simp] theorem State.setBkp_upd (x : BackupState) : (s.setBkp x).upd = s.upd := rfl
@[simp] theorem State.setBkp_boot (x : BackupState) : (s.setBkp x).boot = s.boot := rfl
@[simp] theorem State.setBkp_doms (x : BackupState) : (s.setBkp x).doms = s.doms := rfl
@[simp] theorem State.setBkp_bkp (x : BackupState) :
    (s.setBkp x).bkp = x := rfl
@[simp] theorem State.setBkp_cores (x : BackupState) : (s.setBkp x).cores = s.cores := rfl
@[simp] theorem State.setBkp_mem (x : BackupState) : (s.setBkp x).mem = s.mem := rfl
@[simp] theorem State.setBkp_bus (x : BackupState) : (s.setBkp x).bus = s.bus := rfl
@[simp] theorem State.setBkp_pins (x : BackupState) : (s.setBkp x).pins = s.pins := rfl
@[simp] theorem State.setBkp_phase (x : BackupState) : (s.setBkp x).phase = s.phase := rfl
@[simp] theorem State.setBkp_trace (x : BackupState) : (s.setBkp x).trace = s.trace := rfl
@[simp] theorem State.setBkp_ledger (x : BackupState) : (s.setBkp x).ledger = s.ledger := rfl
@[simp] theorem State.setBkp_freeCount (x : BackupState) : (s.setBkp x).freeCount = s.freeCount := rfl
@[simp] theorem State.setBkp_pending (x : BackupState) : (s.setBkp x).pending = s.pending := rfl

/-! ### setCap -/

@[simp] theorem State.setCap_clk (f : CapState → CapState) : (s.setCap f).clk = s.clk := rfl
@[simp] theorem State.setCap_regs (f : CapState → CapState) : (s.setCap f).regs = s.regs := rfl
@[simp] theorem State.setCap_units (f : CapState → CapState) : (s.setCap f).units = s.units := rfl
@[simp] theorem State.setCap_env (f : CapState → CapState) : (s.setCap f).env = s.env := rfl
@[simp] theorem State.setCap_gen (f : CapState → CapState) : (s.setCap f).gen = s.gen := rfl
@[simp] theorem State.setCap_ring (f : CapState → CapState) : (s.setCap f).ring = s.ring := rfl
@[simp] theorem State.setCap_mail (f : CapState → CapState) : (s.setCap f).mail = s.mail := rfl
@[simp] theorem State.setCap_ev (f : CapState → CapState) : (s.setCap f).ev = s.ev := rfl
@[simp] theorem State.setCap_per (f : CapState → CapState) : (s.setCap f).per = s.per := rfl
@[simp] theorem State.setCap_cip (f : CapState → CapState) : (s.setCap f).cip = s.cip := rfl
@[simp] theorem State.setCap_ctx (f : CapState → CapState) : (s.setCap f).ctx = s.ctx := rfl
@[simp] theorem State.setCap_tag (f : CapState → CapState) : (s.setCap f).tag = s.tag := rfl
@[simp] theorem State.setCap_tmp (f : CapState → CapState) : (s.setCap f).tmp = s.tmp := rfl
@[simp] theorem State.setCap_tab (f : CapState → CapState) : (s.setCap f).tab = s.tab := rfl
@[simp] theorem State.setCap_cap (f : CapState → CapState) :
    (s.setCap f).cap = f s.cap := rfl
@[simp] theorem State.setCap_tx (f : CapState → CapState) : (s.setCap f).tx = s.tx := rfl
@[simp] theorem State.setCap_ttb (f : CapState → CapState) : (s.setCap f).ttb = s.ttb := rfl
@[simp] theorem State.setCap_rx (f : CapState → CapState) : (s.setCap f).rx = s.rx := rfl
@[simp] theorem State.setCap_coh (f : CapState → CapState) : (s.setCap f).coh = s.coh := rfl
@[simp] theorem State.setCap_upd (f : CapState → CapState) : (s.setCap f).upd = s.upd := rfl
@[simp] theorem State.setCap_boot (f : CapState → CapState) : (s.setCap f).boot = s.boot := rfl
@[simp] theorem State.setCap_doms (f : CapState → CapState) : (s.setCap f).doms = s.doms := rfl
@[simp] theorem State.setCap_bkp (f : CapState → CapState) : (s.setCap f).bkp = s.bkp := rfl
@[simp] theorem State.setCap_cores (f : CapState → CapState) : (s.setCap f).cores = s.cores := rfl
@[simp] theorem State.setCap_mem (f : CapState → CapState) : (s.setCap f).mem = s.mem := rfl
@[simp] theorem State.setCap_bus (f : CapState → CapState) : (s.setCap f).bus = s.bus := rfl
@[simp] theorem State.setCap_pins (f : CapState → CapState) : (s.setCap f).pins = s.pins := rfl
@[simp] theorem State.setCap_phase (f : CapState → CapState) : (s.setCap f).phase = s.phase := rfl
@[simp] theorem State.setCap_trace (f : CapState → CapState) : (s.setCap f).trace = s.trace := rfl
@[simp] theorem State.setCap_ledger (f : CapState → CapState) : (s.setCap f).ledger = s.ledger := rfl
@[simp] theorem State.setCap_freeCount (f : CapState → CapState) : (s.setCap f).freeCount = s.freeCount := rfl
@[simp] theorem State.setCap_pending (f : CapState → CapState) : (s.setCap f).pending = s.pending := rfl

/-! ### setRx -/

@[simp] theorem State.setRx_clk (f : RxState → RxState) : (s.setRx f).clk = s.clk := rfl
@[simp] theorem State.setRx_regs (f : RxState → RxState) : (s.setRx f).regs = s.regs := rfl
@[simp] theorem State.setRx_units (f : RxState → RxState) : (s.setRx f).units = s.units := rfl
@[simp] theorem State.setRx_env (f : RxState → RxState) : (s.setRx f).env = s.env := rfl
@[simp] theorem State.setRx_gen (f : RxState → RxState) : (s.setRx f).gen = s.gen := rfl
@[simp] theorem State.setRx_ring (f : RxState → RxState) : (s.setRx f).ring = s.ring := rfl
@[simp] theorem State.setRx_mail (f : RxState → RxState) : (s.setRx f).mail = s.mail := rfl
@[simp] theorem State.setRx_ev (f : RxState → RxState) : (s.setRx f).ev = s.ev := rfl
@[simp] theorem State.setRx_per (f : RxState → RxState) : (s.setRx f).per = s.per := rfl
@[simp] theorem State.setRx_cip (f : RxState → RxState) : (s.setRx f).cip = s.cip := rfl
@[simp] theorem State.setRx_ctx (f : RxState → RxState) : (s.setRx f).ctx = s.ctx := rfl
@[simp] theorem State.setRx_tag (f : RxState → RxState) : (s.setRx f).tag = s.tag := rfl
@[simp] theorem State.setRx_tmp (f : RxState → RxState) : (s.setRx f).tmp = s.tmp := rfl
@[simp] theorem State.setRx_tab (f : RxState → RxState) : (s.setRx f).tab = s.tab := rfl
@[simp] theorem State.setRx_cap (f : RxState → RxState) : (s.setRx f).cap = s.cap := rfl
@[simp] theorem State.setRx_tx (f : RxState → RxState) : (s.setRx f).tx = s.tx := rfl
@[simp] theorem State.setRx_ttb (f : RxState → RxState) : (s.setRx f).ttb = s.ttb := rfl
@[simp] theorem State.setRx_rx (f : RxState → RxState) :
    (s.setRx f).rx = f s.rx := rfl
@[simp] theorem State.setRx_coh (f : RxState → RxState) : (s.setRx f).coh = s.coh := rfl
@[simp] theorem State.setRx_upd (f : RxState → RxState) : (s.setRx f).upd = s.upd := rfl
@[simp] theorem State.setRx_boot (f : RxState → RxState) : (s.setRx f).boot = s.boot := rfl
@[simp] theorem State.setRx_doms (f : RxState → RxState) : (s.setRx f).doms = s.doms := rfl
@[simp] theorem State.setRx_bkp (f : RxState → RxState) : (s.setRx f).bkp = s.bkp := rfl
@[simp] theorem State.setRx_cores (f : RxState → RxState) : (s.setRx f).cores = s.cores := rfl
@[simp] theorem State.setRx_mem (f : RxState → RxState) : (s.setRx f).mem = s.mem := rfl
@[simp] theorem State.setRx_bus (f : RxState → RxState) : (s.setRx f).bus = s.bus := rfl
@[simp] theorem State.setRx_pins (f : RxState → RxState) : (s.setRx f).pins = s.pins := rfl
@[simp] theorem State.setRx_phase (f : RxState → RxState) : (s.setRx f).phase = s.phase := rfl
@[simp] theorem State.setRx_trace (f : RxState → RxState) : (s.setRx f).trace = s.trace := rfl
@[simp] theorem State.setRx_ledger (f : RxState → RxState) : (s.setRx f).ledger = s.ledger := rfl
@[simp] theorem State.setRx_freeCount (f : RxState → RxState) : (s.setRx f).freeCount = s.freeCount := rfl
@[simp] theorem State.setRx_pending (f : RxState → RxState) : (s.setRx f).pending = s.pending := rfl

/-! ### setTrace -/

@[simp] theorem State.setTrace_clk (f : TraceState → TraceState) : (s.setTrace f).clk = s.clk := rfl
@[simp] theorem State.setTrace_regs (f : TraceState → TraceState) : (s.setTrace f).regs = s.regs := rfl
@[simp] theorem State.setTrace_units (f : TraceState → TraceState) : (s.setTrace f).units = s.units := rfl
@[simp] theorem State.setTrace_env (f : TraceState → TraceState) : (s.setTrace f).env = s.env := rfl
@[simp] theorem State.setTrace_gen (f : TraceState → TraceState) : (s.setTrace f).gen = s.gen := rfl
@[simp] theorem State.setTrace_ring (f : TraceState → TraceState) : (s.setTrace f).ring = s.ring := rfl
@[simp] theorem State.setTrace_mail (f : TraceState → TraceState) : (s.setTrace f).mail = s.mail := rfl
@[simp] theorem State.setTrace_ev (f : TraceState → TraceState) : (s.setTrace f).ev = s.ev := rfl
@[simp] theorem State.setTrace_per (f : TraceState → TraceState) : (s.setTrace f).per = s.per := rfl
@[simp] theorem State.setTrace_cip (f : TraceState → TraceState) : (s.setTrace f).cip = s.cip := rfl
@[simp] theorem State.setTrace_ctx (f : TraceState → TraceState) : (s.setTrace f).ctx = s.ctx := rfl
@[simp] theorem State.setTrace_tag (f : TraceState → TraceState) : (s.setTrace f).tag = s.tag := rfl
@[simp] theorem State.setTrace_tmp (f : TraceState → TraceState) : (s.setTrace f).tmp = s.tmp := rfl
@[simp] theorem State.setTrace_tab (f : TraceState → TraceState) : (s.setTrace f).tab = s.tab := rfl
@[simp] theorem State.setTrace_cap (f : TraceState → TraceState) : (s.setTrace f).cap = s.cap := rfl
@[simp] theorem State.setTrace_tx (f : TraceState → TraceState) : (s.setTrace f).tx = s.tx := rfl
@[simp] theorem State.setTrace_ttb (f : TraceState → TraceState) : (s.setTrace f).ttb = s.ttb := rfl
@[simp] theorem State.setTrace_rx (f : TraceState → TraceState) : (s.setTrace f).rx = s.rx := rfl
@[simp] theorem State.setTrace_coh (f : TraceState → TraceState) : (s.setTrace f).coh = s.coh := rfl
@[simp] theorem State.setTrace_upd (f : TraceState → TraceState) : (s.setTrace f).upd = s.upd := rfl
@[simp] theorem State.setTrace_boot (f : TraceState → TraceState) : (s.setTrace f).boot = s.boot := rfl
@[simp] theorem State.setTrace_doms (f : TraceState → TraceState) : (s.setTrace f).doms = s.doms := rfl
@[simp] theorem State.setTrace_bkp (f : TraceState → TraceState) : (s.setTrace f).bkp = s.bkp := rfl
@[simp] theorem State.setTrace_cores (f : TraceState → TraceState) : (s.setTrace f).cores = s.cores := rfl
@[simp] theorem State.setTrace_mem (f : TraceState → TraceState) : (s.setTrace f).mem = s.mem := rfl
@[simp] theorem State.setTrace_bus (f : TraceState → TraceState) : (s.setTrace f).bus = s.bus := rfl
@[simp] theorem State.setTrace_pins (f : TraceState → TraceState) : (s.setTrace f).pins = s.pins := rfl
@[simp] theorem State.setTrace_phase (f : TraceState → TraceState) : (s.setTrace f).phase = s.phase := rfl
@[simp] theorem State.setTrace_trace (f : TraceState → TraceState) :
    (s.setTrace f).trace = f s.trace := rfl
@[simp] theorem State.setTrace_ledger (f : TraceState → TraceState) : (s.setTrace f).ledger = s.ledger := rfl
@[simp] theorem State.setTrace_freeCount (f : TraceState → TraceState) : (s.setTrace f).freeCount = s.freeCount := rfl
@[simp] theorem State.setTrace_pending (f : TraceState → TraceState) : (s.setTrace f).pending = s.pending := rfl

/-! ### setLedger -/

@[simp] theorem State.setLedger_clk (f : LedgerState → LedgerState) : (s.setLedger f).clk = s.clk := rfl
@[simp] theorem State.setLedger_regs (f : LedgerState → LedgerState) : (s.setLedger f).regs = s.regs := rfl
@[simp] theorem State.setLedger_units (f : LedgerState → LedgerState) : (s.setLedger f).units = s.units := rfl
@[simp] theorem State.setLedger_env (f : LedgerState → LedgerState) : (s.setLedger f).env = s.env := rfl
@[simp] theorem State.setLedger_gen (f : LedgerState → LedgerState) : (s.setLedger f).gen = s.gen := rfl
@[simp] theorem State.setLedger_ring (f : LedgerState → LedgerState) : (s.setLedger f).ring = s.ring := rfl
@[simp] theorem State.setLedger_mail (f : LedgerState → LedgerState) : (s.setLedger f).mail = s.mail := rfl
@[simp] theorem State.setLedger_ev (f : LedgerState → LedgerState) : (s.setLedger f).ev = s.ev := rfl
@[simp] theorem State.setLedger_per (f : LedgerState → LedgerState) : (s.setLedger f).per = s.per := rfl
@[simp] theorem State.setLedger_cip (f : LedgerState → LedgerState) : (s.setLedger f).cip = s.cip := rfl
@[simp] theorem State.setLedger_ctx (f : LedgerState → LedgerState) : (s.setLedger f).ctx = s.ctx := rfl
@[simp] theorem State.setLedger_tag (f : LedgerState → LedgerState) : (s.setLedger f).tag = s.tag := rfl
@[simp] theorem State.setLedger_tmp (f : LedgerState → LedgerState) : (s.setLedger f).tmp = s.tmp := rfl
@[simp] theorem State.setLedger_tab (f : LedgerState → LedgerState) : (s.setLedger f).tab = s.tab := rfl
@[simp] theorem State.setLedger_cap (f : LedgerState → LedgerState) : (s.setLedger f).cap = s.cap := rfl
@[simp] theorem State.setLedger_tx (f : LedgerState → LedgerState) : (s.setLedger f).tx = s.tx := rfl
@[simp] theorem State.setLedger_ttb (f : LedgerState → LedgerState) : (s.setLedger f).ttb = s.ttb := rfl
@[simp] theorem State.setLedger_rx (f : LedgerState → LedgerState) : (s.setLedger f).rx = s.rx := rfl
@[simp] theorem State.setLedger_coh (f : LedgerState → LedgerState) : (s.setLedger f).coh = s.coh := rfl
@[simp] theorem State.setLedger_upd (f : LedgerState → LedgerState) : (s.setLedger f).upd = s.upd := rfl
@[simp] theorem State.setLedger_boot (f : LedgerState → LedgerState) : (s.setLedger f).boot = s.boot := rfl
@[simp] theorem State.setLedger_doms (f : LedgerState → LedgerState) : (s.setLedger f).doms = s.doms := rfl
@[simp] theorem State.setLedger_bkp (f : LedgerState → LedgerState) : (s.setLedger f).bkp = s.bkp := rfl
@[simp] theorem State.setLedger_cores (f : LedgerState → LedgerState) : (s.setLedger f).cores = s.cores := rfl
@[simp] theorem State.setLedger_mem (f : LedgerState → LedgerState) : (s.setLedger f).mem = s.mem := rfl
@[simp] theorem State.setLedger_bus (f : LedgerState → LedgerState) : (s.setLedger f).bus = s.bus := rfl
@[simp] theorem State.setLedger_pins (f : LedgerState → LedgerState) : (s.setLedger f).pins = s.pins := rfl
@[simp] theorem State.setLedger_phase (f : LedgerState → LedgerState) : (s.setLedger f).phase = s.phase := rfl
@[simp] theorem State.setLedger_trace (f : LedgerState → LedgerState) : (s.setLedger f).trace = s.trace := rfl
@[simp] theorem State.setLedger_ledger (f : LedgerState → LedgerState) :
    (s.setLedger f).ledger = f s.ledger := rfl
@[simp] theorem State.setLedger_freeCount (f : LedgerState → LedgerState) : (s.setLedger f).freeCount = s.freeCount := rfl
@[simp] theorem State.setLedger_pending (f : LedgerState → LedgerState) : (s.setLedger f).pending = s.pending := rfl

/-! ### setDali -/

@[simp] theorem State.setDali_clk (x : DaliState) : (s.setDali x).clk = s.clk := rfl
@[simp] theorem State.setDali_regs (x : DaliState) : (s.setDali x).regs = s.regs := rfl
@[simp] theorem State.setDali_units (x : DaliState) : (s.setDali x).units = s.units := rfl
@[simp] theorem State.setDali_env (x : DaliState) : (s.setDali x).env = s.env := rfl
@[simp] theorem State.setDali_gen (x : DaliState) : (s.setDali x).gen = s.gen := rfl
@[simp] theorem State.setDali_ring (x : DaliState) : (s.setDali x).ring = s.ring := rfl
@[simp] theorem State.setDali_mail (x : DaliState) : (s.setDali x).mail = s.mail := rfl
@[simp] theorem State.setDali_ev (x : DaliState) : (s.setDali x).ev = s.ev := rfl
@[simp] theorem State.setDali_per (x : DaliState) :
    (s.setDali x).per = { s.per with dali := x } := rfl
@[simp] theorem State.setDali_cip (x : DaliState) : (s.setDali x).cip = s.cip := rfl
@[simp] theorem State.setDali_ctx (x : DaliState) : (s.setDali x).ctx = s.ctx := rfl
@[simp] theorem State.setDali_tag (x : DaliState) : (s.setDali x).tag = s.tag := rfl
@[simp] theorem State.setDali_tmp (x : DaliState) : (s.setDali x).tmp = s.tmp := rfl
@[simp] theorem State.setDali_tab (x : DaliState) : (s.setDali x).tab = s.tab := rfl
@[simp] theorem State.setDali_cap (x : DaliState) : (s.setDali x).cap = s.cap := rfl
@[simp] theorem State.setDali_tx (x : DaliState) : (s.setDali x).tx = s.tx := rfl
@[simp] theorem State.setDali_ttb (x : DaliState) : (s.setDali x).ttb = s.ttb := rfl
@[simp] theorem State.setDali_rx (x : DaliState) : (s.setDali x).rx = s.rx := rfl
@[simp] theorem State.setDali_coh (x : DaliState) : (s.setDali x).coh = s.coh := rfl
@[simp] theorem State.setDali_upd (x : DaliState) : (s.setDali x).upd = s.upd := rfl
@[simp] theorem State.setDali_boot (x : DaliState) : (s.setDali x).boot = s.boot := rfl
@[simp] theorem State.setDali_doms (x : DaliState) : (s.setDali x).doms = s.doms := rfl
@[simp] theorem State.setDali_bkp (x : DaliState) : (s.setDali x).bkp = s.bkp := rfl
@[simp] theorem State.setDali_cores (x : DaliState) : (s.setDali x).cores = s.cores := rfl
@[simp] theorem State.setDali_mem (x : DaliState) : (s.setDali x).mem = s.mem := rfl
@[simp] theorem State.setDali_bus (x : DaliState) : (s.setDali x).bus = s.bus := rfl
@[simp] theorem State.setDali_pins (x : DaliState) : (s.setDali x).pins = s.pins := rfl
@[simp] theorem State.setDali_phase (x : DaliState) : (s.setDali x).phase = s.phase := rfl
@[simp] theorem State.setDali_trace (x : DaliState) : (s.setDali x).trace = s.trace := rfl
@[simp] theorem State.setDali_ledger (x : DaliState) : (s.setDali x).ledger = s.ledger := rfl
@[simp] theorem State.setDali_freeCount (x : DaliState) : (s.setDali x).freeCount = s.freeCount := rfl
@[simp] theorem State.setDali_pending (x : DaliState) : (s.setDali x).pending = s.pending := rfl

/-! ### setDim -/

@[simp] theorem State.setDim_clk (x : DimState) : (s.setDim x).clk = s.clk := rfl
@[simp] theorem State.setDim_regs (x : DimState) : (s.setDim x).regs = s.regs := rfl
@[simp] theorem State.setDim_units (x : DimState) : (s.setDim x).units = s.units := rfl
@[simp] theorem State.setDim_env (x : DimState) : (s.setDim x).env = s.env := rfl
@[simp] theorem State.setDim_gen (x : DimState) : (s.setDim x).gen = s.gen := rfl
@[simp] theorem State.setDim_ring (x : DimState) : (s.setDim x).ring = s.ring := rfl
@[simp] theorem State.setDim_mail (x : DimState) : (s.setDim x).mail = s.mail := rfl
@[simp] theorem State.setDim_ev (x : DimState) : (s.setDim x).ev = s.ev := rfl
@[simp] theorem State.setDim_per (x : DimState) :
    (s.setDim x).per = { s.per with dim := x } := rfl
@[simp] theorem State.setDim_cip (x : DimState) : (s.setDim x).cip = s.cip := rfl
@[simp] theorem State.setDim_ctx (x : DimState) : (s.setDim x).ctx = s.ctx := rfl
@[simp] theorem State.setDim_tag (x : DimState) : (s.setDim x).tag = s.tag := rfl
@[simp] theorem State.setDim_tmp (x : DimState) : (s.setDim x).tmp = s.tmp := rfl
@[simp] theorem State.setDim_tab (x : DimState) : (s.setDim x).tab = s.tab := rfl
@[simp] theorem State.setDim_cap (x : DimState) : (s.setDim x).cap = s.cap := rfl
@[simp] theorem State.setDim_tx (x : DimState) : (s.setDim x).tx = s.tx := rfl
@[simp] theorem State.setDim_ttb (x : DimState) : (s.setDim x).ttb = s.ttb := rfl
@[simp] theorem State.setDim_rx (x : DimState) : (s.setDim x).rx = s.rx := rfl
@[simp] theorem State.setDim_coh (x : DimState) : (s.setDim x).coh = s.coh := rfl
@[simp] theorem State.setDim_upd (x : DimState) : (s.setDim x).upd = s.upd := rfl
@[simp] theorem State.setDim_boot (x : DimState) : (s.setDim x).boot = s.boot := rfl
@[simp] theorem State.setDim_doms (x : DimState) : (s.setDim x).doms = s.doms := rfl
@[simp] theorem State.setDim_bkp (x : DimState) : (s.setDim x).bkp = s.bkp := rfl
@[simp] theorem State.setDim_cores (x : DimState) : (s.setDim x).cores = s.cores := rfl
@[simp] theorem State.setDim_mem (x : DimState) : (s.setDim x).mem = s.mem := rfl
@[simp] theorem State.setDim_bus (x : DimState) : (s.setDim x).bus = s.bus := rfl
@[simp] theorem State.setDim_pins (x : DimState) : (s.setDim x).pins = s.pins := rfl
@[simp] theorem State.setDim_phase (x : DimState) : (s.setDim x).phase = s.phase := rfl
@[simp] theorem State.setDim_trace (x : DimState) : (s.setDim x).trace = s.trace := rfl
@[simp] theorem State.setDim_ledger (x : DimState) : (s.setDim x).ledger = s.ledger := rfl
@[simp] theorem State.setDim_freeCount (x : DimState) : (s.setDim x).freeCount = s.freeCount := rfl
@[simp] theorem State.setDim_pending (x : DimState) : (s.setDim x).pending = s.pending := rfl

/-! ### setMem -/

@[simp] theorem State.setMem_clk (f : MemState → MemState) : (s.setMem f).clk = s.clk := rfl
@[simp] theorem State.setMem_regs (f : MemState → MemState) : (s.setMem f).regs = s.regs := rfl
@[simp] theorem State.setMem_units (f : MemState → MemState) : (s.setMem f).units = s.units := rfl
@[simp] theorem State.setMem_env (f : MemState → MemState) : (s.setMem f).env = s.env := rfl
@[simp] theorem State.setMem_gen (f : MemState → MemState) : (s.setMem f).gen = s.gen := rfl
@[simp] theorem State.setMem_ring (f : MemState → MemState) : (s.setMem f).ring = s.ring := rfl
@[simp] theorem State.setMem_mail (f : MemState → MemState) : (s.setMem f).mail = s.mail := rfl
@[simp] theorem State.setMem_ev (f : MemState → MemState) : (s.setMem f).ev = s.ev := rfl
@[simp] theorem State.setMem_per (f : MemState → MemState) : (s.setMem f).per = s.per := rfl
@[simp] theorem State.setMem_cip (f : MemState → MemState) : (s.setMem f).cip = s.cip := rfl
@[simp] theorem State.setMem_ctx (f : MemState → MemState) : (s.setMem f).ctx = s.ctx := rfl
@[simp] theorem State.setMem_tag (f : MemState → MemState) : (s.setMem f).tag = s.tag := rfl
@[simp] theorem State.setMem_tmp (f : MemState → MemState) : (s.setMem f).tmp = s.tmp := rfl
@[simp] theorem State.setMem_tab (f : MemState → MemState) : (s.setMem f).tab = s.tab := rfl
@[simp] theorem State.setMem_cap (f : MemState → MemState) : (s.setMem f).cap = s.cap := rfl
@[simp] theorem State.setMem_tx (f : MemState → MemState) : (s.setMem f).tx = s.tx := rfl
@[simp] theorem State.setMem_ttb (f : MemState → MemState) : (s.setMem f).ttb = s.ttb := rfl
@[simp] theorem State.setMem_rx (f : MemState → MemState) : (s.setMem f).rx = s.rx := rfl
@[simp] theorem State.setMem_coh (f : MemState → MemState) : (s.setMem f).coh = s.coh := rfl
@[simp] theorem State.setMem_upd (f : MemState → MemState) : (s.setMem f).upd = s.upd := rfl
@[simp] theorem State.setMem_boot (f : MemState → MemState) : (s.setMem f).boot = s.boot := rfl
@[simp] theorem State.setMem_doms (f : MemState → MemState) : (s.setMem f).doms = s.doms := rfl
@[simp] theorem State.setMem_bkp (f : MemState → MemState) : (s.setMem f).bkp = s.bkp := rfl
@[simp] theorem State.setMem_cores (f : MemState → MemState) : (s.setMem f).cores = s.cores := rfl
@[simp] theorem State.setMem_mem (f : MemState → MemState) :
    (s.setMem f).mem = f s.mem := rfl
@[simp] theorem State.setMem_bus (f : MemState → MemState) : (s.setMem f).bus = s.bus := rfl
@[simp] theorem State.setMem_pins (f : MemState → MemState) : (s.setMem f).pins = s.pins := rfl
@[simp] theorem State.setMem_phase (f : MemState → MemState) : (s.setMem f).phase = s.phase := rfl
@[simp] theorem State.setMem_trace (f : MemState → MemState) : (s.setMem f).trace = s.trace := rfl
@[simp] theorem State.setMem_ledger (f : MemState → MemState) : (s.setMem f).ledger = s.ledger := rfl
@[simp] theorem State.setMem_freeCount (f : MemState → MemState) : (s.setMem f).freeCount = s.freeCount := rfl
@[simp] theorem State.setMem_pending (f : MemState → MemState) : (s.setMem f).pending = s.pending := rfl

/-! ### setTag -/

@[simp] theorem State.setTag_clk (x : TagState) : (s.setTag x).clk = s.clk := rfl
@[simp] theorem State.setTag_regs (x : TagState) : (s.setTag x).regs = s.regs := rfl
@[simp] theorem State.setTag_units (x : TagState) : (s.setTag x).units = s.units := rfl
@[simp] theorem State.setTag_env (x : TagState) : (s.setTag x).env = s.env := rfl
@[simp] theorem State.setTag_gen (x : TagState) : (s.setTag x).gen = s.gen := rfl
@[simp] theorem State.setTag_ring (x : TagState) : (s.setTag x).ring = s.ring := rfl
@[simp] theorem State.setTag_mail (x : TagState) : (s.setTag x).mail = s.mail := rfl
@[simp] theorem State.setTag_ev (x : TagState) : (s.setTag x).ev = s.ev := rfl
@[simp] theorem State.setTag_per (x : TagState) : (s.setTag x).per = s.per := rfl
@[simp] theorem State.setTag_cip (x : TagState) : (s.setTag x).cip = s.cip := rfl
@[simp] theorem State.setTag_ctx (x : TagState) : (s.setTag x).ctx = s.ctx := rfl
@[simp] theorem State.setTag_tag (x : TagState) :
    (s.setTag x).tag = x := rfl
@[simp] theorem State.setTag_tmp (x : TagState) : (s.setTag x).tmp = s.tmp := rfl
@[simp] theorem State.setTag_tab (x : TagState) : (s.setTag x).tab = s.tab := rfl
@[simp] theorem State.setTag_cap (x : TagState) : (s.setTag x).cap = s.cap := rfl
@[simp] theorem State.setTag_tx (x : TagState) : (s.setTag x).tx = s.tx := rfl
@[simp] theorem State.setTag_ttb (x : TagState) : (s.setTag x).ttb = s.ttb := rfl
@[simp] theorem State.setTag_rx (x : TagState) : (s.setTag x).rx = s.rx := rfl
@[simp] theorem State.setTag_coh (x : TagState) : (s.setTag x).coh = s.coh := rfl
@[simp] theorem State.setTag_upd (x : TagState) : (s.setTag x).upd = s.upd := rfl
@[simp] theorem State.setTag_boot (x : TagState) : (s.setTag x).boot = s.boot := rfl
@[simp] theorem State.setTag_doms (x : TagState) : (s.setTag x).doms = s.doms := rfl
@[simp] theorem State.setTag_bkp (x : TagState) : (s.setTag x).bkp = s.bkp := rfl
@[simp] theorem State.setTag_cores (x : TagState) : (s.setTag x).cores = s.cores := rfl
@[simp] theorem State.setTag_mem (x : TagState) : (s.setTag x).mem = s.mem := rfl
@[simp] theorem State.setTag_bus (x : TagState) : (s.setTag x).bus = s.bus := rfl
@[simp] theorem State.setTag_pins (x : TagState) : (s.setTag x).pins = s.pins := rfl
@[simp] theorem State.setTag_phase (x : TagState) : (s.setTag x).phase = s.phase := rfl
@[simp] theorem State.setTag_trace (x : TagState) : (s.setTag x).trace = s.trace := rfl
@[simp] theorem State.setTag_ledger (x : TagState) : (s.setTag x).ledger = s.ledger := rfl
@[simp] theorem State.setTag_freeCount (x : TagState) : (s.setTag x).freeCount = s.freeCount := rfl
@[simp] theorem State.setTag_pending (x : TagState) : (s.setTag x).pending = s.pending := rfl

/-! ### setTmp -/

@[simp] theorem State.setTmp_clk (f : TempoState → TempoState) : (s.setTmp f).clk = s.clk := rfl
@[simp] theorem State.setTmp_regs (f : TempoState → TempoState) : (s.setTmp f).regs = s.regs := rfl
@[simp] theorem State.setTmp_units (f : TempoState → TempoState) : (s.setTmp f).units = s.units := rfl
@[simp] theorem State.setTmp_env (f : TempoState → TempoState) : (s.setTmp f).env = s.env := rfl
@[simp] theorem State.setTmp_gen (f : TempoState → TempoState) : (s.setTmp f).gen = s.gen := rfl
@[simp] theorem State.setTmp_ring (f : TempoState → TempoState) : (s.setTmp f).ring = s.ring := rfl
@[simp] theorem State.setTmp_mail (f : TempoState → TempoState) : (s.setTmp f).mail = s.mail := rfl
@[simp] theorem State.setTmp_ev (f : TempoState → TempoState) : (s.setTmp f).ev = s.ev := rfl
@[simp] theorem State.setTmp_per (f : TempoState → TempoState) : (s.setTmp f).per = s.per := rfl
@[simp] theorem State.setTmp_cip (f : TempoState → TempoState) : (s.setTmp f).cip = s.cip := rfl
@[simp] theorem State.setTmp_ctx (f : TempoState → TempoState) : (s.setTmp f).ctx = s.ctx := rfl
@[simp] theorem State.setTmp_tag (f : TempoState → TempoState) : (s.setTmp f).tag = s.tag := rfl
@[simp] theorem State.setTmp_tmp (f : TempoState → TempoState) :
    (s.setTmp f).tmp = f s.tmp := rfl
@[simp] theorem State.setTmp_tab (f : TempoState → TempoState) : (s.setTmp f).tab = s.tab := rfl
@[simp] theorem State.setTmp_cap (f : TempoState → TempoState) : (s.setTmp f).cap = s.cap := rfl
@[simp] theorem State.setTmp_tx (f : TempoState → TempoState) : (s.setTmp f).tx = s.tx := rfl
@[simp] theorem State.setTmp_ttb (f : TempoState → TempoState) : (s.setTmp f).ttb = s.ttb := rfl
@[simp] theorem State.setTmp_rx (f : TempoState → TempoState) : (s.setTmp f).rx = s.rx := rfl
@[simp] theorem State.setTmp_coh (f : TempoState → TempoState) : (s.setTmp f).coh = s.coh := rfl
@[simp] theorem State.setTmp_upd (f : TempoState → TempoState) : (s.setTmp f).upd = s.upd := rfl
@[simp] theorem State.setTmp_boot (f : TempoState → TempoState) : (s.setTmp f).boot = s.boot := rfl
@[simp] theorem State.setTmp_doms (f : TempoState → TempoState) : (s.setTmp f).doms = s.doms := rfl
@[simp] theorem State.setTmp_bkp (f : TempoState → TempoState) : (s.setTmp f).bkp = s.bkp := rfl
@[simp] theorem State.setTmp_cores (f : TempoState → TempoState) : (s.setTmp f).cores = s.cores := rfl
@[simp] theorem State.setTmp_mem (f : TempoState → TempoState) : (s.setTmp f).mem = s.mem := rfl
@[simp] theorem State.setTmp_bus (f : TempoState → TempoState) : (s.setTmp f).bus = s.bus := rfl
@[simp] theorem State.setTmp_pins (f : TempoState → TempoState) : (s.setTmp f).pins = s.pins := rfl
@[simp] theorem State.setTmp_phase (f : TempoState → TempoState) : (s.setTmp f).phase = s.phase := rfl
@[simp] theorem State.setTmp_trace (f : TempoState → TempoState) : (s.setTmp f).trace = s.trace := rfl
@[simp] theorem State.setTmp_ledger (f : TempoState → TempoState) : (s.setTmp f).ledger = s.ledger := rfl
@[simp] theorem State.setTmp_freeCount (f : TempoState → TempoState) : (s.setTmp f).freeCount = s.freeCount := rfl
@[simp] theorem State.setTmp_pending (f : TempoState → TempoState) : (s.setTmp f).pending = s.pending := rfl

/-! ### setTtb -/

@[simp] theorem State.setTtb_clk (f : TtbState → TtbState) : (s.setTtb f).clk = s.clk := rfl
@[simp] theorem State.setTtb_regs (f : TtbState → TtbState) : (s.setTtb f).regs = s.regs := rfl
@[simp] theorem State.setTtb_units (f : TtbState → TtbState) : (s.setTtb f).units = s.units := rfl
@[simp] theorem State.setTtb_env (f : TtbState → TtbState) : (s.setTtb f).env = s.env := rfl
@[simp] theorem State.setTtb_gen (f : TtbState → TtbState) : (s.setTtb f).gen = s.gen := rfl
@[simp] theorem State.setTtb_ring (f : TtbState → TtbState) : (s.setTtb f).ring = s.ring := rfl
@[simp] theorem State.setTtb_mail (f : TtbState → TtbState) : (s.setTtb f).mail = s.mail := rfl
@[simp] theorem State.setTtb_ev (f : TtbState → TtbState) : (s.setTtb f).ev = s.ev := rfl
@[simp] theorem State.setTtb_per (f : TtbState → TtbState) : (s.setTtb f).per = s.per := rfl
@[simp] theorem State.setTtb_cip (f : TtbState → TtbState) : (s.setTtb f).cip = s.cip := rfl
@[simp] theorem State.setTtb_ctx (f : TtbState → TtbState) : (s.setTtb f).ctx = s.ctx := rfl
@[simp] theorem State.setTtb_tag (f : TtbState → TtbState) : (s.setTtb f).tag = s.tag := rfl
@[simp] theorem State.setTtb_tmp (f : TtbState → TtbState) : (s.setTtb f).tmp = s.tmp := rfl
@[simp] theorem State.setTtb_tab (f : TtbState → TtbState) : (s.setTtb f).tab = s.tab := rfl
@[simp] theorem State.setTtb_cap (f : TtbState → TtbState) : (s.setTtb f).cap = s.cap := rfl
@[simp] theorem State.setTtb_tx (f : TtbState → TtbState) : (s.setTtb f).tx = s.tx := rfl
@[simp] theorem State.setTtb_ttb (f : TtbState → TtbState) :
    (s.setTtb f).ttb = f s.ttb := rfl
@[simp] theorem State.setTtb_rx (f : TtbState → TtbState) : (s.setTtb f).rx = s.rx := rfl
@[simp] theorem State.setTtb_coh (f : TtbState → TtbState) : (s.setTtb f).coh = s.coh := rfl
@[simp] theorem State.setTtb_upd (f : TtbState → TtbState) : (s.setTtb f).upd = s.upd := rfl
@[simp] theorem State.setTtb_boot (f : TtbState → TtbState) : (s.setTtb f).boot = s.boot := rfl
@[simp] theorem State.setTtb_doms (f : TtbState → TtbState) : (s.setTtb f).doms = s.doms := rfl
@[simp] theorem State.setTtb_bkp (f : TtbState → TtbState) : (s.setTtb f).bkp = s.bkp := rfl
@[simp] theorem State.setTtb_cores (f : TtbState → TtbState) : (s.setTtb f).cores = s.cores := rfl
@[simp] theorem State.setTtb_mem (f : TtbState → TtbState) : (s.setTtb f).mem = s.mem := rfl
@[simp] theorem State.setTtb_bus (f : TtbState → TtbState) : (s.setTtb f).bus = s.bus := rfl
@[simp] theorem State.setTtb_pins (f : TtbState → TtbState) : (s.setTtb f).pins = s.pins := rfl
@[simp] theorem State.setTtb_phase (f : TtbState → TtbState) : (s.setTtb f).phase = s.phase := rfl
@[simp] theorem State.setTtb_trace (f : TtbState → TtbState) : (s.setTtb f).trace = s.trace := rfl
@[simp] theorem State.setTtb_ledger (f : TtbState → TtbState) : (s.setTtb f).ledger = s.ledger := rfl
@[simp] theorem State.setTtb_freeCount (f : TtbState → TtbState) : (s.setTtb f).freeCount = s.freeCount := rfl
@[simp] theorem State.setTtb_pending (f : TtbState → TtbState) : (s.setTtb f).pending = s.pending := rfl

/-! ### setUpd -/

@[simp] theorem State.setUpd_clk (f : UpdState → UpdState) : (s.setUpd f).clk = s.clk := rfl
@[simp] theorem State.setUpd_regs (f : UpdState → UpdState) : (s.setUpd f).regs = s.regs := rfl
@[simp] theorem State.setUpd_units (f : UpdState → UpdState) : (s.setUpd f).units = s.units := rfl
@[simp] theorem State.setUpd_env (f : UpdState → UpdState) : (s.setUpd f).env = s.env := rfl
@[simp] theorem State.setUpd_gen (f : UpdState → UpdState) : (s.setUpd f).gen = s.gen := rfl
@[simp] theorem State.setUpd_ring (f : UpdState → UpdState) : (s.setUpd f).ring = s.ring := rfl
@[simp] theorem State.setUpd_mail (f : UpdState → UpdState) : (s.setUpd f).mail = s.mail := rfl
@[simp] theorem State.setUpd_ev (f : UpdState → UpdState) : (s.setUpd f).ev = s.ev := rfl
@[simp] theorem State.setUpd_per (f : UpdState → UpdState) : (s.setUpd f).per = s.per := rfl
@[simp] theorem State.setUpd_cip (f : UpdState → UpdState) : (s.setUpd f).cip = s.cip := rfl
@[simp] theorem State.setUpd_ctx (f : UpdState → UpdState) : (s.setUpd f).ctx = s.ctx := rfl
@[simp] theorem State.setUpd_tag (f : UpdState → UpdState) : (s.setUpd f).tag = s.tag := rfl
@[simp] theorem State.setUpd_tmp (f : UpdState → UpdState) : (s.setUpd f).tmp = s.tmp := rfl
@[simp] theorem State.setUpd_tab (f : UpdState → UpdState) : (s.setUpd f).tab = s.tab := rfl
@[simp] theorem State.setUpd_cap (f : UpdState → UpdState) : (s.setUpd f).cap = s.cap := rfl
@[simp] theorem State.setUpd_tx (f : UpdState → UpdState) : (s.setUpd f).tx = s.tx := rfl
@[simp] theorem State.setUpd_ttb (f : UpdState → UpdState) : (s.setUpd f).ttb = s.ttb := rfl
@[simp] theorem State.setUpd_rx (f : UpdState → UpdState) : (s.setUpd f).rx = s.rx := rfl
@[simp] theorem State.setUpd_coh (f : UpdState → UpdState) : (s.setUpd f).coh = s.coh := rfl
@[simp] theorem State.setUpd_upd (f : UpdState → UpdState) :
    (s.setUpd f).upd = f s.upd := rfl
@[simp] theorem State.setUpd_boot (f : UpdState → UpdState) : (s.setUpd f).boot = s.boot := rfl
@[simp] theorem State.setUpd_doms (f : UpdState → UpdState) : (s.setUpd f).doms = s.doms := rfl
@[simp] theorem State.setUpd_bkp (f : UpdState → UpdState) : (s.setUpd f).bkp = s.bkp := rfl
@[simp] theorem State.setUpd_cores (f : UpdState → UpdState) : (s.setUpd f).cores = s.cores := rfl
@[simp] theorem State.setUpd_mem (f : UpdState → UpdState) : (s.setUpd f).mem = s.mem := rfl
@[simp] theorem State.setUpd_bus (f : UpdState → UpdState) : (s.setUpd f).bus = s.bus := rfl
@[simp] theorem State.setUpd_pins (f : UpdState → UpdState) : (s.setUpd f).pins = s.pins := rfl
@[simp] theorem State.setUpd_phase (f : UpdState → UpdState) : (s.setUpd f).phase = s.phase := rfl
@[simp] theorem State.setUpd_trace (f : UpdState → UpdState) : (s.setUpd f).trace = s.trace := rfl
@[simp] theorem State.setUpd_ledger (f : UpdState → UpdState) : (s.setUpd f).ledger = s.ledger := rfl
@[simp] theorem State.setUpd_freeCount (f : UpdState → UpdState) : (s.setUpd f).freeCount = s.freeCount := rfl
@[simp] theorem State.setUpd_pending (f : UpdState → UpdState) : (s.setUpd f).pending = s.pending := rfl

end Sys2Proof.Machine
end

