-- ==== Sys2Proof/Laws/Read.lean ====
section
/-!
SUPPORT. What a read gives after a write: register words and fields, units, domains, cores, timers, ports, bytes of
memory and of the contexts; and that every memory operation keeps the canonical form of memory.
-/

namespace Sys2Proof.Machine

/-! ### Bit fields -/

theorem setBitsOf_lt (v lo w x n : Nat) (hv : v < 2 ^ n) (hw : lo + w ≤ n) : setBitsOf v lo w x < 2 ^ n := by
  have hx : x % 2 ^ w < 2 ^ w := Nat.mod_lt _ (Nat.two_pow_pos w)
  have hlo : 0 < 2 ^ lo := Nat.two_pow_pos lo
  -- the top part of v stays below 2^(n - lo - w), and the two low parts fit under it
  have e : 2 ^ n = 2 ^ lo * (2 ^ w * 2 ^ (n - lo - w)) := by
    rw [← Nat.pow_add, ← Nat.pow_add]; congr 1; omega
  have q1 : v = 2 ^ lo * (v / 2 ^ lo) + v % 2 ^ lo := (Nat.div_add_mod _ _).symm
  have q2 : v / 2 ^ lo = 2 ^ w * (v / 2 ^ lo / 2 ^ w) + v / 2 ^ lo % 2 ^ w := (Nat.div_add_mod _ _).symm
  have hr : v % 2 ^ lo < 2 ^ lo := Nat.mod_lt _ hlo
  have ht : v / 2 ^ lo / 2 ^ w < 2 ^ (n - lo - w) := by
    rw [Nat.div_div_eq_div_mul, ← Nat.pow_add]
    apply Nat.div_lt_of_lt_mul
    rw [← Nat.pow_add]
    calc v < 2 ^ n := hv
      _ = 2 ^ (lo + w + (n - lo - w)) := by congr 1; omega
  have hs : setBitsOf v lo w x = 2 ^ lo * (2 ^ w * (v / 2 ^ lo / 2 ^ w) + x % 2 ^ w) + v % 2 ^ lo := by
    unfold setBitsOf bitsOf
    have e1 : v / 2 ^ lo % 2 ^ w * 2 ^ lo = 2 ^ lo * (v / 2 ^ lo % 2 ^ w) := Nat.mul_comm _ _
    have e2 : 2 ^ lo * (v / 2 ^ lo) = 2 ^ lo * (2 ^ w * (v / 2 ^ lo / 2 ^ w)) + 2 ^ lo * (v / 2 ^ lo % 2 ^ w) := by
      rw [← Nat.mul_add, ← q2]
    rw [e1, Nat.mul_comm (x % 2 ^ w), Nat.mul_add]
    omega
  have hm : 2 ^ w * (v / 2 ^ lo / 2 ^ w) + x % 2 ^ w + 1 ≤ 2 ^ w * 2 ^ (n - lo - w) := by
    calc 2 ^ w * (v / 2 ^ lo / 2 ^ w) + x % 2 ^ w + 1 ≤ 2 ^ w * (v / 2 ^ lo / 2 ^ w + 1) := by rw [Nat.mul_add]; omega
      _ ≤ 2 ^ w * 2 ^ (n - lo - w) := Nat.mul_le_mul_left _ ht
  rw [hs, e]
  calc 2 ^ lo * (2 ^ w * (v / 2 ^ lo / 2 ^ w) + x % 2 ^ w) + v % 2 ^ lo
      < 2 ^ lo * (2 ^ w * (v / 2 ^ lo / 2 ^ w) + x % 2 ^ w + 1) := by rw [Nat.mul_add (2 ^ lo) _ 1]; omega
    _ ≤ 2 ^ lo * (2 ^ w * 2 ^ (n - lo - w)) := Nat.mul_le_mul_left _ hm

/-- A bit of a number in which a field was replaced. -/
theorem testBit_setBitsOf (v lo w x i : Nat) :
    (setBitsOf v lo w x).testBit i = if lo ≤ i ∧ i < lo + w then x.testBit (i - lo) else v.testBit i := by
  have hlo : 0 < 2 ^ lo := Nat.two_pow_pos lo
  have hw : 0 < 2 ^ w := Nat.two_pow_pos w
  have hr : v % 2 ^ lo < 2 ^ lo := Nat.mod_lt _ hlo
  have hx : x % 2 ^ w < 2 ^ w := Nat.mod_lt _ hw
  have q2 : v / 2 ^ lo = 2 ^ w * (v / 2 ^ lo / 2 ^ w) + v / 2 ^ lo % 2 ^ w := (Nat.div_add_mod _ _).symm
  have q1 : 2 ^ lo * (v / 2 ^ lo) + v % 2 ^ lo = v := Nat.div_add_mod _ _
  have hs : setBitsOf v lo w x = 2 ^ lo * (2 ^ w * (v / 2 ^ lo / 2 ^ w) + x % 2 ^ w) + v % 2 ^ lo := by
    unfold setBitsOf bitsOf
    have e1 : v / 2 ^ lo % 2 ^ w * 2 ^ lo = 2 ^ lo * (v / 2 ^ lo % 2 ^ w) := Nat.mul_comm _ _
    have e2 : 2 ^ lo * (v / 2 ^ lo) = 2 ^ lo * (2 ^ w * (v / 2 ^ lo / 2 ^ w)) + 2 ^ lo * (v / 2 ^ lo % 2 ^ w) := by
      rw [← Nat.mul_add, ← q2]
    rw [e1, Nat.mul_comm (x % 2 ^ w), Nat.mul_add]
    omega
  rw [hs, Nat.testBit_two_pow_mul_add _ hr]
  by_cases h1 : i < lo
  · have : ¬(lo ≤ i ∧ i < lo + w) := by omega
    simp [h1, this, Nat.testBit_mod_two_pow]
  · rw [if_neg h1, Nat.testBit_two_pow_mul_add _ hx]
    by_cases h2 : i - lo < w
    · have : lo ≤ i ∧ i < lo + w := by omega
      simp [h2, this, Nat.testBit_mod_two_pow]
    · have : ¬(lo ≤ i ∧ i < lo + w) := by omega
      simp [h2, this, Nat.testBit_div_two_pow]
      congr 1; omega

/-- A field beside the replaced one stands. -/
theorem bitsOf_setBitsOf_apart (v lo w x lo' w' : Nat) (h : lo' + w' ≤ lo ∨ lo + w ≤ lo') :
    bitsOf (setBitsOf v lo w x) lo' w' = bitsOf v lo' w' := by
  apply Nat.eq_of_testBit_eq
  intro i
  unfold bitsOf
  rw [Nat.testBit_mod_two_pow, Nat.testBit_mod_two_pow, Nat.testBit_div_two_pow, Nat.testBit_div_two_pow, testBit_setBitsOf]
  by_cases hi : i < w'
  · have : ¬(lo ≤ i + lo' ∧ i + lo' < lo + w) := by omega
    simp [hi, this]
  · simp [hi]

/-! ### Registers -/

theorem State.word_setWord_same (s : State) (a : Nat) (v : Word) (h : swf resetWord s.regs = true) :
    (s.setWord a v).word a = v := sget_sput_same resetWord s.regs 0 a v h

theorem State.word_setWord_ne (s : State) (a b : Nat) (v : Word) (h : swf resetWord s.regs = true) (hb : b ≠ a) :
    (s.setWord a v).word b = s.word b := sget_sput_ne resetWord s.regs 0 a b v h hb

theorem State.setWord_wf (s : State) (a : Nat) (v : Word) (h : swf resetWord s.regs = true) :
    swf resetWord (s.setWord a v).regs = true := swf_sput resetWord s.regs a v h

theorem State.wr_wf (s : State) (f : Fld) (v : Nat) (h : swf resetWord s.regs = true) :
    swf resetWord (s.wr f v).regs = true := s.setWord_wf _ _ h

/-- A field reads back what was written, cut to its width. -/
theorem State.rd_wr_same (s : State) (f : Fld) (v : Nat) (h : swf resetWord s.regs = true) (hf : f.lsb + f.width ≤ 32) :
    (s.wr f v).rd f = v % 2 ^ f.width := by
  unfold State.rd State.wr
  rw [State.word_setWord_same s _ _ h, BitVec.toNat_ofNat,
    Nat.mod_eq_of_lt (setBitsOf_lt _ _ _ _ 32 (s.word f.addr).isLt hf), bitsOf_setBitsOf]

/-- A field of another register stands. -/
theorem State.rd_wr_ne (s : State) (f g : Fld) (v : Nat) (h : swf resetWord s.regs = true) (hg : g.addr ≠ f.addr) :
    (s.wr f v).rd g = s.rd g := by
  unfold State.rd State.wr
  rw [State.word_setWord_ne s _ _ _ h hg]

/-- A field beside it in the same register stands. -/
theorem State.rd_wr_apart (s : State) (f g : Fld) (v : Nat) (h : swf resetWord s.regs = true) (hf : f.lsb + f.width ≤ 32)
    (ha : g.addr = f.addr) (hg : g.lsb + g.width ≤ f.lsb ∨ f.lsb + f.width ≤ g.lsb) : (s.wr f v).rd g = s.rd g := by
  unfold State.rd State.wr
  rw [ha, State.word_setWord_same s _ _ h, BitVec.toNat_ofNat,
    Nat.mod_eq_of_lt (setBitsOf_lt _ _ _ _ 32 (s.word f.addr).isLt hf), bitsOf_setBitsOf_apart _ _ _ _ _ _ hg]

/-- A one-bit field reads back. -/
theorem State.flag_put_same (s : State) (f : Fld) (b : Bool) (h : swf resetWord s.regs = true) (hf : f.lsb + f.width ≤ 32)
    (hw : f.width = 1) : (s.put f b).flag f = b := by
  unfold State.flag State.put
  rw [State.rd_wr_same s f _ h hf, hw]
  cases b <;> rfl

/-! ### Records kept by number -/

theorem State.unit_setUnit_same (s : State) (h : Nat) (f : UnitRec → UnitRec) (w : swf (fun _ => ({} : UnitRec)) s.units = true) :
    (s.setUnit h f).unit h = f (s.unit h) := sget_sput_same _ _ 0 h _ w

theorem State.unit_setUnit_ne (s : State) (h k : Nat) (f : UnitRec → UnitRec) (w : swf (fun _ => ({} : UnitRec)) s.units = true)
    (hk : k ≠ h) : (s.setUnit h f).unit k = s.unit k := sget_sput_ne _ _ 0 h k _ w hk

theorem State.dom_setDom_same (s : State) (n : Nat) (d : DomRec) (w : swf (fun _ => ({} : DomRec)) s.doms = true) (hn : n ≠ Dom.bkp) :
    (s.setDom n d).dom n = d := by
  unfold State.dom
  rw [if_neg hn]
  exact sget_sput_same _ _ 0 n d w

theorem State.dom_setDom_ne (s : State) (n m : Nat) (d : DomRec) (w : swf (fun _ => ({} : DomRec)) s.doms = true) (hm : m ≠ n) :
    (s.setDom n d).dom m = s.dom m := by
  unfold State.dom
  split
  · rfl
  · exact sget_sput_ne _ _ 0 n m d w hm

theorem State.core_setCore_same (s : State) (p : Nat) (c : CoreState) (w : swf (fun _ => ({} : CoreState)) s.cores = true) :
    (s.setCore p c).core p = c := sget_sput_same _ _ 0 p c w

theorem State.core_setCore_ne (s : State) (p q : Nat) (c : CoreState) (w : swf (fun _ => ({} : CoreState)) s.cores = true)
    (hq : q ≠ p) : (s.setCore p c).core q = s.core q := sget_sput_ne _ _ 0 p q c w hq

theorem State.core_onCore_same (s : State) (p : Nat) (f : CoreState → CoreState) (w : swf (fun _ => ({} : CoreState)) s.cores = true) :
    (s.onCore p f).core p = f (s.core p) := s.core_setCore_same p _ w

theorem State.timer_setTimer_same (s : State) (n : Nat) (f : TimerRec → TimerRec)
    (w : swf (fun _ => ({} : TimerRec)) s.ev.timers = true) : (s.setTimer n f).timer n = f (s.timer n) :=
  sget_sput_same _ _ 0 n _ w

theorem State.timer_setTimer_ne (s : State) (n m : Nat) (f : TimerRec → TimerRec)
    (w : swf (fun _ => ({} : TimerRec)) s.ev.timers = true) (hm : m ≠ n) : (s.setTimer n f).timer m = s.timer m :=
  sget_sput_ne _ _ 0 n m _ w hm

theorem State.port_setPort_same (s : State) (n : Nat) (f : PortRec → PortRec) (w : swf (fun _ => ({} : PortRec)) s.per.ports = true) :
    (s.setPort n f).port n = f (s.port n) := sget_sput_same _ _ 0 n _ w

theorem State.port_setPort_ne (s : State) (n m : Nat) (f : PortRec → PortRec) (w : swf (fun _ => ({} : PortRec)) s.per.ports = true)
    (hm : m ≠ n) : (s.setPort n f).port m = s.port m := sget_sput_ne _ _ 0 n m _ w hm

/-! ### General registers of a core -/

/-- w0 reads as zero and discards writes; any other register reads back (R380). -/
theorem CoreState.reg_setReg_same (k : CoreState) (r : RegNum) (v : Word) (w : swf (fun _ => 0#32) k.regs = true) :
    (k.setReg r v).reg r = if r = 0#5 then 0#32 else v := by
  by_cases h : r = 0#5
  · subst h; rfl
  · have hn : r.toNat ≠ 0 := fun e => h (BitVec.eq_of_toNat_eq e)
    simp only [CoreState.setReg, CoreState.reg, h, if_false]
    simpa [hn, h] using sget_sput_same (fun _ => 0#32) k.regs 0 r.toNat v w

/-! ### Memory -/

/-- A byte reads back outside the windows of other members. -/
theorem State.byte_setByte_same (s : State) (a : Nat) (b : Byte) (hm : Memory.wf s.mem.cells = true)
    (hs : s.bkp.satchel.wf = true) (hw : inWindows a = false) : (s.setByte a b).byte a = b := by
  unfold State.byte State.setByte
  rw [hw]
  by_cases h : 0x50000000 ≤ a ∧ a < 0x50002000
  · simp only [h, if_true, and_self, Bool.false_eq_true, if_false]
    exact sget_sput_same zeroByte _ 0 _ b hs
  · simp only [h, if_false, Bool.false_eq_true]
    exact sget_sput_same memDefault _ 0 a b hm

/-- Every other byte stands. -/
theorem State.byte_setByte_ne (s : State) (a c : Nat) (b : Byte) (hm : Memory.wf s.mem.cells = true)
    (hs : s.bkp.satchel.wf = true) (hc : c ≠ a) : (s.setByte a b).byte c = s.byte c := by
  unfold State.setByte
  split
  · rfl
  · split
    · rename_i h
      unfold State.byte
      split
      · rfl
      · split
        · exact sget_sput_ne zeroByte _ 0 _ _ b hs (by omega)
        · rfl
    · unfold State.byte
      split
      · rfl
      · split
        · rfl
        · exact sget_sput_ne memDefault _ 0 a c b hm hc

theorem State.setByte_mem_wf (s : State) (a : Nat) (b : Byte) (h : Memory.wf s.mem.cells = true) :
    Memory.wf (s.setByte a b).mem.cells = true := by
  unfold State.setByte
  split
  · exact h
  · split
    · exact h
    · exact swf_sput memDefault _ a b h

theorem State.putBytes_mem_wf (bs : List Byte) : ∀ (s : State) (a : Nat), Memory.wf s.mem.cells = true →
    Memory.wf (s.putBytes a bs).mem.cells = true := by
  induction bs with
  | nil => exact fun _ _ h => h
  | cons b bs ih => exact fun s a h => ih _ _ (s.setByte_mem_wf _ b h)

theorem State.forget_mem_wf (s : State) (a n : Nat) (h : Memory.wf s.mem.cells = true) :
    Memory.wf (s.forget a n).mem.cells = true := swf_sdrop memDefault (fun k => decide (a ≤ k ∧ k < a + n)) _ h

/-- Memory is canonical right after reset. -/
theorem reset_mem_wf : Memory.wf State.reset.mem.cells = true := rfl

/-! ### Byte stores -/

theorem Store.setByte_wf (m : Store) (a : Nat) (b : Byte) (h : m.wf = true) : (m.setByte a b).wf = true := swf_sput zeroByte m a b h

theorem Store.byte_setByte (m : Store) (a c : Nat) (b : Byte) (h : m.wf = true) :
    (m.setByte a b).byte c = if c = a then b else m.byte c := by
  by_cases hc : c = a
  · subst hc; rw [if_pos rfl]; exact sget_sput_same zeroByte m 0 c b h
  · rw [if_neg hc]; exact sget_sput_ne zeroByte m 0 a c b h hc

theorem Store.setBytes_wf (bs : List Byte) : ∀ (m : Store) (a : Nat), m.wf = true → (m.setBytes a bs).wf = true := by
  induction bs with
  | nil => exact fun _ _ h => h
  | cons b bs ih => exact fun m a h => ih _ _ (m.setByte_wf a b h)

theorem Store.setNum_wf (n : Nat) : ∀ (m : Store) (a v : Nat), m.wf = true → (m.setNum a n v).wf = true := by
  induction n with
  | zero => exact fun _ _ _ h => h
  | succ n ih => exact fun m a v h => ih _ _ _ (m.setByte_wf a _ h)

/-- A byte below the ones written stands. -/
theorem Store.byte_setNum_lt (n : Nat) : ∀ (m : Store) (a v c : Nat), m.wf = true → c < a → (m.setNum a n v).byte c = m.byte c := by
  induction n with
  | zero => exact fun _ _ _ _ _ _ => rfl
  | succ n ih =>
    intro m a v c h hc
    rw [Store.setNum, ih _ _ _ _ (m.setByte_wf a _ h) (by omega), Store.byte_setByte m a c _ h, if_neg (by omega)]

/-- A byte above the ones written stands. -/
theorem Store.byte_setNum_ge (n : Nat) : ∀ (m : Store) (a v c : Nat), m.wf = true → a + n ≤ c → (m.setNum a n v).byte c = m.byte c := by
  induction n with
  | zero => exact fun _ _ _ _ _ _ => rfl
  | succ n ih =>
    intro m a v c h hc
    rw [Store.setNum, ih _ _ _ _ (m.setByte_wf a _ h) (by omega), Store.byte_setByte m a c _ h, if_neg (by omega)]

/-- A number reads back, cut to its bytes. -/
theorem Store.num_setNum (n : Nat) : ∀ (m : Store) (a v : Nat), m.wf = true → (m.setNum a n v).num a n = v % 256 ^ n := by
  induction n with
  | zero => intro m a v _; simp [Store.num, Nat.mod_one]
  | succ n ih =>
    intro m a v h
    rw [Store.num, Store.setNum, ih _ _ _ (m.setByte_wf a _ h),
      Store.byte_setNum_lt n _ _ _ a (m.setByte_wf a _ h) (by omega), Store.byte_setByte m a a _ h, if_pos rfl, BitVec.toNat_ofNat,
      show (2 : Nat) ^ 8 = 256 from rfl, Nat.pow_succ, Nat.mul_comm (256 ^ n) 256, Nat.mod_mul]

/-- A number whose bytes all stand reads the same. -/
theorem Store.num_congr (n : Nat) : ∀ (m k : Store) (a : Nat), (∀ c, a ≤ c → c < a + n → m.byte c = k.byte c) → m.num a n = k.num a n := by
  induction n with
  | zero => exact fun _ _ _ _ => rfl
  | succ n ih =>
    intro m k a h
    rw [Store.num, Store.num, h a (by omega) (by omega), ih m k (a + 1) fun c h1 h2 => h c (by omega) (by omega)]

/-! ### Contexts -/

/-- A field of a context reads back. -/
theorem State.ctxNum_setCtxNum_same (s : State) (k off n v : Nat) (h : s.ctx.ctx.wf = true) :
    (s.setCtxNum k off n v).ctxNum k off n = v % 256 ^ n := Store.num_setNum n _ _ v h

/-- A field whose bytes lie apart from those written stands. -/
theorem State.ctxNum_setCtxNum_apart (s : State) (k off n v j o m : Nat) (h : s.ctx.ctx.wf = true)
    (ha : 128 * j + o + m ≤ 128 * k + off ∨ 128 * k + off + n ≤ 128 * j + o) :
    (s.setCtxNum k off n v).ctxNum j o m = s.ctxNum j o m := by
  apply Store.num_congr
  intro c h1 h2
  rcases ha with ha | ha
  · exact Store.byte_setNum_lt n _ _ v c h (by omega)
  · exact Store.byte_setNum_ge n _ _ v c h (by omega)

end Sys2Proof.Machine
end

