-- ==== Sys2Proof/Machine/Outputs.lean ====
section
/-!
DEFINITION. What the outside sees of the state: which clocks run (R13), and what each pad does in every condition of the
supply, of reset and of its power domain (R27, R218, R220, R330, R331, R334, R335, R364, R377, R460).
-/

namespace Sys2Proof.Machine

/-! ### Clocks (R12, R13) -/

/-- The TCXO, and with it REF, runs while any domain but BKP and TAG is on or in retention. -/
def State.refRuns (s : State) : Bool :=
  (List.range 64).any fun n => n != Dom.bkp && n != Dom.tag && (s.dom n).state != 0

def State.pllR (s : State) : Bool := s.domOn Dom.rxa || s.domOn Dom.dsp || s.domOn Dom.txa
def State.pllS (s : State) : Bool := s.domOn Dom.sys
def State.pllD (s : State) : Bool := s.domOn Dom.dram
def State.pllM (s : State) : Bool := s.domOn Dom.msn

/-- The clock domains of Table ARC-3. -/
inductive ClockName where
  | bk | ref | app | sys | dmc | dphy | cap | dsp | tempo | mtr | tag | per
  deriving DecidableEq, Repr

/-- Does a clock domain run? One whose every power domain is off or in retention is stopped. -/
def State.clockRuns (s : State) (c : ClockName) : Bool :=
  match c with
  | .bk => true
  | .ref => s.refRuns
  | .app => s.pllS && (List.range 5).any fun p => s.domOn (Dom.app p)
  | .sys => s.pllS
  | .dmc | .dphy => s.pllD
  | .cap => s.pllR && s.domOn Dom.rxa
  | .dsp => s.pllR && (s.domOn Dom.dsp || s.domOn Dom.txa)
  | .tempo | .mtr => s.pllM
  | .tag => s.domOn Dom.tag && s.flag R.TAG_STATUS_FIELD
  | .per => s.pllS && s.domOn Dom.per

/-! ### Pads (R460, Table PAD-3) -/

/-- What a pad does. -/
inductive Drive where
  /-- high impedance, floating or released -/
  | floating
  /-- driven high or low -/
  | drives (high : Bool)
  /-- under a serial port -/
  | serial
  deriving DecidableEq, Repr

/-- NRST low and start-up stages 1 to 8, or no supply: the pads of the die are in reset. -/
def State.padsReset (s : State) : Bool :=
  match s.phase with
  | .running | .homeroom => s.pins.nrstLow
  | _ => true

/-- NSTAT is open drain, asserted low from stage 1 to the end of stage 8 and throughout homeroom (R27). -/
def State.nstatPad (s : State) : Drive := if s.pins.nstat then .drives false else .floating

/-- SYSON, driven from VBKP in every condition: BKP_SYSON.LEVEL at its polarity (R377). -/
def State.sysonPad (s : State) : Drive := .drives (s.flag R.BKP_SYSON_LEVEL == s.flag R.BKP_SYSON_POL)

/-- Is the serial port of pad GPIO`n` enabled (Table GPI-1)? -/
def State.padPortOn (s : State) (n : Nat) : Bool :=
  if n < 4 then s.flag (R.UART_CFG_EN (n / 2))
  else if n < 12 then s.flag (R.SPI_CFG_EN ((n - 4) / 4))
  else s.flag (R.IIC_CFG_EN ((n - 12) / 2))

/-- Pads that homeroom gives UART0 and SPI0 (R335). -/
def homePad (n : Nat) : Bool := decide (n < 2 ∨ 4 ≤ n ∧ n < 8)

/-- GPIO`n`: high impedance in reset and with PER off; an output holds its level in retention (R335, R364). -/
def State.gpioPad (s : State) (n : Nat) : Drive :=
  if s.phase = .homeroom ∧ homePad n then .serial
  else if s.padsReset || (s.dom Dom.per).state == 0 then .floating
  else match s.rd (R.GPI_CFG_FUNC n) with
  | 1 =>
    let high := bitOf (s.rd R.GPI_OUT_OUT) n
    if s.flag (R.GPI_CFG_OD n) && high then .floating else .drives high
  | 2 => if s.padPortOn n then .serial else .floating
  | _ => .floating

/-- The 1-10 V output. -/
inductive DimOut where
  | released
  /-- sinks current to hold so many volts times 4,095 -/
  | sinks (v : Nat)
  /-- sources current at so many volts times 4,095 -/
  | sources (v : Nat)
  deriving DecidableEq, Repr

/-- DIMP (R331, Table DAL-2); in retention it holds its level. -/
def State.dimpPad (s : State) : DimOut :=
  if s.padsReset || (s.dom Dom.per).state == 0 then .released
  else match s.rd R.DIM_CTL_MODE with
  | 1 => if s.dimLevel = 4095 then .released else .sinks (4095 + 9 * s.dimLevel)
  | 2 => .sources (10 * s.dimLevel)
  | _ => .released

/-- Does the device deliver the DALI bus supply (R330)? In retention as when on. -/
def State.daliSupplies (s : State) : Bool :=
  !s.padsReset && (s.dom Dom.per).state != 0 && s.flag R.DAL_STATUS_PSUON

/-- Does the DALI transmitter pull the bus: only with PER on, while a frame is sent (Table DAL-2)? -/
def State.daliTransmits (s : State) : Bool := !s.padsReset && s.domOn Dom.per && s.per.dali.sending.isSome

/-- Pin `p` of PAEN, PABYP, LNAEN and TRSW: floating with TXA off, else its level of R218 at the polarity of the
schedule in use, which is schedule 0 between transmissions (R220). -/
def State.rfPad (s : State) (p : Nat) : Drive :=
  if s.padsReset || !s.domOn Dom.txa then .floating
  else
    let (g, k) := match s.tx.list.find? (·.begun) with
      | some x => (x.gen, (s.txMode x).2)
      | none => (s.gen.active, 0)
    .drives (bitOf s.txPins p == bitOf ((s.schedules g).num (32 * k + 4 * p) 4) 16)

/-- ANT is terminated into 50 Ω while RXA and TXA are both off, and in reset. -/
def State.antTerminated (s : State) : Bool := s.padsReset || (!s.domOn Dom.rxa && !s.domOn Dom.txa)

/-- The cohort lanes, and the trace pads, are high impedance with their domain off and in reset. -/
def State.cohortLanesOn (s : State) : Bool := !s.padsReset && s.domOn Dom.coh
def State.tracePadsOn (s : State) : Bool := !s.padsReset && s.domOn Dom.ins

end Sys2Proof.Machine
end

