-- ==== Sys2Proof/Tests/Slice0.lean ====
section
/-!
SUPPORT. Small checks of the model: ill-formed commands that the well-formedness check refuses, worked examples of the
manual, and for every statement with hypotheses a state and operands that meet them.
-/

namespace Sys2Proof.Tests

open Machine

/-! ### Small states -/

/-- Registers set one after another. -/
def set (s : State) (l : List (Fld × Nat)) : State := l.foldl (fun s p => s.wr p.1 p.2) s

/-- A running part: every domain on, units as after reset. -/
def on : State :=
  { State.reset with
    phase := .running
    pins := { vmain := 12000, rail := true }
    doms := ((List.range 16).map (· + 1) ++ (List.range 32).map (· + 32)).map fun n => (n, { state := 2, target := 2 }) }

/-- No time passes. -/
def now : Elapsed := ⟨0, 0⟩

/-- Link firmware, which owns every page after reset. -/
def lfw : Who := ⟨1, true, false⟩

/-- Another agent in open mode, and firmware whose access came late. -/
def stranger : Who := ⟨3, false, false⟩

/-- Core `p` with the record `k`. -/
def withCore (p : Nat) (k : CoreState) : State := on.setCore p k

/-- A core in protected mode about to run the instruction at 0x10000000. -/
def k0 : CoreState := { pc := 0x10000000#32, running := true, regs := [(3, 5#32), (4, 0xFFFFFFFD#32)] }

/-- The guard that is always true, and the one that never is. -/
def yes : Guard := ⟨0#3, false⟩
def no : Guard := ⟨0#3, true⟩


/-! ### The well-formedness check: for each of its conditions a command that it refuses -/

def rq : TagReq := ⟨.any, false⟩
def hd : CohHead := ⟨2, 7, 0, true, false⟩
def hh : HomeHead := ⟨0, 5, true⟩
def fr : CohFrame := ⟨zeros 24, 0, 0, 6, 0, 0, 0, 0, false, 0, now⟩
def goodPush : CohPush :=
  ⟨0, none, 1, 0, [], [], zeros 4096, zeros 4096, zeros 256, zeros 8224, zeros 256, zeros 128⟩
def goodEnd : StageEnd :=
  ⟨false, [], [], 0, 0, ⟨[], none, none, 0, none, [], none, none, none, none, none, none⟩, 0, [], some 0⟩

theorem test_ill_formed_1 : ∀ i ∈ ([
    .powerOn now 5500, .startUpStageEnd now { goodEnd with power := some 65536 }, .registerWrite now lfw 2 0, .registerWrite now lfw 0 (2 ^ 32),
    .unitDisable now lfw (2 ^ 32) 0, .unitDisable now lfw 0 (2 ^ 32), .unitEnable now lfw (2 ^ 32) 0, .unitEnable now lfw 0 (2 ^ 32),
    .unitDrain now lfw (2 ^ 32) 0, .unitDrain now lfw 0 (2 ^ 32), .unitResume now lfw (2 ^ 32) 0, .unitResume now lfw 0 (2 ^ 32),
    .unitResetRequest now lfw (2 ^ 32) 0, .unitResetRequest now lfw 0 (2 ^ 32), .unitPowerOnRequest now lfw (2 ^ 32) 0,
    .unitPowerOnRequest now lfw 0 (2 ^ 32), .unitLapse now (2 ^ 32), .unitReturnToService now (2 ^ 32), .doorbell now lfw 16 0,
    .doorbell now lfw 0 65536, .descriptorFetch now 16, .timedStart now 16 0, .timedStart now 0 65536, .fenceRelease now 16 0,
    .fenceRelease now 0 65536, .completionWrite now 16, .cqconsWrite now lfw 16 0, .cqconsWrite now lfw 0 65536, .ringEnable now lfw 16 1,
    .ringEnable now lfw 0 (2 ^ 32 + 1), .ringEnable now lfw 0 2, .ringDisable now lfw 16 0, .ringDisable now lfw 0 (2 ^ 32),
    .ringDisable now lfw 0 1, .nop now 16 0, .nop now 0 65536, .commit now 65536, .setOwner now 65536, .copy now (11) 0, .copy now 16 0,
    .copy now 12 65536, .fill now (11) 0, .fill now 16 0, .fill now 12 65536, .crc now (11) 0] : List Instr),
    i.wf = false := by decide +kernel

theorem test_ill_formed_2 : ∀ i ∈ ([
    .crc now 16 0, .crc now 12 65536, .copyJobEnd now (11) 0, .copyJobEnd now 16 0, .copyJobEnd now 12 65536, .servedNotice now (11) 0,
    .servedNotice now 16 0, .servedNotice now 12 65536, .serverReturn now lfw 16 0 0, .serverReturn now lfw 0 256 0,
    .serverReturn now lfw 0 0 65536, .mbxSend now lfw 7 0, .mbxSend now lfw 0 (2 ^ 32), .mbxLatchRead now lfw 7, .mbxRemoveRead now lfw 7,
    .cohortSendAnswer now 7 false, .cohortSendTimeout now 7, .mainsZeroCrossing now (2 ^ 16) 0 0 0, .mainsZeroCrossing now 0 (2 ^ 16) 0 0,
    .mainsZeroCrossing now 0 0 (2 ^ 17) 0, .crossingTimeout now (2 ^ 16), .rootCycleSet now lfw (2 ^ 32), .tempoAlarmArm now lfw 16 1,
    .tempoAlarmArm now lfw 0 (2 ^ 32 + 1), .tempoAlarmArm now lfw 0 2, .tempoAlarmDisarm now lfw 16 0, .tempoAlarmDisarm now lfw 0 (2 ^ 32),
    .tempoAlarmDisarm now lfw 0 1, .tempoAlarmFire now 16, .noteBuf now (7) 0, .noteBuf now 11 0, .noteBuf now 8 65536,
    .capCalibrationRequest now lfw (2 ^ 32), .capCalibrationForce now lfw (2 ^ 32), .capCalinv now lfw (2 ^ 32), .dieTemperatureUpdate now (-129),
    .dieTemperatureUpdate now 128, .record now 65536, .recordStop now 65536, .recordEnd now 65536 [], .recordOverflow now 65536 [],
    .chanWrite now 65536, .chanRead now 65536, .watchWrite now 65536, .watchRead now 65536] : List Instr),
    i.wf = false := by decide +kernel

theorem test_ill_formed_3 : ∀ i ∈ ([
    .preambleDetection now false 512 0 0, .laneDelimiterFound now 64 0, .laneNoDelimiter now 64, .laneSyncDecided now 64 0 0 false 0 0 0,
    .laneSyncDecided now 0 0 0 false (2 ^ 16) 0 0, .laneSyncDecided now 0 0 0 false 0 (2 ^ 32) 0, .laneSyncDecided now 0 0 0 false 0 0 256,
    .laneHeaderDecoded now 64 0, .laneHeaderDecoded now 0 (2 ^ 32), .lanePayloadEnd now 64 [] 0 0, .lanePayloadEnd now 0 [] 0 256,
    .laneFlushDone now 64, .laneSelfTest now 72 false, .bufferExpiry now 544, .softBuffersEnable now lfw (2 ^ 32 + 1),
    .softBuffersEnable now lfw 2, .softBuffersDisable now lfw (2 ^ 32), .softBuffersDisable now lfw 1, .synCalibrationRequest now lfw (2 ^ 32),
    .synCalibrationForce now lfw (2 ^ 32), .synCalinv now lfw (2 ^ 32), .send now (0) 0, .send now 3 0, .send now 1 65536, .rxBuf now (2) 0,
    .rxBuf now 5 0, .rxBuf now 3 65536, .ctxRead now 65536, .ttbWrite now 65536, .ttbRead now 65536, .slotOccurrenceStart now 256,
    .slotOccurrenceEnd now 256 0, .slotOccurrenceEnd now 0 65536, .bellSeal now 256, .trackSelect now lfw (2 ^ 32), .partnerAbsent now 512,
    .windowEvaluation now 256, .wakeEvent now 256, .windowClose now 256, .bucketRoll now 16, .dwellWindowClear now 16, .lgArm now 65536,
    .lgDisarm now 65536, .mainLossTrigger now 65536, .cipher now 65536] : List Instr),
    i.wf = false := by decide +kernel

theorem test_ill_formed_4 : ∀ i ∈ ([
    .ctxSave now 65536, .ctxLoad now 65536, .keyWrap now 65536, .keyUnwrap now 65536, .cipherOperationEnd now 65536, .eventRoute now 0,
    .groupEnable now lfw (2 ^ 12), .groupDisable now lfw (2 ^ 12), .softwareTrigger now lfw (2 ^ 16), .eventIrqClear now lfw (2 ^ 16),
    .gpioEdge now 16 false, .timerPeriodEvent now 8, .timerCompareEvent now 8, .timerCaptureEdge now 8 false, .timerStart now lfw 8,
    .timerStop now lfw 8, .timerClear now lfw 8, .timerCaptureRise now lfw 8, .timerCaptureFall now lfw 8, .timerPeriodWrite now lfw 8 0,
    .timerPeriodWrite now lfw 0 (2 ^ 32), .timerCaptureRead now 8 false, .daliEnqueue now lfw (2 ^ 32), .daliFrameReceived now 9 0,
    .daliFrameReceived now 8 256, .daliSupplySwitch now 40000, .dimLevelWrite now lfw (2 ^ 32), .gpioSet now lfw (2 ^ 16),
    .gpioClear now lfw (2 ^ 16), .gpioToggle now lfw (2 ^ 16), .uartDataWrite now lfw 2 0, .uartDataRead now 2,
    .uartByteReceived now 2 0 false false, .spiGo now lfw 2 0, .spiGo now lfw 0 65536, .spiTransferEnd now 2 [],
    .spiTransferEnd now 0 (zeros 65536), .iicGo now lfw 2 0, .iicGo now lfw 0 (2 ^ 32), .iicTransferEnd now 2 0 [] false false,
    .iicTransferEnd now 0 0 (zeros 256) false false, .iicTransferEnd now 0 256 [] false false, .inventory now none 65 0 false, .inventory now none 61 0 true,
    .readSingleBlock now rq false 65536, .readSingleBlock now rq false 256] : List Instr),
    i.wf = false := by decide +kernel

theorem test_ill_formed_5 : ∀ i ∈ ([
    .writeSingleBlock now rq false 65536 (zeros 4) false, .writeSingleBlock now rq false 256 (zeros 4) false,
    .writeSingleBlock now rq false 0 [0#8] false, .lockBlock now rq false 65536 false, .lockBlock now rq false 256 false,
    .readMultipleBlocks now rq false 65536 1, .readMultipleBlocks now rq false 256 1, .readMultipleBlocks now rq false 0 0,
    .readMultipleBlocks now rq false 0 65537, .writeMultipleBlocks now rq false 65536 (zeros 4) false,
    .writeMultipleBlocks now rq false 256 (zeros 4) false, .writeMultipleBlocks now rq false 0 [0#8] false,
    .writeMultipleBlocks now rq false 0 [] false, .getBlockSecurityStatus now rq false 65536 1, .getBlockSecurityStatus now rq false 256 1,
    .getBlockSecurityStatus now rq false 0 0, .getBlockSecurityStatus now rq false 0 65537, .password now rq [0#8] false,
    .authBegin now rq 256 (zeros 8), .authBegin now rq 0 [0#8], .authEnd now rq [0#8], .invAdapt now 256 (zeros 2) none 0 0,
    .invAdapt now 0 [0#8] none 0 0, .invAdapt now 0 (zeros 2) none 65 0, .exchWrite now rq [] false, .exchWrite now rq (zeros 129) false,
    .ctrInc now rq 4 false, .tagRead now 65536, .tagWrite now 65536, .tagCtr now 65536, .tagSecret now 65536, .tagExchRx now 65536,
    .tagExchTx now 65536, .fieldBusyTimeout now 65536, .domainStateRequest now lfw 64 0, .domainStateRequest now lfw 0 4,
    .domainTransitionEnd now 64, .calendarAdjust now lfw (2 ^ 24), .calendarAlarmArm now lfw 4 256, .calendarAlarmArm now lfw 0 (2 ^ 32 + 256),
    .calendarAlarmArm now lfw 0 0, .calendarAlarmDisarm now lfw 4 0, .calendarAlarmDisarm now lfw 0 (2 ^ 32), .calendarAlarmDisarm now lfw 0 256,
    .calendarAlarmFire now 4] : List Instr),
    i.wf = false := by decide +kernel

theorem test_ill_formed_6 : ∀ i ∈ ([
    .coreHeartbeat now lfw 4 0, .coreHeartbeat now lfw 0 (2 ^ 32), .dramTrainingEnd now 65 0, .dramTrainingEnd now 0 65,
    .cohHello now { hd with src := 8 } false 0 0 0 0 0, .cohHello now hd false 7 0 0 0 0, .cohHello now hd false 0 (2 ^ 32) 0 0 0,
    .cohHello now hd false 0 0 (2 ^ 64) 0 0, .cohHello now hd false 0 0 0 65536 0, .cohHello now hd false 0 0 0 0 65536,
    .cohElect now { hd with src := 8 } 0, .cohElect now hd (2 ^ 32), .cohLeader now { hd with src := 8 } 0 0 [], .cohLeader now hd (2 ^ 32) 0 [],
    .cohLeader now hd 0 256 [], .cohLeader now hd 0 0 [(512, 0)], .cohLeader now hd 0 0 [(0, 2 ^ 20 + 1)],
    .cohTempo now { hd with src := 8 } 0 0 0 0, .cohTempo now hd (2 ^ 56) 0 0 0, .cohTempo now hd 0 (2 ^ 32) 0 0, .cohTempo now hd 0 0 (2 ^ 32) 0,
    .cohTempo now hd 0 0 0 (2 ^ 32), .cohWreq now { hd with src := 8 } 0 0 none 0 false, .cohWreq now hd (2 ^ 26) 0 none 0 false,
    .cohWreq now hd 0 0 none 16 false, .cohWrsp now { hd with src := 8 } 0 0 false, .cohWrsp now hd (2 ^ 26) 0 false,
    .cohNotice now { hd with src := 8 } 0 0 0 0 false, .cohNotice now hd 16 0 0 0 false, .cohNotice now hd 0 65536 0 0 false,
    .cohNotice now hd 0 0 (2 ^ 32) 0 false, .cohNotice now hd 0 0 0 16 false, .cohSoft now { hd with src := 8 } fr [],
    .cohSoft now hd { fr with order := 5 } [], .cohSoft now hd fr [128], .cohSoft now hd fr [-128],
    .cohDecoded now { hd with src := 8 } fr false 0 [], .cohDecoded now hd { fr with order := 5 } false 0 [], .cohDecoded now hd fr false 32 [],
    .cohDecoded now hd fr false 0 (zeros 289), .cohRxsync now { hd with src := 8 } 0 (zeros 20) (zeros 18),
    .cohRxsync now hd 512 (zeros 20) (zeros 18), .cohRxsync now hd 0 [0#8] (zeros 18), .cohRxsync now hd 0 (zeros 20) [0#8],
    .cohBlkreq now { hd with src := 8 } 0] : List Instr),
    i.wf = false := by decide +kernel

theorem test_ill_formed_7 : ∀ i ∈ ([
    .cohBlkreq now hd 512, .cohBlkgnt now { hd with src := 8 } 0 0, .cohBlkgnt now hd 512 0, .cohBlkgnt now hd 0 (2 ^ 20),
    .cohCfgpush now { hd with src := 8 } goodPush, .cohCfgpush now hd { goodPush with newGen := 0 },
    .cohAckreq now { hd with src := 8 } fr [] false, .cohAckreq now hd { fr with order := 5 } [] false, .cohAckreq now hd fr (zeros 289) false,
    .memberLost now 8, .counterBlockTimeout now (0) 0, .counterBlockTimeout now 3 0, .counterBlockTimeout now 1 65536, .cohRejoin now lfw (2 ^ 32),
    .updOpen now 65536, .updBlock now 65536, .updClose now 65536, .updActivate now 65536, .updAccept now 65536, .updRevert now 65536,
    .homeroomHello now ⟨0, 65536, true⟩, .homeroomHead now ⟨0, 65536, true⟩ [], .homeroomHead now hh (zeros 4097),
    .homeroomBlock now ⟨0, 65536, true⟩ 0 0 0 (zeros 4096), .homeroomBlock now hh 256 0 0 (zeros 4096),
    .homeroomBlock now hh 0 65536 0 (zeros 4096), .homeroomBlock now hh 0 0 (2 ^ 32) (zeros 4096), .homeroomBlock now hh 0 0 0 [0#8],
    .homeroomFinish now ⟨0, 65536, true⟩, .homeroomRestart now ⟨0, 65536, true⟩, .homeroomBaud now ⟨0, 65536, true⟩ 0,
    .homeroomBaud now hh (2 ^ 32), .counterClear now lfw (2 ^ 32), .counterLatch now 256, .registerRead now lfw 2,
    .escalationWindowEnd now (2 ^ 32)] : List Instr),
    i.wf = false := by decide +kernel

theorem test_ill_formed_packets : (([{ hd with src := 8 }, { hd with epoch := 256 }, { hd with seq := 65536 }].all fun h => !h.ok) &&
    ([{ fr with report := [] }, { fr with chan := 256 }, { fr with bw := 4 }, { fr with order := 5 }, { fr with order := 13 },
      { fr with mark := 1024 }, { fr with hdr := 2 ^ 24 }, { fr with gen := 65536 }, { fr with sync := 2 ^ 56 },
      { fr with sofStep := 65536 }].all fun f => !f.ok)) = true := by decide

theorem test_ill_formed_push : ([{ goodPush with tables := 128 }, { goodPush with newGen := 0 }, { goodPush with newGen := 65536 },
    { goodPush with interval := 65536 }, { goodPush with chan := [] }, { goodPush with watch := [] }, { goodPush with rules := [] },
    { goodPush with ttb := [] }, { goodPush with power := [] }, { goodPush with sched := [] },
    { goodPush with rewrites := [(528, false, zeros 128)] }, { goodPush with rewrites := [(0, false, [])] },
    { goodPush with releases := [1024] }].all fun p => !p.ok) = true := by decide +kernel

theorem test_ill_formed_settings : let c := goodEnd.settings
    ([{ c with epoch := 2 ^ 32 }, { c with owners := [(3, 0, 0, false)] }, { c with owners := [(0, 0, 256, false)] },
      { c with short := some 65536 }, { c with cohort := some (9, 0) }, { c with cohort := some (3, 8) }, { c with attrs := some (2 ^ 32, 0) },
      { c with attrs := some (0, 2 ^ 32) }, { c with domains := [(0, 0)] }, { c with domains := [(2, 0)] }, { c with domains := [(60, 0)] },
      { c with domains := [(1, 3)] }, { c with chan := some [] }, { c with watch := some [] }, { c with rules := some [] },
      { c with ttb := some [] }, { c with power := some [] }, { c with sched := some [] }].all fun x => !x.ok) = true := by decide

theorem test_ill_formed_stage : ([{ goodEnd with failed := [(4, 0)] }, { goodEnd with failed := [(0, 72)] }, { goodEnd with rows := [(32, 0)] },
    { goodEnd with rows := [(0, 512)] }, { goodEnd with synFail := [256] }, { goodEnd with power := some 65536 },
    { goodEnd with settings := { goodEnd.settings with epoch := 2 ^ 32 } }].all fun x => !x.ok) = true := by decide

/-- The same commands with every condition met. -/
theorem test_well_formed_1 : ∀ i ∈ ([
    .powerOn now 5501, .startUpStageEnd now goodEnd, .registerWrite now lfw 0 0, .unitDisable now lfw 0 0, .unitEnable now lfw 0 0,
    .unitDrain now lfw 0 0, .unitResume now lfw 0 0, .unitResetRequest now lfw 0 0, .unitPowerOnRequest now lfw 0 0, .unitLapse now 0,
    .unitReturnToService now 0, .doorbell now lfw 0 0, .descriptorFetch now 0, .timedStart now 0 0, .fenceRelease now 0 0, .completionWrite now 0,
    .cqconsWrite now lfw 0 0, .ringEnable now lfw 0 1, .ringDisable now lfw 0 0, .nop now 0 0, .commit now 0, .setOwner now 0, .copy now 12 0,
    .fill now 12 0, .crc now 12 0, .copyJobEnd now 12 0, .servedNotice now 12 0, .serverReturn now lfw 0 0 0, .mbxSend now lfw 0 0,
    .mbxLatchRead now lfw 0, .mbxRemoveRead now lfw 0, .cohortSendAnswer now 0 false, .cohortSendTimeout now 0, .mainsZeroCrossing now 0 0 0 0,
    .crossingTimeout now 0, .rootCycleSet now lfw 0, .tempoAlarmArm now lfw 0 1, .tempoAlarmDisarm now lfw 0 0, .tempoAlarmFire now 0,
    .noteBuf now 8 0, .capCalibrationRequest now lfw 0, .capCalibrationForce now lfw 0, .capCalinv now lfw 0, .dieTemperatureUpdate now 0,
    .record now 0, .recordStop now 0, .recordEnd now 0 [], .recordOverflow now 0 [], .chanWrite now 0, .chanRead now 0, .watchWrite now 0,
    .watchRead now 0, .preambleDetection now false 0 0 0, .laneDelimiterFound now 0 0, .laneNoDelimiter now 0,
    .laneSyncDecided now 0 0 0 false 0 0 0, .laneHeaderDecoded now 0 0, .lanePayloadEnd now 0 [] 0 0, .laneFlushDone now 0,
    .laneSelfTest now 0 false] : List Instr),
    i.wf = true := by decide +kernel

/-- The same commands with every condition met. -/
theorem test_well_formed_2 : ∀ i ∈ ([
    .bufferExpiry now 0, .softBuffersEnable now lfw 1, .softBuffersDisable now lfw 0, .synCalibrationRequest now lfw 0,
    .synCalibrationForce now lfw 0, .synCalinv now lfw 0, .send now 1 0, .rxBuf now 3 0, .ctxRead now 0, .ttbWrite now 0, .ttbRead now 0,
    .slotOccurrenceStart now 0, .slotOccurrenceEnd now 0 0, .bellSeal now 0, .trackSelect now lfw 0, .partnerAbsent now 0, .windowEvaluation now 0,
    .wakeEvent now 0, .windowClose now 0, .bucketRoll now 0, .dwellWindowClear now 0, .lgArm now 0, .lgDisarm now 0, .mainLossTrigger now 0,
    .cipher now 0, .ctxSave now 0, .ctxLoad now 0, .keyWrap now 0, .keyUnwrap now 0, .cipherOperationEnd now 0, .eventRoute now 1,
    .groupEnable now lfw 0, .groupDisable now lfw 0, .softwareTrigger now lfw 0, .eventIrqClear now lfw 0, .gpioEdge now 0 false,
    .timerPeriodEvent now 0, .timerCompareEvent now 0, .timerCaptureEdge now 0 false, .timerStart now lfw 0, .timerStop now lfw 0,
    .timerClear now lfw 0, .timerCaptureRise now lfw 0, .timerCaptureFall now lfw 0, .timerPeriodWrite now lfw 0 0, .timerCaptureRead now 0 false,
    .daliEnqueue now lfw 0, .daliFrameReceived now 8 0, .daliSupplySwitch now 0, .dimLevelWrite now lfw 0, .gpioSet now lfw 0,
    .gpioClear now lfw 0, .gpioToggle now lfw 0, .uartDataWrite now lfw 0 0, .uartDataRead now 0, .uartByteReceived now 0 0 false false,
    .spiGo now lfw 0 0, .spiTransferEnd now 0 [], .iicGo now lfw 0 0, .iicTransferEnd now 0 0 [] false false] : List Instr),
    i.wf = true := by decide +kernel

/-- The same commands with every condition met. -/
theorem test_well_formed_3 : ∀ i ∈ ([
    .inventory now none 0 0 false, .readSingleBlock now rq false 0, .writeSingleBlock now rq false 0 (zeros 4) false,
    .lockBlock now rq false 0 false, .readMultipleBlocks now rq false 0 1, .writeMultipleBlocks now rq false 0 (zeros 4) false,
    .getBlockSecurityStatus now rq false 0 1, .password now rq (zeros 8) false, .authBegin now rq 0 (zeros 8), .authEnd now rq (zeros 8),
    .invAdapt now 0 (zeros 2) none 0 0, .exchWrite now rq (zeros 1) false, .ctrInc now rq 0 false, .tagRead now 0, .tagWrite now 0, .tagCtr now 0,
    .tagSecret now 0, .tagExchRx now 0, .tagExchTx now 0, .fieldBusyTimeout now 0, .domainStateRequest now lfw 0 0, .domainTransitionEnd now 0,
    .calendarAdjust now lfw 0, .calendarAlarmArm now lfw 0 256, .calendarAlarmDisarm now lfw 0 0, .calendarAlarmFire now 0,
    .coreHeartbeat now lfw 0 0, .dramTrainingEnd now 0 0, .cohHello now hd false 0 0 0 0 0, .cohElect now hd 0, .cohLeader now hd 0 0 [],
    .cohTempo now hd 0 0 0 0, .cohWreq now hd 0 0 none 0 false, .cohWrsp now hd 0 0 false, .cohNotice now hd 0 0 0 0 false, .cohSoft now hd fr [],
    .cohDecoded now hd fr false 0 [], .cohRxsync now hd 0 (zeros 20) (zeros 18), .cohBlkreq now hd 0, .cohBlkgnt now hd 0 0,
    .cohCfgpush now hd goodPush, .cohAckreq now hd fr [] false, .memberLost now 0, .counterBlockTimeout now 1 0, .cohRejoin now lfw 0,
    .updOpen now 0, .updBlock now 0, .updClose now 0, .updActivate now 0, .updAccept now 0, .updRevert now 0, .homeroomHello now hh,
    .homeroomHead now hh [], .homeroomBlock now hh 0 0 0 (zeros 4096), .homeroomFinish now hh, .homeroomRestart now hh, .homeroomBaud now hh 0,
    .counterClear now lfw 0, .counterLatch now 0, .registerRead now lfw 0] : List Instr),
    i.wf = true := by decide +kernel

/-- The same commands with every condition met. -/
theorem test_well_formed_4 : ∀ i ∈ ([
    .escalationWindowEnd now 0] : List Instr),
    i.wf = true := by decide +kernel

/-! ### Worked examples of the manual -/

/-- A channel entry of the given bandwidth code. -/
def chanOf (bw : Nat) : Chan := ⟨0, true, true, bw, false, 0, 0, 0, 0, 0⟩

/-- Table SWP-5: the four modes, in ledger units of 1/1500000 s. -/
theorem test_airtime :
    [frameUnits (chanOf 1) 8 32 2 0 10 false, frameUnits (chanOf 0) 8 32 3 0 13 true, frameUnits (chanOf 3) 8 32 0 0 6 false,
      frameUnits (chanOf 3) 8 288 0 0 6 false] = [90112 * 4, 868352 * 8, 6528, 33856] := by decide

/-- "Pole 17's sub-band runs down": the last gasp, the 750 kHz frame, and the shares of its rule 2 at 50 Hz. -/
theorem test_ledger_shares :
    frameUnits (chanOf 2) 4 34 2 0 8 false = 52224 ∧ frameUnits (chanOf 2) 8 32 2 0 8 false = 54272 ∧
      on.ackPortion ⟨10, 400, true, 50, 0, 0⟩ = 360000 ∧ on.framePortion ⟨10, 400, true, 50, 0, 0⟩ = 540000 := by decide

/-- "A sleeper corrected, then replayed": 139 symbols of a 42-byte frame in the deepest mode of order 12. -/
theorem test_symbols : frameSymbols 8 42 3 0 12 true = 139 := by decide

/-- "A log sealed at the Canal Basin head": J1, J2, the sealing and the wrapped save. -/
theorem test_cipher_times :
    [cipherNs 259 false, cipherNs 64 true, cipherNs 7 false, cipherNs 48 true] = [84480, 30272, 3840, 23104] := by decide

/-! ### Witnesses of StepRunsTheFrontCommand -/

theorem test_witness_step : State.reset.pending = [] := by decide

/-! ### Witnesses of ResetIsCanonicalAndEmpty -/

theorem test_witness_reset : inWindows 0x10000000 = false ∧ 0x10000000 < 0x50000000 := by decide

/-! ### Witnesses of EveryStepKeepsTheCanonicalForm -/

theorem test_witness_canonical : step State.reset = .next State.reset := rfl

/-! ### Witnesses of EveryCommandChangesOnlyItsParts -/

theorem test_witness_changes : exec (.wfeWake 0) State.reset = .next State.reset := by rfl

/-! ### Witnesses of TimePassesAsTheCommandSays -/

theorem test_witness_time : elapsedOf (.cohRejoin ⟨3, 5⟩ lfw 1) = some ⟨3, 5⟩ ∧ elapsedOf (.wfeWake 0) = none := by decide

/-! ### Witnesses of StartUpPassesItsStages -/

/-- A part in start-up stage `n`, 11 ms after its rail became stable. -/
def inStage (n : Nat) : State :=
  { on with phase := .stage n, clk := ⟨0, 11000000⟩, boot := { at_ := 8000000, railAt := some 0 }, bkp := { token := true } }

/-- What the end of a stage brings where nothing failed. -/
def stageDone : StageEnd :=
  { bootsel := false, rows := [], failed := [], win0 := 10, win1 := 10, capFail := 0#6, synFail := [], power := none,
    settings := ⟨[], none, none, 0, none, [], none, none, none, none, none, none⟩ }

theorem test_witness_startup :
    (State.reset.pins.rail = false ∧ State.reset.phase = .off ∧ 5500 < 12000) ∧
    ((inStage 1).phase = .stage 1 ∧ (inStage 1).pins.nrstLow = false) ∧
    ((inStage 3).phase = .stage 3 ∧ (inStage 3).boot.four = false) ∧
    (stageDone.failed = [] ∧ (inStage 8).inService .core 3 = true ∧ (inStage 8).domOn (Dom.app ((inStage 8).physOf .core 3)) = true) ∧
    ((inStage 4).boot.railAt = some 0 ∧ 0 + 10000000 ≤ (inStage 4).clk.ns ∧ (inStage 4).bkp.token = true ∧
      (inStage 4).pins.rail = true ∧ (inStage 4).pins.bootsel = false ∧ (inStage 4).homereq = false) ∧
    ((inStage 2).boot.at_ + 2500000 < (inStage 2).clk.ns ∧ (inStage 1).clk.ns ≤ (inStage 1).boot.at_ + 3000000) := by decide

/-! ### Witnesses of SuppliesAndResetPin -/

theorem test_witness_supplies :
    (on.pins.rail = true ∧ on.mem.nvmOp = none ∧ on.tag.run = none ∧ on.pins.nrstLow = false ∧ on.phase ≠ .homeroom) ∧
    ((inStage 2).phase = .stage 2 ∧ (inStage 2).boot.four = false ∧ (inStage 2).boot.railAt = some 0) ∧
    (let h := { on with phase := .off, pins := { on.pins with nrstLow := true } }
     h.pins.nrstLow = true ∧ h.pins.rail = true ∧ h.phase = .off) := by decide

/-! ### Witnesses of RegisterAccessFollowsItsCode -/

theorem test_witness_access :
    let off := on.setDom Dom.dsp {}
    (pageAssigned 0x40022040 = true ∧ 0x40 ≤ 0x40022040 - pageBase 0x40022040 ∧ headerAt 0x40022040 = none ∧
      on.rd (R.UOWNER_OWNER (pageBase 0x40022040)) = lfw.stamp ∧ lfw.prot = true ∧ on.unitOn (pageBase 0x40022040) = true ∧
      on.domOn Dom.sys = true ∧ lfw.late = false) ∧
    (on.rd (R.UOWNER_OWNER (pageBase 0x4002A044)) ≠ stranger.stamp ∧ stranger.late = false ∧ headerAt 0x4002A044 = none) ∧
    (off.unitOn (pageBase 0x40022040) = false ∧ (unitInfo Hdr.hnt).isSome = true ∧ (off.dom Dom.dsp).state < 2) ∧
    pageAssigned 0x40030000 = false := by decide

/-! ### Witnesses of UnitsAreDisabledDrainedAndReset -/

theorem test_witness_uctl :
    let d := on.put (R.UCTL_EN Hdr.lnk) false
    let r := on.put (R.UCTL_DRAIN Hdr.lnk) true
    let w := { on with ring := { work := [{ ring := 1, idx := 7, unit := Hdr.lnk, stage := .started }] } }
    (on.domOn Dom.sys = true ∧ on.rd (R.UOWNER_OWNER Hdr.lnk) = lfw.stamp ∧ (unitInfo Hdr.lnk).isSome = true ∧
      (on.unit Hdr.lnk).lapsed = false ∧ (on.unit Hdr.lnk).retired = false ∧ (on.unit Hdr.lnk).resetPend = false ∧
      (on.dom Dom.sys).trans = none ∧ on.enabled Hdr.lnk = true ∧ on.flag (R.UCTL_DRAIN Hdr.lnk) = false ∧
      on.unsettled Hdr.lnk = false) ∧
    (d.enabled Hdr.lnk = false ∧ r.flag (R.UCTL_DRAIN Hdr.lnk) = true ∧ w.unsettled Hdr.lnk = true ∧
      w.unitWorks Hdr.lnk ≠ [] ∧ 0 < w.boundOf Hdr.lnk ∧ (w.unit Hdr.lnk).draining = false) := by decide

/-! ### Witnesses of LapsesCountAndEscalate -/

/-- The DALI unit is busy with a frame and its timer has run out. -/
def sLapse (w : Nat) : State :=
  set { on with clk := ⟨0, 20000000⟩, per := { on.per with dali := { on.per.dali with sending := some 0 } } }
    [(R.ULAPCNT_WINDOW Hdr.pre, w)]

theorem test_witness_lapse :
    (unitInfo Hdr.dal).isSome = true ∧ (sLapse 1).unitOn Hdr.dal = true ∧ ((sLapse 1).unit Hdr.dal).lapsed = false ∧
    childrenOf Hdr.dal = [] ∧ 0 < (sLapse 1).doing Hdr.dal ∧
    ((sLapse 1).unit Hdr.dal).progressAt + 1000 * (sLapse 1).boundOf Hdr.dal ≤ (sLapse 1).clk.ns ∧
    (sLapse 1).rd (R.ULAPCNT_WINDOW Hdr.pre) = 1 := by decide

/-- The event router has an event it has not routed for too long, after two lapses in its ensemble. -/
def sEscalate : State :=
  set { on with clk := ⟨0, 20000000⟩, ev := { on.ev with queue := [{ src := 1 }] } } [(R.ULAPCNT_WINDOW Hdr.ctl, 2)]

theorem test_witness_return :
    let e := sEscalate
    (e.unitOn Hdr.evr = true ∧ (unitInfo Hdr.evr).map (·.parent) = some Hdr.ctl ∧ 0 < e.doing Hdr.evr ∧
      (e.unit Hdr.evr).progressAt + 1000 * e.boundOf Hdr.evr ≤ e.clk.ns ∧ e.rd (R.ULAPCNT_WINDOW Hdr.ctl) = 2 ∧
      (e.unit Hdr.ctl).windowAt + 60000000000 > e.clk.ns ∧ e.rd (R.ULAPCNT_WINDOW Hdr.dev) = 0) ∧
    let l := on.setUnit Hdr.dal fun u => { u with lapsed := true }
    ((l.unit Hdr.dal).lapsed = true ∧ State.underLapse 4 l Hdr.dal = false ∧ (l.unit Hdr.dal).afterReset = none ∧
      Hdr.dal ∉ [Hdr.dmc, Hdr.mem]) ∧
    (on.doing Hdr.dal = 0 ∧ on.standing Hdr.dal = false) := by decide

/-! ### Witnesses of HeartbeatsAndDoubleFaults -/

theorem test_witness_heartbeat :
    let k := withCore 0 { k0 with status := 5#32 }
    (on.domOn Dom.sys = true ∧ on.inService .core 2 = true ∧ on.physOf .core 2 < 5) ∧
    (let out := on.put (Arr.mapInService .core 2) false
     out.inService .core 2 = false ∧ lfw.stamp ≠ 2 + 2) ∧
    (k.runs 0 0 yes = true ∧ (k.core 0).exl = true ∧ k.rd (R.ULAPCNT_WINDOW Hdr.cpu) < 2 ∧
      (k.unit (Hdr.core 0)).lapsed = false ∧ (k.unit (Hdr.core 0)).lapseTimes = []) := by decide

/-! ### Witnesses of IntegerResults -/

theorem test_witness_integer : (withCore 0 k0).runs 0 0 yes = true := by decide

/-! ### Witnesses of DspResults -/

theorem test_witness_dsp : (withCore 0 k0).runs 0 0 yes = true ∧ (4#5).toNat % 2 = 0 ∧ (4#5 : RegNum) ≠ 0#5 := by decide

/-! ### Witnesses of ImmediateAndShortFormResults -/

/-- The widest field that still ends at bit 31: lsb 24, 8 bits. -/
theorem test_witness_immediate :
    (withCore 0 k0).runs 0 0 yes = true ∧ (0x607#11).toNat / 64 + ((0x607#11).toNat % 32 + 1) = 32 ∧
      (0x607#11 : BitVec 11).getLsbD 5 = false := by decide

theorem test_witness_short : (withCore 0 k0).fetches 0 0 2 = true := by decide

/-! ### Witnesses of ComparesAndPredicates -/

/-- w3 = 5 and w4 = -3: GT, code 6, holds; NTST, code 11, does not. -/
theorem test_witness_compare :
    (withCore 0 k0).runs 0 0 yes = true ∧ ((withCore 0 k0).core 0).reg 3#5 = 5#32 ∧
      ((withCore 0 k0).core 0).reg 4#5 = 0xFFFFFFFD#32 ∧ (11#4).toNat < 12 := by decide

/-! ### Witnesses of BranchesGoToTheirTargets -/

theorem test_witness_branches :
    (withCore 0 k0).runs 0 0 yes = true ∧ (withCore 0 k0).fetches 0 0 2 = true ∧
      (((withCore 0 k0).core 0).reg 0#5).toNat % 2 = 0 := by decide

/-! ### Witnesses of LoadsReadMemory -/

/-- The core of the worked example of chapter 17: w12 at 0x10004038, cb1 at 0x10004000 of 0x40 bytes. -/
def kSum : CoreState :=
  { k0 with regs := [(12, 0x10004038#32), (30, 0x10004000#32)], cbBase := [(1, 0x10004000#32)], cbLen := [(1, 0x40#32)] }

theorem test_witness_loads :
    let s := withCore 0 kSum
    s.runs 0 0 yes = true ∧ s.fetches 0 0 2 = true ∧ s.plainRam 0 0 0x10004038 1 0x10004038 false = true ∧
      s.plainRam 0 0 0x10004038 2 0x10004038 false = true ∧ s.plainRam 0 0 0x10004038 4 0x10004038 false = true ∧
      s.plainRam 0 0 0x10004000 4 0x10004000 false = true := by decide

/-- The modulo step of the worked example: 0x10004038 to 0x1000403C, then to 0x10004000. -/
theorem test_modulo :
    moduloNext 0x10004038#32 0x10004000#32 0x40#32 4 = 0x1000403C#32 ∧
      moduloNext 0x1000403C#32 0x10004000#32 0x40#32 4 = 0x10004000#32 := by decide

/-- The same buffer read with AM 4 and LEN 0x20 visits 0x00, 0x10, 0x08, 0x18, 0x04, 0x14, 0x0C, 0x1C, 0x00. -/
theorem test_bitrev :
    let f := fun a => bitrevNext a 0x10004000#32 0x20#32 2
    [f 0x10004000#32, f 0x10004010#32, f 0x10004008#32, f 0x10004018#32, f 0x10004004#32, f 0x10004014#32, f 0x1000400C#32,
      f 0x1000401C#32] =
      [0x10004010#32, 0x10004008#32, 0x10004018#32, 0x10004004#32, 0x10004014#32, 0x1000400C#32, 0x1000401C#32,
        0x10004000#32] := by decide

/-! ### Witnesses of IndexedBasesMove -/

theorem test_witness_bitrev : (0 < 1 ∧ 1 < 32) ∧ (2 < 31 ∧ 31 < 32) := by decide

/-- cb1 has LEN 0x40, cb0 has LEN 0, which no bit-reversed loop fits. -/
theorem test_witness_indexed :
    let s := withCore 0 kSum
    let k := s.core 0
    s.runs 0 0 yes = true ∧ s.plainRam 0 0 (k.reg 12#5).toNat 4 0x10004038 false = true ∧
      s.plainRam 0 0 (k.reg 12#5).toNat 4 0x10004038 true = true ∧ k.cbLenOf 1 = 0x40#32 ∧ k.cbLenOf 0 = 0#32 ∧ k.exl = false ∧
      (5#5 : RegNum) ≠ 12#5 ∧ (0x40#32).toNat = 2 ^ 6 ∧ (∀ n, n < 32 → (0#32).toNat ≠ 2 ^ n) := by decide

/-! ### Witnesses of StoresWriteTheirBytes -/

theorem test_witness_stores :
    let s := withCore 0 kSum
    s.runs 0 0 yes = true ∧ s.fetches 0 0 2 = true ∧ s.plainRam 0 0 0x10004038 1 0x10004038 true = true ∧
      s.plainRam 0 0 0x10004038 2 0x10004038 true = true ∧ s.plainRam 0 0 0x10004038 4 0x10004038 true = true ∧
      s.plainRam 0 0 0x10004000 4 0x10004000 true = true := by decide

/-! ### Witnesses of AtomicsSwapAndCompare -/

theorem test_witness_atomics :
    let s := withCore 0 kSum
    s.runs 0 0 yes = true ∧ s.storesOut 0 = false ∧ s.region 0x10004038 = .sram 0 ∧
      s.accessTrap 0 0 0x10004038 4 false = none ∧ s.accessTrap 0 0 0x10004038 4 true = none ∧
      s.place 0x10004038 = .ram 0x10004038 ∧ s.poisoned 0x10004038 = false ∧
      (s.core 0).lineAt (lineOf 0x10004038) = none := by decide

/-! ### Witnesses of SpecialRegistersReadAndWritten -/

/-- A core in open mode with one region over all of SRAM that grants execution, reading and writing. -/
def kOpen : CoreState := { k0 with status := 0#32, prBase := [(0, 0x10000000#32)], prCtl := [(0, 0x103FFFEF#32)] }

theorem test_witness_special :
    let s := withCore 0 k0
    let o := withCore 0 kOpen
    (s.runs 0 0 yes = true ∧ s.coreProt 0 0 = true) ∧
      (o.runs 0 0 yes = true ∧ o.coreProt 0 0 = false ∧ (o.core 0).exl = false) := by decide

/-! ### Witnesses of ExceptionsEnterAndReturn -/

/-- Core 0 with interrupts enabled, line 2 pending for it and a store that failed late. -/
def kIrq : CoreState := { k0 with status := 3#32, lateStore := [0x80000000] }
def sIrq : State := set (withCore 0 kIrq) [(R.EVR_IRQPEND_PEND, 4), (R.EVR_IRQEN_EN, 4), (R.EVR_IRQROUTE_ROUTE, 0)]

theorem test_witness_exceptions :
    sIrq.runs 0 0 yes = true ∧ (sIrq.core 0).exl = false ∧ sIrq.fetches 0 0 2 = true ∧ sIrq.coreKey 0 = some 0 ∧
      (sIrq.core 0).waiting = false ∧ (sIrq.core 0).remote.isSome = false ∧ (sIrq.core 0).ie = true ∧
      sIrq.lineFor 0 = some 2 ∧ (sIrq.core 0).lateStore = [0x80000000] ∧ sIrq.coreProt 0 0 = true ∧
      (sIrq.core 0).epc.getLsbD 0 = false := by decide

/-- A pc that cannot be fetched: odd; outside every region in open mode; in no region of the map. -/
theorem test_witness_fetch :
    let at_ := fun (pc : Word) (st : Word) => withCore 0 { k0 with pc := pc, status := st }
    ((at_ 0x10000001#32 1#32).coreKey 0 = some 0 ∧ ((at_ 0x10000001#32 1#32).core 0).pc.toNat % 2 = 1) ∧
      ((at_ 0x10000000#32 0#32).coreProt 0 0 = false ∧ ((at_ 0x10000000#32 0#32).core 0).permits 0x10000000 3 = false) ∧
      ((at_ 0x10400000#32 1#32).coreProt 0 0 = true ∧ (at_ 0x10400000#32 1#32).region 0x10400000 = .unmapped) := by decide

/-! ### Witnesses of GuardsAndReservedFields -/

theorem test_witness_guard :
    let s := withCore 0 k0
    guardOf (.stw 0 no 3#5 4#5 0#11 .clean) = some (0, no) ∧ legal (.stw 0 no 3#5 4#5 0#11 .clean) = true ∧
      s.fetches 0 0 4 = true ∧ (s.core 0).guarded no = false := by decide

theorem test_witness_illegal :
    let s := withCore 0 k0
    (s.core 0).exl = false ∧ guardOf (.cmac 0 no 3#5 4#5 5#5) = some (0, no) ∧ legal (.cmac 0 no 3#5 4#5 5#5) = false ∧
      s.fetches 0 0 4 = true ∧ s.fetches 0 0 2 = true ∧ (1#5 : RegNum) ≠ 0#5 := by decide

/-! ### Witnesses of CoreWordsAreUnambiguous -/

theorem test_witness_words :
    coreEncode (.br16 0 0#5 31#5) = some ⟨0, .clean, 0x4C1F⟩ ∧ codeBytes 0x4C1F = [0x1F#8, 0x4C#8] ∧
      wordReserved 0x4C1F = false ∧ wordReserved 0x4C3F = true ∧ wordReserved 0 = true ∧ wordReserved 0xFFFFFFFF = true := by
  decide

/-- The words of the chapter's worked example, the no-op, and the return. -/
theorem test_words :
    coreEncode (.ldx 0 ⟨0, false⟩ 5#5 12#5 (.modulo 1#2 1#3) 4#3 .clean) = some ⟨0, .clean, 0x8385625C⟩ ∧
      coreEncode (.ldx 0 ⟨3, false⟩ 5#5 12#5 (.modulo 1#2 1#3) 4#3 .clean) = some ⟨0, .clean, 0xB385625C⟩ ∧
      codeBytes 0x8385625C = [0x85#8, 0x83#8, 0x5C#8, 0x62#8] ∧
      coreEncode (.add16 0 6#5 5#5) = some ⟨0, .clean, 0x08C5⟩ ∧ coreEncode (.addi16 0 7#5 31#5) = some ⟨0, .clean, 0x2CFF⟩ ∧
      coreEncode (.cmpi 0 ⟨0, false⟩ 1#3 2#3 7#5 0#6 6#4) = some ⟨0, .clean, 0x80651C06⟩ ∧
      coreEncode (.bt1 0 (BitVec.ofInt 10 (-6))) = some ⟨0, .clean, 0x67FA⟩ ∧
      coreEncode (.mov 0 0#5 0#5) = some ⟨0, .clean, 0x0400⟩ := by decide

/-! ### Witnesses of RefusedAccessesTouchNothing -/

/-- w5 is odd, w6 points past SRAM, w7 into boot ROM, which open mode may not reach. -/
def kBad (status : Word) : CoreState :=
  { kOpen with status := status, regs := [(5, 0x10000011#32), (6, 0x10400000#32), (7, 0x100#32)] }

theorem test_witness_refused :
    let s := withCore 0 (kBad 1#32)
    let o := withCore 0 (kBad 0#32)
    (s.runs 0 0 yes = true ∧ s.fetches 0 0 2 = true ∧ (s.core 0).exl = false ∧ ((s.core 0).reg 5#5).toNat % 4 ≠ 0 ∧
      ((s.core 0).reg 5#5).toNat % 2 = 1) ∧
    (o.runs 0 0 yes = true ∧ o.coreProt 0 0 = false ∧ ((o.core 0).reg 7#5).toNat % 4 = 0 ∧
      (o.core 0).permits 0x100 2 = false ∧ (o.core 0).permits 0x100 1 = false) ∧
    (s.coreProt 0 0 = true ∧ ((s.core 0).reg 6#5).toNat % 4 = 0 ∧ s.region 0x10400000 = .unmapped) := by decide

/-! ### Witnesses of WaitsFencesAndCaches -/

/-- Core 0 with a dirty line at 0x10000100, to which w5 points. -/
def kLine : CoreState :=
  { k0 with regs := [(5, 0x10000104#32)], dcache := [{ addr := 0x10000100, bytes := List.replicate 32 7#8, dirty := true }] }

theorem test_witness_waits :
    let s := withCore 0 k0
    (s.runs 0 0 yes = true ∧ s.stopDue 0 0 = false ∧ s.lineFor 0 = none ∧ s.storesOut 0 = false ∧
      (s.core 0).lineAt (lineOf ((s.core 0).reg 5#5).toNat) = none ∧ s.coreProt 0 0 = true) ∧
    (sIrq.runs 0 0 yes = true ∧ sIrq.stopDue 0 0 = false ∧ sIrq.lineFor 0 = some 2 ∧ (sIrq.core 0).ie = true) ∧
    (let w := sIrq.setCore 0 { kIrq with waiting := true }
     w.coreKey 0 = some 0 ∧ (w.core 0).waiting = true ∧ w.lineFor 0 = some 2) ∧
    (let d := s.put (R.UCTL_DRAIN (Hdr.core 0)) true
     d.runs 0 0 yes = true ∧ d.stopDue 0 0 = true ∧ (d.unit (Hdr.core 0)).resetPend = false) ∧
    (let b := withCore 0 { k0 with stores := [(0x64000000, 0)] }
     b.runs 0 0 yes = true ∧ b.storesOut 0 = true) ∧
    (let l := withCore 0 kLine
     l.runs 0 0 yes = true ∧ ((l.core 0).lineAt 0x10000100).isSome = true ∧ l.place 0x10000100 = .ram 0x10000100 ∧
       lineOf ((l.core 0).reg 5#5).toNat = 0x10000100) := by decide

/-! ### Witnesses of DoorbellsSubmitAndFetchesHandOn -/

/-- A ring of 8 entries with a full credit at SRAM addresses, enabled. -/
def ringUp (n : Nat) : State :=
  set on [(R.RNG_CFG_EN n, 1), (R.RNG_CFG_LOG2 n, 3), (R.RNG_SQBASE_ADDR n, 0x10000000 / 32),
    (R.RNG_CQBASE_ADDR n, 0x10001000 / 16), (R.RNG_OWN_OWNER n, 1), (R.SRM_BANK_MAPPED 0, 1)]

/-- Two descriptors on ring `n`: one in flight at index 0, and `w0` in its slot of index 1. -/
def ringTwo (n w0 : Nat) (stage : Stage) : State :=
  (set { ringUp n with ring := { work := [{ ring := n, idx := 0, stage := stage, w := [w0, 1, 0], unit := Hdr.rng, start := 65536 }] } }
    [(R.RNG_SQPROD_PROD n, 2), (R.RNG_SQCONS_CONS n, 1)]).setNum 0x10000020 4 w0

theorem test_witness_rings :
    ((ringUp 1).ownsRing lfw 1 = true ∧ (ringUp 1).ownsRing stranger 1 = false ∧ State.reset.phase ≠ .running ∧
      (ringUp 1).phase = .running ∧ idxDiff 9 0 > 2 ^ (ringUp 1).rd (R.RNG_CFG_LOG2 1) ∧
      (ringUp 1).flag (R.RNG_CFG_EN 1) = true ∧
      (let c := set (ringUp 1) [(R.RNG_CFG_CREDIT 1, 2)]
       c.rd (R.RNG_CFG_CREDIT 1) < 3 + c.inFlight 1 ∧ c.flag (R.RNG_STAT_OVERCREDIT 1) = false)) ∧
    ((ringUp 1).mayFetch 1 = false ∧ (ringTwo 1 0x20000000 .accepted).mayFetch 1 = true ∧
      (ringTwo 1 0x20000000 .accepted).findWork 1 1 = none ∧ opInfo 1 0x14 = none ∧ opInfo 0 0x14 = some (Hdr.lnk, false) ∧
      opInfo 1 0x20 = some (Hdr.lnk, true) ∧ on.enabled Hdr.lnk = true ∧ on.tempoUsable = false) ∧
    ((ringTwo 12 0xE0000000 .accepted).mayFetch 12 = true ∧
      (set (ringTwo 12 0xE0000000 .accepted) [(R.RNG_SRV_EN 12, 1)]).isServed 12 0xE0 = true) ∧
    (let u := set (ringTwo 1 0x10000 .timed) [(R.TMP_STATUS_VALID, 1), (R.TMP_STATUS_ALIGNED, 1)]
     u.tempoUsable = true ∧ u.alignedStamp < 65536 ∧ ({ u with clk := ⟨65600, 0⟩ } : State).alignedStamp - 65536 ≤ 64 ∧
      64 < ({ u with clk := ⟨70000, 0⟩ } : State).alignedStamp - 65536) ∧
    ((ringTwo 1 0 .fenced).findWork 1 0 = some { ring := 1, idx := 0, stage := .fenced, w := [0, 1, 0], unit := Hdr.rng, start := 65536 } ∧
      (ringTwo 1 0 .fenced).ring.work.any (fun x => x.ring == 1 && idxBefore x.idx 0) = false ∧
      idxBefore 0 1 = true) := by decide

/-! ### Witnesses of CompletionsAreWrittenAndRingsStop -/

/-- A completion of ring `n` decided at edge 0. -/
def doneAt (n i : Nat) : Done :=
  { ring := n, idx := i, tag := 7, status := 0, flags := 0, stamp := 5, gen := 0, result := 9, event := false, at_ := 0 }

theorem test_witness_completions :
    let d := { ringUp 1 with ring := { done := [doneAt 1 0, doneAt 1 1] } }
    let o := set d [(R.RNG_STAT_OVERCREDIT 1, 1)]
    (¬(idxDiff (d.rd (R.RNG_CQPROD_PROD 1)) (d.rd (R.RNG_CQCONS_CONS 1)) = 2 ^ d.rd (R.RNG_CFG_LOG2 1)) ∧
      idxDiff ((set d [(R.RNG_CQPROD_PROD 1, 8)]).rd (R.RNG_CQPROD_PROD 1)) 0 = 2 ^ d.rd (R.RNG_CFG_LOG2 1) ∧
      d.memOn (16 * d.rd (R.RNG_CQBASE_ADDR 1)) = true ∧ d.nextDone 1 = some (doneAt 1 0) ∧
      d.ramBytes (16 * d.rd (R.RNG_CQBASE_ADDR 1)) 16 = true ∧ d.flag (R.RNG_STAT_OVERCREDIT 1) = false ∧
      (set d [(R.RNG_CFG_ORDER 1, 1)]).nextDone 1 = some (doneAt 1 0) ∧ o.flag (R.RNG_STAT_OVERCREDIT 1) = true ∧
      o.outstanding 1 ≤ o.rd (R.RNG_CFG_CREDIT 1)) := by decide

theorem test_witness_ring_set_up :
    let d := set (ringUp 1) [(R.RNG_CFG_EN 1, 0)]
    (d.ownsRing lfw 1 = true ∧ d.flag (R.RNG_CFG_EN 1) = false ∧ bitsOf 0x830 4 4 = 3 ∧ bitsOf 0x830 8 7 = 8 ∧
      d.ringPlaced (32 * d.rd (R.RNG_SQBASE_ADDR 1)) 256 = true ∧ d.ringPlaced (16 * d.rd (R.RNG_CQBASE_ADDR 1)) 128 = true ∧
      d.ringPlaced (32 * d.rd (R.RNG_SQBASE_ADDR 2)) 256 = false ∧ d.creditSum + 8 ≤ 256 ∧ d.inFlight 1 = 0 ∧
      d.enabled Hdr.rng = true ∧ bitsOf 0x220 4 4 = 2) ∧
    (let e := [(2, 1), (3, 1), (4, 1), (5, 1), (6, 1)].foldl (fun s p => set s [(R.RNG_CFG_EN p.1, p.2), (R.RNG_CFG_CREDIT p.1, 64)]) d
     256 < e.creditSum + 8) ∧
    (let r := ringTwo 1 0x20000000 .started
     r.flag (R.RNG_CFG_EN 1) = true ∧ bitsOf 0x1030 8 7 = r.rd (R.RNG_CFG_CREDIT 1) ∧ bitsOf 0x1030 4 4 = r.rd (R.RNG_CFG_LOG2 1) ∧
      bitsOf 0x1030 1 1 = r.rd (R.RNG_CFG_ORDER 1) ∧ bitsOf 0x2030 8 7 ≠ r.rd (R.RNG_CFG_CREDIT 1) ∧ r.ring.work ≠ []) := by decide

/-! ### Witnesses of GeneralAndCopyWorkCompletes -/

/-- Accepted work of ring `r` with the words `l`, every SRAM bank mapped. -/
def workOn (r unit : Nat) (l : List Nat) : State :=
  set { on with ring := { work := [{ ring := r, idx := 0, w := l, unit := unit, prot := true }] } }
    ((List.range 32).map fun b => (R.SRM_BANK_MAPPED b, 1))

def workOf (s : State) : Work := s.ring.work.headD { ring := 0, idx := 0 }

/-- The same work past its commit point, due at edge `d`. -/
def dueAt (s : State) (d : Nat) : State :=
  { s with ring := { s.ring with work := s.ring.work.map fun w => { w with stage := .committed, due := d } } }

theorem test_witness_general_work :
    let c := workOn 12 Hdr.rng [0x40000007, 0, 0, 0x10000000, 0x10000100, 8]
    let f := workOn 0 Hdr.rng [0x04000007, 0, 0, 1, 1, 3]
    let x := set f [(R.RNG_OWN_P 1, 0)]
    ((workOn 12 Hdr.rng [7]).workReady 12 0 0x00 (workOf (workOn 12 Hdr.rng [7])) = true) ∧
    (x.workReady 0 0 0x04 (workOf x) = true ∧ (f.rd (R.RNG_OWN_OWNER 1) % 16 = 1 ∧ f.flag (R.RNG_OWN_P 1) = true) ∧
      ¬(x.rd (R.RNG_OWN_OWNER 1) % 16 = 1 ∧ x.flag (R.RNG_OWN_P 1) = true) ∧ x.ownerNamed 3 = true ∧
      x.flag (R.RNG_CFG_EN 1) = false ∧ x.ownerNamed 0x17 = false ∧ (ownerFields 3 1).isNone = true) ∧
    (c.workReady 12 0 0x40 (workOf c) = true ∧ c.devReadable 0x10000000 8 = true ∧ c.devWritable 0x10000100 8 = true ∧
      c.bankAllows true 0x10000000 8 = true ∧ c.rangeOn 0x10000000 8 = true ∧ c.rangeOn 0x10000100 8 = true ∧
      c.copyBusy (workOf c) = false ∧ c.inWindow 0x10000000 = false ∧ c.devWritable 0x20000000 8 = false) ∧
    ((dueAt c 0).findWork 12 0 = some (workOf (dueAt c 0)) ∧ (workOf (dueAt c 0)).stage = .committed ∧
      c.anyPoison (c.phys 0x10000000) 8 = false ∧ (c.setPoison 0x10000000 true).anyPoison (c.phys 0x10000000) 8 = true ∧
      c.ramBytes 0x10000100 8 = true) := by decide

set_option maxRecDepth 10000 in
/-- The check value of Table RNG-6. -/
theorem test_crc32 : crc32 ((List.range 9).map fun i => BitVec.ofNat 8 (0x31 + i)) = 0xCBF43926 := rfl

/-! ### Witnesses of NoticesAndServedWork -/

/-- `k` notices from agent 1 to agent 2, the first one latched; window 1 waits for a cohort answer since time 0. -/
def mailed (k : Nat) : State :=
  let n : Notice := { dst := 2, src := 1, ptr := 4, tag := 5, stamp := 1, prot := true, at_ := 0 }
  { on with mail := { notices := List.replicate k n, latched := [(2, n)], pendingSends := [(1, 0, 0)] } }

theorem test_witness_mail :
    ((on.unit Hdr.mbx).lapsed = false ∧ lfw.stamp = 1 ∧ on.flag (R.MBX_SSTAT_BUSY 1) = false ∧
      bitsOf 0x20005 16 4 = 2 ∧ bitsOf 0x20005 20 4 = 0 ∧ on.channelFill 2 1 < 4 ∧ 4 ≤ (mailed 4).channelFill 2 1 ∧
      (set on [(R.MBX_SSTAT_BUSY 1, 1)]).flag (R.MBX_SSTAT_BUSY 1) = true ∧ bitsOf 0x300000 20 4 ≠ on.rd R.COH_CFG_INDEX + 1) ∧
    ((mailed 1).mail.latched.find? (·.1 == 2) = some (2, { dst := 2, src := 1, ptr := 4, tag := 5, stamp := 1, prot := true, at_ := 0 }) ∧
      (on.mail.latched.find? (·.1 == 2)).isNone = true ∧ (∃ x ∈ (mailed 1).mail.pendingSends, x.1 = 1)) := by decide

theorem test_witness_served :
    let sv := fun b => set { on with ring := { work := [{ ring := 12, idx := 3, owner := 2, stage := .served b }] } }
      [(R.RNG_SRV_EN 12, 1), (R.RNG_SRV_AGENT 12, 1)]
    let nb := workOn 8 Hdr.tmp [0x30000007, 0, 0, 0x10000000]
    ((sv false).findWork 12 3 = some (workOf (sv false)) ∧ (sv false).rd (R.RNG_SRV_AGENT 12) = lfw.stamp ∧
      (sv true).channelFill 1 2 < 4 ∧ (sv true).flag (R.RNG_SRV_EN 12) = true ∧ (sv true).findWork 12 4 = none) ∧
    (nb.workReady 8 0 0x30 (workOf nb) = true ∧ nb.inRam 0x10000000 32 = true ∧ nb.rangeOn 0x10000000 32 = true ∧
      nb.inRam 0x20000000 32 = false) := by decide

/-! ### Witnesses of CommitsSwitchTogether -/

/-- A COMMIT of the channel table at the next frame, and one in progress. -/
def committing (l : List Nat) : State := workOn 0 Hdr.rng l

def switching (sw : Bool) (l : List (Nat × Bool × List Byte)) : State :=
  { on with gen := { pending := 1, commit := some { idx := 0, boundary := none, tables := 1, releases := [3], interval := 1,
                                                    newGen := 1, switched := sw, rewrites := l } } }

theorem test_witness_commit :
    let w := committing [0x03000007, 0, 0, 0, 1, 0, 0, 0]
    let e := (committing [0x03000007, 0, 0, 0, 0x20, 0x10000000, 1, 0]).setNum 0x10000000 4 0x400
    let f := switching true []
    (w.workReady 0 0 0x03 (workOf w) = true ∧ w.cohortFollows = false ∧ w.gen.commit = none ∧ w.leads = false ∧
      (set w [(R.COH_CFG_COUNT, 3)]).cohortFollows = true ∧ w.tempoUsable = false) ∧
    (e.workReady 0 0 0x03 (workOf e) = true ∧
      e.bufferRefusal true (e.devReadable 0x10000000 132) 0x10000000 132 = none ∧ bitsOf (e.num 0x10000000 4) 10 5 ≠ 0) ∧
    ((switching false []).gen.commit.isSome = true ∧ f.rx.held = [] ∧ f.softInUse = false ∧ f.inCohort = false ∧
      f.oldFramesDone = true ∧ f.clk.edges < 65536 ∧ ({ f with clk := ⟨65536, 0⟩ } : State).oldFramesDone = true) ∧
    imgNum (f.ctxImage 1) 16 4 ≠ 0xFFFFFFFF := by decide

/-! ### Witnesses of DomainsFollowTheirTargets -/

/-- A running part with one domain's record replaced, an hour after power-on. -/
def withDom (n : Nat) (d : DomRec) : State := { on.setDom n d with clk := ⟨0, 3600000000000⟩ }

theorem test_witness_domains :
    let p := set on [(R.UOWNER_OWNER Hdr.pwr, 1)]
    let ins := withDom 16 {}
    (p.domOn Dom.sys = true ∧ p.owns lfw Hdr.pwr = true ∧ hasRetention 3 = true ∧ domNums.contains 16 = true ∧
      p.offending [(11, 0)] = some 10 ∧ p.offending [(16, 0)] = none ∧ p.othersSettled 16 = true ∧
      (p.dom 40).state = 2 ∧ p.offending [(40, 1)] = none ∧ 40 ∉ p.env.dark ∧ p.tx.hot = false) ∧
    (ins.offending [(16, 2)] = none ∧ ins.othersSettled 16 = true ∧ (ins.dom 16).state < 2 ∧
      ins.owns lfw Hdr.ins = true ∧ (unitInfo Hdr.ins).isSome = true ∧
      ((on.setDom 11 {}).setDom 10 {}).offending [(10, 2)] = some 10) := by decide

theorem test_witness_transitions :
    let w := { withDom 2 { state := 1, target := 1 } with bkp := { wake := some (1, 0) } }
    ((withDom 11 { target := 2, trans := some { dest := 2, startedAt := 0 } }).othersSettled 11 = true ∧
      0 + upNs 11 0 ≤ (withDom 11 {}).clk.ns) ∧
    ((withDom 9 { state := 2, trans := some { dest := 0, startedAt := 0, draining := true } }).othersSettled 9 = true ∧
      (domUnits 9).all (fun h => !(withDom 9 {}).unsettled h) = true ∧
      ({ on with mem := { nvmOp := some { cmd := 1, addr := 0, data := [], startedAt := 0 } } } : State).unsettled Hdr.nvm = true) ∧
    (w.bkp.wake ≠ none ∧ (w.dom 2).state = 1 ∧ w.othersSettled 2 = true ∧ (State.reset.dom 2).state = 0 ∧ State.reset.phase = .off) ∧
    (on.othersSettled 0 = true ∧ on.tx.list = [] ∧ on.domOn Dom.txa = true ∧
      (withDom Dom.txa { state := 0, target := 2 }).dom Dom.txa = { state := 0, target := 2 } ∧
      (withDom Dom.txa {}).othersSettled Dom.txa = true) ∧
    (set on [(R.BKP_STATUS_CHGCC, 1)]).flag R.BKP_STATUS_CHGCC = true := by decide

/-! ### Witnesses of BackupKeepsCalendarAndToken -/

/-- A daily alarm at midnight, and a part whose calendar is at 2000-02-29 00:00:00. -/
def dated (al : List CalAlarm) : State :=
  { set on [(R.BKP_STATUS_CALVALID, 1)] with
    bkp := { token := true, cal := (730485 + 59) * 86400 * 32768, alarms := al, trimAt := some (0, 0) }
    clk := ⟨2 ^ 36, 0⟩ }

def midnight : CalAlarm := { n := 1, date := 0, time := 0, mask := 0x38, last := 0 }

theorem test_witness_backup :
    let d := dated [midnight]
    (d.owns lfw Hdr.bkp = true ∧ lfw.prot = true ∧ d.domOn Dom.sys = true ∧ d.bkp.landing = none ∧
      ({ d with bkp := { landing := some (0x40002048, 1) } } : State).bkp.landing ≠ none ∧
      secondsOf (on.word 0x40002058).toNat (on.word 0x4000205C).toNat = none ∧
      secondsOf ((on.setWord 0x40002058 0x07D0021D#32).word 0x40002058).toNat 0 = some ((730485 + 59) * 86400) ∧
      d.flag R.BKP_STATUS_CALVALID = true ∧ on.flag R.BKP_STATUS_CALVALID = false) ∧
    (d.bkp.alarms.find? (·.n == 1) = some midnight ∧ midnight.hits (d.calNow / 32768) = true ∧
      midnight.last < d.calNow / 32768 ∧ midnight.hits (d.calNow / 32768 + 1) = false ∧ bitsOf 0x138 8 4 ≠ 0) ∧
    (0 + 2 ^ 36 ≤ d.clk.edges ∧ on.clk.edges < 2 ^ 36) := by decide

/-- A forward adjustment over midnight passes the alarm's instant. -/
theorem test_witness_adjust :
    midnight.lastInstant 3 (86400 * 5 + 10) = some (86400 * 5) := by decide

/-! ### Witnesses of TempoFollowsMainsAndBells -/

/-- A node in tempo state `st` with VALID and ALIGNED set, its last crossing 20 ms ago. -/
def tempoIn (st : Nat) : State :=
  { set on [(R.TMP_STATUS_STATE, st), (R.TMP_STATUS_VALID, 1), (R.TMP_STATUS_ALIGNED, 1), (R.MSN_CTL_EN, 1), (R.UOWNER_OWNER Hdr.tmp, 1)] with
    clk := ⟨65536 * 3, 60000000⟩, tmp := { crossedAt := some 40000000, armed := [(3, 65536, 0)] } }

theorem test_witness_tempo :
    let l := tempoIn 2
    let f := tempoIn 3
    (l.senses = true ∧ l.rd R.TMP_STATUS_STATE = 2 ∧ l.tempoUsable = true ∧ l.follows = false ∧ l.tmp.events = [] ∧
      l.rd R.MSN_CTL_NOMV * l.rd R.MSN_THR_SAG ≤ 10 * 2300 ∧ 10 * 2300 ≤ l.rd R.MSN_CTL_NOMV * l.rd R.MSN_THR_SWELL ∧
      l.rd R.MSN_CTL_NOMV * l.rd R.MSN_THR_INTR ≤ 10 * 2300 ∧ on.senses = true ∧ on.tmp.crossedAt = none) ∧
    (let late := { l with clk := ⟨0, 100000000⟩ }
     3 * 2 ^ 24 * 1000000000 ≤ 2 * (late.clk.ns - 40000000) * (set late [(R.TMP_RATE_RATE, 0x32000000)]).rd R.TMP_RATE_RATE) ∧
    (let w := { set l [(R.TMP_STATUS_LSTAGE, 2)] with clk := ⟨0, 10000000000⟩ }
     w.rd R.TMP_STATUS_LSTAGE ≠ 0 ∧ w.tmp.stageAt + 10000000000 ≤ w.clk.ns) ∧
    (f.localCycle = 3 ∧ f.domOn Dom.msn = true ∧ (set f [(R.TMP_UNCERT_U, 32)]).uncert16 < 2 ^ 40 ∧
      (let g := set f [(R.TMP_UNCERT_U, 2 ^ 31)]
       max 1 (g.rd R.TMP_FLYLIM_CYCLES) * 2 ^ 32 ≤ g.uncert16 ∧ g.rd R.TMP_GUARD_STEPS * 65536 < g.uncert16 ∧
       g.tmp.guardPassed = false)) := by decide

theorem test_witness_corrections_and_alarms :
    let f := tempoIn 3
    let c := fun d => { f with tmp := { f.tmp with corrections := [{ cause := 65536, dAlign := d, dLocal := 0 }] } }
    (((c 160).tmp.corrections.filter fun x => decide (x.cause + 4 ≤ (c 160).localCycle * 65536)) ≠ [] ∧
      ¬((c 160).localCycle ≤ (c 160).tmp.slewCycle) ∧ (160 : Int).natAbs ≤ 16 * f.rd R.TMP_SLEW_LIMIT ∧
      16 * f.rd R.TMP_SLEW_LIMIT < (1600000 : Int).natAbs) ∧
    (f.unitOn Hdr.tmp = true ∧ f.owns lfw Hdr.tmp = true ∧ (set f [(R.TMP_CFG_ROOT, 1)]).flag R.TMP_CFG_ROOT = true ∧
      f.flag R.TMP_CFG_ROOT = false ∧ f.reached 65536 = true ∧ f.reached (65536 * 4) = false ∧
      f.tmp.armed.find? (·.1 == 3) = some (3, 65536, 0) ∧ f.domOn Dom.sys = true ∧ f.flag (R.TMP_ALM_C_NOTE 3) = false) ∧
    (let z := set ({ f with pins := { rail := true } }.setDom 2 { state := 1, target := 1 }) [(R.BKP_WAKE_TMPALM, 8)]
     z.domOn Dom.sys = false ∧ bitOf (z.rd R.BKP_WAKE_TMPALM) 3 = true ∧ z.bkp.wake = none ∧ z.pins.rail = true) := by decide

/-! ### Witnesses of CaptureGainAndCalibration -/

/-- Two DC slices and a flatness slice pending, or one of them running until edge 100. -/
def calPending : State := { on with cap := { pend := [(3, 2), (5, 4)] } }

def calRunning (item : Nat) (rest : List (Nat × Nat)) : State :=
  { on with clk := ⟨100, 0⟩, cap := { pend := rest, run := some { item := item, forced := false, start := 0, due := 100 } } }

theorem test_witness_capture :
    (on.domOn Dom.rxa = true ∧ State.reset.domOn Dom.rxa = false ∧ on.owns lfw Hdr.cap = true ∧
      on.owns stranger Hdr.cap = false ∧ on.flag R.CAP_CTL_FIXED = false ∧ (set on [(R.CAP_CTL_FIXED, 1)]).flag R.CAP_CTL_FIXED = true ∧
      ¬({ on with clk := ⟨0, 256000000⟩ } : State).clk.ns < on.cap.gainAt + 1000000 * max 1 (on.rd R.CAP_AGC_RELMS) ∧
      swf (fun _ => 0) on.tab.cal = true ∧ on.flag R.CAP_STATUS_RECAL = false) ∧
    (let p := set calPending [(R.CAP_CALCTL_WAIT, 0), (R.UCTL_EN Hdr.cap, 1)]
     p.accepts Hdr.cap = true ∧ p.cap.run = none ∧ p.cap.forced = false ∧ p.rd R.CAP_CALCTL_WAIT = 0 ∧ p.txNear = false ∧
     ({ p with cap := { p.cap with forced := true }, tx := { blocks := [(0, 9, true)] } } : State).tx.blocks = [(0, 9, true)]) ∧
    ((calRunning 5 []).cap.pend = [] ∧ 100 ≤ (calRunning 3 [(5, 4)]).clk.edges ∧
      ∀ p ∈ (calRunning 3 [(5, 4)]).cap.pend, p.1 ≠ 3) := by decide

/-! ### Witnesses of SpectrumRecordings -/

/-- A RECORD of 64 bytes at the start of SRAM, and a part with its recording in progress. -/
def recWork (stage : Stage) : Work :=
  { ring := 6, idx := 0, stage := stage, w := [0x50000000, 0, 0, 0x10000000, 64, 0, 0], unit := Hdr.cap }

def recording : State :=
  { set on [(R.SRM_BANK_MAPPED 0, 1)] with
    ring := { work := [recWork .committed] }, cap := { record := some { idx := 0, cont := false, gap := false, stamp := 65536, flags := 1, gain := 3 } } }

theorem test_witness_recorder :
    (let r := { set on [(R.SRM_BANK_MAPPED 0, 1), (R.UCTL_EN Hdr.cap, 1)] with ring := { work := [recWork .accepted] } }
     r.workReady 6 0 0x50 (recWork .accepted) = true ∧ r.recordMalformed (recWork .accepted) = false ∧
     r.bankAllows false 0x10000000 64 = true ∧ r.rangeOn 0x10000000 64 = true ∧ (recWork .accepted).isTimed = false ∧
     r.inRam 0x10000000 64 = true ∧ r.cap.record = none) ∧
    (recording.findWork 6 0 = some (recWork .committed) ∧ recording.ramBytes 0x10000000 64 = true ∧
      (∀ x ∈ recording.ring.work, x.ring = 6 → (x.opcode = 0x50 → x.a = 0) ∧ (x.opcode = 0x51 → x.stage ≠ .waiting)) ∧
      64 < 32 + 4 * (8 + 1)) ∧
    (let q := { set recording [(R.UCTL_EN Hdr.cap, 1)] with
       ring := { work := [{ recWork .accepted with idx := 1, w := [0x51000000] }] } }
     q.workReady 6 1 0x51 { recWork .accepted with idx := 1, w := [0x51000000] } = true) := by decide

/-! ### Witnesses of TablesAreWrittenAndRead -/

/-- Accepted ring-0 work with opcode `op`, operand word `o` and SRAM address. -/
def tableWork (op o : Nat) : Work :=
  { ring := 0, idx := 0, stage := .accepted, w := [op * 2 ^ 24, 0, 0, o, 0x10000000], unit := Hdr.rng }

def tableOn (op o : Nat) : State :=
  { set on [(R.SRM_BANK_MAPPED 0, 1), (R.UCTL_EN Hdr.rng, 1)] with ring := { work := [tableWork op o] } }

theorem test_witness_tables :
    (∀ p ∈ [(0x10, 256), (0x12, 65536), (0x15, 65537), (0x11, 256), (0x13, 65536), (0x16, 65537), (0x14, 65536)],
      (tableOn p.1 p.2).workReady 0 0 p.1 (tableWork p.1 p.2) = true) ∧
    (let s := tableOn 0x10 256
     s.cohortFollows = false ∧ s.gen.pending = s.gen.active ∧ s.devReadable 0x10000000 32 = true ∧ s.devWritable 0x10000000 32 = true ∧
     s.bankAllows false 0x10000000 32 = true ∧ s.rangeOn 0x10000000 32 = true ∧ s.ramBytes 0x10000000 32 = true ∧
     s.tab.ina.chan.wf = true ∧ (chanAt [] 0).valid = false ∧ s.rangeOn 0x10000000 128 = true ∧
     (chanAt (Store.setNum [] 4 4 1) 0).valid = true ∧ (chanAt (Store.setNum [] 4 4 1) 0).turns < 4) ∧
    (let r : Work := { tableWork 0x28 0x10000000 with w := [0x28000000, 0, 0, 0x10000000, 320] }
     let s : State := { tableOn 0 0 with ring := { work := [r] } }
     s.workReady 0 0 0x28 r = true ∧ s.inRam 0x10000000 320 = true ∧ s.rangeOn 0x10000000 320 = true) := by decide

/-! ### Witnesses of DetectionsTakeLanes -/

/-- Watch entries 5 and 6 active, detections `ds` made and `lanes` busy, every lane in service. -/
def hunting (ds : List Det) (lanes : List (Nat × LaneRec)) : State :=
  { on with
    clk := ⟨100, 0⟩, rx := { dets := ds, lanes := lanes, active := [5, 6] }, tx := { expects := [⟨1, 0, 6, 0, 0, 200, 0⟩] } }

def det5 : Det := { entry := 5, tx := none, prio := 1, sofChip := 10, bin := 0, stamp := 0, at_ := 90 }

def busyLane (prio : Nat) : LaneRec :=
  { entry := 7, tx := none, prio := prio, sofChip := 50, bin := 0, stamp := 0, at_ := 0, winner := false, chan := 0, freq := 0,
    bw := 0, order := 6, anymark := true, wmark := 0 }

theorem test_witness_hunter :
    let h := hunting [det5] []
    (h.accepts Hdr.hnt = true ∧ h.domOn Dom.rxa = true ∧ h.rx.active.contains 5 = true ∧ (h.watch h.gen.active 5).gated = false ∧
      h.tx.expects[0]? = some ⟨1, 0, 6, 0, 0, 200, 0⟩ ∧ h.detTarget det5 ≠ none ∧ h.laneFree 0 = true ∧ h.laneFree 1 = true) ∧
    (let b := (hunting [det5] [(2, busyLane 0)]).setDom Dom.dsp {}
     (∀ n, n < 64 → b.laneFree n = false) ∧ ¬(Machine.dist det5.sofChip (busyLane 0).sofChip ≤ 2) ∧ (busyLane 0).phase ≤ 3) ∧
    { det5 with entry := 6 }.at_ = det5.at_ := by decide

/-! ### Witnesses of LanesFollowTheirFrames -/

/-- Lane 2 holds a frame in phase `ph` with a header of 40 bytes. -/
def laneIn (ph : Nat) : State := hunting [] [(2, { busyLane 1 with phase := ph, hdr := 40 })]

theorem test_witness_lanes :
    (∀ ph ∈ [1, 2, 3, 4, 5], ((laneIn ph).lane 2).map (·.phase) = some ph) ∧ (laneIn 1).lane 3 = none ∧
    hdrPset 40 = 0 ∧ (laneIn 4).inCohort = false ∧
    (let c := set (laneIn 4) [(R.COH_CFG_COUNT, 3), (R.COH_STATUS_STATE, 2)]
     c.inCohort = true ∧ c.rd R.COH_STATUS_STATE = 2 ∧ c.rx.frames = [] ∧ c.rx.combined = []) := by decide

set_option maxRecDepth 10000 in
/-- A header word is its 24 bits and their CRC-8 (R147, R150). -/
theorem test_witness_header : headerValid (bitsNat (headerBits 40)) = true ∧ headerValid 0 = false := ⟨rfl, rfl⟩

theorem test_witness_self_test :
    let s := { on with clk := ⟨0, 4000000000000⟩ }
    s.rd R.LNS_BIST_PERIOD ≠ 0 ∧ s.domOn Dom.dsp = true ∧ s.logicalOf .lane 3 = some 3 ∧ (s.unit (Hdr.lane 3)).retired = false ∧
    4 ≤ ((List.range 8).filter fun m => s.inService .lane m && (s.lane m).isNone && s.physOf .lane m != 3).length ∧
    s.rd R.LNS_BIST_PERIOD * 60000000000 ≤ s.clk.ns ∧ (s.spares .lane).head? = some 64 := by decide

/-! ### Witnesses of DecoderRunsJobsAndSoftBuffers -/

/-- A frame of 8 bytes whose single block is in the decoders as job `j`. -/
def decFrame : RxFrame :=
  { id := 1, lane := 0, report := zeros 24, tx := none, chan := 0, bw := 0, order := 6, mark := 0, hdr := 8, gen := 0, sync := 0,
    syncAligned := false, syncLocal := 0, sofStep := 0, endEdge := 0, endNs := 0, soft := [] }

def decoding (j : Job) : State := { on with clk := ⟨0, 1000000⟩, rx := { frames := [decFrame], jobs := [j] } }

def job0 : Job := { frame := 1, attempt := 0, block := 0, ready := 0, deadline := 500000 }

theorem test_witness_decoder :
    let d := decoding job0
    let r := decoding { job0 with placed := true, started := true, engine := some 0, stop := 9 }
    (d.rxFrame 1 = some decFrame ∧ hdrPset decFrame.hdr = 0 ∧ hdrKind decFrame.hdr = 0 ∧ d.softInUse = false ∧ d.engineOpen 0 = true ∧
      d.decFree 0 = 0 ∧ d.decFree 1 = 0 ∧ job0.ready ≤ d.clk.ns * 3072 / 10000) ∧
    ((on.setDom Dom.dsp {}).engineOpen 0 = false ∧ r.rxFrame 1 = some decFrame ∧ 9 ≤ r.clk.ns * 3072 / 10000 ∧
      (decoding { job0 with started := true, deadline := 9 }).rx.jobs.length = 1) ∧
    (let w := { decFrame with waitTill := some 5, copies := [(0, zeros 24, [1]), (1, zeros 24, [2])] }
     w.copies.head? = some (0, zeros 24, [1]) ∧ 5 ≤ d.clk.ns ∧ d.inCohort = false) := by decide

theorem test_witness_soft_buffers :
    let s := (set on [(R.DEC_SBBASE_ADDR, 0x80000000 / 64), (R.DEC_SBBASE_EN, 1)]).setByte 0x80000000 1#8
    let l := { set s [(R.DEC_SBLIFE_CYCLES, 1)] with clk := ⟨65536 * 3, 0⟩ }
    (s.softInUse = true ∧ s.sbState 0 = 1 ∧ s.ramBytes (s.sbAddr 0) 7040 = true ∧ s.ramBytes (s.sbAddr 0) 3829760 = true ∧
      l.sbState 0 = 1 ∧ max 1 (l.rd R.DEC_SBLIFE_CYCLES) ≤ (l.sbClock + 2 ^ 32 - l.sbNum 0 24 4) % 2 ^ 32) ∧
    (on.owns lfw Hdr.dec = true ∧ on.owns stranger Hdr.dec = false ∧ on.unitOn Hdr.dec = true ∧ on.flag R.DEC_SBBASE_EN = false ∧
      on.rangeIn (fun r => r == .dram) (64 * bitsOf 0x80000001 6 26) 3829760 = true) := by decide

/-! ### Witnesses of FramesAreAcceptedOnce -/

/-- A secured-free TYPE 2 frame to the own address 5 from node 6 with counter 7, and its coded bits. -/
def joinPay : List Byte := linkHeader (frameControl 2 false 0 false false false) 5 6 7 0 0

def joinBits : List Bool := (joinPay ++ leBytes 4 (crc32 joinPay)).flatMap fun b => natBits 8 b.toNat

theorem test_witness_receive_crc : framePayload 10 [joinBits] = some joinPay := by decide +kernel

/-- Node 5 with partner context 9 of node 6 whose RXCTR is `rx`, a buffer on ring 3 and the frame's block at its end. -/
def receiving (rx : Nat) : State :=
  let s := set (decoding { job0 with placed := true, started := true, engine := some 0, stop := 9, ok := true })
    [(R.LNK_ADDR_VALID, 1), (R.LNK_ADDR_SHORT, 5)]
  (((({ s with
      rx := { s.rx with frames := [{ decFrame with hdr := 10 }] }
      ring := { work := [{ ring := 3, idx := 0, stage := .waiting, w := [0x28000000, 0, 0, 0x10000000, 320] }] } } : State).setCtxNum
    9 12 2 1).setCtxNum 9 8 2 6).setCtxNum 9 20 4 rx)

theorem test_witness_receive :
    let r := receiving 3
    let h := parseFrame joinPay
    (h.malformed = false ∧ h.type = 2 ∧ h.micsz = 0 ∧ h.ctr = 7 ∧ h.dest = r.ownShort ∧ h.ar = false ∧ groupDest h.dest = false ∧
      r.isForMe 0 h.dest = true ∧ r.gen.commit = none ∧ r.enabled Hdr.lnk = true ∧ (r.unit Hdr.lnk).lapsed = false ∧
      r.ctxNum 9 20 4 = 3 ∧ bitOf (r.ctxNum 9 12 2) 3 = false ∧ (receiving 8).ctxNum 9 20 4 = 8 ∧
      bitOf (r.rd R.LNK_CFG_RPTREJ) 0 = false ∧ bitOf (r.rd R.LNK_CFG_RPTREJ) 2 = false) ∧
    (r.openAs 0 h 9 0 = some [] ∧ (r.oldestRxBuf 3).isSome = true ∧ r.ramBytes 0x10000000 512 = true ∧
      r.rd R.TTB_STATUS_BELLSRC ≠ 2 ∧ r.ctxNum 9 77 1 % 4 = 0 ∧ r.inCohort = false ∧ r.softInUse = false ∧ r.shortValid = true) := by
  decide

theorem test_witness_receive_sender : (receiving 3).senderOf 0 (parseFrame joinPay) = some 9 := by
  decide +kernel

/-! ### Witnesses of SynthesiserCalibrates -/

/-- Slices pending in SYN, or one that runs until edge 100. -/
def synPending (ps : List SynSlice) : State := { set on [(R.SYN_CALCTL_WAIT, 0)] with clk := ⟨100, 0⟩, tx := { pend := ps } }

def synRunning (kind : Nat) : State :=
  { on with clk := ⟨100, 0⟩, tx := { run := some { item := 2 ^ kind, kind := kind, forced := false, start := 0, due := 100 } } }

theorem test_witness_synth :
    let f : SynSlice := { items := 8, kind := 3, forced := true }
    let p := synPending [{ items := 4, kind := 2 }]
    let q := synPending [{ items := 4, kind := 2 }, f]
    (on.owns lfw Hdr.syn = true ∧ on.owns stranger Hdr.syn = false ∧ on.unitOn Hdr.syn = true ∧ on.synItems = 0 ∧
      swf (fun _ => 0) on.tab.cal = true ∧ (on.chan on.gen.active 3).valid = false) ∧
    (p.accepts Hdr.syn = true ∧ p.tx.run = none ∧ p.rd R.SYN_CALCTL_WAIT = 0 ∧ p.txNear = false ∧
      q.tx.pend.any (·.forced) = true ∧ q.tx.pend.find? (·.forced) = some f ∧ (q.tx.pend.filter (·.forced)) ≠ [] ∧ q.tx.blocks = []) ∧
    ((synRunning 3).clk.edges = 100 ∧ (signed 16 30).natAbs ≤ 30 ∧ ¬(signed 16 31).natAbs ≤ 30 ∧
      ({ on with tx := { tuned := true }, clk := ⟨2 ^ 20, 0⟩ } : State).tx.usedAt + on.rd R.SYN_PARK_STEPS ≤ 2 ^ 20) := by decide

/-! ### Witnesses of SendsAreSealedOrRefused -/

/-- A TYPE 2 SEND of four bytes without a MIC over context 9, which is VALID, and channel entry 0, which may transmit. -/
def sendWork (stage : Stage) : Work :=
  { ring := 1, idx := 0, stage := stage, w := [0x20000000, 0, 0, 0x00020009, 0x10000000, 4], unit := Hdr.lnk }

def sending (stage : Stage) : State :=
  let s : State := { set on [(R.SRM_BANK_MAPPED 0, 1)] with
    ring := { work := [sendWork stage] }
    tab := { act := { chan := Store.setNum [] 4 8 0x3F00010803 } } }
  (s.setCtxNum 9 12 2 1).setCtxNum 9 8 2 6

theorem test_witness_send :
    let s := sending .accepted
    let o := s.sendOp (sendWork .accepted)
    (s.workReady 1 0 0x20 (sendWork .accepted) = true ∧ s.ctxPending o.ctx = false ∧ o.ctx = 9 ∧ o.type = 2 ∧ o.micsz = 0 ∧ o.len = 4 ∧
      s.ctxLive 0 9 = true ∧ groupDest o.dest = false ∧ s.inRam o.buf o.len = true ∧ s.bankAllows false o.buf o.len = true ∧
      s.rangeOn o.buf o.len = true ∧ s.ctxOwned 0 9 = true ∧ s.cohortSilent = false ∧ s.ctxFlag 0 9 4 = false ∧ s.blockReady 0 9 = true) ∧
    ((s.chan 0 0).valid = true ∧ (s.chan 0 0).txen = true ∧ o.order = 6 ∧ bitOf (s.chan 0 0).orders 0 = true ∧ o.power ≤ (s.chan 0 0).maxpwr ∧
      s.occurrencesRun = false ∧ s.txuOpen = true ∧ s.ttb.gasp = none ∧ s.gen.commit = none ∧ s.ctxNum 9 16 4 = 0 ∧
      s.ramBytes o.buf o.len = true ∧ (sendWork .accepted).isTimed = false) ∧
    (set s [(R.COH_CFG_COUNT, 3), (R.COH_STATUS_STATE, 2)]).blockReady 0 9 = false ∧
    (sending .waiting).findWork 1 0 = some (sendWork .waiting) := by decide

/-! ### Witnesses of TransmissionsRunTheirCourse -/

/-- The transmission of ring-1 descriptor 0 in stage `sg`, whose times have all come by edge 100. -/
def theTx (sg : TxStage) (k : TxKind) (ar : Bool) : Tx :=
  { id := 4, kind := k, entry := 0, order := 6, rate := 0, robust := false, power := 0, mark := 0, gen := 0, pay := [], turns := 8, stamp := 0,
    decided := 0, stage := sg, placed := true, hop := 10, first := 20, start := 30, chipEnd := 40, last := 50, ar := ar, retries := 1 }

def transmitting (x : Tx) : State :=
  { on with clk := ⟨100, 0⟩, tx := { list := [x] }, ring := { work := [{ ring := 1, idx := 0, stage := .accepted, w := [0x20000000] }] } }

theorem test_witness_transmit :
    let s := transmitting (theTx .queued (.frame 1 0) true)
    (s.tx.list = [theTx .queued (.frame 1 0) true] ∧ s.gen.commit = none ∧ s.txuOpen = true ∧ (s.setDom Dom.txa {}).txuOpen = false ∧
      s.flag (R.UCTL_DRAIN Hdr.txu) = false ∧ (s.unit Hdr.txu).draining = false ∧ (s.unit Hdr.txu).lapsed = false ∧
      (s.rule 0).valid = false ∧ (s.findWork 1 0).isSome = true ∧ swf (fun _ => 0) s.ttb.dwell = true ∧
      swf (fun _ => ({} : RuleUse)) s.ttb.rules = true ∧ s.occurrencesRun = false) ∧
    (let w := transmitting (theTx .await (.frame 1 0) true)
     w.expectEnd (theTx .await (.frame 1 0) true) ≤ 2 ^ 40 ∧ w.answerPending 4 = false ∧ w.tx.hot = false ∧ w.tx.expects.length < 8) ∧
    (let d : State := { s with tab := { act := { rules := Store.setNum [] 0 6 (2 ^ 31 + 2 ^ 32) } } }
     (d.rule 0).valid = true ∧ d.framePortion (d.rule 0) = 0 ∧ 0 < d.txUnits (theTx .queued (.frame 1 0) true)) := by decide

/-! ### Witnesses of TimetableRunsItsSlots -/

/-- A timetable of 100-cycle rounds whose slot 3 occurs at cycles 2, 12, 22 and so on, step 5, for 1,000 steps; `bits`
are the slot's second word, `flags` the header's. -/
def timetable (flags bits : Nat) : Store :=
  Store.setNum (Store.setNum (Store.setNum (Store.setNum [] 0 4 (100 + 2 ^ 24 + flags)) 128 4 (2 + 65536 * 5)) 132 4 (1000 + 2 ^ 26 + bits)) 136 4 10

def slotted (flags bits edges : Nat) : State :=
  { set on [(R.TMP_STATUS_STATE, 2), (R.TMP_STATUS_VALID, 1), (R.TMP_STATUS_ALIGNED, 1)] with
    clk := ⟨edges, 0⟩, tab := { act := { ttb := timetable flags bits } } }

theorem test_witness_timetable :
    let s := slotted 0 (2 ^ 30) (65536 * 12 + 5)
    let q : State := { slotted 0 (3 * 2 ^ 24) (65536 * 12 + 5000) with ttb := { occ := [⟨3, 65536 * 12 + 5, 65536 * 12 + 1005, false⟩] } }
    (s.occurrencesRun = true ∧ (s.slot 3).valid = true ∧ (s.slot 3).evt = true ∧ s.enabled Hdr.ttb = true ∧
      (s.slot 3).lastStart s.header.roundlen s.alignedStamp = some (65536 * 12 + 5) ∧ s.ttb.skipTo = 0 ∧ on.occurrencesRun = false) ∧
    ((q.slot 3).kind = 3 ∧ q.blankNow = false ∧ 65536 * 12 + 1005 ≤ q.alignedStamp ∧ s.alignedStamp < 65536 * 12 + 1005) ∧
    (let w := slotted (2 ^ 26) (2 ^ 28) (65536 * 12 + 5)
     let v : Window := { slot := 3, wake := 5, opens := 6, stop := 9 }
     w.header.sleeper = true ∧ (w.slot 3).wake = true ∧ w.flag R.TTB_STATUS_REENTRY = false ∧
     (w.slot 3).nextStart w.header.roundlen w.alignedStamp = some (65536 * 12 + 5) ∧ v.wake ≤ w.alignedStamp ∧ v.stop ≤ w.alignedStamp) ∧
    (let r : State := { on with clk := ⟨2 ^ 20, 0⟩, tab := { act := { rules := Store.setNum [] 0 16 (2 ^ 31 + 2 ^ 32 + 2 ^ 96) } } }
     (r.rule 0).bucket = 1 ∧ (r.rule 0).dwellwin = 1 ∧ (r.ruleUse 0).since + 65536 ≤ r.clk.edges ∧ swf (fun _ => 0) r.ttb.dwell = true ∧
     swf (fun _ => ({} : RuleUse)) r.ttb.rules = true) := by decide

/-! ### Witnesses of BellsRollCallAndLastGasp -/

/-- A part in aligned tempo whose partner 9 is VALID, due every 5 cycles and not heard since cycle 1. -/
def awaited : State :=
  ((((slotted 0 0 (65536 * 12)).setCtxNum 9 12 2 1).setCtxNum 9 72 4 5).setCtxNum 9 80 4 1).setCtxNum 9 84 4 6

def gaspWork (o : Nat) : Work :=
  { ring := 2, idx := 0, stage := .accepted, w := [0x22000000, 0, 0, o, 0x10000000, 4], unit := Hdr.lnk }

/-- As `sending`, with an armed-frame command on ring 2, and key slot 0 holding a link key. -/
def arming (o : Nat) : State :=
  let s := set (sending .accepted) [(R.LNK_ADDR_VALID, 1), (R.LNK_ADDR_SHORT, 5)]
  { s with ring := { work := [gaspWork o] } }

theorem test_witness_roll_call :
    (awaited.tempoAligned = true ∧ awaited.enabled Hdr.ttb = true ∧ awaited.ctxLive 0 9 = true ∧ awaited.ctxNum 9 72 4 = 5 ∧
      bitOf (awaited.ctxNum 9 77 1) 0 = false ∧ awaited.ctxNum 9 84 4 ≤ awaited.alignedStamp / 65536 ∧ awaited.gen.commit = none ∧
      awaited.bellSource (awaited.rd R.TTB_STATUS_BELLSRC) ≠ some 9) ∧
    (on.owns lfw Hdr.ttb = true ∧ on.owns stranger Hdr.ttb = false ∧ on.unitOn Hdr.ttb = true ∧ on.rd R.TTB_STATUS_BELLSRC = 0) ∧
    (let b := slotted 0 (2 ^ 27) (65536 * 12)
     b.occurrencesRun = true ∧ (b.slot 3).kind = 0 ∧ (b.slot 3).relay = true ∧ b.bellAllowed = false ∧
     (b.slot 3).nextStart b.header.roundlen b.alignedStamp = some (65536 * 12 + 5)) := by decide

theorem test_witness_gasp :
    let s := arming 0x1009
    (s.workReady 2 0 0x22 (gaspWork 0x1009) = true ∧ (arming 0x1809).workReady 2 0 0x22 (gaspWork 0x1809) = true ∧
      bitOf 0x1809 11 = true ∧ bitOf 0x1009 11 = false ∧ bitsOf 0x1009 12 2 = 1 ∧ s.ctxLive 0 9 = true ∧ s.shortValid = true ∧
      s.inRam 0x10000000 4 = true ∧ s.gen.commit = none ∧ s.bankAllows false 0x10000000 4 = true ∧ s.rangeOn 0x10000000 4 = true) ∧
    ({ s with cip := { slots := [(0, ⟨1, zeros 16⟩)] } } : State).ctxKey 0 9 ≠ none ∧
    ((s.chan 0 0).txen = true ∧ s.inCohort = false ∧ s.ctxKey 0 9 = none ∧ s.ctxFlag 0 9 4 = false ∧ s.ramBytes 0x10000000 4 = true) := by decide

/-! ### Witnesses of KeysStayInTheirSlots -/

/-- Work on ring 5 with opcode `op` and operand `o` over the start of SRAM, in protected mode. -/
def keyWork (stage : Stage) (op o : Nat) : Work :=
  { ring := 5, idx := 0, stage := stage, w := [op * 2 ^ 24, 0, 0, o, 0x10000000], unit := Hdr.cip, prot := true }

def keyed (stage : Stage) (op o : Nat) : State :=
  { set on [(R.SRM_BANK_MAPPED 0, 1)] with
    ring := { work := [keyWork stage op o] }, cip := { slots := [(3, ⟨16, zeros 16⟩), (4, ⟨1, zeros 16⟩)] } }

theorem test_witness_keys :
    (on.owns lfw Hdr.cip = true ∧ lfw.prot = true ∧ on.owns stranger Hdr.cip = false ∧ on.keySlot (on.rd R.CIP_KEYSEL_SLOT) = none ∧
      (set (keyed .accepted 0x63 3) [(R.CIP_KEYSEL_SLOT, 3)]).keySlot 3 ≠ none ∧ on.ctx.old = []) ∧
    (∀ p ∈ [(0x63, 3), (0x64, 5), (0x61, 0), (0x62, 256)], let s := keyed .accepted p.1 p.2
      s.workReady 5 0 p.1 (keyWork .accepted p.1 p.2) = true ∧ s.devWritable 0x10000000 72 = true ∧ s.devReadable 0x10000000 72 = true ∧
      s.bankAllows true 0x10000000 72 = true ∧ s.rangeOn 0x10000000 72 = true ∧ s.flag (R.CIP_MAP_INSERVICE 0) = true ∧
      s.engineFree 0 ≤ s.engineFree 1) ∧
    ((keyed .started 0x63 3).findWork 5 0 = some (keyWork .started 0x63 3) ∧ (keyWork .started 0x63 3).due = (keyed .started 0x63 3).clk.edges ∧
      (keyed .started 0x63 3).ramBytes 0x10000000 72 = true ∧ (keyed .started 0x61 3).ctxBusy (keyWork .started 0x61 3) = false ∧
      swf (fun _ => ({} : JobCtx)) on.cip.jctx = true) := by decide

theorem test_witness_erase : on.slotInContext 0 = false ∧ ((on.setCtxNum 9 12 2 1).setCtxNum 9 10 2 5).slotInContext 5 = true := by
  decide +kernel

/-! ### Witnesses of CipherJobsRunAndEnd -/

/-- An ECB encryption of one block with the key of slot 2, from its context 0. -/
def ecbWork (stage : Stage) : Work :=
  { ring := 5, idx := 0, stage := stage, unit := Hdr.cip
    w := [0x60000000, 0, 0, 16 + 32 + 2 * 2 ^ 22, 16, 0x10000000, 0x10000100, 0x10000200] }

def ciphering (stage : Stage) : State :=
  { set on [(R.SRM_BANK_MAPPED 0, 1)] with ring := { work := [ecbWork stage] }, cip := { slots := [(2, ⟨2, zeros 16⟩)] } }

theorem test_witness_cipher :
    let s := ciphering .accepted
    let j := s.cipherJob (ecbWork .accepted)
    (s.workReady 5 0 0x60 (ecbWork .accepted) = true ∧ s.ctxBusy (ecbWork .accepted) = false ∧ j.wellFormed = true ∧ j.mode = 0 ∧
      j.init = true ∧ s.inRam j.src 16 = true ∧ s.inRam j.dst 16 = true ∧ s.inRam j.param 48 = true ∧ s.rangeOn j.src 16 = true ∧
      s.bankAllows false j.param 48 = true ∧ s.ivExhausted (ecbWork .accepted) j = false ∧ s.flag (R.CIP_MAP_INSERVICE 1) = true) ∧
    (let e := ciphering .started
     e.findWork 5 0 = some (ecbWork .started) ∧ e.jobKey (ecbWork .started) j = some (zeros 16) ∧ e.anyPoison (e.phys j.src) 16 = false ∧
     e.ramBytes j.src 16 = true ∧ e.ramBytes j.dst 16 = true ∧ e.ramBytes j.param 48 = true ∧ (ecbWork .started).b = (ecbWork .started).at_ ∧
     (0x05, Hdr.cip) ∉ e.env.broken2) := by decide

/-! ### Witnesses of RouterTurnsEventsIntoTasks -/

/-- One event of timer 0 waits; channel 0 names its source and has `tasks`, its group enabled. -/
def routed (tasks : Nat) (more : List (Fld × Nat)) : State :=
  { set on ([(R.EVR_CHSRC_SRC 0, 0x60), (R.EVR_CHTSK_TASKS 0, tasks), (R.EVR_GRP_EN, 1)] ++ more) with
    ev := { queue := [{ src := 0x60 }] } }

theorem test_witness_router :
    (on.owns lfw Hdr.evr = true ∧ on.owns stranger Hdr.evr = false ∧ on.unitOn Hdr.evr = true ∧ on.domOn Dom.sys = true ∧
      (set on [(R.EVR_IRQROUTE_ROUTE, 1)]).owns stranger Hdr.evr = false ∧
      stranger.stamp = 2 + bitsOf ((set on [(R.EVR_IRQROUTE_ROUTE, 1)]).rd R.EVR_IRQROUTE_ROUTE) 0 2) ∧
    (∀ p ∈ [(0, [], []), (0x93, [], [0x93]), (0x9393, [], [0x93, 0x93]), (0x93, [(R.EVR_IRQPEND_PEND, 8)], [0x93]), (2, [], [2]),
        (0x12, [], [0x12]), (0x21, [], [0x21]), (0x75, [(R.GPI_CFG_FUNC 5, 1)], [0x75])],
      let s := routed p.1 p.2.1
      s.routes = true ∧ s.flag (R.UCTL_DRAIN Hdr.evr) = false ∧ bitOf s.groupsNow 0 = true ∧ s.chanTasks 0 = p.2.2 ∧ s.env.broken2 = [] ∧
      s.flag (R.EVR_CHSRC_GATEEN 0) = false ∧ s.domOn Dom.per = true) ∧
    (routed 0 [(R.EVR_CHSRC_GATEEN 0, 1), (R.EVR_CHSRC_GATE 0, 0x21)]).level 0x21 = false ∧
    (on.rd (R.GPI_CFG_FUNC 3) ≠ 1 ∧ on.pad 3 ≠ true ∧ sourceValid 0x60 = true) := by decide

theorem test_witness_names : ∀ d, d < 96 → (routed 0x93 []).rd (R.EVR_CHSRC_SRC d) = 0x60 → d = 0 := by decide +kernel

/-! ### Witnesses of TimersCountCaptureAndFire -/

/-- Timer 2 counts at `c` with period 100 and compare value 40. -/
def counting (c : Nat) (done : Bool) : State :=
  { set on [(R.TMR_PERIOD_PERIOD 2, 100), (R.TMR_CMP_CMP 2, 40), (R.TMR_STAT_RUNNING 2, 1), (R.TMR_CTL_CAPEN 2, 1)] with
    ev := { timers := [(2, { count := c, cmpDone := done })] } }

theorem test_witness_timers :
    (on.owns lfw (Hdr.tmr 2) = true ∧ on.owns stranger (Hdr.tmr 2) = false ∧ on.domOn Dom.per = true ∧
      on.flag (R.TMR_STAT_RUNNING 2) = false ∧ on.isHigh 2 = false ∧ on.chained 2 = false ∧
      (set on [(R.TMR_CTL_CHAIN 2, 1)]).chained 2 = true ∧ (set on [(R.TMR_CTL_CHAIN 2, 1)]).isHigh 3 = true) ∧
    ((counting 100 true).flag (R.TMR_STAT_RUNNING 2) = true ∧ (counting 100 true).timerPeriod 2 = 100 ∧
      (counting 100 true).timerCmp 2 = 40 ∧ (counting 40 false).timer 2 = { count := 40 } ∧
      (counting 40 false).flag (R.TMR_CTL_CAPEN 2) = true) := by decide

/-! ### Witnesses of DaliFramesRunOneByOne -/

/-- A frame at the head of the DALI queue, 20 ms after the bus went idle. -/
def frame16 : DaliEntry :=
  { data := 0, len := 16, tag := 7, prio := 2, trig := false, expect := false, twice := false, atHead := true }

def daliAt (d : DaliState) : State := { on with clk := { on.clk with ns := 40000000 }, per := { dali := d } }

theorem test_witness_dali :
    (on.owns lfw Hdr.dal = true ∧ on.owns stranger Hdr.dal = false ∧ on.unitOn Hdr.dal = true ∧ on.enabled Hdr.dal = true ∧
      on.per.dali = {} ∧ on.flag R.DAL_STATUS_FAULT = false ∧ (set on [(R.DAL_STATUS_FAULT, 1)]).flag R.DAL_STATUS_FAULT = true) ∧
    (let s := daliAt { queue := [frame16], delta := some 3 }
     s.accepts Hdr.dal = true ∧ s.domOn Dom.per = true ∧ 13500000 + 1600000 * (frame16.prio - 1) + 100000 * 3 ≤ s.clk.ns ∧
     frame16.tries < s.rd R.DAL_CFG_RETRY ∧ s.rd R.DAL_CFG_RETRY ≤ 3) ∧
    (let s := daliAt { queue := [frame16], sending := some 0, answering := some 0, results := [5], rx := [(16, 3)] }
     (2 * frame16.len + 2) * 412500 ≤ s.clk.ns ∧ 12400000 ≤ s.clk.ns) ∧
    (on.dom Dom.per).state ≠ 0 := by decide

/-! ### Witnesses of DimmerPadsAndSerialPorts -/

/-- A ramp from 4095 to 0 in one second, half a second old. -/
def ramping (due : Bool) : State :=
  { on with clk := { on.clk with ns := if due then 1000000000 else 500000000 }
            per := { dim := { ramp := some { start := 4095, target := 0, at_ := 0, ms := 1000, depth := 0 } } } }

/-- Serial ports enabled as masters, each with a transfer of two bytes. -/
def serial : State :=
  { set on [(R.UART_CFG_EN 0, 1), (R.SPI_CFG_EN 0, 1), (R.IIC_CFG_EN 0, 1)] with
    per := { ports := [(0, { rx := [5] }), (2, { tx := [1, 2], len := 2 }), (4, { tx := [3], len := 1 })] } }

theorem test_witness_serial :
    (on.owns lfw Hdr.dim = true ∧ on.owns lfw Hdr.gpi = true ∧ on.owns lfw Hdr.uar = true ∧ on.owns lfw Hdr.spi = true ∧
      on.owns lfw Hdr.iic = true ∧ on.owns stranger Hdr.uar = false ∧ on.unitOn Hdr.dim = true ∧ on.unitOn Hdr.gpi = true ∧
      on.unitOn Hdr.uar = true ∧ on.unitOn Hdr.spi = true ∧ on.unitOn Hdr.iic = true) ∧
    ((ramping true).domOn Dom.per = true ∧ (ramping true).per.dim.ramp.isSome = true ∧ ((500000000 - 0) / 1000000 : Nat) < 1000) ∧
    (serial.flag (R.UART_CFG_EN 0) = true ∧ serial.enabled Hdr.uar = true ∧ (serial.port 0).rx = [5] ∧ serial.accepts Hdr.spi = true ∧
      serial.accepts Hdr.iic = true ∧ (set serial [(R.SPI_STAT_BUSY 0, 1), (R.IIC_STAT_BUSY 0, 1)]).flag (R.SPI_STAT_BUSY 0) = true ∧
      (set (serial) [(R.SPI_CFG_SLAVE 0, 1)]).flag (R.SPI_CFG_SLAVE 0) = true ∧
      (serial.port 2).startedAt + 2 * 8 * (serial.rd (R.SPI_CFG_DIV 0) + 1) * 1000 / 24 ≤ 700) := by decide

/-! ### Witnesses of TagAnswersReaders -/

/-- A tag in a reader's field, under main. -/
def tagIn (g : TagState) : State := { on with tag := { g with field := true } }

theorem test_witness_tag :
    ((tagIn {}).tag.field = true ∧ (tagIn {}).domOn Dom.tag = true ∧ (tagIn {}).flag R.TAG_CFG_RFEN = true ∧
      ((tagIn {}).unit Hdr.tag).lapsed = false ∧ (tagIn {}).tag.mode ≠ .quiet ∧ (tagIn {}).tagExact = false ∧
      (tagIn { secured := true }).tag.secured = true ∧ (tagIn { mode := .selected }).tag.mode = .selected) ∧
    ((tagIn {}).blockLocked 5 = false ∧ (tagIn { eeprom := [(16404, 1#8)] }).blockLocked 5 = true ∧ bitOf (tagIn {}).tagFlags 16 = false ∧
      (tagIn {}).counter 2 ≠ 0xFFFFFF ∧ (tagIn {}).f2h = false ∧ (tagIn { eeprom := [(2442, 16#8)] }).h2f = true ∧
      (tagIn { eeprom := [(2368, 9#8)] }).tagBytes 2368 8 = 9#8 :: zeros 7 ∧ (tagIn {}).flag R.TAG_CFG_PWDEN = true ∧
      (tagIn {}).flag R.TAG_CFG_AUTHEN = true ∧ (set (tagIn {}) [(R.TAG_CFG_EXOPEN, 1)]).flag R.TAG_CFG_EXOPEN = true) := by decide +kernel

theorem test_witness_uid : ∃ u : BitVec 64, u.toNat = tagUid := ⟨tagUidBits, rfl⟩

/-! ### Witnesses of TagJournalAndHostAccess -/

/-- Accepted ring-7 work with opcode `op`, word 3 and word 4. -/
def tagWork (op x y : Nat) : Work :=
  { ring := 7, idx := 0, w := [op * 2 ^ 24, 0, 0, x, y], unit := Hdr.tag, prot := true }

def tagAt (g : TagState) (w : Work) : State :=
  { set on [(R.SRM_BANK_MAPPED 0, 1)] with tag := g, ring := { work := [w] } }

/-- A write of one block at step `n`. -/
def tagRun (n : Nat) : TagRun :=
  { write := ⟨.data 700 (zeros 4), .field []⟩, step := n, at_ := 0
    slot := { slot := 1, seq := 1, first := 700, data := zeros 4, whole := true, marked := true } }

theorem test_witness_taghost :
    (∀ p ∈ [(0x70, 0x10000, 0x10000000), (0x71, 0x102BC, 0x10000000), (0x72, 0x100, 0), (0x73, 0x100, 0), (0x74, 0x10000000, 0),
        (0x75, 0x10000000, 5)],
      let s := tagAt {} (tagWork p.1 p.2.1 p.2.2)
      s.workReady 7 0 p.1 (tagWork p.1 p.2.1 p.2.2) = true ∧ s.tagHeld = false ∧ s.devReadable 0x10000000 128 = true ∧
        s.devWritable 0x10000000 128 = true ∧ s.bankAllows true 0x10000000 128 = true ∧ s.rangeOn 0x10000000 128 = true ∧
        s.ramBytes 0x10000000 128 = true ∧ s.anyPoison 0x10000000 128 = false) ∧
    (blockRange 0 1 = true ∧ blockRange 700 1 = true ∧ tagArea 700 = 3 ∧ tagArea 0 ≠ 1 ∧ tagArea 520 = 1) ∧
    (tagAt { due := some (.silent, 0, true) } (tagWork 0x70 0 0)).tagHeld = true ∧
    (tagAt { journal := [(tagRun 5).slot] } (tagWork 0x70 0 0)).newestSlot = some (tagRun 5).slot ∧
    (on.tag.field = false ∧ on.domOn Dom.tag = true ∧ (on.setDom Dom.tag {}).domOn Dom.tag = false) := by decide

theorem test_witness_taghost_counters :
    (tagAt {} (tagWork 0x72 0x100 0)).counter 0 ≠ 0xFFFFFF ∧ (tagAt {} (tagWork 0x74 0 0)).f2h = false ∧
    (tagAt { eeprom := [(2442, 8#8)] } (tagWork 0x74 0 0)).f2h = true := by decide +kernel


/-- Counter 4 at its limit, in copy A. -/
def spent : State :=
  tagAt { eeprom := [(2336, 0xFF#8), (2337, 0xFF#8), (2338, 0xFF#8), (2339, BitVec.ofNat 8 (crc8 (List.replicate 3 0xFF#8)))] } (tagWork 0x72 0 0)

theorem test_witness_taghost_limit : spent.counter 4 = 0xFFFFFF ∧ (tagRun 5).write.op ≠ .counter 4 := by decide +kernel

/-! ### Witnesses of MemoriesCorrectRemapAndProgram -/

/-- Memories with bank 0 in the map, and `m` as their state. -/
def stored (m : MemState) (more : List (Fld × Nat)) : State :=
  { set on ([(R.SRM_BANK_MAPPED 0, 1), (R.SRM_SCRUB_HOURS, 24)] ++ more) with mem := m, clk := { on.clk with ns := 5000 } }

/-- A row of bank 0 with three errors today. -/
def weakRow : RowRec := { bank := 0, row := 0, firstAt := 0, errors := [3, 2, 1] }

theorem test_witness_memories :
    ((stored { copying := [(0, 3, 1, 3)] } []).domOn (Dom.bank 0) = true ∧ ((stored {} []).unit Hdr.srm).lapsed = false) ∧
    (let s := stored { rows := [weakRow] } []
     s.accepts Hdr.srm = true ∧ s.scrubNext 0 = some 0 ∧ s.poisoned 0x10000000 = false ∧ rowErrors 0 0 (trackRow 16 5000 0 0 s.mem.rows) = 4 ∧
       rowErrors 0 0 (trackRow 16 5000 0 0 []) < 4 ∧ (stored { poison := [(0x10000000, true)] } []).poisoned 0x10000000 = true) ∧
    (let s := stored {} [(R.NVM_ADDR_ADDR, 0x21A90000), (R.NVM_SRC_SRC, 0x10000000)]
     s.owns lfw Hdr.nvm = true ∧ s.owns stranger Hdr.nvm = false ∧ s.unitOn Hdr.nvm = true ∧ s.accepts Hdr.nvm = true ∧
       s.norSource lfw 0x10000000 = true ∧ s.flag R.NVM_STATUS_BUSY = false ∧ s.rd R.NVM_ADDR_ADDR = 0x21A90000) ∧
    (let s := stored {} [(R.DMC_STATUS_READY, 1), (R.DMC_STATUS_TRAINING, 1)]
     s.domOn Dom.dram = true ∧ s.flag R.DMC_STATUS_READY = true ∧ s.mem.refreshAt + 3900 ≤ s.clk.ns ∧ s.owns lfw Hdr.dmc = true ∧
       s.unitOn Hdr.dmc = true ∧ s.accepts Hdr.dmc = true ∧ s.flag R.DMC_STATUS_TRAINING = true ∧ s.upd.tasks = []) := by decide

/-! ### Witnesses of CountersAndLedgerAreKept -/

/-- One record waits for the ledger. -/
def ledgered (slot : Nat) : State :=
  { on with ledger := { slot := slot, queue := [{
      kind := 5, type := 0x21, logical := 0, old := 3, new := 1, cause := 3, stamp := 0, cal := 0 }] } }

theorem test_witness_inspector :
    (on.domOn Dom.ins = true ∧ swf (fun _ => 0) on.trace.latched = true ∧ on.owns lfw Hdr.ins = true ∧ on.owns stranger Hdr.ins = false ∧
      on.unitOn Hdr.ins = true ∧ on.trace.fifo = [] ∧ on.trace.lost = []) ∧
    (∀ k ∈ [0, 2048], (ledgered k).ledger.queue ≠ [] ∧ (ledgered k).domOn Dom.nvm = true ∧ ((ledgered k).unit Hdr.nvm).lapsed = false) ∧
    (ledgered 0).byte 0x21A10000 = 0xFF#8 := by decide

theorem test_witness_stream :
    let s := set { on with clk := { on.clk with ns := 100000000 } } [(R.INS_CSTREAM_PERIOD, 1), (R.INS_CMASK_MASK 0, 1), (R.INS_CTL_SRCEN, 64)]
    let s : State := { s with trace := { s.trace with streamed := 2 ^ 40 - 5 } }
    s.rd R.INS_CSTREAM_PERIOD ≤ (s.localStamp / 65536 + 2 ^ 40 - s.trace.streamed) % 2 ^ 40 ∧ bitOf (s.rd (R.INS_CMASK_MASK 0)) 0 = true ∧
    bitOf (s.rd R.INS_CTL_SRCEN) 6 = true := by decide +kernel

/-! ### Witnesses of MembersElectFollowAndGoQuiet -/

/-- Member 1 of a cohort of four in the given state, at epoch 7 under member 2, 20 ms after its start. -/
def memberIn (st lead : Nat) : State :=
  let s := set on [(R.COH_CFG_COUNT, 4), (R.COH_CFG_INDEX, 1), (R.COH_STATUS_STATE, st), (R.COH_STATUS_LEAD, lead),
    (R.COH_EPOCH_EPOCH, 7), (R.COH_STATUS_PRESENT, 0xC)]
  { s with clk := { s.clk with ns := 20000000 }, coh := { votes := [(1, 7), (2, 7), (3, 6)] } }

theorem test_witness_members :
    let s := memberIn 3 2
    let e := memberIn 1 0xF
    (2 ≤ s.rd R.COH_CFG_COUNT ∧ s.domOn Dom.coh = true ∧ s.enabled Hdr.coh = true ∧ (s.unit Hdr.coh).lapsed = false ∧
      s.coh.helloAt + 100000 ≤ s.clk.ns ∧ s.coh.leadAt + 1000000 ≤ s.clk.ns ∧ s.rd R.COH_STATUS_STATE = 3 ∧ s.rd R.COH_STATUS_LEAD = 2 ∧
      bitOf (s.rd R.COH_STATUS_PRESENT) 2 = true ∧ bitOf (s.rd R.COH_STATUS_PRESENT) 0 = false ∧ s.gen.commit = none ∧
      (5 : Nat) ≠ s.ownDigest ∧ (3 : Nat) ≠ s.gen.active ∧ s.coh.resync = false) ∧
    (e.rd R.COH_STATUS_STATE = 1 ∧ e.rd R.COH_STATUS_LEAD = 0xF ∧ e.coh.electAt + 200000 ≤ e.clk.ns ∧ e.coh.quiet = false ∧
      e.rd R.COH_CFG_COUNT / 2 + 1 ≤ e.coh.votes.length ∧ (1, 7) ∈ e.coh.votes ∧
      (∀ v ∈ e.coh.votes, v.2 < 7 ∨ (v.2 = 7 ∧ 1 ≤ v.1)) ∧ swf (fun _ => 0) e.coh.high = true) ∧
    (({ e with coh := { e.coh with votes := [(1, 7)] } } : State).coh.votes.length < 4 / 2 + 1 ∧
      (∀ v ∈ [((1 : Nat), (7 : Nat)), (0, 7)], v.2 < 7 ∨ (v.2 = 7 ∧ 0 ≤ v.1)) ∧
      ({ e with coh := { e.coh with electAt := 20000000 } } : State).clk.ns < 20000000 + 200000) ∧
    ((memberIn 4 0xF).coh.electAt + 10000000 ≤ (memberIn 4 0xF).clk.ns ∧ (memberIn 2 1).rd R.COH_STATUS_STATE = 2 ∧
      (memberIn 2 1).rd R.COH_STATUS_PRESENT = 0xC ∧ (memberIn 2 1).coh.members = [] ∧ (memberIn 2 1).tempoUsable = false) ∧
    (s.owns lfw Hdr.coh = true ∧ s.owns stranger Hdr.coh = false ∧ s.unitOn Hdr.coh = true ∧
      (memberIn 6 0xF).rd R.COH_STATUS_STATE = 6 ∧ (memberIn 6 2).rd R.COH_STATUS_LEAD = 2 ∧ (memberIn 5 2).rd R.COH_STATUS_STATE = 5) := by decide

/-- The lead in aligned tempo; context 9 is VALID, owned by member 3, and its RSSI field is not zero. -/
def leading : State :=
  let s := set (memberIn 2 1) [(R.TMP_STATUS_STATE, 2), (R.TMP_STATUS_VALID, 1), (R.TMP_STATUS_ALIGNED, 1)]
  ((s.setCtxNum 9 12 2 1).setCtxNum 9 68 4 3).setCtxNum 9 52 2 200

theorem test_witness_reassign :
    leading.tempoUsable = true ∧ leading.gen.commit = none ∧ bitOf (leading.rd R.COH_STATUS_PRESENT) 3 = true ∧
      leading.ctxValid 9 = true ∧ leading.ctxNum 9 68 1 % 16 = 3 ∧ leading.ctxNum 9 52 2 = 200 := by decide

/-! ### Witnesses of CohortMembersWorkTogether -/

def headFrom (m : Nat) : CohHead := ⟨m, 7, 0, true, false⟩

theorem test_witness_cohort_checks :
    let s := memberIn 3 2
    (2 ≤ s.rd R.COH_CFG_COUNT ∧ s.domOn Dom.coh = true ∧ s.enabled Hdr.coh = true ∧ (s.unit Hdr.coh).lapsed = false ∧
      (headFrom 2).epoch = s.rd R.COH_EPOCH_EPOCH % 256 ∧ s.coh.flywheels = false ∧ s.tempoValid = false ∧
      s.coh.tempoAt + 131072 ≤ ({ s with clk := { s.clk with edges := 200000 } } : State).clk.edges ∧
      (0 % 8 : Nat) = s.rd R.TMP_STATUS_STATE ∧ s.channelFill 3 10 < 4 ∧ (s.unit Hdr.mbx).lapsed = false ∧
      leading.rx.frames = [] ∧ leading.rx.combined = [] ∧ s.gen.commit = none ∧ s.coh.high = [] ∧ s.txuOpen = true ∧
      s.flag R.LNK_CFG_ACKEN = true ∧ s.ring.work = []) ∧
    (leading.ctxValid 9 = true ∧ leading.ctxNum 9 68 1 % 16 ≠ leading.rd R.COH_CFG_INDEX ∧ leading.ctxValid 8 = false ∧
      bitOf (leading.ctxNum 9 12 2) 4 = false ∧ bitOf (leading.ctxNum 9 12 2) 5 = false ∧
      (leading.setCtxNum 9 68 4 1).ctxNum 9 68 1 % 16 = leading.rd R.COH_CFG_INDEX ∧
      swf (fun _ => 0) [((9 : Nat), (0xFFFF0 : Nat))] = true ∧ swf (fun _ => 0) [((9 : Nat), (2 ^ 20 : Nat))] = true) ∧
    (s.memOn 0x10000100 = true ∧ s.rangeOn 0x10000100 8 = true ∧ s.bankOk 0 false 0x10000100 = true ∧ s.bankOk 0 false 0x10000107 = true ∧
      s.anyPoison 0x10000100 8 = false ∧ s.ramBytes 0x10000100 8 = true ∧ s.windowTarget 0x800000 = none ∧
      s.owns ⟨48, true, false⟩ Hdr.coh = false) := by decide

/-- Core 0 waits for a load of member 2's word at offset 0x100, or for a store to it. -/
def awaits (load : Bool) : State :=
  let s := memberIn 3 2
  s.setCore 0 { k0 with
    remote := if load then some ⟨0x68000100, 2, true, 4, some (3, 9#32), 0x10000004#32, 0⟩ else none
    stores := [(0x68000100, 5)] }

theorem test_witness_windows :
    ((awaits true).coreKey 0 = some 0 ∧ ((awaits true).core 0).remote.isSome = true ∧ ((awaits true).core 0).exl = false ∧
      (awaits true).upd.preparing = none) ∧
    ((awaits false).coreKey 0 = some 0 ∧ ((awaits false).core 0).remote = none ∧
      ((awaits false).core 0).stores = [(0x60000000 + 0x4000000 * 2 + 0x100, 5)] ∧ (awaits false).coreKey 5 ≠ some 0) := by decide

/-- The owner of partner 9 in a cohort of two, which gets the frame decoded by the lead. -/
theorem test_witness_owner :
    let r := set (receiving 3) [(R.COH_CFG_COUNT, 2), (R.COH_STATUS_STATE, 3)]
    let h := parseFrame joinPay
    r.inCohort = true ∧ r.ctxNum 9 68 1 % 16 = r.rd R.COH_CFG_INDEX ∧ r.coh.quiet = false ∧ h.malformed = false ∧
      r.isForMe 0 h.dest = true ∧ r.replayCheck 0 9 h = none ∧ r.openAs 0 h 9 0 = some [] ∧ (r.oldestRxBuf 3).isSome = true ∧
      hdrKind 10 ≠ 1 ∧ r.gen.commit = none ∧ h.type = 2 ∧ h.dest = r.ownShort ∧ h.ar = false := by decide

/-! ### Witnesses of UpdatesAreStagedTriedAndSettled -/

/-- A head of one part of no bytes whose hash is that of no bytes, and one whose part is a block. -/
def oddHead (len : Nat) : List Byte :=
  zeros 64 ++ (leBytes 2 1 ++ leBytes 2 1 ++ zeros 60) ++
    ([1#8, 1#8] ++ zeros 2 ++ leBytes 4 0x1000 ++ leBytes 4 len ++ zeros 4 ++ sha256 [] ++ zeros 80) ++ zeros 64

def updWorkOf (op : Nat) : Work :=
  { ring := 11, idx := 0, stage := .accepted, w := [op * 2 ^ 24, 0, 0, 0, 0x10000000], unit := Hdr.upd, prot := true }

/-- Ring 11 with one descriptor of the opcode, in the given stage, with part 0 of `len` bytes. -/
def updating (op stage len : Nat) : State :=
  { set on [(R.UPD_STATUS_STAGE, stage)] with ring := { work := [updWorkOf op] }, upd := { head := oddHead len, marks := [] } }

theorem test_witness_update_head :
    stagedParts (oddHead 4096) 0 = [0] ∧ partBlocks (oddHead 4096) 0 = 1 ∧ partBlocks (oddHead 0) 0 = 0 ∧ partSigned (oddHead 0) 0 = true ∧
      (updating 0x92 1 0).partHashed 1 (oddHead 0) 0 = true := by decide +kernel

theorem bytes_ring (s : State) (r : RingState) : ∀ n x, ({ s with ring := r } : State).bytes x n = s.bytes x n
  | 0, _ => rfl
  | n + 1, x => congrArg (s.byte (s.phys x) :: ·) (bytes_ring s r n (x + 1))

/-- A BLOCK whose word 5 is `crc`; with the CRC-32 of the 4 KB at its address the CRC holds. -/
def blockWork (crc : Nat) : Work :=
  { ring := 11, idx := 0, stage := .accepted, w := [0x91000000, 0, 0, 0, 0x10000000, crc], unit := Hdr.upd, prot := true }

theorem blockWork_crc (v : Nat) : (blockWork v).word 5 = v := rfl

theorem blockWork_source (v : Nat) : (blockWork v).word 4 = 0x10000000 := rfl

theorem test_witness_update_block (s : State) (v : Nat) (h : crc32 (s.bytes 0x10000000 4096) = v) :
    crc32 (({ s with ring := { work := [blockWork v] } } : State).bytes ((blockWork v).word 4) 4096) = (blockWork v).word 5 := by
  rw [bytes_ring, blockWork_crc, blockWork_source, h]

theorem test_witness_update :
    ((updating 0x90 0 0).workReady 11 0 0x90 (updWorkOf 0x90) = true ∧ (updating 0x91 1 0).workReady 11 0 0x91 (updWorkOf 0x91) = true ∧
      (updating 0x92 1 0).workReady 11 0 0x92 (updWorkOf 0x92) = true ∧ (updating 0x93 2 0).workReady 11 0 0x93 (updWorkOf 0x93) = true ∧
      (updating 0x94 3 0).workReady 11 0 0x94 (updWorkOf 0x94) = true ∧ (updating 0x95 3 0).workReady 11 0 0x95 (updWorkOf 0x95) = true ∧
      (updWorkOf 0x93).prot = true) ∧
    (let s := updating 0x93 2 0
     s.inCohort = false ∧ s.upd.preparing = none ∧ s.upd.activateAt = none ∧ s.upd.tasks = [] ∧ s.mem.nvmOp = none ∧
       s.domOn Dom.nvm = true ∧ (s.unit Hdr.nvm).lapsed = false ∧ (s.unit Hdr.upd).lapsed = false ∧
       s.devReadable 0x10000000 4096 = true ∧ s.bankAllows true 0x10000000 4096 = true ∧ s.rangeOn 0x10000000 4096 = true ∧
       s.devReadable 0 4096 = false) ∧
    (let l := { leading with upd := { preparing := some (0, 0), prepared := [2], activateAt := some 0 } }
     (leading.inCohort = true ∧ leading.rd R.COH_STATUS_STATE = 2 ∧ leading.domOn Dom.coh = true ∧ bitOf (leading.rd R.COH_STATUS_PRESENT) 3 = true) ∧
       (l.upd.preparing = some (0, 0) ∧ 0 + 10000000 ≤ l.clk.ns ∧ l.tempoUsable = true ∧ 0 ≤ stampDiff l.alignedStamp 0)) := by decide

/-- An activation's record is written; ring 1 is off and has one completion to write. -/
def leaving (stage : Stage) (work : List Work) : State :=
  { set on [(R.RNG_CQBASE_ADDR 1, 0x10001000 / 16), (R.RNG_CFG_LOG2 1, 3), (R.SRM_BANK_MAPPED 0, 1)] with
    upd := { leaving := some (0, 0) }
    ring := { work := work.map fun w => { w with stage := stage }
              done := [{ ring := 1, idx := 0, tag := 0, status := 0, flags := 0, stamp := 0, gen := 0, result := 0, event := false, at_ := 0 }] } }

theorem test_witness_leaving :
    ((leaving .accepted []).upd.leaving ≠ none ∧ (∀ n, n < 16 → (leaving .accepted []).flag (R.RNG_CFG_EN n) = false) ∧
      (leaving .accepted []).ring.work = [] ∧ (leaving .accepted []).cqFull 1 = false ∧
      (leaving .accepted []).memOn (16 * (leaving .accepted []).rd (R.RNG_CQBASE_ADDR 1)) = true) ∧
    0 + 1000 * (leaving .accepted []).boundOf Hdr.rng + ((leaving .accepted []).tx.airNs - 0) ≤ 1000 * (leaving .accepted []).boundOf Hdr.rng ∧
    (∀ w ∈ (leaving .waiting [updWorkOf 0x93]).ring.work, w.ring = 11 ∧ some 0 = some w.idx) := by decide

/-! ### Witnesses of HomeroomServesItsFrames -/

/-- Homeroom at OPEN, begun by the tag, with a part of no bytes staged and slot A passing. -/
def homeroom (finished : Bool) : State :=
  { updating 0 1 0 with
    phase := .homeroom
    upd := { head := oddHead 0, home := { cause := 3, byTag := true, passA := true, finished := finished, last := some (4, none) } } }

theorem test_witness_homeroom :
    let s := homeroom true
    let h : HomeHead := ⟨0, 5, true⟩
    (s.phase = .homeroom ∧ h.crcOk = true ∧ s.pathOpen h.path = true ∧ s.upd.home.last.any (·.1 == h.seq) = false ∧
      s.upd.home.last.any (·.1 == 4) = true ∧ s.upd.home.finished = true ∧ (homeroom false).upd.home.finished = false ∧
      s.rd R.UPD_STATUS_STAGE = 1 ∧ s.upd.slot < 2 ∧ s.tag.run = none ∧ s.tag.journal = []) ∧
    (let o : NvmOp := { cmd := 1, addr := 0x21A00000, data := [], startedAt := 0, update := true }
     o.update = true ∧ o.suspendedAt = none) ∧
    ({ s with clk := { s.clk with ns := 900000000000 } } : State).upd.home.at_ + 900000000000 ≤ 900000000000 := by decide

theorem test_witness_homeroom_set :
    ((stagedParts (oddHead 0) 0).map (partBlocks (oddHead 0))).sum = 0 ∧
      (homeroom true).partHashed 1 (oddHead 0) 0 = true ∧ partSigned (oddHead 0) 0 = true := by decide +kernel

end Sys2Proof.Tests
end

section
/-!
Register access over the bus (R2, R22, R23, R30): which unit page an address lies in, what a fold over the fields of
a register word does to each field, and what REGISTER_WRITE and REGISTER_READ do on the pages whose every register
follows its access code alone. The last theorem settles O8.
-/

namespace Sys2Proof.Machine

/-! ### Unit pages -/

/-- A unit's record names the header it was asked for. -/
theorem unitInfo_hdr {h : Nat} {i : UnitInfo} (e : unitInfo h = some i) : i.hdr = h := by
  unfold unitInfo at e
  iterate 5
    split at e
    · obtain rfl := Option.some.inj e
      rfl
  exact beq_iff_eq.mp (List.find?_some (p := fun u : UnitInfo => u.hdr == h) e)

/-- No unit lies below the unit pages. -/
theorem le_of_unitInfo {h : Nat} {i : UnitInfo} (e : unitInfo h = some i) : 0x40000000 ≤ h := by
  have arrays : Hdr.decEng 0 = 0x40023200 ∧ Hdr.cipEng 0 = 0x40028200 ∧ Hdr.core 0 = 0x40046200 := ⟨rfl, rfl, rfl⟩
  have single : ∀ u ∈ unitTable, 0x40000000 ≤ u.hdr := by decide
  have named := unitInfo_hdr e
  unfold unitInfo at e
  iterate 5
    split at e
    · omega
  have listed := single i (List.mem_of_find?_eq_some e)
  omega

/-- The base of a page lies in it. -/
theorem pageBase_le (a : Nat) : pageBase a ≤ a := by
  unfold pageBase
  split <;> omega

/-- The base of a page is its own page's base. -/
theorem pageBase_pageBase (a : Nat) : pageBase (pageBase a) = pageBase a := by
  by_cases h : 0x40100000 ≤ a
  · have : 0x40100000 ≤ a / 0x100 * 0x100 := by omega
    simp only [pageBase, h, this, if_true]
    omega
  · have : ¬0x40100000 ≤ a / 0x1000 * 0x1000 := by omega
    simp only [pageBase, h, this, if_false]
    omega

/-- A page's own header holds its owner: the ensemble headers of DEV that have owners of their own begin no page. -/
theorem ownerHeader_pageBase (a : Nat) : ownerHeader (pageBase a) = pageBase a := by
  have : ¬(Hdr.rad ≤ pageBase a ∧ pageBase a < Hdr.svc + 0x40) := by
    unfold pageBase Hdr.rad Hdr.svc
    split <;> omega
  rw [ownerHeader, if_neg this, pageBase_pageBase]

/-- The owner rule of the page that holds `a` (R30). -/
theorem State.owns_pageBase_iff (s : State) (who : Who) (a : Nat) :
    s.owns who (pageBase a) = true ↔
      s.rd (R.UOWNER_OWNER (pageBase a)) = who.stamp ∧ (who.prot = true ∨ s.rd (R.UOWNER_P (pageBase a)) = 0) := by
  simp [State.owns, ownerHeader_pageBase, State.flag]

/-- The domain of an assigned page is that of the unit at its base. -/
theorem State.pageOn_eq_unitOn {s : State} {a : Nat} (h : pageAssigned a = true) : s.pageOn a = s.unitOn (pageBase a) := by
  obtain ⟨u, hu⟩ := Option.isSome_iff_exists.mp h
  simp [State.pageOn, State.unitOn, pageDom, hu]

/-! ### Folds over the fields of a register word -/

/-- The bits of `r` in the register word at `a`. -/
def FieldRow.on (r : FieldRow) (a : Nat) : Fld := ⟨a, r.lsb, r.width⟩

/-- The bits of two rows do not overlap. -/
def FieldRow.apart (r q : FieldRow) : Prop := q.lsb + q.width ≤ r.lsb ∨ r.lsb + r.width ≤ q.lsb

/-- Each step of a fold over the fields of the word at `a` writes its own field, or nothing. -/
def StepsOwnField (a : Nat) (g : State → FieldRow → State) : Prop :=
  ∀ s r, g s r = s ∨ ∃ v, g s r = s.wr (r.on a) v

section Folds

variable {a : Nat} {g : State → FieldRow → State}

theorem StepsOwnField.wf (hg : StepsOwnField a g) {s : State} (r : FieldRow) (h : swf resetWord s.regs = true) :
    swf resetWord (g s r).regs = true := by
  obtain e | ⟨v, e⟩ := hg s r
  · rwa [e]
  · rw [e]; exact s.wr_wf _ _ h

theorem StepsOwnField.rd_apart (hg : StepsOwnField a g) {s : State} {r q : FieldRow} (h : swf resetWord s.regs = true)
    (fit : r.lsb + r.width ≤ 32) (d : r.apart q) : (g s r).rd (q.on a) = s.rd (q.on a) := by
  obtain e | ⟨v, e⟩ := hg s r
  · rw [e]
  · rw [e]; exact s.rd_wr_apart (r.on a) (q.on a) v h fit rfl d

theorem StepsOwnField.word_ne (hg : StepsOwnField a g) {s : State} (r : FieldRow) {x : Nat}
    (h : swf resetWord s.regs = true) (hx : x ≠ a) : (g s r).word x = s.word x := by
  obtain e | ⟨v, e⟩ := hg s r
  · rw [e]
  · rw [e]; exact s.word_setWord_ne _ _ _ h hx

/-- No register but the one at `a` changes. -/
theorem StepsOwnField.word_foldl (hg : StepsOwnField a g) {x : Nat} (hx : x ≠ a) (l : List FieldRow) :
    ∀ s : State, swf resetWord s.regs = true → (l.foldl g s).word x = s.word x := by
  induction l with
  | nil => exact fun _ _ => rfl
  | cons r l ih => exact fun s h => (ih _ (hg.wf r h)).trans (hg.word_ne r h hx)

/-- A field apart from every folded one stands. -/
theorem StepsOwnField.rd_foldl_apart (hg : StepsOwnField a g) {q : FieldRow} (l : List FieldRow) :
    ∀ s : State, swf resetWord s.regs = true → (∀ r ∈ l, r.lsb + r.width ≤ 32) → (∀ r ∈ l, r.apart q) →
      (l.foldl g s).rd (q.on a) = s.rd (q.on a) := by
  induction l with
  | nil => exact fun _ _ _ _ => rfl
  | cons r l ih =>
    intro s h fit d
    rw [List.forall_mem_cons] at fit d
    exact (ih _ (hg.wf r h) fit.2 d.2).trans (hg.rd_apart h fit.1 d.1)

/-- Each field of the word gets what its own step gives it, whatever the others' steps do. -/
theorem StepsOwnField.rd_foldl (hg : StepsOwnField a g) {new : FieldRow → Nat → Nat}
    (own : ∀ (s : State) (r : FieldRow), swf resetWord s.regs = true → r.lsb + r.width ≤ 32 →
      (g s r).rd (r.on a) = new r (s.rd (r.on a))) (l : List FieldRow) :
    ∀ s : State, swf resetWord s.regs = true → (∀ r ∈ l, r.lsb + r.width ≤ 32) → l.Pairwise FieldRow.apart →
      ∀ r ∈ l, (l.foldl g s).rd (r.on a) = new r (s.rd (r.on a)) := by
  induction l with
  | nil => exact fun _ _ _ _ r hr => absurd hr List.not_mem_nil
  | cons q l ih =>
    intro s h fit d r hr
    rw [List.forall_mem_cons] at fit
    obtain ⟨dq, dl⟩ := List.pairwise_cons.mp d
    obtain rfl | hr := List.mem_cons.mp hr
    · have stands := hg.rd_foldl_apart l (g s r) (hg.wf r h) fit.2 fun q hq => (dq q hq).symm
      exact stands.trans (own s r h fit.1)
    · rw [List.foldl_cons, ih _ (hg.wf q h) fit.2 dl r hr, hg.rd_apart h fit.1 (dq r hr)]

end Folds

theorem State.rd_lt (s : State) (f : Fld) : s.rd f < 2 ^ f.width := Nat.mod_lt _ (Nat.two_pow_pos _)

theorem bitsOf_lt (v lo w : Nat) : bitsOf v lo w < 2 ^ w := Nat.mod_lt _ (Nat.two_pow_pos w)

/-- A field of an all-ones mask is all ones. -/
theorem bitsOf_allOnes {lo w : Nat} (h : lo + w ≤ 32) : bitsOf 0xFFFFFFFF lo w = 2 ^ w - 1 := by
  apply Nat.eq_of_testBit_eq
  intro i
  rw [bitsOf, Nat.testBit_mod_two_pow, Nat.testBit_div_two_pow, show 0xFFFFFFFF = 2 ^ 32 - 1 from rfl,
    Nat.testBit_two_pow_sub_one, Nat.testBit_two_pow_sub_one]
  by_cases hi : i < w
  · simp [hi, show i + lo < 32 by omega]
  · simp [hi]

/-! ### Writes by access code (Table DEV-4) -/

/-- What a write of `v` to the whole word leaves in the field `r` that read `old`. -/
def FieldRow.written (v : Nat) (r : FieldRow) (old : Nat) : Nat :=
  match r.acc with
  | .rw => bitsOf v r.lsb r.width
  | .w1c => old - (old &&& bitsOf v r.lsb r.width)
  | .w1s => old ||| bitsOf v r.lsb r.width
  | _ => old

/-- One field's part of a write of the word at `a`. -/
def State.writeField (a v mask : Nat) (s : State) (r : FieldRow) : State :=
  let m := bitsOf mask r.lsb r.width
  let x := bitsOf v r.lsb r.width &&& m
  let old := s.rd (r.on a)
  match r.acc with
  | .rw => s.wr (r.on a) (old - (old &&& m) + x)
  | .w1c => s.wr (r.on a) (old - (old &&& x))
  | .w1s => s.wr (r.on a) (old ||| x)
  | _ => s

theorem State.writeFields_eq_foldl (s : State) (a v mask : Nat) :
    s.writeFields a v mask = (fieldsAt a).foldl (State.writeField a v mask) s := rfl

theorem stepsOwnField_writeField (a v mask : Nat) : StepsOwnField a (State.writeField a v mask) := by
  intro s r
  unfold State.writeField
  cases r.acc with
  | rw | w1c | w1s => exact .inr ⟨_, rfl⟩
  | ro | wo | rc => exact .inl rfl

theorem State.rd_writeField (a v : Nat) (s : State) (r : FieldRow) (h : swf resetWord s.regs = true)
    (fit : r.lsb + r.width ≤ 32) :
    (State.writeField a v 0xFFFFFFFF s r).rd (r.on a) = r.written v (s.rd (r.on a)) := by
  have hx := bitsOf_lt v r.lsb r.width
  have hold : s.rd (r.on a) < 2 ^ r.width := s.rd_lt _
  have whole : ∀ n, n < 2 ^ r.width → n &&& (2 ^ r.width - 1) = n := fun n hn => by
    rw [Nat.and_two_pow_sub_one_eq_mod, Nat.mod_eq_of_lt hn]
  have reads : ∀ n, n < 2 ^ r.width → (s.wr (r.on a) n).rd (r.on a) = n := fun n hn =>
    (s.rd_wr_same (r.on a) n h fit).trans (Nat.mod_eq_of_lt hn)
  unfold State.writeField FieldRow.written
  simp only [bitsOf_allOnes fit, whole _ hx, whole _ hold]
  cases r.acc with
  | rw =>
    have all : s.rd (r.on a) - s.rd (r.on a) + bitsOf v r.lsb r.width = bitsOf v r.lsb r.width := by omega
    exact (congrArg (fun n => (s.wr (r.on a) n).rd (r.on a)) all).trans (reads _ hx)
  | w1c => exact reads _ (Nat.lt_of_le_of_lt (Nat.sub_le _ _) hold)
  | w1s => exact reads _ (Nat.or_lt_two_pow hold hx)
  | ro | wo | rc => rfl

/-! ### Reads that clear (Table DEV-4) -/

/-- What a read leaves in the field `r` that read `old`. -/
def FieldRow.afterRead (r : FieldRow) (old : Nat) : Nat :=
  match r.acc with
  | .rc => 0
  | _ => old

/-- One field's part of a read of the word at `a`. -/
def State.clearField (a : Nat) (s : State) (r : FieldRow) : State := if r.acc = .rc then s.wr (r.on a) 0 else s

theorem State.readClear_eq_foldl (s : State) (a : Nat) : s.readClear a = (fieldsAt a).foldl (State.clearField a) s := rfl

theorem stepsOwnField_clearField (a : Nat) : StepsOwnField a (State.clearField a) := by
  intro s r
  unfold State.clearField
  split
  · exact .inr ⟨0, rfl⟩
  · exact .inl rfl

theorem State.rd_clearField (a : Nat) (s : State) (r : FieldRow) (h : swf resetWord s.regs = true)
    (fit : r.lsb + r.width ≤ 32) : (State.clearField a s r).rd (r.on a) = r.afterRead (s.rd (r.on a)) := by
  unfold State.clearField FieldRow.afterRead
  cases r.acc with
  | rc => exact (s.rd_wr_same (r.on a) 0 h fit).trans (Nat.zero_mod _)
  | rw | ro | wo | w1c | w1s => rfl

/-! ### The pages of the hunter, the lane ensemble, the transmitter and the lanes -/

/-- `a` lies in the page of HNT, LNS, TXU or of a lane, where no register has an effect beyond its access codes. -/
def CodedPage (a : Nat) : Prop := a / 0x1000 ∈ [0x40021, 0x40022, 0x40024] ∨ 0x40100000 ≤ a

/-- Two rows name different registers, or bits of one that do not overlap. The registers differ where the two ranges
of addresses do, or where equal strides leave different remainders. -/
def FieldRow.separate (r q : FieldRow) : Bool :=
  decide (q.lsb + q.width ≤ r.lsb) || decide (r.lsb + r.width ≤ q.lsb) ||
  decide (r.addr + r.stride * r.count < q.addr) || decide (q.addr + q.stride * q.count < r.addr) ||
  (decide (r.stride = q.stride) && decide (r.addr % r.stride ≠ q.addr % q.stride))

/-- A row names addresses of its range with its remainder. -/
theorem FieldRow.at_range {r : FieldRow} {a : Nat} (h : r.at a = true) :
    r.addr ≤ a ∧ a ≤ r.addr + r.stride * r.count ∧ a % r.stride = r.addr % r.stride := by
  unfold FieldRow.at at h
  by_cases hs : r.stride = 0
  · obtain rfl : r.addr = a := by simpa [hs] using h
    exact ⟨Nat.le_refl _, Nat.le_add_right _ _, rfl⟩
  · rw [if_neg hs] at h
    simp only [Bool.and_eq_true, decide_eq_true_eq] at h
    obtain ⟨⟨low, whole⟩, few⟩ := h
    have split : a = r.addr + r.stride * ((a - r.addr) / r.stride) := by
      have := Nat.div_add_mod (a - r.addr) r.stride
      omega
    have bound := Nat.mul_le_mul_left r.stride (Nat.le_of_lt few)
    have rest : (r.addr + r.stride * ((a - r.addr) / r.stride)) % r.stride = r.addr % r.stride :=
      Nat.add_mul_mod_self_left _ _ _
    rw [← split] at rest
    exact ⟨low, by omega, rest⟩

theorem FieldRow.apart_of_separate {r q : FieldRow} {a : Nat} (h : r.separate q = true) (hr : r.at a = true)
    (hq : q.at a = true) : r.apart q := by
  obtain ⟨rlow, rhigh, rmod⟩ := FieldRow.at_range hr
  obtain ⟨qlow, qhigh, qmod⟩ := FieldRow.at_range hq
  simp only [FieldRow.separate, Bool.or_eq_true, Bool.and_eq_true, decide_eq_true_eq] at h
  rcases h with (((h | h) | h) | h) | ⟨hs, hm⟩
  · exact .inl h
  · exact .inr h
  · omega
  · omega
  · rw [hs] at rmod hm
    exact absurd (rmod.symm.trans qmod) hm

theorem separate_codedRows : ∀ l ∈ [regRowsLANE, regRowsHNT, regRowsLNS, regRowsTXU],
    (∀ r ∈ l, r.lsb + r.width ≤ 32) ∧ l.Pairwise fun r q => r.separate q = true := by decide

namespace CodedPage

variable {a : Nat}

/-- A lane, or one of the three pages; on these neither the lanes' nor the timers' range holds the address. -/
theorem lane_or_page (h : CodedPage a) : 0x40100000 ≤ a ∨ ¬0x40100000 ≤ a ∧ ¬(0x40010000 ≤ a ∧ a < 0x40018000) ∧
    (a / 0x1000 = 0x40021 ∨ a / 0x1000 = 0x40022 ∨ a / 0x1000 = 0x40024) := by
  simp only [CodedPage, List.mem_cons, List.not_mem_nil, or_false] at h
  omega

theorem pageRows_mem (h : CodedPage a) : pageRows a ∈ [regRowsLANE, regRowsHNT, regRowsLNS, regRowsTXU] := by
  obtain lane | ⟨lane, tmr, hk | hk | hk⟩ := h.lane_or_page
  · simp [pageRows, lane]
  all_goals simp [pageRows, lane, tmr, hk]

theorem fields_fit (h : CodedPage a) : ∀ r ∈ fieldsAt a, r.lsb + r.width ≤ 32 := fun r hr =>
  (separate_codedRows _ h.pageRows_mem).1 r (List.mem_filter.mp hr).1

theorem fields_apart (h : CodedPage a) : (fieldsAt a).Pairwise FieldRow.apart :=
  ((separate_codedRows _ h.pageRows_mem).2.filter _).imp_of_mem fun hr hq sep =>
    FieldRow.apart_of_separate sep (List.mem_filter.mp hr).2 (List.mem_filter.mp hq).2

/-- A write there goes by the access codes under the page owner's rule. -/
theorem regWrite_eq (h : CodedPage a) (hh : headerAt a = none) (s : State) (who : Who) (v mask : Nat) :
    s.regWrite who a v mask = s.plainWrite who a v mask := by
  obtain lane | ⟨lane, tmr, hk | hk | hk⟩ := h.lane_or_page
  · simp [State.regWrite, hh, lane]
  all_goals simp [State.regWrite, hh, lane, tmr, hk]

/-- No read there latches, removes or draws. -/
theorem readSpecial_eq (h : CodedPage a) (s : State) (who : Who) : s.readSpecial who a = none := by
  obtain lane | ⟨-, tmr, hk | hk | hk⟩ := h.lane_or_page
  · unfold State.readSpecial
    rw [if_neg (by omega)]
    split
    rotate_right
    · rfl
    all_goals omega
  all_goals simp [State.readSpecial, tmr, hk]

/-- Every field of the word gets the value of its access code; every other register stands. -/
theorem rd_writeFields (h : CodedPage a) {s : State} (wf : swf resetWord s.regs = true) (v : Nat) :
    ∀ r ∈ fieldsAt a, (s.writeFields a v 0xFFFFFFFF).rd (r.on a) = r.written v (s.rd (r.on a)) :=
  (stepsOwnField_writeField a v _).rd_foldl (State.rd_writeField a v) _ s wf h.fields_fit h.fields_apart

theorem rd_readClear (h : CodedPage a) {s : State} (wf : swf resetWord s.regs = true) :
    ∀ r ∈ fieldsAt a, (s.readClear a).rd (r.on a) = r.afterRead (s.rd (r.on a)) :=
  (stepsOwnField_clearField a).rd_foldl (State.rd_clearField a) _ s wf h.fields_fit h.fields_apart

end CodedPage

theorem State.word_writeFields_ne {s : State} (wf : swf resetWord s.regs = true) {a x : Nat} (v mask : Nat) (hx : x ≠ a) :
    (s.writeFields a v mask).word x = s.word x := (stepsOwnField_writeField a v mask).word_foldl hx _ s wf

theorem State.word_readClear_ne {s : State} (wf : swf resetWord s.regs = true) {a x : Nat} (hx : x ≠ a) :
    (s.readClear a).word x = s.word x := (stepsOwnField_clearField a).word_foldl hx _ s wf

/-! ### What a read shows fits a word -/

theorem CodedPage.readMask_lt {a : Nat} (h : CodedPage a) : readMask a < 2 ^ 32 := by
  refine List.foldlRecOn _ _ (motive := (· < 2 ^ 32)) (Nat.two_pow_pos 32) fun m hm r hr => ?_
  split
  · exact hm
  · refine Nat.or_lt_two_pow hm ?_
    have fit := h.fields_fit r hr
    calc (2 ^ r.width - 1) * 2 ^ r.lsb
        < 2 ^ r.width * 2 ^ r.lsb := Nat.mul_lt_mul_of_pos_right (Nat.sub_lt (Nat.two_pow_pos _) Nat.one_pos) (Nat.two_pow_pos _)
      _ = 2 ^ (r.width + r.lsb) := (Nat.pow_add ..).symm
      _ ≤ 2 ^ 32 := Nat.pow_le_pow_right Nat.two_pos (by omega)

/-- Of the child tables only that of the lane ensemble lies in these pages. -/
theorem CodedPage.eq_lns_of_mem_tablesIn {a t : Nat} (h : CodedPage a) (ht : t ∈ tablesIn (pageBase a)) : t = Hdr.lns := by
  have none_in : ∀ b ∈ [Hdr.hnt, Hdr.txu], tablesIn b = [] := by decide
  have in_lns : tablesIn Hdr.lns = [Hdr.lns] := by decide
  have base : ∀ k, ¬0x40100000 ≤ a → a / 0x1000 = k → pageBase a = k * 0x1000 := fun k lane hk => by
    rw [pageBase, if_neg lane, hk]
  obtain lane | ⟨lane, -, hk | hk | hk⟩ := h.lane_or_page
  · have high : 0x40100000 ≤ pageBase a := by rw [pageBase, if_pos lane]; omega
    have low : ∀ k ∈ [Hdr.dev, Hdr.coh, Hdr.lns, Hdr.dec, Hdr.cip, Hdr.cpu, Hdr.ser], k < 0x40100000 := by decide
    have ne : ∀ k ∈ [Hdr.dev, Hdr.coh, Hdr.lns, Hdr.dec, Hdr.cip, Hdr.cpu, Hdr.ser], pageBase a ≠ k := fun k hk e => by
      have := low k hk
      omega
    simp only [List.forall_mem_cons] at ne
    simp [tablesIn, arrayOf, ne] at ht
  · rw [base _ lane hk, none_in _ (by decide)] at ht
    exact absurd ht List.not_mem_nil
  · rw [base _ lane hk] at ht
    exact List.mem_singleton.mp (in_lns ▸ ht)
  · rw [base _ lane hk, none_in _ (by decide)] at ht
    exact absurd ht List.not_mem_nil

/-- The lane ensemble's children are headers of physical lanes whose number fits the map's field. -/
theorem State.lt_of_mem_childList_lns {s : State} {v : Nat} (h : v ∈ s.childList Hdr.lns) : v < 2 ^ 32 := by
  have array : arrayOf Hdr.lns = some .lane := by decide
  simp only [State.childList, array, List.mem_map, List.mem_append, List.mem_filter, List.mem_range, State.spares] at h
  obtain ⟨p, hp, rfl⟩ := h
  have : p < 2 ^ 7 := by
    rcases hp with (⟨n, -, rfl⟩ | ⟨hp, -⟩) | ⟨hp, -⟩
    · exact s.rd_lt (R.LNS_MAP_PHYS n)
    · exact Nat.lt_trans hp (by decide)
    · exact Nat.lt_trans hp (by decide)
  simp only [Arr.hdr, Hdr.lane]
  omega

theorem CodedPage.childWord_lt {a v : Nat} (h : CodedPage a) {s : State} (e : s.childWord a = some v) : v < 2 ^ 32 := by
  obtain ⟨t, ht, e⟩ := List.exists_of_findSome?_eq_some e
  dsimp only at e
  split at e
  · rw [h.eq_lns_of_mem_tablesIn ht] at e
    exact State.lt_of_mem_childList_lns (List.mem_of_getElem? e)
  · cases e

theorem CodedPage.viewWord_lt {a : Nat} (h : CodedPage a) (hh : headerAt a = none) (s : State) : s.viewWord a < 2 ^ 32 := by
  unfold State.viewWord
  rw [hh]
  dsimp only
  split
  · exact Nat.two_pow_pos 32
  · split
    next e => exact h.childWord_lt e
    next => exact Nat.and_lt_two_pow _ h.readMask_lt

/-! ### The owner's rule (R30) -/

section Owner

variable {s : State} {who : Who} {p : Nat} {f : State → State}

theorem State.noteLate_of_punctual (h : who.late = false) (unit : Nat) : s.noteLate who unit = s := by
  simp [State.noteLate, h]

theorem State.pageWrite_foreign (h : s.owns who p = false) : s.pageWrite who p f = s.denied who := by
  simp [State.pageWrite, State.guarded, h]

theorem State.pageWrite_owner (h : s.owns who p = true) (hl : who.late = false) :
    s.pageWrite who p f = if s.unitOn p then f s else s := by
  simp [State.pageWrite, State.guarded, h, State.noteLate_of_punctual hl]

/-- The counter of ignored writes steps up to its limit. -/
theorem State.denied_count (wf : swf resetWord s.regs = true) :
    (s.denied who).rd R.DEV_ACCESS_COUNT = min 65535 (s.rd R.DEV_ACCESS_COUNT + 1) := by
  have step : (s.bump R.DEV_ACCESS_COUNT).rd R.DEV_ACCESS_COUNT = satAdd 16 (s.rd R.DEV_ACCESS_COUNT) 1 % 2 ^ 16 :=
    s.rd_wr_same _ _ wf (by decide)
  have keep : (s.denied who).rd R.DEV_ACCESS_COUNT = (s.bump R.DEV_ACCESS_COUNT).rd R.DEV_ACCESS_COUNT :=
    State.rd_wr_apart _ _ _ _ (s.wr_wf _ _ wf) (by decide) rfl (by decide)
  rw [keep, step, satAdd]
  split <;> omega

theorem State.denied_last (wf : swf resetWord s.regs = true) :
    (s.denied who).rd R.DEV_ACCESS_LAST = who.stamp % 256 := State.rd_wr_same _ _ _ (s.wr_wf _ _ wf) (by decide)

theorem State.denied_word_ne (wf : swf resetWord s.regs = true) {x : Nat} (hx : x ≠ 0x4000004C) :
    (s.denied who).word x = s.word x :=
  (State.word_setWord_ne _ _ _ _ (s.wr_wf _ _ wf) hx).trans (s.word_setWord_ne _ _ _ wf hx)

end Owner

/-- `a` lies in the page of the timetable, of DALI, DIM, a serial port or GPI, some of whose registers act. -/
def ActingPage (a : Nat) : Prop := a / 0x1000 ∈ [0x40027, 0x4002A, 0x4002B, 0x4002C, 0x4002D, 0x4002E, 0x40047]

namespace ActingPage

variable {a : Nat}

theorem page_cases (h : ActingPage a) : ¬0x40100000 ≤ a ∧ ¬(0x40010000 ≤ a ∧ a < 0x40018000) ∧
    (a / 0x1000 = 0x40027 ∨ a / 0x1000 = 0x4002A ∨ a / 0x1000 = 0x4002B ∨ a / 0x1000 = 0x4002C ∨ a / 0x1000 = 0x4002D ∨
      a / 0x1000 = 0x4002E ∨ a / 0x1000 = 0x40047) := by
  simp only [ActingPage, List.mem_cons, List.not_mem_nil, or_false] at h
  omega

theorem assigned (h : ActingPage a) : pageAssigned a = true := by
  have pages : ∀ k ∈ [0x40027, 0x4002A, 0x4002B, 0x4002C, 0x4002D, 0x4002E, 0x40047],
      (unitInfo (k * 0x1000)).isSome = true := by decide
  rw [pageAssigned, pageBase, if_neg h.page_cases.1]
  exact pages _ h

/-- Every write there is under the page owner's rule, whatever the register does. -/
theorem regWrite_foreign (h : ActingPage a) (hh : headerAt a = none) {s : State} {who : Who}
    (ho : s.owns who (pageBase a) = false) (v mask : Nat) : s.regWrite who a v mask = s.denied who := by
  have act : ∀ f, s.actWrite who a f = s.denied who := fun f => State.pageWrite_foreign ho
  have plain : s.plainWrite who a v mask = s.denied who := act _
  have serial : ∀ kind w, s.writeSerial who kind a v mask w = s.denied who := fun kind w => by
    unfold State.writeSerial
    dsimp only
    split
    · exact plain
    · split <;> exact act _
  have dali : ∀ w, s.writeDal who a v mask w = s.denied who := fun w => by simp [State.writeDal, act, plain]
  have gpio : s.writeGpi who a v mask = s.denied who := by simp [State.writeGpi, act]
  obtain ⟨lane, tmr, hk | hk | hk | hk | hk | hk | hk⟩ := h.page_cases
  all_goals simp [State.regWrite, hh, lane, tmr, hk, act, plain, serial, dali, gpio]

end ActingPage

/-! ### The two commands (R2, R22, R23) -/

theorem State.reply_only {ps : List Part} {s₀ s : State} (h : Only ps s₀ s) (hp : Parts [.bus] ps) (n : Nat) :
    Only ps s₀ (State.reply (s, n)) := h.set_bus hp

section Commands

variable {s : State} {t : Elapsed} {who : Who} {a : Nat}

theorem State.busAccess_page {f : State → State} (on : s.domOn Dom.sys = true) (ha : pageAssigned a = true)
    (below : a < 0x40200000) : s.busAccess a f = f s := by
  obtain ⟨_, hu⟩ := Option.isSome_iff_exists.mp ha
  have low : 0x40000000 ≤ a := Nat.le_trans (le_of_unitInfo hu) (pageBase_le a)
  simp [State.busAccess, on, low, below, ha]

theorem State.busAccess_outside {f : State → State} (on : s.domOn Dom.sys = true)
    (out : a < 0x40000000 ∨ 0x40200000 ≤ a ∨ pageAssigned a = false) :
    s.busAccess a f = { s with bus := { value := 0, error := true } } := by
  have : ¬(0x40000000 ≤ a ∧ a < 0x40200000 ∧ pageAssigned a = true) := by
    rintro ⟨low, below, ha⟩
    rw [ha] at out
    simp only [reduceCtorEq, or_false] at out
    omega
  simp [State.busAccess, on, this]

theorem exec_registerWrite_page {v : Nat} (on : (s.advance t).domOn Dom.sys = true) (ha : pageAssigned a = true)
    (below : a < 0x40200000) : exec (.registerWrite t who a v) s =
      .next (State.reply ((s.advance t).regWrite who a v 0xFFFFFFFF, 0)) :=
  congrArg Host.Outcome.next (State.busAccess_page on ha below)

theorem exec_registerRead_page (on : (s.advance t).domOn Dom.sys = true) (ha : pageAssigned a = true)
    (below : a < 0x40200000) : exec (.registerRead t who a) s = .next (State.reply ((s.advance t).regRead who a)) :=
  congrArg Host.Outcome.next (State.busAccess_page on ha below)

theorem exec_registerWrite_outside {v : Nat} (on : (s.advance t).domOn Dom.sys = true)
    (out : a < 0x40000000 ∨ 0x40200000 ≤ a ∨ pageAssigned a = false) : exec (.registerWrite t who a v) s =
      .next { s.advance t with bus := { value := 0, error := true } } :=
  congrArg Host.Outcome.next (State.busAccess_outside on out)

theorem exec_registerRead_outside (on : (s.advance t).domOn Dom.sys = true)
    (out : a < 0x40000000 ∨ 0x40200000 ≤ a ∨ pageAssigned a = false) : exec (.registerRead t who a) s =
      .next { s.advance t with bus := { value := 0, error := true } } :=
  congrArg Host.Outcome.next (State.busAccess_outside on out)

/-- A read of a register beyond the header of a page that is on shows its view and clears its RC fields. -/
theorem State.regRead_coded (h : CodedPage a) (ha : pageAssigned a = true) (body : 0x40 ≤ a - pageBase a)
    (hl : who.late = false) (on : s.unitOn (pageBase a) = true) :
    s.regRead who a = (s.readClear a, s.viewWord a) := by
  simp [State.regRead, body, State.pageOn_eq_unitOn ha, on, State.noteLate_of_punctual hl, h.readSpecial_eq]

/-- A page that is not on reads zero beyond its header (R23). -/
theorem State.regRead_off (ha : pageAssigned a = true) (body : 0x40 ≤ a - pageBase a)
    (off : s.unitOn (pageBase a) = false) : s.regRead who a = (s, 0) := by
  simp [State.regRead, State.viewWord, body, State.pageOn_eq_unitOn ha, off]

/-- A read within the header has no effect. -/
theorem State.regRead_header (hd : a - pageBase a < 0x40) : s.regRead who a = (s, s.viewWord a) := by
  simp [State.regRead, Nat.not_le.mpr hd]

/-- A leaf unit whose domain is not on reads USTATE as the state of its domain (R23, R34). -/
theorem State.ustate_off {h : Nat} {i : UnitInfo} (e : unitInfo h = some i) (leaf : childrenOf h = [])
    (off : (s.dom i.dom).state < 2) (fuel : Nat) : State.ustate (fuel + 1) s h = (s.dom i.dom).state := by
  simp [State.ustate, isEnsemble, leaf, State.leafState, e, off]

/-- USTATE is the second word of the header at the base of a page; its low bits are the unit's state. -/
theorem State.viewWord_ustate {h : Nat} {i : UnitInfo} (e : unitInfo h = some i) (base : pageBase h = h) :
    pageBase (h + 4) = h ∧ s.viewWord (h + 4) = 65536 * min 256 (s.inflight h) + State.ustate 4 s h := by
  have aligned : h % 0x100 = 0 := by unfold pageBase at base; split at base <;> omega
  have next : pageBase (h + 4) = h := by
    by_cases lane : 0x40100000 ≤ h
    · rw [pageBase, if_pos (by omega)]
      omega
    · rw [pageBase, if_neg lane] at base
      have samePage : (h + 4) / 0x1000 = h / 0x1000 := by
        rw [← base, Nat.mul_comm, Nat.mul_add_div (by decide)]
        simp
      rw [pageBase, if_neg (by omega), samePage, base]
  have header : headerAt (h + 4) = some (i, 4) := by
    have floor : (h + 4) / 0x40 * 0x40 = h := by omega
    have offset : (h + 4) % 0x40 = 4 := by omega
    simp [headerAt, floor, offset, e]
  refine ⟨next, ?_⟩
  have inHeader : ¬0x40 ≤ h + 4 - h := by omega
  simp [State.viewWord, next, header, State.headerWord, unitInfo_hdr e]

end Commands

/-! ### O8 -/

/-- A register of a coded page, beyond the unit headers. -/
structure CodedRegister (a : Nat) : Prop where
  assigned : pageAssigned a = true
  body : 0x40 ≤ a - pageBase a
  below : a < 0x40200000
  coded : CodedPage a
  noHeader : headerAt a = none

section Clauses

variable {s : State} {t : Elapsed} {who : Who} {a v : Nat}

/-- The page's owner writes a register of a page that is on. -/
theorem registerWrite_by_owner (wf : swf resetWord (s.advance t).regs = true) (on : (s.advance t).domOn Dom.sys = true)
    (hl : who.late = false) (h : CodedRegister a) (ho : (s.advance t).owns who (pageBase a) = true)
    (hp : (s.advance t).unitOn (pageBase a) = true) : ∃ u, exec (.registerWrite t who a v) s = .next u ∧
      (∀ r ∈ fieldsAt a, u.rd (r.on a) = r.written v ((s.advance t).rd (r.on a))) ∧
      (∀ x, x ≠ a → u.word x = (s.advance t).word x) ∧ u.bus = { value := 0, error := false } ∧
      Only [.regs, .bus] (s.advance t) u := by
  have effect : (s.advance t).regWrite who a v 0xFFFFFFFF = (s.advance t).writeFields a v 0xFFFFFFFF := by
    rw [h.coded.regWrite_eq h.noHeader, State.plainWrite, State.pageWrite_owner ho hl, if_pos hp]
  refine ⟨_, exec_registerWrite_page on h.assigned h.below, ?_⟩
  rw [effect]
  exact ⟨h.coded.rd_writeFields wf v, fun x hx => State.word_writeFields_ne wf v _ hx, rfl,
    State.reply_only (State.writeFields_only (Only.refl _ _) (by decide)) (by decide) 0⟩

/-- Anyone else's write is ignored and counted (R30). -/
theorem registerWrite_by_other (wf : swf resetWord (s.advance t).regs = true) (on : (s.advance t).domOn Dom.sys = true)
    (h : CodedRegister a ∨ (ActingPage a ∧ headerAt a = none)) (ho : (s.advance t).owns who (pageBase a) = false) :
    ∃ u, exec (.registerWrite t who a v) s = .next u ∧
      u.rd R.DEV_ACCESS_COUNT = min 65535 ((s.advance t).rd R.DEV_ACCESS_COUNT + 1) ∧
      u.rd R.DEV_ACCESS_LAST = who.stamp % 256 ∧
      (∀ x, x ≠ 0x4000004C → u.word x = (s.advance t).word x) ∧ Only [.regs, .bus] (s.advance t) u := by
  have effect : (s.advance t).regWrite who a v 0xFFFFFFFF = (s.advance t).denied who := by
    obtain h | ⟨h, hh⟩ := h
    · exact (h.coded.regWrite_eq h.noHeader _ _ _ _).trans (State.pageWrite_foreign ho)
    · exact h.regWrite_foreign hh ho _ _
  obtain ⟨assigned, below⟩ : pageAssigned a = true ∧ a < 0x40200000 := by
    obtain h | ⟨h, -⟩ := h
    · exact ⟨h.assigned, h.below⟩
    · exact ⟨h.assigned, by have := h.page_cases.1; omega⟩
  refine ⟨_, exec_registerWrite_page on assigned below, ?_⟩
  rw [effect]
  exact ⟨State.denied_count wf, State.denied_last wf, fun x hx => State.denied_word_ne wf hx,
    State.reply_only (State.denied_only (Only.refl _ _) (by decide)) (by decide) 0⟩

/-- The owner's write to a page that is not on is ignored (R23). -/
theorem registerWrite_off (on : (s.advance t).domOn Dom.sys = true) (hl : who.late = false) (h : CodedRegister a)
    (ho : (s.advance t).owns who (pageBase a) = true) (hp : (s.advance t).unitOn (pageBase a) = false) :
    ∃ u, exec (.registerWrite t who a v) s = .next u ∧ Only [.bus] (s.advance t) u := by
  have effect : (s.advance t).regWrite who a v 0xFFFFFFFF = s.advance t := by
    rw [h.coded.regWrite_eq h.noHeader, State.plainWrite, State.pageWrite_owner ho hl, hp, if_neg Bool.false_ne_true]
  refine ⟨_, exec_registerWrite_page on h.assigned h.below, ?_⟩
  rw [effect]
  exact State.reply_only (Only.refl _ _) (by decide) 0

/-- A read of a register of a page that is on. -/
theorem registerRead_on (wf : swf resetWord (s.advance t).regs = true) (on : (s.advance t).domOn Dom.sys = true)
    (hl : who.late = false) (h : CodedRegister a) (hp : (s.advance t).unitOn (pageBase a) = true) :
    ∃ u, exec (.registerRead t who a) s = .next u ∧ u.bus = { value := (s.advance t).viewWord a, error := false } ∧
      (∀ r ∈ fieldsAt a, u.rd (r.on a) = r.afterRead ((s.advance t).rd (r.on a))) ∧
      (∀ x, x ≠ a → u.word x = (s.advance t).word x) ∧ Only [.regs, .bus] (s.advance t) u := by
  have fits := h.coded.viewWord_lt h.noHeader (s.advance t)
  refine ⟨_, exec_registerRead_page on h.assigned h.below, ?_⟩
  rw [State.regRead_coded h.coded h.assigned h.body hl hp]
  refine ⟨?_, h.coded.rd_readClear wf, fun x hx => State.word_readClear_ne wf hx,
    State.reply_only (State.readClear_only (Only.refl _ _) (by decide)) (by decide) _⟩
  rw [State.reply, Nat.mod_eq_of_lt fits]

/-- A read of a register of a page that is not on. -/
theorem registerRead_off (on : (s.advance t).domOn Dom.sys = true) (h : CodedRegister a)
    (hp : (s.advance t).unitOn (pageBase a) = false) : ∃ u, exec (.registerRead t who a) s = .next u ∧
      u.bus = { value := 0, error := false } ∧ Only [.bus] (s.advance t) u := by
  refine ⟨_, exec_registerRead_page on h.assigned h.below, ?_⟩
  rw [State.regRead_off h.assigned h.body hp]
  exact ⟨rfl, State.reply_only (Only.refl _ _) (by decide) 0⟩

/-- A read of USTATE in the header of a leaf unit whose domain is not on. -/
theorem registerRead_ustate_off {i : UnitInfo} (on : (s.advance t).domOn Dom.sys = true) (e : unitInfo a = some i)
    (base : pageBase a = a) (leaf : childrenOf a = []) (off : ((s.advance t).dom i.dom).state < 2)
    (below : a < 0x40200000) : ∃ u, exec (.registerRead t who (a + 4)) s = .next u ∧ u.bus.error = false ∧
      u.bus.value % 8 = ((s.advance t).dom i.dom).state ∧ Only [.bus] (s.advance t) u := by
  obtain ⟨page, view⟩ := State.viewWord_ustate (s := s.advance t) e base
  have assigned : pageAssigned (a + 4) = true := by rw [pageAssigned, page, e]; rfl
  have stillBelow : a + 4 < 0x40200000 := by unfold pageBase at base; split at base <;> omega
  refine ⟨_, exec_registerRead_page on assigned stillBelow, ?_⟩
  rw [State.regRead_header (by omega), view, State.ustate_off e leaf off]
  refine ⟨rfl, ?_, State.reply_only (Only.refl _ _) (by decide) _⟩
  show (65536 * min 256 ((s.advance t).inflight a) + ((s.advance t).dom i.dom).state) % 2 ^ 32 % 8 = _
  omega

end Clauses

end Sys2Proof.Machine
end

section

open Sys2Proof Sys2Proof.Machine

/-- Settles O8: each clause is one of the lemmas above; the register file of the state after the elapsed time is
canonical because letting time pass keeps the canonical form. -/
theorem registerAccessFollowsItsCode : Obligations.RegisterAccessFollowsItsCode := by
  unfold Obligations.RegisterAccessFollowsItsCode
  intro s t who addr v canonical a page plain allowed on hl _
  have wf : swf resetWord a.regs = true :=
    ((State.advance_only (ps := [.clk, .regs, .ev, .tx, .trace]) (Only.refl _ s) (by decide)).canonical canonical).regs
  have register : plain → CodedRegister addr := fun ⟨assigned, body, _, below, coded, noHeader⟩ =>
    ⟨assigned, body, below, coded, noHeader⟩
  have owner : allowed → a.owns who page = true := (a.owns_pageBase_iff who addr).mpr
  have other : ¬allowed → a.owns who page = false := fun h =>
    Bool.eq_false_iff.mpr (mt (a.owns_pageBase_iff who addr).mp h)
  refine ⟨fun h ha hp => ?_, fun h ha => ?_, fun h ha hp => registerWrite_off on hl (register h) (owner ha) hp,
    fun h hp => ?_, fun h hp => registerRead_off on (register h) hp,
    fun i e base leaf off _ below => registerRead_ustate_off on e base leaf off below, fun out => ?_⟩
  · obtain ⟨u, run, fields, rest⟩ := registerWrite_by_owner (v := v) wf on hl (register h) (owner ha) hp
    refine ⟨u, run, fun r hr => (fields r hr).trans ?_, rest⟩
    unfold FieldRow.written
    cases r.acc <;> rfl
  · exact registerWrite_by_other wf on (h.imp_left register) (other ha)
  · obtain ⟨u, run, shown, fields, rest⟩ := registerRead_on wf on hl (register h) hp
    refine ⟨u, run, shown, fun r hr => (fields r hr).trans ?_, rest⟩
    unfold FieldRow.afterRead
    cases r.acc <;> rfl
  · exact ⟨⟨_, exec_registerWrite_outside on out, rfl, (Only.refl _ _).set_bus (by decide)⟩,
      ⟨_, exec_registerRead_outside on out, rfl, (Only.refl _ _).set_bus (by decide)⟩⟩

end

section
/-!
Mailboxes and served work (R84, R108-R115): what a refused write, a raised event, a delivered notice and a decided
descriptor leave in each part of the state; one equation per case of a send, of a receive read and of the end of a
cohort send; what the served rings and NOTE_BUF do. The last theorem settles O30.
-/

namespace Sys2Proof.Machine

/-! ### Registers -/

theorem State.rd_congr {s u : State} {f : Fld} (h : u.word f.addr = s.word f.addr) : u.rd f = s.rd f := by
  unfold State.rd; rw [h]

theorem State.flag_congr {s u : State} {f : Fld} (h : u.word f.addr = s.word f.addr) : u.flag f = s.flag f := by
  unfold State.flag; rw [State.rd_congr h]

theorem State.word_of_regs {s u : State} (h : u.regs = s.regs) (a : Nat) : u.word a = s.word a := by
  unfold State.word; rw [h]

section Writes

variable {s : State} {f : Fld} (wf : swf resetWord s.regs = true)

include wf

theorem State.put_wf (b : Bool) : swf resetWord (s.put f b).regs = true := s.wr_wf f _ wf

theorem State.bump_wf : swf resetWord (s.bump f).regs = true := s.wr_wf f _ wf

theorem State.word_wr_ne {a : Nat} (v : Nat) (h : a ≠ f.addr) : (s.wr f v).word a = s.word a :=
  s.word_setWord_ne _ _ _ wf h

theorem State.word_put_ne {a : Nat} (b : Bool) (h : a ≠ f.addr) : (s.put f b).word a = s.word a :=
  State.word_wr_ne wf _ h

theorem State.word_bump_ne {a : Nat} (h : a ≠ f.addr) : (s.bump f).word a = s.word a := State.word_wr_ne wf _ h

/-- A saturating counter steps up to its limit. -/
theorem State.rd_bump_same {top : Nat} (fit : f.lsb + f.width ≤ 32) (limit : 2 ^ f.width = top + 1) :
    (s.bump f).rd f = min top (s.rd f + 1) := by
  have small : s.rd f < 2 ^ f.width := s.rd_lt f
  have step : satAdd f.width (s.rd f) 1 = min top (s.rd f + 1) := by unfold satAdd; split <;> omega
  have read : (s.bump f).rd f = satAdd f.width (s.rd f) 1 % 2 ^ f.width := s.rd_wr_same f _ wf fit
  rw [read, step, Nat.mod_eq_of_lt (by omega)]

end Writes

theorem WordsKept.refl (xs : List Nat) (s : State) : WordsKept xs s s := fun _ _ _ => rfl

theorem WordsKept.of_regs {xs : List Nat} {s u v : State} (h : WordsKept xs s u) (e : v.regs = u.regs) :
    WordsKept xs s v := fun a hx hr => by
  rw [← h a hx hr]; unfold State.word; rw [e]

/-- A write of one of the named words, or of a report word, keeps the others. -/
theorem WordsKept.wr {xs : List Nat} {s u : State} {f : Fld} {v : Nat} (h : WordsKept xs s u)
    (wf : swf resetWord u.regs = true) (named : (xs.contains f.addr || reportWords.contains f.addr) = true) :
    WordsKept xs s (u.wr f v) := by
  intro a hx hr
  have other : a ≠ f.addr := by
    rintro rfl
    rw [hx, hr] at named
    exact absurd named (by decide)
  exact (State.word_setWord_ne u f.addr a _ wf other).trans (h a hx hr)

/-! ### Guarded writes (R30, R52) -/

theorem Ignored.of_denied {s : State} {who : Who} (wf : swf resetWord s.regs = true) : Ignored who s (s.denied who) where
  count := State.denied_count wf
  last := State.denied_last wf
  words _ hx := State.denied_word_ne wf hx
  only := State.denied_only (Only.refl _ _) (by decide)

theorem State.guarded_refused {s : State} {who : Who} {ok : Bool} {unit : Nat} {f : State → State} (h : ok = false) :
    s.guarded who ok unit f = s.denied who := by
  simp [State.guarded, h]

theorem State.guarded_punctual {s : State} {who : Who} {ok : Bool} {unit : Nat} {f : State → State} (h : ok = true)
    (hl : who.late = false) : s.guarded who ok unit f = f s := by
  simp [State.guarded, h, State.noteLate_of_punctual hl]

/-! ### Units, events and packets -/

/-- Progress of a unit restarts its timer and keeps whether any unit lapses. -/
theorem State.progress_lapsed {s : State} (wf : swf (fun _ => ({} : UnitRec)) s.units = true) (h k : Nat) :
    ((s.progress h).unit k).lapsed = (s.unit k).lapsed := by
  unfold State.progress
  split
  · rfl
  · by_cases e : k = h
    · subst e
      rw [State.unit_setUnit_same _ _ _ wf]
    · rw [State.unit_setUnit_ne _ _ _ _ wf e]

theorem State.routes_congr {s u : State} (regs : u.regs = s.regs) (doms : u.doms = s.doms)
    (lapsed : (u.unit Hdr.evr).lapsed = (s.unit Hdr.evr).lapsed) : u.routes = s.routes := by
  have sys : u.domOn Dom.sys = s.domOn Dom.sys := by unfold State.domOn State.dom; rw [doms]
  have enabled : u.enabled Hdr.evr = s.enabled Hdr.evr := State.flag_congr (State.word_of_regs regs _)
  simp only [State.routes, sys, enabled, lapsed]

/-- The router's queue takes the event of a block, if the router takes events (R304, R307). -/
theorem State.emitFrom_queue (s : State) (e : Event) :
    (s.emitFrom e).ev.queue = if s.routes then s.ev.queue ++ [e] else s.ev.queue := by
  have counted : Only [.trace] s (s.countEvent e.src) := State.countEvent_only (Only.refl _ _) (by decide)
  have ev : (s.countEvent e.src).ev = s.ev := counted.same .ev rfl
  have units : (s.countEvent e.src).units = s.units := counted.same .units rfl
  have lapsed : ((s.countEvent e.src).unit Hdr.evr).lapsed = (s.unit Hdr.evr).lapsed := by unfold State.unit; rw [units]
  have enabled : (s.countEvent e.src).enabled Hdr.evr = s.enabled Hdr.evr :=
    State.flag_congr (State.word_of_regs (counted.same .regs rfl) _)
  unfold State.emitFrom State.routes
  cases s.domOn Dom.sys with
  | false => rfl
  | true =>
    dsimp only
    rw [lapsed, enabled]
    cases (s.unit Hdr.evr).lapsed with
    | true => simp [ev]
    | false => cases s.enabled Hdr.evr <;> simp [ev]

theorem State.emit_emitted (s : State) (src : Nat) : Emitted s (s.emit src) src :=
  ⟨0, s.emitFrom_queue _⟩

/-- An event may step the counter of lost events and no other register (R307). -/
theorem WordsKept.emit {s u : State} {src : Nat} {xs : List Nat} (h : WordsKept xs s u)
    (wf : swf resetWord u.regs = true) : WordsKept xs s (u.emit src) := by
  have counted : Only [.trace] u (u.countEvent src) := State.countEvent_only (Only.refl _ _) (by decide)
  have regs : (u.countEvent src).regs = u.regs := counted.same .regs rfl
  have kept : WordsKept xs s (u.countEvent src) := h.of_regs regs
  unfold State.emit State.emitFrom
  split
  · exact h
  · dsimp only
    split
    · refine kept.wr (by rw [regs]; exact wf) ?_
      rw [show reportWords.contains R.EVR_COUNTS_LOST.addr = true by decide, Bool.or_true]
    · split
      · exact kept
      · exact kept.of_regs rfl

/-- A packet leaves while COH is on (R418). -/
theorem State.issue_out {s : State} {dst type : Nat} {fields : List Nat} (on : s.domOn Dom.coh = true) :
    ∃ p ∈ (s.issue dst type fields).coh.out, p.type = type ∧ p.dst = dst ∧ p.fields = fields := by
  have kept : ∀ u : State, (u.progress Hdr.coh).coh = u.coh := fun u =>
    (State.progress_only (Only.refl [.units] u) (by decide)).same .coh rfl
  refine ⟨{ dst := dst, type := type, seq := s.coh.seq, epoch := s.rd R.COH_EPOCH_EPOCH % 256, stamp := s.alignedStamp,
            fields := fields, bytes := [] }, ?_, rfl, rfl, rfl⟩
  simp only [State.issue, on, Bool.not_true, Bool.false_eq_true, if_false, kept, State.setCoh]
  split <;> simp

/-! ### Notices (R113, R114) -/

/-- `s` with the notice `n` appended: MBX makes progress, and the receiver's first notice raises its event. -/
def State.appended (s : State) (n : Notice) : State :=
  let u := ({ s with mail := { s.mail with notices := s.mail.notices ++ [n] } } : State).progress Hdr.mbx
  if s.mail.notices.any (·.dst == n.dst) then u else u.emit (0x21 + n.dst)

/-- A notice that finds room is appended. -/
theorem State.deliverNotice_room {s : State} {dst src stamp tag ptr : Nat} {prot : Bool} (room : s.channelFill dst src < 4)
    (up : (s.unit Hdr.mbx).lapsed = false) : s.deliverNotice dst src stamp tag ptr prot = (s.appended
      { dst := dst, src := src, ptr := ptr, tag := tag, stamp := stamp, prot := prot, at_ := s.clk.edges }, true) := by
  unfold State.deliverNotice State.appended
  cases s.mail.notices.any (·.dst == dst) <;> simp [room, up]

/-- A notice for a full channel is refused, counted and marked at its receiver. -/
theorem State.deliverNotice_full {s : State} {dst src stamp tag ptr : Nat} {prot : Bool}
    (full : 4 ≤ s.channelFill dst src) : s.deliverNotice dst src stamp tag ptr prot =
      ((s.wr (R.MBX_RLOST_LOST dst) (s.rd (R.MBX_RLOST_LOST dst) ||| 2 ^ src)).bump R.MBX_COUNTS_REFUSED, false) := by
  simp [State.deliverNotice, Nat.not_lt.mpr full, full]

section Appended

variable {s : State} (n : Notice)

theorem State.appended_only : Only [.regs, .units, .mail, .ev, .trace] s (s.appended n) := by
  have mailed : Only [.regs, .units, .mail, .ev, .trace] s
      (({ s with mail := { s.mail with notices := s.mail.notices ++ [n] } } : State).progress Hdr.mbx) :=
    State.progress_only ((Only.refl _ s).set_mail (by decide)) (by decide)
  exact Only.ite mailed (State.emit_only mailed (by decide))

theorem State.appended_mail : (s.appended n).mail = { s.mail with notices := s.mail.notices ++ [n] } := by
  have progressed : ∀ u : State, (u.progress Hdr.mbx).mail = u.mail := fun u =>
    (State.progress_only (Only.refl [.units] u) (by decide)).same .mail rfl
  have emitted : ∀ (u : State) (k : Nat), (u.emit k).mail = u.mail := fun u _ =>
    (State.emit_only (Only.refl [.regs, .ev, .trace] u) (by decide)).same .mail rfl
  unfold State.appended
  dsimp only
  split
  · rw [progressed]
  · rw [emitted, progressed]

theorem State.appended_words (wf : swf resetWord s.regs = true) : WordsKept [] s (s.appended n) := by
  let mailed : State := { s with mail := { s.mail with notices := s.mail.notices ++ [n] } }
  have regs : (mailed.progress Hdr.mbx).regs = s.regs :=
    (State.progress_only (Only.refl [.units] mailed) (by decide)).same .regs rfl
  have kept : WordsKept [] s (mailed.progress Hdr.mbx) := (WordsKept.refl [] s).of_regs regs
  unfold State.appended
  dsimp only
  split
  · exact kept
  · exact kept.emit (by rw [regs]; exact wf)

/-- The first notice of a receiver raises its event. -/
theorem State.appended_emitted (wf : swf (fun _ => ({} : UnitRec)) s.units = true)
    (first : ∀ x ∈ s.mail.notices, x.dst ≠ n.dst) : Emitted s (s.appended n) (0x21 + n.dst) := by
  let mailed : State := { s with mail := { s.mail with notices := s.mail.notices ++ [n] } }
  have progressed : Only [.units] mailed (mailed.progress Hdr.mbx) := State.progress_only (Only.refl _ _) (by decide)
  have routes : (mailed.progress Hdr.mbx).routes = s.routes :=
    State.routes_congr (progressed.same .regs rfl) (progressed.same .doms rfl) (State.progress_lapsed (s := mailed) wf _ _)
  have queue : (mailed.progress Hdr.mbx).ev = s.ev := progressed.same .ev rfl
  have none_waits : s.mail.notices.any (·.dst == n.dst) = false := by simpa using first
  obtain ⟨d, emitted⟩ := (mailed.progress Hdr.mbx).emit_emitted (0x21 + n.dst)
  refine ⟨d, ?_⟩
  rw [routes, queue] at emitted
  simpa only [State.appended, none_waits, Bool.false_eq_true, if_false] using emitted

end Appended

/-! ### Sends (R110, R113, R115) -/

/-- Bit `k` of the status word of send window `win`: 0 BUSY, 1 REFUSED, 2 NOROUTE, 3 BADDEST (Table MBX-2). -/
def sstat (win k : Nat) : Fld := ⟨0x40006108 + 0x20 * win, k, 1⟩

/-- The status words of the seven windows lie apart from the counters. -/
theorem sstat_addr_ne {win : Nat} (hw : win < 7) (k : Nat) : 0x40006040 ≠ (sstat win k).addr := by
  simp only [sstat]; omega

theorem lost_fits (r : Nat) : (R.MBX_RLOST_LOST r).lsb + (R.MBX_RLOST_LOST r).width ≤ 32 := Nat.le_add_left 16 16

section Status

variable {s : State} {win j k : Nat} (wf : swf resetWord s.regs = true)

include wf

theorem State.sstat_put_same (hk : k < 32) (b : Bool) : (s.put (sstat win k) b).flag (sstat win k) = b :=
  State.flag_put_same s _ b wf hk rfl

theorem State.sstat_put_other (hk : k < 32) (h : j ≠ k) (b : Bool) :
    (s.put (sstat win k) b).flag (sstat win j) = s.flag (sstat win j) := by
  have apart : j + 1 ≤ k ∨ k + 1 ≤ j := by omega
  unfold State.flag
  exact congrArg (fun n => decide (n ≠ 0)) (State.rd_wr_apart s (sstat win k) (sstat win j) _ wf hk rfl apart)

theorem WordsKept.put_sstat {s₀ : State} (h : WordsKept [(R.MBX_SSTAT_BUSY win).addr] s₀ s) (b : Bool) :
    WordsKept [(R.MBX_SSTAT_BUSY win).addr] s₀ (s.put (sstat win k) b) :=
  WordsKept.wr h wf (by simp [sstat, R.MBX_SSTAT_BUSY])

theorem WordsKept.bump_report {xs : List Nat} {s₀ : State} {f : Fld} (h : WordsKept xs s₀ s)
    (report : reportWords.contains f.addr = true) : WordsKept xs s₀ (s.bump f) :=
  WordsKept.wr h wf (by rw [report, Bool.or_true])

end Status

section Sends

variable {s : State} {who : Who} {win v dest tag ptr : Nat}

/-- The destinations a send may not name. -/
theorem State.badDest_iff : s.badDest win dest = true ↔
    (7 ≤ dest ∨ dest = win ∨ (dest = 0 ∧ s.phase ≠ .homeroom ∧ ∀ n, s.phase = .stage n → 5 < n)) := by
  have boots : s.bootRuns = false ↔ (s.phase ≠ .homeroom ∧ ∀ n, s.phase = .stage n → 5 < n) := by
    unfold State.bootRuns
    cases s.phase <;> simp
  simp only [State.badDest, Bool.or_eq_true, Bool.and_eq_true, Bool.not_eq_true', decide_eq_true_eq, beq_iff_eq, boots,
    or_assoc]

theorem State.mbxSend_foreign (h : who.stamp ≠ win) : s.mbxSend who win v = s.denied who :=
  State.guarded_refused (by simpa using h)

theorem State.mbxSend_busy (h : who.stamp = win) (hl : who.late = false) (busy : s.flag (R.MBX_SSTAT_BUSY win) = true) :
    s.mbxSend who win v = s.put (R.MBX_SSTAT_REFUSED win) true :=
  (State.guarded_punctual (by simpa using h) hl).trans (by simp [busy])

theorem State.mbxSend_local (h : who.stamp = win) (hl : who.late = false) (idle : s.flag (R.MBX_SSTAT_BUSY win) = false)
    (here : bitsOf v 20 4 = 0 ∨ bitsOf v 20 4 = s.rd R.COH_CFG_INDEX + 1) : s.mbxSend who win v =
      s.sendLocal who win (bitsOf v 16 4) (bitsOf v 0 16) (s.rd (R.MBX_SPTR_PTR win)) :=
  (State.guarded_punctual (by simpa using h) hl).trans (by simp [idle, here])

theorem State.mbxSend_cohort (h : who.stamp = win) (hl : who.late = false) (idle : s.flag (R.MBX_SSTAT_BUSY win) = false)
    (away : ¬(bitsOf v 20 4 = 0 ∨ bitsOf v 20 4 = s.rd R.COH_CFG_INDEX + 1)) : s.mbxSend who win v =
      s.sendCohort who win (bitsOf v 20 4) (bitsOf v 16 4) (bitsOf v 0 16) :=
  (State.guarded_punctual (by simpa using h) hl).trans (by simp [idle, away])

theorem State.sendLocal_bad (bad : s.badDest win dest = true) : s.sendLocal who win dest tag ptr =
    ((s.put (R.MBX_SSTAT_BADDEST win) true).put (R.MBX_SSTAT_REFUSED win) true).bump R.MBX_COUNTS_BADDEST := by
  simp [State.sendLocal, bad]

theorem State.sendLocal_room (good : s.badDest win dest = false) (room : s.channelFill dest win < 4)
    (up : (s.unit Hdr.mbx).lapsed = false) : s.sendLocal who win dest tag ptr = s.appended
      { dst := dest, src := win, ptr := ptr, tag := tag, stamp := who.stamp, prot := who.prot, at_ := s.clk.edges } := by
  simp [State.sendLocal, good, State.deliverNotice_room room up]

theorem State.sendLocal_full (good : s.badDest win dest = false) (full : 4 ≤ s.channelFill dest win) :
    s.sendLocal who win dest tag ptr =
      ((s.wr (R.MBX_RLOST_LOST dest) (s.rd (R.MBX_RLOST_LOST dest) ||| 2 ^ win)).bump R.MBX_COUNTS_REFUSED).put
        (R.MBX_SSTAT_REFUSED win) true := by
  simp [State.sendLocal, good, State.deliverNotice_full full]

/-- A send while BUSY is marked REFUSED. -/
theorem State.mbxSend_busy_effect (wf : swf resetWord s.regs = true) (h : who.stamp = win) (hl : who.late = false)
    (busy : s.flag (R.MBX_SSTAT_BUSY win) = true) : (s.mbxSend who win v).flag (R.MBX_SSTAT_REFUSED win) = true ∧
      WordsKept [(R.MBX_SSTAT_BUSY win).addr] s (s.mbxSend who win v) ∧ Only [.regs] s (s.mbxSend who win v) := by
  rw [State.mbxSend_busy h hl busy]
  exact ⟨State.sstat_put_same (k := 1) wf (by decide) true, (WordsKept.refl _ s).put_sstat (k := 1) wf true,
    State.put_only (Only.refl _ _) (by decide)⟩

/-- A send to a bad destination is marked BADDEST and REFUSED and counted. -/
theorem State.sendLocal_bad_effect (wf : swf resetWord s.regs = true) (hw : win < 7) (bad : s.badDest win dest = true) :
    let u := s.sendLocal who win dest tag ptr
    (∀ f ∈ [R.MBX_SSTAT_REFUSED win, R.MBX_SSTAT_BADDEST win], u.flag f = true) ∧
      u.rd R.MBX_COUNTS_BADDEST = min 255 (s.rd R.MBX_COUNTS_BADDEST + 1) ∧
      WordsKept [(R.MBX_SSTAT_BUSY win).addr] s u ∧ Only [.regs] s u := by
  let marked := s.put (sstat win 3) true
  let refused := marked.put (sstat win 1) true
  have wf₁ : swf resetWord marked.regs = true := State.put_wf wf true
  have wf₂ : swf resetWord refused.regs = true := State.put_wf wf₁ true
  have flags : ∀ k, (refused.bump R.MBX_COUNTS_BADDEST).flag (sstat win k) = refused.flag (sstat win k) := fun k =>
    State.flag_congr (State.word_bump_ne wf₂ (sstat_addr_ne hw k).symm)
  have count : refused.rd R.MBX_COUNTS_BADDEST = s.rd R.MBX_COUNTS_BADDEST := State.rd_congr
    ((State.word_put_ne wf₁ true (sstat_addr_ne hw 1)).trans (State.word_put_ne wf true (sstat_addr_ne hw 3)))
  have isRefused : refused.flag (sstat win 1) = true := State.sstat_put_same wf₁ (by decide) true
  have isMarked : refused.flag (sstat win 3) = true :=
    (State.sstat_put_other wf₁ (by decide) (by decide) true).trans (State.sstat_put_same wf (by decide) true)
  rw [State.sendLocal_bad bad]
  refine ⟨fun f hf => ?_, ?_, ?_, ?_⟩
  · simp only [List.mem_cons, List.not_mem_nil, or_false] at hf
    obtain rfl | rfl := hf
    · exact (flags 1).trans isRefused
    · exact (flags 3).trans isMarked
  · exact (State.rd_bump_same wf₂ (by decide) rfl).trans (by rw [count])
  · exact (((WordsKept.refl _ s).put_sstat wf true).put_sstat wf₁ true).bump_report wf₂ (by decide)
  · exact State.bump_only (State.put_only (State.put_only (Only.refl _ _) (by decide)) (by decide)) (by decide)

/-- A send into a full channel is marked REFUSED, and the loss is marked at the receiver and counted. -/
theorem State.sendLocal_full_effect (wf : swf resetWord s.regs = true) (hw : win < 7) (good : s.badDest win dest = false)
    (full : 4 ≤ s.channelFill dest win) :
    let u := s.sendLocal who win dest tag ptr
    u.flag (R.MBX_SSTAT_REFUSED win) = true ∧ bitOf (u.rd (R.MBX_RLOST_LOST dest)) win = true ∧
      u.rd R.MBX_COUNTS_REFUSED = min 65535 (s.rd R.MBX_COUNTS_REFUSED + 1) ∧ u.mail = s.mail ∧ Only [.regs] s u := by
  let bits := s.rd (R.MBX_RLOST_LOST dest) ||| 2 ^ win
  let lost := s.wr (R.MBX_RLOST_LOST dest) bits
  let counted := lost.bump R.MBX_COUNTS_REFUSED
  have wf₁ : swf resetWord lost.regs = true := s.wr_wf _ _ wf
  have wf₂ : swf resetWord counted.regs = true := State.bump_wf wf₁
  have lost_ne_count : (R.MBX_RLOST_LOST dest).addr ≠ R.MBX_COUNTS_REFUSED.addr := by
    simp only [R.MBX_RLOST_LOST, R.MBX_COUNTS_REFUSED]; omega
  have lost_ne_stat : (R.MBX_RLOST_LOST dest).addr ≠ (sstat win 1).addr := by
    simp only [R.MBX_RLOST_LOST, sstat]; omega
  have small : bits < 2 ^ 16 := Nat.or_lt_two_pow (s.rd_lt _) (Nat.pow_lt_pow_right (by decide) (by omega))
  have marked : lost.rd (R.MBX_RLOST_LOST dest) = bits :=
    (s.rd_wr_same _ _ wf (lost_fits dest)).trans (Nat.mod_eq_of_lt small)
  have mark : (counted.put (sstat win 1) true).rd (R.MBX_RLOST_LOST dest) = lost.rd (R.MBX_RLOST_LOST dest) :=
    State.rd_congr ((State.word_put_ne wf₂ true lost_ne_stat).trans (State.word_bump_ne wf₁ lost_ne_count))
  have count : (counted.put (sstat win 1) true).rd R.MBX_COUNTS_REFUSED = counted.rd R.MBX_COUNTS_REFUSED :=
    State.rd_congr (State.word_put_ne wf₂ true (sstat_addr_ne hw 1))
  have before : lost.rd R.MBX_COUNTS_REFUSED = s.rd R.MBX_COUNTS_REFUSED :=
    State.rd_congr (State.word_wr_ne wf _ lost_ne_count.symm)
  have step : counted.rd R.MBX_COUNTS_REFUSED = min 65535 (lost.rd R.MBX_COUNTS_REFUSED + 1) :=
    State.rd_bump_same wf₁ (by decide) rfl
  have bit : bitOf bits win = true := by
    rw [bitOf, Nat.testBit_or, Nat.testBit_two_pow_self, Bool.or_true]
  rw [State.sendLocal_full good full]
  exact ⟨State.sstat_put_same wf₂ (by decide) true, (congrArg (bitOf · win) (mark.trans marked)).trans bit,
    count.trans (step.trans (by rw [before])), rfl,
    State.put_only (State.bump_only (State.wr_only (Only.refl _ _) (by decide)) (by decide)) (by decide)⟩

/-- A send to another member sets BUSY, waits for its answer and leaves as a packet (R115). -/
theorem State.sendCohort_effect {dev : Nat} (wf : swf resetWord s.regs = true) :
    let u := s.sendCohort who win dev dest tag
    u.flag (R.MBX_SSTAT_BUSY win) = true ∧ u.mail.pendingSends = s.mail.pendingSends ++ [(win, tag, s.clk.ns)] ∧
      u.mail.notices = s.mail.notices ∧
      (s.domOn Dom.coh = true → ∃ p ∈ u.coh.out, p.type = 0x07 ∧ p.dst = dev - 1 ∧
        p.fields = [dest, tag, s.rd (R.MBX_SPTR_PTR win), who.stamp % 16, b2n who.prot]) ∧
      WordsKept [(R.MBX_SSTAT_BUSY win).addr] s u ∧ Only [.regs, .units, .mail, .coh] s u := by
  let busy := s.put (sstat win 0) true
  let sent := busy.issue (dev - 1) 0x07 [dest, tag, busy.rd (R.MBX_SPTR_PTR win), who.stamp % 16, b2n who.prot]
  let waiting : State :=
    { sent with mail := { sent.mail with pendingSends := sent.mail.pendingSends ++ [(win, tag, sent.clk.ns)] } }
  have issued : Only [.units, .coh] busy sent := State.issue_only (Only.refl _ _) (by decide)
  have ended : Only [.units] waiting (waiting.progress Hdr.coh) := State.progress_only (Only.refl _ _) (by decide)
  have regs : (waiting.progress Hdr.coh).regs = busy.regs := (ended.same .regs rfl).trans (issued.same .regs rfl)
  have mail : (waiting.progress Hdr.coh).mail = waiting.mail := ended.same .mail rfl
  have coh : (waiting.progress Hdr.coh).coh = sent.coh := ended.same .coh rfl
  have before : sent.mail = s.mail := issued.same .mail rfl
  have clk : sent.clk = s.clk := issued.same .clk rfl
  have pointer : busy.rd (R.MBX_SPTR_PTR win) = s.rd (R.MBX_SPTR_PTR win) :=
    State.rd_congr (State.word_put_ne wf true (by simp only [R.MBX_SPTR_PTR, sstat]; omega))
  show (waiting.progress Hdr.coh).flag _ = true ∧ (waiting.progress Hdr.coh).mail.pendingSends = _ ∧
    (waiting.progress Hdr.coh).mail.notices = _ ∧ (_ → ∃ p ∈ (waiting.progress Hdr.coh).coh.out, _) ∧
    WordsKept _ s (waiting.progress Hdr.coh) ∧ Only _ s (waiting.progress Hdr.coh)
  refine ⟨?_, ?_, ?_, fun on => ?_, ((WordsKept.refl _ s).put_sstat wf true).of_regs regs,
    State.sendCohort_only (Only.refl _ _) (by decide)⟩
  · exact (State.flag_congr (State.word_of_regs regs _)).trans (State.sstat_put_same wf (by decide) true)
  · rw [mail, ← before, ← clk]
  · rw [mail, ← before]
  · rw [coh, ← pointer]
    exact State.issue_out on

end Sends

/-! ### The two receive reads (R114, Table MBX-1) -/

/-- `n` is read before `x`: sent earlier, or at the same edge by a sender that is not above. -/
def Notice.before (n x : Notice) : Prop := n.at_ < x.at_ ∨ (n.at_ = x.at_ ∧ n.src ≤ x.src)

theorem Notice.before.trans {a b c : Notice} (h : a.before b) (g : b.before c) : a.before c := by
  unfold Notice.before at *; omega

/-- The one of two notices that is read first; of equals the first. -/
def headOf (b n : Notice) : Notice := if n.at_ < b.at_ ∨ (n.at_ = b.at_ ∧ n.src < b.src) then n else b

theorem headOf_before (b n : Notice) :
    (headOf b n).before b ∧ (headOf b n).before n ∧ (headOf b n = b ∨ headOf b n = n) := by
  unfold headOf Notice.before
  split
  · exact ⟨by omega, by omega, .inr rfl⟩
  · exact ⟨by omega, by omega, .inl rfl⟩

/-- Folding `headOf` over a list gives an element of it that is read before every other. -/
theorem foldl_headOf (l : List Notice) (b : Notice) :
    l.foldl headOf b ∈ b :: l ∧ ∀ x ∈ b :: l, (l.foldl headOf b).before x := by
  induction l generalizing b with
  | nil => simp [Notice.before]
  | cons n l ih =>
    obtain ⟨member, first⟩ := ih (headOf b n)
    obtain ⟨hb, hn, either⟩ := headOf_before b n
    have head : (l.foldl headOf (headOf b n)).before (headOf b n) := first _ (List.mem_cons_self ..)
    refine ⟨?_, fun x hx => ?_⟩
    · obtain e | hm := List.mem_cons.mp member
      · rw [List.foldl_cons, e]
        obtain e | e := either <;> simp [e]
      · exact List.mem_cons_of_mem _ (List.mem_cons_of_mem _ hm)
    · obtain rfl | hx := List.mem_cons.mp hx
      · exact head.trans hb
      · obtain rfl | hx := List.mem_cons.mp hx
        · exact head.trans hn
        · exact first x (List.mem_cons_of_mem _ hx)

section Reads

variable {s : State} {who : Who} {r : Nat}

theorem State.headNotice_none (h : ∀ x ∈ s.mail.notices, x.dst ≠ r) : s.headNotice r = none := by
  have empty : s.mail.notices.filter (·.dst == r) = [] := by simpa [List.filter_eq_nil_iff] using h
  rw [State.headNotice, empty]
  rfl

/-- The head of a receiver's notices is their first in the order of `headOf`. -/
theorem State.headNotice_cons {b : Notice} {l : List Notice} (e : s.mail.notices.filter (·.dst == r) = b :: l) :
    s.headNotice r = some (l.foldl headOf b) := by
  rw [State.headNotice, e, List.foldl_cons]
  clear e
  dsimp only
  induction l generalizing b with
  | nil => rfl
  | cons n l ih =>
    rw [List.foldl_cons, List.foldl_cons, ← ih, headOf]
    dsimp only
    split <;> rfl

/-- Where a receiver has a notice, its head is one of its notices and is read before every one of them. -/
theorem State.headNotice_some {x : Notice} (hx : x ∈ s.mail.notices) (hr : x.dst = r) : ∃ n, s.headNotice r = some n ∧
    n ∈ s.mail.notices ∧ n.dst = r ∧ ∀ y ∈ s.mail.notices, y.dst = r → n.before y := by
  have mem : ∀ y, y ∈ s.mail.notices.filter (·.dst == r) ↔ y ∈ s.mail.notices ∧ y.dst = r := fun y => by
    simp [List.mem_filter]
  cases e : s.mail.notices.filter (·.dst == r) with
  | nil => exact absurd ((mem x).mpr ⟨hx, hr⟩) (by simp [e])
  | cons b l =>
    obtain ⟨member, first⟩ := foldl_headOf l b
    rw [← e] at member first
    obtain ⟨hn, hd⟩ := (mem _).mp member
    exact ⟨_, State.headNotice_cons e, hn, hd, fun y hy hyr => first y ((mem y).mpr ⟨hy, hyr⟩)⟩

/-- No latched notice of a receiver is left once its entries are dropped. -/
theorem latched_dropped (l : List (Nat × Notice)) (r : Nat) : (l.filter (·.1 != r)).find? (·.1 == r) = none := by
  simp [List.find?_eq_none]

/-- Latching a notice replaces the entries of its receiver. -/
theorem latched_replaced (l : List (Nat × Notice)) (r : Nat) (n : Notice) :
    (l.filter (·.1 != r) ++ [(r, n)]).find? (·.1 == r) = some (r, n) := by
  rw [List.find?_append, latched_dropped, Option.none_or, List.find?_singleton, if_pos (beq_self_eq_true r)]

theorem State.mbxLatch_foreign (h : who.stamp ≠ r) : s.mbxLatch who r = (s, 0) := by
  simp [State.mbxLatch, h]

theorem State.mbxLatch_empty (h : who.stamp = r) (none_waits : ∀ x ∈ s.mail.notices, x.dst ≠ r) : s.mbxLatch who r =
    ({ s with mail := { s.mail with latched := s.mail.latched.filter (·.1 != r) } }, 0) := by
  simp [State.mbxLatch, h, State.headNotice_none none_waits]

theorem State.mbxLatch_head {n : Notice} (h : who.stamp = r) (head : s.headNotice r = some n) : s.mbxLatch who r =
    ({ s with mail := { s.mail with latched := s.mail.latched.filter (·.1 != r) ++ [(r, n)] } }, n.ptr) := by
  simp [State.mbxLatch, h, head]

theorem State.mbxRemove_foreign (h : who.stamp ≠ r) : s.mbxRemove who r = (s, 0) := by
  simp [State.mbxRemove, h]

theorem State.mbxRemove_unlatched (h : who.stamp = r) (unlatched : s.mail.latched.find? (·.1 == r) = none) :
    s.mbxRemove who r = (s, 0) := by
  simp [State.mbxRemove, h, unlatched]

/-- Removing a latched notice clears the mark of lost notices of its sender and unlatches it. -/
theorem State.mbxRemove_latched {n : Notice} (h : who.stamp = r) (latched : s.mail.latched.find? (·.1 == r) = some (r, n)) :
    s.mbxRemove who r =
      ({ s.wr (R.MBX_RLOST_LOST r) (setBitsOf (s.rd (R.MBX_RLOST_LOST r)) n.src 1 0) with
          mail := { s.mail with notices := s.mail.notices.erase n
                                latched := s.mail.latched.filter (·.1 != r) } },
        noticeHigh n (bitOf (s.rd (R.MBX_RLOST_LOST r)) n.src)) := by
  simp [State.mbxRemove, h, latched, dropNotice]

/-- The upper half of a notice is a word. -/
theorem noticeHigh_lt (n : Notice) (lost : Bool) : noticeHigh n lost < 2 ^ 32 := by
  have flag : ∀ b, b2n b ≤ 1 := by decide
  have := flag lost
  have := flag n.prot
  unfold noticeHigh
  omega

/-- The sender's mark of lost notices reads clear after its notice was removed. -/
theorem State.lost_cleared (wf : swf resetWord s.regs = true) {k : Nat} (hk : k < 16) :
    bitOf ((s.wr (R.MBX_RLOST_LOST r) (setBitsOf (s.rd (R.MBX_RLOST_LOST r)) k 1 0)).rd (R.MBX_RLOST_LOST r)) k = false := by
  have fits : setBitsOf (s.rd (R.MBX_RLOST_LOST r)) k 1 0 < 2 ^ 16 := setBitsOf_lt _ _ _ _ _ (s.rd_lt _) (by omega)
  rw [State.rd_wr_same _ _ _ wf (lost_fits r), bitOf]
  show (setBitsOf _ k 1 0 % 2 ^ 16).testBit k = false
  rw [Nat.mod_eq_of_lt fits, testBit_setBitsOf, if_pos (by omega), Nat.zero_testBit]

end Reads

/-! ### The end of a cohort send (R115) -/

section CohortSends

variable {s : State} {win : Nat}

theorem State.endCohortSend_idle (wf : swf resetWord s.regs = true) :
    (s.endCohortSend win).flag (R.MBX_SSTAT_BUSY win) = false ∧
      ∀ x ∈ (s.endCohortSend win).mail.pendingSends, x.1 ≠ win := by
  refine ⟨State.sstat_put_same (s := s) (k := 0) wf (by decide) false, fun x hx => ?_⟩
  simpa using (List.mem_filter.mp hx).2

/-- An answer ends the send; a refusal is marked. -/
theorem State.cohortAnswer_effect (wf : swf resetWord s.regs = true) (refused : Bool)
    (waits : ∃ x ∈ s.mail.pendingSends, x.1 = win) :
    let u := s.cohortAnswer win refused
    u.flag (R.MBX_SSTAT_BUSY win) = false ∧
      u.flag (R.MBX_SSTAT_REFUSED win) = (refused || s.flag (R.MBX_SSTAT_REFUSED win)) ∧
      (∀ x ∈ u.mail.pendingSends, x.1 ≠ win) ∧ Only [.regs, .units, .mail] s u := by
  let ended := (s.endCohortSend win).progress Hdr.coh
  have progressed : Only [.units] (s.endCohortSend win) ended := State.progress_only (Only.refl _ _) (by decide)
  have regs : ended.regs = (s.endCohortSend win).regs := progressed.same .regs rfl
  have mail : ended.mail = (s.endCohortSend win).mail := progressed.same .mail rfl
  have wf₁ : swf resetWord ended.regs = true := by rw [regs]; exact State.put_wf wf false
  have flags : ∀ f, ended.flag f = (s.endCohortSend win).flag f := fun f => State.flag_congr (State.word_of_regs regs _)
  obtain ⟨idle, none_waits⟩ := State.endCohortSend_idle (win := win) wf
  have stands : ended.flag (sstat win 1) = s.flag (sstat win 1) :=
    (flags _).trans (State.sstat_put_other (s := s) wf (by decide) (by decide) false)
  have answered : s.cohortAnswer win refused = if refused then ended.put (R.MBX_SSTAT_REFUSED win) true else ended := by
    have : s.mail.pendingSends.any (·.1 == win) = true := by simpa using waits
    simp [State.cohortAnswer, this, ended]
  have only : Only [.regs, .units, .mail] s (s.cohortAnswer win refused) :=
    State.cohortAnswer_only (Only.refl _ _) (by decide)
  refine ⟨?_, ?_, ?_, only⟩ <;> rw [answered] <;> cases refused
  · exact (flags _).trans idle
  · exact (State.sstat_put_other wf₁ (by decide) (by decide) true).trans ((flags _).trans idle)
  · exact stands
  · exact State.sstat_put_same wf₁ (by decide) true
  · exact fun x hx => none_waits x (mail ▸ hx)
  · exact fun x hx => none_waits x (mail ▸ hx)

/-- Before 8 us have passed nothing happens. -/
theorem State.cohortSendTimeout_early (early : ∀ x ∈ s.mail.pendingSends, x.1 = win → s.clk.ns < x.2.2 + 8000) :
    s.cohortSendTimeout win = s := by
  have none_due : s.mail.pendingSends.any (fun p => p.1 == win && decide (p.2.2 + 8000 ≤ s.clk.ns)) = false := by
    simpa using early
  simp only [State.cohortSendTimeout, none_due, Bool.false_eq_true, if_false]

/-- 8 us without an answer end the send with NOROUTE. -/
theorem State.cohortSendTimeout_due (wf : swf resetWord s.regs = true) (hw : win < 7)
    (due : ∃ x ∈ s.mail.pendingSends, x.1 = win ∧ x.2.2 + 8000 ≤ s.clk.ns) :
    let u := s.cohortSendTimeout win
    u.flag (R.MBX_SSTAT_BUSY win) = false ∧ u.flag (R.MBX_SSTAT_NOROUTE win) = true ∧
      u.rd R.MBX_COUNTS_NOROUTE = min 255 (s.rd R.MBX_COUNTS_NOROUTE + 1) ∧
      (∀ x ∈ u.mail.pendingSends, x.1 ≠ win) ∧ Only [.regs, .mail] s u := by
  let ended := s.endCohortSend win
  let marked := ended.put (sstat win 2) true
  have wf₁ : swf resetWord ended.regs = true := State.put_wf wf false
  have wf₂ : swf resetWord marked.regs = true := State.put_wf wf₁ true
  have timeout : s.cohortSendTimeout win = marked.bump R.MBX_COUNTS_NOROUTE := by
    have : s.mail.pendingSends.any (fun p => p.1 == win && decide (p.2.2 + 8000 ≤ s.clk.ns)) = true := by
      simpa using due
    exact if_pos this
  have flags : ∀ k, (marked.bump R.MBX_COUNTS_NOROUTE).flag (sstat win k) = marked.flag (sstat win k) := fun k =>
    State.flag_congr (State.word_bump_ne wf₂ (sstat_addr_ne hw k).symm)
  have ends : ended.word R.MBX_COUNTS_NOROUTE.addr = s.word R.MBX_COUNTS_NOROUTE.addr :=
    State.word_put_ne (s := s) wf false (sstat_addr_ne hw 0)
  have count : marked.rd R.MBX_COUNTS_NOROUTE = s.rd R.MBX_COUNTS_NOROUTE :=
    State.rd_congr ((State.word_put_ne wf₁ true (sstat_addr_ne hw 2)).trans ends)
  obtain ⟨idle, none_waits⟩ := State.endCohortSend_idle (win := win) wf
  have only : Only [.regs, .mail] s (s.cohortSendTimeout win) := State.cohortSendTimeout_only (Only.refl _ _) (by decide)
  refine ⟨?_, ?_, ?_, ?_, only⟩ <;> rw [timeout]
  · exact (flags 0).trans ((State.sstat_put_other wf₁ (by decide) (by decide) true).trans idle)
  · exact (flags 2).trans (State.sstat_put_same wf₁ (by decide) true)
  · exact (State.rd_bump_same wf₂ (by decide) rfl).trans (by rw [count])
  · exact none_waits

end CohortSends

/-! ### Work (R95, R96) -/

section Work

variable {s : State} {w : Work} {r i : Nat}

theorem State.decideGen_decided (s : State) (w : Work) (status result gen : Nat) :
    Decided s (s.decideGen w status result gen) { w with gen := gen } status result where
  gone := rfl
  done := ⟨_, rfl, rfl, rfl, rfl, rfl, rfl, rfl, rfl, rfl, rfl⟩

theorem State.decided_decide (s : State) (w : Work) (status result : Nat) :
    Decided s (s.decide_ w status result) w status result := s.decideGen_decided w status result w.gen

/-- Work found again after an update that keeps its ring and index. -/
theorem State.findWork_updWork {f : Work → Work} (found : s.findWork r i = some w)
    (key : ∀ x, (f x).ring = x.ring ∧ (f x).idx = x.idx) : (s.updWork r i f).findWork r i = some (f w) := by
  unfold State.findWork at found
  have mine : (w.ring == r && w.idx == i) = true := by simpa using List.find?_some found
  have kept : ((fun x : Work => x.ring == r && x.idx == i) ∘ fun x => if x.ring == r && x.idx == i then f x else x) =
      fun x => x.ring == r && x.idx == i := by
    funext x
    simp only [Function.comp_apply]
    split
    · rw [(key x).1, (key x).2]
    · rfl
  simp only [State.findWork, State.updWork, List.find?_map, kept, found, Option.map_some, mine, if_true]

/-- Accepted work whose unit accepts it is run. -/
theorem State.runWork_ready {op : Nat} {ops : List Nat} {k : Work → State → State} (ready : s.workReady r i op w = true)
    (named : op ∈ ops) : s.runWork r i ops k = k w s := by
  simp only [State.workReady, Bool.and_eq_true, Bool.not_eq_true', beq_iff_eq] at ready
  obtain ⟨⟨⟨⟨⟨⟨found, accepted⟩, opcode⟩, enabled⟩, undrained⟩, working⟩, up⟩ := ready
  simp [State.runWork, found, accepted, opcode, named, enabled, undrained, working, up]

theorem State.findWork_of_workReady {op : Nat} (ready : s.workReady r i op w = true) : s.findWork r i = some w := by
  simp only [State.workReady, Bool.and_eq_true, beq_iff_eq] at ready
  obtain ⟨⟨⟨⟨⟨⟨found, -⟩, -⟩, -⟩, -⟩, -⟩, -⟩ := ready
  exact found

/-! ### Served rings (R108, R109) -/

/-- The notice of served work goes to the server once its channel has room. -/
theorem State.servedNotice_room (found : s.findWork r i = some w) (unsent : w.stage = .served false)
    (room : s.channelFill (s.rd (R.RNG_SRV_AGENT r)) (w.owner % 16) < 4) (up : (s.unit Hdr.mbx).lapsed = false) :
    s.servedNotice r i = (s.appended
      { dst := s.rd (R.RNG_SRV_AGENT r), src := w.owner % 16, ptr := w.addr, tag := 0xC000 + r * 256 + i % 256,
        stamp := w.owner, prot := w.prot, at_ := s.clk.edges }).updWork r i fun x => { x with stage := .served true } := by
  simp [State.servedNotice, found, unsent, room, State.deliverNotice_room room up]

/-- The notice sent is the last of all notices, and the work is served from then on. -/
theorem State.servedNotice_effect (found : s.findWork r i = some w) (unsent : w.stage = .served false)
    (room : s.channelFill (s.rd (R.RNG_SRV_AGENT r)) (w.owner % 16) < 4) (up : (s.unit Hdr.mbx).lapsed = false) :
    let u := s.servedNotice r i
    u.mail.notices = s.mail.notices ++ [{ dst := s.rd (R.RNG_SRV_AGENT r), src := w.owner % 16, ptr := w.addr,
                                          stamp := w.owner, tag := 0xC000 + r * 256 + i % 256, prot := w.prot,
                                          at_ := s.clk.edges }] ∧
      u.findWork r i = some { w with stage := .served true } ∧
      Only [.regs, .units, .ring, .mail, .ev, .trace] s u := by
  have ring : ∀ n, (s.appended n).ring = s.ring := fun n => (State.appended_only n).same .ring rfl
  have still : ∀ n, (s.appended n).findWork r i = some w := fun n => by rw [← found, State.findWork, ring]; rfl
  have only : Only [.regs, .units, .ring, .mail, .ev, .trace] s (s.servedNotice r i) :=
    State.servedNotice_only (Only.refl _ _) (by decide)
  refine ⟨?_, ?_, only⟩ <;> rw [State.servedNotice_room found unsent room up]
  · exact congrArg MailState.notices (State.appended_mail _)
  · exact State.findWork_updWork (still _) fun _ => ⟨rfl, rfl⟩

theorem State.servedNotice_full (found : s.findWork r i = some w)
    (full : 4 ≤ s.channelFill (s.rd (R.RNG_SRV_AGENT r)) (w.owner % 16)) : s.servedNotice r i = s := by
  simp [State.servedNotice, found, Nat.not_lt.mpr full]

variable {who : Who} {status : Nat}

theorem State.isServer_iff (served : 12 ≤ r) (en : s.flag (R.RNG_SRV_EN r) = true) :
    s.isServer who r = true ↔ s.rd (R.RNG_SRV_AGENT r) = who.stamp := by
  simp [State.isServer, served, en]

theorem State.serverReturn_foreign (other : s.isServer who r = false) : s.serverReturn who r status i = s.denied who :=
  State.guarded_refused other

theorem State.serverReturn_served (server : s.isServer who r = true) (hl : who.late = false)
    (found : s.findWork r i = some w) (sent : w.stage = .served true) : s.serverReturn who r status i =
      s.decideGen w status (sget (fun _ => 0) s.ring.retRes r) s.gen.active :=
  (State.guarded_punctual server hl).trans (by simp [found, sent])

theorem State.serverReturn_unknown (server : s.isServer who r = true) (hl : who.late = false)
    (unknown : s.findWork r i = none) : s.serverReturn who r status i = s.put (R.RNG_STAT_RETERR r) true :=
  (State.guarded_punctual server hl).trans (by simp [unknown])

/-- A return for an index that names no work is marked RETERR. -/
theorem State.serverReturn_unknown_effect (wf : swf resetWord s.regs = true) (server : s.isServer who r = true)
    (hl : who.late = false) (unknown : s.findWork r i = none) :
    let u := s.serverReturn who r status i
    u.flag (R.RNG_STAT_RETERR r) = true ∧ WordsKept [(R.RNG_STAT_RETERR r).addr] s u ∧ Only [.regs] s u := by
  rw [State.serverReturn_unknown server hl unknown]
  have fits : (R.RNG_STAT_RETERR r).lsb + (R.RNG_STAT_RETERR r).width ≤ 32 := Nat.le_add_left 20 12
  exact ⟨State.flag_put_same _ _ _ wf fits rfl, (WordsKept.refl _ s).wr wf (by simp),
    State.put_only (Only.refl _ _) (by decide)⟩

/-! ### NOTE_BUF (R84, R273, R430) -/

theorem State.noteBuf_eq (ready : s.workReady r i 0x30 w = true) : s.noteBuf r i =
    if !s.inRam (w.word 3) 32 || !s.rangeOn (w.word 3) 32 then s.decide_ w St.malformed
    else s.updWork r i fun x => { x with stage := .waiting } :=
  State.runWork_ready ready (List.mem_singleton.mpr rfl)

/-- A buffer in memory that is on waits for a record. -/
theorem State.noteBuf_waits (ready : s.workReady r i 0x30 w = true) (ram : s.inRam (w.word 3) 32 = true)
    (on : s.rangeOn (w.word 3) 32 = true) : s.noteBuf r i = s.updWork r i fun x => { x with stage := .waiting } := by
  simp [State.noteBuf_eq ready, ram, on]

/-- Any other buffer is malformed. -/
theorem State.noteBuf_malformed (ready : s.workReady r i 0x30 w = true)
    (bad : s.inRam (w.word 3) 32 = false ∨ s.rangeOn (w.word 3) 32 = false) :
    s.noteBuf r i = s.decide_ w St.malformed := by
  obtain h | h := bad <;> simp [State.noteBuf_eq ready, h]

end Work

end Sys2Proof.Machine
end

section

open Sys2Proof Sys2Proof.Machine

/-- Settles O30, part by part of the chapter: sends, receive reads, ends of cohort sends, served rings, NOTE_BUF. Each
case of a command is one of the equations above, read in the state after the elapsed time. -/
theorem noticesAndServedWork : Obligations.NoticesAndServedWork := by
  unfold Obligations.NoticesAndServedWork
  intro s t canonical a up
  have c : a.Canonical :=
    (State.advance_only (ps := [.clk, .regs, .ev, .tx, .trace]) (Only.refl _ s) (by decide)).canonical canonical
  have wf : swf resetWord a.regs = true := c.regs
  refine ⟨fun who win v hw punctual => ?sends, fun who r _ => ?reads, fun win refused hw waits => ?cohort,
    fun n w served _ found => ?served, fun w _ ready => ?noteBuf⟩
  case sends =>
    intro dest local_ bad marks
    refine ⟨fun other => ⟨_, rfl, State.mbxSend_foreign other ▸ Ignored.of_denied wf⟩, fun own busy => ?_,
      fun own idle => ⟨fun here isBad => ?_, fun here good room => ?_, fun here good full => ?_, fun away => ?_⟩⟩
    · obtain ⟨refused, words, only⟩ := State.mbxSend_busy_effect (v := v) wf own punctual busy
      exact ⟨_, rfl, fun f hf => List.mem_singleton.mp hf ▸ refused, words, only⟩
    · exact ⟨_, rfl, State.mbxSend_local own punctual idle here ▸
        State.sendLocal_bad_effect wf hw (State.badDest_iff.mpr isBad)⟩
    · have fine : a.badDest win dest = false := Bool.eq_false_iff.mpr (mt State.badDest_iff.mp good)
      refine ⟨_, rfl, ?_⟩
      show (a.mbxSend who win v).mail = _ ∧ _
      rw [State.mbxSend_local own punctual idle here, State.sendLocal_room fine room up]
      exact ⟨State.appended_mail _, fun first => State.appended_emitted _ c.units first, State.appended_words _ wf,
        State.appended_only _⟩
    · have fine : a.badDest win dest = false := Bool.eq_false_iff.mpr (mt State.badDest_iff.mp good)
      obtain ⟨refused, lost, count, mail, only⟩ := State.sendLocal_full_effect (who := who) (tag := bitsOf v 0 16)
        (ptr := a.rd (R.MBX_SPTR_PTR win)) wf hw fine full
      rw [← State.mbxSend_local own punctual idle here] at refused lost count mail only
      exact ⟨_, rfl, fun f hf => List.mem_singleton.mp hf ▸ refused, lost, count, mail, only⟩
    · obtain ⟨busy, sends, notices, packet, words, only⟩ := State.sendCohort_effect (who := who) (win := win)
        (dest := dest) (tag := bitsOf v 0 16) (dev := bitsOf v 20 4) wf
      rw [← State.mbxSend_cohort own punctual idle away] at busy sends notices packet words only
      rw [own] at packet
      exact ⟨_, rfl, fun f hf => List.mem_singleton.mp hf ▸ busy, sends, notices, packet, words, only⟩
  case reads =>
    intro old
    have zero : ∀ u : State, Only [.bus] u (State.reply (u, 0)) := fun u => State.reply_only (Only.refl _ u) (by decide) 0
    refine ⟨fun other => ⟨⟨_, rfl, ?_⟩, ⟨_, rfl, ?_⟩⟩, fun own empty => ⟨_, rfl, ?_⟩, fun x hx own hr => ?_,
      fun own unlatched => ⟨_, rfl, ?_⟩, fun n own latched hn => ⟨_, rfl, ?_⟩⟩
    · rw [State.mbxLatch_foreign other]
      exact ⟨rfl, zero a⟩
    · rw [State.mbxRemove_foreign other]
      exact ⟨rfl, zero a⟩
    · rw [State.mbxLatch_empty own empty]
      exact ⟨rfl, State.reply_only ((Only.refl _ a).set_mail (by decide)) (by decide) 0⟩
    · obtain ⟨n, head, member, dst, first⟩ := State.headNotice_some hx hr
      refine ⟨_, n, rfl, member, dst, first x hx hr, ?_⟩
      rw [State.mbxLatch_head own head]
      exact ⟨latched_replaced _ _ _, rfl, rfl, State.reply_only ((Only.refl _ a).set_mail (by decide)) (by decide) _⟩
    · rw [State.mbxRemove_unlatched own unlatched]
      exact ⟨rfl, zero a⟩
    · rw [State.mbxRemove_latched own latched]
      exact ⟨Nat.mod_eq_of_lt (noticeHigh_lt _ _), rfl, latched_dropped _ _, State.lost_cleared wf hn,
        State.reply_only ((State.wr_only (Only.refl _ a) (by decide)).set_mail (by decide)) (by decide) _⟩
  case cohort =>
    exact ⟨⟨_, rfl, State.cohortAnswer_effect wf refused waits⟩,
      fun early => congrArg Host.Outcome.next (State.cohortSendTimeout_early early),
      fun due => ⟨_, rfl, State.cohortSendTimeout_due wf hw due⟩⟩
  case served =>
    intro server
    refine ⟨fun _ unsent => ⟨fun room => ⟨_, rfl, ?_⟩, fun full => ?_⟩, fun who status punctual en =>
      ⟨fun isServer sent => ⟨_, rfl, ?_⟩, fun isServer i unknown => ⟨_, rfl, ?_⟩, fun other => ⟨_, rfl, ?_⟩⟩⟩
    · exact State.servedNotice_effect found unsent room up
    · exact congrArg Host.Outcome.next (State.servedNotice_full found full)
    · rw [State.serverReturn_served ((State.isServer_iff served en).mpr isServer) punctual found sent]
      exact ⟨State.decideGen_decided .., State.decideGen_only (Only.refl _ _) (by decide)⟩
    · exact State.serverReturn_unknown_effect wf ((State.isServer_iff served en).mpr isServer) punctual unknown
    · rw [State.serverReturn_foreign (Bool.eq_false_iff.mpr (mt (State.isServer_iff served en).mp other))]
      exact Ignored.of_denied wf
  case noteBuf =>
    have found := State.findWork_of_workReady ready
    refine ⟨fun ram on => ⟨_, rfl, ?_⟩, fun bad => ⟨_, rfl, ?_⟩⟩
    · rw [State.noteBuf_waits ready ram on]
      exact ⟨State.findWork_updWork found fun _ => ⟨rfl, rfl⟩, rfl, State.updWork_only (Only.refl _ _) (by decide)⟩
    · rw [State.noteBuf_malformed ready bad]
      exact ⟨State.decided_decide .., State.decide__only (Only.refl _ _) (by decide)⟩

end

section
/-!
Root cycle sets (R76, R78): what a write of TMP_SETCYC_HI on a root decides while an earlier one still waits. The last
theorem refutes O34.
-/

namespace Sys2Proof.Machine

/-- The reset state is canonical: every store is empty. -/
theorem State.reset_canonical : State.reset.Canonical := by constructor <;> rfl

/-- The move, in sixteenths of a step, from the count at the next cycle start that is 4 steps away to the count that
TMP_SETCYC names. -/
def State.setcycMove (s : State) (hi : Nat) : Int :=
  ((s.rd R.TMP_SETCYC_LO_CYC_L + 2 ^ 32 * (hi % 256) : Nat) - (s.local16 / 16 + 4 + 65535) / 65536) * 1048576

/-- What earlier writes of TMP_SETCYC that have not taken effect will move local tempo by. -/
def State.setcycWaiting (s : State) : Int :=
  (s.tmp.corrections.filter (·.confirms)).foldl (fun (n : Int) c => n + c.dLocal) 0

/-- A confirming correction of local and aligned tempo by `d`, decided now. -/
def State.confirming (s : State) (d : Int) : Correction :=
  { cause := s.local16 / 16, dAlign := d, dLocal := d, confirms := true }

/-- On a root the correction decided is the move less what still waits. -/
theorem State.setCycle_root {s : State} {hi : Nat} (root : s.flag R.TMP_CFG_ROOT = true) :
    (s.setCycle hi).tmp = { s.tmp with
      corrections := s.tmp.corrections ++ [s.confirming (s.setcycMove hi - s.setcycWaiting)] } := by
  have move : ∀ m w : Int, m * 65536 * 16 - w = m * 1048576 - w := fun m w => by omega
  simp [State.setCycle, State.isRoot, root, State.correct, move, State.confirming, State.setcycMove, State.setcycWaiting]

/-- The correction decided is the whole move only where no earlier write moves tempo. -/
theorem State.setcycWaiting_eq_zero_of_setCycle {s : State} {hi : Nat} (root : s.flag R.TMP_CFG_ROOT = true)
    (h : (s.setCycle hi).tmp = { s.tmp with
      corrections := s.tmp.corrections ++ [s.confirming (s.setcycMove hi)] }) : s.setcycWaiting = 0 := by
  rw [State.setCycle_root root] at h
  have same : s.confirming (s.setcycMove hi - s.setcycWaiting) = s.confirming (s.setcycMove hi) := by
    simpa using congrArg TempoState.corrections h
  have moves : s.setcycMove hi - s.setcycWaiting = s.setcycMove hi := congrArg Correction.dLocal same
  omega

/-- A root whose tempo runs in cycle 0; an earlier write of TMP_SETCYC, which moves it by one cycle, still waits. -/
def rootAwaitingSetcyc : State :=
  ((State.reset.wr R.TMP_CFG_ROOT 1).setDom Dom.msn { state := 2, target := 2 }).setTmp fun r =>
    { r with corrections := [{ cause := 0, dAlign := 1048576, dLocal := 1048576, confirms := true }] }

theorem rootAwaitingSetcyc_canonical : rootAwaitingSetcyc.Canonical :=
  (State.setTmp_only (State.setDom_only (State.wr_only (Only.refl [.regs, .doms, .tmp] State.reset) (by decide)) (by decide))
    (by decide)).canonical State.reset_canonical

end Sys2Proof.Machine
end

section

open Sys2Proof Sys2Proof.Machine

/-- Refutes O34: a write of TMP_SETCYC replaces one that still waits, so the correction that it decides is not the whole
move to the new count. Agent 1, the owner of TMP, writes on a root where an earlier write waits. -/
theorem not_tempoFollowsMainsAndBells : ¬ Obligations.TempoFollowsMainsAndBells := by
  unfold Obligations.TempoFollowsMainsAndBells
  intro h
  obtain ⟨-, -, -, -, -, -, -, rootCycleSet, -⟩ := h rootAwaitingSetcyc ⟨0, 0⟩ rootAwaitingSetcyc_canonical
  have on : (rootAwaitingSetcyc.advance ⟨0, 0⟩).unitOn Hdr.tmp = true := by decide
  have owner : (rootAwaitingSetcyc.advance ⟨0, 0⟩).owns ⟨1, true, false⟩ Hdr.tmp = true := by decide
  have root : (rootAwaitingSetcyc.advance ⟨0, 0⟩).flag R.TMP_CFG_ROOT = true := by decide
  have waits : (rootAwaitingSetcyc.advance ⟨0, 0⟩).setcycWaiting = 1048576 := by decide
  obtain ⟨-, -, set⟩ := rootCycleSet ⟨1, true, false⟩ 0 on rfl
  obtain ⟨u, run, tmp, -⟩ := set owner root
  have effect : (rootAwaitingSetcyc.advance ⟨0, 0⟩).setCycle 0 = u := by
    have := Host.Outcome.next.inj run
    rwa [State.pageWrite_owner owner rfl, if_pos on] at this
  rw [← effect] at tmp
  have none_waits := State.setcycWaiting_eq_zero_of_setCycle root tmp
  rw [waits] at none_waits
  exact absurd none_waits (by decide)

end
